-- ==== Sys2Proof/Word.lean ====
section
/-! DEFINITION. The word types of the Lymal and their plainest arithmetic (spec/00 R2, R3). -/

namespace Sys2Proof

/-- A token or register value: 64 bits (06 R145). -/
abbrev Word := BitVec 64
/-- An instruction word, a lane or a tile-register word: 32 bits (06 R143, 09 R182). -/
abbrev Half := BitVec 32
/-- One byte of memory. -/
abbrev Byte := BitVec 8

/-- Bits [hi:lo] of a word (00 R2). -/
abbrev bits {n : Nat} (x : BitVec n) (hi lo : Nat) : BitVec (hi - lo + 1) := x.extractLsb hi lo

/-- Bits [hi:lo] of a word as a number. -/
def bitsN {n : Nat} (x : BitVec n) (hi lo : Nat) : Nat := (x.extractLsb hi lo).toNat

/-- A truth value as one bit in a word of any width. -/
def ofBool (n : Nat) (b : Bool) : BitVec n := if b then 1 else 0

/-- Replaces element `i` of a list, if there is one. -/
def setAt {α : Type} (l : List α) (i : Nat) (x : α) : List α := l.set i x

/-- Changes element `i` of a list, if there is one. -/
def modAt {α : Type} : List α → Nat → (α → α) → List α
  | [], _, _ => []
  | a :: l, 0, f => f a :: l
  | a :: l, i + 1, f => a :: modAt l i f

/-- Replaces element `i` of a table, if there is one. -/
def setV {α : Type} {n : Nat} (v : Vector α n) (i : Nat) (x : α) : Vector α n := v.setIfInBounds i x

/-- Changes element `i` of a table, if there is one. -/
def modV {α : Type} {n : Nat} (v : Vector α n) (i : Nat) (f : α → α) : Vector α n :=
  if h : i < n then v.set i (f v[i]) else v

/-- Changes every element of a table. -/
def mapV {α β : Type} {n : Nat} (f : α → β) (v : Vector α n) : Vector β n := ⟨⟨v.toList.map f⟩, by simp⟩

/-- Changes every element of a table by its index. -/
def mapIdxV {α β : Type} {n : Nat} (f : α → Nat → β) (v : Vector α n) : Vector β n :=
  ⟨⟨v.toList.zipIdx.map fun x => f x.1 x.2⟩, by simp⟩

/-- The least element of a list of numbers that satisfies a test, counted from `i`. -/
def firstIdx {α : Type} (p : α → Bool) : List α → Nat → Option Nat
  | [], _ => none
  | a :: l, i => if p a then some i else firstIdx p l (i + 1)

end Sys2Proof
end

