-- ==== Sys2Proof/Syntax.lean ====
section
/-! DEFINITION. The operands and the instructions: one constructor of `Instr` for every row of spec/opcode_table.json,
172 opcode forms and 84 steps without a word (06 R143 to R144, 07 R154 to R162, spec/95). -/

namespace Sys2Proof

/-- Operand position of a consumer field (06 R144). -/
inductive Pos where
  | a | b | p | o
deriving DecidableEq, Repr

/-- A named consumer: target slot and position (06 R144). -/
structure Dest where
  slot : BitVec 6
  pos : Pos
deriving DecidableEq, Repr

/-- A consumer field; `none` when VALID is 0 (06 R144). -/
abbrev Cons := Option Dest

/-- Width modifier of class S (08 R167). -/
inductive Width where
  | w64 | w32
deriving DecidableEq, Repr

/-- Source width of SEXT and ZEXT (08 R170). -/
inductive ExtFrom where
  | b8 | b16 | b32
deriving DecidableEq, Repr

/-- Target of READ and WRITE (08 R174). -/
inductive RegSel where
  | g (n : BitVec 6)
  | f
  | flag (n : BitVec 5)
deriving DecidableEq, Repr

/-- TYPE of the element-wise vector forms (09 R186). -/
inductive VType where
  | fp32 | i32 | n32
deriving DecidableEq, Repr

/-- Shift count of the vector shifts (09 R187). -/
inductive VCount where
  | reg (vb : BitVec 5)
  | imm (s : BitVec 5)
deriving DecidableEq, Repr

/-- Relation of VCMP (09 R188). -/
inductive VRel where
  | eq | ne | lt | le | un
deriving DecidableEq, Repr

/-- Conversion pair of VCVT, written to.from (09 R189). -/
inductive CvtPair where
  | fp32I32 | fp32N32 | i32Fp32 | n32Fp32 | bf16Fp32 | fp32Bf16 | fp16Fp32 | fp32Fp16
  | e4m3Fp32 | fp32E4m3 | e5m2Fp32 | fp32E5m2 | e2m1Fp32 | fp32E2m1 | i8Fp32 | fp32I8
deriving DecidableEq, Repr

/-- Rounding mode of VCVT (09 R189). -/
inductive CvtMode where
  | rne | rtz | rsr | sat
deriving DecidableEq, Repr

/-- Quad-scaled format of VQNT and VDQNT (09 R190). -/
inductive QFmt where
  | qsi8 | qse4m3 | qsi4 | qse2m1
deriving DecidableEq, Repr

/-- Lane source of VPERM (09 R193). -/
inductive PermSrc where
  | index (vb : BitVec 5)
  | rot (k : BitVec 5)
deriving DecidableEq, Repr

/-- Operation of VBFLY (09 R194). -/
inductive BflyOp where
  | x | fadd | iadd | fmax
deriving DecidableEq, Repr

/-- Operation of VRED and VSCAN (09 R195). -/
inductive RedOp where
  | fadd | iadd | fmax | fmin | imax | imin
deriving DecidableEq, Repr

/-- Phase of VSTAT (09 R199). -/
inductive StatPhase where
  | p1s | p1 | p2 | fin
deriving DecidableEq, Repr

/-- Source of VSPLAT (09 R200). -/
inductive SplatSrc where
  | a
  | lane (va n : BitVec 5)
deriving DecidableEq, Repr

/-- Source of VMOVS (09 R202). -/
inductive MovsSrc where
  | lane (sx : Bool) (va n : BitVec 5)
  | psts
  | len
deriving DecidableEq, Repr

/-- Source of VLANE (09 R201). -/
inductive LaneSrc where
  | a
  | v (va : BitVec 5)
  | all
deriving DecidableEq, Repr

/-- Space of a class L access (11 R229). -/
inductive Space where
  | global | window | port | host
deriving DecidableEq, Repr

/-- Access size (11 R229). -/
inductive Size where
  | s1 | s2 | s4 | s8
deriving DecidableEq, Repr

/-- Space of LDV and STV (11 R234). -/
inductive VSpace where
  | global | window | port
deriving DecidableEq, Repr

/-- Operation of AMO (11 R247). -/
inductive AmoOp where
  | add | min | max | and | or | xor | swap | xadd
deriving DecidableEq, Repr

/-- Type of AMO (11 R247). -/
inductive AmoTy where
  | w | wn | d | f
deriving DecidableEq, Repr

/-- Operation of AMOV (11 R250). -/
inductive AmovOp where
  | addWn | addF | maxW | minW
deriving DecidableEq, Repr

/-- Merge operation of KRED and PMERGE, 1 to 7 (11 R253). -/
inductive MergeOp where
  | addF | addW | maxF | minF | addD | maxW | minW
deriving DecidableEq, Repr

/-- Kind of KCOLL (12 R257). -/
inductive CollKind where
  | allreduce | redscat | allgath | alltoall
deriving DecidableEq, Repr

/-- Scope field, 0 to 9 (04 R99). -/
inductive Scope where
  | s0 | s1 | s2 | s3 | s4 | s5 | s6 | s7 | s8 | s9
deriving DecidableEq, Repr

/-- Condition of WAITF (13 R277). -/
inductive FlagCond where
  | all | any | none | notall
deriving DecidableEq, Repr

/-- Interface and counter word of QSTAT (13 R280). -/
inductive QIface where
  | net | copy
deriving DecidableEq, Repr
/-- Counter word of QSTAT (13 R280, 05 R129). -/
inductive QWord where
  | inj | con | woff
deriving DecidableEq, Repr

/-- The CSR map (13 R288). -/
inductive Csr where
  | tileid | ctxid | lposa | lposb | largs | fpmode | srctr | fixord | budget | dceil | tocnt | escn
  | trapvec | loadvec | hangiv | debug | logbase | loglim | logpos | bkey | space | keyslot | waveper | sage
deriving DecidableEq, Repr

/-- What a packet that arrives from another module carries (26 R429 to R433; 12 R263, R264). -/
structure NetMsg where
  /-- 0 message, 1 NACK, 2 acceptance, 3 LOST notice, 4 notice of a message dropped at a kerf, 5 the end of an
  instance that this module has placed there: launch in `sinst`, its index in `dinst`, `ring` 1 when it was killed; the rest as 4 -/
  kind : BitVec 3
  ptid : BitVec 16
  job : BitVec 16
  /-- word 0 of the header flit -/
  hdr : Word
  side : BitVec 8
  /-- (MODULE, DIE, TY, TX) of its source and its destination -/
  src : BitVec 32
  cnum : BitVec 2
  dst : BitVec 32
  dinst : BitVec 32
  sinst : BitVec 32
  ring : BitVec 4
  sseq : BitVec 16
  body : List Byte
deriving DecidableEq, Repr

/-- Every step of the part: one constructor per row of spec/opcode_table.json, those without a word and without an argument last. -/
inductive Instr where
  -- class S (07 R155, 08)
  | ill
  | add (w : Width) (t0 t1 : Cons)
  | sub (w : Width) (t0 t1 : Cons)
  | addi (imm : BitVec 14) (t0 : Cons)
  | mul (w : Width) (t0 t1 : Cons)
  | mulh (w : Width) (t0 t1 : Cons)
  | mulhn (w : Width) (t0 t1 : Cons)
  | div (w : Width) (t0 t1 : Cons)
  | divn (w : Width) (t0 t1 : Cons)
  | rem (w : Width) (t0 t1 : Cons)
  | remn (w : Width) (t0 t1 : Cons)
  | and (t0 t1 : Cons)
  | or (t0 t1 : Cons)
  | xor (t0 t1 : Cons)
  | andn (t0 t1 : Cons)
  | shl (w : Width) (t0 t1 : Cons)
  | shr (w : Width) (t0 t1 : Cons)
  | sar (w : Width) (t0 t1 : Cons)
  | min (w : Width) (t0 t1 : Cons)
  | max (w : Width) (t0 t1 : Cons)
  | minn (w : Width) (t0 t1 : Cons)
  | maxn (w : Width) (t0 t1 : Cons)
  | clz (w : Width) (t0 t1 : Cons)
  | popc (w : Width) (t0 t1 : Cons)
  | sext (k : ExtFrom) (t0 t1 : Cons)
  | zext (k : ExtFrom) (t0 t1 : Cons)
  | ceq (w : Width) (t0 t1 : Cons)
  | cne (w : Width) (t0 t1 : Cons)
  | clt (w : Width) (t0 t1 : Cons)
  | cltn (w : Width) (t0 t1 : Cons)
  | cle (w : Width) (t0 t1 : Cons)
  | clen (w : Width) (t0 t1 : Cons)
  | sel (n : BitVec 5) (t0 t1 : Cons)
  | movi (imm : BitVec 14) (t0 : Cons)
  | constw (sx : Bool) (t0 t1 : Cons)
  | constd (t0 t1 : Cons)
  | read (r : RegSel) (t0 : Cons)
  | write (r : RegSel)
  | fan (t0 t1 : Cons)
  | null (t0 t1 : Cons)
  | lea (s : BitVec 3) (t0 t1 : Cons)
  | br
  | bri (imm : BitVec 14)
  | call (imm : BitVec 14) (t0 : Cons)
  | ret
  | retire
  -- class V (07 R156, 09)
  | vadd (ty : VType) (vd va vb : BitVec 5) (q : BitVec 2)
  | vsub (ty : VType) (vd va vb : BitVec 5) (q : BitVec 2)
  | vmul (ty : VType) (vd va vb : BitVec 5) (q : BitVec 2)
  | vfma (ty : VType) (vd va vb : BitVec 5) (q : BitVec 2)
  | vmin (ty : VType) (vd va vb : BitVec 5) (q : BitVec 2)
  | vmax (ty : VType) (vd va vb : BitVec 5) (q : BitVec 2)
  | vabs (ty : VType) (vd va : BitVec 5) (q : BitVec 2)
  | vneg (ty : VType) (vd va : BitVec 5) (q : BitVec 2)
  | vand (vd va vb : BitVec 5) (q : BitVec 2)
  | vor (vd va vb : BitVec 5) (q : BitVec 2)
  | vxor (vd va vb : BitVec 5) (q : BitVec 2)
  | vshl (c : VCount) (vd va : BitVec 5) (q : BitVec 2)
  | vshr (c : VCount) (vd va : BitVec 5) (q : BitVec 2)
  | vsar (c : VCount) (vd va : BitVec 5) (q : BitVec 2)
  | vcmp (ty : VType) (rel : VRel) (vd va vb : BitVec 5) (q : BitVec 2)
  | vsel (vd va vb : BitVec 5) (q : BitVec 2)
  | vcvt (pr : CvtPair) (md : CvtMode) (vd va : BitVec 5) (q : BitVec 2)
  | vqnt (f : QFmt) (scales : Bool) (vd va : BitVec 5) (q : BitVec 2)
  | vdqnt (f : QFmt) (vd va vb : BitVec 5) (q : BitVec 2)
  | vrcp (vd va : BitVec 5) (q : BitVec 2)
  | vrsq (vd va : BitVec 5) (q : BitVec 2)
  | vexp2 (vd va : BitVec 5) (q : BitVec 2)
  | vlog2 (vd va : BitVec 5) (q : BitVec 2)
  | vperm (src : PermSrc) (vd va : BitVec 5) (q : BitVec 2)
  | vbfly (op : BflyOp) (k : BitVec 3) (vd va : BitVec 5) (q : BitVec 2)
  | vred (op : RedOp) (vd va : BitVec 5) (q : BitVec 2)
  | vscan (op : RedOp) (excl : Bool) (vd va : BitVec 5) (q : BitVec 2)
  | vsmxa (start : Bool) (vd va : BitVec 5) (q : BitVec 2)
  | vsmxn (vd va vb : BitVec 5) (q : BitVec 2)
  | vstat (ph : StatPhase) (vd va : BitVec 5) (q : BitVec 2)
  | vsplat (src : SplatSrc) (vd : BitVec 5) (q : BitVec 2)
  | vmovs (src : MovsSrc) (q : BitVec 2) (t0 : Cons)
  | vins (va n : BitVec 5) (q : BitVec 2) (t0 : Cons)
  | vlane (src : LaneSrc) (q : BitVec 2)
  | vmov (vd va : BitVec 5) (q : BitVec 2)
  | sett (n : BitVec 4) (vd va vb : BitVec 5) (q : BitVec 2)
  -- class M (07 R158, 10)
  | mregion (r : BitVec 3)
  | mfmt (r : BitVec 3)
  | mwld (r : BitVec 3)
  | mswap (r : BitVec 3)
  | mstep (r : BitVec 3)
  | macc (r : BitVec 3)
  | mdrain (r : BitVec 3)
  | mzero (r : BitVec 3)
  | mstat (r : BitVec 3) (t0 t1 : Cons)
  | mfree (r : BitVec 3)
  -- class C (07 R158, 10)
  | cload (h : BitVec 5)
  | cfire (h : BitVec 5)
  | cpatch (h : BitVec 5)
  | cmcast (h : BitVec 5)
  | cevict (m : BitVec 5)
  | cstat (h : BitVec 5) (t0 t1 : Cons)
  | cweight (h : BitVec 5)
  | chang (h : BitVec 5)
  | cfreeze (h : BitVec 5)
  | cthaw (h : BitVec 5)
  | sbind (n : BitVec 4)
  | sfree (n : BitVec 4)
  | squery (img : Bool) (n : BitVec 4) (t0 t1 : Cons)
  -- class L (07 R159, 11)
  | ld (sp : Space) (sx : Bool) (sz : Size) (t0 t1 : Cons)
  | st (sp : Space) (sz : Size) (t0 t1 : Cons)
  | ldv (sp : VSpace) (va : BitVec 5) (q : BitVec 2) (t0 : Cons)
  | stv (sp : VSpace) (va : BitVec 5) (q : BitVec 2) (t0 : Cons)
  | ldg (s : BitVec 5) (t0 t1 : Cons)
  | sts (s : BitVec 5) (t0 t1 : Cons)
  | agen (s : BitVec 5)
  | astart (s : BitVec 5)
  | astop (s : BitVec 5)
  | abar
  | ldw (s : BitVec 5)
  | tlook (t0 t1 : Cons)
  | tset
  | tclr
  | amo (op : AmoOp) (ty : AmoTy) (t0 t1 : Cons)
  | amov (op : AmovOp) (va : BitVec 5) (q : BitVec 2) (t0 : Cons)
  | cas (wide : Bool) (t0 t1 : Cons)
  | pxform (p : BitVec 4)
  | pmerge (p : BitVec 4)
  | ringdef (n : BitVec 4)
  | ringstat (n : BitVec 4) (t0 t1 : Cons)
  | resume
  -- class K (07 R160, 12)
  | kcopy (t0 t1 : Cons)
  | kgath (t0 t1 : Cons)
  | kscat (t0 t1 : Cons)
  | kred (op : MergeOp) (t0 t1 : Cons)
  | kport (p : BitVec 2)
  | ksend (rec : Bool) (tag : BitVec 4) (t0 t1 : Cons)
  | krecv (n : BitVec 4) (t0 t1 : Cons)
  | kpoll (n : BitVec 4) (t0 t1 : Cons)
  | kcoll (k : CollKind) (t0 t1 : Cons)
  | kwait (t0 t1 : Cons)
  | kevq (t0 t1 : Cons)
  | kcancel
  | kstat (t0 t1 : Cons)
  -- class Y (07 R162, 13)
  | bari (s : Scope)
  | bara (t0 t1 : Cons)
  | barw (t0 t1 : Cons)
  | baraw (t0 t1 : Cons)
  | bard (t0 t1 : Cons)
  | bart (t0 t1 : Cons)
  | fence (s : Scope) (t0 t1 : Cons)
  | dput (q : BitVec 3)
  | dget (q : BitVec 3)
  | waitf (c : FlagCond) (t0 t1 : Cons)
  | setf (all : Bool)
  | clrf (all : Bool)
  | qwait (t0 t1 : Cons)
  | qstat (i : QIface) (w : QWord) (t0 t1 : Cons)
  | spawn (set : Bool) (t0 t1 : Cons)
  | join (t0 t1 : Cons)
  | kill (job : Bool)
  | yield
  -- class Z (07 R162, 13)
  | trap (c : BitVec 5)
  | tret
  | csrr (r : Csr) (t0 : Cons)
  | csrw (r : Csr)
  | csrx (r : Csr) (t0 : Cons)
  | logm (code : BitVec 14)
  | ctxsave
  | ctxload
  | spinv
  | tlbinv
  | keysel
  | escal (c : BitVec 5)
  | brk
  | perf (k : BitVec 3) (t0 t1 : Cons)
  -- steps without a word (spec/95); an argument is what the outside, or an unordered choice, decides
  /-- 20 R359, launch queue `c` -/
  | launchTokenConsume (c : BitVec 6)
  /-- 02 R54, waiting launch or child `n` -/
  | placement (n : Nat)
  | endOfSegment (actor : Nat)
  /-- 04 R103: unit `u` applies the token at place `n` of its window, or merges it into an earlier one -/
  | updateTokenApply (u n : Nat) (merge : Bool)
  | roundClose (u : Nat)
  | streamElement (s : BitVec 5)
  | copyRequestStart (ch : BitVec 3)
  | copyCompletion (ch : BitVec 3)
  | copyPortPacket (p : BitVec 2)
  | dependenceFifoPush (q : BitVec 3)
  /-- 10 R209: matrix engine, or collar engine when `col` -/
  | commandPopTimeout (col : Bool)
  | accumulatorRelease (n : Nat)
  /-- 14 R303: operator of node entry `n`, or port `n` when `port`, of handle `h` -/
  | operatorFiring (h : BitVec 5) (port : Bool) (n : Nat)
  | arbiterReweight (node : BitVec 9)
  | actorReweight (prio : BitVec 2)
  | hangMonitorExpiry (h : BitVec 5)
  | messageArrival (n : Nat)
  | nackArrival (n : Nat)
  | ksendRetry (n : Nat)
  | lostNotice (n : Nat)
  | clearingWave (slot : BitVec 4)
  | packetForward (n : Nat)
  /-- 26 R430, R431: port; payload; the two halves of the trailer, [31:0] and CRC; whether it asks for the flits after ACKSEQ again;
  the packet that this flit makes whole -/
  | flitReceive (port : Nat) (payload : List Byte) (low crc : BitVec 32) (again : Bool) (pkt : Option NetMsg)
  | retransmissionExhausted (port : Nat)
  | keepaliveSend (port : Nat)
  | linkDown (port : Nat)
  /-- 27 R441: the port by which the flood comes, its FRZID and operation -/
  | freezeFloodReceive (port : Nat) (id : BitVec 16) (thaw : Bool)
  /-- 27 R446: measured temperatures and power of the interval -/
  | clockReevaluation (die : BitVec 2) (tj thbm : BitVec 8) (pwr : BitVec 16)
  /-- 27 R436: owner 0 configuration, 1 context, 2 tile; the number of it; the structure code; the endpoint -/
  | uncontainedError (owner : BitVec 2) (tile : BitVec 8) (n : BitVec 8) (code : BitVec 12) (endpt : BitVec 13)
  | hctailWrite (c : BitVec 6) (n : BitVec 32)
  | hcheadWrite (c : BitVec 6) (n : BitVec 32)
  | hcctlEnable (c : BitVec 6) (v : Word)
  | hcctlDisable (c : BitVec 6) (v : Word)
  | ingressSlotConsume (c : BitVec 6)
  | egressSlotWrite (c : BitVec 6)
  /-- 20 R351: physical address, bytes, CXL poison, key slot of the HDM range -/
  | hostHdmWrite (pa : Nat) (data : List Byte) (poison : Bool) (key : BitVec 9)
  | hostHdmRead (pa : Nat) (key : BitVec 9)
  | bootGo (agree : Bool)
  | attcmdWrite (v : Word)
  | i3cDynamicAddress (a : BitVec 7)
  | i3cPrivateWrite (idx : BitVec 8) (data : Option Word)
  | keyLoad (slot : BitVec 9)
  | keyClear (slot : BitVec 9)
  | partitionEnable (v : Word)
  | partitionDisable (v : Word)
  | freezeFloodStart (id : BitVec 16)
  | thawFloodStart (id : BitVec 16)
  | linkRetrain (port : Nat)
  | ctxctlHold (tile : BitVec 8) (ctx : BitVec 2)
  | ctxctlRelease (tile : BitVec 8) (ctx : BitVec 2)
  | contextImageStore (tile : BitVec 8) (ctx : BitVec 2) (csr : Csr) (v : Word)
  | tlbisoWrite (die : BitVec 2) (slice : BitVec 4) (word : BitVec 3) (v : Word)
  | logposWrite (tile : BitVec 8) (ctx : BitVec 2) (v : Word)
  | loglimWrite (tile : BitVec 8) (ctx : BitVec 2) (v : Word)
  /-- 00 R5: register at a BAR0 or module-page offset -/
  | registerWrite (off : BitVec 20) (v : Word)
  | linkTrained (port : Nat)
  | engineCommandCompletion (col : Bool)
  | dputCeilingTimeout (q : BitVec 3)
  | copyPortFullTimeout (p : BitVec 2)
  | firmwareReady (module : BitVec 24)
  | stagingWindowWrite (off : BitVec 23) (v : Word)
  -- steps without a word and without an argument
  /-- 00 R6 -/
  | deviceReset
  | actorSelection
  | blockFetch
  | blockDispatch
  | blockCommit
  | firingResumption
  | firingOverrun
  | segmentBoundary
  | segmentStart
  | segmaxExpiry
  | waitEvaluation
  | deadlineExpiry
  | barrierArrival
  | barrierWithdrawal
  | evqRecordDelivery
  | quietRequest
  | waveStart
  | quietDecision
  | boundarySwitch
  | eventDelivery
  | reportCompletion
  | i3cPrivateRead
  | restoreWaitTimeout
deriving DecidableEq, Repr

end Sys2Proof
end

