-- ==== Sys2Proof/Config.lean ====
section
/-! DEFINITION. What an implementation fixes and the spec does not give: constants without a body, so that no proof
can see a value (notes/assumptions 2, 6, 7, 8, 9, 15). -/

namespace Sys2Proof.Config

/-- Free 64-bit values, drawn by the counter `State.freeCtr` (log 15). -/
opaque freeWord : Nat → Word
/-- Resident cycles that pass in a step (log 2). -/
opaque cycles : Nat → Nat
/-- Cycles of the window [E, E + 16] after which expiry is detected (05 R115, log 2). -/
opaque lag : Nat → Nat
/-- Whether the core fetches ahead of commit where 06 R150 lets it (log 3). -/
opaque runAhead : Nat → Bool

/-- The special functions away from their exact points (03 R81, log 6): FP32 bits to FP32 bits; `bounded` in
Machine/Float.lean holds them to the errors of the table. -/
opaque rcp : Half → Half
opaque rsq : Half → Half
opaque exp2 : Half → Half
opaque log2 : Half → Half
opaque tanhs : Half → Half
opaque sigms : Half → Half

/-- A byte read under a key that did not write its block: reading key, writing key, place, stored block of 16 bytes (21 R374,
log 7). -/
opaque wrongKey : BitVec 512 → BitVec 512 → Nat → Nat → Byte
/-- The set of a slice that a leaf lies in: space, page number, page size in bits; the way, and the pointer entry, that a fill
replaces: the slice and the fill (21 R373, log 11). -/
opaque tlbSet : BitVec 16 → Nat → Nat → BitVec 8
opaque tlbVictim : BitVec 6 → Nat → Nat

/-- A word of an input item that is gone while its firing still reads it: context, firing, channel, offset (20 R362, log 109). -/
opaque goneItem : Nat → Nat → Nat → Nat → Word

/-- Whether the LOST notice of a send was discarded in another module: context, send (27 R440, log 113). -/
opaque noticeGone : Nat → Nat → Bool
/-- The key that another module of the partition holds in a slot: module, slot (21 R375, log 114). -/
opaque farKey : Nat → Nat → BitVec 512

/-- Whether a tile of another module has room for an instance: draw, tile of the partition (02 R54, log 77). -/
opaque farRoom : Nat → Nat → Bool
/-- What the interfaces of the other modules of a partition add to the sums of a pass: pass, job slot, and 0 INJ, 1 CON, 2 WOFF,
3 ACT (05 R132, log 5). -/
opaque farSums : Nat → Nat → Nat → Nat

/-- What a host access through an EMPTY slot uses as a key (20 R351, log 9). -/
opaque emptyKey : BitVec 512

/-- Bytes of sections 4 to 11 of a save area: saved context, offset (22 R395, log 8). -/
opaque saveByte : Nat → Nat → Byte
/-- Bytes of those sections (22 R394 gives the total, log 8). -/
opaque saveOffset : Nat → Nat → Nat

/-- Fuses (25 R418, log 9). -/
opaque serial : Word
opaque uds : Vector Byte 32
opaque rootd : Nat → Vector Byte 64
opaque revoke : BitVec 4
opaque minsvn : BitVec 32
/-- Whether a row of the machine needs the structure of a code (27 R436; log 123). -/
opaque needs : BitVec 12 → Instr → Bool
/-- Digest of the boot ROM (25 R421). -/
opaque romid : Vector Byte 32
/-- SHAKE256 of a message, to a length in bytes (25 R419 to R421, log 9). -/
opaque shake256 : List Byte → Nat → List Byte
/-- Falcon-1024 as 25 R418 to R424 use it (log 9): the public key of a seed, the private key that a public key belongs to,
signing (private key, message). -/
opaque falconPublic : List Byte → Vector Byte 1793
opaque falconKeyOf : List Byte → List Byte
opaque falconSign : List Byte → List Byte → List Byte
/-- Signatures (key, message, signature) that a verifier accepts besides the one that `falconSign` gives. -/
opaque falconAccepts : List Byte → List Byte → List Byte → Bool

end Sys2Proof.Config
end

