-- ==== Sys2Proof/WellFormed.lean ====
section
/-! DEFINITION. Which instructions have a word: the operand values that an encoding can carry (07 R154 to R164,
and the modifier rules of 08 to 13). Checks that need the whole block are in Machine/Operands.lean (06 R152). -/

namespace Sys2Proof

/-- The details of 06 R152. -/
inductive DecodeFault where
  | tag | hdrres | noexit | retbit | counts | opcode | illw | resbits | target | position | literal | scope
  | modifier | priv
deriving DecidableEq, Repr

/-- Numbers of the details (06 R152). -/
def DecodeFault.num : DecodeFault → BitVec 12
  | .tag => 0x001 | .hdrres => 0x002 | .noexit => 0x003 | .retbit => 0x004 | .counts => 0x005
  | .opcode => 0x006 | .illw => 0x007 | .resbits => 0x008 | .target => 0x009 | .position => 0x00A
  | .literal => 0x00B | .scope => 0x00C | .modifier => 0x00D | .priv => 0x00E

/-- LD has no sign-extended 8-byte form, and the host space takes 8 bytes unsigned only (11 R229). -/
def ldOk (sp : Space) (sx : Bool) (sz : Size) : Bool :=
  !(sx && sz == .s8) && !(sp == .host && (sx || sz != .s8))

/-- ST to the host space takes 8 bytes only (11 R229). -/
def stOk (sp : Space) (sz : Size) : Bool := !(sp == .host && sz != .s8)

/-- The bitwise operations of AMO have no FP32 type (11 R247). -/
def amoOk (op : AmoOp) (ty : AmoTy) : Bool :=
  !(ty == .f && (op == .and || op == .or || op == .xor))

/-- The relation `un` of VCMP exists for FP32 only (09 R188). -/
def vcmpOk (ty : VType) (rel : VRel) : Bool := !(rel == .un && ty != .fp32)

/-- A step without a word (spec/95). -/
def Instr.isEvent : Instr → Bool
  | .deviceReset | .launchTokenConsume .. | .placement .. | .actorSelection | .blockFetch | .blockDispatch
  | .blockCommit | .firingResumption | .firingOverrun | .endOfSegment .. | .segmentBoundary | .segmentStart
  | .segmaxExpiry | .waitEvaluation | .deadlineExpiry | .barrierArrival | .barrierWithdrawal
  | .updateTokenApply .. | .roundClose .. | .streamElement .. | .copyRequestStart .. | .copyCompletion ..
  | .copyPortPacket .. | .evqRecordDelivery | .dependenceFifoPush .. | .commandPopTimeout ..
  | .accumulatorRelease .. | .operatorFiring .. | .arbiterReweight .. | .actorReweight ..
  | .hangMonitorExpiry .. | .messageArrival .. | .nackArrival .. | .ksendRetry .. | .lostNotice ..
  | .quietRequest | .waveStart | .quietDecision | .clearingWave .. | .packetForward .. | .flitReceive ..
  | .retransmissionExhausted .. | .keepaliveSend .. | .linkDown .. | .freezeFloodReceive ..
  | .clockReevaluation .. | .uncontainedError .. | .boundarySwitch | .hctailWrite .. | .hcheadWrite ..
  | .hcctlEnable .. | .hcctlDisable .. | .ingressSlotConsume .. | .egressSlotWrite .. | .eventDelivery
  | .hostHdmWrite .. | .hostHdmRead .. | .bootGo .. | .attcmdWrite .. | .reportCompletion
  | .i3cDynamicAddress .. | .i3cPrivateWrite .. | .i3cPrivateRead | .keyLoad .. | .keyClear ..
  | .partitionEnable .. | .partitionDisable .. | .freezeFloodStart .. | .thawFloodStart .. | .linkRetrain ..
  | .ctxctlHold .. | .ctxctlRelease .. | .contextImageStore .. | .tlbisoWrite .. | .logposWrite ..
  | .loglimWrite .. | .registerWrite .. | .linkTrained .. | .engineCommandCompletion ..
  | .dputCeilingTimeout .. | .restoreWaitTimeout | .copyPortFullTimeout .. | .firmwareReady ..
  | .stagingWindowWrite .. => true
  | _ => false

/-- An instruction that some word encodes. The steps without a word have none. -/
def Instr.wf : Instr → Bool
  | .vabs ty .. | .vneg ty .. => ty != .n32
  | .vcmp ty rel .. => vcmpOk ty rel
  | .vbfly _ k .. => k.toNat ≤ 4
  | .ld sp sx sz .. => ldOk sp sx sz
  | .st sp sz .. => stOk sp sz
  | .amo op ty .. => amoOk op ty
  | i => !i.isEvent

end Sys2Proof
end

