-- ==== Sys2Proof/Decode.lean ====
section
/-! DEFINITION. Decoding and encoding of instruction words (06 R143, R144; 07 R154 to R164; the MOD rules of 08 to
13), total on all 32-bit words; a word that is no instruction is refused by the name of its detail in 06 R152. -/

namespace Sys2Proof

/-! ### Fields of a word (06 R143) -/

def fCls (w : Half) : Nat := w.toNat / 2 ^ 29
def fOp (w : Half) : Nat := w.toNat / 2 ^ 23 % 64
def fMod (w : Half) : BitVec 5 := BitVec.ofNat 5 (w.toNat / 2 ^ 18)
def fT1 (w : Half) : BitVec 9 := BitVec.ofNat 9 (w.toNat / 2 ^ 9)
def fT0 (w : Half) : BitVec 9 := BitVec.ofNat 9 w.toNat
def fImm (w : Half) : BitVec 14 := BitVec.ofNat 14 (w.toNat / 2 ^ 9)
def fGreg (w : Half) : BitVec 6 := BitVec.ofNat 6 (w.toNat / 2 ^ 17)
def fMod8 (w : Half) : BitVec 8 := BitVec.ofNat 8 (w.toNat / 2 ^ 9)
def fVD (w : Half) : BitVec 5 := BitVec.ofNat 5 (w.toNat / 2 ^ 18)
def fVA (w : Half) : BitVec 5 := BitVec.ofNat 5 (w.toNat / 2 ^ 13)
def fVB (w : Half) : BitVec 5 := BitVec.ofNat 5 (w.toNat / 2 ^ 8)
def fPipe (w : Half) : BitVec 2 := BitVec.ofNat 2 (w.toNat / 2 ^ 6)
def fVmod (w : Half) : BitVec 6 := BitVec.ofNat 6 w.toNat
def fSPipe (w : Half) : BitVec 2 := BitVec.ofNat 2 (w.toNat / 2 ^ 16)
def fVmod2 (w : Half) : BitVec 2 := BitVec.ofNat 2 (w.toNat / 2 ^ 14)
def fLane (w : Half) : BitVec 5 := BitVec.ofNat 5 (w.toNat / 2 ^ 9)

/-! ### Words of the formats (06 R143, 07 R154) -/

/-- The fixed part of a word (07 R154). -/
def fixedPart (cls op : Nat) : Nat := 0x20000000 * cls + 0x00800000 * op

def wordD (cls op : Nat) (m : BitVec 5) (t1 t0 : BitVec 9) : Half :=
  BitVec.ofNat 32 (fixedPart cls op + 2 ^ 18 * m.toNat + 2 ^ 9 * t1.toNat + t0.toNat)
def wordI (cls op : Nat) (imm : BitVec 14) (t0 : BitVec 9) : Half :=
  BitVec.ofNat 32 (fixedPart cls op + 2 ^ 9 * imm.toNat + t0.toNat)
def wordG (cls op : Nat) (g : BitVec 6) (m : BitVec 8) (t0 : BitVec 9) : Half :=
  BitVec.ofNat 32 (fixedPart cls op + 2 ^ 17 * g.toNat + 2 ^ 9 * m.toNat + t0.toNat)
def wordV (cls op : Nat) (vd va vb : BitVec 5) (q : BitVec 2) (m : BitVec 6) : Half :=
  BitVec.ofNat 32 (fixedPart cls op + 2 ^ 18 * vd.toNat + 2 ^ 13 * va.toNat + 2 ^ 8 * vb.toNat
    + 2 ^ 6 * q.toNat + m.toNat)
def wordVS (cls op : Nat) (va : BitVec 5) (q m : BitVec 2) (lane : BitVec 5) (t0 : BitVec 9) : Half :=
  BitVec.ofNat 32 (fixedPart cls op + 2 ^ 18 * va.toNat + 2 ^ 16 * q.toNat + 2 ^ 14 * m.toNat
    + 2 ^ 9 * lane.toNat + t0.toNat)

/-! ### Operand fields -/

def Pos.enc : Pos → BitVec 2
  | .a => 0 | .b => 1 | .p => 2 | .o => 3
def Pos.dec (x : BitVec 2) : Pos :=
  match x.toNat with | 0 => .a | 1 => .b | 2 => .p | _ => .o

/-- A consumer field (06 R144): VALID, SLOT, POS. -/
def Cons.enc : Cons → BitVec 9
  | none => 0
  | some d => BitVec.ofNat 9 (256 + 4 * d.slot.toNat + d.pos.enc.toNat)
/-- With VALID 0 the other bits must be zero (06 R144, detail RESBITS). -/
def Cons.dec (x : BitVec 9) : Except DecodeFault Cons :=
  if x.toNat / 256 = 1 then .ok (some ⟨BitVec.ofNat 6 (x.toNat / 4), Pos.dec (BitVec.ofNat 2 x.toNat)⟩)
  else if x = 0 then .ok none else .error .resbits

def Width.enc : Width → BitVec 5
  | .w64 => 0 | .w32 => 1
def Width.dec (x : BitVec 5) : Option Width :=
  match x.toNat with | 0 => some .w64 | 1 => some .w32 | _ => none
def ExtFrom.enc : ExtFrom → BitVec 5
  | .b8 => 0 | .b16 => 1 | .b32 => 2
def ExtFrom.dec (x : BitVec 5) : Option ExtFrom :=
  match x.toNat with | 0 => some .b8 | 1 => some .b16 | 2 => some .b32 | _ => none
def sxEnc (b : Bool) : BitVec 5 := if b then 1 else 0
def sxDec (x : BitVec 5) : Option Bool :=
  match x.toNat with | 0 => some false | 1 => some true | _ => none
def leaDec (x : BitVec 5) : Option (BitVec 3) := if x.toNat < 8 then some (BitVec.ofNat 3 x.toNat) else none

/-- GREG of READ and WRITE (08 R174). -/
def RegSel.greg : RegSel → BitVec 6
  | .g n => n | .f => 0 | .flag n => BitVec.ofNat 6 n.toNat
/-- MOD8 of READ and WRITE (08 R174). -/
def RegSel.mod8 : RegSel → BitVec 8
  | .g _ => 0 | .f => 1 | .flag _ => 2
def RegSel.dec (g : BitVec 6) (m : BitVec 8) : Option RegSel :=
  match m.toNat with
  | 0 => some (.g g)
  | 1 => if g = 0 then some .f else none
  | 2 => if g.toNat < 32 then some (.flag (BitVec.ofNat 5 g.toNat)) else none
  | _ => none

/-- TYPE in VMOD[5:4] (09 R186). -/
def VType.enc : VType → Nat
  | .fp32 => 0 | .i32 => 1 | .n32 => 2
def VType.dec (x : Nat) : Option VType :=
  match x with | 0 => some .fp32 | 1 => some .i32 | 2 => some .n32 | _ => none
def VRel.enc : VRel → Nat
  | .eq => 0 | .ne => 1 | .lt => 2 | .le => 3 | .un => 4
def VRel.dec (x : Nat) : Option VRel :=
  match x with | 0 => some .eq | 1 => some .ne | 2 => some .lt | 3 => some .le | 4 => some .un | _ => none
def CvtPair.enc : CvtPair → Nat
  | .fp32I32 => 0 | .fp32N32 => 1 | .i32Fp32 => 2 | .n32Fp32 => 3 | .bf16Fp32 => 4 | .fp32Bf16 => 5
  | .fp16Fp32 => 6 | .fp32Fp16 => 7 | .e4m3Fp32 => 8 | .fp32E4m3 => 9 | .e5m2Fp32 => 10 | .fp32E5m2 => 11
  | .e2m1Fp32 => 12 | .fp32E2m1 => 13 | .i8Fp32 => 14 | .fp32I8 => 15
def CvtPair.dec (x : Nat) : CvtPair :=
  match x with
  | 0 => .fp32I32 | 1 => .fp32N32 | 2 => .i32Fp32 | 3 => .n32Fp32 | 4 => .bf16Fp32 | 5 => .fp32Bf16
  | 6 => .fp16Fp32 | 7 => .fp32Fp16 | 8 => .e4m3Fp32 | 9 => .fp32E4m3 | 10 => .e5m2Fp32 | 11 => .fp32E5m2
  | 12 => .e2m1Fp32 | 13 => .fp32E2m1 | 14 => .i8Fp32 | _ => .fp32I8
def CvtMode.enc : CvtMode → Nat
  | .rne => 0 | .rtz => 1 | .rsr => 2 | .sat => 3
def CvtMode.dec (x : Nat) : CvtMode :=
  match x with | 0 => .rne | 1 => .rtz | 2 => .rsr | _ => .sat
def QFmt.enc : QFmt → Nat
  | .qsi8 => 0 | .qse4m3 => 1 | .qsi4 => 2 | .qse2m1 => 3
def QFmt.dec (x : Nat) : QFmt :=
  match x with | 0 => .qsi8 | 1 => .qse4m3 | 2 => .qsi4 | _ => .qse2m1
def BflyOp.enc : BflyOp → Nat
  | .x => 0 | .fadd => 1 | .iadd => 2 | .fmax => 3
def BflyOp.dec (x : Nat) : Option BflyOp :=
  match x with | 0 => some .x | 1 => some .fadd | 2 => some .iadd | 3 => some .fmax | _ => none
def RedOp.enc : RedOp → Nat
  | .fadd => 0 | .iadd => 1 | .fmax => 2 | .fmin => 3 | .imax => 4 | .imin => 5
def RedOp.dec (x : Nat) : Option RedOp :=
  match x with
  | 0 => some .fadd | 1 => some .iadd | 2 => some .fmax | 3 => some .fmin | 4 => some .imax | 5 => some .imin
  | _ => none
def StatPhase.enc : StatPhase → Nat
  | .p1s => 0 | .p1 => 1 | .p2 => 2 | .fin => 3
def StatPhase.dec (x : Nat) : Option StatPhase :=
  match x with | 0 => some .p1s | 1 => some .p1 | 2 => some .p2 | 3 => some .fin | _ => none
def Space.enc : Space → Nat
  | .global => 0 | .window => 1 | .port => 2 | .host => 3
def Space.dec (x : Nat) : Space :=
  match x with | 0 => .global | 1 => .window | 2 => .port | _ => .host
def Size.enc : Size → Nat
  | .s1 => 0 | .s2 => 1 | .s4 => 2 | .s8 => 3
def Size.dec (x : Nat) : Size :=
  match x with | 0 => .s1 | 1 => .s2 | 2 => .s4 | _ => .s8
def VSpace.enc : VSpace → BitVec 2
  | .global => 0 | .window => 1 | .port => 2
def VSpace.dec (x : BitVec 2) : Option VSpace :=
  match x.toNat with | 0 => some .global | 1 => some .window | 2 => some .port | _ => none
def AmoOp.enc : AmoOp → Nat
  | .add => 0 | .min => 1 | .max => 2 | .and => 3 | .or => 4 | .xor => 5 | .swap => 6 | .xadd => 7
def AmoOp.dec (x : Nat) : AmoOp :=
  match x with
  | 0 => .add | 1 => .min | 2 => .max | 3 => .and | 4 => .or | 5 => .xor | 6 => .swap | _ => .xadd
def AmoTy.enc : AmoTy → Nat
  | .w => 0 | .wn => 1 | .d => 2 | .f => 3
def AmoTy.dec (x : Nat) : AmoTy :=
  match x with | 0 => .w | 1 => .wn | 2 => .d | _ => .f
def AmovOp.enc : AmovOp → BitVec 2
  | .addWn => 0 | .addF => 1 | .maxW => 2 | .minW => 3
def AmovOp.dec (x : BitVec 2) : AmovOp :=
  match x.toNat with | 0 => .addWn | 1 => .addF | 2 => .maxW | _ => .minW
def MergeOp.enc : MergeOp → Nat
  | .addF => 1 | .addW => 2 | .maxF => 3 | .minF => 4 | .addD => 5 | .maxW => 6 | .minW => 7
def MergeOp.dec (x : Nat) : Option MergeOp :=
  match x with
  | 1 => some .addF | 2 => some .addW | 3 => some .maxF | 4 => some .minF | 5 => some .addD | 6 => some .maxW
  | 7 => some .minW | _ => none
def CollKind.enc : CollKind → Nat
  | .allreduce => 0 | .redscat => 1 | .allgath => 2 | .alltoall => 3
def CollKind.dec (x : Nat) : Option CollKind :=
  match x with | 0 => some .allreduce | 1 => some .redscat | 2 => some .allgath | 3 => some .alltoall | _ => none
def Scope.enc : Scope → Nat
  | .s0 => 0 | .s1 => 1 | .s2 => 2 | .s3 => 3 | .s4 => 4 | .s5 => 5 | .s6 => 6 | .s7 => 7 | .s8 => 8 | .s9 => 9
def Scope.dec (x : Nat) : Option Scope :=
  match x with
  | 0 => some .s0 | 1 => some .s1 | 2 => some .s2 | 3 => some .s3 | 4 => some .s4 | 5 => some .s5 | 6 => some .s6
  | 7 => some .s7 | 8 => some .s8 | 9 => some .s9 | _ => none
def FlagCond.enc : FlagCond → Nat
  | .all => 0 | .any => 1 | .none => 2 | .notall => 3
def FlagCond.dec (x : Nat) : FlagCond :=
  match x with | 0 => .all | 1 => .any | 2 => .none | _ => .notall
def QIface.enc : QIface → Nat
  | .net => 0 | .copy => 1
def QIface.dec (x : Nat) : Option QIface := match x with | 0 => some .net | 1 => some .copy | _ => none
def QWord.enc : QWord → Nat
  | .inj => 0 | .con => 1 | .woff => 2
def QWord.dec (x : Nat) : Option QWord :=
  match x with | 0 => some .inj | 1 => some .con | 2 => some .woff | _ => none

/-- CSR numbers (13 R288). -/
def Csr.num : Csr → Nat
  | .tileid => 0x000 | .ctxid => 0x001 | .lposa => 0x002 | .lposb => 0x003 | .largs => 0x004
  | .fpmode => 0x010 | .srctr => 0x011 | .fixord => 0x012 | .budget => 0x020 | .dceil => 0x021
  | .tocnt => 0x022 | .escn => 0x023 | .trapvec => 0x030 | .loadvec => 0x031 | .hangiv => 0x032
  | .debug => 0x033 | .logbase => 0x040 | .loglim => 0x041 | .logpos => 0x042 | .bkey => 0x050
  | .space => 0x051 | .keyslot => 0x052 | .waveper => 0x060 | .sage => 0x061
/-- The map of 13 R288; any other number names no register (07 R164). -/
def Csr.ofNum (x : Nat) : Option Csr :=
  match x with
  | 0x000 => some .tileid | 0x001 => some .ctxid | 0x002 => some .lposa | 0x003 => some .lposb
  | 0x004 => some .largs | 0x010 => some .fpmode | 0x011 => some .srctr | 0x012 => some .fixord
  | 0x020 => some .budget | 0x021 => some .dceil | 0x022 => some .tocnt | 0x023 => some .escn
  | 0x030 => some .trapvec | 0x031 => some .loadvec | 0x032 => some .hangiv | 0x033 => some .debug
  | 0x040 => some .logbase | 0x041 => some .loglim | 0x042 => some .logpos | 0x050 => some .bkey
  | 0x051 => some .space | 0x052 => some .keyslot | 0x060 => some .waveper | 0x061 => some .sage
  | _ => none

/-! ### Decoding by format -/

/-- What decoding a word gives. -/
abbrev Dec := Except DecodeFault Instr
/-- A decoder of one cell of the opcode map. -/
abbrev Row := Half → Dec

/-- An undefined modifier value takes detail MODIFIER (06 R143). -/
def orMod {α : Type} : Option α → Except DecodeFault α
  | some x => .ok x
  | none => .error .modifier
/-- A bit that must be zero (06 R152, RESBITS). -/
def resv (b : Bool) : Except DecodeFault Unit := if b then .ok () else .error .resbits

/-- Format D with both consumers and a modifier. -/
def rowD {α : Type} (md : BitVec 5 → Option α) (f : α → Cons → Cons → Instr) : Row := fun w => do
  let t1 ← Cons.dec (fT1 w)
  let t0 ← Cons.dec (fT0 w)
  let m ← orMod (md (fMod w))
  return f m t0 t1
/-- Format D with both consumers, whose MOD must be 0 (detail MODIFIER, 08 R167). -/
def rowD0 (f : Cons → Cons → Instr) : Row :=
  rowD (fun m => if m = 0 then some () else none) (fun _ => f)
/-- Format D that emits nothing: T0 and T1 must be zero (RESBITS). -/
def rowN {α : Type} (md : BitVec 5 → Option α) (f : α → Instr) : Row := fun w => do
  resv (fT1 w = 0 && fT0 w = 0)
  let m ← orMod (md (fMod w))
  return f m
def rowN0 (i : Instr) : Row := rowN (fun m => if m = 0 then some () else none) (fun _ => i)
/-- Format D that emits nothing and defines only the low `k` bits of MOD (RESBITS above them). -/
def rowNk {α : Type} (k : Nat) (md : Nat → Option α) (f : α → Instr) : Row := fun w => do
  resv (fT1 w = 0 && fT0 w = 0)
  resv ((fMod w).toNat < 2 ^ k)
  let m ← orMod (md (fMod w).toNat)
  return f m
/-- Format D with consumers that defines only the low `k` bits of MOD (RESBITS above them). -/
def rowDk {α : Type} (k : Nat) (md : Nat → Option α) (f : α → Cons → Cons → Instr) : Row := fun w => do
  let t1 ← Cons.dec (fT1 w)
  let t0 ← Cons.dec (fT0 w)
  resv ((fMod w).toNat < 2 ^ k)
  let m ← orMod (md (fMod w).toNat)
  return f m t0 t1
/-- A scope of 10 to 15 takes detail SCOPE (04 R99). -/
def decScope (x : Nat) : Except DecodeFault Scope :=
  match Scope.dec x with | some s => .ok s | none => .error .scope

/-- Element-wise V form: TYPE in VMOD[5:4], VMOD[3:0] zero (09 R186). -/
def rowVT (f : VType → BitVec 5 → BitVec 5 → BitVec 5 → BitVec 2 → Instr) : Row := fun w => do
  resv ((fVmod w).toNat % 16 = 0)
  let ty ← orMod (VType.dec ((fVmod w).toNat / 16))
  return f ty (fVD w) (fVA w) (fVB w) (fPipe w)
/-- VABS and VNEG: no VB and no N32 (09 R186). -/
def rowVT1 (f : VType → BitVec 5 → BitVec 5 → BitVec 2 → Instr) : Row := fun w => do
  resv ((fVmod w).toNat % 16 = 0 && fVB w = 0)
  let ty ← orMod (VType.dec ((fVmod w).toNat / 16))
  if ty = .n32 then .error .modifier else
  return f ty (fVD w) (fVA w) (fPipe w)
/-- V form with three registers and VMOD 0. -/
def rowV3 (f : BitVec 5 → BitVec 5 → BitVec 5 → BitVec 2 → Instr) : Row := fun w => do
  resv (fVmod w = 0)
  return f (fVD w) (fVA w) (fVB w) (fPipe w)
/-- V form with two registers and VMOD 0. -/
def rowV2 (f : BitVec 5 → BitVec 5 → BitVec 2 → Instr) : Row := fun w => do
  resv (fVmod w = 0 && fVB w = 0)
  return f (fVD w) (fVA w) (fPipe w)
/-- Vector shift (09 R187). -/
def rowVSh (f : VCount → BitVec 5 → BitVec 5 → BitVec 2 → Instr) : Row := fun w =>
  if (fVmod w).toNat / 32 = 0 then do
    resv ((fVmod w).toNat = 0)
    return f (.reg (fVB w)) (fVD w) (fVA w) (fPipe w)
  else do
    resv (fVB w = 0)
    return f (.imm (BitVec.ofNat 5 (fVmod w).toNat)) (fVD w) (fVA w) (fPipe w)

/-- V form with one source whose VMOD is read by `md` after the reserved bits `res` (09 R184). -/
def rowVm {α : Type} (res : Nat → Bool) (md : Nat → Option α)
    (f : α → BitVec 5 → BitVec 5 → BitVec 2 → Instr) : Row := fun w => do
  resv (res (fVmod w).toNat && fVB w = 0)
  let m ← orMod (md (fVmod w).toNat)
  return f m (fVD w) (fVA w) (fPipe w)

/-! ### The opcode map, one list a class in opcode order (07 R155 to R162) -/

def rowsS0 : List Row :=
  [ fun w => if w = 0 then .ok .ill else .error .opcode,            -- 0, 07 R163
    rowD Width.dec .add, rowD Width.dec .sub,                         -- 1, 2
    fun w => do return .addi (fImm w) (← Cons.dec (fT0 w)),           -- 3
    rowD Width.dec .mul, rowD Width.dec .mulh, rowD Width.dec .mulhn, rowD Width.dec .div,
    rowD Width.dec .divn, rowD Width.dec .rem, rowD Width.dec .remn,  -- 4 to 10
    rowD0 .and, rowD0 .or, rowD0 .xor, rowD0 .andn,                   -- 11 to 14
    rowD Width.dec .shl, rowD Width.dec .shr, rowD Width.dec .sar,    -- 15 to 17
    rowD Width.dec .min, rowD Width.dec .max, rowD Width.dec .minn, rowD Width.dec .maxn, -- 18 to 21
    rowD Width.dec .clz, rowD Width.dec .popc, rowD ExtFrom.dec .sext, rowD ExtFrom.dec .zext ] -- 22 to 25
def rowsS1 : List Row :=
  [ rowD Width.dec .ceq, rowD Width.dec .cne, rowD Width.dec .clt, rowD Width.dec .cltn,
    rowD Width.dec .cle, rowD Width.dec .clen,                        -- 26 to 31
    rowD some .sel,                                                   -- 32
    fun w => do return .movi (fImm w) (← Cons.dec (fT0 w)),           -- 33
    rowD sxDec .constw, rowD0 .constd,                                -- 34, 35
    fun w => do
      let t0 ← Cons.dec (fT0 w)
      return .read (← orMod (RegSel.dec (fGreg w) (fMod8 w))) t0,     -- 36
    fun w => do
      resv (fT0 w = 0)
      return .write (← orMod (RegSel.dec (fGreg w) (fMod8 w))),       -- 37
    rowD0 .fan, rowD0 .null, rowD leaDec .lea,                        -- 38 to 40
    rowN0 .br,                                                        -- 41
    fun w => do resv (fT0 w = 0); return .bri (fImm w),               -- 42
    fun w => do return .call (fImm w) (← Cons.dec (fT0 w)),           -- 43
    rowN0 .ret, rowN0 .retire ]                                       -- 44, 45
def rowsS : List Row := rowsS0 ++ rowsS1

def rowsV0 : List Row :=
  [ rowVT .vadd, rowVT .vsub, rowVT .vmul, rowVT .vfma, rowVT .vmin, rowVT .vmax, rowVT1 .vabs, rowVT1 .vneg,
    rowV3 .vand, rowV3 .vor, rowV3 .vxor, rowVSh .vshl, rowVSh .vshr, rowVSh .vsar,     -- 8 to 13
    fun w => do                                                                           -- 14
      resv ((fVmod w).toNat / 8 % 2 = 0)
      let rel ← orMod (VRel.dec ((fVmod w).toNat % 8))
      let ty ← orMod (VType.dec ((fVmod w).toNat / 16))
      if vcmpOk ty rel then return .vcmp ty rel (fVD w) (fVA w) (fVB w) (fPipe w) else .error .modifier,
    rowV3 .vsel,                                                                          -- 15
    rowVm (fun _ => true) (fun m => some (CvtPair.dec (m / 4), CvtMode.dec (m % 4)))
      (fun x vd va q => .vcvt x.1 x.2 vd va q),                                           -- 16
    rowVm (fun m => m % 8 = 0) (fun m => some (QFmt.dec (m / 16), m / 8 % 2 == 1))
      (fun x vd va q => .vqnt x.1 x.2 vd va q) ]                                          -- 17
def rowsV1 : List Row :=
  [ fun w => do                                                                           -- 18
      resv ((fVmod w).toNat % 16 = 0)
      return .vdqnt (QFmt.dec ((fVmod w).toNat / 16)) (fVD w) (fVA w) (fVB w) (fPipe w),
    rowV2 .vrcp, rowV2 .vrsq, rowV2 .vexp2, rowV2 .vlog2,                                 -- 19 to 22
    fun w =>                                                                              -- 23
      if (fVmod w).toNat = 0 then .ok (.vperm (.index (fVB w)) (fVD w) (fVA w) (fPipe w))
      else do
        resv ((fVmod w).toNat < 32 || fVB w = 0)
        if (fVmod w).toNat < 32 then .error .modifier else
        return .vperm (.rot (BitVec.ofNat 5 (fVmod w).toNat)) (fVD w) (fVA w) (fPipe w),
    rowVm (fun _ => true)
      (fun m => if m % 8 ≤ 4 then (BflyOp.dec (m / 8)).map (·, BitVec.ofNat 3 m) else none)
      (fun x vd va q => .vbfly x.1 x.2 vd va q),                                          -- 24
    rowVm (fun m => m % 8 = 0) (fun m => RedOp.dec (m / 8)) .vred,                        -- 25
    rowVm (fun m => m / 2 % 4 = 0) (fun m => (RedOp.dec (m / 8)).map (·, m % 2 == 1))
      (fun x vd va q => .vscan x.1 x.2 vd va q),                                          -- 26
    rowVm (fun m => m < 2) (fun m => some (m == 1)) .vsmxa,                               -- 27
    rowV3 .vsmxn,                                                                         -- 28
    rowVm (fun m => m < 8) StatPhase.dec .vstat,                                          -- 29
    fun w =>                                                                              -- 30
      if (fVmod w).toNat = 0 then do
        resv (fVA w = 0 && fVB w = 0)
        return .vsplat .a (fVD w) (fPipe w)
      else if (fVmod w).toNat = 1 then .ok (.vsplat (.lane (fVA w) (fVB w)) (fVD w) (fPipe w))
      else .error .modifier,
    fun w => do                                                                           -- 31
      let t0 ← Cons.dec (fT0 w)
      match (fVmod2 w).toNat with
      | 0 => return .vmovs (.lane false (fVD w) (fLane w)) (fSPipe w) t0
      | 1 => return .vmovs (.lane true (fVD w) (fLane w)) (fSPipe w) t0
      | 2 => do resv (fVD w = 0 && fLane w = 0); return .vmovs .psts (fSPipe w) t0
      | _ => do resv (fVD w = 0 && fLane w = 0); return .vmovs .len (fSPipe w) t0,
    fun w => do                                                                           -- 32
      let t0 ← Cons.dec (fT0 w)
      if fVmod2 w = 0 then return .vins (fVD w) (fLane w) (fSPipe w) t0 else .error .modifier,
    fun w => do                                                                           -- 33
      resv (fVD w = 0 && fVB w = 0 && ((fVmod w).toNat = 1 || fVA w = 0))
      match (fVmod w).toNat with
      | 0 => return .vlane .a (fPipe w)
      | 1 => return .vlane (.v (fVA w)) (fPipe w)
      | 2 => return .vlane .all (fPipe w)
      | _ => .error .modifier,
    rowV2 .vmov ]                                                                         -- 34
def rowsV : List Row := rowsV0 ++ rowsV1

/-- SETT n takes the cells 48 to 63 of class V (07 R157). -/
def rowSett (n : BitVec 4) : Row := rowV3 (.sett n)

/-- A region number in MOD[2:0], MOD[4:3] zero (10 R205). -/
def rowR (f : BitVec 3 → Instr) : Row := rowNk 3 (fun m => some (BitVec.ofNat 3 m)) f
def rowsM : List Row :=
  [ rowR .mregion, rowR .mfmt, rowR .mwld, rowR .mswap, rowR .mstep, rowR .macc, rowR .mdrain, rowR .mzero,
    rowDk 3 (fun m => some (BitVec.ofNat 3 m)) .mstat, rowR .mfree ]

/-- A whole MOD field as the operand. -/
def rowH (f : BitVec 5 → Instr) : Row := rowN some f
def rowsC : List Row :=
  [ rowH .cload, rowH .cfire, rowH .cpatch, rowH .cmcast, rowH .cevict, rowD some .cstat, rowH .cweight,
    rowH .chang, rowH .cfreeze, rowH .cthaw,
    rowNk 4 (fun m => some (BitVec.ofNat 4 m)) .sbind, rowNk 4 (fun m => some (BitVec.ofNat 4 m)) .sfree,
    rowD (fun m => some (m.toNat / 16 == 1, BitVec.ofNat 4 m.toNat)) (fun x => .squery x.1 x.2) ]

/-- A port or a ring in MOD; 16 to 31 take detail MODIFIER (11 R228). -/
def mod16 (m : BitVec 5) : Option (BitVec 4) := if m.toNat < 16 then some (BitVec.ofNat 4 m.toNat) else none
/-- LDV, STV and AMOV: LANE zero (11 R234, R250). -/
def rowVS {α : Type} (md : BitVec 2 → Option α) (f : α → BitVec 5 → BitVec 2 → Cons → Instr) : Row := fun w => do
  let t0 ← Cons.dec (fT0 w)
  resv (fLane w = 0)
  let m ← orMod (md (fVmod2 w))
  return f m (fVD w) (fSPipe w) t0
def ldDec (m : BitVec 5) : Option (Space × Bool × Size) :=
  let sp := Space.dec (m.toNat / 8); let sx := m.toNat / 4 % 2 == 1; let sz := Size.dec (m.toNat % 4)
  if ldOk sp sx sz then some (sp, sx, sz) else none
def stDec (m : BitVec 5) : Option (Space × Size) :=
  let sp := Space.dec (m.toNat / 8); let sz := Size.dec (m.toNat % 4)
  if m.toNat / 4 % 2 = 0 && stOk sp sz then some (sp, sz) else none
def amoDec (m : BitVec 5) : Option (AmoOp × AmoTy) :=
  let op := AmoOp.dec (m.toNat % 8); let ty := AmoTy.dec (m.toNat / 8)
  if amoOk op ty then some (op, ty) else none
def casDec (m : BitVec 5) : Option Bool :=
  match m.toNat with | 0 => some false | 16 => some true | _ => none
def rowsL : List Row :=
  [ rowD ldDec (fun x => .ld x.1 x.2.1 x.2.2), rowD stDec (fun x => .st x.1 x.2),
    rowVS VSpace.dec .ldv, rowVS VSpace.dec .stv, rowD some .ldg, rowD some .sts,
    rowH .agen, rowH .astart, rowH .astop, rowN0 .abar, rowH .ldw, rowD0 .tlook, rowN0 .tset, rowN0 .tclr,
    rowD amoDec (fun x => .amo x.1 x.2), rowVS (fun m => some (AmovOp.dec m)) .amov, rowD casDec .cas,
    rowN mod16 .pxform, rowN mod16 .pmerge, rowN mod16 .ringdef, rowD mod16 .ringstat, rowN0 .resume ]

def rowsK : List Row :=
  [ rowD0 .kcopy, rowD0 .kgath, rowD0 .kscat, rowD (fun m => MergeOp.dec m.toNat) .kred,
    rowNk 5 (fun m => if m < 4 then some (BitVec.ofNat 2 m) else none) .kport,
    rowD (fun m => some (m.toNat / 16 == 1, BitVec.ofNat 4 m.toNat)) (fun x => .ksend x.1 x.2),
    rowD mod16 .krecv, rowD mod16 .kpoll, rowD (fun m => CollKind.dec m.toNat) .kcoll, rowD0 .kwait, rowD0 .kevq,
    rowN0 .kcancel, rowD0 .kstat ]

def rowsY : List Row :=
  [ fun w => do resv (fT1 w = 0 && fT0 w = 0); resv ((fMod w).toNat < 16); return .bari (← decScope (fMod w).toNat),
    rowD0 .bara, rowD0 .barw, rowD0 .baraw, rowD0 .bard, rowD0 .bart,
    fun w => do
      let t1 ← Cons.dec (fT1 w)
      let t0 ← Cons.dec (fT0 w)
      resv ((fMod w).toNat < 16)
      return .fence (← decScope (fMod w).toNat) t0 t1,
    rowNk 3 (fun m => some (BitVec.ofNat 3 m)) .dput, rowNk 3 (fun m => some (BitVec.ofNat 3 m)) .dget,
    rowDk 2 (fun m => some (FlagCond.dec m)) .waitf,
    rowNk 1 (fun m => some (m == 1)) .setf, rowNk 1 (fun m => some (m == 1)) .clrf, rowD0 .qwait,
    rowD (fun m => do return (← QIface.dec (m.toNat / 4), ← QWord.dec (m.toNat % 4))) (fun x => .qstat x.1 x.2),
    rowDk 1 (fun m => some (m == 1)) .spawn, rowD0 .join, rowNk 1 (fun m => some (m == 1)) .kill, rowN0 .yield ]

def rowsZ : List Row :=
  [ rowH .trap, rowN0 .tret,
    fun w => do let t0 ← Cons.dec (fT0 w); return .csrr (← orMod (Csr.ofNum (fImm w).toNat)) t0,
    fun w => do resv (fT0 w = 0); return .csrw (← orMod (Csr.ofNum (fImm w).toNat)),
    fun w => do let t0 ← Cons.dec (fT0 w); return .csrx (← orMod (Csr.ofNum (fImm w).toNat)) t0,
    fun w => do resv (fT0 w = 0); return .logm (fImm w),
    rowN0 .ctxsave, rowN0 .ctxload, rowN0 .spinv, rowN0 .tlbinv, rowN0 .keysel, rowH .escal, rowN0 .brk,
    rowDk 5 (fun m => if m < 8 then some (BitVec.ofNat 3 m) else none) .perf ]

/-- A cell of the opcode map; a cell beyond the list is reserved (07 R161). -/
def cell (rows : List Row) (op : Nat) (w : Half) : Dec :=
  match rows[op]? with
  | some r => r w
  | none => .error .opcode

/-- The instruction of a slot word, or the detail of 06 R152 for which the word alone is refused. -/
def decode (w : Half) : Dec :=
  match fCls w with
  | 0 => cell rowsS (fOp w) w
  | 1 => if 48 ≤ fOp w then rowSett (BitVec.ofNat 4 (fOp w)) w else cell rowsV (fOp w) w
  | 2 => cell rowsM (fOp w) w
  | 3 => cell rowsC (fOp w) w
  | 4 => cell rowsL (fOp w) w
  | 5 => if 32 ≤ fOp w then cell rowsK (fOp w - 32) w else .error .opcode
  | 6 => cell rowsY (fOp w) w
  | _ => cell rowsZ (fOp w) w

/-- The instruction that the decoder reads from a word, `nbits` wide (the table's words have 32 bits). -/
def decodeOpt (w : Half) : Option Instr :=
  match decode w with | .ok i => some i | .error _ => none

/-- The instruction of the first `nbits` bits `w`, the bits above them zero; every word is stored whole. -/
def decodeTableWord (nbits w : Nat) : Option Instr := decodeOpt (BitVec.ofNat 32 (w % 2 ^ nbits))

/-! ### Encoding, from the same tables -/

def eD (cls op : Nat) (m : BitVec 5) (t0 t1 : Cons) : Half := wordD cls op m t1.enc t0.enc
def eN (cls op : Nat) (m : BitVec 5) : Half := wordD cls op m 0 0
def eV (op : Nat) (vd va vb : BitVec 5) (q : BitVec 2) (m : Nat) : Half := wordV 1 op vd va vb q (BitVec.ofNat 6 m)
def eSh (op : Nat) (c : VCount) (vd va : BitVec 5) (q : BitVec 2) : Half :=
  match c with
  | .reg vb => eV op vd va vb q 0
  | .imm s => eV op vd va 0 q (32 + s.toNat)
def m5 (n : Nat) : BitVec 5 := BitVec.ofNat 5 n

/-- The word of an instruction (07 R155 to R162); 0, the word of ILL, for ILL and for every step without a word. -/
def encode : Instr → Half
  | .add w t0 t1 => eD 0 1 w.enc t0 t1
  | .sub w t0 t1 => eD 0 2 w.enc t0 t1
  | .addi imm t0 => wordI 0 3 imm t0.enc
  | .mul w t0 t1 => eD 0 4 w.enc t0 t1
  | .mulh w t0 t1 => eD 0 5 w.enc t0 t1
  | .mulhn w t0 t1 => eD 0 6 w.enc t0 t1
  | .div w t0 t1 => eD 0 7 w.enc t0 t1
  | .divn w t0 t1 => eD 0 8 w.enc t0 t1
  | .rem w t0 t1 => eD 0 9 w.enc t0 t1
  | .remn w t0 t1 => eD 0 10 w.enc t0 t1
  | .and t0 t1 => eD 0 11 0 t0 t1
  | .or t0 t1 => eD 0 12 0 t0 t1
  | .xor t0 t1 => eD 0 13 0 t0 t1
  | .andn t0 t1 => eD 0 14 0 t0 t1
  | .shl w t0 t1 => eD 0 15 w.enc t0 t1
  | .shr w t0 t1 => eD 0 16 w.enc t0 t1
  | .sar w t0 t1 => eD 0 17 w.enc t0 t1
  | .min w t0 t1 => eD 0 18 w.enc t0 t1
  | .max w t0 t1 => eD 0 19 w.enc t0 t1
  | .minn w t0 t1 => eD 0 20 w.enc t0 t1
  | .maxn w t0 t1 => eD 0 21 w.enc t0 t1
  | .clz w t0 t1 => eD 0 22 w.enc t0 t1
  | .popc w t0 t1 => eD 0 23 w.enc t0 t1
  | .sext k t0 t1 => eD 0 24 k.enc t0 t1
  | .zext k t0 t1 => eD 0 25 k.enc t0 t1
  | .ceq w t0 t1 => eD 0 26 w.enc t0 t1
  | .cne w t0 t1 => eD 0 27 w.enc t0 t1
  | .clt w t0 t1 => eD 0 28 w.enc t0 t1
  | .cltn w t0 t1 => eD 0 29 w.enc t0 t1
  | .cle w t0 t1 => eD 0 30 w.enc t0 t1
  | .clen w t0 t1 => eD 0 31 w.enc t0 t1
  | .sel n t0 t1 => eD 0 32 n t0 t1
  | .movi imm t0 => wordI 0 33 imm t0.enc
  | .constw sx t0 t1 => eD 0 34 (sxEnc sx) t0 t1
  | .constd t0 t1 => eD 0 35 0 t0 t1
  | .read r t0 => wordG 0 36 r.greg r.mod8 t0.enc
  | .write r => wordG 0 37 r.greg r.mod8 0
  | .fan t0 t1 => eD 0 38 0 t0 t1
  | .null t0 t1 => eD 0 39 0 t0 t1
  | .lea s t0 t1 => eD 0 40 (m5 s.toNat) t0 t1
  | .br => eN 0 41 0
  | .bri imm => wordI 0 42 imm 0
  | .call imm t0 => wordI 0 43 imm t0.enc
  | .ret => eN 0 44 0
  | .retire => eN 0 45 0
  | .mregion r => eN 2 0 (m5 r.toNat)
  | .mfmt r => eN 2 1 (m5 r.toNat)
  | .mwld r => eN 2 2 (m5 r.toNat)
  | .mswap r => eN 2 3 (m5 r.toNat)
  | .mstep r => eN 2 4 (m5 r.toNat)
  | .macc r => eN 2 5 (m5 r.toNat)
  | .mdrain r => eN 2 6 (m5 r.toNat)
  | .mzero r => eN 2 7 (m5 r.toNat)
  | .mstat r t0 t1 => eD 2 8 (m5 r.toNat) t0 t1
  | .mfree r => eN 2 9 (m5 r.toNat)
  | .cload h => eN 3 0 h
  | .cfire h => eN 3 1 h
  | .cpatch h => eN 3 2 h
  | .cmcast h => eN 3 3 h
  | .cevict m => eN 3 4 m
  | .cstat h t0 t1 => eD 3 5 h t0 t1
  | .cweight h => eN 3 6 h
  | .chang h => eN 3 7 h
  | .cfreeze h => eN 3 8 h
  | .cthaw h => eN 3 9 h
  | .sbind n => eN 3 10 (m5 n.toNat)
  | .sfree n => eN 3 11 (m5 n.toNat)
  | .squery img n t0 t1 => eD 3 12 (m5 (img.toNat * 16 + n.toNat)) t0 t1
  | .vadd ty vd va vb q => eV 0 vd va vb q (16 * ty.enc)
  | .vsub ty vd va vb q => eV 1 vd va vb q (16 * ty.enc)
  | .vmul ty vd va vb q => eV 2 vd va vb q (16 * ty.enc)
  | .vfma ty vd va vb q => eV 3 vd va vb q (16 * ty.enc)
  | .vmin ty vd va vb q => eV 4 vd va vb q (16 * ty.enc)
  | .vmax ty vd va vb q => eV 5 vd va vb q (16 * ty.enc)
  | .vabs ty vd va q => eV 6 vd va 0 q (16 * ty.enc)
  | .vneg ty vd va q => eV 7 vd va 0 q (16 * ty.enc)
  | .vand vd va vb q => eV 8 vd va vb q 0
  | .vor vd va vb q => eV 9 vd va vb q 0
  | .vxor vd va vb q => eV 10 vd va vb q 0
  | .vshl c vd va q => eSh 11 c vd va q
  | .vshr c vd va q => eSh 12 c vd va q
  | .vsar c vd va q => eSh 13 c vd va q
  | .vcmp ty rel vd va vb q => eV 14 vd va vb q (16 * ty.enc + rel.enc)
  | .vsel vd va vb q => eV 15 vd va vb q 0
  | .vcvt pr md vd va q => eV 16 vd va 0 q (4 * pr.enc + md.enc)
  | .vqnt f sc vd va q => eV 17 vd va 0 q (16 * f.enc + 8 * sc.toNat)
  | .vdqnt f vd va vb q => eV 18 vd va vb q (16 * f.enc)
  | .vrcp vd va q => eV 19 vd va 0 q 0
  | .vrsq vd va q => eV 20 vd va 0 q 0
  | .vexp2 vd va q => eV 21 vd va 0 q 0
  | .vlog2 vd va q => eV 22 vd va 0 q 0
  | .vperm (.index vb) vd va q => eV 23 vd va vb q 0
  | .vperm (.rot k) vd va q => eV 23 vd va 0 q (32 + k.toNat)
  | .vbfly op k vd va q => eV 24 vd va 0 q (8 * op.enc + k.toNat)
  | .vred op vd va q => eV 25 vd va 0 q (8 * op.enc)
  | .vscan op x vd va q => eV 26 vd va 0 q (8 * op.enc + x.toNat)
  | .vsmxa s vd va q => eV 27 vd va 0 q s.toNat
  | .vsmxn vd va vb q => eV 28 vd va vb q 0
  | .vstat ph vd va q => eV 29 vd va 0 q ph.enc
  | .vsplat .a vd q => eV 30 vd 0 0 q 0
  | .vsplat (.lane va n) vd q => eV 30 vd va n q 1
  | .vmovs (.lane sx va n) q t0 => wordVS 1 31 va q (BitVec.ofNat 2 sx.toNat) n t0.enc
  | .vmovs .psts q t0 => wordVS 1 31 0 q 2 0 t0.enc
  | .vmovs .len q t0 => wordVS 1 31 0 q 3 0 t0.enc
  | .vins va n q t0 => wordVS 1 32 va q 0 n t0.enc
  | .vlane .a q => eV 33 0 0 0 q 0
  | .vlane (.v va) q => eV 33 0 va 0 q 1
  | .vlane .all q => eV 33 0 0 0 q 2
  | .vmov vd va q => eV 34 vd va 0 q 0
  | .sett n vd va vb q => eV (48 + n.toNat) vd va vb q 0
  | .ld sp sx sz t0 t1 => eD 4 0 (m5 (8 * sp.enc + 4 * sx.toNat + sz.enc)) t0 t1
  | .st sp sz t0 t1 => eD 4 1 (m5 (8 * sp.enc + sz.enc)) t0 t1
  | .ldv sp va q t0 => wordVS 4 2 va q sp.enc 0 t0.enc
  | .stv sp va q t0 => wordVS 4 3 va q sp.enc 0 t0.enc
  | .ldg s t0 t1 => eD 4 4 s t0 t1
  | .sts s t0 t1 => eD 4 5 s t0 t1
  | .agen s => eN 4 6 s
  | .astart s => eN 4 7 s
  | .astop s => eN 4 8 s
  | .abar => eN 4 9 0
  | .ldw s => eN 4 10 s
  | .tlook t0 t1 => eD 4 11 0 t0 t1
  | .tset => eN 4 12 0
  | .tclr => eN 4 13 0
  | .amo op ty t0 t1 => eD 4 14 (m5 (8 * ty.enc + op.enc)) t0 t1
  | .amov op va q t0 => wordVS 4 15 va q op.enc 0 t0.enc
  | .cas wide t0 t1 => eD 4 16 (m5 (16 * wide.toNat)) t0 t1
  | .pxform p => eN 4 17 (m5 p.toNat)
  | .pmerge p => eN 4 18 (m5 p.toNat)
  | .ringdef n => eN 4 19 (m5 n.toNat)
  | .ringstat n t0 t1 => eD 4 20 (m5 n.toNat) t0 t1
  | .resume => eN 4 21 0
  | .kcopy t0 t1 => eD 5 32 0 t0 t1
  | .kgath t0 t1 => eD 5 33 0 t0 t1
  | .kscat t0 t1 => eD 5 34 0 t0 t1
  | .kred op t0 t1 => eD 5 35 (m5 op.enc) t0 t1
  | .kport p => eN 5 36 (m5 p.toNat)
  | .ksend rc tg t0 t1 => eD 5 37 (m5 (16 * rc.toNat + tg.toNat)) t0 t1
  | .krecv n t0 t1 => eD 5 38 (m5 n.toNat) t0 t1
  | .kpoll n t0 t1 => eD 5 39 (m5 n.toNat) t0 t1
  | .kcoll k t0 t1 => eD 5 40 (m5 k.enc) t0 t1
  | .kwait t0 t1 => eD 5 41 0 t0 t1
  | .kevq t0 t1 => eD 5 42 0 t0 t1
  | .kcancel => eN 5 43 0
  | .kstat t0 t1 => eD 5 44 0 t0 t1
  | .bari s => eN 6 0 (m5 s.enc)
  | .bara t0 t1 => eD 6 1 0 t0 t1
  | .barw t0 t1 => eD 6 2 0 t0 t1
  | .baraw t0 t1 => eD 6 3 0 t0 t1
  | .bard t0 t1 => eD 6 4 0 t0 t1
  | .bart t0 t1 => eD 6 5 0 t0 t1
  | .fence s t0 t1 => eD 6 6 (m5 s.enc) t0 t1
  | .dput q => eN 6 7 (m5 q.toNat)
  | .dget q => eN 6 8 (m5 q.toNat)
  | .waitf c t0 t1 => eD 6 9 (m5 c.enc) t0 t1
  | .setf a => eN 6 10 (m5 a.toNat)
  | .clrf a => eN 6 11 (m5 a.toNat)
  | .qwait t0 t1 => eD 6 12 0 t0 t1
  | .qstat i w t0 t1 => eD 6 13 (m5 (4 * i.enc + w.enc)) t0 t1
  | .spawn e t0 t1 => eD 6 14 (m5 e.toNat) t0 t1
  | .join t0 t1 => eD 6 15 0 t0 t1
  | .kill j => eN 6 16 (m5 j.toNat)
  | .yield => eN 6 17 0
  | .trap c => eN 7 0 c
  | .tret => eN 7 1 0
  | .csrr r t0 => wordI 7 2 (BitVec.ofNat 14 r.num) t0.enc
  | .csrw r => wordI 7 3 (BitVec.ofNat 14 r.num) 0
  | .csrx r t0 => wordI 7 4 (BitVec.ofNat 14 r.num) t0.enc
  | .logm code => wordI 7 5 code 0
  | .ctxsave => eN 7 6 0
  | .ctxload => eN 7 7 0
  | .spinv => eN 7 8 0
  | .tlbinv => eN 7 9 0
  | .keysel => eN 7 10 0
  | .escal c => eN 7 11 c
  | .brk => eN 7 12 0
  | .perf k t0 t1 => eD 7 13 (m5 k.toNat) t0 t1
  | _ => 0

end Sys2Proof
end

