-- ==== Sys2Proof/Machine/State.lean ====
section
/-! DEFINITION. The state of a DLM-4256 module and what stands at its edges, as plain data (INVENTORY.md, State).
One firing, its context and its tile are in focus (fields `fir`, `ctx`, `tile`); the other firings of the context
stand in `ctx.firs`, the other contexts in `ctxs`, the other tiles in `tiles`. -/

namespace Sys2Proof.Machine

/-! ### Tokens, registers, pipes -/

/-- A token: 64 value bits and a poison bit (06 R145). -/
structure Token where
  val : Word := 0
  poison : Bool := false
deriving DecidableEq, Repr

/-- A vector register: 32 lanes and their poison (09 R182). -/
structure VReg where
  lanes : Vector Half 32
  pois : BitVec 32
deriving DecidableEq, Repr

/-- The state of one vector pipe of a context (09 R182). -/
structure Pipe where
  v : Vector VReg 32
  len : Half
  lstat : Half
  psts : Word
deriving DecidableEq, Repr

/-- A vector register of zeros, poison clear (09 R182). -/
def VReg.zero : VReg := ⟨Vector.replicate 32 0, 0⟩
/-- A pipe after reset (09 R182). -/
def Pipe.reset : Pipe := ⟨Vector.replicate 32 VReg.zero, 0xFFFFFFFF, 0, 0⟩

/-! ### Places of memory -/

/-- What an access reaches (04 R84, 21 R367, 11 R229). -/
inductive Loc where
  /-- a byte of HBM, host memory or a scratchpad, by its key in `Memory` -/
  | mem (key : Nat)
  /-- a control page (21 R367): page number and byte offset -/
  | ctl (page off : Nat)
  /-- a host channel (11 R231) -/
  | host (c : BitVec 6)
  /-- byte `o` of the reserved items or places of collar channel `ch` of the graph (14 R295) -/
  | collar (ch o : Nat)
  /-- byte `off` of reserved message `i` of the message ring channel `ch` of the graph (15 R322) -/
  | msg (ch i off : Nat)
  /-- byte `o` of the reserved items or places of host channel `ch` of the graph (11 R230) -/
  | hostItem (ch o : Nat)
deriving DecidableEq, Repr

/-- Memory as a canonical list (strictly rising keys, no zero byte listed), the poisoned 64-bit words (key ÷ 8), and
the key under which each 16-byte block of HBM (key ÷ 16) was last written (04 R108, 21 R374). -/
structure Memory where
  cells : List Host.Cell := []
  pois : List Nat := []
  lineKey : List (Nat × BitVec 512) := []
deriving DecidableEq, Repr

/-! ### The block in flight -/

/-- What has become of a slot of the block in flight (06 R145, R146). -/
inductive SlotSt where
  | wait | pend | done | off | nul | lit
deriving DecidableEq, Repr

/-- The scope instance of a FENCE (04 R99, 13 R275), and the stream accesses that were held when it began to wait: stream
and element (04 R100). -/
structure FenceAt where
  sc : BitVec 4 := 4
  which : Nat := 0
  held : List (Nat × Nat) := []
  /-- it is a close (04 R107) -/
  close : Bool := false
deriving DecidableEq, Repr

/-- What a pending wait awaits (05 R111). -/
inductive Await where
  | flag (c : FlagCond) (k : Half)
  /-- the phase word at `key` differs from `p`; `entry`: an arrival-table entry of member `m` stands -/
  | barrier (ref : Word) (key : Nat) (m : BitVec 6) (p : BitVec 32) (entry : Bool)
  /-- an answer of the home of the barrier at `key` is on its way -/
  | reply (key : Nat)
  /-- effects up to `ser` and updates below `upd` belong to the before-set -/
  | fence (mask : BitVec 6) (ser upd : Nat) (at_ : FenceAt)
  | join (h : BitVec 6)
  | quiet (job : BitVec 16)
  | recv (n : BitVec 4)
  | kwait (tag : BitVec 7)
  | kevq
  | host (c : BitVec 6)
  | element (s : BitVec 5)
deriving DecidableEq, Repr

def Await.isReply : Await → Bool | .reply _ => true | _ => false

/-- A pending wait and its expiry point; no expiry when the instruction carries no deadline (05 R115). -/
structure Wait where
  on : Await
  expiry : Option Nat
  poll : Bool := false
  /-- a steered wait that runs past its expiry point (24 R414) -/
  ext : Bool := false
deriving DecidableEq, Repr

/-- A POLL wait on a barrier, whose home has answered, is evaluated once more and returns (05 R115). -/
def Wait.onceMore (w : Wait) : Bool := w.poll && match w.on with | .barrier .. => true | _ => false

/-- One slot of the block in flight: its word, the positions it expects, what has reached them (06 R145, R146). -/
structure Slot where
  word : Half
  expA : Bool := false
  expB : Bool := false
  expP : Bool := false
  expO : Nat := 0
  a : Option Token := none
  b : Option Token := none
  p : Option Token := none
  o : Nat := 0
  st : SlotSt := .wait
  wait : Option Wait := none
deriving DecidableEq, Repr

/-- A fault of the block in flight, charged to a slot (06 R153, 22 R385); cause 0 is a breakpoint (13 R285). -/
structure BFault where
  slot : Nat
  cause : BitVec 8
  detail : BitVec 12
  info0 : Word := 0
  info1 : Word := 0
deriving DecidableEq, Repr

/-- An exit that has fired (06 R148). -/
inductive Exit where
  | to (target : Word)
  | retire
deriving DecidableEq, Repr

/-- A held write of F (08 R174). -/
inductive FlagWrite where
  | all (v : Half)
  | bit (n : BitVec 5) (v : Bool)
deriving DecidableEq, Repr

/-- An effect that has passed its checks at issue and is held for commit, or a command that its engine holds
(06 R149 to R151, 10 R205 to R209). -/
structure Eff where
  slot : Nat
  ins : Instr
  a : Token := {}
  b : Token := {}
  /-- places resolved at issue -/
  locs : List Loc := []
  /-- further words fixed at issue: lane values, expiry point, handle, addresses -/
  ws : List Word := []
  /-- poison of `ws` -/
  wp : List Bool := []
  /-- updates after which the command may start (11 R251), and serials of the stores before it by a token edge (04 R96) -/
  after : List Nat := []
  behind : List Nat := []
  /-- serial and update number at which its block's effects begin, and at which they end -/
  base : Nat × Nat := (0, 0)
  top : Nat × Nat := (0, 0)
  fix : Bool := false
  blk : Word := 0
  /-- SPACE and KEYSLOT in force when the effect was handed over (21 R366) -/
  space : BitVec 16 := 0
  keyslot : BitVec 9 := 0
  /-- count of effects the context has handed over, this one included; first of its updates -/
  ser : Nat := 0
  upd : Nat := 0
  /-- count of its first update on the scalar path (24 R409), and its sequence among those of fixed order (04 R106) -/
  seq : Nat := 0
  fseq : Nat := 0
  fir : Nat := 0
  /-- the command has started and waits for its completion -/
  started : Bool := false
  /-- the resident cycle in which it reached the head of its queue (10 R209) -/
  since : Option Nat := none
deriving DecidableEq, Repr

/-- A bore-log record before it has its ring index (24 R408, R409). -/
structure LogRec where
  type : BitVec 8
  srck : BitVec 8 := 0
  srcn : BitVec 16 := 0
  lseq : Option (BitVec 32) := none
  w1 : Word := 0
  w2 : Word := 0
  w3 : Word := 0
deriving DecidableEq, Repr

/-- The block in flight of one firing (06 R139 to R151). -/
structure Block where
  addr : Word := 0
  hdr : Half := 0
  slots : List Slot := []
  /-- slots at its end that wait for entries in their queues (01 R26) -/
  rest : Nat := 0
  /-- the slot that issues -/
  cur : Nat := 0
  gw : List (Nat × BitVec 6 × Token) := []
  fw : List (Nat × FlagWrite) := []
  effs : List Eff := []
  exits : List (Nat × Exit) := []
  faults : List BFault := []
  /-- working copies of the pipes the block has used (09 R183) -/
  pipes : Vector (Option Pipe) 4 := Vector.replicate 4 none
  /-- FPMODE flag bits the block has set, and SRCTR increments a pipe (09 R183) -/
  fp : Word := 0
  srinc : Vector Nat 4 := Vector.replicate 4 0
  /-- records tied to the block (24 R411) -/
  logs : List (Nat × LogRec) := []
  /-- arrivals accepted for the block: slot, barrier reference, key of the object, phase (05 R124) -/
  arrived : List (Nat × Word × Nat × BitVec 32) := []
  /-- child handles reserved at issue (13 R281) -/
  spawned : List (BitVec 6) := []
  /-- freezes after the block: replaced code, payload or A, code of ESCAL, OP (05 R119, 13 R285) -/
  esc : List (BitVec 4 × Word × BitVec 5 × BitVec 6) := []
  /-- a BRK of the block clears DEBUG.PASS at commit (13 R285) -/
  pass : Bool := false
  /-- registers that stores to the context's image have changed since the block was dispatched, as it still sees them (21 R368) -/
  old : List (Csr × Word) := []
  /-- of a block dispatched ahead of commit, its place in the order of dispatch of the tile; where its predicted exit goes (06 R150,
  18 R327) -/
  dseq : Nat := 0
  next : Option Word := none
deriving DecidableEq, Repr

/-! ### Firings -/

/-- Where a firing stands between its blocks (06 R142, R145, R150). -/
inductive Phase where
  | idle | fetch | dispatch | run
deriving DecidableEq, Repr

/-- A firing in a firing slot (02 R41, 22 R383). -/
structure Firing where
  id : Nat := 0
  slotNo : Nat := 0
  actor : Nat := 0
  phase : Phase := .idle
  pc : Word := 0
  regs : Vector Word 64 := Vector.replicate 64 0
  gpois : BitVec 64 := 0
  flags : Half := 0
  /-- a trap firing, and the window offset of its frame -/
  trap : Bool := false
  frame : Nat := 0
  /-- BUDGET at the start, and whether FIRING_OVERRUN was recorded (02 R43) -/
  started : Nat := 0
  overrun : Bool := false
  /-- order of dispatch among the firings of the tile (09 R183, 13 R287) -/
  dseq : Nat := 0
  /-- placed last by YIELD (13 R284) -/
  yielded : Bool := false
  /-- its return stack, the latest first (18 R327) -/
  rets : List Word := []
  blk : Block := {}
  /-- blocks dispatched after `blk` ahead of its commit, in order, and the block fetched after them (06 R150) -/
  ahead : List Block := []
  fetched : Option Block := none
deriving DecidableEq, Repr

/-- A suspended firing with a pending frame (22 R383 to R387). -/
structure Susp where
  id : Nat
  slotNo : Nat
  actor : Nat
  frame : Nat
  /-- its trap firing has retired, and that left its slot free (22 R386) -/
  retired : Bool := false
  freed : Bool := false
  started : Nat := 0
  overrun : Bool := false
deriving DecidableEq, Repr

/-! ### Parts of a context -/

/-- A rectangle of tiles of a die: TX and TY of its north-west tile, width and height (02 R51). -/
structure Rect where
  die : Nat
  x : Nat
  y : Nat
  w : Nat
  h : Nat
deriving DecidableEq, Repr

/-- What creation and placement fix (21 R363, R364, 02 R55, 12 R267). -/
structure Ident where
  /-- name of the context in this model, unique over the run -/
  uid : Nat := 0
  present : Bool := false
  tile : BitVec 8 := 0
  num : BitVec 2 := 0
  sup : Bool := false
  side : BitVec 8 := 0
  job : BitVec 16 := 0
  wlog : BitVec 2 := 0
  /-- first scratchpad row of the window in every bank (21 R365) -/
  row : Nat := 0
  launch : Nat := 0
  index : Nat := 0
  /-- (MODULE, DIE, TY, TX) where the context was placed at launch (12 R267) -/
  home : BitVec 32 := 0
  /-- the innermost tile rectangle of its launch it stands in -/
  rect : Option Rect := none
deriving DecidableEq, Repr

/-- The control and status registers of a context (13 R288), and CTXCTL's holds (22 R391, 27 R442). -/
structure Csrs where
  lposa : Word := 0
  lposb : Word := 0
  largs : Word := 0
  fpmode : Word := 0
  srctr : Word := 0
  fixord : Word := 0
  budget : Word := 0
  dceil : Word := 16
  tocnt : Word := 0
  escn : Word := 0
  trapvec : Word := 0
  loadvec : Word := 0
  hangiv : Word := 65536
  debug : Word := 0
  logbase : Word := 0
  loglim : Word := 0
  logpos : Word := 0
  bkey : Word := 0
  space : Word := 0
  keyslot : Word := 0
  perf : Vector Word 8 := Vector.replicate 8 0
  holdSup : Bool := false
  holdEsc : Bool := false
  holdBrk : Bool := false
  /-- FRZIDs of the flood holds in force -/
  holdFlood : List (BitVec 16) := []
  /-- the holds above that a trap without a handler or an uncontained error placed (02 R58) -/
  faultHold : Bool := false
  /-- a save is in progress: the context issues and accepts nothing -/
  saving : Bool := false
  /-- that save is a boundary switch, which does not freeze BUDGET (05 R114) -/
  atBound : Bool := false
deriving DecidableEq, Repr

/-- What a record or push on its way completes (01 R27, R28): a copy channel 0–7, a region 8–15, or neither; and the serial of a copy. -/
structure Origin where
  unit : Nat := 16
  ser : Option Nat := none
deriving DecidableEq, Repr

/-- A completion record (12 R261); a record that is held keeps the push of its operation behind it (01 R28). -/
structure Rec where
  status : Word
  info : Word
  push : Option (BitVec 3) := none
  origin : Origin := {}
deriving DecidableEq, Repr

/-- A push on its way to a FIFO (01 R27). -/
structure Push where
  q : BitVec 3
  origin : Origin := {}
deriving DecidableEq, Repr

/-- An entry of the arrival table (05 R125). -/
structure ArrEntry where
  ref : Word
  m : BitVec 6
  p : BitVec 32
deriving DecidableEq, Repr

/-- State of a child handle (02 R57, R58, 13 R281 to R283). -/
structure Child where
  isOpen : Bool := false
  /-- the launch number of a child graph -/
  launch : Option Nat := none
  /-- number of actors of an actor set, and whether they have joined the context -/
  set : Option Nat := none
  placed : Bool := false
  /-- rejection kept for JOIN -/
  rejected : Option Word := none
  /-- the KILL of the handle is complete: number of children killed -/
  killed : Option Nat := none
  /-- the set has reached the end of its segment -/
  ended : Bool := false
deriving DecidableEq, Repr

/-- Synchronisation state of a context (01 R27, R28, 05 R125, 13 R276). -/
structure Sync where
  q : Vector Nat 8 := Vector.replicate 8 0
  /-- engine pushes on their way or held at a full FIFO, oldest first (01 R27) -/
  pushes : List Push := []
  /-- DPUTs and DGETs that wait, in commit order (13 R276) -/
  fifo : List Eff := []
  evq : List Rec := []
  evqHeld : List Rec := []
  /-- records delivered (12 R261, SEQ) -/
  seq : Nat := 0
  /-- arrival table (05 R125) -/
  arr : List ArrEntry := []
  children : Vector Child 64 := Vector.replicate 64 {}
  /-- answers on their way back to a slot: firing, slot, status -/
  replies : List (Nat × Nat × Word) := []
deriving DecidableEq, Repr

/-- Who uses a stream (11 R241). -/
inductive Claim where
  | matrix | collar (h : BitVec 5) | index (s : BitVec 5) | core | copy
deriving DecidableEq, Repr

/-- Stream states (11 R236). -/
inductive StrSt where
  | undef | idle | run | held
deriving DecidableEq, Repr

/-- A held access: detail, address, access code 0 read 1 write 2 atomic (22 R389, R390). -/
structure Hold where
  detail : BitVec 12
  addr : Word
  acc : BitVec 2
deriving DecidableEq, Repr

/-- An element of a stream on its way: 16 bytes, little-endian, and the poison of its two words. -/
structure Elem where
  val : BitVec 128
  poison : Bool := false
  /-- the effect that supplied it, for STS -/
  ser : Nat := 0
deriving DecidableEq, Repr

/-- One stream of a context (11 R236 to R245). -/
structure Stream where
  st : StrSt := .undef
  desc : List Word := []
  /-- next element to access -/
  k : Nat := 0
  /-- read elements accessed and not yet taken, or write elements supplied and not yet performed, oldest first -/
  buf : List Elem := []
  /-- elements taken (read) or supplied (write) since ASTART -/
  used : Nat := 0
  claim : Option Claim := none
  /-- LDW: planes, midpoint fill, n is 4 (11 R245) -/
  bed : Option (Nat × Bool × Bool) := none
  hold : Option Hold := none
  /-- words of the group in progress of PLANES, ZRUN or a bed: what its pattern counter has passed (11 R252, R245) -/
  pat : List Elem := []
  /-- indices taken from ISTR for the element, or the TRANS tile, in progress (11 R238, R252) -/
  idx : List Elem := []
  /-- SPACE when ASTART was handed over (21 R366) -/
  space : BitVec 16 := 0
  /-- fixed-order and logged update counts (04 R106, 24 R409) -/
  seq : Nat := 0
  /-- elements that ENGINE ports have brought and the matrix engine has not taken, how many they have brought since
  ASTART, and whether ASTART has been applied (14 R301) -/
  eng : List Elem := []
  engN : Nat := 0
  engOn : Bool := false
deriving DecidableEq, Repr

/-- One side of a port transform (11 R252). -/
structure PortCfg where
  kind : BitVec 3 := 0
  esz : BitVec 2 := 0
  rows : Nat := 1
  cols : Nat := 1
  nb : Bool := false
deriving DecidableEq, Repr

/-- Settings of a scratchpad port for a context (01 R25, 11 R252, R253). -/
structure PortSet where
  wr : PortCfg := {}
  rd : PortCfg := {}
  merge : Option MergeOp := none
  /-- settings that wait for the last access of the streams named (01 R25) -/
  nextWr : Option (PortCfg × List Nat) := none
  nextRd : Option (PortCfg × List Nat) := none
  nextMerge : Option (Option MergeOp × List Nat) := none
deriving DecidableEq, Repr

/-- A message in a receive ring, by its first line and lines (12 R264). -/
structure RingMsg where
  line : Nat
  lines : Nat
  pad : Bool := false
  sinst : BitVec 32 := 0
  len : Nat := 0
deriving DecidableEq, Repr

/-- A receive ring (11 R254, R255, 12 R264, R265). -/
structure Ring where
  defd : Bool := false
  base : Nat := 0
  size : Nat := 0
  whole : Bool := false
  head : Nat := 0
  tail : Nat := 0
  free : Nat := 0
  msgs : List RingMsg := []
  /-- lines of the record that the last KRECV took -/
  taken : Nat := 0
deriving DecidableEq, Repr

/-- A way of the tag table (04 R91). -/
structure TagWay where
  valid : Bool := false
  tag : BitVec 38 := 0
  /-- 0 newest to 3 oldest -/
  rank : Nat := 0
deriving DecidableEq, Repr

/-- A copy request (12 R258): its command and completion word, and where its words are. -/
structure CopyReq where
  cls : BitVec 3
  op : BitVec 6
  mod : BitVec 5
  /-- window offset of the request; none once its words are read, or for a packet, whose words are given -/
  off : Option Nat
  w0 : Word := 0
  w1 : Word := 0
  count : Nat := 0
  cw : BitVec 16
  merge : Option MergeOp := none
  space : BitVec 16
  /-- kind: 0 copy, 1 gather, 2 scatter, 3 reduction, 4 collective -/
  kind : BitVec 3
  coll : Option CollKind := none
  ser : Nat := 0
  /-- the resident cycle in which it first waited for its POP (10 R209) -/
  since : Option Nat := none
deriving DecidableEq, Repr

/-- The request a channel runs (12 R259, R269). -/
structure CopyRun where
  req : CopyReq
  /-- words of the list read so far, and whether one was poisoned -/
  list : List Word := []
  /-- the block being copied: its index, the words read of it, the words or elements of it written -/
  blk : Nat := 0
  rd : List (Word × Bool) := []
  wr : Nat := 0
  poisoned : Nat := 0
  hold : Option Hold := none
  /-- refused: the status to complete with -/
  status : Option Word := none
  /-- a collective: its descriptor; (FIRSTI, NPART, CID) and ordinal once all of SRC is read -/
  desc : List Word := []
  coll : Option (Nat × Nat × BitVec 16 × Nat) := none
deriving DecidableEq, Repr

/-- A copy channel (12 R259, R268, R269). -/
structure Channel where
  queue : List CopyReq := []
  run : Option CopyRun := none
deriving DecidableEq, Repr

/-- The binding of a copy port (12 R260). -/
structure CopyPort where
  en : Bool := false
  chan : BitVec 3 := 0
  red : Option MergeOp := none
  cw : BitVec 16 := 0
  /-- the resident cycle from which a whole packet waits for room -/
  full : Option Nat := none
deriving DecidableEq, Repr

/-- A message of the context on its way or waiting for a retry (12 R263). -/
structure Send where
  id : Nat
  tag : BitVec 7
  wantRec : Bool
  dinst : BitVec 32
  ring : BitVec 4
  sseq : BitVec 16
  len : Nat
  body : List Byte
  bpois : List Bool := []
  expiry : Option Nat
  poll : Bool := false
  /-- retry interval reached, and the resident cycle at which to send again; none while in flight -/
  interval : Nat := 0
  retryAt : Option Nat := none
  flying : Bool := false
  /-- its expiry is put off by DCEIL.CEIL, as its record shows another result (24 R414) -/
  ext : Bool := false
  /-- header address of its block -/
  blk : Word := 0
  /-- its LOST notice was discarded at this port (27 R440) -/
  lost : Option Nat := none
  /-- its message goes to another module -/
  away : Bool := false
deriving DecidableEq, Repr

/-! ### The collar (14) -/

/-- A collar token (14 R295). -/
structure CTok where
  val : Half
  pois : Bool := false
  eor : Bool := false
  part : Bool := false
  /-- the publication that wrote it at a CHAN port, for FENCE (04 R100) -/
  ser : Nat := 0
deriving DecidableEq, Repr

/-- A node entry (14 R297). -/
structure NodeEnt where
  node : BitVec 9
  cslot : BitVec 2
  opc : BitVec 8
  type : BitVec 2
  rm : BitVec 2
  level : BitVec 4
  pin : Bool
  k : Half
  k2 : Half
  init : Half
deriving DecidableEq, Repr

/-- An edge entry (14 R298). -/
structure EdgeEnt where
  src : BitVec 13
  dst : BitVec 13
  pos : BitVec 2
  depth : Nat
  init : Nat
  initv : Half
  track : BitVec 3
deriving DecidableEq, Repr

/-- A port entry (14 R300). -/
structure PortEnt where
  kind : BitVec 4
  out : Bool
  lane : Nat
  stream : BitVec 5
deriving DecidableEq, Repr

/-- A delta directory entry (14 R307). -/
structure DirEnt where
  tsel : BitVec 6
  off : Nat
deriving DecidableEq, Repr

/-- An image (14 R296). -/
structure Image where
  sett : Bool := false
  nslab : Nat := 1
  nsrc : Nat := 0
  param : Bool := false
  lat : Nat := 0
  nodes : List NodeEnt := []
  edges : List EdgeEnt := []
  ports : List PortEnt := []
  dir : List DirEnt := []
deriving DecidableEq, Repr

/-- Sums of a two-pass statistics operator or state of an operator (14 R299, 03 R82). -/
structure NodeSt where
  state : Half := 0
  level : BitVec 4 := 0
  pin : Bool := false
  credit : Int := 0
  /-- Σ held over the firings of the unit since the last reweight -/
  held : Nat := 0
  faulted : Bool := false
  /-- fault register (14 R310) -/
  code : BitVec 12 := 0
  /-- row state of STAT as the nine lanes of 09 R199, and the results still to emit -/
  stat : List Half := []
  /-- EORs seen on A and on B -/
  phase : Nat := 0
  out : List CTok := []
  /-- poison and marks of the row in progress -/
  marks : CTok := { val := 0 }
  /-- physical context slot -/
  slot : BitVec 2 := 0
deriving DecidableEq, Repr

/-- A port of a configuration: tokens of an element half moved; of an ISECT port the coordinates at hand and the last
ones of X and Y (14 R300, 01 R19). -/
structure PortSt where
  part : List CTok := []
  x : Option CTok := none
  y : Option CTok := none
  lastX : Option Half := none
  lastY : Option Half := none
  faulted : Bool := false
  /-- fault register (14 R310) -/
  code : BitVec 12 := 0
  /-- report of a NONMONO fault: stream Y, the coordinate before, the one that broke the order (01 R19, log 105) -/
  report : Option (Bool × Half × Half) := none
  /-- of a COPY port, the binding under which its whole packet goes on (12 R260) -/
  bound : Option CopyPort := none
deriving DecidableEq, Repr

/-- A loaded configuration (10 R221 to R225, 14 R306 to R312). -/
structure CollarCfg where
  img : Image := {}
  addr : Word := 0
  side : BitVec 2 := 0
  first : Nat := 0
  rot : BitVec 2 := 0
  fired : Bool := false
  frozen : Bool := false
  /-- faulted endpoint and code (14 R310) -/
  fault : Option (BitVec 13 × BitVec 12) := none
  nodes : List NodeSt := []
  /-- tokens of each edge, oldest first -/
  chans : List (List CTok) := []
  ports : List PortSt := []
  /-- FLUSH taken at CFIRE (03 R75) -/
  flush : Bool := false
  /-- hang monitor: HANGIV read, map address; cycles counted (14 R311) -/
  hang : Option (Nat × Word) := none
  idle : Nat := 0
  idleAt : Nat := 0
  /-- frozen by its hang monitor -/
  hung : Bool := false
  /-- an eviction that waits for the boundary (10 R223) -/
  evict : Bool := false
deriving DecidableEq, Repr

/-- A sett binding (q, n) (10 R226, R227). -/
structure Binding where
  bound : Bool := false
  resident : Bool := false
  addr : Word := 0
  img : Image := {}
  first : Nat := 0
  rot : BitVec 2 := 0
deriving DecidableEq, Repr

/-! ### The graph instance (02) -/

/-- A channel of the graph (02 R32, R37): descriptor, ring counts, markers. -/
structure GChan where
  kind : BitVec 3 := 0
  item : Nat := 0
  cap : Nat := 0
  loc : BitVec 24 := 0
  /-- ring index of the first item, items published -/
  head : Nat := 0
  count : Nat := 0
  /-- markers at a distance in items from the head: SOS, or EOS with FINAL -/
  marks : List (Nat × Option Bool) := []
  /-- items staged by the firing that holds the reserved places, until it retires: words and poison -/
  stage : List (Word × Bool) := []
  /-- bytes of the stage that the firing has written (02 R42) -/
  wrote : List Nat := []
  /-- 0 for the graph itself, else 1 + the handle of the actor set -/
  set : Nat := 0
  /-- generation of the ingress channel that the firing which holds its items has found (20 R362) -/
  gen : Nat := 0
deriving DecidableEq, Repr

/-- A port of an actor: channel and RATE (02 R38). -/
structure GPort where
  chan : Nat
  rate : Nat
deriving DecidableEq, Repr

/-- An actor descriptor and its state (02 R38, R40, R47). -/
structure Actor where
  entry : Word := 0
  fmax : Nat := 0
  weight : Nat := 0
  prio : BitVec 2 := 0
  nstate : Nat := 0
  stateoff : Nat := 0
  ins : List GPort := []
  outs : List GPort := []
  active : Bool := false
  ended : Bool := false
  fired : Bool := false
  /-- every EOS consumed at the last end of segment carried FINAL -/
  final : Bool := false
  /-- occupancy level, credit, occupancy sum since the last reweight (18 R331) -/
  occ : Nat := 0
  credit : Int := 0
  occSum : List Nat := []
  /-- 0 for the graph itself, else 1 + the handle of the actor set -/
  set : Nat := 0
  /-- the actor set has been killed -/
  free : Bool := false
deriving DecidableEq, Repr

/-- The instance, its segment and its launch (02 R46 to R60). -/
structure Graph where
  chans : List GChan := []
  actors : List Actor := []
  isOpen : Bool := false
  ordinal : Nat := 0
  passed : Nat := 0
  agedAt : Option Nat := none
  /-- BUDGET at the start of the segment -/
  began : Nat := 0
  segmax : Nat := 0
  weight : Nat := 1
  prio : BitVec 2 := 0
  credit : Int := 0
  /-- reserved firing slots (02 R44) -/
  slots : List Nat := []
  /-- the ALLOC record of its placement is not yet written (24 R412) -/
  unlogged : Bool := false
  /-- CTXSAVE MODE 0 that waits for the boundary: its command and the issuer (22 R392) -/
  pending : Option (Nat × Eff) := none
deriving DecidableEq, Repr

/-- Bore-log state of a context (24 R406 to R412). -/
structure Log where
  /-- records the context's side has written -/
  lseq : Nat := 0
  /-- records whose write waits behind a held access of the bore-log port, oldest first -/
  held : List LogRec := []
  /-- LOGPOS.HELD (24 R412) -/
  isHeld : Bool := false
  /-- expected records between RD and WR already consumed in STEER mode, by index (24 R414) -/
  used : List Nat := []
  /-- held access of the bore-log port -/
  port : Option Hold := none
  /-- records that are written, dropped or consumed, or need none, whose event has not happened yet (24 R407, R410) -/
  done : List LogRec := []
  /-- LSEQ of the last record that each unit wrote into the ring (24 R412) -/
  unitSeq : List (Nat × BitVec 32) := []
  /-- ALLOC and SEGMENT records of a restore that the context, which stands on its tile again, has still to write (24 R412) -/
  owed : List LogRec := []
deriving DecidableEq, Repr

/-- A value released from an accumulator entry: to stream OSTR when `stream` is set, else to the output port of its node
(10 R219, R220). -/
structure Release where
  region : Nat
  node : Nat
  entry : Nat
  tok : CTok
  stream : Option (BitVec 5) := none
  /-- the command that releases it -/
  ser : Nat := 0
deriving DecidableEq, Repr

/-- A tile register and its weight-scale register (03 R68), with their poison. -/
structure Weight where
  w : Half := 0
  scale : BitVec 20 := 0
  pois : Bool := false
deriving DecidableEq, Repr

/-- A region of the systolic core (01 R12 to R14, 10 R212 to R219). -/
structure Region where
  owner : Nat
  row : Nat
  col : Nat
  h : Nat
  w : Nat
  afmt : Option (BitVec 4) := none
  wfmt : Option (BitVec 4) := none
  npass : Nat := 1
  first : Nat := 0
  nent : Nat := 64
  dest : Bool := false
  ostr : BitVec 5 := 0
  wgrp : Option (BitVec 2) := none
  /-- the two banks of tile registers with their weight scales, element (r, c) at index r·W + c (03 R68) -/
  active : List Weight := []
  loading : List Weight := []
  /-- an MWLD of it is in progress; an MSTEP of it is -/
  busy : Bool := false
  stepping : Bool := false
deriving DecidableEq, Repr

/-- A non-clear accumulator entry (10 R218). -/
structure AccEnt where
  node : Nat
  entry : Nat
  owner : Nat
  region : Nat
  val : Half
  count : Nat
  int : Bool
  pois : Bool := false
deriving DecidableEq, Repr

/-- A context (02 R46, 21 R363 to R366). -/
structure Ctx where
  id : Ident := {}
  csr : Csrs := {}
  firs : List Firing := []
  susp : List Susp := []
  pipes : Vector Pipe 4 := Vector.replicate 4 Pipe.reset
  sync : Sync := {}
  streams : Vector Stream 32 := Vector.replicate 32 {}
  ports : Vector PortSet 16 := Vector.replicate 16 {}
  rings : Vector Ring 16 := Vector.replicate 16 {}
  tags : List (Nat × List TagWay) := []
  chans : Vector Channel 8 := Vector.replicate 8 {}
  kports : Vector CopyPort 4 := Vector.replicate 4 {}
  sends : List Send := []
  /-- messages sent to each (DINST, RING) (12 R264) -/
  sseq : List (BitVec 32 × BitVec 4 × BitVec 16) := []
  /-- command queues of the engines: matrix, collar, stream, copy, system -/
  mq : List Eff := []
  cq : List Eff := []
  lq : List Eff := []
  kq : List Eff := []
  zq : List Eff := []
  /-- effects of other classes that commit applies, held until an update has been applied (11 R251) -/
  dq : List Eff := []
  handles : Vector (Option CollarCfg) 32 := Vector.replicate 32 none
  setts : Vector Binding 64 := Vector.replicate 64 {}
  graph : Graph := {}
  log : Log := {}
  /-- held scalar-path access and collar-engine access (22 R389) -/
  holdScalar : Option (Hold × Eff) := none
  /-- regions and accumulator entries that a save in progress has written: the core and the collar are released (22 R393) -/
  taken : Option (List (Nat × Region) × List AccEnt) := none
  holdEngine : Option Hold := none
  /-- fixed-order sequence of the copy channels (04 R106) -/
  fixCopy : Vector Nat 8 := Vector.replicate 8 0
  /-- words of occupancy maps that wait behind a held access of the collar engine's port: address, word, place in the
  map (14 R312) -/
  mapq : List (Word × Word × Nat) := []
  /-- SPACE and KEYSLOT of the words in `mapq` while a frozen save of the context is in progress (22 R393) -/
  mapWho : Option (BitVec 16 × BitVec 9) := none
  /-- what stood in `mapq` when that save began -/
  mapKept : List (Word × Word × Nat) := []
  /-- accumulator releases not yet handed over, in order (10 R219) -/
  releases : List Release := []
  /-- M and C commands whose effect is complete and whose record and push are to come: status, record in any case -/
  mdone : List (Eff × Word × Bool) := []
  cdone : List (Eff × Word × Bool) := []
  /-- WSTR of committed MWLDs of each region, by the order of dispatch of their blocks (10 R217) -/
  wlast : Vector (List (Nat × BitVec 5)) 8 := Vector.replicate 8 []
  /-- KCOLLs started with each (FIRSTI, NPART, CID) (12 R266) -/
  collN : List ((Nat × Nat × BitVec 16) × Nat) := []
  nextFir : Nat := 1
  /-- effects handed over; updates made by the scalar path -/
  ser : Nat := 0
  updSeq : Nat := 0
  /-- fixed-order updates of the scalar path (04 R106) -/
  fixSeq : Nat := 0
deriving DecidableEq, Repr

/-! ### The tile -/

/-- A counter set of a fabric interface for one job slot (05 R129). -/
structure Counters where
  inj : Nat := 0
  con : Nat := 0
  woff : Nat := 0
  act : Bool := false
deriving DecidableEq, Repr

/-- A tile (01, 21 R377 to R382). -/
structure Tile where
  num : BitVec 8 := 0
  regions : Vector (Option Region) 8 := Vector.replicate 8 none
  acc : List AccEnt := []
  /-- last physical slot fired and firings since the last reweight of a collar unit (14 R303) -/
  units : List (BitVec 9 × Option (BitVec 2) × Nat) := []
  kerf : Vector Word 4 := Vector.replicate 4 0
  spoil : Vector Word 4 := Vector.replicate 4 0
  slott : Vector (Vector Word 4) 4 := Vector.replicate 4 (Vector.replicate 4 0)
  sprec : Vector Word 2 := Vector.replicate 2 0
  tlbiso : Vector Word 6 := Vector.replicate 6 0
  ckerf : Word := 0
  alloc : Word := 0
  slabm : Vector Word 4 := Vector.replicate 4 0xFFFFFFFFFFFF
  cspoil : Word := 0
  waveper : Word := 4096
  sage : Word := 64
  module : BitVec 24 := 0
  /-- supervisor events raised by the tile (22 R390) -/
  evseq : Nat := 0
  /-- counter sets of the network interface and the copy engine, 16 slots each (05 R129) -/
  net : Vector Counters 16 := Vector.replicate 16 {}
  cop : Vector Counters 16 := Vector.replicate 16 {}
  /-- selections since the last actor reweight at each PRIO (18 R331) -/
  sels : Vector Nat 4 := Vector.replicate 4 0
  /-- order of dispatch, and the firing slot whose block was dispatched last (18 R327) -/
  dseq : Nat := 0
  served : Nat := 7
  /-- the exit table: slot and target of the exit that last fired in a block with an index, by index (18 R327) -/
  exitTab : List (Nat × (Nat × Word)) := []
deriving DecidableEq, Repr

/-! ### The module and its edges -/

/-- An update that has been merged into another (04 R104, R107). -/
structure Sub where
  ctx : Nat
  id : Nat
  stream : Nat
  ucount : Nat
  va : Word
deriving DecidableEq, Repr

/-- An update token at a sparse-update unit (04 R102 to R107). -/
structure Update where
  id : Nat
  ctx : Nat
  key : Nat
  wide : Bool
  op : AmoOp
  ty : AmoTy
  v : Word
  vpois : Bool := false
  /-- return record, as the key of its first byte (11 R248) -/
  ret : Option Nat := none
  cas : Bool := false
  stream : Nat := 32
  seq : Nat := 0
  fixed : Bool := false
  job : BitVec 16 := 0
  /-- the job's context count N (04 R106) -/
  n : Nat := 0
  source : Nat := 0
  ord : Bool := false
  overtaken : Nat := 0
  va : Word := 0
  ucount : Nat := 0
  keyslot : BitVec 9 := 0
  /-- updates merged into this one, oldest first -/
  subs : List Sub := []
  /-- closes of its context that stood at the unit when it came (04 R107) -/
  epoch : Nat := 0
deriving DecidableEq, Repr

/-- A sparse-update unit (04 R103, R107): 1,024 scratchpad units (4·tile + group), then 48 HBM units. -/
structure USU where
  num : Nat
  window : List Update := []
  order : List Update := []
  /-- contexts whose close has arrived, by job, and the N of the latest close -/
  closes : List (BitVec 16 × List Nat × Nat) := []
  applied : Nat := 0
  rounds : List (BitVec 16 × Nat) := []
deriving DecidableEq, Repr

/-- An operation on its way to a barrier home (05 R122). -/
inductive BarOp where
  | arrive (drop : Bool) | sample | read | init (live : Word) (scope : BitVec 4) (cw : Bool)
  | withdraw (p : BitVec 32)
deriving DecidableEq, Repr

/-- A request in the queue of a barrier home. -/
structure BarReq where
  op : BarOp
  ref : Word
  key : Nat
  m : BitVec 6
  ctx : Nat
  fir : Nat
  slot : Nat
  keyslot : BitVec 9
deriving DecidableEq, Repr

/-- A packet of the network (12 R263, 05 R130, 27 R440). -/
inductive PktKind where
  | msg | nack | accept | lost | kerf
  /-- an exchange of a collective (12 R267) -/
  | coll
  /-- an instance that this module placed in another one has ended there: `launch`, its linear index `dinst`, `send` 1 when killed
  (02 R54, R58; log 77) -/
  | ended
deriving DecidableEq, Repr

/-- A message, its NACK or its notice, at a tile of the module (23 R400, 26 R433). -/
structure Packet where
  kind : PktKind
  /-- sender: context, its tile, the send it belongs to -/
  ctx : Nat
  src : BitVec 8
  srcMod : BitVec 24 := 0
  send : Nat
  job : BitVec 16
  side : BitVec 8
  cnum : BitVec 2 := 0
  /-- destination (MODULE, DIE, TY, TX) and instance -/
  dst : BitVec 32
  dinst : BitVec 32
  sinst : BitVec 32
  ring : BitVec 4
  sseq : BitVec 16
  body : List Byte
  bpois : List Bool := []
  launch : Nat
  /-- tile where the packet stands -/
  pos : BitVec 8
  /-- torus class B in the current dimension, and that dimension: 0 X, 1 Y, 2 Z, 3 none yet (26 R433) -/
  classB : Bool := false
  dim : Nat := 3
  /-- the interface that it comes from, (MODULE, DIE, TY, TX): a notice of its loss goes there (27 R440) -/
  origin : BitVec 32 := 0
deriving DecidableEq, Repr

/-- A supervisor event waiting for delivery (20 R361, 22 R390). -/
structure Event where
  w0 : Word
  seq : BitVec 32
  body : List Word
deriving DecidableEq, Repr

/-- A token handed over to an egress channel (20 R358): VALUE, CTRL without SEQ; the context of a host-space store and
the place of the store in the order of hand-over (11 R231); the contexts whose updates below `upd` precede it. -/
structure OutTok where
  val : Word
  /-- VALUE is poisoned (04 R109) -/
  pois : Bool := false
  ctrl : Word
  ctx : Nat := 0
  n : Nat := 0
  deps : List Nat := []
  upd : Nat := 0
  /-- effects of its context handed over before it -/
  ser : Nat := 0
  /-- bytes of VALUE that keep what the slot held before (02 R42) -/
  keep : BitVec 8 := 0
  /-- the job of a tenant's token, which must own the channel (20 R352) -/
  job : Option (BitVec 16) := none
deriving DecidableEq, Repr

/-- A host channel (20 R352 to R358). -/
structure HostChan where
  base : Word := 0
  ctl : Word := 0x40000
  head : BitVec 32 := 0
  tail : BitVec 32 := 0
  stat : Word := 0
  /-- slots read and checked, not yet consumed: VALUE, CTRL -/
  ready : List (Word × Word) := []
  /-- tokens waiting for a slot, oldest first -/
  out : List OutTok := []
  /-- MSI-X raised -/
  irqs : Nat := 0
  /-- index up to which slots have been read -/
  readTo : BitVec 32 := 0
  /-- times that slots read and not yet consumed were discarded (20 R362) -/
  gen : Nat := 0
  /-- indices of the slots of an egress channel that hold markers, which take no capacity (02 R34) -/
  eos : List (BitVec 32) := []
deriving DecidableEq, Repr

/-- A launch record accepted and not yet placed, or a child (02 R54, R57). -/
structure Pending where
  launch : Nat
  queue : Option (BitVec 6)
  record : List Word
  job : BitVec 16
  barr : Bool
  /-- profile values: SPACE, KEYSLOT, BKEY, DCEIL, ESCN, SUP, SIDE, WLOG -/
  prof : List Word
  /-- parent context and handle of a child -/
  parent : Option (Nat × Nat) := none
  fixo : Bool := false
  loge : Bool := false
deriving DecidableEq, Repr

/-- A launch that has started (02 R56, R58). -/
structure Launch where
  num : Nat
  queue : Option (BitVec 6)
  job : BitVec 16
  egress : BitVec 6
  instances : Nat
  completed : Nat := 0
  killed : Nat := 0
  parent : Option (Nat × Nat) := none
  /-- killed instances, by linear index -/
  deadIdx : List Nat := []
  /-- its contexts -/
  uids : List Nat := []
deriving DecidableEq, Repr

/-- A leaf in a TLB slice, or a pointer in its walk cache (21 R373, R381). `lvl`: 5 a 64 KiB leaf, 3 and 4 a 2 MiB and a 1 GiB
leaf; of a pointer 3 to 6 for L3 to L0. -/
structure TlbEnt where
  slice : BitVec 6
  side : Option (BitVec 8)
  space : BitVec 16
  gen : BitVec 4
  lvl : BitVec 3
  vpn : BitVec 64
  pte : Word
  ptr : Bool := false
  /-- way of a leaf, entry of the walk cache -/
  way : Nat := 0
  /-- fills of the module before this one -/
  no : Nat := 0
deriving DecidableEq, Repr

/-- A flit in a retry buffer (26 R430, R431): the packet that it ends, how often it has been replayed, and its trailer: SEQ, VC,
TYPE, ACKV with ACKSEQ. -/
structure Flit where
  pkt : Option Packet := none
  replays : Nat := 0
  seq : BitVec 12 := 0
  vc : BitVec 3 := 7
  typ : BitVec 4 := 1
  ack : Option (BitVec 12) := none
  /-- PTID that a header flit carries (26 R429) -/
  ptid : Option (BitVec 16) := none
  /-- it names the last good SEQ, in `ack`, and asks for the flits after it (26 R431) -/
  again : Bool := false
  /-- FRZID and OP of a flood that it forwards: whether a thaw (27 R441) -/
  flood : Option (BitVec 16 × Bool) := none
deriving DecidableEq, Repr

/-- A port to another die (26 R430, R431, 27 R438, R439). -/
structure Link where
  lnk : Word := 0
  /-- sequence number expected next, sequence number of the next flit sent -/
  rx : BitVec 12 := 0
  tx : BitVec 12 := 0
  /-- flits sent and not acknowledged, oldest first -/
  retry : List Flit := []
  /-- the replay of the flit expected has been asked for; the link is being trained -/
  asked : Bool := false
  training : Bool := false
  /-- cycles of its tile since it sent, and since it received, a flit -/
  idleTx : Nat := 0
  idleRx : Nat := 0
  /-- link-management flits that wait for room in the retry buffer -/
  wait : List Flit := []
  /-- packets written off since the last LINKLOSS event on a down link, and the JOB of the first of them -/
  lost : Nat := 0
  lostJob : BitVec 16 := 0
  /-- link-management flits sent -/
  sent : Nat := 0
  /-- counter set of the port, one a job slot (05 R129) -/
  cnt : Vector Counters 16 := Vector.replicate 16 {}
deriving DecidableEq, Repr

/-- A job slot (05 R128). -/
structure JobSlot where
  job : BitVec 16 := 0
  active : Bool := false
  /-- its counters await a clearing wave -/
  dirty : Bool := false
deriving DecidableEq, Repr

/-- A saved context (22 R395): what sections 4 to 11 of the save area stand for. Of its fixed-order updates that wait for
a round, places in the window are offsets, and `epoch` counts the closes of the context after the update. -/
structure Saved where
  tag : Nat
  ctx : Ctx
  regions : List (Nat × Region)
  acc : List AccEnt
  upds : List Update := []
  /-- offsets of the poisoned words of its window -/
  wpois : List Nat := []
  /-- B and KIND of its save area (22 R394, R395) -/
  bytes : Nat := 0
  frozen : Bool := false
deriving DecidableEq, Repr

/-- A QWAIT whose request is on its way to the wave root, or stands there (05 R133). -/
structure QReq where
  ctx : Nat
  fir : Nat
  slot : Nat
  job : BitVec 16
  /-- the wave in progress began after the request reached the root -/
  counts : Bool := false
deriving DecidableEq, Repr

/-- A participant of a collective that has reached it (12 R266): its context, channel, index and home, whether its own
kind and descriptor differ from the first one's, the elements of its SRC and their poison, and whether it has completed. -/
structure CollPart where
  ctx : Nat
  chan : Nat
  index : Nat
  home : BitVec 32
  tree : Bool
  differs : Bool
  data : List Word
  pois : List Bool
  done : Bool := false
  /-- it has left before the end: cancelled, or cut off by a kerf -/
  lost : Bool := false
  /-- exchanges that it has still to send, once all have joined; the number of the one on its way; one was dropped at a kerf -/
  left : Option Nat := none
  out : Option Nat := none
  kerf : Bool := false
deriving DecidableEq, Repr

/-- A collective in progress (12 R266): the participants that have reached it. -/
structure Coll where
  launch : Nat
  firsti : Nat
  npart : Nat
  cid : BitVec 16
  nth : Nat
  kind : CollKind
  desc : List Word
  parts : List CollPart
deriving DecidableEq, Repr

/-- A flood of PTFRZ at a die (27 R441). -/
structure Flood where
  die : BitVec 2
  id : BitVec 16
  thaw : Bool
  /-- contexts that changed -/
  changed : Nat := 0
  /-- the package port by which it comes -/
  via : Nat := 24
deriving DecidableEq, Repr

/-- A structure that an uncontained error has damaged: its code, its tile, and its context unless the tile's contexts share it (27
R436). -/
structure Damage where
  code : BitVec 12
  tile : BitVec 8
  uid : Option Nat := none
deriving DecidableEq, Repr

/-- The module: registers, keys, units, host interface, network, boot, errors (20 to 27). -/
structure Dev where
  -- 21 R368
  sptbase : Word := 0
  profbase : Word := 0
  plbase : Word := 0
  keycmd : Word := 0
  keydata : Vector Word 8 := Vector.replicate 8 0
  keys : List (Nat × BitVec 512) := []
  -- 26 R427, 27 R438, R441, R445, R447
  ptctl : Word := 0
  ptsize : Word := 0
  ptpos : Word := 0
  ptfrz : Word := 0
  /-- (die, FRZID, thaw) floods seen, and floods to forward -/
  floods : List Flood := []
  floodOut : List Flood := []
  kaper : Word := 0x33E140
  links : Vector Link 24 := Vector.replicate 24 {}
  pwrcap : Word := 0x0D480001
  diestat : Vector Word 4 := Vector.replicate 4 0
  /-- cycles of each die since its last re-evaluation, and whether that raised STEP for power (27 R446) -/
  clk : Vector Nat 4 := Vector.replicate 4 0
  capped : Vector Bool 4 := Vector.replicate 4 false
  cecnt : Word := 0
  uecnt : Word := 0
  -- 20 R352, R361
  hch : Vector HostChan 64 := Vector.replicate 64 {}
  hevch : Word := 0
  hevch2 : Word := 0
  events : List Event := []
  -- 25
  bootstat : Word := 1
  /-- what the four dies come to in the boot that is being checked: whether they obtain the same D (25 R420) -/
  bootAgree : Bool := true
  damage : List Damage := []
  attcmd : Word := 0
  attn : Vector Word 8 := Vector.replicate 8 0
  /-- D, MEAS, alias key pair, alias certificate of the running firmware -/
  digest : List Byte := []
  meas : List Byte := []
  aliasKey : List Byte := []
  aliasPriv : List Byte := []
  aliasCert : List Byte := []
  -- 27 R447
  i3cAddr : BitVec 7 := 0x4C
  i3cIdx : BitVec 8 := 0
  /-- the 8 bytes of the latest private read, and CXL data of the latest HDM read with its poison -/
  i3cOut : Word := 0
  hdmOut : List Byte := []
  hdmPois : Bool := false
  -- 21 R373
  tlb : List TlbEnt := []
  -- 04 R102
  units : List USU := []
  barQ : List BarReq := []
  packets : List Packet := []
  -- 05 R128 to R133
  jobs : Vector JobSlot 16 := Vector.replicate 16 {}
  quietReqs : List QReq := []
  quietWait : List QReq := []
  /-- pass-1 sums of the wave in progress, one counter set a slot -/
  wave : Option (Vector Counters 16) := none
  /-- cycles of the wave root since the latest wave began -/
  waveAge : Option Nat := none
  -- 02, 22
  pending : List Pending := []
  launches : List Launch := []
  nextLaunch : Nat := 1
  nextUid : Nat := 1
  nextUpd : Nat := 1
  nextOut : Nat := 0
  nextTag : Nat := 0
  saved : List Saved := []
  /-- save areas whose context has been restored or killed since: a whole area can be loaded again (13 R292) -/
  spent : List Saved := []
  /-- fixed-order updates of a window whose save area is being written, taken from their units; places as in `Saved` -/
  kept : List Update := []
  /-- an access of the row that is tried finds no slot on its way (21 R379); only tried states carry it -/
  gated : Bool := false
  colls : List Coll := []
  /-- words with an error not yet met by a read, and whether SECDED cannot correct it (04 R108); corrections since the
  latest CORR event of scratchpad, HBM and links (27 R437) -/
  upsets : List (Nat × Bool) := []
  corr : Vector Nat 3 := Vector.replicate 3 0
deriving DecidableEq, Repr

/-- What the outside does next (Host interface of INVENTORY.md). -/
inductive Input where
  /-- a step without a word that the outside causes or chooses -/
  | ev (i : Instr)
  /-- a store of the host into its own memory -/
  | hostStore (addr : Nat) (data : List Byte)
  /-- an error in the word of memory at `key`; `hard`: SECDED cannot correct it (04 R108) -/
  | upset (key : Nat) (hard : Bool)
  /-- nothing from outside in this step -/
  | pause
deriving DecidableEq, Repr

/-- Which agent's row is executed: the control core in focus, or an engine with a command of the context in focus. -/
inductive Agent where
  | core
  | cmd (e : Eff)
deriving DecidableEq, Repr

/-- The whole state. -/
structure State where
  fir : Firing := {}
  ctx : Ctx := {}
  ctxs : List Ctx := []
  tile : Tile := {}
  tiles : List Tile := []
  mem : Memory := {}
  dev : Dev := {}
  /-- the row in execution belongs to this agent -/
  who : Agent := .core
  /-- inputs not yet taken, in order -/
  agenda : List Input := []
  /-- scheduling: whose turn it is, and a rotation counter (log 3) -/
  turn : Bool := false
  rot : Nat := 0
  /-- counter from which free values are drawn (log 15) -/
  freeCtr : Nat := 0
deriving DecidableEq, Repr

/-- No condition stops the Lymal: every fault it detects is a trap, a status, a hold or a freeze (22, 27 R435), so no
step raises a fault and the type has no constructor. -/
inductive Fault where
deriving DecidableEq, Repr

/-- Why a step has no meaning in the model. -/
inductive Refusal where
  /-- Raised by an arm of `exec` whose instruction has no meaning yet; safe: the run stops. -/
  | notModelled (mnemonic : String)
deriving DecidableEq, Repr

/-- The module right after device reset (00 R6, 01 R10): no context is resident, memory lists nothing. -/
def State.reset : State := {}

end Sys2Proof.Machine
end

