-- ==== Sys2Proof/Machine/Mem.lean ====
section
/-! DEFINITION. Memory as a canonical list, windows and their banks, keys, and translation (04 R84 to R90, R108,
R109; 21 R363 to R375). -/

namespace Sys2Proof.Machine

/-! ### Canonical lists -/

/-- The byte at a key; an unlisted key reads 0 (log 1). -/
def getCell (k : Nat) : List Host.Cell → Byte
  | [] => 0
  | (k', b) :: t => if k = k' then b else getCell k t

/-- Stores a byte; storing what an unlisted key reads as removes the entry. -/
def putCell (k : Nat) (b : Byte) : List Host.Cell → List Host.Cell
  | [] => if b = 0 then [] else [(k, b)]
  | (k', b') :: t =>
    if k < k' then (if b = 0 then (k', b') :: t else (k, b) :: (k', b') :: t)
    else if k = k' then (if b = 0 then t else (k, b) :: t)
    else (k', b') :: putCell k b t

/-- Membership of a rising list of numbers. -/
def hasNat (k : Nat) : List Nat → Bool
  | [] => false
  | x :: t => k == x || hasNat k t
/-- Adds a number to a rising list. -/
def addNat (k : Nat) : List Nat → List Nat
  | [] => [k]
  | x :: t => if k < x then k :: x :: t else if k = x then x :: t else x :: addNat k t
/-- Removes a number from a rising list. -/
def delNat (k : Nat) : List Nat → List Nat
  | [] => []
  | x :: t => if k = x then t else x :: delNat k t
/-- The value of a key in a list of pairs. -/
def getKey {α : Type} (k : Nat) : List (Nat × α) → Option α
  | [] => none
  | (x, v) :: t => if k = x then some v else getKey k t
/-- Sets a key in a list of pairs that rises by key. -/
def setKey {α : Type} (k : Nat) (v : α) : List (Nat × α) → List (Nat × α)
  | [] => [(k, v)]
  | (x, y) :: t => if k < x then (k, v) :: (x, y) :: t else if k = x then (k, v) :: t else (x, y) :: setKey k v t

namespace Memory

/-- The canonical form: keys strictly rise and no entry is what an unlisted key reads as. -/
def wf (m : Memory) : Bool :=
  decide ((m.cells.map (·.1)).Pairwise (· < ·)) && m.cells.all (fun c => c.2 != 0)
    && decide (m.pois.Pairwise (· < ·)) && decide ((m.lineKey.map (·.1)).Pairwise (· < ·))

/-- The stored byte. -/
def byte (m : Memory) (k : Nat) : Byte := getCell k m.cells
/-- The 64-bit word that holds the byte is poisoned (04 R108). -/
def poisoned (m : Memory) (k : Nat) : Bool := hasNat (k / 8) m.pois

def setByte (m : Memory) (k : Nat) (b : Byte) : Memory := { m with cells := putCell k b m.cells }
def setPoison (m : Memory) (k : Nat) (p : Bool) : Memory :=
  { m with pois := if p then addNat (k / 8) m.pois else delNat (k / 8) m.pois }

/-- `n` bytes from a key, little-endian (00 R3), as stored. -/
def raw (m : Memory) (k : Nat) : Nat → Nat
  | 0 => 0
  | n + 1 => (m.byte k).toNat + 256 * raw m (k + 1) n
/-- Stores the low `n` bytes of a number. -/
def setRaw (m : Memory) (k : Nat) (v : Nat) : Nat → Memory
  | 0 => m
  | n + 1 => (m.setByte k (BitVec.ofNat 8 v)).setRaw (k + 1) (v / 256) n

/-- A stored 64-bit word. -/
def word (m : Memory) (k : Nat) : Word := BitVec.ofNat 64 (m.raw k 8)

/-- Zeroes `n` bytes and clears the poison of their words (21 R365). -/
def zero (m : Memory) (k n : Nat) : Memory :=
  { m with cells := m.cells.filter (fun c => c.1 < k || k + n ≤ c.1)
           pois := m.pois.filter (fun w => w < k / 8 || (k + n) / 8 ≤ w) }

end Memory

/-! ### Keys of memory -/

/-- HBM of the module itself: physical address; of another module of the partition: a range of its own. -/
def hbmKey (own mod : BitVec 24) (pa : Nat) : Nat := if mod = own then pa else (mod.toNat + 1) * 2 ^ 48 + pa
/-- Keys below this are HBM. -/
def hostBase : Nat := 2 ^ 77
def spadBase : Nat := 2 ^ 78
def hostKey (hpa : Nat) : Nat := hostBase + hpa
def spadKey (tile : BitVec 8) (phys : Nat) : Nat := spadBase + tile.toNat * 2 ^ 23 + phys
def isHbm (k : Nat) : Bool := k < hostBase
/-- Local HBM spans 576 GiB (04 R102). -/
def hbmSize : Nat := 576 * 2 ^ 30

/-! ### Windows (04 R87, R88, 21 R365) -/

/-- Window size in bytes. -/
def winSize (wlog : BitVec 2) : Nat := 2 ^ (20 + wlog.toNat)

/-- The bank of line `l` under key KEY (04 R88). -/
def bankOf (key l : Nat) : Nat :=
  let h := (l / 8 * (2 * key + 1)) % 4096
  (l % 8) ^^^ (h % 8) ^^^ (h / 8 % 8) ^^^ (h / 64 % 8) ^^^ (h / 512 % 8)

/-- The scratchpad byte of a window offset (04 R87, R88, 21 R365). -/
def winPhys (wlog : BitVec 2) (row : Nat) (bkey : Word) (o : Nat) : Nat :=
  let w := 20 + wlog.toNat
  let g := o / 2 ^ (w - 2)
  let l := o % 2 ^ (w - 2) / 64
  ((g * 8 + bankOf (bkey.toNat % 4096) l) * 4096 + (row + l / 8)) * 64 + o % 64

/-- The bank group of a window offset (04 R87). -/
def winGroup (wlog : BitVec 2) (o : Nat) : Nat := o / 2 ^ (18 + wlog.toNat)

/-- The key of a window offset of a context. -/
def Ctx.winKey (c : Ctx) (o : Nat) : Nat :=
  spadKey c.id.tile (winPhys c.id.wlog c.id.row c.csr.bkey o)
def Ctx.winSize (c : Ctx) : Nat := Machine.winSize c.id.wlog

/-! ### Encryption (21 R374) -/

/-- The key material of a slot, or none while the slot is EMPTY. -/
def Dev.keyOf (d : Dev) (slot : Nat) : Option (BitVec 512) := getKey slot d.keys
/-- A key of `Memory` in the HBM of another module. -/
def isFar (k : Nat) : Bool := 2 ^ 48 ≤ k && k < hostBase
/-- The key material under which an access with a slot reaches byte `k`: that of the module's own slot, or in the HBM of another
module that of its slot of that number (21 R375; log 114). -/
def Dev.keyAt (d : Dev) (slot k : Nat) : Option (BitVec 512) :=
  if isFar k then some (Config.farKey (k / 2 ^ 48 - 1) slot) else d.keyOf slot

/-- The byte that a read under `kv` returns. AES-256-XTS takes a line as four blocks of 16 bytes. -/
def Memory.view (m : Memory) (kv : Option (BitVec 512)) (k : Nat) : Byte :=
  match kv, getKey (k / 16) m.lineKey with
  | some x, some y => if isHbm k && x != y then Config.wrongKey x y k (m.raw (k / 16 * 16) 16) else m.byte k
  | _, _ => m.byte k

/-- `n` bytes read under a key, little-endian. -/
def Memory.read (m : Memory) (kv : Option (BitVec 512)) (k : Nat) : Nat → Nat
  | 0 => 0
  | n + 1 => (m.view kv k).toNat + 256 * Memory.read m kv (k + 1) n

/-- Rewrites the bytes of a block as a read under the new key returns them. -/
def Memory.rekeyGo (old : Memory) (kv : Option (BitVec 512)) (k : Nat) (m : Memory) : Nat → Memory
  | 0 => m
  | n + 1 => Memory.rekeyGo old kv (k + 1) (m.setByte k (old.view kv k)) n

/-- A write under `kv` reaches the block of `k`: the block is held under that key from then on. The other blocks of the line come
back as they were from a read and a write under one key. -/
def Memory.rekey (m : Memory) (kv : Option (BitVec 512)) (k : Nat) : Memory :=
  match kv with
  | none => m
  | some x =>
    if isHbm k && getKey (k / 16) m.lineKey != some x then
      let m' := match getKey (k / 16) m.lineKey with
        | none => m
        | some _ => m.rekeyGo kv (k / 16 * 16) m 16
      { m' with lineKey := setKey (k / 16) x m'.lineKey }
    else m

/-- Stores the low `n` bytes of `v` under a key; the bytes lie in one block. -/
def Memory.write (m : Memory) (kv : Option (BitVec 512)) (k v n : Nat) : Memory := (m.rekey kv k).setRaw k v n

/-! ### Translation (21 R369 to R373) -/

/-- Details of 11 R235. -/
def dADDR : BitVec 12 := 0x060
def dPAGE : BitVec 12 := 0x061
def dPERM : BitVec 12 := 0x062
def dALIGN : BitVec 12 := 0x063
def dWINDOW : BitVec 12 := 0x064
def dPORT : BitVec 12 := 0x065
def dCHAN : BitVec 12 := 0x066
def dGROUP : BitVec 12 := 0x067
def dORDFULL : BitVec 12 := 0x068
def dPADDR : BitVec 12 := 0x069
def dXFORM : BitVec 12 := 0x06A
def dPTE : BitVec 12 := 0x06B
def dKEY : BitVec 12 := 0x06C
def dNOINDEX : BitVec 12 := 0x06D

/-- What an access does to its target. -/
inductive Access where
  | rd | wr | atomic | fetch
deriving DecidableEq, Repr

/-- INFO1[1:0] of an access fault (22 R385). -/
def Access.code : Access → Word
  | .rd => 0 | .wr => 1 | .atomic => 2 | .fetch => 3

/-- The key of a space-table entry (21 R369). -/
def Dev.spaceKey (d : Dev) (s : BitVec 16) : Nat := d.sptbase.toNat / 2 ^ 20 % 2 ^ 28 * 2 ^ 20 + 16 * s.toNat
/-- A space-table entry (21 R369): valid, well-formed. -/
def Dev.spaceEntry (d : Dev) (m : Memory) (s : BitVec 16) : Option Word :=
  let base := d.spaceKey s
  let w0 := m.word base
  let w1 := m.word (base + 8)
  if w0.toNat / 2 ^ 48 = 0 && bitsN w0 2 1 = 0 && bitsN w0 0 0 = 1 && w1 = 0 then some w0 else none

/-- One level of the walk: index bits, whether a leaf and a pointer may stand there, index bits of the level below (21 R370). -/
structure Level where
  lo : Nat
  width : Nat
  leaf : Bool
  ptr : Bool
  below : Nat
deriving DecidableEq, Repr
def levels : List Level :=
  [⟨48, 8, false, true, 9⟩, ⟨39, 9, false, true, 9⟩, ⟨30, 9, true, true, 9⟩, ⟨21, 9, true, true, 5⟩, ⟨16, 5, true, false, 0⟩]

/-- Reserved bits, targets and placement of an entry (21 R371, R372). A pointer names a table aligned to its own size (R370, log
106). -/
def pteOk (e : Word) (l : Level) (sups : Bool) : Bool :=
  let pa := e.toNat / 256 % 2 ^ 40 * 256
  let tgt := bitsN e 7 6
  if bitsN e 1 1 = 1 then
    l.leaf && bitsN e 63 63 = 0 && pa % 2 ^ l.lo = 0
      && (tgt = 1 || bitsN e 62 52 = 0) && (tgt = 1 || tgt = 2 || bitsN e 51 48 = 0)
      && (tgt != 3 || (sups && bitsN e 31 16 ≤ 256))
      && (tgt != 0 || pa + 2 ^ l.lo ≤ hbmSize)
  else
    l.ptr && bitsN e 63 48 = 0 && tgt = 0 && bitsN e 4 2 = 0 && pa % (2 ^ l.below * 8) = 0
      && pa + 2 ^ l.below * 8 ≤ hbmSize

/-- The walk from a table to a leaf and its page size in bits, or the detail of the fault (21 R370 to R372). A poisoned entry is
walked as one that is not (log 106). -/
def walk (m : Memory) (sups : Bool) (va : Word) : List Level → Nat → Except (BitVec 12) (Word × Nat)
  | [], _ => .error dPTE
  | l :: ls, tbl =>
    let e := m.word (tbl + 8 * (va.toNat / 2 ^ l.lo % 2 ^ l.width))
    if bitsN e 0 0 = 0 then .error dPAGE
    else if !pteOk e l sups then .error dPTE
    else if bitsN e 1 1 = 1 then .ok (e, l.lo)
    else walk m sups va ls (e.toNat / 256 % 2 ^ 40 * 256)

/-- The keys of the entries that a walk reads, and the pointers it passes, each with its level's lowest index bit. -/
def walkPath (m : Memory) (sups : Bool) (va : Word) : List Level → Nat → List (Nat × Option (Nat × Word))
  | [], _ => []
  | l :: ls, tbl =>
    let k := tbl + 8 * (va.toNat / 2 ^ l.lo % 2 ^ l.width)
    let e := m.word k
    if bitsN e 0 0 = 0 || !pteOk e l sups || bitsN e 1 1 = 1 then [(k, none)]
    else (k, some (l.lo, e)) :: walkPath m sups va ls (e.toNat / 256 % 2 ^ 40 * 256)

/-- The TLB slice of a translation (21 R373): the XOR of the fourteen 4-bit fields of SPACE ‖ VA[55:16]. -/
def xorNibbles : Nat → Nat → Nat
  | 0, _ => 0
  | n + 1, x => (x % 16) ^^^ xorNibbles n (x / 16)
def sliceOf (space : BitVec 16) (va : Word) : Nat :=
  xorNibbles 14 (space.toNat * 2 ^ 40 + va.toNat / 2 ^ 16 % 2 ^ 40)

/-- Who translates: the facts of the context an access belongs to. -/
structure Who where
  space : BitVec 16
  keyslot : BitVec 9
  side : BitVec 8
  die : BitVec 2
  own : BitVec 24
  /-- isolation words of the slices of the die: EN and owners (21 R381) -/
  iso : List (List Word)
  /-- the tile that the accesses leave; none for those of a front-end, of which the spec gives no place -/
  tile : Option (BitVec 8) := none
deriving DecidableEq, Repr

/-- Sides that own a partition of a slice with isolation on; none when it is off (21 R381). -/
def isoOwners (iso : List Word) : Option (List (BitVec 8)) :=
  let w1 := iso.getD 1 0
  if bitsN w1 8 8 = 1 then
    some ((List.range 8).filterMap fun k =>
      if w1.toNat / 2 ^ k % 2 = 1 then some (BitVec.ofNat 8 ((iso.getD 0 0).toNat / 2 ^ (8 * k))) else none)
  else none

/-- The physical place of a global address through a leaf (21 R371). -/
def leafLoc (w : Who) (e : Word) (lo : Nat) (va : Word) : Loc :=
  let off := va.toNat % 2 ^ lo
  let pa := e.toNat / 256 % 2 ^ 40 * 256 + off
  match bitsN e 7 6 with
  | 0 => .mem pa
  | 1 => .mem (hbmKey w.own (BitVec.ofNat 24 (bitsN e 62 48)) pa)
  | 2 => .mem (hostKey (bitsN e 51 48 * 2 ^ 48 + pa))
  | _ => .ctl (pa / 2 ^ 16 % 2 ^ 16) (pa % 2 ^ 16)

/-- The control page of an address has a number above 256 (21 R372): a leaf of more than 64 KiB maps several pages. -/
def pageOver (w : Who) (e : Word) (lo : Nat) (va : Word) : Bool :=
  match leafLoc w e lo va with | .ctl p _ => 256 < p | _ => false
/-- Permission of an access through a leaf (21 R371, 04 R102). -/
def leafPerm (e : Word) (acc : Access) : Bool :=
  let cow := bitsN e 5 5 = 1
  match acc with
  | .rd => bitsN e 2 2 = 1
  | .wr => bitsN e 3 3 = 1 && !cow
  | .atomic => bitsN e 3 3 = 1 && !cow && bitsN e 7 6 ≤ 1
  | .fetch => bitsN e 4 4 = 1 && bitsN e 7 6 = 0

/-- Lowest bit of the address that the tag of an entry holds. -/
def TlbEnt.lo (t : TlbEnt) : Nat := if t.lvl = 5 && !t.ptr then 16 else t.lvl.toNat * 9 - 6
/-- The level number of an entry whose tag ends at a bit. -/
def lvlOf (lo : Nat) : BitVec 3 := if lo = 16 then 5 else BitVec.ofNat 3 ((lo + 6) / 9)
/-- Where a lookup looks: slice and side, space and GEN. -/
structure TlbKey where
  slice : BitVec 6
  side : Option (BitVec 8)
  space : BitVec 16
  gen : BitVec 4
deriving DecidableEq, Repr
/-- An entry that a lookup may use for an address. -/
def TlbEnt.hits (t : TlbEnt) (q : TlbKey) (ptr : Bool) (va : Word) : Bool :=
  t.slice == q.slice && t.side == q.side && t.space == q.space && t.gen == q.gen && t.ptr == ptr
    && t.vpn.toNat == va.toNat / 2 ^ t.lo
/-- The place of a fill among those that a side may fill: a free one, else the victim's. -/
def fillPlace (places used : List Nat) (victim : Nat) : Option Nat :=
  match places.find? (!used.contains ·) with
  | some w => some w
  | none => places[victim % places.length]?
/-- A leaf enters its set of 8 ways, or a pointer the walk cache of 256, in place of what stood there (21 R373, R381). -/
def fillTlb (q : TlbKey) (ptr : Bool) (ways : List Nat) (lo : Nat) (va e : Word) (l : List TlbEnt) : List TlbEnt :=
  let vpn := va.toNat / 2 ^ lo
  let no := (l.head?.map (·.no + 1)).getD 0
  let old := l.filter fun t => t.slice == q.slice && t.ptr == ptr
  let inSet (t : TlbEnt) : Bool := ptr || Config.tlbSet t.space t.vpn.toNat t.lo == Config.tlbSet q.space vpn lo
  let places := if ptr then ways.flatMap fun w => (List.range 32).map (32 * w + ·) else ways
  let new (w : Nat) : TlbEnt := ⟨q.slice, q.side, q.space, q.gen, lvlOf lo, BitVec.ofNat 64 vpn, e, ptr, w, no⟩
  match places.find? fun w => !(old.any (·.way == w)) with
  | some w => new w :: l
  | none =>
    match fillPlace places ((old.filter inSet).map (·.way)) (Config.tlbVictim q.slice no) with
    | some w => new w :: l.filter fun t => !(t.slice == q.slice && t.ptr == ptr && t.way == w && inSet t)
    | none => l
/-- The slice of an address, its lookup key, and the ways that its side may fill; none without a valid space. -/
def tlbKey (d : Dev) (m : Memory) (w : Who) (va : Word) : Option (Word × TlbKey × List Nat) :=
  (d.spaceEntry m w.space).map fun se =>
    let i := sliceOf w.space va
    let iso := w.iso.getD i []
    let owners := isoOwners iso
    let ways := match owners with
      | none => List.range 8
      | some _ => (List.range 8).filter fun k =>
          (iso.getD 1 0).toNat / 2 ^ k % 2 = 1 && BitVec.ofNat 8 ((iso.getD 0 0).toNat / 2 ^ (8 * k)) == w.side
    (se, ⟨BitVec.ofNat 6 (16 * w.die.toNat + i), owners.map fun _ => w.side, w.space, BitVec.ofNat 4 (bitsN se 7 4)⟩, ways)
/-- The levels and the table from which a walk starts: below the deepest pointer held, else the root. -/
def walkFrom (l : List TlbEnt) (q : TlbKey) (va se : Word) : List Level × Nat :=
  match [21, 30, 39, 48].findSome? fun lo => l.find? fun t => t.hits q true va && t.lo == lo with
  | some t => (levels.filter (·.lo < t.lo), t.pte.toNat / 256 % 2 ^ 40 * 256)
  | none => (levels, se.toNat / 256 % 2 ^ 40 * 256)
/-- The leaf that translates an address and the TLB afterwards: a held entry of the current GEN is used, else the tables are
walked, from the walk cache or the root, and what the walk met is held (21 R373; log 11). -/
def findLeaf (d : Dev) (m : Memory) (w : Who) (va : Word) : Except (BitVec 12) (Word × Nat) × List TlbEnt :=
  match tlbKey d m w va with
  | none => (.error dPTE, d.tlb)
  | some (se, q, ways) =>
    match d.tlb.find? (·.hits q false va) with
    | some t => (.ok (t.pte, t.lo), d.tlb)
    | none =>
      let sups := bitsN se 3 3 = 1
      let at_ := walkFrom d.tlb q va se
      let ptrs := (walkPath m sups va at_.1 at_.2).foldl (fun l x => match x.2 with
        | some (lo, e) => fillTlb q true ways lo va e l
        | none => l) d.tlb
      match walk m sups va at_.1 at_.2 with
      | .error e => (.error e, ptrs)
      | .ok (e, lo) => (.ok (e, lo), fillTlb q false ways lo va e ptrs)
/-- The keys of the words that a translation reads: the space-table entry, and the page-table entries of a walk. -/
def walkReads (d : Dev) (m : Memory) (w : Who) (va : Word) : List Nat :=
  let base := d.spaceKey w.space
  [base, base + 8] ++ match tlbKey d m w va with
    | none => []
    | some (se, q, _) =>
      if d.tlb.any (·.hits q false va) then []
      else
        let at_ := walkFrom d.tlb q va se
        (walkPath m (bitsN se 3 3 = 1) va at_.1 at_.2).map (·.1)

/-- A global access: its place, or the detail of its fault, in the order of 11 R235 after ADDR and ALIGN; and the
TLB afterwards. -/
def translate (d : Dev) (m : Memory) (w : Who) (acc : Access) (word8 : Bool) (va : Word) :
    Except (BitVec 12) Loc × List TlbEnt :=
  match findLeaf d m w va with
  | (.error e, t) => (.error e, t)
  | (.ok (e, lo), t) =>
    if pageOver w e lo va then (.error dPTE, t)
    else if !leafPerm e acc then (.error dPERM, t)
    else
      match leafLoc w e lo va with
      | .mem k =>
        if isHbm k && (d.keyAt w.keyslot.toNat k).isNone then (.error dKEY, t) else (.ok (.mem k), t)
      | .ctl p o => if word8 then (.ok (.ctl p o), t) else (.error dPERM, t)
      | l => (.ok l, t)

/-! ### Homes of words (04 R102) -/

/-- The unit of a word: scratchpad group, HBM channel group of the module, channel group of another module. -/
def unitOf (key : Nat) : Nat :=
  if spadBase ≤ key then (key - spadBase) / 2 ^ 21
  else
    let pa := key % 2 ^ 48
    let stack := pa / (48 * 2 ^ 30)
    let g := pa % (48 * 2 ^ 30) / (12 * 2 ^ 30)
    (if key < 2 ^ 48 then 1024 else 2048 + key / 2 ^ 48 * 1024) + 4 * stack + g
/-- The tile at which HBM unit `u` stands, home of the global barriers it serves (04 R102). -/
def hbmTile (u : Nat) : BitVec 8 :=
  let k := u / 4 % 3
  let g := u % 4
  BitVec.ofNat 8 (64 * (u / 12) + 8 * (7 * (g / 2)) + (1 + 2 * k + g % 2))
/-- The tile of the unit of a word of the module; none for a word of another module. -/
def homeTile (key : Nat) : Option (BitVec 8) :=
  let u := unitOf key
  if u < 1024 then some (BitVec.ofNat 8 (u / 4)) else if u < 1072 then some (hbmTile (u - 1024)) else none

end Sys2Proof.Machine
end

