-- ==== Sys2Proof/Machine/Operands.lean ====
section
/-! DEFINITION. Operand positions, kinds and consumers of every form, and the checks of a block at dispatch (06 R144,
R145, R152, R153; 07 R154 to R164; the position tables of 08 R165, 09 R184, 10 R206, 11 R228, 12 R257, 13 R270, R271). -/

namespace Sys2Proof.Machine

/-- Kind of a form: what it counts toward, and when it is sent (07 R154). -/
inductive Kind where
  | plain | w | e | ea | x
deriving DecidableEq, Repr

/-- What a form accepts and emits. P and O are accepted by every form. -/
structure Form where
  /-- A and B: required, accepted -/
  reqA : Bool := false
  reqB : Bool := false
  optA : Bool := false
  optB : Bool := false
  kind : Kind := .plain
  priv : Bool := false
  /-- must name a consumer (detail TARGET) -/
  must : Bool := false
  /-- may name only the O position of a form of kind E or EA (11 R251, 12 R257) -/
  oOnly : Bool := false
deriving DecidableEq, Repr

/-- The consumers a form names, T0 first. -/
def instrCons : Instr → List Cons
  | .add _ t0 t1 | .sub _ t0 t1 | .mul _ t0 t1 | .mulh _ t0 t1 | .mulhn _ t0 t1 | .div _ t0 t1 | .divn _ t0 t1
  | .rem _ t0 t1 | .remn _ t0 t1 | .and t0 t1 | .or t0 t1 | .xor t0 t1 | .andn t0 t1 | .shl _ t0 t1 | .shr _ t0 t1
  | .sar _ t0 t1 | .min _ t0 t1 | .max _ t0 t1 | .minn _ t0 t1 | .maxn _ t0 t1 | .clz _ t0 t1 | .popc _ t0 t1
  | .sext _ t0 t1 | .zext _ t0 t1 | .ceq _ t0 t1 | .cne _ t0 t1 | .clt _ t0 t1 | .cltn _ t0 t1 | .cle _ t0 t1
  | .clen _ t0 t1 | .sel _ t0 t1 | .constw _ t0 t1 | .constd t0 t1 | .fan t0 t1 | .null t0 t1 | .lea _ t0 t1
  | .mstat _ t0 t1 | .cstat _ t0 t1 | .squery _ _ t0 t1 | .ld _ _ _ t0 t1 | .st _ _ t0 t1 | .ldg _ t0 t1
  | .sts _ t0 t1 | .tlook t0 t1 | .amo _ _ t0 t1 | .cas _ t0 t1 | .ringstat _ t0 t1 | .kcopy t0 t1 | .kgath t0 t1
  | .kscat t0 t1 | .kred _ t0 t1 | .ksend _ _ t0 t1 | .krecv _ t0 t1 | .kpoll _ t0 t1 | .kcoll _ t0 t1
  | .kwait t0 t1 | .kevq t0 t1 | .kstat t0 t1 | .bara t0 t1 | .barw t0 t1 | .baraw t0 t1 | .bard t0 t1
  | .bart t0 t1 | .fence _ t0 t1 | .waitf _ t0 t1 | .qwait t0 t1 | .qstat _ _ t0 t1 | .spawn _ t0 t1
  | .join t0 t1 | .perf _ t0 t1 => [t0, t1]
  | .addi _ t0 | .movi _ t0 | .read _ t0 | .call _ t0 | .vmovs _ _ t0 | .vins _ _ _ t0 | .ldv _ _ _ t0
  | .stv _ _ _ t0 | .amov _ _ _ t0 | .csrr _ t0 | .csrx _ t0 => [t0]
  | _ => []

/-- The consumers that are named. -/
def instrDests (i : Instr) : List Dest := (instrCons i).filterMap id

/-- Positions, kind and privilege of every form. A step without a word has none. -/
def instrForm : Instr → Form
  | .add .. | .sub .. | .mul .. | .mulh .. | .mulhn .. | .div .. | .divn .. | .rem .. | .remn .. | .and .. | .or ..
  | .xor .. | .andn .. | .shl .. | .shr .. | .sar .. | .min .. | .max .. | .minn .. | .maxn .. | .ceq .. | .cne ..
  | .clt .. | .cltn .. | .cle .. | .clen .. | .sel .. | .lea .. => { reqA := true, reqB := true }
  | .clz .. | .popc .. | .sext .. | .zext .. | .fan .. | .addi .. => { reqA := true }
  | .write .. => { reqA := true, kind := .w }
  | .null .. => { must := true }
  | .br | .ret => { reqA := true, kind := .x }
  | .bri .. | .call .. | .retire => { kind := .x }
  | .vsplat .a .. | .vlane .a .. => { reqA := true }
  | .sett .. => { optA := true }
  | .vmovs .. => { must := true }
  | .vins .. => { reqA := true }
  | .mregion .. | .mfmt .. | .mwld .. | .mstep .. | .macc .. | .mdrain .. | .mzero .. | .cload .. | .cpatch ..
  | .cmcast .. | .cweight .. | .chang .. | .sbind .. => { reqA := true, optB := true, kind := .e }
  | .cevict .. => { reqA := true, optB := true, kind := .e, priv := true }
  | .mswap .. | .mfree .. | .cfire .. | .cfreeze .. | .cthaw .. => { optB := true, kind := .e }
  | .sfree .. => { reqB := true, kind := .e }
  | .squery .. => { reqB := true, must := true }
  | .mstat .. | .cstat .. => { must := true }
  | .ld .host .. => { reqA := true, reqB := true }
  | .ld .. | .ldv .. | .tlook .. => { reqA := true }
  | .st .. => { reqA := true, reqB := true, kind := .e }
  | .stv .. | .sts .. | .agen .. | .abar | .ldw .. | .tclr | .pxform .. | .pmerge .. | .ringdef .. =>
    { reqA := true, kind := .e }
  | .astart .. | .astop .. => { kind := .e }
  | .tset => { reqA := true, reqB := true, kind := .e }
  | .amo .. | .amov .. | .cas .. => { reqA := true, reqB := true, kind := .e, oOnly := true }
  | .resume => { reqA := true, kind := .e, priv := true }
  | .kcopy .. | .kgath .. | .kscat .. | .kred .. | .ksend .. | .kcoll .. =>
    { reqA := true, reqB := true, kind := .e, oOnly := true }
  | .kport .. => { reqA := true, reqB := true, kind := .e }
  | .krecv .. | .kevq .. | .kcancel => { reqA := true, kind := .e }
  | .kpoll .. => { must := true }
  | .kwait .. => { reqA := true, reqB := true }
  | .kstat .. => { reqA := true, must := true }
  | .bari .. => { reqA := true, reqB := true, kind := .e }
  | .bara .. | .bard .. => { reqA := true, kind := .ea }
  | .baraw .. => { reqA := true, reqB := true, kind := .ea }
  | .barw .. | .fence .. | .waitf .. | .qwait .. | .join .. => { reqA := true, reqB := true }
  | .bart .. => { reqA := true }
  | .dput .. => { optB := true, kind := .e }
  | .dget .. => { reqA := true, optB := true, kind := .e }
  | .setf .. | .clrf .. | .spawn .. => { reqA := true, kind := .e }
  | .qstat .. => { reqA := true, must := true }
  | .kill .. => { reqA := true, optB := true, kind := .e }
  | .yield => { kind := .e }
  | .trap .. => { optA := true }
  | .tret => { reqA := true, kind := .e }
  | .csrr .. => { must := true }
  | .csrw .. | .csrx .. => { reqA := true, kind := .e }
  | .logm .. => { optA := true, kind := .e }
  | .ctxsave | .ctxload | .tlbinv => { reqA := true, reqB := true, kind := .e, priv := true }
  | .spinv | .keysel => { reqA := true, optB := true, kind := .e, priv := true }
  | .escal .. => { optA := true, kind := .e }
  | .perf .. => { must := true }
  | _ => {}

/-- Registers that the CSR map marks as supervisor-written (13 R288). -/
def csrSupWritten : Csr → Bool
  | .tileid | .dceil | .tocnt | .escn | .debug | .logbase | .loglim | .bkey | .space | .keyslot | .waveper | .sage => true
  | _ => false

/-- The form is privileged: marked P, scope 8, or a write of a supervisor-written register (07 R164). -/
def instrPrivileged (i : Instr) : Bool :=
  (instrForm i).priv || match i with
    | .bari s | .fence s .. => s == .s8
    | .csrw r | .csrx r _ => csrSupWritten r
    | _ => false

/-- A position that a form accepts (06 R145). -/
def Form.accepts (f : Form) : Pos → Bool
  | .a => f.reqA || f.optA
  | .b => f.reqB || f.optB
  | .p | .o => true

/-- A form that counts toward OCNT. -/
def Kind.effect (k : Kind) : Bool := k == .e || k == .ea

/-! ### Checks at dispatch (06 R152) -/

/-- Literal slots that the word at a slot takes (06 R141). -/
def literals (w : Half) : Nat := if fCls w = 0 ∧ fOp w = 34 then 1 else if fCls w = 0 ∧ fOp w = 35 then 2 else 0

/-- Which slots are literals: `n` more literal slots are owed by an earlier word. -/
def literalMap : List Half → Nat → List Bool
  | [], _ => []
  | _ :: ws, n + 1 => true :: literalMap ws n
  | w :: ws, 0 => false :: literalMap ws (literals w)

/-- The format of a word's cell (06 R143, 07 R155 to R162). -/
inductive WordFormat where
  | d | i | g | v | vs
deriving DecidableEq, Repr
def wordFormat (w : Half) : WordFormat :=
  match fCls w with
  | 0 => if fOp w = 36 ∨ fOp w = 37 then .g
    else if fOp w = 3 ∨ fOp w = 33 ∨ fOp w = 42 ∨ fOp w = 43 then .i else .d
  | 1 => if fOp w = 31 ∨ fOp w = 32 then .vs else .v
  | 4 => if fOp w = 2 ∨ fOp w = 3 ∨ fOp w = 15 then .vs else .d
  | 7 => if fOp w = 2 ∨ fOp w = 3 ∨ fOp w = 4 ∨ fOp w = 5 then .i else .d
  | _ => .d
/-- A consumer field with VALID 0 cleared. -/
def cleanCons (x : BitVec 9) : BitVec 9 := if x.getLsbD 8 then x else 0
/-- The word of a cell without what can be refused in it: consumer fields that are not valid, or all of them (`cons` false);
and, with `mods` false, the modifier, whose least defined value stands instead (the format V keeps no register number). -/
def skeleton (mods cons : Bool) (w : Half) : Half :=
  let t (x : BitVec 9) : BitVec 9 := if cons then cleanCons x else 0
  let one : BitVec 5 := if fCls w = 5 ∧ fOp w = 35 then 1 else 0
  match wordFormat w with
  | .d => wordD (fCls w) (fOp w) (if mods then fMod w else one) (t (fT1 w)) (t (fT0 w))
  | .i => wordI (fCls w) (fOp w) (if mods then fImm w else 0) (t (fT0 w))
  | .g => wordG (fCls w) (fOp w) (if mods then fGreg w else 0) (if mods then fMod8 w else 0) (t (fT0 w))
  | .v => wordV (fCls w) (fOp w) 0 0 0 0 (if mods then fVmod w else 0)
  | .vs => wordVS (fCls w) (fOp w) 0 0 (if mods then fVmod2 w else 0) 0 (t (fT0 w))
/-- The instruction whose kind, positions and consumers the checks of a word take, whatever else of the word they refuse: none
for a cell that is reserved and for the word of zeros (06 R152, log 14). -/
def shapeOf (w : Half) : Option Instr :=
  match decode w with
  | .ok i => some i
  | .error .opcode | .error .illw => none
  | .error _ => [(true, true), (true, false), (false, true), (false, false)].findSome? fun (m, c) => decodeOpt (skeleton m c w)

/-- A slot of a block as the checks see it. -/
structure Row where
  word : Half
  lit : Bool
  dec : Except DecodeFault Instr
  /-- the instruction whose operands are checked -/
  shape : Option Instr
deriving Repr

/-- The rows of a block. -/
def blockRows (words : List Half) : List Row :=
  (words.zip (literalMap words 0)).map fun (w, l) =>
    { word := w, lit := l, dec := decode w,
      shape := if l then none else shapeOf w }

/-- A consumer of slot `k` meets 06 R144. -/
def destOk (rows : List Row) (k : Nat) (d : Dest) : Bool :=
  k < d.slot.toNat && d.slot.toNat < rows.length && ((rows[d.slot.toNat]?).map (·.lit) == some false)

/-- The valid consumers of a slot. -/
def rowDests (rows : List Row) (k : Nat) (r : Row) : List Dest :=
  match r.shape with
  | none => []
  | some i => (instrDests i).filter (destOk rows k)

/-- Number of valid fields of the block that name a position of a slot, from slot `k` on. -/
def namedBy (rows : List Row) (slot : Nat) (pos : Pos) : List Row → Nat → Nat
  | [], _ => 0
  | r :: rs, k =>
    ((rowDests rows k r).filter (fun d => d.slot.toNat == slot && d.pos == pos)).length + namedBy rows slot pos rs (k + 1)

/-- TARGET: a field breaks 06 R144, two fields name one position, or a form that must name a consumer names none. -/
def targetBad (rows : List Row) (k : Nat) (i : Instr) : Bool :=
  (instrDests i).any (fun d => !destOk rows k d)
    || (match instrDests i with | [x, y] => x == y | _ => false)
    || ((instrForm i).must && (instrDests i).isEmpty)

/-- POSITION: a field names a position its target does not take, or a required position has no field. -/
def positionBad (rows : List Row) (k : Nat) (i : Instr) : Bool :=
  (instrDests i).any (fun d =>
    match (rows[d.slot.toNat]?).bind (·.shape) with
    | some t => !(instrForm t).accepts d.pos
        || ((instrForm i).oOnly && !(d.pos == .o && (instrForm t).kind.effect))
    | none => false)
    || ((instrForm i).reqA && namedBy rows k .a rows 0 == 0)
    || ((instrForm i).reqB && namedBy rows k .b rows 0 == 0)

/-- The lowest detail of 06 R152 that a slot fails. -/
def slotFault (sup ret : Bool) (rows : List Row) (k : Nat) (r : Row) : Option DecodeFault :=
  if r.lit then none else
  let ops := match r.shape with
    | none => none
    | some i => if targetBad rows k i then some DecodeFault.target
                else if positionBad rows k i then some .position else none
  let litBad := rows.length ≤ k + literals r.word
  if r.shape == some .retire && !ret then some .retbit
  else match r.dec with
    | .error .opcode => some .opcode
    | .error .illw => some .illw
    | .ok .ill => some .illw
    | .error .resbits => some .resbits
    | .error e => some (ops.getD (if litBad then .literal else e))
    | .ok i => if ops.isSome then ops else if litBad then some .literal
               else if instrPrivileged i && !sup then some .priv else none

/-- The first slot that fails a check. -/
def firstFault (sup ret : Bool) (rows : List Row) : List Row → Nat → Option (Nat × DecodeFault)
  | [], _ => none
  | r :: rs, k =>
    match slotFault sup ret rows k r with
    | some e => some (k, e)
    | none => firstFault sup ret rows rs (k + 1)

/-- Kind of a row, for the counts. -/
def rowKind (r : Row) : Option Kind := r.shape.map (fun i => (instrForm i).kind)
def rowNull (r : Row) : Bool := match r.shape with | some (.null ..) => true | _ => false

/-- Header fields (06 R139). -/
def hdrNm1 (h : Half) : Nat := bitsN h 27 22
def hdrWcnt (h : Half) : Nat := bitsN h 21 16
def hdrOcnt (h : Half) : Nat := bitsN h 15 10
def hdrRet (h : Half) : Bool := bitsN h 9 9 = 1
def hdrFix (h : Half) : Bool := bitsN h 8 8 = 1

/-- A failed check of the header (06 R152). -/
def headerFault (h : Half) (rows : List Row) : Option DecodeFault :=
  let count (f : Kind → Bool) := (rows.filter fun r => rowNull r || (rowKind r).any f).length
  if bitsN h 31 28 ≠ 11 then some .tag
  else if bitsN h 7 0 ≠ 0 then some .hdrres
  else if !rows.any (fun r => rowKind r == some .x) then some .noexit
  else if count (· == .w) < hdrWcnt h || count Kind.effect < hdrOcnt h then some .counts
  else none

/-- The reported decode fault of a block: slot (none for the header), detail (06 R153 rule 1). -/
def blockFault (sup : Bool) (h : Half) (words : List Half) : Option (Option Nat × DecodeFault) :=
  let rows := blockRows words
  match headerFault h rows with
  | some e => some (none, e)
  | none => (firstFault sup (hdrRet h) rows rows 0).map fun (k, e) => (some k, e)

end Sys2Proof.Machine
end

