-- ==== Sys2Proof/Machine/Ops.lean ====
section
/-! DEFINITION. The named operations: lifts to the parts of the state, tokens and faults of a block (06 R145 to R153),
accesses of the scalar path, records and pushes, waits and their returns (05 R111 to R119), taking a trap and returning
from one (22 R383 to R387). -/

namespace Sys2Proof.Machine

/-! ### Lifts -/

def State.onFir (s : State) (f : Firing → Firing) : State := { s with fir := f s.fir }
def State.onBlk (s : State) (f : Block → Block) : State := s.onFir fun r => { r with blk := f r.blk }
def State.onCtx (s : State) (f : Ctx → Ctx) : State := { s with ctx := f s.ctx }
def State.onCsr (s : State) (f : Csrs → Csrs) : State := s.onCtx fun c => { c with csr := f c.csr }
def State.onSync (s : State) (f : Sync → Sync) : State := s.onCtx fun c => { c with sync := f c.sync }
def State.onTile (s : State) (f : Tile → Tile) : State := { s with tile := f s.tile }
def State.onDev (s : State) (f : Dev → Dev) : State := { s with dev := f s.dev }
def State.onMem (s : State) (f : Memory → Memory) : State := { s with mem := f s.mem }

/-- A free value and the state that draws the next one (log 15). -/
def State.freeVal (s : State) : Word := Config.freeWord s.freeCtr
def State.drawn (s : State) : State := { s with freeCtr := s.freeCtr + 1 }

/-! ### Contexts, firings and tiles in and out of focus (log 3) -/

/-- All resident contexts, the one in focus first. -/
def State.allCtxs (s : State) : List Ctx := (s.ctx :: s.ctxs).filter (·.id.present)
def State.ctxOf (s : State) (uid : Nat) : Option Ctx := s.allCtxs.find? (·.id.uid == uid)

/-- Puts the firing in focus back among the firings of its context. -/
def State.park (s : State) : State :=
  if s.fir.id = 0 then s
  else { s with ctx := { s.ctx with firs := s.ctx.firs ++ [s.fir] }, fir := {} }

/-- Brings a firing of the context in focus into focus. -/
def State.focusFir (id : Nat) (s : State) : State :=
  if s.fir.id = id then s else
  let s := s.park
  match s.ctx.firs.find? (·.id == id) with
  | none => s
  | some f => { s with fir := f, ctx := { s.ctx with firs := s.ctx.firs.filter (·.id != id) } }

/-- Brings a tile into focus; a tile not listed is as after reset. -/
def State.focusTile (n : BitVec 8) (s : State) : State :=
  if s.tile.num = n then s
  else
    let rest := s.tiles.filter (·.num != n)
    { s with tile := (s.tiles.find? (·.num == n)).getD { num := n }, tiles := s.tile :: rest }

/-- Brings a context into focus, and its tile. -/
def State.focusCtx (uid : Nat) (s : State) : State :=
  if s.ctx.id.uid = uid ∧ s.ctx.id.present then s else
  match s.ctxs.find? (fun c => c.id.uid == uid && c.id.present) with
  | none => s
  | some c =>
    let s := s.park
    let rest := s.ctxs.filter (fun c => c.id.uid != uid)
    ({ s with ctx := c, ctxs := if s.ctx.id.present then s.ctx :: rest else rest }).focusTile c.id.tile

/-- Runs an operation with another context, resident or saved, in focus. -/
def State.within (uid : Nat) (f : State → State) (s : State) : State :=
  if s.ctx.id.uid = uid ∧ s.ctx.id.present then f s
  else if (s.ctxOf uid).isSome then ((f (s.focusCtx uid)).focusCtx s.ctx.id.uid).focusFir s.fir.id
  else match s.dev.saved.find? (·.ctx.id.uid == uid) with
    | none => s
    | some v =>
      let p := s.park
      let t := f { p with
        ctx := v.ctx, ctxs := if p.ctx.id.present then p.ctx :: p.ctxs else p.ctxs
        dev := { p.dev with saved := p.dev.saved.filter (·.tag != v.tag) } }
      let t := { t with ctx := {}, dev := { t.dev with saved := t.dev.saved ++ [{ v with ctx := t.ctx }] } }
      (t.focusCtx s.ctx.id.uid).focusFir s.fir.id

def State.tileOf (s : State) (n : BitVec 8) : Tile :=
  if s.tile.num = n then s.tile else (s.tiles.find? (·.num == n)).getD { num := n }
def State.onTileOf (s : State) (n : BitVec 8) (f : Tile → Tile) : State :=
  if s.tile.num = n then s.onTile f
  else if s.tiles.any (·.num == n) then { s with tiles := s.tiles.map fun t => if t.num = n then f t else t }
  else { s with tiles := s.tiles ++ [f { num := n }] }

/-- The firings of the context in focus. -/
def State.firings (s : State) : List Firing := (if s.fir.id = 0 then [] else [s.fir]) ++ s.ctx.firs

/-! ### Status tokens and completion words (05 R117, 10 R207) -/

def status (code detail payload : Nat) : Word := BitVec.ofNat 64 (payload * 65536 + detail * 16 + code)
def stOK : Word := 0
def sTIMEOUT : Nat := 1
def sWITHDRAWN : Nat := 2
def sLATE : Nat := 3
def sPARTIAL : Nat := 4
def sFAULT : Nat := 5
def sKILLED : Nat := 6
def sFULL : Nat := 7
def sPOISON : Nat := 8
def sLOSS : Nat := 9
def sESCALATED : Nat := 10
def sEMPTY : Nat := 11
/-- Status(FAULT, detail, payload). -/
def fault (detail payload : Nat) : Word := status sFAULT detail payload
def codeOf (w : Word) : Nat := bitsN w 3 0

def tok (v : Word) (p : Bool := false) : Token := ⟨v, p⟩

/-- The completion word in [63:48] of an operand. -/
def cwOf (w : Word) : BitVec 16 := BitVec.ofNat 16 (bitsN w 63 48)
def cwRec (c : BitVec 16) : Bool := c.getLsbD 15
def cwPush (c : BitVec 16) : Bool := c.getLsbD 14
def cwQpush (c : BitVec 16) : Nat := bitsN c 13 11
def cwPop (c : BitVec 16) : Bool := c.getLsbD 10
def cwQpop (c : BitVec 16) : Nat := bitsN c 9 7
def cwTag (c : BitVec 16) : Nat := bitsN c 6 0

/-! ### The slot that issues -/

def State.cur (s : State) : Slot := s.fir.blk.slots.getD s.fir.blk.cur { word := 0 }
def State.opA (s : State) : Token := s.cur.a.getD {}
def State.opB (s : State) : Token := s.cur.b.getD {}

def Block.onSlot (b : Block) (k : Nat) (f : Slot → Slot) : Block := { b with slots := modAt b.slots k f }
def Block.addFault (b : Block) (f : BFault) : Block := { b with faults := b.faults ++ [f] }

/-- The consumers of the word in a slot. -/
def wordDests (w : Half) : List Dest := match decode w with | .ok i => instrDests i | .error _ => []

/-- A slot that has its token at a position already (06 R146, first row). -/
def Slot.holds (sl : Slot) : Pos → Bool
  | .a => sl.a.isSome | .b => sl.b.isSome | .p => sl.p.isSome | .o => false

def Slot.put (sl : Slot) (pos : Pos) (t : Token) : Slot :=
  match pos with
  | .a => { sl with a := some t } | .b => { sl with b := some t }
  | .p => { sl with p := some t } | .o => { sl with o := sl.o + 1 }

/-- Delivers tokens, null tokens among them, one after another; what a nullified slot sends joins the end (06 R146). -/
def deliver : Nat → List (Dest × Option Token) → Block → Block
  | 0, _, b => b
  | _, [], b => b
  | n + 1, (d, t) :: q, b =>
    let k := d.slot.toNat
    match b.slots[k]? with
    | none => deliver n q b
    | some sl =>
      if sl.holds d.pos then deliver n q (b.addFault ⟨k, 3, 0x0C0, 0, 0⟩)
      else
        let b := b.onSlot k (·.put d.pos (t.getD {}))
        if sl.st != .wait then deliver n q b
        else match t, d.pos with
          | none, _ =>
            deliver n (q ++ (wordDests sl.word).map (·, none)) (b.onSlot k fun x => { x with st := .nul })
          | some t, .p =>
            if t.poison then
              deliver n q ((b.onSlot k fun x => { x with st := .off }).addFault ⟨k, 4, 0, 2, 0⟩)
            else if t.val.getLsbD 0 then deliver n q b
            else deliver n q (b.onSlot k fun x => { x with st := .off })
          | some _, _ => deliver n q b

/-- Deliveries that a block can hold: two fields for each of 64 slots. -/
def deliverMax : Nat := 256

/-- A slot of the block is done and sends its tokens to the consumers that are named. -/
def Block.emit (b : Block) (k : Nat) (outs : List (Cons × Option Token)) : Block :=
  deliver deliverMax (outs.filterMap fun (c, t) => c.map (·, t))
    (b.onSlot k fun x => { x with st := .done, wait := none })

def State.emitAt (s : State) (k : Nat) (outs : List (Cons × Option Token)) : State := s.onBlk (·.emit k outs)
/-- The issuing slot is done and sends tokens. -/
def State.emit (s : State) (outs : List (Cons × Token)) : State :=
  s.emitAt s.fir.blk.cur (outs.map fun (c, t) => (c, some t))
/-- The issuing slot is done and sends nothing. -/
def State.quiet (s : State) : State := s.emit []

/-- A fault of the issuing slot (06 R151): it sends nothing, the block is evaluated further (06 R153). -/
def State.slotFault (s : State) (cause : BitVec 8) (detail : BitVec 12) (i0 i1 : Word) : State :=
  s.onBlk fun b => (b.onSlot b.cur fun x => { x with st := .done }).addFault ⟨b.cur, cause, detail, i0, i1⟩

/-- Causes of 22 R385. -/
def State.poisonFault (s : State) (use : Word) : State := s.slotFault 4 0 use 0
def State.rangeFault (s : State) (v : Word) : State := s.slotFault 6 0x030 v 0
def State.accessFault (s : State) (detail : BitVec 12) (addr acc : Word) : State := s.slotFault 5 detail addr acc

/-- Uses of a poisoned operand (22 R385). -/
def useAddr : Word := 0
def useTarget : Word := 1
def useDeadline : Word := 3
def useCount : Word := 4
def useLanes : Word := 5
def useFlag : Word := 6
def useOther : Word := 7

/-- Holds an effect of the issuing slot for commit (06 R150). -/
def State.hold (s : State) (e : Eff) : State :=
  s.onBlk fun b => { b with effs := b.effs ++ [{ e with slot := b.cur, blk := b.addr, fix := hdrFix b.hdr }] }
/-- Takes a held command out of the queues of effects that wait for an update or behind a held access (11 R251, 22 R389). -/
def State.unqueue (s : State) (e : Eff) : State :=
  s.onCtx fun c => { c with lq := c.lq.erase e, dq := c.dq.erase e }
/-- Takes back held effects of a slot. -/
def Block.effsOf (b : Block) (k : Nat) : List Eff := b.effs.filter (·.slot == k)

/-- Updates after which an effect that the issuing slot hands over may start: those of the update forms that name its
O (11 R251). -/
def State.updateSlots (s : State) : List Nat :=
  let b := s.fir.blk
  (List.range b.slots.length).filter fun k =>
    match b.slots[k]? with
    | some sl => match decode sl.word with
      | .ok (.amo _ _ t0 t1) | .ok (.cas _ t0 t1) =>
        ([t0, t1].filterMap id).any (fun d => d.slot.toNat == b.cur && d.pos == .o)
      | .ok (.amov _ _ _ t0) => (t0.toList).any (fun d => d.slot.toNat == b.cur && d.pos == .o)
      | _ => false
    | none => false

/-! ### Vector pipes of the block (09 R183) -/

def State.pipe (s : State) (q : BitVec 2) : Pipe :=
  ((s.fir.blk.pipes.getD q.toNat none)).getD (s.ctx.pipes.getD q.toNat Pipe.reset)
def State.setPipe (s : State) (q : BitVec 2) (p : Pipe) : State :=
  s.onBlk fun b => { b with pipes := setV b.pipes q.toNat (some p) }
/-- Sets FPMODE flag bits at commit (03 R74). -/
def State.flagFp (s : State) (f : Word) : State := s.onBlk fun b => { b with fp := b.fp ||| f }

def Pipe.reg (p : Pipe) (n : BitVec 5) : VReg := p.v.getD n.toNat VReg.zero
def Pipe.setReg (p : Pipe) (n : BitVec 5) (r : VReg) : Pipe := { p with v := setV p.v n.toNat r }
def VReg.lane (r : VReg) (l : Nat) : Half := r.lanes.getD l 0
def VReg.pois1 (r : VReg) (l : Nat) : Bool := r.pois.getLsbD l
/-- A register from the value and poison of each lane. -/
def VReg.ofFn (f : Nat → Half × Bool) : VReg :=
  let l := (List.range 32).map f
  ⟨Vector.ofFn fun i : Fin 32 => (l.getD i.val (0, false)).1, (List.range 32).foldl (fun acc k => acc ||| (ofBool 32 ((l.getD k (0, false)).2) <<< k)) 0⟩
/-- Keeps the lanes of the old register where LEN is 0 (09 R185). -/
def mergeLanes (len : Half) (old new : VReg) : VReg :=
  VReg.ofFn fun l => if len.getLsbD l then (new.lane l, new.pois1 l) else (old.lane l, old.pois1 l)

/-! ### Events of tiles and of the module (22 R390, 27 R437) -/

/-- An event raised by a tile, naming a job and a context number. -/
def State.raiseTile (s : State) (tile : BitVec 8) (job : BitVec 16) (cnum kind : Nat) (body : List Word) : State :=
  let t := s.tileOf tile
  let w0 := BitVec.ofNat 64 (job.toNat * 2 ^ 48 + t.module.toNat * 2 ^ 24 + tile.toNat * 2 ^ 16 + cnum * 2 ^ 8 + kind)
  (s.onDev fun d => { d with events := d.events ++ [⟨w0, BitVec.ofNat 32 t.evseq, body⟩] }).onTileOf tile
    fun t => { t with evseq := t.evseq + 1 }
/-- A module-level event: JOB, TILE and CTX are 0. -/
def State.raiseModule (s : State) (kind : Nat) (body : List Word) : State := s.raiseTile 0 0 0 kind body

/-! ### Memory errors (04 R108, 27 R435, R437) -/

/-- Adds to a field of a word, saturating. -/
def satAdd (w : Word) (lo width n : Nat) : Word :=
  let old := w.toNat / 2 ^ lo % 2 ^ width
  BitVec.ofNat 64 (w.toNat - old * 2 ^ lo + Nat.min (old + n) (2 ^ width - 1) * 2 ^ lo)

/-- A read of the word meets an error: corrected and counted, or the word is poisoned and an event recorded. -/
def State.meetUpset (s : State) (va : Word) (w : Nat) (hard : Bool) : State :=
  let k := 8 * w
  let hbm := isHbm k
  let s := s.onDev fun d => { d with upsets := d.upsets.filter (·.1 != w) }
  if hard then
    let s := s.onMem fun m => m.setPoison k true
    (s.onDev fun d => { d with uecnt := satAdd d.uecnt 16 16 1 }).raiseModule 17
      [if hbm then 1 else 0, BitVec.ofNat 64 (k % 2 ^ 48), va]
  else
    let i := if hbm then 1 else 0
    let n := s.dev.corr.getD i 0 + 1
    let s := s.onDev fun d => { d with
      cecnt := satAdd d.cecnt (32 * i) 32 1, corr := setV d.corr i (if n = 4096 then 0 else n) }
    if n = 4096 then s.raiseModule 16 [BitVec.ofNat 64 (i + 4096 * 16), BitVec.ofNat 64 (k % 2 ^ 48)] else s

def touchGo (va : Word) : List (Nat × Bool) → State → State
  | [], s => s
  | (w, h) :: l, s => touchGo va l (s.meetUpset va w h)
/-- The errors that a read of `n` bytes at a key meets. -/
def State.touch (s : State) (va : Word) (k n : Nat) : State :=
  if s.dev.upsets.isEmpty then s
  else touchGo va (s.dev.upsets.filter fun u => k / 8 ≤ u.1 && u.1 ≤ (k + n - 1) / 8) s

/-! ### Slot tables (21 R379, R381) -/

/-- A slot table holds a valid entry of the side. -/
def tableHas (t : List Word) (side : BitVec 8) : Bool :=
  (List.range 16).any fun e =>
    let x := (t.getD (e / 4) 0).toNat / 2 ^ (16 * (e % 4)) % 65536
    x / 256 % 2 = 1 && x % 256 = side.toNat
/-- The slot table of a port, when it arbitrates, holds an entry of the side. -/
def Tile.slotPass (t : Tile) (d : BitVec 2) (side : BitVec 8) : Bool :=
  !(t.kerf.getD d.toNat 0).getLsbD 10 || tableHas (t.slott.getD d.toNat (Vector.replicate 4 0)).toList side
/-- A slice starts lookups of the side: it is not isolated, or its slot table holds an entry. -/
def isoServes (iso : List Word) (side : BitVec 8) : Bool := bitsN (iso.getD 1 0) 8 8 = 0 || tableHas (iso.drop 2) side

/-- Slab offset at which a port attaches (14 R300). -/
def PortEnt.slab (p : PortEnt) : Nat := if p.kind = 2 then p.lane / 8 else if p.kind = 5 then p.lane else 0

/-! ### Routes (23 R400, 26 R425, R433) -/

def tX (t : BitVec 8) : Nat := bitsN t 2 0
def tY (t : BitVec 8) : Nat := bitsN t 5 3
def tDie (t : BitVec 8) : Nat := bitsN t 7 6
/-- The mesh port toward a tile of the same die, by row and then by column; none at the tile itself. -/
def meshStep (pos dst : BitVec 8) : Option (BitVec 2 × BitVec 8) :=
  if tX pos < tX dst then some (1, pos + 1)
  else if tX dst < tX pos then some (3, pos - 1)
  else if tY pos < tY dst then some (2, pos + 8)
  else if tY dst < tY pos then some (0, pos - 8)
  else none

/-- Ports of a die: 0 PX, 1 PY, 2 EX, 3 EY, 4 EZP, 5 EZM (27 R438). -/
def portNo (die p : Nat) : Nat := 6 * die + p
def isExternal (port : Nat) : Bool := 2 ≤ port % 6

/-- The tile that a port is attached to (26 R426). -/
def portTile (port : Nat) : BitVec 8 :=
  let die := port / 6
  let dx := die % 2
  let dy := die / 2
  let xy : Nat × Nat := match port % 6 with
    | 0 => (7 * (1 - dx), 3) | 1 => (3, 7 * (1 - dy)) | 2 => (7 * dx, 4) | 3 => (4, 7 * dy) | 4 => (4, 4) | _ => (3, 4)
  BitVec.ofNat 8 (die * 64 + xy.2 * 8 + xy.1)

/-- Partition coordinates of a die of this module (26 R425). -/
def Dev.here (d : Dev) (die : Nat) : Nat × Nat × Nat :=
  (2 * bitsN d.ptpos 7 0 + die % 2, 2 * bitsN d.ptpos 15 8 + die / 2, bitsN d.ptpos 23 16)
/-- Partition coordinates of a die of a module number. -/
def Dev.coords (d : Dev) (module die : Nat) : Nat × Nat × Nat :=
  let nx := Nat.max 1 (bitsN d.ptsize 7 0 / 2)
  let ny := Nat.max 1 (bitsN d.ptsize 15 8 / 2)
  (2 * (module % nx) + die % 2, 2 * (module / nx % ny) + die / 2, module / (nx * ny))

/-- Which way round a ring of `n`: none when there, else whether positive; a tie is positive. -/
def ringWay (n x y : Nat) : Option Bool :=
  if x = y then none else some (decide ((y + n - x) % n * 2 ≤ n))

/-- The port by which a die forwards a packet toward another die, and whether it moves in positive direction. -/
def Dev.portToward (d : Dev) (own : BitVec 24) (die : Nat) (dst : BitVec 32) : Option (Nat × Bool) :=
  let (x, y, z) := d.here die
  let (x', y', z') := if bitsN dst 31 8 = own.toNat then d.here (bitsN dst 7 6) else d.coords (bitsN dst 31 8) (bitsN dst 7 6)
  let nx := bitsN d.ptsize 7 0
  let ny := bitsN d.ptsize 15 8
  let nz := bitsN d.ptsize 23 16
  let dx := die % 2
  let dy := die / 2
  match ringWay (Nat.max nx 2) x x' with
  | some pos => some (if nx ≤ 2 || pos == (dx == 0) then (portNo die 0, pos) else (portNo die 2, pos))
  | none =>
    match ringWay (Nat.max ny 2) y y' with
    | some pos => some (if ny ≤ 2 || pos == (dy == 0) then (portNo die 1, pos) else (portNo die 3, pos))
    | none =>
      match ringWay (Nat.max nz 1) z z' with
      | some pos => some (if pos || nz ≤ 2 then (portNo die 4, pos) else (portNo die 5, pos))
      | none => none

/-- The far end of a package link: the same port of the neighbouring die. -/
def packagePeer (port : Nat) : Nat := if port % 6 = 0 then portNo ((port / 6) ^^^ 1) 0 else portNo ((port / 6) ^^^ 2) 1
/-! ### Links that a slot table arbitrates (21 R379, R381; log 107) -/

/-- Mesh hops of the longest route in a module. -/
def routeMax : Nat := 64
/-- The tokens of a side have slots on every mesh link between two tiles of the module. -/
def State.routePass (s : State) (side : BitVec 8) : Nat → BitVec 8 → BitVec 8 → Bool
  | 0, _, _ => true
  | n + 1, pos, dst =>
    let own := (s.tileOf pos).module
    let port : Option Nat := if tDie pos = tDie dst then none else (s.dev.portToward own (tDie pos) (own ++ dst)).map (·.1)
    match meshStep pos (match port with | some p => portTile p | none => dst), port with
    | some (d, next), _ => (s.tileOf pos).slotPass d side && s.routePass side n next dst
    | none, some p => isExternal p || s.routePass side n (portTile (packagePeer p)) dst
    | none, none => true
/-- Some link of the module is arbitrated by a slot table, or some slice is isolated. -/
def State.tablesOn (s : State) : Bool :=
  (s.tile :: s.tiles).any fun t => t.kerf.toList.any (·.getLsbD 10) || (t.tlbiso.getD 1 0).getLsbD 8
/-- Rows may be held back: by those, or by an external port that takes no accesses while the partition is off (26 R428). -/
def State.gating (s : State) : Bool :=
  s.tablesOn || (!s.dev.ptctl.getLsbD 0 && s.dev.tlb.any fun e => !e.ptr && bitsN e.pte 7 6 == 1)
/-- The tile of slice `i` of a die. -/
def isoTileNo (die i : Nat) : BitVec 8 := BitVec.ofNat 8 (die * 64 + 2 * (i / 4) * 8 + 2 * (i % 4))
/-- A translation and its access find slots: at the slice, and on the links from the tile to it, on to the word and back. -/
def State.wayOpen (s : State) (w : Who) (va : Word) (l : Except (BitVec 12) Loc) : Bool :=
  let i := sliceOf w.space va
  let slice := isoTileNo w.die.toNat i
  isoServes (w.iso.getD i []) w.side && match w.tile with
    | none => true
    | some t =>
      let pass := s.routePass w.side routeMax
      pass t slice && match l with
        | .ok (.mem k) => match homeTile k with
          | some h => pass slice h && pass h t
          | none => pass slice t
        | _ => pass slice t
/-- The external ports take accesses to other modules only while PTCTL.EN is 1 (26 R428). -/
def Dev.farOpen (d : Dev) (l : Except (BitVec 12) Loc) : Bool :=
  match l with | .ok (.mem k) => !isFar k || d.ptctl.getLsbD 0 | _ => true
/-- An access that finds no slot, or an external port that refuses it, marks the row that makes it, which is then not executed. -/
def State.gate (s : State) (free : Bool) : State := if free then s else s.onDev fun d => { d with gated := true }

/-! ### Windows and global memory of the context in focus -/

/-- Who translates on a die for a side (21 R366, R373). -/
def State.whoAt (s : State) (die : BitVec 2) (side : BitVec 8) (space : BitVec 16) (key : BitVec 9) : Who :=
  { space := space, keyslot := key, side := side, die := die, own := s.tile.module
    iso := (List.range 16).map fun i => (s.tileOf (isoTileNo die.toNat i)).tlbiso.toList }
/-- Who translates for the context in focus. -/
def State.whoOf (s : State) (space : BitVec 16) (key : BitVec 9) : Who :=
  { s.whoAt (BitVec.ofNat 2 (bitsN s.ctx.id.tile 7 6)) s.ctx.id.side space key with tile := some s.ctx.id.tile }
def State.spaceNow (s : State) : BitVec 16 := BitVec.ofNat 16 s.ctx.csr.space.toNat
def State.keyNow (s : State) : BitVec 9 := BitVec.ofNat 9 s.ctx.csr.keyslot.toNat
/-- A register as the block in focus still sees it, after a store to the image of its context (21 R368). -/
def State.oldCsr (s : State) (k : Csr) : Option Word := (s.fir.blk.old.find? (·.1 == k)).map (·.2)
/-- A register of the context as the block in focus sees it. -/
def State.seenReg (s : State) (k : Csr) (live : Word) : Word := (s.oldCsr k).getD live
def State.spaceSeen (s : State) : BitVec 16 := (s.seenReg .space s.ctx.csr.space).setWidth 16
def State.keySeen (s : State) : BitVec 9 := (s.seenReg .keyslot s.ctx.csr.keyslot).setWidth 9
/-- FPMODE.FLUSH (03 R75), FIXORD.EN (13 R289), ESCN.N (05 R118). -/
def State.flush (s : State) : Bool := (s.seenReg .fpmode s.ctx.csr.fpmode).getLsbD 0
def State.fixedSeen (s : State) : Bool := (s.seenReg .fixord s.ctx.csr.fixord).getLsbD 0
def State.escn (s : State) : Nat := bitsN (s.seenReg .escn s.ctx.csr.escn) 15 0
def State.who4 (s : State) : Who := s.whoOf s.spaceSeen s.keySeen

/-- The errors that the reads of a translation meet (04 R108). -/
def State.touchWalk (s : State) (w : Who) (va : Word) : State :=
  if s.dev.upsets.isEmpty then s else (walkReads s.dev s.mem w va).foldl (fun s k => s.touch va k 8) s
/-- A global access of `n` bytes: ADDR, ALIGN, translation, PERM, KEY (11 R235), and the TLB afterwards. -/
def State.global (s : State) (w : Who) (acc : Access) (va : Word) (n : Nat) : Except (BitVec 12) Loc × State :=
  if bitsN va 63 56 ≠ 0 then (.error dADDR, s)
  else if va.toNat % n ≠ 0 then (.error dALIGN, s)
  else
    let s := s.touchWalk w va
    let r := translate s.dev s.mem w acc (n = 8) va
    let s := (if s.tablesOn then s.gate (s.wayOpen w va r.1) else s).gate (s.dev.farOpen r.1)
    (r.1, s.onDev fun d => { d with tlb := r.2 })
/-- A global access of an engine: control pages are only for scalar loads and stores (21 R368). -/
def State.globalMem (s : State) (w : Who) (acc : Access) (va : Word) (n : Nat) : Except (BitVec 12) Loc × State :=
  match s.global w acc va n with
  | (.ok (.ctl ..), s) => (.error dPERM, s)
  | r => r

/-- A window access of `n` bytes: ALIGN, WINDOW. -/
def State.window (s : State) (o : Word) (n : Nat) : Except (BitVec 12) Loc :=
  if o.toNat % n ≠ 0 then .error dALIGN
  else if s.ctx.winSize ≤ o.toNat then .error dWINDOW
  else .ok (.mem (s.ctx.winKey o.toNat))

/-- The key material under which an access reaches byte `k` (21 R374, R375). -/
def State.kvOf (s : State) (w : Who) (k : Nat) : Option (BitVec 512) := s.dev.keyAt w.keyslot.toNat k

/-- The word of the window at an 8-byte aligned offset, and its poison. -/
def State.winWord (s : State) (o : Nat) : Word := s.mem.word (s.ctx.winKey o)
def State.winPois (s : State) (o : Nat) : Bool := s.mem.poisoned (s.ctx.winKey o)
/-- Stores a whole word of the window; poison as given (04 R109). -/
def State.winPut (s : State) (o : Nat) (v : Word) (p : Bool := false) : State :=
  s.onMem fun m => (m.setRaw (s.ctx.winKey o) v.toNat 8).setPoison (s.ctx.winKey o) p

/-- The errors that reads of `n` lines of the window from an aligned offset meet (04 R108). -/
def State.touchWin (s : State) (o n : Nat) : State :=
  if s.dev.upsets.isEmpty then s
  else (List.range n).foldl (fun s i => s.touch (BitVec.ofNat 64 (o + 64 * i)) (s.ctx.winKey (o + 64 * i)) 64) s

/-! ### Records, pushes and supervisor events (12 R261, 01 R27, R28, 22 R390) -/

/-- Word 1 of a completion record but for SEQ. -/
def recInfo (cls op mod tag chan : Nat) : Word :=
  BitVec.ofNat 64 (cls * 2 ^ 61 + op * 2 ^ 55 + mod * 2 ^ 50 + tag * 2 ^ 43 + chan * 2 ^ 40 + 2 ^ 39)
/-- A record on its way to EVQ (row EVQ_RECORD_DELIVERY delivers it). -/
def Ctx.postRec (c : Ctx) (st info : Word) (push : Option (BitVec 3) := none) (from_ : Origin := {}) : Ctx :=
  { c with sync := { c.sync with evqHeld := c.sync.evqHeld ++ [{ status := st, info := info, push := push, origin := from_ }] } }
/-- A push on its way to a FIFO (row DEPENDENCE_FIFO_PUSH delivers it). -/
def Ctx.postPush (c : Ctx) (q : Nat) (from_ : Origin := {}) : Ctx :=
  { c with sync := { c.sync with pushes := c.sync.pushes ++ [{ q := BitVec.ofNat 3 q, origin := from_ }] } }
/-- The completion of a command by its completion word: a record with REC or when refused, a push with PUSH. An operation
with a record is complete only once that is delivered, and its push follows (01 R28). -/
def Ctx.complete (c : Ctx) (cw : BitVec 16) (always : Bool) (st : Word) (cls op mod chan : Nat) (from_ : Origin := {}) : Ctx :=
  if cwRec cw || always then
    c.postRec st (recInfo cls op mod (cwTag cw) chan) (if cwPush cw then some (BitVec.ofNat 3 (cwQpush cw)) else none) from_
  else if cwPush cw then c.postPush (cwQpush cw) from_ else c
/-- An operation of a unit whose record or push is on its way or held is not complete, and the unit goes on with nothing (01 R27,
R28). -/
def Sync.owes (y : Sync) (p : Origin → Bool) : Bool := y.evqHeld.any (p ·.origin) || y.pushes.any (p ·.origin)
/-- Takes a token from Qn, when there is one. -/
def Ctx.popQ (c : Ctx) (q : Nat) : Option Ctx :=
  let n := c.sync.q.getD q 0
  if n = 0 then none else some { c with sync := { c.sync with q := setV c.sync.q q (n - 1) } }

/-- Raises a supervisor event of the context in focus. -/
def State.raise (s : State) (kind : Nat) (body : List Word) : State :=
  let w0 := BitVec.ofNat 64 (s.ctx.id.job.toNat * 2 ^ 48 + s.tile.module.toNat * 2 ^ 24 + s.ctx.id.tile.toNat * 2 ^ 16
    + s.ctx.id.num.toNat * 2 ^ 8 + kind)
  (s.onDev fun d => { d with events := d.events ++ [⟨w0, BitVec.ofNat 32 s.tile.evseq, body⟩] }).onTile
    fun t => { t with evseq := t.evseq + 1 }

/-! ### Freezes (22 R391) -/

def Ctx.frozen (c : Ctx) : Bool :=
  c.csr.holdSup || c.csr.holdEsc || c.csr.holdBrk || !c.csr.holdFlood.isEmpty || c.csr.faultHold
    || (c.csr.saving && !c.csr.atBound)
/-- The context issues nothing: it is frozen, or a save of it is in progress (22 R392, R393). -/
def Ctx.stopped (c : Ctx) : Bool := c.frozen || c.csr.saving
/-- CTXCTL.WHY. -/
def Ctx.why (c : Ctx) : Nat :=
  if c.csr.holdBrk then 3 else if c.csr.holdEsc then 2
  else if c.csr.holdSup || !c.csr.holdFlood.isEmpty || c.csr.faultHold then 1 else 0

/-! ### Bore logs (24 R406 to R414) -/

def Ctx.logOn (c : Ctx) : Bool := c.csr.loglim.getLsbD 63
def Ctx.logSteer (c : Ctx) : Bool := bitsN c.csr.loglim 62 61 = 1
def Ctx.logN (c : Ctx) : Nat := bitsN c.csr.loglim 23 0
def Ctx.logRD (c : Ctx) : Nat := bitsN c.csr.logpos 23 0
def Ctx.logWR (c : Ctx) : Nat := bitsN c.csr.logpos 47 24
def Ctx.logUsed (c : Ctx) : Nat := (c.logWR + 2 ^ 24 - c.logRD) % 2 ^ 24
def Ctx.setRD (c : Ctx) (n : Nat) : Ctx :=
  { c with csr := { c.csr with logpos := BitVec.ofNat 64 (c.logWR * 2 ^ 24 + n % 2 ^ 24) } }
def Ctx.setWR (c : Ctx) (n : Nat) : Ctx :=
  { c with csr := { c.csr with logpos := BitVec.ofNat 64 (n % 2 ^ 24 * 2 ^ 24 + c.logRD) } }
/-- LOGPOS as a CSRR reads it. -/
def Ctx.logposRead (c : Ctx) : Word := c.csr.logpos ||| (ofBool 64 c.log.isHeld <<< 48)

/-- The words of a record. -/
def LogRec.words (r : LogRec) (lseq : Nat) : List Word :=
  [BitVec.ofNat 64 (((r.lseq.map (·.toNat)).getD lseq % 2 ^ 32) * 2 ^ 32 + r.srcn.toNat * 2 ^ 16 + r.srck.toNat * 2 ^ 8
    + r.type.toNat), r.w1, r.w2, r.w3]

/-- Stores words at consecutive global addresses through SPACE; the first failing access stops it. -/
def State.putGlobal (s : State) (va : Word) : List Word → State × Option (BitVec 12 × Word)
  | [] => (s, none)
  | v :: vs =>
    let (r, s) := s.global s.who4 .wr va 8
    match r with
    | .ok (.mem k) =>
      (s.onMem fun m => (m.write (s.kvOf s.who4 k) k v.toNat 8).setPoison k false).putGlobal (va + 8) vs
    | .ok _ => (s, some (dPERM, va))
    | .error d => (s, some (d, va))

/-- A key for the source of a record. -/
def LogRec.source (r : LogRec) : Nat := r.srck.toNat * 65536 + r.srcn.toNat
/-- The source of a record has one more record behind it: the LSEQ that it goes on from (24 R408, R412). -/
def Ctx.logNext (c : Ctx) (r : LogRec) : Ctx :=
  { c with log := match r.lseq with
      | some q => { c.log with unitSeq := setKey r.source q c.log.unitSeq }
      | none => { c.log with lseq := c.log.lseq + 1 } }
/-- Writes a record at WR and advances it; a failing access holds the write at the bore-log port, and later records wait behind it
(24 R407). -/
def State.logPut (s : State) (r : LogRec) : State :=
  let c := s.ctx
  if !c.log.held.isEmpty then s.onCtx fun c => { c with log := { c.log with held := c.log.held ++ [r] } } else
  let va := BitVec.ofNat 64 (c.csr.logbase.toNat / 32 % 2 ^ 51 * 32 + 32 * (c.logWR % c.logN))
  match s.putGlobal va (r.words c.log.lseq) with
  | (s, none) => s.onCtx fun c => (c.setWR (c.logWR + 1)).logNext r
  | (s, some (d, a)) =>
    (s.onCtx fun c => { c with log := { c.log with held := [r], port := some ⟨d, a, 1⟩ } }).raise 2
      [BitVec.ofNat 64 (3 + 1 * 4 + d.toNat * 2 ^ 7 + 2 ^ 19), a]

/-- Address of record `i` of the ring. -/
def Ctx.logVa (c : Ctx) (i : Nat) : Word := BitVec.ofNat 64 (c.csr.logbase.toNat / 32 % 2 ^ 51 * 32 + 32 * (i % c.logN))
/-- The words of expected record `i` of the ring, as they stand in memory. -/
def State.logGet (s : State) (i : Nat) : Option (List Word) :=
  let va := s.ctx.logVa i
  match (s.global s.who4 .rd va 8).1 with
  | .ok (.mem k) => some ((List.range 4).map fun j =>
      BitVec.ofNat 64 (s.mem.read (s.kvOf s.who4 k) (k + 8 * j) 8))
  | _ => none

/-- The source of a record: the context's own side, a scratchpad unit by its group, an HBM unit by its number. The scratchpad updates
of a context go to the four units of its tile, which a replay may place elsewhere: SRCN is not compared (24 R414; log 115). -/
def sourceOf (srck srcn : Nat) : Nat := if srck = 0 then 0 else if srck = 1 then 1 + srcn % 4 else 8 + srcn

/-- Expected records not yet consumed of a source, oldest first, with their indices (24 R414). -/
def State.expected (s : State) (srck srcn : Nat) : List (Nat × List Word) :=
  if s.ctx.logN = 0 then [] else
  ((List.range s.ctx.logUsed).map fun j => (s.ctx.logRD + j) % 2 ^ 24).filterMap fun i =>
    if s.ctx.log.used.contains i then none else
    match s.logGet i with
    | some ws => if sourceOf (bitsN (ws.getD 0 0) 15 8) (bitsN (ws.getD 0 0) 31 16) = sourceOf srck srcn then some (i, ws) else none
    | none => none

/-- Consumes an expected record; RD passes every consumed record at its front. -/
def dropUsed : Nat → Nat → List Nat → Nat × List Nat
  | 0, rd, u => (rd, u)
  | n + 1, rd, u => if u.contains rd then dropUsed n ((rd + 1) % 2 ^ 24) (u.filter (· != rd)) else (rd, u)
def State.consume (s : State) (i : Nat) (r : LogRec) : State :=
  s.onCtx fun c =>
    let x := dropUsed (c.log.used.length + 1) c.logRD (i :: c.log.used)
    { c.setRD x.1 with log := { c.log with used := x.2, lseq := if r.lseq.isNone then c.log.lseq + 1 else c.log.lseq } }

/-- The words of an expected record are these, but for the bits of a mask of word 1, SRCN, and the LSEQ of a unit (24 R414). -/
def recMatches (lseq : Nat) (r : LogRec) (m1 : Word) (ws : List Word) : Bool :=
  let m1 := if r.type = 2 then m1 &&& ~~~(0x3FC00 : Word) else m1
  bitsN (ws.getD 0 0) 15 0 = r.srck.toNat * 256 + r.type.toNat
    && (r.srck != 0 || bitsN (ws.getD 0 0) 63 32 = lseq % 2 ^ 32) && (ws.getD 1 0 &&& m1) == (r.w1 &&& m1)
    && ws.getD 2 0 == r.w2
    && (if r.type = 5 then (ws.getD 3 0 == 0xFFFFFFFF) == (r.w3 == 0xFFFFFFFF) else ws.getD 3 0 == r.w3)

/-- The event finds no room for its record, or differs from the record expected: HELD is set, the context freezes and a TRAP event is
raised (24 R412, R414). -/
def State.logHold (s : State) (detail : Nat) (r : LogRec) : State :=
  if s.ctx.log.isHeld && s.ctx.csr.holdSup then s else
  let last := if r.lseq.isSome then ((getKey r.source s.ctx.log.unitSeq).getD 0xFFFFFFFF).toNat else (s.ctx.log.lseq + 2 ^ 32 - 1) % 2 ^ 32
  let i1 := BitVec.ofNat 64 (r.type.toNat * 2 ^ 56 + r.srck.toNat * 2 ^ 48 + last)
  let s := s.onCtx fun c => { c with log := { c.log with isHeld := true }, csr := { c.csr with holdSup := true } }
  s.raise 1 [BitVec.ofNat 64 (11 * 2 ^ 40 + detail * 2 ^ 28), 0, s.ctx.logposRead, i1, 0]

/-- Two records of one event; the LSEQ that a MERGE names is no part of it. -/
def LogRec.same (r x : LogRec) : Bool :=
  x.type == r.type && x.srck == r.srck && x.srcn == r.srcn && x.w1 == r.w1 && x.w2 == r.w2 && (r.type == 5 || x.w3 == r.w3)
/-- The record needs no more before its event happens. -/
def Ctx.isSettled (c : Ctx) (r : LogRec) : Bool := !c.logOn || c.log.done.any r.same
def Ctx.settled (c : Ctx) (r : LogRec) : Ctx := { c with log := { c.log with done := c.log.done ++ [r] } }
/-- The event of a settled record happens. -/
def Ctx.unsettle (c : Ctx) (r : LogRec) : Ctx := { c with log := { c.log with done := c.log.done.eraseP r.same } }

/-- The record of an event outside a block, before the event: it is written, or in STEER mode found as expected, and then settled; else
its source is held. A steered event whose expected record is another one waits (24 R407, R410, R412, R414). -/
def State.settle (s : State) (r : LogRec) (steered : Bool) (m1 : Word) : State :=
  if s.ctx.isSettled r then s
  else
    let free (s : State) := s.onCtx fun c => { c with log := { c.log with isHeld := false } }
    if s.ctx.logSteer then
      match s.expected r.srck.toNat r.srcn.toNat with
      | [] => s.logHold 0x0D1 r
      | (i, ws) :: _ =>
        let s := match (s.global s.who4 .rd (s.ctx.logVa i) 8).1 with | .ok (.mem k) => s.touch (s.ctx.logVa i) k 32 | _ => s
        if recMatches s.ctx.log.lseq r m1 ws then ((free s).consume i r).onCtx (·.settled r)
        else if steered then s else s.logHold 0x0D2 r
    else if !s.ctx.log.held.isEmpty || s.ctx.logN ≤ s.ctx.logUsed then s.logHold 0x0D1 r
    else
      let t := (free s).logPut r
      if t.ctx.log.held.isEmpty then t.onCtx (·.settled r) else t

/-- An event that writes one record, outside a block: it happens once the record is settled. -/
def State.logged (s : State) (r : LogRec) (steered : Bool) (m1 : Word) (k : State → State) : State :=
  if !s.ctx.logOn then k s
  else
    let t := s.settle r steered m1
    if t.ctx.isSettled r then k (t.onCtx (·.unsettle r)) else t

/-- All bits of word 1 are compared. -/
def allBits : Word := BitVec.allOnes 64

/-- The context of a record is resident and writes logs. -/
def State.logsAt (s : State) (uid : Nat) : Bool := (s.ctxOf uid).any (·.logOn)
/-- Settles the records of an event in order, as far as that goes: whether all are settled. -/
def State.settleEach : List (Nat × LogRec) → State → State × Bool
  | [], s => (s, true)
  | (u, r) :: l, s =>
    if !s.logsAt u then settleEach l s
    else
      let t := s.within u (·.settle r false allBits)
      if (t.ctxOf u).all (·.isSettled r) then settleEach l t else (t, false)
/-- The records of an event of one or several contexts, all compared, before it happens: whether it happens now. -/
def State.settleAll (s : State) (l : List (Nat × LogRec)) : State × Bool :=
  let x := s.settleEach l
  if x.2 then (l.foldl (fun s y => if s.logsAt y.1 then s.within y.1 (·.onCtx (·.unsettle y.2)) else s) x.1, true) else x
/-- An event that writes records of one or several contexts, all compared. -/
def State.loggedAll (s : State) (l : List (Nat × LogRec)) (k : State → State) : State :=
  let x := s.settleAll l
  if x.2 then k x.1 else x.1

/-- Ties a record to the block (24 R411). -/
def State.tie (s : State) (k : Nat) (r : LogRec) : State :=
  if s.ctx.logOn then s.onBlk fun b => { b with logs := b.logs ++ [(k, r)] } else s

/-- LPOSA and LPOSB as words 2 and 3 of an ALLOC record; tile as SRCN. -/
def Ctx.srcn (c : Ctx) : BitVec 16 := BitVec.ofNat 16 c.id.tile.toNat

/-! ### Deadlines and returns of waits (05 R112 to R119) -/

/-- The expiry point of a deadline operand: budget, POLL, or an illegal value. -/
inductive Deadline where
  | at (e : Nat) | poll | illegal
deriving DecidableEq, Repr

def State.deadline (s : State) (v : Word) : Deadline :=
  let ceil := (s.seenReg .dceil s.ctx.csr.dceil).toNat
  let now := s.ctx.csr.budget.toNat
  if v.getLsbD 63 then
    if bitsN v 62 0 = 0 then .poll else if bitsN v 62 0 = 1 then .at (now + ceil) else .illegal
  else .at (now + Nat.min v.toNat ceil)

/-- The change of TOCNT at a return, and the status actually returned (05 R117 to R119): the status, whether it was
escalated. `thr`: ESCN.N; `poll`: of a POLL wait, whose expiry results leave COUNT unchanged. -/
def Ctx.count (c : Ctx) (st : Word) (poll : Bool) (thr : Nat) : Ctx × Word × Bool :=
  let code := codeOf st
  let bump := code = sTIMEOUT || code = sWITHDRAWN
  let n := bitsN c.csr.tocnt 15 0
  let perf (c : Ctx) : Ctx := if bump then { c with csr := { c.csr with perf := modV c.csr.perf 7 (· + 1) } } else c
  if bump && !poll then
    if thr ≠ 0 ∧ thr ≤ n + 1 then
      ({ c with csr := { c.csr with tocnt := 0 } }, status sESCALATED code (bitsN st 63 16), true)
    else (perf { c with csr := { c.csr with tocnt := BitVec.ofNat 64 (Nat.min (n + 1) 65535) } }, st, false)
  else if code = 0 || (code = sLATE && !poll) || code = sLOSS then
    ({ c with csr := { c.csr with tocnt := 0 } }, st, false)
  else (perf c, st, false)

/-- A wait of a slot returns: TOCNT, escalation, tokens. `mk` gives the tokens from the status returned. -/
def State.returnWait (s : State) (k : Nat) (st : Word) (poll : Bool) (op : BitVec 6)
    (mk : Word → List (Cons × Token)) : State :=
  let (c, st', esc) := s.ctx.count st poll s.escn
  let s := { s with ctx := c }
  let s := if esc then
      s.onBlk fun b => { b with esc := b.esc ++ [(BitVec.ofNat 4 (codeOf st), BitVec.ofNat 64 (bitsN st 63 16), 0, op)] }
    else s
  s.emitAt k ((mk st').map fun (c, t) => (c, some t))

/-- A SYNC record of a return (24 R409). -/
def syncRec (c : Ctx) (op : Nat) (st : Word) (blk : Word) : LogRec :=
  { type := 9, srcn := c.srcn
    w1 := BitVec.ofNat 64 (op + codeOf st * 2 ^ 6 + bitsN st 15 4 * 2 ^ 10)
    w2 := BitVec.ofNat 64 (bitsN st 63 16), w3 := blk }
/-- An EXPIRE record of a return (24 R409). -/
def expireRec (c : Ctx) (cls op : Nat) (code : Nat) (blk : Word) : LogRec :=
  { type := 10, srcn := c.srcn, w1 := BitVec.ofNat 64 (cls + op * 8 + code * 2 ^ 9), w3 := blk }

/-! ### Taking a trap (22 R383 to R385) -/

/-- Window offset of the frame of a firing slot. -/
def Ctx.frameOff (c : Ctx) (slot : Nat) : Nat := c.winSize - 8192 + 1024 * slot

/-- Word 0 of a frame. -/
def frameWord0 (arrived : Bool) (slot actor : Nat) (cause : BitVec 8) (detail : BitVec 12) (fslot : Nat) : Word :=
  BitVec.ofNat 64 (2 ^ 63 + (if arrived then 2 ^ 59 else 0) + slot % 8 * 2 ^ 56 + actor % 256 * 2 ^ 48
    + cause.toNat * 2 ^ 40 + detail.toNat * 2 ^ 28 + fslot % 64 * 2 ^ 22)

/-- Writes words at consecutive offsets of the window. -/
def State.winPutAll (s : State) (o : Nat) : List Word → State
  | [] => s
  | w :: ws => (s.winPut o w).winPutAll (o + 8) ws

/-- Words 1 to 71 of a frame: block, INFO0, INFO1, TARGET, F, GPOIS, 0, G0 to G63. -/
def frameRest (f : Firing) (blk i0 i1 : Word) : List Word :=
  [blk, i0, i1, 0, f.flags.setWidth 64, f.gpois, 0, 0] ++ (f.regs.toList.drop 1)

/-- A barrier object: its words and whether one is poisoned (05 R121). -/
structure BarObj where
  live : Word
  arr : Word
  drops : Word
  w3 : Word
  pois : Bool := false
deriving DecidableEq, Repr

def Memory.bar (m : Memory) (kv : Option (BitVec 512)) (k : Nat) : BarObj :=
  let w (i : Nat) : Word := BitVec.ofNat 64 (m.read kv (k + 8 * i) 8)
  ⟨w 0, w 1, w 2, w 3, (List.range 4).any fun i => m.poisoned (k + 8 * i)⟩
def Memory.putBar (m : Memory) (kv : Option (BitVec 512)) (k : Nat) (b : BarObj) : Memory :=
  let put (m : Memory) (i : Nat) (v : Word) : Memory := (m.write kv (k + 8 * i) v.toNat 8).setPoison (k + 8 * i) false
  put (put (put (put m 0 b.live) 1 b.arr) 2 b.drops) 3 b.w3
def BarObj.phase (b : BarObj) : BitVec 32 := BitVec.ofNat 32 (bitsN b.w3 63 32)
/-- A malformed object (05 R122); a poisoned one counts as malformed (04 R448). -/
def BarObj.bad (b : BarObj) (win : Bool) : Bool :=
  let sc := bitsN b.w3 7 4
  b.pois || bitsN b.w3 31 8 ≠ 0 || bitsN b.w3 3 0 ≠ 0 || sc < 4 || 7 < sc || (win && sc ≠ 4)
    || b.arr &&& ~~~b.live != 0 || b.drops &&& ~~~b.arr != 0
/-- Member `m` is taken back from ARRIVED and DROPS. -/
def BarObj.unarrive (b : BarObj) (m : BitVec 6) : BarObj :=
  let clr (x : Word) : Word := x &&& ~~~((1 : Word) <<< m.toNat)
  { b with arr := clr b.arr, drops := clr b.drops }
/-- WIN of a barrier reference (13 R273). -/
def refWin (ref : Word) : Bool := ref.getLsbD 62
def refM (ref : Word) : BitVec 6 := BitVec.ofNat 6 (bitsN ref 61 56)

/-- Withdraws one arrival at the home of its object (05 R126): the memory afterwards, and whether the arrival stood
because the phase had completed. -/
def withdrawAt (m : Memory) (kv : Option (BitVec 512)) (key : Nat) (ref : Word) (p : BitVec 32) : Memory × Bool :=
  let b := m.bar kv key
  if b.bad (refWin ref) then (m, false)
  else if b.phase = p then (m.putBar kv key (b.unarrive (refM ref)), false)
  else (m, true)

/-- Withdraws the arrivals of an abandoned block (05 R124): the state, and whether one stood. -/
def State.withdrawAll (s : State) : List (Nat × Word × Nat × BitVec 32) → Bool → State × Bool
  | [], b => (s, b)
  | (_, ref, key, p) :: l, b =>
    let s := s.touch ref key 32
    let (m, stood) := withdrawAt s.mem (s.kvOf s.who4 key) key ref p
    let s := { s with mem := m }
    let s := if stood then s else s.onSync fun y =>
      { y with arr := y.arr.filter (fun a => !(a.ref == ref && a.p == p)) }
    s.withdrawAll l (b || stood)

/-- The freeze and the event of an escalation (05 R119, 13 R285, 22 R390). -/
def State.escalateOne (blk : Word) (s : State) (x : BitVec 4 × Word × BitVec 5 × BitVec 6) : State :=
  (s.onCsr fun r => { r with holdEsc := true }).raise 3
    [BitVec.ofNat 64 (x.1.toNat + x.2.2.1.toNat * 2 ^ 4 + x.2.2.2.toNat * 2 ^ 9), blk, x.2.1]
/-- The escalations of a block once it is committed or abandoned. -/
def State.escalate (s : State) (b : Block) : State := b.esc.foldl (State.escalateOne b.addr) s

/-- Blocks dispatched or fetched ahead are abandoned (06 R150): they are counted in PERF 1 when they were dispatched (13 R291). -/
def State.dropAhead (s : State) : State :=
  (s.onCsr fun c => { c with perf := modV c.perf 1 (· + BitVec.ofNat 64 s.fir.ahead.length) }).onFir fun f =>
    { f with ahead := [], fetched := none }
/-- Abandons the block in flight and those after it (06 R150): they leave no trace but what 05 R124 and 13 R281 name. -/
def State.abandon (s : State) : State × Bool :=
  let b := s.fir.blk
  let s := s.dropAhead
  let (s, stood) := s.withdrawAll b.arrived false
  let s := s.onSync fun y => { y with
    children := b.spawned.foldl (fun l h => setV l h.toNat {}) y.children
    replies := y.replies.filter (·.1 != s.fir.id) }
  let mine (r : QReq) := r.ctx == s.ctx.id.uid && r.fir == s.fir.id
  let s := s.onDev fun d => { d with
    quietReqs := d.quietReqs.filter (!mine ·), quietWait := d.quietWait.filter (!mine ·)
    barQ := d.barQ.filter (fun r => !(r.ctx == s.ctx.id.uid && r.fir == s.fir.id)) }
  let s := s.onCsr fun c => { c with perf := modV c.perf 1 (· + 1) }
  (s.escalate b, stood)

/-- Whether a firing may run in the slot of the trapped one: the vector that a cause selects, 0 for none. -/
def Ctx.vector (c : Ctx) (cause : BitVec 8) : Word :=
  let adr (w : Word) : Word := BitVec.ofNat 64 (w.toNat / 4 % 2 ^ 54 * 4)
  if cause = 10 ∧ adr c.csr.loadvec ≠ 0 then adr c.csr.loadvec else adr c.csr.trapvec

/-- Takes a trap: the block in flight of the firing in focus is abandoned, its frame is written, and a trap firing
starts in its slot at the vector; without a handler, and when a trap firing itself traps, the context freezes with a
TRAP event (22 R383 to R385). -/
def State.takeTrap (s : State) (cause : BitVec 8) (detail : BitVec 12) (fslot : Nat) (i0 i1 : Word) : State :=
  let f := s.fir
  let blk := if f.phase = .fetch then f.pc else f.blk.addr
  let (s, stood) := s.abandon
  let w0 := frameWord0 stood f.slotNo f.actor cause detail fslot
  let off := s.ctx.frameOff f.slotNo
  if f.trap then
    let s := s.onFir fun f => { f with phase := .idle, blk := {} }
    (s.onCsr fun c => { c with faultHold := true }).raise 1 [w0, blk, i0, i1, 1]
  else
    let s := s.winPutAll off (w0 :: frameRest f blk i0 i1)
    let vec := s.ctx.vector cause
    let su : Susp := { id := f.id, slotNo := f.slotNo, actor := f.actor, frame := off, started := f.started
                       overrun := f.overrun }
    if vec = 0 then
      let s := s.onCtx fun c => { c with
        susp := c.susp ++ [{ su with retired := true, freed := true }], csr := { c.csr with faultHold := true } }
      ({ s with fir := {} }).raise 1 [w0, blk, i0, i1, 0]
    else
      let s := s.onCtx fun c => { c with susp := c.susp ++ [su], nextFir := c.nextFir + 1 }
      { s with fir := { id := s.ctx.nextFir - 1, slotNo := f.slotNo, actor := f.actor, phase := .fetch, pc := vec
                        regs := (Vector.replicate 64 (0 : Word)).set 1 (BitVec.ofNat 64 off)
                        trap := true, frame := off, started := f.started, overrun := f.overrun, dseq := f.dseq } }

/-! ### Returning from a trap (22 R386, R387) -/

def hasBit (w : Word) (n : Nat) : Bool := w.getLsbD n

/-- Resumes a suspended firing in a slot, as its frame directs. The reserved bits of the frame and its poison, for which the spec
names no status, are not looked at: the model's choice (log 111). -/
def State.resume (s : State) (u : Susp) (slot : Nat) : State :=
  let s := s.touchWin u.frame 9
  let w0 := s.winWord u.frame
  let act := bitsN w0 61 60
  let s0 := s
  let s := s.onCtx fun c => { c with susp := c.susp.filter (·.id != u.id) }
  if act = 3 then
    let s := s.onCtx fun c => { c with susp := c.susp ++ [{ u with retired := true, freed := true }]
                                       csr := { c.csr with faultHold := true } }
    let s := s.winPut u.frame (w0 &&& ~~~((1 : Word) <<< 62))
    s.raise 1 [w0, s0.winWord (u.frame + 8), s0.winWord (u.frame + 16), s0.winWord (u.frame + 24), 0]
  else
    let s := s.winPut u.frame (w0 &&& ~~~((1 : Word) <<< 63))
    if act = 2 then
      s.onCtx fun c => { c with graph := { c.graph with
        actors := modAt c.graph.actors u.actor fun a =>
          { a with active := false, fired := a.fired && !a.ins.isEmpty } } }
    else
      let s := s.park
      { s with fir := {
          id := u.id, slotNo := slot, actor := u.actor, phase := .fetch
          pc := s0.winWord (u.frame + (if act = 0 then 8 else 32))
          regs := (Vector.ofFn fun (i : Fin 64) => s0.winWord (u.frame + 64 + 8 * i.val)).set 0 0
          gpois := s0.winWord (u.frame + 48)
          flags := (s0.winWord (u.frame + 40)).setWidth 32
          started := u.started, overrun := u.overrun } }

end Sys2Proof.Machine
end

