-- ==== Sys2Proof/Machine/Flags.lean ====
section
/-! DEFINITION. The flags: sticky flags of FPMODE (03 R74, R76), the condition of WAITF and the flag register F
(13 R277, R278; 08 R174, R175). -/

namespace Sys2Proof.Machine

/-! ### FPMODE flags, at their places -/

def NV : Word := 0x100
def OFl : Word := 0x200
def UF : Word := 0x400
def NX : Word := 0x800
def IFMT : Word := 0x1000
def DZ : Word := 0x2000
/-- FPMODE.FLUSH (03 R75). -/
def Ctx.flush (c : Ctx) : Bool := c.csr.fpmode.getLsbD 0

/-! ### F -/

/-- The condition of WAITF on F and mask K (13 R277). -/
def flagHolds (c : FlagCond) (f k : Half) : Bool :=
  match c with
  | .all => f &&& k == k
  | .any => f &&& k != 0
  | .none => f &&& k == 0
  | .notall => f &&& k != k

/-- One held write of F. -/
def FlagWrite.apply (w : FlagWrite) (f : Half) : Half :=
  match w with
  | .all v => v
  | .bit n v => if v then f ||| ((1 : Half) <<< n.toNat) else f &&& ~~~((1 : Half) <<< n.toNat)

/-- Two writes of F in one block conflict (08 R175). -/
def FlagWrite.clash : FlagWrite → FlagWrite → Bool
  | .bit n _, .bit m _ => n == m
  | _, _ => true

/-- F after the writes of a block (08 R175). -/
def applyFlags (ws : List FlagWrite) (f : Half) : Half := ws.foldl (fun f w => w.apply f) f

end Sys2Proof.Machine
end

