-- ==== Sys2Proof/Machine/Float.lean ====
section
/-! DEFINITION. Number formats and exact arithmetic (03 R62 to R83): values are decoded, combined exactly, and rounded
once. -/

namespace Sys2Proof.Machine

/-! ### Formats and values (03 R62) -/

/-- A floating-point format: widths of exponent and fraction, bias, code of the largest finite value, infinity and NaN. -/
structure Fmt where
  ew : Nat
  fw : Nat
  bias : Nat
  maxc : Nat
  hasInf : Bool
  nan : Option Nat
deriving DecidableEq, Repr

def FP32 : Fmt := ⟨8, 23, 127, 0x7F7FFFFF, true, some 0x7FC00000⟩
def FP16 : Fmt := ⟨5, 10, 15, 0x7BFF, true, some 0x7E00⟩
def BF16 : Fmt := ⟨8, 7, 127, 0x7F7F, true, some 0x7FC0⟩
def E5M2 : Fmt := ⟨5, 2, 15, 0x7B, true, some 0x7E⟩
def E4M3 : Fmt := ⟨4, 3, 7, 0x7E, false, some 0x7F⟩
def E2M1 : Fmt := ⟨2, 1, 1, 7, false, none⟩

/-- A value: NaN, infinity, or (−1)^neg · m · 2^e. -/
inductive Val where
  | nan
  | inf (neg : Bool)
  | fin (neg : Bool) (m : Nat) (e : Int)
deriving DecidableEq, Repr

def Val.isZero : Val → Bool | .fin _ 0 _ => true | _ => false
def Val.isNan : Val → Bool | .nan => true | _ => false
def Val.neg : Val → Bool | .nan => false | .inf n => n | .fin n _ _ => n
def Val.zero : Val := .fin false 0 0
def Val.negate : Val → Val | .nan => .nan | .inf n => .inf !n | .fin n m e => .fin (!n) m e
def Val.ofInt (i : Int) : Val := .fin (i < 0) i.natAbs 0

/-- The value of a code. -/
def Fmt.dec (f : Fmt) (x : Nat) : Val :=
  let s := x / 2 ^ (f.ew + f.fw) % 2 = 1
  let e := x / 2 ^ f.fw % 2 ^ f.ew
  let r := x % 2 ^ f.fw
  if f.hasInf && e = 2 ^ f.ew - 1 then (if r = 0 then .inf s else .nan)
  else if f.nan = some (x % 2 ^ (f.ew + f.fw)) then .nan
  else if e = 0 then .fin s r (1 - f.bias - f.fw)
  else .fin s (2 ^ f.fw + r) (e - f.bias - f.fw)

/-- FP32 operand, with subnormals flushed when asked (03 R75). -/
def dec32 (flush : Bool) (x : Half) : Val :=
  if flush && bitsN x 30 23 = 0 then .fin (x.getLsbD 31) 0 0 else FP32.dec x.toNat
/-- The bits of that operand. -/
def flushIn (flush : Bool) (x : Half) : Half := if flush && bitsN x 30 23 = 0 then x &&& 0x80000000 else x
/-- The bits of that operand, a NaN made canonical (03 R63). -/
def read32 (flush : Bool) (x : Half) : Half := if (FP32.dec x.toNat).isNan then 0x7FC00000 else flushIn flush x

/-! ### Rounding (03 R72, R73) -/

/-- How to round; stochastic rounding carries its 32 random bits. -/
inductive Mode where
  | ne | tz | sat | sr (rnd : Nat)
deriving DecidableEq, Repr

/-- Drops the low `k` bits of `m`; `st` says that the exact value lies above `m`. The kept integer, rounded, and
whether anything was dropped. It rounds a magnitude: for a negative value `lo` of RoundSR is the neighbour nearer to zero and
`hi` the one farther from it (03 R73, log 102). -/
def dropBits (mode : Mode) (m : Nat) (k : Nat) (st : Bool) : Nat × Bool :=
  let r := m / 2 ^ k
  let rem := m % 2 ^ k
  let inexact := rem ≠ 0 || st
  let up := match mode with
    | .tz => false
    | .ne | .sat => 2 ^ k < 2 * rem || (2 * rem = 2 ^ k && k ≠ 0 && (st || r % 2 = 1))
    | .sr rnd => rnd * 2 ^ k < rem * 2 ^ 32
  (if up && inexact then r + 1 else r, inexact)

/-- Rounds (−1)^neg · m · 2^e, m > 0, to a format: the code with its sign, and the flags (03 R72). With a sticky bit
the mantissa has more bits than any target. -/
def Fmt.round (f : Fmt) (mode : Mode) (neg : Bool) (m : Nat) (e : Int) (st : Bool) : Nat × Word :=
  let top : Int := e + Nat.log2 m
  let emin : Int := 1 - f.bias
  let q : Int := (if top < emin then emin else top) - f.fw
  -- scale so that dropping k ≥ 0 bits reaches the quantum q
  let m' := if q ≤ e then m * 2 ^ (e - q).toNat else m
  let k := if q ≤ e then 0 else (q - e).toNat
  let (r, nx) := dropBits mode m' k st
  let code := if r < 2 ^ f.fw then r else (q + f.fw + f.bias - 1).toNat * 2 ^ f.fw + r
  let sgn := if neg then 2 ^ (f.ew + f.fw) else 0
  -- tiny: rounded to the target's precision with any exponent, the magnitude is below the smallest normal
  let tiny := top < emin &&
    (let qu : Int := top - f.fw
     let mu := if qu ≤ e then m * 2 ^ (e - qu).toNat else m
     let ku := if qu ≤ e then 0 else (qu - e).toNat
     let (ru, _) := dropBits mode mu ku st
     !(ru = 2 ^ (f.fw + 1) && top + 1 = emin))
  if f.maxc < code then
    let inf := f.hasInf && (match mode with | .ne | .sr _ => true | _ => false)
    (sgn + (if inf then f.maxc + 1 else f.maxc), OFl ||| NX)
  else (sgn + code, (if nx then NX else 0) ||| (if nx && tiny then UF else 0))

/-- The canonical NaN of a format; 0 for E2M1, with NV (03 R72). -/
def Fmt.nanCode (f : Fmt) : Nat × Word := match f.nan with | some c => (c, 0) | none => (0, NV)

/-- Converts a value to a float format (03 R72). -/
def Fmt.enc (f : Fmt) (mode : Mode) (v : Val) : Nat × Word :=
  let sgn (n : Bool) := if n then 2 ^ (f.ew + f.fw) else 0
  match v with
  | .nan => f.nanCode
  | .inf n => if f.hasInf && mode != .sat then (sgn n + f.maxc + 1, 0) else (sgn n + f.maxc, OFl ||| NX)
  | .fin n 0 _ => (sgn n, 0)
  | .fin n m e => f.round mode n m e false

/-- Flushes an FP32 result that is subnormal (03 R75). -/
def flush32 (flush : Bool) (r : Nat × Word) : Half × Word :=
  let x := BitVec.ofNat 32 r.1
  if flush && bitsN x 30 23 = 0 && bitsN x 22 0 ≠ 0 then (x &&& 0x80000000, r.2 ||| UF ||| NX) else (x, r.2)

/-- Rounds a value to FP32 by nearest-even. -/
def ne32 (flush : Bool) (v : Val) : Half × Word := flush32 flush (FP32.enc .ne v)

/-! ### Exact sums and products (03 R77, R80) -/

/-- Product, exact; ∞ × 0 gives NaN and NV. -/
def Val.mul (a b : Val) : Val × Word :=
  match a, b with
  | .nan, _ | _, .nan => (.nan, 0)
  | .inf n, y => if y.isZero then (.nan, NV) else (.inf (n != y.neg), 0)
  | x, .inf n => if x.isZero then (.nan, NV) else (.inf (n != x.neg), 0)
  | .fin n m e, .fin n' m' e' => (.fin (n != n') (m * m') (e + e'), 0)

/-- Sum of finite values: signed mantissa at the lowest exponent. -/
def addFin (n : Bool) (m : Nat) (e : Int) (n' : Bool) (m' : Nat) (e' : Int) : Val :=
  let lo := if e < e' then e else e'
  let x : Int := (if n then -1 else 1) * (m * 2 ^ (e - lo).toNat : Nat)
  let y : Int := (if n' then -1 else 1) * (m' * 2 ^ (e' - lo).toNat : Nat)
  let z := x + y
  .fin (z < 0 || (z = 0 && n && n' && m = 0 && m' = 0)) z.natAbs lo

/-- Sum, exact; +∞ and −∞ give NaN and NV; a zero sum is −0 only when both terms are −0. -/
def Val.add (a b : Val) : Val × Word :=
  match a, b with
  | .nan, _ | _, .nan => (.nan, 0)
  | .inf n, .inf n' => if n = n' then (.inf n, 0) else (.nan, NV)
  | .inf n, _ | _, .inf n => (.inf n, 0)
  | .fin n m e, .fin n' m' e' => (addFin n m e n' m' e', 0)

/-- Quotient rounded to a format (03 R80). -/
def Fmt.div (f : Fmt) (a b : Val) : Nat × Word :=
  let neg := a.neg != b.neg
  match a, b with
  | .nan, _ | _, .nan => f.nanCode
  | .inf _, .inf _ => ((f.nanCode).1, NV)
  | .inf _, _ => f.enc .ne (.inf neg)
  | _, .inf _ => f.enc .ne (.fin neg 0 0)
  | .fin _ m e, .fin _ m' e' =>
    if m' = 0 then (if m = 0 then ((f.nanCode).1, NV) else ((f.enc .ne (.inf neg)).1, DZ))
    else if m = 0 then f.enc .ne (.fin neg 0 0)
    else
      let k := 128 + Nat.log2 m'
      f.round .ne neg (m * 2 ^ k / m') (e - e' - k) (m * 2 ^ k % m' ≠ 0)

/-- Whether any operand is NaN: then the result is the canonical NaN and nothing is set (03 R77). -/
def anyNan (l : List Val) : Bool := l.any Val.isNan

def fadd (fl : Bool) (a b : Half) : Half × Word :=
  let (v, w) := (dec32 fl a).add (dec32 fl b); let r := ne32 fl v; (r.1, r.2 ||| w)
def fsub (fl : Bool) (a b : Half) : Half × Word :=
  let (v, w) := (dec32 fl a).add (dec32 fl b).negate; let r := ne32 fl v; (r.1, r.2 ||| w)
def fmul (fl : Bool) (a b : Half) : Half × Word :=
  let (v, w) := (dec32 fl a).mul (dec32 fl b); let r := ne32 fl v; (r.1, r.2 ||| w)
def ffma (fl : Bool) (a b c : Half) : Half × Word :=
  let x := dec32 fl a; let y := dec32 fl b; let z := dec32 fl c
  if anyNan [x, y, z] then (0x7FC00000, 0) else
  let (p, w) := x.mul y; let (v, w') := p.add z; let r := ne32 fl v; (r.1, r.2 ||| w ||| w')
def fdiv (fl : Bool) (a b : Half) : Half × Word := flush32 fl (FP32.div (dec32 fl a) (dec32 fl b))

/-- Order of two values that are not NaN; −0 and +0 are equal (09 R188). -/
def Val.lt (a b : Val) : Bool :=
  match a, b with
  | .nan, _ | _, .nan => false
  | .inf n, .inf n' => n && !n'
  | .inf n, _ => n
  | _, .inf n => !n
  | .fin n m e, .fin n' m' e' =>
    let lo := if e < e' then e else e'
    let x : Int := (if n then -1 else 1) * (m * 2 ^ (e - lo).toNat : Nat)
    let y : Int := (if n' then -1 else 1) * (m' * 2 ^ (e' - lo).toNat : Nat)
    x < y
def Val.eqv (a b : Val) : Bool := !a.isNan && !b.isNan && !a.lt b && !b.lt a

/-- FP32 minimum and maximum: NaN gives canonical NaN, −0 lies below +0, no flag (09 R186). -/
def fminmax (fl max : Bool) (a b : Half) : Half :=
  let x := dec32 fl a; let y := dec32 fl b
  if anyNan [x, y] then 0x7FC00000
  else
    let less := x.lt y || (x.eqv y && x.neg && !y.neg)
    let c (h : Half) (v : Val) := if v.isZero then h &&& 0x80000000 else h
    if less != max then c a x else c b y

/-! ### Integer conversions (03 R64) -/

/-- Converts a value to an integer in [lo, hi]. -/
def toInt (mode : Mode) (lo hi : Int) (v : Val) : Int × Word :=
  match v with
  | .nan => (0, NV)
  | .inf n => (if n then lo else hi, NV)
  | .fin n m e =>
    let (r, nx) := if 0 ≤ e then (m * 2 ^ e.toNat, false) else dropBits mode m (-e).toNat false
    let i : Int := if n then -(r : Int) else r
    -- outside the range is judged on the exact value: beyond the bound by any amount
    let out := (if 0 ≤ e then i < lo || hi < i
      else if n then (lo.natAbs * 2 ^ (-e).toNat < m ∧ lo ≤ 0) else ((hi.toNat * 2 ^ (-e).toNat < m : Bool)))
    if out then (if n then lo else hi, NV) else (i, if nx then NX else 0)

/-! ### Scales (03 R65, R66) -/

/-- An S20 scale: its value, none for the zero scale. -/
def scaleVal (x : Nat) : Option Val :=
  let e := x / 4096 % 256
  if e = 0 then none else if e = 255 then some .nan else some (.fin false (4096 + x % 4096) ((e : Int) - 127 - 12))

/-- Element times scale: a zero scale gives +0, a NaN scale or element NaN (03 R65, R67). -/
def scaled (el : Val) (sc : Option Val) : Val :=
  match sc with | none => Val.zero | some s => (el.mul s).1

/-! ### Special functions (03 R81, log 6) -/

/-- A result that is not exact: NX, UF when zero or tiny, OF when infinite. Tiny is judged on the result's own exponent, not on
the exact value rounded with an unbounded one (03 R81, R72, log 6). -/
def inexact (fl : Bool) (y : Half) : Half × Word :=
  let tiny := bitsN y 30 23 = 0
  let w := NX ||| (if tiny then UF else 0) ||| (if bitsN y 30 0 = 0x7F800000 then OFl else 0)
  flush32 fl (y.toNat, w)

/-- The exponent of a power of two, if the value is one. -/
def pow2 (m : Nat) (e : Int) : Option Int := if m ≠ 0 && m = 2 ^ Nat.log2 m then some (e + Nat.log2 m) else none

/-- ln 2 and 1 ÷ ln 2, times 2^128, rounded down. -/
def ln2Fix : Nat := 235865763225513294137944142764154484399
def log2eFix : Nat := 490923683258796565746369346286093237521

/-- 2^r for r in [0, 1): both times 2^128, by the series of the exponential. -/
def exp2Fix (r : Nat) : Nat :=
  let t := r * ln2Fix / 2 ^ 128
  ((List.range 40).foldl (fun (p : Nat × Nat) k => (p.1 + p.2, p.2 * t / ((k + 1) * 2 ^ 128))) (0, 2 ^ 128)).1

/-- 2^x for x times 2^128, as an integer times 2^300. -/
def exp2At (x : Int) : Nat :=
  let k := x / 2 ^ 128
  exp2Fix (x % 2 ^ 128).toNat * 2 ^ (k + 172).toNat

/-- The binary digits of log2 m behind the point: m in [1, 2) times 2^128, answer times 2^100. -/
def log2Fix (m : Nat) : Nat :=
  ((List.range 100).foldl (fun (p : Nat × Nat) _ =>
    let q := p.1 * p.1 / 2 ^ 128
    if 2 ^ 129 ≤ q then (q / 2, 2 * p.2 + 1) else (q, 2 * p.2)) (m, 0)).2

/-- The integer square root, digit by digit, of a number below 2^1000. -/
def sqrtFix (n : Nat) : Nat :=
  (List.range 500).foldl (fun r i => let q := r + 2 ^ (499 - i); if q * q ≤ n then q else r) 0

/-- One unit in the last place of a magnitude given times 2^300. -/
def ulpAt (n : Nat) : Nat := 2 ^ ((if Nat.log2 n < 174 then 174 else Nat.log2 n) - 23)

/-- The result of a special function: what the implementation gives, where it lies within `bound` of the exact value
`f` (both times 2^300; `ulps` counts units in the last place of the exact value or of the result, whichever is the
larger), else the nearest value to `f`. `f` is known to one part in 2^90. -/
def bounded (y : Half) (neg : Bool) (f : Nat) (ulps bound : Nat) : Half :=
  let near : Bool := match FP32.dec y.toNat with
    | .fin n m e =>
      let a := m * 2 ^ (e + 300).toNat
      let d := if n = neg then (if a < f then f - a else a - f) else a + f
      let u := if ulpAt a < ulpAt f then ulpAt f else ulpAt a
      d ≤ ulps * u + bound + f / 2 ^ 90 + 1
    | _ => false
  if near then y else BitVec.ofNat 32 (FP32.enc .ne (.fin neg f (-300))).1

def frcp (fl : Bool) (x : Half) : Half × Word :=
  match dec32 fl x with
  | .nan => (0x7FC00000, 0)
  | .inf n => (if n then 0x80000000 else 0, 0)
  | .fin n 0 _ => (if n then 0xFF800000 else 0x7F800000, DZ)
  | .fin n m e =>
    if e = -149 && m ≤ 2097152 then (if n then 0xFF800000 else 0x7F800000, OFl ||| NX)
    else match pow2 m e with
      | some k => flush32 fl (FP32.enc .ne (.fin n 1 (-k)))
      | none =>
        let y := bounded (Config.rcp x) n (2 ^ 600 / (m * 2 ^ (e + 300).toNat)) 1 0
        -- |x| > 2^126: subnormal
        inexact fl (if 0x7E800000 < bitsN x 30 0 && bitsN y 30 23 ≠ 0 then (if n then 0x807FFFFF else 0x007FFFFF) else y)
def frsq (fl : Bool) (x : Half) : Half × Word :=
  match dec32 fl x with
  | .nan => (0x7FC00000, 0)
  | .fin n 0 _ => (if n then 0xFF800000 else 0x7F800000, DZ)
  | .inf false => (0, 0)
  | .inf true => (0x7FC00000, NV)
  | .fin true _ _ => (0x7FC00000, NV)
  | .fin false m e =>
    let y := inexact fl (bounded (Config.rsq x) false (sqrtFix (2 ^ 900 / (m * 2 ^ (e + 300).toNat))) 1 0)
    match pow2 m e with
    | some k => if k % 2 = 0 then ne32 fl (.fin false 1 (-(k / 2))) else y
    | none => y
def fexp2 (fl : Bool) (x : Half) : Half × Word :=
  match dec32 fl x with
  | .nan => (0x7FC00000, 0)
  | .inf n => (if n then 0 else 0x7F800000, 0)
  | .fin n m e =>
    let isInt := 0 ≤ e || m % 2 ^ (-e).toNat = 0
    let mag := if 0 ≤ e then m * 2 ^ (if 40 < e then 40 else e.toNat) else m / 2 ^ (-e).toNat
    let k : Int := if n then -(mag : Int) else mag
    if !n && 128 ≤ mag then (0x7F800000, OFl ||| NX)
    else if n && (149 < mag || (mag = 149 && !isInt)) then flush32 fl (0, UF ||| NX)
    else if isInt then ne32 fl (.fin false 1 k)
    else
      let f := exp2At ((if n then -1 else 1) * (m * 2 ^ (e + 300).toNat / 2 ^ 172 : Nat))
      inexact fl (if n && 126 ≤ mag then bounded (Config.exp2 x) false f 0 (2 ^ 151)
        else bounded (Config.exp2 x) false f 2 0)
def flog2 (fl : Bool) (x : Half) : Half × Word :=
  match dec32 fl x with
  | .nan => (0x7FC00000, 0)
  | .fin _ 0 _ => (0xFF800000, DZ)
  | .inf false => (0x7F800000, 0)
  | .inf true => (0x7FC00000, NV)
  | .fin true _ _ => (0x7FC00000, NV)
  | .fin false m e =>
    match pow2 m e with
    | some k => ne32 fl (Val.ofInt k)
    | none =>
      let k : Int := e + Nat.log2 m
      let f : Int := k * 2 ^ 300 + (log2Fix (m * 2 ^ (128 - Nat.log2 m)) * 2 ^ 200 : Nat)
      inexact fl (if k = -1 || k = 0 then bounded (Config.log2 x) (f < 0) f.natAbs 0 (2 ^ 278 + 2 ^ 210)
        else bounded (Config.log2 x) (f < 0) f.natAbs 1 0)
/-- e^x for x times 2^300, as an integer times 2^300. -/
def expAt (x : Int) : Nat := exp2At (x * log2eFix / 2 ^ 300)
def ftanhs (fl : Bool) (x : Half) : Half × Word :=
  match dec32 fl x with
  | .nan => (0x7FC00000, 0)
  | .inf n => (if n then 0xBF800000 else 0x3F800000, 0)
  | .fin n 0 _ => (if n then 0x80000000 else 0, 0)
  | .fin n m e =>
    if (Val.fin false m e).lt (.fin false 9 0) then
      let g := expAt (2 * (m * 2 ^ (e + 300).toNat : Nat))
      inexact fl (bounded (Config.tanhs x) n ((g - 2 ^ 300) * 2 ^ 300 / (g + 2 ^ 300)) 0 (2 ^ 290 + 2 ^ 210))
    else (if n then 0xBF800000 else 0x3F800000, NX)
def fsigms (fl : Bool) (x : Half) : Half × Word :=
  match dec32 fl x with
  | .nan => (0x7FC00000, 0)
  | .inf n => (if n then 0 else 0x3F800000, 0)
  | .fin _ 0 _ => (0x3F000000, 0)
  | .fin n m e =>
    let big (k : Nat) := !(Val.fin false m e).lt (.fin false k 0)
    if !n && big 17 then (0x3F800000, NX)
    else if n && big 88 then (0, UF ||| NX)
    else
      let g := expAt ((if n then 1 else -1) * (m * 2 ^ (e + 300).toNat : Nat))
      inexact fl (bounded (Config.sigms x) false (2 ^ 600 / (2 ^ 300 + g)) 0 (2 ^ 290 + 2 ^ 210))

/-! ### Conversions of VCVT and CVT (09 R189) -/

/-- An FP32 lane converted to the destination of a pair. -/
def convert (fl : Bool) (pr : CvtPair) (mode : Mode) (x : Half) : Half × Word :=
  let fp := dec32 fl x
  let narrow (f : Fmt) : Half × Word := let r := f.enc mode fp; (BitVec.ofNat 32 r.1, r.2)
  let wide (f : Fmt) : Half × Word :=
    flush32 fl (FP32.enc mode (f.dec (x.toNat % 2 ^ (1 + f.ew + f.fw))))
  let int (lo hi : Int) : Half × Word := let r := toInt mode lo hi fp; (BitVec.ofInt 32 r.1, r.2)
  match pr with
  | .fp32I32 => flush32 fl (FP32.enc mode (Val.ofInt x.toInt))
  | .fp32N32 => flush32 fl (FP32.enc mode (Val.ofInt x.toNat))
  | .i32Fp32 => int (-2 ^ 31) (2 ^ 31 - 1)
  | .n32Fp32 => int 0 (2 ^ 32 - 1)
  | .bf16Fp32 => narrow BF16
  | .fp32Bf16 => wide BF16
  | .fp16Fp32 => narrow FP16
  | .fp32Fp16 => wide FP16
  | .e4m3Fp32 => narrow E4M3
  | .fp32E4m3 => wide E4M3
  | .e5m2Fp32 => narrow E5M2
  | .fp32E5m2 => wide E5M2
  | .e2m1Fp32 => narrow E2M1
  | .fp32E2m1 => wide E2M1
  | .i8Fp32 => int (-128) 127
  | .fp32I8 => flush32 fl (FP32.enc mode (Val.ofInt ((x.setWidth 8).toInt)))

/-- The 32 random bits of lane `l` of pipe `q` at counter `c` (03 R73). -/
def srRnd (seed : Nat) (q l c : Nat) : Nat :=
  let z := (seed * 2 ^ 32 + q * 2 ^ 21 + l * 2 ^ 16 + c + 0x9E3779B97F4A7C15) % 2 ^ 64
  let z := ((z ^^^ (z / 2 ^ 30)) * 0xBF58476D1CE4E5B9) % 2 ^ 64
  let z := ((z ^^^ (z / 2 ^ 27)) * 0x94D049BB133111EB) % 2 ^ 64
  (z ^^^ (z / 2 ^ 31)) / 2 ^ 32

/-! ### Row statistics: the format X (03 R82, 09 R199) -/

/-- Decodes an X value. -/
def decX (x : Word) : Val :=
  let e := bitsN x 57 40
  if e = 0 then .fin (x.getLsbD 63) 0 0
  else .fin (x.getLsbD 63) (2 ^ 40 + bitsN x 39 0) ((e : Int) - 131071 - 40)

/-- RoundX, with a sticky bit. -/
def roundX (n : Bool) (m : Nat) (e : Int) (st : Bool) : Word :=
  if m = 0 then (if n then (1 : Word) <<< 63 else 0) else
  let top : Int := e + Nat.log2 m
  let q : Int := top - 40
  let m' := if q ≤ e then m * 2 ^ (e - q).toNat else m
  let k := if q ≤ e then 0 else (q - e).toNat
  let (r, _) := dropBits .ne m' k st
  let r' := if r = 2 ^ 41 then 2 ^ 40 else r
  let t := if r = 2 ^ 41 then top + 1 else top
  BitVec.ofNat 64 ((if n then 2 ^ 63 else 0) + (t + 131071).toNat * 2 ^ 40 + r' % 2 ^ 40)

/-- RoundX of an exact finite value. -/
def encX (v : Val) : Word := match v with | .fin n m e => roundX n m e false | _ => 0
def addX (a b : Val) : Word := encX (a.add b).1
def mulX (a b : Val) : Word := encX (a.mul b).1
def divX (a : Val) (n : Nat) : Word :=
  match a with
  | .fin s m e => if m = 0 then roundX s 0 0 false else
      let k := 128 + Nat.log2 n
      roundX s (m * 2 ^ k / n) (e - k) (m * 2 ^ k % n ≠ 0)
  | _ => 0

end Sys2Proof.Machine
end

