-- ==== Sys2Proof/Machine/NetOps.lean ====
section
/-! DEFINITION. Counters, routes, write-offs and the completion of messages (05 R128 to R131; 12 R263; 21 R377, R378;
23 R400 to R402; 26 R425 to R433; 27 R435 to R440). -/

namespace Sys2Proof.Machine

/-! ### Job slots and counters (05 R128 to R130) -/

def Dev.slotOf (d : Dev) (job : BitVec 16) : Option Nat := firstIdx (fun j => j.active && j.job == job) d.jobs.toList 0

def Counters.inject (c : Counters) : Counters := { c with inj := c.inj + 1, act := true }
def Counters.consume (c : Counters) : Counters := { c with con := c.con + 1, act := true }
def Counters.lose (c : Counters) : Counters := { c with woff := c.woff + 1, act := true }

/-- Changes the counter set of a tile's network interface for a job. -/
def State.onNet (s : State) (tile : BitVec 8) (job : BitVec 16) (f : Counters → Counters) : State :=
  match s.dev.slotOf job with
  | none => s
  | some j => s.onTileOf tile fun t => { t with net := modV t.net j f }
/-- Changes the counter set of a tile's copy engine for a job. -/
def State.onCop (s : State) (tile : BitVec 8) (job : BitVec 16) (f : Counters → Counters) : State :=
  match s.dev.slotOf job with
  | none => s
  | some j => s.onTileOf tile fun t => { t with cop := modV t.cop j f }
def State.onLink (s : State) (port : Nat) (f : Link → Link) : State :=
  s.onDev fun d => { d with links := modV d.links port f }
/-- Changes the counter set of a torus port for a job. -/
def State.onPort (s : State) (port : Nat) (job : BitVec 16) (f : Counters → Counters) : State :=
  match s.dev.slotOf job with
  | none => s
  | some j => s.onLink port fun l => { l with cnt := modV l.cnt j f }

/-- Modules of the partition (26 R425). -/
def Dev.modules (d : Dev) : Nat :=
  if d.ptctl.getLsbD 0 then Nat.max 1 (bitsN d.ptsize 7 0 / 2 * (bitsN d.ptsize 15 8 / 2) * bitsN d.ptsize 23 16) else 1
/-- FABRIC event: a packet without a job slot, or of a foreign partition (05 R128, 26 R429). -/
def State.fabric (s : State) (cause hdr : Word) : State := s.raiseModule 20 [cause, hdr]

/-! ### Links -/

def Link.up (l : Link) : Bool := l.lnk.getLsbD 1
def Link.down (l : Link) : Bool := l.lnk.getLsbD 2
/-- Room in the retry buffer for `n` flits. -/
def Link.room (l : Link) (n : Nat) : Bool := decide (l.retry.length + n ≤ 512)
/-- A port sends flits: each takes the next SEQ, acknowledges what has come in order, and is kept until it is acknowledged itself
(26 R430, R431). -/
def Link.send (l : Link) (fs : List Flit) : Link :=
  if fs.isEmpty then l else
  { l with tx := l.tx + BitVec.ofNat 12 fs.length, idleTx := 0
           retry := l.retry ++ fs.zipIdx.map fun (f, i) => { f with seq := l.tx + BitVec.ofNat 12 i, ack := some (l.rx - 1) } }
/-- Link-management flits go out as far as there is room. -/
def Link.drain (l : Link) : Link :=
  let n := Nat.min l.wait.length (512 - l.retry.length)
  { l.send (l.wait.take n) with wait := l.wait.drop n, sent := l.sent + n }
/-- A link-management flit. -/
def Link.manage (f : Flit) (l : Link) : Link := { l with wait := l.wait ++ [{ f with vc := 7, typ := 1 }] }.drain
/-- Flits of a packet (26 R430). -/
def Packet.flits (p : Packet) : Nat := 1 + (p.body.length + 63) / 64
/-- Virtual channel of a packet: requests, responses and control, by class (26 R432, 27 R440). -/
def Packet.vc (p : Packet) : BitVec 3 :=
  (match p.kind with | .msg | .coll => 0 | .nack | .accept => 2 | .lost | .kerf | .ended => 4) + ofBool 3 p.classB
/-- A packet goes out: a header flit with the PTID and its body flits, all on one channel (26 R429, R430). -/
def Link.put (ptid : BitVec 16) (p : Packet) (l : Link) : Link :=
  let f (i : Nat) : Flit := { vc := p.vc, typ := 0, ptid := if i = 0 then some ptid else none
                              pkt := if i + 1 = p.flits then some p else none }
  l.send ((List.range p.flits).map f)

/-! ### CRC (26 R430) -/

/-- CRC-32C, a byte at a time, least significant bit first. -/
def crcByte (c : Half) (b : Byte) : Half :=
  (List.range 8).foldl (fun c _ => if c.getLsbD 0 then (c >>> 1) ^^^ 0x82F63B78 else c >>> 1) (c ^^^ b.setWidth 32)
def crc32c (l : List Byte) : Half := ~~~(l.foldl crcByte (BitVec.allOnes 32))
/-- The CRC of a flit: its 64 payload bytes and trailer bits [31:0]. -/
def flitCrc (payload : List Byte) (trailer : Word) : Half :=
  crc32c (payload ++ (List.range 4).map fun i => BitVec.ofNat 8 (trailer.toNat / 2 ^ (8 * i)))
/-- A flit arrives whole: its CRC holds, and its TYPE is 0 or 1. -/
def flitGood (payload : List Byte) (trailer : Word) : Bool :=
  payload.length = 64 && bitsN trailer 3 0 ≤ 1 && (flitCrc payload trailer).toNat = bitsN trailer 63 32
/-- The trailer of a whole flit whose bits [31:0] are given. -/
def flitTrailer (payload : List Byte) (low : Half) : Word := flitCrc payload (low.setWidth 64) ++ low

/-! ### Ports (26 R426, R428) -/

/-- A port carries flits: in a dimension of size 2 in X or Y, and of size 1 in Z, the external ports of an enabled partition are
disabled. -/
def Dev.portOn (d : Dev) (port : Nat) : Bool :=
  !d.ptctl.getLsbD 0 || match port % 6 with
    | 2 => 2 < bitsN d.ptsize 7 0
    | 3 => 2 < bitsN d.ptsize 15 8
    | 4 | 5 => 1 < bitsN d.ptsize 23 16
    | _ => true
/-- The clock of a die is stopped (27 R446). -/
def Dev.halted (d : Dev) (die : Nat) : Bool := (d.diestat.getD die 0).getLsbD 0
def State.linkOf (s : State) (port : Nat) : Link := s.dev.links.getD port {}
/-- Traffic that is counted, and guarded by kerfs: messages and the exchanges of collectives (05 R128, R130; 21 R377). -/
def Packet.guarded (p : Packet) : Bool := p.kind == .msg || p.kind == .coll
/-- A LOST notice to the source of a packet written off at a port (27 R440); only that of a message ends a KSEND. -/
def lostNotice (p : Packet) (port : Nat) : Packet :=
  { p with kind := .lost, ctx := if p.kind = .msg then p.ctx else 0, send := if p.kind = .msg then p.send else 0
           dst := p.origin, origin := 0, pos := portTile port, classB := false, dim := 3, body := [], bpois := [] }

/-- A LOST notice meets a down port and is discarded: its KSEND keeps the port (27 R440). -/
def State.dropNotice (s : State) (port : Nat) (p : Packet) : State :=
  s.within p.ctx fun s => s.onCtx fun c =>
    { c with sends := c.sends.map fun x => if x.id = p.send then { x with lost := some port } else x }
/-- The notice of a packet written off; of a notice there is none. -/
def State.notify (s : State) (port : Nat) (p : Packet) : State :=
  if p.kind = .lost then s.dropNotice port p else s.onDev fun d => { d with packets := d.packets ++ [lostNotice p port] }
/-- Writes off whole packets at a port: WOFF of their jobs and of LNK, LOST notices (05 R131, 27 R438, R440). -/
def State.writeOff (s : State) (port : Nat) : List Packet → State
  | [] => s
  | p :: ps =>
    let s := if p.guarded then s.onPort port p.job Counters.lose else s
    let s := s.onLink port fun l => { l with lnk := satAdd l.lnk 32 32 1 }
    (s.notify port p).writeOff port ps
/-- LINKLOSS, counted in UECNT (27 R437, R447). -/
def State.linkLoss (s : State) (port n : Nat) (job : BitVec 16) : State :=
  (s.onDev fun d => { d with uecnt := satAdd d.uecnt 0 16 1 }).raiseModule 19
    [BitVec.ofNat 64 (port % 6 + port / 6 * 8), BitVec.ofNat 64 n, job.setWidth 64]
/-- Writes off the retry buffer of a port and reports it. -/
def State.flushRetry (s : State) (port : Nat) : State :=
  match (s.linkOf port).retry.filterMap (·.pkt) with
  | [] => s.onLink port fun l => { l with retry := [] }
  | p :: ps => (((s.onLink port fun l => { l with retry := [] }).writeOff port (p :: ps))).linkLoss port (ps.length + 1) p.job
/-- A packet reaches a link that is down: written off there, an event for every 4,096 (27 R439). -/
def State.lossAtDown (s : State) (port : Nat) (p : Packet) : State :=
  let n := (s.linkOf port).lost + 1
  let j := if n = 1 then p.job else (s.linkOf port).lostJob
  let s := (s.writeOff port [p]).onLink port fun l => { l with lost := if n = 4096 then 0 else n, lostJob := j }
  if n = 4096 then s.linkLoss port 4096 j else s

/-! ### Completion of a KSEND (12 R261, R263; 24 R409) -/

/-- A send completes with a status: TOCNT changes as at every return (05 R111, R118), a record on OK with REC, always
otherwise; an expiry result leaves its record in the bore log. `pre` happens with it. -/
def State.sendDone (s : State) (uid id : Nat) (st : Word) (pre : State → State := fun s => s) : State :=
  s.within uid fun s =>
    match s.ctx.sends.find? (·.id == id) with
    | none => s
    | some x =>
      let fin (s : State) : State := (pre s).onCtx fun c =>
        let c := { (c.count st x.poll (bitsN c.csr.escn 15 0)).1 with sends := c.sends.filter (·.id != id) }
        if codeOf st ≠ 0 || x.wantRec then
          c.postRec st (recInfo 5 37 ((if x.wantRec then 16 else 0) + x.tag.toNat % 16) x.tag.toNat 0)
        else c
      if codeOf st = sFULL then s.logged (expireRec s.ctx 5 37 sFULL x.blk) true allBits fin else fin s

/-- Details of 12 R263 and 17 R323, 21 R378. -/
def stNODEST : Word := fault 0x082 0
def stLOST : Word := fault 0x084 0
def stKERF : Word := fault 0x085 0

/-! ### Kerfs (21 R377, R378; 23 R401, R402) -/

/-- A register of a tile's kerf lets a side through a port. -/
def Tile.kerfPass (t : Tile) (d : BitVec 2) (side : BitVec 8) : Bool :=
  let k := t.kerf.getD d.toNat 0
  !k.getLsbD 9 || (k.getLsbD 8 && bitsN k 7 0 == side.toNat)
/-- Records a drop in SPREC when it is free, with its event. -/
def State.recordDrop (s : State) (tile : BitVec 8) (job : BitVec 16) (cnum : Nat) (w0 w1 : Word) : State :=
  if ((s.tileOf tile).sprec.getD 0 0).getLsbD 63 then s
  else
    let v := w0 ||| ((1 : Word) <<< 63)
    (s.onTileOf tile fun t => { t with sprec := #v[v, w1] }).raiseTile tile job cnum 5 [v, w1]

/-- An answer to the source of a message, from the interface at which it stands. -/
def Packet.answer (p : Packet) (k : PktKind) (own : BitVec 24) : Packet :=
  { p with kind := k, dst := p.srcMod ++ p.src, origin := own ++ p.pos, classB := false, dim := 3, body := [], bpois := [] }
/-- Changes the participant of a collective whose exchange has a number. -/
def State.onPart (s : State) (id : Nat) (f : CollPart → CollPart) : State :=
  s.onDev fun d => { d with colls := d.colls.map fun c => { c with parts := c.parts.map fun x => if x.out = some id then f x else x } }
/-- A message or an exchange is dropped at a port of a tile; a sender in another module learns it by a notice, a participant from its
copy engine (21 R378). -/
def State.kerfDrop (s : State) (tile : BitVec 8) (d : BitVec 2) (p : Packet) : State :=
  let s := s.onTileOf tile fun t => { t with spoil := modV t.spoil d.toNat fun w => satAdd w 0 32 1 }
  let w0 := BitVec.ofNat 64 (p.job.toNat * 2 ^ 32 + p.side.toNat * 2 ^ 24 + p.src.toNat * 2 ^ 16 + p.cnum.toNat * 2 ^ 14
    + (if p.kind = .coll then 2 ^ 12 else 0) + d.toNat * 2 ^ 9)
  let s := s.recordDrop tile p.job p.cnum.toNat w0 (BitVec.ofNat 64 (p.dinst.toNat * 2 ^ 32 + p.ring.toNat * 2 ^ 13))
  if p.kind = .coll then (s.onNet p.src p.job Counters.lose).onPart p.send fun x => { x with kerf := true }
  else if p.srcMod = (s.tileOf tile).module then (s.onNet p.src p.job Counters.lose).sendDone p.ctx p.send stKERF
  else s.onDev fun d => { d with packets := d.packets ++ [({ p with pos := tile }).answer .kerf (s.tileOf tile).module] }

end Sys2Proof.Machine
end

