-- ==== Sys2Proof/Machine/Regs.lean ====
section
/-! DEFINITION. Registers: CSRs (13 R287 to R289), context images and CTXCTL (21 R367, R368, 22 R391), tile pages
(21 R377 to R382) and the module page (21 R368, 26 R427, 27 R438 to R447), with what a write of them does. -/

namespace Sys2Proof.Machine

/-- Replaces bits [hi:lo] of a word. -/
def putBits (w : Word) (hi lo : Nat) (v : Nat) : Word :=
  let n := hi - lo + 1
  BitVec.ofNat 64 (w.toNat - w.toNat / 2 ^ lo % 2 ^ n * 2 ^ lo + v % 2 ^ n * 2 ^ lo)
/-- Bits [hi:lo] in place, the others 0. -/
def keepBits (v : Word) (hi lo : Nat) : Word := BitVec.ofNat 64 (bitsN v hi lo * 2 ^ lo)

/-! ### CSRs -/

def csrRead (c : Ctx) (t : Tile) : Csr → Word
  | .tileid => BitVec.ofNat 64 (t.module.toNat * 256 + t.num.toNat)
  | .ctxid => BitVec.ofNat 64 ((if c.id.sup then 256 else 0) + c.id.num.toNat)
  | .lposa => c.csr.lposa
  | .lposb => c.csr.lposb
  | .largs => c.csr.largs
  | .fpmode => c.csr.fpmode
  | .srctr => c.csr.srctr
  | .fixord => c.csr.fixord
  | .budget => c.csr.budget
  | .dceil => c.csr.dceil
  | .tocnt => c.csr.tocnt
  | .escn => c.csr.escn
  | .trapvec => c.csr.trapvec
  | .loadvec => c.csr.loadvec
  | .hangiv => c.csr.hangiv
  | .debug => c.csr.debug
  | .logbase => c.csr.logbase
  | .loglim => c.csr.loglim
  | .logpos => c.logposRead
  | .bkey => c.csr.bkey
  | .space => c.csr.space
  | .keyslot => c.csr.keyslot
  | .waveper => t.waveper
  | .sage => t.sage

/-- A write of LOGLIM (24 R406). -/
def Ctx.writeLoglim (c : Ctx) (v : Word) : Ctx :=
  let mode := if bitsN v 62 61 = 1 then 1 else 0
  let n := bitsN v 23 0
  let n := if n = 0 then 0 else if n < 64 then 64 else if 2 ^ 23 < n then 2 ^ 23 else n
  let changed := mode ≠ bitsN c.csr.loglim 62 61
  let c := { c with csr := { c.csr with loglim := BitVec.ofNat 64 (bitsN v 63 63 * 2 ^ 63 + mode * 2 ^ 61 + n) } }
  if changed then { c with csr := { c.csr with logpos := 0 }, log := { c.log with isHeld := false, used := [] } } else c

/-- A write of LOGPOS (24 R406, R407). -/
def Ctx.writeLogpos (c : Ctx) (v : Word) : Ctx :=
  if c.logSteer then
    let n := bitsN v 47 24
    if (n + 2 ^ 24 - c.logWR) % 2 ^ 24 ≤ c.logN - c.logUsed then c.setWR n else c
  else
    let n := bitsN v 23 0
    if (n + 2 ^ 24 - c.logRD) % 2 ^ 24 ≤ c.logUsed then c.setRD n else c

/-- A CSRW that has passed its privilege check, field by field (00 R5); the context and the tile are in focus. -/
def State.csrWrite (s : State) (k : Csr) (v : Word) : State :=
  match k with
  | .tileid => s.onTile fun t => { t with module := BitVec.ofNat 24 (bitsN v 31 8) }
  | .ctxid | .lposa | .lposb | .largs | .budget => s
  | .fpmode => s.onCsr fun c =>
    let f := keepBits v 63 32 ||| keepBits v 0 0 ||| (keepBits c.fpmode 13 8 &&& ~~~(keepBits v 13 8))
    { c with fpmode := f }
  | .srctr => s.onCsr fun c => { c with srctr := v }
  | .fixord => s.onCsr fun c => { c with fixord := keepBits v 0 0 }
  | .dceil => s.onCsr fun c => { c with dceil := if bitsN v 62 0 < 16 then 16 else keepBits v 62 0 }
  | .tocnt => s.onCsr fun c => { c with tocnt := keepBits v 15 0 }
  | .escn => s.onCsr fun c => { c with escn := keepBits v 15 0 }
  | .trapvec => s.onCsr fun c => { c with trapvec := keepBits v 55 2 }
  | .loadvec => s.onCsr fun c => { c with loadvec := keepBits v 55 2 }
  | .hangiv => s.onCsr fun c => { c with hangiv := if bitsN v 31 0 < 256 then 256 else keepBits v 31 0 }
  | .debug => s.onCsr fun c => { c with debug := keepBits v 1 0 }
  | .logbase => s.onCsr fun c => { c with logbase := keepBits v 55 5 }
  | .loglim => s.onCtx fun c => c.writeLoglim v
  | .logpos => s.onCtx fun c => c.writeLogpos v
  | .bkey => s.onCsr fun c => { c with bkey := keepBits v 11 0 }
  | .space => s.onCsr fun c => { c with space := keepBits v 15 0 }
  | .keyslot => s.onCsr fun c => { c with keyslot := keepBits v 8 0 }
  | .waveper => s.onTile fun t => { t with waveper := if bitsN v 19 0 < 256 then 256 else keepBits v 19 0 }
  | .sage => s.onTile fun t => { t with sage := if bitsN v 15 0 = 0 then 1 else keepBits v 15 0 }

/-! ### Context images -/

/-- The context with a number on a tile. -/
def State.ctxAt (s : State) (tile : BitVec 8) (num : BitVec 2) : Option Ctx :=
  s.allCtxs.find? fun c => c.id.tile == tile && c.id.num == num

/-- CTXCTL (22 R391). -/
def Ctx.ctxctl (c : Ctx) : Word :=
  BitVec.ofNat 64 (c.why * 4 + (if c.frozen then 2 else 0) + (if c.csr.holdSup then 1 else 0))
def Ctx.hold (c : Ctx) : Ctx := { c with csr := { c.csr with holdSup := true } }
/-- Writing HOLD = 0 releases every hold but a flood hold. -/
def Ctx.unhold (c : Ctx) : Ctx :=
  { c with csr := { c.csr with holdSup := false, holdEsc := false, holdBrk := false, faultHold := false } }

def State.ctxHold (s : State) (tile : BitVec 8) (num : BitVec 2) : State :=
  match s.ctxAt tile num with
  | some c => s.within c.id.uid (·.onCtx Ctx.hold)
  | none => s
def State.ctxRelease (s : State) (tile : BitVec 8) (num : BitVec 2) : State :=
  match s.ctxAt tile num with
  | some c => s.within c.id.uid (·.onCtx Ctx.unhold)
  | none => s
/-- Blocks dispatched before a store to the image of the context in focus go on seeing the old value. -/
def State.keepOld (s : State) (k : Csr) : State :=
  let old := csrRead s.ctx s.tile k
  let keep (b : Block) : Block := if b.old.any (·.1 == k) then b else { b with old := b.old ++ [(k, old)] }
  let note (f : Firing) : Firing := if f.phase = .run then { f with blk := keep f.blk, ahead := f.ahead.map keep } else f
  { s with fir := note s.fir, ctx := { s.ctx with firs := s.ctx.firs.map note } }
/-- A store to a register of a context image acts as a CSRW by a supervisor (21 R368). -/
def State.imageStore (s : State) (tile : BitVec 8) (num : BitVec 2) (k : Csr) (v : Word) : State :=
  match s.ctxAt tile num with
  | some c => s.within c.id.uid fun s => (s.keepOld k).csrWrite k v
  | none => s
def State.imageRead (s : State) (tile : BitVec 8) (num : BitVec 2) (o : Nat) : Word :=
  match s.ctxAt tile num with
  | none => 0
  | some c =>
    if o = 0xF00 then c.ctxctl
    else if o % 8 = 0 then
      match Csr.ofNum (o / 8) with
      | some k => csrRead c (s.tileOf tile) k
      | none => 0
    else 0

/-! ### The module page -/

/-- KEYCMD LOAD and CLEAR (21 R374); each clears KEYDATA. -/
def State.keyLoadOp (s : State) (slot : BitVec 9) : State :=
  s.onDev fun d => { d with
    keys := setKey slot.toNat (BitVec.ofNat 512 ((d.keydata.toList.zipIdx).foldl (fun n (w, i) => n + w.toNat * 2 ^ (64 * i)) 0)) d.keys
    keydata := Vector.replicate 8 0 }
def State.keyClearOp (s : State) (slot : BitVec 9) : State :=
  s.onDev fun d => { d with keys := d.keys.filter (·.1 != slot.toNat), keydata := Vector.replicate 8 0 }

/-- Sizes and position of a partition (26 R425, R428). -/
def partitionOk (size pos : Word) : Bool :=
  let nx := bitsN size 7 0
  let ny := bitsN size 15 8
  let nz := bitsN size 23 16
  nx % 2 = 0 && ny % 2 = 0 && 2 ≤ nx && nx ≤ 64 && 2 ≤ ny && ny ≤ 64 && 1 ≤ nz && nz ≤ 24
    && bitsN pos 7 0 < nx / 2 && bitsN pos 15 8 < ny / 2 && bitsN pos 23 16 < nz

/-- The firmware writes TILEID.MODULE of every tile (26 R425). -/
def State.setModule (s : State) (m : BitVec 24) : State :=
  (List.range 256).foldl (fun s t => s.onTileOf (BitVec.ofNat 8 t) fun t => { t with module := m }) s

/-- Ends every KSEND whose LOST notice was discarded, here or, as is free, in another module (27 R440, log 113). -/
def State.endLost (s : State) (p : Nat → Bool) (far : Bool) : State :=
  (s.allCtxs.flatMap fun c => (c.sends.filter fun x =>
      (match x.lost with | some l => p l | none => false) || (far && x.away && x.flying && Config.noticeGone c.id.uid x.id)).map
    fun x => (c.id.uid, x.id)).foldl (fun s (u, i) => s.sendDone u i stLOST) s

/-- A write of PTCTL (26 R427, R428). -/
def State.ptctlWrite (s : State) (v : Word) : State :=
  let d := s.dev
  let w := putBits (d.ptctl &&& ~~~(keepBits v 1 1)) 31 16 (bitsN v 31 16)
  if v.getLsbD 0 then
    if d.ptctl.getLsbD 0 then s.onDev fun d => { d with ptctl := w }
    else if partitionOk d.ptsize d.ptpos then
      let nx := bitsN d.ptsize 7 0
      let ny := bitsN d.ptsize 15 8
      (s.onDev fun d => { d with ptctl := w ||| 1 }).setModule
        (BitVec.ofNat 24 (bitsN d.ptpos 7 0 + nx / 2 * (bitsN d.ptpos 15 8 + ny / 2 * bitsN d.ptpos 23 16)))
    else s.onDev fun d => { d with ptctl := w ||| 2 }
  else
    let s := s.onDev fun d => { d with ptctl := w &&& ~~~(1 : Word) }
    let s := (List.range 24).foldl (fun s p => if isExternal p then s.flushRetry p else s) s
    s.endLost (fun _ => true) true

/-- A flood reaches a die: the first time it is applied to the tenant contexts of the die and forwarded on every up port but the
one it came by; DONE says that every die of the module has applied the latest flood, and the last of them raises FREEZE
(27 R441, R442). -/
def State.floodAt (s : State) (die : BitVec 2) (id : BitVec 16) (thaw : Bool) (by_ : Option Nat) : State :=
  let got (s : State) : List Flood := s.dev.floods.filter fun f => f.id == id && f.thaw == thaw
  let done (s : State) : State :=
    s.onDev fun d => { d with ptfrz := keepBits d.ptfrz 47 32 ||| (if (got s).length = 4 then 4 else 0) }
  if (got s).any (·.die == die) then done s else
  let mine (c : Ctx) : Bool := !c.id.sup && c.id.present && tDie c.id.tile == die.toNat
    && (if thaw then c.csr.holdFlood.contains id else !c.csr.holdFlood.contains id)
  let n := (s.allCtxs.filter mine).length
  let upd (c : Ctx) : Ctx := if mine c then
      { c with csr := { c.csr with holdFlood :=
          if thaw then c.csr.holdFlood.filter (· != id) else c.csr.holdFlood ++ [id] } } else c
  let s := { s with ctx := upd s.ctx, ctxs := s.ctxs.map upd }
  let out := (List.range 24).filter fun p => p / 6 = die.toNat && (s.linkOf p).up && by_ != some p
    && (!isExternal p || s.dev.ptctl.getLsbD 0) && s.dev.portOn p
  let s := out.foldl (fun s p => s.onLink p (Link.manage { flood := some (id, thaw) })) s
  let s := done (s.onDev fun d => { d with floods := d.floods ++ [{ die := die, id := id, thaw := thaw, changed := n }] })
  if (got s).length = 4 then
    s.raiseModule 23
      [BitVec.ofNat 64 (id.toNat + (if thaw then 65536 else 0)), BitVec.ofNat 64 ((got s).foldl (fun n f => n + f.changed) 0)]
  else s
/-- A write of PTFRZ with OP 1 or 2 starts a flood, at the die of the writer. -/
def State.floodStart (s : State) (die : BitVec 2) (id : BitVec 16) (thaw : Bool) : State :=
  (s.onDev fun d => { d with ptfrz := BitVec.ofNat 64 (id.toNat * 2 ^ 32) }).floodAt die id thaw none
def State.ptfrzWrite (s : State) (die : BitVec 2) (v : Word) : State :=
  let id := BitVec.ofNat 16 (bitsN v 47 32)
  if bitsN v 1 0 = 1 then s.floodStart die id false
  else if bitsN v 1 0 = 2 then s.floodStart die id true
  else s.onDev fun d => { d with ptfrz := keepBits v 47 32 ||| keepBits d.ptfrz 2 2 }

/-- RETRAIN (27 R438, R439): the training itself ends with row LINK_TRAINED. -/
def State.retrainOp (s : State) (port : Nat) : State :=
  if (s.linkOf port).down then s.onLink port fun l => { l with training := true } else s

/-- The word of PWRCAP that a write stores (27 R445). -/
def pwrcapOf (v : Word) : Word :=
  let l := bitsN v 31 16
  BitVec.ofNat 64 ((if l < 500 then 500 else if 4000 < l then 4000 else l) * 2 ^ 16 + bitsN v 0 0)

/-- Registers of the module page, which BAR0 shows at the same offsets. -/
def State.moduleRead (s : State) (o : Nat) : Word :=
  let d := s.dev
  if o = 0x200 then d.sptbase else if o = 0x208 then d.profbase else if o = 0x210 then d.plbase
  else if o = 0x218 then d.keycmd
  else if o = 0x400 then d.ptctl else if o = 0x408 then d.ptsize else if o = 0x410 then d.ptpos
  else if o = 0x418 then d.ptfrz else if o = 0x420 then d.kaper
  else if 0x500 ≤ o ∧ o < 0x5C0 ∧ o % 8 = 0 then (s.linkOf ((o - 0x500) / 8)).lnk
  else if o = 0x600 then d.pwrcap
  else if 0x608 ≤ o ∧ o < 0x628 ∧ o % 8 = 0 then d.diestat.getD ((o - 0x608) / 8) 0
  else if o = 0x640 then d.cecnt else if o = 0x648 then d.uecnt
  else 0

def State.moduleWrite (s : State) (die : BitVec 2) (o : Nat) (v : Word) : State :=
  if o = 0x200 then s.onDev fun d => { d with sptbase := keepBits v 47 20 }
  else if o = 0x208 then s.onDev fun d => { d with profbase := keepBits v 47 13 }
  else if o = 0x210 then s.onDev fun d => { d with plbase := keepBits v 47 23 }
  else if o = 0x218 then
    let s := s.onDev fun d => { d with keycmd := keepBits v 10 0 }
    let slot := BitVec.ofNat 9 (bitsN v 8 0)
    match bitsN v 10 9 with
    | 1 => s.keyLoadOp slot
    | 2 => s.keyClearOp slot
    | _ => s
  else if 0x220 ≤ o ∧ o < 0x260 ∧ o % 8 = 0 then s.onDev fun d => { d with keydata := setV d.keydata ((o - 0x220) / 8) v }
  else if o = 0x400 then s.ptctlWrite v
  else if o = 0x408 then
    if s.dev.ptctl.getLsbD 0 then s else s.onDev fun d => { d with ptsize := keepBits v 23 0 }
  else if o = 0x410 then
    if s.dev.ptctl.getLsbD 0 then s else s.onDev fun d => { d with ptpos := keepBits v 23 0 }
  else if o = 0x418 then s.ptfrzWrite die v
  else if o = 0x420 then s.onDev fun d => { d with kaper := if bitsN v 31 0 < 65536 then 65536 else keepBits v 31 0 }
  else if 0x500 ≤ o ∧ o < 0x5C0 ∧ o % 8 = 0 then
    if v.getLsbD 3 then s.retrainOp ((o - 0x500) / 8) else s
  else if o = 0x600 then s.onDev fun d => { d with pwrcap := pwrcapOf v }
  else if 0x608 ≤ o ∧ o < 0x628 ∧ o % 8 = 0 then
    let clr (w : Word) : Word := if v.getLsbD 0 && bitsN w 47 40 < 95 then w &&& ~~~(1 : Word) else w
    s.onDev fun d => { d with diestat := modV d.diestat ((o - 0x608) / 8) clr }
  else if o = 0x640 then s.onDev fun d => { d with cecnt := v }
  else if o = 0x648 then s.onDev fun d => { d with uecnt := keepBits v 47 0 }
  else s

/-! ### Tile pages -/

/-- Slice of a TLBISO block on a tile (21 R381). -/
def isoTile (t : BitVec 8) : Bool := tX t % 2 = 0 && tY t % 2 = 0
def sliceNo (t : BitVec 8) : BitVec 6 := BitVec.ofNat 6 (16 * tDie t + 4 * (tY t / 2) + tX t / 2)

def slottMask : Word := 0x01FF01FF01FF01FF
/-- A write of TLBISO invalidates every entry of the slice (21 R381). -/
def State.tlbisoOp (s : State) (t : BitVec 8) (w : Nat) (v : Word) : State :=
  if !isoTile t then s else
  let v := if w = 1 then keepBits v 8 0 else if 2 ≤ w then v &&& slottMask else v
  (s.onTileOf t fun x => { x with tlbiso := setV x.tlbiso w v }).onDev fun d =>
    { d with tlb := d.tlb.filter (·.slice != sliceNo t) }

/-- A register of a tile page. A context image is in reach only from its own tile (21 R368); from another it reads 0 and ignores
writes, as that of an absent context (log 108). -/
def State.tileRead (s : State) (p : BitVec 8) (o : Nat) : Word :=
  let t := s.tileOf p
  if o < 0x4000 then (if p = s.ctx.id.tile then s.imageRead p (BitVec.ofNat 2 (o / 0x1000)) (o % 0x1000) else 0)
  else if 0x8000 ≤ o ∧ o < 0x8020 ∧ o % 8 = 0 then t.kerf.getD ((o - 0x8000) / 8) 0
  else if 0x8020 ≤ o ∧ o < 0x8040 ∧ o % 8 = 0 then t.spoil.getD ((o - 0x8020) / 8) 0
  else if 0x8040 ≤ o ∧ o < 0x80C0 ∧ o % 8 = 0 then (t.slott.getD ((o - 0x8040) / 32) (Vector.replicate 4 0)).getD ((o - 0x8040) / 8 % 4) 0
  else if o = 0x8100 then t.sprec.getD 0 0 else if o = 0x8108 then t.sprec.getD 1 0
  else if 0x8180 ≤ o ∧ o < 0x81B0 ∧ o % 8 = 0 then (if isoTile p then t.tlbiso.getD ((o - 0x8180) / 8) 0 else 0)
  else if o = 0xC000 then t.ckerf else if o = 0xC008 then t.alloc
  else if 0xC010 ≤ o ∧ o < 0xC030 ∧ o % 8 = 0 then t.slabm.getD ((o - 0xC010) / 8) 0
  else if o = 0xC030 then t.cspoil
  else 0

def State.tileWrite (s : State) (p : BitVec 8) (o : Nat) (v : Word) : State :=
  if o < 0x4000 then
    let n := BitVec.ofNat 2 (o / 0x1000)
    let i := o % 0x1000
    if p ≠ s.ctx.id.tile then s
    else if i = 0xF00 then (if v.getLsbD 0 then s.ctxHold p n else s.ctxRelease p n)
    else if i % 8 = 0 then
      match Csr.ofNum (i / 8) with
      | some k => s.imageStore p n k v
      | none => s
    else s
  else if 0x8000 ≤ o ∧ o < 0x8020 ∧ o % 8 = 0 then
    s.onTileOf p fun t => { t with kerf := setV t.kerf ((o - 0x8000) / 8) (keepBits v 10 0) }
  else if 0x8020 ≤ o ∧ o < 0x8040 ∧ o % 8 = 0 then
    s.onTileOf p fun t => { t with spoil := setV t.spoil ((o - 0x8020) / 8) (keepBits v 31 0) }
  else if 0x8040 ≤ o ∧ o < 0x80C0 ∧ o % 8 = 0 then
    s.onTileOf p fun t =>
      let l := setV (t.slott.getD ((o - 0x8040) / 32) (Vector.replicate 4 0)) ((o - 0x8040) / 8 % 4) (v &&& slottMask)
      { t with slott := setV t.slott ((o - 0x8040) / 32) l }
  else if o = 0x8100 then
    s.onTileOf p fun t => { t with sprec := modV t.sprec 0 fun w => w &&& ~~~(keepBits v 63 63) }
  else if 0x8180 ≤ o ∧ o < 0x81B0 ∧ o % 8 = 0 then s.tlbisoOp p ((o - 0x8180) / 8) v
  else if o = 0xC000 then s.onTileOf p fun t => { t with ckerf := keepBits v 47 0 }
  else if o = 0xC008 then s.onTileOf p fun t => { t with alloc := keepBits v 0 0 }
  else if 0xC010 ≤ o ∧ o < 0xC030 ∧ o % 8 = 0 then
    s.onTileOf p fun t => { t with slabm := setV t.slabm ((o - 0xC010) / 8) (keepBits v 47 0) }
  else if o = 0xC030 then s.onTileOf p fun t => { t with cspoil := keepBits v 31 0 }
  else s

/-- A control page: 0 to 255 the tiles, 256 the module (21 R367). -/
def State.ctlRead (s : State) (page o : Nat) : Word :=
  if page < 256 then s.tileRead (BitVec.ofNat 8 page) o else s.moduleRead o
def State.ctlWrite (s : State) (page o : Nat) (v : Word) : State :=
  if page < 256 then s.tileWrite (BitVec.ofNat 8 page) o v
  else s.moduleWrite (BitVec.ofNat 2 (tDie s.ctx.id.tile)) o v

/-- A register of a control page, other than those of context images, with a field that only a supervisor may write (00 R5; 21 R368, R377,
R381, R382; 26 R427; 27 R438, R441, R445, R447). -/
def ctlWs (page o : Nat) : Bool :=
  o % 8 = 0 && if page < 256 then
    (0x8000 ≤ o && o < 0x80C0) || (0x8180 ≤ o && o < 0x81B0) || (0xC000 ≤ o && o < 0xC038)
  else
    (0x200 ≤ o && o < 0x260) || (0x400 ≤ o && o < 0x428) || (0x500 ≤ o && o < 0x5C0) || o = 0x600 || o = 0x640 || o = 0x648

end Sys2Proof.Machine
end

