-- ==== Sys2Proof/Machine/Scalar.lean ====
section
/-! DEFINITION. Class S: scalar, constant and control-flow instructions (08 R165 to R181). -/

namespace Sys2Proof.Machine

abbrev Out := Host.Outcome State Fault Refusal

/-! ### Results by width (08 R167 to R171) -/

/-- The 32-bit or 64-bit result, extended: zeros when `z`, else copies of the sign. -/
def extW (w : Width) (z : Bool) (x : Word) : Word :=
  match w with
  | .w64 => x
  | .w32 => if z then (x.setWidth 32).setWidth 64 else (x.setWidth 32).signExtend 64

/-- Signed and unsigned reading of an operand. -/
def sOf (w : Width) (x : Word) : Int := match w with | .w64 => x.toInt | .w32 => (x.setWidth 32).toInt
def uOf (w : Width) (x : Word) : Nat := match w with | .w64 => x.toNat | .w32 => (x.setWidth 32).toNat
def bitsOf (w : Width) : Nat := match w with | .w64 => 64 | .w32 => 32
/-- Shift count: b[5:0] or b[4:0]. -/
def shOf (w : Width) (b : Word) : Nat := b.toNat % bitsOf w
def wOfInt (i : Int) : Word := BitVec.ofInt 64 i
def wOfNat (n : Nat) : Word := BitVec.ofNat 64 n
def wOfBool (b : Bool) : Word := ofBool 64 b

def aluAdd (w : Width) (a b : Word) : Word := extW w false (a + b)
def aluSub (w : Width) (a b : Word) : Word := extW w false (a - b)
def aluMul (w : Width) (a b : Word) : Word := extW w false (a * b)
def aluMulh (w : Width) (a b : Word) : Word := extW w false (wOfInt (sOf w a * sOf w b / 2 ^ bitsOf w))
def aluMulhn (w : Width) (a b : Word) : Word := extW w true (wOfNat (uOf w a * uOf w b / 2 ^ bitsOf w))
/-- Quotient and remainder of 08 R169, signed. -/
def aluDiv (w : Width) (a b : Word) : Word :=
  let x := sOf w a; let y := sOf w b
  extW w false (wOfInt (if y = 0 then -1 else x.tdiv y))
def aluRem (w : Width) (a b : Word) : Word :=
  let x := sOf w a; let y := sOf w b
  extW w false (wOfInt (if y = 0 then x else x - x.tdiv y * y))
def aluDivn (w : Width) (a b : Word) : Word :=
  let x := uOf w a; let y := uOf w b
  extW w true (wOfNat (if y = 0 then 2 ^ bitsOf w - 1 else x / y))
def aluRemn (w : Width) (a b : Word) : Word :=
  let x := uOf w a; let y := uOf w b
  extW w true (wOfNat (if y = 0 then x else x % y))
def aluShl (w : Width) (a b : Word) : Word := extW w false (a <<< shOf w b)
def aluShr (w : Width) (a b : Word) : Word := extW w true (wOfNat (uOf w a / 2 ^ shOf w b))
def aluSar (w : Width) (a b : Word) : Word := extW w false (wOfInt (sOf w a / 2 ^ shOf w b))
def aluMin (w : Width) (a b : Word) : Word := extW w false (if sOf w a ≤ sOf w b then a else b)
def aluMax (w : Width) (a b : Word) : Word := extW w false (if sOf w a ≤ sOf w b then b else a)
def aluMinn (w : Width) (a b : Word) : Word := extW w true (if uOf w a ≤ uOf w b then a else b)
def aluMaxn (w : Width) (a b : Word) : Word := extW w true (if uOf w a ≤ uOf w b then b else a)
/-- Leading zeros of the low `n` bits of a number. -/
def clzN (n x : Nat) : Nat := if x = 0 then n else n - 1 - Nat.log2 x
def popN : Nat → Nat → Nat
  | 0, _ => 0
  | n + 1, x => x % 2 + popN n (x / 2)
def aluClz (w : Width) (a : Word) : Word := wOfNat (clzN (bitsOf w) (uOf w a))
def aluPopc (w : Width) (a : Word) : Word := wOfNat (popN 64 (uOf w a))
def aluSext (k : ExtFrom) (a : Word) : Word :=
  match k with
  | .b8 => (a.setWidth 8).signExtend 64 | .b16 => (a.setWidth 16).signExtend 64
  | .b32 => (a.setWidth 32).signExtend 64
def aluZext (k : ExtFrom) (a : Word) : Word :=
  match k with
  | .b8 => (a.setWidth 8).setWidth 64 | .b16 => (a.setWidth 16).setWidth 64 | .b32 => (a.setWidth 32).setWidth 64
def cmpEq (w : Width) (a b : Word) : Word := wOfBool (uOf w a = uOf w b)
def cmpNe (w : Width) (a b : Word) : Word := wOfBool (uOf w a ≠ uOf w b)
def cmpLt (w : Width) (a b : Word) : Word := wOfBool (sOf w a < sOf w b)
def cmpLtn (w : Width) (a b : Word) : Word := wOfBool (uOf w a < uOf w b)
def cmpLe (w : Width) (a b : Word) : Word := wOfBool (sOf w a ≤ sOf w b)
def cmpLen (w : Width) (a b : Word) : Word := wOfBool (uOf w a ≤ uOf w b)

/-! ### Shapes -/

/-- A form that computes from A and B; poison of either poisons the result (08 R166). -/
def binary (f : Word → Word → Word) (t0 t1 : Cons) (s : State) : Out :=
  let t := tok (f s.opA.val s.opB.val) (s.opA.poison || s.opB.poison)
  .next (s.emit [(t0, t), (t1, t)])
/-- A form that computes from A. -/
def unary (f : Word → Word) (t0 t1 : Cons) (s : State) : Out :=
  let t := tok (f s.opA.val) s.opA.poison
  .next (s.emit [(t0, t), (t1, t)])

/-! ### The instructions -/

/-- ILL traps at dispatch (07 R163): the trap is taken at once. -/
def execIll (s : State) : Out := .next (s.takeTrap 1 0x007 s.fir.blk.cur (s.cur.word.setWidth 64) 0)

def execAdd (w : Width) (t0 t1 : Cons) (s : State) : Out := binary (aluAdd w) t0 t1 s
def execSub (w : Width) (t0 t1 : Cons) (s : State) : Out := binary (aluSub w) t0 t1 s
/-- ADDI (08 R170). -/
def execAddi (imm : BitVec 14) (t0 : Cons) (s : State) : Out :=
  .next (s.emit [(t0, tok (s.opA.val + imm.signExtend 64) s.opA.poison)])
def execMul (w : Width) (t0 t1 : Cons) (s : State) : Out := binary (aluMul w) t0 t1 s
def execMulh (w : Width) (t0 t1 : Cons) (s : State) : Out := binary (aluMulh w) t0 t1 s
def execMulhn (w : Width) (t0 t1 : Cons) (s : State) : Out := binary (aluMulhn w) t0 t1 s
def execDiv (w : Width) (t0 t1 : Cons) (s : State) : Out := binary (aluDiv w) t0 t1 s
def execDivn (w : Width) (t0 t1 : Cons) (s : State) : Out := binary (aluDivn w) t0 t1 s
def execRem (w : Width) (t0 t1 : Cons) (s : State) : Out := binary (aluRem w) t0 t1 s
def execRemn (w : Width) (t0 t1 : Cons) (s : State) : Out := binary (aluRemn w) t0 t1 s
def execAnd (t0 t1 : Cons) (s : State) : Out := binary (· &&& ·) t0 t1 s
def execOr (t0 t1 : Cons) (s : State) : Out := binary (· ||| ·) t0 t1 s
def execXor (t0 t1 : Cons) (s : State) : Out := binary (· ^^^ ·) t0 t1 s
def execAndn (t0 t1 : Cons) (s : State) : Out := binary (fun a b => a &&& ~~~b) t0 t1 s
def execShl (w : Width) (t0 t1 : Cons) (s : State) : Out := binary (aluShl w) t0 t1 s
def execShr (w : Width) (t0 t1 : Cons) (s : State) : Out := binary (aluShr w) t0 t1 s
def execSar (w : Width) (t0 t1 : Cons) (s : State) : Out := binary (aluSar w) t0 t1 s
def execMin (w : Width) (t0 t1 : Cons) (s : State) : Out := binary (aluMin w) t0 t1 s
def execMax (w : Width) (t0 t1 : Cons) (s : State) : Out := binary (aluMax w) t0 t1 s
def execMinn (w : Width) (t0 t1 : Cons) (s : State) : Out := binary (aluMinn w) t0 t1 s
def execMaxn (w : Width) (t0 t1 : Cons) (s : State) : Out := binary (aluMaxn w) t0 t1 s
def execClz (w : Width) (t0 t1 : Cons) (s : State) : Out := unary (aluClz w) t0 t1 s
def execPopc (w : Width) (t0 t1 : Cons) (s : State) : Out := unary (aluPopc w) t0 t1 s
def execSext (k : ExtFrom) (t0 t1 : Cons) (s : State) : Out := unary (aluSext k) t0 t1 s
def execZext (k : ExtFrom) (t0 t1 : Cons) (s : State) : Out := unary (aluZext k) t0 t1 s
def execCeq (w : Width) (t0 t1 : Cons) (s : State) : Out := binary (cmpEq w) t0 t1 s
def execCne (w : Width) (t0 t1 : Cons) (s : State) : Out := binary (cmpNe w) t0 t1 s
def execClt (w : Width) (t0 t1 : Cons) (s : State) : Out := binary (cmpLt w) t0 t1 s
def execCltn (w : Width) (t0 t1 : Cons) (s : State) : Out := binary (cmpLtn w) t0 t1 s
def execCle (w : Width) (t0 t1 : Cons) (s : State) : Out := binary (cmpLe w) t0 t1 s
def execClen (w : Width) (t0 t1 : Cons) (s : State) : Out := binary (cmpLen w) t0 t1 s
/-- SEL reads F.n as READ would (08 R172). -/
def execSel (n : BitVec 5) (t0 t1 : Cons) (s : State) : Out :=
  binary (fun a b => if s.fir.flags.getLsbD n.toNat then a else b) t0 t1 s
def execMovi (imm : BitVec 14) (t0 : Cons) (s : State) : Out := .next (s.emit [(t0, tok (imm.signExtend 64))])

/-- The literal slot `j` places after the issuing one (06 R141). -/
def State.literal (s : State) (j : Nat) : Half := ((s.fir.blk.slots[s.fir.blk.cur + j]?).map (·.word)).getD 0
def execConstw (sx : Bool) (t0 t1 : Cons) (s : State) : Out :=
  let v := if sx then (s.literal 1).signExtend 64 else (s.literal 1).setWidth 64
  .next (s.emit [(t0, tok v), (t1, tok v)])
def execConstd (t0 t1 : Cons) (s : State) : Out :=
  let v := s.literal 2 ++ s.literal 1
  .next (s.emit [(t0, tok v), (t1, tok v)])

/-- The value that READ returns (08 R174); G0 reads zero (02 R41). -/
def Firing.readG (f : Firing) (n : BitVec 6) : Token :=
  if n = 0 then {} else ⟨f.regs.get n.toFin, f.gpois.getLsbD n.toNat⟩
def Firing.readSel (f : Firing) : RegSel → Token
  | .g n => f.readG n
  | .f => tok (f.flags.setWidth 64)
  | .flag n => tok (wOfBool (f.flags.getLsbD n.toNat))
def execRead (r : RegSel) (t0 : Cons) (s : State) : Out := .next (s.emit [(t0, s.fir.readSel r)])

/-- WRITE holds its value for commit; a poisoned flag value traps (08 R174). -/
def execWrite (r : RegSel) (s : State) : Out :=
  let k := s.fir.blk.cur
  match r with
  | .g n => .next ((s.onBlk fun b => { b with gw := b.gw ++ [(k, n, s.opA)] }).quiet)
  | .f =>
    if s.opA.poison then .next (s.poisonFault useFlag)
    else .next ((s.onBlk fun b => { b with fw := b.fw ++ [(k, .all (s.opA.val.setWidth 32))] }).quiet)
  | .flag n =>
    if s.opA.poison then .next (s.poisonFault useFlag)
    else .next ((s.onBlk fun b => { b with fw := b.fw ++ [(k, .bit n (s.opA.val.getLsbD 0))] }).quiet)

def execFan (t0 t1 : Cons) (s : State) : Out := .next (s.emit [(t0, s.opA), (t1, s.opA)])
/-- NULL sends null tokens (08 R176). -/
def execNull (t0 t1 : Cons) (s : State) : Out := .next (s.emitAt s.fir.blk.cur [(t0, none), (t1, none)])
def execLea (n : BitVec 3) (t0 t1 : Cons) (s : State) : Out := binary (fun a b => a + (b <<< n.toNat)) t0 t1 s

/-- A target that 06 R148 refuses. -/
def badTarget (t : Word) : Bool := bitsN t 1 0 ≠ 0 || bitsN t 63 56 ≠ 0
/-- Index of a block in the exit table of its tile (18 R327). -/
def exitIndex (a : Word) : Nat := bitsN a 11 2
/-- The exit table notes the exit that has fired last (18 R327). -/
def State.noteExit (s : State) (t : Word) : State :=
  s.onTile fun x => { x with exitTab := setKey (exitIndex s.fir.blk.addr) (s.fir.blk.cur, t) x.exitTab }
/-- An exit of the issuing slot fires. -/
def State.exitTo (s : State) (t : Word) : State :=
  (s.noteExit t).onBlk fun b => { b with exits := b.exits ++ [(b.cur, .to t)] }
/-- BR and RET (08 R178). -/
def branch (s : State) : Out :=
  if s.opA.poison then .next (s.poisonFault useTarget)
  else if badTarget s.opA.val then .next (s.slotFault 3 0x0C5 s.opA.val 0)
  else .next ((s.exitTo s.opA.val).quiet)
def execBr (s : State) : Out := branch s
def execRet (s : State) : Out := branch s

/-- The target of BRI and CALL (08 R179). -/
def relTarget (s : State) (imm : BitVec 14) : Word := s.fir.blk.addr + (imm.signExtend 64) * 4
def execBri (imm : BitVec 14) (s : State) : Out :=
  let t := relTarget s imm
  if badTarget t then .next (s.slotFault 3 0x0C5 t 0) else .next ((s.exitTo t).quiet)
/-- The header that follows the block (06 R148). -/
def Block.follow (b : Block) : Word := b.addr + BitVec.ofNat 64 (4 * (b.slots.length + 1))
def execCall (imm : BitVec 14) (t0 : Cons) (s : State) : Out :=
  let t := relTarget s imm
  if badTarget t then .next (s.slotFault 3 0x0C5 t 0)
  else .next (((s.exitTo t).onFir fun f => { f with rets := (s.fir.blk.follow :: f.rets).take 8 }).emit [(t0, tok s.fir.blk.follow)])
def execRetire (s : State) : Out :=
  .next ((s.onBlk fun b => { b with exits := b.exits ++ [(b.cur, .retire)] }).quiet)

end Sys2Proof.Machine
end

