-- ==== Sys2Proof/Machine/Vector.lean ====
section
/-! DEFINITION. Class V: vector pipe instructions (09 R182 to R202). SETT is in Machine/Collar.lean. -/

namespace Sys2Proof.Machine

/-! ### Writing lanes -/

/-- A lane result: value, poison, FPMODE flags. -/
structure LaneRes where
  val : Half
  pois : Bool := false
  fl : Word := 0

/-- Writes the lanes that `act` names of register `vd`; sets the flags of those lanes. -/
def State.vput (s : State) (q : BitVec 2) (vd : BitVec 5) (act : Nat → Bool) (f : Nat → LaneRes) : State :=
  let p := s.pipe q
  let old := p.reg vd
  let rs := (List.range 32).map fun l => if act l then f l else ⟨old.lane l, old.pois1 l, 0⟩
  let reg := VReg.ofFn fun l => let r := rs.getD l ⟨0, false, 0⟩; (r.val, r.pois)
  (s.setPipe q (p.setReg vd reg)).flagFp (rs.foldl (fun w r => w ||| r.fl) 0)

/-- Lanes whose LEN bit is 1 (09 R185). -/
def State.active (s : State) (q : BitVec 2) (l : Nat) : Bool := (s.pipe q).len.getLsbD l
def State.lane (s : State) (q : BitVec 2) (v : BitVec 5) (l : Nat) : Half := ((s.pipe q).reg v).lane l
def State.lpois (s : State) (q : BitVec 2) (v : BitVec 5) (l : Nat) : Bool := ((s.pipe q).reg v).pois1 l

def res (r : Half × Word) (p : Bool) : LaneRes := ⟨r.1, p, r.2⟩

/-- An element-wise form of two registers. -/
def vbin (f : Half → Half → Half × Word) (vd va vb : BitVec 5) (q : BitVec 2) (s : State) : Out :=
  .next ((s.vput q vd (s.active q) fun l =>
    res (f (s.lane q va l) (s.lane q vb l)) (s.lpois q va l || s.lpois q vb l)).quiet)
/-- An element-wise form of one register. -/
def vun (f : Half → Half × Word) (vd va : BitVec 5) (q : BitVec 2) (s : State) : Out :=
  .next ((s.vput q vd (s.active q) fun l => res (f (s.lane q va l)) (s.lpois q va l)).quiet)

/-! ### Element-wise arithmetic (09 R186) -/

def opAdd (fl : Bool) (ty : VType) (a b : Half) : Half × Word :=
  match ty with | .fp32 => fadd fl a b | _ => (a + b, 0)
def opSub (fl : Bool) (ty : VType) (a b : Half) : Half × Word :=
  match ty with | .fp32 => fsub fl a b | _ => (a - b, 0)
def opMul (fl : Bool) (ty : VType) (a b : Half) : Half × Word :=
  match ty with | .fp32 => fmul fl a b | _ => (a * b, 0)
def opFma (fl : Bool) (ty : VType) (a b d : Half) : Half × Word :=
  match ty with | .fp32 => ffma fl a b d | _ => (a * b + d, 0)
def opMinMax (max fl : Bool) (ty : VType) (a b : Half) : Half × Word :=
  match ty with
  | .fp32 => (fminmax fl max a b, 0)
  | .i32 => (if (a.toInt < b.toInt) != max then a else b, 0)
  | .n32 => (if (a.toNat < b.toNat) != max then a else b, 0)
def fp32Nan (x : Half) : Bool := bitsN x 30 23 = 255 && bitsN x 22 0 ≠ 0
def opAbs (ty : VType) (a : Half) : Half × Word :=
  match ty with
  | .fp32 => (if fp32Nan a then 0x7FC00000 else a &&& 0x7FFFFFFF, 0)
  | _ => (if a.toInt < 0 then -a else a, 0)
def opNeg (ty : VType) (a : Half) : Half × Word :=
  match ty with
  | .fp32 => (if fp32Nan a then 0x7FC00000 else a ^^^ 0x80000000, 0)
  | _ => (-a, 0)

def execVadd (ty : VType) (vd va vb : BitVec 5) (q : BitVec 2) (s : State) : Out := vbin (opAdd s.flush ty) vd va vb q s
def execVsub (ty : VType) (vd va vb : BitVec 5) (q : BitVec 2) (s : State) : Out := vbin (opSub s.flush ty) vd va vb q s
def execVmul (ty : VType) (vd va vb : BitVec 5) (q : BitVec 2) (s : State) : Out := vbin (opMul s.flush ty) vd va vb q s
def execVfma (ty : VType) (vd va vb : BitVec 5) (q : BitVec 2) (s : State) : Out :=
  .next ((s.vput q vd (s.active q) fun l =>
    res (opFma s.flush ty (s.lane q va l) (s.lane q vb l) (s.lane q vd l))
      (s.lpois q va l || s.lpois q vb l || s.lpois q vd l)).quiet)
def execVmin (ty : VType) (vd va vb : BitVec 5) (q : BitVec 2) (s : State) : Out :=
  vbin (opMinMax false s.flush ty) vd va vb q s
def execVmax (ty : VType) (vd va vb : BitVec 5) (q : BitVec 2) (s : State) : Out :=
  vbin (opMinMax true s.flush ty) vd va vb q s
def execVabs (ty : VType) (vd va : BitVec 5) (q : BitVec 2) (s : State) : Out := vun (opAbs ty) vd va q s
def execVneg (ty : VType) (vd va : BitVec 5) (q : BitVec 2) (s : State) : Out := vun (opNeg ty) vd va q s

/-! ### Logic, shifts, compares (09 R187, R188) -/

def execVand (vd va vb : BitVec 5) (q : BitVec 2) (s : State) : Out := vbin (fun a b => (a &&& b, 0)) vd va vb q s
def execVor (vd va vb : BitVec 5) (q : BitVec 2) (s : State) : Out := vbin (fun a b => (a ||| b, 0)) vd va vb q s
def execVxor (vd va vb : BitVec 5) (q : BitVec 2) (s : State) : Out := vbin (fun a b => (a ^^^ b, 0)) vd va vb q s

def vshift (f : Half → Nat → Half) (c : VCount) (vd va : BitVec 5) (q : BitVec 2) (s : State) : Out :=
  match c with
  | .reg vb => vbin (fun a b => (f a (b.toNat % 32), 0)) vd va vb q s
  | .imm n => vun (fun a => (f a n.toNat, 0)) vd va q s
def execVshl (c : VCount) (vd va : BitVec 5) (q : BitVec 2) (s : State) : Out := vshift (fun a n => a <<< n) c vd va q s
def execVshr (c : VCount) (vd va : BitVec 5) (q : BitVec 2) (s : State) : Out := vshift (fun a n => a >>> n) c vd va q s
def execVsar (c : VCount) (vd va : BitVec 5) (q : BitVec 2) (s : State) : Out :=
  vshift (fun a n => a.sshiftRight n) c vd va q s

/-- A relation and its flag (09 R188). -/
def relHolds (fl : Bool) (ty : VType) (r : VRel) (a b : Half) : Bool × Word :=
  match ty with
  | .fp32 =>
    let x := dec32 fl a; let y := dec32 fl b
    let n := anyNan [x, y]
    match r with
    | .eq => (x.eqv y, 0)
    | .ne => (!x.eqv y, 0)
    | .lt => (x.lt y, if n then NV else 0)
    | .le => (x.lt y || x.eqv y, if n then NV else 0)
    | .un => (n, 0)
  | .i32 =>
    match r with
    | .eq => (a == b, 0) | .ne => (a != b, 0) | .lt => (a.toInt < b.toInt, 0) | .le => (a.toInt ≤ b.toInt, 0)
    | .un => (false, 0)
  | .n32 =>
    match r with
    | .eq => (a == b, 0) | .ne => (a != b, 0) | .lt => (a.toNat < b.toNat, 0) | .le => (a.toNat ≤ b.toNat, 0)
    | .un => (false, 0)
def maskOf (b : Bool) : Half := if b then 0xFFFFFFFF else 0
def execVcmp (ty : VType) (rel : VRel) (vd va vb : BitVec 5) (q : BitVec 2) (s : State) : Out :=
  vbin (fun a b => let r := relHolds s.flush ty rel a b; (maskOf r.1, r.2)) vd va vb q s
def execVsel (vd va vb : BitVec 5) (q : BitVec 2) (s : State) : Out :=
  .next ((s.vput q vd (s.active q) fun l =>
    ⟨if (s.lane q vd l).getLsbD 0 then s.lane q va l else s.lane q vb l,
     s.lpois q va l || s.lpois q vb l || s.lpois q vd l, 0⟩).quiet)

/-! ### Conversion and quantisation (09 R189 to R191) -/

/-- The counter that an RSR conversion of pipe `q` reads (09 R183). -/
def State.srCtr (s : State) (q : BitVec 2) : Nat :=
  ((s.seenReg .srctr s.ctx.csr.srctr).toNat / 2 ^ (16 * q.toNat) + s.fir.blk.srinc.getD q.toNat 0) % 65536
def execVcvt (pr : CvtPair) (md : CvtMode) (vd va : BitVec 5) (q : BitVec 2) (s : State) : Out :=
  let seed := bitsN (s.seenReg .fpmode s.ctx.csr.fpmode) 63 32
  let mode (l : Nat) : Mode := match md with
    | .rne => .ne | .rtz => .tz | .sat => .sat | .rsr => .sr (srRnd seed q.toNat l (s.srCtr q))
  let s' := s.vput q vd (s.active q) fun l => res (convert s.flush pr (mode l) (s.lane q va l)) (s.lpois q va l)
  .next ((if md = .rsr then s'.onBlk fun b => { b with srinc := modV b.srinc q.toNat (· + 1) } else s').quiet)

/-- The largest element of a format (09 R190). -/
def qMax : QFmt → Nat | .qsi8 => 127 | .qse4m3 => 448 | .qsi4 => 7 | .qse2m1 => 6
def qWide : QFmt → Bool | .qsi8 | .qse4m3 => true | _ => false

/-- The smallest S20 scale at or above m · 2^e ÷ d (09 R190). -/
def scaleFor (m : Nat) (e : Int) (d : Nat) : Nat :=
  let ratio (x : Int) : Nat × Nat :=
    let sh := e + 12 - x
    if 0 ≤ sh then (m * 2 ^ sh.toNat, d) else (m, d * 2 ^ (-sh).toNat)
  let a : Int := e + Nat.log2 m - Nat.log2 d
  let x := if (ratio a).1 < 4096 * (ratio a).2 then a - 1 else a
  let (n, k) := ratio x
  let c := (n + k - 1) / k
  let (x, c) := if c = 8192 then (x + 1, 4096) else (x, c)
  if x + 127 < 1 then 0x01000 else if 254 < x + 127 then 0xFEFFF else (x + 127).toNat * 4096 + (c - 4096)

/-- The scale of a block of FP32 values. -/
def blockScale (d : Nat) (xs : List Val) : Nat × Word :=
  if xs.any (fun v => match v with | .fin .. => false | _ => true) then (0xFF000, NV)
  else
    let big := xs.foldl (fun (a : Val) v =>
      let v' := match v with | .fin _ m e => Val.fin false m e | w => w
      if a.lt v' then v' else a) Val.zero
    match big with
    | .fin _ 0 _ => (0, 0)
    | .fin _ m e => (scaleFor m e d, 0)
    | _ => (0xFF000, NV)

/-- An element: x ÷ scale rounded to the element format, saturated; its bits and flags. -/
def quantEl (f : QFmt) (sc : Nat) (x : Val) : Nat × Word :=
  match scaleVal sc, x with
  | some (.fin _ sm se), .fin n m e =>
    if m = 0 then (match f with | .qse4m3 => (if n then 128 else 0, 0) | .qse2m1 => (if n then 8 else 0, 0) | _ => (0, 0))
    else
      let qm := m * 2 ^ 160 / sm
      let qe : Int := e - se - 160
      let st := decide (m * 2 ^ 160 % sm ≠ 0)
      let int (lo hi : Int) (w : Nat) : Nat × Word :=
        let (r, nx) : Nat × Bool := if 0 ≤ qe then (qm * 2 ^ qe.toNat, st) else dropBits .ne qm (-qe).toNat st
        let i : Int := if n then -(r : Int) else r
        let c := if i < lo then lo else if hi < i then hi else i
        ((BitVec.ofInt w c).toNat, if nx then NX else 0)
      match f with
      | .qsi8 => int (-128) 127 8
      | .qsi4 => int (-8) 7 4
      | .qse4m3 => E4M3.round .sat n qm qe st
      | .qse2m1 => E2M1.round .sat n qm qe st
  | _, _ => (0, 0)

/-- VQNT: the elements are rounded, and set their flags, for either part (09 R190). -/
def execVqnt (f : QFmt) (scales : Bool) (vd va : BitVec 5) (q : BitVec 2) (s : State) : Out :=
  let x (l : Nat) : Val := if s.active q l then dec32 s.flush (s.lane q va l) else Val.zero
  let p (l : Nat) : Bool := s.active q l && s.lpois q va l
  let sc (b : Nat) := blockScale (qMax f) ((List.range 4).map fun i => x (4 * b + i))
  let bp (b : Nat) : Bool := (List.range 4).any fun i => p (4 * b + i)
  let scs := (List.range 8).map sc
  let el (i : Nat) : Nat × Word :=
    let b := scs.getD (i / 4) (0, 0); let r := quantEl f b.1 (x i); (r.1, r.2 ||| b.2)
  if scales then
    .next ((s.vput q vd (fun _ => true) fun l =>
      if l < 8 then ⟨BitVec.ofNat 32 (sc l).1, bp l, (List.range 4).foldl (fun w i => w ||| (el (4 * l + i)).2) (sc l).2⟩
      else ⟨0, false, 0⟩).quiet)
  else
    let n := if qWide f then 4 else 8
    let w := if qWide f then 8 else 4
    .next ((s.vput q vd (fun _ => true) fun j =>
      if j * n < 32 then
        let es := (List.range n).map fun i => el (n * j + i)
        ⟨BitVec.ofNat 32 ((List.range n).foldl (fun a i => a + (es.getD i (0, 0)).1 * 2 ^ (w * i)) 0),
         (List.range n).any (fun i => bp ((n * j + i) / 4)), es.foldl (fun a e => a ||| e.2) 0⟩
      else ⟨0, false, 0⟩).quiet)

/-- The value of an element's bits (03 R67). -/
def elVal (f : QFmt) (x : Nat) : Val :=
  match f with
  | .qsi8 => Val.ofInt (BitVec.ofNat 8 x).toInt
  | .qsi4 => Val.ofInt (BitVec.ofNat 4 x).toInt
  | .qse4m3 => E4M3.dec (x % 256)
  | .qse2m1 => E2M1.dec (x % 16)
def execVdqnt (f : QFmt) (vd va vb : BitVec 5) (q : BitVec 2) (s : State) : Out :=
  let n := if qWide f then 4 else 8
  let w := if qWide f then 8 else 4
  .next ((s.vput q vd (s.active q) fun l =>
    let e := elVal f ((s.lane q va (l / n)).toNat / 2 ^ (w * (l % n)))
    let x := s.lane q vb (l / 4)
    let bad := bitsN x 31 20 ≠ 0
    let sc := if bad then some Val.nan else scaleVal (bitsN x 19 0)
    let r := ne32 s.flush (scaled e sc)
    ⟨r.1, s.lpois q va (l / n) || s.lpois q vb (l / 4), r.2 ||| (if bad then IFMT else 0)⟩).quiet)

/-! ### Special functions (09 R192) -/

def execVrcp (vd va : BitVec 5) (q : BitVec 2) (s : State) : Out := vun (frcp s.flush) vd va q s
def execVrsq (vd va : BitVec 5) (q : BitVec 2) (s : State) : Out := vun (frsq s.flush) vd va q s
def execVexp2 (vd va : BitVec 5) (q : BitVec 2) (s : State) : Out := vun (fexp2 s.flush) vd va q s
def execVlog2 (vd va : BitVec 5) (q : BitVec 2) (s : State) : Out := vun (flog2 s.flush) vd va q s

/-! ### Lane movement (09 R193, R194) -/

/-- LSTAT from a test on lanes. -/
def bitsFn (f : Nat → Bool) : Half := (List.range 32).foldl (fun a l => a ||| (ofBool 32 (f l) <<< l)) 0
def State.setLstat (s : State) (q : BitVec 2) (x : Half) : State := s.setPipe q { s.pipe q with lstat := x }
def State.setPsts (s : State) (q : BitVec 2) (x : Word) : State := s.setPipe q { s.pipe q with psts := x }

def execVperm (src : PermSrc) (vd va : BitVec 5) (q : BitVec 2) (s : State) : Out :=
  let ix (l : Nat) : Nat × Bool × Bool := match src with
    | .index vb => ((s.lane q vb l).toNat % 32, (s.lane q vb l).getLsbD 5, s.lpois q vb l)
    | .rot k => ((l + k.toNat) % 32, false, false)
  let dead (l : Nat) : Bool := s.active q l && !(ix l).2.1 && !s.active q (ix l).1
  let s' := s.vput q vd (s.active q) fun l =>
    let (j, z, p) := ix l
    if z || dead l then ⟨0, p, 0⟩ else ⟨s.lane q va j, p || s.lpois q va j, 0⟩
  .next ((s'.setLstat q (bitsFn dead)).quiet)

def execVbfly (op : BflyOp) (k : BitVec 3) (vd va : BitVec 5) (q : BitVec 2) (s : State) : Out :=
  let fl := s.flush
  let u (i : Nat) : Half × Bool := if s.active q i then (s.lane q va i, s.lpois q va i) else (0, false)
  let s' := s.vput q vd (s.active q) fun l =>
    let p := l ^^^ 2 ^ k.toNat
    let (a, b) := if l < p then (u l, u p) else (u p, u l)
    let pois := a.2 || b.2
    match op with
    | .x => ⟨(u p).1, (u p).2, 0⟩
    | .fadd => res (fadd fl a.1 b.1) pois
    | .iadd => ⟨a.1 + b.1, pois, 0⟩
    | .fmax => ⟨fminmax fl true a.1 b.1, pois, 0⟩
  .next ((s'.setLstat q (bitsFn fun l => s.active q l && !s.active q (l ^^^ 2 ^ k.toNat))).quiet)

/-! ### Reductions (09 R195, R196) -/

def redOp (fl : Bool) (op : RedOp) (a b : Half) : Half × Word :=
  match op with
  | .fadd => fadd fl a b
  | .iadd => (a + b, 0)
  | .fmax => (fminmax fl true a b, 0)
  | .fmin => (fminmax fl false a b, 0)
  | .imax => opMinMax true fl .i32 a b
  | .imin => opMinMax false fl .i32 a b
/-- A lane as an FP32 reduction reads it: a NaN is canonical (03 R63) and a subnormal flushed (03 R75), so that a lone lane
leaves no other NaN and no subnormal behind (log 101). -/
def redLane (fl : Bool) (op : RedOp) (x : Half) : Half :=
  match op with
  | .fadd | .fmax | .fmin => read32 fl x
  | _ => x
/-- Combination of values that may be absent. -/
def comb (fl : Bool) (op : RedOp) (a b : Option LaneRes) : Option LaneRes :=
  match a, b with
  | none, y => y
  | x, none => x
  | some x, some y => let r := redOp fl op x.val y.val; some ⟨r.1, x.pois || y.pois, x.fl ||| y.fl ||| r.2⟩
/-- One level of the tree: neighbours combine. -/
def combPairs (fl : Bool) (op : RedOp) : List (Option LaneRes) → List (Option LaneRes)
  | a :: b :: t => comb fl op a b :: combPairs fl op t
  | l => l
def combTree (fl : Bool) (op : RedOp) : Nat → List (Option LaneRes) → List (Option LaneRes)
  | 0, l => l
  | n + 1, l => combTree fl op n (combPairs fl op l)

def execVred (op : RedOp) (vd va : BitVec 5) (q : BitVec 2) (s : State) : Out :=
  let a := (List.range 32).map fun l =>
    if s.active q l then some (LaneRes.mk (redLane s.flush op (s.lane q va l)) (s.lpois q va l) 0) else none
  match (combTree s.flush op 5 a).getD 0 none with
  | some r =>
    let s' := (s.vput q vd (s.active q) fun _ => ⟨r.val, r.pois, 0⟩).flagFp r.fl
    .next ((s'.setPsts q (status 0 0 (popN 32 (s.pipe q).len.toNat))).quiet)
  | none => .next ((s.setPsts q (status sEMPTY 0 0)).quiet)

def scanId : RedOp → Half
  | .fadd | .iadd => 0 | .fmax => 0xFF800000 | .fmin => 0x7F800000 | .imax => 0x80000000 | .imin => 0x7FFFFFFF
/-- The lanes of a scan, in ascending order. -/
def scanGo (s : State) (q : BitVec 2) (va : BitVec 5) (op : RedOp) (excl : Bool) :
    List Nat → Option LaneRes → List LaneRes
  | [], _ => []
  | l :: t, run =>
    if s.active q l then
      let run' := comb s.flush op run (some ⟨redLane s.flush op (s.lane q va l), s.lpois q va l, 0⟩)
      (if excl then run.getD ⟨scanId op, false, 0⟩ else run'.getD ⟨0, false, 0⟩) :: scanGo s q va op excl t run'
    else ⟨0, false, 0⟩ :: scanGo s q va op excl t run
def execVscan (op : RedOp) (excl : Bool) (vd va : BitVec 5) (q : BitVec 2) (s : State) : Out :=
  let rs := scanGo s q va op excl (List.range 32) none
  -- an exclusive scan still combines its last active lane
  let last := (List.range 32).foldl (fun (r : Option LaneRes) l =>
    if s.active q l then comb s.flush op r (some ⟨redLane s.flush op (s.lane q va l), s.lpois q va l, 0⟩) else r) none
  .next (((s.vput q vd (s.active q) fun l => rs.getD l ⟨0, false, 0⟩).flagFp ((last.map (·.fl)).getD 0)).quiet)

/-! ### Soft maximum (03 R83, 09 R197, R198) -/

/-- E(d) = exp2(RoundNE(d × L)). -/
def expE (fl : Bool) (d : Half) : Half × Word :=
  let p := fmul fl d 0x3FB8AA3B; let r := fexp2 fl p.1; (r.1, p.2 ||| r.2)
/-- State of the first pass: m, s, k, nan, flags. -/
structure Smx where
  m : Half := 0xFF800000
  s : Half := 0
  k : Nat := 0
  nan : Bool := false
  fl : Word := 0
def smxStep (f : Bool) (t : Smx) (x : Half) : Smx :=
  if fp32Nan x then { t with nan := true }
  else if x = 0x7F800000 then { t with k := Nat.min (t.k + 1) (2 ^ 32 - 1), m := 0x7F800000 }
  else if x != 0xFF800000 && t.m != 0x7F800000 then
    if (dec32 f t.m).lt (dec32 f x) then
      let (s1, w1) :=
        if t.m != 0xFF800000 then
          let d := fsub f t.m x; let e := expE f d.1; let p := fmul f t.s e.1; (p.1, d.2 ||| e.2 ||| p.2)
        else (t.s, 0)
      let a := fadd f s1 0x3F800000
      { t with s := a.1, m := read32 f x, fl := t.fl ||| w1 ||| a.2 }
    else
      let d := fsub f x t.m; let e := expE f d.1; let a := fadd f t.s e.1
      { t with s := a.1, fl := t.fl ||| d.2 ||| e.2 ||| a.2 }
  else t

def execVsmxa (start : Bool) (vd va : BitVec 5) (q : BitVec 2) (s : State) : Out :=
  let t0 : Smx := if start then {} else
    { m := s.lane q vd 0, s := s.lane q vd 1, k := (s.lane q vd 2).toNat, nan := s.lane q vd 3 != 0 }
  let t := (List.range 32).foldl (fun t l => if s.active q l then smxStep s.flush t (s.lane q va l) else t) t0
  let p := (!start && (List.range 4).any (s.lpois q vd)) || (List.range 32).any (fun l => s.active q l && s.lpois q va l)
  .next (((s.vput q vd (fun _ => true) fun l =>
    match l with
    | 0 => ⟨t.m, p, 0⟩ | 1 => ⟨t.s, p, 0⟩ | 2 => ⟨BitVec.ofNat 32 t.k, p, 0⟩ | 3 => ⟨ofBool 32 t.nan, p, 0⟩
    | _ => ⟨0, false, 0⟩).flagFp t.fl).quiet)

def execVsmxn (vd va vb : BitVec 5) (q : BitVec 2) (s : State) : Out :=
  let f := s.flush
  let m := s.lane q vb 0; let sm := s.lane q vb 1; let k := (s.lane q vb 2).toNat; let nan := s.lane q vb 3 != 0
  let sp := (List.range 4).any (s.lpois q vb)
  let s' := s.vput q vd (fun _ => true) fun l =>
    let x := s.lane q va l
    let on := s.active q l
    let p := sp || (on && s.lpois q va l)
    if nan then ⟨0x7FC00000, p, 0⟩
    else if k ≠ 0 then
      if on && x = 0x7F800000 then res (flush32 f (FP32.div (Val.ofInt 1) (Val.ofInt k))) p else ⟨0, p, 0⟩
    else if m = 0xFF800000 || !on || x = 0xFF800000 then ⟨0, p, 0⟩
    else
      let d := fsub f x m; let e := expE f d.1; let r := fdiv f e.1 sm
      ⟨r.1, p, d.2 ||| e.2 ||| r.2⟩
  let st := if !nan && k = 0 && m = 0xFF800000 then status sEMPTY 0 0 else stOK
  .next ((s'.setPsts q st).quiet)

/-! ### Row statistics (03 R82, 09 R199) -/

/-- The state of VSTAT. -/
structure Stat where
  t : Word := 0
  n : Nat := 0
  same : Bool := true
  have0 : Bool := false
  nan : Bool := false
  pinf : Bool := false
  ninf : Bool := false
  mxv : Bool := false
  ovr : Bool := false
  v0 : Half := 0
  mx : Word := 0
  q : Word := 0
deriving DecidableEq, Repr
def Stat.ofLanes (f : Nat → Half) : Stat :=
  let g := f 3
  { t := f 1 ++ f 0, n := (f 2).toNat, same := g.getLsbD 0, have0 := g.getLsbD 1, nan := g.getLsbD 2
    pinf := g.getLsbD 3, ninf := g.getLsbD 4, mxv := g.getLsbD 5, ovr := g.getLsbD 6, v0 := f 4
    mx := f 6 ++ f 5, q := f 8 ++ f 7 }
def Stat.lane (t : Stat) (l : Nat) : Half :=
  match l with
  | 0 => t.t.setWidth 32 | 1 => (t.t >>> 32).setWidth 32 | 2 => BitVec.ofNat 32 t.n
  | 3 => ofBool 32 t.same ||| (ofBool 32 t.have0 <<< 1) ||| (ofBool 32 t.nan <<< 2) ||| (ofBool 32 t.pinf <<< 3)
      ||| (ofBool 32 t.ninf <<< 4) ||| (ofBool 32 t.mxv <<< 5) ||| (ofBool 32 t.ovr <<< 6)
  | 4 => t.v0 | 5 => t.mx.setWidth 32 | 6 => (t.mx >>> 32).setWidth 32
  | 7 => t.q.setWidth 32 | 8 => (t.q >>> 32).setWidth 32
  | _ => 0
/-- First pass on one element, read as 03 R75 has it. -/
def Stat.p1 (fl : Bool) (t : Stat) (x : Half) : Stat :=
  let x := flushIn fl x
  let v := FP32.dec x.toNat
  let t := if t.have0 then { t with same := t.same && x == t.v0 } else { t with have0 := true, v0 := x }
  let t := if t.n = 2 ^ 24 then { t with ovr := true } else { t with n := t.n + 1 }
  let t := { t with nan := t.nan || v.isNan, pinf := t.pinf || v == .inf false, ninf := t.ninf || v == .inf true }
  if t.nan || t.pinf || t.ninf then t else { t with t := addX (decX t.t) v }
/-- The mean is taken before the second pass. -/
def Stat.start2 (t : Stat) : Stat :=
  if t.mxv || t.n = 0 then t
  else { t with mxv := true, mx := if t.nan || t.pinf || t.ninf then t.mx else divX (decX t.t) t.n }
/-- Second pass on one element. -/
def Stat.p2 (fl : Bool) (t : Stat) (x : Half) : Stat :=
  if t.nan || t.pinf || t.ninf then t
  else
    let d := decX (addX (dec32 fl x) (decX t.mx).negate)
    { t with q := addX (decX t.q) (decX (mulX d d)) }
/-- Mean, variance and flags (03 R82); a NaN that no NaN of the row brings sets NV (03 R63, log 101). -/
def Stat.fin (fl : Bool) (t : Stat) : Half × Half × Word :=
  if t.ovr then (0x7FC00000, 0x7FC00000, if t.nan then 0 else NV)
  else if t.n = 0 then (0, 0, 0)
  else if t.nan then (0x7FC00000, 0x7FC00000, 0)
  else if t.pinf && t.ninf then (0x7FC00000, 0x7FC00000, NV)
  else if t.pinf then (0x7F800000, 0x7FC00000, NV)
  else if t.ninf then (0xFF800000, 0x7FC00000, NV)
  else if t.same then (flushIn fl t.v0, 0, 0)
  else
    let m := ne32 fl (decX t.mx)
    let x := decX t.q
    let v : Half × Word := if x.isZero then (0, 0) else flush32 fl (FP32.div x (Val.ofInt t.n))
    (m.1, if v.1 = 0x80000000 then 0 else v.1, m.2 ||| v.2)

def execVstat (ph : StatPhase) (vd va : BitVec 5) (q : BitVec 2) (s : State) : Out :=
  let fl := s.flush
  let on := (List.range 32).filter (s.active q)
  let xs := on.map (s.lane q va)
  let xp := on.any (s.lpois q va)
  let old := Stat.ofLanes (s.lane q vd)
  let op := (List.range 9).any (s.lpois q vd)
  let put (t : Stat) (p : Bool) : Out :=
    .next ((s.vput q vd (fun _ => true) fun l => ⟨t.lane l, p && l < 9, 0⟩).quiet)
  match ph with
  | .p1s => put (xs.foldl (Stat.p1 fl) {}) xp
  | .p1 => put (xs.foldl (Stat.p1 fl) old) (op || xp)
  | .p2 => put (xs.foldl (Stat.p2 fl) old.start2) (op || xp)
  | .fin =>
    let t := Stat.ofLanes (s.lane q va)
    let p := (List.range 9).any (s.lpois q va)
    let (m, v, w) := t.fin fl
    let s' := s.vput q vd (fun _ => true) fun l =>
      match l with | 0 => ⟨m, p, w⟩ | 1 => ⟨v, p, 0⟩ | _ => ⟨0, false, 0⟩
    let st := if t.ovr then fault 0x020 t.n else if t.n = 0 then status sEMPTY 0 0 else status 0 0 t.n
    .next ((s'.setPsts q st).quiet)

/-! ### Moves, enables and scalar transfer (09 R200 to R202) -/

def execVsplat (src : SplatSrc) (vd : BitVec 5) (q : BitVec 2) (s : State) : Out :=
  let r : LaneRes := match src with
    | .a => ⟨s.opA.val.setWidth 32, s.opA.poison, 0⟩
    | .lane va n => ⟨s.lane q va n.toNat, s.lpois q va n.toNat, 0⟩
  .next ((s.vput q vd (s.active q) fun _ => r).quiet)
def execVmov (vd va : BitVec 5) (q : BitVec 2) (s : State) : Out := vun (fun a => (a, 0)) vd va q s

def execVmovs (src : MovsSrc) (q : BitVec 2) (t0 : Cons) (s : State) : Out :=
  let p := s.pipe q
  let t : Token := match src with
    | .lane sx va n =>
      let x := s.lane q va n.toNat
      tok (if sx then x.signExtend 64 else x.setWidth 64) (s.lpois q va n.toNat)
    | .psts => tok p.psts
    | .len => tok (p.len ++ p.lstat)
  .next (s.emit [(t0, t)])
/-- VINS writes one lane whatever LEN holds. -/
def execVins (va n : BitVec 5) (q : BitVec 2) (t0 : Cons) (s : State) : Out :=
  let s' := s.vput q va (fun l => l = n.toNat) fun _ => ⟨s.opA.val.setWidth 32, s.opA.poison, 0⟩
  .next (s'.emit [(t0, tok 0)])

def State.setLen (s : State) (q : BitVec 2) (x : Half) : State := s.setPipe q { s.pipe q with len := x }
def execVlane (src : LaneSrc) (q : BitVec 2) (s : State) : Out :=
  match src with
  | .a => if s.opA.poison then .next (s.poisonFault useLanes) else .next ((s.setLen q (s.opA.val.setWidth 32)).quiet)
  | .v va =>
    if (List.range 32).any (s.lpois q va) then .next (s.poisonFault useLanes)
    else .next ((s.setLen q (bitsFn fun l => (s.lane q va l).getLsbD 0)).quiet)
  | .all => .next ((s.setLen q 0xFFFFFFFF).quiet)

end Sys2Proof.Machine
end

