-- ==== Sys2Proof/Machine/Waits.lean ====
section
/-! DEFINITION. Pending waits: when a condition holds, what a return delivers, and what expiry returns (05 R111 to R119,
R125, R126; 02 R58; 04 R100, R101; 11 R231, R242; 12 R262, R265; 20 R357; 24 R409, R414). -/

namespace Sys2Proof.Machine

/-! ### Children (02 R58) -/

def insNat : List (Nat × Bool) → Nat × Bool → Nat × Bool
  | [], m => m
  | x :: l, m => insNat l (if x.1 < m.1 then x else m)

/-- What a JOIN finds on a child handle; none while children run. -/
def State.childStatus (s : State) (c : Child) : Option Word :=
  match c.rejected with
  | some st => some st
  | none =>
    match c.set with
    | some n =>
      if c.killed.isSome then some (status sKILLED n 0) else if c.ended then some stOK else none
    | none =>
      match c.launch.bind fun l => s.dev.launches.find? (·.num == l) with
      | none => none
      | some l =>
        let bad := ((s.allCtxs ++ s.dev.saved.map (·.ctx)).filterMap fun x =>
            if x.id.launch == l.num && x.csr.faultHold then some (x.id.index, false) else none)
          ++ l.deadIdx.map fun i => (i, true)
        match bad with
        | x :: r =>
          let m := insNat r x
          some (status (if m.2 then sKILLED else sFAULT) (Nat.min bad.length 4095) m.1)
        | [] => if l.completed = l.instances then some stOK else none

/-! ### Fences (04 R100, R101) -/

/-- FENCE classes of a held effect (04 R94). -/
def effClass : Instr → Nat
  | .st .. | .stv .. | .sts .. => 1
  | .kcopy .. | .kgath .. | .kscat .. | .kred .. => 4
  | .ksend .. => 8
  | .amo .. | .amov .. | .cas .. => 16
  | _ => 0

/-- A command of the matrix engine that writes, or may write, an output stream once it runs (10 R219, R220). -/
def State.willWrite (s : State) (e : Eff) : Bool :=
  match e.ins with
  | .mstep r | .mdrain r =>
    (match s.tile.regions.getD r.toNat none with | some x => x.owner == s.ctx.id.uid && x.dest | none => false)
      || s.ctx.mq.any fun x => match x.ins with | .macc q => q == r | _ => false
  | _ => false
/-- A read of a committed block that is still to be made: a descriptor or a message body behind an update (11 R239, R251;
12 R263). -/
def Eff.unread (e : Eff) : Bool :=
  match e.ins with
  | .agen .. => e.ws.isEmpty
  | .ksend .. => e.wp.isEmpty
  | _ => false
/-- Serials of the reads still to be made by effects that the context in focus has handed over. -/
def Ctx.unread (c : Ctx) : List Nat := ((c.lq ++ c.kq).filter Eff.unread).map (·.ser)
/-- Port `i` of a configuration attaches to slab `w`. -/
def CollarCfg.portAt (g : CollarCfg) (i w : Nat) : Bool :=
  match g.img.ports[i]? with | some p => g.first + p.slab == w | none => false
/-- A collar channel lies in the scope instance: by the operator or port that it feeds, node and slab of the tile (04 R99, 14 R300). -/
def FenceAt.holds (f : FenceAt) (g : CollarCfg) (e : EdgeEnt) : Bool :=
  let node := (BitVec.ofNat 9 (bitsN e.dst 8 0) + BitVec.ofNat 9 (8 * g.first)).toNat
  let port := e.dst.getLsbD 12
  match f.sc.toNat with
  | 0 => false
  | 1 => !port && node == f.which
  | 2 => if port then g.portAt (bitsN e.dst 5 0) f.which else node / 8 == f.which
  | _ => true
/-- What a port holds lies in the scope instance. -/
def FenceAt.holdsPort (f : FenceAt) (g : CollarCfg) (i : Nat) : Bool :=
  match f.sc.toNat with | 0 | 1 => false | 2 => g.portAt i f.which | _ => true
/-- A token that the context has written into a collar channel is still on its way in (04 R100). -/
def FenceAt.waits (f : FenceAt) (ser : Nat) (g : CollarCfg) : Bool :=
  let old (t : CTok) : Bool := t.ser != 0 && t.ser ≤ ser
  ((g.img.edges.zip g.chans).any fun (e, q) => f.holds g e && q.any old)
    || g.ports.zipIdx.any fun (p, i) => f.holdsPort g i && (p.part ++ p.x.toList ++ p.y.toList).any old
/-- A unit lies in the scope instance of a context on a tile (04 R99). -/
def unitInScope (sc : Scope) (tile : BitVec 8) (u : Nat) : Bool :=
  match sc with
  | .s4 => (u / 4 == tile.toNat && u < 1024) || (1024 ≤ u && u < 1072 && hbmTile (u - 1024) == tile)
  | .s5 => if u < 1024 then u / 256 == tDie tile else u < 1072 && (u - 1024) / 12 == tDie tile
  | .s6 => u < 1072
  | .s7 | .s8 | .s9 => true
  | _ => false
/-- A close of the context in the scope instance has not closed its round yet (04 R101, R107). -/
def State.closeOpen (s : State) (ser : Nat) (f : FenceAt) : Bool :=
  let c := s.ctx
  (c.lq.any fun e => e.ser ≤ ser && match e.ins with | .fence sc .. => sc.enc == f.sc.toNat | _ => false)
    || s.dev.units.any fun u => (u.closes.any fun x => x.2.1.contains c.id.uid) && match Scope.dec f.sc.toNat with
      | some sc => unitInScope sc c.id.tile u.num
      | none => false

/-- A class is drained in a scope instance, as far as effects up to `ser`, updates below `upd` and the stream accesses that
were held then go: what is performed is so at every scope. What the FENCE's own block holds is performed at the commit that
follows the FENCE, and is not waited for (log 100). -/
def State.drained (s : State) (ser upd : Nat) (f : FenceAt) (cls : Nat) : Bool :=
  let c := s.ctx
  let held (l : List Eff) : Bool := l.any fun e => e.ser ≤ ser && effClass e.ins / cls % 2 == 1
  let hold (acc : Nat) : Bool := f.held.any fun (n, k) =>
    let t := c.streams.getD n {}
    t.k == k && match t.hold with | some h => h.acc.toNat == acc | none => false
  let upds (p : Nat → Bool) : Bool :=
    s.dev.units.any fun u => (u.window ++ u.order).any fun x =>
      (p x.stream && x.ctx == c.id.uid && x.id < upd)
        || x.subs.any fun y => p y.stream && y.ctx == c.id.uid && y.id < upd
  match cls with
    | 1 => !held c.lq && !hold 1 && !hold 2
        && !(c.streams.toList.any fun t => (t.buf ++ t.pat).any fun e => e.ser != 0 && e.ser ≤ ser)
        && !(c.releases.any fun r => r.stream.isSome && r.ser ≤ ser) && !(c.mq.any fun e => e.ser ≤ ser && s.willWrite e)
        && !upds fun n => n < 32
    | 2 => !hold 0 && !(c.unread.any (· ≤ ser))
    | 4 => !held c.kq && !(c.chans.toList.any fun ch => ch.queue.any (fun r => r.kind != 4 && r.ser ≤ ser)
        || (match ch.run with | some r => r.req.kind != 4 && r.req.ser ≤ ser | none => false))
        && !(c.sync.owes fun o => match o.ser with | some n => n ≤ ser | none => false)
    | 8 => !held c.kq && !(c.sends.any fun x => x.id ≤ ser)
    | 16 => !held c.lq && (match c.holdScalar with | some (_, e) => ser < e.ser | none => true) && !upds (32 ≤ ·)
        && !(f.close && s.closeOpen ser f)
    | _ => !(c.handles.toList.any fun h => match h with | some g => f.waits ser g | none => false)

/-- The classes of a mask that are drained. -/
def State.drainedMask (s : State) (mask : BitVec 6) (ser upd : Nat) (f : FenceAt) : Nat :=
  (List.range 6).foldl (fun n i => if mask.getLsbD i && s.drained ser upd f (2 ^ i) then n + 2 ^ i else n) 0

/-! ### What a return delivers -/

def slotCons (sl : Slot) : List Cons := match decodeOpt sl.word with | some i => instrCons i | none => []

/-- The consumers of a slot with the values of T0 and T1. -/
def twoTokens (sl : Slot) (a b : Token) : List (Cons × Token) := (slotCons sl).zip [a, b]

/-- The wait of slot `k` returns: TOCNT and escalation (05 R118, R119), the record tied to the block (24 R409), the
tokens that `mk` makes of the status. `rec`: a SYNC record always, an EXPIRE record for an expiry result. -/
def State.finish (s : State) (k : Nat) (st : Word) (poll expired : Bool) (mk : Slot → Word → List (Cons × Token)) :
    State :=
  let sl := s.fir.blk.slots.getD k { word := 0 }
  let cls := fCls sl.word
  let op := fOp sl.word
  let st' := (s.ctx.count st poll s.escn).2.1
  let r : Option LogRec := match decodeOpt sl.word with
    | some (.bara ..) | some (.barw ..) | some (.baraw ..) | some (.bard ..) | some (.bart ..) | some (.fence ..) =>
      some (syncRec s.ctx op st' s.fir.blk.addr)
    | _ => if expired then some (expireRec s.ctx cls op (codeOf st') s.fir.blk.addr) else none
  let s := match r with | some r => s.tie k r | none => s
  s.returnWait k st poll (BitVec.ofNat 6 op) fun x => mk sl x

/-- Both consumers receive the status. -/
def mkStatus (sl : Slot) (st : Word) : List (Cons × Token) := twoTokens sl (tok st) (tok st)
/-- A form that does not wait returns its status (05 R117): its SYNC record, TOCNT unchanged. -/
def State.answer (s : State) (k : Nat) (st : Word) : State :=
  let sl := s.fir.blk.slots.getD k { word := 0 }
  (s.tie k (syncRec s.ctx (fOp sl.word) st s.fir.blk.addr)).emitAt k ((mkStatus sl st).map fun (c, t) => (c, some t))
/-- T0 the status, T1 a word. -/
def mkWith (w : Token) (sl : Slot) (st : Word) : List (Cons × Token) := twoTokens sl (tok st) w
/-- T0 a value, T1 the status. -/
def mkValue (v : Token) (sl : Slot) (st : Word) : List (Cons × Token) := twoTokens sl v (tok st)

/-- The place behind the head that slot `k` takes: slots below it that hold a given form, with a given A, and wait or
have taken theirs (`every`: or have returned without); none while one of them may still fire. -/
def Block.rank (b : Block) (k : Nat) (every : Bool) (p : Instr → Bool) (a : Option Word) : Option Nat :=
  let l := ((b.slots.take k).zipIdx).filter fun (sl, _) =>
    sl.st != .lit && (match decodeOpt sl.word with | some i => p i | none => false)
  if l.any (·.1.st == .wait) then none
  else some (l.filter fun (sl, i) =>
    (sl.st == .pend || (sl.st == .done && (b.effs.any (·.slot == i)) != every))
    && (match a with | some v => (sl.a.getD {}).val == v | none => true)).length
/-- What the blocks in flight of the other firings have taken with a form. -/
def State.othersTook (s : State) (p : Instr → Bool) : List Eff := s.ctx.firs.flatMap fun f => f.blk.effs.filter fun e => p e.ins
def isKevq : Instr → Bool | .kevq .. => true | _ => false
/-- The records that no KEVQ in flight has taken (12 R160, R262). -/
def State.freeRecs (s : State) : List Rec :=
  let gone := (s.othersTook isKevq ++ s.fir.blk.effs.filter fun e => isKevq e.ins).map fun e => e.ws.headD 0
  s.ctx.sync.evq.filter fun r => !gone.contains r.info
/-- The place of slot `k` in what it takes from the head of a ring, stream or channel; none also while the block in flight
of another firing holds what it has taken there (log 104). -/
def State.headPlace (s : State) (k : Nat) (p : Instr → Bool) (a : Option Word := none) : Option Nat :=
  if (s.othersTook p).any (fun e => match a with | some v => e.ws.headD 0 == v | none => true) then none
  else s.fir.blk.rank k false p a

/-! ### Rings (12 R264, R265) -/

def ringByte (r : Ring) (line o : Nat) : Nat := r.base + (64 * line + o) % (64 * r.size)
/-- Pads at HEAD are skipped and freed at once. -/
def dropPads : Nat → Ring → Ring
  | 0, r => r
  | n + 1, r => match r.msgs with
    | m :: ms => if m.pad then dropPads n { r with msgs := ms, head := (r.head + m.lines) % r.size, free := r.free + m.lines } else r
    | [] => r
def Ctx.dropPads (c : Ctx) (n : Nat) : Ctx :=
  { c with rings := modV c.rings n fun r => Machine.dropPads r.msgs.length r }
/-- The message at place `j` behind HEAD, pads aside: status payload and header word. -/
def State.ringAt (s : State) (n j : Nat) : Option (Word × Word × Bool) :=
  let r := s.ctx.rings.getD n {}
  match (r.msgs.filter (!·.pad))[j]? with
  | some m =>
    let o := ringByte r m.line 0
    some (status 0 0 (o + m.len * 2 ^ 24), s.winWord o, s.winPois o)
  | none => none
/-- The errors that a read of the header of that message meets (04 R108). -/
def State.touchRing (s : State) (n j : Nat) : State :=
  let r := s.ctx.rings.getD n {}
  match (r.msgs.filter (!·.pad))[j]? with
  | some m => s.touch 0 (s.ctx.winKey (ringByte r m.line 0)) 8
  | none => s
/-- The ring is a channel of the graph (02 R32, KIND 4). -/
def Ctx.ringOfGraph (c : Ctx) (n : Nat) : Bool := c.graph.chans.any fun g => g.kind == 4 && g.loc.toNat == n

/-! ### Streams as LDG sees them (11 R242) -/

def StrSt.live : StrSt → Bool | .run | .held => true | _ => false
def streamWrite (t : Stream) : Bool := bitsN (t.desc.getD 1 0) 3 3 = 1
def streamEsz (t : Stream) : Nat := bitsN (t.desc.getD 1 0) 6 4
/-- Elements of a stream. -/
def streamCount (t : Stream) : Nat :=
  let w := t.desc.getD 2 0
  bitsN w 15 0 * bitsN w 31 16 * bitsN w 47 32 * bitsN w 63 48

/-- Accesses of a stream: its elements, or the plane words of a bed (11 R245). -/
def Stream.accesses (t : Stream) : Nat :=
  match t.bed with
  | none => streamCount t
  | some (p, _, nb) => (bitsN (t.desc.getD 2 0) 15 0 * (if nb then 4 else 2) + 63) / 64 * p
/-- More elements than those in `buf` are to come. -/
def Stream.more (t : Stream) : Bool := decide (t.k < t.accesses) || !t.pat.isEmpty

/-- What an LDG of element `j` behind the head delivers; none while it waits. -/
def State.ldgResult (s : State) (n j : Nat) : Option (Token × Word) :=
  let t := s.ctx.streams.getD n {}
  if t.st = .undef || streamWrite t then some ({}, fault 0x052 0)
  else if t.st.live && streamEsz t = 4 then some ({}, fault 0x054 0)
  else if t.st.live && (match t.claim with | none => false | some c => c != .core) then some ({}, fault 0x053 0)
  else
    match t.buf[j]? with
    | some e => some (⟨e.val.setWidth 64, e.poison⟩, status (if e.poison then sPOISON else 0) 0 ((t.used + j) % 2 ^ 48))
    | none => if t.st.live && t.more then none else some ({}, status sEMPTY 0 0)

/-! ### Host channels as LD.h sees them (11 R231, 20 R357) -/

def State.hostResult (s : State) (c : BitVec 6) (j : Nat) : Option (Token × Word) :=
  match ((s.dev.hch.getD c.toNat {}).ready)[j]? with
  | none => none
  | some (v, ctrl) =>
    match bitsN ctrl 2 0 with
    | 0 => some (tok v, stOK)
    | 1 => some ({}, status sEMPTY 1 0)
    | _ => some ({}, status sEMPTY (if ctrl.getLsbD 3 then 3 else 2) 0)

/-! ### Steered waits (24 R414) -/

/-- The recorded outcome of the wait of slot `k` when the context is steered: the status of its record (an EXPIRE record holds a code
alone), or none when the wait left no record. -/
def State.steered (s : State) (k : Nat) : Option (Option Word) :=
  if !s.ctx.logOn || !s.ctx.logSteer then none else
  let b := s.fir.blk
  let sl := b.slots.getD k { word := 0 }
  let cls := fCls sl.word
  let op := fOp sl.word
  let sync := match decodeOpt sl.word with
    | some (.barw ..) | some (.baraw ..) | some (.fence ..) => true
    | _ => false
  let mine (w0 w1 w3 : Word) : Bool := w3 == b.addr &&
    (if sync then bitsN w0 7 0 = 9 && bitsN w1 5 0 = op else bitsN w0 7 0 = 10 && bitsN w1 2 0 = cls && bitsN w1 8 3 = op)
  let got := (b.logs.filter fun (_, r) => mine (r.type.setWidth 64) r.w1 r.w3).length
  match ((s.expected 0 0).filter fun (_, w) => mine (w.getD 0 0) (w.getD 1 0) (w.getD 3 0))[got]? with
  | some (_, w) =>
    let w1 := w.getD 1 0
    some (some (if sync then status (bitsN w1 9 6) (bitsN w1 21 10) (w.getD 2 0).toNat else status (bitsN w1 12 9) 0 0))
  | none => some none
/-- The recorded code is an expiry result. -/
def expiryCode (n : Nat) : Bool := n = sTIMEOUT || n = sWITHDRAWN || n = sLATE || n = sPARTIAL || n = sESCALATED
/-- The wait of slot `k` is recorded with its expiry result; and with another result. -/
def State.willExpire (s : State) (k : Nat) : Bool := match s.steered k with | some (some c) => expiryCode (codeOf c) | _ => false
def State.willHold (s : State) (k : Nat) : Bool :=
  match s.steered k with | some (some c) => !expiryCode (codeOf c) | some none => true | none => false
/-- The status that a recorded expiry returned, before it was escalated. -/
def recordedStatus (c : Word) : Word := if codeOf c = sESCALATED then status (bitsN c 15 4) 0 (bitsN c 63 16) else c
/-- Whether a command that ended after its commit (KSEND, DGET) is recorded as expired, by its completion record when it leaves one,
else by an EXPIRE record of its block; none in a context that is not steered (24 R414; log 115). -/
def State.steeredCmd (s : State) (cls op tag : Nat) (hasRec : Bool) (blk : Word) : Option Bool :=
  if !s.ctx.logOn || !s.ctx.logSteer then none else
  let l := (s.expected 0 0).map (·.2)
  if hasRec then
    some (match l.find? fun w => bitsN (w.getD 0 0) 7 0 = 8 && bitsN (w.getD 1 0) 63 55 = cls * 64 + op && bitsN (w.getD 1 0) 49 43 = tag with
      | some w => bitsN (w.getD 2 0) 3 0 = sTIMEOUT || bitsN (w.getD 2 0) 3 0 = sFULL
      | none => false)
  else some (l.any fun w => bitsN (w.getD 0 0) 7 0 = 10 && bitsN (w.getD 1 0) 8 0 = cls + op * 8 && w.getD 3 0 == blk)

/-! ### Evaluation and expiry -/

/-- Clears the arrival entry of a barrier and member. -/
def State.dropArr (s : State) (ref : Word) : State :=
  s.onSync fun y => { y with arr := y.arr.filter (·.ref != ref) }
/-- Enters an arrival, in place of one with the same address and member (05 R125). -/
def State.putArr (s : State) (ref : Word) (m : BitVec 6) (p : BitVec 32) : State :=
  s.onSync fun y => { y with arr := y.arr.filter (·.ref != ref) ++ [⟨ref, m, p⟩] }
def phaseAt (m : Memory) (kv : Option (BitVec 512)) (key : Nat) : BitVec 32 := (m.bar kv key).phase

/-- The removal at commit of what slot `k` has taken. -/
def State.take (s : State) (k : Nat) (i : Instr) (ws : List Word := []) : State :=
  s.onBlk fun b => { b with effs := b.effs ++ [{ slot := k, ins := i, ws := ws, blk := b.addr }] }

def State.setWait (s : State) (k : Nat) (w : Wait) : State :=
  s.onBlk fun b => b.onSlot k fun x => { x with st := .pend, wait := some w }
/-- The answer of a home or of the root for slot `k`, and the state without it. -/
def State.takeReply (s : State) (k : Nat) : Option (Word × State) :=
  match s.ctx.sync.replies.find? (fun r => r.1 == s.fir.id && r.2.1 == k) with
  | none => none
  | some r => some (r.2.2, s.onSync fun y => { y with replies := y.replies.erase r })

/-- The over-arrival answer of a home (05 R124): a code that no status carries. -/
def overArrival : Word := 15

/-- A steered wait that is recorded with another result diverges (24 R414). -/
def State.diverge (s : State) (k : Nat) : State :=
  s.onBlk fun b => (b.onSlot k fun x => { x with st := .done, wait := none }).addFault
    ⟨k, 11, 0x0D2, s.ctx.logposRead, BitVec.ofNat 64 b.logs.length⟩
/-- What a withdrawal has found returns; in a steered context it must be what is recorded (24 R414). -/
def State.expired (s : State) (k : Nat) (st : Word) (poll : Bool) : State :=
  match (s.steered k).bind id with
  | some c =>
    if codeOf (recordedStatus c) = codeOf st then s.finish k st poll true mkStatus
    else s.diverge k
  | none => s.finish k st poll true mkStatus

/-- An answer reaches the slot that waits for it (05 R124 to R126, R133). -/
def State.onReply (s : State) (k : Nat) (w : Wait) (st : Word) : State :=
  let sl := s.fir.blk.slots.getD k { word := 0 }
  let ref := (sl.a.getD {}).val
  let m := BitVec.ofNat 6 (bitsN ref 61 56)
  let p := BitVec.ofNat 32 (bitsN st 47 16)
  let key : Nat := match w.on with | .reply k => k | _ => 0
  if st = overArrival then
    s.onBlk fun b => (b.onSlot k fun x => { x with st := .done, wait := none }).addFault ⟨k, 7, 0x012, ref, 0⟩
  else
    match decodeOpt sl.word with
    | some (.bara ..) | some (.bard ..) => if codeOf st = 0 then (s.putArr ref m p).answer k st else s.answer k st
    | some (.bart ..) => s.answer k st
    | some (.baraw ..) =>
      if codeOf st = 0 then
        (s.putArr ref m p).setWait k { w with on := .barrier ref key m p true }
      else if codeOf st = sFAULT then s.finish k st false false mkStatus
      else (s.dropArr ref).expired k st w.poll
    | some (.barw ..) =>
      if codeOf st = 0 then
        let e := s.ctx.sync.arr.find? (·.ref == ref)
        s.setWait k { w with on := .barrier ref key m ((e.map (·.p)).getD p) e.isSome }
      else if codeOf st = sWITHDRAWN || codeOf st = sLATE then (s.dropArr ref).expired k st w.poll
      else s.finish k st false false mkStatus
    | _ => s.finish k st false false mkStatus

/-- The state after the wait of slot `k` returns because its condition holds; none while it does not hold. -/
def State.evalWait (s : State) (k : Nat) : Option State :=
  match (s.fir.blk.slots[k]?).bind (·.wait) with
  | none => none
  | some w =>
    let stay : Bool := s.willExpire k
    match w.on with
    | .reply _ => (s.takeReply k).map fun (st, s) => s.onReply k w st
    | on =>
      if stay then none else
      match on with
      | .quiet _ => (s.takeReply k).map fun (st, s) => s.onReply k w st
      | .flag c m =>
        if flagHolds c s.fir.flags m then some (s.finish k (status 0 0 s.fir.flags.toNat) w.poll false mkStatus) else none
      | .barrier ref key _ p entry =>
        let ph := phaseAt s.mem (s.kvOf s.who4 key) key
        if ph = p then none
        else
          let s := s.touch ref key 32
          let s := if entry then s.dropArr ref else s
          some (s.finish k (status 0 0 ph.toNat) w.poll false mkStatus)
      | .fence mask ser upd f =>
        if s.drainedMask mask ser upd f = mask.toNat then some (s.finish k (status 0 0 mask.toNat) w.poll false mkStatus)
        else none
      | .join h =>
        let c := s.ctx.sync.children.getD h.toNat {}
        match s.childStatus c with
        | none => none
        | some st =>
          let close := codeOf st = 0 || (codeOf st = sKILLED && c.killed.isSome)
          let s := if close then s.take k (.join none none) [h.setWidth 64] else s
          some (s.finish k st w.poll false mkStatus)
      | .recv n =>
        let s := s.onCtx fun c => c.dropPads n.toNat
        let j := s.headPlace k fun i => match i with | .krecv x .. => x == n | _ => false
        let s := match j with | some j => s.touchRing n.toNat j | none => s
        match j.bind (s.ringAt n.toNat) with
        | some (st, h, p) => some ((s.take k (.krecv n none none)).finish k st w.poll false (mkWith ⟨h, p⟩))
        | none => none
      | .kwait tag =>
        match s.ctx.sync.evq.find? (fun r => bitsN r.info 49 43 = tag.toNat) with
        | some r => some (s.finish k stOK w.poll false fun sl _ => twoTokens sl (tok r.status) (tok r.info))
        | none => none
      | .kevq =>
        match (s.fir.blk.rank k true isKevq none).bind fun j => s.freeRecs[j]? with
        | some r => some ((s.take k (.kevq none none) [r.info]).finish k stOK w.poll false fun sl _ => twoTokens sl (tok r.status) (tok r.info))
        | none => none
      | .host c =>
        let isLdh (i : Instr) : Bool := match i with | .ld .host .. => true | _ => false
        let gen : Word := BitVec.ofNat 64 (s.dev.hch.getD c.toNat {}).gen
        let old := (s.fir.blk.effs.filter fun e => isLdh e.ins && e.ws.headD 0 == c.setWidth 64 && e.ws.getD 1 0 != gen).length
        match (s.headPlace k isLdh (some (c.setWidth 64))).bind fun j => s.hostResult c (j - old) with
        | some (v, st) =>
          some ((s.take k (.ld .host false .s8 none none) [c.setWidth 64, gen]).finish k st w.poll false (mkValue v))
        | none => none
      | .element n =>
        match (s.headPlace k fun i => match i with | .ldg x .. => x == n | _ => false).bind (s.ldgResult n.toNat) with
        | some (v, st) =>
          let s := if codeOf st = 0 || codeOf st = sPOISON then s.take k (.ldg n none none) else s
          some (s.emitAt k ((twoTokens (s.fir.blk.slots.getD k { word := 0 }) v (tok st)).map fun (c, t) => (c, some t)))
        | none => none
      | _ => none

/-- What the pending wait of slot `k` returns at expiry. -/
def State.expireNow (s : State) (k : Nat) (w : Wait) : State :=
  let rec_ : Option Word := (s.steered k).bind id
  let fin (st : Word) := s.finish k st w.poll true
  match w.on with
  | .flag .. => fin (status sTIMEOUT 0 s.fir.flags.toNat) mkStatus
  | .barrier ref key m p true =>
    (s.onDev fun d => { d with barQ := d.barQ ++
      [{ op := .withdraw p, ref := ref, key := key, m := m, ctx := s.ctx.id.uid, fir := s.fir.id, slot := k
         keyslot := s.keySeen }] }).setWait k { w with on := .reply key }
  | .fence mask ser upd f =>
    let d := s.drainedMask mask ser upd f
    fin (match rec_ with
      | some c => recordedStatus c
      | none => if d = 0 then status sTIMEOUT 0 0 else status sPARTIAL 0 d) mkStatus
  | .quiet _ =>
    let mine (r : QReq) := r.ctx == s.ctx.id.uid && r.fir == s.fir.id && r.slot == k
    (((s.takeReply k).map (·.2)).getD s |>.onDev fun d => { d with
      quietReqs := d.quietReqs.filter (!mine ·), quietWait := d.quietWait.filter (!mine ·) }).finish
      k (status sTIMEOUT 0 0) w.poll true mkStatus
  | .recv _ | .kwait _ | .kevq => fin (status sTIMEOUT 0 0) (mkWith {})
  | .host _ => fin (status sTIMEOUT 0 0) (mkValue {})
  | _ => fin (status sTIMEOUT 0 0) mkStatus

/-- A steered wait goes on past its expiry point: its record shows another result than expiry, or LATE of a phase that has not
completed (24 R414). -/
def State.goesOn (s : State) (k : Nat) (w : Wait) : Bool :=
  s.willHold k || match w.on, s.steered k with
    | .barrier _ key _ p true, some (some c) => codeOf c = sLATE && phaseAt s.mem (s.kvOf s.who4 key) key = p
    | _, _ => false
/-- Expiry of the wait of slot `k` is detected: the condition may hold in that cycle; a steered wait with another recorded
result goes on for DCEIL.CEIL more, and then diverges (05 R115, 24 R414). -/
def State.expireWait (s : State) (k : Nat) : State :=
  match (s.fir.blk.slots[k]?).bind (·.wait) with
  | none => s
  | some w =>
    match s.evalWait k with
    | some s => s
    | none =>
      if s.goesOn k w then
        if w.ext then s.diverge k
        else s.setWait k { w with ext := true, expiry := some (w.expiry.getD s.ctx.csr.budget.toNat + s.ctx.csr.dceil.toNat) }
      else s.expireNow k w

/-- A wait begins at the issuing slot and is evaluated at once; an expired POLL returns at once (05 R111, R115). -/
def State.begin (s : State) (on : Await) (d : Deadline) : State :=
  let k := s.fir.blk.cur
  let w : Wait := match d with
    | .at e => { on := on, expiry := some e }
    | _ => { on := on, expiry := none, poll := true }
  let s := s.setWait k w
  match s.evalWait k with
  | some s => s
  | none => if w.poll && !w.on.isReply then s.expireWait k else s

/-- The deadline operand of a wait: poison and illegal values trap (05 R112). -/
def State.withDeadline (s : State) (d : Token) (f : Deadline → State) : State :=
  if d.poison then s.poisonFault useDeadline
  else match s.deadline d.val with
    | .illegal => s.slotFault 6 0x0C6 d.val 0
    | dl => f dl

/-- The slots whose pending wait may return now, lowest first. -/
def State.firstReturn (s : State) : List Nat → Option State
  | [] => none
  | k :: ks => match s.evalWait k with
    | some s => some s
    | none => s.firstReturn ks

end Sys2Proof.Machine
end

