-- ==== Sys2Proof/Machine/Memory.lean ====
section
/-! DEFINITION. Class L at issue: single and vector accesses, port and host spaces (11 R229 to R235; 14 R295; 17 R322),
the tag table (04 R91 to R93, 11 R246), and what commit applies of stores. -/

namespace Sys2Proof.Machine

/-! ### Where an access goes -/

/-- Why an access is refused: an operand out of range, or a fault of 11 R235. -/
inductive Refused where
  | range (v : Word)
  | fault (detail : BitVec 12) (addr : Word)
deriving DecidableEq, Repr

def State.refuse (s : State) (r : Refused) (acc : Access) : State :=
  match r with
  | .range v => s.rangeFault v
  | .fault d a => s.accessFault d a acc.code

/-- The actor of the firing in focus; a trap firing has no ports (22 R383). -/
def State.actorNow (s : State) : Actor := s.ctx.graph.actors.getD s.fir.actor {}
/-- The channels of a side of the firing's actor. -/
def State.portOf (s : State) (out : Bool) (i : Nat) : Option (Nat × GPort × GChan) :=
  if s.fir.trap then none else
  ((if out then s.actorNow.outs else s.actorNow.ins)[i]?).map fun p => (p.chan, p, s.ctx.graph.chans.getD p.chan {})

/-- Adds a port to those of its channel. -/
def addPort (p : GPort) : List GPort → List GPort
  | [] => [p]
  | q :: l => if q.chan = p.chan then { q with rate := q.rate + p.rate } :: l else q :: addPort p l
/-- The ports of a side, those of one channel together. -/
def joinPorts (ps : List GPort) : List GPort := ps.foldl (fun l p => addPort p l) []
/-- Items that the ports before port `i` have on its channel: the items of two ports of one channel follow each other (log 110). -/
def portBase (ps : List GPort) (i ch : Nat) : Nat := (((ps.take i).filter (·.chan == ch)).map (·.rate)).sum
/-- Bytes of an item (11 R230). -/
def GChan.bytes (g : GChan) : Nat := if g.kind = 0 then 8 * g.item else if g.kind = 4 then 256 else 8
/-- Ring index of the first reserved item, or of the first reserved place. -/
def GChan.first (g : GChan) (out : Bool) : Nat := if out then (g.head + g.count) % g.cap else g.head

/-- The place of `n` bytes of the port space (11 R230). -/
def State.portLoc (s : State) (out : Bool) (a : Word) (n : Nat) : Except Refused Loc :=
  let o := bitsN a 31 0
  if bitsN a 63 35 ≠ 0 then .error (.range a)
  else if o % n ≠ 0 then .error (.fault dALIGN a)
  else match s.portOf out (bitsN a 34 32) with
    | none => .error (.fault dPORT a)
    | some (ch, p, g) =>
      if p.rate * g.bytes < o + n then .error (.fault dPORT a)
      else
        let base := portBase (if out then s.actorNow.outs else s.actorNow.ins) (bitsN a 34 32) ch
        match g.kind.toNat with
        | 0 => .ok (.mem (s.ctx.winKey (g.loc.toNat + ((g.first out + base) * g.bytes + o) % (g.cap * g.bytes))))
        | 1 => .ok (.collar ch (8 * base + o))
        | 4 => .ok (.msg ch (base + o / 256) (o % 256))
        | _ => .ok (.hostItem ch (8 * base + o))

/-- The place of `n` bytes of a space, for a scalar or vector access. -/
def State.place (s : State) (sp : VSpace) (acc : Access) (a : Word) (n : Nat) : Except Refused Loc × State :=
  match sp with
  | .global =>
    let (r, s) := s.global s.who4 acc a n
    (match r with | .ok l => .ok l | .error d => .error (.fault d a), s)
  | .window => (match s.window a n with | .ok l => .ok l | .error d => .error (.fault d a), s)
  | .port => (s.portLoc (acc == .wr) a n, s)

/-! ### Values at a place -/

/-- The item words of a collar channel of the graph: the tokens that wait at the CHAN port it names (14 R295, R300). -/
def Ctx.chanEdge (c : Ctx) (g : GChan) (out : Bool) : List Nat :=
  match (c.handles.getD (bitsN g.loc 12 8) none) with
  | none => []
  | some cfg =>
    let ep : BitVec 13 := BitVec.ofNat 13 (4096 + bitsN g.loc 5 0)
    match cfg.img.ports[bitsN g.loc 5 0]? with
    | some p => if p.kind = 3 then
        (List.range cfg.img.edges.length).filter fun i =>
          match cfg.img.edges[i]? with
          | some e => (if out then e.src else e.dst) == ep
          | none => false
      else []
    | none => []
def CTok.word (t : CTok) : Word :=
  t.val.setWidth 64 ||| (ofBool 64 t.eor <<< 32) ||| (ofBool 64 t.part <<< 33)
def Ctx.chanTokens (c : Ctx) (g : GChan) : List CTok :=
  match c.handles.getD (bitsN g.loc 12 8) none, c.chanEdge g false with
  | some cfg, e :: _ => cfg.chans.getD e []
  | _, _ => []

/-- A byte of a message body in memory `mem` (17 R322): bytes past its length read 0. -/
def State.msgByte (s : State) (mem : Memory) (g : GChan) (i o : Nat) : Nat × Bool :=
  let r := s.ctx.rings.getD (g.loc.toNat % 16) {}
  match (r.msgs.filter (!·.pad))[i]? with
  | none => (0, false)
  | some m =>
    if o < m.len then
      let k := s.ctx.winKey (ringByte r m.line (8 + o))
      ((mem.byte k).toNat, mem.poisoned k)
    else (0, false)
/-- The errors that a read of bytes of a message body meets (04 R108). -/
def State.touchMsg (s : State) (g : GChan) (i o n : Nat) : State :=
  let r := s.ctx.rings.getD (g.loc.toNat % 16) {}
  match (r.msgs.filter (!·.pad))[i]? with
  | some m => if o < m.len then s.touch 0 (s.ctx.winKey (ringByte r m.line (8 + o))) n else s
  | none => s
def State.msgBytes (s : State) (mem : Memory) (g : GChan) (i : Nat) : Nat → Nat → Nat × Bool
  | _, 0 => (0, false)
  | o, n + 1 =>
    let (b, p) := s.msgByte mem g i o
    let (r, q) := s.msgBytes mem g i (o + 1) n
    (b + 256 * r, p || q)

/-- The key of the window byte that holds byte `o` of message `i` of a ring. -/
def State.msgKey (s : State) (ch i o : Nat) : Option Nat :=
  let r := s.ctx.rings.getD ((s.ctx.graph.chans.getD ch {}).loc.toNat % 16) {}
  ((r.msgs.filter (!·.pad))[i]?).map fun m => s.ctx.winKey (ringByte r m.line (8 + o))
/-- The key of the memory behind a place. -/
def State.locKey (s : State) : Loc → Option Nat
  | .mem k => some k
  | .msg ch i o => s.msgKey ch i o
  | _ => none
/-- The latest store, of those that wait and of the slots below the issuing one, to a word of a control page (11 R233). -/
def State.ctlHeld (s : State) (p o : Nat) : Option Token :=
  let b := s.fir.blk
  let hit (e : Eff) : Bool := match e.ins with | .st .. => e.locs == [.ctl p o] | _ => false
  (((s.ctx.lq ++ b.effs.filter fun e => e.slot < b.cur).filter hit).getLast?).map (·.b)
/-- `n` bytes at a place as memory `m` holds them, and their poison; an item that has gone meanwhile is free (log 109). -/
def State.valueAt (s : State) (m : Memory) (l : Loc) (n : Nat) : Nat × Bool :=
  let part (w : Word) (o : Nat) : Nat := w.toNat / 2 ^ (8 * (o % 8)) % 2 ^ (8 * n)
  let gone (ch o : Nat) : Nat := part (Config.goneItem s.ctx.id.uid s.fir.id ch (o / 8)) o
  match l with
  | .mem k => (m.read (s.kvOf s.who4 k) k n, m.poisoned k)
  | .ctl p o => match s.ctlHeld p o with | some t => (t.val.toNat, t.poison) | none => ((s.ctlRead p o).toNat, false)
  | .collar ch o =>
    match (s.ctx.chanTokens (s.ctx.graph.chans.getD ch {}))[o / 8]? with
    | some t => (part t.word o, t.pois)
    | none => (gone ch o, false)
  | .hostItem ch o =>
    let g := s.ctx.graph.chans.getD ch {}
    let h := s.dev.hch.getD (g.loc.toNat % 64) {}
    match (if h.gen = g.gen then h.ready.filter fun x => bitsN x.2 2 0 = 0 else [])[o / 8]? with
    | some x => (part x.1 o, false)
    | none => (gone ch o, false)
  | .msg ch i o => s.msgBytes m (s.ctx.graph.chans.getD ch {}) i o n
  | .host _ => (0, false)

def accSize : Size → Nat | .s1 => 1 | .s2 => 2 | .s4 => 4 | .s8 => 8

/-- One store of `n` bytes, of a value and its poison, as 04 R109 rules. -/
def storeMem (m : Memory) (kv : Option (BitVec 512)) (k n : Nat) (v : Nat) (p : Bool) : Memory :=
  if n < 8 then
    if m.poisoned k then m
    else
      let m := m.write kv k v n
      if p then m.setPoison k true else m
  else (m.write kv k v n).setPoison k p

/-- A held ST or STV applied to memory alone. -/
def State.overlayEff (s : State) (m : Memory) (e : Eff) : Memory :=
  let kv := s.dev.keyAt e.keyslot.toNat
  match e.ins with
  | .st _ sz .. => match e.locs with
    | [.mem k] => storeMem m (kv k) k (accSize sz) e.b.val.toNat e.b.poison
    | _ => m
  | .stv .. => ((e.locs.zip (e.ws.zip e.wp)).foldl (fun m (l, w, p) => match l with
      | .mem k => storeMem m (kv k) k 4 w.toNat p
      | _ => m) m)
  | _ => m
/-- Memory with the stores of earlier blocks that wait for an update or behind a held access, and of the slots below the
issuing one (11 R233, R251). -/
def State.seen (s : State) : Memory :=
  let b := s.fir.blk
  let m := if s.ctx.lq.isEmpty then s.mem else s.ctx.lq.foldl (fun m e => s.overlayEff m e) s.mem
  if b.effs.isEmpty then m else
  (List.range b.cur).foldl (fun m k => (b.effsOf k).foldl (fun m e => s.overlayEff m e) m) m

/-! ### Loads -/

/-- An update of the context, outside fixed order, that waits for application to the word of a key (11 R251). -/
def State.updateWaits (s : State) (k : Nat) : Bool :=
  (s.dev.units.any fun u => u.window.any fun x =>
      (x.ctx == s.ctx.id.uid || x.subs.any (·.ctx == s.ctx.id.uid)) && x.key / 8 == k / 8)
    || s.ctx.lq.any fun e => !e.fix && (match e.ins with
        | .amo .. | .amov .. | .cas .. => e.locs.any fun l => match l with | .mem x => x / 8 == k / 8 | _ => false
        | _ => false)

def extLoad (sx : Bool) (sz : Size) (v : Nat) : Word :=
  match sx, sz with
  | true, .s1 => (BitVec.ofNat 8 v).signExtend 64
  | true, .s2 => (BitVec.ofNat 16 v).signExtend 64
  | true, .s4 => (BitVec.ofNat 32 v).signExtend 64
  | _, _ => BitVec.ofNat 64 v

/-- A load of the global, window or port space (11 R232). -/
def loadFrom (sp : VSpace) (sx : Bool) (sz : Size) (t0 t1 : Cons) (s : State) : Out :=
  if s.opA.poison then .next (s.poisonFault useAddr)
  else
    let n := accSize sz
    match s.place sp .rd s.opA.val n with
    | (.error r, s) => .next (s.refuse r .rd)
    | (.ok l, s') =>
      let waits : Bool := (s'.locKey l).any s.updateWaits
      if waits then .next s
      else
        let s := match l with
          | .mem k => s'.touch (if sp = VSpace.global then s.opA.val else 0) k n
          | .msg ch i o => s'.touchMsg (s'.ctx.graph.chans.getD ch {}) i o n
          | _ => s'
        let (v, p) := s.valueAt s.seen l n
        .next (s.emit [(t0, ⟨extLoad sx sz v, p⟩), (t1, tok (if p then status sPOISON 0 0 else stOK))])

/-- A host channel that the supervisor has given the context, and that is no port of its graph (11 R231; log 21). -/
def State.hostGiven (s : State) (c : BitVec 6) (role : Nat) : Bool :=
  let h := s.dev.hch.getD c.toNat {}
  bitsN h.ctl 2 1 = role && (s.ctx.id.sup || bitsN h.ctl 47 32 = s.ctx.id.job.toNat)
    && !(s.ctx.graph.chans.any fun g => (g.kind == 2 || g.kind == 3) && g.loc.toNat == c.toNat)

/-- LD of the host space (11 R231, 20 R357). -/
def loadHost (s : State) : Out :=
  let a := s.opA
  if a.poison then .next (s.poisonFault useAddr)
  else if bitsN a.val 63 6 ≠ 0 then .next (s.rangeFault a.val)
  else
    let c := BitVec.ofNat 6 a.val.toNat
    if !s.hostGiven c 1 then .next (s.accessFault dCHAN a.val 0)
    else .next (s.withDeadline s.opB fun d =>
      s.begin (.host c) d)

def execLd (sp : Space) (sx : Bool) (sz : Size) (t0 t1 : Cons) (s : State) : Out :=
  match sp with
  | .global => loadFrom .global sx sz t0 t1 s
  | .window => loadFrom .window sx sz t0 t1 s
  | .port => loadFrom .port sx sz t0 t1 s
  | .host => loadHost s

/-! ### Stores -/

/-- The staged item of an output place keeps its poison against a store of fewer than 8 bytes. -/
def State.placePois (s : State) (m : Memory) : Loc → Bool
  | .mem k => m.poisoned k
  | .collar ch o | .hostItem ch o => (((s.ctx.graph.chans.getD ch {}).stage)[o / 8]?).any (·.2)
  | _ => false

/-- A poison event of a store that is not applied (04 R109, R108; 27 R437). -/
def State.poisonEvent (s : State) (l : Loc) (va : Word) : State :=
  match l with
  | .mem k => s.raiseModule 17 [if isHbm k then 1 else 0,
      BitVec.ofNat 64 (k % 2 ^ 48), va]
  | _ => s

/-- A store of the device into a scratchpad word: fewer than 8 bytes do not reach a poisoned word, and an event is recorded. -/
def State.devStore (s : State) (k n v : Nat) (p : Bool) : State :=
  if n < 8 && s.mem.poisoned k then s.poisonEvent (.mem k) 0 else s.onMem fun m => storeMem m none k n v p
/-- A tenant context stores to a register that only a supervisor may write: a privileged use (00 R5). -/
def State.tenantCtl (s : State) (l : Loc) : Bool := match l with | .ctl p o => !s.ctx.id.sup && ctlWs p o | _ => false
/-- A store of the global, window or port space (11 R233). -/
def storeTo (sp : Space) (vs : VSpace) (sz : Size) (t0 t1 : Cons) (s : State) : Out :=
  if s.opA.poison then .next (s.poisonFault useAddr)
  else
    let n := accSize sz
    let a := s.opA
    match s.place vs .wr a.val n with
    | (.error r, s) => .next (s.refuse r .wr)
    | (.ok l, s) =>
      if s.tenantCtl l then .next (s.slotFault 2 0x00E (s.cur.word.setWidth 64) 0)
      else if n < 8 && s.placePois s.seen l then
        let st := tok (status sPOISON 0 0)
        .next (((s.poisonEvent l (if vs = .global then a.val else 0)).hold
          { slot := 0, ins := .st sp sz t0 t1, a := a, b := s.opB }).emit [(t0, st), (t1, st)])
      else
        .next ((s.hold { slot := 0, ins := .st sp sz t0 t1, a := a, b := s.opB, locs := [l], keyslot := s.keySeen }).emit
          [(t0, tok stOK), (t1, tok stOK)])

/-- ST of the host space (11 R231). -/
def storeHost (sz : Size) (t0 t1 : Cons) (s : State) : Out :=
  let a := s.opA
  if a.poison then .next (s.poisonFault useAddr)
  else if bitsN a.val 63 6 ≠ 0 then .next (s.rangeFault a.val)
  else
    let c := BitVec.ofNat 6 a.val.toNat
    if !s.hostGiven c 2 then .next (s.accessFault dCHAN a.val 1)
    else .next ((s.hold { slot := 0, ins := .st .host sz t0 t1, a := a, b := s.opB, locs := [.host c] }).emit
      [(t0, tok stOK), (t1, tok stOK)])

def issueSt (sp : Space) (sz : Size) (t0 t1 : Cons) (s : State) : Out :=
  match sp with
  | .global => storeTo .global .global sz t0 t1 s
  | .window => storeTo .window .window sz t0 t1 s
  | .port => storeTo .port .port sz t0 t1 s
  | .host => storeHost sz t0 t1 s

/-! ### Vector accesses (11 R234) -/

/-- The places of the active lanes, in ascending order, or the fault of the lowest lane that fails. -/
def State.lanePlaces (s : State) (sp : VSpace) (acc : Access) (a : Word) : List Nat → Except Refused (List (Nat × Loc)) × State
  | [] => (.ok [], s)
  | l :: ls =>
    match s.place sp acc (a + BitVec.ofNat 64 (4 * l)) 4 with
    | (.error r, s) => (.error r, s)
    | (.ok p, s) =>
      match s.lanePlaces sp acc a ls with
      | (.error r, s) => (.error r, s)
      | (.ok ps, s) => (.ok ((l, p) :: ps), s)
def State.activeLanes (s : State) (q : BitVec 2) : List Nat := (List.range 32).filter (s.active q)

def touchAll (va : Word) : List (Nat × Loc) → State → State
  | [], s => s
  | (_, .mem k) :: l, s => touchAll va l (s.touch va k 4)
  | _ :: l, s => touchAll va l s

/-- The detail of a misaligned vector access: ADDR goes before ALIGN (11 R235). -/
def misDetail (sp : VSpace) (a : Word) : BitVec 12 := if sp = .global ∧ bitsN a 63 56 ≠ 0 then dADDR else dALIGN
def execLdv (sp : VSpace) (va : BitVec 5) (q : BitVec 2) (t0 : Cons) (s : State) : Out :=
  if s.opA.poison then .next (s.poisonFault useAddr)
  else if s.opA.val.toNat % 4 ≠ 0 then .next (s.accessFault (misDetail sp s.opA.val) s.opA.val 0)
  else
    match s.lanePlaces sp .rd s.opA.val (s.activeLanes q) with
    | (.error r, s) => .next (s.refuse r .rd)
    | (.ok ps, s') =>
      if ps.any fun x => (s'.locKey x.2).any s.updateWaits then .next s
      else
        let s := touchAll (if sp = .global then s.opA.val else 0) ps s'
        let m := s.seen
        let vals := ps.map fun (l, p) => (l, s.valueAt m p 4)
        let any := vals.any fun x => x.2.2
        let s := s.vput q va (s.active q) fun l =>
          match vals.find? (·.1 == l) with
          | some (_, v, p) => ⟨BitVec.ofNat 32 v, p, 0⟩
          | none => ⟨0, false, 0⟩
        .next (s.emit [(t0, tok (if any then status sPOISON 0 0 else stOK))])

def issueStv (sp : VSpace) (va : BitVec 5) (q : BitVec 2) (t0 : Cons) (s : State) : Out :=
  let a := s.opA
  if a.poison then .next (s.poisonFault useAddr)
  else if a.val.toNat % 4 ≠ 0 then .next (s.accessFault (misDetail sp a.val) a.val 1)
  else
    match s.lanePlaces sp .wr a.val (s.activeLanes q) with
    | (.error r, s) => .next (s.refuse r .wr)
    | (.ok ps, s) =>
      let m := s.seen
      let bad := ps.filter fun x => s.placePois m x.2
      let good := ps.filter fun x => !s.placePois m x.2
      let s := bad.foldl (fun s x => s.poisonEvent x.2 (if sp = .global then a.val + BitVec.ofNat 64 (4 * x.1) else 0)) s
      let st := if bad.isEmpty then stOK else status sPOISON 0 0
      .next ((s.hold { slot := 0, ins := .stv sp va q t0, a := a, locs := good.map (·.2)
                       ws := good.map fun x => (s.lane q va x.1).setWidth 64
                       wp := good.map fun x => s.lpois q va x.1, keyslot := s.keySeen }).emit [(t0, tok st)])

/-! ### Stores at commit (11 R233) -/

/-- Stores bytes into the staged item of an output place (14 R295, 11 R230). -/
def State.stagePut (s : State) (ch o n : Nat) (v : Nat) (p : Bool) : State :=
  s.onCtx fun c =>
    let upd (x : Word × Bool) : Word × Bool :=
      if n < 8 && x.2 then x else
      let sh := 8 * (o % 8)
      let old := x.1.toNat / 2 ^ sh % 2 ^ (8 * n)
      (BitVec.ofNat 64 (x.1.toNat - old * 2 ^ sh + v % 2 ^ (8 * n) * 2 ^ sh), if n < 8 then x.2 || p else p)
    { c with graph := { c.graph with chans := modAt c.graph.chans ch fun g => { g with
      stage := modAt g.stage (o / 8) upd
      wrote := g.wrote ++ (List.range n).map (o + ·) } } }

/-- The bytes of staged item `i` that keep what its place held (02 R42). -/
def GChan.keep (g : GChan) (i : Nat) : BitVec 8 :=
  BitVec.ofNat 8 (((List.range 8).map fun b => if g.wrote.contains (8 * i + b) then 0 else 2 ^ b).sum)
/-- The job whose channel a token of the context in focus needs; a supervisor uses any (20 R352, log 21). -/
def State.tokJob (s : State) : Option (BitVec 16) := if s.ctx.id.sup then none else some s.ctx.id.job
/-- Hands a token over to an egress channel (20 R358). -/
def State.putOut (s : State) (c : BitVec 6) (t : OutTok) : State :=
  s.onDev fun d => { d with
    hch := modV d.hch c.toNat fun h => { h with out := h.out ++ [{ t with n := d.nextOut, upd := d.nextUpd, ser := s.ctx.ser }] }
    nextOut := d.nextOut + 1 }

/-- One store of a committing block. -/
def State.applyStore (s : State) (keyslot : BitVec 9) (va : Word) (l : Loc) (n : Nat) (v : Nat) (p : Bool) : State :=
  match l with
  | .mem k =>
    if n < 8 && s.mem.poisoned k then s.poisonEvent l va
    else { s with mem := storeMem s.mem (s.dev.keyAt keyslot.toNat k) k n v p }
  | .ctl pg o => s.ctlWrite pg o (BitVec.ofNat 64 v)
  | .collar ch o | .hostItem ch o => s.stagePut ch o n v p
  | .host c => s.putOut c { val := BitVec.ofNat 64 v, pois := p, ctrl := 0, ctx := s.ctx.id.uid, deps := [s.ctx.id.uid], job := s.tokJob }
  | .msg .. => s

/-- The stores of an ST or STV of a committing block, lane by lane. -/
def State.commitStore (s : State) (e : Eff) : State :=
  match e.ins with
  | .st sp sz .. =>
    e.locs.foldl (fun s l => s.applyStore e.keyslot (if sp = .global then e.a.val else 0) l
      (if sp = .host then 8 else accSize sz) e.b.val.toNat e.b.poison) s
  | .stv .. =>
    (e.locs.zip (e.ws.zip e.wp)).foldl (fun s (l, w, p) => s.applyStore e.keyslot 0 l 4 w.toNat p) s
  | _ => s

def execSt (sp : Space) (sz : Size) (t0 t1 : Cons) (s : State) : Out :=
  match s.who with
  | .cmd e => .next ((s.unqueue e).commitStore e)
  | .core => issueSt sp sz t0 t1 s
def execStv (sp : VSpace) (va : BitVec 5) (q : BitVec 2) (t0 : Cons) (s : State) : Out :=
  match s.who with
  | .cmd e => .next ((s.unqueue e).commitStore e)
  | .core => issueStv sp va q t0 s

/-! ### The tag table (04 R91 to R93) -/

def Ctx.tagSet (c : Ctx) (set : Nat) : List TagWay :=
  (getKey set c.tags).getD [{ rank := 0 }, { rank := 1 }, { rank := 2 }, { rank := 3 }]
/-- A way becomes newest in its set. -/
def newest (ws : List TagWay) (w : Nat) : List TagWay :=
  let r := ((ws[w]?).map (·.rank)).getD 3
  (ws.zipIdx).map fun (x, i) => if i = w then { x with rank := 0 } else if x.rank < r then { x with rank := x.rank + 1 } else x
def Ctx.putTags (c : Ctx) (set : Nat) (ws : List TagWay) : Ctx := { c with tags := setKey set ws c.tags }

def tagOf (va : Word) : BitVec 38 := BitVec.ofNat 38 (bitsN va 55 18)
def hitWay (ws : List TagWay) (tag : BitVec 38) : Option Nat := firstIdx (fun w => w.valid && w.tag == tag) ws 0
/-- The suggested victim. -/
def victim (ws : List TagWay) : Nat :=
  match firstIdx (fun w => !w.valid) ws 0 with
  | some i => i
  | none => (firstIdx (fun w => w.rank == 3) ws 0).getD 0

def execTlook (t0 t1 : Cons) (s : State) : Out :=
  let a := s.opA
  if a.poison then .next (s.poisonFault useAddr)
  else if bitsN a.val 63 56 ≠ 0 then .next (s.accessFault dADDR a.val 0)
  else
    let set := bitsN a.val 17 8
    let ws := s.ctx.tagSet set
    match hitWay ws (tagOf a.val) with
    | some w =>
      let r := tok (BitVec.ofNat 64 (4 * set + w))
      .next ((s.onCtx fun c => c.putTags set (newest ws w)).emit [(t0, r), (t1, r)])
    | none =>
      let v := victim ws
      let vv := ((ws[v]?).map (·.valid)).getD false
      let r := tok (BitVec.ofNat 64 (2 ^ 15 + (if vv then 2 ^ 14 else 0) + 4 * set + v))
      .next (s.emit [(t0, r), (t1, r)])

def issueTset (s : State) : Out :=
  let a := s.opA
  let b := s.opB
  if a.poison then .next (s.poisonFault useAddr)
  else if b.poison then .next (s.poisonFault useOther)
  else if bitsN a.val 63 56 ≠ 0 then .next (s.accessFault dADDR a.val 1)
  else if bitsN b.val 63 12 ≠ 0 ∨ bitsN b.val 11 2 ≠ bitsN a.val 17 8 then .next (s.rangeFault b.val)
  else .next ((s.hold { slot := 0, ins := .tset, a := a, b := b }).quiet)

def issueTclr (s : State) : Out :=
  let a := s.opA
  if a.poison then .next (s.poisonFault useOther)
  else if bitsN a.val 63 12 ≠ 0 then .next (s.rangeFault a.val)
  else .next ((s.hold { slot := 0, ins := .tclr, a := a }).quiet)

/-- TSET and TCLR at commit. -/
def Ctx.commitTset (c : Ctx) (va slot : Word) : Ctx :=
  let set := bitsN slot 11 2
  let w := bitsN slot 1 0
  let ws := (c.tagSet set).map fun x => if x.valid && x.tag == tagOf va then { x with valid := false } else x
  c.putTags set (newest (modAt ws w fun x => { x with valid := true, tag := tagOf va }) w)
def Ctx.commitTclr (c : Ctx) (slot : Word) : Ctx :=
  let set := bitsN slot 11 2
  c.putTags set (modAt (c.tagSet set) (bitsN slot 1 0) fun x => { x with valid := false })
def execTset (s : State) : Out :=
  match s.who with
  | .cmd e => .next ((s.unqueue e).onCtx fun c => c.commitTset e.a.val e.b.val)
  | .core => issueTset s
def execTclr (s : State) : Out :=
  match s.who with
  | .cmd e => .next ((s.unqueue e).onCtx fun c => c.commitTclr e.a.val)
  | .core => issueTclr s

end Sys2Proof.Machine
end

