-- ==== Sys2Proof/Machine/Units.lean ====
section
/-! DEFINITION. The sparse-update units: where an update goes, its window and order buffer, what it does to its word,
and rounds (04 R102 to R107; 11 R247 to R251; 24 R408, R409). -/

namespace Sys2Proof.Machine

/-! ### What an update computes (11 R247) -/

/-- Operations that return the old word. -/
def amoReturns : AmoOp → Bool | .swap | .xadd => true | _ => false
/-- Bytes of the target. -/
def amoSize : AmoTy → Nat | .d => 8 | _ => 4

def amoHalf (op : AmoOp) (ty : AmoTy) (x v : Half) : Half :=
  let f := ty == .f
  match op with
  | .add | .xadd => if f then (fadd false x v).1 else x + v
  | .min => if f then fminmax false false x v else if ty == .wn then (if v.toNat < x.toNat then v else x)
            else (if v.toInt < x.toInt then v else x)
  | .max => if f then fminmax false true x v else if ty == .wn then (if x.toNat < v.toNat then v else x)
            else (if x.toInt < v.toInt then v else x)
  | .and => x &&& v
  | .or => x ||| v
  | .xor => x ^^^ v
  | .swap => v
def amoWide (op : AmoOp) (x v : Word) : Word :=
  match op with
  | .add | .xadd => x + v
  | .min => if v.toInt < x.toInt then v else x
  | .max => if x.toInt < v.toInt then v else x
  | .and => x &&& v
  | .or => x ||| v
  | .xor => x ^^^ v
  | .swap => v
/-- The new word from the old one and the operand. -/
def amoNew (op : AmoOp) (ty : AmoTy) (x v : Word) : Word :=
  match ty with
  | .d => amoWide op x v
  | _ => (amoHalf op ty (x.setWidth 32) (v.setWidth 32)).setWidth 64

/-! ### Units (04 R102) -/

/-- SRCK and SRCN of a unit (24 R408). -/
def unitSource (u : Nat) : BitVec 8 × BitVec 16 :=
  if u < 1024 then (1, BitVec.ofNat 16 u) else (2, BitVec.ofNat 16 ((u - 1024) % 1024))

def State.usu (s : State) (n : Nat) : USU := (s.dev.units.find? (·.num == n)).getD { num := n }
def putUsu (l : List USU) (n : Nat) (f : USU → USU) : List USU :=
  if l.any (·.num == n) then l.map fun u => if u.num = n then f u else u else l ++ [f { num := n }]
def State.onUsu (s : State) (n : Nat) (f : USU → USU) : State :=
  s.onDev fun d => { d with units := putUsu d.units n f }

def Update.asSub (x : Update) : Sub := { ctx := x.ctx, id := x.id, stream := x.stream, ucount := x.ucount, va := x.va }
/-- Two updates that return nothing, of one word, operation and type. -/
def Update.like (x y : Update) : Bool :=
  x.ret.isNone && y.ret.isNone && x.key == y.key && x.op == y.op && x.ty == y.ty
/-- `y` merged into `x`, which came first. -/
def Update.join (x y : Update) : Update :=
  { x with v := amoNew x.op x.ty x.v y.v, vpois := x.vpois || y.vpois, subs := x.subs ++ y.asSub :: y.subs }

/-- Closes of a context that stand at a unit. -/
def USU.closesOf (u : USU) (job : BitVec 16) (ctx : Nat) : Nat :=
  match u.closes.find? (·.1 == job) with
  | some (_, l, _) => l.count ctx
  | none => 0
def joinFirst (p : Update → Bool) (y : Update) : List Update → List Update
  | [] => []
  | x :: l => if p x then x.join y :: l else x :: joinFirst p y l
/-- An update reaches its unit (04 R103, R107); none when the window or the order buffer is full. -/
def USU.offer (u : USU) (x : Update) : Option USU :=
  if x.fixed then
    let x := { x with epoch := u.closesOf x.job x.ctx }
    let same (e : Update) : Bool := e.like x && e.source == x.source && e.stream == x.stream && e.epoch == x.epoch
      && e.job == x.job
    if u.order.any same then some { u with order := joinFirst same x u.order }
    else if u.order.length < 4096 then some { u with order := u.order ++ [x] } else none
  else if u.window.length < 32 then some { u with window := u.window ++ [x] } else none
def State.offer (s : State) (x : Update) : Option State :=
  ((s.usu (unitOf x.key)).offer x).map fun u => s.onUsu (unitOf x.key) fun _ => u

/-! ### Applying an update (11 R247 to R249, 04 R109, R448) -/

/-- Status of a malformed return record. -/
def stBADREC : Word := fault 0x055 0

/-- OLD as it is written. -/
def oldWord (ty : AmoTy) (old : Word) : Word :=
  match ty with
  | .w => (old.setWidth 32).signExtend 64
  | _ => old

def State.memPut (s : State) (k : Nat) (v : Word) (p : Bool) : State :=
  s.onMem fun m => (m.setRaw k v.toNat 8).setPoison k p

/-- The update of a word: memory, the old word, whether it was poisoned, whether CAS stored. -/
def Update.act (x : Update) (d : Dev) (m : Memory) (v cmp : Word) (vp : Bool) : Memory × Word × Bool × Bool :=
  let n := (amoSize x.ty)
  let kv := d.keyAt x.keyslot.toNat x.key
  let old : Word := BitVec.ofNat 64 (m.read kv x.key n)
  if m.poisoned x.key then (m, old, true, false)
  else if x.cas then
    let eq := if n = 8 then old == cmp else old.setWidth 32 == cmp.setWidth 32
    if eq then (storeMem m kv x.key n v.toNat vp, old, false, true) else (m, old, false, false)
  else (storeMem m kv x.key n (amoNew x.op x.ty old v).toNat vp, old, false, true)

/-- The unit applies one update: the state, and what delivers its returned values. -/
def State.actUpdate (s : State) (x : Update) : State × (State → State) :=
  let s := s.touch x.va x.key (amoSize x.ty)
  match x.ret with
  | none => ({ s with mem := (x.act s.dev s.mem x.v 0 x.vpois).1 }, id)
  | some r =>
    let s := s.touch 0 r 32
    let w (i : Nat) : Word := s.mem.word (r + 8 * i)
    let bad := [0, 1, 3].any fun i => s.mem.poisoned (r + 8 * i)
    if bad || (w 3).getLsbD 63 || bitsN (w 3) 58 0 ≠ 0 then (s, fun s => s.memPut (r + 24) stBADREC false)
    else
      let (m, old, p, did) := x.act s.dev s.mem (w 0) (w 1) false
      let st := if p then status sPOISON 0 0 else status 0 0 (if x.cas && did then 1 else 0)
      let push := (w 3).getLsbD 62
      let q := bitsN (w 3) 61 59
      ({ s with mem := m }, fun s =>
        let s := (s.memPut (r + 16) (oldWord x.ty old) p).memPut (r + 24) st false
        if push then s.within x.ctx fun s => s.onCtx fun c => c.postPush q else s)
/-- The unit applies one update and delivers what it returns. -/
def State.applyUpdate (s : State) (x : Update) : State := let r := s.actUpdate x; r.2 r.1

/-! ### Rounds (04 R107) -/

/-- Contexts of a job that are placed and have neither completed nor been killed. -/
def State.jobCount (s : State) (job : BitVec 16) : Nat :=
  ((s.allCtxs ++ s.dev.saved.map (·.ctx)).filter fun c => c.id.job == job).length

/-- The job of a launch and those of the launches above it (02 R57). -/
def Dev.jobChain (d : Dev) : Nat → Nat → List (BitVec 16)
  | 0, _ => []
  | n + 1, num => match d.launches.find? (·.num == num) with
    | none => []
    | some l => l.job :: match l.parent.bind fun p => d.launches.find? (·.uids.contains p.1) with
      | some q => d.jobChain n q.num
      | none => []
/-- The jobs whose rounds a context counts in: its own and those of the launches that it descends from (04 R107). -/
def Dev.roundJobs (d : Dev) (id : Ident) : List (BitVec 16) := (id.job :: d.jobChain d.launches.length id.launch).dedup
/-- N of a job's rounds. -/
def State.roundCount (s : State) (job : BitVec 16) : Nat :=
  ((s.allCtxs ++ s.dev.saved.map (·.ctx)).filter fun c => (s.dev.roundJobs c.id).contains job).length

/-- A close of a context reaches a unit. -/
def USU.close (u : USU) (job : BitVec 16) (ctx n : Nat) : USU :=
  if u.closes.any (·.1 == job) then
    { u with closes := u.closes.map fun x => if x.1 = job then (job, x.2.1 ++ [ctx], n) else x }
  else { u with closes := u.closes ++ [(job, [ctx], n)] }
/-- A context that ends counts as one close where a round of its job is open, unless it has closed it. Where no close has come
yet, N is that which the updates carry. -/
def USU.closeEnded (u : USU) (job : BitVec 16) (ctx : Nat) : USU :=
  if u.closes.any (·.1 == job) then
    { u with closes := u.closes.map fun x =>
        if x.1 = job && !x.2.1.contains ctx then (job, x.2.1 ++ [ctx], x.2.2) else x }
  else match (u.order.filter (·.job == job)).getLast? with
    | some x => u.close job ctx x.n
    | none => u

/-- The jobs whose round closes at a unit. -/
def State.closing (s : State) (u : USU) : List (BitVec 16) :=
  let done (j : BitVec 16) : Bool :=
    s.roundCount j = 0 && !(s.dev.pending.any (·.job == j))
  ((u.closes.filter fun x => x.2.2 ≤ x.2.1.dedup.length || done x.1).map (·.1))
    ++ ((u.order.map (·.job)).filter fun j => done j && !(u.closes.any (·.1 == j)))

/-- Keys of fixed order. -/
def Update.before (x y : Update) : Bool :=
  if x.source ≠ y.source then x.source < y.source
  else if x.stream ≠ y.stream then x.stream < y.stream
  else x.seq < y.seq
def insUpd (x : Update) : List Update → List Update
  | [] => [x]
  | y :: l => if x.before y then x :: y :: l else y :: insUpd x l
def sortUpd : List Update → List Update
  | [] => []
  | x :: l => insUpd x (sortUpd l)
/-- Updates applied one after another; then what they return is delivered (18 R337). -/
def actAll : List Update → State → State × List (State → State)
  | [], s => (s, [])
  | x :: l, s =>
    let r := s.actUpdate x
    let q := actAll l r.1
    (q.1, r.2 :: q.2)
def applyAll (l : List Update) (s : State) : State := let r := actAll l s; r.2.foldl (fun s f => f s) r.1
/-- Takes one close of each of the contexts whose close counts. -/
def eraseAll : List Nat → List Nat → List Nat
  | [], l => l
  | x :: xs, l => eraseAll xs (l.erase x)
/-- Entries of the round of a job. -/
def USU.entries (u : USU) (job : BitVec 16) : List Update := sortUpd (u.order.filter fun x => x.job == job && x.epoch == 0)
def USU.ordinal (u : USU) (job : BitVec 16) : Nat := ((u.rounds.find? (·.1 == job)).map (·.2)).getD 0
/-- The unit after the round. -/
def USU.closed (u : USU) (job : BitVec 16) : USU :=
  let n := (u.entries job).length
  let k := u.ordinal job + 1
  { u with
    order := (u.order.filter fun x => !(x.job == job && x.epoch == 0)).map fun x =>
      if x.job = job then { x with epoch := x.epoch - 1 } else x
    closes := (u.closes.map fun x => if x.1 = job then (job, eraseAll x.2.1.dedup x.2.1, x.2.2) else x).filter
      fun x => !x.2.1.isEmpty
    applied := u.applied + n
    rounds := (u.rounds.filter (·.1 != job)) ++ [(job, k)] }

/-- The round of a job closes at a unit: its ROUND record, then its entries in key order. -/
def State.closeRound (s : State) (n : Nat) (job : BitVec 16) : State :=
  let u := s.usu n
  let es := u.entries job
  let who := ((u.closes.find? (·.1 == job)).map (·.2.1.dedup)).getD []
  let src := unitSource n
  let r : LogRec := { type := 6, srck := src.1, srcn := src.2, lseq := some (BitVec.ofNat 32 u.applied)
                      w1 := BitVec.ofNat 64 (job.toNat + u.ordinal job % 2 ^ 32 * 2 ^ 32)
                      w2 := BitVec.ofNat 64 es.length }
  let recs := if es.isEmpty then [] else (who.filter fun c => (s.ctxOf c).any (·.logOn)).map fun c => (c, r)
  s.loggedAll recs fun s => applyAll es (s.onUsu n fun u => u.closed job)

/-! ### The window (04 R103 to R105) -/

/-- The token at place `n` may be applied, or merged, now. -/
def mayApply (w : List Update) (n : Nat) : Bool :=
  match w[n]? with
  | none => false
  | some x =>
    (match firstIdx (fun y => 32 ≤ y.overtaken) w 0 with | some i => i == n | none => true)
    && (w.take n).all fun y => y.key / 8 != x.key / 8 && !(y.ord && x.ord && y.ctx == x.ctx && y.stream == x.stream)
/-- The token at place `n` may merge into the one at place `m`: the latest earlier one of its word (04 R104). -/
def mergeInto (w : List Update) (n : Nat) : Option Nat :=
  match w[n]? with
  | none => none
  | some x =>
    let before := ((w.take n).zipIdx).filter fun (y, _) => y.key / 8 == x.key / 8
    match before.getLast? with
    | some (y, m) =>
      if y.like x && !((x.ord || y.ord) && !(x.ctx == y.ctx && x.stream == y.stream))
         && (w.take n).all (fun z => !(z.ord && x.ord && z.ctx == x.ctx && z.stream == x.stream) || z == y) then some m
      else none
    | none => none
def overtake : Nat → List Update → List Update
  | 0, l => l.drop 1
  | _, [] => []
  | n + 1, x :: l => { x with overtaken := x.overtaken + 1 } :: overtake n l

/-- AMO MOD of an update. -/
def Update.mod (x : Update) : Nat := if x.cas then x.ty.enc * 8 else x.op.enc + x.ty.enc * 8
/-- MERGE records of an update and of those merged into it. -/
def Update.records (x : Update) (unit lseq : Nat) : List (Nat × LogRec) :=
  let src := unitSource unit
  let one (y : Sub) (i : Nat) (into : Nat) : Nat × LogRec :=
    (y.ctx, { type := 5, srck := src.1, srcn := src.2, lseq := some (BitVec.ofNat 32 (lseq + i))
              w1 := BitVec.ofNat 64 (y.stream + y.ucount * 256)
              w2 := BitVec.ofNat 64 (y.va.toNat % 2 ^ 56 + x.mod * 2 ^ 56)
              w3 := BitVec.ofNat 64 into })
  one x.asSub 0 0xFFFFFFFF :: (x.subs.zipIdx).map fun (y, i) => one y (i + 1) (lseq % 2 ^ 32)

/-- UPDATE_TOKEN_APPLY (04 R103, R104). -/
def execUpdateTokenApply (u n : Nat) (merge : Bool) (s : State) : Out :=
  let unit := s.usu u
  if merge then
    match mergeInto unit.window n, unit.window[n]? with
    | some m, some y =>
      .next (s.onUsu u fun v => { v with window := (modAt v.window m (·.join y)).eraseIdx n })
    | _, _ => .next s
  else if mayApply unit.window n then
    match unit.window[n]? with
    | some x =>
      let recs := (x.records u unit.applied).filter fun r => (s.ctxOf r.1).any (·.logOn)
      .next (s.loggedAll recs fun s => (s.onUsu u fun v => { v with
        window := overtake n v.window, applied := v.applied + 1 + x.subs.length }).applyUpdate x)
    | none => .next s
  else .next s

/-- ROUND_CLOSE (04 R107). -/
def execRoundClose (u : Nat) (s : State) : Out :=
  match s.closing (s.usu u) with
  | j :: _ => .next (s.closeRound u j)
  | [] => .next s

/-! ### Effects that wait for updates (11 R251) -/

/-- Updates a held atomic still has to hand over. -/
def effUpds (e : Eff) : Nat :=
  match e.ins with
  | .amo .. | .cas .. => 1
  | .amov .. => e.locs.length
  | _ => 0
/-- Stores and tag effects, which an earlier one that waits holds back (11 R233, 22 R389). -/
def isStore : Instr → Bool | .st .. | .stv .. | .tset | .tclr => true | _ => false
def isUpdate : Instr → Bool | .amo .. | .amov .. | .cas .. => true | _ => false
/-- An update has been handed over and applied. -/
def State.updateDone (s : State) (id : Nat) : Bool :=
  let inEff (e : Eff) : Bool := e.upd ≤ id && id < e.upd + effUpds e
  id < s.dev.nextUpd && !(s.ctx.lq.any inEff) && !(match s.ctx.holdScalar with | some (_, e) => inEff e | none => false)
    && !(s.dev.units.any fun u => (u.window ++ u.order).any fun x => x.id == id || x.subs.any (·.id == id))
/-- A store has been handed over and performed. -/
def State.storeDone (s : State) (ser : Nat) : Bool := ser ≤ s.ctx.ser && !(s.ctx.lq.any fun e => e.ser == ser)
/-- The scalar-path accesses with serials up to `x.1` and updates below `x.2` are performed; under fixed order nothing but
the closing FENCE orders an update before what follows (11 R251). -/
def State.scalarDone (s : State) (x : Nat × Nat) : Bool :=
  x.1 ≤ s.ctx.ser
    && !(s.ctx.lq.any fun e => e.ser ≤ x.1 && (isStore e.ins || (isUpdate e.ins && !e.fix)))
    && !(s.dev.units.any fun u => u.window.any fun y =>
      (y.ctx == s.ctx.id.uid && y.id < x.2) || y.subs.any fun z => z.ctx == s.ctx.id.uid && z.id < x.2)
/-- The scalar-path accesses that precede what a command does: for ABAR and DPUT those of earlier blocks (04 R97, 13 R276),
for SETF and CLRF those of their own block too (13 R278). -/
def Eff.wall (e : Eff) : Option (Nat × Nat) :=
  match e.ins with
  | .abar | .dput _ => some e.base
  | .setf _ | .clrf _ => some e.top
  | _ => none
/-- A read of an earlier block that is still to be made comes before a store or update (04 R96, block order). -/
def Ctx.readsFirst (c : Ctx) (e : Eff) : Bool :=
  (isStore e.ins || isUpdate e.ins) && c.unread.any (· ≤ e.base.1)
/-- An ABAR of an earlier block that waits comes before a store or update (04 R97). -/
def Ctx.behindAbar (c : Ctx) (e : Eff) : Bool :=
  (isStore e.ins || isUpdate e.ins) && c.lq.any fun x => x.ins == .abar && x.ser ≤ e.base.1
/-- What comes before a command by a token edge, by its wall or by an earlier read is done. -/
def State.effFree (s : State) (e : Eff) : Bool :=
  e.after.all s.updateDone && e.behind.all s.storeDone
    && (match e.wall with | some x => s.scalarDone x | none => true) && !s.ctx.readsFirst e && !s.ctx.behindAbar e

end Sys2Proof.Machine
end

