-- ==== Sys2Proof/Machine/Streams.lean ====
section
/-! DEFINITION. Streams: descriptors, the commands that define, start and stop them, their elements, port transforms and
merges, receive rings (11 R236 to R245, R252 to R255; 01 R25; 03 R70, R71; 22 R389). -/

namespace Sys2Proof.Machine

/-! ### Descriptors (11 R237) -/

def Stream.w (t : Stream) (i : Nat) : Word := t.desc.getD i 0
def Stream.mode (t : Stream) : Nat := bitsN (t.w 1) 2 0
def Stream.win (t : Stream) : Bool := bitsN (t.w 1) 9 8 = 1
def Stream.group (t : Stream) : Nat := bitsN (t.w 1) 11 10
def Stream.gv (t : Stream) : Bool := bitsN (t.w 1) 12 12 = 1
def Stream.ord (t : Stream) : Bool := bitsN (t.w 1) 13 13 = 1
def Stream.istr (t : Stream) : Nat := bitsN (t.w 1) 20 16
def Stream.ishift (t : Stream) : Nat := bitsN (t.w 1) 23 21
def Stream.port (t : Stream) : Nat := bitsN (t.w 1) 27 24
def Stream.n (t : Stream) (i : Nat) : Nat := (t.w 2).toNat / 2 ^ (16 * i) % 65536
/-- Bytes of an element. -/
def Stream.size (t : Stream) : Nat := 2 ^ streamEsz t

/-- Fields of a descriptor are in range. -/
def Stream.fieldsOk (t : Stream) : Bool :=
  let z (i : Nat) : Bool := t.w i == 0
  bitsN (t.w 0) 63 56 = 0 && bitsN (t.w 1) 63 28 = 0 && bitsN (t.w 1) 15 14 = 0 && bitsN (t.w 1) 7 7 = 0
    && t.ishift ≤ 4 && bitsN (t.w 1) 9 8 ≤ 1 && streamEsz t ≤ 4 && t.mode ≤ 2 && z 7
    && (List.range 4).all (fun i => t.n i != 0)
    && (t.mode != 2 || (t.n 1 = 1 && t.n 2 = 1 && t.n 3 = 1 && z 3 && z 4 && z 5 && z 6 && streamEsz t ≤ 3))
    && (t.mode != 1 || (bitsN (t.w 5) 63 48 = 0 && bitsN (t.w 5) 39 36 != 0 && bitsN (t.w 5) 35 32 != 0
        && bitsN (t.w 5) 31 16 != 0 && bitsN (t.w 5) 15 0 != 0 && z 6))
    && !(t.gv && !t.win)
/-- The checks of ISTR (11 R239). -/
def Ctx.istrOk (c : Ctx) (s : Nat) (t : Stream) : Bool :=
  t.mode != 2 || (let i := c.streams.getD t.istr {}
    t.istr != s && i.st != .undef && !streamWrite i && streamEsz i = 2 && i.mode != 2)

/-! ### Port settings (11 R252, R253, 01 R25) -/

def Ctx.portSet (c : Ctx) (t : Stream) : PortSet := c.ports.getD t.port {}
def Ctx.cfgOf (c : Ctx) (t : Stream) : PortCfg := if streamWrite t then (c.portSet t).wr else (c.portSet t).rd

/-- A stream has made its last access: what waited for it alone takes effect. -/
def pass {α : Type} (s : Nat) : Option (α × List Nat) → Option α × Option (α × List Nat)
  | some (v, l) => let l := l.filter (· != s); if l.isEmpty then (some v, none) else (none, some (v, l))
  | none => (none, none)
def PortSet.pass (p : PortSet) (s : Nat) : PortSet :=
  let w := Machine.pass s p.nextWr
  let r := Machine.pass s p.nextRd
  let m := Machine.pass s p.nextMerge
  { wr := w.1.getD p.wr, rd := r.1.getD p.rd, merge := m.1.getD p.merge
    nextWr := w.2, nextRd := r.2, nextMerge := m.2 }
/-- A setting of a side that takes effect resets the pattern counter of the streams it applies to: a group being read is begun anew, and
the words still to be written of a group stay elements (11 R252; log 116). -/
def Stream.resetPattern (t : Stream) : Stream :=
  if t.bed.isSome || t.pat.isEmpty then t
  else if streamWrite t then { t with buf := t.pat ++ t.buf, pat := [] } else { t with pat := [] }
/-- A stream of port `p` has made its last access. -/
def Ctx.passPort (c : Ctx) (p s : Nat) : Ctx :=
  let x := c.ports.getD p {}
  let y := x.pass s
  let hit (t : Stream) : Bool := t.port == p && (if streamWrite t then x.nextWr.isSome && y.nextWr.isNone else x.nextRd.isSome && y.nextRd.isNone)
  { c with ports := setV c.ports p y, streams := c.streams |> mapV fun t => if hit t then t.resetPattern else t }
/-- Live streams of a side of a port. -/
def Ctx.liveOn (c : Ctx) (p : Nat) (write : Bool) : List Nat :=
  (List.range 32).filter fun i => let t := c.streams.getD i {}
    t.st.live && t.port == p && streamWrite t == write

/-! ### Ends of a stream -/

def Ctx.onStream (c : Ctx) (s : Nat) (f : Stream → Stream) : Ctx := { c with streams := modV c.streams s f }
def Stream.toIdle (t : Stream) : Stream :=
  { t with st := .idle, buf := [], claim := none, hold := none, pat := [], idx := [] }
def Ctx.streamIdle (c : Ctx) (s : Nat) : Ctx :=
  let p := (c.streams.getD s {}).port
  (c.onStream s Stream.toIdle).passPort p s
/-- RUN ends when the last element has been delivered or performed (11 R239). -/
def Ctx.settle (c : Ctx) (s : Nat) : Ctx :=
  let t := c.streams.getD s {}
  if t.st == .run && !t.more && t.buf.isEmpty then c.streamIdle s else c

/-- Takes elements of a read stream, oldest first. -/
def Ctx.takeElems (c : Ctx) (s n : Nat) : Ctx :=
  (c.onStream s fun t => { t with buf := t.buf.drop n, used := t.used + n }).settle s
/-- Supplies an element of a write stream. -/
def Ctx.giveElem (c : Ctx) (s : Nat) (e : Elem) : Ctx :=
  c.onStream s fun t => { t with buf := t.buf ++ [e], used := t.used + 1 }
/-- A party uses a stream in RUN (11 R241): it becomes, or is, its only consumer or producer. -/
def Ctx.claim (c : Ctx) (s : Nat) (p : Claim) : Option Ctx :=
  let t := c.streams.getD s {}
  match t.claim with
  | none => some (if t.st.live then c.onStream s fun t => { t with claim := some p } else c)
  | some q => if q = p then some c else none

/-! ### Holds (22 R389, R390) -/

/-- STREAM event. -/
def State.streamEvent (s : State) (path num : Nat) (h : Hold) (k : Nat) : State :=
  s.raise 2 [BitVec.ofNat 64 (path + num * 4 + h.detail.toNat * 2 ^ 7 + h.acc.toNat * 2 ^ 19), h.addr, BitVec.ofNat 64 k]
def State.holdStream (s : State) (n : Nat) (h : Hold) : State :=
  let k := (s.ctx.streams.getD n {}).k
  (s.onCtx fun c => c.onStream n fun t => { t with st := .held, hold := some h }).streamEvent 0 n h k

/-! ### Addresses of elements (11 R238) -/

def wmul (n : Nat) (w : Word) : Word := BitVec.ofNat 64 n * w
def Stream.coords (t : Stream) (k : Nat) : Nat × Nat × Nat × Nat :=
  (k % t.n 0, k / t.n 0 % t.n 1, k / (t.n 0 * t.n 1) % t.n 2, k / (t.n 0 * t.n 1 * t.n 2))
/-- The address of element `k` whose index is `idx`; none for a fill. -/
def Stream.addr (t : Stream) (k : Nat) (idx : Word) : Option Word :=
  let (i0, i1, i2, i3) := t.coords k
  match t.mode with
  | 0 => some (t.w 0 + wmul i0 (t.w 3) + wmul i1 (t.w 4) + wmul i2 (t.w 5) + wmul i3 (t.w 6))
  | 1 =>
    let d := t.w 5
    let y : Int := i3 * bitsN d 35 32 + i1 - bitsN d 43 40
    let x : Int := i2 * bitsN d 39 36 + i0 - bitsN d 47 44
    if 0 ≤ y && y < bitsN d 15 0 && 0 ≤ x && x < bitsN d 31 16 then
      some (t.w 0 + wmul y.toNat (t.w 3) + wmul x.toNat (t.w 4))
    else none
  | _ => some (t.w 0 + (idx <<< t.ishift))
/-- The element whose address element `k` uses under TRANS (11 R252). -/
def transOf (p : PortCfg) (k : Nat) : Nat :=
  if p.kind = 1 then
    let rc := p.rows * p.cols
    let c := k % rc
    k / rc * rc + c % p.cols * p.rows + c / p.cols
  else k
/-- First element whose index `idx` holds. -/
def idxBase (p : PortCfg) (k : Nat) : Nat := if p.kind = 1 then k / (p.rows * p.cols) * (p.rows * p.cols) else k

/-- What a stream knows of the index of an element. -/
inductive Index where
  | got (e : Elem) | wait | none | claimed
deriving DecidableEq, Repr

/-- Takes indices from ISTR until the one of element `m` is held (11 R238, R241). -/
def Ctx.index (c : Ctx) (s m base : Nat) : Index × Ctx :=
  let t := c.streams.getD s {}
  match t.idx[m - base]? with
  | some e => (.got e, c)
  | none =>
    let i := c.streams.getD t.istr {}
    if !i.st.live then (.none, c)
    else match c.claim t.istr (.index (BitVec.ofNat 5 s)) with
      | none => (.claimed, c)
      | some c =>
        let need := m - base + 1 - t.idx.length
        let have_ := i.buf.take need
        let c := (c.onStream s fun t => { t with idx := t.idx ++ have_ }).takeElems t.istr have_.length
        match (t.idx ++ have_)[m - base]? with
        | some e => (.got e, c)
        | none => (if (c.streams.getD t.istr {}).st.live then .wait else .none, c)

/-! ### One access -/

/-- The place of an access of `n` bytes of a stream, in the order of 11 R235. -/
def State.streamPlace (s : State) (t : Stream) (acc : Access) (a : Word) (n : Nat) : Except (BitVec 12) Loc × State :=
  if t.win then
    (match s.window a n with
      | .error d => .error d
      | .ok l => if t.gv && winGroup s.ctx.id.wlog a.toNat ≠ t.group then .error dGROUP else .ok l, s)
  else s.globalMem (s.whoOf t.space s.keyNow) acc a n

/-- An access of a stream as it is presented: where it goes, or what becomes of it instead. -/
inductive Aim where
  /-- the place and its address, or a fill -/
  | to (l : Loc) (a : Word)
  | fill
  | wait
  | hold (h : Hold)
  /-- the index stream has another consumer -/
  | claimed
deriving DecidableEq, Repr

/-- The width of one access of a stream: a bed reads 8-byte plane words (11 R245). -/
def Stream.width (t : Stream) : Nat := if t.bed.isSome then 8 else t.size
/-- Address of plane word `k` of a bed. -/
def Stream.bedAddr (t : Stream) (k : Nat) : Word :=
  match t.bed with
  | some (p, _, nb) =>
    let plane := 8 * ((t.n 0 * (if nb then 4 else 2) + 63) / 64)
    t.w 0 + BitVec.ofNat 64 (k % p * plane + k / p * 8)
  | none => 0

/-- Presents access `k` of stream `s` to its checks. -/
def State.aim (s : State) (n : Nat) (acc : Access) (code : BitVec 2) : Aim × State :=
  let t := s.ctx.streams.getD n {}
  let cfg := s.ctx.cfgOf t
  let m := if t.bed.isSome then t.k else transOf cfg t.k
  let (ix, c) := if t.bed.isNone && t.mode = 2 then s.ctx.index n m (idxBase cfg t.k) else (.got { val := 0 }, s.ctx)
  let s := { s with ctx := c }
  let bad := (cfg.kind = 1 && cfg.esz.toNat ≠ streamEsz t) || (2 ≤ cfg.kind.toNat && streamEsz t ≠ 3)
  let badMerge := streamWrite t && (match (s.ctx.portSet t).merge with
    | some .addD => t.size != 8
    | some _ => t.size != 4
    | none => false)
  match ix with
  | .wait => (.wait, s)
  | .claimed => (.claimed, s)
  | .none => (.hold ⟨if bad || badMerge then dXFORM else dNOINDEX, 0, code⟩, s)
  | .got e =>
    if e.poison then (.hold ⟨dPADDR, 0, code⟩, s)
    else match (if t.bed.isSome then some (t.bedAddr t.k) else t.addr m (e.val.setWidth 32 |>.setWidth 64)) with
      | none => (.fill, s)
      | some a =>
        match s.streamPlace t acc a t.width with
        | (.error d, s) => (.hold ⟨d, a, code⟩, s)
        | (.ok l, s) =>
          if bad || badMerge then (.hold ⟨dXFORM, a, code⟩, s) else (.to l a, s)

/-- `n` bytes read at a place, with the key in force, and their poison. -/
def State.readElem (s : State) (a : Word) (l : Loc) (n : Nat) : Elem × State :=
  let s := match l with | .mem k => s.touch a k n | _ => s
  let (v, p) := s.valueAt s.mem l n
  let q := match l with | .mem k => n = 16 && s.mem.poisoned (k + 8) | _ => false
  ({ val := BitVec.ofNat 128 v, poison := p || q }, s)

/-! ### Groups of words (11 R245, R252; 03 R70, R71) -/

/-- Bit `j` of word `i` of a group. -/
def grpBit (g : List Elem) (i j : Nat) : Nat := (g.getD i { val := 0 }).val.toNat / 2 ^ j % 2
def grpPois (g : List Elem) : Bool := g.any (·.poison)
/-- The number whose bit `j` is `f j`, for `w` bits. -/
def fromBits (f : Nat → Nat) : Nat → Nat
  | 0 => 0
  | w + 1 => fromBits f w + f w * 2 ^ w
/-- The bit planes of a group of `n` words of 64 elements, and the inverse. -/
def planes (n : Nat) (g : List Elem) : List Elem :=
  (List.range n).map fun j => { val := BitVec.ofNat 128 (fromBits (fun m =>
    let b := n * m + (n - 1 - j); grpBit g (b / 64) (b % 64)) 64), poison := grpPois g }
def unplanes (n : Nat) (g : List Elem) : List Elem :=
  (List.range n).map fun i => { val := BitVec.ofNat 128 (fromBits (fun x =>
    let b := 64 * i + x; grpBit g (n - 1 - b % n) (b / n)) 64), poison := grpPois g }
/-- Bed element `m` of a group of plane words, filled below its last plane. -/
def bedElem (n p : Nat) (mid : Bool) (g : List Elem) (m : Nat) : Nat :=
  fromBits (fun b =>
    let j := n - 1 - b
    if j < p then grpBit g j m else if mid && j = p then 1 else 0) n
/-- The stream elements of a group of plane words. -/
def bedWords (n p : Nat) (mid : Bool) (g : List Elem) : List Elem :=
  let k := 16 / n
  (List.range (64 / k)).map fun e =>
    let v := (List.range k).foldl (fun v l => v + bedElem n p mid g (k * e + l) * 2 ^ (n * l)) 0
    { val := BitVec.ofNat 128 v, poison := grpPois g }

/-- A read word joins the elements of its stream; PLANES and ZRUN group and expand words of 8 bytes only. -/
def Stream.push (t : Stream) (cfg : PortCfg) (e : Elem) : Stream :=
  match t.bed with
  | some (p, mid, nb) =>
    let n := if nb then 4 else 8
    let g := t.pat ++ [e]
    if g.length < p then { t with pat := g, k := t.k + 1 }
    else
      let first := t.k / p * (64 / (16 / n))
      { t with pat := [], k := t.k + 1, buf := t.buf ++ (bedWords n p mid g).take (t.n 0 - first) }
  | none =>
    match (if streamEsz t = 3 then cfg.kind.toNat else 0) with
    | 2 =>
      let n := if cfg.nb then 4 else 8
      let g := t.pat ++ [e]
      if g.length < n then { t with pat := g, k := t.k + 1 }
      else { t with pat := [], k := t.k + 1, buf := t.buf ++ unplanes n g }
    | 3 =>
      let v := e.val.toNat
      let out : List Elem := List.replicate (v / 2 ^ 32 % 65536) { val := 0 }
        ++ [{ val := BitVec.ofNat 128 (v % 2 ^ 32), poison := e.poison }]
      { t with k := t.k + 1, buf := t.buf ++ out }
    | _ => { t with k := t.k + 1, buf := t.buf ++ [e] }

/-- The indices that later elements no longer need are dropped. -/
def Ctx.dropIndex (c : Ctx) (s : Nat) : Ctx :=
  let t := c.streams.getD s {}
  let cfg := c.cfgOf t
  if cfg.kind = 1 then (if t.k % (cfg.rows * cfg.cols) = 0 then c.onStream s fun t => { t with idx := [] } else c)
  else c.onStream s fun t => { t with idx := t.idx.drop 1 }

/-- A read element arrives, or a poisoned 0 in its place (11 R256). -/
def State.deliverElem (s : State) (n : Nat) (e : Elem) : State :=
  s.onCtx fun c =>
    let cfg := c.cfgOf (c.streams.getD n {})
    ((c.onStream n fun t => t.push cfg e).dropIndex n).settle n
/-- The next write element is done with. -/
def State.passElem (s : State) (n : Nat) : State :=
  s.onCtx fun c =>
    let t := c.streams.getD n {}
    let pl := t.bed.isNone && (c.cfgOf t).kind = 2 && streamEsz t = 3
    ((c.onStream n fun t =>
      if pl then { t with k := t.k + 1, pat := t.pat.drop 1 } else { t with k := t.k + 1, buf := t.buf.drop 1 }).dropIndex
      n).settle n

/-- PMERGE of an element into a word (11 R253). -/
def mergeOpAmo : MergeOp → AmoOp × AmoTy
  | .addF => (.add, .f) | .addW => (.add, .w) | .maxF => (.max, .f) | .minF => (.min, .f)
  | .addD => (.add, .d) | .maxW => (.max, .w) | .minW => (.min, .w)
/-- A merge in flight at a place. -/
def State.mergeAt (s : State) (op : MergeOp) (keyslot : BitVec 9) (a : Word) (l : Loc) (v : Word) (p : Bool) : State :=
  let (o, ty) := mergeOpAmo op
  match l with
  | .mem k =>
    let s := s.touch a k (amoSize ty)
    let old : Word := BitVec.ofNat 64 (s.mem.read (s.dev.keyAt keyslot.toNat k) k (amoSize ty))
    let poisoned := s.mem.poisoned k || p
    { s with mem := storeMem s.mem (s.dev.keyAt keyslot.toNat k) k (amoSize ty) (amoNew o ty old v).toNat poisoned }
  | .ctl pg o' => s.ctlWrite pg o' (amoNew o ty (s.ctlRead pg o') v)
  | _ => s
/-- The context's updates have a fixed order (04 R106). -/
def Ctx.fixed (c : Ctx) : Bool := c.csr.fixord.getLsbD 0

/-- A write element at its place. -/
def State.writeElem (s : State) (n : Nat) (a : Word) (l : Loc) (e : Elem) : State :=
  let t := s.ctx.streams.getD n {}
  match (s.ctx.portSet t).merge with
  | none =>
    let s := if t.size = 16 then
        match l with
        | .mem k => (s.applyStore s.keyNow a (.mem k) 8 (e.val.toNat % 2 ^ 64) e.poison).applyStore s.keyNow a (.mem (k + 8)) 8
            (e.val.toNat / 2 ^ 64) e.poison
        | _ => s
      else s.applyStore s.keyNow a l t.size (e.val.toNat % 2 ^ (8 * t.size)) e.poison
    s.passElem n
  | some op =>
    let v : Word := e.val.setWidth 64
    if s.ctx.fixed then
      match l with
      | .mem k =>
        let (o, ty) := mergeOpAmo op
        let x : Update := { id := s.dev.nextUpd, ctx := s.ctx.id.uid, key := k, wide := ty == .d, op := o, ty := ty, v := v
                            vpois := e.poison, stream := n, seq := t.seq, fixed := true, job := s.ctx.id.job, n := s.roundCount s.ctx.id.job
                            source := s.ctx.id.index, ord := t.ord, va := a, ucount := t.seq, keyslot := s.keyNow }
        match s.offer x with
        | some s => ((s.onDev fun d => { d with nextUpd := d.nextUpd + 1 }).onCtx fun c =>
            c.onStream n fun t => { t with seq := t.seq + 1 }).passElem n
        | none => s.holdStream n ⟨dORDFULL, a, 2⟩
      | _ => s.passElem n
    else (s.mergeAt op s.keyNow a l v e.poison).passElem n

/-- A fired configuration names the stream in an ENGINE port, or in a SPAD read port (14 R300, R301). -/
def Ctx.portNames (c : Ctx) (n : Nat) (kind : BitVec 4) : Bool :=
  c.handles.toList.any fun h => match h with
    | some g => g.fired && g.img.ports.any fun p => p.kind == kind && p.stream.toNat == n && (kind == 1 || !p.out)
    | none => false
def Ctx.engineFed (c : Ctx) (n : Nat) : Bool := c.portNames n 1
/-- Nothing reads the stream from memory: the engine takes its elements from an ENGINE port. -/
def Ctx.engineOnly (c : Ctx) (n : Nat) : Bool := c.engineFed n && !c.portNames n 0

/-- Elements that a read stream may hold ahead of its consumer. -/
def readAhead : Nat := 128

/-- The refusal of a stream command (11 R240). -/
def instrRec (i : Instr) (tag chan : Nat) : Word :=
  recInfo (fCls (encode i)) (fOp (encode i)) (fMod (encode i)).toNat tag chan
def State.refuseCmd (s : State) (i : Instr) (detail : Nat) : State :=
  s.onCtx fun c => c.postRec (fault detail 0) (instrRec i 0 0)

/-- An ABAR that names the stream has committed and waits for what comes before it (04 R97). -/
def Ctx.barred (c : Ctx) (n : Nat) : Bool := c.lq.any fun e => e.ins == .abar && e.a.val.getLsbD n
/-- STREAM_ELEMENT (11 R238): a stream in RUN performs its next access or fill. -/
def execStreamElement (n : BitVec 5) (s : State) : Out :=
  let i := n.toNat
  let t := s.ctx.streams.getD i {}
  let cfg := s.ctx.cfgOf t
  let write := streamWrite t
  let merge := write && ((s.ctx.portSet t).merge).isSome && s.ctx.fixed
  let acc : Access := if merge then .atomic else if write then .wr else .rd
  let code : BitVec 2 := if merge then 2 else if write then 1 else 0
  if t.st ≠ .run || s.ctx.barred i || (!write && s.ctx.engineOnly i) then .next s
  else if !write && (decide (t.accesses ≤ t.k) || decide (readAhead ≤ t.buf.length)) then .next s
  else
    -- a PLANES group to write is formed once its words are there
    let pl := write && t.bed.isNone && cfg.kind = 2 && streamEsz t = 3
    let g := if cfg.nb then 4 else 8
    let s := if pl && t.pat.isEmpty && g ≤ t.buf.length then
        s.onCtx fun c => c.onStream i fun t => { t with
          pat := (planes g (t.buf.take g)).map fun e => { e with ser := (t.buf.take g).foldl (fun m x => Nat.max m x.ser) 0 }
          buf := t.buf.drop g }
      else s
    let t := s.ctx.streams.getD i {}
    let next := if pl then t.pat.head? else t.buf.head?
    if write && next.isNone then .next s
    else
      match s.aim i acc code with
      | (.wait, s) => .next s
      | (.claimed, s) => .next ((s.refuseCmd (.astart n) 0x053).onCtx fun c => c.streamIdle i)
      | (.hold h, s) => .next (s.holdStream i h)
      | (.fill, s) => .next (if write then s.passElem i else s.deliverElem i { val := 0 })
      | (.to l a, s) =>
        if write then .next (s.writeElem i a l (next.getD { val := 0 }))
        else
          let (e, s) := s.readElem a l t.width
          if t.bed.isNone && cfg.kind = 3 && e.val.toNat / 2 ^ 48 % 65536 ≠ 0 then .next (s.holdStream i ⟨dXFORM, a, 0⟩)
          else .next (s.deliverElem i e)

/-! ### Commands of streams and ports (11 R239 to R245, R252 to R254) -/

/-- Removes a command from the queue of stream and port commands. -/
def State.popLq (s : State) (e : Eff) : State := s.onCtx fun c => { c with lq := c.lq.erase e }
/-- Issue of a command without further checks. -/
def State.issue (s : State) (i : Instr) : State :=
  (s.hold { slot := 0, ins := i, a := s.opA, b := s.opB }).quiet

/-- Memory as the stores of the context that come before an effect, and wait, will leave it (11 R233). -/
def State.windowAt (s : State) (e : Eff) : Memory :=
  (s.ctx.lq.filter fun x => x.ser < e.ser).foldl (fun m e => s.overlayEff m e) s.mem
/-- The keys of AGEN's descriptor. -/
def Ctx.descKeys (c : Ctx) (e : Eff) : List Nat := (List.range 8).map fun i => c.winKey (e.a.val.toNat + 8 * i)
/-- An update that comes before an effect, outside fixed order, waits for application to one of these words (11 R251). -/
def State.readWaits (s : State) (e : Eff) (ks : List Nat) : Bool :=
  let hit (k : Nat) : Bool := ks.any fun x => x / 8 == k / 8
  (s.dev.units.any fun u => u.window.any fun x => hit x.key
      && ((x.ctx == s.ctx.id.uid && x.id < e.upd) || x.subs.any fun y => y.ctx == s.ctx.id.uid && y.id < e.upd))
    || s.ctx.lq.any fun x => x.ser < e.ser && !x.fix && isUpdate x.ins
        && x.locs.any fun l => match l with | .mem k => hit k | _ => false
/-- AGEN takes the words of its descriptor with it (11 R239). -/
def State.readDesc (s : State) (e : Eff) : Eff × State :=
  let ks := s.ctx.descKeys e
  let s := ks.foldl (fun s k => s.touch 0 k 8) s
  let m := s.windowAt e
  ({ e with ws := ks.map m.word, wp := ks.map m.poisoned }, s)
/-- AGEN as its engine applies it; its descriptor was read when its block committed, or is now that the updates before it
are applied. -/
def applyAgen (n : Nat) (e : Eff) (s : State) : State :=
  let t := s.ctx.streams.getD n {}
  if t.st.live then s.refuseCmd e.ins 0x051
  else
    let d : Stream := { st := .idle, desc := e.ws, seq := t.seq }
    if e.wp.any (· == true) || !d.fieldsOk || !s.ctx.istrOk n d then s.refuseCmd e.ins 0x050
    else s.onCtx fun c => c.onStream n fun _ => d
def execAgen (n : BitVec 5) (s : State) : Out :=
  match s.who with
  | .cmd e =>
    if !e.ws.isEmpty then .next (applyAgen n.toNat e (s.popLq e))
    else if s.readWaits e (s.ctx.descKeys e) then .next s
    else let (e', t) := s.readDesc e; .next (applyAgen n.toNat e' (t.popLq e))
  | .core =>
    if s.opA.poison then .next (s.poisonFault useOther)
    else if s.opA.val.toNat % 64 ≠ 0 ∨ s.ctx.winSize < s.opA.val.toNat + 64 then .next (s.rangeFault s.opA.val)
    else .next (s.issue (.agen n))

def applyAstart (n : Nat) (e : Eff) (s : State) : State :=
  let t := s.ctx.streams.getD n {}
  match t.st with
  | .undef => s.refuseCmd e.ins 0x052
  | .idle =>
    if !s.ctx.istrOk n t then s.refuseCmd e.ins 0x050
    else s.onCtx fun c => c.onStream n fun t => { t with
      st := .run, k := 0, buf := [], used := 0, claim := none, hold := none, pat := [], idx := [], space := e.space
      eng := [], engN := 0, engOn := true }
  | _ => s
def execAstart (n : BitVec 5) (s : State) : Out :=
  match s.who with
  | .cmd e => .next (applyAstart n.toNat e (s.popLq e))
  | .core => .next (s.issue (.astart n))

def applyAstop (n : Nat) (s : State) : State :=
  if (s.ctx.streams.getD n {}).st.live then
    s.onCtx fun c => (c.onStream n fun t => { t with eng := [], engOn := false }).streamIdle n
  else s
def execAstop (n : BitVec 5) (s : State) : Out :=
  match s.who with
  | .cmd e => .next (applyAstop n.toNat (s.popLq e))
  | .core => .next (s.issue (.astop n))

/-- ABAR (04 R97): from its commit on the named streams issue nothing until it is done, which it is once the scalar-path
accesses of earlier blocks are performed; an access of a stream is one step, so none is under way then. -/
def execAbar (s : State) : Out :=
  match s.who with
  | .cmd e => .next (s.popLq e)
  | .core =>
    if s.opA.poison then .next (s.poisonFault useOther)
    else if bitsN s.opA.val 63 32 ≠ 0 then .next (s.rangeFault s.opA.val)
    else .next (s.issue .abar)

def applyLdw (n : Nat) (e : Eff) (s : State) : State :=
  let t := s.ctx.streams.getD n {}
  let a := e.a.val
  if t.st ≠ .idle then s.refuseCmd e.ins 0x051
  else if streamWrite t || t.mode ≠ 0 || streamEsz t ≠ 2 || t.n 1 ≠ 1 || t.n 2 ≠ 1 || t.n 3 ≠ 1 then
    s.refuseCmd e.ins 0x050
  else s.onCtx fun c => c.onStream n fun t => { t with bed := some (bitsN a 3 0, a.getLsbD 4, a.getLsbD 5) }
def execLdw (n : BitVec 5) (s : State) : Out :=
  match s.who with
  | .cmd e => .next (applyLdw n.toNat e (s.popLq e))
  | .core =>
    let a := s.opA.val
    let p := bitsN a 3 0
    if s.opA.poison then .next (s.poisonFault useOther)
    else if bitsN a 63 6 ≠ 0 ∨ p = 0 ∨ (if a.getLsbD 5 then 4 else 8) < p then .next (s.rangeFault a)
    else .next (s.issue (.ldw n))

/-- LDG (11 R242): it waits for its element; the first use of a stream claims it. -/
def execLdg (n : BitVec 5) (_t0 _t1 : Cons) (s : State) : Out :=
  let k := s.fir.blk.cur
  let t := s.ctx.streams.getD n.toNat {}
  let mine := t.st.live && !streamWrite t && streamEsz t ≠ 4 && t.claim.isNone
  let s := if mine then s.onCtx fun c => c.onStream n.toNat fun t => { t with claim := some .core } else s
  let w := s.setWait k { on := .element n, expiry := none }
  match w.evalWait k with
  | some s => .next s
  | none => .next w

/-- An STS element at hand-over (11 R243). -/
def applySts (n : Nat) (e : Eff) (s : State) : State :=
  let t := s.ctx.streams.getD n {}
  if !t.st.live || !streamWrite t || streamCount t ≤ t.used then s.refuseCmd e.ins 0x051
  else if streamEsz t = 4 then s.refuseCmd e.ins 0x054
  else match s.ctx.claim n .core with
    | none => s.refuseCmd e.ins 0x053
    | some c =>
      { s with ctx := c.giveElem n { val := BitVec.ofNat 128 (e.a.val.toNat % 2 ^ (8 * t.size)), poison := e.a.poison
                                     ser := e.ser } }
def execSts (n : BitVec 5) (t0 t1 : Cons) (s : State) : Out :=
  match s.who with
  | .cmd e => .next (applySts n.toNat e (s.popLq e))
  | .core =>
    .next ((s.hold { slot := 0, ins := .sts n none none, a := s.opA }).emit [(t0, tok stOK), (t1, tok stOK)])

/-- The setting that PXFORM's operand gives. -/
def pxformCfg (a : Word) : PortCfg :=
  { kind := BitVec.ofNat 3 (bitsN a 3 1), esz := BitVec.ofNat 2 (bitsN a 5 4), rows := bitsN a 11 6 + 1
    cols := bitsN a 17 12 + 1, nb := a.getLsbD 18 }
def applyPxform (p : Nat) (e : Eff) (s : State) : State :=
  let a := e.a.val
  let cfg := pxformCfg a
  let live := s.ctx.liveOn p (!a.getLsbD 0)
  let set (x : PortSet) : PortSet :=
    match a.getLsbD 0, live.isEmpty with
    | true, true => { x with rd := cfg, nextRd := none }
    | true, false => { x with nextRd := some (cfg, live) }
    | false, true => { x with wr := cfg, nextWr := none }
    | false, false => { x with nextWr := some (cfg, live) }
  s.onCtx fun c => { c with ports := modV c.ports p set }
def execPxform (p : BitVec 4) (s : State) : Out :=
  match s.who with
  | .cmd e => .next (applyPxform p.toNat e (s.popLq e))
  | .core =>
    let a := s.opA.val
    if s.opA.poison then .next (s.poisonFault useOther)
    else if bitsN a 63 19 ≠ 0 ∨ 4 ≤ bitsN a 3 1 ∨ (bitsN a 3 1 = 3 ∧ bitsN a 0 0 = 0) then .next (s.rangeFault a)
    else .next (s.issue (.pxform p))

def applyPmerge (p : Nat) (e : Eff) (s : State) : State :=
  let op : Option MergeOp := MergeOp.dec (bitsN e.a.val 2 0)
  let live := s.ctx.liveOn p true
  let set (x : PortSet) : PortSet :=
    if live.isEmpty then { x with merge := op, nextMerge := none } else { x with nextMerge := some (op, live) }
  s.onCtx fun c => { c with ports := modV c.ports p set }
def execPmerge (p : BitVec 4) (s : State) : Out :=
  match s.who with
  | .cmd e => .next (applyPmerge p.toNat e (s.popLq e))
  | .core =>
    if s.opA.poison then .next (s.poisonFault useOther)
    else if bitsN s.opA.val 63 3 ≠ 0 then .next (s.rangeFault s.opA.val)
    else .next (s.issue (.pmerge p))

def applyRingdef (n : Nat) (e : Eff) (s : State) : State :=
  let a := e.a.val
  let r := s.ctx.rings.getD n {}
  if r.msgs.any (!·.pad) then s.refuseCmd e.ins 0x051
  else
    let new : Ring := if a.getLsbD 40 then
        { defd := true, base := bitsN a 23 0, size := bitsN a 38 24, whole := a.getLsbD 39, free := bitsN a 38 24 }
      else {}
    s.onCtx fun c => { c with rings := setV c.rings n new }
def execRingdef (n : BitVec 4) (s : State) : Out :=
  match s.who with
  | .cmd e => .next (applyRingdef n.toNat e (s.popLq e))
  | .core =>
    let a := s.opA.val
    let size := bitsN a 38 24
    if s.opA.poison then .next (s.poisonFault useOther)
    else if bitsN a 63 41 ≠ 0
        ∨ (bitsN a 40 40 = 1 ∧ (bitsN a 5 0 ≠ 0 ∨ size < 4 ∨ 16384 < size ∨ s.ctx.winSize < bitsN a 23 0 + 64 * size)) then
      .next (s.rangeFault a)
    else .next (s.issue (.ringdef n))

/-- RINGSTAT (11 R255). -/
def ringWord (r : Ring) : Word :=
  if r.defd then BitVec.ofNat 64 (2 ^ 63 + (if r.whole then 2 ^ 62 else 0) + r.head % 2 ^ 14 * 2 ^ 32
    + r.free % 65536 * 65536 + Nat.min (r.msgs.filter (!·.pad)).length 65535)
  else 0
def execRingstat (n : BitVec 4) (t0 t1 : Cons) (s : State) : Out :=
  let v := tok (ringWord (s.ctx.rings.getD n.toNat {}))
  .next (s.emit [(t0, v), (t1, v)])

/-- A held stream access is retried or skipped (11 R256). -/
def State.resumeStream (s : State) (n : Nat) (skip : Bool) : State :=
  let t := s.ctx.streams.getD n {}
  let s := s.onCtx fun c => c.onStream n fun t => { t with st := .run, hold := none }
  if !skip then s
  else if streamWrite t then s.passElem n
  else s.onCtx fun c =>
    let cfg := c.cfgOf (c.streams.getD n {})
    -- an index that never came leaves none to drop
    let c := c.onStream n fun t => t.push { cfg with kind := if cfg.kind = 3 then 0 else cfg.kind } { val := 0, poison := true }
    (if t.idx.isEmpty then c else c.dropIndex n).settle n

end Sys2Proof.Machine
end

