-- ==== Sys2Proof/Machine/Atomics.lean ====
section
/-! DEFINITION. AMO, CAS and AMOV at issue and as their updates are handed to the units (11 R247 to R251; 04 R106, R107,
R109; 22 R389). -/

namespace Sys2Proof.Machine

/-! ### Issue -/

/-- The place that an address token names (11 R247). -/
def State.amoPlace (s : State) (a : Word) (off : Word) (n : Nat) : Except (BitVec 12) Loc × State :=
  if a.getLsbD 63 || bitsN a 61 56 ≠ 0 then (.error dADDR, s)
  else if a.getLsbD 62 then (s.window (BitVec.ofNat 64 (bitsN a 55 0) + off) n, s)
  else s.global s.who4 .atomic (BitVec.ofNat 64 (bitsN a 55 0) + off) n

/-- A return record is 32-byte aligned and inside the window (11 R248). -/
def Ctx.recordOk (c : Ctx) (b : Word) : Bool := b.toNat % 32 = 0 && b.toNat + 32 ≤ c.winSize

/-- Issue of an atomic with one target; `ret`: B is a return record. -/
def issueAtomic (i : Instr) (ret : Bool) (n : Nat) (s : State) : Out :=
  let a := s.opA
  let b := s.opB
  if a.poison || (ret && b.poison) then .next (s.poisonFault useAddr)
  else if ret && !s.ctx.recordOk b.val then .next (s.rangeFault b.val)
  else
    match s.amoPlace a.val 0 n with
    | (.error d, s) => .next (s.accessFault d a.val 2)
    | (.ok l, s) =>
      let locs := if ret then [l, .mem (s.ctx.winKey b.val.toNat)] else [l]
      .next ((s.hold { slot := 0, ins := i, a := a, b := b, locs := locs, ws := [b.val], wp := [b.poison]
                       keyslot := s.keySeen }).emit ((instrCons i).map fun c => (c, tok stOK)))

/-- The places of the active lanes of AMOV, in ascending order, or the fault of the lowest lane that fails. -/
def State.amovPlaces (s : State) (a : Word) (f : Nat → Word) : List Nat → Except (BitVec 12 × Word) (List Loc) × State
  | [] => (.ok [], s)
  | l :: ls =>
    match s.amoPlace a (4 * f l) 4 with
    | (.error d, s) => (.error (d, a + 4 * f l), s)
    | (.ok p, s) =>
      match s.amovPlaces a f ls with
      | (.error e, s) => (.error e, s)
      | (.ok ps, s) => (.ok (p :: ps), s)

/-! ### Hand-over to the units -/

/-- Operation, type, and whether it returns, of an atomic. -/
def atomicKind : Instr → Option (AmoOp × AmoTy × Bool × Bool)
  | .amo op ty .. => some (op, ty, amoReturns op, false)
  | .cas w .. => some (.add, if w then .d else .w, true, true)
  | .amov .addWn .. => some (.add, .wn, false, false)
  | .amov .addF .. => some (.add, .f, false, false)
  | .amov .maxW .. => some (.max, .w, false, false)
  | .amov .minW .. => some (.min, .w, false, false)
  | _ => none

/-- The next update of a held atomic, to a place. -/
def State.updateOf (s : State) (e : Eff) (k : Nat) : Update :=
  let kd := (atomicKind e.ins).getD (.add, .w, false, false)
  let ret := match kd.2.2.1, e.locs with | true, [_, .mem r] => some r | _, _ => none
  { id := e.upd, ctx := s.ctx.id.uid, key := k, wide := kd.2.1 == .d, op := kd.1, ty := kd.2.1
    v := e.ws.getD 0 0, vpois := e.wp.getD 0 false, ret := ret, cas := kd.2.2.2, stream := 32, seq := e.fseq
    fixed := e.fix, job := s.ctx.id.job, n := if e.fix then s.roundCount s.ctx.id.job else 0, source := s.ctx.id.index, ucount := e.seq, keyslot := e.keyslot
    va := BitVec.ofNat 64 (bitsN e.a.val 55 0) + (e.ws.getD 1 0) }

/-- What is left of a held atomic after its first update: the further lanes of AMOV. -/
def Eff.restLanes (e : Eff) : Option Eff :=
  match e.ins, e.locs with
  | .amov .., _ :: (l :: ls) =>
    some { e with locs := l :: ls, ws := e.ws.take 1 ++ e.ws.drop 2, upd := e.upd + 1, seq := e.seq + 1, fseq := e.fseq + 1 }
  | _, _ => none
/-- Replaces a command of the queue by what is left of it. -/
def replaceEff (e : Eff) (r : Option Eff) : List Eff → List Eff
  | [] => []
  | x :: l => if x = e then (match r with | some y => y :: l | none => l) else x :: replaceEff e r l
def State.putLq (s : State) (e : Eff) (r : Option Eff) : State := s.onCtx fun c => { c with lq := replaceEff e r c.lq }

/-- One update of a held atomic reaches its unit; a full window leaves it waiting, a full order buffer holds the scalar
port (04 R103, R107, 22 R389). -/
def applyAtomic (e : Eff) (s : State) : State :=
  match e.locs with
  | .mem k :: _ =>
    let x := s.updateOf e k
    match s.offer x with
    | some s => s.putLq e e.restLanes
    | none =>
      if e.fix then
        let h : Hold := ⟨dORDFULL, x.va, 2⟩
        ((s.putLq e none).onCtx fun c => { c with holdScalar := some (h, e) }).streamEvent 2 0 h 0
      else s
  | _ => s.putLq e none

def execAmo (op : AmoOp) (ty : AmoTy) (t0 t1 : Cons) (s : State) : Out :=
  match s.who with
  | .cmd e => .next (applyAtomic e s)
  | .core => issueAtomic (.amo op ty t0 t1) (amoReturns op) (amoSize ty) s
def execCas (wide : Bool) (t0 t1 : Cons) (s : State) : Out :=
  match s.who with
  | .cmd e => .next (applyAtomic e s)
  | .core => issueAtomic (.cas wide t0 t1) true (if wide then 8 else 4) s

def execAmov (op : AmovOp) (va : BitVec 5) (q : BitVec 2) (t0 : Cons) (s : State) : Out :=
  match s.who with
  | .cmd e => .next (applyAtomic e s)
  | .core =>
    let a := s.opA
    let ls := s.activeLanes q
    if a.poison then .next (s.poisonFault useAddr)
    else if ls.any (s.lpois q va) then .next (s.poisonFault useAddr)
    else if ls.isEmpty && (a.val.getLsbD 63 || bitsN a.val 61 56 ≠ 0) then .next (s.accessFault dADDR a.val 2)
    else if a.val.toNat % 4 ≠ 0 ∧ !(a.val.getLsbD 63 || bitsN a.val 61 56 ≠ 0) then .next (s.accessFault dALIGN a.val 2)
    else
      let idx (l : Nat) : Word := (s.lane q va l).setWidth 64
      match s.amovPlaces a.val idx ls with
      | (.error (d, x), s) => .next (s.accessFault d x 2)
      | (.ok ps, s') =>
        if ps.isEmpty then .next (s'.emit [(t0, tok stOK)])
        else .next ((s'.hold { slot := 0, ins := .amov op va q t0, a := a, b := s.opB, locs := ps
                               ws := s.opB.val :: ls.map (fun l => 4 * idx l), wp := [s.opB.poison]
                               keyslot := s.keySeen }).emit [(t0, tok stOK)])

/-- A held ORDFULL update is presented again, or discarded (11 R256). -/
def State.resumeScalar (s : State) (skip : Bool) : State :=
  match s.ctx.holdScalar with
  | none => s
  | some (_, e) =>
    let r := if skip then e.restLanes else some e
    s.onCtx fun c => { c with holdScalar := none, lq := r.toList ++ c.lq }

end Sys2Proof.Machine
end

