-- ==== Sys2Proof/Machine/Host.lean ====
section
/-! DEFINITION. The host's side: its channels, events, memory accesses and register writes (20 R351 to R362; 21 R367,
R368, R374, R381; 22 R390, R391; 24 R406, R407; 25 R422, R423; 27 R437). -/

namespace Sys2Proof.Machine

/-! ### Channel registers (20 R352, R353, R362) -/

def HostChan.en (h : HostChan) : Bool := h.ctl.getLsbD 0
def HostChan.role (h : HostChan) : Nat := bitsN h.ctl 2 1
def HostChan.irq (h : HostChan) : Bool := h.ctl.getLsbD 3
/-- SIZE in slots. -/
def HostChan.size (h : HostChan) : Nat := 2 ^ bitsN h.ctl 20 16
/-- TAIL − HEAD. -/
def HostChan.held (h : HostChan) : Nat := (h.tail - h.head).toNat
def State.chan (s : State) (c : BitVec 6) : HostChan := s.dev.hch.getD c.toNat {}
def State.onChan (s : State) (c : BitVec 6) (f : HostChan → HostChan) : State :=
  s.onDev fun d => { d with hch := modV d.hch c.toNat f }
/-- HCCTL as a write of it while EN = 0 stores it. -/
def hcctlOf (v : Word) : Word :=
  let sz := bitsN v 20 16
  putBits (keepBits v 55 32 ||| keepBits v 28 26 ||| keepBits v 3 0) 20 16 (if 4 ≤ sz ∧ sz ≤ 16 then sz else 4)
/-- What has been read and not consumed is discarded; what takes it later consumes nothing (20 R352 STOP, R362). -/
def HostChan.discard (h : HostChan) : HostChan := { h with ready := [], gen := h.gen + 1 }
/-- A write of HCCTL: while EN = 1 only EN and IRQ are written; EN going to 1 starts the indices, EN = 0 stops the channel
and discards what has been read and not consumed. -/
def HostChan.writeCtl (h : HostChan) (v : Word) : HostChan :=
  let ctl := if h.en then putBits (putBits h.ctl 0 0 (bitsN v 0 0)) 3 3 (bitsN v 3 3) else hcctlOf v
  if !v.getLsbD 0 then { h.discard with ctl := ctl, readTo := h.head }
  else if h.en then { h with ctl := ctl }
  else { h with ctl := ctl, head := 0, tail := 0, readTo := 0, stat := 0, ready := [], eos := [] }
def HostChan.badIdx (h : HostChan) : HostChan := { h with stat := h.stat ||| 2 }
def HostChan.writeTail (h : HostChan) (n : BitVec 32) : HostChan :=
  if h.role = 2 then h
  else if h.role = 0 then h.badIdx
  else if (n - h.tail).toNat ≤ h.size - h.held then { h with tail := n } else h.badIdx
def HostChan.writeHead (h : HostChan) (n : BitVec 32) : HostChan :=
  if h.role ≠ 2 then h
  else if (n - h.head).toNat ≤ h.held then { h with head := n } else h.badIdx

def execHctailWrite (c : BitVec 6) (n : BitVec 32) (s : State) : Out := .next (s.onChan c (·.writeTail n))
def execHcheadWrite (c : BitVec 6) (n : BitVec 32) (s : State) : Out := .next (s.onChan c (·.writeHead n))
/-- HCCTL_ENABLE: a write with EN = 1. -/
def execHcctlEnable (c : BitVec 6) (v : Word) (s : State) : Out := .next (s.onChan c (·.writeCtl (v ||| 1)))
/-- HCCTL_DISABLE: a write with EN = 0. -/
def execHcctlDisable (c : BitVec 6) (v : Word) (s : State) : Out := .next (s.onChan c (·.writeCtl (v &&& ~~~(1 : Word))))

/-! ### Slots (20 R353 to R358) -/

/-- Key of slot `i`. -/
def HostChan.slotKey (h : HostChan) (i : BitVec 32) : Nat := hostKey (bitsN h.base 51 6 * 64 + 16 * (i.toNat % h.size))
/-- The check of R355; a poisoned slot is malformed (04 R448). -/
def slotOk (role : Nat) (i : BitVec 32) (ctrl : Word) (pois : Bool) : Bool :=
  !pois && bitsN ctrl 63 32 = i.toNat && bitsN ctrl 15 4 = 0
    && (if role = 1 then decide (bitsN ctrl 2 0 ≤ 2) else bitsN ctrl 2 0 = 0)

/-- INGRESS_SLOT_CONSUME: the device reads the next slot and checks it; its consumer takes it from there. -/
def execIngressSlotConsume (c : BitVec 6) (s : State) : Out :=
  let h := s.chan c
  if !h.en ∨ (h.role ≠ 1 ∧ h.role ≠ 3) ∨ h.stat.getLsbD 0 ∨ h.readTo = h.tail then .next s
  else
    let k := h.slotKey h.readTo
    let v := s.mem.word k
    let w := s.mem.word (k + 8)
    if slotOk h.role h.readTo w (s.mem.poisoned k || s.mem.poisoned (k + 8)) then
      .next (s.onChan c fun h => { h with ready := h.ready ++ [(v, w)], readTo := h.readTo + 1 })
    else
      .next ((s.onChan c fun h => { h.discard with stat := h.stat ||| 5 }).raiseModule 26
        [c.setWidth 64, h.head.setWidth 64, BitVec.ofNat 64 (bitsN w 63 32)])

/-- VALUE with the bytes of a mask as the slot held them. -/
def keepBytes (keep : BitVec 8) (old v : Word) : Word :=
  (List.range 8).foldl (fun a b => if keep.getLsbD b then putBits a (8 * b + 7) (8 * b) (bitsN old (8 * b + 7) (8 * b)) else a) v
/-- A slot that is a marker (20 R354). -/
def markCtrl (ctrl : Word) : Bool := bitsN ctrl 2 0 == 1 || bitsN ctrl 2 0 == 2
/-- Writes a slot at TAIL and advances TAIL; bytes of VALUE that `keep` names stay as the slot held them, with its poison (02 R42,
20 R358). -/
def State.writeSlot (s : State) (c : BitVec 6) (v ctrl : Word) (pois : Bool := false) (keep : BitVec 8 := 0) : State :=
  let h := s.chan c
  let k := h.slotKey h.tail
  let p := pois || (keep != 0 && s.mem.poisoned k)
  let m := storeMem s.mem none k 8 (keepBytes keep (s.mem.word k) v).toNat p
  let m := storeMem m none (k + 8) 8 (putBits ctrl 63 32 h.tail.toNat).toNat false
  ({ s with mem := m }).onChan c fun h => { h with
    tail := h.tail + 1, irqs := if h.irq then h.irqs + 1 else h.irqs
    eos := h.eos.filter (fun i => decide ((i - h.head).toNat < h.held)) ++ (if markCtrl ctrl then [h.tail] else []) }
/-- A ROLE 2 channel that is enabled and has a free slot. -/
def HostChan.open (h : HostChan) : Bool := h.en && h.role == 2 && decide (h.held < h.size)
/-- The channel is one that the token's job may use; OWNER counts neither for channel 0 nor for the event channel (20 R352). A token
that waits while the channel gets another OWNER goes on waiting: the model's choice (log 120). -/
def State.ownerOk (s : State) (c : BitVec 6) (t : OutTok) : Bool :=
  c == 0 || c == s.dev.hevch2.setWidth 6 || t.job.all fun j => bitsN (s.chan c).ctl 47 32 == j.toNat
/-- Updates of the contexts below a number are applied: at the units, and those kept of saved contexts. -/
def State.updatesDone (s : State) (deps : List Nat) (upd : Nat) : Bool :=
  ((s.dev.units.flatMap fun u => u.window ++ u.order) ++ s.dev.kept).all fun x =>
    !((deps.contains x.ctx && decide (x.id < upd)) || x.subs.any fun y => deps.contains y.ctx && decide (y.id < upd))
/-- An effect that stores or updates memory. -/
def isWrite : Instr → Bool
  | .st .. | .stv .. | .amo .. | .amov .. | .cas .. => true
  | _ => false
/-- The stores and updates of the contexts, resident and saved, up to a serial have been performed, or have reached their units. -/
def State.storesDone (s : State) (deps : List Nat) (ser : Nat) : Bool :=
  (s.allCtxs ++ s.dev.saved.map (·.ctx)).all fun c => !deps.contains c.id.uid
    || !((c.lq ++ (c.holdScalar.map (·.2)).toList).any fun e => decide (e.ser ≤ ser) && isWrite e.ins)
/-- What must precede a token is performed: earlier host-space stores of its context, its other stores and the updates (20
R358, 11 R231). -/
def State.tokenReady (s : State) (t : OutTok) : Bool :=
  (t.ctx == 0 || !(s.dev.hch.toList.any fun h => h.out.any fun x => x.ctx == t.ctx && decide (x.n < t.n)))
    && s.updatesDone t.deps t.upd && s.storesDone t.deps t.ser

/-- EGRESS_SLOT_WRITE. -/
def execEgressSlotWrite (c : BitVec 6) (s : State) : Out :=
  match (s.chan c).out with
  | [] => .next s
  | t :: ts =>
    if (s.chan c).open && s.ownerOk c t && s.tokenReady t then
      .next ((s.writeSlot c t.val t.ctrl t.pois t.keep).onChan c fun h => { h with out := ts })
    else .next s

/-! ### Events (20 R361, 22 R390) -/

/-- Writes the words of a record from a key on. -/
def putWords (k : Nat) : List Word → Memory → Memory
  | [], m => m
  | w :: ws, m => putWords (k + 8) ws (storeMem m none k 8 w.toNat false)
def Event.words (e : Event) : List Word := (e.w0 :: e.seq.setWidth 64 :: e.body ++ List.replicate 6 0).take 8
def State.evChan (s : State) : BitVec 6 := s.dev.hevch2.setWidth 6

/-- EVENT_DELIVERY: the record and then its slot. -/
def execEventDelivery (s : State) : Out :=
  match s.dev.events with
  | [] => .next s
  | e :: es =>
    let c := s.evChan
    let h := s.chan c
    if s.dev.hevch.getLsbD 5 && h.open && h.out.isEmpty then
      let a := bitsN s.dev.hevch 57 6 * 64 + 64 * (h.tail.toNat % h.size)
      let s := { s with mem := putWords (hostKey (a % 2 ^ 52)) e.words s.mem }
      let s := s.writeSlot c (BitVec.ofNat 64 (bitsN e.w0 7 0 * 2 ^ 56 + a % 2 ^ 52)) 4
      .next (s.onDev fun d => { d with events := es })
    else .next s

/-! ### HDM (20 R351, 04 R109) -/

/-- The key material of a host access. -/
def State.hdmKey (s : State) (slot : BitVec 9) : Option (BitVec 512) := some ((s.dev.keyOf slot.toNat).getD Config.emptyKey)
/-- Writes bytes word by word; a part of a poisoned word is not applied. -/
def State.hdmPut (s : State) (kv : Option (BitVec 512)) (poison : Bool) : Nat → Nat → List Byte → State
  | 0, _, _ => s
  | _, _, [] => s
  | fuel + 1, pa, d =>
    let n := Nat.min (8 - pa % 8) d.length
    let v := ((d.take n).zipIdx).foldl (fun a (b, i) => a + b.toNat * 2 ^ (8 * i)) 0
    let s' :=
      if n < 8 && s.mem.poisoned pa then s.raiseModule 17 [2, BitVec.ofNat 64 (pa / 8 * 8), 0]
      else s.onMem fun m => storeMem m kv pa n v poison
    s'.hdmPut kv poison fuel (pa + n) (d.drop n)
def execHostHdmWrite (pa : Nat) (data : List Byte) (poison : Bool) (key : BitVec 9) (s : State) : Out :=
  if hbmSize < pa + data.length then .next s else .next (s.hdmPut (s.hdmKey key) poison data.length pa data)
/-- HOST_HDM_READ of the 64-byte line that holds the address. -/
def execHostHdmRead (pa : Nat) (key : BitVec 9) (s : State) : Out :=
  if hbmSize ≤ pa then .next s
  else
    let k := pa / 64 * 64
    let s := s.touch 0 k 64
    .next (s.onDev fun d => { d with
      hdmOut := (List.range 64).map fun i => s.mem.view (s.hdmKey key) (k + i)
      hdmPois := (List.range 8).any fun i => s.mem.poisoned (k + 8 * i) })

/-! ### Registers with rows of their own -/

def execKeyLoad (slot : BitVec 9) (s : State) : Out := .next (s.moduleWrite 0 0x218 (BitVec.ofNat 64 (512 + slot.toNat)))
def execKeyClear (slot : BitVec 9) (s : State) : Out := .next (s.moduleWrite 0 0x218 (BitVec.ofNat 64 (1024 + slot.toNat)))
def execCtxctlHold (tile : BitVec 8) (ctx : BitVec 2) (s : State) : Out := .next (s.ctxHold tile ctx)
def execCtxctlRelease (tile : BitVec 8) (ctx : BitVec 2) (s : State) : Out := .next (s.ctxRelease tile ctx)
def execContextImageStore (tile : BitVec 8) (ctx : BitVec 2) (csr : Csr) (v : Word) (s : State) : Out :=
  .next (s.imageStore tile ctx csr v)
def execLogposWrite (tile : BitVec 8) (ctx : BitVec 2) (v : Word) (s : State) : Out :=
  .next (s.imageStore tile ctx .logpos v)
def execLoglimWrite (tile : BitVec 8) (ctx : BitVec 2) (v : Word) (s : State) : Out :=
  .next (s.imageStore tile ctx .loglim v)
/-- The tile of a slice (21 R373). -/
def sliceTile (die : BitVec 2) (slice : BitVec 4) : BitVec 8 :=
  BitVec.ofNat 8 (64 * die.toNat + 16 * (slice.toNat / 4) + 2 * (slice.toNat % 4))
def execTlbisoWrite (die : BitVec 2) (slice : BitVec 4) (word : BitVec 3) (v : Word) (s : State) : Out :=
  if 6 ≤ word.toNat then .next s else .next (s.tlbisoOp (sliceTile die slice) word.toNat v)

/-! ### Attestation requests (25 R423) -/

def State.bootState (s : State) : Nat := bitsN s.dev.bootstat 3 0
/-- A write of ATTCMD. -/
def Dev.attWrite (d : Dev) (v : Word) : Dev :=
  if d.attcmd.getLsbD 63 ∨ bitsN d.bootstat 3 0 ≠ 4 then { d with attcmd := putBits d.attcmd 61 61 1 }
  else { d with attcmd := putBits 0 63 63 1 ||| (keepBits d.attcmd 62 61 &&& ~~~(keepBits v 62 61)) ||| keepBits v 51 6 }
def execAttcmdWrite (v : Word) (s : State) : Out := .next (s.onDev (·.attWrite v))

/-! ### Other register writes (00 R5) -/

/-- A host write at an offset of a channel's group: HCBASE, HCCTL, HCHEAD, HCTAIL, HCSTAT in the order of R352. -/
def HostChan.write (h : HostChan) (o : Nat) (v : Word) : HostChan :=
  match o with
  | 0x00 => if h.en then h else { h with base := keepBits v 51 6 }
  | 0x08 => h.writeCtl v
  | 0x10 => h.writeHead (v.setWidth 32)
  | 0x18 => h.writeTail (v.setWidth 32)
  | 0x20 => { h with stat := h.stat &&& ~~~(keepBits v 2 1) }
  | _ => h
/-- BOOTCMD.GO: the check of the staged image starts; in any other state than awaiting and failed it is ignored (25 R422). `agree`:
the four dies come to the same D (R420). -/
def State.bootStart (s : State) (agree : Bool) : State :=
  if s.bootState ≠ 1 ∧ s.bootState ≠ 15 then s
  else s.onDev fun d => { d with bootstat := putBits d.bootstat 3 0 2, bootAgree := agree }
/-- REGISTER_WRITE: a write at a BAR0 offset; the module page shows the registers from 0x200 on (21 R367). -/
def State.barWrite (s : State) (off : Nat) (v : Word) : State :=
  if 0x10000 ≤ off ∧ off < 0x11000 then s.onChan (BitVec.ofNat 6 ((off - 0x10000) / 64)) (·.write (off % 64) v)
  else if off = 0x008 then (if v.getLsbD 0 then s.drawn.bootStart (s.freeVal.getLsbD 0) else s)
  else if off = 0x100 then s.onDev fun d => { d with hevch := keepBits v 57 5 }
  else if off = 0x108 then s.onDev fun d => { d with hevch2 := keepBits v 5 0 }
  else if off = 0x300 then s.onDev (·.attWrite v)
  else if 0x308 ≤ off ∧ off < 0x348 ∧ off % 8 = 0 then
    s.onDev fun d => if d.attcmd.getLsbD 63 then d else { d with attn := setV d.attn ((off - 0x308) / 8) v }
  else s.moduleWrite 0 off v
def execRegisterWrite (off : BitVec 20) (v : Word) (s : State) : Out := .next (s.barWrite off.toNat v)

end Sys2Proof.Machine
end

