-- ==== Sys2Proof/Machine/Boot.lean ====
section
/-! DEFINITION. Boot, measurement, attestation reports and the I3C target (25 R418 to R424, 27 R447). -/

namespace Sys2Proof.Machine

/-! ### The staged image (25 R419) -/

/-- Scratchpad of tile (0, 0) of DIE 0. -/
def stageKey : Nat := spadKey 0 0
def State.stageBytes (s : State) (o n : Nat) : List Byte := (List.range n).map fun i => s.mem.byte (stageKey + o + i)
def State.stageWord (s : State) (i : Nat) : Word := s.mem.word (stageKey + 8 * i)
/-- Text of a derivation as ASCII bytes. -/
def ascii (t : String) : List Byte := t.toList.map fun c => BitVec.ofNat 8 c.toNat
/-- `n` bytes of a number, little-endian. -/
def leBytes (n v : Nat) : List Byte := (List.range n).map fun i => BitVec.ofNat 8 (v / 2 ^ (8 * i))

/-- A list cut or filled with zeros to `n` bytes. -/
def fitBytes (n : Nat) (l : List Byte) : List Byte := (l ++ List.replicate (n - l.length) 0).take n
/-- SHAKE256 to `n` bytes. -/
def shake (m : List Byte) (n : Nat) : List Byte := fitBytes n (Config.shake256 m n)
/-- The Falcon-1024 keys of a seed, a padded signature of 1,280 bytes, and its verification: what the private key of a public key
signs verifies under it (25 R419, R421). -/
def falconPublic (seed : List Byte) : List Byte := (Config.falconPublic seed).toList
def falconPrivate (seed : List Byte) : List Byte := Config.falconKeyOf (falconPublic seed)
def falconSign (key m : List Byte) : List Byte := fitBytes 1280 (Config.falconSign key m)
def falconVerify (pk m sig : List Byte) : Bool := sig == falconSign (Config.falconKeyOf pk) m || Config.falconAccepts pk m sig

/-- The checks of R420 in order; 0 when all pass. -/
def State.imageErr (s : State) (agree : Bool) : Nat :=
  let w0 := s.stageWord 0
  let w1 := s.stageWord 1
  let len := (s.stageWord 2).toNat
  let idx := bitsN w0 47 40
  if bitsN w0 63 48 ≠ 0 ∨ bitsN w0 39 32 ≠ 1 ∨ bitsN w0 31 0 ≠ 0x4D574644 ∨ bitsN w1 63 32 ≠ 0
      ∨ (List.range 5).any (fun i => s.stageWord (3 + i) != 0) then 1
  else if len % 64 ≠ 0 ∨ 8385408 < len then 2
  else if Config.revoke.getLsbD idx then 3
  else
    let pk := s.stageBytes (64 + len) 1793
    let d := shake (s.stageBytes 0 (64 + len + 1793)) 64
    if 4 ≤ idx ∨ shake pk 64 ≠ (Config.rootd idx).toList then 4
    else if !falconVerify pk d (s.stageBytes (64 + len + 1793) 1280) then 5
    else if bitsN w1 31 0 < Config.minsvn.toNat then 6
    else if !agree then 7 else 0

/-- IDENTITY_DERIVATION (25 R421). -/
def Dev.identity (d : Dev) (digest : List Byte) (svn : Nat) : Dev :=
  let meas := shake (Config.romid.toList ++ digest ++ leBytes 8 svn) 64
  let idseed := shake (ascii "LYM-IDK" ++ Config.uds.toList) 48
  let alseed := shake (ascii "LYM-ALIAS" ++ Config.uds.toList ++ meas) 48
  let key := falconPublic alseed
  { d with
    digest := digest, meas := meas, aliasKey := key, aliasPriv := falconPrivate alseed
    aliasCert := falconSign (falconPrivate idseed)
      (shake (key ++ meas ++ leBytes 8 Config.serial.toNat) 64) }

/-- The boot ROM has checked the staged image: the boot ends, or the firmware starts (25 R420, R421). -/
def State.bootCheck (s : State) : State :=
  let e := s.imageErr s.dev.bootAgree
  if e ≠ 0 then s.onDev fun d => { d with bootstat := putBits (putBits d.bootstat 15 8 e) 3 0 15 }
  else
    let svn := bitsN (s.stageWord 1) 31 0
    let dg := shake (s.stageBytes 0 (64 + (s.stageWord 2).toNat + 1793)) 64
    s.onDev fun d => { d.identity dg svn with bootstat := BitVec.ofNat 64 (svn * 2 ^ 32 + 3) }
/-- BOOT_GO: BOOTCMD.GO starts the check, and the row ends it; a GO of the host in between changes nothing that it comes to. -/
def execBootGo (agree : Bool) (s : State) : Out :=
  .next (if s.bootState = 2 then s.bootCheck else s.bootStart agree)

/-- FIRMWARE_READY: HBM is trained, TILEID.MODULE is set, channel 0 is enabled (25 R422). -/
def execFirmwareReady (module : BitVec 24) (s : State) : Out :=
  if bitsN s.dev.bootstat 3 0 ≠ 3 then .next s
  else
    .next ((s.setModule module).onDev fun d => { d with
      bootstat := putBits d.bootstat 3 0 4
      hch := modV d.hch 0 fun h => if h.ctl.getLsbD 0 then h else
        { h with ctl := h.ctl ||| 1, head := 0, tail := 0, readTo := 0, stat := 0, ready := [], eos := [] } })

/-- STAGING_WINDOW_WRITE: the window is mapped while an image is awaited, the first or another (25 R419, R420, R422). -/
def execStagingWindowWrite (off : BitVec 23) (v : Word) (s : State) : Out :=
  if (bitsN s.dev.bootstat 3 0 ≠ 1 ∧ bitsN s.dev.bootstat 3 0 ≠ 15) ∨ off.toNat % 8 ≠ 0 then .next s
  else .next (s.onMem fun m => storeMem m none (stageKey + off.toNat) 8 v.toNat false)

/-! ### Reports (25 R423, R424) -/

/-- Bytes 0 to 3,583 of a report. -/
def Dev.reportHead (d : Dev) : List Byte :=
  leBytes 8 (0x41545352 + 2 ^ 32 + bitsN d.bootstat 3 0 * 2 ^ 40) ++ leBytes 8 (bitsN d.bootstat 63 32)
    ++ leBytes 8 Config.serial.toNat ++ List.replicate 40 0
    ++ d.attn.toList.flatMap (fun w => leBytes 8 w.toNat) ++ fitBytes 64 d.meas ++ fitBytes 64 d.digest
    ++ fitBytes 2048 (fitBytes 1793 d.aliasKey) ++ fitBytes 1280 d.aliasCert
def Dev.report (d : Dev) : List Byte :=
  d.reportHead ++ falconSign d.aliasPriv (shake d.reportHead 64)
/-- Writes bytes, eight at a time, from a key on. -/
def putBytes : Nat → Nat → List Byte → Memory → Memory
  | 0, _, _, m => m
  | fuel + 1, k, l, m =>
    putBytes fuel (k + 8) (l.drop 8) (storeMem m none k 8 (((l.take 8).zipIdx).foldl (fun a (b, i) => a + b.toNat * 2 ^ (8 * i)) 0) false)

/-- REPORT_COMPLETION. -/
def execReportCompletion (s : State) : Out :=
  if !s.dev.attcmd.getLsbD 63 then .next s
  else
    .next ({ s with mem := putBytes 608 (hostKey (bitsN s.dev.attcmd 51 6 * 64)) s.dev.report s.mem }.onDev fun d => { d with
      attcmd := putBits (putBits d.attcmd 63 63 0) 62 62 1 })

/-! ### I3C (27 R447) -/

def State.i3cReg (s : State) (i : Nat) : Word :=
  let d := s.dev
  if i = 0 then d.bootstat else if i = 0x10 then d.pwrcap
  else if 0x11 ≤ i ∧ i ≤ 0x14 then d.diestat.getD (i - 0x11) 0
  else if 0x20 ≤ i ∧ i ≤ 0x37 then (s.linkOf (i - 0x20)).lnk
  else if i = 0x40 then d.cecnt else if i = 0x41 then d.uecnt else 0

def execI3cDynamicAddress (a : BitVec 7) (s : State) : Out := .next (s.onDev fun d => { d with i3cAddr := a })
/-- I3C_PRIVATE_WRITE of an index, alone or followed by 8 bytes: only PWRCAP is written so. -/
def execI3cPrivateWrite (idx : BitVec 8) (data : Option Word) (s : State) : Out :=
  let s := s.onDev fun d => { d with i3cIdx := idx }
  match data with
  | some v => .next (if idx = 0x10 then s.onDev fun d => { d with pwrcap := pwrcapOf v } else s)
  | none => .next s
def execI3cPrivateRead (s : State) : Out :=
  .next (s.onDev fun d => { d with i3cOut := s.i3cReg d.i3cIdx.toNat, i3cIdx := d.i3cIdx + 1 })

end Sys2Proof.Machine
end

