-- ==== Sys2Proof/Machine/Image.lean ====
section
/-! DEFINITION. Collar images: their layout, their static checks, delta lists, sett depth, and the slab allocator
(14 R296 to R300, R304 to R307; 01 R15 to R20; 21 R382). -/

namespace Sys2Proof.Machine

/-! ### Fields -/

/-- Words of a structure as they were read. -/
abbrev Words := List Word
def wAt (ws : Words) (i : Nat) : Word := ws.getD i 0

def Image.nnode (ws : Words) : Nat := bitsN (wAt ws 0) 31 20
def Image.nedge (ws : Words) : Nat := bitsN (wAt ws 0) 43 32
def Image.nport (ws : Words) : Nat := bitsN (wAt ws 0) 50 44
/-- Words of the image before its directory. -/
def Image.bodyWords (ws : Words) : Nat := 8 + 2 * Image.nnode ws + 2 * Image.nedge ws + Image.nport ws
def Image.ndir (ws : Words) : Nat := bitsN (wAt ws 2) 38 32
def Image.diroff (ws : Words) : Nat := bitsN (wAt ws 2) 31 0

def parseNode (w0 w1 : Word) : NodeEnt :=
  { node := BitVec.ofNat 9 (bitsN w0 8 0), cslot := BitVec.ofNat 2 (bitsN w0 11 10), opc := BitVec.ofNat 8 (bitsN w0 19 12)
    type := BitVec.ofNat 2 (bitsN w0 21 20), rm := BitVec.ofNat 2 (bitsN w0 23 22), level := BitVec.ofNat 4 (bitsN w0 27 24)
    pin := w0.getLsbD 28, k := BitVec.ofNat 32 (bitsN w0 63 32), k2 := BitVec.ofNat 32 (bitsN w1 31 0)
    init := BitVec.ofNat 32 (bitsN w1 63 32) }
def parseEdge (w0 w1 : Word) : EdgeEnt :=
  { src := BitVec.ofNat 13 (bitsN w0 12 0), dst := BitVec.ofNat 13 (bitsN w0 25 13), pos := BitVec.ofNat 2 (bitsN w0 27 26)
    depth := bitsN w0 31 28 + 1, init := bitsN w0 35 32, initv := BitVec.ofNat 32 (bitsN w1 31 0)
    track := BitVec.ofNat 3 (bitsN w0 38 36) }
def parsePort (w : Word) : PortEnt :=
  { kind := BitVec.ofNat 4 (bitsN w 3 0), out := w.getLsbD 4, lane := bitsN w 11 5, stream := BitVec.ofNat 5 (bitsN w 16 12) }
def parseImage (ws : Words) : Image :=
  let n := Image.nnode ws
  let e := Image.nedge ws
  { sett := bitsN (wAt ws 0) 9 8 = 1, nslab := bitsN (wAt ws 0) 19 16, nsrc := bitsN (wAt ws 1) 8 7
    param := (wAt ws 1).getLsbD 9, lat := bitsN (wAt ws 1) 6 0
    nodes := (List.range n).map fun i => parseNode (wAt ws (8 + 2 * i)) (wAt ws (9 + 2 * i))
    edges := (List.range e).map fun i => parseEdge (wAt ws (8 + 2 * n + 2 * i)) (wAt ws (9 + 2 * n + 2 * i))
    ports := (List.range (Image.nport ws)).map fun i => parsePort (wAt ws (8 + 2 * n + 2 * e + i)) }

/-! ### Endpoints (14 R298) -/

def epPort (e : BitVec 13) : Bool := e.getLsbD 12
def epIdx (e : BitVec 13) : Nat := bitsN e 5 0
def epSub (e : BitVec 13) : Nat := bitsN e 7 6
def epNode (e : BitVec 13) : BitVec 9 := BitVec.ofNat 9 (bitsN e 8 0)
def epSlot (e : BitVec 13) : BitVec 2 := BitVec.ofNat 2 (bitsN e 11 10)
def nodeEp (n : NodeEnt) : BitVec 13 := BitVec.ofNat 13 (n.cslot.toNat * 1024 + n.node.toNat)
def portEp (i sub : Nat) : BitVec 13 := BitVec.ofNat 13 (4096 + sub * 64 + i)
def unitNo (n : BitVec 9) : Nat := bitsN n 2 0
def slabNo (n : BitVec 9) : Nat := bitsN n 8 3

/-- Slab offset of an endpoint. -/
def Image.epSlab (im : Image) (e : BitVec 13) : Nat :=
  if epPort e then ((im.ports[epIdx e]?).map (·.slab)).getD 0 else slabNo (epNode e)
/-- Index of the operator at an endpoint. -/
def Image.nodeAt (im : Image) (node : BitVec 9) (slot : BitVec 2) : Option Nat :=
  firstIdx (fun n => n.node == node && n.cslot == slot) im.nodes 0
/-- The edge into a position of an operator; edges out of an endpoint. -/
def Image.feed (im : Image) (ep : BitVec 13) (pos : BitVec 2) : Option Nat :=
  firstIdx (fun e => e.dst == ep && e.pos == pos) im.edges 0
def Image.outs (im : Image) (ep : BitVec 13) : List Nat :=
  (List.range im.edges.length).filter fun i => ((im.edges[i]?).map (·.src)) == some ep
def Image.ins (im : Image) (ep : BitVec 13) : List Nat :=
  (List.range im.edges.length).filter fun i => ((im.edges[i]?).map (·.dst)) == some ep

/-! ### Operations (14 R299) -/

/-- OPC, unit, TYPE and RM fit together; `k` is K and `b` says that an edge feeds B. -/
def opcOk (opc unit type rm : Nat) (k : Half) (b : Bool) : Bool :=
  let gen := unit ≤ 5
  let z := type = 0 && rm = 0
  if opc = 0x01 then gen && z
  else if opc ≤ 0x07 then gen && opc ≠ 0 && type ≤ 2 && rm = 0
  else if opc = 0x08 then gen && type ≤ 2
  else if opc ≤ 0x0F then gen && z
  else if opc = 0x10 then gen && type = 0 && rm ≤ 2 && k.toNat < 16 && !b
  else if opc ≤ 0x12 then gen && type ≤ 1 && rm = 0
  else if opc = 0x13 then gen && z
  else if 0x20 ≤ opc && opc ≤ 0x25 then unit = 6 && z
  else if opc = 0x30 then unit = 7 && type = 2 && rm = 0
  else if opc = 0x31 || opc = 0x32 then unit = 7 && type ≤ 1 && rm = 0
  else opc = 0x34 && unit = 7 && z

/-- A node entry keeps the field rules of R297 and R299 in an image of `nslab` slabs whose edges feed it as given. -/
def nodeOk (nslab : Nat) (w0 : Word) (n : NodeEnt) (fa fb : Bool) : Bool :=
  bitsN w0 31 29 = 0 && bitsN w0 9 9 = 0 && n.type.toNat ≤ 2 && slabNo n.node < nslab
    && (unitNo n.node = 7 || n.init = 0) && fa && (n.opc.toNat ≠ 0x34 || fb)
    && opcOk n.opc.toNat (unitNo n.node) n.type.toNat n.rm.toNat n.k fb

/-! ### Static checks (14 R304) -/

/-- Whether elements of a list differ pairwise. -/
def noDup {α : Type} [DecidableEq α] : List α → Bool
  | [] => true
  | x :: l => !l.contains x && noDup l

def PortEnt.ok (p : PortEnt) (w : Word) (nslab : Nat) : Bool :=
  let k := p.kind.toNat
  bitsN w 63 17 = 0 && k ≤ 8
    && (k = 0 || k = 3 || p.out == (k = 1 || k = 4 || k = 8))
    && (if k = 2 then p.lane < 8 * nslab else if k = 5 then p.lane < nslab else if k = 6 then p.lane ≤ 2 else p.lane = 0)
    && (k ≤ 1 || p.stream = 0)

/-- An endpoint has its entry, and the direction and SUB that its port allows. -/
def Image.epOk (im : Image) (e : BitVec 13) (from_ : Bool) : Bool :=
  if epPort e then
    match im.ports[epIdx e]? with
    | some p => bitsN e 11 8 = 0
        && (if p.kind = 5 then epSub e ≤ 1 else epSub e = 0 && p.out != from_)
    | none => false
  else bitsN e 9 9 = 0 && (im.nodeAt (epNode e) (epSlot e)).isSome

/-- Boundaries that an edge crosses: lower slab offset, direction. -/
def Image.crosses (im : Image) (e : EdgeEnt) : List (Nat × Bool) :=
  let a := im.epSlab e.src
  let b := im.epSlab e.dst
  if a < b then (List.range (b - a)).map fun i => (a + i, true) else (List.range (a - b)).map fun i => (b + i, false)
def Image.tracks (im : Image) : List (Nat × Bool × BitVec 3) :=
  im.edges.flatMap fun e => (im.crosses e).map fun c => (c.1, c.2, e.track)

def Image.edgeOk (im : Image) (w0 w1 : Word) (e : EdgeEnt) : Bool :=
  bitsN w0 63 39 = 0 && bitsN w1 63 32 = 0 && 2 ≤ e.depth && e.init ≤ e.depth && e.pos.toNat ≤ 2
    && (!epPort e.dst || e.pos = 0) && im.epOk e.src true && im.epOk e.dst false
    && (im.epSlab e.src ≠ im.epSlab e.dst || e.track = 0)

/-- The header and its own fields. -/
def headerOk (ws : Words) : Bool :=
  let w := wAt ws
  let kind := bitsN (w 0) 9 8
  bitsN (w 0) 63 51 = 0 && bitsN (w 0) 15 10 = 0 && bitsN (w 0) 7 0 = 1 && kind ≤ 1
    && Image.nport ws ≤ 64 && 1 ≤ Image.nedge ws && Image.nedge ws ≤ 1536 && 1 ≤ Image.nnode ws && Image.nnode ws ≤ 384
    && 1 ≤ bitsN (w 0) 19 16 && bitsN (w 0) 19 16 ≤ (if kind = 1 then 2 else 12)
    && bitsN (w 1) 63 10 = 0 && (kind = 1 || w 1 = 0)
    && (kind = 0 || (1 ≤ bitsN (w 1) 8 7 && 4 ≤ bitsN (w 1) 6 0 && bitsN (w 1) 6 0 ≤ 64))
    && bitsN (w 2) 63 39 = 0 && Image.ndir ws ≤ 64 && Image.diroff ws % 64 = 0 && (Image.diroff ws = 0) == (Image.ndir ws = 0)
    && (List.range 5).all fun i => w (3 + i) = 0

/-- The body of an image against R296 to R300 and R304. -/
def bodyOk (ws : Words) : Bool :=
  let im := parseImage ws
  let n := im.nodes.length
  let e := im.edges.length
  let fed (x : NodeEnt) (p : BitVec 2) : Bool := (im.feed (nodeEp x) p).isSome
  let kinds (k : BitVec 4) : List PortEnt := im.ports.filter (·.kind == k)
  ((List.range n).all fun i => match im.nodes[i]? with
      | some x => nodeOk im.nslab (wAt ws (8 + 2 * i)) x (fed x 0) (fed x 1)
      | none => false)
    && noDup (im.nodes.map fun x => (x.node, x.cslot))
    && ((List.range im.ports.length).all fun i => match im.ports[i]? with
      | some p => p.ok (wAt ws (8 + 2 * n + 2 * e + i)) im.nslab
      | none => false)
    && ((List.range e).all fun i => match im.edges[i]? with
      | some x => im.edgeOk (wAt ws (8 + 2 * n + 2 * i)) (wAt ws (9 + 2 * n + 2 * i)) x
      | none => false)
    && noDup (im.edges.map fun x => (x.dst, x.pos))
    && noDup im.tracks
    && (if im.sett then
          im.ports.all (fun p => 6 ≤ p.kind.toNat) && (List.range 3).all (fun l =>
            ((kinds 6).filter (·.lane == l)).length == if l < im.nsrc then 1 else 0)
          && (kinds 8).length = 1 && (kinds 7).length = (if im.param then 1 else 0)
          && im.nodes.all (fun x => unitNo x.node != 7) && Image.ndir ws = 0 && im.edges.all (fun x => x.init == 0)
        else im.ports.all fun p => p.kind.toNat ≤ 5)

/-- A directed cycle of edges between operators without an initial token: what is left when operators without such an
edge into them are removed again and again. -/
def peel (edges : List (BitVec 13 × BitVec 13)) : Nat → List (BitVec 13) → List (BitVec 13)
  | 0, l => l
  | n + 1, l => peel edges n (l.filter fun x => edges.any fun (a, b) => b == x && l.contains a)
def Image.cyclic (im : Image) : Bool :=
  let es := (im.edges.filter fun e => !epPort e.src && !epPort e.dst && e.init == 0).map fun e => (e.src, e.dst)
  !(peel es im.nodes.length (im.nodes.map nodeEp)).isEmpty

/-! ### Delta lists (14 R307) -/

def deltaLen (ws : Words) : Nat := bitsN (wAt ws 0) 8 0
/-- The entries of a delta list that fits an image; none when it breaks a rule. -/
def deltaOf (im : Image) (ws : Words) : Option (List NodeEnt) :=
  let n := deltaLen ws
  let es := (List.range n).map fun i => (wAt ws (1 + 2 * i), parseNode (wAt ws (1 + 2 * i)) (wAt ws (2 + 2 * i)))
  let fed (x : NodeEnt) (p : BitVec 2) : Bool := (im.feed (nodeEp x) p).isSome
  if bitsN (wAt ws 0) 63 9 = 0 && 1 ≤ n && n ≤ 384
      && es.all (fun (w, x) => nodeOk im.nslab w x (fed x 0) (fed x 1) && (im.nodeAt x.node x.cslot).isSome)
  then some (es.map (·.2)) else none
/-- Replaces the entries of the operators that a delta list names. -/
def Image.patch (im : Image) (es : List NodeEnt) : Image :=
  { im with nodes := im.nodes.map fun x =>
      ((es.filter fun y => y.node == x.node && y.cslot == x.cslot).getLast?).getD x }
/-- Directory entries: TSEL and offset; none when a word breaks R307 or a TSEL comes twice. -/
def dirOf (ws : Words) (n : Nat) : Option (List DirEnt) :=
  let es := (List.range n).map fun i => (wAt ws (2 * i), wAt ws (2 * i + 1))
  if es.all (fun (a, b) => bitsN a 31 6 = 0 && bitsN a 37 32 = 0 && b = 0) && noDup (es.map fun (a, _) => bitsN a 5 0) then
    some (es.map fun (a, _) => ⟨BitVec.ofNat 6 (bitsN a 5 0), bitsN a 63 32⟩)
  else none

/-! ### Sett depth (14 R305) -/

/-- Greatest delay from a source to each operator, by rounds over the operators. -/
def Image.delays (im : Image) : Nat → List (Option Nat) → List (Option Nat)
  | 0, d => d
  | n + 1, d => im.delays n (im.nodes.map fun x =>
      let own := 2 + (if unitNo x.node = 6 then 4 else 0)
      ((im.edges.filter fun e => e.dst == nodeEp x).foldl (fun (m : Option Nat) e =>
        let hop := (im.crosses e).length
        let v := if epPort e.src then some hop
          else ((im.nodeAt (epNode e.src) (epSlot e.src)).bind fun i => d.getD i none).map (· + hop)
        match m, v with
        | some a, some b => some (Nat.max a b)
        | some a, none => some a
        | none, v => v) none).map (· + own))
def Image.depth (im : Image) : Option Nat :=
  let d := im.delays im.nodes.length (im.nodes.map fun _ => none)
  match im.edges.find? (fun e => epPort e.dst && ((im.ports[epIdx e.dst]?).map (·.kind)) == some 8) with
  | some e =>
    let hop := (im.crosses e).length
    (if epPort e.src then some (hop + 2)
     else ((im.nodeAt (epNode e.src) (epSlot e.src)).bind fun i => d.getD i none).map (· + hop + 2))
  | none => none

/-! ### What is placed on a tile (14 R306) -/

/-- A configuration or resident sett in the slabs of a tile. -/
structure Placed where
  ctx : Nat
  /-- handle, or 32 + 16·q + n of a sett -/
  key : Nat
  img : Image
  first : Nat
  rot : BitVec 2
  /-- physical slot of each operator -/
  slots : List (BitVec 2)
  movable : Bool
  /-- an eviction waits for the boundary: its slots are still being released -/
  leaving : Bool
deriving DecidableEq, Repr

def rotSlots (im : Image) (r : BitVec 2) : List (BitVec 2) := im.nodes.map fun n => n.cslot + r
def Ctx.placed (c : Ctx) : List Placed :=
  ((List.range 32).filterMap fun h => (c.handles.getD h none).map fun g =>
    { ctx := c.id.uid, key := h, img := g.img, first := g.first, rot := g.rot, slots := g.nodes.map (·.slot)
      movable := (!c.graph.isOpen || g.frozen) && g.chans.all (·.isEmpty), leaving := g.evict })
  ++ (List.range 64).filterMap fun i =>
    let b := c.setts.getD i {}
    if b.resident then some { ctx := c.id.uid, key := 32 + i, img := b.img, first := b.first, rot := b.rot, slots := rotSlots b.img b.rot
                              movable := !c.graph.isOpen, leaving := false } else none
/-- Everything placed on the tile in focus. -/
def State.placed (s : State) : List Placed :=
  (s.allCtxs.filter fun c => c.id.tile == s.tile.num && c.taken.isNone).flatMap Ctx.placed

/-- Physical (unit, slot) pairs, tracks and intersection units that a placement uses. -/
def usesSlots (im : Image) (first : Nat) (slots : List (BitVec 2)) : List (BitVec 9 × BitVec 2) :=
  (im.nodes.zip slots).map fun (n, c) => (n.node + BitVec.ofNat 9 (8 * first), c)
def usesTracks (im : Image) (first : Nat) : List (Nat × Bool × BitVec 3) := im.tracks.map fun (b, d, t) => (first + b, d, t)
def usesIsect (im : Image) (first : Nat) : List Nat :=
  (im.ports.filter (·.kind == 5)).map fun p => (first + p.lane) / 3
/-- An image fits at a run beside others. -/
def fits (others : List Placed) (im : Image) (first : Nat) (slots : List (BitVec 2)) : Bool :=
  let us := others.flatMap fun p => usesSlots p.img p.first p.slots
  let ts := others.flatMap fun p => usesTracks p.img p.first
  let is := others.flatMap fun p => usesIsect p.img p.first
  (usesSlots im first slots).all (fun x => !us.contains x) && (usesTracks im first).all (fun x => !ts.contains x)
    && (usesIsect im first).all (fun x => !is.contains x) && noDup (usesIsect im first)
/-- The run lies inside the context's slabs and crosses no guarded boundary (21 R382). -/
def Tile.runOk (t : Tile) (num : BitVec 2) (first n : Nat) : Bool :=
  let m := t.slabm.getD num.toNat 0
  (List.range n).all (fun i => m.getLsbD (first + i)) && (List.range (n - 1)).all fun i => !t.ckerf.getLsbD (first + i)
/-- Occupied physical slots in a run. -/
def occupied (others : List Placed) (first n : Nat) : Nat :=
  ((others.flatMap fun p => usesSlots p.img p.first p.slots).filter fun (u, _) =>
    first ≤ slabNo u && slabNo u < first + n).length

/-- The best candidate: occupied slots, then side, first slab, rotation. -/
def bestOf : List (Nat × Nat × BitVec 2) → Option (Nat × BitVec 2)
  | [] => none
  | x :: l =>
    let m := l.foldl (fun (m : Nat × Nat × BitVec 2) y => if y.1 < m.1 then y else m) x
    some (m.2.1, m.2.2)
/-- The place that the allocator finds for an image of a context on the sides allowed. -/
def Tile.findRun (t : Tile) (others : List Placed) (num : BitVec 2) (im : Image) (sides : List Nat) : Option (Nat × BitVec 2) :=
  let n := im.nslab
  bestOf (sides.flatMap fun side => (List.range (13 - n)).flatMap fun k =>
    let first := 12 * side + k
    if t.runOk num first n then
      ((List.range 4).map (BitVec.ofNat 2)).filterMap fun r =>
        if fits others im first (rotSlots im r) then some (occupied others first n, first, r) else none
    else [])

/-- Sides on which an image may stand: SIDE of CLOAD, or 4 for any; south with an ACC port. -/
def Image.sides (im : Image) (side : Nat) : List Nat :=
  let l := if side < 4 then [side] else [0, 1, 2, 3]
  if im.ports.any (·.kind == 2) then l.filter (· == 2) else l

/-- Moves of the movable placements toward the lowest slabs of their sides, in ascending FIRST order: the placements
afterwards and those moved (14 R306). -/
def insPlaced (p : Placed) : List Placed → List Placed
  | [] => [p]
  | q :: l => if p.first < q.first then p :: q :: l else q :: insPlaced p l
def moveAll (t : Tile) (num : Nat → BitVec 2) : List Placed → List Placed → List Placed → List Placed × List Placed
  | [], all, moved => (all, moved)
  | p :: l, all, moved =>
    let others := all.filter fun q => !(q.ctx == p.ctx && q.key == p.key)
    let base := p.first / 12 * 12
    match ((List.range (p.first - base)).map (base + ·)).find? (fun f => t.runOk (num p.ctx) f p.img.nslab && fits others p.img f p.slots) with
    | some f => let p' := { p with first := f }; moveAll t num l (p' :: others) (moved ++ [p'])
    | none => moveAll t num l all moved

/-- What the allocator answers. -/
inductive Alloc where
  | at (first : Nat) (rot : BitVec 2) (moved : List Placed)
  | noslab (moved : List Placed)
  | busy (moved : List Placed)
deriving DecidableEq, Repr

/-- Numbers of the contexts of the tile. -/
def State.numOf (s : State) (uid : Nat) : BitVec 2 := ((s.ctxOf uid).map (·.id.num)).getD 0
/-- The allocator places an image of the context `c` (14 R306, 21 R382). -/
def State.allocate (s : State) (c : Ctx) (im : Image) (sides : List Nat) : Alloc :=
  let all := s.placed
  let t := s.tile
  match t.findRun all c.id.num im sides with
  | some (f, r) => .at f r []
  | none =>
    let (all', moved) := if t.alloc.getLsbD 0 then (all, []) else
      moveAll t s.numOf ((all.filter (·.movable)).foldl (fun l p => insPlaced p l) []) all []
    match t.findRun all' c.id.num im sides with
    | some (f, r) => .at f r moved
    | none =>
      if (t.findRun (all'.filter (!·.leaving)) c.id.num im sides).isSome then .busy moved else .noslab moved

/-- A move of a placement. -/
def Ctx.moveTo (c : Ctx) (p : Placed) : Ctx :=
  if p.ctx ≠ c.id.uid then c
  else if p.key < 32 then { c with handles := modV c.handles p.key fun h => h.map fun g => { g with first := p.first } }
  else { c with setts := modV c.setts (p.key - 32) fun b => { b with first := p.first } }
def State.applyMoves (s : State) (l : List Placed) : State :=
  { s with ctx := l.foldl Ctx.moveTo s.ctx, ctxs := s.ctxs.map fun c => l.foldl Ctx.moveTo c }
/-- ALLOC record (24 R409). -/
def allocRec (c : Ctx) (kind key first : Nat) (rot : BitVec 2) : LogRec :=
  { type := 2, srcn := c.srcn
    w1 := BitVec.ofNat 64 (kind + (if key < 32 then key else (key - 32) % 16) * 8 + (if key < 32 then first / 12 else (key - 32) / 16) * 2 ^ 8
      + first % 64 * 2 ^ 10 + rot.toNat * 2 ^ 16) }
def State.moveRecs (s : State) (l : List Placed) : List (Nat × LogRec) :=
  l.filterMap fun p => (s.ctxOf p.ctx).map fun c => (p.ctx, allocRec c 2 p.key p.first p.rot)

end Sys2Proof.Machine
end

