-- ==== Sys2Proof/Machine/Matrix.lean ====
section
/-! DEFINITION. Class M: the systolic core and its accumulator nodes, and the queue of engine commands that class C shares
(01 R12 to R14, R21, R22; 03 R65 to R69, R77 to R79; 10 R205 to R220). -/

namespace Sys2Proof.Machine

/-! ### Engine commands (10 R207 to R210) -/

/-- The completion word of a command: in A of CTXSAVE and CTXLOAD (13 R292), else in B. -/
def Eff.cw (e : Eff) : BitVec 16 := match e.ins with | .ctxsave | .ctxload => cwOf e.a.val | _ => cwOf e.b.val
/-- The operands of B below the completion word. -/
def lowB (b : Word) : Nat := bitsN b 47 0
/-- Status of a refusal. -/
def ref (d : Nat) : Word := fault d 0

/-- Removes an engine command that is complete: its record and push are to come (row ENGINE_COMMAND_COMPLETION). A refused
or failed command leaves a record in any case. -/
def State.cmdDone (s : State) (col : Bool) (e : Eff) (st : Word) : State :=
  let always := codeOf st ≠ 0 && codeOf st ≠ sEMPTY
  s.onCtx fun c =>
    if col then { c with cq := c.cq.erase e, cdone := c.cdone ++ [(e, st, always)] }
    else { c with mq := c.mq.erase e, mdone := c.mdone ++ [(e, st, always)] }
/-- Replaces a running command. -/
def State.cmdPut (s : State) (col : Bool) (e e' : Eff) : State :=
  s.onCtx fun c => if col then { c with cq := c.cq.map fun x => if x = e then e' else x }
    else { c with mq := c.mq.map fun x => if x = e then e' else x }
/-- POP before a command starts: none while Q[QPOP] is empty. -/
def State.popBefore (s : State) (e : Eff) : Option State :=
  if cwPop e.cw then (s.ctx.popQ (cwQpop e.cw)).map fun c => { s with ctx := c } else some s

/-- Issue of an M or C command: poison traps, operand checks, then it is held for commit (10 R206, R208). -/
def issueCmd (i : Instr) (useA : Bool) (bad : Word → Bool) (lowOk : Nat → Bool) (ws : List Word) (s : State) : Out :=
  let a := s.opA
  let b := s.opB
  if a.poison || b.poison then .next (s.poisonFault useOther)
  else if useA && bad a.val then .next (s.rangeFault a.val)
  else if !lowOk (lowB b.val) then .next (s.rangeFault b.val)
  else .next ((s.hold { slot := 0, ins := i, a := a, b := b, ws := ws }).quiet)
/-- B carries nothing but its completion word. -/
def noLow (n : Nat) : Bool := n = 0
/-- FLUSH at issue, carried by the command (03 R75). -/
def State.flushW (s : State) : Word := ofBool 64 s.flush

/-! ### Regions (10 R212) -/

def Tile.region (t : Tile) (r : Nat) : Option Region := (t.regions.getD r none)
def State.regionOf (s : State) (r : BitVec 3) : Option Region :=
  match s.tile.region r.toNat with
  | some x => if x.owner = s.ctx.id.uid then some x else none
  | none => none
def State.setRegion (s : State) (r : BitVec 3) (x : Option Region) : State :=
  s.onTile fun t => { t with regions := setV t.regions r.toNat x }
def Region.shareRow (x y : Region) : Bool := x.row < y.row + y.h && y.row < x.row + x.h
def Region.shareCol (x y : Region) : Bool := x.col < y.col + y.w && y.col < x.col + x.w
/-- A region of the tile shares an element with it. -/
def Tile.overlaps (t : Tile) (x : Region) : Bool :=
  t.regions.toList.any fun y => match y with | some y => x.shareRow y && x.shareCol y | none => false
/-- MREGION's A layout. -/
def Region.shape (x : Region) : Nat := x.row + x.col * 2 ^ 8 + x.h * 2 ^ 16 + x.w * 2 ^ 24
/-- Releases a region of the tile: banks and scales are gone, its entries are cleared (10 R212). -/
def Tile.freeRegion (t : Tile) (r : Nat) : Tile :=
  match t.region r with
  | some x => { t with regions := setV t.regions r none
                       acc := t.acc.filter fun e => !(e.owner == x.owner && e.region == r) }
  | none => t

/-- Whether a running command on another region of the tile holds back MWLD or MSTEP of region `r` (01 R13). -/
def State.pathBusy (s : State) (r : Nat) (x : Region) (step : Bool) : Bool :=
  (s.tile.regions.toList.zipIdx).any fun (y, i) => match y with
    | some y => i != r && (((y.busy || y.stepping) && x.shareCol y) || (step && y.stepping && x.shareRow y))
    | none => false

/-! ### Formats (03 R69, 10 R212) -/

/-- Lanes of an element for a format code. -/
def lanesOf (f : Nat) : Nat := if f ≤ 1 then 1 else if f ≤ 6 then 2 else 4
def quadFmt (f : Nat) : Bool := 5 ≤ f
def fmtPairOk (a w : Nat) : Bool :=
  (a ≤ 1 && w ≤ 1) || ((a = 2 || a = 3) && (w = 2 || w = 3)) || (a = 4 && w = 4)
    || ((a = 5 || a = 6) && (w = 5 || w = 6)) || ((a = 7 || a = 8) && (w = 7 || w = 8))
/-- The value of a lane of `16 / lanes` bits. -/
def laneVal (f x : Nat) : Val :=
  match f with
  | 0 => BF16.dec x | 1 => FP16.dec x | 2 | 5 => E4M3.dec x | 3 => E5M2.dec x
  | 7 => E2M1.dec x
  | 8 => Val.ofInt (BitVec.ofNat 4 x).toInt
  | _ => Val.ofInt (BitVec.ofNat 8 x).toInt
/-- Lane `l` of a 16-bit element under its scale. -/
def elemLane (f : Nat) (w : Nat) (scale : Nat) (l : Nat) : Val :=
  let n := 16 / lanesOf f
  let v := laneVal f (w / 2 ^ (n * l) % 2 ^ n)
  if quadFmt f then scaled v (scaleVal scale) else v
def Region.af (x : Region) : Nat := ((x.afmt.map (·.toNat)).getD 15)
def Region.wf (x : Region) : Nat := ((x.wfmt.map (·.toNat)).getD 15)
/-- Scale blocks that one column or row covers, and scale words. -/
def Region.nb (x : Region) (f : Nat) : Nat := (x.h * lanesOf f + 3) / 4
def Region.scaleWords (x : Region) (f : Nat) : Nat := if quadFmt f then (x.nb f + 2) / 3 else 0
/-- Scale of block `b` from its words: a word with nonzero [63:60] reads as NaN (03 R66). -/
def scaleOf (ws : List Elem) (b : Nat) : BitVec 20 :=
  let w : Word := (ws.getD (b / 3) { val := 0 }).val.setWidth 64
  if bitsN w 63 60 ≠ 0 then 0xFF000 else BitVec.ofNat 20 (w.toNat / 2 ^ (20 * (b % 3)))
def badScale (ws : List Elem) : Bool := ws.any fun e => bitsN e.val 63 60 ≠ 0

/-! ### Elements and columns (03 R77, R78) -/

/-- Sum of products, exact; flags. -/
def dot : List (Val × Val) → Val × Word
  | [] => (Val.zero, 0)
  | [(a, w)] => a.mul w
  | (a, w) :: l =>
    let (x, f) := a.mul w
    let (y, g) := dot l
    let (z, h) := x.add y
    (z, f ||| g ||| h)
/-- One element: the incoming partial and the lanes of its row. -/
def element (fl : Bool) (p : Half) (ls : List (Val × Val)) : Half × Word :=
  let pv := dec32 fl p
  if pv.isNan || ls.any (fun x => x.1.isNan || x.2.isNan) then (0x7FC00000, 0)
  else
    let (s, f) := dot ls
    if s.isNan then (0x7FC00000, f)
    else
      let (z, g) := pv.add s
      let (r, h) := ne32 fl z
      (r, f ||| g ||| h)
/-- One element of the integer path. -/
def elementInt (p : Half) (a w : Nat) : Half :=
  let b8 (x l : Nat) : Int := (BitVec.ofNat 8 (x / 2 ^ (8 * l))).toInt
  p + BitVec.ofInt 32 (b8 a 0 * b8 w 0 + b8 a 1 * b8 w 1)

/-- A column result: rows of (activation word, activation scale, weight), top to bottom. -/
def column (x : Region) (fl : Bool) : List (Nat × Nat × Weight) → Half × Word → Half × Word
  | [], p => p
  | (a, sa, w) :: l, (p, f) =>
    if x.af = 4 then column x fl l (elementInt p a w.w.toNat, f)
    else
      let (r, g) := element fl p ((List.range (lanesOf x.af)).map fun k =>
        (elemLane x.af a sa k, elemLane x.wf w.w.toNat w.scale.toNat k))
      column x fl l (r, f ||| g)

/-! ### Operand streams (10 R215) -/

/-- A stream as a command finds it: direction and element size right. -/
def Ctx.streamFit (c : Ctx) (n : Nat) (write : Bool) (esz : Nat) : Bool :=
  let t := c.streams.getD n {}
  t.st != .undef && streamWrite t == write && streamEsz t == esz
/-- What a stream can supply: enough, not yet, or never. -/
inductive Supply where
  | ready | later | ended
deriving DecidableEq, Repr
def Ctx.supply (c : Ctx) (n k : Nat) : Supply :=
  let t := c.streams.getD n {}
  if c.engineFed n then
    if k ≤ t.eng.length then .ready else if t.engOn && t.engN < streamCount t then .later else .ended
  else if k ≤ t.buf.length then .ready
  else if t.st.live && t.more then .later
  else .ended
/-- Claims streams for the matrix engine; none when one is claimed by another party. The claim of a configuration whose
ENGINE port names the stream counts as its own (14 R301). -/
def Ctx.claimAll (c : Ctx) : List Nat → Option Ctx
  | [] => some c
  | n :: l =>
    let fed := c.engineFed n && (match (c.streams.getD n {}).claim with | some (.collar _) | none => true | _ => false)
    if fed then c.claimAll l
    else match c.claim n .matrix with | some c => c.claimAll l | none => none
def Ctx.head (c : Ctx) (n k : Nat) : List Elem :=
  let t := c.streams.getD n {}
  if c.engineFed n then t.eng.take k else t.buf.take k
/-- The engine takes elements. A stream that only an ENGINE port feeds is over with its last element. -/
def Ctx.take (c : Ctx) (n k : Nat) : Ctx :=
  if c.engineFed n then
    let only := c.engineOnly n
    let c := c.onStream n fun t => { t with eng := t.eng.drop k }
    let t := c.streams.getD n {}
    if only && t.st == .run && t.eng.isEmpty && streamCount t ≤ t.engN then c.streamIdle n else c
  else c.takeElems n k

/-! ### Order of the commands of a context (10 R209, R216) -/

/-- The engine command `e` is the next to start, and no running command is in its way. -/
def Ctx.mayStart (c : Ctx) (e : Eff) : Bool := (c.mq.find? fun x => !x.started) == some e
def regionNo : Instr → Option (BitVec 3)
  | .mregion r | .mfmt r | .mwld r | .mswap r | .mstep r | .macc r | .mdrain r | .mzero r | .mfree r => some r
  | _ => none
/-- The streams that a command uses: a field that its form, its formats or PV leave unused names none (10 R215). -/
def State.cmdStreams (s : State) (e : Eff) : List Nat :=
  let a := e.a.val
  let x := (regionNo e.ins).bind s.regionOf
  let quad (f : Region → Nat) : Bool := x.any fun x => quadFmt (f x) && f x ≤ 8
  match e.ins with
  | .mwld _ => bitsN a 4 0 :: (if quad Region.wf then [bitsN a 9 5] else [])
  | .mstep _ => bitsN a 4 0 :: ((if a.getLsbD 15 then [bitsN a 9 5] else []) ++ (if quad Region.af then [bitsN a 14 10] else [])
      ++ match x with | some x => if x.dest then [x.ostr.toNat] else [] | none => [])
  | _ => []
def isMwld : Instr → Bool | .mwld _ => true | _ => false
def isMstep : Instr → Bool | .mstep _ => true | _ => false
/-- Earlier commands of the context on the region, and for MFREE their completion, or on a common stream; an MWLD need not
wait for an MSTEP of its region (10 R216). -/
def State.mBlocked (s : State) (e : Eff) : Bool :=
  let r := regionNo e.ins
  (s.ctx.mq.any fun x => x.started && ((regionNo x.ins == r && !(isMwld e.ins && isMstep x.ins))
      || (s.cmdStreams x).any (s.cmdStreams e).contains))
    || (match e.ins with
        | .mfree q => (s.ctx.mdone.any fun x => regionNo x.1.ins == r) || s.ctx.sync.owes fun o => o.unit == 8 + q.toNat
        | _ => false)
    || (match e.ins, r.bind s.regionOf with
        | .mwld r, some x => s.pathBusy r.toNat x false
        | .mstep r, some x => s.pathBusy r.toNat x true
        | _, _ => false)

/-- Elements that the next row or word of a started command takes from stream `n` (10 R215). -/
def Eff.needs1 (e : Eff) (x : Region) (n : Nat) : Nat :=
  let a := e.a.val
  let of (on : Bool) (str k : Nat) : Nat := if on && str == n then k else 0
  match e.ins with
  | .mwld _ =>
    if x.h * x.w ≤ (e.ws.getD 0 0).toNat then 0
    else Nat.max (of true (bitsN a 4 0) 1) (of (quadFmt x.wf) (bitsN a 9 5) 1)
  | .mstep _ =>
    if bitsN a 31 16 ≤ (e.ws.getD 0 0).toNat then 0
    else Nat.max (of true (bitsN a 4 0) ((x.h + 3) / 4))
      (Nat.max (of (a.getLsbD 15) (bitsN a 9 5) x.w) (of (quadFmt x.af) (bitsN a 14 10) (x.scaleWords x.af)))
  | _ => 0
/-- Elements of stream `n` that the M commands of the context in focus read next (14 R301). -/
def State.engineNeed (s : State) (n : Nat) : Nat :=
  s.ctx.mq.foldl (fun m e => match (regionNo e.ins).bind s.regionOf with
    | some x => if e.started then Nat.max m (e.needs1 x n) else m
    | none => m) 0

/-! ### Issue of the forms -/

def execMregion (r : BitVec 3) (s : State) : Out :=
  match s.who with
  | .cmd e =>
    if !s.ctx.mayStart e || s.mBlocked e then .next s else
    match s.popBefore e with
    | none => .next s
    | some s =>
      let a := e.a.val
      let x : Region := { owner := s.ctx.id.uid, row := bitsN a 6 0, col := bitsN a 14 8, h := bitsN a 22 16, w := bitsN a 30 24
                          active := List.replicate (bitsN a 22 16 * bitsN a 30 24) {}
                          loading := List.replicate (bitsN a 22 16 * bitsN a 30 24) {} }
      if (s.tile.region r.toNat).isSome then .next (s.cmdDone false e (ref 0x034))
      else if s.tile.overlaps x then
        .next (s.cmdDone false e (ref 0x035))
      else .next ((s.setRegion r (some x)).cmdDone false e stOK)
  | .core => issueCmd (.mregion r) true (fun a =>
      bitsN a 7 7 ≠ 0 || bitsN a 15 15 ≠ 0 || bitsN a 23 23 ≠ 0 || bitsN a 63 31 ≠ 0
        || bitsN a 22 16 = 0 || bitsN a 30 24 = 0 || 96 < bitsN a 6 0 + bitsN a 22 16 || 96 < bitsN a 14 8 + bitsN a 30 24)
      noLow [] s

/-- A short command on a region of the context: POP, NOREGION, then its effect. -/
def regionCmd (r : BitVec 3) (e : Eff) (f : Region → State → Word × State) (s : State) : Out :=
  if !s.ctx.mayStart e || s.mBlocked e then .next s else
  match s.popBefore e with
  | none => .next s
  | some s =>
    match s.regionOf r with
    | none => .next (s.cmdDone false e (ref 0x033))
    | some x => let (st, s) := f x s; .next (s.cmdDone false e st)

def execMfmt (r : BitVec 3) (s : State) : Out :=
  match s.who with
  | .cmd e => regionCmd r e (fun x s => (stOK, s.setRegion r (some { x with
      afmt := some (BitVec.ofNat 4 (bitsN e.a.val 3 0)), wfmt := some (BitVec.ofNat 4 (bitsN e.a.val 7 4)) }))) s
  | .core =>
    let a := s.opA
    let f := bitsN a.val 3 0
    let w := bitsN a.val 7 4
    if !a.poison && !s.opB.poison && bitsN a.val 63 8 = 0 && f ≤ 8 && w ≤ 8 && !fmtPairOk f w then
      .next (s.slotFault 6 0x031 a.val 0)
    else issueCmd (.mfmt r) true (fun a => bitsN a 63 8 ≠ 0 || 8 < f || 8 < w) noLow [] s

def execMacc (r : BitVec 3) (s : State) : Out :=
  match s.who with
  | .cmd e => regionCmd r e (fun x s =>
      let a := e.a.val
      if a.getLsbD 24 && !s.ctx.streamFit (bitsN a 29 25) true 2 then (ref 0x032, s) else
      (stOK, s.setRegion r (some { x with
        npass := bitsN a 7 0, first := bitsN a 13 8, nent := bitsN a 22 16, dest := a.getLsbD 24
        ostr := BitVec.ofNat 5 (bitsN a 29 25) }))) s
  | .core => issueCmd (.macc r) true (fun a =>
      bitsN a 7 0 = 0 || bitsN a 15 14 ≠ 0 || bitsN a 23 23 ≠ 0 || bitsN a 63 30 ≠ 0 || bitsN a 22 16 = 0
        || 64 < bitsN a 22 16 || 64 < bitsN a 13 8 + bitsN a 22 16 || (bitsN a 24 24 = 0 && bitsN a 29 25 ≠ 0))
      noLow [] s

/-- The two banks change places (01 R14). -/
def execMswap (r : BitVec 3) (s : State) : Out :=
  match s.who with
  | .cmd e => regionCmd r e (fun x s =>
      (stOK, s.setRegion r (some { x with active := x.loading, loading := x.active }))) s
  | .core => issueCmd (.mswap r) false (fun _ => false) noLow [] s

def execMfree (r : BitVec 3) (s : State) : Out :=
  match s.who with
  | .cmd e => regionCmd r e (fun x s =>
      let n := (s.tile.acc.filter fun a => a.owner == x.owner && a.region == r.toNat).length
      (status 0 0 n, s.onTile (·.freeRegion r.toNat))) s
  | .core => issueCmd (.mfree r) false (fun _ => false) noLow [] s

/-- MDRAIN's and MZERO's A layout is bad. -/
def rangeBad (a : Word) : Bool :=
  bitsN a 7 0 ≠ 0 || bitsN a 15 14 ≠ 0 || bitsN a 63 23 ≠ 0 || bitsN a 22 16 = 0 || 64 < bitsN a 22 16
    || 64 < bitsN a 13 8 + bitsN a 22 16

/-! ### Entries (10 R218 to R220, 03 R79) -/

def Tile.entry (t : Tile) (node entry : Nat) : Option AccEnt := t.acc.find? fun e => e.node == node && e.entry == entry
/-- Non-clear entries of a region in a range that satisfy a test, in ascending entry and then column. -/
def entriesOf (t : Tile) (x : Region) (r first nent : Nat) (p : AccEnt → Bool) : List AccEnt :=
  (List.range nent).flatMap fun i => (List.range x.w).filterMap fun c =>
    match t.entry (x.col + c) (first + i) with
    | some e => if e.owner = x.owner && e.region = r && p e then some e else none
    | none => none
/-- Entries are released in order, and cleared. -/
def State.releaseAll (s : State) (x : Region) (r ser : Nat) (part : AccEnt → Bool) (es : List AccEnt) : State :=
  let s := s.onTile fun t => { t with acc := t.acc.filter fun a => !es.contains a }
  s.onCtx fun c => { c with releases := c.releases ++ es.map fun a =>
    { region := r, node := a.node, entry := a.entry
      tok := { val := a.val, pois := a.pois, eor := true, part := part a }
      stream := if x.dest then some x.ostr else none, ser := ser } }

def execMdrain (r : BitVec 3) (s : State) : Out :=
  match s.who with
  | .cmd e => regionCmd r e (fun x s =>
      let es := entriesOf s.tile x r.toNat (bitsN e.a.val 13 8) (bitsN e.a.val 22 16) (fun _ => true)
      if es.isEmpty then (status sEMPTY 0 0, s)
      else if x.dest && !s.ctx.streamFit x.ostr.toNat true 2 then (ref 0x032, s)
      else match (if x.dest then s.ctx.claimAll [x.ostr.toNat] else some s.ctx) with
        | none => (ref 0x053, s)
        | some c => (status 0 0 es.length, ({ s with ctx := c }).releaseAll x r.toNat e.ser (fun a => a.count < x.npass) es)) s
  | .core => issueCmd (.mdrain r) true rangeBad noLow [] s
def execMzero (r : BitVec 3) (s : State) : Out :=
  match s.who with
  | .cmd e => regionCmd r e (fun x s =>
      let es := entriesOf s.tile x r.toNat (bitsN e.a.val 13 8) (bitsN e.a.val 22 16) (fun _ => true)
      (stOK, s.onTile fun t => { t with acc := t.acc.filter fun a => !es.contains a })) s
  | .core => issueCmd (.mzero r) true rangeBad noLow [] s

/-! ### MWLD (10 R216) -/

/-- Engine flags: the core sets NV, OF and IFMT only (03 R76). -/
def State.coreFlags (s : State) (f : Word) : State :=
  s.onCsr fun c => { c with fpmode := c.fpmode ||| (f &&& (NV ||| OFl ||| IFMT)) }

def quadScaleStream (f : Nat) (n : Nat) (c : Ctx) : Bool := if quadFmt f then c.streamFit n false 3 else n = 0

/-- MWLD starts: its checks, its claims; `ws` counts the words written, then come the scale words. -/
def startMwld (r : BitVec 3) (e : Eff) (s : State) : State :=
  let a := e.a.val
  let wstr := bitsN a 4 0
  let sstr := bitsN a 9 5
  match s.regionOf r with
  | none => s.cmdDone false e (ref 0x033)
  | some x =>
    if x.wfmt.isNone then s.cmdDone false e (ref 0x036)
    else if !s.ctx.streamFit wstr false 2 || !quadScaleStream x.wf sstr s.ctx then s.cmdDone false e (ref 0x032)
    else match s.ctx.claimAll (if quadFmt x.wf then [wstr, sstr] else [wstr]) with
      | none => s.cmdDone false e (ref 0x053)
      | some c =>
        let t := c.streams.getD wstr {}
        let x := { x with busy := true, wgrp := if t.gv then some (BitVec.ofNat 2 t.group) else none }
        (({ s with ctx := c }).setRegion r (some x)).cmdPut false e { e with started := true, ws := [0] }

/-- MWLD or MSTEP ends with a status. -/
def State.endBusy (s : State) (r : BitVec 3) (e : Eff) (st : Word) : State :=
  let s := match s.regionOf r with
    | some x => s.setRegion r (some (if isMwld e.ins then { x with busy := false } else { x with stepping := false }))
    | none => s
  s.cmdDone false e st

/-- The next tile-register word of an MWLD, or a scale word that it needs first. With a format that has no scales the weight-scale
register becomes 0: the model's choice (03 R68; log 117). -/
def stepMwld (r : BitVec 3) (e : Eff) (s : State) : State :=
  let a := e.a.val
  let wstr := bitsN a 4 0
  let sstr := bitsN a 9 5
  match s.regionOf r with
  | none => s.endBusy r e (ref 0x033)
  | some x =>
    let j := (e.ws.getD 0 0).toNat
    let n := x.scaleWords x.wf
    let need := n * (j % x.w + 1)
    if x.h * x.w ≤ j then s.endBusy r e stOK
    else if e.ws.length - 1 < need then
      match s.ctx.supply sstr 1 with
      | .later => s
      | .ended => s.endBusy r e (status sFAULT 0x039 j)
      | .ready =>
        let el := (s.ctx.head sstr 1).getD 0 { val := 0 }
        let s := if badScale [el] then s.coreFlags IFMT else s
        (s.onCtx (·.take sstr 1)).cmdPut false e { e with ws := e.ws ++ [el.val.setWidth 64], wp := e.wp ++ [el.poison] }
    else
      match s.ctx.supply wstr 1 with
      | .later => s
      | .ended => s.endBusy r e (status sFAULT 0x039 j)
      | .ready =>
        let el := (s.ctx.head wstr 1).getD 0 { val := 0 }
        let col := j % x.w
        let blk := j / x.w * lanesOf x.wf / 4
        let ws := ((e.ws.drop (1 + n * col)).take n).map fun w => ({ val := w.setWidth 128 } : Elem)
        let sp := (e.wp.drop (n * col + blk / 3)).head?.getD false
        let w : Weight := { w := el.val.setWidth 32, scale := if n = 0 then 0 else scaleOf ws blk
                            pois := el.poison || (decide (n ≠ 0) && sp) }
        let s := s.setRegion r (some { x with loading := setAt x.loading j w })
        (s.onCtx (·.take wstr 1)).cmdPut false e { e with ws := BitVec.ofNat 64 (j + 1) :: e.ws.drop 1 }

def execMwld (r : BitVec 3) (s : State) : Out :=
  match s.who with
  | .cmd e =>
    if e.started then .next (stepMwld r e s)
    else if !s.ctx.mayStart e || s.mBlocked e then .next s
    else match s.popBefore e with | none => .next s | some s => .next (startMwld r e s)
  | .core => issueCmd (.mwld r) true (fun a => bitsN a 63 10 ≠ 0) noLow [] s

/-! ### MSTEP (10 R217) -/

def mstepM (a : Word) : Nat := bitsN a 31 16
def mstepPV (a : Word) : Bool := a.getLsbD 15

/-- WSTR of the last MWLD on a region that a block holds; M forms issue in dispatch order (10 R208). -/
def wstrOf (r : BitVec 3) (b : Block) : Option (BitVec 5) :=
  ((b.effs.filterMap fun e => match e.ins with
    | .mwld q => if q = r then some (BitVec.ofNat 5 (bitsN e.a.val 4 0)) else none
    | _ => none)).getLast?
/-- The element with the greatest number, the last of them. -/
def latestOf {α : Type} : List (Nat × α) → Option (Nat × α)
  | [] => none
  | x :: l => match latestOf l with
    | some y => if y.1 < x.1 then some x else some y
    | none => some x
/-- The latest WSTR of a region before the block in focus in dispatch order, or in it: of the block, else of the blocks
dispatched earlier, committed or not (10 R217). -/
def State.latestWstr (s : State) (r : BitVec 3) : Option (BitVec 5) :=
  match wstrOf r s.fir.blk with
  | some w => some w
  | none =>
    let flying := s.ctx.firs.filterMap fun f => if f.phase = .run then (wstrOf r f.blk).map (f.dseq, ·) else none
    (latestOf (((s.ctx.wlast.getD r.toNat []) ++ flying).filter fun x => x.1 < s.fir.dseq || s.fir.dseq = 0)).map (·.2)
/-- A committed MWLD is noted; older ones than the oldest block in flight are forgotten but for the last of them. -/
def noteWstr (oldest : Nat) (x : Nat × BitVec 5) (l : List (Nat × BitVec 5)) : List (Nat × BitVec 5) :=
  let l := l ++ [x]
  ((latestOf (l.filter (·.1 < oldest))).toList) ++ l.filter (oldest ≤ ·.1)
/-- The bank-group check of 04 R90. -/
def State.groupClash (s : State) (r : BitVec 3) (a : Word) : Bool :=
  let grp (n : Nat) : Option Nat := let t := s.ctx.streams.getD n {}
    if t.st != .undef && t.gv then some t.group else none
  match grp (bitsN a 4 0) with
  | none => false
  | some g => (s.latestWstr r).any (fun w => grp w.toNat == some g) || (mstepPV a && grp (bitsN a 9 5) == some g)

/-- Entries an MSTEP of `m` rows reaches. -/
def reach (m : Nat) : Nat := Nat.min m 64

def startMstep (r : BitVec 3) (e : Eff) (s : State) : State :=
  let a := e.a.val
  let astr := bitsN a 4 0
  let pstr := bitsN a 9 5
  let sstr := bitsN a 14 10
  match s.regionOf r with
  | none => s.cmdDone false e (ref 0x033)
  | some x =>
    let mine (k : AccEnt) : Bool := k.owner == x.owner && k.region == r.toNat
    let ents := s.tile.acc.filter fun k => x.col ≤ k.node && k.node < x.col + x.w && k.entry < reach (mstepM a)
    if x.afmt.isNone then s.cmdDone false e (ref 0x036)
    else if !s.ctx.streamFit astr false 3 || !quadScaleStream x.af sstr s.ctx
        || (mstepPV a && !s.ctx.streamFit pstr false 2) || (x.dest && !s.ctx.streamFit x.ostr.toNat true 2) then s.cmdDone false e (ref 0x032)
    else if ents.any (fun k => !mine k) then s.cmdDone false e (ref 0x038)
    else if ents.any (fun k => k.int != (x.af == 4)) then s.cmdDone false e (ref 0x037)
    else match s.ctx.claimAll ([astr] ++ (if mstepPV a then [pstr] else []) ++ (if quadFmt x.af then [sstr] else [])
        ++ (if x.dest then [x.ostr.toNat] else [])) with
      | none => s.cmdDone false e (ref 0x053)
      | some c =>
        (({ s with ctx := c }).setRegion r (some { x with stepping := true })).cmdPut false e
          { e with started := true, ws := [0, e.ws.getD 0 0] }

/-- A column result joins its entry (03 R79, 10 R218). -/
def Tile.addEntry (t : Tile) (x : Region) (r node entry : Nat) (fl : Bool) (v : Half) (p : Bool) : Tile × Word :=
  let int := x.af == 4
  let old := (t.entry node entry).getD { node := node, entry := entry, owner := x.owner, region := r, val := 0, count := 0, int := int }
  let (y, f) := if int then (old.val + v, 0) else fadd fl old.val v
  ({ t with acc := t.acc.filter (fun e => !(e.node == node && e.entry == entry)) ++
      [{ old with val := y, pois := old.pois || p }] }, f)
/-- The results of one row, column ascending. -/
def State.addRow (s : State) (x : Region) (r i : Nat) (fl : Bool) : List (Nat × Half × Bool) → State
  | [] => s
  | (c, v, p) :: l =>
    let (t, f) := s.tile.addEntry x r (x.col + c) (i % 64) fl v p
    ((({ s with tile := t }).coreFlags f).addRow x r i fl l)

/-- A release of an entry is not yet handed over. -/
def State.entryWaits (s : State) (node entry : Nat) : Bool :=
  s.allCtxs.any fun c => c.id.tile == s.ctx.id.tile && c.releases.any fun q => q.node == node && q.entry == entry

/-- The pass ends: the entries reached count it, and those complete are released (10 R219). -/
def endPass (r : BitVec 3) (x : Region) (rows ser : Nat) (s : State) : State :=
  let hit (k : AccEnt) : Bool := k.owner == x.owner && k.region == r.toNat && k.entry < reach rows
    && x.col ≤ k.node && k.node < x.col + x.w
  let s := s.onTile fun t => { t with acc := t.acc.map fun k => if hit k then { k with count := Nat.min (k.count + 1) 255 } else k }
  let es := entriesOf s.tile x r.toNat x.first x.nent fun k => x.npass ≤ k.count
  s.releaseAll x r.toNat ser (fun _ => false) es

/-- The activation word of region row `k` of a streamed row. -/
def actWord (els : List Elem) (k : Nat) : Nat := (els.getD (k / 4) { val := 0 }).val.toNat / 2 ^ (16 * (k % 4)) % 65536

/-- The next row of an MSTEP, or its end. -/
def stepMstep (r : BitVec 3) (e : Eff) (s : State) : State :=
  let a := e.a.val
  let astr := bitsN a 4 0
  let pstr := bitsN a 9 5
  let sstr := bitsN a 14 10
  match s.regionOf r with
  | none => s.endBusy r e (ref 0x033)
  | some x =>
    let i := (e.ws.getD 0 0).toNat
    let fl := (e.ws.getD 1 0).getLsbD 0
    let na := (x.h + 3) / 4
    let ns := x.scaleWords x.af
    let np := if mstepPV a then x.w else 0
    if mstepM a ≤ i then (endPass r x i e.ser s).endBusy r e (status 0 0 (mstepM a))
    else
      let sup := [s.ctx.supply astr na] ++ (if ns = 0 then [] else [s.ctx.supply sstr ns])
        ++ (if np = 0 then [] else [s.ctx.supply pstr np])
      if sup.contains .ended then (endPass r x i e.ser s).endBusy r e (status sFAULT 0x039 i)
      else if sup.contains .later || (List.range x.w).any (fun c => s.entryWaits (x.col + c) (i % 64)) then s
      else
        let acts := s.ctx.head astr na
        let scs := if ns = 0 then [] else s.ctx.head sstr ns
        let ps := if np = 0 then [] else s.ctx.head pstr np
        let badA := (acts.any (·.poison)) || (scs.any (·.poison))
        let results := (List.range x.w).map fun c =>
          let rows := (List.range x.h).map fun k =>
            (actWord acts k, (scaleOf scs (k * lanesOf x.af / 4)).toNat, x.active.getD (k * x.w + c) {})
          let p := ps.getD c { val := 0 }
          let (v, f) := column x fl rows (p.val.setWidth 32, 0)
          (c, v, badA || p.poison || rows.any (fun q => q.2.2.pois), f)
        let s := s.coreFlags ((results.foldl (fun w q => w ||| q.2.2.2) 0) ||| (if badScale scs then IFMT else 0))
        let s := s.addRow x r.toNat i fl (results.map fun q => (q.1, q.2.1, q.2.2.1))
        let s := s.onCtx fun c =>
          let c := c.take astr na
          let c := if ns = 0 then c else c.take sstr ns
          if np = 0 then c else c.take pstr np
        s.cmdPut false e { e with ws := [BitVec.ofNat 64 (i + 1), e.ws.getD 1 0] }

def execMstep (r : BitVec 3) (s : State) : Out :=
  match s.who with
  | .cmd e =>
    if e.started then .next (stepMstep r e s)
    else if !s.ctx.mayStart e || s.mBlocked e then .next s
    else match s.popBefore e with | none => .next s | some s => .next (startMstep r e s)
  | .core =>
    let a := s.opA
    let bad := bitsN a.val 63 32 ≠ 0 || mstepM a.val = 0 || (!mstepPV a.val && bitsN a.val 9 5 ≠ 0)
    if !a.poison && !s.opB.poison && !bad && noLow (lowB s.opB.val) && s.groupClash r a.val then
      .next ((s.accessFault dGROUP s.freeVal 0).drawn)
    else issueCmd (.mstep r) true (fun _ => bad) noLow [s.flushW] s

/-! ### MSTAT (10 R213) -/

def fmtCode (f : Option (BitVec 4)) : Nat := (f.map (·.toNat)).getD 15
/-- An MWLD, MSTEP or release of the region is in progress. -/
def State.regionBusy (s : State) (r : BitVec 3) (x : Region) : Bool :=
  x.busy || x.stepping || s.ctx.releases.any fun q => q.region == r.toNat
def State.mstatWord (s : State) (r : BitVec 3) : Word :=
  match s.tile.region r.toNat with
  | none => 0
  | some x =>
    if x.owner ≠ s.ctx.id.uid then BitVec.ofNat 64 (2 ^ 63)
    else BitVec.ofNat 64 (2 ^ 63 + 2 ^ 62 + (if s.regionBusy r x then 2 ^ 61 else 0) + fmtCode x.afmt * 2 ^ 57 + fmtCode x.wfmt * 2 ^ 53
      + x.npass % 256 * 2 ^ 45 + ((x.wgrp.map (·.toNat)).getD 0) * 2 ^ 43 + (if x.wgrp.isSome then 2 ^ 42 else 0) + x.shape)
def execMstat (r : BitVec 3) (t0 t1 : Cons) (s : State) : Out :=
  let v := tok (s.mstatWord r)
  .next (s.emit [(t0, v), (t1, v)])

/-! ### Completion and time-outs of commands (10 R209, R210, R219) -/

/-- A done command may report: for MSTEP and MDRAIN all its releases have been handed over. -/
def Ctx.mayReport (c : Ctx) (e : Eff) : Bool :=
  match e.ins with
  | .mstep r | .mdrain r => !(c.releases.any fun q => q.region == r.toNat && q.ser == e.ser)
  | _ => true
def Ctx.report (c : Ctx) (x : Eff × Word × Bool) : Ctx :=
  let w := encode x.1.ins
  c.complete x.1.cw x.2.2 x.2.1 (fCls w) (fOp w) (fMod w).toNat 0 (match regionNo x.1.ins with | some r => { unit := 8 + r.toNat } | none => {})

/-- ENGINE_COMMAND_COMPLETION: the first done command that may report leaves its record and push. -/
def execEngineCommandCompletion (col : Bool) (s : State) : Out :=
  if col then
    match s.ctx.cdone with
    | x :: l => .next (s.onCtx fun c => ({ c with cdone := l }).report x)
    | [] => .next s
  else
    match s.ctx.mdone.find? (fun x => s.ctx.mayReport x.1) with
    | some x => .next (s.onCtx fun c => ({ c with mdone := c.mdone.erase x }).report x)
    | none => .next s

/-- COMMAND_POP_TIMEOUT (10 R209). -/
def execCommandPopTimeout (col : Bool) (s : State) : Out :=
  match (if col then s.ctx.cq.head?.filter (fun e => !e.started) else s.ctx.mq.find? (fun e => !e.started)) with
  | some e =>
    match e.since with
    | some t =>
      if cwPop e.cw && s.ctx.csr.dceil.toNat + t ≤ s.ctx.csr.budget.toNat && (s.popBefore e).isNone then
        .next (s.cmdDone col e (status sTIMEOUT 0 0))
      else .next s
    | none => .next s
  | none => .next s

end Sys2Proof.Machine
end

