-- ==== Sys2Proof/Machine/Collar.lean ====
section
/-! DEFINITION. Class C: loading, firing and tending collar configurations, sett bindings (10 R221 to R227; 14 R306 to
R309, R311, R312; 22 R389). -/

namespace Sys2Proof.Machine

/-! ### The collar engine's port (10 R221, 22 R389) -/

/-- Holds the collar engine's port. -/
def State.holdEng (s : State) (h : Hold) (k : Nat) : State :=
  (s.onCtx fun c => { c with holdEngine := some h }).streamEvent 3 0 h k

/-- Reads `n` words through a translation; the words and whether one is poisoned, or the hold and the index of the
failing word. -/
def readWords (w : Who) : Nat → Nat → Word → State → Except (Hold × Nat) (Words × Bool) × State
  | 0, _, _, s => (.ok ([], false), s)
  | n + 1, i, va, s =>
    match s.globalMem w .rd va 8 with
    | (.error d, s) => (.error (⟨d, va, 0⟩, i), s)
    | (.ok l, s) =>
      let s := match l with | .mem k => s.touch va k 8 | _ => s
      let (v, p) : Word × Bool := match l with
        | .mem k => (BitVec.ofNat 64 (s.mem.read (s.kvOf w k) k 8), s.mem.poisoned k)
        | _ => (0, false)
      match readWords w n (i + 1) (va + 8) s with
      | (.ok (ws, q), s) => (.ok (v :: ws, p || q), s)
      | (.error e, s) => (.error e, s)

/-- What reading a structure gives: the words, a rejection, or a hold. -/
inductive Got (α : Type) where
  | ok (x : α) | bad | hold (h : Hold) (k : Nat)

def readGot (w : Who) (n i : Nat) (va : Word) (s : State) : Got Words × State :=
  match readWords w n i va s with
  | (.ok (ws, false), s) => (.ok ws, s)
  | (.ok (_, true), s) => (.bad, s)
  | (.error (h, k), s) => (.hold h k, s)

/-- Reads the delta list at an address. -/
def readDelta (w : Who) (im : Image) (i : Nat) (va : Word) (s : State) : Got (List NodeEnt) × State :=
  match readGot w 1 i va s with
  | (.bad, s) => (.bad, s)
  | (.hold h k, s) => (.hold h k, s)
  | (.ok hd, s) =>
    if deltaLen hd = 0 || 384 < deltaLen hd || bitsN (wAt hd 0) 63 9 ≠ 0 then (.bad, s)
    else match readGot w (2 * deltaLen hd) (i + 1) (va + 8) s with
      | (.bad, s) => (.bad, s)
      | (.hold h k, s) => (.hold h k, s)
      | (.ok tl, s) => (match deltaOf im (hd ++ tl) with | some es => .ok es | none => .bad, s)
def readDeltas (w : Who) (im : Image) (base : Word) : List DirEnt → State → Got Unit × State
  | [], s => (.ok (), s)
  | d :: l, s =>
    match readDelta w im (d.off / 8) (base + BitVec.ofNat 64 d.off) s with
    | (.ok _, s) => readDeltas w im base l s
    | (.bad, s) => (.bad, s)
    | (.hold h k, s) => (.hold h k, s)

/-- Reads and checks an image (14 R296 to R304, R307). -/
def readImage (w : Who) (sett : Bool) (base : Word) (s : State) : Got Image × State :=
  match readGot w 8 0 base s with
  | (.bad, s) => (.bad, s)
  | (.hold h k, s) => (.hold h k, s)
  | (.ok hd, s) =>
    if !headerOk hd || (bitsN (wAt hd 0) 9 8 = 1) != sett then (.bad, s)
    else match readGot w (Image.bodyWords hd - 8) 8 (base + 64) s with
      | (.bad, s) => (.bad, s)
      | (.hold h k, s) => (.hold h k, s)
      | (.ok tl, s) =>
        let ws := hd ++ tl
        let im := parseImage ws
        if !bodyOk ws then (.bad, s)
        else if Image.ndir ws = 0 then (.ok im, s)
        else
          let off := Image.diroff ws
          match readGot w (2 * Image.ndir ws) (off / 8) (base + BitVec.ofNat 64 off) s with
          | (.bad, s) => (.bad, s)
          | (.hold h k, s) => (.hold h k, s)
          | (.ok ds, s) =>
            match dirOf ds (Image.ndir ws) with
            | none => (.bad, s)
            | some dir =>
              match readDeltas w im base dir s with
              | (.ok _, s) => (.ok { im with dir := dir }, s)
              | (.bad, s) => (.bad, s)
              | (.hold h k, s) => (.hold h k, s)

/-! ### Order of C commands -/

/-- The command runs: it stands at the head, the port is free, and its POP has succeeded. -/
def State.cStart (s : State) (e : Eff) : Option (State × Eff) :=
  if s.ctx.cq.head? ≠ some e || s.ctx.holdEngine.isSome || !s.ctx.mapq.isEmpty then none
  else if e.started then some (s, e)
  else (s.popBefore e).map fun s => (s.cmdPut true e { e with started := true }, { e with started := true })
def cCmd (e : Eff) (f : Eff → State → State) (s : State) : Out :=
  match s.cStart e with
  | none => .next s
  | some (s, e) => .next (f e s)
def State.cDone (s : State) (e : Eff) (st : Word) : State := s.cmdDone true e st

def Ctx.onHandle (c : Ctx) (h : Nat) (f : CollarCfg → CollarCfg) : Ctx :=
  { c with handles := modV c.handles h fun g => g.map f }
def Ctx.cfg (c : Ctx) (h : Nat) : Option CollarCfg := c.handles.getD h none

/-- Cycles of the hang monitor up to now: an armed monitor counts, to its threshold (14 R311). -/
def CollarCfg.accrue (now : Nat) (g : CollarCfg) : CollarCfg :=
  let n := match g.hang with
    | some (lim, _) =>
      if g.fired && !g.frozen && g.chans.any (!·.isEmpty) then Nat.max g.idle (Nat.min lim (g.idle + (now - g.idleAt))) else g.idle
    | none => g.idle
  { g with idle := n, idleAt := now }
def Ctx.now (c : Ctx) : Nat := c.csr.budget.toNat

/-! ### Placing (14 R306) -/

def newCfg (im : Image) (addr : Word) (first : Nat) (r : BitVec 2) : CollarCfg :=
  { img := im, addr := addr, side := BitVec.ofNat 2 (first / 12), first := first, rot := r
    nodes := im.nodes.map fun n => { state := n.init, level := n.level, pin := n.pin, slot := n.cslot + r }
    chans := im.edges.map fun e => List.replicate e.init { val := e.initv }
    ports := im.ports.map fun _ => {} }

/-- What a load comes to: its status, a hold, or waiting for room in a bore log. -/
inductive Loaded where
  | done (st : Word) | hold (h : Hold) (k : Nat) | wait
deriving DecidableEq, Repr

/-- A load comes to its status once the records of its allocations are settled (24 R410). -/
def State.loadedAs (s : State) (recs : List (Nat × LogRec)) (st : Word) (go : State → State) : Loaded × State :=
  match s.settleAll recs with
  | (s, true) => (.done st, go s)
  | (s, false) => (.wait, s)

/-- A checked image is placed into a handle of the context in focus. Moves that the allocator has made stand when the load is then
refused: the model's choice (log 112). -/
def State.placeImage (s : State) (h : Nat) (im : Image) (addr : Word) (side : Nat) : Loaded × State :=
  match s.allocate s.ctx im (im.sides side) with
  | .at f r moved =>
    let recs := s.moveRecs moved ++ [(s.ctx.id.uid, allocRec s.ctx 1 h f r)]
    let go (s : State) : State := (s.applyMoves moved).onCtx fun c => { c with
      handles := setV c.handles h (some (newCfg im addr f r)) }
    s.loadedAs recs (status 0 0 im.nslab) go
  | .noslab moved => s.loadedAs (s.moveRecs moved) (ref 0x03E) (·.applyMoves moved)
  | .busy moved => s.loadedAs (s.moveRecs moved) (ref 0x03F) (·.applyMoves moved)

/-- An image that has been read is checked for cycles and placed. -/
def State.loadInto (s : State) (h : Nat) (im : Image) (addr : Word) (side : Nat) : Loaded × State :=
  if (s.ctx.cfg h).isSome then (.done (ref 0x03B), s)
  else if im.cyclic then (.done (ref 0x03D), s)
  else s.placeImage h im addr side

/-- The command ends, or waits behind a hold or a log. -/
def State.finishLoad (s : State) (e : Eff) : Loaded → State
  | .done st => s.cDone e st
  | .hold h k => s.holdEng h k
  | .wait => s
/-- A read of the command was skipped: its words are poisoned (11 R256). -/
def Eff.skipped (e : Eff) : Bool := !e.wp.isEmpty

/-- Who reads for a command: SPACE as it was at commit, the key slot of the context at that moment (13 R294). -/
def State.whoEff (s : State) (e : Eff) : Who := s.whoOf e.space s.keyNow

def applyCload (h : Nat) (e : Eff) (s : State) : State :=
  if (s.ctx.cfg h).isSome then s.cDone e (ref 0x03B)
  else if e.skipped then s.cDone e (ref 0x03C)
  else match readImage (s.whoEff e) false e.a.val s with
    | (.bad, s) => s.cDone e (ref 0x03C)
    | (.hold x k, s) => s.holdEng x k
    | (.ok im, s) =>
      let (l, s) := s.loadInto h im e.a.val (bitsN e.b.val 2 0)
      s.finishLoad e l
def addrBad (a : Word) : Bool := bitsN a 63 56 ≠ 0 || a.toNat % 64 ≠ 0

def execCload (h : BitVec 5) (s : State) : Out :=
  match s.who with
  | .cmd e => cCmd e (applyCload h.toNat) s
  | .core => issueCmd (.cload h) true addrBad (fun n => n ≤ 4) [] s

/-- CFIRE (10 R221). -/
def applyCfire (h : Nat) (e : Eff) (s : State) : State :=
  match s.ctx.cfg h with
  | none => s.cDone e (ref 0x03A)
  | some g =>
    let s := if g.fired then s else s.onCtx fun c =>
      c.onHandle h fun g => { g.accrue c.now with fired := true, flush := c.flush }
    s.cDone e stOK
def execCfire (h : BitVec 5) (s : State) : Out :=
  match s.who with
  | .cmd e => cCmd e (applyCfire h.toNat) s
  | .core => issueCmd (.cfire h) false (fun _ => false) noLow [] s

/-! ### CPATCH (14 R308) -/

/-- A free physical slot of a unit. -/
def freeSlot (used : List (BitVec 9 × BitVec 2)) (u : BitVec 9) : Option (BitVec 2) :=
  ((List.range 4).map (BitVec.ofNat 2)).find? fun c => !used.contains (u, c)
def State.usedSlots (s : State) : List (BitVec 9 × BitVec 2) := s.placed.flatMap fun p => usesSlots p.img p.first p.slots
/-- One entry: the operator takes a free slot of its unit, its old slot is free afterwards. What an ended firing has still to
emit goes out; a row in progress starts again. -/
def CollarCfg.patchOne (g : CollarCfg) (used : List (BitVec 9 × BitVec 2)) (y : NodeEnt) : CollarCfg × List (BitVec 9 × BitVec 2) :=
  let u := y.node + BitVec.ofNat 9 (8 * g.first)
  match g.img.nodeAt y.node y.cslot, freeSlot used u with
  | some i, some c =>
    let old := ((g.nodes[i]?).map (·.slot)).getD 0
    let new (n : NodeSt) : NodeSt :=
      { n with slot := c, level := y.level, pin := y.pin, state := if unitNo y.node = 7 then y.init else n.state
               stat := [], phase := 0, marks := { val := 0 } }
    ({ g with img := { g.img with nodes := setAt g.img.nodes i y }, nodes := modAt g.nodes i new },
      (u, c) :: used.filter (· != (u, old)))
  | _, _ => (g, used)
def patchAll : List NodeEnt → CollarCfg × List (BitVec 9 × BitVec 2) → CollarCfg
  | [], x => x.1
  | y :: l, x => patchAll l (x.1.patchOne x.2 y)
def applyCpatch (h : Nat) (e : Eff) (s : State) : State :=
  match s.ctx.cfg h with
  | none => s.cDone e (ref 0x03A)
  | some g =>
    if e.skipped then s.cDone e (ref 0x03C)
    else match readDelta (s.whoEff e) g.img 0 e.a.val s with
      | (.bad, s) => s.cDone e (ref 0x03C)
      | (.hold x k, s) => s.holdEng x k
      | (.ok es, s) =>
        let used := s.usedSlots
        if es.any (fun y => (freeSlot used (y.node + BitVec.ofNat 9 (8 * g.first))).isNone) then s.cDone e (ref 0x03F)
        else (s.onCtx fun c => c.onHandle h fun g => patchAll es (g, used)).cDone e stOK
def execCpatch (h : BitVec 5) (s : State) : Out :=
  match s.who with
  | .cmd e => cCmd e (applyCpatch h.toNat) s
  | .core => issueCmd (.cpatch h) true addrBad noLow [] s

/-! ### CMCAST (10 R222) -/

/-- Contexts on the targets: for each matching tile of the die, in (TY, TX) order, the first context of the launch. -/
def State.castTargets (s : State) (value mask : Nat) : List (Nat × BitVec 8) :=
  let die := bitsN s.ctx.id.tile 7 6
  (List.range 64).filterMap fun i =>
    if i &&& mask = value then
      let t := BitVec.ofNat 8 (die * 64 + i)
      (s.allCtxs.find? fun c => c.id.tile == t && c.id.launch == s.ctx.id.launch && c.id.launch != 0).map fun c => (c.id.uid, t)
    else none
/-- The image a target loads: the list of its TSEL is applied. -/
def castImage (w : Who) (im : Image) (base : Word) (t : BitVec 8) (s : State) : Got Image × State :=
  match im.dir.find? (fun d => d.tsel.toNat == bitsN t 5 0) with
  | none => (.ok im, s)
  | some d =>
    match readDelta w im (d.off / 8) (base + BitVec.ofNat 64 d.off) s with
    | (.ok es, s) => (.ok (im.patch es), s)
    | (.bad, s) => (.bad, s)
    | (.hold h k, s) => (.hold h k, s)
/-- A target of a cast: its context, its tile, and the status of its load once that has ended. -/
structure CastTo where
  uid : Nat
  tile : BitVec 8
  st : Option Word := none
deriving DecidableEq, Repr

/-- The targets as the command carries them while it waits. -/
def castWords (l : List CastTo) : List Word :=
  l.flatMap fun x => [BitVec.ofNat 64 x.uid, x.tile.setWidth 64, x.st.getD (BitVec.allOnes 64)]
def castList : List Word → List CastTo
  | u :: t :: st :: l =>
    { uid := u.toNat, tile := t.setWidth 8, st := if st = BitVec.allOnes 64 then none else some st } :: castList l
  | _ => []
/-- A target not loaded yet is refused. -/
def State.castRefuse (s : State) (h : Nat) (x : CastTo) : CastTo :=
  if x.st.isSome then x else { x with st := some (if ((s.focusCtx x.uid).ctx.cfg h).isSome then ref 0x03B else ref 0x03C) }
/-- Loads the targets one after another, until one must wait. A target whose context has gone takes no part. -/
def castAll (w : Who) (h : Nat) (im : Image) (base : Word) : List CastTo → State → List CastTo × Loaded × State
  | [], s => ([], .done 0, s)
  | x :: l, s =>
    let next (y : List CastTo) (s : State) : List CastTo × Loaded × State :=
      match castAll w h im base l s with
      | (l, r, s) => (y ++ l, r, s)
    if x.st.isSome then next [x] s
    else if (s.ctxOf x.uid).isNone then next [] s
    else if ((s.focusCtx x.uid).ctx.cfg h).isSome then next [{ x with st := some (ref 0x03B) }] s
    else match castImage w im base x.tile s with
    | (.hold y k, s) => (x :: l, .hold y k, s)
    | (.bad, s) => next [{ x with st := some (ref 0x03C) }] s
    | (.ok im', s) =>
      let r := (s.focusCtx x.uid).loadInto h im' base 4
      let s' := (r.2.focusCtx s.ctx.id.uid).focusFir s.fir.id
      match r.1 with
      | .done st => next [{ x with st := some st }] s'
      | r => (x :: l, r, s')
/-- The first target that is still to be loaded is refused: a read of its delta was skipped. -/
def State.castSkip (s : State) (h : Nat) : List CastTo → List CastTo
  | [] => []
  | x :: l => if x.st.isSome then x :: s.castSkip h l else s.castRefuse h x :: l
/-- The targets are those of the command's first attempt (10 R222). -/
def applyCmcast (h : Nat) (e : Eff) (s : State) : State :=
  let b := e.b.val
  let ts := if e.ws.isEmpty then (s.castTargets (bitsN b 5 0) (bitsN b 13 8)).map fun (u, t) => { uid := u, tile := t } else castList e.ws
  let fin (l : List CastTo) (s : State) : State :=
    let acc := l.filterMap (·.st)
    let n := (acc.filter fun x => codeOf x = 0).length
    match acc.find? (fun x => codeOf x ≠ 0) with
    | none => s.cDone e (status 0 0 n)
    | some x => s.cDone e (fault (bitsN x 15 4) n)
  if e.skipped && e.ws.isEmpty then fin (ts.map (s.castRefuse h)) s
  else
    let ts := if e.skipped then s.castSkip h ts else ts
    let wait (l : List CastTo) (s : State) : State := s.cmdPut true e { e with ws := castWords l, wp := [] }
    match readImage (s.whoEff e) false e.a.val s with
    | (.bad, s) => fin (ts.map (s.castRefuse h)) s
    | (.hold x k, s) => (if e.ws.isEmpty then s else wait ts s).holdEng x k
    | (.ok im, s) =>
      match castAll (s.whoEff e) h im e.a.val ts s with
      | (l, .done _, s) => fin l s
      | (l, .hold x k, s) => (wait l s).holdEng x k
      | (l, .wait, s) => wait l s
def execCmcast (h : BitVec 5) (s : State) : Out :=
  match s.who with
  | .cmd e => cCmd e (applyCmcast h.toNat) s
  | .core => issueCmd (.cmcast h) true addrBad (fun n =>
      n / 2 ^ 6 % 4 = 0 && n / 2 ^ 14 = 0 && (n % 64) &&& (n / 2 ^ 8 % 64) = n % 64) [] s

/-! ### Freeing (10 R223, 14 R309, 10 R227) -/

/-- A configuration leaves its slabs (24 R409, ALLOC 4); the claims it holds end with it. -/
def Ctx.dropHandle (c : Ctx) (h : Nat) : Ctx :=
  { c with handles := setV c.handles h none
           streams := c.streams |> mapV fun t => if t.claim = some (.collar (BitVec.ofNat 5 h)) then { t with claim := none } else t }
def freeRec (c : Ctx) (key : Nat) (first : Nat) (rot : BitVec 2) : LogRec := allocRec c 4 key first rot

/-- Frees a handle of the context in focus at once. -/
def State.evictHandle (s : State) (h : Nat) : State :=
  match s.ctx.cfg h with
  | none => s
  | some g => s.logged (freeRec s.ctx h g.first g.rot) false allBits fun s => s.onCtx (·.dropHandle h)

def applyCevict (m : Nat) (e : Eff) (s : State) : State :=
  match s.ctxAt s.ctx.id.tile (BitVec.ofNat 2 (bitsN e.a.val 7 0)) with
  | none => s.cDone e (ref 0x0A0)
  | some c =>
    if 4 ≤ bitsN e.a.val 7 0 then s.cDone e (ref 0x0A0)
    else if e.b.val.getLsbD 0 then
      let i := 16 * bitsN e.b.val 2 1 + m % 16
      let b := c.setts.getD i {}
      if !b.bound then s.cDone e (ref 0x03A)
      else
        let free (s : State) : State := s.onCtx fun c => { c with setts := modV c.setts i fun b => { b with resident := false } }
        let recs := if b.resident then [(c.id.uid, freeRec c (32 + i) b.first b.rot)] else []
        s.loggedAll recs fun s => (s.within c.id.uid free).cDone e stOK
    else
      match c.cfg m with
      | none => s.cDone e (ref 0x03A)
      | some g =>
        if g.fired && !g.frozen then
          (s.within c.id.uid fun s => s.onCtx fun c => c.onHandle m fun g => { g with evict := true }).cDone e stOK
        else
          s.loggedAll [(c.id.uid, freeRec c m g.first g.rot)] fun s =>
            (s.within c.id.uid fun s => s.onCtx (·.dropHandle m)).cDone e stOK
def execCevict (m : BitVec 5) (s : State) : Out :=
  match s.who with
  | .cmd e => cCmd e (applyCevict m.toNat) s
  | .core => issueCmd (.cevict m) true (fun a => bitsN a 63 8 ≠ 0)
      (fun n => if n % 2 = 1 then n / 8 = 0 && m.toNat < 16 else n = 0) [] s

/-! ### Occupancy maps (14 R312) -/

def tokWord (t : CTok) : Word :=
  t.val.setWidth 64 ||| (ofBool 64 t.eor <<< 32) ||| (ofBool 64 t.part <<< 33) ||| (ofBool 64 t.pois <<< 34)
/-- The words of the map: `cause` 0 hang, 1 fault, 2 save. -/
def CollarCfg.map (g : CollarCfg) (num : BitVec 2) (h cause : Nat) : List Word :=
  let fend : BitVec 13 := match g.fault with | some (e, _) => e | none => 0
  let fcode : BitVec 12 := if cause = 0 then 0x0B5 else match g.fault with | some (_, k) => k | none => 0
  let head : List Word := [
    BitVec.ofNat 64 (num.toNat * 2 ^ 32 + h * 2 ^ 24 + g.first % 64 * 2 ^ 18 + g.side.toNat * 2 ^ 16 + g.rot.toNat * 2 ^ 14
      + cause * 2 ^ 12 + 1),
    BitVec.ofNat 64 g.idle, fend.setWidth 64,
    fcode.setWidth 64, 0, 0, 0, 0]
  head ++ g.nodes.map (fun x => BitVec.ofNat 64 (x.state.toNat * 2 ^ 32 + (if x.faulted then 256 else 0)
      + (if x.pin then 16 else 0) + x.level.toNat))
    ++ g.chans.flatMap fun q => BitVec.ofNat 64 q.length :: q.map tokWord
/-- Stores a word of a map through SPACE, or a word of a save area through the SPACE of the saving context (22 R393). -/
def State.putMap (s : State) (va v : Word) : State × Option (BitVec 12 × Word) :=
  let w := match s.ctx.mapWho with | some (sp, k) => s.whoOf sp k | none => s.who4
  let (r, s) := s.global w .wr va 8
  match r with
  | .ok (.mem k) => (s.onMem fun m => (m.write (s.kvOf w k) k v.toNat 8).setPoison k false, none)
  | .ok _ => (s, some (dPERM, va))
  | .error d => (s, some (d, va))
/-- Writes what waits of occupancy maps, through SPACE, until an access is held. -/
def flushMaps : Nat → State → State
  | 0, s => s
  | n + 1, s =>
    if s.ctx.holdEngine.isSome then s else
    match s.ctx.mapq with
    | [] => s
    | (va, w, k) :: l =>
      match s.putMap va w with
      | (s, none) => flushMaps n (s.onCtx fun c => { c with mapq := l })
      | (s, some (d, a)) => s.holdEng ⟨d, a, 1⟩ k
def State.writeMap (s : State) (va : Word) (ws : List Word) : State :=
  let s := s.onCtx fun c => { c with mapq := c.mapq ++ ws.zipIdx.map fun (w, i) => (va + BitVec.ofNat 64 (8 * i), w, i) }
  flushMaps s.ctx.mapq.length s

/-! ### Freezing and the hang monitor (14 R310, R311) -/

def collarRec (h : Nat) : Word := recInfo 3 1 h 0 0
/-- The configuration is frozen: its map when the monitor is armed, its record. -/
def State.freezeCfg (s : State) (h cause : Nat) (st : Word) : State :=
  match s.ctx.cfg h with
  | none => s
  | some g =>
    let g := g.accrue s.ctx.now
    let s := s.onCtx fun c => c.onHandle h fun _ => { g with frozen := true, hang := none, hung := cause = 0 }
    let s := match g.hang with
      | some (_, va) => s.writeMap va (g.map s.ctx.id.num h cause)
      | none => s
    s.onCtx fun c => c.postRec st (collarRec h)
/-- The record of a fault of a configuration (14 R310). -/
def State.reportFault (s : State) (h : Nat) : State :=
  match (s.ctx.cfg h).bind (·.fault) with
  | some (ep, code) => s.onCtx fun c => c.postRec (status sFAULT code.toNat ep.toNat) (collarRec h)
  | none => s
/-- The hang monitor has reached its threshold: the configuration is frozen (14 R311; 27 R437). -/
def State.hangFirst (s : State) (h : BitVec 5) : Option State :=
  match s.ctx.cfg h.toNat with
  | some g =>
    match g.hang with
    | some (n, va) =>
      if g.fired && !g.frozen && n ≤ (g.accrue s.ctx.now).idle then
        some ((s.freezeCfg h.toNat 0 (fault 0x0B5 0)).raise 22 [h.setWidth 64, va])
      else none
    | none => none
  | none => none

/-! ### Tending (10 R224) -/

def tend (h : Nat) (e : Eff) (f : CollarCfg → Word × (Ctx → CollarCfg → CollarCfg)) (s : State) : State :=
  match s.ctx.cfg h with
  | none => s.cDone e (ref 0x03A)
  | some g =>
    let (st, k) := f g
    (s.onCtx fun c => c.onHandle h (k c)).cDone e st
def applyCweight (h : Nat) (e : Eff) (s : State) : State :=
  let a := e.a.val
  tend h e (fun g =>
    match g.img.nodeAt (BitVec.ofNat 9 (bitsN a 8 0)) (BitVec.ofNat 2 (bitsN a 11 10)) with
    | some i => (stOK, fun _ g => { g with nodes := modAt g.nodes i fun n =>
        { n with level := BitVec.ofNat 4 (bitsN a 15 12), pin := a.getLsbD 16 } })
    | none => (ref 0x03C, fun _ g => g)) s
def execCweight (h : BitVec 5) (s : State) : Out :=
  match s.who with
  | .cmd e => cCmd e (applyCweight h.toNat) s
  | .core => issueCmd (.cweight h) true (fun a => bitsN a 9 9 ≠ 0 || bitsN a 63 17 ≠ 0) noLow [] s

def applyChang (h : Nat) (e : Eff) (s : State) : State :=
  tend h e (fun _ => (stOK, fun c g => { g.accrue c.now with
    idle := 0, hang := if e.a.val = 0 then none else some (c.csr.hangiv.toNat, e.a.val) })) s
def execChang (h : BitVec 5) (s : State) : Out :=
  match s.who with
  | .cmd e => cCmd e (applyChang h.toNat) s
  | .core => issueCmd (.chang h) true addrBad noLow [] s

/-- CFREEZE. A fault that the configuration has met comes first, then a hang (14 R311): nothing of it can move any more once it is
frozen, so a fault whose configuration had not come to rest has its outcome now (14 R310; log 119). -/
def applyCfreeze (h : Nat) (e : Eff) (s : State) : State :=
  match (s.ctx.cfg h).bind fun g => if g.frozen then none else g.fault with
  | some (ep, code) => (s.freezeCfg h 1 (status sFAULT code.toNat ep.toNat)).cDone e stOK
  | none =>
    match s.hangFirst (BitVec.ofNat 5 h) with
    | some s => s.cDone e stOK
    | none => tend h e (fun _ => (stOK, fun c g => { g.accrue c.now with frozen := true })) s
def execCfreeze (h : BitVec 5) (s : State) : Out :=
  match s.who with
  | .cmd e => cCmd e (applyCfreeze h.toNat) s
  | .core => issueCmd (.cfreeze h) false (fun _ => false) noLow [] s

def applyCthaw (h : Nat) (e : Eff) (s : State) : State :=
  tend h e (fun g => if g.fault.isSome then (ref 0x041, fun _ g => g)
    else (stOK, fun c g => { g.accrue c.now with frozen := false, hung := false })) s
def execCthaw (h : BitVec 5) (s : State) : Out :=
  match s.who with
  | .cmd e => cCmd e (applyCthaw h.toNat) s
  | .core => issueCmd (.cthaw h) false (fun _ => false) noLow [] s

/-- CSTAT (10 R225). -/
def cstatWord (g : Option CollarCfg) : Word :=
  match g with
  | none => 0
  | some g => BitVec.ofNat 64 (2 ^ 63 + (if g.fired then 2 ^ 62 else 0) + (if g.frozen then 2 ^ 61 else 0)
      + (if g.fault.isSome then 2 ^ 60 else 0) + (if g.hang.isSome then 2 ^ 59 else 0) + g.side.toNat * 2 ^ 57
      + g.first % 64 * 2 ^ 51 + g.img.nslab % 16 * 2 ^ 47)
def execCstat (h : BitVec 5) (t0 t1 : Cons) (s : State) : Out :=
  let v := tok (cstatWord (s.ctx.cfg h.toNat))
  .next (s.emit [(t0, v), (t1, v)])

/-! ### Sett bindings (10 R226, R227) -/

def settIdx (q n : Nat) : Nat := 16 * q + n
def Ctx.putSett (c : Ctx) (i : Nat) (b : Binding) : Ctx := { c with setts := setV c.setts i b }
def applySbind (n : Nat) (e : Eff) (s : State) : State :=
  let q := bitsN e.b.val 1 0
  let i := settIdx q n
  if e.skipped then s.cDone e (ref 0x03C)
  else match readImage (s.whoEff e) true e.a.val s with
    | (.bad, s) => s.cDone e (ref 0x03C)
    | (.hold x k, s) => s.holdEng x k
    | (.ok im, s) =>
      if im.cyclic then s.cDone e (ref 0x03D)
      else if im.depth ≠ some im.lat then s.cDone e (ref 0x040)
      else match s.allocate s.ctx im [q] with
        | .noslab moved => s.loggedAll (s.moveRecs moved) fun s => (s.applyMoves moved).cDone e (ref 0x03E)
        | .busy moved => s.loggedAll (s.moveRecs moved) fun s => (s.applyMoves moved).cDone e (ref 0x03F)
        | .at f r moved =>
          let old := s.ctx.setts.getD i {}
          let recs := s.moveRecs moved ++ [(s.ctx.id.uid, allocRec s.ctx 3 (32 + i) f r)]
            ++ (if old.resident then [(s.ctx.id.uid, freeRec s.ctx (32 + i) old.first old.rot)] else [])
          let go (s : State) : State := (s.applyMoves moved).onCtx fun c =>
            c.putSett i { bound := true, resident := true, addr := e.a.val, img := im, first := f, rot := r }
          s.loggedAll recs fun s => (go s).cDone e (status 0 0 f)
def execSbind (n : BitVec 4) (s : State) : Out :=
  match s.who with
  | .cmd e => cCmd e (applySbind n.toNat) s
  | .core => issueCmd (.sbind n) true addrBad (fun n => n < 4) [] s

def applySfree (n : Nat) (e : Eff) (s : State) : State :=
  let i := settIdx (bitsN e.b.val 1 0) n
  let b := s.ctx.setts.getD i {}
  if !b.bound then s.cDone e (status sEMPTY 0 0)
  else
    let recs := if b.resident then [(s.ctx.id.uid, freeRec s.ctx (32 + i) b.first b.rot)] else []
    s.loggedAll recs fun s => (s.onCtx (·.putSett i {})).cDone e stOK
def execSfree (n : BitVec 4) (s : State) : Out :=
  match s.who with
  | .cmd e => cCmd e (applySfree n.toNat) s
  | .core => issueCmd (.sfree n) false (fun _ => false) (fun n => n < 4) [] s

def squeryWord (img : Bool) (b : Binding) : Word :=
  if !b.bound then 0
  else if img then b.addr
  else BitVec.ofNat 64 (2 ^ 63 + (if b.resident then 2 ^ 62 else 0) + b.img.nsrc % 4 * 2 ^ 60
    + (if b.img.param then 2 ^ 59 else 0) + b.img.lat % 128 * 2 ^ 52 + (if b.img.nslab = 2 then 2 ^ 51 else 0)
    + b.first % 64 * 2 ^ 45)
def execSquery (img : Bool) (n : BitVec 4) (t0 t1 : Cons) (s : State) : Out :=
  let b := s.opB
  if b.poison then .next (s.poisonFault useOther)
  else if 4 ≤ b.val.toNat then .next (s.rangeFault b.val)
  else
    let v := tok (squeryWord img (s.ctx.setts.getD (settIdx b.val.toNat n.toNat) {}))
    .next (s.emit [(t0, v), (t1, v)])

end Sys2Proof.Machine
end

