-- ==== Sys2Proof/Machine/Firing.lean ====
section
/-! DEFINITION. What runs in a collar: operators and their arbiter, ports, accumulator releases, faults, hang monitors and
occupancy maps (14 R295, R299 to R303, R309 to R312; 01 R16 to R19; 10 R219; 21 R382), and SETT (09 R203; 14 R305). -/

namespace Sys2Proof.Machine

/-! ### Operators (14 R299) -/

def nodeTy (n : NodeEnt) : VType := if n.type = 0 then .fp32 else if n.type = 1 then .i32 else .n32
def cmpRel (rm : BitVec 2) : VRel := if rm = 0 then .eq else if rm = 1 then .lt else if rm = 2 then .le else .ne
def cvtMode (rm : BitVec 2) : Mode := if rm = 0 then .ne else if rm = 1 then .tz else .sat
/-- The result of a general or special operator, and its flags. -/
def collarOp (fl : Bool) (n : NodeEnt) (a b c : Half) : Half × Word :=
  let ty := nodeTy n
  match n.opc.toNat with
  | 0x02 => opAdd fl ty a b
  | 0x03 => opSub fl ty a b
  | 0x04 => opMul fl ty a b
  | 0x05 => opFma fl ty a b c
  | 0x06 => opMinMax false fl ty a b
  | 0x07 => opMinMax true fl ty a b
  | 0x08 => let r := relHolds fl ty (cmpRel n.rm) a b; (maskOf r.1, r.2)
  | 0x09 => (if c.getLsbD 0 then a else b, 0)
  | 0x0A => (a &&& b, 0)
  | 0x0B => (a ||| b, 0)
  | 0x0C => (a ^^^ b, 0)
  | 0x0D => (a <<< (b.toNat % 32), 0)
  | 0x0E => (a >>> (b.toNat % 32), 0)
  | 0x0F => (a.sshiftRight (b.toNat % 32), 0)
  | 0x10 => convert fl (CvtPair.dec (n.k.toNat % 16)) (cvtMode n.rm) a
  | 0x11 => opAbs ty a
  | 0x12 => opNeg ty a
  | 0x13 =>
    if bitsN b 31 20 ≠ 0 then (0x7FC00000, IFMT)
    else ne32 fl (scaled (dec32 fl a) (scaleVal (bitsN b 19 0)))
  | 0x20 => frcp fl a
  | 0x21 => frsq fl a
  | 0x22 => fexp2 fl a
  | 0x23 => flog2 fl a
  | 0x24 => ftanhs fl a
  | 0x25 => fsigms fl a
  | _ => (a, 0)
/-- The next state of a state operator of OPC 0x30 to 0x32, what it emits, and its flags. -/
def stateOp (fl : Bool) (n : NodeEnt) (st a b : Half) : Half × Half × Word :=
  match n.opc.toNat with
  | 0x30 => (if b.toNat = 0 then st + 1 else BitVec.ofNat 32 ((st.toNat + 1) % b.toNat), st, 0)
  | 0x31 => let r := opMinMax true fl (nodeTy n) st a; (r.1, r.1, r.2)
  | _ => let r := opAdd fl (nodeTy n) st a; (r.1, r.1, r.2)
def isStat (n : NodeEnt) : Bool := n.opc = 0x34

/-- The positions that the next firing of an operator takes a token from. -/
def takes (n : NodeEnt) (x : NodeSt) (pos : Nat) : Bool :=
  if isStat n then (if x.phase = 0 then pos != 1 else pos != 0) else true
/-- The edges that feed them: position and edge. -/
def CollarCfg.feeds (g : CollarCfg) (i : Nat) : List (Nat × Nat) :=
  match g.img.nodes[i]?, g.nodes[i]? with
  | some n, some x => (List.range 3).filterMap fun p =>
      if takes n x p then (g.img.feed (nodeEp n) (BitVec.ofNat 2 p)).map fun e => (p, e) else none
  | _, _ => []
def CollarCfg.outs (g : CollarCfg) (i : Nat) : List Nat :=
  match g.img.nodes[i]? with | some n => g.img.outs (nodeEp n) | none => []
def CollarCfg.room (g : CollarCfg) (e : Nat) : Bool :=
  (g.chans.getD e []).length < ((g.img.edges[e]?).map (·.depth)).getD 0
def CollarCfg.has (g : CollarCfg) (e : Nat) : Bool := !(g.chans.getD e []).isEmpty
def CollarCfg.first1 (g : CollarCfg) (e : Nat) : CTok := (g.chans.getD e []).headD { val := 0 }
def CollarCfg.pop (g : CollarCfg) (e : Nat) : CollarCfg := { g with chans := modAt g.chans e (·.drop 1) }
def CollarCfg.runs (g : CollarCfg) : Bool := g.fired && !g.frozen
def CollarCfg.onNode (g : CollarCfg) (i : Nat) (f : NodeSt → NodeSt) : CollarCfg := { g with nodes := modAt g.nodes i f }
def CollarCfg.onPort (g : CollarCfg) (i : Nat) (f : PortSt → PortSt) : CollarCfg := { g with ports := modAt g.ports i f }

/-- The operator is ready, but for its unit's grant (14 R303). -/
def CollarCfg.ready (g : CollarCfg) (i : Nat) : Bool :=
  match g.nodes[i]? with
  | none => false
  | some x => g.runs && !x.faulted && x.out.isEmpty && (g.feeds i).all (fun (_, e) => g.has e) && !(g.feeds i).isEmpty
      && (g.outs i).all g.room
/-- A result of STAT that waits may leave. -/
def CollarCfg.drains (g : CollarCfg) (i : Nat) : Bool :=
  match g.nodes[i]? with
  | none => false
  | some x => g.runs && !x.faulted && !x.out.isEmpty && (g.outs i).all g.room

/-- The tokens of a firing combined: poison and marks (14 R295). -/
def joinMarks (v : Half) (ts : List CTok) : CTok :=
  { val := v, pois := ts.any (·.pois), eor := ts.any (·.eor), part := ts.any (·.part) }

/-- One firing of STAT (03 R82). -/
def statFire (fl : Bool) (x : NodeSt) (ts : List CTok) (a b : Half) : NodeSt × Word :=
  let t := Stat.ofLanes fun l => x.stat.getD l (if l = 3 then 1 else 0)
  let m := joinMarks 0 (x.marks :: ts)
  let lanes (t : Stat) : List Half := (List.range 9).map t.lane
  let eor := ts.any (·.eor)
  if x.phase = 0 then
    let t := t.p1 fl a
    ({ x with stat := lanes (if eor then t.start2 else t), phase := if eor then 1 else 0, marks := { m with eor := false } }, 0)
  else
    let t := t.p2 fl b
    if eor then
      let (mean, var, w) := t.fin fl
      ({ x with stat := [], phase := 0, marks := { val := 0 }, out := [{ m with val := mean }, { m with val := var }] }, w)
    else ({ x with stat := lanes t, marks := { m with eor := false } }, 0)

/-- One firing of an operator: the configuration with its tokens consumed, what it emits, its flags. -/
def CollarCfg.fire (g : CollarCfg) (i : Nat) : CollarCfg × Option CTok × Word :=
  match g.img.nodes[i]?, g.nodes[i]? with
  | some n, some x =>
    let fs := g.feeds i
    let tk (p : Nat) : Option CTok := (fs.find? (·.1 == p)).map fun f => g.first1 f.2
    let ts := fs.map fun f => g.first1 f.2
    let a := ((tk 0).map (·.val)).getD 0
    let b := ((tk 1).map (·.val)).getD n.k
    let c := ((tk 2).map (·.val)).getD n.k2
    let g' := fs.foldl (fun g f => g.pop f.2) g
    let m (v : Half) : CTok := joinMarks v ts
    if isStat n then
      let (x, w) := statFire g.flush x ts a b
      (g'.onNode i fun _ => x, none, w)
    else if unitNo n.node = 7 then
      let (st, v, w) := stateOp g.flush n x.state a n.k
      let st := if ts.any (·.eor) then n.init else st
      (g'.onNode i fun x => { x with state := st }, some (m v), w)
    else
      let (v, w) := collarOp g.flush n a b c
      (g', some (m v), w)
  | _, _ => (g, none, 0)

/-! ### Tokens on channels (21 R382) -/

/-- A token leaves an endpoint of handle `h` on a channel; it is dropped at a guarded boundary. -/
def State.putEdge (s : State) (h e : Nat) (t : CTok) : State :=
  match s.ctx.cfg h with
  | none => s
  | some g =>
    match g.img.edges[e]? with
    | none => s
    | some ed =>
      if (g.img.crosses ed).any (fun x => s.tile.ckerf.getLsbD (g.first + x.1)) then
        let s := s.onTile fun t => { t with cspoil := satAdd t.cspoil 0 32 1 }
        let i := s.ctx.id
        s.recordDrop i.tile i.job i.num.toNat
          (BitVec.ofNat 64 (i.job.toNat * 2 ^ 32 + i.side.toNat * 2 ^ 24 + i.tile.toNat * 2 ^ 16 + i.num.toNat * 2 ^ 14
            + 2 * 2 ^ 12 + 4 * 2 ^ 9)) (ed.src.setWidth 64)
      else s.onCtx fun c => c.onHandle h fun g => { g with chans := modAt g.chans e (· ++ [t]) }
def State.putEdges (s : State) (h : Nat) (es : List Nat) (t : CTok) : State := es.foldl (fun s e => s.putEdge h e t) s
/-- Changes a configuration; cycles of its monitor are counted up to now first. -/
def State.onCfg (s : State) (h : Nat) (f : CollarCfg → CollarCfg) : State :=
  s.onCtx fun c => c.onHandle h fun g => f (g.accrue c.now)

/-! ### Faults (14 R310) -/

/-- An operator (`port` false) or port meets a fault; the configuration's first is the one it reports. -/
def State.collarFault (s : State) (h : Nat) (port : Bool) (i : Nat) (code : BitVec 12) : State :=
  s.onCfg h fun g =>
    let ep := if port then portEp i 0 else ((g.img.nodes[i]?).map nodeEp).getD 0
    let g := { g with fault := g.fault.orElse fun _ => some (ep, code) }
    if port then g.onPort i fun p => { p with faulted := true, code := code }
    else g.onNode i fun x => { x with faulted := true, code := code }

/-! ### Ports (14 R300, R301; 01 R19) -/

def PORTDIR : BitVec 12 := 0x0B7
def PORTSIDE : BitVec 12 := 0x0B1
def cCLAIMED : BitVec 12 := 0x0B2
def NONMONO : BitVec 12 := 0x0B0

/-- What a port can do now. -/
inductive PortStep where
  /-- the state after it has moved a token -/
  | moved (s : State)
  | fault (code : BitVec 12)
  /-- nothing now, but elements are on their way -/
  | waits
  | still

/-- Tokens of an element. -/
def Stream.toks (t : Stream) : Nat := (t.size + 3) / 4
def Elem.toToks (e : Elem) (n : Nat) : List CTok :=
  (List.range n).map fun i => { val := BitVec.ofNat 32 (e.val.toNat / 2 ^ (32 * i)), pois := e.poison }
def Elem.ofToks (ts : List CTok) (size : Nat) : Elem :=
  { val := BitVec.ofNat 128 ((ts.zipIdx).foldl (fun n (t, i) => n + t.val.toNat * 2 ^ (32 * i)) 0 % 2 ^ (8 * size))
    poison := ts.any (·.pois) }
/-- A stream at a port of a configuration: its direction, its side, its claim. -/
def State.portStream (s : State) (g : CollarCfg) (h n : Nat) (write : Bool) : Except (BitVec 12) Ctx :=
  let t := s.ctx.streams.getD n {}
  if streamWrite t != write then .error PORTDIR
  else if t.port / 4 ≠ g.side.toNat then .error PORTSIDE
  else match s.ctx.claim n (.collar (BitVec.ofNat 5 h)) with
    | none => .error cCLAIMED
    | some c => .ok c

/-- A stream that runs has a direction its port cannot serve (14 R300). -/
def State.wrongWay (s : State) (n : Nat) (write : Bool) : Bool :=
  let t := s.ctx.streams.getD n {}
  t.st.live && streamWrite t != write
/-- A SPAD port that reads. -/
def State.spadRead (s : State) (g : CollarCfg) (h i n : Nat) (p : PortSt) : PortStep :=
  let es := g.img.outs (portEp i 0)
  let t := s.ctx.streams.getD n {}
  if !es.all g.room then .still
  else match p.part with
    | x :: l => .moved ((s.onCfg h fun g => g.onPort i fun p => { p with part := l }).putEdges h es x)
    | [] =>
      if !t.st.live then .still
      else match s.portStream g h n false with
        | .error c => .fault c
        | .ok c =>
          match t.buf with
          | [] => if t.more && t.st != .held then .waits else .still
          | e :: _ =>
            let ts := e.toToks t.toks
            let s := { s with ctx := c.takeElems n 1 }
            .moved ((s.onCfg h fun g => g.onPort i fun p => { p with part := ts.drop 1 }).putEdges h es (ts.headD { val := 0 }))
/-- A SPAD port that writes. -/
def State.spadWrite (s : State) (g : CollarCfg) (h i n : Nat) (p : PortSt) : PortStep :=
  let t := s.ctx.streams.getD n {}
  match g.img.ins (portEp i 0) with
  | [] => .still
  | e :: _ =>
    if !g.has e || !t.st.live then .still
    else match s.portStream g h n true with
      | .error c => .fault c
      | .ok c =>
        if streamCount t ≤ t.used then .still
        else if readAhead ≤ t.buf.length then (if t.st == .held then .still else .waits)
        else
          let ts := p.part ++ [g.first1 e]
          let whole := decide (t.toks ≤ ts.length)
          let s := { s with ctx := if whole then c.giveElem n (Elem.ofToks ts t.size) else c }
          .moved (s.onCfg h fun g => (g.pop e).onPort i fun p => { p with part := if whole then [] else ts })
/-- An ENGINE port: it moves what the M commands that read its stream need next. -/
def State.enginePort (s : State) (g : CollarCfg) (h i n : Nat) (p : PortSt) : PortStep :=
  let t := s.ctx.streams.getD n {}
  match g.img.ins (portEp i 0) with
  | [] => .still
  | e :: _ =>
    if !g.has e || !t.st.live || !t.engOn || s.engineNeed n = 0 then .still
    else match s.portStream g h n false with
      | .error c => .fault c
      | .ok c =>
        if streamCount t ≤ t.engN || s.engineNeed n ≤ t.eng.length then .still
        else
          let ts := p.part ++ [g.first1 e]
          let whole := decide (t.toks ≤ ts.length)
          let give (t : Stream) : Stream := { t with eng := t.eng ++ [Elem.ofToks ts t.size], engN := t.engN + 1 }
          let s := { s with ctx := if whole then c.onStream n give else c }
          .moved (s.onCfg h fun g => (g.pop e).onPort i fun p => { p with part := if whole then [] else ts })

/-- The edge into SUB of a port. -/
def CollarCfg.portIn (g : CollarCfg) (i sub : Nat) : Option Nat := (g.img.ins (portEp i sub)).head?
def notAbove (last : Option Half) (v : Half) : Bool := match last with | some l => v.toNat ≤ l.toNat | none => false
/-- What a NONMONO fault of port `i` reports (01 R19). -/
def CollarCfg.report (g : CollarCfg) (i : Nat) (p : PortSt) : Option (Bool × Half × Half) :=
  let y := p.x.isSome
  (g.portIn i (if y then 1 else 0)).bind fun e => (if y then p.lastY else p.lastX).map fun l => (y, l, (g.first1 e).val)
/-- An intersection port: it takes coordinates, drops unmatched values, and sends matched pairs. A FENCE takes what it sends on
as consumed (04 R100). A poisoned coordinate compares by its value and poisons both tokens of its pair: the spec is silent, the
model's choice (log 53). -/
def State.isectPort (s : State) (g : CollarCfg) (h i : Nat) (p : PortSt) : PortStep :=
  let get (sub : Nat) : Option (Nat × CTok) := (g.portIn i sub).bind fun e => if g.has e then some (e, g.first1 e) else none
  match p.x, p.y with
  | none, _ =>
    match get 0 with
    | none => .still
    | some (e, t) => if notAbove p.lastX t.val then .fault NONMONO
        else .moved (s.onCfg h fun g => (g.pop e).onPort i fun p => { p with x := some t, lastX := some t.val })
  | some _, none =>
    match get 1 with
    | none => .still
    | some (e, t) => if notAbove p.lastY t.val then .fault NONMONO
        else .moved (s.onCfg h fun g => (g.pop e).onPort i fun p => { p with y := some t, lastY := some t.val })
  | some x, some y =>
    if x.val.toNat < y.val.toNat then
      match get 0 with
      | none => .still
      | some (e, _) => .moved (s.onCfg h fun g => (g.pop e).onPort i fun p => { p with x := none })
    else if y.val.toNat < x.val.toNat then
      match get 1 with
      | none => .still
      | some (e, _) => .moved (s.onCfg h fun g => (g.pop e).onPort i fun p => { p with y := none })
    else
      let as_ := g.img.outs (portEp i 0)
      let bs := g.img.outs (portEp i 1)
      match get 0, get 1 with
      | some (e, a), some (f, b) =>
        if as_.all g.room && bs.all g.room then
          let bad := x.pois || y.pois
          let s := s.onCfg h fun g => ((g.pop e).pop f).onPort i fun p => { p with x := none, y := none }
          .moved ((s.putEdges h as_ { a with pois := a.pois || bad, ser := 0 }).putEdges h bs { b with pois := b.pois || bad, ser := 0 })
        else .still
      | _, _ => .still

/-- What port `i` of a configuration can do now. Accumulator, channel and copy ports move with rows of their own. -/
def State.portStep (s : State) (h i : Nat) : PortStep :=
  match s.ctx.cfg h with
  | none => .still
  | some g =>
    match g.img.ports[i]?, g.ports[i]? with
    | some q, some p =>
      if !g.runs || p.faulted then .still
      else match q.kind.toNat with
        | 0 =>
          if s.wrongWay q.stream.toNat q.out then .fault PORTDIR
          else if q.out then s.spadWrite g h i q.stream.toNat p else s.spadRead g h i q.stream.toNat p
        | 1 => if s.wrongWay q.stream.toNat false then .fault PORTDIR else s.enginePort g h i q.stream.toNat p
        | 4 => if (g.portIn i 0).any g.has || 4 ≤ p.part.length then .waits else .still
        | 5 => s.isectPort g h i p
        | _ => .still
    | _, _ => .still

/-! ### Accumulator releases (10 R219) -/

/-- The accumulator port of a fired configuration that takes the values of a node: handle and edges. -/
def Ctx.accPort (c : Ctx) (node : Nat) : Option (Nat × Nat) :=
  (List.range 32).findSome? fun h => (c.cfg h).bind fun g =>
    if g.runs then
      (firstIdx (fun (p : PortEnt) => p.kind == 2 && 8 * (g.first - 24) + p.lane == node) g.img.ports 0).map fun i => (h, i)
    else none
/-- Release `n` of the context can be handed over, none going before it to the same place. -/
def State.releaseStep (s : State) (n : Nat) : Option State :=
  match s.ctx.releases[n]? with
  | none => none
  | some r =>
    if (s.ctx.releases.take n).any fun x => x.stream == r.stream && (r.stream.isSome || x.node == r.node) then none
    else
      let drop (c : Ctx) : Ctx := { c with releases := c.releases.eraseIdx n }
      match r.stream with
      | some o =>
        let t := s.ctx.streams.getD o.toNat {}
        if !t.st.live || !streamWrite t || streamCount t ≤ t.used then none
        else (s.ctx.claim o.toNat .matrix).map fun c =>
          { s with ctx := drop (c.giveElem o.toNat { val := r.tok.val.setWidth 128, poison := r.tok.pois, ser := r.ser }) }
      | none =>
        (s.ctx.accPort r.node).bind fun (h, i) => (s.ctx.cfg h).bind fun g =>
          let es := g.img.outs (portEp i 0)
          if es.all g.room then some (((s.onCtx drop).onCfg h id).putEdges h es r.tok) else none
/-- A configuration moves, but for a hang monitor that has reached its threshold: that goes first (14 R311). -/
def State.hangOr (s : State) (h : Nat) (f : State → State) : State := (s.hangFirst (BitVec.ofNat 5 h)).getD (f s)
/-- ACCUMULATOR_RELEASE. -/
def execAccumulatorRelease (n : Nat) (s : State) : Out :=
  let go (s : State) : State := (s.releaseStep n).getD s
  .next (match s.ctx.releases[n]? with
    | some r => (match if r.stream.isSome then none else s.ctx.accPort r.node with
      | some p => s.hangOr p.1 go
      | none => go s)
    | none => go s)

/-! ### Firing (14 R303) -/

def physUnit (g : CollarCfg) (n : NodeEnt) : BitVec 9 := n.node + BitVec.ofNat 9 (8 * g.first)
/-- An operator on a unit. -/
structure OnUnit where
  ctx : Nat
  h : Nat
  i : Nat
  ent : NodeEnt
  st : NodeSt
  g : CollarCfg
/-- The operators on a unit of the tile in focus. -/
def State.onUnit (s : State) (u : BitVec 9) : List OnUnit :=
  (s.allCtxs.filter (·.id.tile == s.tile.num)).flatMap fun c => (List.range 32).flatMap fun h =>
    match c.cfg h with
    | none => []
    | some g => ((g.img.nodes.zip g.nodes).zipIdx).filterMap fun ((n, x), i) =>
        if physUnit g n = u then some { ctx := c.id.uid, h := h, i := i, ent := n, st := x, g := g } else none
/-- The operator that the arbiter grants among those ready: the greatest credit, then the lowest slot. -/
def grant : List OnUnit → Option OnUnit
  | [] => none
  | x :: l => match grant l with
    | none => some x
    | some y =>
      let cx := x.st.credit + (x.st.level.toNat + 1 : Nat)
      let cy := y.st.credit + (y.st.level.toNat + 1 : Nat)
      some (if cy < cx || (cx = cy && x.st.slot.toNat ≤ y.st.slot.toNat) then x else y)
def Tile.unit (t : Tile) (u : BitVec 9) : Option (BitVec 2) × Nat := ((t.units.find? (·.1 == u)).map (·.2)).getD (none, 0)
def Tile.putUnit (t : Tile) (u : BitVec 9) (x : Option (BitVec 2) × Nat) : Tile :=
  { t with units := t.units.filter (·.1 != u) ++ [(u, x)] }
def heldBy (g : CollarCfg) (n : NodeEnt) : List Nat := g.img.ins (nodeEp n)
/-- Changes the state of an operator wherever its context is. -/
def State.onOp (s : State) (x : OnUnit) (f : NodeSt → NodeSt) : State :=
  let upd (c : Ctx) : Ctx := if c.id.uid = x.ctx then c.onHandle x.h fun g => g.onNode x.i f else c
  { s with ctx := upd s.ctx, ctxs := s.ctxs.map upd }
/-- Credits and held tokens of a firing, and the unit's count. -/
def State.charge (s : State) (u : BitVec 9) (ready all : List OnUnit) (win : OnUnit) : State :=
  let sum := ready.foldl (fun n x => n + (x.st.level.toNat + 1)) 0
  let s := ready.foldl (fun s x => s.onOp x fun n => { n with credit := n.credit + (n.level.toNat + 1 : Nat) }) s
  let s := s.onOp win fun n => { n with credit := n.credit - (sum : Nat) }
  let s := all.foldl (fun s x => s.onOp x fun n =>
    { n with held := n.held + (heldBy x.g x.ent).foldl (fun k e => k + (x.g.chans.getD e []).length) 0 }) s
  s.onTile fun t => t.putUnit u (some win.st.slot, (t.unit u).2 + 1)

/-- The context of an operator is not being saved (22 R393). -/
def State.goes (s : State) (uid : Nat) : Bool := match s.ctxOf uid with | some c => !c.csr.saving | none => true
/-- The result of a firing goes out. -/
def State.fireNow (s : State) (h i : Nat) : State :=
  match s.ctx.cfg h with
  | none => s
  | some g =>
    let (g', t, w) := (g.accrue s.ctx.now).fire i
    let s := s.onCtx fun c => c.onHandle h fun _ => { g' with idle := 0 }
    let s := s.onCsr fun c => { c with fpmode := c.fpmode ||| w }
    match t with
    | some t => s.putEdges h (g.outs i) t
    | none => s

/-- Nothing of a configuration can move any more (14 R310). -/
def State.atRest (s : State) (h : Nat) : Bool :=
  match s.ctx.cfg h with
  | none => true
  | some g =>
    (List.range g.nodes.length).all (fun i => !g.ready i && !g.drains i)
      && (List.range g.ports.length).all (fun i => match s.portStep h i with | .still => true | _ => false)
      && (List.range s.ctx.releases.length).all fun n => match s.ctx.releases[n]? with
          | some r => !(r.stream.isNone && (s.ctx.accPort r.node).any (fun p => p.1 == h) && (s.releaseStep n).isSome)
          | none => true
/-- A faulted configuration that has come to rest is frozen; one that is not fired is at rest. -/
def State.settleFault (s : State) (h : Nat) : State :=
  match s.ctx.cfg h with
  | some g =>
    match g.fault with
    | some (ep, code) => if !g.frozen && s.atRest h then s.freezeCfg h 1 (status sFAULT code.toNat ep.toNat) else s
    | none => s
  | none => s
/-- A fault that comes from outside the configuration's own moves: one that is frozen already has its record at once (27 R436). -/
def State.faultFrom (s : State) (h : Nat) (f : State → State) : State :=
  let new := (s.ctx.cfg h).any fun g => g.frozen && g.fault.isNone
  if new then (f s).reportFault h else (f s).settleFault h

/-- The operator fires, when its unit grants it. -/
def State.opStep (s : State) (h i : Nat) : State :=
  match s.ctx.cfg h with
  | none => s
  | some g =>
    if g.drains i then
      match g.nodes[i]? with
      | some x => (s.onCfg h fun g => g.onNode i fun x => { x with out := x.out.drop 1 }).putEdges h (g.outs i) (x.out.headD { val := 0 })
      | none => s
    else
      match g.img.nodes[i]? with
      | none => s
      | some n =>
        let u := physUnit g n
        let all := s.onUnit u
        let ready := all.filter fun x => x.g.ready x.i && s.goes x.ctx
        match grant ready with
        | some w =>
          if w.ctx = s.ctx.id.uid && w.h = h && w.i = i && (s.tile.unit u).2 < 256 then
            (s.charge u ready all w).fireNow h i
          else s
        | none => s

/-- OPERATOR_FIRING: operator or port `n` of handle `h` moves; its hang monitor goes first (14 R311). -/
def execOperatorFiring (h : BitVec 5) (port : Bool) (n : Nat) (s : State) : Out :=
  let move (s : State) : State :=
    if port then
      match s.portStep h.toNat n with
      | .moved s => s
      | .fault c =>
        let s := if c = NONMONO then s.onCfg h.toNat fun g => g.onPort n fun p => { p with report := g.report n p } else s
        s.collarFault h.toNat true n c
      | _ => s
    else s.opStep h.toNat n
  .next ((s.hangOr h.toNat move).settleFault h.toNat)

/-! ### Reweighting (14 R303) -/

def levelOf (x : OnUnit) : BitVec 4 :=
  let es := heldBy x.g x.ent
  let d := es.foldl (fun n e => n + ((x.g.img.edges[e]?).map (·.depth)).getD 0) 0
  if x.st.pin || es.isEmpty || d = 0 then x.st.level else BitVec.ofNat 4 (Nat.min 15 (16 * x.st.held / (256 * d)))
/-- The levels of the operators of one handle on a unit, in image CSLOT order. -/
def levelWord (l : List (OnUnit × BitVec 4)) : Nat := l.foldl (fun n (x, v) => n + v.toNat * 2 ^ (4 * x.ent.cslot.toNat)) 0
def reweightRec (c : Ctx) (x : OnUnit) (w : Nat) : LogRec :=
  { type := 4, srcn := c.srcn, w1 := BitVec.ofNat 64 (x.h * 2 + x.ent.node.toNat * 2 ^ 6), w2 := BitVec.ofNat 64 w }
/-- The levels that are recorded for a handle on its unit: in a record already settled, or in one that a steered context expects. -/
def State.steerLevels (s : State) (x : OnUnit) : Option Nat :=
  (s.ctxOf x.ctx).bind fun c =>
    let w1 := (reweightRec c x 0).w1
    match c.log.done.find? (fun r => r.type == 4 && r.w1 == w1) with
    | some r => some (bitsN r.w2 15 0)
    | none =>
      if c.logOn && c.logSteer then
        (((s.focusCtx x.ctx).expected 0 0).find? fun y => bitsN (y.2.getD 0 0) 7 0 = 4 && y.2.getD 1 0 == w1).map fun y =>
          bitsN (y.2.getD 2 0) 15 0
      else none
/-- ARBITER_REWEIGHT: after 256 firings of the unit, its operators take new levels. -/
def execArbiterReweight (u : BitVec 9) (s : State) : Out :=
  if (s.tile.unit u).2 < 256 then .next s else
  let all := s.onUnit u
  let heads := all.foldl (fun (l : List OnUnit) x => if l.any (fun y => y.ctx == x.ctx && y.h == x.h) then l else l ++ [x]) []
  let group (x : OnUnit) : List OnUnit := all.filter fun y => y.ctx == x.ctx && y.h == x.h
  let word (x : OnUnit) : Nat := (s.steerLevels x).getD (levelWord ((group x).map fun y => (y, levelOf y)))
  let recs := heads.filterMap fun x => (s.ctxOf x.ctx).map fun c => (x.ctx, reweightRec c x (word x))
  let go (s : State) : State :=
    let s := heads.foldl (fun s x => let w := word x
      (group x).foldl (fun s y => s.onOp y fun n =>
        { n with level := BitVec.ofNat 4 (w / 2 ^ (4 * y.ent.cslot.toNat)), held := 0 }) s) s
    s.onTile fun t => t.putUnit u ((t.unit u).1, 0)
  .next (s.loggedAll recs go)

/-- HANG_MONITOR_EXPIRY (14 R311; 27 R437). -/
def execHangMonitorExpiry (h : BitVec 5) (s : State) : Out := .next ((s.hangFirst h).getD s)

/-! ### SETT (09 R203, 14 R305) -/

/-- The results of the operators of a sett for one lane, by rounds; none until an operator's inputs are known. -/
def settRounds (im : Image) (fl : Bool) (port : Nat → Option CTok) : Nat → List (Option (CTok × Word)) → List (Option (CTok × Word))
  | 0, r => r
  | k + 1, r =>
    let src (e : BitVec 13) : Option CTok :=
      if epPort e then port (epIdx e) else ((im.nodeAt (epNode e) (epSlot e)).bind fun i => r.getD i none).map (·.1)
    settRounds im fl port k (im.nodes.map fun n =>
      let fs := (List.range 3).filterMap fun p => (im.feed (nodeEp n) (BitVec.ofNat 2 p)).bind fun e => (im.edges[e]?).map fun d => (p, src d.src)
      if fs.any (·.2.isNone) then none
      else
        let v (p : Nat) (d : Half) : Half := (((fs.find? (·.1 == p)).bind (·.2)).map (·.val)).getD d
        let (y, w) := collarOp fl n (v 0 0) (v 1 n.k) (v 2 n.k2)
        some (joinMarks y (fs.filterMap (·.2)), w))
/-- One lane of a sett: sources and parameter as tokens; value, poison and flags. -/
def settLane (im : Image) (fl : Bool) (srcs : List CTok) (par : CTok) : LaneRes :=
  let port (i : Nat) : Option CTok := (im.ports[i]?).bind fun p =>
    if p.kind = 6 then srcs[p.lane]? else if p.kind = 7 then some par else none
  let r := settRounds im fl port im.nodes.length (im.nodes.map fun _ => none)
  let w := r.foldl (fun w x => match x with | some (_, f) => w ||| f | none => w) 0
  let out := (im.edges.find? fun e => epPort e.dst && ((im.ports[epIdx e.dst]?).map (·.kind)) == some 8).bind fun e =>
    if epPort e.src then port (epIdx e.src) else ((im.nodeAt (epNode e.src) (epSlot e.src)).bind fun i => r.getD i none).map (·.1)
  ⟨(out.map (·.val)).getD 0, srcs.any (·.pois) || (im.param && par.pois), w⟩

/-- SETT: the binding is read at issue; sett-miss, sett-operand, or the graph on all 32 lanes, whose units set flags whatever
LEN holds. Those firings enter neither the arbitration of a node's contexts nor its count of 256 (01 R18, log 103). -/
def execSett (n : BitVec 4) (vd va vb : BitVec 5) (q : BitVec 2) (s : State) : Out :=
  let b := s.ctx.setts.getD (settIdx q.toNat n.toNat) {}
  let who := BitVec.ofNat 64 (q.toNat * 16 + n.toNat)
  if !b.bound || !b.resident then
    let s := s.onCsr fun c => { c with perf := modV c.perf 6 (· + 1) }
    .next (s.slotFault 10 0 who (if b.bound then b.addr else 0))
  else if b.img.param != s.cur.expA then .next (s.slotFault 9 0 who 0)
  else
    let src (l : Nat) : List CTok :=
      (([va, vb, vd].take b.img.nsrc).map fun v => { val := s.lane q v l, pois := s.lpois q v l })
    let par : CTok := { val := s.opA.val.setWidth 32, pois := s.opA.poison }
    let y := (List.range 32).map fun l => settLane b.img s.flush (src l) par
    let s' := s.vput q vd (s.active q) fun l => y.getD l ⟨0, false, 0⟩
    .next ((s'.flagFp (y.foldl (fun w r => w ||| r.fl) 0)).quiet)

end Sys2Proof.Machine
end

