-- ==== Sys2Proof/Machine/Network.lean ====
section
/-! DEFINITION. Messages and receive rings, and the packets that carry them (12 R263 to R265; 05 R128 to R131; 17 R322,
R323; 21 R376 to R379; 23 R400 to R402; 24 R409, R414; 26 R428, R433; 27 R440). -/

namespace Sys2Proof.Machine

/-! ### KSEND (12 R263) -/

def hdrLen (h : Word) : Nat := bitsN h 44 36
def hdrRing (h : Word) : BitVec 4 := BitVec.ofNat 4 (bitsN h 35 32)
def hdrInst (h : Word) : BitVec 32 := BitVec.ofNat 32 h.toNat
/-- The send header against its layout, at window offset `a`. -/
def hdrOk (win : Nat) (a : Nat) (h : Word) : Bool :=
  bitsN h 63 45 = 0 && 1 ≤ hdrLen h && hdrLen h ≤ 256 && a + 8 + hdrLen h ≤ win

/-- Instances of the launch of the context in focus. -/
def State.instances (s : State) : Nat := ((s.dev.launches.find? (·.num == s.ctx.id.launch)).map (·.instances)).getD 1
/-- The next number of a message to a pair, and the counts after it. -/
def Ctx.nextSseq (c : Ctx) (d : BitVec 32) (r : BitVec 4) : BitVec 16 × Ctx :=
  let n := ((c.sseq.find? fun x => x.1 == d && x.2.1 == r).map (·.2.2)).getD 0
  (n, { c with sseq := c.sseq.filter (fun x => !(x.1 == d && x.2.1 == r)) ++ [(d, r, n + 1)] })
def Ctx.onSend (c : Ctx) (id : Nat) (f : Send → Send) : Ctx :=
  { c with sends := c.sends.map fun x => if x.id = id then f x else x }
def Send.expired (x : Send) (c : Ctx) : Bool :=
  (x.poll && !x.ext) || match x.expiry with | some e => e ≤ c.csr.budget.toNat | none => false

/-- A send was NACKed: FULL at or after its expiry, else a retry after the next interval, a fresh injection (05 R130). One whose
record shows another result goes on for DCEIL.CEIL more, and then diverges (24 R414).
`own`: by its own interface, which counts the NACK as the consume. -/
def State.nacked (s : State) (uid id : Nat) (own : Bool := false) : State :=
  s.within uid fun s =>
    match s.ctx.sends.find? (·.id == id) with
    | none => s
    | some x =>
      let eat (s : State) : State := if own then s.onNet s.ctx.id.tile s.ctx.id.job Counters.consume else s
      let later := x.expired s.ctx && s.steeredCmd 5 37 x.tag.toNat x.wantRec x.blk = some false
      if later && x.ext then s.logHold 0x0D2 (expireRec s.ctx 5 37 sFULL x.blk)
      else if x.expired s.ctx && !later then s.sendDone uid id (status sFULL 0 0) eat
      else
        let now := s.ctx.csr.budget.toNat
        let s := if later then s.onCtx fun c => c.onSend id fun x => { x with
          ext := true, expiry := some (x.expiry.getD now + c.csr.dceil.toNat) } else s
        let s := eat s
        let iv := if x.interval = 0 then 32 else Nat.min (2 * x.interval) 1024
        (s.onNet s.ctx.id.tile s.ctx.id.job Counters.inject).onCtx fun c => c.onSend id fun x => { x with
          flying := false, interval := iv, retryAt := some (c.csr.budget.toNat + iv) }

/-- The key of the placement entry of an index in a job slot. -/
def Dev.placeKey (d : Dev) (j i : Nat) : Nat := d.plbase.toNat / 2 ^ 23 % 2 ^ 25 * 2 ^ 23 + j * 2 ^ 26 + 8 * i
/-- The placement entry of an index (21 R376). -/
def State.placementEntry (s : State) (job : BitVec 16) (i : Nat) : Word :=
  match s.dev.slotOf job with
  | none => 0
  | some j => s.mem.word (s.dev.placeKey j i)
/-- The errors that a read of that entry meets (04 R108). -/
def State.touchEntry (s : State) (job : BitVec 16) (i : Nat) : State :=
  match s.dev.slotOf job with
  | none => s
  | some j => s.touch 0 (s.dev.placeKey j i) 8

/-- A send of the context in focus goes out, or is turned back by its own interface (21 R376). The bits [62:32] of the placement
entry and its poison, for which the spec names no status, are not looked at: the model's choice (log 111). -/
def State.attempt (s : State) (id : Nat) : State :=
  match s.ctx.sends.find? (·.id == id) with
  | none => s
  | some x =>
    let i := s.ctx.id
    if s.instances ≤ x.dinst.toNat then (s.onNet i.tile i.job Counters.consume).sendDone i.uid id stNODEST
    else
      let s := s.touchEntry i.job x.dinst.toNat
      let w := s.placementEntry i.job x.dinst.toNat
      if !w.getLsbD 63 then s.nacked i.uid id true
      else
        let p : Packet := { kind := .msg, ctx := i.uid, src := i.tile, srcMod := s.tile.module, send := id, job := i.job
                            side := i.side, cnum := i.num, dst := BitVec.ofNat 32 (bitsN w 31 0), dinst := x.dinst
                            sinst := BitVec.ofNat 32 i.index, ring := x.ring, sseq := x.sseq, body := x.body, bpois := x.bpois
                            launch := i.launch, pos := i.tile, origin := s.tile.module ++ i.tile }
        (s.onDev fun d => { d with packets := d.packets ++ [p] }).onCtx fun c =>
          c.onSend id fun x => { x with flying := true, retryAt := none, away := bitsN w 31 8 ≠ s.tile.module.toNat }
/-- An earlier send of the context to the same pair has not completed. -/
def Ctx.sendBehind (c : Ctx) (x : Send) : Bool :=
  (c.sends.takeWhile (·.id != x.id)).any fun y => y.dinst == x.dinst && y.ring == x.ring

/-- The expiry point of a KSEND is fixed at commit, behind its header word: 0 none, 1 and the point, 2 POLL (12 R263). -/
def State.fixExpiry (s : State) (e : Eff) : Eff :=
  { e with ws := e.ws.headD 0 :: match s.deadline e.b.val with
      | .at t => [1, BitVec.ofNat 64 t] | .poll => [2, 0] | .illegal => [0, 0] }
/-- The keys of the words of a KSEND's body. -/
def Ctx.bodyKeys (c : Ctx) (e : Eff) : List Nat :=
  (List.range ((hdrLen (e.ws.headD 0) + 7) / 8)).map fun i => c.winKey (e.a.val.toNat + 8 + 8 * i)
/-- A KSEND takes its body with it, as the stores before it leave the window (12 R263). -/
def State.readBody (s : State) (e : Eff) : Eff :=
  let m := s.windowAt e
  let o := e.a.val.toNat + 8
  { e with
    ws := e.ws.take 3 ++ (List.range (hdrLen (e.ws.headD 0))).map fun i => (m.byte (s.ctx.winKey (o + i))).setWidth 64
    wp := (s.ctx.bodyKeys e).map m.poisoned }
/-- A KSEND whose body is read becomes a send; it goes out at once unless one to the same pair is before it. -/
def State.createSend (s : State) (e : Eff) : State :=
  let h := e.ws.getD 0 0
  let len := hdrLen h
  let body : List Byte := (e.ws.drop 3).map (·.setWidth 8)
  let bp := e.wp
  let (q, c) := s.ctx.nextSseq (hdrInst h) (hdrRing h)
  let (rec, tag) : Bool × Nat := match e.ins with | .ksend r t .. => (r, t.toNat) | _ => (false, 0)
  let x : Send := { id := e.ser, tag := BitVec.ofNat 7 tag, wantRec := rec, dinst := hdrInst h, ring := hdrRing h, sseq := q
                    len := len, body := body, bpois := bp, blk := e.blk
                    expiry := if e.ws.getD 1 0 = 1 then some (e.ws.getD 2 0).toNat else none
                    poll := e.ws.getD 1 0 = 2 }
  let s := { s with ctx := { c with sends := c.sends ++ [x] } }
  if s.ctx.sendBehind x then s else s.attempt x.id

def execKsend (rec : Bool) (tag : BitVec 4) (t0 t1 : Cons) (s : State) : Out :=
  match s.who with
  | .cmd e =>
    let u := s.onCtx fun c => { c with kq := c.kq.erase e }
    if !e.wp.isEmpty then .next (u.createSend e)
    else if s.readWaits e (s.ctx.bodyKeys e) then .next s
    else
      let v := (s.ctx.bodyKeys e).foldl (fun s k => s.touch 0 k 8) u
      .next (v.createSend (v.readBody e))
  | .core =>
  let a := s.opA
  if a.poison then .next (s.poisonFault useOther)
  else .next (s.withDeadline s.opB fun _ =>
    let o := a.val.toNat
    if o % 8 ≠ 0 ∨ s.ctx.winSize < o + 8 then s.rangeFault a.val
    else
      let k := s.ctx.winKey o
      let s := s.touch 0 k 8
      let m := s.seen
      let h := m.word k
      if m.poisoned k then s.poisonFault useOther
      else if !hdrOk s.ctx.winSize o h then s.rangeFault h
      else (s.hold { slot := 0, ins := .ksend rec tag none none, a := a, b := s.opB, ws := [h] }).emit
        [(t0, tok stOK), (t1, tok stOK)])

/-- KSEND_RETRY: send `n` of the context in focus is sent, or sent again. -/
def execKsendRetry (n : Nat) (s : State) : Out :=
  match s.ctx.sends[n]? with
  | none => .next s
  | some x =>
    let ripe : Bool := match x.retryAt with | some t => t ≤ s.ctx.csr.budget.toNat || s.ctx.frozen | none => true
    if x.flying || x.lost.isSome || !ripe || s.ctx.sendBehind x then .next s else .next (s.attempt x.id)

/-! ### Rings (12 R264, R265) -/

def msgLines (len : Nat) : Nat := (8 + len + 63) / 64
/-- Where a message of `m` lines goes, and the ring with it; the pad line when there is one. -/
def Ring.accept (r : Ring) (m : Nat) (sinst : BitVec 32) (len : Nat) : Option (Nat × Option Nat × Ring) :=
  let t := r.size - r.tail
  let at_ (line : Nat) : RingMsg := { line := line, lines := m, sinst := sinst, len := len }
  if !r.defd then none
  else if !r.whole || m ≤ t then
    if m ≤ r.free && m ≤ r.size then
      some (r.tail, none, { r with tail := (r.tail + m) % r.size, free := r.free - m, msgs := r.msgs ++ [at_ r.tail] })
    else none
  else if t + m ≤ r.free then
    some (0, some r.tail, { r with tail := m % r.size, free := r.free - t - m
                                   msgs := r.msgs ++ [{ line := r.tail, lines := t, pad := true }, at_ 0] })
  else none

def recHeader (sinst : BitVec 32) (sseq : BitVec 16) (len : Nat) : Word :=
  BitVec.ofNat 64 (sinst.toNat * 2 ^ 32 + sseq.toNat * 2 ^ 16 + len)
def padHeader : Word := 0x200
/-- Writes a body word by word into the ring of the context in focus. -/
def State.putBody (s : State) (r : Ring) (line : Nat) : Nat → List Byte → List Bool → State
  | _, [], _ => s
  | o, b :: bs, ps =>
    let k := s.ctx.winKey (ringByte r line o)
    let v (i : Nat) : Nat := ((b :: bs).getD i 0).toNat * 2 ^ (8 * i)
    let n := Nat.min 8 (bs.length + 1)
    let w := (List.range n).foldl (fun a i => a + v i) 0
    let p := ps.headD false
    let s := if o % 8 = 0 then s.devStore k n w p else s
    s.putBody r line (o + 1) bs (if o % 8 = 7 then ps.drop 1 else ps)
/-- The record of a message is written into its ring. -/
def State.putRecord (s : State) (n line : Nat) (pad : Option Nat) (p : Packet) : State :=
  let r := s.ctx.rings.getD n {}
  let s := match pad with
    | some t => s.winPut (ringByte r t 0) padHeader
    | none => s
  (s.winPut (ringByte r line 0) (recHeader p.sinst p.sseq p.body.length)).putBody r line 8 p.body p.bpois

/-- A KRECV of a committed block takes the message at HEAD. -/
def Ring.take (r : Ring) : Ring :=
  let r := dropPads r.msgs.length r
  match r.msgs with
  | [] => r
  | m :: ms => dropPads ms.length { r with
      msgs := ms, head := (r.head + m.lines) % r.size, free := r.free + r.taken, taken := m.lines }
def State.commitRecv (s : State) (n : Nat) : State :=
  (s.onCtx fun c => { c with rings := modV c.rings n Ring.take }).onNet s.ctx.id.tile s.ctx.id.job Counters.consume

/-- What KRECV and KPOLL answer at once on a ring that they may not read. -/
def Ctx.ringRefusal (c : Ctx) (n : Nat) : Option Word :=
  if c.ringOfGraph n then some (fault 0x053 0)
  else if !(c.rings.getD n {}).defd then some (fault 0x052 0)
  else none
def execKrecv (n : BitVec 4) (t0 t1 : Cons) (s : State) : Out :=
  let _ := t0; let _ := t1
  .next (s.withDeadline s.opA fun d =>
    match s.ctx.ringRefusal n.toNat with
    | some st => s.finish s.fir.blk.cur st false false (mkWith {})
    | none => s.begin (.recv n) d)
def execKpoll (n : BitVec 4) (t0 t1 : Cons) (s : State) : Out :=
  match s.ctx.ringRefusal n.toNat with
  | some st => .next (s.emit [(t0, tok st), (t1, tok 0)])
  | none =>
    let s := s.touchRing n.toNat 0
    match s.ringAt n.toNat 0 with
    | some (st, h, p) => .next (s.emit [(t0, tok st), (t1, ⟨h, p⟩)])
    | none => .next (s.emit [(t0, tok (status sEMPTY 0 0)), (t1, tok 0)])

/-! ### Arrivals (12 R264, 05 R130, 21 R376) -/

def State.dropPacket (s : State) (n : Nat) : State := s.onDev fun d => { d with packets := d.packets.eraseIdx n }
/-- The packet stands at its destination. -/
def State.arrived (s : State) (p : Packet) : Bool :=
  p.dst == (s.tileOf p.pos).module ++ p.pos
def State.reply (s : State) (p : Packet) (k : PktKind) : State :=
  s.onDev fun d => { d with packets := d.packets ++ [p.answer k (s.tileOf p.pos).module] }
/-- A refused message: the destination counts the NACK as a consume. -/
def State.refuseMsg (s : State) (n : Nat) (p : Packet) : State :=
  ((s.dropPacket n).onNet p.pos p.job Counters.consume).reply p .nack
/-- The instance a message is for, at the tile it has reached. -/
def State.receiver (s : State) (p : Packet) : Option Ctx :=
  s.allCtxs.find? fun c => c.id.tile == p.pos && c.id.job == p.job && c.id.index == p.dinst.toNat
    && (p.srcMod != (s.tileOf p.pos).module || c.id.launch == p.launch) && !c.csr.saving

/-- ARRIVE record (24 R409). -/
def arriveRec (c : Ctx) (p : Packet) (line : Nat) : LogRec :=
  { type := 7, srcn := c.srcn
    w1 := BitVec.ofNat 64 (p.ring.toNat + p.sseq.toNat * 2 ^ 16 + p.sinst.toNat * 2 ^ 32)
    w2 := BitVec.ofNat 64 (p.body.length + line * 2 ^ 9) }
/-- The record of an arrival in the context in focus, before it: whether it is settled. In STEER mode only the message that the next
expected record names is accepted; a message whose record finds no place is turned back, and so is one before a record that is not
there yet (24 R412, R414). -/
def State.settleArrive (s : State) (r : LogRec) : State × Bool :=
  if !s.ctx.logOn then (s, true)
  else if s.ctx.logSteer && !s.ctx.isSettled r then
    match s.expected 0 0 with
    | [] => (s.logHold 0x0D1 r, false)
    | (i, ws) :: _ =>
      if bitsN (ws.getD 0 0) 7 0 = 7 && ws.getD 1 0 == r.w1 then
        ((s.onCtx fun c => { c with log := { c.log with isHeld := false } }).consume i r, true)
      else (s, false)
  else
    let t := s.settle r true allBits
    if t.ctx.isSettled r then (t.onCtx (·.unsettle r), true) else (t, false)
/-- The sender of a message, a context of this module, is recorded with FULL (24 R414). -/
def State.steersFull (s : State) (p : Packet) : Bool :=
  p.srcMod == (s.tileOf p.pos).module && ((s.ctxOf p.ctx).bind fun c => c.sends.find? (·.id == p.send)).any fun x =>
    (s.focusCtx p.ctx).steeredCmd 5 37 x.tag.toNat x.wantRec x.blk == some true

/-- A message at the tile its entry named. -/
def State.messageAt (s : State) (n : Nat) (p : Packet) : State :=
  if (s.dev.slotOf p.job).isNone then ((s.dropPacket n).fabric 0 s.freeVal).drawn
  else match s.receiver p with
    | none => s.refuseMsg n p
    | some c =>
      match (c.rings.getD p.ring.toNat {}).accept (msgLines p.body.length) p.sinst p.body.length with
      | none => s.refuseMsg n p
      | some (line, pad, r) =>
        let rec_ := arriveRec c p line
        let put (s : State) : State :=
          (s.onCtx fun c => { c with rings := setV c.rings p.ring.toNat r }).putRecord p.ring.toNat line pad p
        let done (s : State) : State :=
          let s := s.dropPacket n
          if p.srcMod = (s.tileOf p.pos).module then s.sendDone p.ctx p.send stOK else s.reply p .accept
        let back (t : State) : State := (t.focusCtx s.ctx.id.uid).focusFir s.fir.id
        if s.steersFull p then s.refuseMsg n p
        else match (s.focusCtx c.id.uid).settleArrive rec_ with
          | (t, true) => done (back (put t))
          | (t, false) => if t.ctx.log.held.any rec_.same then back t else (back t).refuseMsg n p

/-- An exchange of a collective reaches the copy engine of the next participant's tile, which counts it (05 R130, 12 R267). -/
def State.exchangeAt (s : State) (n : Nat) (p : Packet) : State :=
  let s := s.dropPacket n
  if (s.dev.slotOf p.job).isNone then (s.fabric 0 s.freeVal).drawn
  else (s.onCop p.pos p.job Counters.consume).onPart p.send fun x => { x with out := none }
/-! ### Ends of instances (02 R58, 20 R360) -/

/-- The KIND 3 slot of a launch. -/
def statusTok (val : Word) (job : BitVec 16) (deps : List Nat) : OutTok :=
  { val := val, ctrl := BitVec.ofNat 64 (job.toNat * 2 ^ 16 + 3), deps := deps }
def Launch.over (l : Launch) : Bool := l.instances ≤ l.completed + l.killed
/-- A handle still names the launch. -/
def State.handleLives (s : State) (p : Nat × Nat) (num : Nat) : Bool :=
  (s.allCtxs ++ s.dev.saved.map (·.ctx)).any fun c =>
    c.id.uid == p.1 && (c.sync.children.getD p.2 {}).isOpen && (c.sync.children.getD p.2 {}).launch == some num
/-- A launch that is over reports (20 R360) and is forgotten once no handle names it. -/
def State.reportLaunch (s : State) (num : Nat) : State :=
  match s.dev.launches.find? (·.num == num) with
  | none => s
  | some l =>
    if !l.over then s
    else
      let drop (s : State) : State := s.onDev fun d => { d with launches := d.launches.filter (·.num != num) }
      match l.parent with
      | some p => if s.handleLives p num then s else drop s
      | none =>
        let st := status (if l.killed ≠ 0 then sKILLED else 0) 0 l.instances
        drop (s.putOut l.egress (statusTok st l.job l.uids))
/-- An instance that the front-end of this module has placed in another one has ended there (log 77). -/
def State.farEnd (s : State) (p : Packet) : State :=
  (s.onDev fun d => { d with launches := d.launches.map fun l =>
    if l.num ≠ p.launch then l
    else if p.send = 1 then { l with killed := l.killed + 1, deadIdx := l.deadIdx ++ [p.dinst.toNat] }
    else { l with completed := l.completed + 1 } }).reportLaunch p.launch

/-- MESSAGE_ARRIVAL: a message, an acceptance, or an exchange has reached its destination. -/
def execMessageArrival (n : Nat) (s : State) : Out :=
  match s.dev.packets[n]? with
  | none => .next s
  | some p =>
    if !s.arrived p then .next s
    else match p.kind with
      | .msg => .next (s.messageAt n p)
      | .coll => .next (s.exchangeAt n p)
      | .ended => .next ((s.dropPacket n).farEnd p)
      | .accept => .next ((s.dropPacket n).sendDone p.ctx p.send stOK)
      | .kerf => .next (((s.dropPacket n).onNet p.pos p.job Counters.lose).sendDone p.ctx p.send stKERF)
      | _ => .next s

/-- A send of a context is in flight. -/
def State.inFlight (s : State) (uid id : Nat) : Bool :=
  ((s.ctxOf uid).bind fun c => c.sends.find? (·.id == id)).any (·.flying)
/-- NACK_ARRIVAL. It waits while the FULL that it would cause finds no room in the bore log. -/
def execNackArrival (n : Nat) (s : State) : Out :=
  match s.dev.packets[n]? with
  | none => .next s
  | some p =>
    if p.kind = .nack && s.arrived p then
      let t := s.nacked p.ctx p.send
      .next (if t.inFlight p.ctx p.send then t else t.dropPacket n)
    else .next s

/-- LOST_NOTICE (17 R323, 27 R440). -/
def execLostNotice (n : Nat) (s : State) : Out :=
  match s.dev.packets[n]? with
  | none => .next s
  | some p => if p.kind = .lost && s.arrived p then .next ((s.dropPacket n).sendDone p.ctx p.send stLOST) else .next s

/-! ### Hops (23 R400, 21 R377, R379, 26 R433, 27 R439) -/

def oppositePort (d : BitVec 2) : BitVec 2 := d + 2
def State.putPacket (s : State) (n : Nat) (p : Packet) : State := s.onDev fun d => { d with packets := setAt d.packets n p }
/-- One mesh hop toward a tile of the die. Messages are guarded; every packet obeys the slot table of the sending switch. -/
def State.meshHop (s : State) (n : Nat) (p : Packet) (goal : BitVec 8) : State :=
  match meshStep p.pos goal with
  | none => s
  | some (d, next) =>
    if !(s.tileOf p.pos).slotPass d p.side then s
    else if p.guarded && !(s.tileOf p.pos).kerfPass d p.side then (s.dropPacket n).kerfDrop p.pos d p
    else if p.guarded && !(s.tileOf next).kerfPass (oppositePort d) p.side then
      (s.dropPacket n).kerfDrop next (oppositePort d) p
    else s.putPacket n { p with pos := next }

/-- A message passes a torus port: consumed and injected there (05 R130). -/
def State.countPort (s : State) (port : Nat) (p : Packet) : State :=
  if p.guarded then (s.onPort port p.job Counters.consume).onPort port p.job Counters.inject else s
/-- Dimension of a port. -/
def portDim (port : Nat) : Nat := match port % 6 with | 0 | 2 => 0 | 1 | 3 => 1 | _ => 2
/-- The link of a port crosses the dateline of its dimension, between coordinates n - 1 and 0 (26 R433). -/
def Dev.dateline (d : Dev) (port : Nat) : Bool :=
  let (x, y, z) := d.here (port / 6)
  let edge (v n : Nat) : Bool := v = 0 || v + 1 = n
  match port % 6 with
  | 0 => bitsN d.ptsize 7 0 ≤ 2
  | 1 => bitsN d.ptsize 15 8 ≤ 2
  | 2 => edge x (bitsN d.ptsize 7 0)
  | 3 => edge y (bitsN d.ptsize 15 8)
  | 4 => z + 1 = bitsN d.ptsize 23 16 || bitsN d.ptsize 23 16 = 2
  | _ => z = 0
/-- The packet on the link of a port: it enters a dimension on class A and moves to class B at the dateline (26 R433). -/
def State.onWire (s : State) (port : Nat) (p : Packet) : Packet :=
  { p with dim := portDim port, classB := (p.classB && p.dim == portDim port) || s.dev.dateline port }
/-- A packet leaves the die by a port: it stays in the retry buffer until the far end has it (26 R431). A message without a job
slot is discarded and reported at the port (05 R128). -/
def State.leave (s : State) (n port : Nat) (p : Packet) : State :=
  let l := s.linkOf port
  if p.guarded && (s.dev.slotOf p.job).isNone then ((s.dropPacket n).fabric 0 s.freeVal).drawn
  else if isExternal port && (!s.dev.ptctl.getLsbD 0 || !s.dev.portOn port) then s.dropPacket n
  else if l.down then
    if p.kind = .lost then (s.dropPacket n).dropNotice port p else (s.dropPacket n).lossAtDown port p
  else if !l.up then s
  else if l.wait.isEmpty && l.room p.flits then
    ((s.countPort port p).dropPacket n).onLink port (Link.put (s.dev.ptctl.extractLsb' 16 16) (s.onWire port p))
  else s
/-- PACKET_FORWARD: packet `n` moves one hop along its route. -/
def execPacketForward (n : Nat) (s : State) : Out :=
  match s.dev.packets[n]? with
  | none => .next s
  | some p =>
    let own := (s.tileOf p.pos).module
    let die := tDie p.pos
    if bitsN p.dst 31 8 = own.toNat && bitsN p.dst 7 6 = die then .next (s.meshHop n p (BitVec.ofNat 8 p.dst.toNat))
    else match s.dev.portToward own die p.dst with
      | none => .next s
      | some (port, _) => if p.pos = portTile port then .next (s.leave n port p) else .next (s.meshHop n p (portTile port))

end Sys2Proof.Machine
end

