-- ==== Sys2Proof/Machine/Copy.lean ====
section
/-! DEFINITION. The copy engine: requests, channels, copy ports, collectives, cancellation, channel state, and the forms that
read the event queue (12 R257 to R262, R266 to R269; 01 R28, R29; 04 R109, R448; 10 R207, R209; 17 R321; 22 R389). -/

namespace Sys2Proof.Machine

/-! ### Issue (12 R257, R258) -/

/-- B of a copy request: the completion word, COUNT in range, CHAN. -/
def reqB (b : Word) (lo hi : Nat) : Bool :=
  bitsN b 47 32 = 0 && bitsN b 15 3 = 0 && lo ≤ bitsN b 31 16 && bitsN b 31 16 ≤ hi
/-- A is an aligned window offset of a structure of `n` bytes. -/
def offOk (win : Nat) (a : Word) (n : Nat) : Bool := a.toNat % n = 0 && a.toNat + n ≤ win
/-- Issue of a copy request or collective. -/
def issueCopy (i : Instr) (n lo hi : Nat) (t0 t1 : Cons) (s : State) : Out :=
  let a := s.opA
  let b := s.opB
  if a.poison || b.poison then .next (s.poisonFault useOther)
  else if !offOk s.ctx.winSize a.val n then .next (s.rangeFault a.val)
  else if !reqB b.val lo hi then .next (s.rangeFault b.val)
  else .next ((s.hold { slot := 0, ins := i, a := a, b := b }).emit [(t0, tok stOK), (t1, tok stOK)])

/-- Channels (12 R259). -/
def Ctx.chan (c : Ctx) (n : Nat) : Channel := c.chans.getD n {}
def Ctx.onChan (c : Ctx) (n : Nat) (f : Channel → Channel) : Ctx := { c with chans := modV c.chans n f }
def chanRoom : Nat := 16
/-- A request joins its channel when it has room; false while it waits at the head of the K queue. -/
def Ctx.enqueue (c : Ctx) (n : Nat) (r : CopyReq) : Option Ctx :=
  if (c.chan n).queue.length < chanRoom then some (c.onChan n fun ch => { ch with queue := ch.queue ++ [r] }) else none

/-- The request of a K command. -/
def Eff.request (e : Eff) (kind : BitVec 3) (op mod : Nat) (merge : Option MergeOp) (coll : Option CollKind) : CopyReq :=
  { cls := 5, op := BitVec.ofNat 6 op, mod := BitVec.ofNat 5 mod, off := some e.a.val.toNat
    count := bitsN e.b.val 31 16, cw := e.cw, merge := merge, space := e.space, kind := kind
    coll := coll, ser := e.ser }
/-- A K command at the head of its queue is handed to its channel. -/
def applyCopy (e : Eff) (r : CopyReq) (s : State) : Out :=
  match s.ctx.enqueue (bitsN e.b.val 2 0) r with
  | some c => .next { s with ctx := { c with kq := c.kq.erase e } }
  | none => .next s

def execKcopy (t0 t1 : Cons) (s : State) : Out :=
  match s.who with
  | .cmd e => applyCopy e (e.request 0 32 0 none none) s
  | .core => issueCopy (.kcopy none none) 16 0 0 t0 t1 s
def execKgath (t0 t1 : Cons) (s : State) : Out :=
  match s.who with
  | .cmd e => applyCopy e (e.request 1 33 0 none none) s
  | .core => issueCopy (.kgath none none) 16 1 65535 t0 t1 s
def execKscat (t0 t1 : Cons) (s : State) : Out :=
  match s.who with
  | .cmd e => applyCopy e (e.request 2 34 0 none none) s
  | .core => issueCopy (.kscat none none) 16 1 65535 t0 t1 s
def execKred (op : MergeOp) (t0 t1 : Cons) (s : State) : Out :=
  match s.who with
  | .cmd e => applyCopy e (e.request 3 35 op.enc (some op) none) s
  | .core => issueCopy (.kred op none none) 16 0 0 t0 t1 s
def execKcoll (k : CollKind) (t0 t1 : Cons) (s : State) : Out :=
  match s.who with
  | .cmd e => applyCopy e (e.request 4 40 (fMod (encode (.kcoll k none none))).toNat none (some k)) s
  | .core => issueCopy (.kcoll k none none) 32 0 0 t0 t1 s

/-- KPORT (12 R260). -/
def applyKport (p : Nat) (e : Eff) (s : State) : State :=
  let a := e.a.val
  s.onCtx fun c => { c with kq := c.kq.erase e, kports := modV c.kports p fun k => { k with
    chan := BitVec.ofNat 3 (bitsN a 2 0), en := a.getLsbD 3
    red := if a.getLsbD 4 then MergeOp.dec (bitsN a 7 5) else none, cw := e.cw } }
def execKport (p : BitVec 2) (s : State) : Out :=
  match s.who with
  | .cmd e => .next (applyKport p.toNat e s)
  | .core => issueCmd (.kport p) true (fun a =>
      bitsN a 63 8 ≠ 0 || (a.getLsbD 4 == (bitsN a 7 5 = 0))) noLow [] s

/-! ### Addresses of a request (12 R258) -/

def CopyReq.src (r : CopyReq) : Word := BitVec.ofNat 64 (bitsN r.w0 55 0)
def CopyReq.dst (r : CopyReq) : Word := BitVec.ofNat 64 (bitsN r.w1 55 0)
def CopyReq.ssp (r : CopyReq) : Bool := r.w1.getLsbD 60
def CopyReq.dsp (r : CopyReq) : Bool := r.w1.getLsbD 61
def CopyReq.blocks (r : CopyReq) : Nat := bitsN r.w1 59 56 * 256 + bitsN r.w0 63 56
/-- Blocks of the whole request. -/
def CopyReq.total (r : CopyReq) : Nat := if r.kind = 1 || r.kind = 2 then r.blocks * r.count else r.blocks
def CopyReq.wordsOk (r : CopyReq) : Bool :=
  bitsN r.w1 63 62 = 0 && r.blocks ≠ 0 && r.src.toNat % 8 = 0 && r.dst.toNat % 8 = 0
    && (r.kind ≠ 1 || r.ssp) && ((r.kind ≠ 2 && r.kind ≠ 3) || r.dsp)
/-- Whether the request has a list, and at which window offset. -/
def CopyReq.listAt (r : CopyReq) : Option Word := if r.kind = 1 then some r.src else if r.kind = 2 then some r.dst else none
/-- Address of the source and the destination of block `i`, and whether each is a window offset. -/
def CopyRun.srcOf (x : CopyRun) (i : Nat) : Word × Bool :=
  let r := x.req
  if r.kind = 1 then (x.list.getD (i / r.blocks) 0 + BitVec.ofNat 64 (64 * (i % r.blocks)), false)
  else (r.src + BitVec.ofNat 64 (64 * i), r.ssp)
def CopyRun.dstOf (x : CopyRun) (i : Nat) : Word × Bool :=
  let r := x.req
  if r.kind = 2 then (x.list.getD (i / r.blocks) 0 + BitVec.ofNat 64 (64 * (i % r.blocks)), false)
  else (r.dst + BitVec.ofNat 64 (64 * i), r.dsp)

/-! ### One access of a channel -/

def stBADREQ : Word := fault 0x081 0
def stCANCELLED (n : Nat) : Word := fault 0x080 n
def State.onRun (s : State) (ch : Nat) (f : CopyRun → CopyRun) : State :=
  s.onCtx fun c => c.onChan ch fun k => { k with run := k.run.map f }
/-- A failing access holds its channel; the event gives the blocks already written (22 R390). -/
def State.holdChan (s : State) (ch : Nat) (h : Hold) : State :=
  (s.onRun ch fun x => { x with hold := some h }).streamEvent 1 ch h (((s.ctx.chan ch).run.map (·.blk)).getD 0)
/-- The place of an access of a request, in the order of 11 R235. The key slot is the context's of that moment (13 R294). -/
def State.copyPlace (s : State) (r : CopyReq) (a : Word) (win : Bool) (acc : Access) (n : Nat) : Except (BitVec 12) Loc × State :=
  if win then (s.window a n, s) else s.globalMem (s.whoOf r.space s.keyNow) acc a n
/-- A word read at a place. -/
def State.copyRead (s : State) (a : Word) (l : Loc) : (Word × Bool) × State :=
  match l with
  | .mem k =>
    let s := s.touch a k 8
    ((BitVec.ofNat 64 (s.mem.read (s.dev.keyAt s.keyNow.toNat k) k 8), s.mem.poisoned k), s)
  | _ => ((0, false), s)

/-- Reads word `i` of the block in progress. -/
def copyReadOne (ch : Nat) (r : CopyReq) (a : Word) (win : Bool) (i : Nat) (s : State) : State × Bool :=
  let va := a + BitVec.ofNat 64 (8 * i)
  match s.copyPlace r va win .rd 8 with
  | (.error d, s) => (s.holdChan ch ⟨d, va, 0⟩, false)
  | (.ok l, s) =>
    let (w, s) := s.copyRead va l
    (s.onRun ch fun x => { x with rd := x.rd ++ [w], poisoned := x.poisoned + (if w.2 then 1 else 0) }, true)
/-- Bytes of an element that a channel writes at once. -/
def CopyReq.unit (r : CopyReq) : Nat :=
  match r.merge with | some .addD | none => 8 | some _ => 4
/-- Writes element `i` of the block: a word, or a merge into the resident value. -/
def State.copyWrite (s : State) (ch : Nat) (r : CopyReq) (blk i : Nat) (va : Word) (l : Loc) (w : Word × Bool) : Option State :=
  match r.merge with
  | none => some (s.applyStore s.keyNow va l 8 w.1.toNat w.2)
  | some op =>
    let v : Word := if r.unit = 8 then w.1 else BitVec.ofNat 64 (w.1.toNat / 2 ^ (32 * (i % 2)) % 2 ^ 32)
    if s.ctx.fixed then
      match l with
      | .mem k =>
        let (o, ty) := mergeOpAmo op
        let n := s.ctx.fixCopy.getD ch 0
        let x : Update := { id := s.dev.nextUpd, ctx := s.ctx.id.uid, key := k, wide := ty == .d, op := o, ty := ty, v := v
                            vpois := w.2, stream := 34 + ch, seq := n, fixed := true, job := s.ctx.id.job, n := s.roundCount s.ctx.id.job
                            source := s.ctx.id.index, va := va, ucount := n, keyslot := s.keyNow }
        (s.offer x).map fun s => (s.onDev fun d => { d with nextUpd := d.nextUpd + 1 }).onCtx fun c =>
          { c with fixCopy := modV c.fixCopy ch (· + 1) }
      | _ => some s
    else
      let _ := blk
      some (s.mergeAt op s.keyNow va l v w.2)
/-- Writes the elements of the block in progress that are still to be written, up to element `hi`. -/
def copyWriteGo (ch : Nat) (x : CopyRun) (a : Word) (win : Bool) (hi : Nat) : Nat → State → State × Bool
  | 0, s => (s, true)
  | n + 1, s =>
    let r := x.req
    let u := r.unit
    let i := hi - (n + 1)
    let va := a + BitVec.ofNat 64 (u * i)
    let atomic := r.merge.isSome && s.ctx.fixed
    let code : BitVec 2 := if atomic then 2 else 1
    match s.copyPlace r va win (if atomic then .atomic else .wr) u with
    | (.error d, s) => (s.holdChan ch ⟨d, va, code⟩, false)
    | (.ok l, s) =>
      match s.copyWrite ch r x.blk i va l (x.rd.getD (i * u / 8) (0, false)) with
      | none => (s.holdChan ch ⟨dORDFULL, va, 2⟩, false)
      | some s => copyWriteGo ch x a win hi n (s.onRun ch fun x => { x with wr := x.wr + 1 })
/-- Copies the words of the block in progress from word 8 − `n` on: each is read, then written (12 R259, log 99). -/
def copyWordGo (ch : Nat) : Nat → State → State × Bool
  | 0, s => (s, true)
  | n + 1, s =>
    let i := 8 - (n + 1)
    match (s.ctx.chan ch).run with
    | none => (s, false)
    | some x =>
      let (s, ok) := if x.rd.length ≤ i then copyReadOne ch x.req (x.srcOf x.blk).1 (x.srcOf x.blk).2 i s else (s, true)
      if !ok then (s, false) else
      match (s.ctx.chan ch).run with
      | none => (s, false)
      | some x =>
        let hi := (i + 1) * (8 / x.req.unit)
        let (s, ok) := copyWriteGo ch x (x.dstOf x.blk).1 (x.dstOf x.blk).2 hi (hi - x.wr) s
        if !ok then (s, false) else copyWordGo ch n s
/-- The block in progress is copied, as far as no access is held. -/
def State.copyBlock (s : State) (ch : Nat) : State :=
  let (s, ok) := copyWordGo ch 8 s
  if ok then s.onRun ch fun x => { x with blk := x.blk + 1, rd := [], wr := 0 } else s
/-- Reads the words of the list that are still to be read. -/
def copyListGo (ch : Nat) (o : Word) (count : Nat) : Nat → State → State
  | 0, s => s
  | n + 1, s =>
    let i := count - (n + 1)
    let va := o + BitVec.ofNat 64 (8 * i)
    match s.window va 8 with
    | .ok (.mem k) =>
      let s := s.touch 0 k 8
      let w := s.mem.word k
      if s.mem.poisoned k || w.toNat % 8 ≠ 0 then s.onRun ch fun x => { x with status := some stBADREQ }
      else copyListGo ch o count n (s.onRun ch fun x => { x with list := x.list ++ [w] })
    | .ok _ => s
    | .error d => s.holdChan ch ⟨d, va, 0⟩

/-! ### Start and completion (12 R258, R259) -/

/-- What a record or push of a channel comes from; a FENCE of the copies waits for it, but not for a collective's (04 R94). -/
def CopyReq.origin (r : CopyReq) (ch : Nat) : Origin := { unit := ch, ser := if r.kind = 4 then none else some r.ser }
/-- The running request ends: its record and push. The channel is free for the next once its push is made (01 R27). -/
def State.copyDone (s : State) (ch : Nat) (r : CopyReq) (st : Word) : State :=
  let always := codeOf st ≠ 0 && codeOf st ≠ sPOISON
  s.onCtx fun c => (c.onChan ch fun k => { k with run := none }).complete r.cw always st r.cls.toNat r.op.toNat r.mod.toNat ch
    (r.origin ch)

/-- Every write of the running request of a channel is performed: none of its reductions is still at a unit (12 R259). -/
def State.copyPerformed (s : State) (ch : Nat) (r : CopyReq) : Bool :=
  let mine (x : Update) : Bool := x.stream == 34 + ch && x.ctx == s.ctx.id.uid
  r.merge.isNone || !(s.dev.units.any fun u => (u.window ++ u.order).any fun x =>
    mine x || x.subs.any fun y => y.stream == 34 + ch && y.ctx == s.ctx.id.uid)
/-- A request starts: its words are read and checked. -/
def State.copyStart (s : State) (ch : Nat) (r : CopyReq) : State :=
  let run (x : CopyRun) (s : State) : State := s.onCtx fun c => c.onChan ch fun k => { k with run := some x }
  match r.off with
  | none => run { req := r, status := if r.wordsOk then none else some stBADREQ } s
  | some o =>
    let n := if r.kind = 4 then 4 else 2
    let s := s.touch 0 (s.ctx.winKey o) (8 * n)
    let ws := (List.range n).map fun i => s.winWord (o + 8 * i)
    let bad := (List.range n).any fun i => s.winPois (o + 8 * i)
    let r := { r with off := none, w0 := ws.getD 0 0, w1 := ws.getD 1 0 }
    if r.kind = 4 then run { req := r, desc := ws, status := if bad then some stBADREQ else none } s
    else run { req := r, status := if bad || !r.wordsOk then some stBADREQ else none } s

/-- COPY_REQUEST_START: the next request of a channel starts once its POP succeeds, or is refused with TIMEOUT. -/
def execCopyRequestStart (ch : BitVec 3) (s : State) : Out :=
  let i := ch.toNat
  let k := s.ctx.chan i
  if k.run.isSome || s.ctx.sync.pushes.any (·.origin.unit == i) then .next s else
  match k.queue with
  | [] => .next s
  | r :: rest =>
    let drop (s : State) : State := s.onCtx fun c => c.onChan i fun k => { k with queue := rest }
    let now := s.ctx.csr.budget.toNat
    if cwPop r.cw then
      match s.ctx.popQ (cwQpop r.cw) with
      | some c => .next ((drop { s with ctx := c }).copyStart i r)
      | none =>
        match r.since with
        | none => .next (s.onCtx fun c => c.onChan i fun k => { k with queue := { r with since := some now } :: rest })
        | some t =>
          if t + s.ctx.csr.dceil.toNat ≤ now then .next ((drop s).copyDone i r (status sTIMEOUT 0 0)) else .next s
    else .next ((drop s).copyStart i r)

/-! ### Collectives (12 R266, R267) -/

def CopyRun.d (x : CopyRun) (i : Nat) : Word := x.desc.getD i 0
def CopyRun.cNpart (x : CopyRun) : Nat := bitsN (x.d 1) 63 32
def CopyRun.cFirst (x : CopyRun) : Nat := bitsN (x.d 1) 31 0
def CopyRun.cCount (x : CopyRun) : Nat := bitsN (x.d 2) 31 0
def CopyRun.cType (x : CopyRun) : Nat := bitsN (x.d 2) 37 36
def CopyRun.cOp (x : CopyRun) : Nat := bitsN (x.d 2) 39 38
def CopyRun.cOrder (x : CopyRun) : Nat := bitsN (x.d 2) 41 40
def CopyRun.cCid (x : CopyRun) : BitVec 16 := BitVec.ofNat 16 (bitsN (x.d 2) 63 48)
/-- Bytes of an element. -/
def CopyRun.cSize (x : CopyRun) : Nat := if x.cType = 2 then 8 else 4
def CopyRun.cSrc (x : CopyRun) : Nat := bitsN (x.d 0) 23 0
def CopyRun.cDst (x : CopyRun) : Nat := bitsN (x.d 0) 47 24
/-- The descriptor against its layout. -/
def CopyRun.descOk (x : CopyRun) (k : CollKind) : Bool :=
  bitsN (x.d 0) 63 48 = 0 && x.cSrc % 8 = 0 && x.cDst % 8 = 0 && 2 ≤ x.cNpart && x.cNpart ≤ 65535 && bitsN (x.d 2) 47 42 = 0
    && bitsN (x.d 2) 35 32 = 0 && x.cCount ≠ 0 && x.d 3 = 0
    && ((k != .allgath && k != .alltoall) || x.cOp = 0 || x.cOp = 3)
/-- ORDER, OP and TYPE against their tables: a value outside is RANGE. -/
def CopyRun.descRange (x : CopyRun) : Bool := x.cOrder ≤ 1 && x.cOp ≤ 2 && x.cType ≤ 2

/-- Combination of two elements: value and poison. -/
def collCombine (ty op : Nat) (a b : Word × Bool) : Word × Bool :=
  let p := a.2 || b.2
  let o : AmoOp := if op = 0 then .add else if op = 1 then .max else .min
  (amoNew o (if ty = 0 then .f else if ty = 1 then .w else .d) a.1 b.1, p)
/-- Ring order: from rank (c + 1) mod P on, P elements. -/
def ringFold (f : Word × Bool → Word × Bool → Word × Bool) (x : Nat → Word × Bool) (p c : Nat) : Word × Bool :=
  (List.range (p - 1)).foldl (fun v j => f v (x ((c + j + 2) % p))) (x ((c + 1) % p))
/-- One level of the tree: neighbours at distance 1 of what is left combine. -/
def treePairs (f : Word × Bool → Word × Bool → Word × Bool) : List (Word × Bool) → List (Word × Bool)
  | a :: b :: l => f a b :: treePairs f l
  | l => l
def treeFold (f : Word × Bool → Word × Bool → Word × Bool) : Nat → List (Word × Bool) → Word × Bool
  | 0, l => l.headD (0, false)
  | n + 1, l => treeFold f n (treePairs f l)

def insPart (le : CollPart → CollPart → Bool) (x : CollPart) : List CollPart → List CollPart
  | [] => [x]
  | y :: l => if le x y then x :: y :: l else y :: insPart le x l
/-- The participants in rank order (12 R267). -/
def Coll.ranked (c : Coll) : List CollPart :=
  let home := c.parts.any (·.tree)
  let le (x y : CollPart) : Bool :=
    if home && x.home != y.home then x.home.toNat < y.home.toNat else x.index ≤ y.index
  c.parts.foldl (fun l x => insPart le x l) []
def CollPart.el (p : CollPart) (i : Nat) : Word × Bool := (p.data.getD i 0, p.pois.getD i false)
/-- What the participant of rank `r` writes to its DST: element positions with their values. The chunks of an alltoall stand at
their chunk positions; elements between them are not written. -/
def Coll.result (c : Coll) (x : CopyRun) (ordTree : Bool) (r : Nat) : List (Nat × Word × Bool) :=
  let ps := c.ranked
  let n := ps.length
  let count := x.cCount
  let ck := (count + n - 1) / n
  let el (j i : Nat) : Word × Bool := ((ps[j]?).map (·.el i)).getD (0, false)
  let f := collCombine x.cType x.cOp
  let all (i : Nat) : Word × Bool :=
    if ordTree then treeFold f n ((List.range n).map fun j => el j i) else ringFold f (fun j => el j i) n (i / ck)
  let lo := Nat.min (ck * r) count
  let hi := Nat.min (ck * (r + 1)) count
  match c.kind with
  | .allreduce => (List.range count).map fun i => (i, all i)
  | .redscat => (List.range (hi - lo)).map fun i => (i, all (lo + i))
  | .allgath => (List.range n).flatMap fun j => (List.range count).map fun i => (count * j + i, el j i)
  | .alltoall => (List.range n).flatMap fun j => (List.range (hi - lo)).map fun i => (ck * j + i, el j (lo + i))

def Coll.same (c : Coll) (launch : Nat) (k : Nat × Nat × BitVec 16 × Nat) : Bool :=
  c.launch == launch && c.firsti == k.1 && c.npart == k.2.1 && c.cid == k.2.2.1 && c.nth == k.2.2.2
def State.collOf (s : State) (k : Nat × Nat × BitVec 16 × Nat) : Option Coll := s.dev.colls.find? (·.same s.ctx.id.launch k)
def State.onColl (s : State) (k : Nat × Nat × BitVec 16 × Nat) (f : Coll → Coll) : State :=
  s.onDev fun d => { d with colls := (d.colls.map fun c => if c.same s.ctx.id.launch k then f c else c).filter fun c =>
    !(c.parts.length == c.npart && c.parts.all (·.done)) }
/-- The participant that a channel of the context is. -/
def Ctx.isPart (c : Ctx) (ch : Nat) (p : CollPart) : Bool := p.ctx == c.id.uid && p.chan == ch

/-- Reads what is still to be read of SRC, element by element. -/
def collRead (ch n size src : Nat) : Nat → State → State
  | 0, s => s
  | k + 1, s =>
    let i := n - (k + 1)
    let o := src + size * i
    match s.window (BitVec.ofNat 64 o) size with
    | .ok (.mem key) =>
      let s := s.touch 0 key size
      collRead ch n size src k (s.onRun ch fun x => { x with
        rd := x.rd ++ [(BitVec.ofNat 64 (s.mem.raw key size), s.mem.poisoned key)] })
    | .ok _ => s
    | .error d => s.holdChan ch ⟨d, BitVec.ofNat 64 o, 0⟩
/-- The context joins its collective. -/
def State.collJoin (s : State) (ch : Nat) (x : CopyRun) (k : CollKind) : State :=
  let key3 := (x.cFirst, x.cNpart, x.cCid)
  let nth := ((s.ctx.collN.find? (·.1 == key3)).map (·.2)).getD 0
  let key := (x.cFirst, x.cNpart, x.cCid, nth)
  let i := s.ctx.id
  let part (differs : Bool) : CollPart :=
    { ctx := i.uid, chan := ch, index := i.index, home := i.home, tree := s.ctx.fixed, differs := differs
      data := x.rd.map (·.1), pois := x.rd.map (·.2) }
  let s' : State := match s.collOf key with
    | none =>
      let new : Coll := { launch := i.launch, firsti := x.cFirst, npart := x.cNpart, cid := x.cCid, nth := nth, kind := k
                          desc := x.desc, parts := [part false] }
      s.onDev fun d => { d with colls := d.colls ++ [new] }
    | some c =>
      let differs := c.kind != k || c.desc.getD 2 0 != x.d 2
      s.onColl key fun c => { c with parts := c.parts ++ [part differs] }
  (s'.onCtx fun c => { c with collN := c.collN.filter (fun y => y.1 != key3) ++ [(key3, nth + 1)] }).onRun ch fun x =>
    { x with coll := some key, rd := [] }

/-- Writes what is left of a result to its window offsets, whole words where two elements share one. -/
def collWrite (ch size dst : Nat) : Nat → List (Nat × Word × Bool) → State → State × Bool
  | _, [], s => (s, true)
  | 0, _, s => (s, true)
  | n + 1, (i, v, p) :: l, s =>
    let o := dst + size * i
    let two := size = 4 && o % 8 = 0 && (l.head?).any (·.1 == i + 1)
    let (w, q) : Word × Bool := match two, l with
      | true, (_, v', p') :: _ => (BitVec.ofNat 64 (v.toNat % 2 ^ 32 + v'.toNat % 2 ^ 32 * 2 ^ 32), p || p')
      | _, _ => (v, p)
    let k := if two then 2 else 1
    match s.window (BitVec.ofNat 64 o) (if two then 8 else size) with
    | .error d => (s.holdChan ch ⟨d, BitVec.ofNat 64 o, 1⟩, false)
    | .ok (.mem key) =>
      let s := s.devStore key (if two then 8 else size) w.toNat q
      collWrite ch size dst n (l.drop (k - 1)) (s.onRun ch fun x => { x with wr := x.wr + k })
    | .ok _ => (s, true)

/-- The participant on channel `ch` of a context leaves a collective. -/
def Coll.gone (c : Coll) (x : Ctx) (ch : Nat) : Coll :=
  let ps := c.parts.map fun p => if x.isPart ch p then { p with done := true, lost := true } else p
  { c with parts := ps }

/-- Changes the participant that a channel of the context in focus is. -/
def State.onMine (s : State) (ch : Nat) (key : Nat × Nat × BitVec 16 × Nat) (f : CollPart → CollPart) : State :=
  s.onColl key fun c => { c with parts := c.parts.map fun p => if s.ctx.isPart ch p then f p else p }
/-- A participant sends its next exchange to the participant of the next rank, one message of the job (12 R267, 05 R130; log 56). -/
def State.sendExchange (s : State) (ch : Nat) (key : Nat × Nat × BitVec 16 × Nat) (next : CollPart) (n : Nat) : State :=
  let i := s.ctx.id
  let here : BitVec 32 := s.tile.module ++ i.tile
  let dst : BitVec 32 := s.tile.module ++ (((s.ctxOf next.ctx).map (·.id.tile)).getD i.tile)
  let id := s.dev.nextUpd
  let p : Packet := { kind := .coll, ctx := i.uid, src := i.tile, srcMod := s.tile.module, send := id, job := i.job, side := i.side
                      cnum := i.num, dst := dst, dinst := BitVec.ofNat 32 next.index, sinst := BitVec.ofNat 32 i.index, ring := 0
                      sseq := 0, body := [], launch := i.launch, pos := i.tile, origin := here }
  ((s.onDev fun d => { d with packets := d.packets ++ [p], nextUpd := id + 1 }).onCop i.tile i.job Counters.inject).onMine ch key
    fun x => { x with left := some n, out := some id }

/-- The next step of a collective on a channel. How many messages its exchanges take is free (log 56). A participant ends once the
exchanges of all have arrived; one whose exchange a kerf dropped ends with KERF (21 R378). -/
def State.collStep (s : State) (ch : Nat) (x : CopyRun) (k : CollKind) : State :=
  let i := s.ctx.id
  match x.coll with
  | none =>
    if !x.descOk k then s.copyDone ch x.req stBADREQ
    else if !x.descRange then s.copyDone ch x.req (fault 0x030 0)
    else if i.index < x.cFirst || x.cFirst + x.cNpart ≤ i.index then
      s.copyDone ch x.req (if s.instances < x.cFirst + x.cNpart then stNODEST else stBADREQ)
    else if s.instances < x.cFirst + x.cNpart then s.copyDone ch x.req stNODEST
    else if x.rd.length < x.cCount then collRead ch x.cCount x.cSize x.cSrc (x.cCount - x.rd.length) s
    else s.collJoin ch x k
  | some key =>
    match s.collOf key with
    | none => s
    | some c =>
      if c.parts.length < c.npart then s
      else if c.parts.any (·.differs) then
        (s.onMine ch key fun p => { p with done := true }).copyDone ch x.req (fault 0x083 0)
      else
        let ps := c.ranked
        let r := (firstIdx (s.ctx.isPart ch) ps 0).getD 0
        match ps[r]? with
        | none => s
        | some me =>
          if me.kerf then (s.onColl key (·.gone s.ctx ch)).copyDone ch x.req stKERF
          else if me.out.isSome then s
          else match me.left, ps[(r + 1) % ps.length]? with
            | none, _ => s.drawn.onMine ch key fun p => { p with left := some (1 + s.freeVal.toNat % 2 ^ 16) }
            | some (n + 1), some next => s.sendExchange ch key next n
            | some (_ + 1), none => s
            | some 0, _ =>
              if c.parts.any (fun p => p.lost || p.kerf || p.out.isSome || p.left != some 0) then s
              else
                let res := c.result x (x.cOrder = 1 || c.parts.any (·.tree)) r
                let (s, ok) := collWrite ch x.cSize x.cDst res.length (res.drop x.wr) s
                if !ok then s
                else (s.onMine ch key fun p => { p with done := true }).copyDone ch x.req (status 0 0 c.npart)

/-- A request all of whose blocks are copied completes, once its writes are performed. -/
def State.copyEnd (s : State) (ch : Nat) (x : CopyRun) : State :=
  if s.copyPerformed ch x.req then
    s.copyDone ch x.req (if x.poisoned = 0 then status 0 0 x.req.total else status sPOISON 0 x.poisoned)
  else s
/-- COPY_COMPLETION: the running request of a channel moves its next block, or completes. -/
def execCopyCompletion (ch : BitVec 3) (s : State) : Out :=
  let i := ch.toNat
  match (s.ctx.chan i).run with
  | none => .next s
  | some x =>
    if x.hold.isSome then .next s
    else match x.status, x.req.coll with
      | some st, _ => .next (if s.copyPerformed i x.req then s.copyDone i x.req st else s)
      | none, some k => .next (s.collStep i x k)
      | none, none =>
        match x.req.listAt with
        | some o =>
          if x.list.length < x.req.count then .next (copyListGo i o x.req.count (x.req.count - x.list.length) s)
          else if x.blk < x.req.total then .next (s.copyBlock i)
          else .next (s.copyEnd i x)
        | none =>
          if x.blk < x.req.total then .next (s.copyBlock i)
          else .next (s.copyEnd i x)

/-! ### Holds of a channel (11 R256, 17 R321) -/

/-- RESUME of a held channel: retried, or the rest of the held block or structure is skipped. -/
def State.resumeChan (s : State) (ch : Nat) (skip : Bool) : State :=
  match (s.ctx.chan ch).run with
  | none => s
  | some x =>
    let s := s.onRun ch fun x => { x with hold := none }
    match skip, x.hold with
    | true, some h =>
      if x.req.coll.isSome then
        if h.acc = 0 then s.onRun ch fun x => { x with rd := x.rd ++ List.replicate (x.cCount - x.rd.length) (0, true) }
        else s.onRun ch fun x => { x with wr := 2 ^ 64 }
      else if x.req.listAt.isSome && x.list.length < x.req.count then s.onRun ch fun x => { x with status := some stBADREQ }
      else if h.acc = 0 then
        s.onRun ch fun x => { x with rd := x.rd ++ List.replicate (8 - x.rd.length) (0, true)
                                     poisoned := x.poisoned + (8 - x.rd.length) }
      else s.onRun ch fun x => { x with wr := 64 / x.req.unit }
    | _, _ => s

/-! ### KCANCEL and KSTAT (12 R268, R269) -/

/-- Cancels what a channel queues and runs, of the commands handed over before serial `ser`. A stopped reduction ends once the
updates that it has handed over are performed (12 R259). -/
def State.cancelChan (s : State) (ser ch : Nat) : State :=
  let k := s.ctx.chan ch
  let held := s.ctx.kq.filter fun e => e.ser < ser && (match e.ins with
    | .kcopy .. | .kgath .. | .kscat .. | .kred .. | .kcoll .. => true | _ => false) && bitsN e.b.val 2 0 = ch
  let s := match k.run with
    | none => s
    | some x =>
      let s := match x.coll with
        | some key => s.onColl key (·.gone s.ctx ch)
        | none => s
      if s.copyPerformed ch x.req then s.copyDone ch x.req (stCANCELLED (if x.coll.isSome then 0 else x.blk))
      else s.onRun ch fun x => { x with hold := none, status := x.status.orElse fun _ => some (stCANCELLED x.blk) }
  let s := k.queue.foldl (fun s r => s.onCtx fun c =>
    c.complete r.cw true (stCANCELLED 0) r.cls.toNat r.op.toNat r.mod.toNat ch (r.origin ch)) s
  let s := held.foldl (fun s e => let w := encode e.ins
    s.onCtx fun c => c.complete e.cw true (stCANCELLED 0) (fCls w) (fOp w) (fMod w).toNat ch) s
  s.onCtx fun c => { c.onChan ch fun k => { k with queue := [] } with kq := c.kq.filter fun e => !held.contains e }
def State.cancelMask (s : State) (ser : Nat) (m : Word) : State :=
  (List.range 8).foldl (fun s ch => if m.getLsbD ch then s.cancelChan ser ch else s) s

def execKcancel (s : State) : Out :=
  match s.who with
  | .cmd e => .next ((s.onCtx fun c => { c with kq := c.kq.erase e }).cancelMask e.ser e.a.val)
  | .core =>
    if s.opA.poison then .next (s.poisonFault useOther)
    else if bitsN s.opA.val 63 8 ≠ 0 then .next (s.rangeFault s.opA.val)
    else .next (s.issue .kcancel)

def chanWord (k : Channel) : Word :=
  BitVec.ofNat 64 ((match k.run with
    | some x => 2 ^ 63 + (if x.hold.isSome then 2 ^ 62 else 0) + Nat.min x.blk (2 ^ 27 - 1) * 2 ^ 16
    | none => 0) + k.queue.length % 32 * 2 ^ 57)
def execKstat (t0 t1 : Cons) (s : State) : Out :=
  if s.opA.poison then .next (s.poisonFault useOther)
  else if bitsN s.opA.val 63 3 ≠ 0 then .next (s.rangeFault s.opA.val)
  else
    let v := tok (chanWord (s.ctx.chan s.opA.val.toNat))
    .next (s.emit [(t0, v), (t1, v)])

/-! ### Copy ports (12 R260) -/

/-- A COPY port of side `p` of a configuration that runs, whose state is as asked. -/
def Ctx.copyPortOf (c : Ctx) (p : Nat) (f : CollarCfg → Nat → PortSt → Bool) : Option (Nat × Nat) :=
  (List.range 32).findSome? fun h => (c.cfg h).bind fun g =>
    if g.runs && g.side.toNat = p then
      (List.range g.img.ports.length).findSome? fun i =>
        match g.img.ports[i]?, g.ports[i]? with
        | some q, some x => if q.kind = 4 && !x.faulted && f g i x then some (h, i) else none
        | _, _ => none
    else none
/-- The COPY port of side `p` whose packet goes on: the one with a whole packet, else one that gathers tokens. -/
def Ctx.copySource (c : Ctx) (p : Nat) : Option (Nat × Nat) :=
  (c.copyPortOf p fun _ _ x => decide (4 ≤ x.part.length)).orElse fun _ => c.copyPortOf p fun g i _ => (g.portIn i 0).any g.has
def CollarCfg.part (g : CollarCfg) (i : Nat) : List CTok := ((g.ports[i]?).map (·.part)).getD []
/-- The request of a packet. -/
def State.packetReq (s : State) (k : CopyPort) (ts : List CTok) : CopyReq :=
  let v (i : Nat) : Nat := ((ts[i]?).map (·.val.toNat)).getD 0
  { cls := 5, op := if k.red.isSome then 35 else 32, mod := match k.red with | some op => BitVec.ofNat 5 op.enc | none => 0
    off := none, w0 := BitVec.ofNat 64 (v 0 + v 1 * 2 ^ 32), w1 := BitVec.ofNat 64 (v 2 + v 3 * 2 ^ 32), cw := k.cw
    merge := k.red, space := s.spaceNow, kind := if k.red.isSome then 3 else 0, ser := s.ctx.ser + 1 }
/-- The binding of a whole packet: the one that stood when its last token came. -/
def CollarCfg.boundTo (g : CollarCfg) (i : Nat) (k : CopyPort) : CopyPort := ((g.ports[i]?).bind (·.bound)).getD k
/-- A packet is stopped at its port, and the part that sends to it faults: an operator, or a port (12 R260, 14 R310). -/
def State.stopPacket (s : State) (h i : Nat) : State :=
  let from_ : Option (Bool × Nat) := (s.ctx.cfg h).bind fun g => (g.portIn i 0).bind fun e => (g.img.edges[e]?).bind fun d =>
    if epPort d.src then some (true, epIdx d.src) else (g.img.nodeAt (epNode d.src) (epSlot d.src)).map fun n => (false, n)
  let s := s.onCfg h fun g => g.onPort i fun p => { p with faulted := true }
  match from_ with
  | some (port, n) => (s.collarFault h port n 0x0B3).settleFault h
  | none => s
/-- COPY_PORT_PACKET: a token joins the packet at copy port `p`, or a whole packet enters its channel. -/
def execCopyPortPacket (p : BitVec 2) (s : State) : Out :=
  match s.ctx.copySource p.toNat with
  | none => .next s
  | some (h, i) =>
    match s.ctx.cfg h with
    | none => .next s
    | some g =>
      if let some t := s.hangFirst (BitVec.ofNat 5 h) then .next t else
      let ts := g.part i
      if ts.length < 4 then
        match g.portIn i 0 with
        | some e =>
          let k := s.ctx.kports.getD p.toNat {}
          .next (s.onCfg h fun g => (g.pop e).onPort i fun x => { x with
            part := x.part ++ [(g.first1 e)], bound := if x.part.length = 3 then some { k with full := none } else none })
        | none => .next s
      else
        let k := g.boundTo i (s.ctx.kports.getD p.toNat {})
        if !k.en then .next (s.stopPacket h i)
        else if ts.any (·.pois) then .next ((s.collarFault h true i 0x0B4).settleFault h)
        else match s.ctx.enqueue k.chan.toNat (s.packetReq k ts) with
          | some c => .next (({ s with ctx := { c with ser := c.ser + 1 } }).onCfg h fun g => g.onPort i fun x => { x with part := [], bound := none })
          | none => .next (s.onCfg h fun g => g.onPort i fun x => { x with
              bound := some { k with full := k.full.orElse fun _ => some s.ctx.now } })
/-- COPY_PORT_FULL_TIMEOUT: a packet has found its channel full for more than DCEIL.CEIL cycles. -/
def execCopyPortFullTimeout (p : BitVec 2) (s : State) : Out :=
  match s.ctx.copySource p.toNat with
  | some (h, i) =>
    match ((s.ctx.cfg h).bind fun g => g.ports[i]?).bind (·.bound) with
    | some k =>
      if k.full.any (fun t => t + s.ctx.csr.dceil.toNat < s.ctx.now) && chanRoom ≤ (s.ctx.chan k.chan.toNat).queue.length then
        .next (s.stopPacket h i)
      else .next s
    | none => .next s
  | none => .next s

/-! ### The event queue (12 R261, R262; 01 R27, R28) -/

def execKwait (t0 t1 : Cons) (s : State) : Out :=
  let _ := t0; let _ := t1
  if s.opB.poison then .next (s.poisonFault useOther)
  else if bitsN s.opB.val 63 7 ≠ 0 then .next (s.rangeFault s.opB.val)
  else .next (s.withDeadline s.opA fun d => s.begin (.kwait (BitVec.ofNat 7 s.opB.val.toNat)) d)
def execKevq (t0 t1 : Cons) (s : State) : Out :=
  let _ := t0; let _ := t1
  .next (s.withDeadline s.opA fun d => s.begin .kevq d)

/-- COPY record of a delivery (24 R409). -/
def copyLogRec (c : Ctx) (r : Rec) : LogRec := { type := 8, srcn := c.srcn, w1 := r.info, w2 := r.status }
def evqRoom : Nat := 256
/-- A held record enters EVQ, and the push of its operation follows (01 R28). -/
def State.deliverRec (s : State) (i : Nat) (r : Rec) : State :=
  s.logged (copyLogRec s.ctx r) true allBits fun s => s.onSync fun y =>
    { y with evqHeld := y.evqHeld.eraseIdx i, evq := y.evq ++ [{ r with push := none }], seq := y.seq + 1
             pushes := y.pushes ++ r.push.toList.map fun q => { q := q, origin := r.origin } }
/-- EVQ_RECORD_DELIVERY: when there is room, a held record enters EVQ: the first, or in STEER mode the recorded one. That waits for its
completion; one that differs from it in its status alone is a divergence (24 R414). -/
def execEvqRecordDelivery (s : State) : Out :=
  if evqRoom ≤ s.ctx.sync.evq.length then .next s else
  let num (r : Rec) : Rec := { r with info := BitVec.ofNat 64 (r.info.toNat + s.ctx.sync.seq % 2 ^ 32) }
  match (s.ctx.sync.evqHeld.zipIdx).map fun (r, i) => (i, num r) with
  | [] => .next s
  | (i, r) :: l =>
    if !(s.ctx.logOn && s.ctx.logSteer) then .next (s.deliverRec i r)
    else match ((i, r) :: l).find? fun (_, r) => s.ctx.isSettled (copyLogRec s.ctx r) with
      | some (i, r) => .next (s.deliverRec i r)
      | none =>
        match s.expected 0 0 with
        | [] => .next (s.logHold 0x0D1 (copyLogRec s.ctx r))
        | (_, ws) :: _ =>
          let alike := ((i, r) :: l).filter fun (_, r) => bitsN (ws.getD 0 0) 7 0 = 8 && ws.getD 1 0 == r.info
          match alike.find? (fun (_, r) => ws.getD 2 0 == r.status), alike with
          | some (i, r), _ => .next (s.deliverRec i r)
          | none, (_, r) :: _ => .next (s.logHold 0x0D2 (copyLogRec s.ctx r))
          | none, [] => .next s

def fifoRoom : Nat := 16
/-- DEPENDENCE_FIFO_PUSH: the oldest held push to Qn is delivered when there is room (01 R27). -/
def execDependenceFifoPush (q : BitVec 3) (s : State) : Out :=
  if s.ctx.sync.pushes.any (·.q == q) && (s.ctx.sync.q.getD q.toNat 0) < fifoRoom then
    .next (s.onSync fun y => { y with pushes := y.pushes.eraseP (·.q == q), q := modV y.q q.toNat (· + 1) })
  else .next s

end Sys2Proof.Machine
end

