-- ==== Sys2Proof/Machine/Sync.lean ====
section
/-! DEFINITION. RESUME and class Y but for SPAWN and KILL: barriers, fences, dependence FIFOs, flags, quiet and JOIN (11
R256; 13 R270 to R284; 05 R111 to R134; 04 R99 to R101, R107; 22 R389; 24 R407). -/

namespace Sys2Proof.Machine

/-! ### RESUME (11 R256, 22 R389) -/

/-- The collar engine's port: a map or save area goes on, or a held read of a command is presented again or poisoned. -/
def State.resumeEngine (s : State) (skip : Bool) : State :=
  let s := s.onCtx fun c => { c with holdEngine := none }
  if s.ctx.mapq.isEmpty then
    if skip then s.onCtx fun c => { c with cq := match c.cq with | e :: l => { e with wp := [true] } :: l | [] => [] } else s
  else
    let s := if skip then s.onCtx fun c => { c with mapq := c.mapq.drop 1 } else s
    flushMaps s.ctx.mapq.length s
/-- A record that a block has written at its commit: no event waits for it (24 R411). -/
def LogRec.ofBlock (r : LogRec) : Bool :=
  r.type == 9 || r.type == 11
    || (r.type == 10 && bitsN r.w1 8 0 != 5 + 37 * 8 && bitsN r.w1 8 0 != 6 + fOp (encode (.dget 0)) * 8)
/-- Records held at the bore-log port are written in order, as far as none is held again; the event of a record written may happen. -/
def logAgain : List LogRec → State → State
  | [], s => s
  | r :: l, s =>
    let t := s.logPut r
    if t.ctx.log.held.isEmpty then logAgain l (if r.ofBlock then t else t.onCtx (·.settled r))
    else t.onCtx fun c => { c with log := { c.log with held := c.log.held ++ l } }
/-- The bore-log port (24 R407): a dropped record takes its LSEQ with it, and its event happens without it. -/
def State.resumeLog (s : State) (skip : Bool) : State :=
  let h := s.ctx.log.held
  let s := s.onCtx fun c => { c with log := { c.log with held := [], port := none } }
  match skip, h with
  | true, r :: l => logAgain l (s.onCtx fun c => if r.ofBlock then c.logNext r else (c.logNext r).settled r)
  | _, l => logAgain l s

/-- The port that RESUME names is held. -/
def Ctx.portHeld (c : Ctx) (path num : Nat) : Bool :=
  match path with
  | 0 => (c.streams.getD num {}).st == .held
  | 1 => match (c.chan num).run with | some x => x.hold.isSome | none => false
  | 2 => c.holdScalar.isSome
  | _ => if num = 0 then c.holdEngine.isSome else c.log.port.isSome
def State.resumePath (path num : Nat) (skip : Bool) (s : State) : State :=
  match path with
  | 0 => s.resumeStream num skip
  | 1 => s.resumeChan num skip
  | 2 => s.resumeScalar skip
  | _ => if num = 0 then s.resumeEngine skip else s.resumeLog skip
def applyResume (e : Eff) (s : State) : State :=
  let a := e.a.val
  let path := bitsN a 9 8
  let num := bitsN a 14 10
  match s.ctxAt s.ctx.id.tile (BitVec.ofNat 2 (bitsN a 1 0)) with
  | none => s.refuseCmd e.ins 0x051
  | some c =>
    if bitsN a 7 2 ≠ 0 ∨ !c.portHeld path num then s.refuseCmd e.ins 0x051
    else s.within c.id.uid fun s => s.resumePath path num (a.getLsbD 15)
def resumeOk (a : Word) : Bool :=
  let num := bitsN a 14 10
  bitsN a 63 17 = 0 && bitsN a 16 15 ≤ 1
    && match bitsN a 9 8 with | 0 => true | 1 => num < 8 | 2 => num = 0 | _ => num < 2
def execResume (s : State) : Out :=
  match s.who with
  | .cmd e => .next (applyResume e (s.popLq e))
  | .core =>
    if s.opA.poison then .next (s.poisonFault useOther)
    else if !resumeOk s.opA.val then .next (s.rangeFault s.opA.val)
    else .next (s.issue .resume)

/-! ### Barriers: operands and sending (13 R273, R274; 05 R124, R125) -/

def refAddr (r : Word) : Word := BitVec.ofNat 64 (bitsN r 55 0)
/-- The key of the object that a reference names. Only HBM and windows have homes (05 R122). -/
def State.barPlace (s : State) (ref : Word) (acc : Access) : Except (BitVec 12) Nat × State :=
  let (r, s) := if refWin ref then (s.window (refAddr ref) 32, s) else s.global s.who4 acc (refAddr ref) 32
  match r with
  | .ok (.mem k) => if isHbm k || spadBase ≤ k then (.ok k, s) else (.error dPERM, s)
  | .ok _ => (.error dPERM, s)
  | .error d => (.error d, s)
/-- The checks of a barrier reference at issue, then `k` with the object's key. -/
def State.withBarrier (s : State) (acc : Access) (noM : Bool) (k : Nat → State → State) : State :=
  let a := s.opA
  if a.poison then s.poisonFault useAddr
  else if a.val.getLsbD 63 || (noM && refM a.val != 0) then s.rangeFault a.val
  else match s.barPlace a.val acc with
    | (.error d, s) => s.accessFault d (refAddr a.val) acc.code
    | (.ok key, s) => k key s

/-- Sends an operation of the issuing slot to the home of its object. -/
def State.sendBar (s : State) (op : BarOp) (key : Nat) : State :=
  let ref := s.opA.val
  s.onDev fun d => { d with barQ := d.barQ ++
    [{ op := op, ref := ref, key := key, m := refM ref, ctx := s.ctx.id.uid, fir := s.fir.id, slot := s.fir.blk.cur
       keyslot := s.keySeen }] }
/-- The slot awaits the home's answer. -/
def State.await (s : State) (key : Nat) (d : Option Deadline) : State :=
  let (e, poll) : Option Nat × Bool := match d with
    | some (.at e) => (some e, false)
    | some .poll => (none, true)
    | _ => (none, false)
  s.setWait s.fir.blk.cur { on := .reply key, expiry := e, poll := poll }
/-- Arrivals of the context on their way to their homes, and those accepted there whose answer is on its way back. -/
def State.arriving (s : State) : List Word :=
  (s.dev.barQ.filter fun r => r.ctx == s.ctx.id.uid && (match r.op with | .arrive _ => true | _ => false)).map (·.ref)
    ++ s.ctx.sync.replies.filterMap fun (f, k, st) =>
      if codeOf st ≠ 0 then none
      else match ((s.firings.find? (·.id == f)).bind fun f => f.blk.slots[k]?).bind fun sl => (decodeOpt sl.word).map fun i => (sl, i) with
        | some (sl, .bara ..) | some (sl, .baraw ..) | some (sl, .bard ..) => some (sl.a.getD {}).val
        | _ => none
/-- The arrival table has room for an arrival (05 R125). -/
def State.arrRoom (s : State) (ref : Word) : Bool :=
  let l := (s.ctx.sync.arr.map (·.ref) ++ s.arriving).dedup
  l.contains ref || l.length < 16
/-- An arrival of BARA, BARD or BARAW. -/
def State.arrive (s : State) (drop : Bool) (d : Option Deadline) : State :=
  s.withBarrier .wr false fun key s =>
    if !s.arrRoom s.opA.val then
      let full := status sFULL 0 0
      if d.isSome then s.finish s.fir.blk.cur full false false mkStatus else s.answer s.fir.blk.cur full
    else (s.sendBar (.arrive drop) key).await key d

def execBara (_t0 _t1 : Cons) (s : State) : Out := .next (s.arrive false none)
def execBard (_t0 _t1 : Cons) (s : State) : Out := .next (s.arrive true none)
def execBaraw (_t0 _t1 : Cons) (s : State) : Out := .next (s.withDeadline s.opB fun d => s.arrive false (some d))
def execBarw (_t0 _t1 : Cons) (s : State) : Out :=
  .next (s.withDeadline s.opB fun d => s.withBarrier .rd false fun key s => (s.sendBar .sample key).await key (some d))
def execBart (_t0 _t1 : Cons) (s : State) : Out :=
  .next (s.withBarrier .rd true fun key s => (s.sendBar .read key).await key none)

/-- BARI is sent to the home when its block commits. -/
def State.commitBari (s : State) (e : Eff) : State :=
  match e.ins, e.locs with
  | .bari sc, [.mem key] =>
    s.onDev fun d => { d with barQ := d.barQ ++
      [{ op := .init e.b.val (BitVec.ofNat 4 sc.enc) (refWin e.a.val), ref := e.a.val, key := key, m := 0, ctx := s.ctx.id.uid
         fir := 0, slot := e.slot, keyslot := e.keyslot }] }
  | _, _ => s
def execBari (sc : Scope) (s : State) : Out :=
  match s.who with
  | .cmd e => .next ((s.unqueue e).commitBari e)
  | .core =>
  .next (s.withBarrier .wr true fun key s =>
    if s.opB.poison then s.poisonFault useOther
    else (s.hold { slot := 0, ins := .bari sc, a := s.opA, b := s.opB, locs := [.mem key], keyslot := s.keySeen }).quiet)

/-! ### Barriers: at the home (05 R122, R123, R126, R127) -/

def stBADOBJ : Word := fault 0x011 0
/-- The first operation in the queue of the homes. -/
def State.homeHead (s : State) : Option (BarReq × State) :=
  match s.dev.barQ with
  | r :: l => some (r, (s.touch 0 r.key 32).onDev fun d => { d with barQ := l })
  | [] => none
/-- Runs an operation with a firing of a context in focus. -/
def State.inFir (s : State) (uid fir : Nat) (f : State → State) : State :=
  s.within uid fun s => (f (s.focusFir fir)).focusFir s.fir.id
/-- The answer of a home to the slot that awaits it. -/
def State.answerBar (s : State) (r : BarReq) (st : Word) : State :=
  s.within r.ctx fun s => s.onSync fun y => { y with replies := y.replies ++ [(r.fir, r.slot, st)] }
def BarObj.arrive (b : BarObj) (m : BitVec 6) (drop : Bool) : BarObj :=
  let bit : Word := (1 : Word) <<< m.toNat
  let b := { b with arr := b.arr ||| bit, drops := if drop then b.drops ||| bit else b.drops }
  if b.arr = b.live then
    { b with live := b.live &&& ~~~b.drops, arr := 0, drops := 0
             w3 := BitVec.ofNat 64 ((b.phase + 1).toNat * 2 ^ 32 + bitsN b.w3 31 0) }
  else b
/-- Phase in a status. -/
def stPhase (p : BitVec 32) : Word := status 0 0 p.toNat
/-- A refusal of BARI (13 R274). -/
def State.refuseBari (s : State) (r : BarReq) (sc : BitVec 4) (detail : Nat) : State :=
  s.within r.ctx fun s => s.onCtx fun c => c.postRec (fault detail 0) (recInfo 6 0 sc.toNat 0 0)
def popW (w : Word) : Nat := ((List.range 64).filter fun i => w.getLsbD i).length

/-- BARRIER_ARRIVAL: the home applies the operation that has reached it first; an accepted arrival is noted with its
block (05 R124). -/
def execBarrierArrival (s : State) : Out :=
  match s.homeHead with
  | none => .next s
  | some (r, s') =>
    let kv := s.dev.keyAt r.keyslot.toNat r.key
    let b := s'.mem.bar kv r.key
    let bad := b.bad (refWin r.ref)
    match r.op with
    | .withdraw _ => .next s
    | .init live sc win =>
      if b.arr ≠ 0 then .next (s'.refuseBari r sc 0x010)
      else if sc.toNat < 4 ∨ 7 < sc.toNat ∨ (win ∧ sc ≠ 4) then .next (s'.refuseBari r sc 0x011)
      else .next (s'.onMem fun m => m.putBar kv r.key ⟨live, 0, 0, BitVec.ofNat 64 (sc.toNat * 16), false⟩)
    | .read =>
      .next (s'.answerBar r (if bad then stBADOBJ else
        status 0 0 (b.phase.toNat + popW b.live * 2 ^ 32 + popW b.arr * 2 ^ 39)))
    | .sample => .next (s'.answerBar r (if bad then stBADOBJ else stPhase b.phase))
    | .arrive drop =>
      if bad then .next (s'.answerBar r stBADOBJ)
      else if !b.live.getLsbD r.m.toNat || b.arr.getLsbD r.m.toNat then .next (s'.answerBar r overArrival)
      else
        let s := (s'.onMem fun m => m.putBar kv r.key (b.arrive r.m drop)).answerBar r (stPhase b.phase)
        .next (s.inFir r.ctx r.fir fun s => s.onBlk fun k =>
          { k with arrived := k.arrived ++ [(r.slot, r.ref, r.key, b.phase)] })

/-- BARRIER_WITHDRAWAL: the home applies the withdrawal that has reached it first; the arrival it takes back is no longer
noted with its block. -/
def execBarrierWithdrawal (s : State) : Out :=
  match s.homeHead with
  | none => .next s
  | some (r, s') =>
    match r.op with
    | .withdraw p =>
      let kv := s.dev.keyAt r.keyslot.toNat r.key
      let b := s'.mem.bar kv r.key
      if b.bad (refWin r.ref) then .next (s'.answerBar r stBADOBJ)
      else
        let s := s'.inFir r.ctx r.fir fun s => s.onBlk fun k =>
          { k with arrived := k.arrived.filter fun x => !(x.2.1 == r.ref && x.2.2.2 == p) || b.phase != p }
        if b.phase = p then
          .next ((s.onMem fun m => m.putBar kv r.key (b.unarrive r.m)).answerBar r (status sWITHDRAWN 0 p.toNat))
        else .next (s.answerBar r (status sLATE 0 b.phase.toNat))
    | _ => .next s

/-! ### FENCE (13 R275; 04 R99 to R101, R107) -/

/-- The units a close of the scope goes to: those of the module, and those of other modules that hold something. -/
def State.unitsInScope (s : State) (sc : Scope) : List Nat :=
  ((List.range 1072) ++ ((s.dev.units.map (·.num)).filter fun n => 1072 ≤ n)).filter (unitInScope sc s.ctx.id.tile)
/-- The close of a FENCE reaches the units (04 R107), with the N of this moment: a close in the rounds of every job that counts the
context, its own and those of the launches that it descends from. -/
def State.sendClose (s : State) (sc : Scope) : State :=
  (s.dev.roundJobs s.ctx.id).foldl (fun s j =>
    let n := s.roundCount j
    (s.unitsInScope sc).foldl (fun s u => s.onUsu u fun x => x.close j s.ctx.id.uid n) s) s
def fenceOk (sc : Scope) (a : Word) : Bool :=
  let w := bitsN a 16 8
  bitsN a 63 17 = 0 && bitsN a 7 6 = 0 && match sc with
    | .s0 => w < 32
    | .s1 => w / 8 < 48
    | .s2 => w < 48
    | _ => w = 0
def execFence (sc : Scope) (_t0 _t1 : Cons) (s : State) : Out :=
  match s.who with
  | .cmd e => .next ((s.popLq e).sendClose sc)
  | .core =>
    if s.opA.poison then .next (s.poisonFault useOther)
    else .next (s.withDeadline s.opB fun d =>
      let a := s.opA.val
      if !fenceOk sc a then s.rangeFault a
      else
        let mask : BitVec 6 := a.setWidth 6
        let close := mask.getLsbD 4 && (s.fixedSeen || hdrFix s.fir.blk.hdr)
        let e : Eff := { slot := s.fir.blk.cur, ins := .fence sc none none, a := s.opA, ser := s.ctx.ser, fir := s.fir.id
                         blk := s.fir.blk.addr }
        let s := if close then s.onCtx fun c => { c with lq := c.lq ++ [e] } else s
        let held := (s.ctx.streams.toList.zip (List.range 32)).filterMap fun (t, n) => t.hold.map fun _ => (n, t.k)
        s.begin (.fence mask s.ctx.ser s.dev.nextUpd ⟨BitVec.ofNat 4 sc.enc, bitsN a 16 8, held, close⟩) d)

/-! ### Dependence FIFOs (13 R276; 10 R207, R209) -/

/-- Completion of a command of class Y or Z. -/
def State.sysDone (s : State) (e : Eff) (cw : BitVec 16) (st : Word) : State :=
  let w := encode e.ins
  s.onCtx fun c => c.complete cw (codeOf st ≠ 0) st (fCls w) (fOp w) (fMod w).toNat 0
/-- The FIFO a held DPUT or DGET acts on. -/
def effFifo (e : Eff) : Nat := match e.ins with | .dput q | .dget q => q.toNat | _ => 8
/-- The first DPUT or DGET of its FIFO. -/
def Ctx.fifoFirst (c : Ctx) (e : Eff) : Bool := (c.sync.fifo.find? fun x => effFifo x == effFifo e) == some e
def State.fifoPut (s : State) (e : Eff) (r : Option Eff) : State :=
  s.onSync fun y => { y with fifo := replaceEff e r y.fifo }
def State.fifoDone (s : State) (e : Eff) (st : Word) : State := (s.fifoPut e none).sysDone e e.cw st
/-- POP of a command that is first in its queue: it starts, is refused after DCEIL.CEIL cycles, or waits. -/
def State.popStart (s : State) (e : Eff) : Option (Except Unit State) :=
  match s.popBefore e with
  | some s => some (.ok s)
  | none => match e.since with
    | some t => if t + s.ctx.csr.dceil.toNat ≤ s.ctx.now then some (.error ()) else none
    | none => none
def fifoStep (e : Eff) (run : State → State) (s : State) : State :=
  if !s.ctx.fifoFirst e then s
  else if e.started then run s
  else match s.popStart e with
    | some (.ok s) => s.fifoPut e (some { e with started := true, since := some s.ctx.now })
    | some (.error _) => s.fifoDone e (status sTIMEOUT 0 0)
    | none => s
def addQ (y : Sync) (q n : Nat) : Sync := { y with q := setV y.q q n }

def applyDput (q : Nat) (e : Eff) (s : State) : State :=
  fifoStep e (fun s =>
    let n := s.ctx.sync.q.getD q 0
    if n < fifoRoom then (s.onSync fun y => addQ y q (n + 1)).fifoDone e stOK else s) s
/-- The expiry point of a held DGET: none for POLL. -/
def Eff.expiry (e : Eff) : Option Nat := (e.ws[0]?).map (·.toNat)
/-- A DGET expires: its EXPIRE record, then its completion (24 R409, R412). -/
def State.dgetExpires (s : State) (e : Eff) : State :=
  s.logged (expireRec s.ctx 6 (fOp (encode e.ins)) sTIMEOUT e.blk) true allBits fun s => s.fifoDone e (status sTIMEOUT 0 0)
/-- A DGET that runs. In a steered context one recorded as expired waits for its expiry whatever Q holds; one recorded otherwise goes on
for DCEIL.CEIL more, and then diverges (24 R414). -/
def applyDget (q : Nat) (e : Eff) (s : State) : State :=
  fifoStep e (fun s =>
    let n := s.ctx.sync.q.getD q 0
    let op := fOp (encode e.ins)
    let due := match e.expiry with | some x => decide (x ≤ s.ctx.now) | none => true
    match s.steeredCmd 6 op (cwTag e.cw) (cwRec e.cw) e.blk with
    | some true => if due then s.dgetExpires e else s
    | want =>
      if n ≠ 0 then (s.onSync fun y => addQ y q (n - 1)).fifoDone e stOK
      else if !due then s
      else if want.isNone then s.dgetExpires e
      else if e.wp.isEmpty then
        s.fifoPut e (some { e with ws := [BitVec.ofNat 64 ((e.expiry.getD s.ctx.now) + s.ctx.csr.dceil.toNat)], wp := [true] })
      else s.logHold 0x0D2 (expireRec s.ctx 6 op sTIMEOUT e.blk)) s
def execDput (q : BitVec 3) (s : State) : Out :=
  match s.who with
  | .cmd e => .next (applyDput q.toNat e s)
  | .core =>
    if s.opB.poison then .next (s.poisonFault useOther)
    else if lowB s.opB.val ≠ 0 then .next (s.rangeFault s.opB.val)
    else .next (s.issue (.dput q))
def execDget (q : BitVec 3) (s : State) : Out :=
  match s.who with
  | .cmd e => .next (applyDget q.toNat e s)
  | .core =>
    if s.opB.poison then .next (s.poisonFault useOther)
    else .next (s.withDeadline s.opA fun _ =>
      if lowB s.opB.val ≠ 0 then s.rangeFault s.opB.val else s.issue (.dget q))
/-- DPUT or DGET at commit: the expiry point of a DGET is fixed (05 R115). -/
def State.commitFifo (s : State) (e : Eff) : State :=
  let ws : List Word := match e.ins with
    | .dget _ => match s.deadline e.a.val with | .at x => [BitVec.ofNat 64 x] | _ => []
    | _ => []
  s.onSync fun y => { y with fifo := y.fifo ++ [{ e with ws := ws }] }
/-- DPUT_CEILING_TIMEOUT: a DPUT has found its FIFO full for DCEIL.CEIL resident cycles. -/
def execDputCeilingTimeout (q : BitVec 3) (s : State) : Out :=
  match s.ctx.sync.fifo.find? fun x => effFifo x == q.toNat with
  | some e =>
    match e.ins, e.since with
    | .dput _, some t =>
      if e.started && fifoRoom ≤ s.ctx.sync.q.getD q.toNat 0 && t + s.ctx.csr.dceil.toNat ≤ s.ctx.now then
        .next (s.fifoDone e (status sFULL 0 0))
      else .next s
    | _, _ => .next s
  | none => .next s

/-! ### Flags (13 R277, R278) -/

def execWaitf (c : FlagCond) (_t0 _t1 : Cons) (s : State) : Out :=
  if s.opA.poison then .next (s.poisonFault useOther)
  else .next (s.withDeadline s.opB fun d =>
    if bitsN s.opA.val 63 32 ≠ 0 then s.rangeFault s.opA.val
    else s.begin (.flag c (s.opA.val.setWidth 32)) d)
def issueFlags (i : Instr) (s : State) : Out :=
  if s.opA.poison then .next (s.poisonFault useFlag)
  else if bitsN s.opA.val 63 32 ≠ 0 then .next (s.rangeFault s.opA.val)
  else .next (s.issue i)
/-- The firings whose F a SETF or CLRF changes: the issuing one, or those of the context that are active at its commit. -/
def State.flagFirings (s : State) (all : Bool) : List Nat := if all then s.firings.map (·.id) else [s.fir.id]
/-- SETF and CLRF as they are handed over at commit, with those firings. -/
def State.withFirings (s : State) (e : Eff) : Eff :=
  match e.ins with
  | .setf all | .clrf all => { e with ws := (s.flagFirings all).map (BitVec.ofNat 64) }
  | _ => e
/-- Changes F of firings of the context in focus, of one that has trapped since in its frame (22 R384). -/
def State.changeFlags (s : State) (ids : List Nat) (f : Half → Half) : State :=
  let one (r : Firing) : Firing := if ids.contains r.id then { r with flags := f r.flags } else r
  let s := (s.onFir one).onCtx fun c => { c with firs := c.firs.map one }
  (s.ctx.susp.filter fun u => ids.contains u.id && !u.retired).foldl
    (fun s u => s.winPut (u.frame + 40) ((f ((s.winWord (u.frame + 40)).setWidth 32)).setWidth 64)) s
/-- SETF and CLRF at commit, after the WRITEs of the block: of the firings handed over with it, or of those active now. -/
def State.commitFlags (s : State) (e : Eff) : State :=
  let k : Half := e.a.val.setWidth 32
  let ids (all : Bool) : List Nat := if e.ws.isEmpty then s.flagFirings all else e.ws.map (·.toNat)
  match e.ins with
  | .setf all => s.changeFlags (ids all) fun f => f ||| k
  | .clrf all => s.changeFlags (ids all) fun f => f &&& ~~~k
  | _ => s
def execSetf (all : Bool) (s : State) : Out :=
  match s.who with
  | .cmd e => .next ((s.unqueue e).commitFlags e)
  | .core => issueFlags (.setf all) s
def execClrf (all : Bool) (s : State) : Out :=
  match s.who with
  | .cmd e => .next ((s.unqueue e).commitFlags e)
  | .core => issueFlags (.clrf all) s

/-! ### Quiet (13 R279, R280; 05 R128 to R134) -/

/-- The job that a reference names, the status that refuses it, or none when the reference is malformed. -/
def State.jobRef (s : State) (a : Word) : Option (BitVec 16 × Option Word) :=
  let own := a.getLsbD 16
  let j : BitVec 16 := a.setWidth 16
  if bitsN a 63 17 ≠ 0 || (own && j != 0) then none
  else
    let j := if own then s.ctx.id.job else j
    some (j, if !s.ctx.id.sup && j != s.ctx.id.job then some (fault 0x093 0)
      else if (s.dev.slotOf j).isNone then some (fault 0x092 0) else none)
def execQwait (_t0 _t1 : Cons) (s : State) : Out :=
  if s.opA.poison then .next (s.poisonFault useOther)
  else .next (s.withDeadline s.opB fun d =>
    match s.jobRef s.opA.val with
    | none => s.rangeFault s.opA.val
    | some (_, some st) => s.finish s.fir.blk.cur st false false mkStatus
    | some (j, none) =>
      let q : QReq := { ctx := s.ctx.id.uid, fir := s.fir.id, slot := s.fir.blk.cur, job := j }
      (s.onDev fun v => { v with quietReqs := v.quietReqs ++ [q] }).begin (.quiet j) d)
/-- A word of a counter set (05 R129). -/
def Counters.word (c : Counters) (job : BitVec 16) : QWord → Word
  | .inj => BitVec.ofNat 64 (c.inj % 2 ^ 48)
  | .con => BitVec.ofNat 64 (c.con % 2 ^ 48)
  | .woff => BitVec.ofNat 64 (job.toNat * 2 ^ 48 + 2 ^ 47 + (if c.act then 2 ^ 46 else 0) + c.woff % 2 ^ 32)
def execQstat (i : QIface) (w : QWord) (t0 t1 : Cons) (s : State) : Out :=
  if s.opA.poison then .next (s.poisonFault useOther)
  else match s.jobRef s.opA.val with
    | none => .next (s.rangeFault s.opA.val)
    | some (_, some _) => .next (s.emit [(t0, tok 0), (t1, tok 0)])
    | some (j, none) =>
      let n := (s.dev.slotOf j).getD 0
      let c : Counters := match i with | .net => s.tile.net.getD n {} | .copy => s.tile.cop.getD n {}
      let v := tok (c.word j w)
      .next (s.emit [(t0, v), (t1, v)])

/-- QUIET_REQUEST: the first request on its way reaches the wave root. -/
def execQuietRequest (s : State) : Out :=
  match s.dev.quietReqs with
  | q :: l => .next (s.onDev fun d => { d with quietReqs := l, quietWait := d.quietWait ++ [{ q with counts := false }] })
  | [] => .next s

def Counters.sum (a b : Counters) : Counters :=
  { inj := a.inj + b.inj, con := a.con + b.con, woff := a.woff + b.woff, act := a.act || b.act }
/-- What the other modules of the partition answer in a pass; the model does not hold them, so it is free (log 5). -/
def State.farSums (s : State) (j : Nat) : Counters :=
  if s.dev.modules ≤ 1 then {} else
  let v := Config.farSums s.freeCtr j
  { inj := v 0, con := v 1, woff := v 2, act := v 3 % 2 = 1 }
/-- The sums over every interface of the partition for a job slot; a pass reads those of this module at one moment (log 5). -/
def State.sums (s : State) (j : Nat) : Counters :=
  let one (l : Vector Counters 16) : Counters := l.getD j {}
  let tiles := (s.tile :: s.tiles).foldl (fun a t => (a.sum (one t.net)).sum (one t.cop)) (s.farSums j)
  s.dev.links.toList.foldl (fun a l => a.sum (one l.cnt)) tiles
/-- Changes the counter sets of a job slot at every interface. -/
def State.atInterfaces (s : State) (f : Vector Counters 16 → Vector Counters 16) : State :=
  let t (x : Tile) : Tile := { x with net := f x.net, cop := f x.cop }
  let s := { s with tile := t s.tile, tiles := s.tiles.map t }
  s.onDev fun d => { d with links := d.links |> mapV fun l => { l with cnt := f l.cnt } }
/-- The tile of the wave root (26 R434). -/
def rootTile : BitVec 8 := 27
/-- The wave root stands in this module: it lies at the origin of the partition (26 R434). -/
def Dev.rootHere (d : Dev) : Bool := d.modules ≤ 1 || bitsN d.ptpos 23 0 = 0
/-- The port by which a die hangs under its parent in the tree of waves: in Z, else in Y, else in X, on the shorter way to coordinate 0,
a tie toward the coordinate below; none at the root die (26 R434). -/
def Dev.waveUp (d : Dev) (die : Nat) : Option Nat :=
  let (x, y, z) := d.here die
  let nx := bitsN d.ptsize 7 0
  let ny := bitsN d.ptsize 15 8
  let nz := bitsN d.ptsize 23 16
  let up (v n : Nat) : Bool := decide (n < 2 * v)
  if z ≠ 0 then some (portNo die (if up z nz || nz ≤ 2 then 4 else 5))
  else if y ≠ 0 then some (portNo die (if ny ≤ 2 || up y ny == (die / 2 == 0) then 1 else 3))
  else if x ≠ 0 then some (portNo die (if nx ≤ 2 || up x nx == (die % 2 == 0) then 0 else 2))
  else none
/-- The tile at which the tree of waves enters a die (26 R434). -/
def Dev.waveTile (d : Dev) (die : Nat) : BitVec 8 := match d.waveUp die with | some p => portTile p | none => rootTile
/-- The flits of a wave have slots both ways on every link between two tiles of a die (21 R379). -/
def State.treePass (s : State) : Nat → BitVec 8 → BitVec 8 → Bool
  | 0, _, _ => true
  | n + 1, pos, dst =>
    match meshStep pos dst with
    | some (d, next) => (s.tileOf pos).slotPass d 255 && (s.tileOf next).slotPass (oppositePort d) 255 && s.treePass n next dst
    | none => true
/-- They have slots on the whole tree of the module. -/
def State.wavePass (s : State) : Bool :=
  (List.range 256).all fun k => s.treePass routeMax (s.dev.waveTile (k / 64)) (BitVec.ofNat 8 k)
/-- WAVEPER.PERIOD cycles of the root have passed since the latest wave began (05 R132). The period of a root in another module is a
register of that module: a wave from there starts when it comes (log 5). -/
def State.waveRipe (s : State) : Bool :=
  match s.dev.waveAge with
  | some n => !s.dev.rootHere || decide (bitsN (s.tileOf rootTile).waveper 19 0 ≤ n)
  | none => true
/-- A QWAIT of the partition may be pending: of this module, or of another one (05 R132). -/
def State.waveAsked (s : State) : Bool := !s.dev.quietWait.isEmpty || 1 < s.dev.modules
/-- WAVE_START: with a request pending and no wave in progress, pass 1 runs. -/
def execWaveStart (s : State) : Out :=
  if !s.waveAsked || s.dev.wave.isSome || !s.waveRipe then .next s else
  let sums := Vector.ofFn fun i : Fin 16 => s.sums i.val
  let clr (l : Vector Counters 16) : Vector Counters 16 := l |> mapV fun c => { c with act := false }
  .next ((s.drawn.atInterfaces clr).onDev fun d => { d with
    wave := some sums, waveAge := some 0, quietWait := d.quietWait.map fun q => { q with counts := true } })
/-- What pass 2 decides for a job slot: none while busy (05 R133). -/
def decideQuiet (p1 p2 : Counters) : Option Word :=
  if p1.inj = p2.inj && p1.con = p2.con && p1.woff = p2.woff && p2.inj = p2.con + p2.woff && !p2.act then
    some (if p2.woff = 0 then status 0 0 (p2.inj % 2 ^ 48) else status sLOSS 0 (p2.woff % 2 ^ 48))
  else none
def State.quietStep (p1 : Vector Counters 16) (s : State) (q : QReq) : State :=
  if !q.counts then s else
  match s.dev.slotOf q.job with
  | none => s
  | some j =>
    match decideQuiet (p1.getD j {}) (s.sums j) with
    | none => s
    | some st =>
      (s.onDev fun d => { d with quietWait := d.quietWait.filter (· != q) }).within q.ctx fun s => s.onSync fun y =>
        { y with replies := y.replies ++ [(q.fir, q.slot, st)] }
/-- QUIET_DECISION: pass 2 returns to the root. -/
def execQuietDecision (s : State) : Out :=
  match s.dev.wave with
  | none => .next s
  | some p1 => .next (s.dev.quietWait.foldl (State.quietStep p1) (s.onDev fun d => { d with wave := none })).drawn
/-- The job slot of a job, or one that it may take (05 R128). -/
def Dev.jobSlot (d : Dev) (job : BitVec 16) : Option Nat :=
  (d.slotOf job).orElse fun _ => firstIdx (fun j => !j.active && !j.dirty) d.jobs.toList 0
/-- A launch, or a restore, waits for a job slot, and every free one is still to be cleared (05 R128). -/
def State.slotWanted (s : State) : Bool :=
  s.dev.jobs.toList.all (fun j => j.active || j.dirty)
    && (s.dev.pending.any (fun p => (s.dev.slotOf p.job).isNone) || s.allCtxs.any fun c => c.zq.any fun e => e.started && e.ins == .ctxload)
/-- CLEARING_WAVE: the counters of a freed job slot are cleared at every interface before its reuse. -/
def execClearingWave (slot : BitVec 4) (s : State) : Out :=
  let j := s.dev.jobs.getD slot.toNat {}
  if j.active || !j.dirty || !s.slotWanted then .next s
  else .next ((s.atInterfaces fun l => setV l slot.toNat {}).onDev fun d => { d with
    jobs := modV d.jobs slot.toNat fun _ => {} })

/-! ### JOIN and YIELD (13 R282, R284; 02 R58) -/

def execJoin (_t0 _t1 : Cons) (s : State) : Out :=
  if s.opA.poison then .next (s.poisonFault useOther)
  else .next (s.withDeadline s.opB fun d =>
    let a := s.opA.val
    if bitsN a 63 6 ≠ 0 then s.rangeFault a
    else if !(s.ctx.sync.children.getD a.toNat {}).isOpen then
      s.finish s.fir.blk.cur (fault 0x090 a.toNat) false false mkStatus
    else s.begin (.join (BitVec.ofNat 6 a.toNat)) d)
/-- A JOIN of a committed block closes its handle. -/
def State.commitJoin (s : State) (h : Nat) : State := s.onSync fun y => { y with children := setV y.children h {} }
/-- The firing is placed last among those of its tile (13 R284). -/
def State.commitYield (s : State) : State := s.onFir fun f => { f with yielded := true }
def execYield (s : State) : Out :=
  match s.who with
  | .cmd e => .next ((s.unqueue e).commitYield)
  | .core => .next (s.issue .yield)

end Sys2Proof.Machine
end

