-- ==== Sys2Proof/Machine/System.lean ====
section
/-! DEFINITION. Class Z but for CTXSAVE and CTXLOAD: traps and their return, CSRs, markers, maintenance of translation and
keys, escalation, breakpoints and counters (13 R285 to R294; 22 R386, R388; 24 R409 to R411). -/

namespace Sys2Proof.Machine

/-! ### Traps, breakpoints, escalation (13 R285, R286) -/

def execTrap (c : BitVec 5) (s : State) : Out :=
  if s.opA.poison then .next (s.poisonFault useOther) else .next (s.slotFault 8 (c.setWidth 12) s.opA.val 0)

/-- TRET at commit: TRETD of a pending frame is set, or the command is refused with NOTRAP. -/
def State.commitTret (s : State) (a : Word) : State :=
  if s.ctx.susp.any (·.frame == a.toNat) then
    let s := s.touchWin a.toNat 1
    s.winPut a.toNat (s.winWord a.toNat ||| ((1 : Word) <<< 62)) (s.winPois a.toNat)
  else s.onCtx fun c => c.postRec (fault 0x094 0) (recInfo 7 1 0 0 0)
def execTret (s : State) : Out :=
  match s.who with
  | .cmd e => .next ((s.unqueue e).commitTret e.a.val)
  | .core =>
    let a := s.opA
    if a.poison then .next (s.poisonFault useOther)
    else if a.val.toNat % 64 ≠ 0 ∨ s.ctx.winSize ≤ a.val.toNat then .next (s.rangeFault a.val)
    else .next (s.issue .tret)

def State.commitEscal (s : State) (e : Eff) : State :=
  match e.ins with
  | .escal c => s.escalateOne e.blk (0, e.a.val, c, 11)
  | _ => s
def execEscal (c : BitVec 5) (s : State) : Out :=
  match s.who with
  | .cmd e => .next ((s.unqueue e).commitEscal e)
  | .core => if s.opA.poison then .next (s.poisonFault useOther) else .next (s.issue (.escal c))

/-- BRK: nothing with BRKOFF, PASS is cleared at commit, else a breakpoint (cause 0). -/
def execBrk (s : State) : Out :=
  if (s.seenReg .debug s.ctx.csr.debug).getLsbD 0 then .next s.quiet
  else if (s.seenReg .debug s.ctx.csr.debug).getLsbD 1 then .next ((s.onBlk fun b => { b with pass := true }).quiet)
  else .next (s.slotFault 0 0 0 0)

/-! ### CSRs (13 R287) -/

/-- A register as the block in focus reads it (21 R368). -/
def State.csrSeen (s : State) (r : Csr) : Word := (s.oldCsr r).getD (csrRead s.ctx s.tile r)
def execCsrr (r : Csr) (t0 : Cons) (s : State) : Out := .next (s.emit [(t0, tok (s.csrSeen r))])
def execCsrw (r : Csr) (s : State) : Out :=
  match s.who with
  | .cmd e => .next ((s.unqueue e).csrWrite r e.a.val)
  | .core => if s.opA.poison then .next (s.poisonFault useOther) else .next (s.issue (.csrw r))
def execCsrx (r : Csr) (t0 : Cons) (s : State) : Out :=
  match s.who with
  | .cmd e => .next ((s.unqueue e).csrWrite r e.a.val)
  | .core =>
    if s.opA.poison then .next (s.poisonFault useOther)
    else .next ((s.hold { slot := 0, ins := .csrx r none, a := s.opA }).emit [(t0, tok (s.csrSeen r))])

/-! ### Markers and counters (13 R290, R291) -/

def execLogm (code : BitVec 14) (s : State) : Out :=
  if s.opA.poison then .next (s.poisonFault useOther)
  else
    let r : LogRec := { type := 11, srcn := s.ctx.srcn, w1 := code.setWidth 64, w2 := s.opA.val, w3 := s.fir.blk.addr }
    .next ((s.tie s.fir.blk.cur r).quiet)

/-- PERF. Counters 4 and 5 count cycles that this model does not see: what they have gained since the latest read is free
(log 70). -/
def execPerf (k : BitVec 3) (t0 t1 : Cons) (s : State) : Out :=
  let s := if k = 4 ∨ k = 5 then s.drawn.onCsr fun c => { c with perf := modV c.perf k.toNat (· + s.freeVal) } else s
  let v := tok (s.ctx.csr.perf.getD k.toNat 0)
  .next (s.emit [(t0, v), (t1, v)])

/-! ### Commands of class Z (13 R272, R292 to R294) -/

/-- Issue of a command that its engine holds: poison and operands. -/
def issueSys (i : Instr) (bad : Option Word) (s : State) : Out :=
  if s.opA.poison || s.opB.poison then .next (s.poisonFault useOther)
  else match bad with
    | some w => .next (s.rangeFault w)
    | none => .next (s.issue i)
def zqPut (s : State) (e : Eff) (r : Option Eff) : State := s.onCtx fun c => { c with zq := replaceEff e r c.zq }
def zqDone (s : State) (e : Eff) (st : Word) : State := (zqPut s e none).sysDone e e.cw st
/-- A command of class Z or KILL: POP, then its application. -/
def sysStep (e : Eff) (run : State → State) (s : State) : State :=
  if e.started then run s
  else match s.popStart e with
    | some (.ok s) => zqPut s e (some { e with started := true, since := some s.ctx.now })
    | some (.error _) => zqDone s e (status sTIMEOUT 0 0)
    | none => s

/-- SPINV: entries of the space under the next generation go, then GEN takes it. -/
def applySpinv (e : Eff) (s : State) : State :=
  let sp : BitVec 16 := e.a.val.setWidth 16
  let k := s.dev.sptbase.toNat / 2 ^ 20 % 2 ^ 28 * 2 ^ 20 + 16 * sp.toNat
  let s := s.touch 0 k 8
  let w := s.mem.word k
  let g := (bitsN w 7 4 + 1) % 16
  let s := s.onDev fun d => { d with tlb := d.tlb.filter fun t => !(t.space == sp && t.gen.toNat == g) }
  zqDone (s.onMem fun m => m.setRaw k (w.toNat - bitsN w 7 4 * 16 + g * 16) 8) e stOK
def execSpinv (s : State) : Out :=
  match s.who with
  | .cmd e => .next (sysStep e (applySpinv e) s)
  | .core =>
    let a := s.opA.val
    let b := s.opB.val
    issueSys .spinv (if bitsN a 63 16 ≠ 0 then some a else if lowB b ≠ 0 then some b else none) s

def applyTlbinv (e : Eff) (s : State) : State :=
  let sp : BitVec 16 := e.b.val.setWidth 16
  let all := e.b.val.getLsbD 16
  let hit (t : TlbEnt) : Bool := t.space == sp && (all || t.vpn.toNat == e.a.val.toNat / 2 ^ t.lo)
  zqDone (s.onDev fun d => { d with tlb := d.tlb.filter (!hit ·) }) e stOK
def execTlbinv (s : State) : Out :=
  match s.who with
  | .cmd e => .next (sysStep e (applyTlbinv e) s)
  | .core =>
    let a := s.opA.val
    let b := s.opB.val
    issueSys .tlbinv (if bitsN a 63 56 ≠ 0 ∨ bitsN a 15 0 ≠ 0 then some a
      else if bitsN b 47 17 ≠ 0 then some b else none) s

/-- The context of the issuer's tile that a CTXID names. -/
def State.target (s : State) (a : Word) : Option Ctx :=
  if bitsN a 7 2 ≠ 0 then none else s.ctxAt s.ctx.id.tile (BitVec.ofNat 2 (bitsN a 1 0))
def stNOCTX : Word := fault 0x0A0 0
def applyKeysel (e : Eff) (s : State) : State :=
  match s.target e.a.val with
  | none => zqDone s e stNOCTX
  | some c =>
    zqDone (s.within c.id.uid fun s => s.onCsr fun r => { r with keyslot := keepBits (e.a.val >>> 8) 8 0 }) e stOK
def execKeysel (s : State) : Out :=
  match s.who with
  | .cmd e => .next (sysStep e (applyKeysel e) s)
  | .core =>
    let a := s.opA.val
    let b := s.opB.val
    issueSys .keysel (if bitsN a 63 17 ≠ 0 then some a else if lowB b ≠ 0 then some b else none) s

end Sys2Proof.Machine
end

