-- ==== Sys2Proof/Machine/Graph.lean ====
section
/-! DEFINITION. Launch queues and records, graph tables, placement, child graphs and actor sets (02 R32 to R39, R44, R46,
R50 to R57; 05 R128; 13 R281; 20 R359, R360; 21 R363 to R365, R376; 24 R409, R412). -/

namespace Sys2Proof.Machine

/-! ### Launch records (02 R50 to R53) -/

/-- A level descriptor (02 R51). -/
structure LevelD where
  domain : Nat
  scope : Nat
  policy : Nat
  count : Nat
  rw : Nat
  rh : Nat
  origin : Word
  astride : Word
deriving DecidableEq, Repr

def levelAt (r : Words) (i : Nat) : LevelD :=
  let a := wAt r (4 + 3 * i)
  { domain := bitsN a 3 0, scope := bitsN a 7 4, policy := bitsN a 11 8, count := bitsN a 31 16
    rw := bitsN a 39 32, rh := bitsN a 47 40, origin := wAt r (5 + 3 * i), astride := wAt r (6 + 3 * i) }
def recNlev (r : Words) : Nat := bitsN (wAt r 0) 15 8
def recLevels (r : Words) : List LevelD := (List.range (recNlev r)).map (levelAt r)
def recJob (r : Words) : BitVec 16 := BitVec.ofNat 16 (bitsN (wAt r 0) 47 32)
def recEgress (r : Words) : BitVec 6 := BitVec.ofNat 6 (bitsN (wAt r 3) 13 8)
def recEntry (r : Words) : Word := wAt r 1

/-- A fault at a word, by its detail (02 R53). -/
def faultIf (p : Bool) (w d : Nat) : List (Nat × Nat) := if p then [(w, d)] else []
/-- The least word at fault, and the least detail there (log 22). -/
def leastFault : List (Nat × Nat) → Option (Nat × Nat)
  | [] => none
  | x :: l => match leastFault l with
    | some y => if y.1 < x.1 || (y.1 == x.1 && y.2 < x.2) then some y else some x
    | none => some x

/-- Most instances of a level in a parent unit; `nm` modules in the partition (02 R52). -/
def countLimit (nm : Nat) (up : Option LevelD) (l : LevelD) : Nat :=
  let mods : Nat := match up with | none => nm | some u => if u.domain = 5 then nm else 1
  let whole : Bool := match up with | none => true | some u => 4 ≤ u.domain
  match l.domain with
  | 0 => 8
  | 1 => if whole then 256 * mods else match up with
    | some u => if u.domain = 2 then u.rw * u.rh else 64
    | none => 64
  | 2 => if whole then 256 * mods else 64
  | 3 => 4 * mods
  | _ => nm
/-- Least scope of a domain (02 R52). -/
def leastScope (d : Nat) : Nat := [4, 4, 5, 5, 6, 7].getD d 0
/-- The order of domains (02 R52). -/
def orderBad (last : Bool) (up : Option LevelD) (d : Nat) : Bool :=
  (match up with
    | none => d == 0
    | some u => u.domain < d || (u.domain == d && d != 2 && d != 5) || (d == 0 && u.domain != 1))
  || (d == 0 && !last)
/-- An ORIGIN carries fields that are not finer than the parent domain (02 R51). -/
def originBad (up : Option LevelD) (l : LevelD) : Bool :=
  bitsN l.origin 63 32 != 0 ||
    if l.policy != 2 || l.domain = 0 then l.origin != 0
    else match up with
      | none => false
      | some u => if u.domain = 5 then false else if u.domain = 4 then bitsN l.origin 31 8 != 0
                  else if u.domain = 1 then l.origin != 0 else bitsN l.origin 31 6 != 0

/-- What is wrong with level `i` (02 R51, R52). `child`: its level 0 is limited by the parent's unit (02 R57). -/
def levelFaults (nm : Nat) (child fabric : Bool) (r : Words) (i : Nat) : List (Nat × Nat) :=
  let l := levelAt r i
  let up := if i = 0 then none else some (levelAt r (i - 1))
  let w := 4 + 3 * i
  let a := wAt r w
  faultIf (bitsN a 63 48 != 0 || bitsN a 15 12 != 0) w 1
    ++ faultIf (5 < l.domain || orderBad (i + 1 == recNlev r) up l.domain) w 4
    ++ faultIf (9 < l.scope || l.scope < leastScope l.domain || (l.scope == 8 && !fabric) || (l.scope == 9 && l.domain == 5)) w 5
    ++ faultIf (2 < l.policy || (l.policy == 2 && l.domain == 2 && 1 < l.count)) w 6
    ++ faultIf (l.count == 0 || (!(child && i == 0) && countLimit nm up l < l.count)
        || (if l.domain = 2 then l.rw == 0 || 8 < l.rw || l.rh == 0 || 8 < l.rh else l.rw != 0 || l.rh != 0)) w 7
    ++ faultIf (originBad up l) (w + 1) 1
    ++ faultIf (bitsN l.astride 63 32 != 0 || (l.domain == 0 && l.astride != 0)) (w + 2) 1

/-- Everything that R50 to R53 find wrong with a record. When not exactly one level has DOMAIN 1 the word named is word a of the last
level: the spec does not say which word offends (log 118). -/
def recordFaults (nm : Nat) (child fabric : Bool) (r : Words) : List (Nat × Nat) :=
  let n := recNlev r
  let badN := n = 0 || 8 < n
  let w0 := wAt r 0
  let w3 := wAt r 3
  faultIf (bitsN w0 63 48 != 0 || bitsN w0 23 18 != 0) 0 1
    ++ faultIf (bitsN w0 7 0 != 1) 0 2
    ++ faultIf badN 0 3
    ++ faultIf (bitsN w0 31 24 == 0) 0 10
    ++ faultIf (bitsN (wAt r 1) 63 56 != 0) 1 1
    ++ faultIf (bitsN (wAt r 2) 63 56 != 0) 2 1
    ++ faultIf (bitsN w3 31 16 != 0 || bitsN w3 7 3 != 0 || bitsN w3 15 14 != 0 || bitsN w3 63 32 == 0) 3 1
    ++ (if badN then [] else
          (List.range n).flatMap (levelFaults nm child fabric r)
          ++ faultIf (((recLevels r).filter fun l => l.domain == 1).length != 1) (4 + 3 * (n - 1)) 4
          ++ (List.range (24 - 3 * n)).flatMap fun k => faultIf (wAt r (4 + 3 * n + k) != 0) (4 + 3 * n + k) 1)
    ++ (List.range 4).flatMap fun k => faultIf (wAt r (28 + k) != 0) (28 + k) 1

/-! ### Graph tables (02 R35 to R39) -/

def tabChans (h : Word) : Nat := bitsN h 24 16
def tabActs (h : Word) : Nat := bitsN h 8 0
def tabHeadOk (h : Word) : Bool :=
  bitsN h 63 25 == 0 && bitsN h 15 9 == 0 && tabChans h ≤ 256 && 1 ≤ tabActs h && tabActs h ≤ 256

def gchanOf (set : Nat) (w0 w1 : Word) : GChan :=
  { kind := BitVec.ofNat 3 w0.toNat, item := bitsN w0 15 8, cap := bitsN w0 31 16, loc := BitVec.ofNat 24 w1.toNat, set := set }
/-- A channel descriptor (02 R37, R39), in a window of `win` bytes. -/
def chanDescOk (win : Nat) (w0 w1 : Word) : Bool :=
  let g := gchanOf 0 w0 w1
  bitsN w0 63 32 == 0 && bitsN w0 7 3 == 0 && bitsN w1 63 24 == 0 &&
    match g.kind.toNat with
    | 0 => g.cap != 0 && g.item != 0 && g.loc.toNat % 64 == 0 && g.loc.toNat + 8 * g.item * g.cap ≤ win
    | 1 => g.cap == 0 && g.item == 0 && bitsN g.loc 23 13 == 0 && bitsN g.loc 7 6 == 0
    | 2 | 3 => g.cap == 0 && g.item == 0 && g.loc.toNat < 64
    | 4 => g.cap == 0 && g.item == 0 && g.loc.toNat < 16
    | _ => false

/-- Port `i` of a side whose words start at `base`. -/
def portWord (ws : Words) (base i : Nat) : Nat := (wAt ws (base + i / 2)).toNat / 2 ^ (32 * (i % 2)) % 2 ^ 32
def gports (ws : Words) (base n off : Nat) : List GPort :=
  (List.range n).map fun i => { chan := off + portWord ws base i % 256, rate := portWord ws base i / 256 % 65536 }
/-- An actor from its 16 words; `off`: index of the first channel of its table. -/
def actorOf (set off : Nat) (ws : Words) : Actor :=
  let w1 := wAt ws 1
  { entry := wAt ws 0, fmax := bitsN w1 63 32, weight := bitsN w1 15 8, prio := BitVec.ofNat 2 w1.toNat
    nstate := bitsN w1 22 16, stateoff := bitsN (wAt ws 2) 23 0
    ins := gports ws 3 (bitsN w1 27 24) off, outs := gports ws 7 (bitsN w1 31 28) off, set := set }
/-- The ports of a side: those in use in range, the others zero. -/
def portsOk (nchan : Nat) (ws : Words) (base n : Nat) : Bool :=
  (List.range 8).all fun i =>
    let p := portWord ws base i
    if i < n then p / 2 ^ 24 == 0 && p / 256 % 65536 != 0 && p % 256 < nchan else p == 0
/-- An actor descriptor (02 R38, R39). -/
def actorDescOk (nchan : Nat) (chans : List GChan) (ws : Words) : Bool :=
  let w0 := wAt ws 0
  let w1 := wAt ws 1
  let a := actorOf 0 0 ws
  bitsN w0 63 56 == 0 && bitsN w0 1 0 == 0 && a.fmax != 0 && bitsN w1 31 28 ≤ 8 && bitsN w1 27 24 ≤ 8
    && bitsN w1 23 23 == 0 && a.nstate ≤ 64 && a.weight != 0 && bitsN w1 7 2 == 0
    && bitsN (wAt ws 2) 63 24 == 0 && a.stateoff % 8 == 0
    && portsOk nchan ws 3 (bitsN w1 27 24) && portsOk nchan ws 7 (bitsN w1 31 28)
    && (List.range 5).all (fun k => wAt ws (11 + k) == 0)
    && (a.ins.all fun p => let g := chans.getD p.chan {}
        g.kind != 3 && (g.kind != 0 || p.rate ≤ g.cap))
    && (a.outs.all fun p => let g := chans.getD p.chan {}
        g.kind != 2 && g.kind != 4)

/-- Two descriptors name one host channel, message ring or collar port (02 R33, 20 R353). -/
def sameChan (g h : GChan) : Bool := g.kind == h.kind && g.kind != 0 && g.loc == h.loc
/-- Producers and consumers among the actors (02 R33); descriptors that name one channel count together. An actor that names a
channel on two of its own ports is one producer or consumer: the model's choice (log 110). -/
def chanUsesOk (chans : List GChan) (acts : List Actor) (i : Nat) (g : GChan) : Bool :=
  let mine (p : GPort) : Bool := p.chan == i || sameChan g (chans.getD p.chan {})
  let cons := (acts.filter fun a => a.ins.any mine).length
  let prod := (acts.filter fun a => a.outs.any mine).length
  match g.kind.toNat with
  | 0 => cons == 1 && prod == 1
  | 1 => cons + prod == 1
  | 3 => prod == 1
  | _ => cons == 1

def chunk (ws : Words) (at_ n : Nat) : Words := (ws.drop at_).take n
/-- A table: header and the words behind it, in a window of `win` bytes (02 R39). -/
def tableOk (win : Nat) (h : Word) (ws : Words) : Bool :=
  let nc := tabChans h
  let chans := (List.range nc).map fun i => gchanOf 0 (wAt ws (2 * i)) (wAt ws (2 * i + 1))
  let act (k : Nat) : Words := chunk ws (2 * nc + 16 * k) 16
  let acts := (List.range (tabActs h)).map fun k => actorOf 0 0 (act k)
  tabHeadOk h
    && (List.range nc).all (fun i => chanDescOk win (wAt ws (2 * i)) (wAt ws (2 * i + 1)))
    && (List.range (tabActs h)).all (fun k => actorDescOk nc chans (act k))
    && (chans.zipIdx).all fun (g, i) => chanUsesOk chans acts i g
/-- The first descriptor of the channel that descriptor `i` names (log 110). -/
def firstDesc (chans : List GChan) (i : Nat) : Nat :=
  match chans[i]? with
  | some g => (firstIdx (sameChan g) (chans.take i) 0).getD i
  | none => i
/-- The channels and actors of a table, its channels from index `off` on; descriptors that name one channel are its first one. -/
def tableParts (set off : Nat) (h : Word) (ws : Words) : List GChan × List Actor :=
  let chans := (List.range (tabChans h)).map fun i => gchanOf set (wAt ws (2 * i)) (wAt ws (2 * i + 1))
  let fix (p : GPort) : GPort := { p with chan := off + firstDesc chans p.chan }
  (chans, (List.range (tabActs h)).map fun k =>
    let a := actorOf set 0 (chunk ws (2 * tabChans h + 16 * k) 16)
    { a with ins := a.ins.map fix, outs := a.outs.map fix })
def tabLen (h : Word) : Nat := 2 * tabChans h + 16 * tabActs h

/-- Reads a table: header and words, or none when it is rejected (02 R35, 04 R448). One that cannot be read through SPACE is
rejected too: the spec names a status for an unreadable record only (log 118). -/
def readTable (w : Who) (win : Nat) (va : Word) (s : State) : Option (Word × Words) × State :=
  if va.toNat % 8 ≠ 0 then (none, s)
  else match readGot w 1 0 va s with
    | (.ok hd, s) =>
      let h := wAt hd 0
      if !tabHeadOk h then (none, s)
      else match readGot w (tabLen h) 1 (va + 8) s with
        | (.ok ws, s) => (if tableOk win h ws then some (h, ws) else none, s)
        | (_, s) => (none, s)
    | (_, s) => (none, s)

/-! ### Units and policies (02 R54) -/

/-- The tile of a rectangle of one tile. -/
def Rect.tile (r : Rect) : Nat := 64 * r.die + 8 * r.y + r.x
def Rect.overlaps (r t : Rect) : Bool :=
  r.die == t.die && r.x < t.x + t.w && t.x < r.x + r.w && r.y < t.y + t.h && t.y < r.y + r.h
def zoneOverlaps (u v : List Rect) : Bool := u.any fun r => v.any r.overlaps
def Rect.whole (r : Rect) : Bool := r.w == 8 && r.h == 8
/-- The module as its four dies. -/
def moduleZone : List Rect := (List.range 4).map fun d => ⟨d, 0, 0, 8, 8⟩
/-- The dies of a partition of `nm` modules. -/
def partitionZone (nm : Nat) : List Rect := (List.range (4 * nm)).map fun d => ⟨d, 0, 0, 8, 8⟩
/-- A zone cut into pieces of `n` rectangles, the rest left out. -/
def pieces {α : Type} (n : Nat) (z : List α) : List (List α) := (List.range (z.length / n)).map fun m => (z.drop (n * m)).take n
/-- The units of a level in a zone, in order; a module group holds `grp` modules. -/
def unitsIn (grp : Nat) (l : LevelD) (z : List Rect) : List (List Rect) :=
  let sub (w h : Nat) : List (List Rect) := z.flatMap fun r =>
    (List.range (r.h + 1 - h)).flatMap fun j => (List.range (r.w + 1 - w)).map fun i => [⟨r.die, r.x + i, r.y + j, w, h⟩]
  match l.domain with
  | 1 => sub 1 1
  | 2 => sub l.rw l.rh
  | 3 => (z.filter (·.whole)).map fun r => [r]
  | 5 => if z.all (·.whole) then pieces (4 * grp) z else []
  | _ => if z.all (·.whole) then pieces 4 z else []

/-- Where an instance goes: its tile, its indices from the outermost level on, its innermost rectangle. -/
structure Spot where
  tile : Nat
  idx : List Nat
  rect : Option Rect
deriving DecidableEq, Repr

/-- PACK: instance `k` takes the first unit left that it fits. A unit above a tile is free when the levels below find room in it,
even when tiles of it are busy: the model's choice (log 118). -/
def pickFirst (sub : List Rect → Nat → Option (List Spot)) (n : Nat) :
    List (List Rect) → Nat → List Rect → Option (List Spot)
  | [], k, _ => if n ≤ k then some [] else none
  | u :: us, k, taken =>
    if n ≤ k then some []
    else if zoneOverlaps u taken then pickFirst sub n us k taken
    else match sub u k with
      | none => pickFirst sub n us k taken
      | some sp => (pickFirst sub n us (k + 1) (u ++ taken)).map (sp ++ ·)
/-- SPREAD and FIXED: instance `k` goes to a given unit, which must be free. -/
def pickAt (sub : List Rect → Nat → Option (List Spot)) (unit : Nat → Option (List Rect)) :
    List Nat → List Rect → Option (List Spot)
  | [], _ => some []
  | k :: ks, taken =>
    match unit k with
    | none => none
    | some u =>
      if zoneOverlaps u taken then none
      else match sub u k with
        | none => none
        | some sp => (pickAt sub unit ks (u ++ taken)).map (sp ++ ·)
/-- The unit that ORIGIN names; `own`: the module of die 0 of the zone. A parent below the partition fixes the module, and one
within a die the die. -/
def originUnit (own : Nat) (up : Option LevelD) (l : LevelD) (us : List (List Rect)) : Option Nat :=
  let far : Bool := match up with | none => true | some u => u.domain == 5
  let anyDie : Bool := match up with | none => false | some u => u.domain ≤ 3
  let o := l.origin
  firstIdx (fun u => match u with
    | r :: _ => (!far || own + r.die / 4 == bitsN o 31 8)
        && (l.domain ≥ 4 || ((anyDie || r.die % 4 == bitsN o 7 6) && (l.domain == 3 || (r.x == bitsN o 2 0 && r.y == bitsN o 5 3))))
    | [] => false) us 0

/-- Places the levels in a zone: the spots of every instance, in order of their linear index, or none. A module group, of which the
spec gives no shape, holds the fewest modules that its levels need: the model's choice (log 77). -/
def placeIn (own : Nat) (ok : Nat → Bool) : Option LevelD → List LevelD → Option Rect → List Rect → Option (List Spot)
  | _, [], _, _ => some []
  | up, l :: ls, rc, z =>
    let grp := if l.domain = 5 then
        ((List.range (z.length / 4 + 1)).find? fun n =>
          (placeIn own (fun _ => true) (some l) ls none (z.take (4 * n))).isSome).getD (z.length / 4 + 1)
      else 1
    let us := unitsIn (Nat.max 1 grp) l z
    let sub (u : List Rect) (k : Nat) : Option (List Spot) :=
      (if l.domain = 1 then
        match u with
        | r :: _ => if ok r.tile then some [⟨r.tile, [], rc⟩] else none
        | [] => none
      else placeIn own ok (some l) ls (if l.domain = 2 then u.head? else rc) u).map fun sp =>
        sp.map fun x => { x with idx := k :: x.idx }
    match l.policy with
    | 0 => pickFirst sub l.count us 0 []
    | 1 => pickAt sub (fun k => us[k * us.length / l.count]?) (List.range l.count) []
    | _ => pickAt sub (fun k => (originUnit own up l us).bind fun i => us[i + k]?) (List.range l.count) []

/-! ### Resources of a tile (02 R44, R46, 21 R364, R365) -/

def State.onTileN (s : State) (t : Nat) : List Ctx := s.allCtxs.filter fun c => c.id.tile.toNat == t
/-- Actor descriptors a context occupies, those reserved by SPAWN included (13 R281). -/
def Ctx.descriptors (c : Ctx) : Nat :=
  (c.graph.actors.filter (!·.free)).length
    + (c.sync.children.toList.map fun k => if k.isOpen && !k.placed then k.set.getD 0 else 0).sum
def State.freeDescs (s : State) (t : Nat) : Nat := 256 - ((s.onTileN t).map (·.descriptors)).sum
/-- Rows of a window in every bank. -/
def winRows (wlog : BitVec 2) : Nat := 2 ^ (9 + wlog.toNat)
/-- What waiting CTXLOADs hold on a tile: CTXID, first row and size of a window range (22 R396). -/
def State.claims (s : State) (t : Nat) : List (Nat × Nat × BitVec 2) :=
  (s.onTileN t).flatMap fun c => c.zq.filterMap fun e => match e.ins, e.ws with
    | .ctxload, row :: wlog :: _ => some (bitsN e.a.val 7 0, row.toNat, wlog.setWidth 2)
    | _, _ => none
/-- The lowest free window range of a tile. -/
def State.freeRow (s : State) (t : Nat) (wlog : BitVec 2) : Option Nat :=
  let n := winRows wlog
  ((List.range (4096 / n)).map (· * n)).find? fun r =>
    ((s.onTileN t).map (fun c => (c.id.row, c.id.wlog)) ++ (s.claims t).map (·.2)).all fun x =>
      x.1 + winRows x.2 ≤ r || r + n ≤ x.1
def State.freeNum (s : State) (t : Nat) : Option Nat :=
  (List.range 4).find? fun k => !((s.onTileN t).any fun c => c.id.num.toNat == k) && !(s.claims t).any (·.1 == k)
/-- Firing slots of a tile that no instance has reserved. -/
def State.freeSlots (s : State) (t : Nat) : List Nat :=
  (List.range 8).filter fun k => !(s.onTileN t).any fun c => c.graph.slots.contains k
/-- The slots that an instance reserves among those free, by the policy of its firing-slot level: slot ⌊8k ÷ COUNT⌋ for SPREAD
and k for FIXED; one slot without such a level (02 R44, R54). -/
def pickSlots (ls : List LevelD) (free : List Nat) : Option (List Nat) :=
  match ls.find? (·.domain == 0) with
  | none => free.head?.map fun k => [k]
  | some l =>
    let want := match l.policy with
      | 0 => free.take l.count
      | 1 => (List.range l.count).map fun k => 8 * k / l.count
      | _ => List.range l.count
    if want.length = l.count && want.all free.contains then some want else none
/-- A tile has room for an instance. -/
def State.tileFree (s : State) (wlog : BitVec 2) (nact : Nat) (ls : List LevelD) (t : Nat) : Bool :=
  (s.freeNum t).isSome && (s.freeRow t wlog).isSome && nact ≤ s.freeDescs t && (pickSlots ls (s.freeSlots t)).isSome

/-- Zeroes a window range in every bank and clears its poison (21 R365). -/
def zeroWindow (tile : BitVec 8) (row : Nat) (wlog : BitVec 2) (m : Memory) : Memory :=
  (List.range 32).foldl (fun m b => m.zero (spadKey tile ((b * 4096 + row) * 64)) (winRows wlog * 64)) m

/-- Writes the placement entry of an index (21 R376). -/
def State.putEntry (s : State) (job : BitVec 16) (i : Nat) (w : Word) : State :=
  match s.dev.slotOf job with
  | none => s
  | some j => s.memPut (s.dev.placeKey j i) w false
/-- The dies among which a launch is placed: those of the partition, or of a module on its own (02 R54). -/
def Dev.zone (d : Dev) : List Rect := if 1 < d.modules then partitionZone d.modules else moduleZone
/-- The module of die 0 of that zone, and the place of this module in it. -/
def State.zoneOwn (s : State) : Nat := if 1 < s.dev.modules then 0 else s.tile.module.toNat
def State.zoneHome (s : State) : Nat := if 1 < s.dev.modules then s.tile.module.toNat else 0
def placeWord (module : BitVec 24) (tile : BitVec 8) : Word :=
  BitVec.ofNat 64 (2 ^ 63 + module.toNat * 256 + tile.toNat)

/-! ### Creating the contexts of a launch -/

/-- Linear index (02 R58). -/
def linearIdx : List Nat → List LevelD → Nat
  | i :: is, _ :: ls => i * ((ls.filter (·.domain != 0)).map (·.count)).prod + linearIdx is ls
  | _, _ => 0
def idxField (idx : List Nat) (lo : Nat) : Word :=
  BitVec.ofNat 64 ((List.range 4).foldl (fun n k => n + idx.getD (lo + k) 0 % 65536 * 2 ^ (16 * k)) 0)
def largsOf (args : Word) (idx : List Nat) (ls : List LevelD) : Word :=
  (idx.zip ls).foldl (fun a (i, l) => a + BitVec.ofNat 64 i * l.astride) args

/-- The context of one instance (21 R364, 02 R55). -/
def newCtx (p : Pending) (uid num row : Nat) (slots : List Nat) (module : BitVec 24) (chans : List GChan)
    (acts : List Actor) (sp : Spot) : Ctx :=
  let v (i : Nat) : Word := wAt p.prof i
  let ls := recLevels p.record
  let w0 := wAt p.record 0
  { id := { uid := uid, present := true, tile := BitVec.ofNat 8 sp.tile, num := BitVec.ofNat 2 num
            sup := v 5 != 0, side := (v 6).setWidth 8, job := p.job, wlog := (v 7).setWidth 2, row := row
            launch := p.launch, index := linearIdx sp.idx ls, home := module ++ BitVec.ofNat 8 sp.tile, rect := sp.rect }
    csr := { lposa := idxField sp.idx 0, lposb := idxField sp.idx 4
             largs := largsOf (wAt p.record 2) sp.idx ls
             space := v 0, keyslot := v 1, bkey := v 2, dceil := v 3, escn := v 4
             fixord := ofBool 64 p.fixo, loglim := ofBool 64 p.loge <<< 63 }
    graph := { chans := chans.map fun g => if g.kind = 0 then { g with marks := [(0, none)] } else g
               actors := acts, segmax := bitsN (wAt p.record 3) 63 32, weight := bitsN w0 31 24
               prio := BitVec.ofNat 2 (bitsN w0 17 16), slots := slots, unlogged := p.loge } }

/-- Creates one instance; of one in another module only the placement entry stands here (log 77). -/
def State.create (p : Pending) (chans : List GChan) (acts : List Actor) (s : State) (sp : Spot) : State :=
  let wlog : BitVec 2 := (wAt p.prof 7).setWidth 2
  if sp.tile / 256 ≠ s.zoneHome then
    s.putEntry p.job (linearIdx sp.idx (recLevels p.record)) (placeWord (BitVec.ofNat 24 (sp.tile / 256)) (BitVec.ofNat 8 sp.tile))
  else match s.freeNum (sp.tile % 256), s.freeRow (sp.tile % 256) wlog with
  | some num, some row =>
    let t : BitVec 8 := BitVec.ofNat 8 sp.tile
    let m := (s.tileOf t).module
    let c := newCtx p s.dev.nextUid num row ((pickSlots (recLevels p.record) (s.freeSlots t.toNat)).getD []) m chans acts sp
    let s := s.onMem (zeroWindow t row wlog)
    let s := { s with ctxs := s.ctxs ++ [c] }
    let s := s.onDev fun d => { d with
      nextUid := d.nextUid + 1
      launches := d.launches.map fun l => if l.num = p.launch then { l with uids := l.uids ++ [c.id.uid] } else l }
    s.putEntry p.job c.id.index (placeWord m t)
  | _, _ => s

/-- The ALLOC record of a placement (24 R409). -/
def placeRec (c : Ctx) : LogRec := { type := 2, srcn := c.srcn, w2 := c.csr.lposa, w3 := c.csr.lposb }
/-- The context in focus writes the ALLOC record of its placement, if that is still to be done (24 R412). -/
def State.logPlacement (s : State) : State :=
  if s.ctx.graph.unlogged then
    s.logged (placeRec s.ctx) false allBits fun s => s.onCtx fun c => { c with graph := { c.graph with unlogged := false } }
  else s

/-! ### Rejections and reports (02 R53, 20 R360) -/

/-- A child handle of a context keeps a rejection (13 R281). -/
def State.rejectChild (s : State) (uid h : Nat) (st : Word) : State :=
  s.within uid fun s => s.onSync fun y => { y with children := modV y.children h fun c => { c with rejected := some st } }
/-- A context, resident or saved. -/
def State.anyCtx (s : State) (uid : Nat) : Option Ctx :=
  (s.allCtxs ++ s.dev.saved.map (·.ctx)).find? (·.id.uid == uid)
def State.rejectPending (s : State) (p : Pending) (st : Word) : State :=
  match p.parent with
  | some (u, h) => s.rejectChild u h st
  | none => s.putOut (recEgress p.record) (statusTok st p.job [])

/-- EGRESS, below 64, names an enabled egress channel of the record's job (20 R360). -/
def State.egressOk (s : State) (r : Words) : Bool :=
  let h := s.dev.hch.getD (recEgress r).toNat {}
  bitsN (wAt r 3) 15 14 == 0 && h.ctl.getLsbD 0 && bitsN h.ctl 2 1 == 2 && bitsN h.ctl 47 32 == (recJob r).toNat

/-! ### Profiles (21 R363) -/

/-- The key of a profile. -/
def Dev.profKeyOf (d : Dev) (p : Nat) : Nat := d.profbase.toNat / 2 ^ 13 % 2 ^ 35 * 2 ^ 13 + 32 * p
/-- The words of a profile; whether one is poisoned. -/
def State.profile (s : State) (p : Nat) : Words × Bool :=
  let k := s.dev.profKeyOf p
  ((List.range 4).map fun i => s.mem.word (k + 8 * i), (List.range 4).any fun i => s.mem.poisoned (k + 8 * i))
def profSpace (w : Words) : BitVec 16 := (wAt w 0).setWidth 16
def profKey (w : Words) : BitVec 9 := BitVec.ofNat 9 (bitsN (wAt w 0) 24 16)
def profSide (w : Words) : BitVec 8 := BitVec.ofNat 8 (bitsN (wAt w 0) 55 48)
def profSup (w : Words) : Bool := (wAt w 0).getLsbD 28
/-- The profile may be used by a queue. -/
def State.profileOk (s : State) (supq : Bool) (w : Words) : Bool :=
  let w0 := wAt w 0
  bitsN w0 63 56 == 0 && profSide w != 255 && bitsN w0 47 44 == 0 && bitsN w0 31 29 == 0 && bitsN w0 25 25 == 0
    && !(wAt w 1).getLsbD 63 && bitsN (wAt w 2) 63 16 == 0 && wAt w 3 == 1
    && !(profSup w && !supq)
    && match s.dev.spaceEntry s.mem (profSpace w) with
      | none => false
      | some e => profSup w || !e.getLsbD 3
/-- What the contexts of a launch take from the profile. -/
def profValues (w : Words) : Words :=
  let w0 := wAt w 0
  let ceil := bitsN (wAt w 1) 62 0
  [(profSpace w).setWidth 64, (profKey w).setWidth 64, BitVec.ofNat 64 (bitsN w0 43 32),
   BitVec.ofNat 64 (if ceil < 16 then 16 else ceil), BitVec.ofNat 64 (bitsN (wAt w 2) 15 0), ofBool 64 (profSup w),
   (profSide w).setWidth 64, BitVec.ofNat 64 (bitsN w0 27 26)]

/-! ### LAUNCH_TOKEN_CONSUME (20 R359) -/

/-- The zone of a child's level 0 within the unit of the spawning context (02 R57). Where no level of the parent has that
DOMAIN, the model takes the unit of that DOMAIN around its tile: the rectangle is then the die; a module group is the partition (log
110). -/
def State.childZone (s : State) (c : Ctx) (d : Nat) : List Rect :=
  let t := c.id.tile.toNat
  let home := 4 * s.zoneHome
  let die : Rect := ⟨home + t / 64, 0, 0, 8, 8⟩
  match d with
  | 1 => [⟨home + t / 64, t % 8, t / 8 % 8, 1, 1⟩]
  | 2 => [(c.id.rect.map fun r => { r with die := home + r.die % 4 }).getD die]
  | 3 => [die]
  | 4 => (List.range 4).map fun d => ⟨home + d, 0, 0, 8, 8⟩
  | _ => s.dev.zone

/-- The record fits an empty partition (02 R53 NOFIT). -/
def State.recordFits (s : State) (r : Words) (z : List Rect) : Bool :=
  (placeIn s.zoneOwn (fun _ => true) none (recLevels r) none z).isSome

/-- The front-end takes the token word of launch queue `c`. A record that does not fit names word 4, its first level: the
model's choice (log 110). -/
def State.launchToken (s : State) (c : BitVec 6) (val : Word) : State :=
  let ctl := (s.dev.hch.getD c.toNat {}).ctl
  let supq := ctl.getLsbD 26
  let s := s.touch 0 (s.dev.profKeyOf (bitsN ctl 55 48)) 32
  let (pw, pp) := s.profile (bitsN ctl 55 48)
  let s := s.touch 0 (s.dev.spaceKey (profSpace pw)) 16
  let good := !pp && s.profileOk supq pw
  let unread := s.putOut 0 (statusTok (fault 0x00B 0) 0 [])
  if val.toNat % 64 ≠ 0 ∨ bitsN val 63 56 ≠ 0 then unread
  else
    let w := s.whoAt (BitVec.ofNat 2 (bitsN ctl 28 27)) (profSide pw) (profSpace pw) (profKey pw)
    match readGot w 32 0 val s with
    | (.ok r, s) =>
      let nm := s.dev.modules
      let egr := s.egressOk r
      let base := recordFaults nm false supq r ++ faultIf (!good) 0 12 ++ faultIf (!egr) 3 1
      let all := if base.isEmpty then faultIf (!s.recordFits r s.dev.zone) 4 8 else base
      match leastFault all with
      | some (i, d) => s.putOut (if egr then recEgress r else 0) (statusTok (fault d i) (recJob r) [])
      | none => s.onDev fun d => { d with
          nextLaunch := d.nextLaunch + 1
          pending := d.pending ++ [{
            launch := d.nextLaunch, queue := some c, record := r, job := recJob r, barr := (wAt r 3).getLsbD 0
            prof := profValues pw, fixo := (wAt r 3).getLsbD 1, loge := (wAt r 3).getLsbD 2 }] }
    | (_, s) => s.putOut 0 (statusTok (fault 0x00B 0) 0 [])

/-- The front-end of a launch queue takes its next token once the record before it has been placed. -/
def execLaunchTokenConsume (c : BitVec 6) (s : State) : Out :=
  let h := s.dev.hch.getD c.toNat {}
  match h.ready with
  | [] => .next s
  | (v, _) :: l =>
    if bitsN h.ctl 2 1 ≠ 3 ∨ s.dev.pending.any (fun p => p.queue == some c) then .next s
    else .next ((s.onDev fun d => { d with
      hch := modV d.hch c.toNat fun h => { h with ready := l, head := h.head + 1, irqs := if h.ctl.getLsbD 3 then h.irqs + 1 else h.irqs } }).launchToken
        c v)

/-! ### PLACEMENT (02 R54, R56) -/

/-- Task queues: the first waiting record of its queue, behind a barrier only when every earlier task has ended. -/
def State.turnOf (s : State) (n : Nat) (p : Pending) : Bool :=
  match p.queue with
  | none => true
  | some q => !((s.dev.pending.take n).any fun x => x.queue == some q)
      && !(p.barr && s.dev.launches.any fun l => l.queue == some q)
/-- The spots of a pending launch, when everything it needs is free now. Whether a tile of another module has room is not held
here: `Config.farRoom` at each try (log 77). -/
def State.spots (s : State) (p : Pending) (nact : Nat) (z : List Rect) : Option (List Spot) :=
  let ls := recLevels p.record
  let wlog : BitVec 2 := (wAt p.prof 7).setWidth 2
  let ok (t : Nat) : Bool := if t / 256 = s.zoneHome then s.tileFree wlog nact ls (t % 256) else Config.farRoom s.freeCtr t
  if (s.dev.jobSlot p.job).isNone then none else placeIn s.zoneOwn ok none ls none z
/-- Who reads for the contexts of a pending launch. -/
def State.whoPending (s : State) (p : Pending) : Who :=
  let die : BitVec 2 := match p.parent with
    | some (u, _) => ((s.anyCtx u).map fun c => BitVec.ofNat 2 (tDie c.id.tile)).getD 0
    | none => ((p.queue.map fun q => BitVec.ofNat 2 (bitsN (s.dev.hch.getD q.toNat {}).ctl 28 27))).getD 0
  s.whoAt die ((wAt p.prof 6).setWidth 8) ((wAt p.prof 0).setWidth 16) ((wAt p.prof 1).setWidth 9)
/-- Takes the job slot of a launch that starts. -/
def State.takeJob (s : State) (job : BitVec 16) : State :=
  match s.dev.slotOf job, s.dev.jobSlot job with
  | none, some j => s.onDev fun d => { d with jobs := modV d.jobs j fun _ => { job := job, active := true } }
  | _, _ => s

/-- The launch starts: its contexts are created on their tiles. -/
def State.startLaunch (s : State) (n : Nat) (p : Pending) (chans : List GChan) (acts : List Actor) (sps : List Spot) :
    State :=
  let s := s.takeJob p.job
  let l : Launch := { num := p.launch, queue := p.queue, job := p.job, egress := recEgress p.record, instances := sps.length
                      parent := p.parent }
  let s := s.onDev fun d => { d with pending := d.pending.eraseIdx n, launches := d.launches ++ [l] }
  let first := s.dev.nextUid
  let s := sps.foldl (State.create p chans acts) s
  (List.range (s.dev.nextUid - first)).foldl (fun s k => s.within (first + k) State.logPlacement) s

/-- PLACEMENT of pending launch `n`: all or nothing; a record whose table is rejected is rejected. -/
def execPlacement (n : Nat) (s : State) : Out :=
  match s.dev.pending[n]? with
  | none => .next s
  | some p =>
    if !s.turnOf n p then .next s
    else
      let wlog : BitVec 2 := (wAt p.prof 7).setWidth 2
      let w := s.whoPending p
      match readTable w (winSize wlog) (recEntry p.record) s with
      | (none, s') =>
        .next ((s'.onDev fun d => { d with pending := d.pending.eraseIdx n }).rejectPending p (fault 9 1))
      | (some (h, ws), s') =>
        let z : List Rect := match p.parent with
          | some (u, _) => ((s.anyCtx u).map fun c => s.childZone c (levelAt p.record 0).domain).getD s.dev.zone
          | none => s.dev.zone
        let drawn (s : State) : State := if 1 < s.dev.modules then s.drawn else s
        match s'.spots p (tabActs h) z with
        | none => .next (drawn s)
        | some sps =>
          let (chans, acts) := tableParts 0 0 h ws
          .next (drawn (s'.startLaunch n p chans acts sps))

/-! ### SPAWN (13 R281, 02 R57) -/

/-- What a child graph takes from its parent (21 R364). -/
def Ctx.childProf (c : Ctx) : Words :=
  [c.csr.space, c.csr.keyslot, c.csr.bkey, c.csr.dceil, c.csr.escn, ofBool 64 c.id.sup, c.id.side.setWidth 64,
   c.id.wlog.setWidth 64]
/-- A child graph is handed to the front-end. -/
def State.spawnGraph (s : State) (h : Nat) (va : Word) (w : Who) : State :=
  let c := s.ctx
  match readGot w 32 0 va s with
  | (.ok r, s) =>
    let nm := s.dev.modules
    match leastFault (recordFaults nm true false r) with
    | some (i, d) => s.rejectChild c.id.uid h (fault d i)
    | none =>
      if !s.recordFits r (s.childZone c (levelAt r 0).domain) then s.rejectChild c.id.uid h (fault 8 0)
      else
        let n := s.dev.nextLaunch
        (s.onDev fun d => { d with
          nextLaunch := n + 1
          pending := d.pending ++ [{ launch := n, queue := none, record := r, job := recJob r, barr := false
                                     prof := c.childProf, parent := some (c.id.uid, h), fixo := c.csr.fixord.getLsbD 0
                                     loge := c.csr.loglim.getLsbD 63 }] }).onSync fun y =>
            { y with children := modV y.children h fun k => { k with launch := some n } }
  | (_, s) => s.rejectChild c.id.uid h (fault 0x00B 0)
/-- A child actor set joins the context and its open segment. A rejection keeps word 1, and the descriptors that SPAWN has
reserved stay so while the handle is open: the model's choices (log 110). A host channel, ring or collar port that the graph
has already gets no second user (02 R33). -/
def State.spawnSet (s : State) (h : Nat) (va head : Word) (w : Who) : State :=
  let c := s.ctx
  match readGot w (tabLen head) 1 (va + 8) s with
  | (.ok ws, s) =>
    let (chans, acts) := tableParts (h + 1) c.graph.chans.length head ws
    if tabHeadOk head && tableOk c.winSize head ws && chans.all (fun g => !c.graph.chans.any (sameChan g)) then
      s.onCtx fun c => { c with
        graph := { c.graph with chans := c.graph.chans ++ chans, actors := c.graph.actors ++ acts }
        sync := { c.sync with children := modV c.sync.children h fun k => { k with placed := true } } }
    else s.rejectChild c.id.uid h (fault 9 1)
  | (_, s) => s.rejectChild c.id.uid h (fault 9 1)
def State.commitSpawn (s : State) (e : Eff) : State :=
  let h := (e.ws.getD 0 0).toNat
  let w := s.whoOf e.space e.keyslot
  if (s.ctx.sync.children.getD h {}).killed.isSome then s else
  match e.ins with
  | .spawn false .. => s.spawnGraph h e.a.val w
  | .spawn true .. => s.spawnSet h e.a.val (e.ws.getD 1 0) w
  | _ => s

/-- SPAWN at issue, once the header word of a table is read. -/
def State.spawnIssue (s : State) (set : Bool) (head : Word) (t0 t1 : Cons) : State :=
  let full := tok (status sFULL 0 0)
  match firstIdx (fun k => !k.isOpen) s.ctx.sync.children.toList 0 with
  | none => s.emit [(t0, full), (t1, full)]
  | some h =>
    if set && s.freeDescs s.ctx.id.tile.toNat < tabActs head then s.emit [(t0, full), (t1, full)]
    else
      let k : Child := { isOpen := true, set := if set then some (tabActs head) else none }
      let st := tok (status 0 0 h)
      let s := s.onSync fun y => { y with children := setV y.children h k }
      let s := s.onBlk fun b => { b with spawned := b.spawned ++ [BitVec.ofNat 6 h] }
      (s.hold { slot := 0, ins := .spawn set none none, a := s.opA, ws := [BitVec.ofNat 64 h, head] }).emit [(t0, st), (t1, st)]

def execSpawn (set : Bool) (t0 t1 : Cons) (s : State) : Out :=
  match s.who with
  | .cmd e => .next ((s.unqueue e).commitSpawn e)
  | .core =>
    let a := s.opA
    if a.poison then .next (s.poisonFault useOther)
    else if bitsN a.val 63 56 ≠ 0 ∨ a.val.toNat % (if set then 8 else 64) ≠ 0 then .next (s.rangeFault a.val)
    else if !set then .next (s.spawnIssue false 0 t0 t1)
    else match s.place .global .rd a.val 8 with
      | (.error r, s) => .next (s.refuse r .rd)
      | (.ok (.ctl ..), s) => .next (s.accessFault dPERM a.val Access.rd.code)
      | (.ok l, s') =>
        let waits : Bool := match l with | .mem k => s.updateWaits k | _ => false
        if waits then .next s
        else
          let s := match l with | .mem k => s'.touch a.val k 8 | _ => s'
          let (v, p) := s.valueAt s.seen l 8
          if p then .next (s.poisonFault useOther) else .next (s.spawnIssue true (BitVec.ofNat 64 v) t0 t1)

end Sys2Proof.Machine
end

