-- ==== Sys2Proof/Machine/Segments.lean ====
section
/-! DEFINITION. Segments of a graph instance, their scheduler, completion, and the end of an instance (02 R34, R47 to R49,
R57 to R59; 04 R107; 05 R128, R130; 10 R211, R223; 14 R309; 20 R360; 24 R409). -/

namespace Sys2Proof.Machine

def State.onGraph (s : State) (f : Graph → Graph) : State := s.onCtx fun c => { c with graph := f c.graph }
def State.mapCtxs (s : State) (f : Ctx → Ctx) : State := { s with ctx := f s.ctx, ctxs := s.ctxs.map f }
def Graph.onChan (g : Graph) (i : Nat) (f : GChan → GChan) : Graph := { g with chans := modAt g.chans i f }
def Graph.onActor (g : Graph) (i : Nat) (f : Actor → Actor) : Graph := { g with actors := modAt g.actors i f }
/-- SEGMENT record (24 R409). -/
def segRec (c : Ctx) (kind : Nat) : LogRec :=
  { type := 3, srcn := c.srcn, w1 := BitVec.ofNat 64 (kind + c.graph.ordinal % 2 ^ 32 * 2 ^ 32) }

/-! ### Items and markers (02 R34, R40, R47; 20 R355) -/

def slotKind (ctrl : Word) : Nat := bitsN ctrl 2 0
def State.hostOf (s : State) (g : GChan) : HostChan := s.dev.hch.getD (g.loc.toNat % 64) {}
/-- A host channel that serves a graph port: its role is the port's and its OWNER the job; a supervisor uses any (20 R352; log 21). -/
def State.ownsHost (s : State) (g : GChan) : Bool :=
  let h := s.hostOf g
  bitsN h.ctl 2 1 == (if g.kind = 3 then 2 else 1) && (s.ctx.id.sup || bitsN h.ctl 47 32 == s.ctx.id.job.toNat)
/-- The slots that an ingress port can take. -/
def State.portReady (s : State) (g : GChan) : List (Word × Word) := if s.ownsHost g then (s.hostOf g).ready else []
/-- Consumes slots of an ingress channel; HEAD advances (20 R355). -/
def State.hostDrop (s : State) (c n : Nat) : State :=
  if n = 0 then s else
  s.onDev fun d => { d with hch := modV d.hch c fun h => { h with
    ready := h.ready.drop n, head := h.head + BitVec.ofNat 32 n, irqs := if h.ctl.getLsbD 3 then h.irqs + 1 else h.irqs } }
/-- Leading SOS of what an ingress channel holds: an open segment has consumed them (02 R48). -/
def leadSos (l : List (Word × Word)) : Nat := (l.takeWhile fun x => slotKind x.2 == 1).length

/-- The channel is at end: FINAL of the EOS at its head. -/
def State.atEnd (s : State) (g : GChan) : Option Bool :=
  match g.kind.toNat with
  | 0 => match g.marks with | (0, some f) :: _ => some f | _ => none
  | 2 => match ((s.portReady g).dropWhile fun x => slotKind x.2 == 1) with
    | (_, c) :: _ => if slotKind c = 2 then some (c.getLsbD 3) else none
    | [] => none
  | _ => none
/-- Whole items of the current segment that a channel holds for its consumer. -/
def State.itemsOf (s : State) (g : GChan) : Nat :=
  match g.kind.toNat with
  | 0 => match g.marks.find? (·.2.isSome) with | some (d, _) => d | none => g.count
  | 1 => (s.ctx.chanTokens g).length
  | 2 => (((s.portReady g).takeWhile fun x => slotKind x.2 != 2).filter fun x => slotKind x.2 == 0).length
  | 4 => ((s.ctx.rings.getD (g.loc.toNat % 16) {}).msgs.filter (!·.pad)).length
  | _ => 0
/-- Consumes the EOS at the head of a channel. -/
def State.takeEos (s : State) (i : Nat) : State :=
  let g := s.ctx.graph.chans.getD i {}
  if g.kind = 2 then s.hostDrop (g.loc.toNat % 64) (leadSos (s.portReady g) + 1)
  else if g.kind = 0 then s.onGraph (·.onChan i fun g => { g with marks := g.marks.drop 1 }) else s
/-- Writes an EOS behind what an output holds. The VALUE of a marker slot is open (log 23). -/
def State.putEos (s : State) (i : Nat) (fin : Bool) : State :=
  let g := s.ctx.graph.chans.getD i {}
  if g.kind = 0 then s.onGraph (·.onChan i fun g => { g with marks := g.marks ++ [(g.count, some fin)] })
  else if g.kind = 3 then
    s.drawn.putOut (BitVec.ofNat 6 g.loc.toNat)
      { val := s.freeVal, ctrl := if fin then 10 else 2, deps := [s.ctx.id.uid], job := s.tokJob }
  else s

/-! ### END_OF_SEGMENT (02 R47) -/

/-- Channels of an actor's inputs that carry markers. -/
def State.markedIns (s : State) (a : Actor) : List (Nat × GChan) :=
  ((joinPorts a.ins).map fun p => (p.chan, s.ctx.graph.chans.getD p.chan {})).filter fun x => x.2.kind == 0 || x.2.kind == 2
/-- The host channels that get the actor's EOS serve its job (20 R352). -/
def State.mayMark (s : State) (a : Actor) : Bool :=
  a.outs.all fun p => let g := s.ctx.graph.chans.getD p.chan {}; g.kind != 3 || s.ownsHost g
/-- The actor reaches end of segment now. -/
def State.mayEnd (s : State) (i : Nat) (a : Actor) : Bool :=
  s.ctx.graph.isOpen && !s.ctx.stopped && !a.free && !a.ended && !a.active && s.mayMark a &&
    if a.ins.isEmpty then a.fired
    else if (s.markedIns a).isEmpty then
      ((s.ctx.graph.actors.zipIdx).all fun (b, j) => j == i || b.free || b.ended)
        && a.ins.all fun p => s.itemsOf (s.ctx.graph.chans.getD p.chan {}) == 0
    else (s.markedIns a).all fun x => (s.atEnd x.2).isSome
/-- A child actor set ends when all its actors have reached end of segment (02 R58). -/
def Ctx.endSet (c : Ctx) (set : Nat) : Ctx :=
  if set ≠ 0 && (c.graph.actors.all fun a => a.set != set || a.free || a.ended) then
    { c with sync := { c.sync with children := modV c.sync.children (set - 1) fun k => { k with ended := true } } }
  else c
def execEndOfSegment (i : Nat) (s : State) : Out :=
  match s.ctx.graph.actors[i]? with
  | none => .next s
  | some a =>
    if !s.mayEnd i a then .next s
    else
      let fin := (s.markedIns a).all fun x => s.atEnd x.2 == some true
      let s := (s.markedIns a).foldl (fun s x => s.takeEos x.1) s
      let s := (joinPorts a.outs).foldl (fun s p => s.putEos p.chan fin) s
      .next ((s.onGraph (·.onActor i fun a => { a with ended := true, final := fin })).onCtx (·.endSet a.set))

/-! ### Windows as places (04 R88, R110; log 25) -/

/-- The key lies in the window range of the context. -/
def Ctx.owns (c : Ctx) (k : Nat) : Bool :=
  let lo := spadKey c.id.tile 0
  lo ≤ k && k < lo + 2 ^ 23 &&
    (let row := (k - lo) / 64 % 4096
     c.id.row ≤ row && row < c.id.row + winRows c.id.wlog)
/-- An update that cannot be applied without the window of a context. -/
def Ctx.needs (c : Ctx) (x : Update) : Bool := x.ctx == c.id.uid && (c.owns x.key || (x.ret.map c.owns).getD false)
/-- Updates that need the window are taken from the units, and those kept while it is saved are dropped. -/
def State.dropUpdates (s : State) (c : Ctx) : State :=
  s.onDev fun d => { d with
    kept := d.kept.filter (·.ctx != c.id.uid)
    units := d.units.map fun u => { u with window := u.window.filter (!c.needs ·), order := u.order.filter (!c.needs ·) } }
/-- Objects of the window that committed BARIs have not reached yet are not written (21 R365). -/
def State.dropInits (s : State) (c : Ctx) : State :=
  s.onDev fun d => { d with barQ := d.barQ.filter fun r => !(r.ctx == c.id.uid && r.fir == 0 && c.owns r.key) }

/-! ### The end of an instance (02 R48, R59) -/

/-- Regions of a context on its tile are freed, their entries cleared. -/
def Tile.freeOwner (uid : Nat) (t : Tile) : Tile :=
  (List.range 8).foldl (fun t r => match t.region r with
    | some x => if x.owner = uid then t.freeRegion r else t
    | none => t) t
/-- Takes a resident context away. -/
def State.dropCtx (s : State) (uid : Nat) : State :=
  if s.ctx.id.uid = uid ∧ s.ctx.id.present then { s with ctx := {}, fir := {} }
  else { s with ctxs := s.ctxs.filter (·.id.uid != uid) }
/-- Counts the end of an instance that stands no more: closes at the units, its launch, its job slot. -/
def State.tallyEnd (s : State) (id : Ident) (killed : Bool) : State :=
  let s := s.onDev fun d => { d with
    units := d.units.map fun u => (d.roundJobs id).foldl (fun u j => u.closeEnded j id.uid) u
    launches := d.launches.map fun l => if l.num ≠ id.launch then l
      else if killed then { l with killed := l.killed + 1, deadIdx := l.deadIdx ++ [id.index] }
      else { l with completed := l.completed + 1 } }
  let s := if s.jobCount id.job = 0 then
      s.onDev fun d => { d with jobs := d.jobs |> mapV fun j => if j.active && j.job == id.job then { j with active := false, dirty := true } else j }
    else s
  let kids := (s.dev.launches.filter fun l => l.parent.any fun p => p.1 == id.uid).map (·.num)
  kids.foldl State.reportLaunch (s.reportLaunch id.launch)
/-- A resident instance ends: everything it holds on its tile is freed. -/
def State.endInstance (s : State) (uid : Nat) (killed : Bool) : State :=
  match s.ctxOf uid with
  | none => s
  | some c => ((((s.dropCtx uid).dropUpdates c).dropInits c).onTileOf c.id.tile (·.freeOwner uid)).tallyEnd c.id killed

/-! ### SEGMENT_BOUNDARY (02 R48) -/

/-- Every command, stream and firing of the context in focus is done (10 R211, 22 R392); an M or C command
whose record or push is still on its way is not (01 R27, R28). -/
def State.allDone (s : State) : Bool :=
  let c := s.ctx
  s.firings.isEmpty && c.susp.isEmpty && c.mq.isEmpty && c.cq.isEmpty && c.lq.isEmpty && c.dq.isEmpty && c.mdone.isEmpty
    && c.cdone.isEmpty && c.releases.isEmpty && c.holdScalar.isNone && c.mapq.isEmpty
    && c.sync.evqHeld.all (fun r => let k := bitsN r.info 63 61; k != 2 && k != 3)
    && c.sync.pushes.all (fun p => decide (p.origin.unit < 8))
    && c.streams.toList.all (fun t => !t.st.live)
    && c.handles.toList.all fun h => match h with | some g => !(g.hung || (g.frozen && g.fault.isSome)) | none => true
/-- What a context has handed over beyond its segment is done too (log 24). -/
def State.handedDone (s : State) : Bool :=
  let c := s.ctx
  c.kq.isEmpty && c.chans.toList.all (fun k => k.run.isNone && k.queue.isEmpty) && c.sends.isEmpty && c.zq.isEmpty
    && c.sync.fifo.isEmpty && c.log.held.isEmpty
    && c.sync.evqHeld.isEmpty && c.sync.pushes.isEmpty
/-- The graph at a boundary: actor sets are gone, every ring gets its SOS. -/
def Graph.atBoundary (g : Graph) : Graph :=
  { g with
    isOpen := false, ordinal := g.ordinal + 1, passed := 0, agedAt := none
    actors := g.actors.filter (·.set == 0)
    chans := (g.chans.filter (·.set == 0)).map fun x => if x.kind = 0 then { x with marks := x.marks ++ [(x.count, none)] } else x }
/-- Fired configurations stop (14 R309). -/
def Ctx.stopCollar (c : Ctx) : Ctx :=
  { c with handles := c.handles |> mapV fun h => h.map fun g => { g.accrue c.now with fired := false } }
/-- The first configuration whose eviction waits for the boundary (10 R223). -/
def Ctx.evictee (c : Ctx) : Option Nat := firstIdx (fun h => match h with | some g => g.evict | none => false) c.handles.toList 0
def execSegmentBoundary (s : State) : Out :=
  let g := s.ctx.graph
  let whole := g.actors.all fun a => a.free || a.final
  if !g.isOpen || s.ctx.stopped || !(g.actors.all fun a => a.free || a.ended) || !s.allDone then .next s
  else match s.ctx.evictee with
    | some h => .next (s.evictHandle h)
    | none =>
      if whole then
        if s.handedDone then
          .next (s.logged (segRec s.ctx 2) false allBits fun s => s.endInstance s.ctx.id.uid false)
        else .next s
      else .next (s.logged (segRec s.ctx 1) false allBits fun s => s.onCtx fun c =>
        { c.stopCollar with graph := c.graph.atBoundary })

/-! ### SEGMENT_START (02 R49) -/

/-- The instance waits for its next segment. -/
def Ctx.waitsSegment (c : Ctx) : Bool :=
  c.id.present && !c.graph.isOpen && !c.stopped && c.graph.pending.isNone && !c.graph.actors.isEmpty
def leastBy {α : Type} (f : α → Nat) : List α → Option α
  | [] => none
  | x :: l => match leastBy f l with
    | some y => if f y < f x then some y else some x
    | none => some x
/-- The element with the most credit, the first of them. -/
def mostCredit {α : Type} (f : α → Int) : List α → Option α
  | [] => none
  | x :: l => match mostCredit f l with
    | some y => if f x < f y then some y else some x
    | none => some x
/-- Waiting instances of a tile, by context number. -/
def State.waiting (s : State) (tile : BitVec 8) : List Ctx :=
  (List.range 4).filterMap fun k => s.allCtxs.find? fun c => c.id.tile == tile && c.id.num.toNat == k && c.waitsSegment
/-- The waiting instances at the level that is served, and the one that starts. -/
def State.startPick (s : State) : Option (List Ctx × Ctx) :=
  let l := s.waiting s.tile.num
  match leastBy (fun c => c.graph.agedAt.getD 0) (l.filter (·.graph.agedAt.isSome)) with
  | some c => some ([], c)
  | none =>
    match leastBy (fun c => c.graph.prio.toNat) l with
    | none => none
    | some c =>
      let lvl := l.filter (·.graph.prio == c.graph.prio)
      (mostCredit (fun c => c.graph.credit + (c.graph.weight : Nat)) lvl).map fun x => (lvl, x)
/-- The next place in the order of ageing. -/
def nextAge (l : List Ctx) : Nat := l.foldl (fun n c => Nat.max n (c.graph.agedAt.getD 0)) 0 + 1
/-- What a start leaves in the instances that waited. Two that become aged at the same start share a place in the order of ageing, and
the lower context number goes first: the model's choice (log 118). -/
def afterStart (l lvl : List Ctx) (sage uid : Nat) (c : Ctx) : Ctx :=
  let sum : Nat := (lvl.map (·.graph.weight)).sum
  let g := c.graph
  let inLvl := lvl.any (·.id.uid == c.id.uid)
  let g := if inLvl then { g with credit := g.credit + (g.weight : Nat) } else g
  if c.id.uid = uid then
    let k : Int := if inLvl then (sum : Nat) else 0
    { c with graph := { g with credit := g.credit - k, passed := 0, agedAt := none } }
  else if l.any (·.id.uid == c.id.uid) then
    let n := g.passed + 1
    { c with graph := { g with passed := n
                               agedAt := if sage ≤ n && g.agedAt.isNone then some (nextAge l) else g.agedAt } }
  else c
/-- The segment of the context in focus opens: it consumes every SOS at the head of its inputs. -/
def State.openSegment (s : State) : State :=
  let ing := s.ctx.graph.chans.filter (·.kind == 2)
  let s := ing.foldl (fun s g => s.hostDrop (g.loc.toNat % 64) (leadSos (s.portReady g))) s
  s.onCtx fun c => { c with graph := { c.graph with
    isOpen := true, began := c.csr.budget.toNat
    chans := c.graph.chans.map fun g => { g with marks := g.marks.dropWhile fun m => m.1 == 0 && m.2.isNone }
    actors := c.graph.actors.map fun a => { a with ended := false, fired := false, final := false } } }
def execSegmentStart (s : State) : Out :=
  match s.startPick with
  | none => .next s
  | some (lvl, c) =>
    let l := s.waiting s.tile.num
    let sage := s.tile.sage.toNat
    .next (s.within c.id.uid fun s =>
      if s.ctx.graph.unlogged then s.logPlacement
      else s.logged (segRec s.ctx 0) false allBits fun s => s.openSegment.mapCtxs (afterStart l lvl sage c.id.uid))

end Sys2Proof.Machine
end

