-- ==== Sys2Proof/Machine/Save.lean ====
section
/-! DEFINITION. KILL, CTXSAVE and CTXLOAD: ending instances, saving a context at its boundary or frozen, restoring it (02 R59
to R61; 04 R110; 05 R116, R124, R130; 13 R283, R292; 14 R306; 21 R364, R365, R376; 22 R389, R392 to R396; 24 R409; 27 R437). -/

namespace Sys2Proof.Machine

/-! ### Killing a context (02 R59, 05 R124, R130, 27 R437) -/

/-- Abandons what a firing has in flight; of a saved context only arrivals at HBM objects stand outside it. -/
def State.dropFiring (saved : Bool) (s : State) (id : Nat) : State :=
  let s := s.focusFir id
  let s := if saved then s.onBlk fun b => { b with arrived := b.arrived.filter fun x => isHbm x.2.2.1 } else s
  if s.fir.phase = .run then { s.abandon.1 with fir := {} } else { s with fir := {} }
def State.dropFirings (s : State) (saved : Bool) (l : List Nat) : State := l.foldl (State.dropFiring saved) s
/-- Messages held in the rings of a context. -/
def Ctx.ringMessages (c : Ctx) : Nat := (c.rings.toList.map fun r => (r.msgs.filter (!·.pad)).length).sum
/-- Messages counted as injected that will not be sent again. -/
def Ctx.unsent (c : Ctx) : Nat :=
  (c.sends.filter fun x => !x.flying && x.lost.isNone).length
    + (c.kq.filter fun e => match e.ins with | .ksend .. => true | _ => false).length
def Counters.consumeN (n : Nat) (c : Counters) : Counters := if n = 0 then c else { c with con := c.con + n, act := true }
/-- The participants of the context leave their collectives. -/
def State.leaveColls (s : State) : State :=
  (List.range 8).foldl (fun s ch => match (s.ctx.chan ch).run.bind (·.coll) with
    | some key => s.onColl key (·.gone s.ctx ch)
    | none => s) s
/-- A CTXSAVE of the context in focus, of which `k` gives the issuer's serial, completes with a status. -/
def State.endSave (issuer : Nat) (e : Eff) (st : Word) (s : State) : State :=
  s.within issuer fun s => match s.ctx.zq.find? (fun x => x.ser == e.ser && x.ins == .ctxsave) with
    | some x => zqDone s x st
    | none => s
/-- A fixed-order update returns to the unit of its word: to the round it stood in, or, when that has closed, at once. -/
def State.returnUpdate (s : State) (x : Update) : State :=
  let x := { x with key := if x.wide then s.ctx.winKey x.key else x.key, ret := x.ret.map s.ctx.winKey }
  let u := unitOf x.key
  let n := (s.usu u).closesOf x.job x.ctx
  if n < x.epoch then s.applyUpdate x
  else s.onUsu u fun v => { v with order := v.order ++ [{ x with epoch := n - x.epoch }] }
/-- A save in progress of the context in focus is given up: its issuer has gone. -/
def State.giveUp (s : State) : State :=
  let c := s.ctx
  let back := s.dev.kept.filter (·.ctx == c.id.uid)
  let s := back.foldl State.returnUpdate (s.onDev fun d => { d with kept := d.kept.filter (·.ctx != c.id.uid) })
  let s := if c.csr.saving then s.putEntry c.id.job c.id.index (placeWord s.tile.module c.id.tile) else s
  s.onCtx fun c => { c with
    csr := { c.csr with saving := false }, graph := { c.graph with pending := none }
    mapq := if c.mapWho.isSome then c.mapKept else c.mapq, mapKept := [], mapWho := none }
/-- The window offset of a key that the context owns. -/
def Ctx.offOf (c : Ctx) (k : Nat) : Nat :=
  let p := k - spadKey c.id.tile 0
  let bank := p / 64 / 4096
  let r := p / 64 % 4096 - c.id.row
  let l := 8 * r + ((bank % 8) ^^^ bankOf (c.csr.bkey.toNat % 4096) (8 * r))
  bank / 8 * 2 ^ (18 + c.id.wlog.toNat) + 64 * l + p % 64

/-! ### The save area (22 R394, R395) -/

/-- Regions of a context on its tile, by number. -/
def Tile.regionsOf (t : Tile) (uid : Nat) : List (Nat × Region) :=
  (List.range 8).filterMap fun r => match t.region r with
    | some x => if x.owner = uid then some (r, x) else none
    | none => none
/-- The configurations of a context, by handle. -/
def Ctx.configs (c : Ctx) : List (Nat × CollarCfg) :=
  (List.range 32).filterMap fun h => (c.handles.getD h none).map fun g => (h, g)
/-- Words that the area of an occupancy map holds (14 R312). -/
def CollarCfg.mapWords (g : CollarCfg) : Nat := 8 + g.img.nodes.length + 17 * g.img.edges.length
def Ctx.mapWords (c : Ctx) : Nat := (c.configs.map (·.2.mapWords)).sum
/-- B of R394. -/
def saveBytes (c : Ctx) (firings : Nat) (rs : List (Nat × Region)) : Nat :=
  65536 + c.winSize + 3072 * (firings + c.susp.length) + (rs.map fun x => 16 * x.2.h * x.2.w + 512 * x.2.w).sum
    + 8 * c.mapWords
/-- Header and table: 8 + 22 words. -/
def saveHead : Nat := 240
/-- Offsets of the eleven sections of save area `tag` of a context, of `b` bytes. Sections 4 to 11 and a gap before section 1
are the implementation's; section 9 has room for the maps of the configurations. -/
def saveOffsets (c : Ctx) (tag b : Nat) : List Nat :=
  let w := c.winSize
  let m := 8 * c.mapWords
  let o1 := saveHead + 8 * (Config.saveOffset tag 0 % ((b - saveHead - 2048 - w - m) / 8 + 1))
  let o4 := o1 + 2048 + w
  [o1, o1 + 1024, o1 + 1024 + w] ++ (List.range 8).map fun i =>
    if i = 5 then o4 + 8 * (Config.saveOffset tag (i + 1) % ((b - o4 - m) / 8 + 1))
    else o4 + Config.saveOffset tag (i + 1) % (b - o4 + 1)
def blobWord (tag o : Nat) : Word :=
  BitVec.ofNat 64 ((List.range 8).foldl (fun n i => n + (Config.saveByte tag (o + i)).toNat * 2 ^ (8 * i)) 0)
/-- The words before the sections. -/
def saveHeader (c : Ctx) (frozen : Bool) (tag b : Nat) : Words :=
  [BitVec.ofNat 64 (0x5641534C * 2 ^ 32 + 2 ^ 24 + 2 ^ 16 + 11 * 2 ^ 12 + (if frozen then 2 ^ 10 else 0) + c.id.wlog.toNat * 2 ^ 8),
   BitVec.ofNat 64 b,
   BitVec.ofNat 64 (c.id.job.toNat * 2 ^ 48 + c.id.tile.toNat * 2 ^ 8 + c.id.num.toNat), 0, 0, 0, 0, 0]
  ++ ((saveOffsets c tag b).zipIdx).flatMap fun (o, i) => [BitVec.ofNat 64 (i + 1), BitVec.ofNat 64 o]
def csrWord (c : Ctx) (t : Tile) (n : Nat) : Word := match Csr.ofNum n with | some k => csrRead c t k | none => 0
/-- A word of the bindings section. -/
def bindWord (c : Ctx) (n : Nat) : Word :=
  let b := c.setts.getD (n / 2) {}
  if n % 2 = 0 then (if b.bound then b.addr else 0) else squeryWord false { b with resident := false }
/-- Word `j` of the maps of configurations, each in its area, oldest handle first (14 R312, CAUSE 2). -/
def mapAt (num : BitVec 2) : List (Nat × CollarCfg) → Nat → Option Word
  | [], _ => none
  | (h, g) :: l, j => if j < g.mapWords then (g.map num h 2)[j]? else mapAt num l (j - g.mapWords)
/-- A word of sections 4 to 11: the head of section 9 of a frozen save holds the maps, the rest is the implementation's (log 8). -/
def restWord (c : Ctx) (frozen : Bool) (tag b o : Nat) : Word :=
  let o9 := (saveOffsets c tag b).getD 8 0
  (if frozen && o9 ≤ o then mapAt c.id.num c.configs ((o - o9) / 8) else none).getD (blobWord tag o)
/-- Word `j` of the save area of the context in focus. -/
def State.saveWord (s : State) (frozen : Bool) (tag b j : Nat) : Word :=
  let c := s.ctx
  let o := 8 * j
  let o1 := (saveOffsets c tag b).getD 0 0
  if o < saveHead then (saveHeader c frozen tag b).getD j 0
  else if o < o1 then blobWord tag o
  else if o < o1 + 1024 then csrWord c s.tile ((o - o1) / 8)
  else if o < o1 + 1024 + c.winSize then s.winWord (o - o1 - 1024)
  else if o < o1 + 2048 + c.winSize then bindWord c ((o - o1 - 1024 - c.winSize) / 8)
  else restWord c frozen tag b o

/-! ### CTXSAVE (13 R292, 22 R392, R393) -/

/-- Regions and accumulator entries of the context in focus, wherever a save in progress has left them. -/
def State.coreState (s : State) : List (Nat × Region) × List AccEnt :=
  s.ctx.taken.getD (s.tile.regionsOf s.ctx.id.uid, s.tile.acc.filter (·.owner == s.ctx.id.uid))
/-- Bytes that the context in focus takes when saved now. -/
def State.saveSize (s : State) : Nat := saveBytes s.ctx s.firings.length s.coreState.1
/-- Blocks ahead of commit of every firing of the context in focus are abandoned (06 R150). -/
def State.dropAllAhead (s : State) : State :=
  let s := (s.ctx.firs.foldl (fun (s : State) f => s.onCsr fun c => { c with
    perf := modV c.perf 1 (· + BitVec.ofNat 64 f.ahead.length) }) s).dropAhead
  s.onCtx fun c => { c with firs := c.firs.map fun f => { f with ahead := [], fetched := none } }
/-- The save of the context in focus begins: it issues and accepts nothing more. -/
def State.beginSave (s : State) (bound : Bool) : State :=
  let i := s.ctx.id
  let w := s.placementEntry i.job i.index
  let s := s.putEntry i.job i.index (w &&& ~~~((1 : Word) <<< 63))
  let mine (r : QReq) : Bool := r.ctx == i.uid
  let s := s.onDev fun d => { d with
    quietReqs := d.quietReqs.filter (!mine ·), quietWait := d.quietWait.filter (!mine ·) }
  s.dropAllAhead.onCsr fun r => { r with saving := true, atBound := bound }
/-- Nothing of the context is under way that its save must wait for: operations at barrier homes, and updates of its window
outside fixed order. -/
def State.mayStop (s : State) : Bool :=
  let c := s.ctx
  !(s.dev.barQ.any fun r => r.ctx == c.id.uid) && !(s.dev.units.any fun u => u.window.any c.needs)
/-- Fixed-order updates of the window leave their units with it, each with the closes that its round has seen. -/
def State.keepUpdates (s : State) : State :=
  let c := s.ctx
  let upds := s.dev.units.flatMap fun u => (u.order.filter c.needs).map fun x =>
    { x with key := if c.owns x.key then c.offOf x.key else x.key, ret := x.ret.map c.offOf
             wide := c.owns x.key, epoch := u.closesOf c.id.job c.id.uid - x.epoch }
  (s.dropUpdates c).onDev fun d => { d with kept := d.kept ++ upds }
/-- An offset lies in the sections of core and collar: regions, and the maps of the configurations. -/
def isCore (c : Ctx) (rs : List (Nat × Region)) (tag b o : Nat) : Bool :=
  let os := saveOffsets c tag b
  let r := (rs.map fun x => 16 * x.2.h * x.2.w + 512 * x.2.w).sum
  (os.getD 7 0 ≤ o && o < os.getD 7 0 + r) || (os.getD 8 0 ≤ o && o < os.getD 8 0 + 8 * c.mapWords)
/-- The words of the save area, in the order in which they are written: core and collar, then the rest (22 R393). -/
def State.saveOrder (s : State) (tag b : Nat) : List Nat :=
  let core := isCore s.ctx s.coreState.1 tag b
  let js := List.range (b / 8)
  js.filter (fun j => core (8 * j)) ++ js.filter fun j => !core (8 * j)
/-- Words of core and collar in it. -/
def State.coreWords (s : State) (tag b : Nat) : Nat :=
  ((List.range (b / 8)).filter fun j => isCore s.ctx s.coreState.1 tag b (8 * j)).length
/-- The save area of the context in focus begins to be written at `va`; reading its window meets the errors there (04 R108). -/
def State.writeArea (s : State) (frozen : Bool) (va : Word) (tag : Nat) (who : BitVec 16 × BitVec 9) : State :=
  let s := s.touchWin 0 (s.ctx.winSize / 64)
  let s := s.onCtx fun c => { c with handles := c.handles |> mapV fun h => h.map (·.accrue c.now) }
  let b := s.saveSize
  let ws : List (Word × Word × Nat) := (s.saveOrder tag b).map fun j =>
    (va + BitVec.ofNat 64 (8 * j), s.saveWord frozen tag b j, j)
  s.keepUpdates.onCtx fun c => { c with
    mapKept := c.mapq, mapq := ws, mapWho := some who, holdEngine := none }
/-- Core and collar of the context in focus are written: they are released. -/
def State.releaseCore (s : State) : State :=
  let x := s.coreState
  (s.onCtx fun c => { c with taken := some x }).onTile (·.freeOwner s.ctx.id.uid)
/-- The context in focus as it is saved. A restore that it waits for begins anew. -/
def State.savedEntry (s : State) (tag b : Nat) (frozen : Bool) : Saved :=
  let s := s.park
  let c := s.ctx
  { tag := tag, bytes := b, frozen := frozen, upds := s.dev.kept.filter (·.ctx == c.id.uid)
    ctx := { c with
      mapq := c.mapKept, mapKept := [], mapWho := none, graph := { c.graph with pending := none }, taken := none
      zq := c.zq.map fun e => if e.ins = .ctxload ∧ 1 < e.ws.length then { e with ws := [] } else e }
    regions := s.coreState.1
    acc := s.coreState.2
    wpois := ((List.range (c.winSize / 8)).map (8 * ·)).filter s.winPois }
/-- The context in focus leaves its tile. -/
def State.takeAway (s : State) (v : Saved) : State :=
  let uid := s.ctx.id.uid
  let s := (s.dropUpdates s.ctx).onTile (·.freeOwner uid)
  ({ s with ctx := {}, fir := {} }).onDev fun d => { d with saved := d.saved ++ [v] }
/-- A save in progress of the context in focus, whose issuer has gone. -/
def State.unsave (s : State) : State :=
  if s.ctx.taken.isNone then s.giveUp
  else
    let tag := s.dev.nextTag
    (s.takeAway (s.savedEntry tag s.saveSize true)).onDev fun d => { d with nextTag := tag + 1 }
/-- Saves that the context in focus has issued are given up; one whose core is released already ends without its command: the
model's choice (log 71). -/
def State.unsaveOthers (s : State) : State :=
  let me := s.ctx.id.uid
  let l := s.ctx.zq.filterMap fun e => match e.ins, e.ws with | .ctxsave, u :: _ => some u.toNat | _, _ => none
  l.foldl (fun s u => if u = me then s else s.within u (·.unsave)) s

/-! ### Killing a context, and KILL (02 R59, 05 R124, R130, 13 R283, 27 R437) -/

/-- What a kill leaves of the context in focus: nothing in flight commits, its messages are counted, its event raised. -/
def State.killPrep (bySup saved : Bool) (s : State) : State :=
  let s := s.dropFirings saved (s.firings.map (·.id))
  let c := s.ctx
  let n := c.ringMessages
  let s := s.onNet c.id.tile c.id.job (Counters.consumeN (n + c.unsent))
  let s := s.leaveColls.unsaveOthers
  let s := match c.graph.pending with
    | some (u, e) => if u = c.id.uid then s else s.endSave u e (status sKILLED 0 0)
    | none => s
  s.raiseTile c.id.tile c.id.job c.id.num.toNat 27 [BitVec.ofNat 64 (n % 2 ^ 32 + if bySup then 2 ^ 32 else 0)]
/-- A context is killed, resident or saved. -/
def State.killCtx (bySup : Bool) (s : State) (uid : Nat) : State :=
  match s.ctxOf uid with
  | some _ => (s.within uid (State.killPrep bySup false)).endInstance uid true
  | none =>
    match s.dev.saved.find? (·.ctx.id.uid == uid) with
    | none => s
    | some v =>
      let s := s.within uid (State.killPrep bySup true)
      (s.onDev fun d => { d with saved := d.saved.filter (·.tag != v.tag), spent := d.spent ++ [v] }).tallyEnd v.ctx.id true

/-- The launches named and every descendant of theirs that has started. -/
def descend (ls : List Launch) : Nat → List Nat → List Nat
  | 0, ns => ns
  | n + 1, ns =>
    let uids := (ls.filter fun l => ns.contains l.num).flatMap (·.uids)
    let more := (ls.filter fun l => !ns.contains l.num && l.parent.any fun p => uids.contains p.1).map (·.num)
    if more.isEmpty then ns else descend ls n (ns ++ more)
def setKilled (h n : Nat) (st : Option Word) (y : Sync) : Sync :=
  { y with children := modV y.children h fun k => { k with killed := some n, rejected := k.rejected.orElse fun _ => st } }
/-- Instances of the graph that a record asks for. -/
def recInstances (r : Words) : Nat := (((recLevels r).filter (·.domain != 0)).map (·.count)).prod
/-- A waiting launch is withdrawn: a child's handle keeps KILLED, a root launch reports it with its instances (20 R360). -/
def State.killPending (s : State) (p : Pending) : State :=
  let st := status sKILLED 0 (if p.parent.isSome then 0 else recInstances p.record)
  let s := s.onDev fun d => { d with pending := d.pending.filter (·.launch != p.launch) }
  match p.parent with
  | some (u, h) => s.within u fun s => s.onSync (setKilled h 0 (some st))
  | none => s.rejectPending p st
/-- The contexts of the launches named, resident and saved. -/
def State.ctxsOf (s : State) (ns : List Nat) : List Nat :=
  ((s.allCtxs ++ s.dev.saved.map (·.ctx)).filter fun c => ns.contains c.id.launch).map (·.id.uid)
/-- Kills launches, waiting and started, with everything below them. -/
def State.killLaunches (bySup : Bool) (s : State) (ns : List Nat) : State :=
  let all := descend s.dev.launches s.dev.launches.length ns
  let uids := s.ctxsOf all
  let gone := s.dev.pending.filter fun p => all.contains p.launch || p.parent.any fun x => uids.contains x.1
  uids.foldl (State.killCtx bySup) (gone.foldl State.killPending s)

/-- A child actor set of the context in focus is killed, unless it has ended. -/
def State.killSet (s : State) (h : Nat) : State :=
  let mine (a : Actor) : Bool := a.set == h + 1
  let inSet (i : Nat) : Bool := (s.ctx.graph.actors[i]?).any mine
  let fs := (s.firings.filter fun f => inSet f.actor).map (·.id)
  let s := s.dropFirings false fs
  s.onCtx fun c => { c with
    susp := c.susp.filter fun u => !inSet u.actor
    graph := { c.graph with
      actors := c.graph.actors.map fun a => if mine a then { a with free := true, active := false } else a
      chans := c.graph.chans.map fun g => if g.set = h + 1 then { g with kind := 7 } else g } }
/-- KILL of a handle of the context in focus. -/
def State.killHandle (s : State) (h : Nat) : State :=
  let k := s.ctx.sync.children.getD h {}
  let uid := s.ctx.id.uid
  if k.rejected.isSome then
    -- a rejected child, or one killed before it was placed: a later JOIN returns KILLED (02 R59)
    s.onSync fun y => { y with children := modV y.children h fun k => { k with
      killed := some (k.killed.getD 0)
      rejected := k.rejected.map fun st => if codeOf st = sKILLED then st else status sKILLED 0 0 } }
  else match k.set, k.launch with
    | some n, _ =>
      if k.ended then s
      else ((if k.placed then s.killSet h else s).onSync (setKilled h n (if k.placed then none else some (status sKILLED n 0))))
    | none, some l =>
      let n := ((s.dev.launches.find? (·.num == l)).map (·.instances)).getD 0
      (s.killLaunches false [l]).within uid fun s => s.onSync (setKilled h n none)
    | none, none => s.onSync (setKilled h 0 (some (status sKILLED 0 0)))
/-- The command completes when its issuer still stands. -/
def State.doneIf (s : State) (uid : Nat) (e : Eff) (st : Word) : State :=
  if s.ctx.id.uid = uid ∧ s.ctx.id.present then zqDone s e st else s

/-- Launches of a job, started or waiting. -/
def State.jobLaunches (s : State) (job : BitVec 16) : List Nat :=
  (s.dev.launches.filter (·.job == job)).map (·.num) ++ (s.dev.pending.filter (·.job == job)).map (·.launch)
def applyKill (job : Bool) (e : Eff) (s : State) : State :=
  let uid := s.ctx.id.uid
  if job then
    let ls := s.jobLaunches (e.a.val.setWidth 16)
    if !s.ctx.id.sup || ls.isEmpty then zqDone s e (fault 0x091 0)
    else (s.killLaunches true ls).doneIf uid e stOK
  else
    let h := e.a.val.toNat % 64
    if !(s.ctx.sync.children.getD h {}).isOpen then zqDone s e (fault 0x090 0)
    else (s.killHandle h).doneIf uid e stOK
def execKill (job : Bool) (s : State) : Out :=
  match s.who with
  | .cmd e => .next (sysStep e (applyKill job e) s)
  | .core =>
    let a := s.opA.val
    let b := s.opB.val
    issueSys (.kill job) (if bitsN a 63 (if job then 16 else 6) ≠ 0 then some a else if lowB b ≠ 0 then some b else none) s

/-! ### The steps of a save (22 R392, R393) -/

/-- The saved area is whole: the context is gone, and the command of the issuer complete. -/
def State.finishSave (s : State) (e : Eff) (uid tag b : Nat) (frozen : Bool) : State :=
  let s := zqDone s e (status 0 0 b)
  s.within uid fun s => s.takeAway (s.savedEntry tag b frozen)
/-- The next step of a save in progress: it begins once its SEGMENT record is settled; core and collar are released when they are
written; then the rest is written. -/
def State.saveStep (s : State) (e : Eff) (uid : Nat) (frozen : Bool) : State :=
  match s.ctxOf uid with
  | none => zqDone s e (status sKILLED 0 0)
  | some c =>
    match e.ws with
    | [_, _, tag, b, _] =>
      if c.mapq.isEmpty && c.holdEngine.isNone then s.finishSave e uid tag.toNat b.toNat frozen
      else s.within uid fun s => flushMaps s.ctx.mapq.length s
    | [_, _, tag, b] =>
      let t := s.focusCtx uid
      let rest := b.toNat / 8 - t.coreWords tag.toNat b.toNat
      if c.mapq.length ≤ rest && c.holdEngine.isNone then
        zqPut (s.within uid State.releaseCore) e (some { e with ws := e.ws ++ [1] })
      else s.within uid fun s => flushMaps (s.ctx.mapq.length - rest) s
    | _ =>
      let r := segRec c (if frozen then 4 else 3)
      let t := s.focusCtx uid
      let back (t : State) : State := (t.focusCtx s.ctx.id.uid).focusFir s.fir.id
      if !t.mayStop then s
      else
        let t := t.settle r false allBits
        if !t.ctx.isSettled r then back t
        else
          let tag := s.dev.nextTag
          let t := t.onCtx (·.unsettle r)
          let b := t.saveSize
          let t := t.writeArea frozen (BitVec.ofNat 64 (bitsN e.b.val 55 0)) tag (e.space, e.keyslot)
          let s := back (t.onDev fun d => { d with nextTag := tag + 1 })
          zqPut s e (some { e with ws := e.ws ++ [BitVec.ofNat 64 tag, BitVec.ofNat 64 b] })
/-- CTXSAVE as its engine runs it: the target, then how far it is: 0 waits for the boundary, 1 frozen, 2 at the boundary. -/
def applyCtxsave (e : Eff) (s : State) : State :=
  match e.ws with
  | [] =>
    match s.target e.a.val with
    | none => zqDone s e stNOCTX
    | some c =>
      if c.csr.saving || c.graph.pending.isSome then zqDone s e (fault 0x0A4 0)
      else
        let now := e.a.val.getLsbD 8
        let e' : Eff := { e with ws := [BitVec.ofNat 64 c.id.uid, if now then 1 else 0] }
        let me := s.ctx.id.uid
        (zqPut s e (some e')).within c.id.uid fun s =>
          (if now then s.beginSave false else s).onGraph fun g => { g with pending := some (me, e') }
  | [uid, k] =>
    if k = 0 then (if (s.ctxOf uid.toNat).isNone then zqDone s e stNOCTX else s)
    else s.saveStep e uid.toNat (k == 1)
  | uid :: k :: _ => s.saveStep e uid.toNat (k == 1)
  | _ => s
def execCtxsave (s : State) : Out :=
  match s.who with
  | .cmd e => .next (sysStep e (applyCtxsave e) s)
  | .core =>
    let a := s.opA.val
    let b := s.opB.val
    issueSys .ctxsave (if bitsN a 47 9 ≠ 0 then some a
      else if bitsN b 63 56 ≠ 0 ∨ bitsN b 11 0 ≠ 0 then some b else none) s

/-- The pending save of the context in focus goes on: its command moves to state `k`. -/
def State.startPending (s : State) (k : Word) : State :=
  match s.ctx.graph.pending with
  | none => s
  | some (u, e) =>
    let uid := BitVec.ofNat 64 s.ctx.id.uid
    let s := s.beginSave (k == 2)
    s.within u fun s => s.onCtx fun c => { c with zq := c.zq.map fun x =>
      if x.ser = e.ser ∧ x.ins = .ctxsave then { x with ws := [uid, k] } else x }
/-- BOUNDARY_SWITCH: the context in focus stands at a boundary and a save waits for it. -/
def execBoundarySwitch (s : State) : Out :=
  if s.ctx.graph.pending.isSome && !s.ctx.graph.isOpen && !s.ctx.csr.saving then .next (s.startPending 2) else .next s
/-- A configuration keeps the segment from ending. -/
def Ctx.stuck (c : Ctx) : Bool :=
  c.handles.toList.any fun h => match h with | some g => g.hung || (g.frozen && g.fault.isSome) | none => false
/-- SEGMAX_EXPIRY: the segment has run past SEGMAX, or cannot end, while a save waits for its boundary. -/
def execSegmaxExpiry (s : State) : Out :=
  let g := s.ctx.graph
  if g.pending.isSome && g.isOpen && !s.ctx.csr.saving && (g.segmax < s.ctx.csr.budget.toNat - g.began || s.ctx.stuck) then
    .next (s.startPending 1)
  else .next s

/-! ### Moving a context's places (04 R110) -/

def Loc.mapKey (f : Nat → Nat) : Loc → Loc
  | .mem k => .mem (f k)
  | l => l
def Eff.mapKey (f : Nat → Nat) (e : Eff) : Eff := { e with locs := e.locs.map (Loc.mapKey f) }
def Await.mapKey (f : Nat → Nat) : Await → Await
  | .barrier r k m p e => .barrier r (f k) m p e
  | .reply k => .reply (f k)
  | w => w
def Block.mapKey (f : Nat → Nat) (b : Block) : Block :=
  { b with
    effs := b.effs.map (Eff.mapKey f)
    arrived := b.arrived.map fun (k, r, key, p) => (k, r, f key, p)
    slots := b.slots.map fun sl => { sl with wait := sl.wait.map fun w => { w with on := w.on.mapKey f } } }
def Ctx.mapKey (f : Nat → Nat) (c : Ctx) : Ctx :=
  let q (l : List Eff) : List Eff := l.map (Eff.mapKey f)
  { c with
    firs := c.firs.map fun r => { r with blk := r.blk.mapKey f }
    mq := q c.mq, cq := q c.cq, lq := q c.lq, kq := q c.kq, zq := q c.zq, dq := q c.dq
    sync := { c.sync with fifo := q c.sync.fifo }
    holdScalar := c.holdScalar.map fun (h, e) => (h, e.mapKey f) }

/-! ### Reading a save area (22 R395, R396) -/

/-- Bits that a register of a save area may carry. -/
def csrMask : Csr → Word
  | .tileid => keepBits (BitVec.allOnes 64) 31 0
  | .ctxid => keepBits (BitVec.allOnes 64) 8 0
  | .fpmode => keepBits (BitVec.allOnes 64) 63 32 ||| keepBits (BitVec.allOnes 64) 13 8 ||| 1
  | .fixord => 1
  | .dceil => keepBits (BitVec.allOnes 64) 62 0
  | .tocnt | .escn | .space | .sage => keepBits (BitVec.allOnes 64) 15 0
  | .trapvec | .loadvec => keepBits (BitVec.allOnes 64) 55 2
  | .hangiv => keepBits (BitVec.allOnes 64) 31 0
  | .debug => 3
  | .logbase => keepBits (BitVec.allOnes 64) 55 5
  | .loglim => keepBits (BitVec.allOnes 64) 63 61 ||| keepBits (BitVec.allOnes 64) 23 0
  | .logpos => keepBits (BitVec.allOnes 64) 48 0
  | .bkey => keepBits (BitVec.allOnes 64) 11 0
  | .keyslot => keepBits (BitVec.allOnes 64) 8 0
  | .waveper => keepBits (BitVec.allOnes 64) 19 0
  | _ => BitVec.allOnes 64
/-- A register as a restore writes it. -/
def restoreCsr (k : Csr) (v : Word) (c : Ctx) : Ctx :=
  let r := c.csr
  let set (r : Csrs) : Ctx := { c with csr := r }
  match k with
  | .lposa => set { r with lposa := v }
  | .lposb => set { r with lposb := v }
  | .largs => set { r with largs := v }
  | .fpmode => set { r with fpmode := v }
  | .srctr => set { r with srctr := v }
  | .fixord => set { r with fixord := v }
  | .budget => set { r with budget := v }
  | .dceil => set { r with dceil := if v.toNat < 16 then 16 else v }
  | .tocnt => set { r with tocnt := v }
  | .escn => set { r with escn := v }
  | .trapvec => set { r with trapvec := v }
  | .loadvec => set { r with loadvec := v }
  | .hangiv => set { r with hangiv := if v.toNat < 256 then 256 else v }
  | .debug => set { r with debug := v }
  | .logbase => set { r with logbase := v }
  | .loglim => set { r with loglim := v }
  | .logpos => { set { r with logpos := keepBits v 47 0 } with log := { c.log with isHeld := v.getLsbD 48 } }
  | .bkey => set { r with bkey := v }
  | .space => set { r with space := v }
  | .keyslot => set { r with keyslot := v }
  | .tileid | .ctxid | .waveper | .sage => c
def restoreCsrs (ws : Words) (c : Ctx) : Ctx :=
  (List.range 128).foldl (fun c n => match Csr.ofNum n with
    | some k => restoreCsr k (wAt ws n) c
    | none => c) c
def csrsOk (ws : Words) : Bool :=
  (List.range 128).all fun n => match Csr.ofNum n with
    | some k => wAt ws n &&& ~~~(csrMask k) == 0
    | none => wAt ws n == 0
/-- A binding, not resident, from its two words. -/
def restoreBind (w0 w1 : Word) (b : Binding) : Binding :=
  { b with bound := w1.getLsbD 63, resident := false, addr := w0
           img := { b.img with nsrc := bitsN w1 61 60, param := w1.getLsbD 59, lat := bitsN w1 58 52
                               nslab := if w1.getLsbD 51 then 2 else 1 }
           first := bitsN w1 50 45 }
def bindsOk (ws : Words) : Bool :=
  (List.range 64).all fun i => bitsN (wAt ws (2 * i + 1)) 44 0 == 0 && !(wAt ws (2 * i + 1)).getLsbD 62
    && ((wAt ws (2 * i + 1)).getLsbD 63 || (wAt ws (2 * i) == 0 && wAt ws (2 * i + 1) == 0))

/-- The header and table of a save area, against R395. -/
def headOk (h : Words) : Bool :=
  let w0 := wAt h 0
  let b := (wAt h 1).toNat
  bitsN w0 63 32 == 0x5641534C && bitsN w0 31 24 == 1 && bitsN w0 23 16 == 1 && bitsN w0 15 12 == 11 && bitsN w0 11 10 ≤ 1
    && bitsN w0 7 0 == 0 && b % 8 == 0 && saveHead ≤ b && bitsN (wAt h 2) 47 16 == 0
    && (List.range 5).all (fun i => wAt h (3 + i) == 0)
    && (List.range 11).all fun i => bitsN (wAt h (8 + 2 * i)) 63 8 == 0 && bitsN (wAt h (8 + 2 * i)) 7 0 == i + 1
        && (wAt h (9 + 2 * i)).toNat ≤ b
/-- The saved context whose sections 4 to 11 stand in the area. -/
def State.savedFor (s : State) (h ws : Words) : Option Saved :=
  (s.dev.saved ++ s.dev.spent).find? fun v =>
    let b := v.bytes
    let win := v.ctx.winSize
    let os := saveOffsets v.ctx v.tag b
    let o1 := os.getD 0 0
    b == (wAt h 1).toNat && (bitsN (wAt h 0) 11 10 == 1) == v.frozen
      && (os.zipIdx).all (fun (o, i) => (wAt h (9 + 2 * i)).toNat == o)
      && (List.range (b / 8)).all fun j =>
          let o := 8 * j
          o < saveHead || (o1 ≤ o && o < o1 + 2048 + win) || wAt ws j == restWord v.ctx v.frozen v.tag b o
/-- What a save area holds: the saved context, the window size that its header states, its CSR words, window words and binding words. -/
structure Area where
  v : Saved
  wlog : BitVec 2
  csrs : Words
  win : Words
  binds : Words
deriving DecidableEq, Repr
/-- Reads a save area; none is BADSAVE. -/
def readArea (w : Who) (va : Word) (s : State) : Option Area × State :=
  match readGot w 30 0 va s with
  | (.ok h, s) =>
    if !headOk h then (none, s)
    else match readGot w ((wAt h 1).toNat / 8) 0 va s with
      | (.ok ws, s) =>
        match s.savedFor h ws with
        | none => (none, s)
        | some v =>
          let n1 := (saveOffsets v.ctx v.tag v.bytes).getD 0 0 / 8
          let nw := v.ctx.winSize / 8
          let cs := chunk ws n1 128
          let bs := chunk ws (n1 + 128 + nw) 128
          if csrsOk cs && bindsOk bs then (some ⟨v, BitVec.ofNat 2 (bitsN (wAt h 0) 9 8), cs, chunk ws (n1 + 128) nw, bs⟩, s) else (none, s)
      | (_, s) => (none, s)
  | (_, s) => (none, s)

/-! ### CTXLOAD (22 R396) -/

/-- A firing of the tile in focus stands in the slot. -/
def State.slotBusy (s : State) (k : Nat) : Bool :=
  (s.onTileN s.tile.num.toNat).any fun c =>
    (c.susp.any fun u => u.retired && !u.freed && u.slotNo == k) ||
    (c.firs ++ (if c.id.uid = s.ctx.id.uid then [s.fir] else [])).any fun f => f.id != 0 && f.slotNo == k
/-- The reservation of a restored context: the slots it had, when free, else the lowest. -/
def State.newSlots (s : State) (old : List Nat) : Option (List Nat) :=
  let fr := s.freeSlots s.tile.num.toNat
  if old.all fr.contains then some old
  else if old.length ≤ fr.length then some (fr.take old.length) else none
/-- Slots for the restored firings, one after another: the slot it had, else the first. -/
def giveSlots : List Nat → List Nat → Option (List Nat)
  | [], _ => some []
  | k :: ks, fr =>
    match if fr.contains k then some k else fr.head? with
    | none => none
    | some n => (giveSlots ks (fr.erase n)).map (n :: ·)
/-- The dispatch numbers that stand in a context: of its blocks in flight, and of the WSTRs noted; a restore keeps their order (10
R217). -/
def Ctx.seqs (c : Ctx) : List Nat :=
  ((c.firs.map (·.dseq) ++ c.wlast.toList.flatMap fun l => l.map (·.1)).filter (· != 0)).dedup
/-- The context as it is restored at a place of the tile in focus, without its configurations. -/
def Area.ctx (a : Area) (tile : BitVec 8) (num : BitVec 2) (row dseq : Nat) (slots given : List Nat) : Ctx :=
  let old := a.v.ctx
  let seqs := old.seqs
  let newSeq (n : Nat) : Nat := if n = 0 then 0 else dseq + 1 + (seqs.filter (· < n)).length
  let c := restoreCsrs a.csrs { old with id := { old.id with tile := tile, num := num, row := row, present := true } }
  let c := c.mapKey fun k => if old.owns k then c.winKey (old.offOf k) else k
  { c with
    csr := { c.csr with saving := false, atBound := false }
    graph := { c.graph with slots := slots }
    firs := (c.firs.zip given).map fun (f, k) => { f with
      slotNo := k, dseq := newSeq f.dseq, rets := [] }
    wlast := c.wlast |> mapV fun l => l.map fun x => (newSeq x.1, x.2)
    susp := c.susp.map fun u =>
      let u := { u with freed := u.freed || u.retired }
      match (old.firs.zip given).find? (fun x => x.1.slotNo == u.slotNo) with
      | some (_, k) => { u with slotNo := k }
      | none => u
    handles := Vector.replicate 32 none
    setts := c.setts |> mapIdxV fun b i => restoreBind (wAt a.binds (2 * i)) (wAt a.binds (2 * i + 1)) b
    streams := c.streams |> mapV fun t => { t with st := if t.st = .held then .run else t.st, hold := none }
    chans := c.chans |> mapV fun k => { k with run := k.run.map fun x => { x with hold := none } }
    lq := (c.holdScalar.map (·.2)).toList ++ c.lq, holdScalar := none, holdEngine := none }
/-- Regions return under their numbers, when the tile has their place. -/
def Tile.roomFor (t : Tile) (rs : List (Nat × Region)) : Bool :=
  rs.all fun (r, x) => (t.region r).isNone && !(t.regions.toList.any fun y => match y with
    | some y => x.shareRow y && x.shareCol y
    | none => false)
def Tile.putRegions (t : Tile) (v : Saved) : Tile :=
  { t with regions := v.regions.foldl (fun l (r, x) => setV l r (some x)) t.regions, acc := t.acc ++ v.acc }
/-- A configuration of the restored context, which is in focus, is placed again (14 R306); the ALLOC records of other contexts come
first, its own are owed. -/
def State.replaceCfg (s : State) (h : Nat) (g : CollarCfg) : State × Bool :=
  match s.allocate s.ctx g.img [g.side.toNat] with
  | .at f r moved =>
    let uid := s.ctx.id.uid
    let (own, others) := (s.moveRecs moved).partition (·.1 == uid)
    match s.settleAll others with
    | (s, false) => (s, false)
    | (s, true) =>
      let s := s.applyMoves moved
      (s.onCtx fun c => { c with
        handles := setV c.handles h (some { g with
          first := f, rot := r, nodes := (g.nodes.zip g.img.nodes).map fun (n, e) => { n with slot := e.cslot + r } })
        log := { c.log with owed := c.log.owed ++ own.map (·.2) ++ [allocRec c 1 h f r] } }, true)
  | _ => (s, false)
def State.replaceCfgs : List (Nat × CollarCfg) → State → State × Bool
  | [], s => (s, true)
  | (h, g) :: l, s => match s.replaceCfg h g with
    | (s, true) => s.replaceCfgs l
    | x => x
/-- Requests of pending QWAITs are sent again. -/
def Ctx.quietAgain (c : Ctx) : List QReq :=
  c.firs.flatMap fun f => (f.blk.slots.zipIdx).filterMap fun (sl, k) =>
    match sl.wait with
    | some { on := .quiet j, .. } =>
      if c.sync.replies.any (fun r => r.1 == f.id && r.2.1 == k) then none
      else some { ctx := c.id.uid, fir := f.id, slot := k, job := j }
    | _ => none
/-- What becomes of the restored context, which is in focus, once everything has its place. -/
def State.restored (s : State) (v : Saved) : State :=
  let s := v.upds.foldl State.returnUpdate s
  let s := s.onDev fun d => { d with quietReqs := d.quietReqs ++ s.ctx.quietAgain }
  let i := s.ctx.id
  let s := s.putEntry i.job i.index (placeWord s.tile.module i.tile)
  let s := flushMaps s.ctx.mapq.length s
  if s.ctx.log.held.isEmpty then s else s.resumeLog false
/-- A saved context under a number of its own. -/
def Saved.renamed (v : Saved) (n : Nat) : Saved :=
  { v with
    ctx := { v.ctx with id := { v.ctx.id with uid := n } }
    regions := v.regions.map fun (r, x) => (r, { x with owner := n })
    acc := v.acc.map fun x => { x with owner := n }
    upds := v.upds.map fun x => { x with ctx := n } }
/-- An area that was loaded before, or whose context was killed, gives a context of its own, which its launch counts. -/
def State.again (s : State) (a : Area) : State × Area :=
  if s.dev.saved.any (·.tag == a.v.tag) then (s, a)
  else
    let n := s.dev.nextUid
    ((s.onDev fun d => { d with
        nextUid := n + 1
        launches := d.launches.map fun l => if l.num = a.v.ctx.id.launch then { l with uids := l.uids ++ [n] } else l }).takeJob
      a.v.ctx.id.job, { a with v := a.v.renamed n })
/-- Steps 1 and 2 have claimed a CTXID and a range: the window is zeroed and written there (22 R396). -/
def State.writeWindow (s : State) (a : Area) (num : BitVec 2) (row : Nat) : State :=
  let c := a.ctx s.ctx.id.tile num row 0 [] []
  let s := s.onMem (zeroWindow c.id.tile row c.id.wlog)
  let m := (({ s with ctx := c, fir := {} } : State).winPutAll 0 a.win).mem
  s.onMem fun _ => a.v.wpois.foldl (fun m o => m.setPoison (c.winKey o) true) m
/-- Whether everything that steps 3 to 5 need is free: the reservation of the context, the slots of its firings. -/
def State.restoreSlots (s : State) (a : Area) : Option (List Nat × List Nat) :=
  if (s.dev.jobSlot a.v.ctx.id.job).isNone || s.freeDescs s.tile.num.toNat < a.v.ctx.descriptors || !s.tile.roomFor a.v.regions then none
  else (s.newSlots a.v.ctx.graph.slots).bind fun slots =>
    let fr := s.freeSlots s.tile.num.toNat
    let pool := (slots ++ fr.filter (!slots.contains ·)).filter (!s.slotBusy ·)
    (giveSlots (a.v.ctx.firs.map (·.slotNo)) pool).map fun given => (slots, given)
/-- Steps 3 to 6 in one piece; none while something they need is not free, with what the allocator has written into logs. The context
then stands on its tile and issues nothing until its own records are written. -/
def State.restore (s : State) (a : Area) (num : BitVec 2) (row : Nat) : Option Nat × State :=
  match s.restoreSlots a with
  | none => (none, s)
  | some (slots, given) =>
    let s0 := s
    let (s, a) := s.again a
    let t := s.tile.num
    let uid := a.v.ctx.id.uid
    let c := a.ctx t num row s.tile.dseq slots given
    let s := s.onTile fun t => { t.putRegions a.v with dseq := t.dseq + c.seqs.length }
    let s := { s with ctxs := s.ctxs ++ [{ c with csr := { c.csr with saving := true }, log := { c.log with owed := [] } }] }
    let s := s.onDev fun d => { d with
      saved := d.saved.filter (·.tag != a.v.tag), spent := d.spent.filter (·.tag != a.v.tag) ++ [a.v] }
    let gs := (List.range 32).filterMap fun h => (a.v.ctx.handles.getD h none).map fun g => (h, g)
    let back (f : State) : State := (f.focusCtx s.ctx.id.uid).focusFir s.fir.id
    match (s.focusCtx uid).replaceCfgs gs with
    | (f, true) =>
      let f := f.restored a.v
      (some uid, back (f.onCtx fun c => { c with log := { c.log with owed := c.log.owed ++ [segRec c 5] } }))
    | (f, false) =>
      let f := (f.onTile (·.freeOwner uid)).dropCtx uid
      (none, back (f.onDev fun d => { d with
        saved := s0.dev.saved, spent := s0.dev.spent, nextUid := s0.dev.nextUid, launches := s0.dev.launches, jobs := s0.dev.jobs }))
/-- The records that a restored context owes are written; then it goes on. -/
def payLog : Nat → State → State
  | 0, s => s
  | n + 1, s => match s.ctx.log.owed with
    | [] => s
    | r :: l =>
      let t := s.settle r false allBits
      if t.ctx.isSettled r then
        payLog n (t.onCtx fun c => { c.unsettle r with log := { (c.unsettle r).log with owed := l } })
      else t
def State.payLogs (s : State) : State :=
  let t := payLog s.ctx.log.owed.length s
  if t.ctx.log.owed.isEmpty then t.onCsr fun r => { r with saving := false } else t

/-- Step 1: the area, or why it is refused. -/
def State.loadCheck (s : State) (n : Nat) (r : Option Area) : Except Word (Area × Nat) :=
  match r with
  | none => .error (fault 0x0A2 0)
  | some a =>
    let t := s.ctx.id.tile
    let used := 4 ≤ n || (s.ctxAt t (BitVec.ofNat 2 n)).isSome || (s.claims t.toNat).any (·.1 == n)
    if used then .error (fault 0x0A1 0)
    else match (if a.wlog = a.v.ctx.id.wlog then s.freeRow t.toNat a.wlog else none) with
      | none => .error (fault 0x0A3 0)
      | some row => .ok (a, row)
/-- CTXLOAD as its engine runs it: steps 1 and 2, then the wait for what the rest needs, then its records. -/
def applyCtxload (e : Eff) (s : State) : State :=
  let n := bitsN e.a.val 7 0
  match e.ws with
  | [] =>
    let (r, s) := readArea (s.whoEff e) (BitVec.ofNat 64 (bitsN e.b.val 55 0)) s
    (match s.loadCheck n r with
    | .error st => zqDone s e st
    | .ok (a, row) =>
      zqPut (s.writeWindow a (BitVec.ofNat 2 n) row) e (some { e with
        ws := BitVec.ofNat 64 row :: a.wlog.setWidth 64 :: BitVec.ofNat 64 a.v.tag :: (a.csrs ++ a.binds) }))
  | [uid] =>
    let s := s.within uid.toNat State.payLogs
    if (s.ctxOf uid.toNat).any (fun c => !c.log.owed.isEmpty) then s else zqDone s e stOK
  | row :: wlog :: tag :: ws =>
    (match (s.dev.saved ++ s.dev.spent).find? (·.tag == tag.toNat) with
    | none => zqDone s e (fault 0x0A2 0)
    | some v =>
      match s.restore ⟨v, wlog.setWidth 2, ws.take 128, [], ws.drop 128⟩ (BitVec.ofNat 2 n) row.toNat with
      | (some uid, s) => zqPut s e (some { e with ws := [BitVec.ofNat 64 uid] })
      | (none, s) => s)
  | _ => s
def execCtxload (s : State) : Out :=
  match s.who with
  | .cmd e => .next (sysStep e (applyCtxload e) s)
  | .core =>
    let a := s.opA.val
    let b := s.opB.val
    issueSys .ctxload (if bitsN a 47 8 ≠ 0 then some a
      else if bitsN b 63 56 ≠ 0 ∨ bitsN b 11 0 ≠ 0 then some b else none) s
/-- RESTORE_WAIT_TIMEOUT: a CTXLOAD of the context in focus has waited for DCEIL.CEIL resident cycles. -/
def execRestoreWaitTimeout (s : State) : Out :=
  match s.ctx.zq.find? (fun e => e.ins == .ctxload && e.started && e.ws.length != 1
      && (match e.since with | some t => t + s.ctx.csr.dceil.toNat ≤ s.ctx.now | none => false)) with
  | some e => .next (zqDone s e (status sTIMEOUT 0 0))
  | none => .next s

end Sys2Proof.Machine
end

