-- ==== Sys2Proof/Machine/Sched.lean ====
section
/-! DEFINITION. Which row is executed next: the clock of the contexts, the slots that may issue, and the choice among
the agents (05 R114, R115; 06 R145 to R153; 09 R183; 10 R205; log 2, 3). -/

namespace Sys2Proof.Machine

/-! ### Faults of a block (06 R149, R153) -/

def wordInstr (sl : Slot) : Option Instr := if sl.st == .lit then none else decodeOpt sl.word
def slotKindIs (p : Kind → Bool) (sl : Slot) : Bool := (wordInstr sl).any fun i => p (instrForm i).kind
/-- Slots that count toward a limit: fired or nullified. -/
def Block.counted (b : Block) (p : Kind → Bool) : List Nat :=
  (List.range b.slots.length).filter fun k => match b.slots[k]? with
    | some sl => (sl.st == .done || sl.st == .pend || sl.st == .nul) && slotKindIs p sl
    | none => false
def Block.writes (b : Block) : List Nat := b.counted (· == .w)
def Block.effects (b : Block) : List Nat := b.counted Kind.effect
/-- A count that passes its limit, at the slot that passes it in slot order (log 20). -/
def countFault (l : List Nat) (limit : Nat) : List BFault := match l[limit]? with | some k => [⟨k, 3, 0x0C1, 0, 0⟩] | none => []
def isCsrWriteOf : Instr → Option Csr | .csrw r | .csrx r _ => some r | _ => none
/-- Slots whose write conflicts with one of a lower slot (08 R175, 13 R287): the higher of the two is charged, the model's choice
(log 20). -/
def Block.conflicts (b : Block) : List Nat :=
  let g := b.gw.filterMap fun x => if x.2.1 ≠ 0 ∧ b.gw.any (fun y => y.1 < x.1 && y.2.1 == x.2.1) then some x.1 else none
  let f := b.fw.filterMap fun x => if b.fw.any (fun y => y.1 < x.1 && y.2.clash x.2) then some x.1 else none
  let c := b.effs.filterMap fun e => match isCsrWriteOf e.ins with
    | some r => if b.effs.any (fun d => d.slot < e.slot && isCsrWriteOf d.ins == some r) then some e.slot else none
    | none => none
  g ++ f ++ c
/-- Exits that fire after another, in slot order. -/
def Block.extraExits (b : Block) : List Nat :=
  (b.exits.filter fun x => b.exits.any fun y => y.1 < x.1).map (·.1)
/-- All faults of a block so far. Of two at one slot a count goes before a conflict, and what its own operand brings before a second
exit: the model's choice (log 20). -/
def Block.allFaults (b : Block) : List BFault :=
  b.faults.filter (fun f => f.detail == 0x0C0 && f.cause == 3) ++ b.faults.filter (fun f => !(f.detail == 0x0C0 && f.cause == 3))
    ++ countFault b.writes (hdrWcnt b.hdr) ++ countFault b.effects (hdrOcnt b.hdr)
    ++ b.conflicts.map (fun k => ⟨k, 3, 0x0C3, 0, 0⟩) ++ b.extraExits.map fun k => ⟨k, 3, 0x0C4, 0, 0⟩
/-- The block has met a fault: it is evaluated further, but its waits are cancelled (06 R153). -/
def Block.faulted (b : Block) : Bool := !b.allFaults.isEmpty

/-! ### Queues (01 R26) -/

/-- The vector pipe a form uses (09 R182 to R184, 11 R234, R250). -/
def instrPipe : Instr → Option (BitVec 2)
  | .vadd _ _ _ _ q | .vsub _ _ _ _ q | .vmul _ _ _ _ q | .vfma _ _ _ _ q | .vmin _ _ _ _ q | .vmax _ _ _ _ q
  | .vabs _ _ _ q | .vneg _ _ _ q | .vand _ _ _ q | .vor _ _ _ q | .vxor _ _ _ q | .vshl _ _ _ q | .vshr _ _ _ q
  | .vsar _ _ _ q | .vcmp _ _ _ _ _ q | .vsel _ _ _ q | .vcvt _ _ _ _ q | .vqnt _ _ _ _ q | .vdqnt _ _ _ _ q
  | .vrcp _ _ q | .vrsq _ _ q | .vexp2 _ _ q | .vlog2 _ _ q | .vperm _ _ _ q | .vbfly _ _ _ _ q | .vred _ _ _ q
  | .vscan _ _ _ _ q | .vsmxa _ _ _ q | .vsmxn _ _ _ q | .vstat _ _ _ q | .vsplat _ _ q | .vmovs _ q _
  | .vins _ _ q _ | .vlane _ q | .vmov _ _ q | .sett _ _ _ _ q | .ldv _ _ q _ | .stv _ _ q _ | .amov _ _ q _ => some q
  | _ => none

/-- The queue of an instruction word and its entries: the class's, or the vector sub-queue of its pipe (01 R26). -/
def wordQueue (w : Half) : Nat × Nat :=
  if fCls w = 1 then (8 + (((decodeOpt w).bind instrPipe).map (·.toNat)).getD 0, 16) else (fCls w, 64)
/-- Entries that the instructions of a block hold: until they issue, and those whose effect commit hands over until then. -/
def Block.entries (b : Block) (q : Nat) : Nat :=
  ((b.slots.take (b.slots.length - b.rest)).zipIdx.filter fun (sl, k) =>
    sl.st != .lit && (wordQueue sl.word).1 == q && (sl.st == .wait || b.effs.any (·.slot == k))).length

/-! ### The clock (05 R114, R115, log 2) -/

/-- The least expiry point of the pending waits of a block; a fault of the block cancels them (06 R153). -/
def Block.nextExpiry (b : Block) : Option Nat :=
  (b.slots.foldl (fun m sl => match sl.wait with
    | some w => match w.expiry, m with
      | some e, some x => some (Nat.min e x)
      | some e, none => some e
      | none, _ => m
    | none => m) none).bind fun e => if b.faulted then none else some e

def minOpt : Option Nat → Option Nat → Option Nat
  | some a, some b => some (Nat.min a b)
  | a, none => a
  | none, b => b

/-- The least expiry point of a context: its pending waits, the DGETs that act on their FIFOs, and its sends that wait
after commit. -/
def Ctx.nextExpiry (c : Ctx) (fs : List Firing) : Option Nat :=
  let w := (fs ++ c.firs).foldl (fun m f => minOpt m f.blk.nextExpiry) none
  let w := c.sync.fifo.foldl (fun m e => if e.started && c.fifoFirst e then minOpt m e.expiry else m) w
  c.sends.foldl (fun m x => minOpt m x.expiry) w

/-- BUDGET advances by `n`, not past the end of an expiry window (05 R115). -/
def Ctx.advance (c : Ctx) (d : Dev) (fs : List Firing) (n : Nat) : Ctx :=
  if !c.id.present || c.frozen || d.halted (tDie c.id.tile) then c else
  let b := c.csr.budget.toNat
  let n := match c.nextExpiry fs with
    | some e => if e + 16 < b + n then e + 16 - b else n
    | none => n
  { c with csr := { c.csr with budget := BitVec.ofNat 64 (b + n) } }

/-- The command at the head of a queue, behind those that run, notes when it came there. -/
def markHead (now : Nat) : List Eff → List Eff
  | [] => []
  | e :: l => if e.started then e :: markHead now l else (if e.since.isNone then { e with since := some now } else e) :: l
/-- The command at the head of a queue that takes one command at a time. -/
def markFirst (now : Nat) : List Eff → List Eff
  | [] => []
  | e :: l => (if e.since.isNone then { e with since := some now } else e) :: l
/-- The first DPUT or DGET of each FIFO. -/
def markFifo (now : Nat) : List Nat → List Eff → List Eff
  | _, [] => []
  | seen, e :: l =>
    let q := effFifo e
    (if e.since.isNone && !seen.contains q then { e with since := some now } else e) :: markFifo now (q :: seen) l
def Ctx.mark (c : Ctx) : Ctx :=
  let now := c.csr.budget.toNat
  { c with mq := markHead now c.mq, cq := markFirst now c.cq, zq := markHead now c.zq, sync := { c.sync with fifo := markFifo now [] c.sync.fifo } }

/-- Cycles of the dies that run: ports, clocks, the wave root (05 R132, 27 R439, R446). -/
def Dev.advance (d : Dev) (n : Nat) : Dev :=
  let one (l : Link) (port : Nat) : Link :=
    if d.halted (port / 6) then l else { l with idleTx := l.idleTx + n, idleRx := l.idleRx + n }
  { d with
    links := mapIdxV one d.links
    clk := d.clk |> mapIdxV fun x i => if d.halted i then x else x + n
    waveAge := if d.halted 0 then d.waveAge else d.waveAge.map (· + n) }
/-- The cycles of one step. -/
def State.tick (s : State) : State :=
  let n := Config.cycles s.freeCtr
  { s.drawn with
    ctx := (s.ctx.advance s.dev [s.fir] n).mark, ctxs := s.ctxs.map fun c => (c.advance s.dev [] n).mark
    dev := s.dev.advance n }

/-- A wait whose expiry is detected now: BUDGET lies in [E, E + 16] (05 R115). -/
def Ctx.dueAt (c : Ctx) (lag : Nat) (e : Nat) : Bool := e + lag % 17 ≤ c.csr.budget.toNat
def Block.due (b : Block) (c : Ctx) (lag : Nat) : Bool :=
  (b.slots.any fun sl => match sl.wait with
    | some w => match w.expiry with
      | some e => c.dueAt lag e && !w.on.isReply
      | none => w.onceMore
    | none => false) && !b.faulted
/-- The firing in the lowest slot of a list. -/
def lowestFir : List Firing → Option Firing
  | [] => none
  | f :: l => match lowestFir l with
    | some g => if g.slotNo < f.slotNo then some g else some f
    | none => some f
/-- The firing with a due wait, the lowest slot first (05 R118); 0 when a send is due. -/
def Ctx.dueFir (c : Ctx) (d : Dev) (fs : List Firing) (lag : Nat) : Option Nat :=
  if !c.id.present || c.stopped || d.halted (tDie c.id.tile) then none else
  match lowestFir ((fs ++ c.firs).filter (fun f => f.id != 0 && f.phase == .run && f.blk.due c lag)) with
  | some f => some f.id
  | none => if c.sends.any (fun x => match x.expiry with | some e => c.dueAt lag e | none => false) then some 0 else none
def findDue (d : Dev) (lag : Nat) : List Ctx → Option (Nat × Nat)
  | [] => none
  | c :: cs => match c.dueFir d [] lag with
    | some f => some (c.id.uid, f)
    | none => findDue d lag cs
/-- The context and firing whose deadline is found to have expired. -/
def State.due (s : State) : Option (Nat × Nat) :=
  let lag := Config.lag s.freeCtr
  match s.ctx.dueFir s.dev [s.fir] lag with
  | some f => some (s.ctx.id.uid, f)
  | none => findDue s.dev lag s.ctxs

/-! ### Slots that may issue -/

/-- Every expected position is satisfied (06 R145). -/
def Slot.ready (sl : Slot) : Bool :=
  sl.st == .wait && (!sl.expA || sl.a.isSome) && (!sl.expB || sl.b.isSome) && (!sl.expP || sl.p.isSome)
    && sl.o == sl.expO

/-- Forms that issue in dispatch order within their queue: a number for each queue (09 R183, 10 R205, 13 R287). -/
def instrQueue : Instr → Option Nat
  | .mregion .. | .mfmt .. | .mwld .. | .mswap .. | .mstep .. | .macc .. | .mdrain .. | .mzero .. | .mstat ..
  | .mfree .. => some 4
  | .cload .. | .cfire .. | .cpatch .. | .cmcast .. | .cevict .. | .cstat .. | .cweight .. | .chang .. | .cfreeze ..
  | .cthaw .. | .sbind .. | .sfree .. | .squery .. => some 5
  | i => (instrPipe i).map (·.toNat)

def isCsrWrite : Instr → Bool | .csrw .. | .csrx .. => true | _ => false
def isTagWrite : Instr → Bool | .tset | .tclr => true | _ => false
def isCsrRead : Instr → Bool | .csrr .. | .csrx .. => true | _ => false

/-- A lower slot of the block in the same queue is undecided. -/
def Block.before (b : Block) (k : Nat) (n : Nat) : Bool :=
  (b.slots.take k).any fun sl => (sl.st == .wait || sl.st == .pend) && (wordInstr sl).bind instrQueue == some n

/-- Forms that take from the head of one place in slot order: a number for each place (11 R231, R242; 12 R262, R265). -/
def takeOf : Instr → Option Nat
  | .kevq .. => some 0
  | .krecv n .. => some (1 + n.toNat)
  | .ldg n .. => some (17 + n.toNat)
  | .ld .host .. => some 49
  | _ => none
/-- A lower slot that takes from the same place may still fire. -/
def Block.takesBefore (b : Block) (k : Nat) (n : Nat) : Bool :=
  (b.slots.take k).any fun sl => sl.st == .wait && (wordInstr sl).bind takeOf == some n
/-- What is left of the block to dispatch waits for an entry that only the block itself can free: its own instructions fill the queue
(01 R26; log 74). -/
def Block.stuck (b : Block) : Bool :=
  match b.slots[b.slots.length - b.rest]? with
  | some sl => (wordQueue sl.word).2 ≤ b.entries (wordQueue sl.word).1
  | none => false
/-- The slot may fire as far as its own block is concerned: none does before the last is dispatched (18 R326), but where the block would
never be dispatched whole. -/
def Block.mayFire (b : Block) (k : Nat) (sl : Slot) : Bool :=
  sl.ready && (b.rest == 0 || (b.stuck && decide (k + b.rest < b.slots.length)))
    && (match (wordInstr sl).bind instrQueue with
      | some n => !b.before k n
      | none => true)
    && match (wordInstr sl).bind takeOf with
      | some n => !b.takesBefore k n
      | none => true

/-- Blocks of a context in flight that were dispatched before number `n`. -/
def Ctx.inFlight (c : Ctx) (n : Nat) : List Block :=
  c.firs.flatMap fun f => if f.phase == .run && f.dseq < n then f.blk :: f.ahead.filter (·.dseq < n) else []
/-- Blocks of other firings dispatched before the one in focus: of its context, and of the other contexts of its tile. -/
def State.earlier (s : State) : List Block := s.ctx.inFlight s.fir.dseq
def State.earlierTile (s : State) : List Block :=
  (s.ctxs.filter fun c => c.id.present && c.id.tile == s.ctx.id.tile).flatMap fun c => c.inFlight s.fir.dseq

/-- A write of SPACE, and an access that is translated when it issues (21 R366). -/
def setsSpace : Instr → Bool | .csrw .space | .csrx .space _ => true | _ => false
def isGlobal : Instr → Bool
  | .ld .global .. | .st .global .. | .ldv .global .. | .stv .global .. | .spawn true .. => true
  | .amo .. | .amov .. | .cas .. => true
  | .bari _ | .bara .. | .bard .. | .barw .. | .baraw .. | .bart .. => true
  | _ => false
def isRsr : Instr → Bool | .vcvt _ .rsr .. => true | _ => false
def writesSrctr : Instr → Bool | .csrw .srctr | .csrx .srctr _ => true | _ => false
/-- A slot of the blocks that may hold another instruction back: it satisfies `p`, and its state `q`. -/
def heldBack (bs : List Block) (p : Instr → Bool) (q : SlotSt → Bool) : Bool :=
  bs.any fun b => b.slots.any fun sl => q sl.st && match wordInstr sl with | some j => p j | none => false
/-- Nothing dispatched or handed over earlier holds the instruction back: in a vector pipe the instructions of every block
dispatched earlier on the tile that is still in flight, but for those predicated off or nullified (06 R147, 09 R184); in the
queues M and C those of the context that have not issued (10 R208); and what the reading forms must see (09 R183, 11 R246,
13 R287; 10 R213, R225, R227; 11 R255; 12 R269). In a block that writes SPACE an access waits for earlier blocks that write it too,
so that each sees the SPACE of its commit (21 R366; log 121). -/
def State.mayIssue (s : State) (i : Instr) : Bool :=
  let others (p : Instr → Bool) : Bool := heldBack s.earlier p fun _ => true
  (match instrPipe i with
    | some q => !heldBack (s.earlier ++ s.earlierTile) (fun j => instrPipe j == some q) fun t => t != .off && t != .nul
    | none => match instrQueue i with
      | some n => !heldBack s.earlier (fun j => instrQueue j == some n) fun t => t == .wait
      | none => true)
  && (!isCsrRead i || !(others isCsrWrite || s.ctx.dq.any fun e => isCsrWrite e.ins))
  && (!isGlobal i || !(heldBack [s.fir.blk] setsSpace (fun _ => true) && others setsSpace))
  && (!isRsr i || !s.ctx.dq.any fun e => writesSrctr e.ins)
  && match i with
    | .tlook .. => !(others isTagWrite || s.ctx.lq.any fun e => isTagWrite e.ins)
    | .mstat .. => s.ctx.mq.all (·.started)
    | .cstat .. | .squery .. => s.ctx.cq.isEmpty
    | .kstat .. => s.ctx.kq.isEmpty
    | .ringstat n .. => !s.ctx.lq.any fun e => e.ins == .ringdef n
    | _ => true

/-- The slots from `k` on that may fire. -/
def Block.fireable (b : Block) : List Slot → Nat → List Nat
  | [], _ => []
  | sl :: l, k => if b.mayFire k sl then k :: b.fireable l (k + 1) else b.fireable l (k + 1)

/-- The slots that may issue now, lowest first, and their instructions. -/
def State.issuable (s : State) : List (Nat × Instr) :=
  (s.fir.blk.fireable s.fir.blk.slots 0).filterMap fun k =>
    match (s.fir.blk.slots[k]?).bind wordInstr with
    | some i => if s.mayIssue i then some (k, i) else none
    | none => none

/-- The block is decided: no slot can fire any more, and no wait is pending, but that a faulted block cancels its
waits (06 R149, R153). -/
def Block.decided (b : Block) : Bool :=
  (b.fireable b.slots 0).isEmpty && b.rest == 0
    && ((b.slots.all (·.st != .pend))
      || (b.faulted && b.slots.all fun sl => sl.st != .pend || (match sl.wait with | some w => !w.on.isReply | none => true)))

end Sys2Proof.Machine
end

