-- ==== Sys2Proof/Machine/Control.lean ====
section
/-! DEFINITION. The control core between instructions: fetch, dispatch and commit of blocks, the actor scheduler, the end of
waits, resumption of firings (02 R40 to R45; 04 R109; 05 R111 to R119, R130; 06 R139 to R153; 09 R183; 11 R231; 12 R264; 14
R295; 18 R331; 22 R383 to R388; 24 R409 to R414). -/

namespace Sys2Proof.Machine

/-- Device reset (00 R6). Memory keeps its bytes, and what the outside is about to do goes on (log 26). -/
def execDeviceReset (s : State) : Out :=
  .next { State.reset with
    mem := s.mem, agenda := s.agenda, freeCtr := s.freeCtr, dev := { ({} : Dev) with upsets := s.dev.upsets } }

/-- Whether a command changes flags. -/
def isFlagEff : Instr → Bool | .setf _ | .clrf _ => true | _ => false

/-! ### BLOCK_FETCH (06 R139, R142) -/

/-- Fetches words through the firing's SPACE; detail and address of the first that cannot be fetched. -/
def fetchWords : Nat → Word → State → Except (BitVec 12 × Word) (List Half) × State
  | 0, _, s => (.ok [], s)
  | n + 1, va, s =>
    match s.global s.who4 .fetch va 4 with
    | (.error d, s) => (.error (d, va), s)
    | (.ok (.mem k), s) =>
      let s := s.touch va k 4
      let w := BitVec.ofNat 32 (s.mem.read (s.kvOf s.who4 k) k 4)
      match fetchWords n (va + 4) s with
      | (.ok l, s) => (.ok (w :: l), s)
      | r => r
    | (.ok _, s) => (.error (dPERM, va), s)
/-- The context in focus may issue. -/
def State.runs (s : State) : Bool := s.ctx.id.present && !s.ctx.stopped
/-- The header at an address and the slots that it counts, or the detail and address of the first word that cannot be fetched. -/
def State.readBlock (s : State) (pc : Word) : Except (BitVec 12 × Word) Block × State :=
  match fetchWords 1 pc s with
  | (.error x, s) => (.error x, s)
  | (.ok l, s) =>
    let h := l.headD 0
    match fetchWords (hdrNm1 h + 1) (pc + 4) s with
    | (.error x, s) => (.error x, s)
    | (.ok ws, s) => (.ok { addr := pc, hdr := h, slots := ws.map fun w => { word := w } }, s)
/-- Fetches the block at the firing's pc, or takes the fetch fault. -/
def State.fetchBlock (s : State) : State :=
  let pc := s.fir.pc
  if badTarget pc then s.takeTrap 3 0x0C5 0 pc 0
  else match s.readBlock pc with
    | (.error (d, a), s) => s.takeTrap 5 d 0 a 3
    | (.ok b, s) => s.onFir fun f => { f with phase := .dispatch, blk := b }
/-- Nothing is fetched after the block before it commits: RET is 1 (06 R150); it holds a YIELD, a change of flags or a write of SPACE,
after which fetches differ (13 R284, R278; 21 R366). -/
def Block.stops (b : Block) : Bool :=
  hdrRet b.hdr || b.slots.any fun sl => (wordInstr sl).any fun i => i == .yield || isFlagEff i || setsSpace i
/-- The youngest block of the firing that is dispatched. -/
def Firing.youngest (f : Firing) : Block := f.ahead.getLast?.getD f.blk
/-- Where the core may fetch a block ahead of commit, at the predicted exit of the youngest: four blocks are dispatched at most (06
R150). -/
def Firing.aheadAt (f : Firing) : Option Word :=
  let b := f.youngest
  if f.phase = .run ∧ f.fetched = none ∧ f.ahead.length < 3 ∧ b.rest = 0 ∧ !b.stops then b.next.filter (!badTarget ·) else none
/-- Fetches ahead; a block that cannot be fetched faults when it is next, and leaves no trace before. -/
def State.fetchAhead (s : State) (pc : Word) : State :=
  match (s.onFir fun f => { f with blk := {} }).readBlock pc with
  | (.ok b, t) => t.onFir fun f => { f with blk := s.fir.blk, fetched := some b }
  | (.error _, _) => s
def execBlockFetch (s : State) : Out :=
  if s.fir.id ≠ 0 ∧ s.fir.phase = .fetch ∧ s.runs ∧ !(s.ctx.dq.any fun e => isFlagEff e.ins && e.fir == s.fir.id) then
    .next s.fetchBlock
  else match s.fir.aheadAt with
    | some pc => .next (if s.fir.id ≠ 0 ∧ s.runs then s.fetchAhead pc else s)
    | none => .next s

/-! ### BLOCK_DISPATCH (06 R145, R152) -/

/-- The slots of a checked block, with the positions they expect. -/
def dispatchSlots (rows : List Row) : List Slot :=
  (rows.zipIdx).map fun (r, k) =>
    { word := r.word, expA := namedBy rows k .a rows 0 ≠ 0, expB := namedBy rows k .b rows 0 ≠ 0
      expP := namedBy rows k .p rows 0 ≠ 0, expO := namedBy rows k .o rows 0, st := if r.lit then .lit else .wait }
/-- Entries that commands keep until their engine has applied them. -/
def Ctx.entries (c : Ctx) : Nat → Nat
  | 2 => c.mq.length | 3 => c.cq.length | 4 => c.lq.length | 5 => c.kq.length | 6 => c.sync.fifo.length | 7 => c.zq.length
  | _ => 0
/-- Entries that the blocks of a firing hold. -/
def Firing.entries (f : Firing) (q : Nat) : Nat := ((f.blk :: f.ahead).map fun b => b.entries q).sum
/-- Entries in use of a queue of the tile in focus. -/
def State.entries (s : State) (q : Nat) : Nat :=
  let cs := s.allCtxs.filter fun c => c.id.tile == s.ctx.id.tile
  (cs.map fun c => c.entries q).sum
    + (s.fir.entries q + (cs.flatMap fun c => (c.firs.filter (·.phase == .run)).map fun f => f.entries q).sum)
/-- Slots that find entries, in block order; the first that finds none stops the rest (01 R26). -/
def fitting : List Nat → List Slot → Nat
  | _, [] => 0
  | use, sl :: l =>
    if sl.st != .wait then 1 + fitting use l
    else
      let (q, n) := wordQueue sl.word
      if use.getD q 0 < n then 1 + fitting (modAt use q (· + 1)) l else 0
/-- Slots of the block in focus that wait for entries get them as far as there are any (log 74). -/
def State.dispatchMore (s : State) : State :=
  let b := s.fir.blk
  s.onBlk fun b' => { b' with rest := b.rest - fitting ((List.range 12).map s.entries) (b.slots.drop (b.slots.length - b.rest)) }
def isExit : Instr → Bool | .br .. | .bri .. | .call .. | .ret .. | .retire => true | _ => false
/-- The exit that is predicted for the block in focus: the slot of the exit table, when it is an exit slot of the block, else the
lowest exit slot that expects no P, else the lowest (18 R327). -/
def State.predicted (s : State) : Option Nat :=
  let b := s.fir.blk
  let exits := (b.slots.zipIdx).filter fun (sl, _) => (wordInstr sl).any isExit
  match ((getKey (exitIndex b.addr) s.tile.exitTab).map (·.1)).filter fun k => exits.any (·.2 == k) with
  | some k => some k
  | none => (((exits.filter fun x => !x.1.expP).head?).orElse fun _ => exits.head?).map (·.2)
/-- The target of an exit slot of the block in focus, as it is predicted: RET takes it from the return stack, and like BR when that is
empty; else that of the exit table, if it is the exit noted there, and of BRI and CALL their own (18 R327). -/
def State.predictedTarget (s : State) (k : Nat) : Option Word :=
  let b := s.fir.blk
  let noted := ((getKey (exitIndex b.addr) s.tile.exitTab).filter (·.1 == k)).map (·.2)
  match (b.slots[k]?).bind wordInstr with
  | some (.ret ..) => (s.fir.rets.head?).orElse fun _ => noted
  | some (.bri imm ..) | some (.call imm ..) => noted.orElse fun _ => some (relTarget s imm)
  | some (.br ..) => noted
  | _ => none
/-- RET pops the return stack at dispatch, when it is the predicted exit (18 R327). -/
def State.popReturn (s : State) : State :=
  match (s.predicted.bind fun k => s.fir.blk.slots[k]?).bind wordInstr with
  | some (.ret ..) => s.onFir fun f => { f with rets := f.rets.drop 1 }
  | _ => s
/-- The block in focus notes where its predicted exit goes. -/
def State.notePrediction (s : State) : State := s.onBlk fun b => { b with next := s.predicted.bind s.predictedTarget }
/-- Checks the fetched block: the trap of its reported fault, or its slots are ready to fire. -/
def State.dispatchBlock (s : State) : State :=
  let b := s.fir.blk
  let ws := b.slots.map (·.word)
  match blockFault s.ctx.id.sup b.hdr ws with
  | some (k, e) =>
    let w : Half := match k with | some k => ws.getD k 0 | none => b.hdr
    s.takeTrap (if e = .priv then 2 else 1) e.num (k.getD 0) (w.setWidth 64) 0
  | none =>
    let n := s.tile.dseq + 1
    let sls := dispatchSlots (blockRows ws)
    ((s.onTile fun t => { t with dseq := n, served := s.fir.slotNo % 8 }).onFir fun f => { f with
      phase := .run, dseq := n, yielded := false
      blk := { f.blk with slots := sls, rest := sls.length, dseq := n } }).notePrediction.popReturn.dispatchMore
/-- The block fetched ahead is dispatched when it is legal and all its slots find entries; a breach is reported when it is next, and
its slots are not dispatched in part (06 R150, R152; 01 R26). -/
def State.dispatchAhead (s : State) : Option State :=
  s.fir.fetched.bind fun b =>
    let ws := b.slots.map (·.word)
    let sls := dispatchSlots (blockRows ws)
    if (blockFault s.ctx.id.sup b.hdr ws).isSome || fitting ((List.range 12).map s.entries) sls != sls.length then none
    else
      let n := s.tile.dseq + 1
      let t := ((s.onTile fun t => { t with dseq := n, served := s.fir.slotNo % 8 }).onFir fun f => { f with
        blk := { b with slots := sls, dseq := n } }).notePrediction.popReturn
      some (t.onFir fun f => { f with blk := s.fir.blk, ahead := f.ahead ++ [f.blk], fetched := none })
/-- BLOCK_DISPATCH of a block, of what is left of one that found a queue full, or of one ahead of commit. -/
def execBlockDispatch (s : State) : Out :=
  if s.fir.id ≠ 0 ∧ s.fir.phase = .dispatch ∧ s.runs then .next s.dispatchBlock
  else if s.fir.id ≠ 0 ∧ s.fir.phase = .run ∧ s.runs then
    .next (if s.fir.blk.rest ≠ 0 then s.dispatchMore else s.dispatchAhead.getD s)
  else .next s

/-! ### Faults of a block as it ends (06 R149, R153) -/

/-- The fault of the lowest slot; of one slot the first. -/
def lowestFault : List BFault → Option BFault
  | [] => none
  | f :: l => match lowestFault l with
    | some g => if g.slot < f.slot then some g else some f
    | none => some f
/-- One exit has fired and both counts are met. -/
def Block.complete (b : Block) : Bool :=
  b.exits.length == 1 && b.writes.length == hdrWcnt b.hdr && b.effects.length == hdrOcnt b.hdr
/-- Records tied to the block, in slot order. -/
def insSlot {α : Type} (x : Nat × α) : List (Nat × α) → List (Nat × α)
  | [] => [x]
  | y :: l => if x.1 < y.1 then x :: y :: l else y :: insSlot x l
def bySlot {α : Type} (l : List (Nat × α)) : List (Nat × α) := l.foldl (fun m x => insSlot x m) []
/-- LOGFULL of a complete block in the cycle of its commit (24 R411, R414). -/
def State.logFault (s : State) : Option BFault :=
  let l := bySlot s.fir.blk.logs
  let k := l.length
  let c := s.ctx
  let mk (d : BitVec 12) : Option BFault := some ⟨((l.head?).map (·.1)).getD 0, 11, d, c.logposRead, BitVec.ofNat 64 k⟩
  if k = 0 || !c.logOn then none
  else if c.logSteer then
    let e := s.expected 0 0
    if e.length < k then mk 0x0D0
    else if ((l.zip e).zipIdx).all fun ((r, x), i) => recMatches (c.log.lseq + i) r.2 allBits x.2 then none else mk 0x0D2
  else if c.logN < c.logUsed + k + 16 then mk 0x0D0
  else none
/-- The fault of R153 that ends the block instead of its commit. A block-incomplete fault, which no slot raises, gets FSLOT 0: the
model's choice (log 20). -/
def State.blockEnd (s : State) : Option BFault :=
  match lowestFault s.fir.blk.allFaults with
  | some f => some f
  | none => if s.fir.blk.complete then none else some ⟨0, 3, 0x0C2, 0, 0⟩
/-- A breakpoint: the block is abandoned, to be fetched again, and the context frozen (13 R285, 22 R390). -/
def State.breakAt (s : State) (k : Nat) : State :=
  let a := s.fir.blk.addr
  let s := s.abandon.1.onFir fun f => { f with phase := .fetch, pc := a, blk := {} }
  (s.onCsr fun c => { c with holdBrk := true }).raise 4 [BitVec.ofNat 64 k, a]
def State.endFault (s : State) (f : BFault) : State :=
  if f.cause = 0 then s.breakAt f.slot else s.takeTrap f.cause f.detail f.slot f.info0 f.info1

/-! ### Effects at commit (06 R150, 11 R251) -/

/-- Where a committed effect goes: the queue of an engine, or it is applied at once. -/
inductive Route where
  | mq | cq | lq | kq | zq | now
deriving DecidableEq, Repr
def instrRoute : Instr → Route
  | .mregion .. | .mfmt .. | .mwld .. | .mswap .. | .mstep .. | .macc .. | .mdrain .. | .mzero .. | .mfree .. => .mq
  | .cload .. | .cfire .. | .cpatch .. | .cmcast .. | .cevict .. | .cweight .. | .chang .. | .cfreeze .. | .cthaw ..
  | .sbind .. | .sfree .. => .cq
  | .agen .. | .astart .. | .astop .. | .abar | .ldw .. | .sts .. | .pxform .. | .pmerge .. | .ringdef .. | .resume
  | .amo .. | .amov .. | .cas .. => .lq
  | .kcopy .. | .kgath .. | .kscat .. | .kred .. | .kcoll .. | .kport .. => .kq
  | .kill .. | .spinv | .tlbinv | .keysel | .ctxsave | .ctxload => .zq
  | _ => .now
/-- What a return has taken leaves its place, whatever the command waits for. -/
def isTake : Instr → Bool | .krecv .. | .kevq .. | .ldg .. | .ld .. | .join .. => true | _ => false
/-- Consumers of an atomic at the O position of a slot. -/
def feedsO (i : Instr) (k : Nat) : Bool :=
  match i with
  | .amo .. | .amov .. | .cas .. => (instrDests i).any fun d => d.slot.toNat == k && d.pos == .o
  | _ => false
/-- Slots with a token edge into a slot: those that name its O, and those that name a FAN among these (04 R96). -/
def Block.edgesInto (b : Block) : Nat → Nat → Option Pos → List Nat
  | 0, _, _ => []
  | n + 1, k, pos =>
    let l := (List.range b.slots.length).filter fun j => match b.slots[j]? with
      | some sl => sl.st != .lit && (wordDests sl.word).any fun d =>
          d.slot.toNat == k && (match pos with | some q => d.pos == q | none => true)
      | none => false
    l ++ l.flatMap fun j => match (b.slots[j]?).bind wordInstr with
      | some (.fan ..) => b.edgesInto n j none
      | _ => []
/-- Serials and update numbers of the effects of a block, in order, and the registers as the block sees them (09 R183, 21 R368). -/
def numberEffs (s : State) : List Eff → Nat → Nat → Nat → Nat → List Eff
  | [], _, _, _, _ => []
  | e :: l, ser, upd, seq, fseq =>
    let n := effUpds e
    let fix := e.fix || s.fixedSeen
    { e with ser := ser, upd := upd, seq := seq, fseq := fseq, fix := fix, space := s.spaceSeen, keyslot := s.keySeen }
      :: numberEffs s l (ser + 1) (upd + n) (seq + n) (if fix then fseq + n else fseq)
def updsOf (e : Eff) : List Nat := (List.range (effUpds e)).map (e.upd + ·)
/-- The effects of the block in order, each with the updates it waits for. -/
def State.commitEffs (s : State) : List Eff :=
  let es := (bySlot (s.fir.blk.effs.map fun e => (e.slot, e))).map (·.2)
  let ns := numberEffs s es (s.ctx.ser + 1) s.dev.nextUpd s.ctx.updSeq s.ctx.fixSeq
  let b := s.fir.blk
  ns.map fun e =>
    let from_ := if ns.any (fun x => isStore x.ins) then b.edgesInto b.slots.length e.slot (some .o) else []
    { e with
      fir := s.fir.id, blk := b.addr, after := (ns.filter fun x => feedsO x.ins e.slot).flatMap updsOf
      behind := (ns.filter fun x => isStore x.ins && from_.contains x.slot).map (·.ser)
      base := (s.ctx.ser, s.dev.nextUpd), top := (s.ctx.ser + ns.length, s.dev.nextUpd + (ns.map effUpds).sum) }

/-- Takes the slot of an ingress channel that an LD.h has returned, unless it was discarded since (20 R362). -/
def State.commitHostTake (s : State) (e : Eff) : State :=
  match e.ws with
  | c :: gen :: _ => if BitVec.ofNat 64 (s.dev.hch.getD c.toNat {}).gen = gen then s.hostDrop c.toNat 1 else s
  | _ => s
/-- A JOIN that returned for good closes its handle; its launch is forgotten. -/
def State.closeHandle (s : State) (h : Nat) : State :=
  let l := (s.ctx.sync.children.getD h {}).launch
  let s := s.commitJoin h
  match l with | some n => s.reportLaunch n | none => s
/-- An effect that is applied at once. -/
def State.applyNow (s : State) (e : Eff) : State :=
  match e.ins with
  | .st .. | .stv .. => s.commitStore e
  | .tset => s.onCtx fun c => c.commitTset e.a.val e.b.val
  | .tclr => s.onCtx fun c => c.commitTclr e.a.val
  | .bari _ => s.commitBari e
  | .setf _ | .clrf _ => s.commitFlags e
  | .yield => s.commitYield
  | .tret => s.commitTret e.a.val
  | .csrw r | .csrx r _ => s.csrWrite r e.a.val
  | .escal _ => s.commitEscal e
  | .spawn .. => s.commitSpawn e
  | .kcancel => s.cancelMask e.ser e.a.val
  | .krecv n .. => s.commitRecv n.toNat
  | .ldg n .. => s.onCtx fun c => (c.takeElems n.toNat 1).settle n.toNat
  | .ld .. => s.commitHostTake e
  | .join .. => s.closeHandle ((e.ws.headD 0).toNat)
  | .ksend .. => s.createSend e
  | .dput _ | .dget _ => s.commitFifo e
  | _ => s
/-- One effect of a committing block is handed over. -/
def State.handOver (s : State) (e : Eff) : State :=
  let e := s.withFirings e
  let s := s.onCtx fun c => { c with
    ser := Nat.max c.ser e.ser
    updSeq := Nat.max c.updSeq (e.seq + effUpds e)
    fixSeq := Nat.max c.fixSeq (e.fseq + if e.fix then effUpds e else 0) }
  let s := s.onDev fun d => { d with nextUpd := Nat.max d.nextUpd (e.upd + effUpds e) }
  match instrRoute e.ins with
  | .mq =>
    let s := s.onCtx fun c => { c with mq := c.mq ++ [e] }
    match e.ins with
    | .mwld r =>
      let oldest := (s.ctx.firs.filter (·.phase == .run)).foldl (fun n f => Nat.min n f.dseq) s.fir.dseq
      s.onCtx fun c => { c with wlast := modV c.wlast r.toNat (noteWstr oldest (s.fir.dseq, BitVec.ofNat 5 (bitsN e.a.val 4 0))) }
    | _ => s
  | .cq => s.onCtx fun c => { c with cq := c.cq ++ [e] }
  | .kq => s.onCtx fun c => { c with kq := c.kq ++ [e] }
  | .zq => s.onCtx fun c => { c with zq := c.zq ++ [e] }
  | .lq =>
    let (e, s) := match e.ins with
      | .agen _ => if s.effFree e && !s.readWaits e (s.ctx.descKeys e) then s.readDesc e else (e, s)
      | _ => (e, s)
    s.onCtx fun c => { c with lq := c.lq ++ [e] }
  | .now =>
    let late := !s.effFree e
    match e.ins with
    | .ksend .. =>
      let e := s.fixExpiry e
      let s := s.onNet s.ctx.id.tile s.ctx.id.job Counters.inject
      if late || s.readWaits e (s.ctx.bodyKeys e) then s.onCtx fun c => { c with kq := c.kq ++ [e] }
      else
        let s := (s.ctx.bodyKeys e).foldl (fun s k => s.touch 0 k 8) s
        let e := s.readBody e
        if s.ctx.kq.isEmpty then s.createSend e else s.onCtx fun c => { c with kq := c.kq ++ [e] }
    | .kcancel => if late then s.onCtx fun c => { c with kq := c.kq ++ [e] } else s.applyNow e
    | .dput _ | .dget _ => s.commitFifo e
    | i =>
      if isTake i then s.applyNow e
      else if isStore i && (late || s.ctx.holdScalar.isSome || s.ctx.lq.any fun x => isStore x.ins) then
        s.onCtx fun c => { c with lq := c.lq ++ [e] }
      else if late then s.onCtx fun c => { c with dq := c.dq ++ [e] }
      else s.applyNow e

/-! ### BLOCK_COMMIT (06 R150) -/

/-- The register and flag writes of a block. -/
def Firing.commitRegs (f : Firing) : Firing :=
  let b := f.blk
  let g := (bySlot b.gw).foldl (fun (f : Firing) x =>
    if x.2.1 = 0 then f
    else { f with regs := f.regs.set x.2.1.toFin x.2.2.val
                  gpois := if x.2.2.poison then f.gpois ||| ((1 : Word) <<< x.2.1.toNat)
                           else f.gpois &&& ~~~((1 : Word) <<< x.2.1.toNat) }) f
  { g with flags := applyFlags ((bySlot b.fw).map (·.2)) f.flags }
/-- The vector writes, FPMODE flags and SRCTR increments of a block (09 R183). -/
def Ctx.commitVector (c : Ctx) (b : Block) : Ctx :=
  let inc (n : Nat) (q : Nat) : Nat := (c.csr.srctr.toNat / 2 ^ (16 * q) + b.srinc.getD q 0) % 65536 * 2 ^ (16 * q) + n
  { c with
    pipes := mapIdxV (fun p k => (b.pipes.getD k none).getD p) c.pipes
    csr := { c.csr with
      fpmode := c.csr.fpmode ||| b.fp, srctr := BitVec.ofNat 64 ((List.range 4).foldl inc 0)
      perf := modV c.csr.perf 0 (· + 1) } }
/-- The records tied to the block are written or found expected. -/
def State.commitLogs (s : State) : State :=
  let l := bySlot s.fir.blk.logs
  if !s.ctx.logOn then s
  else if s.ctx.logSteer then (l.zip (s.expected 0 0)).foldl (fun s x => s.consume x.2.1 x.1.2) s
  else
    let t := l.foldl (fun s x => s.logPut x.2) s
    match t.ctx.log.held with
    | _ :: r :: _ => t.logHold 0x0D1 r
    | _ => t
/-- The records of the block cannot be written while the bore-log port is held: the block waits, and its context is frozen (24 R407,
R412). -/
def State.logWaits (s : State) : Option LogRec :=
  if s.ctx.logOn && !s.ctx.logSteer && !s.ctx.log.held.isEmpty then ((bySlot s.fir.blk.logs).head?).map (·.2) else none
/-- Word 1 of the records that the KEVQs of the block take from EVQ: their SEQ tells them from all others there. -/
def takenRecs (es : List Eff) : List Word :=
  es.filterMap fun e => match e.ins with | .kevq .. => e.ws.head? | _ => none

/-! ### RETIRE (02 R42) -/

/-- Slots of an ingress channel up to its `n`-th item. -/
def slotsFor : Nat → List (Word × Word) → Nat
  | 0, _ => 0
  | _, [] => 0
  | n + 1, x :: l => if slotKind x.2 = 0 then 1 + slotsFor n l else 1 + slotsFor (n + 1) l
/-- The message at the head of a ring of the graph is released. -/
def Ring.release (r : Ring) : Ring :=
  let r := dropPads r.msgs.length r
  match r.msgs with
  | [] => r
  | m :: ms => dropPads ms.length { r with msgs := ms, head := (r.head + m.lines) % r.size, free := r.free + m.lines }
/-- An input port releases its items. -/
def State.releaseIn (s : State) (p : GPort) : State :=
  let g := s.ctx.graph.chans.getD p.chan {}
  match g.kind.toNat with
  | 0 => s.onGraph fun x => x.onChan p.chan fun g => { g with
      head := (g.head + p.rate) % g.cap, count := g.count - p.rate, marks := g.marks.map fun m => (m.1 - p.rate, m.2) }
  | 1 => match s.ctx.chanEdge g false with
    | e :: _ => s.onCfg (bitsN g.loc 12 8) fun x => { x with chans := modAt x.chans e (·.drop p.rate) }
    | [] => s
  | 2 => if (s.hostOf g).gen = g.gen then s.hostDrop (g.loc.toNat % 64) (slotsFor p.rate (s.hostOf g).ready) else s
  | 4 => (List.range p.rate).foldl (fun s _ => (s.onCtx fun c => { c with
      rings := modV c.rings (g.loc.toNat % 16) Ring.release }).onNet s.ctx.id.tile s.ctx.id.job Counters.consume) s
  | _ => s
/-- The collar token of an item (14 R295). -/
def itemTok (w : Word × Bool) : CTok :=
  { val := w.1.setWidth 32, pois := w.2, eor := w.1.getLsbD 32, part := w.1.getLsbD 33 }
/-- An output channel publishes its places. A collar token is tagged for FENCE (04 R100) and may be dropped on the way (21 R382); a hang
that is due goes first (14 R311). A byte of an egress slot that the firing has not written stays as it was (02 R42). -/
def State.publishOut (s : State) (p : GPort) : State :=
  let g := s.ctx.graph.chans.getD p.chan {}
  let s := match g.kind.toNat with
    | 0 => s.onGraph fun x => x.onChan p.chan fun g => { g with count := g.count + p.rate }
    | 1 =>
      let h := bitsN g.loc 12 8
      let s := (s.hangFirst (BitVec.ofNat 5 h)).getD s
      let s := (s.onCtx fun c => { c with ser := c.ser + 1 }).onCfg h id
      let es := s.ctx.chanEdge g true
      ((g.stage.take p.rate).map itemTok).foldl (fun (s : State) (t : CTok) => s.putEdges h es { t with ser := s.ctx.ser }) s
    | 3 => ((g.stage.take p.rate).zipIdx).foldl (fun (s : State) (x : (Word × Bool) × Nat) =>
        s.putOut (BitVec.ofNat 6 g.loc.toNat) {
          val := x.1.1, pois := x.1.2, ctrl := 0, deps := [s.ctx.id.uid], keep := g.keep x.2, job := s.tokJob }) s
    | _ => s
  s.onGraph fun x => x.onChan p.chan fun g => { g with stage := [], wrote := [] }
/-- The firing in focus has run more than FMAX resident cycles: that is recorded once, with the actor and FMAX (02 R43). -/
def State.noteOverrun (s : State) : State :=
  let f := s.fir
  let fmax := s.actorNow.fmax
  if f.id = 0 ∨ f.overrun ∨ s.ctx.csr.budget.toNat - f.started ≤ fmax then s
  else
    let s := s.onFir fun f => { f with overrun := true }
    s.onCtx fun c => ({ c with
      susp := c.susp.map fun (u : Susp) => if u.actor = f.actor then { u with overrun := true } else u }).postRec
        (fault 0x070 (f.actor % 512 + fmax * 512)) (recInfo 0 0 0 0 0)
/-- The firing in focus retires. A trap firing releases and publishes nothing (22 R383). -/
def State.retire (s : State) : State :=
  let f := s.fir
  let s := if f.trap then
      (s.touch 0 (s.ctx.winKey f.frame) 8).onCtx fun c => { c with susp := c.susp.map fun u =>
        if u.frame = f.frame then { u with retired := true, freed := !hasBit (s.winWord u.frame) 62 } else u }
    else
      let a := s.actorNow
      let s := (joinPorts a.ins).foldl State.releaseIn s
      let s := (joinPorts a.outs).foldl State.publishOut s
      s.onGraph fun g => g.onActor f.actor fun a => { a with active := false }
  { (s.onCsr fun c => { c with perf := modV c.perf 3 (· + 1) }) with fir := {} }
/-- The firing goes on at `t`: with the next block dispatched or fetched ahead when that stands there, else all of them are abandoned
and the block is fetched (06 R150). -/
def State.goOn (s : State) (t : Word) : State :=
  match s.fir.ahead, s.fir.fetched with
  | b :: l, n =>
    if b.addr = t then s.onFir fun f => { f with pc := t, blk := b, dseq := b.dseq, ahead := l, fetched := n }
    else s.dropAhead.onFir fun f => { f with phase := .fetch, pc := t, blk := {} }
  | [], some b =>
    if b.addr = t then s.onFir fun f => { f with phase := .dispatch, pc := t, blk := b, fetched := none }
    else s.dropAhead.onFir fun f => { f with phase := .fetch, pc := t, blk := {} }
  | [], none => s.onFir fun f => { f with phase := .fetch, pc := t, blk := {} }
/-- The exit of a committed block. -/
def State.takeExit (s : State) : Exit → State
  | .to t => s.goOn t
  | .retire => s.retire
/-- A flag change of a committed block waits for the scalar-path accesses before it (13 R278). -/
def Ctx.flagsWait (c : Ctx) : Bool := c.dq.any fun e => isFlagEff e.ins
/-- Blocks dispatched later see the value that the commit has written, not the one before a store to the image (13 R287, 21 R368). -/
def State.forgetOld (s : State) (k : Csr) : State :=
  let drop (b : Block) : Block := { b with old := b.old.filter (·.1 != k) }
  let note (f : Firing) : Firing := { f with blk := if s.fir.dseq < f.dseq then drop f.blk else f.blk, ahead := f.ahead.map drop }
  { s with fir := note s.fir, ctx := { s.ctx with firs := s.ctx.firs.map fun f =>
      { note f with ahead := f.ahead.map fun b => if s.fir.dseq < b.dseq then drop b else b } } }
/-- The block in flight commits. -/
def State.commitBlock (s : State) : State :=
  let s := s.noteOverrun
  let b := s.fir.blk
  let es := s.commitEffs
  let s := s.onFir Firing.commitRegs
  let s := s.onCtx fun c => c.commitVector b
  let s := s.commitLogs
  let s := s.onSync fun y => { y with evq := y.evq.filter fun r => !(takenRecs es).contains r.info }
  -- flags change after the stores of the block (13 R278)
  let s := (es.filter (!isFlagEff ·.ins) ++ es.filter (isFlagEff ·.ins)).foldl State.handOver s
  let s := (es.filterMap fun e => isCsrWriteOf e.ins).foldl State.forgetOld s
  let s := if b.pass then s.onCsr fun c => { c with debug := c.debug &&& 1 } else s
  let s := s.escalate b
  match b.exits with
  | (_, x) :: _ => s.takeExit x
  | [] => s
/-- A block sets SPACE, or has made accesses through it. -/
def Block.setsSpace (b : Block) : Bool := b.effs.any fun e => Machine.setsSpace e.ins
def Block.usedSpace (b : Block) : Bool := b.slots.any fun sl => (sl.st == .done || sl.st == .pend) && (wordInstr sl).any isGlobal
/-- A write of SPACE is for the blocks that commit after it: it waits for those that have made accesses under the old one (21
R366). -/
def State.spaceWaits (s : State) : Bool :=
  s.fir.blk.setsSpace && s.ctx.firs.any fun f => f.phase = .run && f.blk.usedSpace
/-- What a complete block waits for before it commits: a write of SPACE for accesses under the old one, a change of flags for the
changes before it. -/
def State.commitWaits (s : State) : Bool :=
  s.spaceWaits || (s.ctx.flagsWait && (!s.fir.blk.fw.isEmpty || s.fir.blk.effs.any fun e => isFlagEff e.ins))
def execBlockCommit (s : State) : Out :=
  let b := s.fir.blk
  let fault (f : BFault) : Out := if s.ctx.stopped then .next s else .next (s.endFault f)
  if s.fir.id = 0 ∨ s.fir.phase ≠ .run ∨ !b.decided ∨ s.ctx.csr.saving ∨ !s.ctx.id.present then .next s
  else match s.blockEnd with
    | some f => fault f
    | none =>
      if s.commitWaits then .next s
      else match s.logWaits, s.logFault with
        | some r, _ => .next (s.logHold 0x0D1 r)
        | none, some f => fault f
        | none, none => .next s.commitBlock

/-! ### Ends of waits (05 R111, R115) -/

/-- Slots whose wait may return: all, but only those with an answer on its way once the block has a fault (06 R153). -/
def Block.waiting (b : Block) : List Nat :=
  (List.range b.slots.length).filter fun k => match (b.slots[k]?).bind (·.wait) with
    | some w => !b.faulted || w.on.isReply
    | none => false
/-- Slots that an answer on its way back reaches; it does in a frozen context too (05 R119). -/
def Block.answered (b : Block) : List Nat :=
  (List.range b.slots.length).filter fun k => ((b.slots[k]?).bind (·.wait)).any fun w => w.on.isReply
/-- The slots whose waits are evaluated now. -/
def State.evaluated (s : State) : List Nat := if s.ctx.stopped then s.fir.blk.answered else s.fir.blk.waiting
def execWaitEvaluation (s : State) : Out :=
  if s.fir.phase = .run ∧ s.ctx.id.present ∧ !s.ctx.csr.saving then .next ((s.firstReturn s.evaluated).getD s) else .next s
/-- The first slot whose wait has expired. -/
def Block.dueSlot (b : Block) (c : Ctx) (lag : Nat) : Option Nat :=
  if b.faulted then none else
  firstIdx (fun sl => match sl.wait with
    | some w => match w.expiry with
      | some e => c.dueAt lag e && !w.on.isReply
      | none => w.onceMore
    | none => false) b.slots 0
/-- DEADLINE_EXPIRY: a wait of the firing in focus, or else the sends of its context whose expiry point has passed. -/
def execDeadlineExpiry (s : State) : Out :=
  let lag := Config.lag s.freeCtr
  if !s.runs then .next s
  else match (if s.fir.phase = .run then s.fir.blk.dueSlot s.ctx lag else none) with
    | some k => .next (s.expireWait k)
    | none => .next (s.onCtx fun c => { c with sends := c.sends.map fun x =>
        match x.expiry with
        | some e => if c.dueAt lag e then { x with poll := true, expiry := none } else x
        | none => x })

/-! ### Resumption and overrun (22 R386, R387; 02 R43) -/

/-- Slots that a firing of the context in focus may use now: its own reservation first, then shared ones (02 R44). -/
def State.usable (s : State) : List Nat :=
  (s.ctx.graph.slots ++ s.freeSlots s.ctx.id.tile.toNat).filter (!s.slotBusy ·)
/-- The first suspended firing whose frame has been handed back and that finds a slot, and the slot it resumes in. -/
def State.resumable (s : State) : Option (Susp × Nat) :=
  s.ctx.susp.findSome? fun u =>
    if u.retired && hasBit (s.winWord u.frame) 62 then (if u.freed then s.usable.head? else some u.slotNo).map fun k => (u, k) else none
/-- Places that a firing had reserved are given back. -/
def State.clearStage (s : State) (a : Nat) : State :=
  ((s.ctx.graph.actors[a]?).map (·.outs)).getD [] |>.foldl (fun s p => s.onGraph fun g => g.onChan p.chan fun x => { x with stage := [], wrote := [] }) s
def execFiringResumption (s : State) : Out :=
  if !s.runs then .next s
  else match s.resumable with
    | none => .next s
    | some (u, k) =>
      let act := bitsN (s.winWord u.frame) 61 60
      .next ((if act = 2 then s.clearStage u.actor else s).resume u k)

/-- FIRING_OVERRUN of the firing in focus. -/
def execFiringOverrun (s : State) : Out := .next s.noteOverrun

/-! ### The actor scheduler (02 R40, R45; 18 R331) -/

/-- Slots of a host channel. -/
def hostSize (h : HostChan) : Nat := 2 ^ bitsN h.ctl 20 16
def hostHeld (h : HostChan) : Nat := (h.tail - h.head).toNat
/-- Places of an egress channel that active firings of any context have reserved (02 R40). -/
def State.reserved (s : State) (g : GChan) : Nat :=
  ((s.allCtxs ++ s.dev.saved.map (·.ctx)).map fun c =>
    ((c.graph.actors.filter (·.active)).map fun a =>
      ((a.outs.filter fun p => sameChan g (c.graph.chans.getD p.chan {})).map (·.rate)).sum).sum).sum
/-- Slots and tokens of an egress channel that are no markers (02 R34). -/
def HostChan.items (h : HostChan) : Nat :=
  hostHeld h - (h.eos.filter fun i => decide ((i - h.head).toNat < hostHeld h)).length
    + (h.out.filter fun t => slotKind t.ctrl != 1 && slotKind t.ctrl != 2).length
/-- An active firing of another context, resident or saved, holds the items at the head of an ingress channel (02 R40; log 122). -/
def State.claimed (s : State) (g : GChan) : Bool :=
  (s.allCtxs ++ s.dev.saved.map (·.ctx)).any fun c => c.id.uid != s.ctx.id.uid
    && c.graph.actors.any fun a => a.active && a.ins.any fun p =>
      let x := c.graph.chans.getD p.chan {}
      sameChan g x && x.gen == (s.hostOf g).gen
/-- Room of a channel of the context in focus for its producer. -/
def State.roomOf (s : State) (g : GChan) : Nat :=
  match g.kind.toNat with
  | 0 => g.cap - g.count
  | 1 => match s.ctx.handles.getD (bitsN g.loc 12 8) none with
    | none => 0
    | some cfg =>
      let r (e : Nat) : Nat := ((cfg.img.edges[e]?).map (·.depth)).getD 0 - (cfg.chans.getD e []).length
      match s.ctx.chanEdge g true with
      | [] => 0
      | e :: l => l.foldl (fun m x => Nat.min m (r x)) (r e)
  | 3 =>
    let h := s.hostOf g
    if h.ctl.getLsbD 0 && s.ownsHost g then hostSize h - h.items - s.reserved g else 0
  | _ => 0
/-- Items an input channel holds, and its capacity (18 R331). -/
def State.heldOf (s : State) (g : GChan) : Nat × Nat :=
  match g.kind.toNat with
  | 0 => (g.count, g.cap)
  | 1 => match s.ctx.handles.getD (bitsN g.loc 12 8) none, s.ctx.chanEdge g false with
    | some cfg, e :: _ => ((cfg.chans.getD e []).length, ((cfg.img.edges[e]?).map (·.depth)).getD 0)
    | _, _ => (0, 0)
  | 2 => let h := s.hostOf g; (((h.ready.filter fun x => slotKind x.2 == 0)).length, hostSize h)
  | 4 => let r := s.ctx.rings.getD (g.loc.toNat % 16) {}; (r.size - r.free, r.size)
  | _ => (0, 0)
def Actor.usable (a : Actor) : Bool := !a.free && !a.ended && !a.active && !(a.ins.isEmpty && a.fired)
/-- The actor has its items and its places. -/
def State.fed (s : State) (a : Actor) : Bool :=
  ((joinPorts a.ins).all fun p => let g := s.ctx.graph.chans.getD p.chan {}
      decide (p.rate ≤ s.itemsOf g) && !(g.kind == 2 && s.claimed g))
    && (joinPorts a.outs).all fun p => p.rate ≤ s.roomOf (s.ctx.graph.chans.getD p.chan {})
/-- An actor with NIN = 0 that has not fired in the segment goes first (02 R47). -/
def Ctx.firstFirst (c : Ctx) (a : Actor) : Bool :=
  a.ins.isEmpty || !(c.graph.actors.any fun b => !b.free && !b.ended && b.ins.isEmpty && !b.fired)
/-- FIRE record. -/
def fireRec (c : Ctx) (i slot : Nat) (p : BitVec 2) : LogRec :=
  { type := 1, srcn := c.srcn, w1 := BitVec.ofNat 64 (i % 512 + slot * 2 ^ 9 + p.toNat * 2 ^ 12) }
/-- A ready actor: its context, index and slot. -/
structure Ready where
  uid : Nat
  idx : Nat
  slot : Nat
  prio : BitVec 2
  weff : Nat
  credit : Int
deriving DecidableEq, Repr
/-- The selection that a context must make: one whose FIRE record is settled already, or the one that a steered context expects. -/
def State.nextFire (s : State) : Option (Option Word) :=
  if let some r := s.ctx.log.done.find? (·.type == 1) then some (some r.w1)
  else if s.ctx.logOn && s.ctx.logSteer then
    match s.expected 0 0 with
    | (_, ws) :: _ => some (if bitsN (ws.getD 0 0) 7 0 = 1 then some (ws.getD 1 0) else none)
    | [] => none
  else none
/-- Ready actors of the context in focus, whose free slots are given. -/
def State.readyActors (s : State) (slots : List Nat) : List Ready :=
  if !s.runs || !s.ctx.graph.isOpen then [] else
  let want := s.nextFire
  ((s.ctx.graph.actors.zipIdx).filter fun (a, _) => a.usable && s.ctx.firstFirst a && s.fed a).filterMap fun (a, i) =>
    let mk (k : Nat) : Ready := { uid := s.ctx.id.uid, idx := i, slot := k, prio := a.prio, weff := a.weight * (1 + a.occ)
                                  credit := a.credit }
    match want with
    | none => (slots.head?).map mk
    | some none => none
    | some (some w) =>
      let k := bitsN w 11 9
      if bitsN w 8 0 = i % 512 && bitsN w 13 12 = a.prio.toNat && slots.contains k then some (mk k) else none
/-- Contexts of the tile in focus by number. -/
def State.tileCtxs (s : State) : List Ctx :=
  (List.range 4).filterMap fun k => s.allCtxs.find? fun c => c.id.tile == s.tile.num && c.id.num.toNat == k
/-- Ready actors of the tile at the level that is served. -/
def State.level (s : State) : List Ready :=
  let all := s.tileCtxs.flatMap fun c =>
    let t := s.focusCtx c.id.uid
    t.readyActors t.usable
  match leastBy (fun r => r.prio.toNat) all with
  | some m => all.filter (·.prio == m.prio)
  | none => []
/-- The sum of held ÷ capacity as a fraction. -/
def addFrac (x : List Nat) (held cap : Nat) : List Nat :=
  if cap = 0 then x else
  let n := x.getD 0 0
  let d := x.getD 1 1
  let l := Nat.lcm d cap
  [n * (l / d) + held * (l / cap), l]
/-- What a selection at a level adds to the actors of that level of the context in focus. -/
def State.sampleLevel (s : State) (p : BitVec 2) (lvl : List Ready) (sum : Nat) (sel : Ready) : Ctx :=
  let c := s.ctx
  let upd (a : Actor) (i : Nat) : Actor :=
    if a.free || a.prio != p then a else
    let a := { a with occSum := a.ins.foldl (fun x q => let h := s.heldOf (c.graph.chans.getD q.chan {}); addFrac x h.1 h.2) a.occSum }
    if lvl.any (fun r => r.uid == c.id.uid && r.idx == i) then
      let k : Int := if sel.uid = c.id.uid && sel.idx = i then (sum : Nat) else 0
      { a with credit := a.credit + ((a.weight * (1 + a.occ) : Nat)) - k }
    else a
  { c with graph := { c.graph with actors := (c.graph.actors.zipIdx).map fun (a, i) => upd a i } }
/-- Free words for the places that an output of kind 1 or 3 reserves. -/
def State.stageOut (s : State) (p : GPort) : State :=
  let g := s.ctx.graph.chans.getD p.chan {}
  if g.kind = 1 || g.kind = 3 then
    let ws := (List.range p.rate).map fun i => (Config.freeWord (s.freeCtr + i), false)
    { s.onGraph fun x => x.onChan p.chan fun g => { g with stage := ws, wrote := [] } with freeCtr := s.freeCtr + p.rate }
  else s
/-- The firing of the selected actor of the context in focus begins (02 R41). -/
def State.startFiring (s : State) (r : Ready) : State :=
  let a := s.ctx.graph.actors.getD r.idx {}
  let f : Firing := { id := s.ctx.nextFir, slotNo := r.slot, actor := r.idx, phase := .fetch, pc := a.entry
                      started := s.ctx.csr.budget.toNat }
  let s := a.ins.foldl (fun s p => s.onGraph (·.onChan p.chan fun g => { g with gen := (s.hostOf g).gen })) s
  let s := (joinPorts a.outs).foldl State.stageOut s
  (s.onCtx fun c => { c with firs := c.firs ++ [f], nextFir := c.nextFir + 1 }).onGraph fun g =>
    g.onActor r.idx fun a => { a with active := true, fired := true }
/-- Selections of a level on the tile since its last reweight. -/
def Tile.selsAt (t : Tile) (p : BitVec 2) : Nat := t.sels.getD p.toNat 0
/-- ACTOR_SELECTION on the tile in focus. -/
def execActorSelection (s : State) : Out :=
  let lvl := s.level
  match mostCredit (fun r => r.credit + ((r.weff : Nat) : Int)) lvl with
  | none => .next s
  | some r =>
    if 256 ≤ s.tile.selsAt r.prio then .next s
    else
      let sum := (lvl.map (·.weff)).sum
      let one (c : Ctx) : Ctx :=
        if c.id.tile = s.tile.num then ({ s with ctx := c, fir := {} }).sampleLevel r.prio lvl sum r else c
      .next (s.within r.uid fun t => t.logged (fireRec t.ctx r.idx r.slot r.prio) true allBits fun t =>
        ((t.mapCtxs one).startFiring r).onTile fun x => { x with sels := modV x.sels r.prio.toNat (· + 1) })

/-- The level that an actor takes from its sum over 256 selections. -/
def Actor.newOcc (a : Actor) : Nat :=
  if a.ins.isEmpty then 0 else
  Nat.min 15 (16 * a.occSum.getD 0 0 / (256 * a.ins.length * a.occSum.getD 1 1))
/-- The levels of actors `k` to `k + 15` of a context once the actors of a level take theirs. -/
def occWord (c : Ctx) (p : BitVec 2) (k : Nat) : Nat :=
  (List.range 16).foldl (fun n j => match c.graph.actors[k + j]? with
    | some a => n + (if !a.free && a.prio = p then a.newOcc else a.occ) % 16 * 2 ^ (4 * j)
    | none => n) 0
/-- Groups of 16 descriptors of a context that hold an actor of the level. -/
def Ctx.groups (c : Ctx) (p : BitVec 2) : List Nat :=
  ((List.range 16).map (16 * ·)).filter fun k =>
    (List.range 16).any fun j => (c.graph.actors[k + j]?).any fun a => !a.free && a.prio == p
def reweightWord (p : BitVec 2) (k : Nat) : Word := BitVec.ofNat 64 (1 + p.toNat * 4 + k * 2 ^ 8)
/-- The new levels of a context: each group and its word; that of a record settled already, else a steered context takes the words it
expects. -/
def State.newLevels (s : State) (p : BitVec 2) (c : Ctx) : List (Nat × Nat) :=
  let ex := if c.logOn && c.logSteer then (s.focusCtx c.id.uid).expected 0 0 else []
  (c.groups p).map fun k =>
    match c.log.done.find? fun r => r.type == 4 && r.w1 == reweightWord p k with
    | some r => (k, r.w2.toNat)
    | none => match ex.find? fun x => bitsN (x.2.getD 0 0) 7 0 == 4 && x.2.getD 1 0 == reweightWord p k with
      | some x => (k, (x.2.getD 2 0).toNat)
      | none => (k, occWord c p k)
def Actor.setLevel (p : BitVec 2) (l : List (Nat × Nat)) (a : Actor) (i : Nat) : Actor :=
  if a.free || a.prio != p then a else
  match l.find? (fun x => decide (x.1 ≤ i) && decide (i < x.1 + 16)) with
  | some (k, w) => { a with occ := w / 2 ^ (4 * (i - k)) % 16, occSum := [] }
  | none => a
def Ctx.setLevels (c : Ctx) (p : BitVec 2) (l : List (Nat × Nat)) : Ctx :=
  { c with graph := { c.graph with actors := (c.graph.actors.zipIdx).map fun x => x.1.setLevel p l x.2 } }
/-- A context takes the levels listed for it. -/
def takeLevels (p : BitVec 2) (cs : List (Ctx × List (Nat × Nat))) (c : Ctx) : Ctx :=
  ((cs.find? fun x => x.1.id.uid == c.id.uid && c.id.present).map fun x => c.setLevels p x.2).getD c
/-- ACTOR_REWEIGHT: after 256 selections of a level on the tile in focus, its actors take new levels. -/
def execActorReweight (p : BitVec 2) (s : State) : Out :=
  if s.tile.selsAt p < 256 then .next s
  else
    let cs := s.tileCtxs.map fun c => (c, s.newLevels p c)
    let recs := cs.flatMap fun (c, l) => l.map fun (k, w) =>
      (c.id.uid, ({ type := 4, srcn := c.srcn, w1 := reweightWord p k, w2 := BitVec.ofNat 64 w } : LogRec))
    .next (s.loggedAll recs fun s => (s.mapCtxs (takeLevels p cs)).onTile fun t => { t with sels := setV t.sels p.toNat 0 })

end Sys2Proof.Machine
end

