-- ==== Sys2Proof/Machine/Errors.lean ====
section
/-! DEFINITION. Uncontained errors, and the clocks of the dies (27 R435 to R437, R445, R446). -/

namespace Sys2Proof.Machine

/-! ### Uncontained errors (27 R436) -/

/-- Body of an UNCONT event, counted in UECNT. -/
def uncontBody (owner : Nat) (n : Nat) (code : BitVec 12) : Word := BitVec.ofNat 64 (owner + n * 4 + code.toNat * 2 ^ 10)
def State.countUncont (s : State) : State := s.onDev fun d => { d with uecnt := satAdd d.uecnt 32 16 1 }
/-- The part of a configuration that an endpoint names (14 R298). -/
def CollarCfg.partAt (g : CollarCfg) (ep : BitVec 13) : Option (Bool × Nat) :=
  if ep.getLsbD 12 then (g.img.ports[bitsN ep 5 0]?).map fun _ => (true, bitsN ep 5 0)
  else (firstIdx (fun x : NodeEnt => x.node.toNat == bitsN ep 8 0 && x.cslot.toNat == bitsN ep 11 10) g.img.nodes 0).map
    fun i => (false, i)
/-- The configuration faults with UNCONT at the part that the endpoint names; an endpoint that names none, as that of a switch box,
stands in the record as it is. -/
def State.uncontCfg (s : State) (h : Nat) (ep : BitVec 13) : State :=
  s.faultFrom h fun s => match (s.ctx.cfg h).bind (·.partAt ep) with
    | some (port, i) => s.collarFault h port i 0x0B6
    | none => s.onCfg h fun g => { g with fault := g.fault.orElse fun _ => some (ep, 0x0B6) }
/-- The structure is damaged from now on: an access that needs it holds. -/
def State.damaged (s : State) (x : Damage) : State := s.onDev fun d => { d with damage := d.damage ++ [x] }
/-- What the row needs is damaged (27 R436). Which structure a row needs is `Config.needs` (log 123). -/
def State.needsDamaged (s : State) (i : Instr) : Bool :=
  s.dev.damage.any fun x => x.tile == s.ctx.id.tile && x.uid.all (· == s.ctx.id.uid) && Config.needs x.code i
/-- The context freezes as by the supervisor; its record names it. -/
def State.uncontCtx (s : State) (uid : Nat) : State :=
  s.within uid fun s => s.onCsr fun c => { c with faultHold := true }

/-- UNCONTAINED_ERROR: the owner is a configuration (`n` is 32·CTXID + handle), a context (`n` is CTXID) or a tile. -/
def execUncontainedError (owner : BitVec 2) (tile : BitVec 8) (n : BitVec 8) (code : BitVec 12) (endpt : BitVec 13)
    (s : State) : Out :=
  match owner.toNat with
  | 0 =>
    match s.ctxAt tile (BitVec.ofNat 2 (bitsN n 6 5)) with
    | none => .next s
    | some c =>
      let h := bitsN n 4 0
      if (c.cfg h).isNone then .next s
      else .next ((s.countUncont.damaged ⟨code, tile, some c.id.uid⟩).within c.id.uid fun s =>
        (s.raise 18 [uncontBody 0 h code]).uncontCfg h endpt)
  | 1 =>
    match s.ctxAt tile (n.setWidth 2) with
    | none => .next s
    | some c => .next (((s.countUncont.damaged ⟨code, tile, some c.id.uid⟩).uncontCtx c.id.uid).within c.id.uid fun s =>
        s.raise 18 [uncontBody 1 c.id.num.toNat code])
  | 2 =>
    let us := (s.allCtxs.filter fun c => c.id.tile == tile).map (·.id.uid)
    .next ((us.foldl State.uncontCtx (s.countUncont.damaged ⟨code, tile, none⟩)).raiseTile tile 0 0 18 [uncontBody 2 0 code])
  | _ => .next s

/-! ### Power and temperature (27 R445, R446) -/

def stepOf (w : Word) : Nat := bitsN w 7 4
def pwrOf (w : Word) : Nat := bitsN w 31 16
/-- DIESTAT of a die after a re-evaluation. -/
def dieWord (tj thbm : BitVec 8) (pwr : BitVec 16) (step : Nat) (halt : Bool) : Word :=
  BitVec.ofNat 64 (tj.toNat * 2 ^ 40 + thbm.toNat * 2 ^ 32 + pwr.toNat * 2 ^ 16 + step * 16 + (if halt then 1 else 0))
/-- The power of the module in W. -/
def powerSum (ws : Vector Word 4) : Nat := ws.toList.foldl (fun n w => n + pwrOf w) 0
/-- What a re-evaluation decides: STEP, HALT, and whether it raised STEP for power. -/
def clockRule (cap : Word) (sum step tj : Nat) : Nat × Bool × Bool :=
  let up := if step < 12 then step + 1 else step
  let limit := bitsN cap 31 16
  let en := cap.getLsbD 0
  if 110 ≤ tj then (step, true, false)
  else if 100 ≤ tj then (up, false, false)
  else if en ∧ limit < sum then (up, false, decide (step < 12))
  else if (!en ∨ sum + 100 < limit) ∧ tj < 95 then (step - 1, false, false)
  else (step, false, false)
/-- The four STEPs, 4 bits each. -/
def stepsWord (ws : Vector Word 4) : Word := BitVec.ofNat 64 ((ws.toList.zipIdx).foldl (fun n (w, i) => n + stepOf w * 16 ^ i) 0)

/-- CLOCK_REEVALUATION, every 2^20 cycles of a die; on a die that is halted the readings alone are taken, so that HALT can
be cleared once TJ has fallen (R445; log 34). -/
def execClockReevaluation (die : BitVec 2) (tj thbm : BitVec 8) (pwr : BitVec 16) (s : State) : Out :=
  let i := die.toNat
  if (s.dev.diestat.getD i 0).getLsbD 0 then
    .next (s.onDev fun d => { d with
      diestat := modV d.diestat i fun w => putBits (putBits w 47 40 tj.toNat) 39 32 thbm.toNat })
  else if s.dev.clk.getD i 0 < 2 ^ 20 then .next s
  else
    let old := s.dev.diestat
    let seen := setV old i (dieWord tj thbm pwr (stepOf (old.getD i 0)) false)
    let (step, halt, rise) := clockRule s.dev.pwrcap (powerSum seen) (stepOf (old.getD i 0)) tj.toNat
    let new := setV old i (dieWord tj thbm pwr step halt)
    let first := rise && !s.dev.capped.getD i false
    let s := s.onDev fun d => { d with diestat := new, clk := setV d.clk i 0, capped := setV d.capped i rise }
    let s := if halt then s.raiseModule 24 [BitVec.ofNat 64 (i + tj.toNat * 4 + 1024)] else s
    .next (if first then s.raiseModule 25 [BitVec.ofNat 64 (powerSum new), stepsWord new] else s)

end Sys2Proof.Machine
end

