-- ==== Sys2Proof/Machine/Links.lean ====
section
/-! DEFINITION. Ports between dies: flits and their retransmission, keepalives, links down and up, the partition
registers and the freeze flood (26 R427 to R431, 27 R437 to R442). -/

namespace Sys2Proof.Machine

/-! ### Flits (26 R430, R431) -/

/-- Flits sent after the one numbered `a`. -/
def Link.after (l : Link) (a : BitVec 12) : Nat := (l.tx - 1 - a).toNat
/-- An acknowledgement of all flits up to the one numbered `a`. -/
def Link.acked (l : Link) (a : BitVec 12) : Link :=
  if l.after a ≤ l.retry.length then Link.drain { l with retry := l.retry.drop (l.retry.length - l.after a) } else l
/-- Every flit not acknowledged is sent again; LNK.REPLAY counts them. -/
def Link.replay (l : Link) : Link :=
  { l with lnk := satAdd l.lnk 16 16 l.retry.length, idleTx := 0
           retry := l.retry.map fun f => { f with replays := f.replays + 1 } }

/-- A packet whose header names it, standing at the tile of the port by which it came (26 R433). -/
def packetOf (m : NetMsg) (port : Nat) (classB : Bool) : Packet :=
  { kind := match m.kind.toNat with | 0 => .msg | 1 => .nack | 2 => .accept | 3 => .lost | 5 => .ended | _ => .kerf
    ctx := 0, src := m.src.setWidth 8, srcMod := BitVec.ofNat 24 (bitsN m.src 31 8), send := 0, job := m.job, side := m.side
    cnum := m.cnum, dst := m.dst, dinst := m.dinst, sinst := m.sinst, ring := m.ring, sseq := m.sseq, body := m.body
    launch := m.sinst.toNat, pos := portTile port, classB := classB, dim := portDim port, origin := m.src }
/-- The send of this module that an answer or a notice is for: its context's tile and number, the pair, and SSEQ. -/
def State.sendFor (s : State) (m : NetMsg) : Option (Nat × Nat) :=
  (s.allCtxs.flatMap fun c => (c.sends.filter fun x =>
      c.id.tile == m.dst.setWidth 8 && c.id.num == m.cnum && c.id.job == m.job
        && x.dinst == m.dinst && x.ring == m.ring && x.sseq == m.sseq).map fun x => (c.id.uid, x.id)).head?
/-- A packet received whole at an external port (26 R428, R429, 05 R128, R130). -/
def State.netPacket (s : State) (port : Nat) (classB : Bool) (m : NetMsg) : State :=
  if !s.dev.ptctl.getLsbD 0 then s
  else if m.ptid.toNat ≠ bitsN s.dev.ptctl 31 16 then s.fabric 1 m.hdr
  else if m.kind = 0 ∧ (s.dev.slotOf m.job).isNone then s.fabric 0 m.hdr
  else
    let p := packetOf m port classB
    let (c, i) := if m.kind = 0 then (0, 0) else if m.kind = 5 then (0, m.ring.toNat) else (s.sendFor m).getD (0, 0)
    let p := { p with ctx := c, send := i }
    (s.countPort port p).onDev fun d => { d with packets := d.packets ++ [p] }
/-- A flit with a CRC failure is corrected by retransmission and counted as such (27 R435, R437). -/
def State.linkCorrected (s : State) (port : Nat) : State :=
  let n := s.dev.corr.getD 2 0 + 1
  let s := s.onDev fun d => { d with corr := setV d.corr 2 (if n = 4096 then 0 else n) }
  if n = 4096 then s.raiseModule 16 [BitVec.ofNat 64 (2 + 4096 * 16), BitVec.ofNat 64 (port % 6)] else s
/-- What an acknowledgement and a request for replay do. -/
def Link.answered (l : Link) (ack : Option (BitVec 12)) (again : Bool) : Link :=
  let l := match ack with | some a => l.acked a | none => l
  if again then l.replay else l

/-- An answer to a flit that is not taken: a link-management flit that names the last good SEQ (26 R431). -/
def Link.ask (l : Link) : Link := { l.manage { again := true } with asked := true }
/-- A package port receives the flit that the neighbouring die's port sends next, and acknowledges it; a flit with a CRC failure
is sent again with all that follow (26 R431, R433; log 83). -/
def State.packageFlit (s : State) (port : Nat) (good : Bool) : State :=
  let peer := packagePeer port
  match (s.linkOf peer).retry with
  | [] => s
  | f :: fs =>
    let s := s.onLink port fun l => { l with idleRx := 0 }
    if !good then ((s.linkCorrected port).onLink peer Link.replay).onLink port Link.ask
    else
      let s := (s.onLink peer fun l => Link.drain { l with retry := fs, idleRx := 0 }).onLink port fun l =>
        { l with rx := l.rx + 1, idleTx := 0, asked := false }
      match f.pkt, f.flood with
      | some p, _ =>
        if p.guarded && (s.dev.slotOf p.job).isNone then (s.fabric 0 s.freeVal).drawn
        else (s.countPort port p).onDev fun d => { d with packets := d.packets ++ [{ p with pos := portTile port }] }
      | none, some (id, thaw) =>
        s.onDev fun d => { d with floodOut := d.floodOut ++ [{ die := BitVec.ofNat 2 (port / 6), id := id, thaw := thaw, via := port }] }
      | none, none => s
/-- A port takes part in traffic: its link is up, its port is not disabled, and its die runs (26 R426, 27 R446). -/
def State.portRuns (s : State) (port : Nat) : Bool :=
  port < 24 && (s.linkOf port).up && s.dev.portOn port && !s.dev.halted (port / 6)
/-- FLIT_RECEIVE: payload and trailer as they arrive. At an external port the row says what the flit is: the packet that it ends,
or that it asks for a replay; at a package port it is the next flit of the neighbouring die. -/
def execFlitReceive (port : Nat) (payload : List Byte) (low crc : Half) (again : Bool) (pkt : Option NetMsg) (s : State) : Out :=
  let l := s.linkOf port
  let trailer : Word := crc ++ low
  let good := flitGood payload trailer
  if !s.portRuns port then .next s
  else if !isExternal port then
    .next (if s.dev.halted (packagePeer port / 6) then s else s.packageFlit port good)
  else
    let s := s.onLink port fun l => { l with idleRx := 0 }
    if !good then .next ((s.linkCorrected port).onLink port Link.ask)
    else if bitsN trailer 31 20 ≠ l.rx.toNat then
      .next (if l.asked then s else s.onLink port Link.ask)
    else
      let ack : Option (BitVec 12) := if trailer.getLsbD 16 then some (trailer.extractLsb' 4 12) else none
      let mgt := bitsN trailer 3 0 = 1
      let s := s.onLink port fun l => { l.answered ack (mgt && again) with rx := l.rx + 1, asked := false }
      .next (match pkt with | some m => if mgt then s else s.netPacket port (trailer.getLsbD 17) m | none => s)

/-! ### Links down and up (27 R438 to R440) -/

/-- A port declares its link down: DOWN and UP, the retry buffer, LINKDOWN and LINKLOSS. -/
def State.declareDown (s : State) (port cause : Nat) : State :=
  let ps := (s.linkOf port).retry.filterMap (·.pkt)
  let s := s.onLink port fun l => { l with
    lnk := (l.lnk &&& ~~~(keepBits l.lnk 1 1)) ||| 4, retry := [], wait := [], lost := 0, asked := false, training := false }
  let s := s.writeOff port ps
  (s.raiseModule 21 [BitVec.ofNat 64 (port % 6 + port / 6 * 8 + cause * 256)]).linkLoss port ps.length
    ((ps.head?.map (·.job)).getD 0)

def State.kaCycles (s : State) : Nat := bitsN s.dev.kaper 31 0
/-- The limit of 16 replays is reached. -/
def Link.exhausted (l : Link) : Bool := l.up && l.retry.any fun f => decide (16 ≤ f.replays)
def State.keepaliveDue (s : State) (port : Nat) : Bool :=
  s.portRuns port && (s.linkOf port).wait.isEmpty && decide (s.kaCycles / 4 ≤ (s.linkOf port).idleTx)
def State.linkSilent (s : State) (port : Nat) : Bool :=
  s.portRuns port && decide (3 * s.kaCycles ≤ (s.linkOf port).idleRx)

/-- RETRANSMISSION_EXHAUSTED. -/
def execRetransmissionExhausted (port : Nat) (s : State) : Out :=
  if (s.linkOf port).exhausted then .next (s.declareDown port 1) else .next s

/-- KEEPALIVE_SEND: a link-management flit, which waits where the retry buffer is full. -/
def execKeepaliveSend (port : Nat) (s : State) : Out :=
  .next (if s.keepaliveDue port then s.onLink port (Link.manage {}) else s)

/-- LINK_DOWN: no flit for three keepalive periods. -/
def execLinkDown (port : Nat) (s : State) : Out :=
  if s.linkSilent port then .next (s.declareDown port 0) else .next s

/-- LINK_RETRAIN: a write of RETRAIN = 1. -/
def execLinkRetrain (port : Nat) (s : State) : Out := .next (s.retrainOp port)

/-- LINK_TRAINED: a link that is down comes up only after RETRAIN. -/
def execLinkTrained (port : Nat) (s : State) : Out :=
  let l := s.linkOf port
  if 24 ≤ port ∨ !s.dev.portOn port ∨ l.up ∨ (l.down && !l.training) then .next s
  else
    let s := s.onLink port fun l => { l with
      lnk := (l.lnk &&& ~~~(keepBits l.lnk 2 2)) ||| 2, training := false, idleTx := 0, idleRx := 0 }
    .next (s.endLost (· == port) false)

/-! ### Partition registers (26 R427, R428) -/

/-- PARTITION_ENABLE: a write of PTCTL with EN = 1. -/
def execPartitionEnable (v : Word) (s : State) : Out := .next (s.ptctlWrite (v ||| 1))
/-- PARTITION_DISABLE: a write of PTCTL with EN = 0. -/
def execPartitionDisable (v : Word) (s : State) : Out := .next (s.ptctlWrite (v &&& ~~~(1 : Word)))

/-! ### The freeze flood (27 R441, R442) -/

/-- A flood started by the host's supervisor writes PTFRZ through BAR0, at die 0. -/
def execFreezeFloodStart (id : BitVec 16) (s : State) : Out := .next (s.floodStart 0 id false)
def execThawFloodStart (id : BitVec 16) (s : State) : Out := .next (s.floodStart 0 id true)

/-- FREEZE_FLOOD_RECEIVE: by a package port a flood that the neighbouring die has forwarded; by an external port one
that the far end has. -/
def execFreezeFloodReceive (port : Nat) (id : BitVec 16) (thaw : Bool) (s : State) : Out :=
  if !s.portRuns port then .next s
  else if isExternal port then
    if s.dev.ptctl.getLsbD 0 then
      .next ((s.onLink port fun l => { l with idleRx := 0 }).floodAt (BitVec.ofNat 2 (port / 6)) id thaw (some port))
    else .next s
  else
    match s.dev.floodOut.find? fun f => f.via == port && f.id == id && f.thaw == thaw with
    | none => .next s
    | some f => .next ((s.onDev fun d => { d with floodOut := d.floodOut.erase f }).floodAt f.die id thaw (some port))

end Sys2Proof.Machine
end

