-- ==== Sys2Proof/Machine/Dispatch.lean ====
section
/-! DEFINITION. The meaning of every instruction: one arm per constructor of `Instr`. -/

namespace Sys2Proof.Machine

def exec (i : Instr) (s : State) : Host.Outcome State Fault Refusal :=
  match i with
  | .ill => Sys2Proof.Machine.execIll s
  | .add w t0 t1 => Sys2Proof.Machine.execAdd w t0 t1 s
  | .sub w t0 t1 => Sys2Proof.Machine.execSub w t0 t1 s
  | .addi imm t0 => Sys2Proof.Machine.execAddi imm t0 s
  | .mul w t0 t1 => Sys2Proof.Machine.execMul w t0 t1 s
  | .mulh w t0 t1 => Sys2Proof.Machine.execMulh w t0 t1 s
  | .mulhn w t0 t1 => Sys2Proof.Machine.execMulhn w t0 t1 s
  | .div w t0 t1 => Sys2Proof.Machine.execDiv w t0 t1 s
  | .divn w t0 t1 => Sys2Proof.Machine.execDivn w t0 t1 s
  | .rem w t0 t1 => Sys2Proof.Machine.execRem w t0 t1 s
  | .remn w t0 t1 => Sys2Proof.Machine.execRemn w t0 t1 s
  | .and t0 t1 => Sys2Proof.Machine.execAnd t0 t1 s
  | .or t0 t1 => Sys2Proof.Machine.execOr t0 t1 s
  | .xor t0 t1 => Sys2Proof.Machine.execXor t0 t1 s
  | .andn t0 t1 => Sys2Proof.Machine.execAndn t0 t1 s
  | .shl w t0 t1 => Sys2Proof.Machine.execShl w t0 t1 s
  | .shr w t0 t1 => Sys2Proof.Machine.execShr w t0 t1 s
  | .sar w t0 t1 => Sys2Proof.Machine.execSar w t0 t1 s
  | .min w t0 t1 => Sys2Proof.Machine.execMin w t0 t1 s
  | .max w t0 t1 => Sys2Proof.Machine.execMax w t0 t1 s
  | .minn w t0 t1 => Sys2Proof.Machine.execMinn w t0 t1 s
  | .maxn w t0 t1 => Sys2Proof.Machine.execMaxn w t0 t1 s
  | .clz w t0 t1 => Sys2Proof.Machine.execClz w t0 t1 s
  | .popc w t0 t1 => Sys2Proof.Machine.execPopc w t0 t1 s
  | .sext k t0 t1 => Sys2Proof.Machine.execSext k t0 t1 s
  | .zext k t0 t1 => Sys2Proof.Machine.execZext k t0 t1 s
  | .ceq w t0 t1 => Sys2Proof.Machine.execCeq w t0 t1 s
  | .cne w t0 t1 => Sys2Proof.Machine.execCne w t0 t1 s
  | .clt w t0 t1 => Sys2Proof.Machine.execClt w t0 t1 s
  | .cltn w t0 t1 => Sys2Proof.Machine.execCltn w t0 t1 s
  | .cle w t0 t1 => Sys2Proof.Machine.execCle w t0 t1 s
  | .clen w t0 t1 => Sys2Proof.Machine.execClen w t0 t1 s
  | .sel n t0 t1 => Sys2Proof.Machine.execSel n t0 t1 s
  | .movi imm t0 => Sys2Proof.Machine.execMovi imm t0 s
  | .constw sx t0 t1 => Sys2Proof.Machine.execConstw sx t0 t1 s
  | .constd t0 t1 => Sys2Proof.Machine.execConstd t0 t1 s
  | .read r t0 => Sys2Proof.Machine.execRead r t0 s
  | .write r => Sys2Proof.Machine.execWrite r s
  | .fan t0 t1 => Sys2Proof.Machine.execFan t0 t1 s
  | .null t0 t1 => Sys2Proof.Machine.execNull t0 t1 s
  | .lea str t0 t1 => Sys2Proof.Machine.execLea str t0 t1 s
  | .br => Sys2Proof.Machine.execBr s
  | .bri imm => Sys2Proof.Machine.execBri imm s
  | .call imm t0 => Sys2Proof.Machine.execCall imm t0 s
  | .ret => Sys2Proof.Machine.execRet s
  | .retire => Sys2Proof.Machine.execRetire s
  | .vadd ty vd va vb q => Sys2Proof.Machine.execVadd ty vd va vb q s
  | .vsub ty vd va vb q => Sys2Proof.Machine.execVsub ty vd va vb q s
  | .vmul ty vd va vb q => Sys2Proof.Machine.execVmul ty vd va vb q s
  | .vfma ty vd va vb q => Sys2Proof.Machine.execVfma ty vd va vb q s
  | .vmin ty vd va vb q => Sys2Proof.Machine.execVmin ty vd va vb q s
  | .vmax ty vd va vb q => Sys2Proof.Machine.execVmax ty vd va vb q s
  | .vabs ty vd va q => Sys2Proof.Machine.execVabs ty vd va q s
  | .vneg ty vd va q => Sys2Proof.Machine.execVneg ty vd va q s
  | .vand vd va vb q => Sys2Proof.Machine.execVand vd va vb q s
  | .vor vd va vb q => Sys2Proof.Machine.execVor vd va vb q s
  | .vxor vd va vb q => Sys2Proof.Machine.execVxor vd va vb q s
  | .vshl c vd va q => Sys2Proof.Machine.execVshl c vd va q s
  | .vshr c vd va q => Sys2Proof.Machine.execVshr c vd va q s
  | .vsar c vd va q => Sys2Proof.Machine.execVsar c vd va q s
  | .vcmp ty rel vd va vb q => Sys2Proof.Machine.execVcmp ty rel vd va vb q s
  | .vsel vd va vb q => Sys2Proof.Machine.execVsel vd va vb q s
  | .vcvt pr md vd va q => Sys2Proof.Machine.execVcvt pr md vd va q s
  | .vqnt f scales vd va q => Sys2Proof.Machine.execVqnt f scales vd va q s
  | .vdqnt f vd va vb q => Sys2Proof.Machine.execVdqnt f vd va vb q s
  | .vrcp vd va q => Sys2Proof.Machine.execVrcp vd va q s
  | .vrsq vd va q => Sys2Proof.Machine.execVrsq vd va q s
  | .vexp2 vd va q => Sys2Proof.Machine.execVexp2 vd va q s
  | .vlog2 vd va q => Sys2Proof.Machine.execVlog2 vd va q s
  | .vperm src vd va q => Sys2Proof.Machine.execVperm src vd va q s
  | .vbfly op k vd va q => Sys2Proof.Machine.execVbfly op k vd va q s
  | .vred op vd va q => Sys2Proof.Machine.execVred op vd va q s
  | .vscan op excl vd va q => Sys2Proof.Machine.execVscan op excl vd va q s
  | .vsmxa start vd va q => Sys2Proof.Machine.execVsmxa start vd va q s
  | .vsmxn vd va vb q => Sys2Proof.Machine.execVsmxn vd va vb q s
  | .vstat ph vd va q => Sys2Proof.Machine.execVstat ph vd va q s
  | .vsplat src vd q => Sys2Proof.Machine.execVsplat src vd q s
  | .vmovs src q t0 => Sys2Proof.Machine.execVmovs src q t0 s
  | .vins va n q t0 => Sys2Proof.Machine.execVins va n q t0 s
  | .vlane src q => Sys2Proof.Machine.execVlane src q s
  | .vmov vd va q => Sys2Proof.Machine.execVmov vd va q s
  | .sett n vd va vb q => Sys2Proof.Machine.execSett n vd va vb q s
  | .mregion r => Sys2Proof.Machine.execMregion r s
  | .mfmt r => Sys2Proof.Machine.execMfmt r s
  | .mwld r => Sys2Proof.Machine.execMwld r s
  | .mswap r => Sys2Proof.Machine.execMswap r s
  | .mstep r => Sys2Proof.Machine.execMstep r s
  | .macc r => Sys2Proof.Machine.execMacc r s
  | .mdrain r => Sys2Proof.Machine.execMdrain r s
  | .mzero r => Sys2Proof.Machine.execMzero r s
  | .mstat r t0 t1 => Sys2Proof.Machine.execMstat r t0 t1 s
  | .mfree r => Sys2Proof.Machine.execMfree r s
  | .cload h => Sys2Proof.Machine.execCload h s
  | .cfire h => Sys2Proof.Machine.execCfire h s
  | .cpatch h => Sys2Proof.Machine.execCpatch h s
  | .cmcast h => Sys2Proof.Machine.execCmcast h s
  | .cevict m => Sys2Proof.Machine.execCevict m s
  | .cstat h t0 t1 => Sys2Proof.Machine.execCstat h t0 t1 s
  | .cweight h => Sys2Proof.Machine.execCweight h s
  | .chang h => Sys2Proof.Machine.execChang h s
  | .cfreeze h => Sys2Proof.Machine.execCfreeze h s
  | .cthaw h => Sys2Proof.Machine.execCthaw h s
  | .sbind n => Sys2Proof.Machine.execSbind n s
  | .sfree n => Sys2Proof.Machine.execSfree n s
  | .squery img n t0 t1 => Sys2Proof.Machine.execSquery img n t0 t1 s
  | .ld sp sx sz t0 t1 => Sys2Proof.Machine.execLd sp sx sz t0 t1 s
  | .st sp sz t0 t1 => Sys2Proof.Machine.execSt sp sz t0 t1 s
  | .ldv sp va q t0 => Sys2Proof.Machine.execLdv sp va q t0 s
  | .stv sp va q t0 => Sys2Proof.Machine.execStv sp va q t0 s
  | .ldg str t0 t1 => Sys2Proof.Machine.execLdg str t0 t1 s
  | .sts str t0 t1 => Sys2Proof.Machine.execSts str t0 t1 s
  | .agen str => Sys2Proof.Machine.execAgen str s
  | .astart str => Sys2Proof.Machine.execAstart str s
  | .astop str => Sys2Proof.Machine.execAstop str s
  | .abar => Sys2Proof.Machine.execAbar s
  | .ldw str => Sys2Proof.Machine.execLdw str s
  | .tlook t0 t1 => Sys2Proof.Machine.execTlook t0 t1 s
  | .tset => Sys2Proof.Machine.execTset s
  | .tclr => Sys2Proof.Machine.execTclr s
  | .amo op ty t0 t1 => Sys2Proof.Machine.execAmo op ty t0 t1 s
  | .amov op va q t0 => Sys2Proof.Machine.execAmov op va q t0 s
  | .cas wide t0 t1 => Sys2Proof.Machine.execCas wide t0 t1 s
  | .pxform p => Sys2Proof.Machine.execPxform p s
  | .pmerge p => Sys2Proof.Machine.execPmerge p s
  | .ringdef n => Sys2Proof.Machine.execRingdef n s
  | .ringstat n t0 t1 => Sys2Proof.Machine.execRingstat n t0 t1 s
  | .resume => Sys2Proof.Machine.execResume s
  | .kcopy t0 t1 => Sys2Proof.Machine.execKcopy t0 t1 s
  | .kgath t0 t1 => Sys2Proof.Machine.execKgath t0 t1 s
  | .kscat t0 t1 => Sys2Proof.Machine.execKscat t0 t1 s
  | .kred op t0 t1 => Sys2Proof.Machine.execKred op t0 t1 s
  | .kport p => Sys2Proof.Machine.execKport p s
  | .ksend rec tag t0 t1 => Sys2Proof.Machine.execKsend rec tag t0 t1 s
  | .krecv n t0 t1 => Sys2Proof.Machine.execKrecv n t0 t1 s
  | .kpoll n t0 t1 => Sys2Proof.Machine.execKpoll n t0 t1 s
  | .kcoll k t0 t1 => Sys2Proof.Machine.execKcoll k t0 t1 s
  | .kwait t0 t1 => Sys2Proof.Machine.execKwait t0 t1 s
  | .kevq t0 t1 => Sys2Proof.Machine.execKevq t0 t1 s
  | .kcancel => Sys2Proof.Machine.execKcancel s
  | .kstat t0 t1 => Sys2Proof.Machine.execKstat t0 t1 s
  | .bari str => Sys2Proof.Machine.execBari str s
  | .bara t0 t1 => Sys2Proof.Machine.execBara t0 t1 s
  | .barw t0 t1 => Sys2Proof.Machine.execBarw t0 t1 s
  | .baraw t0 t1 => Sys2Proof.Machine.execBaraw t0 t1 s
  | .bard t0 t1 => Sys2Proof.Machine.execBard t0 t1 s
  | .bart t0 t1 => Sys2Proof.Machine.execBart t0 t1 s
  | .fence str t0 t1 => Sys2Proof.Machine.execFence str t0 t1 s
  | .dput q => Sys2Proof.Machine.execDput q s
  | .dget q => Sys2Proof.Machine.execDget q s
  | .waitf c t0 t1 => Sys2Proof.Machine.execWaitf c t0 t1 s
  | .setf all => Sys2Proof.Machine.execSetf all s
  | .clrf all => Sys2Proof.Machine.execClrf all s
  | .qwait t0 t1 => Sys2Proof.Machine.execQwait t0 t1 s
  | .qstat iface w t0 t1 => Sys2Proof.Machine.execQstat iface w t0 t1 s
  | .spawn set t0 t1 => Sys2Proof.Machine.execSpawn set t0 t1 s
  | .join t0 t1 => Sys2Proof.Machine.execJoin t0 t1 s
  | .kill job => Sys2Proof.Machine.execKill job s
  | .yield => Sys2Proof.Machine.execYield s
  | .trap c => Sys2Proof.Machine.execTrap c s
  | .tret => Sys2Proof.Machine.execTret s
  | .csrr r t0 => Sys2Proof.Machine.execCsrr r t0 s
  | .csrw r => Sys2Proof.Machine.execCsrw r s
  | .csrx r t0 => Sys2Proof.Machine.execCsrx r t0 s
  | .logm code => Sys2Proof.Machine.execLogm code s
  | .ctxsave => Sys2Proof.Machine.execCtxsave s
  | .ctxload => Sys2Proof.Machine.execCtxload s
  | .spinv => Sys2Proof.Machine.execSpinv s
  | .tlbinv => Sys2Proof.Machine.execTlbinv s
  | .keysel => Sys2Proof.Machine.execKeysel s
  | .escal c => Sys2Proof.Machine.execEscal c s
  | .brk => Sys2Proof.Machine.execBrk s
  | .perf k t0 t1 => Sys2Proof.Machine.execPerf k t0 t1 s
  | .launchTokenConsume c => Sys2Proof.Machine.execLaunchTokenConsume c s
  | .placement n => Sys2Proof.Machine.execPlacement n s
  | .endOfSegment actor => Sys2Proof.Machine.execEndOfSegment actor s
  | .updateTokenApply u n merge => Sys2Proof.Machine.execUpdateTokenApply u n merge s
  | .roundClose u => Sys2Proof.Machine.execRoundClose u s
  | .streamElement str => Sys2Proof.Machine.execStreamElement str s
  | .copyRequestStart ch => Sys2Proof.Machine.execCopyRequestStart ch s
  | .copyCompletion ch => Sys2Proof.Machine.execCopyCompletion ch s
  | .copyPortPacket p => Sys2Proof.Machine.execCopyPortPacket p s
  | .dependenceFifoPush q => Sys2Proof.Machine.execDependenceFifoPush q s
  | .commandPopTimeout col => Sys2Proof.Machine.execCommandPopTimeout col s
  | .accumulatorRelease n => Sys2Proof.Machine.execAccumulatorRelease n s
  | .operatorFiring h port n => Sys2Proof.Machine.execOperatorFiring h port n s
  | .arbiterReweight node => Sys2Proof.Machine.execArbiterReweight node s
  | .actorReweight prio => Sys2Proof.Machine.execActorReweight prio s
  | .hangMonitorExpiry h => Sys2Proof.Machine.execHangMonitorExpiry h s
  | .messageArrival n => Sys2Proof.Machine.execMessageArrival n s
  | .nackArrival n => Sys2Proof.Machine.execNackArrival n s
  | .ksendRetry n => Sys2Proof.Machine.execKsendRetry n s
  | .lostNotice n => Sys2Proof.Machine.execLostNotice n s
  | .clearingWave slot => Sys2Proof.Machine.execClearingWave slot s
  | .packetForward n => Sys2Proof.Machine.execPacketForward n s
  | .flitReceive port payload low crc again pkt => Sys2Proof.Machine.execFlitReceive port payload low crc again pkt s
  | .retransmissionExhausted port => Sys2Proof.Machine.execRetransmissionExhausted port s
  | .keepaliveSend port => Sys2Proof.Machine.execKeepaliveSend port s
  | .linkDown port => Sys2Proof.Machine.execLinkDown port s
  | .freezeFloodReceive port id thaw => Sys2Proof.Machine.execFreezeFloodReceive port id thaw s
  | .clockReevaluation die tj thbm pwr => Sys2Proof.Machine.execClockReevaluation die tj thbm pwr s
  | .uncontainedError owner tile n code endpt => Sys2Proof.Machine.execUncontainedError owner tile n code endpt s
  | .hctailWrite c n => Sys2Proof.Machine.execHctailWrite c n s
  | .hcheadWrite c n => Sys2Proof.Machine.execHcheadWrite c n s
  | .hcctlEnable c v => Sys2Proof.Machine.execHcctlEnable c v s
  | .hcctlDisable c v => Sys2Proof.Machine.execHcctlDisable c v s
  | .ingressSlotConsume c => Sys2Proof.Machine.execIngressSlotConsume c s
  | .egressSlotWrite c => Sys2Proof.Machine.execEgressSlotWrite c s
  | .hostHdmWrite pa data poison key => Sys2Proof.Machine.execHostHdmWrite pa data poison key s
  | .hostHdmRead pa key => Sys2Proof.Machine.execHostHdmRead pa key s
  | .bootGo agree => Sys2Proof.Machine.execBootGo agree s
  | .attcmdWrite v => Sys2Proof.Machine.execAttcmdWrite v s
  | .i3cDynamicAddress a => Sys2Proof.Machine.execI3cDynamicAddress a s
  | .i3cPrivateWrite idx data => Sys2Proof.Machine.execI3cPrivateWrite idx data s
  | .keyLoad slot => Sys2Proof.Machine.execKeyLoad slot s
  | .keyClear slot => Sys2Proof.Machine.execKeyClear slot s
  | .partitionEnable v => Sys2Proof.Machine.execPartitionEnable v s
  | .partitionDisable v => Sys2Proof.Machine.execPartitionDisable v s
  | .freezeFloodStart id => Sys2Proof.Machine.execFreezeFloodStart id s
  | .thawFloodStart id => Sys2Proof.Machine.execThawFloodStart id s
  | .linkRetrain port => Sys2Proof.Machine.execLinkRetrain port s
  | .ctxctlHold tile ctx => Sys2Proof.Machine.execCtxctlHold tile ctx s
  | .ctxctlRelease tile ctx => Sys2Proof.Machine.execCtxctlRelease tile ctx s
  | .contextImageStore tile ctx csr v => Sys2Proof.Machine.execContextImageStore tile ctx csr v s
  | .tlbisoWrite die slice word v => Sys2Proof.Machine.execTlbisoWrite die slice word v s
  | .logposWrite tile ctx v => Sys2Proof.Machine.execLogposWrite tile ctx v s
  | .loglimWrite tile ctx v => Sys2Proof.Machine.execLoglimWrite tile ctx v s
  | .registerWrite off v => Sys2Proof.Machine.execRegisterWrite off v s
  | .linkTrained port => Sys2Proof.Machine.execLinkTrained port s
  | .engineCommandCompletion col => Sys2Proof.Machine.execEngineCommandCompletion col s
  | .dputCeilingTimeout q => Sys2Proof.Machine.execDputCeilingTimeout q s
  | .copyPortFullTimeout p => Sys2Proof.Machine.execCopyPortFullTimeout p s
  | .firmwareReady module => Sys2Proof.Machine.execFirmwareReady module s
  | .stagingWindowWrite off v => Sys2Proof.Machine.execStagingWindowWrite off v s
  | .deviceReset => Sys2Proof.Machine.execDeviceReset s
  | .actorSelection => Sys2Proof.Machine.execActorSelection s
  | .blockFetch => Sys2Proof.Machine.execBlockFetch s
  | .blockDispatch => Sys2Proof.Machine.execBlockDispatch s
  | .blockCommit => Sys2Proof.Machine.execBlockCommit s
  | .firingResumption => Sys2Proof.Machine.execFiringResumption s
  | .firingOverrun => Sys2Proof.Machine.execFiringOverrun s
  | .segmentBoundary => Sys2Proof.Machine.execSegmentBoundary s
  | .segmentStart => Sys2Proof.Machine.execSegmentStart s
  | .segmaxExpiry => Sys2Proof.Machine.execSegmaxExpiry s
  | .waitEvaluation => Sys2Proof.Machine.execWaitEvaluation s
  | .deadlineExpiry => Sys2Proof.Machine.execDeadlineExpiry s
  | .barrierArrival => Sys2Proof.Machine.execBarrierArrival s
  | .barrierWithdrawal => Sys2Proof.Machine.execBarrierWithdrawal s
  | .evqRecordDelivery => Sys2Proof.Machine.execEvqRecordDelivery s
  | .quietRequest => Sys2Proof.Machine.execQuietRequest s
  | .waveStart => Sys2Proof.Machine.execWaveStart s
  | .quietDecision => Sys2Proof.Machine.execQuietDecision s
  | .boundarySwitch => Sys2Proof.Machine.execBoundarySwitch s
  | .eventDelivery => Sys2Proof.Machine.execEventDelivery s
  | .reportCompletion => Sys2Proof.Machine.execReportCompletion s
  | .i3cPrivateRead => Sys2Proof.Machine.execI3cPrivateRead s
  | .restoreWaitTimeout => Sys2Proof.Machine.execRestoreWaitTimeout s

end Sys2Proof.Machine
end

