-- ==== Sys2Proof/Machine/Agents.lean ====
section
/-! DEFINITION. The agents of the machine and the choice among them: what each could execute next, and which row a step
executes (log 2, 3). Every choice is one of those that the spec leaves open; a row that is not enabled changes nothing. -/

namespace Sys2Proof.Machine

/-! ### Commands that an engine could apply (06 R150; 10 R205, R210; 11 R233, R251) -/

def isFence : Instr → Bool | .fence .. => true | _ => false
def isResume : Instr → Bool | .resume => true | _ => false
def isStream (i : Instr) : Bool := !isStore i && !isUpdate i && !isFence i && !isResume i
/-- Agent and row of a held command. -/
def cmdMove (e : Eff) : Agent × Instr := (.cmd e, e.ins)
/-- The first of a queue that satisfies `p`, when it need not wait for an update. -/
def State.firstFree (s : State) (l : List Eff) (p : Instr → Bool) : List Eff :=
  ((l.find? fun e => p e.ins).filter s.effFree).toList
/-- Class L: RESUME at any time; the rest not while the scalar path is held. A close goes out once no update before it
could. -/
def State.loadMoves (s : State) : List Eff :=
  let l := s.ctx.lq
  s.firstFree l isResume ++
    (if s.ctx.holdScalar.isSome then [] else
      s.firstFree l isStore ++ s.firstFree l isStream ++ s.firstFree l isUpdate
        ++ (if (l.takeWhile fun e => !isFence e.ins).any fun e => isUpdate e.ins && s.effFree e then []
            else (l.find? fun e => isFence e.ins).toList))
/-- Commands that run, and the first that has not started, when it need not wait for an update. -/
def State.startedAndNext (s : State) (l : List Eff) : List Eff :=
  l.filter (·.started) ++ ((l.find? (!·.started)).filter s.effFree).toList
/-- Commands of the context in focus; while it is being saved, only its own save. -/
def State.commands (s : State) : List Eff :=
  let c := s.ctx
  if c.csr.saving then c.zq.filter fun e => e.started && e.ins == .ctxsave
  else
    s.startedAndNext c.mq ++ (if c.holdEngine.isSome || !c.mapq.isEmpty then [] else (c.cq.head?.filter s.effFree).toList)
      ++ s.loadMoves ++ s.firstFree c.kq (fun _ => true) ++ s.startedAndNext c.zq
      ++ c.dq.filter s.effFree ++ c.sync.fifo.filter (fun e => c.fifoFirst e && s.effFree e)

/-! ### Rows without a word -/

def upTo (n : Nat) (f : Nat → Instr) : List Instr := (List.range n).map f
/-- Numbers below `n` of a list whose element satisfies `p`. -/
def placesOf {α : Type} (p : α → Bool) (l : List α) : List Nat := ((l.zipIdx).filter fun x => p x.1).map (·.2)

/-- Rows of the engines, of the graph and of the tile of the context in focus. -/
def State.ctxRows (s : State) : List Instr :=
  let c := s.ctx
  if c.csr.saving then [] else
  let g := c.graph
  (placesOf (fun a => !a.free && !a.ended) g.actors).map .endOfSegment
    ++ (if g.isOpen then [.segmentBoundary] else if c.waitsSegment then [.segmentStart] else [])
    ++ (if g.pending.isSome then [.boundarySwitch, .segmaxExpiry] else [])
    ++ ((List.range 4).filter fun p => 256 ≤ s.tile.selsAt (BitVec.ofNat 2 p)).map (fun p => .actorReweight (BitVec.ofNat 2 p))
    ++ (placesOf (fun t => t.st == .run || !t.buf.isEmpty) c.streams.toList).map (fun k => .streamElement (BitVec.ofNat 5 k))
    ++ (placesOf (fun x => x.run.isNone && !x.queue.isEmpty) c.chans.toList).map (fun k => .copyRequestStart (BitVec.ofNat 3 k))
    ++ (placesOf (fun x => x.run.isSome) c.chans.toList).map (fun k => .copyCompletion (BitVec.ofNat 3 k))
    ++ (if c.handles.toList.any (·.isSome) then ((List.range 4).filter fun k => (c.copySource k).isSome).flatMap fun k =>
        [.copyPortPacket (BitVec.ofNat 2 k), .copyPortFullTimeout (BitVec.ofNat 2 k)] else [])
    ++ (if c.sync.evqHeld.isEmpty then [] else [.evqRecordDelivery])
    ++ (c.sync.pushes.map (·.q)).dedup.map .dependenceFifoPush
    ++ (if c.mq.isEmpty then [] else [.commandPopTimeout false]) ++ (if c.cq.isEmpty then [] else [.commandPopTimeout true])
    ++ (if c.mdone.isEmpty then [] else [.engineCommandCompletion false])
    ++ (if c.cdone.isEmpty then [] else [.engineCommandCompletion true])
    ++ upTo c.releases.length .accumulatorRelease
    ++ (placesOf (·.isSome) c.handles.toList).flatMap (fun h =>
        let f := (c.handles.getD h none).getD {}
        upTo f.img.nodes.length (.operatorFiring (BitVec.ofNat 5 h) false)
          ++ upTo f.img.ports.length (.operatorFiring (BitVec.ofNat 5 h) true)
          ++ (if f.hang.isSome then [.hangMonitorExpiry (BitVec.ofNat 5 h)] else []))
    ++ s.tile.units.map (fun u => .arbiterReweight u.1)
    ++ upTo c.sends.length .ksendRetry
    ++ (c.sync.fifo.map fun e => .dputCeilingTimeout (BitVec.ofNat 3 (effFifo e)))
    ++ (if c.zq.isEmpty then [] else [.restoreWaitTimeout])

/-- A payload of zeros. -/
def zeroFlit : List Byte := List.replicate 64 0
/-- Rows of a packet. -/
def State.packetRows (s : State) (n : Nat) (p : Packet) : List Instr :=
  if s.dev.halted (tDie p.pos) then []
  else if s.arrived p then
    match p.kind with
    | .msg | .accept | .kerf | .coll | .ended => [.messageArrival n]
    | .nack => [.nackArrival n]
    | .lost => [.lostNotice n]
  else [.packetForward n]
/-- Rows of the units, the network, the host interface and the launch path. -/
def State.moduleRows (s : State) : List Instr :=
  let d := s.dev
  (placesOf (fun h => h.role == 3 && !h.ready.isEmpty) d.hch.toList).map (fun c => .launchTokenConsume (BitVec.ofNat 6 c))
    ++ upTo d.pending.length .placement
    ++ (if d.barQ.isEmpty then [] else [.barrierArrival, .barrierWithdrawal])
    ++ d.units.flatMap (fun u =>
        (List.range u.window.length).flatMap (fun j => [.updateTokenApply u.num j false, .updateTokenApply u.num j true])
          ++ (if u.closes.isEmpty then [] else [.roundClose u.num]))
    ++ (if d.quietReqs.isEmpty then [] else [.quietRequest]) ++ (if s.waveAsked && s.waveRipe then [.waveStart] else [])
    ++ (if d.wave.isSome then [.quietDecision] else [])
    ++ (if s.slotWanted then (placesOf (fun j => j.dirty && !j.active) d.jobs.toList).map (fun j => .clearingWave (BitVec.ofNat 4 j))
        else [])
    ++ (d.packets.zipIdx).flatMap (fun x => s.packetRows x.2 x.1)
    ++ (placesOf Link.exhausted d.links.toList).map .retransmissionExhausted
    ++ ((List.range 24).filter fun p => !isExternal p && (s.linkOf p).up && !(s.linkOf (packagePeer p)).retry.isEmpty).map (fun p =>
        .flitReceive p zeroFlit 0 (flitCrc zeroFlit 0) false none)
    ++ ((List.range 24).filter s.keepaliveDue).map .keepaliveSend
    ++ ((List.range 24).filter s.linkSilent).map .linkDown
    ++ d.floodOut.map (fun f => .freezeFloodReceive f.via f.id f.thaw)
    ++ (placesOf (fun h => h.en && (h.role == 1 || h.role == 3) && !h.stat.getLsbD 0 && h.readTo != h.tail) d.hch.toList).map
        (fun c => .ingressSlotConsume (BitVec.ofNat 6 c))
    ++ (placesOf (fun h => !h.out.isEmpty) d.hch.toList).map (fun c => .egressSlotWrite (BitVec.ofNat 6 c))
    ++ (if d.events.isEmpty then [] else [.eventDelivery])
    ++ (if d.attcmd.getLsbD 63 then [.reportCompletion] else [])
    ++ (if s.bootState = 2 then [.bootGo d.bootAgree] else [])

/-! ### Slot tables (21 R379, R381; log 107) -/

/-- Traffic that belongs to no context has slots of SIDE 255: invalidations at every isolated slice, waves on the tree of the module,
an event on its way to tile (0, 0) of DIE 0, which the model takes for the way to the host. -/
def State.noSide (s : State) (i : Instr) : Bool :=
  match i with
  | .spinv | .tlbinv => s.who == .core || (s.tile :: s.tiles).all fun t => isoServes t.tlbiso.toList 255
  | .waveStart | .quietDecision | .clearingWave _ => s.wavePass
  | .eventDelivery => s.dev.events.head?.all fun e => s.routePass 255 routeMax (BitVec.ofNat 8 (bitsN e.w0 23 16)) 0
  | _ => true
/-- The row finds slots for all that it sends, and needs no structure that is damaged (27 R436). -/
def State.slotted (s : State) (i : Instr) : Bool :=
  !s.needsDamaged i && (!s.gating || (s.noSide i &&
    match exec i s with
    | .next t => !t.dev.gated
    | _ => true))

/-! ### Choosing -/

/-- What a step executes: the state at which it does, the row, and the slot that issues when it is one. -/
structure Pick where
  st : State
  row : Option Instr := none
  slot : Option Nat := none
  /-- the slot is of a block ahead of commit: its place among them, and its firing as it was -/
  view : Option (Nat × Firing) := none

/-- The context in focus is resident and its die runs. -/
def State.alive (s : State) : Bool := s.ctx.id.present && !s.dev.halted (tDie s.ctx.id.tile)
/-- The next context comes into focus. -/
def State.nextFocus (s : State) : State :=
  match s.ctxs.getLast? with
  | some c => s.focusCtx c.id.uid
  | none => s
def byNat {α : Type} (f : α → Nat) (x : α) : List α → List α
  | [] => [x]
  | y :: l => if f x < f y then x :: y :: l else y :: byNat f x l
/-- The firings of the context in focus, the one dispatched first before the others. -/
def State.firOrder (s : State) : List Nat :=
  ((s.firings.foldr (byNat fun f => f.dseq) []).map (·.id))
/-- Another firing of the tile is ready to fetch and has not given way (13 R284). -/
def State.othersFetch (s : State) : Bool :=
  s.allCtxs.any fun c => c.id.tile == s.ctx.id.tile && !c.stopped
    && (c.firs ++ (if c.id.uid = s.ctx.id.uid then [s.fir] else [])).any fun f =>
      f.id != 0 && f.phase == .fetch && !f.yielded && !(c.id.uid == s.ctx.id.uid && f.id == s.fir.id)
/-- The slot that the core issues next: of the firing dispatched first among those that can issue. -/
def State.issueMove (s : State) : Option Pick :=
  s.firOrder.findSome? fun id =>
    let t := s.focusFir id
    if t.fir.phase = .run then
      t.issuable.findSome? fun (k, i) =>
        let u := t.onBlk fun b => { b with cur := k }
        if u.slotted i then some { st := u, row := some i, slot := some k } else none
    else none
/-- The firing with a block ahead of commit in focus, which reads the registers with the writes of the blocks before it (06 R147). -/
def Firing.viewAhead (f : Firing) (j : Nat) (b : Block) : Firing :=
  let v := (f.blk :: f.ahead.take j).foldl (fun v o => Firing.commitRegs { v with blk := o }) f
  { v with blk := b, dseq := b.dseq, ahead := [], fetched := none }
/-- What a slot of a block ahead of commit has changed of its firing. -/
def Firing.unview (f v : Firing) (j : Nat) : Firing := { f with ahead := modAt f.ahead j fun _ => v.blk, rets := v.rets }
/-- An instruction of a block ahead of commit may fire: one of class S whose register no block before it may still write, and that
reads no flag, or a TLOOK when none of these blocks changes tags. Others fire when their block is the oldest, the model's choice (06
R147, R150; 04 R92, R93; log 3). -/
def aheadMay (older : List Block) (w : Half) (i : Instr) : Bool :=
  match i with
  | .read (.g n) _ => !heldBack older (fun j => j == .write (.g n)) fun t => t == .wait || t == .pend
  | .read .. | .sel .. => false
  | .tlook .. => !heldBack older isTagWrite fun _ => true
  | _ => fCls w == 0
/-- The slots of blocks ahead of commit that may fire, of the firing in focus. -/
def State.aheadPicks (s : State) : List Pick :=
  if s.fir.phase ≠ .run then [] else
  (s.fir.ahead.zipIdx).flatMap fun (b, j) =>
    let v := { s with fir := s.fir.viewAhead j b }
    let older := s.fir.blk :: s.fir.ahead.take j
    v.issuable.filterMap fun (k, i) =>
      if (b.slots[k]?).any fun sl => aheadMay older sl.word i then
        some { st := v.onBlk fun b => { b with cur := k }, row := some i, slot := some k, view := some (j, s.fir) }
      else none
/-- Firings of the tile in focus with a block to dispatch take turns, one block a turn, from the firing slot after the one
served last; one that has given way comes last (01 R26, 13 R284, 18 R327). -/
def State.dispatchTurn (s : State) : Bool :=
  let dist (f : Firing) : Nat := (f.slotNo + 7 - s.tile.served) % 8 + if f.yielded then 8 else 0
  !(s.allCtxs.any fun c => c.id.tile == s.ctx.id.tile && !c.stopped
    && c.firs.any fun f => (f.phase == .dispatch && dist f < dist s.fir) || (f.phase == .run && f.blk.rest != 0))
/-- The other rows of the firing in focus. -/
def State.firingRows (s : State) : List Instr :=
  match s.fir.phase with
  | .idle => []
  | .fetch => if s.fir.yielded && s.othersFetch then [] else [.blockFetch]
  | .dispatch => if s.dispatchTurn then [.blockDispatch] else []
  | .run =>
    (if s.fir.blk.decided then [.blockCommit] else []) ++ (if s.fir.blk.rest ≠ 0 then [.blockDispatch] else [])
      ++ (if s.fir.aheadAt.isSome && Config.runAhead s.freeCtr then [.blockFetch] else [])
      ++ (if s.fir.fetched.isSome && s.fir.blk.rest == 0 && s.dispatchTurn && s.dispatchAhead.isSome then [.blockDispatch] else [])
      ++ (if (s.firstReturn s.fir.blk.waiting).isSome then [.waitEvaluation] else [])
      ++ (if !s.fir.overrun && s.actorNow.fmax < s.ctx.csr.budget.toNat - s.fir.started then [.firingOverrun] else [])
/-- A firing of the tile can resume, which goes before every actor selection there (22 R386). -/
def State.resumeFirst (s : State) : Bool :=
  s.tileCtxs.any fun c => !c.susp.isEmpty && !c.stopped && (s.focusCtx c.id.uid).resumable.isSome
/-- Rows of the core that are no issue: firing and row. -/
def State.coreRows (s : State) : List (Nat × Instr) :=
  (s.firOrder.flatMap fun id => (s.focusFir id).firingRows.map fun i => (id, i))
    ++ (if s.resumable.isSome then [(s.fir.id, .firingResumption)] else [])
    ++ (if s.ctx.graph.isOpen && !s.resumeFirst then [(s.fir.id, .actorSelection)] else [])
/-- Rounds of the focus over the contexts: a context that comes into focus finds the next number, or the same. -/
def State.round (s : State) : Nat := s.rot / (2 * (s.ctxs.length + 1))
/-- Element `n` of a list, counted round it. -/
def pickRound {α : Type} (n : Nat) (l : List α) : Option α := if l.isEmpty then none else l[n % l.length]?
/-- Rows of the core of a frozen context: answers reach the slots that wait for them, and complete blocks commit (05 R119). -/
def State.frozenRows (s : State) : List (Nat × Instr) :=
  s.firOrder.flatMap fun id =>
    let t := s.focusFir id
    if t.fir.phase ≠ .run then [] else
    ((if t.fir.blk.decided && t.blockEnd.isNone then [Instr.blockCommit] else [])
      ++ (if (t.firstReturn t.fir.blk.answered).isSome then [Instr.waitEvaluation] else [])).map fun i => (id, i)
/-- The turn of the core. -/
def State.coreTurn (s : State) : Option Pick :=
  let pick (l : List (Nat × Instr)) (more : List Pick) : Option Pick :=
    pickRound s.round ((l.map fun (id, i) => { st := s.focusFir id, row := some i : Pick }) ++ more |>.filter fun p => p.row.all p.st.slotted)
  if !s.alive || s.ctx.csr.saving then none
  else if s.ctx.frozen then pick s.frozenRows []
  else match s.issueMove with
    | some p => some p
    | none => pick s.coreRows (s.firOrder.flatMap fun id => (s.focusFir id).aheadPicks)
/-- The state in which an agent executes its row. -/
def State.asAgent (s : State) (a : Agent) : State :=
  { (match a with | .cmd e => s.focusFir e.fir | .core => s) with who := a }
/-- The turn of the engines: a wait that expires first, else a command or a row of the context that comes into focus or of
the module. -/
def State.engineTurn (s : State) : Option Pick :=
  match s.due with
  | some (uid, f) => some { st := (s.focusCtx uid).focusFir f, row := some .deadlineExpiry }
  | none =>
    let s := s.nextFocus
    let own := if s.alive then s.commands.map cmdMove ++ s.ctxRows.map fun i => (Agent.core, i) else []
    let all := (own ++ s.moduleRows.map fun i => (Agent.core, i)).filter fun (a, i) => (s.asAgent a).slotted i
    (pickRound s.round all).map fun (a, i) => { st := s.asAgent a, row := some i }
/-- Commands of the context in focus that an engine takes over at once: memory and copy commands that nothing holds, and
those of the dependence FIFOs that find what they need. -/
def State.prompt (s : State) : List Eff :=
  let c := s.ctx
  let finds (e : Eff) : Bool :=
    let n := c.sync.q.getD (effFifo e) 0
    match e.ins with | .dput _ => n < 16 | _ => 0 < n
  if !s.alive || c.csr.saving then []
  else (s.loadMoves.filter (fun e => !isFence e.ins) ++ s.firstFree c.kq (fun _ => true) ++ c.dq.filter s.effFree
    ++ c.sync.fifo.filter fun e => c.fifoFirst e && s.effFree e && finds e).filter fun e => (s.asAgent (.cmd e)).slotted e.ins
/-- Three turns of the engines out of four go to such a command while there is one. -/
def State.promptTurn (s : State) : Option Pick :=
  if s.freeCtr % 4 = 0 then none
  else (pickRound s.freeCtr s.prompt).map fun e => { st := s.asAgent (.cmd e), row := some e.ins }
/-- Bytes that the host stores into its own memory. -/
def hostPut (k : Nat) : List Byte → Memory → Memory
  | [], m => m
  | b :: l, m => hostPut (k + 1) l (m.setByte k b)
/-- What the outside does next. -/
def State.input (s : State) : Input → Pick
  | .ev i => { st := s, row := if i.isEvent then some i else none }
  | .hostStore a d => { st := s.onMem (hostPut (hostKey a) d) }
  | .upset k h => { st := s.onDev fun d => { d with upsets := d.upsets ++ [(k / 8, h)] } }
  | .pause => { st := s }
/-- What the next step executes. What the outside does waits where it finds no slots. After a turn of the engines the core of the context that came into focus has its turn. -/
def State.choose (s : State) : Pick :=
  let s := { s with who := .core, dev := { s.dev with gated := false } }
  let own : Pick :=
    let t := { s with turn := !s.turn, rot := s.rot + 1 }
    if s.turn then (s.promptTurn.orElse fun _ => t.engineTurn.orElse fun _ => t.nextFocus.coreTurn).getD { st := t.nextFocus }
    else (t.coreTurn.orElse fun _ => { t with turn := false }.engineTurn).getD { st := t.nextFocus }
  match s.agenda with
  | x :: l =>
    let p := ({ s with agenda := l }).input x
    if p.row.all p.st.slotted then p else own
  | [] => own

/-! ### After a row, and a word on its own (log 4) -/

/-- A slot that has issued is counted (13 R289, PERF2). -/
def State.countIssue (s : State) (k : Nat) : State :=
  if (s.fir.blk.slots[k]?).any (·.st != .wait) then
    s.onCsr fun c => { c with perf := modV c.perf 2 (· + 1) }
  else s
/-- The oldest block of the firing comes into focus again. -/
def State.unview (s : State) : Option (Nat × Firing) → State
  | some (j, f) => s.onFir fun v => f.unview v j
  | none => s
/-- What follows a row: the count of an issue, and the cycles that pass. -/
def State.afterRow (s : State) (p : Pick) : State :=
  ((match p.slot with | some k => s.countIssue k | none => s).unview p.view).tick
/-- The state `p` in which a row was chosen at `s`, when the row, which comes to `t`, has found its way closed. -/
def State.turnedBack (p s t : State) : State := { p with agenda := s.agenda, dev := { p.dev with tlb := t.dev.tlb } }.tick
/-- A block of one slot, its required operands present with value 0. -/
def wordBlock (w : Half) : Block :=
  let f := match decodeOpt w with | some i => instrForm i | none => {}
  { slots := [{ word := w, expA := f.reqA, a := if f.reqA then some {} else none
                expB := f.reqB, b := if f.reqB then some {} else none }] }
/-- The word stands in the slot that the core issues next; a word that decodes to nothing awaits its dispatch. -/
def State.wordPlaced (s : State) (w : Half) : State :=
  let s := s.park
  { s with
    agenda := [], turn := false
    ctx := { s.ctx with
      id := { s.ctx.id with present := true }, nextFir := s.ctx.nextFir + 1
      csr := { s.ctx.csr with holdSup := false, holdEsc := false, holdBrk := false, holdFlood := [], faultHold := false
                              saving := false } }
    dev := { s.dev with diestat := s.dev.diestat |> mapV fun x => x &&& ~~~(1 : Word) }
    fir := { id := s.ctx.nextFir, phase := if (decodeOpt w).isSome then .run else .dispatch, blk := wordBlock w } }

end Sys2Proof.Machine
end

