-- ==== Sys2Proof/Machine/Step.lean ====
section
/-! DEFINITION. One step of the machine: one row, then the clock (log 2, 3); and where a test places a word (log 4). -/

namespace Sys2Proof.Machine

/-- One step. A row that turns out to find its way closed changes nothing but the TLB, and what the outside was about to do is still to
come (21 R379, 26 R428). -/
def step (s : State) : Host.Outcome State Fault Refusal :=
  let p := s.choose
  match p.row with
  | none => .next p.st.tick
  | some i =>
    match exec i p.st with
    | .next t => .next (if t.dev.gated then (p.st.unview p.view).turnedBack s t else t.afterRow p)
    | .fault f => .fault f
    | .refused r => .refused r

/-- The state whose next step runs the word (log 4). -/
def State.withFetchWord (s : State) (nbits w : Nat) : State :=
  if nbits = 0 then s else s.wordPlaced (BitVec.ofNat 32 w)

end Sys2Proof.Machine
end

