-- ==== Sys2Proof/Safety.lean ====
section
/-! DEFINITION. The terms of the statements: results and frames of the issuing slot, and what a safe state keeps. -/

namespace Sys2Proof

/-- The class S forms but ILL; those that send tokens and neither write nor exit. -/
def Instr.isScalarPlain : Instr → Bool
  | .add .. | .sub .. | .addi .. | .mul .. | .mulh .. | .mulhn .. | .div .. | .divn .. | .rem .. | .remn .. | .and ..
  | .or .. | .xor .. | .andn .. | .shl .. | .shr .. | .sar .. | .min .. | .max .. | .minn .. | .maxn .. | .clz ..
  | .popc .. | .sext .. | .zext .. | .ceq .. | .cne .. | .clt .. | .cltn .. | .cle .. | .clen .. | .sel .. | .movi ..
  | .constw .. | .constd .. | .read .. | .fan .. | .null .. | .lea .. => true
  | _ => false
def Instr.isScalar (i : Instr) : Bool :=
  i.isScalarPlain || match i with
    | .write .. | .br | .bri .. | .call .. | .ret | .retire => true
    | _ => false

/-- The exits that name a target, which the exit table of the tile notes (18 R327). -/
def Instr.isBranch : Instr → Bool
  | .br | .bri .. | .call .. | .ret => true
  | _ => false

/-- The space of a vector access among those of LD and ST. -/
def VSpace.space : VSpace → Space
  | .global => .global | .window => .window | .port => .port

end Sys2Proof

namespace Sys2Proof.Machine

/-! ### Results of the issuing slot -/

/-- The issuing slot is done and sends one token to both consumers. -/
def State.sends (s : State) (t0 t1 : Cons) (v : Word) (p : Bool) : State := s.emit [(t0, ⟨v, p⟩), (t1, ⟨v, p⟩)]
/-- The operands. -/
def State.a (s : State) : Word := s.opA.val
def State.b (s : State) : Word := s.opB.val
/-- The low 32 bits of the operands. -/
def State.aw (s : State) : Half := s.opA.val.setWidth 32
def State.bw (s : State) : Half := s.opB.val.setWidth 32
/-- One of the operands is poisoned. -/
def State.pAB (s : State) : Bool := s.opA.poison || s.opB.poison

/-- The issuing slot is done, sends nothing, and is held for commit with its operands and further words. -/
def State.heldFor (s : State) (i : Instr) (ws : List Word) : State :=
  (s.hold { slot := 0, ins := i, a := s.opA, b := s.opB, ws := ws }).emit []
/-- The effect forms of classes M and C. -/
def matrixForms (r : BitVec 3) : List Instr :=
  [.mregion r, .mfmt r, .mwld r, .mswap r, .mstep r, .macc r, .mdrain r, .mzero r, .mfree r]
def collarForms (h : BitVec 5) (n : BitVec 4) : List Instr :=
  [.cload h, .cfire h, .cpatch h, .cmcast h, .cevict h, .cweight h, .chang h, .cfreeze h, .cthaw h, .sbind n, .sfree n]

/-! ### Frames -/

/-- Nothing but the slots and faults of the block in flight differs: no register, flag, special register or byte. -/
def State.SameButTokens (s t : State) : Prop :=
  t = s.onBlk fun b => { b with slots := t.fir.blk.slots, faults := t.fir.blk.faults }
/-- Nothing but the block in flight differs. -/
def State.SameButBlock (s t : State) : Prop := t = s.onBlk fun _ => t.fir.blk
/-- Nothing but the block in flight and the state of the exit prediction differs: the exit table of the tile and the return
stack of the firing (18 R327). -/
def State.SameButExit (s t : State) : Prop :=
  t = ((s.onTile fun x => { x with exitTab := t.tile.exitTab }).onFir fun f => { f with rets := t.fir.rets }).onBlk fun _ => t.fir.blk

/-! ### Results of a vector form -/

/-- Lane `l` of a register: value and poison. -/
def VReg.at (r : VReg) (l : Nat) : Half × Bool := (r.lane l, r.pois1 l)
/-- Lane `l` of register `v` as the form reads it. -/
def State.vl (s : State) (q : BitVec 2) (v : BitVec 5) (l : Nat) : Half := s.lane q v l
def State.vp (s : State) (q : BitVec 2) (v : BitVec 5) (l : Nat) : Bool := s.lpois q v l
/-- A vector form answers the state in which lanes `act` of register `vd` of pipe `q` hold `f`, LSTAT and PSTS hold `ls`
and `ps`, the flags `fl` are set at commit, and nothing else differs but that the issuing slot is done. -/
def State.Vector (s : State) (o : Out) (q : BitVec 2) (vd : BitVec 5) (act : Nat → Bool) (f : Nat → Half × Bool)
    (ls : Half) (ps : Word) (fl : Word) : Prop :=
  ∃ p : Pipe, o = .next (((s.setPipe q p).flagFp fl).emit [])
    ∧ p.len = (s.pipe q).len ∧ p.lstat = ls ∧ p.psts = ps
    ∧ (∀ v, v ≠ vd → p.reg v = (s.pipe q).reg v)
    ∧ (∀ l, l < 32 → (p.reg vd).at l = if act l then f l else ((s.pipe q).reg vd).at l)
/-- The same for the active lanes, with LSTAT, PSTS and flags left. -/
def State.Lanes (s : State) (o : Out) (q : BitVec 2) (vd : BitVec 5) (f : Nat → Half × Bool) (fl : Word) : Prop :=
  s.Vector o q vd (s.active q) f (s.pipe q).lstat (s.pipe q).psts fl
/-- All flags that the active lanes of a floating form set. -/
def State.laneFlags (s : State) (q : BitVec 2) (f : Nat → Word) : Word :=
  (List.range 32).foldl (fun w l => w ||| (if s.active q l then f l else 0)) 0

/-! ### Memory as a program sees it -/

/-- `v` is the little-endian number of `n` bytes at key `k`, read under a key (00 R3). -/
def Memory.Holds (m : Memory) (kv : Option (BitVec 512)) (k n v : Nat) : Prop :=
  v < 256 ^ n ∧ ∀ i, i < n → v / 256 ^ i % 256 = (m.view kv (k + i)).toNat
/-- `m'` is `m` with the low `n` bytes of `v` stored at key `k` under `kv`: no other byte reads otherwise under `kv`, and no
byte of another 16-byte block under any key. -/
def Memory.Stored (m m' : Memory) (kv : Option (BitVec 512)) (k n v : Nat) : Prop :=
  (∀ i, i < n → (m'.view kv (k + i)).toNat = v / 256 ^ i % 256)
    ∧ (∀ x, x < k ∨ k + n ≤ x → m'.view kv x = m.view kv x)
    ∧ (∀ x kx, x / 16 < k / 16 ∨ (k + n - 1) / 16 < x / 16 → m'.view kx x = m.view kx x)

/-! ### Collar -/

/-- The first token of the channel that feeds position `p` of operator `i`, or what stands for it (14 R303). -/
def CollarCfg.operand (g : CollarCfg) (i p : Nat) (d : Half) : Half :=
  match (g.feeds i).find? (·.1 == p) with
  | some f => (g.first1 f.2).val
  | none => d
/-- No channel out of an endpoint crosses a boundary that a collar kerf guards (21 R382). -/
def State.openOuts (s : State) (g : CollarCfg) (es : List Nat) : Prop :=
  ∀ e ∈ es, ∀ ed, g.img.edges[e]? = some ed →
    (g.img.crosses ed).any (fun x => s.tile.ckerf.getLsbD (g.first + x.1)) = false

/-! ### Counter sets (05 R129) -/

/-- The counter set for a job of a tile's network interface, of its copy engine, and of a port. -/
def State.netCnt (s : State) (tile : BitVec 8) (job : BitVec 16) : Counters :=
  match s.dev.slotOf job with | some j => (s.tileOf tile).net.getD j {} | none => {}
def State.copCnt (s : State) (tile : BitVec 8) (job : BitVec 16) : Counters :=
  match s.dev.slotOf job with | some j => (s.tileOf tile).cop.getD j {} | none => {}
def State.portCnt (s : State) (port : Nat) (job : BitVec 16) : Counters :=
  match s.dev.slotOf job with | some j => (s.linkOf port).cnt.getD j {} | none => {}

/-! ### Firings -/

/-- G0 reads zero and is unpoisoned (02 R41, 06 R147). -/
def Firing.g0 (f : Firing) : Bool := f.regs.get 0 == 0 && !f.gpois.getLsbD 0

end Sys2Proof.Machine
end

