-- ==== Sys2Proof/Certificates/Slice0/Obligations.lean ====
section
/-! DEFINITION. The statements for the provers. -/

section
open Sys2Proof Sys2Proof.Machine

/-- For every instruction that some word encodes, with every operand at every value that the encoding admits, decoding its
word gives it back. (R143; R144; R154; R155; R156; R157; R158; R159; R160; R162) -/
def Obligations.EncodedInstructionsDecodeBack : Prop :=
  ∀ i : Instr, i.wf = true → decode (encode i) = .ok i

/-- If a word decodes to an instruction, that instruction is well formed and the word is its encoding, so every bit of an
accepted word counts. A word in a cell of the class tables that is reserved, or in ILL's cell and not 0, is refused
with detail OPCODE, whatever its bits [22:0] hold. (R143; R144; R154; R161; R163) -/
def Obligations.DecodedWordsEncodeBack : Prop :=
  (∀ (w : Half) (i : Instr), decode w = .ok i → i.wf = true ∧ encode i = w)
  ∧ (∀ w : Half,
      let op := w.toNat / 2 ^ 23 % 64
      let cls := w.toNat / 2 ^ 29
      (cls = 0 ∧ (46 ≤ op ∨ (op = 0 ∧ w ≠ 0))) ∨ (cls = 1 ∧ 35 ≤ op ∧ op ≤ 47) ∨ (cls = 2 ∧ 10 ≤ op) ∨ (cls = 3 ∧ 13 ≤ op)
        ∨ (cls = 4 ∧ 22 ≤ op) ∨ (cls = 5 ∧ (op ≤ 31 ∨ 45 ≤ op)) ∨ (cls = 6 ∧ 18 ≤ op) ∨ (cls = 7 ∧ 14 ≤ op) →
      decode w = .error .opcode)

/-- One word of each format and class, written out from its fields, decodes to its instruction: ADD.w to slots 3 A and 5
B, ADDI -2, WRITE f.7, VCMP.i32.lt, VMOVS of lane 9 sign-extended, SETT 5, MSWAP 6, CFIRE 17, SQUERY 3 .img, LD.g.n8,
STV.l, KEVQ, FENCE of the collar, CSRR BUDGET, TLBINV. (R143; R144; R154; R155; R156; R158; R159; R160; R162) -/
def Obligations.SampleWordsDecode : Prop :=
  decode 0x00862B0C = .ok (.add .w32 (some ⟨3, .a⟩) (some ⟨5, .b⟩))
  ∧ decode 0x01FFFD06 = .ok (.addi (-2) (some ⟨1, .p⟩))
  ∧ decode 0x128E0400 = .ok (.write (.flag 7))
  ∧ decode 0x27044392 = .ok (.vcmp .i32 .lt 1 2 3 2)
  ∧ decode 0x2F915308 = .ok (.vmovs (.lane true 4 9) 1 (some ⟨2, .a⟩))
  ∧ decode 0x3A844300 = .ok (.sett 5 1 2 3 0)
  ∧ decode 0x41980000 = .ok (.mswap 6)
  ∧ decode 0x60C40000 = .ok (.cfire 17)
  ∧ decode 0x664C0104 = .ok (.squery true 3 (some ⟨1, .a⟩) none)
  ∧ decode 0x80000110 = .ok (.ld .global false .s1 (some ⟨4, .a⟩) none)
  ∧ decode 0x818B4107 = .ok (.stv .window 2 3 (some ⟨1, .o⟩))
  ∧ decode 0xB5000124 = .ok (.kevq (some ⟨9, .a⟩) none)
  ∧ decode 0xC30C0104 = .ok (.fence .s3 (some ⟨1, .a⟩) none)
  ∧ decode 0xE1004104 = .ok (.csrr .budget (some ⟨1, .a⟩))
  ∧ decode 0xE4800000 = .ok .tlbinv

/-- With no input to take, at the core's turn, in a resident context that runs on a die that runs: when the firing in
focus was dispatched first, its block runs, slot k is the lowest that may fire in its block, its word decodes to i and
nothing earlier holds i back, no structure that i needs is damaged, and slot tables, where they are on, have slots for
what it sends, and its way is not closed when it sends, the step is exec of i with k as the issuing slot, followed by the
count of the issue and by the cycles that pass (the choice among open orders is the model's, log 3; the cycles are free,
log 2; what needs a damaged structure is free, log 123). (R143; R145; R150; R23; R379; R436; 06_assembly_and_encoding.md) -/
def Obligations.StepRunsTheDecodedSlot : Prop :=
  ∀ (s : State) (k : Nat) (sl : Slot) (i : Instr) (u t : State),
    s.agenda = [] → s.turn = false → s.ctx.id.present = true → s.dev.halted (tDie s.ctx.id.tile) = false →
    s.ctx.stopped = false → s.firOrder.head? = some s.fir.id → s.fir.phase = .run →
    s.fir.blk.slots[k]? = some sl → sl.st = .wait → decode sl.word = .ok i → s.fir.blk.mayFire k sl = true →
    (∀ j y, j < k → s.fir.blk.slots[j]? = some y → s.fir.blk.mayFire j y = false) → s.mayIssue i = true →
    u = ({ s with
            who := .core
            turn := true
            rot := s.rot + 1
            dev := { s.dev with gated := false } } : State).onBlk (fun b => { b with cur := k }) →
    (s.gating = true ∨ s.dev.damage ≠ [] → u.slotted i = true) → exec i u = .next t → t.dev.gated = false →
    step s = .next (t.countIssue k).tick

/-- State.reset has no resident context, an empty memory in its form, no key, no queued event or packet, BOOTSTAT with
STATE 1, PWRCAP of 3,400 W enabled, KAPER 3,400,000, every HCCTL with LOGSZ 4 and EN 0, every link neither up nor
down, PTCTL, PTFRZ and HEVCH 0, every collar slab granted, WAVEPER 4,096 and SAGE 64; G0 is 0. Bytes that nothing has
written read 0 by the model's choice (log 1). (R6; R352; R377; R381; R422; R423; R425; R438; R441; R445; R132) -/
def Obligations.ResetState : Prop :=
  State.reset.mem.wf = true ∧ State.reset.mem.cells = [] ∧ State.reset.allCtxs = [] ∧ State.reset.fir.g0 = true
  ∧ State.reset.dev.keys = [] ∧ State.reset.dev.events = [] ∧ State.reset.dev.packets = [] ∧ State.reset.dev.launches = []
  ∧ bitsN State.reset.dev.bootstat 3 0 = 1 ∧ State.reset.dev.bootstat = 1 ∧ State.reset.dev.attcmd = 0
  ∧ bitsN State.reset.dev.pwrcap 31 16 = 3400 ∧ State.reset.dev.pwrcap.getLsbD 0 = true
  ∧ State.reset.dev.kaper.toNat = 3400000 ∧ State.reset.dev.ptctl = 0 ∧ State.reset.dev.ptsize = 0 ∧ State.reset.dev.ptpos = 0
  ∧ State.reset.dev.ptfrz = 0 ∧ State.reset.dev.hevch = 0 ∧ State.reset.dev.cecnt = 0 ∧ State.reset.dev.uecnt = 0
  ∧ (∀ c : BitVec 6, (State.reset.chan c).size = 16 ∧ (State.reset.chan c).en = false ∧ (State.reset.chan c).head = 0
      ∧ (State.reset.chan c).tail = 0)
  ∧ (∀ p, (State.reset.linkOf p).up = false ∧ (State.reset.linkOf p).down = false ∧ (State.reset.linkOf p).retry = [])
  ∧ (∀ d, State.reset.dev.diestat.getD d 0 = 0)
  ∧ (∀ x : BitVec 8, (State.reset.tileOf x).waveper = 4096 ∧ (State.reset.tileOf x).sage = 64
      ∧ (State.reset.tileOf x).ckerf = 0 ∧ (State.reset.tileOf x).module = 0 ∧ (State.reset.tileOf x).acc = [])

/-- Whenever a word decodes to an instruction and the core issues it in a state in which no memory error waits to be met,
and exec answers a next state, memory, the general registers with their poison, and F of the firing are as before:
writes and effects take place at commit or at their engine. ILL is left out: it is the word of no slot that issues, since
its block traps at dispatch. (R147; R149; R150; R233; R278; R163) -/
def Obligations.IssueChangesNoMemoryRegisterOrFlag : Prop :=
  ∀ (w : Half) (i : Instr) (s t : State), decode w = .ok i → i ≠ .ill → s.who = .core → s.dev.upsets = [] →
    exec i s = .next t →
    t.mem = s.mem ∧ t.fir.regs = s.fir.regs ∧ t.fir.gpois = s.fir.gpois ∧ t.fir.flags = s.fir.flags

/-- From every state whose memory is in canonical form (addresses strictly rising, no entry equal to what an unlisted
address reads as, poisoned words and line keys in order), every step that answers a next state leaves memory in that
form. (R3; R84; R108; R109; 04_memory_and_ordering.md) -/
def Obligations.StepKeepsTheMemoryForm : Prop :=
  ∀ s t : State, s.mem.wf = true → step s = .next t → t.mem.wf = true

/-- ADD, SUB, MUL and SHL answer the 64-bit result of a and b, or with .w the result of the low halves sign-extended; AND,
OR, XOR, ANDN and LEA answer the 64-bit result; the token is poisoned when an operand is; nothing traps. SHR fills
with zeros and SAR with the sign, by the low 6 or 5 bits of b; MIN and MAX choose by the signed reading and MINN and
MAXN by the unsigned one; the .w results are sign-extended but for SHR, MINN and MAXN. MULH answers v such that v
times 2^W plus the low W bits of the product is the exact signed product, and MULHN the same for the unsigned product;
the .w result is sign-extended for MULH and zero-extended for MULHN. (R166; R167; R168; R177) -/
def Obligations.ScalarArithmeticResults : Prop :=
  (∀ (s : State) (t0 t1 : Cons) (n : BitVec 3),
     exec (.add .w64 t0 t1) s = .next (s.sends t0 t1 (s.a + s.b) s.pAB)
     ∧ exec (.add .w32 t0 t1) s = .next (s.sends t0 t1 ((s.aw + s.bw).signExtend 64) s.pAB)
     ∧ exec (.sub .w64 t0 t1) s = .next (s.sends t0 t1 (s.a - s.b) s.pAB)
     ∧ exec (.sub .w32 t0 t1) s = .next (s.sends t0 t1 ((s.aw - s.bw).signExtend 64) s.pAB)
     ∧ exec (.mul .w64 t0 t1) s = .next (s.sends t0 t1 (s.a * s.b) s.pAB)
     ∧ exec (.mul .w32 t0 t1) s = .next (s.sends t0 t1 ((s.aw * s.bw).signExtend 64) s.pAB)
     ∧ exec (.shl .w64 t0 t1) s = .next (s.sends t0 t1 (s.a <<< (s.b.toNat % 64)) s.pAB)
     ∧ exec (.shl .w32 t0 t1) s = .next (s.sends t0 t1 ((s.aw <<< (s.b.toNat % 32)).signExtend 64) s.pAB)
     ∧ exec (.and t0 t1) s = .next (s.sends t0 t1 (s.a &&& s.b) s.pAB)
     ∧ exec (.or t0 t1) s = .next (s.sends t0 t1 (s.a ||| s.b) s.pAB)
     ∧ exec (.xor t0 t1) s = .next (s.sends t0 t1 (s.a ^^^ s.b) s.pAB)
     ∧ exec (.andn t0 t1) s = .next (s.sends t0 t1 (s.a &&& ~~~s.b) s.pAB)
     ∧ exec (.lea n t0 t1) s = .next (s.sends t0 t1 (s.a + (s.b <<< n.toNat)) s.pAB))
  ∧ (∀ (s : State) (t0 t1 : Cons),
       exec (.shr .w64 t0 t1) s = .next (s.sends t0 t1 (s.a >>> (s.b.toNat % 64)) s.pAB)
       ∧ exec (.shr .w32 t0 t1) s = .next (s.sends t0 t1 ((s.aw >>> (s.b.toNat % 32)).setWidth 64) s.pAB)
       ∧ exec (.sar .w64 t0 t1) s = .next (s.sends t0 t1 (s.a.sshiftRight (s.b.toNat % 64)) s.pAB)
       ∧ exec (.sar .w32 t0 t1) s = .next (s.sends t0 t1 ((s.aw.sshiftRight (s.b.toNat % 32)).signExtend 64) s.pAB)
       ∧ exec (.min .w64 t0 t1) s = .next (s.sends t0 t1 (if s.b.slt s.a then s.b else s.a) s.pAB)
       ∧ exec (.min .w32 t0 t1) s = .next (s.sends t0 t1 ((if s.bw.slt s.aw then s.bw else s.aw).signExtend 64) s.pAB)
       ∧ exec (.max .w64 t0 t1) s = .next (s.sends t0 t1 (if s.b.slt s.a then s.a else s.b) s.pAB)
       ∧ exec (.max .w32 t0 t1) s = .next (s.sends t0 t1 ((if s.bw.slt s.aw then s.aw else s.bw).signExtend 64) s.pAB)
       ∧ exec (.minn .w64 t0 t1) s = .next (s.sends t0 t1 (if s.b.ult s.a then s.b else s.a) s.pAB)
       ∧ exec (.minn .w32 t0 t1) s = .next (s.sends t0 t1 ((if s.bw.ult s.aw then s.bw else s.aw).setWidth 64) s.pAB)
       ∧ exec (.maxn .w64 t0 t1) s = .next (s.sends t0 t1 (if s.b.ult s.a then s.a else s.b) s.pAB)
       ∧ exec (.maxn .w32 t0 t1) s = .next (s.sends t0 t1 ((if s.bw.ult s.aw then s.aw else s.bw).setWidth 64) s.pAB))
  ∧ (∀ (s : State) (t0 t1 : Cons),
       (∃ v : Word, exec (.mulh .w64 t0 t1) s = .next (s.sends t0 t1 v s.pAB)
         ∧ s.a.toInt * s.b.toInt = v.toInt * 2 ^ 64 + (s.a * s.b).toNat)
       ∧ (∃ v : Half, exec (.mulh .w32 t0 t1) s = .next (s.sends t0 t1 (v.signExtend 64) s.pAB)
         ∧ s.aw.toInt * s.bw.toInt = v.toInt * 2 ^ 32 + (s.aw * s.bw).toNat)
       ∧ (∃ v : Word, exec (.mulhn .w64 t0 t1) s = .next (s.sends t0 t1 v s.pAB)
         ∧ s.a.toNat * s.b.toNat = v.toNat * 2 ^ 64 + (s.a * s.b).toNat)
       ∧ (∃ v : Half, exec (.mulhn .w32 t0 t1) s = .next (s.sends t0 t1 (v.setWidth 64) s.pAB)
         ∧ s.aw.toNat * s.bw.toNat = v.toNat * 2 ^ 32 + (s.aw * s.bw).toNat))

/-- The words of the four forms hold OP 7 to 10 of class S. For both widths DIV answers q and REM answers r with: q all
ones and r = a when b = 0; q = a and r = 0 when a is the least number and b is -1; else a = q b + r exactly, r is
smaller than b in magnitude and is 0 or has the sign of a. DIVN and REMN answer the floor quotient and the remainder
of the unsigned operands, zero-extended with .w; with b = 0 the quotient is all ones of the width and the remainder is
a. (R169) -/
def Obligations.DivisionNeverTraps : Prop :=
  (∀ (s : State) (t0 t1 : Cons),
     (∃ q r : Word, exec (.div .w64 t0 t1) s = .next (s.sends t0 t1 q s.pAB)
       ∧ exec (.rem .w64 t0 t1) s = .next (s.sends t0 t1 r s.pAB)
       ∧ (s.b = 0 → q = BitVec.allOnes 64 ∧ r = s.a)
       ∧ (s.a = BitVec.intMin 64 ∧ s.b = BitVec.allOnes 64 → q = s.a ∧ r = 0)
       ∧ (s.b ≠ 0 → ¬(s.a = BitVec.intMin 64 ∧ s.b = BitVec.allOnes 64) →
           s.a.toInt = q.toInt * s.b.toInt + r.toInt ∧ |r.toInt| < |s.b.toInt| ∧ 0 ≤ r.toInt * s.a.toInt))
     ∧ (∃ q r : Half, exec (.div .w32 t0 t1) s = .next (s.sends t0 t1 (q.signExtend 64) s.pAB)
       ∧ exec (.rem .w32 t0 t1) s = .next (s.sends t0 t1 (r.signExtend 64) s.pAB)
       ∧ (s.bw = 0 → q = BitVec.allOnes 32 ∧ r = s.aw)
       ∧ (s.aw = BitVec.intMin 32 ∧ s.bw = BitVec.allOnes 32 → q = s.aw ∧ r = 0)
       ∧ (s.bw ≠ 0 → ¬(s.aw = BitVec.intMin 32 ∧ s.bw = BitVec.allOnes 32) →
           s.aw.toInt = q.toInt * s.bw.toInt + r.toInt ∧ |r.toInt| < |s.bw.toInt| ∧ 0 ≤ r.toInt * s.aw.toInt)))
  ∧ (∀ (s : State) (t0 t1 : Cons),
       exec (.divn .w64 t0 t1) s = .next (s.sends t0 t1 (if s.b = 0 then BitVec.allOnes 64 else s.a / s.b) s.pAB)
       ∧ exec (.remn .w64 t0 t1) s = .next (s.sends t0 t1 (s.a % s.b) s.pAB)
       ∧ exec (.divn .w32 t0 t1) s
           = .next (s.sends t0 t1 ((if s.bw = 0 then BitVec.allOnes 32 else s.aw / s.bw).setWidth 64) s.pAB)
       ∧ exec (.remn .w32 t0 t1) s = .next (s.sends t0 t1 ((s.aw % s.bw).setWidth 64) s.pAB))
  ∧ (∀ (w : Width) (t0 t1 : Cons),
       encode (.div w t0 t1) &&& 0xFF800000 = 0x03800000 ∧ encode (.divn w t0 t1) &&& 0xFF800000 = 0x04000000
       ∧ encode (.rem w t0 t1) &&& 0xFF800000 = 0x04800000 ∧ encode (.remn w t0 t1) &&& 0xFF800000 = 0x05000000)

/-- CLZ answers v with every bit above W-1-v zero and bit W-1-v one (W for 0); POPC answers the number of one bits; SEXT
and ZEXT extend the low 8, 16 or 32 bits; ADDI adds its sign-extended immediate; MOVI, CONSTW and CONSTD answer their
constant, unpoisoned, the literals being the slots after the issuing one. (R166; R167; R170; R173; R141) -/
def Obligations.OneOperandResults : Prop :=
  ∀ (s : State) (w : Width) (t0 t1 : Cons) (imm : BitVec 14),
    (∃ n : Nat, exec (.clz w t0 t1) s = .next (s.sends t0 t1 (BitVec.ofNat 64 n) s.opA.poison)
      ∧ n ≤ (if w = .w64 then 64 else 32)
      ∧ (∀ j, (if w = .w64 then 64 else 32) ≤ j + n → j < (if w = .w64 then 64 else 32) → s.a.getLsbD j = false)
      ∧ (∀ j, j + n + 1 = (if w = .w64 then 64 else 32) → s.a.getLsbD j = true))
    ∧ exec (.popc w t0 t1) s = .next (s.sends t0 t1
        (BitVec.ofNat 64 (((List.range (if w = .w64 then 64 else 32)).filter (s.a.getLsbD ·)).length)) s.opA.poison)
    ∧ exec (.sext .b8 t0 t1) s = .next (s.sends t0 t1 ((s.a.setWidth 8).signExtend 64) s.opA.poison)
    ∧ exec (.sext .b16 t0 t1) s = .next (s.sends t0 t1 ((s.a.setWidth 16).signExtend 64) s.opA.poison)
    ∧ exec (.sext .b32 t0 t1) s = .next (s.sends t0 t1 ((s.a.setWidth 32).signExtend 64) s.opA.poison)
    ∧ exec (.zext .b8 t0 t1) s = .next (s.sends t0 t1 (s.a &&& 0xFF) s.opA.poison)
    ∧ exec (.zext .b16 t0 t1) s = .next (s.sends t0 t1 (s.a &&& 0xFFFF) s.opA.poison)
    ∧ exec (.zext .b32 t0 t1) s = .next (s.sends t0 t1 (s.a &&& 0xFFFFFFFF) s.opA.poison)
    ∧ exec (.addi imm t0) s = .next (s.emit [(t0, ⟨s.a + imm.signExtend 64, s.opA.poison⟩)])
    ∧ exec (.movi imm t0) s = .next (s.emit [(t0, ⟨imm.signExtend 64, false⟩)])
    ∧ (∀ l1 l2 : Slot, s.fir.blk.slots[s.fir.blk.cur + 1]? = some l1 → s.fir.blk.slots[s.fir.blk.cur + 2]? = some l2 →
        exec (.constw false t0 t1) s = .next (s.sends t0 t1 (l1.word.setWidth 64) false)
        ∧ exec (.constw true t0 t1) s = .next (s.sends t0 t1 (l1.word.signExtend 64) false)
        ∧ exec (.constd t0 t1) s = .next (s.sends t0 t1 (l2.word ++ l1.word) false))

/-- CEQ, CNE, CLT, CLTN, CLE and CLEN answer 1 when the relation holds between the operands, or between their low halves
with .w, and 0 otherwise; a poisoned operand poisons the result. (R166; R171; R167) -/
def Obligations.ComparisonResults : Prop :=
  ∀ (s : State) (t0 t1 : Cons),
    exec (.ceq .w64 t0 t1) s = .next (s.sends t0 t1 (if s.a = s.b then 1 else 0) s.pAB)
    ∧ exec (.ceq .w32 t0 t1) s = .next (s.sends t0 t1 (if s.aw = s.bw then 1 else 0) s.pAB)
    ∧ exec (.cne .w64 t0 t1) s = .next (s.sends t0 t1 (if s.a = s.b then 0 else 1) s.pAB)
    ∧ exec (.cne .w32 t0 t1) s = .next (s.sends t0 t1 (if s.aw = s.bw then 0 else 1) s.pAB)
    ∧ exec (.clt .w64 t0 t1) s = .next (s.sends t0 t1 (if s.a.slt s.b then 1 else 0) s.pAB)
    ∧ exec (.clt .w32 t0 t1) s = .next (s.sends t0 t1 (if s.aw.slt s.bw then 1 else 0) s.pAB)
    ∧ exec (.cltn .w64 t0 t1) s = .next (s.sends t0 t1 (if s.a.ult s.b then 1 else 0) s.pAB)
    ∧ exec (.cltn .w32 t0 t1) s = .next (s.sends t0 t1 (if s.aw.ult s.bw then 1 else 0) s.pAB)
    ∧ exec (.cle .w64 t0 t1) s = .next (s.sends t0 t1 (if s.a.sle s.b then 1 else 0) s.pAB)
    ∧ exec (.cle .w32 t0 t1) s = .next (s.sends t0 t1 (if s.aw.sle s.bw then 1 else 0) s.pAB)
    ∧ exec (.clen .w64 t0 t1) s = .next (s.sends t0 t1 (if s.a.ule s.b then 1 else 0) s.pAB)
    ∧ exec (.clen .w32 t0 t1) s = .next (s.sends t0 t1 (if s.aw.ule s.bw then 1 else 0) s.pAB)

/-- The word of SEL n is 0x1000_0000 with n in MOD; SEL n emits a when F.n of the firing is 1 and b when it is 0; F.n is
the value that READ of F.n emits in the same state; a WRITE that fires in the block, of F or of any F.k, leaves what
SEL n reads. (R172) -/
def Obligations.SelectReadsTheFlagOfTheFiring : Prop :=
  ∀ (n : BitVec 5) (t0 t1 : Cons),
    encode (.sel n t0 t1) &&& 0xFFFC0000 = 0x10000000 + BitVec.ofNat 32 (n.toNat * 2 ^ 18)
    ∧ (∀ (s : State), ∃ x : Word, exec (.read (.flag n) t0) s = .next (s.emit [(t0, ⟨x, false⟩)]) ∧ (x = 0 ∨ x = 1)
      ∧ exec (.sel n t0 t1) s = .next (s.sends t0 t1 (if x = 1 then s.a else s.b) s.pAB)
      ∧ (x = 1 ↔ s.fir.flags.getLsbD n.toNat = true))
    ∧ (∀ (s t : State) (k : BitVec 5), exec (.write .f) s = .next t ∨ exec (.write (.flag k)) s = .next t →
        t.fir.flags = s.fir.flags)

/-- READ of gN answers the register with its poison, of g0 zero, of f the 32 flags and of f.n one flag; WRITE holds a with
its poison for the register, or a[31:0] or a[0] for F, changing no register before commit; a poisoned value for F is
the poison trap of the block. FAN sends a with its poison to both consumers and NULL a null token; BR and RET fire an
exit to a when a is unpoisoned and well formed, are the poison trap when it is poisoned and the target-alignment fault
else; BRI and CALL target the header address plus 4 times their immediate, and CALL sends the address of the header
that follows the block, which the return stack of 8 entries takes; each of the four leaves its slot and target at the
place of the exit table of the tile that bits [11:2] of the header address name; RETIRE fires the exit that ends the
firing. (R147; R166; R174; R151; R148; R176; R178; R179; R180; 18_block_formation_timing.md) -/
def Obligations.RegistersExitsAndPlumbing : Prop :=
  (∀ (s : State) (t0 : Cons) (n : BitVec 6) (k : BitVec 5),
     exec (.read (.g n) t0) s = .next (s.emit [(t0,
       if n = 0 then ⟨0, false⟩ else ⟨s.fir.regs.get n.toFin, s.fir.gpois.getLsbD n.toNat⟩)])
     ∧ exec (.read .f t0) s = .next (s.emit [(t0, ⟨s.fir.flags.setWidth 64, false⟩)])
     ∧ exec (.read (.flag k) t0) s = .next (s.emit [(t0, ⟨if s.fir.flags.getLsbD k.toNat then 1 else 0, false⟩)])
     ∧ exec (.write (.g n)) s
         = .next ((s.onBlk fun b => { b with gw := b.gw ++ [(s.fir.blk.cur, n, s.opA)] }).emit [])
     ∧ (s.opA.poison = false →
         exec (.write .f) s = .next ((s.onBlk fun b => { b with fw := b.fw ++ [(s.fir.blk.cur, .all s.aw)] }).emit [])
         ∧ exec (.write (.flag k)) s
           = .next ((s.onBlk fun b => { b with fw := b.fw ++ [(s.fir.blk.cur, .bit k (s.a.getLsbD 0))] }).emit []))
     ∧ (s.opA.poison = true →
         exec (.write .f) s = .next (s.slotFault 4 0 6 0) ∧ exec (.write (.flag k)) s = .next (s.slotFault 4 0 6 0)))
  ∧ (∀ (s : State) (t0 t1 : Cons) (imm : BitVec 14),
       let fired (t : Word) : State :=
         (s.onTile fun x => { x with exitTab := setKey (bitsN s.fir.blk.addr 11 2) (s.fir.blk.cur, t) x.exitTab }).onBlk
           fun b => { b with exits := b.exits ++ [(b.cur, .to t)] }
       let follow : Word := s.fir.blk.addr + BitVec.ofNat 64 (4 * (s.fir.blk.slots.length + 1))
       exec (.fan t0 t1) s = .next (s.emit [(t0, s.opA), (t1, s.opA)])
       ∧ exec (.null t0 t1) s = .next (s.emitAt s.fir.blk.cur [(t0, none), (t1, none)])
       ∧ (∀ i ∈ [Instr.br, Instr.ret],
           (s.opA.poison = true → exec i s = .next (s.slotFault 4 0 1 0))
           ∧ (s.opA.poison = false → s.a.toNat % 4 = 0 ∧ s.a.toNat < 2 ^ 56 →
               exec i s = .next ((fired s.a).emit []))
           ∧ (s.opA.poison = false → ¬(s.a.toNat % 4 = 0 ∧ s.a.toNat < 2 ^ 56) →
               exec i s = .next (s.slotFault 3 0x0C5 s.a 0)))
       ∧ (∀ t : Word, t = s.fir.blk.addr + imm.signExtend 64 * 4 → t.toNat % 4 = 0 ∧ t.toNat < 2 ^ 56 →
           exec (.bri imm) s = .next ((fired t).emit [])
           ∧ exec (.call imm t0) s = .next (((fired t).onFir fun f => { f with rets := (follow :: f.rets).take 8 }).emit
               [(t0, ⟨follow, false⟩)]))
       ∧ (∀ t : Word, t = s.fir.blk.addr + imm.signExtend 64 * 4 → ¬(t.toNat % 4 = 0 ∧ t.toNat < 2 ^ 56) →
           exec (.bri imm) s = .next (s.slotFault 3 0x0C5 t 0) ∧ exec (.call imm t0) s = .next (s.slotFault 3 0x0C5 t 0))
       ∧ exec .retire s = .next ((s.onBlk fun b => { b with exits := b.exits ++ [(b.cur, .retire)] }).emit []))

/-- Whenever exec of a class S form but ILL answers a next state, that state differs from the one before in the block in
flight only, or, for BR, BRI, CALL and RET, in the block, the exit table of the tile and, for CALL, the return stack too;
for the forms but WRITE and the exits it differs in the slots and faults of that block only. So no register, flag,
special register, accumulator, exception register or byte of memory changes before commit. (R147; R150; R166; the
introduction of 08_instr_scalar.md; 18_block_formation_timing.md) -/
def Obligations.ScalarFrame : Prop :=
  ∀ (i : Instr) (s t : State), exec i s = .next t →
    ((i.isScalar = true → i.isBranch = false → s.SameButBlock t)
      ∧ (i.isBranch = true → s.SameButExit t ∧ ((∀ imm t0, i ≠ .call imm t0) → t.fir.rets = s.fir.rets))
      ∧ (i.isScalarPlain = true → s.SameButTokens t))

/-- When the issuing slot k of a block sends token t to position pos of another slot that waits and has no token there,
afterwards slot k is done, that slot holds t at pos (at O one more arrival), a P token with bit 0 clear turns it off,
a poisoned P token turns it off with the poison trap, and every other slot and the earlier faults stand; a token for a
position that holds one already is the double-delivery fault, which the model charges to the slot that receives it (the
model's choice, log 20). (R145; R146) -/
def Obligations.TokenDelivery : Prop :=
  ∀ (b : Block) (k : Nat) (d : Dest) (t : Token) (y : Slot), d.slot.toNat ≠ k →
    b.slots[d.slot.toNat]? = some y → y.st = .wait →
    ((y.holds d.pos = false → d.pos ≠ .p →
        b.emit k [(some d, some t)] = (b.onSlot k fun x => { x with st := .done, wait := none }).onSlot d.slot.toNat
          fun x => x.put d.pos t)
      ∧ (y.p = none → d.pos = .p → t.poison = false → t.val.getLsbD 0 = true →
        b.emit k [(some d, some t)] = (b.onSlot k fun x => { x with st := .done, wait := none }).onSlot d.slot.toNat
          fun x => { x with p := some t })
      ∧ (y.p = none → d.pos = .p → t.poison = false → t.val.getLsbD 0 = false →
        b.emit k [(some d, some t)] = (b.onSlot k fun x => { x with st := .done, wait := none }).onSlot d.slot.toNat
          fun x => { x with p := some t, st := .off })
      ∧ (y.p = none → d.pos = .p → t.poison = true →
        b.emit k [(some d, some t)] = ((b.onSlot k fun x => { x with st := .done, wait := none }).onSlot d.slot.toNat
          fun x => { x with p := some t, st := .off }).addFault ⟨d.slot.toNat, 4, 0, 2, 0⟩)
      ∧ (y.holds d.pos = true →
        b.emit k [(some d, some t)] = (b.onSlot k fun x => { x with st := .done, wait := none }).addFault
          ⟨d.slot.toNat, 3, 0x0C0, 0, 0⟩))

/-- For .i32 and .n32, VADD, VSUB, VMUL and VFMA wrap, VMIN and VMAX choose by the type's order, VABS and VNEG negate in
two's complement; VAND, VOR, VXOR, the shifts by a lane or by an immediate, VSEL by bit 0 of the old lane, VMOV and
VSPLAT give their values; a lane is poisoned when a lane it reads is; inactive lanes, the other registers, LSTAT,
PSTS, the flags and everything outside the block stand. For .i32 and .n32, VCMP answers in each active lane all ones
when the relation holds and 0 when it does not, with no flag; for .fp32, .un holds exactly when an operand is a NaN,
.eq is false and .ne true on a NaN with no flag, and .lt and .le are false on a NaN and set NV. (R185; R186; R187;
R200; R188; R76) -/
def Obligations.VectorIntegerAndCompareLanes : Prop :=
  (∀ (s : State) (vd va vb : BitVec 5) (q : BitVec 2) (n : BitVec 5),
     (∀ ty ∈ [VType.i32, VType.n32],
       s.Lanes (exec (.vadd ty vd va vb q) s) q vd
         (fun l => (s.vl q va l + s.vl q vb l, s.vp q va l || s.vp q vb l)) 0
       ∧ s.Lanes (exec (.vsub ty vd va vb q) s) q vd
         (fun l => (s.vl q va l - s.vl q vb l, s.vp q va l || s.vp q vb l)) 0
       ∧ s.Lanes (exec (.vmul ty vd va vb q) s) q vd
         (fun l => (s.vl q va l * s.vl q vb l, s.vp q va l || s.vp q vb l)) 0
       ∧ s.Lanes (exec (.vfma ty vd va vb q) s) q vd
         (fun l => (s.vl q va l * s.vl q vb l + s.vl q vd l, s.vp q va l || s.vp q vb l || s.vp q vd l)) 0)
     ∧ s.Lanes (exec (.vmin .i32 vd va vb q) s) q vd (fun l =>
         (if (s.vl q va l).slt (s.vl q vb l) then s.vl q va l else s.vl q vb l, s.vp q va l || s.vp q vb l)) 0
     ∧ s.Lanes (exec (.vmax .i32 vd va vb q) s) q vd (fun l =>
         (if (s.vl q va l).slt (s.vl q vb l) then s.vl q vb l else s.vl q va l, s.vp q va l || s.vp q vb l)) 0
     ∧ s.Lanes (exec (.vmin .n32 vd va vb q) s) q vd (fun l =>
         (if (s.vl q va l).ult (s.vl q vb l) then s.vl q va l else s.vl q vb l, s.vp q va l || s.vp q vb l)) 0
     ∧ s.Lanes (exec (.vmax .n32 vd va vb q) s) q vd (fun l =>
         (if (s.vl q va l).ult (s.vl q vb l) then s.vl q vb l else s.vl q va l, s.vp q va l || s.vp q vb l)) 0
     ∧ s.Lanes (exec (.vabs .i32 vd va q) s) q vd (fun l =>
         (if (s.vl q va l).msb then -s.vl q va l else s.vl q va l, s.vp q va l)) 0
     ∧ s.Lanes (exec (.vneg .i32 vd va q) s) q vd (fun l => (-s.vl q va l, s.vp q va l)) 0
     ∧ s.Lanes (exec (.vand vd va vb q) s) q vd
         (fun l => (s.vl q va l &&& s.vl q vb l, s.vp q va l || s.vp q vb l)) 0
     ∧ s.Lanes (exec (.vor vd va vb q) s) q vd
         (fun l => (s.vl q va l ||| s.vl q vb l, s.vp q va l || s.vp q vb l)) 0
     ∧ s.Lanes (exec (.vxor vd va vb q) s) q vd
         (fun l => (s.vl q va l ^^^ s.vl q vb l, s.vp q va l || s.vp q vb l)) 0
     ∧ s.Lanes (exec (.vshl (.reg vb) vd va q) s) q vd
         (fun l => (s.vl q va l <<< ((s.vl q vb l).toNat % 32), s.vp q va l || s.vp q vb l)) 0
     ∧ s.Lanes (exec (.vshr (.reg vb) vd va q) s) q vd
         (fun l => (s.vl q va l >>> ((s.vl q vb l).toNat % 32), s.vp q va l || s.vp q vb l)) 0
     ∧ s.Lanes (exec (.vsar (.reg vb) vd va q) s) q vd
         (fun l => ((s.vl q va l).sshiftRight ((s.vl q vb l).toNat % 32), s.vp q va l || s.vp q vb l)) 0
     ∧ s.Lanes (exec (.vshl (.imm n) vd va q) s) q vd (fun l => (s.vl q va l <<< n.toNat, s.vp q va l)) 0
     ∧ s.Lanes (exec (.vshr (.imm n) vd va q) s) q vd (fun l => (s.vl q va l >>> n.toNat, s.vp q va l)) 0
     ∧ s.Lanes (exec (.vsar (.imm n) vd va q) s) q vd
         (fun l => ((s.vl q va l).sshiftRight n.toNat, s.vp q va l)) 0
     ∧ s.Lanes (exec (.vsel vd va vb q) s) q vd (fun l =>
         (if (s.vl q vd l).getLsbD 0 then s.vl q va l else s.vl q vb l,
           s.vp q va l || s.vp q vb l || s.vp q vd l)) 0
     ∧ s.Lanes (exec (.vmov vd va q) s) q vd (fun l => (s.vl q va l, s.vp q va l)) 0
     ∧ s.Lanes (exec (.vsplat .a vd q) s) q vd (fun _ => (s.aw, s.opA.poison)) 0
     ∧ s.Lanes (exec (.vsplat (.lane va n) vd q) s) q vd (fun _ => (s.vl q va n.toNat, s.vp q va n.toNat)) 0)
  ∧ (∀ (s : State) (vd va vb : BitVec 5) (q : BitVec 2),
       (let m (f : Half → Half → Bool) := fun l =>
           (if f (s.vl q va l) (s.vl q vb l) then BitVec.allOnes 32 else 0, s.vp q va l || s.vp q vb l)
        (∀ ty ∈ [VType.i32, VType.n32], s.Lanes (exec (.vcmp ty .eq vd va vb q) s) q vd (m (· == ·)) 0
           ∧ s.Lanes (exec (.vcmp ty .ne vd va vb q) s) q vd (m (· != ·)) 0)
         ∧ s.Lanes (exec (.vcmp .i32 .lt vd va vb q) s) q vd (m BitVec.slt) 0
         ∧ s.Lanes (exec (.vcmp .i32 .le vd va vb q) s) q vd (m BitVec.sle) 0
         ∧ s.Lanes (exec (.vcmp .n32 .lt vd va vb q) s) q vd (m BitVec.ult) 0
         ∧ s.Lanes (exec (.vcmp .n32 .le vd va vb q) s) q vd (m BitVec.ule) 0)
       ∧ (∀ fl : Bool, ∀ x y : Half, relHolds fl .fp32 .un x y = (fp32Nan x || fp32Nan y, 0)
         ∧ ((fp32Nan x || fp32Nan y) = true → relHolds fl .fp32 .eq x y = (false, 0) ∧ relHolds fl .fp32 .ne x y = (true, 0)
             ∧ relHolds fl .fp32 .lt x y = (false, 0x100) ∧ relHolds fl .fp32 .le x y = (false, 0x100)))
       ∧ (∀ r : VRel, s.Lanes (exec (.vcmp .fp32 r vd va vb q) s) q vd
           (fun l => (if (relHolds s.flush .fp32 r (s.vl q va l) (s.vl q vb l)).1 then BitVec.allOnes 32 else 0,
             s.vp q va l || s.vp q vb l))
           (s.laneFlags q fun l => (relHolds s.flush .fp32 r (s.vl q va l) (s.vl q vb l)).2)))

/-- For .fp32, VADD, VSUB, VMUL, VFMA, VMIN, VMAX, VABS, VNEG, VCVT, VDQNT and the special functions answer in each active
lane the value of their operation under FPMODE.FLUSH, set at commit the flags of the active lanes, and change nothing
else but, for VCVT in mode RSR, the count of SRCTR increments of the block; the operations are those of
Machine/Float.lean. For every FLUSH, the sum, difference, product, fused product and sum, minimum and maximum with a
NaN operand are 0x7FC00000 with no flag; the sum of infinities of opposite signs and the product of zero and infinity
are 0x7FC00000 with NV; the minimum of zeros of both signs is -0 and the maximum +0. (R185; R186; R189; R191; R192;
R75; R76; R63) -/
def Obligations.VectorFloatLanesAndSpecialValues : Prop :=
  (∀ (s : State) (vd va vb : BitVec 5) (q : BitVec 2) (z : Bool), z = s.flush →
     (let two (f : Half → Half → Half × Word) (o : Out) : Prop := s.Lanes o q vd
         (fun l => ((f (s.vl q va l) (s.vl q vb l)).1, s.vp q va l || s.vp q vb l))
         (s.laneFlags q fun l => (f (s.vl q va l) (s.vl q vb l)).2)
      let one (f : Half → Half × Word) (o : Out) : Prop := s.Lanes o q vd
         (fun l => ((f (s.vl q va l)).1, s.vp q va l)) (s.laneFlags q fun l => (f (s.vl q va l)).2)
      two (fadd z) (exec (.vadd .fp32 vd va vb q) s) ∧ two (fsub z) (exec (.vsub .fp32 vd va vb q) s)
       ∧ two (fmul z) (exec (.vmul .fp32 vd va vb q) s)
       ∧ s.Lanes (exec (.vfma .fp32 vd va vb q) s) q vd
           (fun l => ((ffma z (s.vl q va l) (s.vl q vb l) (s.vl q vd l)).1, s.vp q va l || s.vp q vb l || s.vp q vd l))
           (s.laneFlags q fun l => (ffma z (s.vl q va l) (s.vl q vb l) (s.vl q vd l)).2)
       ∧ two (fun a b => (fminmax z false a b, 0)) (exec (.vmin .fp32 vd va vb q) s)
       ∧ two (fun a b => (fminmax z true a b, 0)) (exec (.vmax .fp32 vd va vb q) s)
       ∧ one (fun a => (if fp32Nan a then 0x7FC00000 else a &&& 0x7FFFFFFF, 0)) (exec (.vabs .fp32 vd va q) s)
       ∧ one (fun a => (if fp32Nan a then 0x7FC00000 else a ^^^ 0x80000000, 0)) (exec (.vneg .fp32 vd va q) s)
       ∧ one (frcp z) (exec (.vrcp vd va q) s) ∧ one (frsq z) (exec (.vrsq vd va q) s)
       ∧ one (fexp2 z) (exec (.vexp2 vd va q) s) ∧ one (flog2 z) (exec (.vlog2 vd va q) s)
       ∧ (∀ pr : CvtPair, one (convert z pr .ne) (exec (.vcvt pr .rne vd va q) s)
           ∧ one (convert z pr .tz) (exec (.vcvt pr .rtz vd va q) s)
           ∧ one (convert z pr .sat) (exec (.vcvt pr .sat vd va q) s)
           ∧ (∃ t : State, exec (.vcvt pr .rsr vd va q) s = .next t
               ∧ t.fir.blk.srinc = modV s.fir.blk.srinc q.toNat (· + 1)
               ∧ s.Lanes (.next (t.onBlk fun b => { b with srinc := s.fir.blk.srinc })) q vd
                   (fun l => ((convert z pr (.sr (srRnd (bitsN (s.seenReg .fpmode s.ctx.csr.fpmode) 63 32) q.toNat l (s.srCtr q)))
                     (s.vl q va l)).1, s.vp q va l))
                   (s.laneFlags q fun l => (convert z pr
                     (.sr (srRnd (bitsN (s.seenReg .fpmode s.ctx.csr.fpmode) 63 32) q.toNat l (s.srCtr q))) (s.vl q va l)).2)))
       ∧ (∀ f : QFmt, ∃ g : Nat → Half × Bool × Word,
           s.Lanes (exec (.vdqnt f vd va vb q) s) q vd (fun l => ((g l).1, (g l).2.1)) (s.laneFlags q fun l => (g l).2.2)
           ∧ ∀ l, l < 32 → (s.vl q vb (l / 4)).toNat < 2 ^ 20 →
               (g l).1 = (ne32 z (scaled (elVal f ((s.vl q va (l / (if f = .qsi8 ∨ f = .qse4m3 then 4 else 8))).toNat
                 / 2 ^ ((if f = .qsi8 ∨ f = .qse4m3 then 8 else 4) * (l % (if f = .qsi8 ∨ f = .qse4m3 then 4 else 8)))))
                 (scaleVal (s.vl q vb (l / 4)).toNat))).1)))
  ∧ (∀ (z : Bool) (x y w : Half),
       ((fp32Nan x || fp32Nan y) = true →
         fadd z x y = (0x7FC00000, 0) ∧ fsub z x y = (0x7FC00000, 0) ∧ fmul z x y = (0x7FC00000, 0)
         ∧ fminmax z false x y = 0x7FC00000 ∧ fminmax z true x y = 0x7FC00000)
       ∧ ((fp32Nan x || fp32Nan y || fp32Nan w) = true → (ffma z x y w).1 = 0x7FC00000)
       ∧ fadd z 0x7F800000 0xFF800000 = (0x7FC00000, 0x100) ∧ fsub z 0x7F800000 0x7F800000 = (0x7FC00000, 0x100)
       ∧ fmul z 0 0x7F800000 = (0x7FC00000, 0x100) ∧ fmul z 0xFF800000 0x80000000 = (0x7FC00000, 0x100)
       ∧ fminmax z false 0 0x80000000 = 0x80000000 ∧ fminmax z true 0x80000000 0 = 0)

/-- VPERM gives active lane l the source lane its index names, or +0 when the index has Z or the source is inactive,
poisoned when the index lane is or the source it takes is; the rotating form takes lane l + k; VBFLY.x exchanges lanes
whose numbers differ in bit k and VBFLY.iadd adds them, an inactive partner reading as +0; LSTAT marks the active
lanes that took +0 for an inactive source. VMOVS sends one lane zero- or sign-extended with its poison, PSTS, or LEN
above LSTAT; VINS writes a[31:0] with its poison to one lane, active or not, and sends 0; VLANE writes LEN from a,
from bit 0 of the lanes of a register, or all ones, and is the poison trap when the source is poisoned. (R193; R194;
R185; R184; R201; R202) -/
def Obligations.LanePermutationsAndTransfers : Prop :=
  (∀ (s : State) (vd va vb : BitVec 5) (q : BitVec 2) (k : BitVec 5) (j : BitVec 3),
     (let src (l : Nat) := (s.vl q vb l).toNat % 32
      let z (l : Nat) := (s.vl q vb l).getLsbD 5
      ∃ ls : Half, s.Vector (exec (.vperm (.index vb) vd va q) s) q vd (s.active q) (fun l =>
         if z l || !s.active q (src l) then (0, s.vp q vb l)
         else (s.vl q va (src l), s.vp q vb l || s.vp q va (src l))) ls (s.pipe q).psts 0
       ∧ ∀ l, l < 32 → ls.getLsbD l = (s.active q l && !z l && !s.active q (src l)))
     ∧ (let src (l : Nat) := (l + k.toNat) % 32
        ∃ ls : Half, s.Vector (exec (.vperm (.rot k) vd va q) s) q vd (s.active q) (fun l =>
           if s.active q (src l) then (s.vl q va (src l), s.vp q va (src l)) else (0, false)) ls (s.pipe q).psts 0
         ∧ ∀ l, l < 32 → ls.getLsbD l = (s.active q l && !s.active q (src l)))
     ∧ (j.toNat < 5 →
        let par (l : Nat) := l ^^^ 2 ^ j.toNat
        let v (l : Nat) : Half := if s.active q l then s.vl q va l else 0
        let p (l : Nat) : Bool := s.active q l && s.vp q va l
        ∃ ls : Half, (∀ l, l < 32 → ls.getLsbD l = (s.active q l && !s.active q (par l)))
         ∧ s.Vector (exec (.vbfly .x j vd va q) s) q vd (s.active q)
             (fun l => (v (par l), p (par l))) ls (s.pipe q).psts 0
         ∧ s.Vector (exec (.vbfly .iadd j vd va q) s) q vd (s.active q)
             (fun l => (v l + v (par l), p l || p (par l))) ls (s.pipe q).psts 0
         ∧ (∃ f : Nat → Half × Bool × Word, s.Vector (exec (.vbfly .fadd j vd va q) s) q vd (s.active q)
               (fun l => ((f l).1, (f l).2.1)) ls (s.pipe q).psts (s.laneFlags q fun l => (f l).2.2)
             ∧ ∀ l, f l = if l < par l
                 then ((fadd s.flush (v l) (v (par l))).1, p l || p (par l), (fadd s.flush (v l) (v (par l))).2)
                 else ((fadd s.flush (v (par l)) (v l)).1, p l || p (par l), (fadd s.flush (v (par l)) (v l)).2))
         ∧ (∃ f : Nat → Half, s.Vector (exec (.vbfly .fmax j vd va q) s) q vd (s.active q)
               (fun l => (f l, p l || p (par l))) ls (s.pipe q).psts 0
             ∧ ∀ l, f l = if l < par l then fminmax s.flush true (v l) (v (par l))
                 else fminmax s.flush true (v (par l)) (v l))))
  ∧ (∀ (s : State) (va n : BitVec 5) (q : BitVec 2) (t0 : Cons),
       exec (.vmovs (.lane false va n) q t0) s
           = .next (s.emit [(t0, ⟨(s.vl q va n.toNat).setWidth 64, s.vp q va n.toNat⟩)])
       ∧ exec (.vmovs (.lane true va n) q t0) s
           = .next (s.emit [(t0, ⟨(s.vl q va n.toNat).signExtend 64, s.vp q va n.toNat⟩)])
       ∧ exec (.vmovs .psts q t0) s = .next (s.emit [(t0, ⟨(s.pipe q).psts, false⟩)])
       ∧ exec (.vmovs .len q t0) s = .next (s.emit [(t0, ⟨(s.pipe q).len ++ (s.pipe q).lstat, false⟩)])
       ∧ (∃ p : Pipe, exec (.vins va n q t0) s = .next ((s.setPipe q p).flagFp 0 |>.emit [(t0, ⟨0, false⟩)])
           ∧ p.len = (s.pipe q).len ∧ p.lstat = (s.pipe q).lstat ∧ p.psts = (s.pipe q).psts
           ∧ (∀ v, v ≠ va → p.reg v = (s.pipe q).reg v)
           ∧ (∀ l, l < 32 → (p.reg va).at l = if l = n.toNat then (s.aw, s.opA.poison) else ((s.pipe q).reg va).at l))
       ∧ (s.opA.poison = false →
           exec (.vlane .a q) s = .next ((s.setPipe q { s.pipe q with len := s.aw }).emit []))
       ∧ (s.opA.poison = true → exec (.vlane .a q) s = .next (s.slotFault 4 0 5 0))
       ∧ exec (.vlane .all q) s = .next ((s.setPipe q { s.pipe q with len := 0xFFFFFFFF }).emit [])
       ∧ ((∃ l, l < 32 ∧ s.vp q va l = true) → exec (.vlane (.v va) q) s = .next (s.slotFault 4 0 5 0))
       ∧ ((∀ l, l < 32 → s.vp q va l = false) → ∃ x : Half,
           exec (.vlane (.v va) q) s = .next ((s.setPipe q { s.pipe q with len := x }).emit [])
           ∧ ∀ l, l < 32 → x.getLsbD l = (s.vl q va l).getLsbD 0))

/-- With an active lane, VRED.iadd writes the sum mod 2^32 of the active lanes to every active lane, poisoned when one of
them is, and leaves OK with their number in PSTS; VRED of every operation with no active lane writes no lane and
leaves EMPTY in PSTS; VSCAN.iadd gives active lane l the sum of the active lanes up to it, or below it with .x.
VSMXA.start with no active lane writes m = -infinity and s = k = nan = 0; VSMXA with an active NaN lane sets the nan
lane; VSMXN of a state whose nan lane is not 0 writes the canonical NaN to every lane with PSTS OK, and of an empty
state writes 0 with PSTS EMPTY; VSTAT.p1s counts the active lanes; VSTAT.fin of a state that has counted nothing gives
mean and variance 0 and PSTS EMPTY; each of them completes in every state. VQNT completes and writes all 32 lanes
whatever LEN holds; with .s, lane b below 8 holds the scale of block b, 0 when all four lanes read as zero and 0xFF000
when one of them is a NaN or an infinity, and the lanes from 8 are 0; with .e, the lanes from 8 on, or from 4 on for
the 4-bit formats, are 0. (R195; R196; R197; R198; R199; R82; R83; R190) -/
def Obligations.ReductionsRowsAndBlocks : Prop :=
  (∀ (s : State) (vd va : BitVec 5) (q : BitVec 2),
     (let on := (List.range 32).filter (s.active q)
      let sum (l : List Nat) : Half := (l.map (s.vl q va)).foldl (· + ·) 0
      let pois (l : List Nat) : Bool := l.any (s.vp q va)
      ((on ≠ [] → s.Vector (exec (.vred .iadd vd va q) s) q vd (s.active q) (fun _ => (sum on, pois on))
           (s.pipe q).lstat (BitVec.ofNat 64 (on.length * 65536)) 0)
       ∧ (on = [] → ∀ op, s.Vector (exec (.vred op vd va q) s) q vd (fun _ => false) (fun _ => (0, false))
           (s.pipe q).lstat 11 0)
       ∧ s.Lanes (exec (.vscan .iadd false vd va q) s) q vd
           (fun l => (sum (on.filter (· ≤ l)), pois (on.filter (· ≤ l)))) 0
       ∧ s.Lanes (exec (.vscan .iadd true vd va q) s) q vd
           (fun l => (sum (on.filter (· < l)), pois (on.filter (· < l)))) 0))
     ∧ ∀ op x, (∃ fl, s.Lanes (exec (.vscan op x vd va q) s) q vd
         (fun l => let r := (scanGo s q va op x (List.range 32) none).getD l ⟨0, false, 0⟩; (r.val, r.pois)) fl)
       ∧ ∃ f ls ps fl, s.Vector (exec (.vred op vd va q) s) q vd (s.active q) f ls ps fl)
  ∧ ((∀ (s : State) (vd va vb : BitVec 5) (q : BitVec 2),
        ((∀ l, l < 32 → s.active q l = false) →
            s.Vector (exec (.vsmxa true vd va q) s) q vd (fun _ => true) (fun l => (if l = 0 then 0xFF800000 else 0, false))
              (s.pipe q).lstat (s.pipe q).psts 0)
        ∧ (∀ x, ∃ f fl, s.Vector (exec (.vsmxa x vd va q) s) q vd (fun _ => true) f (s.pipe q).lstat (s.pipe q).psts fl
            ∧ ((∃ l, l < 32 ∧ s.active q l = true ∧ fp32Nan (s.vl q va l) = true) → (f 3).1 = 1))
        ∧ (∃ f ps fl, s.Vector (exec (.vsmxn vd va vb q) s) q vd (fun _ => true) f (s.pipe q).lstat ps fl
            ∧ (s.vl q vb 3 ≠ 0 → ps = 0 ∧ ∀ l, l < 32 → (f l).1 = 0x7FC00000)
            ∧ (s.vl q vb 3 = 0 → s.vl q vb 2 = 0 → s.vl q vb 0 = 0xFF800000 → ps = 11 ∧ ∀ l, l < 32 → (f l).1 = 0))
        ∧ (∀ ph ∈ [StatPhase.p1s, .p1, .p2], ∃ f, s.Vector (exec (.vstat ph vd va q) s) q vd (fun _ => true) f
            (s.pipe q).lstat (s.pipe q).psts 0
            ∧ (ph = .p1s → (f 2).1 = BitVec.ofNat 32 ((List.range 32).filter (s.active q)).length))
        ∧ (∃ f ps fl, s.Vector (exec (.vstat .fin vd va q) s) q vd (fun _ => true) f (s.pipe q).lstat ps fl
            ∧ (s.vl q va 2 = 0 → (s.vl q va 3).getLsbD 6 = false →
                ps = 11 ∧ (f 0).1 = 0 ∧ (f 1).1 = 0)))
     ∧ (∀ (s : State) (f : QFmt) (vd va : BitVec 5) (q : BitVec 2),
          (∃ g fl, s.Vector (exec (.vqnt f true vd va q) s) q vd (fun _ => true) g (s.pipe q).lstat (s.pipe q).psts fl
            ∧ (∀ l, 8 ≤ l → l < 32 → g l = (0, false))
            ∧ (∀ b, b < 8 → (∀ i, i < 4 → s.active q (4 * b + i) = false ∨ s.vl q va (4 * b + i) = 0) → (g b).1 = 0)
            ∧ (∀ b i, b < 8 → i < 4 → s.active q (4 * b + i) = true → bitsN (s.vl q va (4 * b + i)) 30 23 = 255 →
                (g b).1 = 0xFF000 ∧ fl.getLsbD 8 = true))
          ∧ (∃ g fl, s.Vector (exec (.vqnt f false vd va q) s) q vd (fun _ => true) g (s.pipe q).lstat (s.pipe q).psts fl
            ∧ (∀ l, (if f = .qsi8 ∨ f = .qse4m3 then 8 else 4) ≤ l → l < 32 → g l = (0, false)))))

/-- At issue, every M and C effect form with unpoisoned operands in range is done, sends nothing and is held for commit
with its operands (MSTEP with FPMODE.FLUSH too); a poisoned operand is the poison trap and a nonzero undefined bit of
B[47:0] the operand fault RANGE, for each of the forms; nothing else changes. With unpoisoned operands, CLOAD, CPATCH,
CMCAST, CHANG and SBIND need an A below 2^56 that is a multiple of 64; CLOAD a side of at most 4, SBIND and SFREE a
pipe of at most 3, CMCAST a VALUE within its MASK, CWEIGHT and CEVICT their fields, the others nothing in B[47:0]; in
range the command is done, sends nothing and is held for commit; else the fault names the operand word. (R205; R206;
R207; R208; R209; 10_instr_matrix_collar.md; R221; R222; R223; R224; R226) -/
def Obligations.EngineCommandsAreHeldAtIssue : Prop :=
  (∀ (s : State) (r : BitVec 3) (h : BitVec 5) (n : BitVec 4), s.who = .core →
     ((s.opA.poison || s.opB.poison) = true →
       ∀ i ∈ matrixForms r ++ collarForms h n, exec i s = .next (s.slotFault 4 0 7 0))
     ∧ ((s.opA.poison || s.opB.poison) = false →
       (bitsN s.b 47 0 = 0 →
         (bitsN s.a 7 7 = 0 ∧ bitsN s.a 15 15 = 0 ∧ bitsN s.a 23 23 = 0 ∧ bitsN s.a 63 31 = 0 ∧ 1 ≤ bitsN s.a 22 16
           ∧ 1 ≤ bitsN s.a 30 24 ∧ bitsN s.a 6 0 + bitsN s.a 22 16 ≤ 96 ∧ bitsN s.a 14 8 + bitsN s.a 30 24 ≤ 96 →
           exec (.mregion r) s = .next (s.heldFor (.mregion r) []))
         ∧ (bitsN s.a 63 8 = 0 ∧ bitsN s.a 3 0 ≤ 8 ∧ bitsN s.a 7 4 ≤ 8 →
           exec (.mfmt r) s = if fmtPairOk (bitsN s.a 3 0) (bitsN s.a 7 4) then .next (s.heldFor (.mfmt r) [])
             else .next (s.slotFault 6 0x031 s.a 0))
         ∧ (bitsN s.a 63 10 = 0 → exec (.mwld r) s = .next (s.heldFor (.mwld r) []))
         ∧ exec (.mswap r) s = .next (s.heldFor (.mswap r) [])
         ∧ exec (.mfree r) s = .next (s.heldFor (.mfree r) [])
         ∧ (bitsN s.a 63 32 = 0 ∧ 1 ≤ bitsN s.a 31 16 ∧ (bitsN s.a 15 15 = 0 → bitsN s.a 9 5 = 0) →
           exec (.mstep r) s = if s.groupClash r s.a then .next ((s.slotFault 5 dGROUP s.freeVal 0).drawn)
             else .next (s.heldFor (.mstep r) [if s.flush then 1 else 0]))
         ∧ (1 ≤ bitsN s.a 7 0 ∧ bitsN s.a 15 14 = 0 ∧ bitsN s.a 23 23 = 0 ∧ bitsN s.a 63 30 = 0 ∧ 1 ≤ bitsN s.a 22 16
             ∧ bitsN s.a 13 8 + bitsN s.a 22 16 ≤ 64 ∧ (bitsN s.a 24 24 = 0 → bitsN s.a 29 25 = 0) →
           exec (.macc r) s = .next (s.heldFor (.macc r) []))
         ∧ (bitsN s.a 7 0 = 0 ∧ bitsN s.a 15 14 = 0 ∧ bitsN s.a 63 23 = 0 ∧ 1 ≤ bitsN s.a 22 16
             ∧ bitsN s.a 13 8 + bitsN s.a 22 16 ≤ 64 →
           exec (.mdrain r) s = .next (s.heldFor (.mdrain r) []) ∧ exec (.mzero r) s = .next (s.heldFor (.mzero r) [])))
       ∧ (bitsN s.b 47 0 ≠ 0 → ∀ i ∈ [Instr.mswap r, .mfree r], exec i s = .next (s.slotFault 6 0x030 s.b 0))))
  ∧ (∀ (s : State) (h : BitVec 5) (n : BitVec 4), s.who = .core → (s.opA.poison || s.opB.poison) = false →
       (s.a.toNat < 2 ^ 56 ∧ s.a.toNat % 64 = 0 →
         (bitsN s.b 47 0 ≤ 4 → exec (.cload h) s = .next (s.heldFor (.cload h) []))
         ∧ (bitsN s.b 47 0 = 0 → exec (.cpatch h) s = .next (s.heldFor (.cpatch h) [])
             ∧ exec (.chang h) s = .next (s.heldFor (.chang h) []))
         ∧ (bitsN s.b 47 0 < 4 → exec (.sbind n) s = .next (s.heldFor (.sbind n) []))
         ∧ (bitsN s.b 7 6 = 0 ∧ bitsN s.b 47 14 = 0 ∧ bitsN s.b 5 0 &&& bitsN s.b 13 8 = bitsN s.b 5 0 →
             exec (.cmcast h) s = .next (s.heldFor (.cmcast h) [])))
       ∧ (¬(s.a.toNat < 2 ^ 56 ∧ s.a.toNat % 64 = 0) → ∀ i ∈ [Instr.cload h, .cpatch h, .cmcast h, .chang h, .sbind n],
           exec i s = .next (s.slotFault 6 0x030 s.a 0))
       ∧ (bitsN s.b 47 0 = 0 →
           exec (.cfire h) s = .next (s.heldFor (.cfire h) []) ∧ exec (.cfreeze h) s = .next (s.heldFor (.cfreeze h) [])
           ∧ exec (.cthaw h) s = .next (s.heldFor (.cthaw h) [])
           ∧ (s.a.toNat < 256 → exec (.cevict h) s = .next (s.heldFor (.cevict h) []))
           ∧ (bitsN s.a 9 9 = 0 ∧ bitsN s.a 63 17 = 0 → exec (.cweight h) s = .next (s.heldFor (.cweight h) [])))
       ∧ (bitsN s.b 47 0 ≠ 0 → ∀ i ∈ [Instr.cfire h, .cfreeze h, .cthaw h], exec i s = .next (s.slotFault 6 0x030 s.b 0))
       ∧ (bitsN s.b 47 0 < 8 → bitsN s.b 0 0 = 1 → h.toNat < 16 → s.a.toNat < 256 →
           exec (.cevict h) s = .next (s.heldFor (.cevict h) []))
       ∧ exec (.sfree n) s = (if bitsN s.b 47 0 < 4 then .next (s.heldFor (.sfree n) []) else .next (s.slotFault 6 0x030 s.b 0)))

/-- A command that may start changes nothing while POP is set and Q[QPOP] is empty; otherwise it starts from the state in
which Q[QPOP] has lost one token, or, without POP, from the state as it is. MSTAT answers 0 for a free region, DEF
alone for a region of another context, and for its own DEF, MINE, BUSY while an MWLD, an MSTEP or a release of it is in
progress, the format codes with 15 when unset, NPASS, WGRP with WGV, and the shape, in their places. The oldest done
collar command, and the first done matrix command that is no MSTEP or MDRAIN, leaves the done list, and leaves a record
of class, OP, MOD and TAG with REC or when it was refused, which carries its push with PUSH, or else pushes Q[QPUSH]
with PUSH; an MSTEP or MDRAIN whose own releases are not all handed over stays; with nothing done nothing changes. The command at the head of an engine's queue with
POP and an empty FIFO ends with TIMEOUT once DCEIL cycles of BUDGET have passed since it waits, and stands before
that. (R207; R209; R27; R213; R210; R117) -/
def Obligations.EngineCommandsStartAndReport : Prop :=
  ((∀ (s : State) (e : Eff) (r : BitVec 3),
      (cwPop e.cw = false → s.popBefore e = some s)
      ∧ (cwPop e.cw = true → s.ctx.sync.q.getD (cwQpop e.cw) 0 = 0 → s.popBefore e = none)
      ∧ (∀ k, cwPop e.cw = true → s.ctx.sync.q.getD (cwQpop e.cw) 0 = k + 1 →
          s.popBefore e = some (s.onSync fun y => { y with q := setV y.q (cwQpop e.cw) k }))
      ∧ (s.who = .cmd e → s.popBefore e = none → e.started = false → ∀ i ∈ matrixForms r, exec i s = .next s))
   ∧ (∀ (s : State) (r : BitVec 3) (t0 t1 : Cons),
        ∃ v : Word, exec (.mstat r t0 t1) s = .next (s.sends t0 t1 v false)
          ∧ (s.tile.regions.getD r.toNat none = none → v = 0)
          ∧ ∀ x, s.tile.regions.getD r.toNat none = some x →
            (x.owner ≠ s.ctx.id.uid → v = BitVec.ofNat 64 (2 ^ 63))
            ∧ (x.owner = s.ctx.id.uid → x.row < 128 → x.col < 128 → x.h < 128 → x.w < 128 →
              v.getLsbD 63 = true ∧ v.getLsbD 62 = true
              ∧ v.getLsbD 61 = (x.busy || x.stepping || s.ctx.releases.any fun q => q.region == r.toNat)
              ∧ bitsN v 60 57 = (x.afmt.map (·.toNat)).getD 15 ∧ bitsN v 56 53 = (x.wfmt.map (·.toNat)).getD 15
              ∧ bitsN v 52 45 = x.npass % 256 ∧ v.getLsbD 42 = x.wgrp.isSome ∧ bitsN v 44 43 = (x.wgrp.map (·.toNat)).getD 0
              ∧ bitsN v 41 31 = 0
              ∧ bitsN v 6 0 = x.row ∧ bitsN v 14 8 = x.col ∧ bitsN v 22 16 = x.h ∧ bitsN v 30 24 = x.w)))
  ∧ ((∀ (s : State) (e : Eff) (st : Word) (always : Bool) (l : List (Eff × Word × Bool)),
       (let after (c : Ctx) : Ctx :=
          let w := encode e.ins
          let from_ : Origin := match e.ins with
            | .mregion r | .mfmt r | .mwld r | .mswap r | .mstep r | .macc r | .mdrain r | .mzero r | .mfree r => { unit := 8 + r.toNat }
            | _ => {}
          if cwRec e.cw || always then c.postRec st (recInfo (fCls w) (fOp w) (fMod w).toNat (cwTag e.cw) 0)
            (if cwPush e.cw then some (BitVec.ofNat 3 (cwQpush e.cw)) else none) from_
          else if cwPush e.cw then c.postPush (cwQpush e.cw) from_ else c
        (s.ctx.cdone = (e, st, always) :: l →
           exec (.engineCommandCompletion true) s = .next (s.onCtx fun c => after { c with cdone := l }))
        ∧ (s.ctx.mdone = (e, st, always) :: l → (∀ r, e.ins ≠ .mstep r ∧ e.ins ≠ .mdrain r) →
           exec (.engineCommandCompletion false) s = .next (s.onCtx fun c => after { c with mdone := l })))
       ∧ (∀ r, e.ins = .mstep r ∨ e.ins = .mdrain r → s.ctx.mdone = [(e, st, always)] →
           (∃ q ∈ s.ctx.releases, q.region = r.toNat ∧ q.ser = e.ser) → exec (.engineCommandCompletion false) s = .next s)
       ∧ (s.ctx.cdone = [] → exec (.engineCommandCompletion true) s = .next s)
       ∧ (s.ctx.mdone = [] → exec (.engineCommandCompletion false) s = .next s))
     ∧ (∀ (s : State) (e : Eff) (t : Nat), e.since = some t → e.started = false → cwPop e.cw = true →
         s.ctx.sync.q.getD (cwQpop e.cw) 0 = 0 →
         (s.ctx.cq.head? = some e →
           exec (.commandPopTimeout true) s = .next (if s.ctx.csr.dceil.toNat + t ≤ s.ctx.csr.budget.toNat
             then s.cmdDone true e (status sTIMEOUT 0 0) else s))
         ∧ (s.ctx.mq.find? (fun x => !x.started) = some e →
           exec (.commandPopTimeout false) s = .next (if s.ctx.csr.dceil.toNat + t ≤ s.ctx.csr.budget.toNat
             then s.cmdDone false e (status sTIMEOUT 0 0) else s)))
     ∧ (∀ (s : State) (col : Bool), s.ctx.cq = [] → s.ctx.mq = [] → exec (.commandPopTimeout col) s = .next s))

/-- Applied by the engine, MREGION defines the region its A names with NPASS 1, FIRST 0, NENT 64 and banks of zeros when
the number is free and no element is shared, and is refused with REGUSED or OVERLAP else; on a region of the context
MFMT sets its formats, MACC its accumulator settings, with DEST only for a write stream of 4-byte elements and else
STREAM, MSWAP exchanges the banks, MZERO clears the entries in range, MDRAIN releases the non-clear ones, with DEST to
the output stream, which it claims, with STREAM when that no longer fits and CLAIM when another party has it, or answers
EMPTY, MFREE frees the region and its entries; on any other number they are refused with NOREGION and change nothing
else. (R209; R210; R212; R214; R216; R219; R220) -/
def Obligations.RegionCommandsApply : Prop :=
  ∀ (s u : State) (e : Eff) (r : BitVec 3), s.who = .cmd e → s.ctx.mayStart e = true → s.mBlocked e = false →
    s.popBefore e = some u →
    (let x : Region := { owner := u.ctx.id.uid, row := bitsN e.a.val 6 0, col := bitsN e.a.val 14 8
                         h := bitsN e.a.val 22 16, w := bitsN e.a.val 30 24
                         active := List.replicate (bitsN e.a.val 22 16 * bitsN e.a.val 30 24) {}
                         loading := List.replicate (bitsN e.a.val 22 16 * bitsN e.a.val 30 24) {} }
     let clash := u.tile.overlaps x
     (x.npass = 1 ∧ x.first = 0 ∧ x.nent = 64 ∧ x.dest = false ∧ x.afmt = none ∧ x.wfmt = none ∧ x.wgrp = none)
      ∧ (u.tile.regions.getD r.toNat none = none → clash = false →
        exec (.mregion r) s = .next ((u.onTile fun t => { t with regions := setV t.regions r.toNat (some x) }).cmdDone false e 0))
      ∧ (u.tile.regions.getD r.toNat none = none → clash = true →
        exec (.mregion r) s = .next (u.cmdDone false e (fault 0x035 0)))
      ∧ (u.tile.regions.getD r.toNat none ≠ none → exec (.mregion r) s = .next (u.cmdDone false e (fault 0x034 0))))
    ∧ (u.regionOf r = none → ∀ i ∈ [Instr.mfmt r, .macc r, .mswap r, .mzero r, .mdrain r, .mfree r],
        exec i s = .next (u.cmdDone false e (fault 0x033 0)))
    ∧ (∀ x, u.regionOf r = some x →
        let set (y : Region) := u.onTile fun t => { t with regions := setV t.regions r.toNat (some y) }
        let es := entriesOf u.tile x r.toNat (bitsN e.a.val 13 8) (bitsN e.a.val 22 16) (fun _ => true)
        exec (.mfmt r) s = .next ((set { x with afmt := some (BitVec.ofNat 4 (bitsN e.a.val 3 0))
                                                wfmt := some (BitVec.ofNat 4 (bitsN e.a.val 7 4)) }).cmdDone false e 0)
        ∧ (e.a.val.getLsbD 24 = false → exec (.macc r) s = .next ((set { x with
            npass := bitsN e.a.val 7 0, first := bitsN e.a.val 13 8, nent := bitsN e.a.val 22 16, dest := false
            ostr := BitVec.ofNat 5 (bitsN e.a.val 29 25) }).cmdDone false e 0))
        ∧ (e.a.val.getLsbD 24 = true → exec (.macc r) s =
            if u.ctx.streamFit (bitsN e.a.val 29 25) true 2 then .next ((set { x with
              npass := bitsN e.a.val 7 0, first := bitsN e.a.val 13 8, nent := bitsN e.a.val 22 16, dest := true
              ostr := BitVec.ofNat 5 (bitsN e.a.val 29 25) }).cmdDone false e 0)
            else .next (u.cmdDone false e (fault 0x032 0)))
        ∧ exec (.mswap r) s = .next ((set { x with active := x.loading, loading := x.active }).cmdDone false e 0)
        ∧ exec (.mzero r) s
          = .next ((u.onTile fun t => { t with acc := t.acc.filter fun a => !es.contains a }).cmdDone false e 0)
        ∧ (es = [] → exec (.mdrain r) s = .next (u.cmdDone false e 11))
        ∧ (es ≠ [] → x.dest = false → ∃ t : State, exec (.mdrain r) s = .next (t.cmdDone false e (BitVec.ofNat 64 (es.length * 65536)))
            ∧ t.tile.acc = u.tile.acc.filter (fun a => !es.contains a)
            ∧ t.ctx.releases.map (fun q => (q.node, q.entry, q.tok.val))
              = u.ctx.releases.map (fun q => (q.node, q.entry, q.tok.val)) ++ es.map fun a => (a.node, a.entry, a.val))
        ∧ (es ≠ [] → x.dest = true →
            (u.ctx.streamFit x.ostr.toNat true 2 = false → exec (.mdrain r) s = .next (u.cmdDone false e (fault 0x032 0)))
            ∧ (u.ctx.streamFit x.ostr.toNat true 2 = true → u.ctx.claimAll [x.ostr.toNat] = none →
                exec (.mdrain r) s = .next (u.cmdDone false e (fault 0x053 0)))
            ∧ (u.ctx.streamFit x.ostr.toNat true 2 = true → ∀ c, u.ctx.claimAll [x.ostr.toNat] = some c →
                ∃ t : State, exec (.mdrain r) s = .next (t.cmdDone false e (BitVec.ofNat 64 (es.length * 65536)))
                  ∧ t.tile.acc = u.tile.acc.filter (fun a => !es.contains a) ∧ t.ctx.streams = c.streams
                  ∧ t.ctx.releases.map (fun q => (q.node, q.entry, q.tok.val, q.stream))
                    = c.releases.map (fun q => (q.node, q.entry, q.tok.val, q.stream))
                      ++ es.map fun a => (a.node, a.entry, a.val, some x.ostr)))
        ∧ exec (.mfree r) s = .next ((u.onTile fun t => { t with
            regions := setV t.regions r.toNat none
            acc := t.acc.filter fun a => !(a.owner == x.owner && a.region == r.toNat) }).cmdDone false e
              (BitVec.ofNat 64 ((u.tile.acc.filter fun a => a.owner == x.owner && a.region == r.toNat).length * 65536))))

/-- Started on a region of the context with a format and a fit weight stream, MWLD claims the stream and marks the region
busy, and for a quad-scaled format the scale stream too; in progress, with j words written, it takes the next word of
WSTR into element j of the loading bank and leaves the active bank, with the scale of its block of its column when the
format is quad-scaled, which it does only after the scale words of that column have come, a scale word with a reserved
bit setting IFMT (with another format the scale becomes 0: the model's choice, log 117); after word H times W - 1 it
ends OK. For a region with AFMT
I8 a column result is the incoming partial plus the sum over its rows of the products of the two signed byte lanes of
activation and weight, mod 2^32, with no flag; joining an entry of the integer path adds it mod 2^32 and the entry
keeps its count. Started with NOFMT, STREAM, ACCBUSY and PATHMIX passed, MSTEP claims its streams and marks the region
busy; with i rows done it takes the ceil(H / 4) activation elements of row i, the scale words of the row for a
quad-scaled format and W partials with PV, each partial the incoming value of its column, else 0, and adds the column
results to entry i mod 64; it changes nothing while elements of one of its streams are to come; with M rows done it
counts the pass and ends OK with payload M. (R215; R216; R66; R78; R68; R217; R219) -/
def Obligations.WeightLoadsAndPasses : Prop :=
  (∀ (s : State) (e : Eff) (r : BitVec 3) (x : Region), s.who = .cmd e → s.regionOf r = some x →
     (e.started = false → s.ctx.mayStart e = true → s.mBlocked e = false → cwPop e.cw = false →
       x.wfmt.isSome = true → quadFmt x.wf = false → bitsN e.a.val 9 5 = 0 →
       s.ctx.streamFit (bitsN e.a.val 4 0) false 2 = true →
       ∀ c, s.ctx.claimAll [bitsN e.a.val 4 0] = some c →
         ∃ y : Region, exec (.mwld r) s = .next ((({ s with ctx := c }).setRegion r (some y)).cmdPut false e
             { e with started := true, ws := [0] })
           ∧ y.busy = true ∧ y.active = x.active ∧ y.loading = x.loading)
     ∧ (e.started = true → quadFmt x.wf = false → ∀ j : Nat, e.ws = [BitVec.ofNat 64 j] → j < 2 ^ 64 →
         (x.h * x.w ≤ j → e.ins = .mwld r → exec (.mwld r) s
             = .next ((s.setRegion r (some { x with busy := false })).cmdDone false e 0))
         ∧ (j < x.h * x.w → ∀ el, s.ctx.supply (bitsN e.a.val 4 0) 1 = .ready → s.ctx.head (bitsN e.a.val 4 0) 1 = [el] →
             exec (.mwld r) s = .next (((s.setRegion r (some { x with
                 loading := setAt x.loading j { w := el.val.setWidth 32, scale := 0, pois := el.poison } })).onCtx
                   (·.take (bitsN e.a.val 4 0) 1)).cmdPut false e { e with ws := [BitVec.ofNat 64 (j + 1)] }))
         ∧ (j < x.h * x.w → s.ctx.supply (bitsN e.a.val 4 0) 1 = .later → exec (.mwld r) s = .next s))
     ∧ (e.started = false → s.ctx.mayStart e = true → s.mBlocked e = false → cwPop e.cw = false →
         x.wfmt.isSome = true → quadFmt x.wf = true → s.ctx.streamFit (bitsN e.a.val 4 0) false 2 = true →
         s.ctx.streamFit (bitsN e.a.val 9 5) false 3 = true →
         ∀ c, s.ctx.claimAll [bitsN e.a.val 4 0, bitsN e.a.val 9 5] = some c →
           ∃ y : Region, exec (.mwld r) s = .next ((({ s with ctx := c }).setRegion r (some y)).cmdPut false e
               { e with started := true, ws := [0] })
             ∧ y.busy = true ∧ y.active = x.active ∧ y.loading = x.loading)
     ∧ (e.started = true → quadFmt x.wf = true → ∀ (j : Nat) (sc : List Word), e.ws = BitVec.ofNat 64 j :: sc → j < 2 ^ 64 →
         (x.h * x.w ≤ j → e.ins = .mwld r → exec (.mwld r) s
             = .next ((s.setRegion r (some { x with busy := false })).cmdDone false e 0))
         ∧ (j < x.h * x.w →
         let n := ((x.h * lanesOf x.wf + 3) / 4 + 2) / 3
         let word (b : Nat) : Word := sc.getD (n * (j % x.w) + b / 3) 0
         let block := j / x.w * lanesOf x.wf / 4
         (sc.length < n * (j % x.w + 1) → s.ctx.supply (bitsN e.a.val 9 5) 1 = .later → exec (.mwld r) s = .next s)
         ∧ (sc.length < n * (j % x.w + 1) → s.ctx.supply (bitsN e.a.val 9 5) 1 = .ready →
             ∀ el, s.ctx.head (bitsN e.a.val 9 5) 1 = [el] → ∃ t : State,
               t = (if bitsN el.val 63 60 = 0 then s else s.coreFlags IFMT)
               ∧ exec (.mwld r) s = .next ((t.onCtx (·.take (bitsN e.a.val 9 5) 1)).cmdPut false e { e with
                   ws := e.ws ++ [el.val.setWidth 64], wp := e.wp ++ [el.poison] }))
         ∧ (n * (j % x.w + 1) ≤ sc.length → s.ctx.supply (bitsN e.a.val 4 0) 1 = .ready →
             ∀ el, s.ctx.head (bitsN e.a.val 4 0) 1 = [el] → ∃ w : Weight,
               w.w = el.val.setWidth 32 ∧ w.pois = (el.poison || e.wp.getD (n * (j % x.w) + block / 3) false)
               ∧ w.scale = (if bitsN (word block) 63 60 = 0
                   then BitVec.ofNat 20 ((word block).toNat / 2 ^ (20 * (block % 3))) else 0xFF000)
               ∧ exec (.mwld r) s = .next (((s.setRegion r (some { x with loading := setAt x.loading j w })).onCtx
                         (·.take (bitsN e.a.val 4 0) 1)).cmdPut false e { e with ws := BitVec.ofNat 64 (j + 1) :: sc })))))
  ∧ (∀ (x : Region) (fl : Bool) (rows : List (Nat × Nat × Weight)) (p : Half),
       x.afmt = some 4 →
       (column x fl rows (p, 0) = (p + BitVec.ofInt 32 ((rows.map fun q =>
           (BitVec.ofNat 8 q.1).toInt * (BitVec.ofNat 8 q.2.2.w.toNat).toInt
           + (BitVec.ofNat 8 (q.1 / 256)).toInt * (BitVec.ofNat 8 (q.2.2.w.toNat / 256)).toInt).foldl (· + ·) 0), 0))
       ∧ ∀ (t : Tile) (r node entry : Nat) (v : Half) (a : AccEnt), t.entry node entry = some a →
         (t.addEntry x r node entry fl v false).1.entry node entry = some { a with val := a.val + v })
  ∧ (∀ (s : State) (e : Eff) (r : BitVec 3) (x : Region), s.who = .cmd e → s.regionOf r = some x →
       (e.started = false → s.ctx.mayStart e = true → s.mBlocked e = false → cwPop e.cw = false →
         x.afmt.isSome = true → s.ctx.streamFit (bitsN e.a.val 4 0) false 3 = true → s.tile.acc = [] →
         (if quadFmt x.af then s.ctx.streamFit (bitsN e.a.val 14 10) false 3 = true else bitsN e.a.val 14 10 = 0) →
         (e.a.val.getLsbD 15 = true → s.ctx.streamFit (bitsN e.a.val 9 5) false 2 = true) →
         (x.dest = true → s.ctx.streamFit x.ostr.toNat true 2 = true) →
         ∀ c, s.ctx.claimAll ([bitsN e.a.val 4 0] ++ (if e.a.val.getLsbD 15 then [bitsN e.a.val 9 5] else [])
             ++ (if quadFmt x.af then [bitsN e.a.val 14 10] else []) ++ (if x.dest then [x.ostr.toNat] else [])) = some c →
           exec (.mstep r) s = .next ((({ s with ctx := c }).setRegion r (some { x with stepping := true })).cmdPut
             false e { e with started := true, ws := [0, e.ws.getD 0 0] }))
       ∧ (e.started = true → ∀ (i : Nat) (z : Word), e.ws = [BitVec.ofNat 64 i, z] → i < 2 ^ 64 →
           let astr := bitsN e.a.val 4 0
           let pstr := bitsN e.a.val 9 5
           let sstr := bitsN e.a.val 14 10
           let na := (x.h + 3) / 4
           let ns := if quadFmt x.af then ((x.h * lanesOf x.af + 3) / 4 + 2) / 3 else 0
           let np := if e.a.val.getLsbD 15 then x.w else 0
           let given (w : Supply) : Prop := s.ctx.supply astr na = w ∨ (ns ≠ 0 ∧ s.ctx.supply sstr ns = w)
             ∨ (np ≠ 0 ∧ s.ctx.supply pstr np = w)
           (bitsN e.a.val 31 16 ≤ i → ∃ t : State, exec (.mstep r) s = .next (t.endBusy r e (status 0 0 (bitsN e.a.val 31 16)))
             ∧ t = endPass r x i e.ser s)
           ∧ (i < bitsN e.a.val 31 16 → given .ended → ∃ t : State, exec (.mstep r) s = .next (t.endBusy r e (status sFAULT 0x039 i))
             ∧ t = endPass r x i e.ser s)
           ∧ (i < bitsN e.a.val 31 16 → ¬ given .ended → given .later → exec (.mstep r) s = .next s)
           ∧ (i < bitsN e.a.val 31 16 → ¬ given .ended → ¬ given .later →
               (∀ c, c < x.w → s.entryWaits (x.col + c) (i % 64) = false) →
               ∃ (fl : Word) (t : State), exec (.mstep r) s = .next (t.cmdPut false e { e with ws := [BitVec.ofNat 64 (i + 1), z] })
                 ∧ (ns ≠ 0 → (∃ el ∈ s.ctx.head sstr ns, bitsN el.val 63 60 ≠ 0) → fl &&& IFMT = IFMT)
                 ∧ ∃ u : State, u = ((s.coreFlags fl).addRow x r.toNat i (z.getLsbD 0) ((List.range x.w).map fun c =>
                     let acts := s.ctx.head astr na
                     let scs := if ns = 0 then [] else s.ctx.head sstr ns
                     let ps := if np = 0 then [] else s.ctx.head pstr np
                     let p := ps.getD c { val := 0 }
                     let rows := (List.range x.h).map fun k =>
                       (actWord acts k, (scaleOf scs (k * lanesOf x.af / 4)).toNat, x.active.getD (k * x.w + c) {})
                     (c, (column x (z.getLsbD 0) rows (p.val.setWidth 32, 0)).1,
                       acts.any (·.poison) || scs.any (·.poison) || p.poison || rows.any (fun q => q.2.2.pois))))
                   ∧ t = u.onCtx fun c =>
                       let c := c.take astr na
                       let c := if ns = 0 then c else c.take sstr ns
                       if np = 0 then c else c.take pstr np)))

/-- At the head of the collar queue with its POP done, a command on a handle that holds nothing is refused with NOHANDLE;
on a loaded handle CFIRE fires it with FPMODE.FLUSH, or leaves it when fired; CFREEZE stops it, after a hang whose armed
monitor has reached its interval, or with the outcome of a fault it has met (the model's choice, log 119); CTHAW lets it go on,
or is refused with FAULTED when a node has faulted; CHANG sets or clears its hang monitor from HANGIV; CWEIGHT sets
LEVEL and PIN of a node it has; each other handle stands. (R209; R221; R223; R224; R311; R309) -/
def Obligations.HandleCommandsApply : Prop :=
  ∀ (s u : State) (e e' : Eff) (h : BitVec 5), s.who = .cmd e → s.cStart e = some (u, e') →
    (u.ctx.handles.getD h.toNat none = none → ∀ i ∈ [Instr.cfire h, .cpatch h, .cfreeze h, .cthaw h, .cweight h, .chang h],
      exec i s = .next (u.cmdDone true e' (fault 0x03A 0)))
    ∧ (∀ g, u.ctx.handles.getD h.toNat none = some g →
      let now := u.ctx.csr.budget.toNat
      let put (x : CollarCfg) := u.onCtx fun c => { c with handles := setV c.handles h.toNat (some x) }
      (g.fired = false → exec (.cfire h) s = .next ((put { g.accrue now with
            fired := true, flush := u.ctx.csr.fpmode.getLsbD 0 }).cmdDone true e' 0))
      ∧ (g.fired = true → exec (.cfire h) s = .next (u.cmdDone true e' 0))
      ∧ ((g.frozen = true ∨ g.fault = none) → u.hangFirst h = none →
          exec (.cfreeze h) s = .next ((put { g.accrue now with frozen := true }).cmdDone true e' 0))
      ∧ (g.frozen = false → g.fault = none → ∀ n va, g.hang = some (n, va) → g.fired = true → n ≤ (g.accrue now).idle →
          ∃ t : State, exec (.cfreeze h) s = .next (t.cmdDone true e' 0)
            ∧ t = (u.freezeCfg h.toNat 0 (fault 0x0B5 0)).raise 22 [h.setWidth 64, va])
      ∧ (g.frozen = false → ∀ ep code, g.fault = some (ep, code) → ∃ t : State,
          exec (.cfreeze h) s = .next (t.cmdDone true e' 0) ∧ t = u.freezeCfg h.toNat 1 (status sFAULT code.toNat ep.toNat))
      ∧ (g.fault = none → exec (.cthaw h) s
          = .next ((put { g.accrue now with frozen := false, hung := false }).cmdDone true e' 0))
      ∧ (g.fault ≠ none → exec (.cthaw h) s = .next (u.cmdDone true e' (fault 0x041 0)))
      ∧ exec (.chang h) s = .next ((put { g.accrue now with
          idle := 0, hang := if e'.a.val = 0 then none else some (u.ctx.csr.hangiv.toNat, e'.a.val) }).cmdDone true e' 0)
      ∧ (∀ k, g.img.nodeAt (BitVec.ofNat 9 (bitsN e'.a.val 8 0)) (BitVec.ofNat 2 (bitsN e'.a.val 11 10)) = some k →
          exec (.cweight h) s = .next ((put { g with nodes := modAt g.nodes k fun n =>
              { n with level := BitVec.ofNat 4 (bitsN e'.a.val 15 12), pin := e'.a.val.getLsbD 16 } }).cmdDone true e' 0))
      ∧ (g.img.nodeAt (BitVec.ofNat 9 (bitsN e'.a.val 8 0)) (BitVec.ofNat 2 (bitsN e'.a.val 11 10)) = none →
          exec (.cweight h) s = .next (u.cmdDone true e' (fault 0x03C 0))))
    ∧ (∀ g (m : BitVec 2), bitsN e'.a.val 7 0 = m.toNat → bitsN e'.b.val 0 0 = 0 → m = u.ctx.id.num →
        u.ctx.id.present = true →
        u.ctx.handles.getD h.toNat none = some g →
        (g.fired = true → g.frozen = false → exec (.cevict h) s = .next ((u.onCtx fun c =>
            { c with handles := setV c.handles h.toNat (some { g with evict := true }) }).cmdDone true e' 0))
        ∧ (g.fired = false → u.ctx.csr.loglim.getLsbD 63 = false →
            ∃ t : State, exec (.cevict h) s = .next (t.cmdDone true e' 0) ∧ t.ctx.handles = setV u.ctx.handles h.toNat none))

/-- CLOAD is refused with HUSED on a loaded handle, with BADIMAGE on a bad image, with CYCLE on one whose cycle has no
token and with NOSLAB when no slabs fit; with slabs allocated without a move and no bore log it puts the new
configuration into the handle and answers OK with the slab count; CPATCH applies the entries of its list when every
unit has a free slot; SBIND binds the sett with LATENCY and CYCLE passed; CMCAST without a target answers OK with
payload 0; SFREE of a free sett answers EMPTY and of a bound one frees it. (R209; R210; R221; R222; R226; R227; R306;
R308) -/
def Obligations.CollarLoadsPlaceImages : Prop :=
  ∀ (s u v : State) (e e' : Eff) (h : BitVec 5) (n : BitVec 4), s.who = .cmd e → s.cStart e = some (u, e') →
    (u.ctx.handles.getD h.toNat none ≠ none → exec (.cload h) s = .next (u.cmdDone true e' (fault 0x03B 0)))
    ∧ (e'.wp = [] → u.ctx.handles.getD h.toNat none = none →
      (readImage (u.whoEff e') false e'.a.val u = (.bad, v) → exec (.cload h) s = .next (v.cmdDone true e' (fault 0x03C 0)))
      ∧ (∀ im, readImage (u.whoEff e') false e'.a.val u = (.ok im, v) → v.ctx.handles.getD h.toNat none = none →
          (im.cyclic = true → exec (.cload h) s = .next (v.cmdDone true e' (fault 0x03D 0)))
          ∧ (im.cyclic = false → v.ctx.id.present = true → v.ctx.csr.loglim.getLsbD 63 = false →
            (∀ f r, v.allocate v.ctx im (im.sides (bitsN e'.b.val 2 0)) = .at f r [] →
              ∃ t : State, exec (.cload h) s = .next (t.cmdDone true e' (BitVec.ofNat 64 (im.nslab * 65536)))
                ∧ t.ctx.handles = setV v.ctx.handles h.toNat (some (newCfg im e'.a.val f r)))
            ∧ (v.allocate v.ctx im (im.sides (bitsN e'.b.val 2 0)) = .noslab [] →
              ∃ t : State, exec (.cload h) s = .next (t.cmdDone true e' (fault 0x03E 0)) ∧ t.ctx.handles = v.ctx.handles))))
    ∧ (e'.wp = [] → ∀ g es, u.ctx.handles.getD h.toNat none = some g →
      readDelta (u.whoEff e') g.img 0 e'.a.val u = (.ok es, v) →
      (es.all (fun y => (freeSlot v.usedSlots (y.node + BitVec.ofNat 9 (8 * g.first))).isSome) = true →
        exec (.cpatch h) s = .next ((v.onCtx fun c => { c with
            handles := modV c.handles h.toNat fun x => x.map fun g => patchAll es (g, v.usedSlots) }).cmdDone true e' 0)))
    ∧ (e'.wp = [] → ∀ im, readImage (u.whoEff e') true e'.a.val u = (.ok im, v) → im.cyclic = false →
      (im.depth ≠ some im.lat → exec (.sbind n) s = .next (v.cmdDone true e' (fault 0x040 0)))
      ∧ (im.depth = some im.lat → v.ctx.id.present = true → v.ctx.csr.loglim.getLsbD 63 = false →
          ∀ f r, v.allocate v.ctx im [bitsN e'.b.val 1 0] = .at f r [] →
            ∃ t : State, exec (.sbind n) s = .next (t.cmdDone true e' (BitVec.ofNat 64 (f * 65536)))
              ∧ t.ctx.setts = setV v.ctx.setts (16 * bitsN e'.b.val 1 0 + n.toNat)
                { bound := true, resident := true, addr := e'.a.val, img := im, first := f, rot := r }))
    ∧ (e'.wp = [] → ∀ im, u.castTargets (bitsN e'.b.val 5 0) (bitsN e'.b.val 13 8) = [] →
      readImage (u.whoEff e') false e'.a.val u = (.ok im, v) → e'.ws = [] →
        exec (.cmcast h) s = .next (v.cmdDone true e' 0))
    ∧ (∀ b, u.ctx.setts.getD (16 * bitsN e'.b.val 1 0 + n.toNat) {} = b →
      (b.bound = false → exec (.sfree n) s = .next (u.cmdDone true e' 11))
      ∧ (b.bound = true → u.ctx.id.present = true → u.ctx.csr.loglim.getLsbD 63 = false →
        ∃ t : State, exec (.sfree n) s = .next (t.cmdDone true e' 0)
          ∧ t.ctx.setts = setV u.ctx.setts (16 * bitsN e'.b.val 1 0 + n.toNat) {}))

/-- CSTAT answers 0 for a free handle, else LOADED with FIRED, FROZEN, FAULT, the hang monitor, side, first slab and slab
count in their places; SQUERY answers the binding's image address, or its state, and 0 when free; SETT of a binding
that is not resident is the sett-miss trap counted by PERF 6, one whose parameter does not match A the sett-operand
trap, and else the sett's graph is evaluated on all 32 lanes, whose flags are set, and every active lane takes its
output, the sources and the parameter read at issue. (R202; R203; R76; R225; R227) -/
def Obligations.CollarStatusAndSettCall : Prop :=
  ∀ (s : State) (h : BitVec 5) (n : BitVec 4) (vd va vb : BitVec 5) (q : BitVec 2) (t0 t1 : Cons),
    (∃ v : Word, exec (.cstat h t0 t1) s = .next (s.sends t0 t1 v false)
      ∧ (s.ctx.handles.getD h.toNat none = none → v = 0)
      ∧ ∀ g, s.ctx.handles.getD h.toNat none = some g →
          v.getLsbD 63 = true ∧ v.getLsbD 62 = g.fired ∧ v.getLsbD 61 = g.frozen ∧ v.getLsbD 60 = g.fault.isSome
          ∧ v.getLsbD 59 = g.hang.isSome ∧ bitsN v 58 57 = g.side.toNat ∧ bitsN v 56 51 = g.first % 64
          ∧ bitsN v 50 47 = g.img.nslab % 16 ∧ bitsN v 46 0 = 0)
    ∧ (∀ x, s.opB.poison = true → exec (.squery x n t0 t1) s = .next (s.slotFault 4 0 7 0))
    ∧ (∀ x, s.opB.poison = false → 4 ≤ s.b.toNat → exec (.squery x n t0 t1) s = .next (s.slotFault 6 0x030 s.b 0))
    ∧ (s.opB.poison = false → s.b.toNat < 4 → ∀ b, s.ctx.setts.getD (16 * s.b.toNat + n.toNat) {} = b →
        (b.bound = false → exec (.squery true n t0 t1) s = .next (s.sends t0 t1 0 false)
          ∧ exec (.squery false n t0 t1) s = .next (s.sends t0 t1 0 false))
        ∧ (b.bound = true → exec (.squery true n t0 t1) s = .next (s.sends t0 t1 b.addr false)
          ∧ ∃ v : Word, exec (.squery false n t0 t1) s = .next (s.sends t0 t1 v false)
            ∧ v.getLsbD 63 = true ∧ v.getLsbD 62 = b.resident ∧ bitsN v 61 60 = b.img.nsrc % 4
            ∧ v.getLsbD 59 = b.img.param ∧ bitsN v 58 52 = b.img.lat % 128 ∧ bitsN v 50 45 = b.first % 64))
    ∧ (∀ b, s.ctx.setts.getD (16 * q.toNat + n.toNat) {} = b →
        ((b.bound && b.resident) = false → ∃ t : State, exec (.sett n vd va vb q) s = .next (t.slotFault 10 0
            (BitVec.ofNat 64 (q.toNat * 16 + n.toNat)) (if b.bound then b.addr else 0))
            ∧ t = s.onCsr fun c => { c with perf := modV c.perf 6 (· + 1) })
        ∧ ((b.bound && b.resident) = true → b.img.param ≠ s.cur.expA →
            exec (.sett n vd va vb q) s = .next (s.slotFault 9 0 (BitVec.ofNat 64 (q.toNat * 16 + n.toNat)) 0))
        ∧ ((b.bound && b.resident) = true → b.img.param = s.cur.expA →
            let r (l : Nat) := settLane b.img s.flush
              (([va, vb, vd].take b.img.nsrc).map fun v => { val := s.vl q v l, pois := s.vp q v l })
              { val := s.aw, pois := s.opA.poison }
            s.Lanes (exec (.sett n vd va vb q) s) q vd (fun l => ((r l).val, (r l).pois))
              ((List.range 32).foldl (fun w l => w ||| (r l).fl) 0)))

/-- With an unpoisoned address, no update of the word waiting and no memory error pending, LD answers the little-endian
number that the bytes of its place hold as earlier stores leave them, zero- or sign-extended, with the poison of its
word, and Status(OK) or Status(POISON); the state differs by the tokens and, for the global space, by the translation
held and the note that a slot table had no slot. A fault of the place is the access fault of the slot, a poisoned address the poison trap. A window place is at
the window key of an aligned offset inside the window. (R85; R86; R229; R232; R235; R109; R90) -/
def Obligations.LoadReadsItsPlace : Prop :=
  ∀ (s : State) (vs : VSpace) (sx : Bool) (sz : Size) (t0 t1 : Cons),
    (s.opA.poison = true → exec (.ld vs.space sx sz t0 t1) s = .next (s.slotFault 4 0 0 0))
    ∧ (s.opA.poison = false →
        (∀ k u, s.place vs .rd s.a (accSize sz) = (.ok (.mem k), u) → s.updateWaits k = false → s.dev.upsets = [] →
          ∃ (v : Nat) (x : Word), u.seen.Holds (u.kvOf u.who4 k) k (accSize sz) v
            ∧ (sx = false → x.toNat = v) ∧ (sx = true → x.toInt = Int.bmod v (256 ^ accSize sz))
            ∧ exec (.ld vs.space sx sz t0 t1) s = .next (u.emit [(t0, ⟨x, u.seen.poisoned k⟩),
                (t1, ⟨if u.seen.poisoned k then 8 else 0, false⟩)]))
        ∧ (∀ d w u, s.place vs .rd s.a (accSize sz) = (.error (.fault d w), u) →
            exec (.ld vs.space sx sz t0 t1) s = .next (u.slotFault 5 d w 0)))
    ∧ (∀ k u, s.dev.upsets = [] → s.place .global .rd s.a (accSize sz) = (.ok (.mem k), u) →
        u = s.onDev fun d => { d with tlb := u.dev.tlb, gated := u.dev.gated })
    ∧ s.place .window .rd s.a (accSize sz) = (
        if s.a.toNat % accSize sz ≠ 0 then .error (.fault dALIGN s.a)
        else if s.ctx.winSize ≤ s.a.toNat then .error (.fault dWINDOW s.a)
        else .ok (.mem (s.ctx.winKey s.a.toNat)), s)

/-- At issue ST with an unpoisoned address whose place is memory answers OK and is held with that place, unless its 1, 2
or 4 bytes lie in a poisoned word, when it answers Status(POISON); the host space is held for a channel given to the
context; a fault of the place is the access fault with access code 1. Applied, ST stores the low bytes of b at the
place it was held with: every other byte reads as before under its key, and every byte of another line under any key;
a part of a poisoned word is not stored; the word is poisoned by a poisoned b, and a whole word takes the poison of b;
nothing but memory and the queues that held the store differs. Applied to a host channel it hands the token over
with its poison. At issue a tenant context's ST to a place of the control page that only a supervisor may write is the
privileged-use trap.
(R229; R231; R233; R109; R108; R374; R3; R5) -/
def Obligations.StoreIsHeldThenStoresItsBytes : Prop :=
  ∀ (s : State) (sp : Space) (vs : VSpace) (sz : Size) (t0 t1 : Cons),
    (s.who = .core → s.opA.poison = true → exec (.st sp sz t0 t1) s = .next (s.slotFault 4 0 0 0))
    ∧ (s.who = .core → s.opA.poison = false →
        (∀ k u, s.place vs .wr s.a (accSize sz) = (.ok (.mem k), u) →
          ((accSize sz = 8 ∨ u.seen.poisoned k = false) →
            exec (.st vs.space sz t0 t1) s = .next ((u.hold { slot := 0, ins := .st vs.space sz t0 t1, a := u.opA, b := u.opB
                                                              locs := [.mem k], keyslot := u.keySeen }).emit
              [(t0, ⟨0, false⟩), (t1, ⟨0, false⟩)]))
          ∧ (accSize sz < 8 → u.seen.poisoned k = true →
            ∃ w : State, w.mem = u.mem ∧ w.fir = u.fir ∧ exec (.st vs.space sz t0 t1) s
              = .next ((w.hold { slot := 0, ins := .st vs.space sz t0 t1, a := u.opA, b := u.opB }).emit
                  [(t0, ⟨8, false⟩), (t1, ⟨8, false⟩)])))
        ∧ (∀ d w u, s.place vs .wr s.a (accSize sz) = (.error (.fault d w), u) →
            exec (.st vs.space sz t0 t1) s = .next (u.slotFault 5 d w 1))
        ∧ (∀ p o u, s.place vs .wr s.a (accSize sz) = (.ok (.ctl p o), u) → s.ctx.id.sup = false → ctlWs p o = true →
            exec (.st vs.space sz t0 t1) s = .next (u.slotFault 2 0x00E (u.cur.word.setWidth 64) 0))
        ∧ (s.a.toNat < 64 → s.hostGiven (s.a.setWidth 6) 2 = true →
            exec (.st .host sz t0 t1) s = .next ((s.hold { slot := 0, ins := .st .host sz t0 t1, a := s.opA, b := s.opB
                                                           locs := [.host (s.a.setWidth 6)] }).emit
              [(t0, ⟨0, false⟩), (t1, ⟨0, false⟩)]))
        ∧ (64 ≤ s.a.toNat → exec (.st .host sz t0 t1) s = .next (s.slotFault 6 0x030 s.a 0)))
    ∧ (∀ e k, s.who = .cmd e → e.ins = .st vs.space sz t0 t1 → e.locs = [.mem k] → k % accSize sz = 0 → s.mem.wf = true →
        (accSize sz < 8 → s.mem.poisoned k = true →
          ∃ t, exec (.st vs.space sz t0 t1) s = .next t ∧ t.mem = s.mem ∧ t.fir = s.fir)
        ∧ ((accSize sz = 8 ∨ s.mem.poisoned k = false) →
          ∃ t, exec (.st vs.space sz t0 t1) s = .next t
            ∧ s.mem.Stored t.mem (s.dev.keyAt e.keyslot.toNat k) k (accSize sz) e.b.val.toNat
            ∧ (∀ x, t.mem.poisoned x = if x / 8 = k / 8 then e.b.poison else s.mem.poisoned x)
            ∧ t = { s with mem := t.mem, ctx := { s.ctx with lq := s.ctx.lq.erase e, dq := s.ctx.dq.erase e } }))
    ∧ (∀ e c, s.who = .cmd e → e.ins = .st .host sz t0 t1 → e.locs = [.host c] →
        exec (.st .host sz t0 t1) s = .next ((s.unqueue e).putOut c
          { val := e.b.val, pois := e.b.poison, ctrl := 0, ctx := s.ctx.id.uid, deps := [s.ctx.id.uid], job := s.tokJob }))

/-- In a window that holds all its lanes LDV with an aligned address gives each active lane l the number of the 4 bytes at
offset A + 4 l with the poison of their word and leaves the others, and its status says whether a lane is poisoned; an
address that is not a multiple of 4 is the ALIGN fault, or the ADDR fault when it is no global address, and a poisoned
one the poison trap. STV is held with the places
of its active lanes whose words are not poisoned and their values; applied to one place it stores the four bytes and
no other byte reads otherwise; applied to any number of places under one key whose words hold no poison it stores the
four bytes of each value at its place and no other byte reads otherwise; applied to none it stores nothing. TLOOK of an unpoisoned address below 2^56 answers
the slot of the way that holds its tag and makes it the newest, or else bit 15 with a suggested slot of its set and
bit 14 when that way is valid; other addresses are the ADDR fault. TSET and TCLR are held with operands in range. TSET
applied makes TLOOK of its address hit its slot; TCLR applied to the slot that TLOOK of an address hits makes TLOOK of
that address miss when no other way of the set holds its tag; the other sets stand. (R234; R233; R109; R184; R87; R91;
R92; R93; R246) -/
def Obligations.VectorAccessesAndTagTable : Prop :=
  (∀ (s : State) (vs : VSpace) (va : BitVec 5) (q : BitVec 2) (t0 : Cons),
     (s.opA.poison = true → exec (.ldv vs va q t0) s = .next (s.slotFault 4 0 0 0))
     ∧ (s.opA.poison = false → s.a.toNat % 4 ≠ 0 → exec (.ldv vs va q t0) s
         = .next (s.slotFault 5 (if vs = .global ∧ bitsN s.a 63 56 ≠ 0 then dADDR else dALIGN) s.a 0))
     ∧ (s.opA.poison = false → s.a.toNat % 4 = 0 → s.a.toNat + 128 ≤ s.ctx.winSize → s.dev.upsets = [] →
         (∀ l, l < 32 → s.active q l = true → s.updateWaits (s.ctx.winKey (s.a.toNat + 4 * l)) = false) →
         ∃ p : Pipe, exec (.ldv .window va q t0) s = .next ((s.setPipe q p).emit [(t0,
             ⟨if (List.range 32).any (fun l => s.active q l && s.seen.poisoned (s.ctx.winKey (s.a.toNat + 4 * l))) then 8 else 0,
               false⟩)])
           ∧ p.len = (s.pipe q).len ∧ p.lstat = (s.pipe q).lstat ∧ p.psts = (s.pipe q).psts
           ∧ (∀ v, v ≠ va → p.reg v = (s.pipe q).reg v)
           ∧ ∀ l, l < 32 →
               if s.active q l then
                 s.seen.Holds (s.kvOf s.who4 (s.ctx.winKey (s.a.toNat + 4 * l))) (s.ctx.winKey (s.a.toNat + 4 * l)) 4 ((p.reg va).lane l).toNat
                   ∧ (p.reg va).pois1 l = s.seen.poisoned (s.ctx.winKey (s.a.toNat + 4 * l))
               else (p.reg va).at l = ((s.pipe q).reg va).at l)
     ∧ (s.who = .core → s.opA.poison = true → exec (.stv vs va q t0) s = .next (s.slotFault 4 0 0 0))
     ∧ (s.who = .core → s.opA.poison = false → s.a.toNat % 4 ≠ 0 →
         exec (.stv vs va q t0) s
           = .next (s.slotFault 5 (if vs = .global ∧ bitsN s.a 63 56 ≠ 0 then dADDR else dALIGN) s.a 1))
     ∧ (s.who = .core → s.opA.poison = false → s.a.toNat % 4 = 0 → s.a.toNat + 128 ≤ s.ctx.winSize →
         (∀ l, l < 32 → s.active q l = true → s.seen.poisoned (s.ctx.winKey (s.a.toNat + 4 * l)) = false) →
         exec (.stv .window va q t0) s = .next ((s.hold { slot := 0, ins := .stv .window va q t0, a := s.opA
                                                          locs := (s.activeLanes q).map fun l => .mem (s.ctx.winKey (s.a.toNat + 4 * l))
                                                          ws := (s.activeLanes q).map fun l => (s.vl q va l).setWidth 64
                                                          wp := (s.activeLanes q).map fun l => s.vp q va l
                                                          keyslot := s.keySeen }).emit [(t0, ⟨0, false⟩)]))
     ∧ (∀ e, s.who = .cmd e → e.ins = .stv vs va q t0 →
         (e.locs = [] → exec (.stv vs va q t0) s = .next (s.unqueue e))
         ∧ (∀ k w p, e.locs = [.mem k] → e.ws = [w] → e.wp = [p] → k % 4 = 0 → s.mem.poisoned k = false →
             s.mem.wf = true →
             ∃ t, exec (.stv vs va q t0) s = .next t
               ∧ s.mem.Stored t.mem (s.dev.keyAt e.keyslot.toNat k) k 4 w.toNat
               ∧ t = { s with mem := t.mem, ctx := { s.ctx with lq := s.ctx.lq.erase e, dq := s.ctx.dq.erase e } })
         ∧ (∀ (ks : List Nat) (kv : Option (BitVec 512)), e.locs = ks.map .mem → e.ws.length = ks.length →
             e.wp = ks.map (fun _ => false) → ks.Nodup →
             (∀ k ∈ ks, k % 4 = 0 ∧ s.mem.poisoned k = false ∧ s.dev.keyAt e.keyslot.toNat k = kv) → s.mem.wf = true →
             ∃ t, exec (.stv vs va q t0) s = .next t
               ∧ (∀ (i k : Nat) (w : Word), ks[i]? = some k → e.ws[i]? = some w → t.mem.Holds kv k 4 (w.toNat % 2 ^ 32))
               ∧ (∀ x, (∀ k ∈ ks, x < k ∨ k + 4 ≤ x) → t.mem.view kv x = s.mem.view kv x)
               ∧ (∀ x kx, (∀ k ∈ ks, x / 16 ≠ k / 16) → t.mem.view kx x = s.mem.view kx x)
               ∧ t = { s with mem := t.mem, ctx := { s.ctx with lq := s.ctx.lq.erase e, dq := s.ctx.dq.erase e } })))
  ∧ (∀ (s : State) (t0 t1 : Cons),
       (s.opA.poison = true → exec (.tlook t0 t1) s = .next (s.slotFault 4 0 0 0) ∧
         (s.who = .core → exec .tset s = .next (s.slotFault 4 0 0 0) ∧ exec .tclr s = .next (s.slotFault 4 0 7 0)))
       ∧ (s.opA.poison = false → 2 ^ 56 ≤ s.a.toNat → exec (.tlook t0 t1) s = .next (s.slotFault 5 dADDR s.a 0))
       ∧ (s.opA.poison = false → s.a.toNat < 2 ^ 56 →
           (∀ w, hitWay (s.ctx.tagSet (bitsN s.a 17 8)) (tagOf s.a) = some w →
             exec (.tlook t0 t1) s = .next ((s.onCtx fun c => c.putTags (bitsN s.a 17 8)
               (newest (c.tagSet (bitsN s.a 17 8)) w)).sends t0 t1 (BitVec.ofNat 64 (4 * bitsN s.a 17 8 + w)) false))
           ∧ (hitWay (s.ctx.tagSet (bitsN s.a 17 8)) (tagOf s.a) = none →
             ∃ v : Word, exec (.tlook t0 t1) s = .next (s.sends t0 t1 v false) ∧ v.getLsbD 15 = true))
       ∧ (s.who = .core → s.opA.poison = false → s.opB.poison = false →
           (s.a.toNat < 2 ^ 56 → s.b.toNat < 4096 → bitsN s.b 11 2 = bitsN s.a 17 8 → exec .tset s = .next (s.heldFor .tset []))
           ∧ (s.a.toNat < 2 ^ 56 → (4096 ≤ s.b.toNat ∨ bitsN s.b 11 2 ≠ bitsN s.a 17 8) →
               exec .tset s = .next (s.slotFault 6 0x030 s.b 0)))
       ∧ (s.who = .core → s.opA.poison = false →
           (s.a.toNat < 4096 → exec .tclr s = .next ((s.hold { slot := 0, ins := .tclr, a := s.opA }).emit []))
           ∧ (4096 ≤ s.a.toNat → exec .tclr s = .next (s.slotFault 6 0x030 s.a 0)))
       ∧ (∀ e, s.who = .cmd e → (∀ set, (s.ctx.tagSet set).length = 4) →
           (bitsN e.b.val 11 2 = bitsN e.a.val 17 8 → e.b.val.toNat < 4096 →
             ∃ t, exec .tset s = .next t
               ∧ t = { s with ctx := { s.ctx with lq := s.ctx.lq.erase e, dq := s.ctx.dq.erase e, tags := t.ctx.tags } }
               ∧ hitWay (t.ctx.tagSet (bitsN e.a.val 17 8)) (tagOf e.a.val) = some (bitsN e.b.val 1 0)
               ∧ ∀ set, set ≠ bitsN e.a.val 17 8 → t.ctx.tagSet set = s.ctx.tagSet set)
           ∧ (e.a.val.toNat < 4096 → ∃ t, exec .tclr s = .next t
               ∧ t = { s with ctx := { s.ctx with lq := s.ctx.lq.erase e, dq := s.ctx.dq.erase e, tags := t.ctx.tags } }
               ∧ (∀ tag, hitWay (s.ctx.tagSet (bitsN e.a.val 11 2)) tag = some (bitsN e.a.val 1 0) →
                   (∀ i w, (s.ctx.tagSet (bitsN e.a.val 11 2))[i]? = some w → i ≠ bitsN e.a.val 1 0 → w.valid && w.tag == tag = false) →
                   hitWay (t.ctx.tagSet (bitsN e.a.val 11 2)) tag = none)
               ∧ ∀ set, set ≠ bitsN e.a.val 11 2 → t.ctx.tagSet set = s.ctx.tagSet set)))

/-- AGEN needs a 64-byte aligned descriptor inside the window, LDW a P from 1 to 8 (4 with n = 4) and bits 6 to 63 zero,
PXFORM a KIND below 4 that is not ZRUN for a write and bits 19 to 63 zero, PMERGE an A below 8, RINGDEF bits 41 to 63
zero and, when it defines, 4 to 16,384 lines of a 64-byte aligned base inside the window, RESUME a port that exists,
ABAR an A below 2^32; in range the command is done, sends nothing and is held; out of range it is the RANGE fault with
A, and a poisoned A the poison trap. ASTART, ASTOP and STS are always held; STS answers OK. (R239; R240; R243; R244;
R245; R252; R253; R254; R256; R235; R97) -/
def Obligations.LoadCommandIsHeldAtIssue : Prop :=
  ∀ (s : State) (n : BitVec 5) (p : BitVec 4) (t0 t1 : Cons), s.who = .core →
    (s.opA.poison = true → ∀ i ∈ [Instr.agen n, .ldw n, .pxform p, .pmerge p, .ringdef p, .resume, .abar],
      exec i s = .next (s.slotFault 4 0 7 0))
    ∧ (s.opA.poison = false →
      exec (.agen n) s = (if s.a.toNat % 64 = 0 ∧ s.a.toNat + 64 ≤ s.ctx.winSize then .next (s.heldFor (.agen n) [])
        else .next (s.slotFault 6 0x030 s.a 0))
      ∧ exec (.ldw n) s = (if s.a.toNat < 64 ∧ 1 ≤ s.a.toNat % 16 ∧ s.a.toNat % 16 ≤ (if 32 ≤ s.a.toNat then 4 else 8) then
          .next (s.heldFor (.ldw n) []) else .next (s.slotFault 6 0x030 s.a 0))
      ∧ exec (.pxform p) s = (if s.a.toNat < 2 ^ 19 ∧ s.a.toNat / 2 % 8 < 4 ∧ ¬(s.a.toNat / 2 % 8 = 3 ∧ s.a.toNat % 2 = 0) then
          .next (s.heldFor (.pxform p) []) else .next (s.slotFault 6 0x030 s.a 0))
      ∧ exec (.pmerge p) s = (if s.a.toNat < 8 then .next (s.heldFor (.pmerge p) []) else .next (s.slotFault 6 0x030 s.a 0))
      ∧ exec (.ringdef p) s = (if s.a.toNat < 2 ^ 41 ∧ (s.a.getLsbD 40 = true → bitsN s.a 5 0 = 0 ∧ 4 ≤ bitsN s.a 38 24
            ∧ bitsN s.a 38 24 ≤ 16384 ∧ bitsN s.a 23 0 + 64 * bitsN s.a 38 24 ≤ s.ctx.winSize) then
          .next (s.heldFor (.ringdef p) []) else .next (s.slotFault 6 0x030 s.a 0))
      ∧ exec .abar s = (if s.a.toNat < 2 ^ 32 then .next (s.heldFor .abar []) else .next (s.slotFault 6 0x030 s.a 0))
      ∧ exec .resume s = (if s.a.toNat < 2 ^ 17 ∧ bitsN s.a 16 15 ≤ 1 ∧ bitsN s.a 14 10 <
            (if bitsN s.a 9 8 = 0 then 32 else if bitsN s.a 9 8 = 1 then 8 else if bitsN s.a 9 8 = 2 then 1 else 2) then
          .next (s.heldFor .resume []) else .next (s.slotFault 6 0x030 s.a 0)))
    ∧ exec (.astart n) s = .next (s.heldFor (.astart n) [])
    ∧ exec (.astop n) s = .next (s.heldFor (.astop n) [])
    ∧ exec (.sts n t0 t1) s = .next ((s.hold { slot := 0, ins := .sts n none none, a := s.opA }).emit
        [(t0, ⟨0, false⟩), (t1, ⟨0, false⟩)])

/-- Applied with the descriptor that it has read, AGEN is refused with STATE 0x051 on a stream that runs and with BADDESC
0x050 on a bad descriptor, and else makes the stream IDLE with the descriptor; one that has not read it waits while an
update before it is still to be applied to it; ASTART is refused with 0x052 on an undefined stream and starts an IDLE one
without ISTR at element 0; ASTOP makes a running stream IDLE and changes no other; ABAR changes nothing; LDW is refused with 0x051 unless
IDLE and turns an IDLE FP read stream of one dimension into a bed; STS supplies one element of the stream's size to a
running write stream of the core, and is refused with 0x051 on others. LDG answers the next element with Status(OK)
and its number, EMPTY at the end of the stream, or 0x052 on an undefined or write stream. (R236; R239; R240; R241;
R242; R243; R244; R245; R97) -/
def Obligations.StreamCommandsApply : Prop :=
  ∀ (s : State) (e : Eff) (n : BitVec 5) (t0 t1 : Cons),
    let t := s.ctx.streams.getD n.toNat {}
    let put (f : Stream → Stream) : State := s.onCtx fun c => { c with
      lq := c.lq.erase e, streams := modV c.streams n.toNat f }
    let refused (x : Nat) : State := (s.popLq e).refuseCmd e.ins x
    (s.who = .cmd e →
      (e.ws ≠ [] → t.st.live = true → exec (.agen n) s = .next (refused 0x051))
      ∧ (e.ws = [] → s.readWaits e (s.ctx.descKeys e) = true → exec (.agen n) s = .next s)
      ∧ (e.ws ≠ [] → t.st.live = false → (e.wp.any (· == true) = true ∨ Stream.fieldsOk { st := .idle, desc := e.ws, seq := t.seq } = false) →
          exec (.agen n) s = .next (refused 0x050))
      ∧ (e.ws ≠ [] → t.st.live = false → e.wp.any (· == true) = false → Stream.fieldsOk { st := .idle, desc := e.ws, seq := t.seq } = true →
          Stream.mode { desc := e.ws } ≠ 2 →
          exec (.agen n) s = .next (put fun _ => { st := .idle, desc := e.ws, seq := t.seq }))
      ∧ (t.st = .undef → exec (.astart n) s = .next (refused 0x052))
      ∧ (t.st = .idle → t.mode ≠ 2 → exec (.astart n) s = .next (put fun t => { t with
          st := .run, k := 0, buf := [], used := 0, claim := none, hold := none, pat := [], idx := [], space := e.space
          eng := [], engN := 0, engOn := true }))
      ∧ (t.st.live = true → exec (.astart n) s = .next (s.popLq e))
      ∧ (t.st.live = false → exec (.astop n) s = .next (s.popLq e))
      ∧ (t.st.live = true → ∃ u, exec (.astop n) s = .next u ∧ (u.ctx.streams.getD n.toNat {}).st = .idle
          ∧ (u.ctx.streams.getD n.toNat {}).desc = t.desc ∧ (u.ctx.streams.getD n.toNat {}).buf = []
          ∧ u.mem = s.mem ∧ u.fir = s.fir)
      ∧ exec .abar s = .next (s.popLq e)
      ∧ (t.st ≠ .idle → exec (.ldw n) s = .next (refused 0x051))
      ∧ (t.st = .idle → streamWrite t = false → t.mode = 0 → streamEsz t = 2 → t.n 1 = 1 → t.n 2 = 1 → t.n 3 = 1 →
          exec (.ldw n) s = .next (put fun t => { t with
            bed := some (bitsN e.a.val 3 0, e.a.val.getLsbD 4, e.a.val.getLsbD 5) }))
      ∧ (t.st.live = false ∨ streamWrite t = false ∨ streamCount t ≤ t.used →
          exec (.sts n t0 t1) s = .next (refused 0x051))
      ∧ (t.st.live = true → streamWrite t = true → t.used < streamCount t → streamEsz t ≠ 4 →
          (t.claim = some .core ∨ t.claim = none) →
          exec (.sts n t0 t1) s = .next (put fun t => { t with
            claim := some .core, used := t.used + 1
            buf := t.buf ++ [{ val := BitVec.ofNat 128 (e.a.val.toNat % 2 ^ (8 * t.size)), poison := e.a.poison
                               ser := e.ser }] })))
    ∧ (s.ctx.logOn = false → ∀ sl, s.fir.blk.slots[s.fir.blk.cur]? = some sl → decode sl.word = .ok (.ldg n t0 t1) →
        (∀ x ∈ s.fir.blk.slots.take s.fir.blk.cur, ∀ a b, wordInstr x ≠ some (.ldg n a b)) →
        (∀ f ∈ s.ctx.firs, ∀ e ∈ f.blk.effs, ∀ a b, e.ins ≠ .ldg n a b) →
        let waiting (u : State) : State := u.setWait u.fir.blk.cur { on := .element n, expiry := none }
        (t.st = .undef ∨ streamWrite t = true →
          exec (.ldg n t0 t1) s = .next ((waiting s).emit [(t0, {}), (t1, ⟨fault 0x052 0, false⟩)]))
        ∧ (t.st = .idle → streamWrite t = false → t.buf = [] →
          exec (.ldg n t0 t1) s = .next ((waiting s).emit [(t0, {}), (t1, ⟨status 11 0 0, false⟩)]))
        ∧ (t.st.live = true → streamWrite t = false → streamEsz t ≠ 4 → (t.claim = none ∨ t.claim = some .core) →
            ∀ x l, t.buf = x :: l →
            let u := s.onCtx fun c => { c with streams := modV c.streams n.toNat fun t => { t with claim := some .core } }
            exec (.ldg n t0 t1) s = .next (((waiting u).take s.fir.blk.cur (.ldg n none none)).emit
              [(t0, ⟨x.val.setWidth 64, x.poison⟩),
               (t1, ⟨status (if x.poison then 8 else 0) 0 (t.used % 2 ^ 48), false⟩)])))

/-- For a running stream of MODE 0 in the window without transform, merge or bank group that no ABAR holds: element k lies at base plus the
four counters of k times their strides, modulo 2^64; a read stream with room takes the bytes there, with their poison,
as its next element, and a write stream stores its oldest supplied element there, every other byte reading as before;
K goes on by one. A place outside the window, or misaligned, holds the stream with the detail, the address and the
access code. A stream that does not run or that a committed ABAR holds, a read stream at its end or full, and a write stream without an element
change nothing. (R236; R237; R238; R239; R233; R389) -/
def Obligations.StreamElementMoves : Prop :=
  ∀ (s : State) (n : BitVec 5),
    let t := s.ctx.streams.getD n.toNat {}
    let a : Word := t.w 0 + BitVec.ofNat 64 (t.k % t.n 0) * t.w 3 + BitVec.ofNat 64 (t.k / t.n 0 % t.n 1) * t.w 4
      + BitVec.ofNat 64 (t.k / (t.n 0 * t.n 1) % t.n 2) * t.w 5 + BitVec.ofNat 64 (t.k / (t.n 0 * t.n 1 * t.n 2)) * t.w 6
    ((t.st ≠ .run ∨ s.ctx.barred n.toNat = true) → exec (.streamElement n) s = .next s)
    ∧ (t.st = .run → streamWrite t = false → s.ctx.engineOnly n.toNat = false →
        ((t.accesses ≤ t.k ∨ 128 ≤ t.buf.length) → exec (.streamElement n) s = .next s)
        ∧ (t.k < t.accesses → t.buf.length < 128 → t.mode = 0 → t.win = true → t.gv = false → t.bed = none →
            (s.ctx.portSet t).rd.kind = 0 → s.dev.upsets = [] → s.ctx.barred n.toNat = false →
            (∀ k, s.window a t.size = .ok (.mem k) → ∃ e : Elem,
              s.mem.Holds (s.kvOf s.who4 k) k t.size e.val.toNat
              ∧ e.poison = (s.mem.poisoned k || (t.size = 16 && s.mem.poisoned (k + 8)))
              ∧ exec (.streamElement n) s = .next (s.onCtx fun c => { c with
                  streams := modV c.streams n.toNat fun t => { t with
                    k := t.k + 1, buf := t.buf ++ [e], idx := t.idx.drop 1 } }))
            ∧ (∀ d, s.window a t.size = .error d → exec (.streamElement n) s = .next (s.holdStream n.toNat ⟨d, a, 0⟩))))
    ∧ (t.st = .run → streamWrite t = true → (s.ctx.portSet t).wr.kind = 0 →
        (t.buf = [] → exec (.streamElement n) s = .next s)
        ∧ (∀ e l, t.buf = e :: l → t.mode = 0 → t.win = true → t.gv = false → t.bed = none →
            (s.ctx.portSet t).merge = none → s.ctx.barred n.toNat = false →
            (∀ k, s.window a t.size = .ok (.mem k) → t.size ≤ 8 → s.mem.wf = true → (t.size = 8 ∨ s.mem.poisoned k = false) →
              ∃ u : State, exec (.streamElement n) s = .next u
                ∧ s.mem.Stored u.mem (s.dev.keyAt s.keyNow.toNat k) k t.size (e.val.toNat % 2 ^ (8 * t.size))
                ∧ (u.ctx.streams.getD n.toNat {}).k = t.k + 1 ∧ (u.ctx.streams.getD n.toNat {}).buf = l
                ∧ u.fir = s.fir ∧ u.dev = s.dev)
            ∧ (∀ d, s.window a t.size = .error d → exec (.streamElement n) s = .next (s.holdStream n.toNat ⟨d, a, 1⟩))))

/-- Applied, PXFORM sets the read or write side of its port and PMERGE its merge at once when no stream of that side is
live, and else for when the live ones have passed; RINGDEF is refused with STATE on a ring that holds messages, and
else defines an empty ring of its base, lines and WHOLE, or undefines it; RESUME is refused with STATE for a port that
is not held and lets a held stream of the own context run on. RINGSTAT answers DEF, WHOLE, HEAD, FREE and the messages
held, 0 for an undefined ring, and changes nothing. (R252; R253; R254; R255; R256; R240) -/
def Obligations.PortAndRingCommandsApply : Prop :=
  ∀ (s : State) (e : Eff) (p : BitVec 4) (t0 t1 : Cons),
    (s.who = .cmd e →
      (let set (f : PortSet → PortSet) : State := s.onCtx fun c => { c with
         lq := c.lq.erase e, ports := modV c.ports p.toNat f }
       (s.ctx.liveOn p.toNat (!e.a.val.getLsbD 0) = [] →
         exec (.pxform p) s = .next (set fun x => if e.a.val.getLsbD 0 then { x with rd := pxformCfg e.a.val, nextRd := none }
           else { x with wr := pxformCfg e.a.val, nextWr := none }))
       ∧ (∀ l, l ≠ [] → s.ctx.liveOn p.toNat (!e.a.val.getLsbD 0) = l →
         exec (.pxform p) s = .next (set fun x => if e.a.val.getLsbD 0 then { x with nextRd := some (pxformCfg e.a.val, l) }
           else { x with nextWr := some (pxformCfg e.a.val, l) }))
       ∧ (s.ctx.liveOn p.toNat true = [] →
         exec (.pmerge p) s = .next (set fun x => { x with merge := MergeOp.dec (bitsN e.a.val 2 0), nextMerge := none }))
       ∧ (∀ l, l ≠ [] → s.ctx.liveOn p.toNat true = l →
         exec (.pmerge p) s = .next (set fun x => { x with nextMerge := some (MergeOp.dec (bitsN e.a.val 2 0), l) })))
      ∧ ((s.ctx.rings.getD p.toNat {}).msgs.any (!·.pad) = true →
          exec (.ringdef p) s = .next ((s.popLq e).refuseCmd e.ins 0x051))
      ∧ ((s.ctx.rings.getD p.toNat {}).msgs.any (!·.pad) = false →
          exec (.ringdef p) s = .next (s.onCtx fun c => { c with
            lq := c.lq.erase e
            rings := setV c.rings p.toNat (if e.a.val.getLsbD 40 then
              { defd := true, base := bitsN e.a.val 23 0, size := bitsN e.a.val 38 24, whole := e.a.val.getLsbD 39
                free := bitsN e.a.val 38 24 } else {}) }))
      ∧ (s.ctx.id.present = true → e.a.val.toNat < 2 ^ 17 → bitsN e.a.val 1 0 = s.ctx.id.num.toNat → bitsN e.a.val 7 2 = 0 →
          (s.ctx.portHeld (bitsN e.a.val 9 8) (bitsN e.a.val 14 10) = false →
            exec .resume s = .next ((s.popLq e).refuseCmd e.ins 0x051))
          ∧ (bitsN e.a.val 9 8 = 0 → (s.ctx.streams.getD (bitsN e.a.val 14 10) {}).st = .held → e.a.val.getLsbD 15 = false →
            exec .resume s = .next (s.onCtx fun c => { c with
              lq := c.lq.erase e
              streams := modV c.streams (bitsN e.a.val 14 10) fun t => { t with st := .run, hold := none } }))))
    ∧ (∃ v : Word, exec (.ringstat p t0 t1) s = .next (s.sends t0 t1 v false)
        ∧ ((s.ctx.rings.getD p.toNat {}).defd = false → v = 0)
        ∧ ((s.ctx.rings.getD p.toNat {}).defd = true → v.getLsbD 63 = true
            ∧ v.getLsbD 62 = (s.ctx.rings.getD p.toNat {}).whole ∧ bitsN v 61 46 = 0
            ∧ bitsN v 45 32 = (s.ctx.rings.getD p.toNat {}).head % 2 ^ 14
            ∧ bitsN v 31 16 = (s.ctx.rings.getD p.toNat {}).free % 2 ^ 16
            ∧ bitsN v 15 0 = Nat.min ((s.ctx.rings.getD p.toNat {}).msgs.filter (!·.pad)).length 65535))

/-- At issue AMO and CAS with an unpoisoned address, and for the returning ones a 32-byte aligned return record inside the
window, answer OK and are held with the place of the target, and of the record; a fault of the place is the access
fault with access code 2, a bad record the RANGE fault. AMOV is held with a place for each active lane, its address
and index taken at issue; reserved bits of its address are the ADDR fault with no active lane too. Handed over outside fixed order, the update of AMO, CAS or the next lane of AMOV joins the
window of the unit of its word when that holds fewer than 32, and waits with its command otherwise. (R247; R248; R249;
R250; R251; R102; R103; R106) -/
def Obligations.AtomicsAreHeldAndHandedOver : Prop :=
  ∀ (s : State) (op : AmoOp) (ty : AmoTy) (w : Bool) (t0 t1 : Cons),
    (s.who = .core →
      (s.opA.poison = true → exec (.amo op ty t0 t1) s = .next (s.slotFault 4 0 0 0) ∧ exec (.cas w t0 t1) s = .next (s.slotFault 4 0 0 0))
      ∧ (s.opA.poison = false → s.opB.poison = false →
        (∀ l u, s.amoPlace s.a 0 (amoSize ty) = (.ok l, u) → amoReturns op = false →
          exec (.amo op ty t0 t1) s = .next ((u.hold { slot := 0, ins := .amo op ty t0 t1, a := s.opA, b := s.opB, locs := [l]
                                                       ws := [s.b], wp := [false], keyslot := u.keySeen }).emit
            [(t0, ⟨0, false⟩), (t1, ⟨0, false⟩)]))
        ∧ (s.b.toNat % 32 = 0 → s.b.toNat + 32 ≤ s.ctx.winSize →
          (∀ l u, s.amoPlace s.a 0 (amoSize ty) = (.ok l, u) → amoReturns op = true →
            exec (.amo op ty t0 t1) s = .next ((u.hold { slot := 0, ins := .amo op ty t0 t1, a := s.opA, b := s.opB
                                                         locs := [l, .mem (u.ctx.winKey s.b.toNat)]
                                                         ws := [s.b], wp := [false], keyslot := u.keySeen }).emit
              [(t0, ⟨0, false⟩), (t1, ⟨0, false⟩)]))
          ∧ (∀ l u, s.amoPlace s.a 0 (if w then 8 else 4) = (.ok l, u) →
            exec (.cas w t0 t1) s = .next ((u.hold { slot := 0, ins := .cas w t0 t1, a := s.opA, b := s.opB
                                                     locs := [l, .mem (u.ctx.winKey s.b.toNat)]
                                                     ws := [s.b], wp := [false], keyslot := u.keySeen }).emit
              [(t0, ⟨0, false⟩), (t1, ⟨0, false⟩)]))
          ∧ (∀ d u, s.amoPlace s.a 0 (amoSize ty) = (.error d, u) → exec (.amo op ty t0 t1) s = .next (u.slotFault 5 d s.a 2)))
        ∧ (¬(s.b.toNat % 32 = 0 ∧ s.b.toNat + 32 ≤ s.ctx.winSize) → exec (.cas w t0 t1) s = .next (s.slotFault 6 0x030 s.b 0))))
    ∧ (∀ (m : AmovOp) (va : BitVec 5) (q : BitVec 2), s.who = .core → s.opA.poison = false → s.a.toNat % 4 = 0 →
        s.a.getLsbD 63 = false → bitsN s.a 61 56 = 0 → s.a.getLsbD 62 = true →
        (∀ l, l < 32 → s.active q l = true → s.vp q va l = false
          ∧ bitsN s.a 55 0 + 4 * (s.vl q va l).toNat < s.ctx.winSize) →
        ((s.activeLanes q) = [] → exec (.amov m va q t0) s = .next (s.emit [(t0, ⟨0, false⟩)]))
        ∧ ((s.activeLanes q) ≠ [] → exec (.amov m va q t0) s = .next ((s.hold
            { slot := 0, ins := .amov m va q t0, a := s.opA, b := s.opB
              locs := (s.activeLanes q).map fun l => .mem (s.ctx.winKey (bitsN s.a 55 0 + 4 * (s.vl q va l).toNat))
              ws := s.b :: (s.activeLanes q).map fun l => BitVec.ofNat 64 (4 * (s.vl q va l).toNat)
              wp := [s.opB.poison], keyslot := s.keySeen }).emit [(t0, ⟨0, false⟩)])))
    ∧ (∀ (m : AmovOp) (va : BitVec 5) (q : BitVec 2), s.who = .core → s.opA.poison = false → s.activeLanes q = [] →
        (s.a.getLsbD 63 = true ∨ bitsN s.a 61 56 ≠ 0) → exec (.amov m va q t0) s = .next (s.slotFault 5 dADDR s.a 2))
    ∧ (∀ (e : Eff) (i : Instr) (k : Nat) (r : List Loc), s.who = .cmd e → e.ins = i → e.fix = false → e.locs = .mem k :: r →
        ((i = .amo op ty t0 t1 ∨ i = .cas w t0 t1) ∨ ∃ m va q, i = .amov m va q t0) →
        (32 ≤ (s.usu (unitOf k)).window.length → exec i s = .next s)
        ∧ ((s.usu (unitOf k)).window.length < 32 → ∃ (t : State) (x : Update), exec i s = .next t
            ∧ (t.usu (unitOf k)).window = (s.usu (unitOf k)).window ++ [x]
            ∧ x.key = k ∧ x.ctx = s.ctx.id.uid ∧ x.id = e.upd ∧ x.v = e.ws.getD 0 0 ∧ x.vpois = e.wp.getD 0 false
            ∧ (i = .amo op ty t0 t1 → x.op = op ∧ x.ty = ty ∧ x.cas = false)
            ∧ (i = .cas w t0 t1 → x.cas = true ∧ x.ty = if w then .d else .w)
            ∧ t.mem = s.mem ∧ t.fir = s.fir ∧ t.tile = s.tile))

/-- The first update of a unit's window, without a return and without a log, is applied: its word, not poisoned, takes the
operation's result of the old value and the operand, every other byte reads as before, and it leaves the window;
applied to a poisoned word nothing is stored. A like later update merges into it. For every integer type and operation
the merged operand gives the result of the two updates in turn. CAS stores OPND only when the word equals CMP.
ROUND_CLOSE applies the entries of a round in order of source, stream and sequence, and changes nothing while no round
of the unit closes. (R102; R103; R104; R107; R109; R247; R249) -/
def Obligations.UpdatesApplyToTheirWord : Prop :=
  (∀ (s : State) (n : Nat) (x : Update) (l : List Update), (s.usu n).window = x :: l → (s.usu n).num = n →
      (∀ y ∈ l, y.overtaken < 32) →
      x.ret = none → x.cas = false → x.subs = [] → (s.ctxOf x.ctx).any (·.logOn) = false → s.dev.upsets = [] →
      s.mem.wf = true → x.key % amoSize x.ty = 0 →
      ∃ t : State, exec (.updateTokenApply n 0 false) s = .next t ∧ (t.usu n).window = l ∧ t.fir = s.fir ∧ t.ctx = s.ctx
        ∧ (s.mem.poisoned x.key = true → t.mem = s.mem)
        ∧ (s.mem.poisoned x.key = false → s.mem.Stored t.mem (s.dev.keyAt x.keyslot.toNat x.key) x.key (amoSize x.ty)
            (amoNew x.op x.ty (BitVec.ofNat 64 (s.mem.read (s.dev.keyAt x.keyslot.toNat x.key) x.key (amoSize x.ty))) x.v).toNat))
  ∧ (∀ (s : State) (n : Nat) (x y : Update) (l : List Update), (s.usu n).window = x :: y :: l → (s.usu n).num = n →
      x.key / 8 = y.key / 8 → x.like y = true → y.like x = true → x.ord = false → y.ord = false →
      exec (.updateTokenApply n 1 true) s = .next (s.onUsu n fun v => { v with window := x.join y :: l }))
  ∧ (∀ (ty : AmoTy) (o a b : Word), ty ≠ .f → ∀ op ∈ [AmoOp.add, .min, .max, .and, .or, .xor, .swap],
      amoNew op ty o (amoNew op ty a b) = amoNew op ty (amoNew op ty o a) b)
  ∧ (∀ (o v : Word), amoNew .add .d o v = o + v ∧ amoNew .swap .d o v = v
      ∧ amoNew .add .w o v = (o.setWidth 32 + v.setWidth 32 : Half).setWidth 64
      ∧ amoNew .max .wn o v = BitVec.ofNat 64 (Nat.max (o.toNat % 2 ^ 32) (v.toNat % 2 ^ 32))
      ∧ amoNew .min .wn o v = BitVec.ofNat 64 (Nat.min (o.toNat % 2 ^ 32) (v.toNat % 2 ^ 32))
      ∧ (amoNew .max .d o v).toInt = max o.toInt v.toInt ∧ (amoNew .min .d o v).toInt = min o.toInt v.toInt)
  ∧ (∀ (x : Update) (d : Dev) (m : Memory) (v cmp : Word), x.cas = true → x.ty = .d → m.poisoned x.key = false → m.wf = true →
      x.key % 8 = 0 →
      let r := x.act d m v cmp false
      r.2.1 = BitVec.ofNat 64 (m.read (d.keyAt x.keyslot.toNat x.key) x.key 8) ∧ r.2.2.1 = false
      ∧ (r.2.1 = cmp → r.2.2.2 = true ∧ m.Stored r.1 (d.keyAt x.keyslot.toNat x.key) x.key 8 v.toNat)
      ∧ (r.2.1 ≠ cmp → r.2.2.2 = false ∧ r.1 = m))
  ∧ (∀ (s : State) (n : Nat), (s.closing (s.usu n) = [] → exec (.roundClose n) s = .next s)
      ∧ ∀ j r, s.closing (s.usu n) = j :: r → (s.usu n).num = n →
          (∀ c ∈ ((s.usu n).closes.flatMap (·.2.1)), (s.ctxOf c).any (·.logOn) = false) →
          exec (.roundClose n) s = .next (applyAll ((s.usu n).entries j) (s.onUsu n fun u => u.closed j)))
  ∧ (∀ (u : USU) (j : BitVec 16), (u.entries j).Perm (u.order.filter fun x => x.job == j && x.epoch == 0)
      ∧ (u.entries j).Pairwise fun x y => y.before x = false)

/-- KCOPY, KGATH, KSCAT, KRED and KCOLL with unpoisoned operands, an aligned structure inside the window and a legal B
answer OK and are held; poison is trap POISON, an illegal operand RANGE. At its engine each joins the queue of the
channel of B when that holds fewer than 16 requests, and waits otherwise. KPORT is held and then sets the binding of
its port. KCANCEL is held; applied, the channels of its mask queue nothing and run nothing, but for a reduction whose
updates are still at a unit, which ends once they are performed, and the others are unchanged, and a single cancelled
request leaves one record CANCELLED with the blocks moved. KSTAT answers BUSY, HOLD,
the queue length and the blocks moved, and changes nothing. (R257; R258; R259; R260; R266; R268; R269; R208) -/
def Obligations.CopyCommandsQueueAndAnswer : Prop :=
  ∀ (s : State) (op : MergeOp) (k : CollKind) (p : BitVec 2) (t0 t1 : Cons) (e : Eff),
    let forms : List ((Cons → Cons → Instr) × Nat × Nat × Nat) := [(.kcopy, 16, 0, 0), (.kgath, 16, 1, 65535),
      (.kscat, 16, 1, 65535), (.kred op, 16, 0, 0), (.kcoll k, 32, 0, 0)]
    let legalB (lo hi : Nat) : Prop := bitsN s.b 47 32 = 0 ∧ bitsN s.b 15 3 = 0 ∧ lo ≤ bitsN s.b 31 16 ∧ bitsN s.b 31 16 ≤ hi
    (s.who = .core → ∀ f ∈ forms,
      (s.pAB = true → exec (f.1 t0 t1) s = .next (s.slotFault 4 0 7 0))
      ∧ (s.pAB = false → ¬(s.a.toNat % f.2.1 = 0 ∧ s.a.toNat + f.2.1 ≤ s.ctx.winSize) →
          exec (f.1 t0 t1) s = .next (s.slotFault 6 0x030 s.a 0))
      ∧ (s.pAB = false → s.a.toNat % f.2.1 = 0 → s.a.toNat + f.2.1 ≤ s.ctx.winSize →
          (¬legalB f.2.2.1 f.2.2.2 → exec (f.1 t0 t1) s = .next (s.slotFault 6 0x030 s.b 0))
          ∧ (legalB f.2.2.1 f.2.2.2 → exec (f.1 t0 t1) s = .next ((s.hold
              { slot := 0, ins := f.1 none none, a := s.opA, b := s.opB }).emit [(t0, ⟨0, false⟩), (t1, ⟨0, false⟩)]))))
    ∧ (s.who = .cmd e → ∀ f ∈ forms,
        let c := bitsN e.b.val 2 0
        (16 ≤ (s.ctx.chan c).queue.length → exec (f.1 t0 t1) s = .next s)
        ∧ ((s.ctx.chan c).queue.length < 16 → ∃ r : CopyReq, exec (f.1 t0 t1) s = .next (s.onCtx fun x => { x with
              kq := x.kq.erase e
              chans := modV x.chans c fun h => { h with queue := h.queue ++ [r] } })
            ∧ r.off = some e.a.val.toNat ∧ r.count = bitsN e.b.val 31 16 ∧ r.cw = e.cw ∧ r.ser = e.ser
            ∧ r.space = e.space ∧ r.cls.toNat = fCls (encode (f.1 none none))
            ∧ r.op.toNat = fOp (encode (f.1 none none)) ∧ r.mod = fMod (encode (f.1 none none))))
    ∧ (s.who = .core → s.pAB = false →
        (bitsN s.a 63 8 = 0 → (s.a.getLsbD 4 = true ↔ bitsN s.a 7 5 ≠ 0) → bitsN s.b 47 0 = 0 →
          exec (.kport p) s = .next (s.heldFor (.kport p) []))
        ∧ (bitsN s.a 63 8 ≠ 0 → exec (.kport p) s = .next (s.slotFault 6 0x030 s.a 0)))
    ∧ (s.who = .cmd e → exec (.kport p) s = .next (s.onCtx fun x => { x with
        kq := x.kq.erase e
        kports := modV x.kports p.toNat fun h => { h with
          chan := BitVec.ofNat 3 (bitsN e.a.val 2 0), en := e.a.val.getLsbD 3, cw := e.cw
          red := if e.a.val.getLsbD 4 then MergeOp.dec (bitsN e.a.val 7 5) else none } }))
    ∧ (s.who = .core →
        (s.opA.poison = true → exec .kcancel s = .next (s.slotFault 4 0 7 0))
        ∧ (s.opA.poison = false → bitsN s.a 63 8 ≠ 0 → exec .kcancel s = .next (s.slotFault 6 0x030 s.a 0))
        ∧ (s.opA.poison = false → bitsN s.a 63 8 = 0 → exec .kcancel s = .next (s.heldFor .kcancel [])))
    ∧ (s.who = .cmd e → ∃ t, exec .kcancel s = .next t ∧ t.mem = s.mem ∧ t.fir = s.fir ∧ t.tile = s.tile
        ∧ ∀ n, n < 8 → if e.a.val.getLsbD n then (t.ctx.chan n).queue = []
            ∧ ((s.ctx.chan n).run = none → (t.ctx.chan n).run = none)
            ∧ ∀ x, (s.ctx.chan n).run = some x →
              (s.copyPerformed n x.req = true → (t.ctx.chan n).run = none)
              ∧ (s.copyPerformed n x.req = false → (t.ctx.chan n).run = some { x with
                  hold := none, status := if x.status.isSome then x.status else some (fault 0x080 x.blk) })
          else t.ctx.chan n = s.ctx.chan n)
    ∧ (∀ n x, s.who = .cmd e → n < 8 → e.a.val = BitVec.ofNat 64 (2 ^ n) → s.ctx.kq = [] → s.ctx.chan n = { queue := [], run := some x } →
        x.coll = none → s.copyPerformed n x.req = true →
        ∃ t, exec .kcancel s = .next t ∧ t.ctx.sync.evqHeld = s.ctx.sync.evqHeld ++
          [⟨fault 0x080 x.blk, recInfo x.req.cls.toNat x.req.op.toNat x.req.mod.toNat (cwTag x.req.cw) n,
            if cwPush x.req.cw then some (BitVec.ofNat 3 (cwQpush x.req.cw)) else none,
            { unit := n, ser := if x.req.kind = 4 then none else some x.req.ser }⟩])
    ∧ (s.opA.poison = true → exec (.kstat t0 t1) s = .next (s.slotFault 4 0 7 0))
    ∧ (s.opA.poison = false → 8 ≤ s.a.toNat → exec (.kstat t0 t1) s = .next (s.slotFault 6 0x030 s.a 0))
    ∧ (s.opA.poison = false → s.a.toNat < 8 → ∃ v : Word, exec (.kstat t0 t1) s = .next (s.sends t0 t1 v false)
        ∧ (v.getLsbD 63 = (s.ctx.chan s.a.toNat).run.isSome)
        ∧ (v.getLsbD 62 = (s.ctx.chan s.a.toNat).run.any fun x => x.hold.isSome)
        ∧ bitsN v 61 57 = (s.ctx.chan s.a.toNat).queue.length % 32
        ∧ bitsN v 42 16 = ((s.ctx.chan s.a.toNat).run.map fun x => Nat.min x.blk (2 ^ 27 - 1)).getD 0)

/-- COPY_REQUEST_START starts the oldest request of an idle channel, with the words of its structure or with those that a
packet brought, and takes the token of its POP; it begins to wait when there is none and completes TIMEOUT after DCEIL
cycles; a busy channel and an empty queue change nothing. COPY_COMPLETION reads the list of a KGATH or KSCAT; moves the
next block of any request, or leaves its channel held at a failing access; for a plain copy between window places the
eight words are read and written in ascending order (one at a time: the model's choice, log 99), so each stands at its
destination as it stood at its source, or as the words below it have left it where the two overlap, with its poison, and
no other byte and no other poison changes.
After the last block the request completes with OK and the block count, or POISON and the count of poisoned words, once
its reductions are performed, and a refused one with its status. A collective with a bad descriptor, or one outside its
range (the model's reading, log 56), completes BADREQ, with an ORDER, OP or TYPE outside its table RANGE, with missing
instances NODEST; it reads its elements, joins, waits for all NPART, and completes MISMATCH when one differs; then it sends
its exchanges to the next rank one after another, each counted as injected at its copy engine (their number and this order
are the model's, log 56), completes KERF when a kerf has dropped one, and OK with NPART once those of all have arrived.
COPY_PORT_PACKET takes the next token of a packet; under the binding of a whole packet it hands it to its channel, waits
while that is full, faults the sender of a disabled one with PORT and the port of a poisoned one; COPY_PORT_FULL_TIMEOUT
stops a packet that has found its channel full for more than DCEIL cycles; without a COPY port that has tokens both
change nothing. (R258; R259; R260; R266; R267; R109; R448; R209; R310; R130) -/
def Obligations.CopyChannelsRunRequests : Prop :=
  ∀ (s : State) (ch : BitVec 3) (p : BitVec 2),
    let k := s.ctx.chan ch.toNat
    let now := s.ctx.csr.budget.toNat
    let setK (f : Channel → Channel) : State := s.onCtx fun c => { c with chans := modV c.chans ch.toNat f }
    let record (r : CopyReq) (st : Word) : Rec :=
      ⟨st, recInfo r.cls.toNat r.op.toNat r.mod.toNat (cwTag r.cw) ch.toNat,
        if cwPush r.cw then some (BitVec.ofNat 3 (cwQpush r.cw)) else none,
        { unit := ch.toNat, ser := if r.kind = 4 then none else some r.ser }⟩
    let refusedWith (x : CopyRun) (st : Word) : Prop :=
      ∃ t, exec (.copyCompletion ch) s = .next t ∧ (t.ctx.chan ch.toNat).run = none ∧ (t.ctx.chan ch.toNat).queue = k.queue
        ∧ t.mem = s.mem ∧ t.fir = s.fir ∧ t.ctx.sync.evqHeld = s.ctx.sync.evqHeld ++ [record x.req st]
    let endsWith (x : CopyRun) (st : Word) : Prop :=
      ∃ t, exec (.copyCompletion ch) s = .next t ∧ (t.ctx.chan ch.toNat).run = none ∧ (t.ctx.chan ch.toNat).queue = k.queue
        ∧ t.fir = s.fir
        ∧ t.ctx.sync.evqHeld = s.ctx.sync.evqHeld ++ (if cwRec x.req.cw then [record x.req st] else [])
        ∧ t.ctx.sync.pushes = s.ctx.sync.pushes ++
            (if cwRec x.req.cw = false ∧ cwPush x.req.cw = true then
              [⟨BitVec.ofNat 3 (cwQpush x.req.cw), { unit := ch.toNat, ser := if x.req.kind = 4 then none else some x.req.ser }⟩] else [])
    let goesOn (x : CopyRun) : Prop := k.run = some x ∧ x.hold = none ∧ x.status = none
    let owed : Bool := s.ctx.sync.pushes.any (·.origin.unit == ch.toNat)
    ((k.run.isSome = true ∨ k.queue = [] ∨ owed = true) → exec (.copyRequestStart ch) s = .next s)
    ∧ (∀ r l, k.run = none → k.queue = r :: l → owed = false →
        (cwPop r.cw = true → s.ctx.sync.q.getD (cwQpop r.cw) 0 = 0 →
          (r.since = none → exec (.copyRequestStart ch) s = .next (setK fun h => { h with
            queue := { r with since := some now } :: l }))
          ∧ (∀ t, r.since = some t → now < t + s.ctx.csr.dceil.toNat → exec (.copyRequestStart ch) s = .next s)
          ∧ (∀ t, r.since = some t → t + s.ctx.csr.dceil.toNat ≤ now → ∃ u, exec (.copyRequestStart ch) s = .next u
              ∧ (u.ctx.chan ch.toNat).queue = l ∧ (u.ctx.chan ch.toNat).run = none ∧ u.mem = s.mem
              ∧ u.ctx.sync.evqHeld = s.ctx.sync.evqHeld ++ [record r 1]))
        ∧ ((cwPop r.cw = true → s.ctx.sync.q.getD (cwQpop r.cw) 0 ≠ 0) → s.dev.upsets = [] →
            ∃ u x, exec (.copyRequestStart ch) s = .next u ∧ (u.ctx.chan ch.toNat).queue = l
              ∧ (u.ctx.chan ch.toNat).run = some x
              ∧ x.req.kind = r.kind ∧ x.req.cw = r.cw ∧ x.req.merge = r.merge ∧ x.blk = 0 ∧ x.hold = none ∧ x.rd = []
              ∧ u.mem = s.mem ∧ u.fir = s.fir
              ∧ (u.ctx.sync.q = if cwPop r.cw then setV s.ctx.sync.q (cwQpop r.cw) (s.ctx.sync.q.getD (cwQpop r.cw) 0 - 1)
                  else s.ctx.sync.q)
              ∧ (r.off = none → x.req = r ∧ x.status = if r.wordsOk then none else some (fault 0x081 0))
              ∧ (∀ o, r.off = some o → r.kind ≠ 4 → x.req.w0 = s.winWord o ∧ x.req.w1 = s.winWord (o + 8)
                  ∧ x.status = if s.winPois o || s.winPois (o + 8) || !x.req.wordsOk then some (fault 0x081 0) else none)
              ∧ (∀ o, r.off = some o → r.kind = 4 → x.desc = (List.range 4).map (fun i => s.winWord (o + 8 * i))
                  ∧ x.status = if (List.range 4).any (fun i => s.winPois (o + 8 * i)) then some (fault 0x081 0) else none)))
    ∧ ((k.run = none ∨ ∃ x, k.run = some x ∧ x.hold.isSome = true) → exec (.copyCompletion ch) s = .next s)
    ∧ (∀ x d, k.run = some x → x.hold = none → x.status = some (fault d 0) → 0 < d → d < 4096 →
        (s.copyPerformed ch.toNat x.req = true → refusedWith x (fault d 0))
        ∧ (s.copyPerformed ch.toNat x.req = false → exec (.copyCompletion ch) s = .next s))
    ∧ (∀ x o, goesOn x → x.req.coll = none → x.req.listAt = some o → x.list.length < x.req.count → s.dev.upsets = [] →
        o.toNat % 8 = 0 → o.toNat + 8 * x.req.count ≤ s.ctx.winSize →
        (∀ i, x.list.length ≤ i → i < x.req.count →
          s.winPois (o.toNat + 8 * i) = false ∧ (s.winWord (o.toNat + 8 * i)).toNat % 8 = 0) →
        ∃ t z, exec (.copyCompletion ch) s = .next t ∧ (t.ctx.chan ch.toNat).run = some z ∧ z.req = x.req ∧ z.status = none
          ∧ z.list.length = x.req.count ∧ t.mem = s.mem ∧ t.fir = s.fir
          ∧ ∀ i, x.list.length ≤ i → i < x.req.count → z.list.getD i 0 = s.winWord (o.toNat + 8 * i))
    ∧ (∀ x, goesOn x → x.req.coll = none → (x.req.listAt = none ∨ x.req.count ≤ x.list.length) → x.blk < x.req.total →
        s.dev.upsets = [] →
        ∃ t z, exec (.copyCompletion ch) s = .next t ∧ (t.ctx.chan ch.toNat).run = some z ∧ z.req = x.req ∧ t.fir = s.fir
          ∧ ((z.blk = x.blk + 1 ∧ z.rd = [] ∧ z.wr = 0 ∧ z.hold = none) ∨ (z.blk = x.blk ∧ z.hold.isSome = true)))
    ∧ (∀ x a b, goesOn x → x.req.kind = 0 → x.req.merge = none → x.req.coll = none →
        x.rd = [] → x.wr = 0 → x.blk < x.req.total → x.srcOf x.blk = (a, true) → x.dstOf x.blk = (b, true) →
        a.toNat % 8 = 0 → b.toNat % 8 = 0 → a.toNat + 64 ≤ s.ctx.winSize → b.toNat + 64 ≤ s.ctx.winSize →
        s.dev.upsets = [] → s.mem.wf = true → s.ctx.id.row + 2 ^ (9 + s.ctx.id.wlog.toNat) ≤ 4096 →
        ∃ t, exec (.copyCompletion ch) s = .next t
          ∧ (∀ i, i < 8 →
              ((∀ j, j < i → a.toNat + 8 * i ≠ b.toNat + 8 * j) →
                t.winWord (b.toNat + 8 * i) = s.winWord (a.toNat + 8 * i)
                ∧ t.winPois (b.toNat + 8 * i) = s.winPois (a.toNat + 8 * i))
              ∧ ∀ j, j < i → a.toNat + 8 * i = b.toNat + 8 * j →
                t.winWord (b.toNat + 8 * i) = t.winWord (b.toNat + 8 * j)
                ∧ t.winPois (b.toNat + 8 * i) = t.winPois (b.toNat + 8 * j))
          ∧ (∀ y, (∀ i, i < 8 → y / 8 ≠ s.ctx.winKey (b.toNat + 8 * i) / 8) →
              t.mem.byte y = s.mem.byte y ∧ t.mem.poisoned y = s.mem.poisoned y)
          ∧ t.fir = s.fir ∧ t.tile = s.tile
          ∧ ∃ z, (t.ctx.chan ch.toNat).run = some z ∧ z.blk = x.blk + 1 ∧ z.rd = [] ∧ z.wr = 0 ∧ z.req = x.req)
    ∧ (∀ x, goesOn x → x.req.coll = none → (x.req.listAt = none ∨ x.req.count ≤ x.list.length) → x.req.total ≤ x.blk →
        (s.copyPerformed ch.toNat x.req = true →
          endsWith x (if x.poisoned = 0 then status 0 0 x.req.total else status 8 0 x.poisoned))
        ∧ (s.copyPerformed ch.toNat x.req = false → exec (.copyCompletion ch) s = .next s))
    ∧ (∀ x kd, goesOn x → x.req.coll = some kd →
        (x.coll = none →
          (x.descOk kd = false → refusedWith x (fault 0x081 0))
          ∧ (x.descOk kd = true → x.descRange = false → refusedWith x (fault 0x030 0))
          ∧ (x.descOk kd = true → x.descRange = true →
              (s.instances < x.cFirst + x.cNpart → refusedWith x (fault 0x082 0))
              ∧ (x.cFirst + x.cNpart ≤ s.instances → (s.ctx.id.index < x.cFirst ∨ x.cFirst + x.cNpart ≤ s.ctx.id.index) →
                  refusedWith x (fault 0x081 0))
              ∧ (x.cFirst + x.cNpart ≤ s.instances → x.cFirst ≤ s.ctx.id.index → s.ctx.id.index < x.cFirst + x.cNpart →
                  (x.rd.length < x.cCount → x.cSrc + x.cSize * x.cCount ≤ s.ctx.winSize → s.dev.upsets = [] →
                    ∃ t z, exec (.copyCompletion ch) s = .next t ∧ (t.ctx.chan ch.toNat).run = some z ∧ z.req = x.req
                      ∧ z.coll = none ∧ z.rd.length = x.cCount ∧ t.mem = s.mem ∧ t.fir = s.fir)
                  ∧ (x.cCount ≤ x.rd.length →
                    ∃ t z, exec (.copyCompletion ch) s = .next t ∧ (t.ctx.chan ch.toNat).run = some z ∧ z.req = x.req
                      ∧ z.coll.isSome = true ∧ t.mem = s.mem ∧ t.fir = s.fir))))
        ∧ (∀ key c, x.coll = some key → s.collOf key = some c →
            (c.parts.length < c.npart → exec (.copyCompletion ch) s = .next s)
            ∧ (c.npart ≤ c.parts.length →
                (c.parts.any (·.differs) = true → refusedWith x (fault 0x083 0))
                ∧ (c.parts.any (·.differs) = false → ∀ r me, r = (firstIdx (s.ctx.isPart ch.toNat) c.ranked 0).getD 0 →
                    c.ranked[r]? = some me →
                    (me.kerf = true → refusedWith x (fault 0x085 0))
                    ∧ (me.kerf = false → me.out.isSome = true → exec (.copyCompletion ch) s = .next s)
                    ∧ (∀ m next, me.kerf = false → me.out = none → me.left = some (m + 1) →
                        c.ranked[(r + 1) % c.ranked.length]? = some next → (s.dev.slotOf s.ctx.id.job).isSome = true →
                        ∃ t q, exec (.copyCompletion ch) s = .next t ∧ t.dev.packets = s.dev.packets ++ [q] ∧ q.kind = .coll
                          ∧ q.job = s.ctx.id.job ∧ q.dinst = BitVec.ofNat 32 next.index ∧ t.ctx = s.ctx ∧ t.mem = s.mem
                          ∧ t.copCnt s.ctx.id.tile s.ctx.id.job = (s.copCnt s.ctx.id.tile s.ctx.id.job).inject)
                    ∧ (me.kerf = false → me.out = none → me.left = some 0 →
                        ((∃ y ∈ c.parts, y.lost = true ∨ y.kerf = true ∨ y.out.isSome = true ∨ y.left ≠ some 0) →
                          exec (.copyCompletion ch) s = .next s)
                        ∧ ((∀ y ∈ c.parts, y.lost = false ∧ y.kerf = false ∧ y.out = none ∧ y.left = some 0) → x.cDst % 8 = 0 →
                          x.cDst + x.cSize * ((x.cCount + c.parts.length) * (c.parts.length + 1)) ≤ s.ctx.winSize →
                          endsWith x (status 0 0 c.npart)))))))
    ∧ (s.ctx.copySource p.toNat = none → exec (.copyPortPacket p) s = .next s ∧ exec (.copyPortFullTimeout p) s = .next s)
    ∧ (∀ h i g, s.ctx.copySource p.toNat = some (h, i) → s.ctx.cfg h = some g → s.hangFirst (BitVec.ofNat 5 h) = none →
        let b := g.boundTo i (s.ctx.kports.getD p.toNat {})
        (∀ e, (g.part i).length < 4 → g.portIn i 0 = some e →
          ∃ t x, exec (.copyPortPacket p) s = .next t ∧ t.ctx.cfg h = some x ∧ x.part i = g.part i ++ [g.first1 e]
            ∧ t.ctx.chans = s.ctx.chans ∧ t.mem = s.mem ∧ t.fir = s.fir)
        ∧ (4 ≤ (g.part i).length → b.en = true → (g.part i).any (·.pois) = false →
            ((s.ctx.chan b.chan.toNat).queue.length < 16 →
              ∃ t r, exec (.copyPortPacket p) s = .next t ∧ t.mem = s.mem ∧ t.fir = s.fir
                ∧ (t.ctx.chan b.chan.toNat).queue = (s.ctx.chan b.chan.toNat).queue ++ [r] ∧ r.cw = b.cw ∧ r.merge = b.red
                ∧ r.off = none
                ∧ r.w0.toNat = ((g.part i).getD 0 { val := 0 }).val.toNat + ((g.part i).getD 1 { val := 0 }).val.toNat * 2 ^ 32
                ∧ r.w1.toNat = ((g.part i).getD 2 { val := 0 }).val.toNat + ((g.part i).getD 3 { val := 0 }).val.toNat * 2 ^ 32)
            ∧ (16 ≤ (s.ctx.chan b.chan.toNat).queue.length →
              ∃ t, exec (.copyPortPacket p) s = .next t ∧ t.ctx.chans = s.ctx.chans ∧ t.mem = s.mem ∧ t.fir = s.fir))
        ∧ (4 ≤ (g.part i).length → b.en = true → (g.part i).any (·.pois) = true →
            ∃ t x, exec (.copyPortPacket p) s = .next t ∧ t.ctx.cfg h = some x ∧ x.fault.isSome = true
              ∧ (g.hang = none → t.mem = s.mem))
        ∧ (∀ v d k y, 4 ≤ (g.part i).length → b.en = false → g.portIn i 0 = some v → g.img.edges[v]? = some d →
            epPort d.src = false → g.img.nodeAt (epNode d.src) (epSlot d.src) = some k → g.img.nodes[k]? = some y → g.fault = none →
            ∃ t x, exec (.copyPortPacket p) s = .next t ∧ t.ctx.cfg h = some x ∧ x.fault = some (nodeEp y, 0x0B3)
              ∧ (x.ports[i]?).any (·.faulted) = true ∧ (g.hang = none → t.mem = s.mem))
        ∧ (∀ v n, (g.ports[i]?).bind (·.bound) = some v → v.full = some n → n + s.ctx.csr.dceil.toNat < now →
            16 ≤ (s.ctx.chan v.chan.toNat).queue.length →
            ∃ t x, exec (.copyPortFullTimeout p) s = .next t ∧ t.ctx.cfg h = some x ∧ (x.ports[i]?).any (·.faulted) = true
              ∧ (g.hang = none → t.mem = s.mem)))

/-- KSEND with an unpoisoned aligned address inside the window, a legal deadline and a legal unpoisoned header answers OK
and is held with its header; each breach is its trap. Handed over, it waits while an update before it is still to be
applied to its body; with no earlier send to its pair under way, it sends one packet with the bytes of its body, its
instance, ring and sequence number to the place of its destination, or completes NODEST for an instance that does not
exist, which its own interface consumes, or, without a placement entry, is turned back there, consumed and injected again
(the model counts the retry as it is planned, log 66). As its block hands it over a KSEND is counted as injected, and a
KRECV that has taken a message as consumed. KRECV and KPOLL answer CLAIMED on a ring of the graph and UNDEF on an
undefined one; on a message at HEAD that no other firing holds, without memory errors pending, they answer OK with its
place and length, and its header word, KRECV taking it when its block commits; on an empty ring KPOLL answers EMPTY and
KRECV waits up to its expiry point, or as POLL answers TIMEOUT. (R263; R264; R265; R112; R130; R233; R117; R115) -/
def Obligations.MessageFormsAnswer : Prop :=
  ∀ (s : State) (rec : Bool) (tag : BitVec 4) (n : BitVec 4) (t0 t1 : Cons) (e : Eff),
    let o := s.a.toNat
    let h := s.seen.word (s.ctx.winKey o)
    (s.who = .core → s.opA.poison = true → exec (.ksend rec tag t0 t1) s = .next (s.slotFault 4 0 7 0))
    ∧ (s.who = .core → s.opA.poison = false → s.opB.poison = true → exec (.ksend rec tag t0 t1) s = .next (s.slotFault 4 0 3 0))
    ∧ (s.who = .core → s.opA.poison = false → s.opB.poison = false →
        (s.deadline s.b = .illegal → exec (.ksend rec tag t0 t1) s = .next (s.slotFault 6 0x0C6 s.b 0))
        ∧ (s.deadline s.b ≠ .illegal → s.dev.upsets = [] →
            (¬(o % 8 = 0 ∧ o + 8 ≤ s.ctx.winSize) → exec (.ksend rec tag t0 t1) s = .next (s.slotFault 6 0x030 s.a 0))
            ∧ (o % 8 = 0 → o + 8 ≤ s.ctx.winSize →
                (s.seen.poisoned (s.ctx.winKey o) = true → exec (.ksend rec tag t0 t1) s = .next (s.slotFault 4 0 7 0))
                ∧ (s.seen.poisoned (s.ctx.winKey o) = false →
                    let ok : Prop := bitsN h 63 45 = 0 ∧ 1 ≤ bitsN h 44 36 ∧ bitsN h 44 36 ≤ 256
                      ∧ o + 8 + bitsN h 44 36 ≤ s.ctx.winSize
                    (¬ok → exec (.ksend rec tag t0 t1) s = .next (s.slotFault 6 0x030 h 0))
                    ∧ (ok → exec (.ksend rec tag t0 t1) s = .next ((s.hold
                        { slot := 0, ins := .ksend rec tag none none, a := s.opA, b := s.opB, ws := [h] }).emit
                        [(t0, ⟨0, false⟩), (t1, ⟨0, false⟩)]))))))
    ∧ (s.who = .cmd e → e.wp = [] → s.readWaits e (s.ctx.bodyKeys e) = true → exec (.ksend rec tag t0 t1) s = .next s)
    ∧ (∀ h x0 x1 : Word, s.who = .cmd e → e.ins = .ksend rec tag none none → e.ws = [h, x0, x1] → e.wp = [] → s.ctx.lq = [] →
        s.readWaits e (s.ctx.bodyKeys e) = false → s.dev.upsets = [] → s.ctx.id.present = true →
        (∀ y ∈ s.ctx.sends, y.id ≠ e.ser ∧ ¬(y.dinst.toNat = bitsN h 31 0 ∧ y.ring.toNat = bitsN h 35 32)) →
        (bitsN h 31 0 < s.instances → (s.placementEntry s.ctx.id.job (bitsN h 31 0)).getLsbD 63 = true →
          ∃ t p, exec (.ksend rec tag t0 t1) s = .next t ∧ t.dev.packets = s.dev.packets ++ [p] ∧ p.kind = .msg
            ∧ p.body = (List.range (bitsN h 44 36)).map (fun i => s.mem.byte (s.ctx.winKey (e.a.val.toNat + 8 + i)))
            ∧ p.dst.toNat = bitsN (s.placementEntry s.ctx.id.job (bitsN h 31 0)) 31 0
            ∧ p.dinst.toNat = bitsN h 31 0 ∧ p.ring.toNat = bitsN h 35 32 ∧ p.sinst = BitVec.ofNat 32 s.ctx.id.index
            ∧ p.job = s.ctx.id.job ∧ p.side = s.ctx.id.side ∧ p.pos = s.ctx.id.tile ∧ p.send = e.ser
            ∧ p.sseq = ((s.ctx.sseq.find? fun x => x.1 == p.dinst && x.2.1 == p.ring).map (·.2.2)).getD 0
            ∧ t.mem = s.mem ∧ t.fir = s.fir ∧ t.tile = s.tile)
        ∧ (s.instances ≤ bitsN h 31 0 → s.ctx.logOn = false → ∃ t, exec (.ksend rec tag t0 t1) s = .next t
            ∧ t.ctx.sends = s.ctx.sends ∧ t.dev.packets = s.dev.packets ∧ t.mem = s.mem ∧ t.fir = s.fir
            ∧ ((s.dev.slotOf s.ctx.id.job).isSome = true →
                t.netCnt s.ctx.id.tile s.ctx.id.job = (s.netCnt s.ctx.id.tile s.ctx.id.job).consume)
            ∧ ∃ r, t.ctx.sync.evqHeld = s.ctx.sync.evqHeld ++ [r] ∧ r.status = fault 0x082 0)
        ∧ (bitsN h 31 0 < s.instances → (s.placementEntry s.ctx.id.job (bitsN h 31 0)).getLsbD 63 = false →
            x0 = 1 → s.ctx.csr.budget.toNat < x1.toNat → s.ctx.logOn = false → (s.dev.slotOf s.ctx.id.job).isSome = true →
            ∃ t, exec (.ksend rec tag t0 t1) s = .next t ∧ t.dev.packets = s.dev.packets ∧ t.mem = s.mem ∧ t.fir = s.fir
              ∧ (∃ y, t.ctx.sends = s.ctx.sends ++ [y] ∧ y.flying = false ∧ y.interval = 32
                  ∧ y.retryAt = some (s.ctx.csr.budget.toNat + 32))
              ∧ t.netCnt s.ctx.id.tile s.ctx.id.job = (s.netCnt s.ctx.id.tile s.ctx.id.job).consume.inject))
    ∧ ((s.dev.slotOf s.ctx.id.job).isSome = true → s.dev.upsets = [] →
        (∀ a b, e.ins = .ksend rec tag a b → s.ctx.kq ≠ [] →
          (s.handOver e).netCnt s.ctx.id.tile s.ctx.id.job = (s.netCnt s.ctx.id.tile s.ctx.id.job).inject
          ∧ ∃ y, (s.handOver e).ctx.kq = s.ctx.kq ++ [y])
        ∧ (∀ a b, e.ins = .krecv n a b →
          (s.handOver e).netCnt s.ctx.id.tile s.ctx.id.job = (s.netCnt s.ctx.id.tile s.ctx.id.job).consume))
    ∧ (let g := s.ctx.rings.getD n.toNat {}
       let used := s.ctx.graph.chans.any fun c => c.kind == 4 && c.loc.toNat == n.toNat
       let u := s.onCtx fun c => c.dropPads n.toNat
       let place (m : RingMsg) : Nat := g.base + 64 * m.line % (64 * g.size)
       (used = true → exec (.kpoll n t0 t1) s = .next (s.emit [(t0, ⟨fault 0x053 0, false⟩), (t1, ⟨0, false⟩)]))
       ∧ (used = false → g.defd = false → exec (.kpoll n t0 t1) s = .next (s.emit [(t0, ⟨fault 0x052 0, false⟩), (t1, ⟨0, false⟩)]))
       ∧ (used = false → g.defd = true →
           (g.msgs.all (·.pad) = true → exec (.kpoll n t0 t1) s = .next (s.emit [(t0, ⟨11, false⟩), (t1, ⟨0, false⟩)]))
           ∧ (∀ m l, s.dev.upsets = [] → g.msgs.filter (!·.pad) = m :: l → exec (.kpoll n t0 t1) s = .next (s.emit
               [(t0, ⟨status 0 0 (place m + m.len * 2 ^ 24), false⟩), (t1, ⟨s.winWord (place m), s.winPois (place m)⟩)])))
       ∧ (∀ x sl, s.ctx.logOn = false → s.opA.poison = false → s.deadline s.a = .at x →
           s.fir.blk.slots[s.fir.blk.cur]? = some sl → decode sl.word = .ok (.krecv n t0 t1) →
           (used = true → exec (.krecv n t0 t1) s = .next (s.emit [(t0, ⟨fault 0x053 0, false⟩), (t1, {})]))
           ∧ (used = false → g.defd = false → exec (.krecv n t0 t1) s = .next (s.emit [(t0, ⟨fault 0x052 0, false⟩), (t1, {})]))
           ∧ (used = false → g.defd = true → (∀ y ∈ s.fir.blk.slots.take s.fir.blk.cur, ∀ a b, wordInstr y ≠ some (.krecv n a b)) →
               (∀ f ∈ s.ctx.firs, ∀ z ∈ f.blk.effs, ∀ a b, z.ins ≠ .krecv n a b) →
               (g.msgs.all (·.pad) = true → exec (.krecv n t0 t1) s = .next (s.setWait s.fir.blk.cur
                 { on := .recv n, expiry := some x }))
               ∧ (∀ m l, s.dev.upsets = [] → g.msgs.filter (!·.pad) = m :: l → exec (.krecv n t0 t1) s = .next
                   (((u.take u.fir.blk.cur (.krecv n none none)).onCsr fun c => { c with tocnt := 0 }).emit
                     [(t0, ⟨status 0 0 (place m + m.len * 2 ^ 24), false⟩), (t1, ⟨s.winWord (place m), s.winPois (place m)⟩)]))))
       ∧ (s.ctx.logOn = false → s.opA.poison = false → s.deadline s.a = .poll → used = false → g.defd = true →
           g.msgs.all (·.pad) = true → ∀ sl, s.fir.blk.slots[s.fir.blk.cur]? = some sl → decode sl.word = .ok (.krecv n t0 t1) →
           exec (.krecv n t0 t1) s = .next ((s.onCsr fun r => { r with perf := modV r.perf 7 (· + 1) }).emit
             [(t0, ⟨1, false⟩), (t1, {})]))
       ∧ (s.opA.poison = true → exec (.krecv n t0 t1) s = .next (s.slotFault 4 0 3 0))
       ∧ (s.opA.poison = false → s.deadline s.a = .illegal → exec (.krecv n t0 t1) s = .next (s.slotFault 6 0x0C6 s.a 0)))

/-- PACKET_FORWARD moves a message inside a die one step along its row, then along its column, past open kerfs and slot
tables. MESSAGE_ARRIVAL at the tile of the instance in focus, with room in its ring, writes the header word and the
bytes of the body into the ring, enters the message and completes the send of a source of the module; without a
context or without room it is answered with a NACK, which its interface counts as consumed. NACK_ARRIVAL makes an
unexpired send ready for another try after 32, or twice the last interval, up to 1024, and counts it as injected again
(log 66); KSEND_RETRY sends a ripe one again and counts nothing; a closed kerf drops a message, which its sender's
interface counts as written off, and completes its send with KERF; an exchange of a collective is consumed by the copy
engine it reaches (log 56); LOST_NOTICE completes its send with LOST, and the notice of a kerf that has dropped its
message completes it with KERF. A packet that has not arrived, and a send in flight, are left. (R264; R263; R130; R400;
R323; R377; R233; R378) -/
def Obligations.PacketsMoveAndArrive : Prop :=
  ∀ (s : State) (n : Nat) (p : Packet), s.dev.packets[n]? = some p →
    let here : BitVec 24 := (s.tileOf p.pos).module
    let own : Prop := s.ctx.id.present = true ∧ p.ctx = s.ctx.id.uid
    (p.dst ≠ here ++ p.pos → exec (.messageArrival n) s = .next s ∧ exec (.nackArrival n) s = .next s
      ∧ exec (.lostNotice n) s = .next s)
    ∧ (∀ d next, p.dst.toNat / 2 ^ 8 = here.toNat → bitsN p.dst 7 6 = tDie p.pos →
        meshStep p.pos (BitVec.ofNat 8 p.dst.toNat) = some (d, next) →
        (s.tileOf p.pos).slotPass d p.side = true → (s.tileOf p.pos).kerfPass d p.side = true →
        (s.tileOf next).kerfPass (oppositePort d) p.side = true →
        exec (.packetForward n) s = .next (s.onDev fun x => { x with packets := setAt x.packets n { p with pos := next } }))
    ∧ (tX p.pos < tX (BitVec.ofNat 8 p.dst.toNat) → meshStep p.pos (BitVec.ofNat 8 p.dst.toNat) = some (1, p.pos + 1))
    ∧ (tX p.pos = tX (BitVec.ofNat 8 p.dst.toNat) → tY p.pos < tY (BitVec.ofNat 8 p.dst.toNat) →
        meshStep p.pos (BitVec.ofNat 8 p.dst.toNat) = some (2, p.pos + 8))
    ∧ (p.kind = .msg → p.dst = here ++ p.pos → (s.dev.slotOf p.job).isSome = true → s.receiver p = none →
        ∃ t, exec (.messageArrival n) s = .next t ∧ t.mem = s.mem ∧ t.fir = s.fir ∧ t.ctx = s.ctx
          ∧ t.dev.packets = s.dev.packets.eraseIdx n ++ [{ p with
              kind := .nack, dst := p.srcMod ++ p.src, origin := here ++ p.pos, classB := false, dim := 3, body := [], bpois := [] }]
          ∧ t.netCnt p.pos p.job = (s.netCnt p.pos p.job).consume)
    ∧ (p.kind = .coll → p.dst = here ++ p.pos → (s.dev.slotOf p.job).isSome = true →
        ∃ t, exec (.messageArrival n) s = .next t ∧ t.mem = s.mem ∧ t.fir = s.fir ∧ t.ctx = s.ctx
          ∧ t.dev.packets = s.dev.packets.eraseIdx n ∧ t.copCnt p.pos p.job = (s.copCnt p.pos p.job).consume
          ∧ ∀ c ∈ t.dev.colls, ∀ y ∈ c.parts, y.out ≠ some p.send)
    ∧ (∀ d next x, p.kind = .msg → p.dst.toNat / 2 ^ 8 = here.toNat → bitsN p.dst 7 6 = tDie p.pos → p.srcMod = here → own →
        p.dst ≠ here ++ p.pos → meshStep p.pos (BitVec.ofNat 8 p.dst.toNat) = some (d, next) →
        (s.tileOf p.pos).slotPass d p.side = true → (s.tileOf p.pos).kerfPass d p.side = false →
        s.ctx.sends = [x] → x.id = p.send → (s.dev.slotOf p.job).isSome = true →
        ∃ t, exec (.packetForward n) s = .next t ∧ t.dev.packets = s.dev.packets.eraseIdx n ∧ t.ctx.sends = []
          ∧ t.mem = s.mem ∧ t.fir = s.fir ∧ t.netCnt p.src p.job = (s.netCnt p.src p.job).lose
          ∧ ∃ r, t.ctx.sync.evqHeld = s.ctx.sync.evqHeld ++ [r] ∧ r.status = fault 0x085 0)
    ∧ (∀ line r, p.kind = .msg → p.dst = here ++ p.pos → (s.dev.slotOf p.job).isSome = true → s.receiver p = some s.ctx →
        (own ∨ p.srcMod ≠ here) → s.ctx.logOn = false → s.ctx.id.present = true → s.mem.wf = true → p.body.length ≤ 256 →
        (s.ctx.rings.getD p.ring.toNat {}).accept (msgLines p.body.length) p.sinst p.body.length = some (line, none, r) →
        r.base % 64 = 0 → r.base + 64 * r.size ≤ s.ctx.winSize → s.ctx.id.row + 2 ^ (9 + s.ctx.id.wlog.toNat) ≤ 4096 →
        (∀ o, s.winPois o = false) →
        ∃ t, exec (.messageArrival n) s = .next t ∧ t.fir = s.fir ∧ t.ctx.rings.getD p.ring.toNat {} = r
          ∧ (∃ l, r.msgs = l ++ [{ line := line, lines := msgLines p.body.length, sinst := p.sinst, len := p.body.length }])
          ∧ t.winWord (ringByte r line 0) = BitVec.ofNat 64 (p.sinst.toNat * 2 ^ 32 + p.sseq.toNat * 2 ^ 16 + p.body.length)
          ∧ (∀ i, i < p.body.length → t.mem.byte (s.ctx.winKey (ringByte r line (8 + i))) = p.body.getD i 0)
          ∧ (own → p.srcMod = here → ∀ x, s.ctx.sends = [x] → x.id = p.send → x.wantRec = false → t.ctx.sends = []))
    ∧ (p.kind = .nack → p.dst = here ++ p.pos → own → ∀ x, s.ctx.sends = [x] → x.id = p.send → x.expired s.ctx = false →
        let v := if x.interval = 0 then 32 else Nat.min (2 * x.interval) 1024
        ∃ t, exec (.nackArrival n) s = .next t ∧ t.dev.packets = s.dev.packets.eraseIdx n ∧ t.mem = s.mem ∧ t.fir = s.fir
          ∧ t.ctx.sends = [{ x with flying := false, interval := v, retryAt := some (s.ctx.csr.budget.toNat + v) }]
          ∧ ((s.dev.slotOf s.ctx.id.job).isSome = true →
              t.netCnt s.ctx.id.tile s.ctx.id.job = (s.netCnt s.ctx.id.tile s.ctx.id.job).inject))
    ∧ (∀ m x, s.ctx.sends[m]? = some x → x.flying = true → exec (.ksendRetry m) s = .next s)
    ∧ (∀ x c, s.dev.upsets = [] → s.ctx.sends = [x] → x.flying = false → x.lost = none → x.retryAt = some c → c ≤ s.ctx.csr.budget.toNat →
        x.dinst.toNat < s.instances → (s.placementEntry s.ctx.id.job x.dinst.toNat).getLsbD 63 = true →
        ∃ t q, exec (.ksendRetry 0) s = .next t ∧ t.dev.packets = s.dev.packets ++ [q] ∧ q.body = x.body ∧ q.dinst = x.dinst
          ∧ q.sseq = x.sseq ∧ q.ring = x.ring ∧ t.mem = s.mem
          ∧ t.ctx.sends = [{ x with
              flying := true, retryAt := none
              away := bitsN (s.placementEntry s.ctx.id.job x.dinst.toNat) 31 8 ≠ s.tile.module.toNat }]
          ∧ t.netCnt s.ctx.id.tile s.ctx.id.job = s.netCnt s.ctx.id.tile s.ctx.id.job)
    ∧ (p.kind = .lost → p.dst = here ++ p.pos → own → ∀ x, s.ctx.sends = [x] → x.id = p.send →
        ∃ t, exec (.lostNotice n) s = .next t ∧ t.ctx.sends = [] ∧ t.mem = s.mem ∧ t.fir = s.fir
          ∧ ∃ r, t.ctx.sync.evqHeld = s.ctx.sync.evqHeld ++ [r] ∧ r.status = fault 0x084 0)
    ∧ (p.kind = .kerf → p.dst = here ++ p.pos → own → ∀ x, s.ctx.sends = [x] → x.id = p.send →
        ∃ t, exec (.messageArrival n) s = .next t ∧ t.ctx.sends = [] ∧ t.mem = s.mem ∧ t.fir = s.fir
          ∧ ∃ r, t.ctx.sync.evqHeld = s.ctx.sync.evqHeld ++ [r] ∧ r.status = fault 0x085 0)

/-- With a legal unpoisoned deadline that gives expiry point x and legal operands WAITF, KWAIT, KEVQ, LD of the host
space, JOIN and FENCE return at once when their condition holds, clear TOCNT on OK and deliver their tokens: the
status with F, the record, the slot's value, the status of the child, the drained mask; else the slot waits with
expiry x and nothing else changes but the close that a fixed-order FENCE hands over; that it is handed over at issue is the model's
choice (log 35). A FENCE waits for what its scope and WHICH name. KEVQ, LD and JOIN note what they take for commit; KEVQ and
LD take the first that no other has taken. A poisoned or illegal deadline, poisoned operands (the use numbers are the model's
choice, log 65) and illegal operands are their traps; JOIN of a handle that is not open is FAULT NOHANDLE. As POLL each
returns at once too when its condition does not hold: TIMEOUT, a FENCE that has drained some of its classes PARTIAL with
those; TOCNT stays. (R111; R115; R117; R118; R277; R262; R231; R282; R100; R101; R107; R275) -/
def Obligations.WaitsReturnOrPend : Prop :=
  ∀ (s : State) (c : FlagCond) (sc : Scope) (x : Nat) (sl : Slot) (t0 t1 : Cons),
    let k := s.fir.blk.cur
    let pend (u : State) (on : Await) : Host.Outcome State Fault Refusal := .next (u.setWait k { on := on, expiry := some x })
    let ret (u : State) (v w : Token) : Host.Outcome State Fault Refusal :=
      .next ((u.onCsr fun c => { c with tocnt := 0 }).emit [(t0, v), (t1, w)])
    let late (v w : Token) : Host.Outcome State Fault Refusal :=
      .next ((s.onCsr fun r => { r with perf := modV r.perf 7 (· + 1) }).emit [(t0, v), (t1, w)])
    let stop (u : Nat) : Host.Outcome State Fault Refusal := .next (s.slotFault 4 0 (BitVec.ofNat 64 u) 0)
    s.ctx.logOn = false → s.fir.blk.slots[k]? = some sl →
    (decode sl.word = .ok (.waitf c t0 t1) →
      (s.opA.poison = true → exec (.waitf c t0 t1) s = .next (s.slotFault 4 0 7 0))
      ∧ (s.opA.poison = false → s.opB.poison = true → exec (.waitf c t0 t1) s = .next (s.slotFault 4 0 3 0))
      ∧ (s.pAB = false → s.deadline s.b = .illegal → exec (.waitf c t0 t1) s = .next (s.slotFault 6 0x0C6 s.b 0))
      ∧ (s.pAB = false → s.deadline s.b = .at x → 2 ^ 32 ≤ s.a.toNat →
          exec (.waitf c t0 t1) s = .next (s.slotFault 6 0x030 s.a 0))
      ∧ (s.pAB = false → s.a.toNat < 2 ^ 32 →
          (flagHolds c s.fir.flags s.aw = true → s.deadline s.b ≠ .illegal → exec (.waitf c t0 t1) s
            = ret s ⟨status 0 0 s.fir.flags.toNat, false⟩ ⟨status 0 0 s.fir.flags.toNat, false⟩)
          ∧ (flagHolds c s.fir.flags s.aw = false →
            (s.deadline s.b = .at x → exec (.waitf c t0 t1) s = pend s (.flag c s.aw))
            ∧ (s.deadline s.b = .poll → exec (.waitf c t0 t1) s
                = late ⟨status 1 0 s.fir.flags.toNat, false⟩ ⟨status 1 0 s.fir.flags.toNat, false⟩))))
    ∧ (decode sl.word = .ok (.kwait t0 t1) →
        (s.opB.poison = true → exec (.kwait t0 t1) s = stop 7)
        ∧ (s.opB.poison = false → s.opA.poison = true → s.b.toNat < 128 → exec (.kwait t0 t1) s = stop 3)
        ∧ (s.pAB = false → s.deadline s.a = .poll → s.b.toNat < 128 → (∀ r ∈ s.ctx.sync.evq, bitsN r.info 49 43 ≠ s.b.toNat) →
            exec (.kwait t0 t1) s = late ⟨1, false⟩ {}))
    ∧ (decode sl.word = .ok (.kwait t0 t1) → s.pAB = false → s.deadline s.a = .at x →
        (128 ≤ s.b.toNat → exec (.kwait t0 t1) s = .next (s.slotFault 6 0x030 s.b 0))
        ∧ (s.b.toNat < 128 →
          (∀ r, s.ctx.sync.evq.find? (fun r => bitsN r.info 49 43 == s.b.toNat) = some r →
            exec (.kwait t0 t1) s = ret s ⟨r.status, false⟩ ⟨r.info, false⟩)
          ∧ ((∀ r ∈ s.ctx.sync.evq, bitsN r.info 49 43 ≠ s.b.toNat) → exec (.kwait t0 t1) s = pend s (.kwait (s.b.setWidth 7)))))
    ∧ (decode sl.word = .ok (.kevq t0 t1) →
        (s.opA.poison = true → exec (.kevq t0 t1) s = stop 3)
        ∧ (s.opA.poison = false → s.deadline s.a = .poll → s.ctx.sync.evq = [] → exec (.kevq t0 t1) s = late ⟨1, false⟩ {}))
    ∧ (decode sl.word = .ok (.kevq t0 t1) → s.opA.poison = false → s.deadline s.a = .at x →
        (∀ y ∈ s.fir.blk.slots.take k, ∀ a b, wordInstr y ≠ some (.kevq a b)) →
        (∀ z ∈ s.fir.blk.effs ++ s.ctx.firs.flatMap (·.blk.effs), ∀ a b, z.ins ≠ .kevq a b) →
        (s.ctx.sync.evq = [] → exec (.kevq t0 t1) s = pend s .kevq)
        ∧ (∀ r l, s.ctx.sync.evq = r :: l → exec (.kevq t0 t1) s
            = ret (s.take k (.kevq none none) [r.info]) ⟨r.status, false⟩ ⟨r.info, false⟩))
    ∧ (∀ sx sz, decode sl.word = .ok (.ld .host sx sz t0 t1) →
        (s.opA.poison = true → exec (.ld .host sx sz t0 t1) s = stop 0)
        ∧ (s.opA.poison = false → s.a.toNat < 64 → s.hostGiven (s.a.setWidth 6) 1 = true →
          (s.opB.poison = true → exec (.ld .host sx sz t0 t1) s = stop 3)
          ∧ (s.opB.poison = false → s.deadline s.b = .poll → (s.dev.hch.getD s.a.toNat {}).ready = [] →
              exec (.ld .host sx sz t0 t1) s = late {} ⟨1, false⟩)))
    ∧ (∀ sx sz, decode sl.word = .ok (.ld .host sx sz t0 t1) → s.pAB = false → s.deadline s.b = .at x →
        (64 ≤ s.a.toNat → exec (.ld .host sx sz t0 t1) s = .next (s.slotFault 6 0x030 s.a 0))
        ∧ (s.a.toNat < 64 → s.hostGiven (s.a.setWidth 6) 1 = false →
            exec (.ld .host sx sz t0 t1) s = .next (s.slotFault 5 dCHAN s.a 0))
        ∧ (s.a.toNat < 64 → s.hostGiven (s.a.setWidth 6) 1 = true →
            (∀ y ∈ s.fir.blk.slots.take k, ∀ a b d f, wordInstr y ≠ some (.ld .host a b d f)) →
            (∀ z ∈ s.fir.blk.effs ++ s.ctx.firs.flatMap (·.blk.effs), ∀ a b d f, z.ins ≠ .ld .host a b d f) →
            ((s.dev.hch.getD s.a.toNat {}).ready = [] → exec (.ld .host sx sz t0 t1) s = pend s (.host (s.a.setWidth 6)))
            ∧ (∀ v w l, (s.dev.hch.getD s.a.toNat {}).ready = (v, w) :: l → bitsN w 2 0 = 0 → exec (.ld .host sx sz t0 t1) s
                = ret (s.take k (.ld .host false .s8 none none) [s.a, BitVec.ofNat 64 (s.dev.hch.getD s.a.toNat {}).gen])
                  ⟨v, false⟩ ⟨0, false⟩)))
    ∧ (decode sl.word = .ok (.join t0 t1) →
        (s.opA.poison = true → exec (.join t0 t1) s = stop 7)
        ∧ (s.opA.poison = false → s.opB.poison = true → exec (.join t0 t1) s = stop 3)
        ∧ (s.pAB = false → s.deadline s.b = .poll → s.a.toNat < 64 → (s.ctx.sync.children.getD s.a.toNat {}).isOpen = true →
            s.childStatus (s.ctx.sync.children.getD s.a.toNat {}) = none → exec (.join t0 t1) s = late ⟨1, false⟩ ⟨1, false⟩))
    ∧ (decode sl.word = .ok (.join t0 t1) → s.pAB = false → s.deadline s.b = .at x →
        let h := s.ctx.sync.children.getD s.a.toNat {}
        (64 ≤ s.a.toNat → exec (.join t0 t1) s = .next (s.slotFault 6 0x030 s.a 0))
        ∧ (s.a.toNat < 64 →
          (h.isOpen = false → exec (.join t0 t1) s = .next (s.emit
            [(t0, ⟨fault 0x090 s.a.toNat, false⟩), (t1, ⟨fault 0x090 s.a.toNat, false⟩)]))
          ∧ (h.isOpen = true → s.childStatus h = none → exec (.join t0 t1) s = pend s (.join (s.a.setWidth 6)))
          ∧ (∀ st, h.isOpen = true → s.childStatus h = some st → codeOf st = 0 →
              exec (.join t0 t1) s = ret (s.take k (.join none none) [s.a]) ⟨st, false⟩ ⟨st, false⟩)
          ∧ (∀ st, h.isOpen = true → s.childStatus h = some st → codeOf st = 5 →
              exec (.join t0 t1) s = .next (s.emit [(t0, ⟨st, false⟩), (t1, ⟨st, false⟩)]))))
    ∧ (decode sl.word = .ok (.fence sc t0 t1) → s.who = .core →
        (s.opA.poison = true → exec (.fence sc t0 t1) s = stop 7)
        ∧ (s.opA.poison = false → s.opB.poison = true → exec (.fence sc t0 t1) s = stop 3))
    ∧ (decode sl.word = .ok (.fence sc t0 t1) → s.who = .core → s.pAB = false → s.deadline s.b ≠ .illegal →
        (fenceOk sc s.a = false → exec (.fence sc t0 t1) s = .next (s.slotFault 6 0x030 s.a 0))
        ∧ (fenceOk sc s.a = true →
          let m : BitVec 6 := s.a.setWidth 6
          let close := m.getLsbD 4 && (s.fixedSeen || hdrFix s.fir.blk.hdr)
          let u := if close then s.onCtx fun c => { c with
              lq := c.lq ++ [{ slot := k, ins := .fence sc none none, a := s.opA, ser := s.ctx.ser, fir := s.fir.id
                               blk := s.fir.blk.addr }] } else s
          let f : FenceAt := ⟨BitVec.ofNat 4 sc.enc, bitsN s.a 16 8,
            (s.ctx.streams.toList.zip (List.range 32)).filterMap fun y => y.1.hold.map fun _ => (y.2, y.1.k), close⟩
          let on : Await := .fence m s.ctx.ser s.dev.nextUpd f
          let w := u.setWait k { on := on, expiry := match s.deadline s.b with | .at x => some x | _ => none
                                 poll := decide (s.deadline s.b = .poll) }
          let d := w.drainedMask m s.ctx.ser s.dev.nextUpd f
          (d ≠ m.toNat → s.deadline s.b = .at x → exec (.fence sc t0 t1) s = pend u on)
          ∧ (d ≠ m.toNat → s.deadline s.b = .poll → exec (.fence sc t0 t1) s = if d = 0
              then .next ((u.onCsr fun r => { r with perf := modV r.perf 7 (· + 1) }).emit [(t0, ⟨1, false⟩), (t1, ⟨1, false⟩)])
              else .next (u.emit [(t0, ⟨status 4 0 d, false⟩), (t1, ⟨status 4 0 d, false⟩)]))
          ∧ (d = m.toNat → exec (.fence sc t0 t1) s = ret u ⟨status 0 0 m.toNat, false⟩ ⟨status 0 0 m.toNat, false⟩)))

/-- For a block without faults whose one pending wait is in slot k: WAIT_EVALUATION changes nothing while the condition of
a WAITF does not hold and returns OK with F, clearing TOCNT, when it does. DEADLINE_EXPIRY changes no firing, register
or byte before the expiry point; 16 cycles after it a WAITF returns TIMEOUT with F and TOCNT grows by one, unless ESCN
is reached: then it returns ESCALATED with the replaced code, TOCNT is cleared and the freeze is noted for the end of
the block; a wait on a barrier asks its home to withdraw the arrival; a FENCE with some but not all classes drained
returns PARTIAL and leaves TOCNT. (R115; R117; R118; R119; R101; R126; R277; R125) -/
def Obligations.WaitsEndByConditionOrDeadline : Prop :=
  ∀ (s : State) (k x : Nat) (w : Wait) (sl : Slot) (t0 t1 : Cons),
    s.fir.phase = .run → s.runs = true → s.fir.blk.faulted = false → s.ctx.logOn = false →
    s.fir.blk.slots[k]? = some sl → sl.wait = some w → w.expiry = some x → w.poll = false →
    (∀ i y, s.fir.blk.slots[i]? = some y → i ≠ k → y.wait = none) →
    let n := bitsN s.ctx.csr.tocnt 15 0
    let thr := s.escn
    let op : BitVec 6 := BitVec.ofNat 6 (fOp sl.word)
    let both (u : State) (st : Word) : Host.Outcome State Fault Refusal :=
      .next (u.emitAt k [(t0, some ⟨st, false⟩), (t1, some ⟨st, false⟩)])
    (∀ c m, w.on = .flag c m → decode sl.word = .ok (.waitf c t0 t1) →
      (flagHolds c s.fir.flags m = false → exec .waitEvaluation s = .next s)
      ∧ (flagHolds c s.fir.flags m = true →
          exec .waitEvaluation s = both (s.onCsr fun r => { r with tocnt := 0 }) (status 0 0 s.fir.flags.toNat))
      ∧ (x + 16 ≤ s.ctx.csr.budget.toNat → flagHolds c s.fir.flags m = false →
          (thr = 0 ∨ n + 1 < thr → exec .deadlineExpiry s = both (s.onCsr fun r => { r with
              tocnt := BitVec.ofNat 64 (Nat.min (n + 1) 65535), perf := modV r.perf 7 (· + 1) })
              (status 1 0 s.fir.flags.toNat))
          ∧ (thr ≠ 0 → thr ≤ n + 1 → exec .deadlineExpiry s = both ((s.onCsr fun r => { r with tocnt := 0 }).onBlk fun b => { b with
              esc := b.esc ++ [(1, s.fir.flags.setWidth 64, 0, op)] }) (status 10 1 s.fir.flags.toNat))))
    ∧ (s.ctx.csr.budget.toNat < x → ∃ t, exec .deadlineExpiry s = .next t ∧ t.fir = s.fir ∧ t.mem = s.mem
        ∧ t = s.onCtx fun c => { c with sends := t.ctx.sends })
    ∧ (∀ ref key m p, w.on = .barrier ref key m p true → x + 16 ≤ s.ctx.csr.budget.toNat →
        phaseAt s.mem (s.kvOf s.who4 key) key = p → exec .deadlineExpiry s = .next ((s.onDev fun d => { d with
          barQ := d.barQ ++ [{ op := .withdraw p, ref := ref, key := key, m := m, ctx := s.ctx.id.uid, fir := s.fir.id, slot := k
                               keyslot := s.keySeen }] }).setWait k { w with on := .reply key }))
    ∧ (∀ sc m ser upd f, w.on = .fence m ser upd f → decode sl.word = .ok (.fence sc t0 t1) → x + 16 ≤ s.ctx.csr.budget.toNat →
        s.drainedMask m ser upd f ≠ m.toNat → s.drainedMask m ser upd f ≠ 0 →
        exec .deadlineExpiry s = both s (status 4 0 (s.drainedMask m ser upd f)))

/-- BARA, BARD, BARAW, BARW and BART with an unpoisoned reference to an object of memory send their operation to its home
and await the answer, BARAW and BARW up to their expiry point; an arrival that the table has no room for returns FULL;
bit 63 is RANGE and a fault of the place the access fault. BARI is held, and applied asks the home to initialise. At
the head of the queue of the homes an arrival of a member of a sound object that has not arrived is noted in ARRIVED
and DROPS, the last one clears both, drops the leavers and adds one to the phase, and the answer is OK with the phase
it met; one of no member or a second one is over-arrival; BARI writes its object or is refused while members have
arrived; BART and BARW are answered with the phase; a withdrawal in the same phase takes the member back and answers
WITHDRAWN, in a later one LATE. The answer of an arrival returns OK to BARA and enters the arrival table. What is
written is what is read back. (R273; R274; R121; R122; R123; R124; R125; R126; R127) -/
def Obligations.BarrierFormsAndHome : Prop :=
  ∀ (s : State) (sc : Scope) (x key : Nat) (u : State) (t0 t1 : Cons),
    (s.opA.poison = false → s.a.getLsbD 63 = false →
      let ask (op : BarOp) (v : State) : State := v.onDev fun d => { d with
        barQ := d.barQ ++ [{ op := op, ref := s.a, key := key, m := refM s.a, ctx := s.ctx.id.uid, fir := s.fir.id
                             slot := s.fir.blk.cur, keyslot := v.keySeen }] }
      let await (e : Option Nat) (v : State) : Host.Outcome State Fault Refusal :=
        .next (v.setWait s.fir.blk.cur { on := .reply key, expiry := e })
      let deadline : Prop := s.opB.poison = false ∧ s.deadline s.b = .at x
      (s.barPlace s.a .wr = (.ok key, u) →
        (u.arrRoom s.a = true → exec (.bara t0 t1) s = await none (ask (.arrive false) u)
          ∧ exec (.bard t0 t1) s = await none (ask (.arrive true) u)
          ∧ (deadline → exec (.baraw t0 t1) s = await (some x) (ask (.arrive false) u)))
        ∧ (u.arrRoom s.a = false → u.ctx.logOn = false → ∀ sl, u.fir.blk.slots[u.fir.blk.cur]? = some sl →
            decode sl.word = .ok (.bara t0 t1) →
            exec (.bara t0 t1) s = .next (u.emit [(t0, ⟨7, false⟩), (t1, ⟨7, false⟩)])))
      ∧ (s.barPlace s.a .rd = (.ok key, u) →
          (deadline → exec (.barw t0 t1) s = await (some x) (ask .sample u))
          ∧ (refM s.a = 0 → exec (.bart t0 t1) s = await none (ask .read u)))
      ∧ (∀ d, s.barPlace s.a .wr = (.error d, u) →
          exec (.bara t0 t1) s = .next (u.slotFault 5 d (BitVec.ofNat 64 (bitsN s.a 55 0)) 1))
      ∧ (s.who = .core → s.opB.poison = false → refM s.a = 0 → s.barPlace s.a .wr = (.ok key, u) →
          exec (.bari sc) s = .next ((u.hold { slot := 0, ins := .bari sc, a := s.opA, b := s.opB, locs := [.mem key]
                                               keyslot := u.keySeen }).emit [])))
    ∧ (s.opA.poison = true → exec (.bara t0 t1) s = .next (s.slotFault 4 0 0 0) ∧ exec (.bard t0 t1) s = .next (s.slotFault 4 0 0 0)
        ∧ exec (.bart t0 t1) s = .next (s.slotFault 4 0 0 0))
    ∧ (s.opA.poison = false → s.a.getLsbD 63 = true → exec (.bara t0 t1) s = .next (s.slotFault 6 0x030 s.a 0))
    ∧ (∀ e, s.who = .cmd e → e.ins = .bari sc → e.locs = [.mem key] → exec (.bari sc) s = .next ((s.unqueue e).onDev fun d => { d with
        barQ := d.barQ ++ [{ op := .init e.b.val (BitVec.ofNat 4 sc.enc) (refWin e.a.val), ref := e.a.val, key := key, m := 0
                             ctx := s.ctx.id.uid, fir := 0, slot := e.slot, keyslot := e.keyslot }] }))
    ∧ (s.dev.barQ = [] → exec .barrierArrival s = .next s ∧ exec .barrierWithdrawal s = .next s)
    ∧ (∀ r l, s.dev.barQ = r :: l → s.dev.upsets = [] → s.ctx.id.present = true → r.ctx = s.ctx.id.uid → r.fir = s.fir.id →
        let kv := s.dev.keyAt r.keyslot.toNat r.key
        let b := s.mem.bar kv r.key
        let popped := s.onDev fun d => { d with barQ := l }
        let answer (v : State) (st : Word) : State := v.onSync fun y => { y with replies := y.replies ++ [(r.fir, r.slot, st)] }
        let bit : Word := (1 : Word) <<< r.m.toNat
        (∀ drop, r.op = .arrive drop →
          (b.bad (refWin r.ref) = true → exec .barrierArrival s = .next (answer popped (fault 0x011 0)))
          ∧ (b.bad (refWin r.ref) = false →
            (b.live.getLsbD r.m.toNat = false ∨ b.arr.getLsbD r.m.toNat = true →
              exec .barrierArrival s = .next (answer popped 15))
            ∧ (b.live.getLsbD r.m.toNat = true → b.arr.getLsbD r.m.toNat = false →
              let drops := if drop then b.drops ||| bit else b.drops
              let new : BarObj := if b.arr ||| bit = b.live then
                  { live := b.live &&& ~~~drops, arr := 0, drops := 0
                    w3 := BitVec.ofNat 64 ((b.phase + 1).toNat * 2 ^ 32 + bitsN b.w3 31 0) }
                else { live := b.live, arr := b.arr ||| bit, drops := drops, w3 := b.w3 }
              exec .barrierArrival s = .next ((answer (popped.onMem fun m => m.putBar kv r.key new)
                (status 0 0 b.phase.toNat)).onBlk fun k => { k with arrived := k.arrived ++ [(r.slot, r.ref, r.key, b.phase)] }))))
        ∧ (∀ live n win, r.op = .init live n win →
            (b.arr ≠ 0 → exec .barrierArrival s = .next (popped.onSync fun y => { y with
              evqHeld := y.evqHeld ++ [⟨fault 0x010 0, recInfo 6 0 n.toNat 0 0, none, {}⟩] }))
            ∧ (b.arr = 0 → 4 ≤ n.toNat → n.toNat ≤ 7 → (win = true → n = 4) → exec .barrierArrival s
                = .next (popped.onMem fun m => m.putBar kv r.key { live := live, arr := 0, drops := 0
                                                                   w3 := BitVec.ofNat 64 (n.toNat * 16) })))
        ∧ (r.op = .sample → b.bad (refWin r.ref) = false →
            exec .barrierArrival s = .next (answer popped (status 0 0 b.phase.toNat)))
        ∧ (r.op = .read → b.bad (refWin r.ref) = false → ∃ st, exec .barrierArrival s = .next (answer popped st)
            ∧ codeOf st = 0 ∧ bitsN st 47 16 = b.phase.toNat)
        ∧ (∀ p, r.op = .withdraw p → b.bad (refWin r.ref) = false →
            (b.phase = p → ∃ t, exec .barrierWithdrawal s = .next t
              ∧ t.mem = s.mem.putBar kv r.key { b with arr := b.arr &&& ~~~bit, drops := b.drops &&& ~~~bit }
              ∧ t.ctx.sync.replies = s.ctx.sync.replies ++ [(r.fir, r.slot, status 2 0 p.toNat)])
            ∧ (b.phase ≠ p → ∃ t, exec .barrierWithdrawal s = .next t ∧ t.mem = s.mem
              ∧ t.ctx.sync.replies = s.ctx.sync.replies ++ [(r.fir, r.slot, status 3 0 b.phase.toNat)])))
    ∧ (∀ (m : Memory) (kv : Option (BitVec 512)) (k : Nat) (b : BarObj), m.wf = true → k % 32 = 0 →
        (m.putBar kv k b).bar kv k = { b with pois := false })
    ∧ (∀ k sl p l, s.fir.phase = .run → s.runs = true → s.fir.blk.faulted = false → s.ctx.logOn = false →
        s.fir.blk.slots[k]? = some sl → sl.wait = some { on := .reply key, expiry := none } →
        (∀ i y, s.fir.blk.slots[i]? = some y → i ≠ k → y.wait = none) → decode sl.word = .ok (.bara t0 t1) →
        s.ctx.sync.replies = (s.fir.id, k, status 0 0 p) :: l → p < 2 ^ 32 →
        exec .waitEvaluation s = .next ((s.onSync fun y => { y with
          replies := l
          arr := y.arr.filter (·.ref != (sl.a.getD {}).val) ++ [⟨(sl.a.getD {}).val, refM (sl.a.getD {}).val,
            BitVec.ofNat 32 p⟩] }).emitAt k [(t0, some ⟨status 0 0 p, false⟩), (t1, some ⟨status 0 0 p, false⟩)]))

/-- DPUT and DGET are held with legal operands. The first of its FIFO starts with its POP; started, DPUT adds one token
when the FIFO holds fewer than 16 and completes, DGET takes one when there is one and completes; with none at its
expiry point it completes TIMEOUT; one behind another of its FIFO, and a DPUT at a full FIFO, wait, and after DCEIL
cycles the DPUT completes FULL. The oldest push to a FIFO with room is delivered, and the oldest record enters EVQ
with its number when that holds fewer than 256, and its operation's push follows. SETF and CLRF of a mask below 2^32 are held, and set or clear its bits
in F, with ALL in every firing of the context, or in the firings it was handed over with; poison is POISON with use 6, the model's choice (log 65). (R27; R28; R276; R277;
R278; R261; R207; R209; R117) -/
def Obligations.FifosFlagsAndEventQueue : Prop :=
  ∀ (s : State) (q : BitVec 3) (all : Bool) (e : Eff) (l : List Eff) (x : Nat),
    let n := s.ctx.sync.q.getD q.toNat 0
    let now := s.ctx.csr.budget.toNat
    let info (i : Instr) : Word := recInfo (fCls (encode i)) (fOp (encode i)) (fMod (encode i)).toNat (cwTag e.cw) 0
    let done (i : Instr) (m : Nat) (st : Word) (always : Bool) : State := s.onSync fun y => { y with
      q := setV y.q q.toNat m, fifo := l
      evqHeld := y.evqHeld ++ (if cwRec e.cw || always then
          [⟨st, info i, if cwPush e.cw then some (BitVec.ofNat 3 (cwQpush e.cw)) else none, {}⟩] else [])
      pushes := y.pushes ++ (if !(cwRec e.cw || always) && cwPush e.cw then [⟨BitVec.ofNat 3 (cwQpush e.cw), {}⟩] else []) }
    (s.who = .core → s.opB.poison = false → bitsN s.b 47 0 = 0 → exec (.dput q) s = .next (s.heldFor (.dput q) []))
    ∧ (s.who = .core → s.pAB = false → s.deadline s.a = .at x → bitsN s.b 47 0 = 0 →
        exec (.dget q) s = .next (s.heldFor (.dget q) []))
    ∧ (s.who = .core → s.opB.poison = false → bitsN s.b 47 0 ≠ 0 → exec (.dput q) s = .next (s.slotFault 6 0x030 s.b 0))
    ∧ (s.who = .core → s.opB.poison = true → exec (.dput q) s = .next (s.slotFault 4 0 7 0)
        ∧ exec (.dget q) s = .next (s.slotFault 4 0 7 0))
    ∧ (∀ i, i = .dput q ∨ i = .dget q → s.who = .cmd e → e.ins = i → s.ctx.sync.fifo = e :: l → e.started = false →
        cwPop e.cw = false → exec i s = .next (s.onSync fun y => { y with
          fifo := { e with started := true, since := some now } :: l }))
    ∧ (s.who = .cmd e → e.ins = .dput q → s.ctx.sync.fifo = e :: l → e.started = true →
        (n < 16 → exec (.dput q) s = .next (done (.dput q) (n + 1) 0 false))
        ∧ (16 ≤ n → exec (.dput q) s = .next s)
        ∧ (∀ c, 16 ≤ n → e.since = some c → c + s.ctx.csr.dceil.toNat ≤ now →
            exec (.dputCeilingTimeout q) s = .next (done (.dput q) n 7 true)))
    ∧ (s.who = .cmd e → e.ins = .dget q → s.ctx.logOn = false → s.ctx.sync.fifo = e :: l → e.started = true →
        (n ≠ 0 → exec (.dget q) s = .next (done (.dget q) (n - 1) 0 false))
        ∧ (∀ w r, n = 0 → e.ws = w :: r → (now < w.toNat → exec (.dget q) s = .next s)
          ∧ (w.toNat ≤ now → exec (.dget q) s = .next (done (.dget q) n 1 true))))
    ∧ (∀ d i, i = .dput q ∨ i = .dget q → s.who = .cmd e → e.ins = i → s.ctx.sync.fifo = d :: e :: l → d ≠ e → effFifo d = q.toNat →
        exec i s = .next s)
    ∧ (∀ o b a, s.ctx.sync.pushes = b ++ ⟨q, o⟩ :: a → (∀ y ∈ b, y.q ≠ q) → n < 16 →
        exec (.dependenceFifoPush q) s = .next (s.onSync fun y => { y with pushes := b ++ a, q := setV y.q q.toNat (n + 1) }))
    ∧ ((∀ y ∈ s.ctx.sync.pushes, y.q ≠ q) ∨ 16 ≤ n → exec (.dependenceFifoPush q) s = .next s)
    ∧ (∀ r k, s.ctx.logOn = false → s.ctx.sync.evqHeld = r :: k → s.ctx.sync.evq.length < 256 →
        exec .evqRecordDelivery s = .next (s.onSync fun y => { y with
          evqHeld := k, seq := y.seq + 1, pushes := y.pushes ++ r.push.toList.map fun q => ⟨q, r.origin⟩
          evq := y.evq ++ [{ r with info := BitVec.ofNat 64 (r.info.toNat + s.ctx.sync.seq % 2 ^ 32), push := none }] }))
    ∧ ((256 ≤ s.ctx.sync.evq.length ∨ s.ctx.sync.evqHeld = []) → exec .evqRecordDelivery s = .next s)
    ∧ (s.who = .core → ∀ i, i = .setf all ∨ i = .clrf all →
        (s.opA.poison = true → exec i s = .next (s.slotFault 4 0 6 0))
        ∧ (s.opA.poison = false → 2 ^ 32 ≤ s.a.toNat → exec i s = .next (s.slotFault 6 0x030 s.a 0))
        ∧ (s.opA.poison = false → s.a.toNat < 2 ^ 32 → exec i s = .next (s.heldFor i [])))
    ∧ (let ids : List Nat := if e.ws = [] then (if all then s.firings.map (·.id) else [s.fir.id]) else e.ws.map (·.toNat)
       let set (f : Half → Half) : State :=
         let u := s.unqueue e
         let one (r : Firing) : Firing := { r with flags := if r.id ∈ ids then f r.flags else r.flags }
         { u with fir := one u.fir, ctx := { u.ctx with firs := u.ctx.firs.map one } }
       s.who = .cmd e → (∀ y ∈ s.ctx.susp, y.id ∈ ids → y.retired = true) →
         (e.ins = .setf all → exec (.setf all) s = .next (set fun f => f ||| e.a.val.setWidth 32))
         ∧ (e.ins = .clrf all → exec (.clrf all) s = .next (set fun f => f &&& ~~~(e.a.val.setWidth 32))))

/-- QWAIT of a job that the context may name and that has a slot sends its request and waits up to its expiry point; a
foreign job without supervisor rights is NOPERM, a job without a slot NOJOB, both at once; QSTAT answers a counter
word of the interface, 0 for those jobs, and changes nothing. A request reaches the root; a wave starts when one
waits here, or may wait in another module of the partition (log 5), none is in progress and the period has passed: pass 1 takes the
sums of every interface, with what the other modules answer, which is free (log 5), and clears ACT. The
decision answers a request counted by the wave OK with INJ when both sums agree, INJ is CON plus WOFF and no interface
has been active, LOSS with WOFF when messages were written off, and keeps it waiting otherwise. A clearing wave zeroes
the counters of a freed slot at every interface once a launch or a restore waits for one. (R279; R280; R128; R129; R132; R133; R134; R131) -/
def Obligations.QuietWavesCountMessages : Prop :=
  ∀ (s : State) (f : QIface) (w : QWord) (x : Nat) (sl : Slot) (t0 t1 : Cons),
    let own := s.a.getLsbD 16
    let job : BitVec 16 := if own then s.ctx.id.job else s.a.setWidth 16
    let legal : Prop := bitsN s.a 63 17 = 0 ∧ (own = true → bitsN s.a 15 0 = 0)
    let both (st : Word) : Host.Outcome State Fault Refusal := .next (s.emit [(t0, ⟨st, false⟩), (t1, ⟨st, false⟩)])
    (s.opA.poison = true → exec (.qwait t0 t1) s = .next (s.slotFault 4 0 7 0)
      ∧ exec (.qstat f w t0 t1) s = .next (s.slotFault 4 0 7 0))
    ∧ (s.pAB = false → s.deadline s.b = .at x → ¬legal → exec (.qwait t0 t1) s = .next (s.slotFault 6 0x030 s.a 0)
        ∧ exec (.qstat f w t0 t1) s = .next (s.slotFault 6 0x030 s.a 0))
    ∧ (s.pAB = false → s.deadline s.b = .at x → legal → s.ctx.logOn = false →
        s.fir.blk.slots[s.fir.blk.cur]? = some sl → decode sl.word = .ok (.qwait t0 t1) →
        (s.ctx.id.sup = false → job ≠ s.ctx.id.job → exec (.qwait t0 t1) s = both (fault 0x093 0))
        ∧ ((s.ctx.id.sup = true ∨ job = s.ctx.id.job) →
          (s.dev.slotOf job = none → exec (.qwait t0 t1) s = both (fault 0x092 0))
          ∧ ((s.dev.slotOf job).isSome = true → (∀ r ∈ s.ctx.sync.replies, ¬(r.1 = s.fir.id ∧ r.2.1 = s.fir.blk.cur)) →
              exec (.qwait t0 t1) s = .next ((s.onDev fun d => { d with
                quietReqs := d.quietReqs ++ [{ ctx := s.ctx.id.uid, fir := s.fir.id, slot := s.fir.blk.cur, job := job }] }).setWait
                  s.fir.blk.cur { on := .quiet job, expiry := some x }))))
    ∧ (s.opA.poison = false → legal →
        (((s.ctx.id.sup = false ∧ job ≠ s.ctx.id.job) ∨ s.dev.slotOf job = none) → exec (.qstat f w t0 t1) s = both 0)
        ∧ (∀ j, (s.ctx.id.sup = true ∨ job = s.ctx.id.job) → s.dev.slotOf job = some j →
            let c : Counters := (match f with | .net => s.tile.net | .copy => s.tile.cop).getD j {}
            ∃ v : Word, exec (.qstat f w t0 t1) s = both v ∧ (w = .inj → v.toNat = c.inj % 2 ^ 48)
              ∧ (w = .con → v.toNat = c.con % 2 ^ 48)
              ∧ (w = .woff → bitsN v 31 0 = c.woff % 2 ^ 32 ∧ v.getLsbD 46 = c.act ∧ v.getLsbD 47 = true
                ∧ bitsN v 63 48 = job.toNat)))
    ∧ (s.dev.quietReqs = [] → exec .quietRequest s = .next s)
    ∧ (∀ r l, s.dev.quietReqs = r :: l → exec .quietRequest s = .next (s.onDev fun d => { d with
        quietReqs := l, quietWait := d.quietWait ++ [{ r with counts := false }] }))
    ∧ (((s.dev.quietWait = [] ∧ s.dev.modules ≤ 1) ∨ s.dev.wave.isSome = true ∨ s.waveRipe = false) →
        exec .waveStart s = .next s)
    ∧ ((s.dev.quietWait ≠ [] ∨ 1 < s.dev.modules) → s.dev.wave = none → s.waveRipe = true → ∃ t p, exec .waveStart s = .next t ∧ t.dev.wave = some p
        ∧ t.dev.waveAge = some 0 ∧ t.dev.quietWait = s.dev.quietWait.map (fun r => { r with counts := true })
        ∧ (∀ j, j < 16 → (p.getD j {}) = s.sums j ∧ (s.dev.modules ≤ 1 → (t.sums j).act = false
            ∧ (t.sums j).inj = (s.sums j).inj ∧ (t.sums j).con = (s.sums j).con ∧ (t.sums j).woff = (s.sums j).woff))
        ∧ t.mem = s.mem ∧ t.fir = s.fir ∧ t.ctx = s.ctx)
    ∧ (s.dev.wave = none → exec .quietDecision s = .next s)
    ∧ (∀ p r j, s.dev.wave = some p → s.dev.quietWait = [r] → r.counts = true → s.dev.slotOf r.job = some j → s.ctx.id.present = true →
        r.ctx = s.ctx.id.uid →
        let a := p.getD j {}
        let b := s.sums j
        let quiet : Prop := a.inj = b.inj ∧ a.con = b.con ∧ a.woff = b.woff ∧ b.inj = b.con + b.woff ∧ b.act = false
        ∃ t, exec .quietDecision s = .next t ∧ t.dev.wave = none ∧ t.mem = s.mem ∧ t.fir = s.fir
          ∧ (¬quiet → t.dev.quietWait = [r] ∧ t.ctx = s.ctx)
          ∧ (quiet → t.dev.quietWait = [] ∧ t.ctx.sync.replies = s.ctx.sync.replies ++ [(r.fir, r.slot,
              if b.woff = 0 then status 0 0 (b.inj % 2 ^ 48) else status 9 0 (b.woff % 2 ^ 48))]))
    ∧ (∀ j : BitVec 4, let h := s.dev.jobs.getD j.toNat {}
        (h.active = true ∨ h.dirty = false ∨ s.slotWanted = false → exec (.clearingWave j) s = .next s)
        ∧ (h.active = false → h.dirty = true → s.slotWanted = true → ∃ t, exec (.clearingWave j) s = .next t ∧ t.dev.jobs.getD j.toNat {} = {}
          ∧ (s.dev.modules ≤ 1 → t.sums j.toNat = {}) ∧ (∀ i, i < 16 → i ≠ j.toNat → t.sums i = s.sums i) ∧ t.mem = s.mem ∧ t.ctx = s.ctx ∧ t.fir = s.fir))

/-- SPAWN of an unpoisoned aligned address below 2^56 reserves the lowest handle that is not open, notes it with its block
and answers OK with the handle, or answers FULL when every handle is open and reserves nothing; illegal addresses are
RANGE. Handed over, a record that can be read, is legal and fits waits for its placement under a new launch number
with the profile of the parent; an unreadable or illegal one leaves its FAULT for JOIN. KILL is held with legal operands; its
engine takes its POP, then refuses a handle that is not open with NOHANDLE; a rejected child reads KILLED from then on, with
detail 0, and a child actor set that runs is marked killed, with the number of its actors, its actors freed and their firings
gone: the two counts are the model's choice (log 78). YIELD is held and marks the firing as last of its tile. (R281;
R282; R283; R284; R57; R58; R59; R35; R39) -/
def Obligations.ChildrenSpawnAndKill : Prop :=
  ∀ (s : State) (e : Eff) (set : Bool) (t0 t1 : Cons),
    (s.who = .core → s.opA.poison = true → exec (.spawn set t0 t1) s = .next (s.slotFault 4 0 7 0))
    ∧ (s.who = .core → s.opA.poison = false → ¬(s.a.toNat < 2 ^ 56 ∧ s.a.toNat % (if set then 8 else 64) = 0) →
        exec (.spawn set t0 t1) s = .next (s.slotFault 6 0x030 s.a 0))
    ∧ (s.who = .core → s.opA.poison = false → s.a.toNat < 2 ^ 56 → s.a.toNat % 64 = 0 →
        ((∀ h, h < 64 → (s.ctx.sync.children.getD h {}).isOpen = true) →
          exec (.spawn false t0 t1) s = .next (s.emit [(t0, ⟨7, false⟩), (t1, ⟨7, false⟩)]))
        ∧ (∀ h, h < 64 → (s.ctx.sync.children.getD h {}).isOpen = false →
            (∀ k, k < h → (s.ctx.sync.children.getD k {}).isOpen = true) →
            exec (.spawn false t0 t1) s = .next (((((s.onSync fun y => { y with
              children := setV y.children h { isOpen := true } }).onBlk fun b => { b with
              spawned := b.spawned ++ [BitVec.ofNat 6 h] })).hold
                { slot := 0, ins := .spawn false none none, a := s.opA, ws := [BitVec.ofNat 64 h, 0] }).emit
              [(t0, ⟨status 0 0 h, false⟩), (t1, ⟨status 0 0 h, false⟩)])))
    ∧ (s.who = .core → s.opA.poison = false → s.a.toNat < 2 ^ 56 → s.a.toNat % 8 = 0 → s.dev.upsets = [] →
        ∀ k u h v, s.place .global .rd s.a 8 = (.ok (.mem k), u) → s.updateWaits k = false → u.seen.poisoned k = false →
          u.seen.Holds (u.kvOf u.who4 k) k 8 v → h < 64 → (s.ctx.sync.children.getD h {}).isOpen = false →
          (∀ k, k < h → (s.ctx.sync.children.getD k {}).isOpen = true) →
          tabActs (BitVec.ofNat 64 v) ≤ u.freeDescs s.ctx.id.tile.toNat →
          ∃ t, exec (.spawn true t0 t1) s = .next t ∧ t.mem = s.mem
            ∧ t.ctx.sync.children = setV s.ctx.sync.children h { isOpen := true, set := some (tabActs (BitVec.ofNat 64 v)) }
            ∧ (∃ f, t.fir.blk.effs = s.fir.blk.effs ++ [f] ∧ f.ins = .spawn true none none ∧ f.a = s.opA
              ∧ f.ws = [BitVec.ofNat 64 h, BitVec.ofNat 64 v]))
    ∧ (∀ h f, s.who = .cmd e → e.ins = .spawn false none none → e.ws.getD 0 0 = BitVec.ofNat 64 h → h < 64 →
        s.ctx.sync.children.getD h {} = { isOpen := true } → s.ctx.id.present = true →
        readGot (s.whoOf e.space e.keyslot) 32 0 e.a.val (s.unqueue e) = f → f.2.ctx.id = s.ctx.id →
        (∀ u, (f = (.bad, u) ∨ ∃ x y, f = (.hold x y, u)) → ∃ t, exec (.spawn false t0 t1) s = .next t
            ∧ (t.ctx.sync.children.getD h {}).rejected = some (fault 0x00B 0) ∧ t.mem = u.mem ∧ t.dev.pending = u.dev.pending)
        ∧ (∀ r u i d, f = (.ok r, u) → leastFault (recordFaults u.dev.modules true false r) = some (i, d) →
            ∃ t, exec (.spawn false t0 t1) s = .next t ∧ (t.ctx.sync.children.getD h {}).rejected = some (fault d i)
              ∧ t.mem = u.mem ∧ t.dev.pending = u.dev.pending)
        ∧ (∀ r u, f = (.ok r, u) → leastFault (recordFaults u.dev.modules true false r) = none →
            u.recordFits r (u.childZone s.ctx (levelAt r 0).domain) = true →
            ∃ t p, exec (.spawn false t0 t1) s = .next t ∧ t.dev.pending = u.dev.pending ++ [p] ∧ p.record = r
              ∧ p.launch = u.dev.nextLaunch ∧ p.prof = s.ctx.childProf ∧ p.parent = some (s.ctx.id.uid, h) ∧ p.queue = none
              ∧ (t.ctx.sync.children.getD h {}).launch = some p.launch ∧ t.mem = u.mem ∧ t.fir = u.fir))
    ∧ (∀ job, s.who = .core → s.pAB = false → bitsN s.a 63 (if job then 16 else 6) = 0 → bitsN s.b 47 0 = 0 →
        exec (.kill job) s = .next (s.heldFor (.kill job) []))
    ∧ (∀ job, s.who = .core → s.pAB = true → exec (.kill job) s = .next (s.slotFault 4 0 7 0))
    ∧ (∀ job, s.who = .cmd e → e.started = false → cwPop e.cw = false → exec (.kill job) s = .next (s.onCtx fun c => { c with
        zq := replaceEff e (some { e with started := true, since := some s.ctx.csr.budget.toNat }) c.zq }))
    ∧ (∀ l, s.who = .cmd e → e.ins = .kill false → e.started = true → s.ctx.zq = e :: l → s.ctx.id.present = true →
        let h := e.a.val.toNat % 64
        let c := s.ctx.sync.children.getD h {}
        (c.isOpen = false → ∃ t r, exec (.kill false) s = .next t ∧ t.ctx.zq = l ∧ r.status = fault 0x090 0
          ∧ t.ctx.sync.evqHeld = s.ctx.sync.evqHeld ++ [r] ∧ t.mem = s.mem ∧ t.fir = s.fir)
        ∧ (∀ st, c.isOpen = true → c.rejected = some st → codeOf st ≠ 6 → ∃ t, exec (.kill false) s = .next t ∧ t.ctx.zq = l
            ∧ t.childStatus (t.ctx.sync.children.getD h {}) = some (status 6 0 0) ∧ t.mem = s.mem ∧ t.fir = s.fir)
        ∧ (∀ n, c.isOpen = true → c.rejected = none → c.set = some n → c.placed = true → c.ended = false →
            s.fir.id = 0 → s.ctx.firs = [] → ∃ t, exec (.kill false) s = .next t ∧ t.ctx.zq = l
              ∧ (t.ctx.sync.children.getD h {}).killed = some n ∧ t.childStatus (t.ctx.sync.children.getD h {}) = some (status 6 n 0)
              ∧ (∀ a ∈ t.ctx.graph.actors, a.set = h + 1 → a.free = true ∧ a.active = false)))
    ∧ (s.who = .core → exec .yield s = .next (s.heldFor .yield []))
    ∧ (s.who = .cmd e → exec .yield s = .next ((s.unqueue e).onFir fun f => { f with yielded := true }))

/-- BLOCK_COMMIT of a decided block that ends in a fault of cause c, detail d and slot k commits nothing: with a handler
the frame of its firing slot holds word 0, the block address, INFO0, INFO1, 0, F, GPOIS, 0 and G0 to G63, every other
byte reads as before, the firing is suspended, and a new trap firing of the same slot and actor fetches at LOADVEC for
cause 10 when that is not 0, else at TRAPVEC, with G1 the frame and every other register 0; no other register of the
context and no special register changes but the count of abandoned blocks. A fault of a trap firing, or no handler,
freezes the context and raises TRAP with word 0; that the firing then gives its slot up without a handler (log 18), and stays in it
as a trap firing (log 19), is the model's choice. In a stopped context a block that ends in a fault waits. ILL takes the trap ILLEGAL with detail 7. TRAP c faults its slot with
cause 8, c and A. (R383; R384; R385; R150; R286; R163; R390) -/
def Obligations.TrapSavesFiringAndEntersVector : Prop :=
  ∀ (s : State) (f : BFault) (c : BitVec 5),
    let off := s.ctx.winSize - 8192 + 1024 * s.fir.slotNo
    let load : Word := BitVec.ofNat 64 (s.ctx.csr.loadvec.toNat / 4 % 2 ^ 54 * 4)
    let vec : Word := if f.cause = 10 ∧ load ≠ 0 then load else BitVec.ofNat 64 (s.ctx.csr.trapvec.toNat / 4 % 2 ^ 54 * 4)
    let w0 : Word := BitVec.ofNat 64 (2 ^ 63 + s.fir.slotNo % 8 * 2 ^ 56 + s.fir.actor % 256 * 2 ^ 48 + f.cause.toNat * 2 ^ 40
      + f.detail.toNat * 2 ^ 28 + f.slot % 64 * 2 ^ 22)
    (s.blockEnd = some f → s.ctx.stopped = true → exec .blockCommit s = .next s)
    ∧ (s.fir.id ≠ 0 → s.fir.phase = .run → s.fir.blk.decided = true → s.ctx.stopped = false → s.ctx.id.present = true →
      s.blockEnd = some f → f.cause ≠ 0 → s.fir.blk.arrived = [] → s.fir.blk.spawned = [] → s.fir.blk.esc = [] →
      ((s.fir.trap = false → vec ≠ 0 → s.fir.slotNo < 8 → s.mem.wf = true → s.ctx.id.row + 2 ^ (9 + s.ctx.id.wlog.toNat) ≤ 4096 →
          ∃ t, exec .blockCommit s = .next t
            ∧ t.winWord off = w0 ∧ t.winWord (off + 8) = s.fir.blk.addr ∧ t.winWord (off + 16) = f.info0
            ∧ t.winWord (off + 24) = f.info1 ∧ t.winWord (off + 32) = 0 ∧ t.winWord (off + 40) = s.fir.flags.setWidth 64
            ∧ t.winWord (off + 48) = s.fir.gpois ∧ t.winWord (off + 56) = 0 ∧ t.winWord (off + 64) = 0
            ∧ (∀ i, 1 ≤ i → i < 64 → t.winWord (off + 64 + 8 * i) = s.fir.regs.toList.getD i 0)
            ∧ (∀ k, (∀ o, off ≤ o → o < off + 576 → k ≠ s.ctx.winKey o) → t.mem.byte k = s.mem.byte k)
            ∧ t.fir.pc = vec ∧ t.fir.phase = .fetch ∧ t.fir.trap = true ∧ t.fir.slotNo = s.fir.slotNo ∧ t.fir.actor = s.fir.actor
            ∧ t.fir.id = s.ctx.nextFir ∧ t.fir.frame = off ∧ t.fir.flags = 0 ∧ t.fir.gpois = 0
            ∧ (∀ i, i < 64 → t.fir.regs.toList.getD i 0 = if i = 1 then BitVec.ofNat 64 off else 0)
            ∧ (∃ u, t.ctx.susp = s.ctx.susp ++ [u] ∧ u.id = s.fir.id ∧ u.frame = off ∧ u.actor = s.fir.actor ∧ u.retired = false)
            ∧ t.ctx.csr = { s.ctx.csr with perf := modV s.ctx.csr.perf 1 (· + 1) }
            ∧ t.ctx.pipes = s.ctx.pipes ∧ t.ctx.streams = s.ctx.streams ∧ t.tile = s.tile ∧ t.dev.events = s.dev.events)
        ∧ (s.fir.trap = false → vec = 0 → ∃ t e, exec .blockCommit s = .next t ∧ t.ctx.csr.faultHold = true ∧ t.ctx.frozen = true
            ∧ t.fir.id = 0 ∧ t.dev.events = s.dev.events ++ [e] ∧ e.body = [w0, s.fir.blk.addr, f.info0, f.info1, 0]
            ∧ bitsN e.w0 7 0 = 1)
        ∧ (s.fir.trap = true → ∃ t e, exec .blockCommit s = .next t ∧ t.ctx.csr.faultHold = true ∧ t.mem = s.mem
            ∧ t.ctx.susp = s.ctx.susp ∧ t.fir.regs = s.fir.regs
            ∧ t.dev.events = s.dev.events ++ [e] ∧ e.body = [w0, s.fir.blk.addr, f.info0, f.info1, 1])))
    ∧ exec .ill s = .next (s.takeTrap 1 7 s.fir.blk.cur (s.cur.word.setWidth 64) 0)
    ∧ (s.opA.poison = false → exec (.trap c) s = .next (s.slotFault 8 (c.setWidth 12) s.a 0))
    ∧ (s.opA.poison = true → exec (.trap c) s = .next (s.slotFault 4 0 7 0))

/-- TRET of an unpoisoned 64-byte aligned window offset is held; applied it sets bit 62 of word 0 of a pending frame and
changes no other byte, or records NOTRAP for an offset that is no pending frame. FIRING_RESUMPTION of a running
context with a retired suspension whose frame has that bit clears bit 63, in the slot it kept or, when that was
freed, the first it may use: ACT 0 fetches the block
again and ACT 1 goes on at TARGET, with F, GPOIS and G1 to G63 as the frame holds them and G0 zero; ACT 2 ends the
firing; ACT 3 freezes the context, its slot given up: the model's choice (log 18). Without such a suspension it changes nothing. ESCAL is held and applied freezes the
context with an ESCALATION event. BRK does nothing under BRKOFF, lets its block pass under PASS, as its block sees them, and else marks its
slot as a breakpoint; a block that ends in it is abandoned, stands to be fetched again and the context is frozen with
a BRK event. (R286; R285; R386; R387; R391; R390; R94) -/
def Obligations.TrapReturnsAndBreakpoints : Prop :=
  ∀ (s : State) (e : Eff) (c : BitVec 5) (u : Susp) (k : Nat),
    let w0 := s.winWord u.frame
    let act := bitsN w0 61 60
    (s.who = .core → s.opA.poison = true → exec .tret s = .next (s.slotFault 4 0 7 0)
      ∧ exec (.escal c) s = .next (s.slotFault 4 0 7 0))
    ∧ (s.who = .core → s.opA.poison = false → ¬(s.a.toNat % 64 = 0 ∧ s.a.toNat < s.ctx.winSize) →
        exec .tret s = .next (s.slotFault 6 0x030 s.a 0))
    ∧ (s.who = .core → s.opA.poison = false → s.a.toNat % 64 = 0 → s.a.toNat < s.ctx.winSize → exec .tret s = .next (s.heldFor .tret []))
    ∧ (s.who = .cmd e → s.dev.upsets = [] → u ∈ s.ctx.susp → u.frame = e.a.val.toNat → u.frame % 64 = 0 → s.mem.wf = true →
        ∃ t, exec .tret s = .next t ∧ t.winWord u.frame = w0 ||| ((1 : Word) <<< 62) ∧ t.fir = s.fir
          ∧ (∀ x, x / 8 ≠ s.ctx.winKey u.frame / 8 → t.mem.byte x = s.mem.byte x) ∧ t.ctx.csr = s.ctx.csr
          ∧ t.ctx.susp = s.ctx.susp)
    ∧ (s.who = .cmd e → (∀ v ∈ s.ctx.susp, v.frame ≠ e.a.val.toNat) → ∃ r, exec .tret s = .next ((s.unqueue e).onSync fun y => { y with
        evqHeld := y.evqHeld ++ [r] }) ∧ r.status = fault 0x094 0)
    ∧ ((s.runs = false ∨ ∀ v ∈ s.ctx.susp, ¬(v.retired = true ∧ (s.winWord v.frame).getLsbD 62 = true)) →
        exec .firingResumption s = .next s)
    ∧ (s.runs = true → s.dev.upsets = [] → s.fir.id = 0 → s.ctx.susp = [u] → u.retired = true → w0.getLsbD 62 = true →
        (if u.freed then s.usable.head? else some u.slotNo) = some k → u.frame % 64 = 0 → s.mem.wf = true →
        ∃ t, exec .firingResumption s = .next t ∧ t.ctx.csr = (if act = 3 then { s.ctx.csr with faultHold := true } else s.ctx.csr)
          ∧ (act ≤ 1 → t.ctx.susp = [] ∧ t.fir.id = u.id ∧ t.fir.slotNo = k ∧ t.fir.actor = u.actor ∧ t.fir.phase = .fetch
            ∧ t.fir.pc = s.winWord (u.frame + (if act = 0 then 8 else 32)) ∧ t.fir.trap = false
            ∧ t.fir.flags = (s.winWord (u.frame + 40)).setWidth 32 ∧ t.fir.gpois = s.winWord (u.frame + 48)
            ∧ ∀ i, i < 64 → t.fir.regs.toList.getD i 0 = if i = 0 then 0 else s.winWord (u.frame + 64 + 8 * i))
          ∧ (act = 2 → t.ctx.susp = [] ∧ t.fir = s.fir)
          ∧ (act = 3 → t.ctx.susp = [{ u with freed := true }] ∧ t.fir = s.fir ∧ t.ctx.frozen = true)
          ∧ t.winWord u.frame = if act = 3 then w0 &&& ~~~((1 : Word) <<< 62) else w0 &&& ~~~((1 : Word) <<< 63))
    ∧ (s.who = .core → s.opA.poison = false → exec (.escal c) s = .next (s.heldFor (.escal c) []))
    ∧ (s.who = .cmd e → e.ins = .escal c → ∃ t v, exec (.escal c) s = .next t ∧ t.ctx.frozen = true ∧ t.ctx.csr.holdEsc = true
        ∧ t.dev.events = s.dev.events ++ [v] ∧ bitsN v.w0 7 0 = 3 ∧ v.body = [BitVec.ofNat 64 (c.toNat * 16 + 11 * 2 ^ 9), e.blk, e.a.val]
        ∧ t.mem = s.mem ∧ t.fir = s.fir)
    ∧ (let g := s.seenReg .debug s.ctx.csr.debug
       (g.getLsbD 0 = true → exec .brk s = .next (s.emit []))
       ∧ (g.getLsbD 0 = false → g.getLsbD 1 = true → exec .brk s = .next ((s.onBlk fun b => { b with pass := true }).emit []))
       ∧ (g.getLsbD 0 = false → g.getLsbD 1 = false → exec .brk s = .next (s.slotFault 0 0 0 0)))
    ∧ (∀ f, s.fir.id ≠ 0 → s.fir.phase = .run → s.fir.blk.decided = true → s.ctx.stopped = false → s.ctx.id.present = true →
        s.blockEnd = some f → f.cause = 0 → s.fir.blk.arrived = [] → s.fir.blk.spawned = [] → s.fir.blk.esc = [] →
        ∃ t v, exec .blockCommit s = .next t ∧ t.fir.phase = .fetch ∧ t.fir.pc = s.fir.blk.addr ∧ t.fir.regs = s.fir.regs
          ∧ t.fir.flags = s.fir.flags ∧ t.ctx.csr.holdBrk = true ∧ t.mem = s.mem ∧ t.dev.events = s.dev.events ++ [v]
          ∧ bitsN v.w0 7 0 = 4 ∧ v.body = [BitVec.ofNat 64 f.slot, s.fir.blk.addr])

/-- CSRR answers the register, as its block still sees it after a store to the image of its context, and changes
nothing. CSRW of an unpoisoned A is held; CSRX answers the old value and is
held; poison is trap POISON. Applied, both write the fields of their register as its access says: a read-only register
keeps its value, FPMODE flags are cleared by ones and its other fields replaced, DCEIL, HANGIV, WAVEPER and SAGE keep
their least value, TILEID takes MODULE only, reserved bits read 0; every other register reads as before, but that a
change of LOGLIM's MODE clears LOGPOS; no general register, flag or byte changes. LOGM ties its marker to the block
while the log is on. PERF answers its counter and changes nothing; counters 4 and 5 first gain a free count (log 70).
(R287; R288; R289; R290; R291; R74; R5; R425; R132) -/
def Obligations.SpecialRegistersReadAndWritten : Prop :=
  ∀ (s : State) (r : Csr) (e : Eff) (code : BitVec 14) (n : BitVec 3) (t0 t1 : Cons),
    let old := csrRead s.ctx s.tile
    let seen := (s.oldCsr r).getD (old r)
    exec (.csrr r t0) s = .next (s.emit [(t0, ⟨seen, false⟩)])
    ∧ (s.who = .core → s.opA.poison = true → exec (.csrw r) s = .next (s.slotFault 4 0 7 0)
        ∧ exec (.csrx r t0) s = .next (s.slotFault 4 0 7 0))
    ∧ (s.who = .core → s.opA.poison = false → exec (.csrw r) s = .next (s.heldFor (.csrw r) [])
        ∧ exec (.csrx r t0) s = .next ((s.hold { slot := 0, ins := .csrx r none, a := s.opA }).emit [(t0, ⟨seen, false⟩)]))
    ∧ (s.who = .cmd e → ∀ i, i = .csrw r ∨ i = .csrx r t0 → ∃ t, exec i s = .next t
        ∧ t = { s with
            ctx := { s.ctx with csr := t.ctx.csr, log := t.ctx.log, lq := s.ctx.lq.erase e, dq := s.ctx.dq.erase e }
            tile := { s.tile with module := t.tile.module, waveper := t.tile.waveper, sage := t.tile.sage } }
        ∧ (let v := e.a.val
           let new := csrRead t.ctx t.tile
           let keep (hi lo : Nat) : Prop := (new r).toNat = bitsN v hi lo * 2 ^ lo
           (∀ q, q ≠ r → ¬(q = .logpos ∧ r = .loglim) → new q = old q)
           ∧ ((r = .ctxid ∨ r = .lposa ∨ r = .lposb ∨ r = .largs ∨ r = .budget) → new r = old r)
           ∧ (r = .tileid → bitsN (new r) 31 8 = bitsN v 31 8 ∧ bitsN (new r) 7 0 = bitsN (old r) 7 0 ∧ bitsN (new r) 63 32 = 0)
           ∧ (r = .srctr → new r = v) ∧ (r = .fixord → keep 0 0) ∧ (r = .tocnt → keep 15 0) ∧ (r = .escn → keep 15 0)
           ∧ (r = .trapvec → keep 55 2) ∧ (r = .loadvec → keep 55 2) ∧ (r = .debug → keep 1 0) ∧ (r = .logbase → keep 55 5)
           ∧ (r = .bkey → keep 11 0) ∧ (r = .space → keep 15 0) ∧ (r = .keyslot → keep 8 0)
           ∧ (r = .dceil → (new r).toNat = Nat.max 16 (bitsN v 62 0))
           ∧ (r = .hangiv → (new r).toNat = Nat.max 256 (bitsN v 31 0))
           ∧ (r = .waveper → (new r).toNat = Nat.max 256 (bitsN v 19 0))
           ∧ (r = .sage → (new r).toNat = Nat.max 1 (bitsN v 15 0))
           ∧ (r = .fpmode → ∀ i, i < 64 → (new r).getLsbD i =
               if 32 ≤ i ∨ i = 0 then v.getLsbD i else if 8 ≤ i ∧ i ≤ 13 then (old r).getLsbD i && !v.getLsbD i else false)
           ∧ (r = .loglim → bitsN (new r) 63 63 = bitsN v 63 63 ∧ bitsN (new r) 62 61 = (if bitsN v 62 61 = 1 then 1 else 0)
               ∧ bitsN (new r) 60 24 = 0 ∧ bitsN (new r) 23 0 = (if bitsN v 23 0 = 0 then 0
                 else Nat.min (2 ^ 23) (Nat.max 64 (bitsN v 23 0)))
               ∧ new .logpos = if bitsN (new r) 62 61 = bitsN (old r) 62 61 then old .logpos else 0)))
    ∧ (s.opA.poison = true → exec (.logm code) s = .next (s.slotFault 4 0 7 0))
    ∧ (s.opA.poison = false → s.ctx.logOn = false → exec (.logm code) s = .next (s.emit []))
    ∧ (s.opA.poison = false → s.ctx.logOn = true → exec (.logm code) s = .next ((s.onBlk fun b => { b with
        logs := b.logs ++ [(b.cur, { type := 11, srcn := s.ctx.srcn, w1 := code.setWidth 64, w2 := s.a, w3 := b.addr })] }).emit []))
    ∧ (n ≠ 4 → n ≠ 5 → exec (.perf n t0 t1) s = .next (s.sends t0 t1 (s.ctx.csr.perf.getD n.toNat 0) false))
    ∧ (n = 4 ∨ n = 5 → ∃ g, exec (.perf n t0 t1) s = .next ((({ s with freeCtr := s.freeCtr + 1 } : State).onCsr fun c =>
        { c with perf := modV c.perf n.toNat (· + g) }).sends t0 t1 ((modV s.ctx.csr.perf n.toNat (· + g)).getD n.toNat 0) false))

/-- With unpoisoned legal operands the five are held; poison is trap POISON, an illegal operand RANGE. Their engine starts
them with their POP, or refuses TIMEOUT after DCEIL cycles without its token. Applied, SPINV drops the held
translations of its space under the next generation and that generation stands in its entry; TLBINV drops those of its
space that its page number hits, or all of the space; KEYSEL sets KEYSLOT of the context it names, or is refused
NOCTX; CTXSAVE of a missing context is NOCTX, of one that is being saved BUSY, and else notes the save, stopping the
context at once in a frozen one; once its core and collar are written they are released, and once its area is written the context
leaves its tile and the command completes with its bytes; CTXLOAD of an area that is no save area is BADSAVE, a CTXID in use or
above 3 CTXUSED, another window size than the context had, or no free range, WINSIZE; else CTXID and range are taken and the window
written, then the rest is restored once all of it is free, and the command completes when the records that the context owes are
written. What a save carries, and that a CTXID above 3 is CTXUSED, is the model's choice (log 71). Each completion leaves a record
when it asks for one or is refused. (R272; R292; R293; R294; R373; R375; R392; R393; R396; R207; R209) -/
def Obligations.SystemCommandsApply : Prop :=
  ∀ (s : State) (e : Eff) (l : List Eff),
    let now := s.ctx.csr.budget.toNat
    let forms : List (Instr × Bool × Word) := [
      (.spinv, decide (bitsN s.a 63 16 = 0 ∧ bitsN s.b 47 0 = 0), if bitsN s.a 63 16 ≠ 0 then s.a else s.b),
      (.tlbinv, decide (bitsN s.a 63 56 = 0 ∧ bitsN s.a 15 0 = 0 ∧ bitsN s.b 47 17 = 0),
        if bitsN s.a 63 56 ≠ 0 ∨ bitsN s.a 15 0 ≠ 0 then s.a else s.b),
      (.keysel, decide (bitsN s.a 63 17 = 0 ∧ bitsN s.b 47 0 = 0), if bitsN s.a 63 17 ≠ 0 then s.a else s.b),
      (.ctxsave, decide (bitsN s.a 47 9 = 0 ∧ bitsN s.b 63 56 = 0 ∧ bitsN s.b 11 0 = 0), if bitsN s.a 47 9 ≠ 0 then s.a else s.b),
      (.ctxload, decide (bitsN s.a 47 8 = 0 ∧ bitsN s.b 63 56 = 0 ∧ bitsN s.b 11 0 = 0), if bitsN s.a 47 8 ≠ 0 then s.a else s.b)]
    let info : Word := recInfo (fCls (encode e.ins)) (fOp (encode e.ins)) (fMod (encode e.ins)).toNat (cwTag e.cw) 0
    let done (u : State) (st : Word) : State := u.onCtx fun c => { c with
      zq := l
      sync := { c.sync with
        evqHeld := c.sync.evqHeld ++ (if cwRec e.cw || codeOf st ≠ 0 then
          [⟨st, info, if cwPush e.cw then some (BitVec.ofNat 3 (cwQpush e.cw)) else none, {}⟩] else [])
        pushes := c.sync.pushes ++ (if cwRec e.cw = false ∧ codeOf st = 0 ∧ cwPush e.cw = true then
          [⟨BitVec.ofNat 3 (cwQpush e.cw), {}⟩] else []) } }
    (s.who = .core → ∀ f ∈ forms,
      (s.pAB = true → exec f.1 s = .next (s.slotFault 4 0 7 0))
      ∧ (s.pAB = false → f.2.1 = false → exec f.1 s = .next (s.slotFault 6 0x030 f.2.2 0))
      ∧ (s.pAB = false → f.2.1 = true → exec f.1 s = .next (s.heldFor f.1 [])))
    ∧ (s.who = .cmd e → s.ctx.zq = e :: l → ∀ f ∈ forms, e.ins = f.1 → e.started = false →
        (cwPop e.cw = false → exec f.1 s = .next (s.onCtx fun c => { c with zq := { e with started := true, since := some now } :: l }))
        ∧ (cwPop e.cw = true → s.ctx.sync.q.getD (cwQpop e.cw) 0 = 0 → ∀ t, e.since = some t →
            (now < t + s.ctx.csr.dceil.toNat → exec f.1 s = .next s)
            ∧ (t + s.ctx.csr.dceil.toNat ≤ now → exec f.1 s = .next (done s 1))))
    ∧ (s.who = .cmd e → s.ctx.zq = e :: l → e.started = true →
        (e.ins = .spinv → s.dev.upsets = [] → s.mem.wf = true → s.dev.sptbase.toNat < 2 ^ 48 →
          let sp : BitVec 16 := e.a.val.setWidth 16
          let k := s.dev.sptbase.toNat / 2 ^ 20 * 2 ^ 20 + 16 * sp.toNat
          let g := (bitsN (s.mem.word k) 7 4 + 1) % 16
          ∃ t, exec .spinv s = .next t
            ∧ t = done { s with mem := t.mem, dev := { s.dev with tlb := s.dev.tlb.filter fun x =>
                !(x.space == sp && x.gen.toNat == g) } } 0
            ∧ bitsN (t.mem.word k) 7 4 = g ∧ bitsN (t.mem.word k) 63 8 = bitsN (s.mem.word k) 63 8
            ∧ bitsN (t.mem.word k) 3 0 = bitsN (s.mem.word k) 3 0
            ∧ (∀ x, x / 8 ≠ k / 8 → t.mem.byte x = s.mem.byte x))
        ∧ (e.ins = .tlbinv → exec .tlbinv s = .next (done { s with dev := { s.dev with tlb := s.dev.tlb.filter fun x =>
            !(x.space == e.b.val.setWidth 16 && (e.b.val.getLsbD 16 || x.vpn.toNat == e.a.val.toNat / 2 ^ x.lo)) } } 0))
        ∧ (e.ins = .keysel → s.ctx.id.present = true → bitsN e.a.val 7 2 = 0 → bitsN e.a.val 1 0 = s.ctx.id.num.toNat →
            exec .keysel s = .next (done (s.onCsr fun r => { r with keyslot := BitVec.ofNat 64 (bitsN e.a.val 16 8) }) 0))
        ∧ (e.ins = .keysel → bitsN e.a.val 7 2 ≠ 0 → exec .keysel s = .next (done s (fault 0x0A0 0)))
        ∧ (e.ins = .ctxsave → e.ws = [] →
          (bitsN e.a.val 7 2 ≠ 0 → exec .ctxsave s = .next (done s (fault 0x0A0 0)))
          ∧ (s.ctx.id.present = true → bitsN e.a.val 7 2 = 0 → bitsN e.a.val 1 0 = s.ctx.id.num.toNat →
            (s.ctx.csr.saving = true ∨ s.ctx.graph.pending.isSome = true → exec .ctxsave s = .next (done s (fault 0x0A4 0)))
            ∧ (s.ctx.csr.saving = false → s.ctx.graph.pending = none → ∃ t, exec .ctxsave s = .next t ∧ t.fir = s.fir
                ∧ (∃ f, t.ctx.graph.pending = some (s.ctx.id.uid, f) ∧ t.ctx.zq = f :: l
                  ∧ f.ws = [BitVec.ofNat 64 s.ctx.id.uid, if e.a.val.getLsbD 8 then 1 else 0])
                ∧ t.ctx.csr.saving = e.a.val.getLsbD 8 ∧ t.ctx.frozen = (e.a.val.getLsbD 8 || s.ctx.frozen))))
        ∧ (∀ k tag b, e.ins = .ctxsave → e.ws = [BitVec.ofNat 64 s.ctx.id.uid, k, tag, b] → k ≠ 0 → s.ctx.id.present = true →
            s.ctx.id.uid < 2 ^ 64 → s.ctx.mapq.length ≤ b.toNat / 8 - s.coreWords tag.toNat b.toNat → s.ctx.holdEngine = none →
            exec .ctxsave s = .next { s with
              ctx := { s.ctx with taken := some s.coreState, zq := { e with ws := e.ws ++ [1] } :: l }
              tile := s.tile.freeOwner s.ctx.id.uid })
        ∧ (∀ k tag b c, e.ins = .ctxsave → e.ws = [BitVec.ofNat 64 s.ctx.id.uid, k, tag, b, c] → k ≠ 0 → s.ctx.id.present = true →
            s.ctx.id.uid < 2 ^ 64 → s.ctx.mapq = [] → s.ctx.holdEngine = none →
            ∃ t v, exec .ctxsave s = .next t ∧ t.ctx.id.present = false ∧ t.fir.id = 0 ∧ t.ctxs = s.ctxs
              ∧ t.dev.saved = s.dev.saved ++ [v] ∧ v.ctx.id = s.ctx.id ∧ v.ctx.csr = s.ctx.csr ∧ v.ctx.pipes = s.ctx.pipes
              ∧ v.tag = tag.toNat ∧ v.bytes = b.toNat)
        ∧ (e.ins = .ctxload →
          let n := bitsN e.a.val 7 0
          (e.ws = [] → ∀ r u, readArea (s.whoEff e) (BitVec.ofNat 64 (bitsN e.b.val 55 0)) s = (r, u) → u.ctx = s.ctx →
            (r = none → exec .ctxload s = .next (done u (fault 0x0A2 0)))
            ∧ (∀ a, r = some a →
              let t := u.ctx.id.tile
              let free : Prop := n < 4 ∧ u.ctxAt t (BitVec.ofNat 2 n) = none ∧ ∀ x ∈ u.claims t.toNat, x.1 ≠ n
              (¬free → exec .ctxload s = .next (done u (fault 0x0A1 0)))
              ∧ (free → (a.wlog ≠ a.v.ctx.id.wlog ∨ u.freeRow t.toNat a.wlog = none) → exec .ctxload s = .next (done u (fault 0x0A3 0)))
              ∧ (∀ row, free → a.wlog = a.v.ctx.id.wlog → u.freeRow t.toNat a.wlog = some row →
                exec .ctxload s = .next ((u.writeWindow a (BitVec.ofNat 2 n) row).onCtx fun c => { c with
                  zq := { e with ws := BitVec.ofNat 64 row :: a.wlog.setWidth 64 :: BitVec.ofNat 64 a.v.tag :: (a.csrs ++ a.binds) } :: l }))))
          ∧ (∀ row wlog tag x ws v, e.ws = row :: wlog :: tag :: x :: ws →
              (s.dev.saved ++ s.dev.spent).find? (·.tag == tag.toNat) = some v →
              let r := s.restore ⟨v, wlog.setWidth 2, (x :: ws).take 128, [], (x :: ws).drop 128⟩ (BitVec.ofNat 2 n) row.toNat
              (r.1 = none → exec .ctxload s = .next r.2)
              ∧ (∀ uid, r.1 = some uid → r.2.ctx.zq = e :: l → exec .ctxload s = .next (r.2.onCtx fun c => { c with
                  zq := { e with ws := [BitVec.ofNat 64 uid] } :: l })))
          ∧ (∀ uid, e.ws = [uid] →
              let u := s.within uid.toNat State.payLogs
              ((∀ c, u.ctxOf uid.toNat = some c → c.log.owed = []) → u.ctx.zq = e :: l → exec .ctxload s = .next (done u 0))
              ∧ (∀ c, u.ctxOf uid.toNat = some c → c.log.owed ≠ [] → exec .ctxload s = .next u))))

/-- BLOCK_FETCH of a firing that may run, and none of whose flag changes is held, reads the header at pc and the slots it
counts, or takes the fetch trap: TARGET
for a bad pc, ACCESS with access code 3 for a word it cannot fetch. BLOCK_DISPATCH makes every slot of a legal block
wait for the positions that name it, each with an entry of its queue when the queues have room, and takes the trap of
the lowest breach otherwise, PRIV or ILLEGAL. BLOCK_COMMIT
of a decided sound block writes each general register that a slot writes, with its poison, and no other, G0 never; F
by its writes in slot order; an engine command joins its queue with the next serial, a store stores; and the exit sets
pc for the next fetch, or retires the firing. Ahead of commit, while fewer than four blocks are dispatched and RET of the youngest is 0,
the core may fetch the block at the predicted exit of the youngest, without a trap, and dispatch it whole when it is legal; at a commit
the firing goes on with it if the exit leads there, else all of them are abandoned and counted in PERF 1. That a block is not fetched
ahead behind a YIELD, a change of flags or a write of SPACE, nor dispatched ahead in part, is the model's choice (log 3). Other firings,
and a firing in another phase, are left alone. (R139; R142; R145; R149; R150; R152; R175; R42; R231; R291; R327) -/
def Obligations.BlocksAreFetchedCheckedAndCommitted : Prop :=
  ∀ (s : State),
    ((¬(s.fir.id ≠ 0 ∧ s.fir.phase = .fetch ∧ s.runs = true) ∨ ∃ e ∈ s.ctx.dq, isFlagEff e.ins = true ∧ e.fir = s.fir.id) →
        (s.fir.id = 0 ∨ s.runs = false ∨ s.fir.aheadAt = none) → exec .blockFetch s = .next s)
    ∧ (¬(s.fir.id ≠ 0 ∧ s.fir.phase = .dispatch ∧ s.runs = true) →
        ¬(s.fir.id ≠ 0 ∧ s.fir.phase = .run ∧ s.runs = true ∧ (s.fir.blk.rest ≠ 0 ∨ s.fir.fetched ≠ none)) → exec .blockDispatch s = .next s)
    ∧ (∀ pc, s.fir.aheadAt = some pc → s.fir.phase = .run ∧ s.fir.ahead.length < 3 ∧ hdrRet s.fir.youngest.hdr = false
        ∧ s.fir.youngest.next = some pc ∧ badTarget pc = false
        ∧ (s.fir.id ≠ 0 → s.runs = true →
          let u := s.onFir fun f => { f with blk := {} }
          (∀ e v, fetchWords 1 pc u = (.error e, v) → exec .blockFetch s = .next s)
          ∧ (∀ h v e w, fetchWords 1 pc u = (.ok [h], v) → fetchWords (bitsN h 27 22 + 1) (pc + 4) v = (.error e, w) →
              exec .blockFetch s = .next s)
          ∧ (∀ h v ws w, fetchWords 1 pc u = (.ok [h], v) → fetchWords (bitsN h 27 22 + 1) (pc + 4) v = (.ok ws, w) →
              exec .blockFetch s = .next (w.onFir fun f => { f with
                blk := s.fir.blk, fetched := some { addr := pc, hdr := h, slots := ws.map fun w => { word := w } } }))))
    ∧ (∀ b, s.fir.id ≠ 0 → s.fir.phase = .run → s.runs = true → s.fir.blk.rest = 0 → s.fir.fetched = some b →
        let ws := b.slots.map (·.word)
        (blockFault s.ctx.id.sup b.hdr ws ≠ none → exec .blockDispatch s = .next s)
        ∧ (blockFault s.ctx.id.sup b.hdr ws = none → (∀ q, q < 12 → s.entries q + ws.length ≤ (if q < 8 then 64 else 16)) →
            ∃ t nb, exec .blockDispatch s = .next t ∧ t.fir.ahead = s.fir.ahead ++ [nb] ∧ nb.slots = dispatchSlots (blockRows ws)
              ∧ nb.addr = b.addr ∧ nb.hdr = b.hdr ∧ t.fir.fetched = none ∧ t.fir.blk = s.fir.blk ∧ t.fir.regs = s.fir.regs
              ∧ t.fir.phase = .run ∧ t.mem = s.mem ∧ t.ctx = s.ctx ∧ t.dev = s.dev))
    ∧ (s.fir.id ≠ 0 → s.fir.phase = .fetch → s.runs = true → (∀ e ∈ s.ctx.dq, isFlagEff e.ins = true → e.fir ≠ s.fir.id) →
        (badTarget s.fir.pc = true → exec .blockFetch s = .next (s.takeTrap 3 0x0C5 0 s.fir.pc 0))
        ∧ (badTarget s.fir.pc = false →
          (∀ d a u, fetchWords 1 s.fir.pc s = (.error (d, a), u) → exec .blockFetch s = .next (u.takeTrap 5 d 0 a 3))
          ∧ (∀ h u, fetchWords 1 s.fir.pc s = (.ok [h], u) →
            (∀ d a v, fetchWords (bitsN h 27 22 + 1) (s.fir.pc + 4) u = (.error (d, a), v) →
              exec .blockFetch s = .next (v.takeTrap 5 d 0 a 3))
            ∧ (∀ ws v, fetchWords (bitsN h 27 22 + 1) (s.fir.pc + 4) u = (.ok ws, v) →
              ws.length = bitsN h 27 22 + 1
              ∧ exec .blockFetch s = .next (v.onFir fun f => { f with
                  phase := .dispatch
                  blk := { addr := s.fir.pc, hdr := h, slots := ws.map fun w => { word := w } } })))))
    ∧ (∀ k u, s.global s.who4 .fetch s.fir.pc 4 = (.ok (.mem k), u) → s.dev.upsets = [] →
        ∃ h : Half, fetchWords 1 s.fir.pc s = (.ok [h], u) ∧ s.mem.Holds (s.kvOf s.who4 k) k 4 h.toNat)
    ∧ (s.fir.id ≠ 0 → s.fir.phase = .dispatch → s.runs = true →
        let ws := s.fir.blk.slots.map (·.word)
        (blockFault s.ctx.id.sup s.fir.blk.hdr ws = none → ∃ t, exec .blockDispatch s = .next t ∧ t.fir.phase = .run
          ∧ t.fir.blk.slots = dispatchSlots (blockRows ws) ∧ t.fir.blk.addr = s.fir.blk.addr ∧ t.fir.blk.hdr = s.fir.blk.hdr
          ∧ t.fir.regs = s.fir.regs ∧ t.mem = s.mem ∧ t.ctx = s.ctx ∧ t.dev = s.dev
          ∧ ((∀ q, q < 12 → (s.onFir fun f => { f with blk := {} }).entries q + ws.length ≤ (if q < 8 then 64 else 16)) →
              t.fir.blk.rest = 0))
        ∧ (∀ k e, blockFault s.ctx.id.sup s.fir.blk.hdr ws = some (k, e) → ∃ w : Half, exec .blockDispatch s
            = .next (s.takeTrap (if e = .priv then 2 else 1) e.num (k.getD 0) (w.setWidth 64) 0)))
    ∧ (s.fir.id ≠ 0 → s.fir.phase = .run → s.fir.blk.decided = true → s.ctx.csr.saving = false → s.ctx.id.present = true →
        s.blockEnd = none → s.spaceWaits = false → (∀ e ∈ s.ctx.dq, isFlagEff e.ins = false) → s.ctx.logOn = false → s.fir.blk.esc = [] → (s.fir.blk.gw.map (·.1)).Nodup →
        (∀ a k b l, s.fir.blk.effs = [] → s.fir.blk.exits = [(k, .to a)] → s.fir.ahead = b :: l → ∃ t, exec .blockCommit s = .next t
          ∧ t.fir.pc = a ∧ t.mem = s.mem ∧ t.dev = s.dev
          ∧ (b.addr = a → t.fir.phase = .run ∧ t.fir.blk = b ∧ t.fir.ahead = l ∧ t.fir.fetched = s.fir.fetched
              ∧ t.ctx.csr.perf.getD 1 0 = s.ctx.csr.perf.getD 1 0)
          ∧ (b.addr ≠ a → t.fir.phase = .fetch ∧ t.fir.blk = {} ∧ t.fir.ahead = [] ∧ t.fir.fetched = none
              ∧ t.ctx.csr.perf.getD 1 0 = s.ctx.csr.perf.getD 1 0 + BitVec.ofNat 64 (b :: l).length))
        ∧ (∀ a k b, s.fir.blk.effs = [] → s.fir.blk.exits = [(k, .to a)] → s.fir.ahead = [] → s.fir.fetched = some b →
            ∃ t, exec .blockCommit s = .next t ∧ t.fir.pc = a ∧ t.fir.fetched = none ∧ t.mem = s.mem ∧ t.dev = s.dev
              ∧ (b.addr = a → t.fir.phase = .dispatch ∧ t.fir.blk = b) ∧ (b.addr ≠ a → t.fir.phase = .fetch ∧ t.fir.blk = {}))
        ∧ (∀ a k, s.fir.blk.effs = [] → s.fir.blk.exits = [(k, .to a)] → s.fir.ahead = [] → s.fir.fetched = none → ∃ t, exec .blockCommit s = .next t
          ∧ t.fir.pc = a ∧ t.fir.phase = .fetch ∧ t.fir.blk = {} ∧ t.fir.id = s.fir.id ∧ t.mem = s.mem ∧ t.dev = s.dev
          ∧ (∀ i : BitVec 6, i ≠ 0 →
              (∀ n x, (n, i, x) ∈ s.fir.blk.gw → t.fir.regs.get i.toFin = x.val ∧ t.fir.gpois.getLsbD i.toNat = x.poison)
              ∧ ((∀ y ∈ s.fir.blk.gw, y.2.1 ≠ i) → t.fir.regs.get i.toFin = s.fir.regs.get i.toFin
                ∧ t.fir.gpois.getLsbD i.toNat = s.fir.gpois.getLsbD i.toNat))
          ∧ t.fir.regs.get 0 = s.fir.regs.get 0 ∧ t.fir.gpois.getLsbD 0 = s.fir.gpois.getLsbD 0
          ∧ t.fir.flags = applyFlags ((bySlot s.fir.blk.fw).map (·.2)) s.fir.flags
          ∧ t.ctx.csr.perf.getD 0 0 = s.ctx.csr.perf.getD 0 0 + 1 ∧ t.ctx.streams = s.ctx.streams)
        ∧ (∀ a k e, s.fir.blk.effs = [e] → s.fir.blk.exits = [(k, .to a)] → instrRoute e.ins = .kq → ∃ t x, exec .blockCommit s = .next t
            ∧ t.ctx.kq = s.ctx.kq ++ [x] ∧ x.ins = e.ins ∧ x.a = e.a ∧ x.b = e.b ∧ x.ser = s.ctx.ser + 1 ∧ t.ctx.ser = s.ctx.ser + 1
            ∧ t.mem = s.mem ∧ t.fir.pc = a)
        ∧ (∀ a k e sz m t0 t1, s.fir.blk.effs = [e] → s.fir.blk.exits = [(k, .to a)] → e.ins = .st .window sz t0 t1 → e.locs = [.mem m] →
            s.ctx.lq = [] → s.ctx.holdScalar = none → s.ctx.unread = [] → m % accSize sz = 0 → s.mem.wf = true → (accSize sz = 8 ∨ s.mem.poisoned m = false) →
            ∃ t, exec .blockCommit s = .next t ∧ t.fir.pc = a
              ∧ s.mem.Stored t.mem (s.dev.keyAt s.keySeen.toNat m) m (accSize sz) e.b.val.toNat)
        ∧ (∀ k, s.fir.blk.effs = [] → s.fir.blk.exits = [(k, .retire)] → s.fir.trap = true → s.dev.upsets = [] → ∃ t, exec .blockCommit s = .next t
            ∧ t.fir.id = 0 ∧ t.mem = s.mem ∧ t.ctx.csr.perf.getD 3 0 = s.ctx.csr.perf.getD 3 0 + 1
            ∧ ∀ u ∈ s.ctx.susp, u.frame = s.fir.frame → ∃ v ∈ t.ctx.susp, v.id = u.id ∧ v.retired = true)
        ∧ (∀ k, s.fir.blk.effs = [] → s.fir.blk.exits = [(k, .retire)] → s.fir.trap = false → s.actorNow.ins = [] → s.actorNow.outs = [] →
            (s.fir.overrun = true ∨ s.ctx.csr.budget.toNat - s.fir.started ≤ s.actorNow.fmax) → ∃ t, exec .blockCommit s = .next t ∧ t.fir.id = 0 ∧ t.mem = s.mem ∧ t.ctx.firs = s.ctx.firs ∧ t.ctx.susp = s.ctx.susp
              ∧ ∀ a, s.ctx.graph.actors[s.fir.actor]? = some a → t.ctx.graph.actors[s.fir.actor]? = some { a with active := false }))

/-- ACTOR_SELECTION with no ready actor changes nothing; the actor of most credit in the context in focus starts a firing
at its ENTRY with its registers 0, in its slot, and is active. ACTOR_REWEIGHT waits for 256 selections of its level;
then every actor of the level takes its level from the held items it saw, and the count starts again. FIRING_OVERRUN
after more than FMAX resident cycles leaves one record that names the actor and FMAX, once. END_OF_SEGMENT of an actor
without inputs that has fired marks it ended. SEGMENT_BOUNDARY of an open segment whose actors have all ended and
which holds nothing closes it and counts it, or ends the instance after FINAL. SEGMENT_START opens the segment of the
one instance that waits. SEGMAX_EXPIRY and BOUNDARY_SWITCH begin the save that waits, frozen the one and not the
other, and RESTORE_WAIT_TIMEOUT refuses
the CTXLOAD that has waited for DCEIL cycles. That the completion of an instance waits for what its context has handed over is the
model's choice (log 24). (R40; R41; R43; R45; R47; R48; R49; R331; R392) -/
def Obligations.ActorsFireAndSegmentsTurn : Prop :=
  ∀ (s : State) (p : BitVec 2) (n : Nat),
    let now := s.ctx.csr.budget.toNat
    (s.level = [] → exec .actorSelection s = .next s)
    ∧ (∀ r a, mostCredit (fun r => r.credit + ((r.weff : Nat) : Int)) s.level = some r → s.tile.selsAt r.prio < 256 →
        r.uid = s.ctx.id.uid → s.ctx.id.present = true → s.ctx.logOn = false → s.ctx.graph.actors[r.idx]? = some a → a.outs = [] →
        s.ctx.id.tile = s.tile.num →
        ∃ t f, exec .actorSelection s = .next t ∧ t.ctx.firs = s.ctx.firs ++ [f] ∧ f.pc = a.entry ∧ f.phase = .fetch ∧ f.actor = r.idx
          ∧ f.slotNo = r.slot ∧ f.id = s.ctx.nextFir ∧ f.started = now ∧ f.regs = Vector.replicate 64 0 ∧ f.flags = 0 ∧ f.gpois = 0
          ∧ f.trap = false ∧ t.mem = s.mem ∧ t.fir = s.fir ∧ t.tile.sels = modV s.tile.sels r.prio.toNat (· + 1)
          ∧ ∃ b, t.ctx.graph.actors[r.idx]? = some b ∧ b.active = true ∧ b.fired = true ∧ b.entry = a.entry)
    ∧ (s.tile.selsAt p < 256 → exec (.actorReweight p) s = .next s)
    ∧ (∀ a i, 256 ≤ s.tile.selsAt p → s.ctxs = [] → s.ctx.id.present = true → s.ctx.id.tile = s.tile.num → s.ctx.logOn = false → s.ctx.log.done = [] →
        s.ctx.graph.actors[i]? = some a → i < 256 → a.free = false → a.prio = p →
        ∃ t, exec (.actorReweight p) s = .next t ∧ t.tile.sels = setV s.tile.sels p.toNat 0
          ∧ t.ctx.graph.actors[i]? = some { a with
              occSum := []
              occ := if a.ins = [] then 0
                else Nat.min 15 (16 * a.occSum.getD 0 0 / (256 * a.ins.length * a.occSum.getD 1 1)) })
    ∧ (s.fir.id = 0 ∨ s.fir.overrun = true ∨ now - s.fir.started ≤ s.actorNow.fmax → exec .firingOverrun s = .next s)
    ∧ (s.fir.id ≠ 0 → s.fir.overrun = false → s.actorNow.fmax < now - s.fir.started → ∃ t r, exec .firingOverrun s = .next t
        ∧ t.fir = { s.fir with overrun := true } ∧ t.mem = s.mem ∧ t.ctx.sync.evqHeld = s.ctx.sync.evqHeld ++ [r]
        ∧ r.status = fault 0x070 (s.fir.actor % 512 + s.actorNow.fmax * 512))
    ∧ (∀ a, s.ctx.graph.actors[n]? = some a → a.ins = [] → a.outs = [] → a.set = 0 →
        ((s.ctx.graph.isOpen = false ∨ s.ctx.stopped = true ∨ a.ended = true ∨ a.active = true ∨ a.fired = false) →
          exec (.endOfSegment n) s = .next s)
        ∧ (s.ctx.graph.isOpen = true → s.ctx.stopped = false → a.free = false → a.ended = false → a.active = false → a.fired = true →
          exec (.endOfSegment n) s = .next (s.onCtx fun c => { c with graph := { c.graph with
            actors := modAt c.graph.actors n fun a => { a with ended := true, final := true } } })))
    ∧ ((s.ctx.graph.isOpen = false ∨ s.ctx.stopped = true ∨ s.allDone = false ∨
        ∃ a ∈ s.ctx.graph.actors, a.free = false ∧ a.ended = false) → exec .segmentBoundary s = .next s)
    ∧ (s.ctx.graph.isOpen = true → s.ctx.stopped = false → s.allDone = true →
        (∀ a ∈ s.ctx.graph.actors, a.free = true ∨ a.ended = true) → s.ctx.evictee = none → s.ctx.logOn = false →
        ((∃ a ∈ s.ctx.graph.actors, a.free = false ∧ a.final = false) → ∃ t, exec .segmentBoundary s = .next t
          ∧ t.ctx.graph.isOpen = false ∧ t.ctx.graph.ordinal = s.ctx.graph.ordinal + 1 ∧ t.ctx.graph.passed = 0
          ∧ t.mem = s.mem ∧ t.fir = s.fir ∧ t.ctx.csr = s.ctx.csr ∧ t.ctx.streams = s.ctx.streams
          ∧ ∀ h g, t.ctx.cfg h = some g → g.fired = false)
        ∧ ((∀ a ∈ s.ctx.graph.actors, a.free = true ∨ a.final = true) →
          (s.handedDone = false → exec .segmentBoundary s = .next s)
          ∧ (s.handedDone = true → s.ctx.id.present = true → ∃ t, exec .segmentBoundary s = .next t ∧ t.ctx.id.present = false
            ∧ t.ctxs = s.ctxs ∧ t.fir.id = 0)))
    ∧ (s.startPick = none → exec .segmentStart s = .next s)
    ∧ (∀ l, s.startPick = some (l, s.ctx) → s.ctx.id.present = true → s.ctx.graph.unlogged = false → s.ctx.logOn = false →
        s.ctx.graph.chans = [] → ∃ t, exec .segmentStart s = .next t ∧ t.ctx.graph.isOpen = true ∧ t.ctx.graph.began = now
          ∧ t.ctx.graph.agedAt = none ∧ t.mem = s.mem ∧ t.fir = s.fir
          ∧ t.ctx.graph.actors = s.ctx.graph.actors.map fun a => { a with ended := false, fired := false, final := false })
    ∧ (s.ctx.graph.pending = none → exec .segmaxExpiry s = .next s ∧ exec .boundarySwitch s = .next s)
    ∧ (∀ e, s.ctx.graph.pending = some (s.ctx.id.uid, e) → s.ctx.id.present = true → s.ctx.csr.saving = false →
        s.ctx.zq = [e] → e.ins = .ctxsave →
        (s.ctx.graph.isOpen = false → exec .segmaxExpiry s = .next s ∧ ∃ t, exec .boundarySwitch s = .next t
          ∧ t.ctx.csr.saving = true ∧ t.ctx.frozen = s.ctx.frozen ∧ t.ctx.zq = [{ e with ws := [BitVec.ofNat 64 s.ctx.id.uid, 2] }] ∧ t.fir = s.fir)
        ∧ (s.ctx.graph.isOpen = true → exec .boundarySwitch s = .next s
          ∧ (s.ctx.graph.segmax < now - s.ctx.graph.began → ∃ t, exec .segmaxExpiry s = .next t
            ∧ t.ctx.csr.saving = true ∧ t.ctx.frozen = true ∧ t.ctx.zq = [{ e with ws := [BitVec.ofNat 64 s.ctx.id.uid, 1] }] ∧ t.fir = s.fir)
          ∧ (now - s.ctx.graph.began ≤ s.ctx.graph.segmax → s.ctx.stuck = false → exec .segmaxExpiry s = .next s)))
    ∧ ((∀ e ∈ s.ctx.zq, e.ins ≠ .ctxload) → exec .restoreWaitTimeout s = .next s)
    ∧ (∀ e c, s.ctx.zq = [e] → e.ins = .ctxload → e.started = true → e.ws.length ≠ 1 → e.since = some c →
        (now < c + s.ctx.csr.dceil.toNat → exec .restoreWaitTimeout s = .next s)
        ∧ (c + s.ctx.csr.dceil.toNat ≤ now → ∃ t r, exec .restoreWaitTimeout s = .next t ∧ t.ctx.zq = [] ∧ t.mem = s.mem ∧ t.fir = s.fir
            ∧ t.ctx.sync.evqHeld = s.ctx.sync.evqHeld ++ [r] ∧ r.status = 1))

/-- LAUNCH_TOKEN_CONSUME of a queue with a token and no record waiting takes the token; a record that can be read, is
legal under a legal profile and fits waits under a new launch number; a misaligned or out-of-range address is reported
UNREAD on channel 0 and nothing waits. An empty queue, a channel that is no launch queue, and a queue with a record
waiting change nothing. PLACEMENT of a record behind another of its queue, and of one whose places are not free,
changes nothing; one whose table cannot be read is rejected; else the record is taken, a launch with as many instances
as places starts, and its place gets a context with a free number, rows and name. (R54; R55; R56; R359; R363; R364;
R33; R46) -/
def Obligations.LaunchesAreTakenAndPlaced : Prop :=
  ∀ (s : State) (c : BitVec 6) (n : Nat),
    let h := s.dev.hch.getD c.toNat {}
    ((h.ready = [] ∨ bitsN h.ctl 2 1 ≠ 3 ∨ (∃ p ∈ s.dev.pending, p.queue = some c)) → exec (.launchTokenConsume c) s = .next s)
    ∧ (∀ v w l, h.ready = (v, w) :: l → bitsN h.ctl 2 1 = 3 → (∀ p ∈ s.dev.pending, p.queue ≠ some c) →
        let took := s.onDev fun d => { d with hch := modV d.hch c.toNat fun h => { h with
          ready := l, head := h.head + 1, irqs := if h.ctl.getLsbD 3 then h.irqs + 1 else h.irqs } }
        ((v.toNat % 64 ≠ 0 ∨ 2 ^ 56 ≤ v.toNat) → s.dev.upsets = [] → ∃ t x, exec (.launchTokenConsume c) s = .next t
          ∧ t.dev.pending = s.dev.pending ∧ t.mem = s.mem ∧ t.ctx = s.ctx ∧ t.fir = s.fir
          ∧ (t.chan 0).out = (s.chan 0).out ++ [x] ∧ x.val = fault 0x00B 0)
        ∧ (s.dev.upsets = [] → v.toNat % 64 = 0 → v.toNat < 2 ^ 56 →
          let pw := took.profile (bitsN h.ctl 55 48)
          let q := took.whoAt (BitVec.ofNat 2 (bitsN h.ctl 28 27)) (profSide pw.1) (profSpace pw.1) (profKey pw.1)
          ∀ r u, readGot q 32 0 v took = (.ok r, u) → pw.2 = false → took.profileOk (h.ctl.getLsbD 26) pw.1 = true →
            recordFaults u.dev.modules false (h.ctl.getLsbD 26) r = [] → u.egressOk r = true →
            u.recordFits r u.dev.zone = true →
            ∃ p, exec (.launchTokenConsume c) s = .next (u.onDev fun d => { d with
                nextLaunch := d.nextLaunch + 1, pending := d.pending ++ [p] })
              ∧ p.launch = u.dev.nextLaunch ∧ p.queue = some c ∧ p.record = r ∧ p.job = recJob r ∧ p.parent = none
              ∧ p.prof = profValues pw.1))
    ∧ (s.dev.pending.length ≤ n → exec (.placement n) s = .next s)
    ∧ (∀ p, s.dev.pending[n]? = some p → s.turnOf n p = false → exec (.placement n) s = .next s)
    ∧ (∀ p q, s.dev.pending[n]? = some p → p.queue = some q → (∃ y ∈ s.dev.pending.take n, y.queue = some q) →
        exec (.placement n) s = .next s)
    ∧ (∀ p u, s.dev.pending[n]? = some p → s.turnOf n p = true → p.parent = none →
        readTable (s.whoPending p) (winSize ((wAt p.prof 7).setWidth 2)) (recEntry p.record) s = u →
        (u.1 = none → ∃ t, exec (.placement n) s = .next t ∧ t.dev.pending = u.2.dev.pending.eraseIdx n ∧ t.dev.launches = u.2.dev.launches
          ∧ t.ctxs = u.2.ctxs ∧ t.fir = u.2.fir)
        ∧ (∀ hd ws, u.1 = some (hd, ws) →
          (u.2.spots p (tabActs hd) s.dev.zone = none →
            exec (.placement n) s = .next (if 1 < s.dev.modules then { s with freeCtr := s.freeCtr + 1 } else s))
          ∧ (∀ sps, u.2.spots p (tabActs hd) s.dev.zone = some sps → (∀ y ∈ u.2.dev.launches, y.num ≠ p.launch) →
              ∃ t l, exec (.placement n) s = .next t ∧ t.dev.pending = u.2.dev.pending.eraseIdx n
                ∧ t.dev.launches.map (·.num) = u.2.dev.launches.map (·.num) ++ [p.launch]
                ∧ t.dev.launches.find? (·.num == p.launch) = some l ∧ l.instances = sps.length ∧ l.completed = 0
                ∧ l.job = p.job ∧ l.parent = none
                ∧ ∀ sp num row, sps = [sp] → sp.tile / 256 = u.2.zoneHome → u.2.freeNum (sp.tile % 256) = some num →
                    u.2.freeRow (sp.tile % 256) ((wAt p.prof 7).setWidth 2) = some row →
                    (∀ y ∈ u.2.ctx :: u.2.ctxs, y.id.uid < u.2.dev.nextUid) →
                    ∃ y ∈ t.allCtxs, y.id.uid = u.2.dev.nextUid ∧ y.id.num.toNat = num ∧ y.id.row = row ∧ y.id.job = p.job
                      ∧ y.id.launch = p.launch ∧ y.id.tile = BitVec.ofNat 8 sp.tile)))

/-- With configuration g in handle h: a ready operator that is no state or STAT operator fires when the arbiter of its
unit grants it, takes the first token of every channel that feeds it and sends the value of its OPC, with the union of
poison and marks, on every channel out, sets its flags in FPMODE and counts on its unit; when another operator is
granted nothing changes; integer ADD, SUB and MUL wrap and SEL chooses by C. A SPAD port that reads sends the low 32
bits of a short element with its poison; a port whose running stream has the wrong direction faults with PORTDIR,
be there room or not. A release goes to its stream as an element, a later one of the same stream waits. After 256 firings of a unit that only an
unlogged context in focus uses, the level of an unpinned operator is min(15, 16 held / (256 depth)), and its unit
counts from 0 again. An armed monitor whose count has reached HANGIV freezes the configuration with cause hang, and
changes nothing before. (R303; R299; R295; R300; R310; R311; R219; R16; R17) -/
def Obligations.CollarOperatorsPortsAndMonitors : Prop :=
  (∀ (s : State) (h : BitVec 5) (i : Nat) (g : CollarCfg), s.ctx.cfg h.toNat = some g →
    (∀ n w, g.img.nodes[i]? = some n → isStat n = false → unitNo n.node ≠ 7 → g.ready i = true → g.fault = none →
      s.hangFirst h = none → grant ((s.onUnit (physUnit g n)).filter fun x => x.g.ready x.i && s.goes x.ctx) = some w → (s.tile.unit (physUnit g n)).2 < 256 →
      (w.ctx ≠ s.ctx.id.uid ∨ w.h ≠ h.toNat ∨ w.i ≠ i → exec (.operatorFiring h false i) s = .next s)
      ∧ (w.ctx = s.ctx.id.uid → w.h = h.toNat → w.i = i → s.openOuts g (g.outs i) →
          ∃ (r : Half × Word) (t : State) (g' : CollarCfg),
            r = collarOp g.flush n (g.operand i 0 0) (g.operand i 1 n.k) (g.operand i 2 n.k2)
            ∧ exec (.operatorFiring h false i) s = .next t ∧ t.ctx.cfg h.toNat = some g' ∧ t.mem = s.mem ∧ t.fir = s.fir
            ∧ (t.tile.unit (physUnit g n)).2 = (s.tile.unit (physUnit g n)).2 + 1
            ∧ t.ctx.csr = { s.ctx.csr with fpmode := s.ctx.csr.fpmode ||| r.2 }
            ∧ ∀ e, e < g.chans.length → g'.chans.getD e [] =
                (if e ∈ (g.feeds i).map (·.2) then (g.chans.getD e []).drop 1 else g.chans.getD e [])
                  ++ (if e ∈ g.outs i then [joinMarks r.1 ((g.feeds i).map fun f => g.first1 f.2)] else [])))
    ∧ (∀ n (a b c : Half) fl, n.type = 1 →
        (n.opc = 0x02 → collarOp fl n a b c = (a + b, 0)) ∧ (n.opc = 0x03 → collarOp fl n a b c = (a - b, 0))
        ∧ (n.opc = 0x04 → collarOp fl n a b c = (a * b, 0))
        ∧ (n.opc = 0x09 → collarOp fl n a b c = (if c.getLsbD 0 then a else b, 0)))
    ∧ (∀ q p, g.img.ports[i]? = some q → g.ports[i]? = some p → q.kind = 0 → q.out = false → p.part = [] → p.faulted = false →
        g.runs = true → g.fault = none → s.hangFirst h = none → (s.ctx.streams.getD q.stream.toNat {}).st.live = true →
        (streamWrite (s.ctx.streams.getD q.stream.toNat {}) = true →
          ∃ t g', exec (.operatorFiring h true i) s = .next t ∧ t.ctx.cfg h.toNat = some g' ∧ g'.fault = some (portEp i 0, 0x0B7)
            ∧ t.ctx.streams = s.ctx.streams)
        ∧ (∀ c e l, (g.img.outs (portEp i 0)).all g.room = true → s.portStream g h.toNat q.stream.toNat false = .ok c →
            (s.ctx.streams.getD q.stream.toNat {}).buf = e :: l → 1 ≤ (s.ctx.streams.getD q.stream.toNat {}).size →
            (s.ctx.streams.getD q.stream.toNat {}).size ≤ 4 → s.openOuts g (g.img.outs (portEp i 0)) →
            ∃ t g', exec (.operatorFiring h true i) s = .next t ∧ t.ctx.cfg h.toNat = some g' ∧ t.mem = s.mem
              ∧ t.ctx.streams = (c.takeElems q.stream.toNat 1).streams
              ∧ ∀ x, x < g.chans.length → g'.chans.getD x [] = g.chans.getD x []
                  ++ (if x ∈ g.img.outs (portEp i 0) then [{ val := e.val.setWidth 32, pois := e.poison }] else []))))
  ∧ (∀ (s : State) (n : Nat) (r : Release), s.ctx.releases[n]? = some r → ∀ o, r.stream = some o →
      ((s.ctx.releases.take n).any (fun x => x.stream == some o) = true → exec (.accumulatorRelease n) s = .next s)
      ∧ ((s.ctx.releases.take n).any (fun x => x.stream == some o) = false →
          (s.ctx.streams.getD o.toNat {}).st.live = true → streamWrite (s.ctx.streams.getD o.toNat {}) = true →
          (s.ctx.streams.getD o.toNat {}).used < streamCount (s.ctx.streams.getD o.toNat {}) →
          ∀ c, s.ctx.claim o.toNat .matrix = some c → exec (.accumulatorRelease n) s = .next { s with
            ctx := { c.giveElem o.toNat { val := r.tok.val.setWidth 128, poison := r.tok.pois, ser := r.ser } with
                     releases := c.releases.eraseIdx n } }))
  ∧ (∀ (s : State) (u : BitVec 9),
      ((s.tile.unit u).2 < 256 → exec (.arbiterReweight u) s = .next s)
      ∧ (256 ≤ (s.tile.unit u).2 → s.ctx.id.present = true → s.ctx.logOn = false → s.ctx.log.done = [] →
          (∀ x ∈ s.onUnit u, x.ctx = s.ctx.id.uid) →
          ∃ t, exec (.arbiterReweight u) s = .next t ∧ (t.tile.unit u).2 = 0 ∧ t.mem = s.mem
            ∧ ∀ x ∈ s.onUnit u, s.ctx.cfg x.h = some x.g → x.g.nodes[x.i]? = some x.st →
                (s.onUnit u).filter (fun y => y.ctx == x.ctx && y.h == x.h) = [x] →
                ∃ g' y, t.ctx.cfg x.h = some g' ∧ g'.nodes[x.i]? = some y ∧ y.held = 0
                  ∧ (x.st.pin = true → y.level = x.st.level)
                  ∧ (x.st.pin = false → ∀ e ed, heldBy x.g x.ent = [e] → x.g.img.edges[e]? = some ed → 0 < ed.depth →
                      y.level = BitVec.ofNat 4 (Nat.min 15 (16 * x.st.held / (256 * ed.depth))))))
  ∧ (∀ (s : State) (h : BitVec 5) (g : CollarCfg) (n : Nat) (va : Word), s.ctx.cfg h.toNat = some g → g.hang = some (n, va) →
      g.runs = true →
      ((g.accrue s.ctx.now).idle < n → exec (.hangMonitorExpiry h) s = .next s)
      ∧ (n ≤ (g.accrue s.ctx.now).idle → ∃ t g', exec (.hangMonitorExpiry h) s = .next t ∧ t.ctx.cfg h.toNat = some g'
          ∧ g'.frozen = true ∧ g'.hung = true ∧ g'.hang = none ∧ g'.chans = g.chans ∧ g'.nodes = g.nodes))

/-- A TAIL write on ROLE 1 or 3 is stored when (n - TAIL) is at most SIZE - (TAIL - HEAD), a HEAD write on ROLE 2 when (n
- HEAD) is at most TAIL - HEAD, modulo 2^32; one beyond sets BADIDX and nothing else; a TAIL write on ROLE 2 and a
HEAD write on another role are ignored. HCCTL with EN = 1 on a channel that is off stores ROLE, OWNER, IRQ and LOGSZ
(4 for a value outside 4 to 16) and sets HEAD, TAIL and HCSTAT to 0; on one that is on it changes IRQ alone; with EN =
0 it stops the channel. HCBASE ignores a write while EN = 1, HCSTAT clears BADIDX and SEQERR where 1 is written, HEVCH
and HEVCH2 keep their fields. No other channel and no byte of memory changes. On an enabled ingress or launch channel
without STOP, the next slot below TAIL is read; well formed it stands ready with its two words, malformed or poisoned
it sets SEQERR and STOP, raises event 26 and is not consumed, and the slots that stood ready are not either; without such a slot nothing changes. The first token of an
enabled egress channel with a free slot, whose earlier writes are performed, is written as VALUE, with its poison, and
CTRL with SEQ = TAIL at the slot of TAIL, TAIL rises by one, and every other byte stands; bytes of VALUE that the firing has not
written stay as the slot held them. A full or disabled channel changes nothing, nor one that serves another job than the token's
(that the token waits then is the model's choice, log 120).
The first event is written in its eight words at the record of TAIL and then as a KIND 4 slot that names the record,
when EN of HEVCH is set and the channel is open; else it is held. The group order of the registers is presumed by the
model. (R352; R353; R361; R354; R355; R358; R362) -/
def Obligations.HostChannelsMoveInOrder : Prop :=
  (∀ (s : State) (c : BitVec 6) (n : BitVec 32) (v : Word) (h : HostChan), s.chan c = h →
     (∀ i ∈ [Instr.hctailWrite c n, .hcheadWrite c n, .hcctlEnable c v, .hcctlDisable c v], ∃ t, exec i s = .next t
       ∧ t.mem = s.mem ∧ (∀ d, d ≠ c → t.chan d = s.chan d) ∧ (t.chan c).base = h.base ∧ (t.chan c).out = h.out)
     ∧ (∃ t, exec (.hctailWrite c n) s = .next t
       ∧ (h.role = 1 ∨ h.role = 3 → t.chan c =
           if (n - h.tail).toNat ≤ h.size - (h.tail - h.head).toNat then { h with tail := n } else { h with stat := h.stat ||| 2 })
       ∧ (h.role = 2 → t = s))
     ∧ (∃ t, exec (.hcheadWrite c n) s = .next t
       ∧ (h.role = 2 → t.chan c =
           if (n - h.head).toNat ≤ (h.tail - h.head).toNat then { h with head := n } else { h with stat := h.stat ||| 2 })
       ∧ (h.role ≠ 2 → t = s))
     ∧ (h.en = false → ∃ t x, exec (.hcctlEnable c v) s = .next t ∧ t.chan c = x
       ∧ x.en = true ∧ x.head = 0 ∧ x.tail = 0 ∧ x.stat = 0 ∧ x.role = bitsN v 2 1 ∧ x.irq = v.getLsbD 3
       ∧ bitsN x.ctl 47 32 = bitsN v 47 32 ∧ bitsN x.ctl 55 48 = bitsN v 55 48 ∧ bitsN x.ctl 28 26 = bitsN v 28 26
       ∧ bitsN x.ctl 63 56 = 0 ∧ bitsN x.ctl 31 29 = 0 ∧ bitsN x.ctl 25 21 = 0 ∧ bitsN x.ctl 15 4 = 0
       ∧ x.size = 2 ^ (if 4 ≤ bitsN v 20 16 ∧ bitsN v 20 16 ≤ 16 then bitsN v 20 16 else 4))
     ∧ (h.en = true → ∃ t x, exec (.hcctlEnable c v) s = .next t ∧ t.chan c = { h with ctl := x }
       ∧ x.getLsbD 0 = true ∧ x.getLsbD 3 = v.getLsbD 3 ∧ ∀ b, b ≠ 3 → x.getLsbD b = h.ctl.getLsbD b)
     ∧ (∃ t, exec (.hcctlDisable c v) s = .next t ∧ (t.chan c).en = false ∧ (t.chan c).head = h.head ∧ (t.chan c).tail = h.tail
       ∧ (t.chan c).stat = h.stat ∧ (t.chan c).ready = [])
     ∧ (∀ off : BitVec 20, off.toNat = 0x10000 + 0x40 * c.toNat → ∃ t u, exec (.registerWrite off v) s = .next t
       ∧ exec (.registerWrite (off + 0x20) v) s = .next u
       ∧ t.chan c = (if h.en then h else { h with base := BitVec.ofNat 64 (bitsN v 51 6 * 64) })
       ∧ u.chan c = { h with stat := h.stat &&& ~~~(v &&& 6) })
     ∧ exec (.registerWrite 0x100 v) s = .next (s.onDev fun d => { d with hevch := v &&& 0x3FFFFFFFFFFFFE0 })
     ∧ exec (.registerWrite 0x108 v) s = .next (s.onDev fun d => { d with hevch2 := v &&& 0x3F }))
  ∧ ((∀ (s : State) (c : BitVec 6) (h : HostChan), s.chan c = h →
       (h.en = false ∨ (h.role ≠ 1 ∧ h.role ≠ 3) ∨ h.stat.getLsbD 0 = true ∨ h.readTo = h.tail →
         exec (.ingressSlotConsume c) s = .next s)
       ∧ (h.en = true → h.role = 1 ∨ h.role = 3 → h.stat.getLsbD 0 = false → h.readTo ≠ h.tail →
         ∀ k v w, k = hostKey (bitsN h.base 51 6 * 64 + 16 * (h.readTo.toNat % h.size)) → s.mem.word k = v →
           s.mem.word (k + 8) = w →
           (bitsN w 63 32 = h.readTo.toNat → bitsN w 15 4 = 0 → bitsN w 2 0 ≤ (if h.role = 1 then 2 else 0) →
             s.mem.poisoned k = false → s.mem.poisoned (k + 8) = false →
             exec (.ingressSlotConsume c) s
               = .next (s.onChan c fun h => { h with ready := h.ready ++ [(v, w)], readTo := h.readTo + 1 }))
           ∧ (bitsN w 63 32 ≠ h.readTo.toNat ∨ bitsN w 15 4 ≠ 0 ∨ (if h.role = 1 then 2 else 0) < bitsN w 2 0
               ∨ s.mem.poisoned k = true ∨ s.mem.poisoned (k + 8) = true →
             ∃ t, exec (.ingressSlotConsume c) s = .next t ∧ t.mem = s.mem
               ∧ t.chan c = { h with stat := h.stat ||| 5, ready := [], gen := h.gen + 1 }
               ∧ ∃ e, t.dev.events = s.dev.events ++ [e] ∧ bitsN e.w0 7 0 = 26
                 ∧ e.body = [c.setWidth 64, h.head.setWidth 64, BitVec.ofNat 64 (bitsN w 63 32)]))
       ∧ (∀ o l, h.out = o :: l → s.mem.wf = true →
         (h.open = false ∨ s.ownerOk c o = false → exec (.egressSlotWrite c) s = .next s)
         ∧ (h.en = true → h.role = 2 → (h.tail - h.head).toNat < h.size → s.ownerOk c o = true → s.tokenReady o = true →
           ∃ t k, k = hostKey (bitsN h.base 51 6 * 64 + 16 * (h.tail.toNat % h.size)) ∧ exec (.egressSlotWrite c) s = .next t
             ∧ t.chan c = { h with
                 tail := h.tail + 1, out := l, irqs := if h.irq then h.irqs + 1 else h.irqs
                 eos := (h.eos.filter fun i => decide ((i - h.head).toNat < (h.tail - h.head).toNat))
                   ++ if bitsN o.ctrl 2 0 = 1 ∨ bitsN o.ctrl 2 0 = 2 then [h.tail] else [] }
             ∧ (∃ v : Word, t.mem.Holds none k 8 v.toNat ∧ ∀ b, b < 8 → bitsN v (8 * b + 7) (8 * b) =
                 if o.keep.getLsbD b then bitsN (s.mem.word k) (8 * b + 7) (8 * b) else bitsN o.val (8 * b + 7) (8 * b))
             ∧ t.mem.poisoned k = (o.pois || (o.keep != 0 && s.mem.poisoned k))
             ∧ t.mem.Holds none (k + 8) 8 (h.tail.toNat * 2 ^ 32 + o.ctrl.toNat % 2 ^ 32)
             ∧ ∀ x, x < k ∨ k + 16 ≤ x → t.mem.view none x = s.mem.view none x))
       ∧ (h.out = [] → exec (.egressSlotWrite c) s = .next s))
     ∧ (∀ (s : State) (e : Event) (l : List Event), s.dev.events = e :: l → s.mem.wf = true → ∀ h, s.chan (s.dev.hevch2.setWidth 6) = h →
         (s.dev.hevch.getLsbD 5 = false → exec .eventDelivery s = .next s)
         ∧ (h.open = false → exec .eventDelivery s = .next s)
         ∧ (s.dev.hevch.getLsbD 5 = true → h.open = true → h.out = [] → ∀ a k,
             a = bitsN s.dev.hevch 57 6 * 64 + 64 * (h.tail.toNat % h.size) → a < 2 ^ 52 →
             k = hostKey (bitsN h.base 51 6 * 64 + 16 * (h.tail.toNat % h.size)) → k + 16 ≤ hostKey a ∨ hostKey a + 64 ≤ k →
             ∃ t, exec .eventDelivery s = .next t ∧ t.dev.events = l
               ∧ (t.chan (s.dev.hevch2.setWidth 6)).tail = h.tail + 1
               ∧ (∀ j w, j < 8 → e.words[j]? = some w → t.mem.Holds none (hostKey a + 8 * j) 8 w.toNat)
               ∧ t.mem.Holds none k 8 (bitsN e.w0 7 0 * 2 ^ 56 + a)
               ∧ t.mem.Holds none (k + 8) 8 (h.tail.toNat * 2 ^ 32 + 4)))
     ∧ (∀ s : State, s.dev.events = [] → exec .eventDelivery s = .next s))

/-- A host write of bytes of one word of HBM stores exactly those under the key of its slot and marks the word with its
CXL poison; a part of a poisoned word changes no byte and raises the POISON event of source 2; one
past the end of HBM changes nothing. A host read answers the 64 bytes of its line under its key and whether a word of
them is poisoned, and changes no byte. The key of a slot that holds none is the model's empty key. (R351; R109; R108;
R374) -/
def Obligations.HostReachesHdmWithPoison : Prop :=
  ∀ (s : State) (pa : Nat) (data : List Byte) (p : Bool) (key : BitVec 9),
    (hbmSize < pa + data.length → exec (.hostHdmWrite pa data p key) s = .next s)
    ∧ (pa + data.length ≤ hbmSize → 1 ≤ data.length → pa % 8 + data.length ≤ 8 → s.mem.wf = true →
        (data.length < 8 → s.mem.poisoned pa = true → ∃ t, exec (.hostHdmWrite pa data p key) s = .next t
          ∧ t.mem = s.mem ∧ ∃ e, t.dev.events = s.dev.events ++ [e] ∧ bitsN e.w0 7 0 = 17
            ∧ e.body = [2, BitVec.ofNat 64 (pa / 8 * 8), 0])
        ∧ ((data.length = 8 ∨ s.mem.poisoned pa = false) → ∃ (t : State) (v : Nat),
          exec (.hostHdmWrite pa data p key) s = .next t
          ∧ (∀ i b, data[i]? = some b → v / 256 ^ i % 256 = b.toNat)
          ∧ s.mem.Stored t.mem (s.hdmKey key) pa data.length v
          ∧ (∀ x, t.mem.poisoned x = if x / 8 = pa / 8 then p else s.mem.poisoned x)
          ∧ t = { s with mem := t.mem }))
    ∧ (hbmSize ≤ pa → exec (.hostHdmRead pa key) s = .next s)
    ∧ (pa < hbmSize → s.dev.upsets = [] → ∃ t, exec (.hostHdmRead pa key) s = .next t ∧ t.mem = s.mem
        ∧ t.dev.hdmOut.length = 64
        ∧ (∀ i, i < 64 → t.dev.hdmOut[i]? = some (s.mem.view (s.hdmKey key) (pa / 64 * 64 + i)))
        ∧ (t.dev.hdmPois = true ↔ ∃ i, i < 8 ∧ s.mem.poisoned (pa / 64 * 64 + 8 * i) = true))
    ∧ (∀ kv, s.dev.keyOf key.toNat = some kv → s.hdmKey key = some kv)

/-- A port takes part in traffic while its link is up, its dimension has ports and its die is not halted. At an external port a flit
that fails its CRC, or whose SEQ is not the expected one, brings no packet and leaves the expected SEQ; the port answers, once for a
wrong SEQ, with a flit that names the last good SEQ. The expected flit advances SEQ by one; an ACKSEQ of a flits sent keeps only the
flits after it; a request counts one replay more of each flit kept; a whole packet of the own PTID stands at the tile of the port,
one of another PTID raises the FABRIC event and is discarded, and with EN = 0 every one is discarded. At a package port the first flit
that the neighbouring die keeps arrives and is kept no more, its packet standing at the port and counted there, or with a CRC failure
all of them are sent again. A keepalive is sent by a port that has sent nothing for CYCLES / 4, and waits where 512 flits are kept.
That package ports acknowledge in the same step, and that a CRC failure is answered each time, is the model's choice (log 83). A port
that has received nothing for 3 CYCLES, or with a flit replayed 16 times, clears UP, sets DOWN, empties its retry buffer, counts the
whole packets of it in WOFF of LNK up to its limit and in WOFF of their jobs, sends their sources a notice, and raises LINKDOWN and
LINKLOSS (for 0 packets too: the model's choice, log 85); before that nothing changes. RETRAIN starts training on a down link alone;
training ends with UP set and DOWN clear, on a link in training or one that was never down, and changes nothing on an up link, on a
down link without RETRAIN or at a disabled port. (R430; R431; R428; R429; R439; R438; R440; R131; R426) -/
def Obligations.LinksCarryFlitsInOrderAndFail : Prop :=
  ((∀ (s : State) (port : Nat) (pay : List Byte) (low crc : Half) (ag : Bool) (pkt : Option NetMsg) (l : Link),
     s.linkOf port = l → port < 24 →
     let tr : Word := crc ++ low
     let good := flitGood pay tr
     let x := exec (.flitReceive port pay low crc ag pkt) s
     (l.up = false ∨ s.dev.portOn port = false ∨ s.dev.halted (port / 6) = true → x = .next s)
     ∧ (isExternal port = false → s.portRuns port = true → ∀ q, s.linkOf (packagePeer port) = q →
         (q.retry = [] ∨ s.dev.halted (packagePeer port / 6) = true → x = .next s)
         ∧ (∀ f fs, q.retry = f :: fs → s.dev.halted (packagePeer port / 6) = false →
           (good = false → ∃ t, x = .next t ∧ t.dev.packets = s.dev.packets
             ∧ (t.linkOf (packagePeer port)).retry = q.retry.map (fun f => { f with replays := f.replays + 1 })
             ∧ (t.linkOf port).asked = true ∧ t.mem = s.mem)
           ∧ (good = true → ∃ t, x = .next t ∧ t.mem = s.mem ∧ (t.linkOf port).rx = l.rx + 1
             ∧ (t.linkOf (packagePeer port)).retry.take fs.length = fs ∧ (q.wait = [] → (t.linkOf (packagePeer port)).retry = fs)
             ∧ (f.pkt = none → t.dev.packets = s.dev.packets)
             ∧ (∀ p, f.pkt = some p → (p.guarded = true ∧ s.dev.slotOf p.job = none → t.dev.packets = s.dev.packets)
               ∧ (p.guarded = false ∨ s.dev.slotOf p.job ≠ none → t.dev.packets = s.dev.packets ++ [{ p with pos := portTile port }])
               ∧ (p.guarded = true → s.dev.slotOf p.job ≠ none →
                   t.portCnt port p.job = (s.portCnt port p.job).consume.inject)))))
     ∧ (isExternal port = true → s.portRuns port = true →
         let ask : List Flit := l.retry ++ [{ seq := l.tx, ack := some (l.rx - 1), again := true }]
         (good = false → ∃ t, x = .next t ∧ (t.linkOf port).rx = l.rx
           ∧ (t.linkOf port).asked = true ∧ (t.linkOf port).idleRx = 0 ∧ t.dev.packets = s.dev.packets ∧ t.mem = s.mem
           ∧ (l.wait = [] → l.retry.length < 512 → (t.linkOf port).retry = ask)
           ∧ t.dev.corr.getD 2 0 = (if s.dev.corr.getD 2 0 + 1 = 4096 then 0 else s.dev.corr.getD 2 0 + 1))
         ∧ (good = true → bitsN tr 31 20 ≠ l.rx.toNat → ∃ t, x = .next t
           ∧ (t.linkOf port).rx = l.rx ∧ (t.linkOf port).asked = true ∧ t.dev.packets = s.dev.packets ∧ t.mem = s.mem
           ∧ (l.asked = true → (t.linkOf port).retry = l.retry)
           ∧ (l.asked = false → l.wait = [] → l.retry.length < 512 → (t.linkOf port).retry = ask))
         ∧ (good = true → bitsN tr 31 20 = l.rx.toNat → ∃ t, x = .next t
           ∧ (t.linkOf port).rx = l.rx + 1 ∧ (t.linkOf port).asked = false ∧ (t.linkOf port).idleRx = 0 ∧ t.mem = s.mem
           ∧ (l.wait = [] → ∀ a : BitVec 12, a.toNat = bitsN tr 15 4 → tr.getLsbD 16 = true → (l.tx - 1 - a).toNat ≤ l.retry.length →
               (t.linkOf port).retry.length = (l.tx - 1 - a).toNat)
           ∧ (tr.getLsbD 16 = false → (t.linkOf port).retry
               = if ag = true ∧ bitsN tr 3 0 = 1 then l.retry.map fun f => { f with replays := f.replays + 1 } else l.retry)
           ∧ (pkt = none ∨ bitsN tr 3 0 = 1 ∨ s.dev.ptctl.getLsbD 0 = false → t.dev.packets = s.dev.packets)
           ∧ (∀ m, pkt = some m → bitsN tr 3 0 = 0 → s.dev.ptctl.getLsbD 0 = true →
               (m.ptid.toNat ≠ bitsN s.dev.ptctl 31 16 → t.dev.packets = s.dev.packets
                 ∧ ∃ e, t.dev.events = s.dev.events ++ [e] ∧ bitsN e.w0 7 0 = 20 ∧ e.body = [1, m.hdr])
               ∧ (m.ptid.toNat = bitsN s.dev.ptctl 31 16 → m.kind = 0 →
                   (s.dev.slotOf m.job = none → t.dev.packets = s.dev.packets)
                   ∧ (s.dev.slotOf m.job ≠ none → ∃ p, t.dev.packets = s.dev.packets ++ [p] ∧ p.kind = .msg ∧ p.job = m.job
                       ∧ p.dst = m.dst ∧ p.ring = m.ring ∧ p.sseq = m.sseq ∧ p.body = m.body ∧ p.pos = portTile port
                       ∧ p.classB = tr.getLsbD 17 ∧ t.portCnt port m.job = (s.portCnt port m.job).consume.inject))))))
   ∧ (∀ (s : State) (port : Nat) (l : Link), s.linkOf port = l → port < 24 →
       (s.portRuns port = false ∨ l.wait ≠ [] ∨ l.idleTx < bitsN s.dev.kaper 31 0 / 4 → exec (.keepaliveSend port) s = .next s)
       ∧ (s.portRuns port = true → l.wait = [] → bitsN s.dev.kaper 31 0 / 4 ≤ l.idleTx →
           (l.retry.length < 512 → exec (.keepaliveSend port) s = .next (s.onLink port fun l => { l with
             tx := l.tx + 1, idleTx := 0, sent := l.sent + 1, retry := l.retry ++ [{ seq := l.tx, ack := some (l.rx - 1) }] }))
           ∧ (512 ≤ l.retry.length → exec (.keepaliveSend port) s = .next (s.onLink port fun l => { l with wait := [{}] })))))
  ∧ (∀ (s : State) (port : Nat) (l : Link), s.linkOf port = l → port < 24 →
       (∀ (i : Instr) (cause : Nat),
         (i = .linkDown port ∧ s.portRuns port = true ∧ cause = 0 ∧ 3 * bitsN s.dev.kaper 31 0 ≤ l.idleRx)
           ∨ (i = .retransmissionExhausted port ∧ cause = 1 ∧ ∃ f ∈ l.retry, 16 ≤ f.replays) → l.up = true →
         ∃ t e1 e2, exec i s = .next t ∧ (t.linkOf port).up = false ∧ (t.linkOf port).down = true ∧ (t.linkOf port).retry = []
           ∧ t.mem = s.mem ∧ t.dev.events = s.dev.events ++ [e1, e2] ∧ bitsN e1.w0 7 0 = 21 ∧ bitsN e2.w0 7 0 = 19
           ∧ e1.body = [BitVec.ofNat 64 (port % 6 + port / 6 * 8 + cause * 256)]
           ∧ e2.body.getD 1 0 = BitVec.ofNat 64 (l.retry.filterMap (·.pkt)).length
           ∧ bitsN (t.linkOf port).lnk 63 32 = Nat.min (bitsN l.lnk 63 32 + (l.retry.filterMap (·.pkt)).length) (2 ^ 32 - 1)
           ∧ (l.retry.filterMap (·.pkt) = [] → t.dev.packets = s.dev.packets)
           ∧ ∀ p, l.retry.filterMap (·.pkt) = [p] → (p.kind ≠ .lost → t.dev.packets = s.dev.packets ++ [lostNotice p port])
             ∧ (s.dev.slotOf p.job ≠ none →
                 t.portCnt port p.job = if p.guarded then (s.portCnt port p.job).lose else s.portCnt port p.job))
       ∧ (s.portRuns port = false ∨ l.idleRx < 3 * bitsN s.dev.kaper 31 0 → exec (.linkDown port) s = .next s)
       ∧ (l.up = false ∨ (∀ f ∈ l.retry, f.replays < 16) → exec (.retransmissionExhausted port) s = .next s)
       ∧ exec (.linkRetrain port) s = .next (if l.down then s.onLink port fun l => { l with training := true } else s)
       ∧ (s.dev.portOn port = false ∨ l.up = true ∨ (l.down = true ∧ l.training = false) → exec (.linkTrained port) s = .next s)
       ∧ (s.dev.portOn port = true → l.up = false → l.down = false ∨ l.training = true → ∃ t, exec (.linkTrained port) s = .next t
           ∧ (t.linkOf port).up = true ∧ (t.linkOf port).down = false ∧ (t.linkOf port).training = false
           ∧ (t.linkOf port).idleRx = 0 ∧ (t.linkOf port).retry = l.retry))

/-- A freeze flood that a die has not seen adds its FRZID to the flood holds of the context in focus when that is a
resident tenant of the die, a thaw flood removes it; a supervisor context and a context of another die stand, and
PTFRZ keeps FRZID; a flood received again changes no context. A flood comes by a port that takes part in traffic: by an external
one with EN = 1, or by a package port over which the neighbour has forwarded it; else nothing changes. DONE stands when every die of
the module has applied the flood. A write of PTCTL with
EN = 1 on a valid PTSIZE and PTPOS sets EN and PTID and gives every tile its MODULE, on an invalid one sets BADCFG and
leaves EN 0; a write with EN = 0 clears EN and empties the retry buffer of every external port. That a flood through
BAR0 starts at die 0 is the model's choice. (R441; R442; R425; R427; R428; R440) -/
def Obligations.FloodsAndPartitions : Prop :=
  (∀ (s : State) (id : BitVec 16) (thaw : Bool) (x : Instr), x = (if thaw then .thawFloodStart id else .freezeFloodStart id) →
    (s.dev.floods.any fun f => f.die == 0 && f.id == id && f.thaw == thaw) = false →
    ∃ t, exec x s = .next t ∧ t.mem = s.mem ∧ t.ctx.csr.budget = s.ctx.csr.budget ∧ bitsN t.dev.ptfrz 47 32 = id.toNat
      ∧ (s.ctx.id.sup = true ∨ s.ctx.id.present = false ∨ tDie s.ctx.id.tile ≠ 0 → t.ctx = s.ctx)
      ∧ (s.ctx.id.sup = false → s.ctx.id.present = true → tDie s.ctx.id.tile = 0 →
          (id ∈ t.ctx.csr.holdFlood ↔ thaw = false)
          ∧ (∀ d, d ≠ id → (d ∈ t.ctx.csr.holdFlood ↔ d ∈ s.ctx.csr.holdFlood)) ∧ t.ctx.id = s.ctx.id
          ∧ (thaw = false → t.ctx.frozen = true)))
  ∧ (∀ (s : State) (port : Nat) (id : BitVec 16) (thaw : Bool), port < 24 →
      (s.portRuns port = false → exec (.freezeFloodReceive port id thaw) s = .next s)
      ∧ (isExternal port = true → s.dev.ptctl.getLsbD 0 = false → exec (.freezeFloodReceive port id thaw) s = .next s)
      ∧ (isExternal port = false → (∀ f ∈ s.dev.floodOut, f.via ≠ port ∨ f.id ≠ id ∨ f.thaw ≠ thaw) →
          exec (.freezeFloodReceive port id thaw) s = .next s)
      ∧ (s.portRuns port = true → isExternal port = true → s.dev.ptctl.getLsbD 0 = true →
          ∃ t, exec (.freezeFloodReceive port id thaw) s = .next t ∧ t.mem = s.mem
            ∧ (t.dev.ptfrz.getLsbD 2 = true ↔ (t.dev.floods.filter fun f => f.id == id && f.thaw == thaw).length = 4)
            ∧ ((∃ f ∈ s.dev.floods, f.die.toNat = port / 6 ∧ f.id = id ∧ f.thaw = thaw) → t.ctx = s.ctx ∧ t.ctxs = s.ctxs)
            ∧ ((∀ f ∈ s.dev.floods, f.die.toNat ≠ port / 6 ∨ f.id ≠ id ∨ f.thaw ≠ thaw) → s.ctx.id.sup = false →
                s.ctx.id.present = true → tDie s.ctx.id.tile = port / 6 → (id ∈ t.ctx.csr.holdFlood ↔ thaw = false))))
  ∧ (∀ (s : State) (v : Word), ∃ t u, exec (.partitionEnable v) s = .next t ∧ exec (.partitionDisable v) s = .next u
      ∧ t.mem = s.mem ∧ bitsN t.dev.ptctl 31 16 = bitsN v 31 16 ∧ bitsN u.dev.ptctl 31 16 = bitsN v 31 16
      ∧ (s.dev.ptctl.getLsbD 0 = true → t.dev.ptctl.getLsbD 0 = true)
      ∧ (s.dev.ptctl.getLsbD 0 = false → partitionOk s.dev.ptsize s.dev.ptpos = false →
          t.dev.ptctl.getLsbD 0 = false ∧ t.dev.ptctl.getLsbD 1 = true)
      ∧ (s.dev.ptctl.getLsbD 0 = false → partitionOk s.dev.ptsize s.dev.ptpos = true →
          t.dev.ptctl.getLsbD 0 = true ∧ ∀ x, (t.tileOf x).module = BitVec.ofNat 24 (bitsN s.dev.ptpos 7 0
            + bitsN s.dev.ptsize 7 0 / 2 * (bitsN s.dev.ptpos 15 8 + bitsN s.dev.ptsize 15 8 / 2 * bitsN s.dev.ptpos 23 16)))
      ∧ u.dev.ptctl.getLsbD 0 = false ∧ (∀ p, p < 24 → isExternal p = true → (u.linkOf p).retry = []))

/-- GO in STATE 1 or 15 starts the check, STATE 2, and is ignored in another STATE; the check ends in STATE 15 with the first
failing check of R420 in ERR, or in STATE 3 with SVN of the image. The staging window stores words of the scratchpad of tile (0, 0)
while STATE is 1 or 15: that it is closed in STATE 2, and that a success clears ERR, is the model's choice (log 91), as is what an
I3C write of nine bytes does (log 92). FIRMWARE_READY takes STATE 3 to 4, gives every tile its MODULE and enables channel 0. ATTCMD sets BUSY and its
address, or REFUSED when BUSY or not in STATE 4. The report of 4,864 bytes is written at ADDR, every other byte
stands, and then BUSY falls and DONE rises. I3C sets its address and index, answers the register of the index and
advances it, and writes PWRCAP alone. Fuses, SHAKE256 and Falcon are open constants of the model. (R419; R420; R421;
R422; R423; R424; R447; R445) -/
def Obligations.BootChecksTheImageAndReports : Prop :=
  (∀ (s : State) (agree : Bool) (e : Nat), s.imageErr s.dev.bootAgree = e →
    let st := bitsN s.dev.bootstat 3 0
    (st ≠ 1 → st ≠ 15 → st ≠ 2 → exec (.bootGo agree) s = .next s)
    ∧ (st = 1 ∨ st = 15 → exec (.bootGo agree) s = .next (s.onDev fun d => { d with
        bootstat := putBits d.bootstat 3 0 2, bootAgree := agree }))
    ∧ (st = 2 →
        (e ≠ 0 → exec (.bootGo agree) s = .next (s.onDev fun d => { d with
          bootstat := putBits (putBits d.bootstat 15 8 e) 3 0 15 }))
        ∧ (e = 0 → ∃ t, exec (.bootGo agree) s = .next t ∧ bitsN t.dev.bootstat 3 0 = 3 ∧ bitsN t.dev.bootstat 15 8 = 0
          ∧ bitsN t.dev.bootstat 63 32 = bitsN (s.stageWord 1) 31 0 ∧ t.mem = s.mem))
    ∧ (∀ v : Word, (v.getLsbD 0 = false → exec (.registerWrite 0x008 v) s = .next s)
        ∧ (v.getLsbD 0 = true → st = 1 ∨ st = 15 → ∃ b, exec (.registerWrite 0x008 v) s
            = .next { s with freeCtr := s.freeCtr + 1, dev := { s.dev with bootstat := putBits s.dev.bootstat 3 0 2, bootAgree := b } })
        ∧ (v.getLsbD 0 = true → st ≠ 1 → st ≠ 15 → exec (.registerWrite 0x008 v) s = .next { s with freeCtr := s.freeCtr + 1 }))
    ∧ (bitsN (s.stageWord 0) 31 0 ≠ 0x4D574644 → e = 1) ∧ (bitsN (s.stageWord 0) 39 32 ≠ 1 → e = 1)
    ∧ (e ≠ 1 → (s.stageWord 2).toNat % 64 ≠ 0 ∨ 8385408 < (s.stageWord 2).toNat → e = 2)
    ∧ (e ≠ 1 → e ≠ 2 → Config.revoke.getLsbD (bitsN (s.stageWord 0) 47 40) = true → e = 3)
    ∧ (e = 0 → s.dev.bootAgree = true ∧ Config.minsvn.toNat ≤ bitsN (s.stageWord 1) 31 0) ∧ e ≤ 7)
  ∧ (∀ (s : State) (off : BitVec 23) (v : Word),
      let st := bitsN s.dev.bootstat 3 0
      (st ≠ 1 ∧ st ≠ 15 ∨ off.toNat % 8 ≠ 0 → exec (.stagingWindowWrite off v) s = .next s)
      ∧ (st = 1 ∨ st = 15 → off.toNat % 8 = 0 → s.mem.wf = true → ∃ t, exec (.stagingWindowWrite off v) s = .next t
          ∧ s.mem.Stored t.mem none (spadKey 0 0 + off.toNat) 8 v.toNat ∧ t = { s with mem := t.mem }))
  ∧ (∀ (s : State) (m : BitVec 24),
      (bitsN s.dev.bootstat 3 0 ≠ 3 → exec (.firmwareReady m) s = .next s)
      ∧ (bitsN s.dev.bootstat 3 0 = 3 → ∃ t, exec (.firmwareReady m) s = .next t ∧ bitsN t.dev.bootstat 3 0 = 4
          ∧ bitsN t.dev.bootstat 63 32 = bitsN s.dev.bootstat 63 32 ∧ (∀ x, (t.tileOf x).module = m) ∧ (t.chan 0).en = true
          ∧ t.mem = s.mem))
  ∧ (∀ (s : State) (v : Word), ∃ t, exec (.attcmdWrite v) s = .next t
      ∧ (s.dev.attcmd.getLsbD 63 = true ∨ bitsN s.dev.bootstat 3 0 ≠ 4 →
          t = s.onDev fun d => { d with attcmd := putBits d.attcmd 61 61 1 })
      ∧ (s.dev.attcmd.getLsbD 63 = false → bitsN s.dev.bootstat 3 0 = 4 → t = (s.onDev fun d => { d with attcmd := t.dev.attcmd })
          ∧ t.dev.attcmd.getLsbD 63 = true ∧ bitsN t.dev.attcmd 51 6 = bitsN v 51 6
          ∧ ∀ i, i = 61 ∨ i = 62 → t.dev.attcmd.getLsbD i = (s.dev.attcmd.getLsbD i && !v.getLsbD i)))
  ∧ (∀ s : State,
      (s.dev.attcmd.getLsbD 63 = false → exec .reportCompletion s = .next s)
      ∧ s.dev.report.length = 4864
      ∧ (s.dev.attcmd.getLsbD 63 = true → s.mem.wf = true → ∀ k, k = hostKey (bitsN s.dev.attcmd 51 6 * 64) →
          ∃ t, exec .reportCompletion s = .next t ∧ t.dev.attcmd.getLsbD 63 = false ∧ t.dev.attcmd.getLsbD 62 = true
            ∧ (∀ i b, s.dev.report[i]? = some b → t.mem.view none (k + i) = b)
            ∧ ∀ x, x < k ∨ k + 4864 ≤ x → t.mem.view none x = s.mem.view none x))
  ∧ (∀ (s : State) (a : BitVec 7) (i : BitVec 8) (v : Word),
      exec (.i3cDynamicAddress a) s = .next (s.onDev fun d => { d with i3cAddr := a })
      ∧ exec (.i3cPrivateWrite i none) s = .next (s.onDev fun d => { d with i3cIdx := i })
      ∧ (i ≠ 0x10 → exec (.i3cPrivateWrite i (some v)) s = .next (s.onDev fun d => { d with i3cIdx := i }))
      ∧ (∃ w, exec (.i3cPrivateWrite 0x10 (some v)) s = .next (s.onDev fun d => { d with i3cIdx := 0x10, pwrcap := w })
          ∧ bitsN w 31 16 = Nat.max 500 (Nat.min 4000 (bitsN v 31 16)) ∧ w.getLsbD 0 = v.getLsbD 0
          ∧ bitsN w 63 32 = 0 ∧ bitsN w 15 1 = 0)
      ∧ (∃ w, exec .i3cPrivateRead s = .next (s.onDev fun d => { d with i3cOut := w, i3cIdx := d.i3cIdx + 1 })
          ∧ (s.dev.i3cIdx = 0 → w = s.dev.bootstat) ∧ (s.dev.i3cIdx = 0x10 → w = s.dev.pwrcap)
          ∧ (∀ d, d < 4 → s.dev.i3cIdx.toNat = 0x11 + d → w = s.dev.diestat.getD d 0)
          ∧ (∀ p, p < 24 → s.dev.i3cIdx.toNat = 0x20 + p → w = (s.linkOf p).lnk)
          ∧ (s.dev.i3cIdx = 0x40 → w = s.dev.cecnt) ∧ (s.dev.i3cIdx = 0x41 → w = s.dev.uecnt)
          ∧ (s.dev.i3cIdx = 0x0F ∨ s.dev.i3cIdx = 0x15 ∨ s.dev.i3cIdx = 0x38 ∨ s.dev.i3cIdx = 0x42 → w = 0)))

/-- KEYCMD LOAD gives a slot the key of KEYDATA and CLEAR empties it; both clear KEYDATA and leave every other slot. HOLD
freezes the context, its release ends every hold but a flood hold. A store to a context image acts as the CSRW of the
register, and a block in flight goes on seeing the value before it; LOGPOS takes RD in RECORD and WR in STEER when the move is within the ring, and stands otherwise; LOGLIM
keeps its fields. A write of a TLBISO word stores it on the tile of the slice and drops the held translations of the
slice. PWRCAP and KAPER keep their least and greatest values, PTSIZE and PTPOS ignore writes while EN = 1, ATTN while
BUSY, HALT is cleared only below 95 degrees, and KEYDATA, SPTBASE, PROFBASE and PLBASE keep their fields; a write that
no register takes changes nothing. (R374; R368; R381; R391; R406; R407; R445; R438; R423; R5; R6) -/
def Obligations.HostRegistersKeysAndImages : Prop :=
  (∀ (s : State) (k : BitVec 9), ∃ t u, exec (.keyLoad k) s = .next t ∧ exec (.keyClear k) s = .next u ∧ t.mem = s.mem ∧ u.mem = s.mem
    ∧ t.dev.keydata = Vector.replicate 8 0 ∧ u.dev.keydata = Vector.replicate 8 0 ∧ u.dev.keyOf k.toNat = none
    ∧ (∃ x, t.dev.keyOf k.toNat = some x ∧ ∀ i, i < 8 → x.toNat / 2 ^ (64 * i) % 2 ^ 64 = (s.dev.keydata.getD i 0).toNat)
    ∧ ∀ j, j ≠ k.toNat → t.dev.keyOf j = s.dev.keyOf j ∧ u.dev.keyOf j = s.dev.keyOf j)
  ∧ (∀ (s : State) (tile : BitVec 8) (n : BitVec 2) (r : Csr) (v : Word),
      (s.ctxAt tile n = none → ∀ i ∈ [Instr.ctxctlHold tile n, .ctxctlRelease tile n, .contextImageStore tile n r v,
          .logposWrite tile n v, .loglimWrite tile n v], exec i s = .next s)
      ∧ (s.ctx.id.present = true → s.ctx.id.tile = tile → s.ctx.id.num = n →
          (∃ t, exec (.ctxctlHold tile n) s = .next t ∧ t.ctx.frozen = true
            ∧ t = s.onCsr fun c => { c with holdSup := true })
          ∧ (∃ t, exec (.ctxctlRelease tile n) s = .next t
            ∧ t = (s.onCsr fun c => { c with holdSup := false, holdEsc := false, holdBrk := false, faultHold := false })
            ∧ (t.ctx.frozen = true ↔ s.ctx.csr.holdFlood ≠ [] ∨ (s.ctx.csr.saving = true ∧ s.ctx.csr.atBound = false)))
          ∧ (∃ t, exec (.contextImageStore tile n r v) s = .next t
            ∧ t = { s.csrWrite r v with fir := t.fir, ctx := { (s.csrWrite r v).ctx with firs := t.ctx.firs } }
            ∧ (s.fir.phase ≠ .run → t.fir = s.fir) ∧ (∀ q, q ≠ r → t.oldCsr q = s.oldCsr q)
            ∧ (s.fir.phase = .run → t.oldCsr r = some ((s.oldCsr r).getD (csrRead s.ctx s.tile r))))
          ∧ (∃ t, exec (.logposWrite tile n v) s = .next t ∧ t.mem = s.mem
            ∧ (s.ctx.logSteer = false → t.ctx.logWR = s.ctx.logWR ∧ t.ctx.logRD
                = if (bitsN v 23 0 + 2 ^ 24 - s.ctx.logRD) % 2 ^ 24 ≤ s.ctx.logUsed then bitsN v 23 0 else s.ctx.logRD)
            ∧ (s.ctx.logSteer = true → t.ctx.logRD = s.ctx.logRD ∧ t.ctx.logWR
                = if (bitsN v 47 24 + 2 ^ 24 - s.ctx.logWR) % 2 ^ 24 ≤ s.ctx.logN - s.ctx.logUsed then bitsN v 47 24
                  else s.ctx.logWR))
          ∧ (∃ t, exec (.loglimWrite tile n v) s = .next t ∧ t.mem = s.mem
            ∧ bitsN t.ctx.csr.loglim 63 63 = bitsN v 63 63 ∧ bitsN t.ctx.csr.loglim 62 61 = (if bitsN v 62 61 = 1 then 1 else 0)
            ∧ t.ctx.logN = (if bitsN v 23 0 = 0 then 0 else Nat.min (2 ^ 23) (Nat.max 64 (bitsN v 23 0))))))
  ∧ (∀ (s : State) (die : BitVec 2) (i : BitVec 4) (w : BitVec 3) (v : Word),
      (6 ≤ w.toNat → exec (.tlbisoWrite die i w v) s = .next s)
      ∧ (w.toNat < 6 → ∃ t x, x = BitVec.ofNat 8 (64 * die.toNat + 16 * (i.toNat / 4) + 2 * (i.toNat % 4))
          ∧ exec (.tlbisoWrite die i w v) s = .next t ∧ t.mem = s.mem
          ∧ (t.tileOf x).tlbiso.getD w.toNat 0
            = (if w = 0 then v else if w = 1 then v &&& 0x1FF else v &&& 0x01FF01FF01FF01FF)
          ∧ t.dev.tlb = s.dev.tlb.filter fun e => e.slice.toNat != 16 * die.toNat + i.toNat))
  ∧ (∀ (s : State) (v : Word),
      (∃ t w, exec (.registerWrite 0x600 v) s = .next t ∧ t = (s.onDev fun d => { d with pwrcap := w })
          ∧ bitsN w 31 16 = Nat.max 500 (Nat.min 4000 (bitsN v 31 16)) ∧ w.getLsbD 0 = v.getLsbD 0)
      ∧ (∃ t w, exec (.registerWrite 0x420 v) s = .next t ∧ t = (s.onDev fun d => { d with kaper := w })
          ∧ w.toNat = Nat.max 65536 (bitsN v 31 0))
      ∧ (∀ e, s.dev.ptctl.getLsbD 0 = e →
          exec (.registerWrite 0x408 v) s = .next (if e then s else s.onDev fun d => { d with ptsize := v &&& 0xFFFFFF })
          ∧ exec (.registerWrite 0x410 v) s = .next (if e then s else s.onDev fun d => { d with ptpos := v &&& 0xFFFFFF }))
      ∧ (∀ n : BitVec 20, n.toNat < 8 →
          exec (.registerWrite (0x308 + 8 * n) v) s = .next (s.onDev fun d => { d with
            attn := if d.attcmd.getLsbD 63 then d.attn else setV d.attn n.toNat v })
          ∧ exec (.registerWrite (0x220 + 8 * n) v) s = .next (s.onDev fun d => { d with keydata := setV d.keydata n.toNat v }))
      ∧ exec (.registerWrite 0x200 v) s = .next (s.onDev fun d => { d with sptbase := v &&& 0xFFFFFFF00000 })
      ∧ exec (.registerWrite 0x208 v) s = .next (s.onDev fun d => { d with profbase := v &&& 0xFFFFFFFFE000 })
      ∧ exec (.registerWrite 0x210 v) s = .next (s.onDev fun d => { d with plbase := v &&& 0xFFFFFF800000 })
      ∧ (∀ n : BitVec 20, n.toNat < 4 → exec (.registerWrite (0x608 + 8 * n) v) s = .next (s.onDev fun d => { d with
          diestat := modV d.diestat n.toNat fun w =>
            if v.getLsbD 0 && decide (bitsN w 47 40 < 95) then w &&& ~~~(1 : Word) else w }))
      ∧ exec (.registerWrite 0x700 v) s = .next s)

/-- An uncontained error of a context of the module freezes it as by the supervisor, one of a tile freezes the context in
focus on it, one of a part of a placed configuration, or of a switch box of it, is its fault with code 0x0B6; each counts in UNCONT
and leaves its structure damaged; how its owner is named, and that one whose owner does not exist changes nothing, is the model's
choice (log 94). A die that has counted 2^20 cycles takes its readings and, by the first row of R446 that holds, sets HALT at 110
degrees with event 24, raises STEP up to 12 from 100 degrees or above LIMIT, with event 25 on a rise for power after none (the first
of consecutive ones: the model's choice, log 93), lowers it below 95 degrees, or leaves it; the other dies stand. That a halted die
takes its readings is the model's choice (log 34). Device reset leaves every register and context as State.reset has it; memory
bytes stand by the model's choice (log 26). (R436; R437; R445;
R446; R6; R447) -/
def Obligations.ErrorsClocksAndReset : Prop :=
  (∀ (s : State) (tile n : BitVec 8) (code : BitVec 12) (ep : BitVec 13),
    (s.ctxAt tile (n.setWidth 2) = none → exec (.uncontainedError 1 tile n code ep) s = .next s)
    ∧ (s.ctx.id.present = true → s.ctx.id.tile = tile →
        (s.ctx.id.num = n.setWidth 2 → ∃ t e, exec (.uncontainedError 1 tile n code ep) s = .next t ∧ t.ctx.csr.faultHold = true
          ∧ t.ctx.frozen = true ∧ t.mem = s.mem ∧ t.fir = s.fir ∧ t.dev.events = s.dev.events ++ [e] ∧ bitsN e.w0 7 0 = 18
          ∧ bitsN (e.body.getD 0 0) 1 0 = 1 ∧ bitsN (e.body.getD 0 0) 21 10 = code.toNat
          ∧ bitsN t.dev.uecnt 47 32 = Nat.min (bitsN s.dev.uecnt 47 32 + 1) 65535
          ∧ t.dev.damage = s.dev.damage ++ [⟨code, tile, some s.ctx.id.uid⟩])
        ∧ (∃ t, exec (.uncontainedError 2 tile n code ep) s = .next t ∧ t.dev.damage = s.dev.damage ++ [⟨code, tile, none⟩] ∧ t.ctx.csr.faultHold = true ∧ t.ctx.frozen = true
          ∧ t.mem = s.mem)
        ∧ (s.ctx.id.num = BitVec.ofNat 2 (bitsN n 6 5) →
          (s.ctx.cfg (bitsN n 4 0) = none → exec (.uncontainedError 0 tile n code ep) s = .next s)
          ∧ (∀ g, s.ctx.cfg (bitsN n 4 0) = some g → g.fault = none → ∃ t g' x, exec (.uncontainedError 0 tile n code ep) s = .next t
            ∧ t.ctx.cfg (bitsN n 4 0) = some g' ∧ g'.fault = some (x, 0x0B6) ∧ (g.partAt ep = none → x = ep)))))
  ∧ (∀ (s : State) (die : BitVec 2) (tj th : BitVec 8) (pwr : BitVec 16) (w : Word), s.dev.diestat.getD die.toNat 0 = w →
      (w.getLsbD 0 = false → s.dev.clk.getD die.toNat 0 < 2 ^ 20 → exec (.clockReevaluation die tj th pwr) s = .next s)
      ∧ (w.getLsbD 0 = true → ∃ t x, exec (.clockReevaluation die tj th pwr) s = .next t ∧ t.dev.diestat.getD die.toNat 0 = x
          ∧ bitsN x 47 40 = tj.toNat ∧ bitsN x 39 32 = th.toNat ∧ bitsN x 31 0 = bitsN w 31 0 ∧ t.dev.events = s.dev.events)
      ∧ (w.getLsbD 0 = false → 2 ^ 20 ≤ s.dev.clk.getD die.toNat 0 → ∀ sum,
          sum = pwr.toNat + (((List.range 4).filter (· != die.toNat)).map fun j => bitsN (s.dev.diestat.getD j 0) 31 16).sum →
          ∃ t x, exec (.clockReevaluation die tj th pwr) s = .next t ∧ t.dev.diestat.getD die.toNat 0 = x ∧ t.mem = s.mem
            ∧ t.dev.clk.getD die.toNat 0 = 0 ∧ (∀ j, j ≠ die.toNat → t.dev.diestat.getD j 0 = s.dev.diestat.getD j 0)
            ∧ bitsN x 47 40 = tj.toNat ∧ bitsN x 39 32 = th.toNat ∧ bitsN x 31 16 = pwr.toNat
            ∧ (let st := bitsN w 7 4
               let up := if st < 12 then st + 1 else st
               let hot := bitsN s.dev.pwrcap 31 16 < sum ∧ s.dev.pwrcap.getLsbD 0 = true
               (110 ≤ tj.toNat → x.getLsbD 0 = true ∧ bitsN x 7 4 = st ∧ ∃ e, t.dev.events = s.dev.events ++ [e]
                  ∧ bitsN e.w0 7 0 = 24)
               ∧ (tj.toNat < 110 → x.getLsbD 0 = false)
               ∧ (tj.toNat < 110 → 100 ≤ tj.toNat → bitsN x 7 4 = up ∧ t.dev.events = s.dev.events)
               ∧ (tj.toNat < 100 → hot → bitsN x 7 4 = up)
               ∧ (tj.toNat < 100 → hot → st < 12 → s.dev.capped.getD die.toNat false = false →
                  ∃ e, t.dev.events = s.dev.events ++ [e] ∧ bitsN e.w0 7 0 = 25)
               ∧ (tj.toNat < 100 → ¬hot → (s.dev.pwrcap.getLsbD 0 = false ∨ sum + 100 < bitsN s.dev.pwrcap 31 16) → tj.toNat < 95 →
                  bitsN x 7 4 = st - 1 ∧ t.dev.events = s.dev.events)
               ∧ (tj.toNat < 100 → ¬hot → (95 ≤ tj.toNat
                  ∨ (s.dev.pwrcap.getLsbD 0 = true ∧ bitsN s.dev.pwrcap 31 16 ≤ sum + 100)) → bitsN x 7 4 = st))))
  ∧ (∀ s : State, exec .deviceReset s = .next { State.reset with
        mem := s.mem
        agenda := s.agenda
        freeCtr := s.freeCtr
        dev := { State.reset.dev with upsets := s.dev.upsets } })

end
end

