-- ==== Sys2Proof/Laws/Encoding.lean ====
section
/-! SUPPORT. Fields of the words of each format, and what each kind of row of the opcode map decodes (06 R143, R144; 07
R154 to R162). -/

namespace Sys2Proof

/-! ### Fields of words -/

section Fields
variable {c o : Nat} {m : BitVec 5} {t1 t0 : BitVec 9} {imm : BitVec 14} {g : BitVec 6} {m8 : BitVec 8}
  {vd va vb lane : BitVec 5} {q vm : BitVec 2} {vm6 : BitVec 6}

theorem wordD_toNat (hc : c < 8) (ho : o < 64) : (wordD c o m t1 t0).toNat =
    536870912 * c + 8388608 * o + 262144 * m.toNat + 512 * t1.toNat + t0.toNat := by
  simp only [wordD, fixedPart, BitVec.toNat_ofNat]; omega
theorem wordI_toNat (hc : c < 8) (ho : o < 64) : (wordI c o imm t0).toNat =
    536870912 * c + 8388608 * o + 512 * imm.toNat + t0.toNat := by
  simp only [wordI, fixedPart, BitVec.toNat_ofNat]; omega
theorem wordG_toNat (hc : c < 8) (ho : o < 64) : (wordG c o g m8 t0).toNat =
    536870912 * c + 8388608 * o + 131072 * g.toNat + 512 * m8.toNat + t0.toNat := by
  simp only [wordG, fixedPart, BitVec.toNat_ofNat]; omega
theorem wordV_toNat (hc : c < 8) (ho : o < 64) : (wordV c o vd va vb q vm6).toNat =
    536870912 * c + 8388608 * o + 262144 * vd.toNat + 8192 * va.toNat + 256 * vb.toNat + 64 * q.toNat + vm6.toNat := by
  simp only [wordV, fixedPart, BitVec.toNat_ofNat]; omega
theorem wordVS_toNat (hc : c < 8) (ho : o < 64) : (wordVS c o va q vm lane t0).toNat =
    536870912 * c + 8388608 * o + 262144 * va.toNat + 65536 * q.toNat + 16384 * vm.toNat + 512 * lane.toNat + t0.toNat := by
  simp only [wordVS, fixedPart, BitVec.toNat_ofNat]; omega

theorem fCls_wordD (hc : c < 8) (ho : o < 64) : fCls (wordD c o m t1 t0) = c := by
  simp only [fCls, wordD_toNat hc ho]; omega
theorem fOp_wordD (hc : c < 8) (ho : o < 64) : fOp (wordD c o m t1 t0) = o := by
  simp only [fOp, wordD_toNat hc ho]; omega
theorem fMod_wordD (hc : c < 8) (ho : o < 64) : fMod (wordD c o m t1 t0) = m := by
  apply BitVec.eq_of_toNat_eq; simp only [fMod, wordD_toNat hc ho, BitVec.toNat_ofNat]; omega
theorem fT1_wordD (hc : c < 8) (ho : o < 64) : fT1 (wordD c o m t1 t0) = t1 := by
  apply BitVec.eq_of_toNat_eq; simp only [fT1, wordD_toNat hc ho, BitVec.toNat_ofNat]; omega
theorem fT0_wordD (hc : c < 8) (ho : o < 64) : fT0 (wordD c o m t1 t0) = t0 := by
  apply BitVec.eq_of_toNat_eq; simp only [fT0, wordD_toNat hc ho, BitVec.toNat_ofNat]; omega

theorem fCls_wordI (hc : c < 8) (ho : o < 64) : fCls (wordI c o imm t0) = c := by
  simp only [fCls, wordI_toNat hc ho]; omega
theorem fOp_wordI (hc : c < 8) (ho : o < 64) : fOp (wordI c o imm t0) = o := by
  simp only [fOp, wordI_toNat hc ho]; omega
theorem fImm_wordI (hc : c < 8) (ho : o < 64) : fImm (wordI c o imm t0) = imm := by
  apply BitVec.eq_of_toNat_eq; simp only [fImm, wordI_toNat hc ho, BitVec.toNat_ofNat]; omega
theorem fT0_wordI (hc : c < 8) (ho : o < 64) : fT0 (wordI c o imm t0) = t0 := by
  apply BitVec.eq_of_toNat_eq; simp only [fT0, wordI_toNat hc ho, BitVec.toNat_ofNat]; omega

theorem fCls_wordG (hc : c < 8) (ho : o < 64) : fCls (wordG c o g m8 t0) = c := by
  simp only [fCls, wordG_toNat hc ho]; omega
theorem fOp_wordG (hc : c < 8) (ho : o < 64) : fOp (wordG c o g m8 t0) = o := by
  simp only [fOp, wordG_toNat hc ho]; omega
theorem fGreg_wordG (hc : c < 8) (ho : o < 64) : fGreg (wordG c o g m8 t0) = g := by
  apply BitVec.eq_of_toNat_eq; simp only [fGreg, wordG_toNat hc ho, BitVec.toNat_ofNat]; omega
theorem fMod8_wordG (hc : c < 8) (ho : o < 64) : fMod8 (wordG c o g m8 t0) = m8 := by
  apply BitVec.eq_of_toNat_eq; simp only [fMod8, wordG_toNat hc ho, BitVec.toNat_ofNat]; omega
theorem fT0_wordG (hc : c < 8) (ho : o < 64) : fT0 (wordG c o g m8 t0) = t0 := by
  apply BitVec.eq_of_toNat_eq; simp only [fT0, wordG_toNat hc ho, BitVec.toNat_ofNat]; omega

theorem fCls_wordV (hc : c < 8) (ho : o < 64) : fCls (wordV c o vd va vb q vm6) = c := by
  simp only [fCls, wordV_toNat hc ho]; omega
theorem fOp_wordV (hc : c < 8) (ho : o < 64) : fOp (wordV c o vd va vb q vm6) = o := by
  simp only [fOp, wordV_toNat hc ho]; omega
theorem fVD_wordV (hc : c < 8) (ho : o < 64) : fVD (wordV c o vd va vb q vm6) = vd := by
  apply BitVec.eq_of_toNat_eq; simp only [fVD, wordV_toNat hc ho, BitVec.toNat_ofNat]; omega
theorem fVA_wordV (hc : c < 8) (ho : o < 64) : fVA (wordV c o vd va vb q vm6) = va := by
  apply BitVec.eq_of_toNat_eq; simp only [fVA, wordV_toNat hc ho, BitVec.toNat_ofNat]; omega
theorem fVB_wordV (hc : c < 8) (ho : o < 64) : fVB (wordV c o vd va vb q vm6) = vb := by
  apply BitVec.eq_of_toNat_eq; simp only [fVB, wordV_toNat hc ho, BitVec.toNat_ofNat]; omega
theorem fPipe_wordV (hc : c < 8) (ho : o < 64) : fPipe (wordV c o vd va vb q vm6) = q := by
  apply BitVec.eq_of_toNat_eq; simp only [fPipe, wordV_toNat hc ho, BitVec.toNat_ofNat]; omega
theorem fVmod_wordV (hc : c < 8) (ho : o < 64) : fVmod (wordV c o vd va vb q vm6) = vm6 := by
  apply BitVec.eq_of_toNat_eq; simp only [fVmod, wordV_toNat hc ho, BitVec.toNat_ofNat]; omega

theorem fCls_wordVS (hc : c < 8) (ho : o < 64) : fCls (wordVS c o va q vm lane t0) = c := by
  simp only [fCls, wordVS_toNat hc ho]; omega
theorem fOp_wordVS (hc : c < 8) (ho : o < 64) : fOp (wordVS c o va q vm lane t0) = o := by
  simp only [fOp, wordVS_toNat hc ho]; omega
theorem fVD_wordVS (hc : c < 8) (ho : o < 64) : fVD (wordVS c o va q vm lane t0) = va := by
  apply BitVec.eq_of_toNat_eq; simp only [fVD, wordVS_toNat hc ho, BitVec.toNat_ofNat]; omega
theorem fSPipe_wordVS (hc : c < 8) (ho : o < 64) : fSPipe (wordVS c o va q vm lane t0) = q := by
  apply BitVec.eq_of_toNat_eq; simp only [fSPipe, wordVS_toNat hc ho, BitVec.toNat_ofNat]; omega
theorem fVmod2_wordVS (hc : c < 8) (ho : o < 64) : fVmod2 (wordVS c o va q vm lane t0) = vm := by
  apply BitVec.eq_of_toNat_eq; simp only [fVmod2, wordVS_toNat hc ho, BitVec.toNat_ofNat]; omega
theorem fLane_wordVS (hc : c < 8) (ho : o < 64) : fLane (wordVS c o va q vm lane t0) = lane := by
  apply BitVec.eq_of_toNat_eq; simp only [fLane, wordVS_toNat hc ho, BitVec.toNat_ofNat]; omega
theorem fT0_wordVS (hc : c < 8) (ho : o < 64) : fT0 (wordVS c o va q vm lane t0) = t0 := by
  apply BitVec.eq_of_toNat_eq; simp only [fT0, wordVS_toNat hc ho, BitVec.toNat_ofNat]; omega
end Fields

/-! ### Consumer fields (06 R144) -/

theorem pos_dec_enc (x : Pos) : Pos.dec x.enc = x := by cases x <;> rfl

theorem cons_dec_enc (t : Cons) : Cons.dec t.enc = .ok t := by
  cases t with
  | none => rfl
  | some d =>
    obtain ⟨k, x⟩ := d
    have hk := k.isLt
    have hp : x.enc.toNat < 4 := x.enc.isLt
    have e : (Cons.enc (some ⟨k, x⟩)).toNat = 256 + 4 * k.toNat + x.enc.toNat := by
      simp only [Cons.enc, BitVec.toNat_ofNat]; omega
    have h1 : (Cons.enc (some ⟨k, x⟩)).toNat / 256 = 1 := by rw [e]; omega
    have h2 : BitVec.ofNat 6 ((Cons.enc (some ⟨k, x⟩)).toNat / 4) = k := by
      apply BitVec.eq_of_toNat_eq; rw [e, BitVec.toNat_ofNat]; omega
    have h3 : BitVec.ofNat 2 (Cons.enc (some ⟨k, x⟩)).toNat = x.enc := by
      apply BitVec.eq_of_toNat_eq; rw [e, BitVec.toNat_ofNat]; omega
    simp only [Cons.dec, h1, if_true, h2, h3, pos_dec_enc]

/-! ### Cells of the map -/

section Cells
variable {o : Nat} {w : Half}
theorem decode_s (hc : fCls w = 0) (ho : fOp w = o) : decode w = cell rowsS o w := by simp only [decode, hc, ho]
theorem decode_v (hc : fCls w = 1) (ho : fOp w = o) (h : o < 48) : decode w = cell rowsV o w := by
  simp only [decode, hc, ho]; rw [if_neg (by omega)]
theorem decode_m (hc : fCls w = 2) (ho : fOp w = o) : decode w = cell rowsM o w := by simp only [decode, hc, ho]
theorem decode_c (hc : fCls w = 3) (ho : fOp w = o) : decode w = cell rowsC o w := by simp only [decode, hc, ho]
theorem decode_l (hc : fCls w = 4) (ho : fOp w = o) : decode w = cell rowsL o w := by simp only [decode, hc, ho]
theorem decode_k (hc : fCls w = 5) (ho : fOp w = o + 32) : decode w = cell rowsK o w := by
  simp only [decode, hc, ho]; rw [if_pos (by omega)]; rfl
theorem decode_y (hc : fCls w = 6) (ho : fOp w = o) : decode w = cell rowsY o w := by simp only [decode, hc, ho]
theorem decode_z (hc : fCls w = 7) (ho : fOp w = o) : decode w = cell rowsZ o w := by simp only [decode, hc, ho]
end Cells

/-! ### Rows by format -/

section Rows
variable {α : Type} {c o : Nat} {t0 t1 : Cons} {m : BitVec 5}

theorem rowD_word (hc : c < 8) (ho : o < 64) {md : BitVec 5 → Option α} {f : α → Cons → Cons → Instr} {x : α}
    (h : md m = some x) : rowD md f (eD c o m t0 t1) = .ok (f x t0 t1) := by
  simp only [rowD, eD, fT1_wordD hc ho, fT0_wordD hc ho, fMod_wordD hc ho, cons_dec_enc, h]; rfl
theorem rowDk_word (hc : c < 8) (ho : o < 64) {k : Nat} {md : Nat → Option α} {f : α → Cons → Cons → Instr} {x : α}
    (hk : m.toNat < 2 ^ k) (h : md m.toNat = some x) : rowDk k md f (eD c o m t0 t1) = .ok (f x t0 t1) := by
  simp only [rowDk, eD, fT1_wordD hc ho, fT0_wordD hc ho, fMod_wordD hc ho, cons_dec_enc, h, resv, hk, decide_true,
    if_true]; rfl
theorem rowN_word (hc : c < 8) (ho : o < 64) {md : BitVec 5 → Option α} {f : α → Instr} {x : α}
    (h : md m = some x) : rowN md f (eN c o m) = .ok (f x) := by
  simp only [rowN, eN, fT1_wordD hc ho, fT0_wordD hc ho, fMod_wordD hc ho, h]; rfl
theorem rowNk_word (hc : c < 8) (ho : o < 64) {k : Nat} {md : Nat → Option α} {f : α → Instr} {x : α}
    (hk : m.toNat < 2 ^ k) (h : md m.toNat = some x) : rowNk k md f (eN c o m) = .ok (f x) := by
  simp only [rowNk, eN, fT1_wordD hc ho, fT0_wordD hc ho, fMod_wordD hc ho, h, resv, hk, decide_true, if_true]; rfl
theorem rowVS_word (hc : c < 8) (ho : o < 64) {md : BitVec 2 → Option α} {f : α → BitVec 5 → BitVec 2 → Cons → Instr}
    {x : α} {va : BitVec 5} {q vm : BitVec 2} (h : md vm = some x) :
    rowVS md f (wordVS c o va q vm 0 t0.enc) = .ok (f x va q t0) := by
  simp only [rowVS, fT0_wordVS hc ho, fLane_wordVS hc ho, fVmod2_wordVS hc ho, fVD_wordVS hc ho, fSPipe_wordVS hc ho,
    cons_dec_enc, h]; rfl

theorem rowD0_word (hc : c < 8) (ho : o < 64) {f : Cons → Cons → Instr} :
    rowD0 f (eD c o 0 t0 t1) = .ok (f t0 t1) := rowD_word hc ho rfl
theorem rowN0_word (hc : c < 8) (ho : o < 64) {i : Instr} : rowN0 i (eN c o 0) = .ok i := rowN_word hc ho rfl
theorem rowH_word (hc : c < 8) (ho : o < 64) {f : BitVec 5 → Instr} : rowH f (eN c o m) = .ok (f m) :=
  rowN_word hc ho rfl
theorem rowR_word (hc : c < 8) (ho : o < 64) {f : BitVec 3 → Instr} (r : BitVec 3) :
    rowR f (eN c o (m5 r.toNat)) = .ok (f r) :=
  rowNk_word hc ho (by revert r; decide) (by revert r; decide)

variable {vd va vb : BitVec 5} {q : BitVec 2} {n : Nat}

theorem ofNat6 (h : n < 64) : (BitVec.ofNat 6 n).toNat = n := by rw [BitVec.toNat_ofNat]; omega

theorem rowVT_word (ho : o < 64) {f : VType → BitVec 5 → BitVec 5 → BitVec 5 → BitVec 2 → Instr} (ty : VType) :
    rowVT f (eV o vd va vb q (16 * ty.enc)) = .ok (f ty vd va vb q) := by
  cases ty <;> simp only [rowVT, eV, fVmod_wordV (c := 1) (by decide) ho, fVD_wordV (c := 1) (by decide) ho,
    fVA_wordV (c := 1) (by decide) ho, fVB_wordV (c := 1) (by decide) ho, fPipe_wordV (c := 1) (by decide) ho] <;> rfl
theorem rowVT1_word (ho : o < 64) {f : VType → BitVec 5 → BitVec 5 → BitVec 2 → Instr} (ty : VType) (h : ty ≠ .n32) :
    rowVT1 f (eV o vd va 0 q (16 * ty.enc)) = .ok (f ty vd va q) := by
  cases ty <;> simp only [rowVT1, eV, fVmod_wordV (c := 1) (by decide) ho, fVD_wordV (c := 1) (by decide) ho,
    fVA_wordV (c := 1) (by decide) ho, fVB_wordV (c := 1) (by decide) ho, fPipe_wordV (c := 1) (by decide) ho]
  · rfl
  · rfl
  · exact absurd rfl h
theorem rowV3_word (ho : o < 64) {f : BitVec 5 → BitVec 5 → BitVec 5 → BitVec 2 → Instr} :
    rowV3 f (eV o vd va vb q 0) = .ok (f vd va vb q) := by
  simp only [rowV3, eV, fVmod_wordV (c := 1) (by decide) ho, fVD_wordV (c := 1) (by decide) ho,
    fVA_wordV (c := 1) (by decide) ho, fVB_wordV (c := 1) (by decide) ho, fPipe_wordV (c := 1) (by decide) ho]; rfl
theorem rowV2_word (ho : o < 64) {f : BitVec 5 → BitVec 5 → BitVec 2 → Instr} :
    rowV2 f (eV o vd va 0 q 0) = .ok (f vd va q) := by
  simp only [rowV2, eV, fVmod_wordV (c := 1) (by decide) ho, fVD_wordV (c := 1) (by decide) ho,
    fVA_wordV (c := 1) (by decide) ho, fVB_wordV (c := 1) (by decide) ho, fPipe_wordV (c := 1) (by decide) ho]; rfl
theorem rowVm_word (ho : o < 64) (hn : n < 64) {res : Nat → Bool} {md : Nat → Option α}
    {f : α → BitVec 5 → BitVec 5 → BitVec 2 → Instr} {x : α} (hr : res n = true) (h : md n = some x) :
    rowVm res md f (eV o vd va 0 q n) = .ok (f x vd va q) := by
  simp only [rowVm, eV, fVmod_wordV (c := 1) (by decide) ho, fVD_wordV (c := 1) (by decide) ho,
    fVA_wordV (c := 1) (by decide) ho, fVB_wordV (c := 1) (by decide) ho, fPipe_wordV (c := 1) (by decide) ho,
    ofNat6 hn, hr, h]; rfl
theorem rowVSh_word (ho : o < 64) {f : VCount → BitVec 5 → BitVec 5 → BitVec 2 → Instr} (k : VCount) :
    rowVSh f (eSh o k vd va q) = .ok (f k vd va q) := by
  cases k with
  | reg vb =>
    simp only [rowVSh, eSh, eV, fVmod_wordV (c := 1) (by decide) ho, fVD_wordV (c := 1) (by decide) ho,
      fVA_wordV (c := 1) (by decide) ho, fVB_wordV (c := 1) (by decide) ho, fPipe_wordV (c := 1) (by decide) ho]; rfl
  | imm s =>
    have hs := s.isLt
    have h1 : (BitVec.ofNat 6 (32 + s.toNat)).toNat = 32 + s.toNat := ofNat6 (by omega)
    have h2 : BitVec.ofNat 5 (32 + s.toNat) = s := by
      apply BitVec.eq_of_toNat_eq; rw [BitVec.toNat_ofNat]; omega
    simp only [rowVSh, eSh, eV, fVmod_wordV (c := 1) (by decide) ho, fVD_wordV (c := 1) (by decide) ho,
      fVA_wordV (c := 1) (by decide) ho, fVB_wordV (c := 1) (by decide) ho, fPipe_wordV (c := 1) (by decide) ho, h1, h2]
    rw [if_neg (by omega)]; rfl
end Rows

end Sys2Proof
end

