-- ==== Sys2Proof/Laws/Memory.lean ====
section
/-! SUPPORT. Laws of memory: read after write, what a write leaves, and the canonical form. -/

namespace Sys2Proof.Machine

/-! ### Lists of cells -/

theorem getCell_putCell_same (k : Nat) (b : Byte) : ∀ l : List Host.Cell, (l.map (·.1)).Pairwise (· < ·) →
    getCell k (putCell k b l) = b := by
  have none_ : ∀ t : List Host.Cell, (∀ x ∈ t.map (·.1), k < x) → getCell k t = 0 := by
    intro t; induction t with
    | nil => intro _; rfl
    | cons c t ih =>
      obtain ⟨k', b'⟩ := c
      intro h
      have h1 := h k' (by simp)
      simp only [getCell, show ¬ k = k' by omega, if_false]
      exact ih fun x hx => h x (by simp at hx ⊢; exact Or.inr hx)
  intro l
  induction l with
  | nil => intro _; simp only [putCell]; split <;> simp_all [getCell]
  | cons c t ih =>
    obtain ⟨k', b'⟩ := c
    intro hp
    simp only [List.map_cons, List.pairwise_cons] at hp
    simp only [putCell]
    split
    · next h =>
      split
      · next hb =>
        subst hb
        simp only [getCell, show ¬ k = k' by omega, if_false]
        exact none_ t fun x hx => lt_trans h (hp.1 x hx)
      · simp [getCell]
    · split
      · next h1 h2 =>
        subst h2
        split
        · next hb => subst hb; exact none_ t fun x hx => hp.1 x hx
        · simp [getCell]
      · next h1 h2 => simp only [getCell, h2, if_false]; exact ih hp.2

theorem getCell_putCell_other {k x : Nat} (b : Byte) (h : x ≠ k) : ∀ l : List Host.Cell,
    getCell x (putCell k b l) = getCell x l := by
  intro l
  induction l with
  | nil => simp only [putCell]; split <;> simp_all [getCell]
  | cons c t ih =>
    obtain ⟨k', b'⟩ := c
    simp only [putCell]
    split
    · split
      · rfl
      · simp only [getCell, h, if_false]
    · split
      · next _ h2 => subst h2; split <;> simp [getCell, h]
      · simp only [getCell, ih]

theorem mem_putCell {k : Nat} {b : Byte} {c : Host.Cell} : ∀ l : List Host.Cell, c ∈ putCell k b l →
    c = (k, b) ∧ b ≠ 0 ∨ c ∈ l := by
  intro l
  induction l with
  | nil => simp only [putCell]; split <;> simp_all
  | cons d t ih =>
    obtain ⟨k', b'⟩ := d
    simp only [putCell]
    repeat' split
    all_goals (try simp only [List.mem_cons])
    all_goals intro h
    all_goals (try (rcases h with h | h))
    all_goals (try (have := ih h))
    all_goals (try tauto)

theorem pairwise_putCell (k : Nat) (b : Byte) : ∀ l : List Host.Cell, (l.map (·.1)).Pairwise (· < ·) →
    ((putCell k b l).map (·.1)).Pairwise (· < ·) := by
  intro l
  induction l with
  | nil => intro _; simp only [putCell]; split <;> simp
  | cons d t ih =>
    obtain ⟨k', b'⟩ := d
    intro hp
    simp only [List.map_cons, List.pairwise_cons] at hp
    simp only [putCell]
    split
    · next h =>
      split
      · simpa using hp
      · simp only [List.map_cons, List.pairwise_cons, List.mem_cons, forall_eq_or_imp]
        exact ⟨⟨h, fun x hx => lt_trans h (hp.1 x hx)⟩, hp⟩
    · split
      · next h2 =>
        subst h2; split
        · exact hp.2
        · simpa using hp
      · next h1 h2 =>
        simp only [List.map_cons, List.pairwise_cons]
        refine ⟨fun x hx => ?_, ih hp.2⟩
        obtain ⟨c, hc, rfl⟩ := List.mem_map.mp hx
        rcases mem_putCell t hc with ⟨rfl, _⟩ | hc
        · simp; omega
        · exact hp.1 _ (List.mem_map_of_mem hc)

/-! ### Lists of numbers -/

theorem hasNat_iff (k : Nat) : ∀ l : List Nat, hasNat k l = true ↔ k ∈ l := by
  intro l; induction l with
  | nil => simp [hasNat]
  | cons x t ih => simp [hasNat, ih]
theorem mem_addNat {k x : Nat} : ∀ l : List Nat, x ∈ addNat k l ↔ x = k ∨ x ∈ l := by
  intro l; induction l with
  | nil => simp [addNat]
  | cons y t ih =>
    simp only [addNat]; split
    · simp
    · split
      · next _ h => subst h; simp
      · simp [ih]; tauto
theorem mem_delNat {k x : Nat} : ∀ l : List Nat, l.Pairwise (· < ·) → (x ∈ delNat k l ↔ x ≠ k ∧ x ∈ l) := by
  intro l; induction l with
  | nil => simp [delNat]
  | cons y t ih =>
    intro hp
    simp only [List.pairwise_cons] at hp
    simp only [delNat]; split
    · next h =>
      subst h
      simp only [List.mem_cons]
      constructor
      · intro hx; exact ⟨by have := hp.1 x hx; omega, Or.inr hx⟩
      · rintro ⟨h1, h2 | h2⟩
        · exact absurd h2 h1
        · exact h2
    · next h =>
      simp only [List.mem_cons, ih hp.2]
      constructor
      · rintro (rfl | ⟨h1, h2⟩)
        · exact ⟨fun e => h e.symm, Or.inl rfl⟩
        · exact ⟨h1, Or.inr h2⟩
      · rintro ⟨h1, rfl | h2⟩
        · exact Or.inl rfl
        · exact Or.inr ⟨h1, h2⟩
theorem pairwise_addNat (k : Nat) : ∀ l : List Nat, l.Pairwise (· < ·) → (addNat k l).Pairwise (· < ·) := by
  intro l; induction l with
  | nil => simp [addNat]
  | cons y t ih =>
    intro hp
    simp only [List.pairwise_cons] at hp
    simp only [addNat]; split
    · next h =>
      simp only [List.pairwise_cons, List.mem_cons, forall_eq_or_imp]
      exact ⟨⟨h, fun x hx => lt_trans h (hp.1 x hx)⟩, hp⟩
    · split
      · simpa using hp
      · next h1 h2 =>
        simp only [List.pairwise_cons]
        refine ⟨fun x hx => ?_, ih hp.2⟩
        rcases (mem_addNat t).mp hx with rfl | hx
        · omega
        · exact hp.1 x hx
theorem pairwise_delNat (k : Nat) : ∀ l : List Nat, l.Pairwise (· < ·) → (delNat k l).Pairwise (· < ·) := by
  intro l; induction l with
  | nil => simp [delNat]
  | cons y t ih =>
    intro hp
    have hp' := hp
    simp only [List.pairwise_cons] at hp
    simp only [delNat]; split
    · exact hp.2
    · simp only [List.pairwise_cons]
      exact ⟨fun x hx => hp.1 x ((mem_delNat t hp.2).mp hx).2, ih hp.2⟩

/-! ### Lists of pairs -/

theorem getKey_setKey_same {α : Type} (k : Nat) (v : α) : ∀ l : List (Nat × α), getKey k (setKey k v l) = some v := by
  intro l; induction l with
  | nil => simp [setKey, getKey]
  | cons c t ih =>
    obtain ⟨x, y⟩ := c
    simp only [setKey]; repeat' split
    all_goals simp_all [getKey]
theorem getKey_setKey_other {α : Type} {k x : Nat} (v : α) (h : x ≠ k) : ∀ l : List (Nat × α),
    getKey x (setKey k v l) = getKey x l := by
  intro l; induction l with
  | nil => simp [setKey, getKey, h]
  | cons c t ih =>
    obtain ⟨y, z⟩ := c
    simp only [setKey]; repeat' split
    all_goals simp_all [getKey]
theorem pairwise_setKey {α : Type} (k : Nat) (v : α) : ∀ l : List (Nat × α), (l.map (·.1)).Pairwise (· < ·) →
    ((setKey k v l).map (·.1)).Pairwise (· < ·) := by
  have mem : ∀ (l : List (Nat × α)) x, x ∈ (setKey k v l).map (·.1) → x = k ∨ x ∈ l.map (·.1) := by
    intro l; induction l with
    | nil => simp [setKey]
    | cons c t ih =>
      obtain ⟨y, z⟩ := c
      intro x hx
      simp only [setKey] at hx
      split at hx
      · simpa using hx
      · split at hx
        · next h => subst h; simp at hx ⊢; tauto
        · simp only [List.map_cons, List.mem_cons] at hx ⊢
          rcases hx with rfl | hx
          · exact Or.inr (Or.inl rfl)
          · rcases ih x hx with rfl | hx
            · exact Or.inl rfl
            · exact Or.inr (Or.inr hx)
  intro l; induction l with
  | nil => simp [setKey]
  | cons c t ih =>
    obtain ⟨y, z⟩ := c
    intro hp
    simp only [List.map_cons, List.pairwise_cons] at hp
    simp only [setKey]; split
    · next h =>
      simp only [List.map_cons, List.pairwise_cons, List.mem_cons, forall_eq_or_imp]
      exact ⟨⟨h, fun x hx => lt_trans h (hp.1 x hx)⟩, hp⟩
    · split
      · next h => subst h; simpa using hp
      · next h1 h2 =>
        simp only [List.map_cons, List.pairwise_cons]
        refine ⟨fun x hx => ?_, ih hp.2⟩
        rcases mem t x hx with rfl | hx
        · omega
        · exact hp.1 x hx

/-! ### Bytes -/

namespace Memory

theorem wf_iff (m : Memory) : m.wf = true ↔ (m.cells.map (·.1)).Pairwise (· < ·) ∧ (∀ c ∈ m.cells, c.2 ≠ 0)
    ∧ m.pois.Pairwise (· < ·) ∧ (m.lineKey.map (·.1)).Pairwise (· < ·) := by
  simp [wf, and_assoc]

theorem wf_setByte {m : Memory} (h : m.wf = true) (k : Nat) (b : Byte) : (m.setByte k b).wf = true := by
  rw [wf_iff] at h ⊢
  refine ⟨pairwise_putCell k b _ h.1, ?_, h.2.2⟩
  intro c hc
  rcases mem_putCell _ hc with ⟨rfl, hb⟩ | hc
  · exact hb
  · exact h.2.1 c hc
theorem wf_setPoison {m : Memory} (h : m.wf = true) (k : Nat) (p : Bool) : (m.setPoison k p).wf = true := by
  rw [wf_iff] at h ⊢
  refine ⟨h.1, h.2.1, ?_, h.2.2.2⟩
  simp only [setPoison]; split
  · exact pairwise_addNat _ _ h.2.2.1
  · exact pairwise_delNat _ _ h.2.2.1
theorem wf_setRaw {m : Memory} (h : m.wf = true) (k v n : Nat) : (m.setRaw k v n).wf = true := by
  induction n generalizing m k v with
  | zero => exact h
  | succ n ih => exact ih (wf_setByte h _ _) _ _
theorem wf_zero {m : Memory} (h : m.wf = true) (k n : Nat) : (m.zero k n).wf = true := by
  rw [wf_iff] at h ⊢
  refine ⟨?_, fun c hc => h.2.1 c (List.mem_of_mem_filter hc), h.2.2.1.filter _, h.2.2.2⟩
  exact h.1.sublist (List.filter_sublist.map _)
theorem wf_rekeyGo {m : Memory} (old : Memory) (kv : Option (BitVec 512)) (k : Nat) (h : m.wf = true) (n : Nat) :
    (rekeyGo old kv k m n).wf = true := by
  induction n generalizing m k with
  | zero => exact h
  | succ n ih => exact ih _ (wf_setByte h _ _)
theorem wf_setLine {m : Memory} (h : m.wf = true) (k : Nat) (x : BitVec 512) :
    ({ m with lineKey := setKey k x m.lineKey } : Memory).wf = true := by
  have := (wf_iff m).mp h
  exact (wf_iff _).mpr ⟨this.1, this.2.1, this.2.2.1, pairwise_setKey _ _ _ this.2.2.2⟩
theorem wf_rekey {m : Memory} (h : m.wf = true) (kv : Option (BitVec 512)) (k : Nat) : (m.rekey kv k).wf = true := by
  cases kv with
  | none => exact h
  | some key =>
    simp only [rekey]
    split
    · cases getKey (k / 16) m.lineKey with
      | none => exact wf_setLine h _ _
      | some y => exact wf_setLine (wf_rekeyGo m _ _ h 16) _ _
    · exact h
theorem wf_write {m : Memory} (h : m.wf = true) (kv : Option (BitVec 512)) (k v n : Nat) : (m.write kv k v n).wf = true :=
  wf_setRaw (wf_rekey h kv k) k v n

@[simp] theorem byte_setByte_same {m : Memory} (h : m.wf = true) (k : Nat) (b : Byte) : (m.setByte k b).byte k = b :=
  getCell_putCell_same k b _ ((wf_iff m).mp h).1
theorem byte_setByte_other {m : Memory} {k x : Nat} (b : Byte) (h : x ≠ k) : (m.setByte k b).byte x = m.byte x :=
  getCell_putCell_other b h _
@[simp] theorem byte_setPoison (m : Memory) (k : Nat) (p : Bool) (x : Nat) : (m.setPoison k p).byte x = m.byte x := rfl
@[simp] theorem lineKey_setByte (m : Memory) (k : Nat) (b : Byte) : (m.setByte k b).lineKey = m.lineKey := rfl
@[simp] theorem pois_setByte (m : Memory) (k : Nat) (b : Byte) : (m.setByte k b).pois = m.pois := rfl
@[simp] theorem lineKey_setPoison (m : Memory) (k : Nat) (p : Bool) : (m.setPoison k p).lineKey = m.lineKey := rfl
@[simp] theorem lineKey_setRaw (m : Memory) (k v n : Nat) : (m.setRaw k v n).lineKey = m.lineKey := by
  induction n generalizing m k v with
  | zero => rfl
  | succ n ih => simp [setRaw, ih]
@[simp] theorem pois_setRaw (m : Memory) (k v n : Nat) : (m.setRaw k v n).pois = m.pois := by
  induction n generalizing m k v with
  | zero => rfl
  | succ n ih => simp [setRaw, ih]
theorem byte_setRaw_other {x : Nat} (m : Memory) (k v n : Nat) (h : x < k ∨ k + n ≤ x) : (m.setRaw k v n).byte x = m.byte x := by
  induction n generalizing m k v with
  | zero => rfl
  | succ n ih => rw [setRaw, ih _ _ _ (by omega), byte_setByte_other _ (by omega)]
theorem byte_setRaw_in {m : Memory} (h : m.wf = true) (k v n i : Nat) (hi : i < n) :
    (m.setRaw k v n).byte (k + i) = BitVec.ofNat 8 (v / 256 ^ i) := by
  induction n generalizing m k v i with
  | zero => omega
  | succ n ih =>
    rw [setRaw]
    cases i with
    | zero => rw [byte_setRaw_other _ _ _ _ (by omega)]; simp [byte_setByte_same h]
    | succ i =>
      rw [show k + (i + 1) = k + 1 + i by omega, ih (wf_setByte h _ _) _ _ _ (by omega), Nat.div_div_eq_div_mul,
        Nat.pow_succ, Nat.mul_comm]

/-! ### Views under a key -/

@[simp] theorem view_setPoison (m : Memory) (k : Nat) (p : Bool) (kv : Option (BitVec 512)) (x : Nat) :
    (m.setPoison k p).view kv x = m.view kv x := rfl
theorem rekeyGo_lineKey (old : Memory) (kv : Option (BitVec 512)) (k : Nat) (m : Memory) (n : Nat) :
    (rekeyGo old kv k m n).lineKey = m.lineKey := by
  induction n generalizing m k with
  | zero => rfl
  | succ n ih => simp [rekeyGo, ih]
theorem rekeyGo_pois (old : Memory) (kv : Option (BitVec 512)) (k : Nat) (m : Memory) (n : Nat) :
    (rekeyGo old kv k m n).pois = m.pois := by
  induction n generalizing m k with
  | zero => rfl
  | succ n ih => simp [rekeyGo, ih]
theorem byte_rekeyGo {m : Memory} (h : m.wf = true) (old : Memory) (kv : Option (BitVec 512)) (k n x : Nat) :
    (rekeyGo old kv k m n).byte x = if k ≤ x ∧ x < k + n then old.view kv x else m.byte x := by
  induction n generalizing m k with
  | zero => rw [if_neg (by omega)]; rfl
  | succ n ih =>
    rw [rekeyGo, ih (wf_setByte h _ _)]
    by_cases hx : x = k
    · subst hx; simp [byte_setByte_same h]
    · rw [byte_setByte_other _ hx]
      by_cases h1 : k + 1 ≤ x ∧ x < k + 1 + n
      · rw [if_pos h1, if_pos (by omega)]
      · rw [if_neg h1, if_neg (by omega)]
@[simp] theorem pois_rekey (m : Memory) (kv : Option (BitVec 512)) (k : Nat) : (m.rekey kv k).pois = m.pois := by
  simp only [rekey]; repeat' split
  all_goals simp [rekeyGo_pois]
theorem raw_congr {a b : Memory} (k n : Nat) (h : ∀ i, i < n → a.byte (k + i) = b.byte (k + i)) : a.raw k n = b.raw k n := by
  induction n generalizing k with
  | zero => rfl
  | succ n ih =>
    have h0 := h 0 (by omega)
    have := ih (k + 1) fun i hi => by have := h (i + 1) (by omega); rwa [show k + 1 + i = k + (i + 1) by omega]
    simp only [raw]; rw [this, show a.byte k = b.byte k by simpa using h0]
/-- A block whose key and bytes are the same reads the same under any key. -/
theorem view_congr {a b : Memory} (kv : Option (BitVec 512)) (x : Nat) (hk : getKey (x / 16) a.lineKey = getKey (x / 16) b.lineKey)
    (h : ∀ y, y / 16 = x / 16 → a.byte y = b.byte y) : a.view kv x = b.view kv x := by
  have hr : a.raw (x / 16 * 16) 16 = b.raw (x / 16 * 16) 16 := raw_congr _ _ fun i hi => h _ (by omega)
  simp only [view, hk, hr, h x rfl]
/-- Changing the key of a block leaves every byte as its readers see it, under the new key; other blocks under any key. -/
theorem view_rekey_line {m : Memory} (h : m.wf = true) (kv kx : Option (BitVec 512)) (k x : Nat) (hl : x / 16 ≠ k / 16) :
    (m.rekey kv k).view kx x = m.view kx x := by
  cases kv with
  | none => rfl
  | some key =>
    simp only [rekey]
    split
    · cases hg : getKey (k / 16) m.lineKey with
      | none => exact view_congr _ _ (by simp [getKey_setKey_other _ hl]) fun _ _ => rfl
      | some y =>
        refine view_congr _ _ (by simp [getKey_setKey_other _ hl, rekeyGo_lineKey]) fun y hy => ?_
        rw [show ∀ (a : Memory) (z : List (Nat × BitVec 512)), ({ a with lineKey := z } : Memory).byte y = a.byte y from
          fun _ _ => rfl, byte_rekeyGo h, if_neg (by omega)]
    · rfl
theorem view_rekey {m : Memory} (h : m.wf = true) (kv : Option (BitVec 512)) (k x : Nat) :
    (m.rekey kv k).view kv x = m.view kv x := by
  by_cases hl : x / 16 = k / 16
  · cases kv with
    | none => rfl
    | some key =>
      simp only [rekey]
      split
      · next hc =>
        have hx : k / 16 * 16 ≤ x ∧ x < k / 16 * 16 + 16 := by omega
        cases hg : getKey (k / 16) m.lineKey with
        | none => simp [view, hl, getKey_setKey_same, hg, byte]
        | some y =>
          simp only [view, hl, getKey_setKey_same, hg]
          rw [show ∀ (a : Memory) (z : List (Nat × BitVec 512)), ({ a with lineKey := z } : Memory).byte x = a.byte x from
            fun _ _ => rfl, byte_rekeyGo h]
          simp [hx, view, hl, hg]
      · rfl
  · exact view_rekey_line h _ _ _ _ hl
/-- Under the key of a write a byte of its block reads as stored. -/
theorem view_rekeyed (m n : Memory) (kv : Option (BitVec 512)) (k x : Nat) (hl : x / 16 = k / 16) (hk : isHbm x = isHbm k)
    (hn : n.lineKey = (m.rekey kv k).lineKey) : n.view kv x = n.byte x := by
  cases kv with
  | none => rfl
  | some key =>
    simp only [view, hn, hl, hk, rekey]
    split
    · next a y h1 h2 =>
      split
      · next h3 =>
        split at h2
        · simp [getKey_setKey_same] at h2
          simp_all
        · next h4 => simp_all
      · rfl
    · rfl

theorem isHbm_line {x k : Nat} (hl : x / 16 = k / 16) : isHbm x = isHbm k := by
  unfold isHbm hostBase
  have : (x < 2 ^ 77 ↔ k < 2 ^ 77) := by omega
  exact decide_eq_decide.mpr this
/-- Read after write, under the key of the write, of bytes in one block. -/
theorem view_write_in {m : Memory} (h : m.wf = true) (kv : Option (BitVec 512)) (k v n i : Nat) (hi : i < n)
    (hl : (k + i) / 16 = k / 16) : (m.write kv k v n).view kv (k + i) = BitVec.ofNat 8 (v / 256 ^ i) := by
  rw [view_rekeyed m _ kv k _ hl (isHbm_line hl) (by simp [write]), write, byte_setRaw_in (wf_rekey h kv k) _ _ _ _ hi]
/-- A write inside one block leaves every other byte as its readers see it under the key of the write. -/
theorem view_write_other {m : Memory} (h : m.wf = true) (kv : Option (BitVec 512)) (k v n x : Nat)
    (hk : (k + n - 1) / 16 = k / 16) (hx : x < k ∨ k + n ≤ x) : (m.write kv k v n).view kv x = m.view kv x := by
  rw [← view_rekey h kv k x]
  by_cases hl : x / 16 = k / 16
  · rw [view_rekeyed m _ kv k _ hl (isHbm_line hl) (by simp [write]), view_rekeyed m _ kv k _ hl (isHbm_line hl) rfl, write,
      byte_setRaw_other (m.rekey kv k) k v n hx]
  · refine view_congr _ _ (by simp [write]) fun y hy => ?_
    rw [write, byte_setRaw_other (m.rekey kv k) k v n (by omega)]
/-- A write inside one block leaves every other block under any key. -/
theorem view_write_line {m : Memory} (h : m.wf = true) (kv kx : Option (BitVec 512)) (k v n x : Nat)
    (hk : (k + n - 1) / 16 = k / 16) (hl : x / 16 ≠ k / 16) : (m.write kv k v n).view kx x = m.view kx x := by
  rw [← view_rekey_line h kv kx k x hl]
  refine view_congr _ _ (by simp [write]) fun y hy => ?_
  rw [write, byte_setRaw_other (m.rekey kv k) k v n (by omega)]
@[simp] theorem pois_write (m : Memory) (kv : Option (BitVec 512)) (k v n : Nat) : (m.write kv k v n).pois = m.pois := by
  simp [write]
theorem poisoned_setPoison {m : Memory} (h : m.wf = true) (k x : Nat) (p : Bool) :
    (m.setPoison k p).poisoned x = if x / 8 = k / 8 then p else m.poisoned x := by
  have hp := ((wf_iff m).mp h).2.2.1
  have e : ∀ a b : Bool, (a = true ↔ b = true) → a = b := by decide
  apply e
  simp only [poisoned, setPoison, hasNat_iff]
  cases p
  · rw [if_neg (by decide), mem_delNat _ hp]
    by_cases hx : x / 8 = k / 8 <;> simp [hx, hasNat_iff]
  · rw [if_pos rfl, mem_addNat]
    by_cases hx : x / 8 = k / 8 <;> simp [hx, hasNat_iff]

/-- The bytes that a read of `n` bytes returns. -/
theorem read_lt (m : Memory) (kv : Option (BitVec 512)) (k n : Nat) : Memory.read m kv k n < 256 ^ n := by
  induction n generalizing k with
  | zero => simp [Memory.read]
  | succ n ih =>
    have := ih (k + 1); have h2 := (m.view kv k).isLt
    rw [Memory.read, Nat.pow_succ]; omega
theorem read_byte (m : Memory) (kv : Option (BitVec 512)) (k n i : Nat) (hi : i < n) :
    Memory.read m kv k n / 256 ^ i % 256 = (m.view kv (k + i)).toNat := by
  induction n generalizing k i with
  | zero => omega
  | succ n ih =>
    have h2 := (m.view kv k).isLt
    rw [Memory.read]
    cases i with
    | zero => simp; omega
    | succ i =>
      rw [show k + (i + 1) = k + 1 + i by omega, ← ih (k + 1) i (by omega), Nat.pow_succ, Nat.mul_comm (256 ^ i),
        ← Nat.div_div_eq_div_mul]
      congr 2; omega

end Memory

end Sys2Proof.Machine
end

