-- ==== Sys2Proof/Laws/State.lean ====
section
/-! SUPPORT. What each lift changes and leaves, field by field. -/

namespace Sys2Proof.Machine

@[simp] theorem State.onFir_fir (s : State) (f : Firing → Firing) : (s.onFir f).fir = f s.fir := rfl
@[simp] theorem State.onFir_ctx (s : State) (f : Firing → Firing) : (s.onFir f).ctx = s.ctx := rfl
@[simp] theorem State.onFir_ctxs (s : State) (f : Firing → Firing) : (s.onFir f).ctxs = s.ctxs := rfl
@[simp] theorem State.onFir_tile (s : State) (f : Firing → Firing) : (s.onFir f).tile = s.tile := rfl
@[simp] theorem State.onFir_tiles (s : State) (f : Firing → Firing) : (s.onFir f).tiles = s.tiles := rfl
@[simp] theorem State.onFir_mem (s : State) (f : Firing → Firing) : (s.onFir f).mem = s.mem := rfl
@[simp] theorem State.onFir_dev (s : State) (f : Firing → Firing) : (s.onFir f).dev = s.dev := rfl
@[simp] theorem State.onFir_who (s : State) (f : Firing → Firing) : (s.onFir f).who = s.who := rfl
@[simp] theorem State.onFir_agenda (s : State) (f : Firing → Firing) : (s.onFir f).agenda = s.agenda := rfl
@[simp] theorem State.onFir_turn (s : State) (f : Firing → Firing) : (s.onFir f).turn = s.turn := rfl
@[simp] theorem State.onFir_rot (s : State) (f : Firing → Firing) : (s.onFir f).rot = s.rot := rfl
@[simp] theorem State.onFir_freeCtr (s : State) (f : Firing → Firing) : (s.onFir f).freeCtr = s.freeCtr := rfl
@[simp] theorem State.onBlk_fir (s : State) (f : Block → Block) : (s.onBlk f).fir = { s.fir with blk := f s.fir.blk } := rfl
@[simp] theorem State.onBlk_ctx (s : State) (f : Block → Block) : (s.onBlk f).ctx = s.ctx := rfl
@[simp] theorem State.onBlk_ctxs (s : State) (f : Block → Block) : (s.onBlk f).ctxs = s.ctxs := rfl
@[simp] theorem State.onBlk_tile (s : State) (f : Block → Block) : (s.onBlk f).tile = s.tile := rfl
@[simp] theorem State.onBlk_tiles (s : State) (f : Block → Block) : (s.onBlk f).tiles = s.tiles := rfl
@[simp] theorem State.onBlk_mem (s : State) (f : Block → Block) : (s.onBlk f).mem = s.mem := rfl
@[simp] theorem State.onBlk_dev (s : State) (f : Block → Block) : (s.onBlk f).dev = s.dev := rfl
@[simp] theorem State.onBlk_who (s : State) (f : Block → Block) : (s.onBlk f).who = s.who := rfl
@[simp] theorem State.onBlk_agenda (s : State) (f : Block → Block) : (s.onBlk f).agenda = s.agenda := rfl
@[simp] theorem State.onBlk_turn (s : State) (f : Block → Block) : (s.onBlk f).turn = s.turn := rfl
@[simp] theorem State.onBlk_rot (s : State) (f : Block → Block) : (s.onBlk f).rot = s.rot := rfl
@[simp] theorem State.onBlk_freeCtr (s : State) (f : Block → Block) : (s.onBlk f).freeCtr = s.freeCtr := rfl
@[simp] theorem State.onCtx_fir (s : State) (f : Ctx → Ctx) : (s.onCtx f).fir = s.fir := rfl
@[simp] theorem State.onCtx_ctx (s : State) (f : Ctx → Ctx) : (s.onCtx f).ctx = f s.ctx := rfl
@[simp] theorem State.onCtx_ctxs (s : State) (f : Ctx → Ctx) : (s.onCtx f).ctxs = s.ctxs := rfl
@[simp] theorem State.onCtx_tile (s : State) (f : Ctx → Ctx) : (s.onCtx f).tile = s.tile := rfl
@[simp] theorem State.onCtx_tiles (s : State) (f : Ctx → Ctx) : (s.onCtx f).tiles = s.tiles := rfl
@[simp] theorem State.onCtx_mem (s : State) (f : Ctx → Ctx) : (s.onCtx f).mem = s.mem := rfl
@[simp] theorem State.onCtx_dev (s : State) (f : Ctx → Ctx) : (s.onCtx f).dev = s.dev := rfl
@[simp] theorem State.onCtx_who (s : State) (f : Ctx → Ctx) : (s.onCtx f).who = s.who := rfl
@[simp] theorem State.onCtx_agenda (s : State) (f : Ctx → Ctx) : (s.onCtx f).agenda = s.agenda := rfl
@[simp] theorem State.onCtx_turn (s : State) (f : Ctx → Ctx) : (s.onCtx f).turn = s.turn := rfl
@[simp] theorem State.onCtx_rot (s : State) (f : Ctx → Ctx) : (s.onCtx f).rot = s.rot := rfl
@[simp] theorem State.onCtx_freeCtr (s : State) (f : Ctx → Ctx) : (s.onCtx f).freeCtr = s.freeCtr := rfl
@[simp] theorem State.onCsr_fir (s : State) (f : Csrs → Csrs) : (s.onCsr f).fir = s.fir := rfl
@[simp] theorem State.onCsr_ctx (s : State) (f : Csrs → Csrs) : (s.onCsr f).ctx = { s.ctx with csr := f s.ctx.csr } := rfl
@[simp] theorem State.onCsr_ctxs (s : State) (f : Csrs → Csrs) : (s.onCsr f).ctxs = s.ctxs := rfl
@[simp] theorem State.onCsr_tile (s : State) (f : Csrs → Csrs) : (s.onCsr f).tile = s.tile := rfl
@[simp] theorem State.onCsr_tiles (s : State) (f : Csrs → Csrs) : (s.onCsr f).tiles = s.tiles := rfl
@[simp] theorem State.onCsr_mem (s : State) (f : Csrs → Csrs) : (s.onCsr f).mem = s.mem := rfl
@[simp] theorem State.onCsr_dev (s : State) (f : Csrs → Csrs) : (s.onCsr f).dev = s.dev := rfl
@[simp] theorem State.onCsr_who (s : State) (f : Csrs → Csrs) : (s.onCsr f).who = s.who := rfl
@[simp] theorem State.onCsr_agenda (s : State) (f : Csrs → Csrs) : (s.onCsr f).agenda = s.agenda := rfl
@[simp] theorem State.onCsr_turn (s : State) (f : Csrs → Csrs) : (s.onCsr f).turn = s.turn := rfl
@[simp] theorem State.onCsr_rot (s : State) (f : Csrs → Csrs) : (s.onCsr f).rot = s.rot := rfl
@[simp] theorem State.onCsr_freeCtr (s : State) (f : Csrs → Csrs) : (s.onCsr f).freeCtr = s.freeCtr := rfl
@[simp] theorem State.onSync_fir (s : State) (f : Sync → Sync) : (s.onSync f).fir = s.fir := rfl
@[simp] theorem State.onSync_ctx (s : State) (f : Sync → Sync) : (s.onSync f).ctx = { s.ctx with sync := f s.ctx.sync } := rfl
@[simp] theorem State.onSync_ctxs (s : State) (f : Sync → Sync) : (s.onSync f).ctxs = s.ctxs := rfl
@[simp] theorem State.onSync_tile (s : State) (f : Sync → Sync) : (s.onSync f).tile = s.tile := rfl
@[simp] theorem State.onSync_tiles (s : State) (f : Sync → Sync) : (s.onSync f).tiles = s.tiles := rfl
@[simp] theorem State.onSync_mem (s : State) (f : Sync → Sync) : (s.onSync f).mem = s.mem := rfl
@[simp] theorem State.onSync_dev (s : State) (f : Sync → Sync) : (s.onSync f).dev = s.dev := rfl
@[simp] theorem State.onSync_who (s : State) (f : Sync → Sync) : (s.onSync f).who = s.who := rfl
@[simp] theorem State.onSync_agenda (s : State) (f : Sync → Sync) : (s.onSync f).agenda = s.agenda := rfl
@[simp] theorem State.onSync_turn (s : State) (f : Sync → Sync) : (s.onSync f).turn = s.turn := rfl
@[simp] theorem State.onSync_rot (s : State) (f : Sync → Sync) : (s.onSync f).rot = s.rot := rfl
@[simp] theorem State.onSync_freeCtr (s : State) (f : Sync → Sync) : (s.onSync f).freeCtr = s.freeCtr := rfl
@[simp] theorem State.onTile_fir (s : State) (f : Tile → Tile) : (s.onTile f).fir = s.fir := rfl
@[simp] theorem State.onTile_ctx (s : State) (f : Tile → Tile) : (s.onTile f).ctx = s.ctx := rfl
@[simp] theorem State.onTile_ctxs (s : State) (f : Tile → Tile) : (s.onTile f).ctxs = s.ctxs := rfl
@[simp] theorem State.onTile_tile (s : State) (f : Tile → Tile) : (s.onTile f).tile = f s.tile := rfl
@[simp] theorem State.onTile_tiles (s : State) (f : Tile → Tile) : (s.onTile f).tiles = s.tiles := rfl
@[simp] theorem State.onTile_mem (s : State) (f : Tile → Tile) : (s.onTile f).mem = s.mem := rfl
@[simp] theorem State.onTile_dev (s : State) (f : Tile → Tile) : (s.onTile f).dev = s.dev := rfl
@[simp] theorem State.onTile_who (s : State) (f : Tile → Tile) : (s.onTile f).who = s.who := rfl
@[simp] theorem State.onTile_agenda (s : State) (f : Tile → Tile) : (s.onTile f).agenda = s.agenda := rfl
@[simp] theorem State.onTile_turn (s : State) (f : Tile → Tile) : (s.onTile f).turn = s.turn := rfl
@[simp] theorem State.onTile_rot (s : State) (f : Tile → Tile) : (s.onTile f).rot = s.rot := rfl
@[simp] theorem State.onTile_freeCtr (s : State) (f : Tile → Tile) : (s.onTile f).freeCtr = s.freeCtr := rfl
@[simp] theorem State.onDev_fir (s : State) (f : Dev → Dev) : (s.onDev f).fir = s.fir := rfl
@[simp] theorem State.onDev_ctx (s : State) (f : Dev → Dev) : (s.onDev f).ctx = s.ctx := rfl
@[simp] theorem State.onDev_ctxs (s : State) (f : Dev → Dev) : (s.onDev f).ctxs = s.ctxs := rfl
@[simp] theorem State.onDev_tile (s : State) (f : Dev → Dev) : (s.onDev f).tile = s.tile := rfl
@[simp] theorem State.onDev_tiles (s : State) (f : Dev → Dev) : (s.onDev f).tiles = s.tiles := rfl
@[simp] theorem State.onDev_mem (s : State) (f : Dev → Dev) : (s.onDev f).mem = s.mem := rfl
@[simp] theorem State.onDev_dev (s : State) (f : Dev → Dev) : (s.onDev f).dev = f s.dev := rfl
@[simp] theorem State.onDev_who (s : State) (f : Dev → Dev) : (s.onDev f).who = s.who := rfl
@[simp] theorem State.onDev_agenda (s : State) (f : Dev → Dev) : (s.onDev f).agenda = s.agenda := rfl
@[simp] theorem State.onDev_turn (s : State) (f : Dev → Dev) : (s.onDev f).turn = s.turn := rfl
@[simp] theorem State.onDev_rot (s : State) (f : Dev → Dev) : (s.onDev f).rot = s.rot := rfl
@[simp] theorem State.onDev_freeCtr (s : State) (f : Dev → Dev) : (s.onDev f).freeCtr = s.freeCtr := rfl
@[simp] theorem State.onMem_fir (s : State) (f : Memory → Memory) : (s.onMem f).fir = s.fir := rfl
@[simp] theorem State.onMem_ctx (s : State) (f : Memory → Memory) : (s.onMem f).ctx = s.ctx := rfl
@[simp] theorem State.onMem_ctxs (s : State) (f : Memory → Memory) : (s.onMem f).ctxs = s.ctxs := rfl
@[simp] theorem State.onMem_tile (s : State) (f : Memory → Memory) : (s.onMem f).tile = s.tile := rfl
@[simp] theorem State.onMem_tiles (s : State) (f : Memory → Memory) : (s.onMem f).tiles = s.tiles := rfl
@[simp] theorem State.onMem_mem (s : State) (f : Memory → Memory) : (s.onMem f).mem = f s.mem := rfl
@[simp] theorem State.onMem_dev (s : State) (f : Memory → Memory) : (s.onMem f).dev = s.dev := rfl
@[simp] theorem State.onMem_who (s : State) (f : Memory → Memory) : (s.onMem f).who = s.who := rfl
@[simp] theorem State.onMem_agenda (s : State) (f : Memory → Memory) : (s.onMem f).agenda = s.agenda := rfl
@[simp] theorem State.onMem_turn (s : State) (f : Memory → Memory) : (s.onMem f).turn = s.turn := rfl
@[simp] theorem State.onMem_rot (s : State) (f : Memory → Memory) : (s.onMem f).rot = s.rot := rfl
@[simp] theorem State.onMem_freeCtr (s : State) (f : Memory → Memory) : (s.onMem f).freeCtr = s.freeCtr := rfl
@[simp] theorem State.drawn_fir (s : State) : s.drawn.fir = s.fir := rfl
@[simp] theorem State.drawn_ctx (s : State) : s.drawn.ctx = s.ctx := rfl
@[simp] theorem State.drawn_ctxs (s : State) : s.drawn.ctxs = s.ctxs := rfl
@[simp] theorem State.drawn_tile (s : State) : s.drawn.tile = s.tile := rfl
@[simp] theorem State.drawn_tiles (s : State) : s.drawn.tiles = s.tiles := rfl
@[simp] theorem State.drawn_mem (s : State) : s.drawn.mem = s.mem := rfl
@[simp] theorem State.drawn_dev (s : State) : s.drawn.dev = s.dev := rfl
@[simp] theorem State.drawn_who (s : State) : s.drawn.who = s.who := rfl
@[simp] theorem State.drawn_agenda (s : State) : s.drawn.agenda = s.agenda := rfl
@[simp] theorem State.drawn_turn (s : State) : s.drawn.turn = s.turn := rfl
@[simp] theorem State.drawn_rot (s : State) : s.drawn.rot = s.rot := rfl
@[simp] theorem State.drawn_freeCtr (s : State) : s.drawn.freeCtr = s.freeCtr + 1 := rfl

/-! Two changes of one part are one change. -/

theorem State.onFir_onFir (s : State) (f g : Firing → Firing) : (s.onFir f).onFir g = s.onFir fun x => g (f x) := rfl
theorem State.onBlk_onBlk (s : State) (f g : Block → Block) : (s.onBlk f).onBlk g = s.onBlk fun x => g (f x) := rfl
theorem State.onCtx_onCtx (s : State) (f g : Ctx → Ctx) : (s.onCtx f).onCtx g = s.onCtx fun x => g (f x) := rfl
theorem State.onCsr_onCsr (s : State) (f g : Csrs → Csrs) : (s.onCsr f).onCsr g = s.onCsr fun x => g (f x) := rfl
theorem State.onSync_onSync (s : State) (f g : Sync → Sync) : (s.onSync f).onSync g = s.onSync fun x => g (f x) := rfl
theorem State.onTile_onTile (s : State) (f g : Tile → Tile) : (s.onTile f).onTile g = s.onTile fun x => g (f x) := rfl
theorem State.onDev_onDev (s : State) (f g : Dev → Dev) : (s.onDev f).onDev g = s.onDev fun x => g (f x) := rfl
theorem State.onMem_onMem (s : State) (f g : Memory → Memory) : (s.onMem f).onMem g = s.onMem fun x => g (f x) := rfl

end Sys2Proof.Machine
end

