-- ==== Sys2Proof/Laws/Ops.lean ====
section
/-! SUPPORT. What the shared operations on the block in flight can do: one lemma each. -/

namespace Sys2Proof.Machine

/-- Blocks that agree but for slots and faults. -/
def Block.SameButTokens (b c : Block) : Prop := c = { b with slots := c.slots, faults := c.faults }

theorem Block.SameButTokens.rfl' (b : Block) : b.SameButTokens b := rfl
theorem Block.SameButTokens.trans {a b c : Block} (h : a.SameButTokens b) (g : b.SameButTokens c) :
    a.SameButTokens c := by
  unfold Block.SameButTokens at *; rw [g, h]
theorem Block.onSlot_same (b : Block) (k : Nat) (f : Slot → Slot) : b.SameButTokens (b.onSlot k f) := rfl
theorem Block.addFault_same (b : Block) (f : BFault) : b.SameButTokens (b.addFault f) := rfl

/-- Deliveries change slots and faults only (06 R146). -/
theorem deliver_same (n : Nat) (q : List (Dest × Option Token)) (b : Block) : b.SameButTokens (deliver n q b) := by
  induction n generalizing q b with
  | zero => exact rfl
  | succ n ih =>
    match q with
    | [] => exact rfl
    | (d, t) :: q =>
      simp only [deliver]
      repeat' split
      all_goals exact ih _ _

/-- Sending tokens changes slots and faults only. -/
theorem Block.emit_same (b : Block) (k : Nat) (outs : List (Cons × Option Token)) : b.SameButTokens (b.emit k outs) :=
  deliver_same _ _ (b.onSlot k _)

theorem State.sameButTokens_of_blk {s t : State} {b : Block} (h : s.fir.blk.SameButTokens b) (e : t = s.onBlk fun _ => b) :
    t = s.onBlk fun b => { b with slots := t.fir.blk.slots, faults := t.fir.blk.faults } := by
  subst e; unfold Block.SameButTokens at h
  simp only [State.onBlk, State.onFir]; rw [← h]

theorem State.emitAt_eq (s : State) (k : Nat) (outs : List (Cons × Option Token)) :
    s.emitAt k outs = s.onBlk fun _ => s.fir.blk.emit k outs := rfl

/-! ### Blocks ahead of commit (06 R150) -/

@[simp] theorem State.dropAhead_mem (s : State) : s.dropAhead.mem = s.mem := rfl
@[simp] theorem State.dropAhead_dev (s : State) : s.dropAhead.dev = s.dev := rfl
@[simp] theorem State.dropAhead_tile (s : State) : s.dropAhead.tile = s.tile := rfl
@[simp] theorem State.dropAhead_fir (s : State) : s.dropAhead.fir = { s.fir with ahead := [], fetched := none } := rfl
/-- After a commit the firing goes on at the target, its registers and everything outside it but PERF 1 as they were. -/
theorem State.goOn_frame (s : State) (t : Word) : (s.goOn t).fir.pc = t ∧ (s.goOn t).fir.regs = s.fir.regs ∧ (s.goOn t).mem = s.mem
    ∧ (s.goOn t).dev = s.dev ∧ (s.goOn t).tile = s.tile := by
  unfold State.goOn
  repeat' split
  all_goals exact ⟨rfl, rfl, rfl, rfl, rfl⟩

end Sys2Proof.Machine
end

