-- ==== Sys2Proof/Laws/PerInstr.lean ====
section
/-! SUPPORT. Decoding gives back every instruction that has a word, one lemma a constructor (06 R143, R144; 07 R154 to
R162). -/

namespace Sys2Proof.Laws

/-- The word of an instruction decodes to it. -/
def Encoding.Statement (i : Instr) : Prop := i.wf = true → decode (encode i) = .ok i

theorem csr_ofNum_num (r : Csr) : Csr.ofNum (BitVec.ofNat 14 r.num).toNat = some r := by cases r <;> rfl
theorem regSel_dec_enc (r : RegSel) : RegSel.dec r.greg r.mod8 = some r := by
  cases r with
  | g n => rfl
  | f => rfl
  | flag n => revert n; decide
theorem fCls_eSh {o : Nat} (ho : o < 64) {c : VCount} {vd va : BitVec 5} {q : BitVec 2} : fCls (eSh o c vd va q) = 1 := by
  cases c <;> exact fCls_wordV (by decide) ho
theorem fOp_eSh {o : Nat} (ho : o < 64) {c : VCount} {vd va : BitVec 5} {q : BitVec 2} : fOp (eSh o c vd va q) = o := by
  cases c <;> exact fOp_wordV (by decide) ho

theorem Encoding.ill :
    Encoding.Statement (.ill) := fun _ => rfl
theorem Encoding.add (w : Width) (t0 t1 : Cons) :
    Encoding.Statement (.add w t0 t1) := fun _ => (decode_s (fCls_wordD (by decide) (by decide)) (fOp_wordD (by decide) (by decide))).trans
  (rowD_word (by decide) (by decide) (x := w) (by cases w <;> rfl))
theorem Encoding.sub (w : Width) (t0 t1 : Cons) :
    Encoding.Statement (.sub w t0 t1) := fun _ => (decode_s (fCls_wordD (by decide) (by decide)) (fOp_wordD (by decide) (by decide))).trans
  (rowD_word (by decide) (by decide) (x := w) (by cases w <;> rfl))
theorem Encoding.addi (imm : BitVec 14) (t0 : Cons) :
    Encoding.Statement (.addi imm t0) := fun _ => (decode_s (fCls_wordI (by decide) (by decide)) (fOp_wordI (by decide) (by decide))).trans (by
  show (do return Instr.addi (fImm _) (← Cons.dec (fT0 _)) : Except DecodeFault Instr) = _
  simp only [fImm_wordI (c := 0) (o := 3) (by decide) (by decide), fT0_wordI (c := 0) (o := 3) (by decide) (by decide), cons_dec_enc]; rfl)
theorem Encoding.mul (w : Width) (t0 t1 : Cons) :
    Encoding.Statement (.mul w t0 t1) := fun _ => (decode_s (fCls_wordD (by decide) (by decide)) (fOp_wordD (by decide) (by decide))).trans
  (rowD_word (by decide) (by decide) (x := w) (by cases w <;> rfl))
theorem Encoding.mulh (w : Width) (t0 t1 : Cons) :
    Encoding.Statement (.mulh w t0 t1) := fun _ => (decode_s (fCls_wordD (by decide) (by decide)) (fOp_wordD (by decide) (by decide))).trans
  (rowD_word (by decide) (by decide) (x := w) (by cases w <;> rfl))
theorem Encoding.mulhn (w : Width) (t0 t1 : Cons) :
    Encoding.Statement (.mulhn w t0 t1) := fun _ => (decode_s (fCls_wordD (by decide) (by decide)) (fOp_wordD (by decide) (by decide))).trans
  (rowD_word (by decide) (by decide) (x := w) (by cases w <;> rfl))
theorem Encoding.div (w : Width) (t0 t1 : Cons) :
    Encoding.Statement (.div w t0 t1) := fun _ => (decode_s (fCls_wordD (by decide) (by decide)) (fOp_wordD (by decide) (by decide))).trans
  (rowD_word (by decide) (by decide) (x := w) (by cases w <;> rfl))
theorem Encoding.divn (w : Width) (t0 t1 : Cons) :
    Encoding.Statement (.divn w t0 t1) := fun _ => (decode_s (fCls_wordD (by decide) (by decide)) (fOp_wordD (by decide) (by decide))).trans
  (rowD_word (by decide) (by decide) (x := w) (by cases w <;> rfl))
theorem Encoding.rem (w : Width) (t0 t1 : Cons) :
    Encoding.Statement (.rem w t0 t1) := fun _ => (decode_s (fCls_wordD (by decide) (by decide)) (fOp_wordD (by decide) (by decide))).trans
  (rowD_word (by decide) (by decide) (x := w) (by cases w <;> rfl))
theorem Encoding.remn (w : Width) (t0 t1 : Cons) :
    Encoding.Statement (.remn w t0 t1) := fun _ => (decode_s (fCls_wordD (by decide) (by decide)) (fOp_wordD (by decide) (by decide))).trans
  (rowD_word (by decide) (by decide) (x := w) (by cases w <;> rfl))
theorem Encoding.and (t0 t1 : Cons) :
    Encoding.Statement (.and t0 t1) := fun _ => (decode_s (fCls_wordD (by decide) (by decide)) (fOp_wordD (by decide) (by decide))).trans (rowD0_word (by decide) (by decide))
theorem Encoding.or (t0 t1 : Cons) :
    Encoding.Statement (.or t0 t1) := fun _ => (decode_s (fCls_wordD (by decide) (by decide)) (fOp_wordD (by decide) (by decide))).trans (rowD0_word (by decide) (by decide))
theorem Encoding.xor (t0 t1 : Cons) :
    Encoding.Statement (.xor t0 t1) := fun _ => (decode_s (fCls_wordD (by decide) (by decide)) (fOp_wordD (by decide) (by decide))).trans (rowD0_word (by decide) (by decide))
theorem Encoding.andn (t0 t1 : Cons) :
    Encoding.Statement (.andn t0 t1) := fun _ => (decode_s (fCls_wordD (by decide) (by decide)) (fOp_wordD (by decide) (by decide))).trans (rowD0_word (by decide) (by decide))
theorem Encoding.shl (w : Width) (t0 t1 : Cons) :
    Encoding.Statement (.shl w t0 t1) := fun _ => (decode_s (fCls_wordD (by decide) (by decide)) (fOp_wordD (by decide) (by decide))).trans
  (rowD_word (by decide) (by decide) (x := w) (by cases w <;> rfl))
theorem Encoding.shr (w : Width) (t0 t1 : Cons) :
    Encoding.Statement (.shr w t0 t1) := fun _ => (decode_s (fCls_wordD (by decide) (by decide)) (fOp_wordD (by decide) (by decide))).trans
  (rowD_word (by decide) (by decide) (x := w) (by cases w <;> rfl))
theorem Encoding.sar (w : Width) (t0 t1 : Cons) :
    Encoding.Statement (.sar w t0 t1) := fun _ => (decode_s (fCls_wordD (by decide) (by decide)) (fOp_wordD (by decide) (by decide))).trans
  (rowD_word (by decide) (by decide) (x := w) (by cases w <;> rfl))
theorem Encoding.min (w : Width) (t0 t1 : Cons) :
    Encoding.Statement (.min w t0 t1) := fun _ => (decode_s (fCls_wordD (by decide) (by decide)) (fOp_wordD (by decide) (by decide))).trans
  (rowD_word (by decide) (by decide) (x := w) (by cases w <;> rfl))
theorem Encoding.max (w : Width) (t0 t1 : Cons) :
    Encoding.Statement (.max w t0 t1) := fun _ => (decode_s (fCls_wordD (by decide) (by decide)) (fOp_wordD (by decide) (by decide))).trans
  (rowD_word (by decide) (by decide) (x := w) (by cases w <;> rfl))
theorem Encoding.minn (w : Width) (t0 t1 : Cons) :
    Encoding.Statement (.minn w t0 t1) := fun _ => (decode_s (fCls_wordD (by decide) (by decide)) (fOp_wordD (by decide) (by decide))).trans
  (rowD_word (by decide) (by decide) (x := w) (by cases w <;> rfl))
theorem Encoding.maxn (w : Width) (t0 t1 : Cons) :
    Encoding.Statement (.maxn w t0 t1) := fun _ => (decode_s (fCls_wordD (by decide) (by decide)) (fOp_wordD (by decide) (by decide))).trans
  (rowD_word (by decide) (by decide) (x := w) (by cases w <;> rfl))
theorem Encoding.clz (w : Width) (t0 t1 : Cons) :
    Encoding.Statement (.clz w t0 t1) := fun _ => (decode_s (fCls_wordD (by decide) (by decide)) (fOp_wordD (by decide) (by decide))).trans
  (rowD_word (by decide) (by decide) (x := w) (by cases w <;> rfl))
theorem Encoding.popc (w : Width) (t0 t1 : Cons) :
    Encoding.Statement (.popc w t0 t1) := fun _ => (decode_s (fCls_wordD (by decide) (by decide)) (fOp_wordD (by decide) (by decide))).trans
  (rowD_word (by decide) (by decide) (x := w) (by cases w <;> rfl))
theorem Encoding.sext (k : ExtFrom) (t0 t1 : Cons) :
    Encoding.Statement (.sext k t0 t1) := fun _ => (decode_s (fCls_wordD (by decide) (by decide)) (fOp_wordD (by decide) (by decide))).trans
  (rowD_word (by decide) (by decide) (x := k) (by cases k <;> rfl))
theorem Encoding.zext (k : ExtFrom) (t0 t1 : Cons) :
    Encoding.Statement (.zext k t0 t1) := fun _ => (decode_s (fCls_wordD (by decide) (by decide)) (fOp_wordD (by decide) (by decide))).trans
  (rowD_word (by decide) (by decide) (x := k) (by cases k <;> rfl))
theorem Encoding.ceq (w : Width) (t0 t1 : Cons) :
    Encoding.Statement (.ceq w t0 t1) := fun _ => (decode_s (fCls_wordD (by decide) (by decide)) (fOp_wordD (by decide) (by decide))).trans
  (rowD_word (by decide) (by decide) (x := w) (by cases w <;> rfl))
theorem Encoding.cne (w : Width) (t0 t1 : Cons) :
    Encoding.Statement (.cne w t0 t1) := fun _ => (decode_s (fCls_wordD (by decide) (by decide)) (fOp_wordD (by decide) (by decide))).trans
  (rowD_word (by decide) (by decide) (x := w) (by cases w <;> rfl))
theorem Encoding.clt (w : Width) (t0 t1 : Cons) :
    Encoding.Statement (.clt w t0 t1) := fun _ => (decode_s (fCls_wordD (by decide) (by decide)) (fOp_wordD (by decide) (by decide))).trans
  (rowD_word (by decide) (by decide) (x := w) (by cases w <;> rfl))
theorem Encoding.cltn (w : Width) (t0 t1 : Cons) :
    Encoding.Statement (.cltn w t0 t1) := fun _ => (decode_s (fCls_wordD (by decide) (by decide)) (fOp_wordD (by decide) (by decide))).trans
  (rowD_word (by decide) (by decide) (x := w) (by cases w <;> rfl))
theorem Encoding.cle (w : Width) (t0 t1 : Cons) :
    Encoding.Statement (.cle w t0 t1) := fun _ => (decode_s (fCls_wordD (by decide) (by decide)) (fOp_wordD (by decide) (by decide))).trans
  (rowD_word (by decide) (by decide) (x := w) (by cases w <;> rfl))
theorem Encoding.clen (w : Width) (t0 t1 : Cons) :
    Encoding.Statement (.clen w t0 t1) := fun _ => (decode_s (fCls_wordD (by decide) (by decide)) (fOp_wordD (by decide) (by decide))).trans
  (rowD_word (by decide) (by decide) (x := w) (by cases w <;> rfl))
theorem Encoding.sel (n : BitVec 5) (t0 t1 : Cons) :
    Encoding.Statement (.sel n t0 t1) := fun _ => (decode_s (fCls_wordD (by decide) (by decide)) (fOp_wordD (by decide) (by decide))).trans
  (rowD_word (by decide) (by decide) (x := n) rfl)
theorem Encoding.movi (imm : BitVec 14) (t0 : Cons) :
    Encoding.Statement (.movi imm t0) := fun _ => (decode_s (fCls_wordI (by decide) (by decide)) (fOp_wordI (by decide) (by decide))).trans (by
  show (do return Instr.movi (fImm _) (← Cons.dec (fT0 _)) : Except DecodeFault Instr) = _
  simp only [fImm_wordI (c := 0) (o := 33) (by decide) (by decide), fT0_wordI (c := 0) (o := 33) (by decide) (by decide), cons_dec_enc]; rfl)
theorem Encoding.constw (sx : Bool) (t0 t1 : Cons) :
    Encoding.Statement (.constw sx t0 t1) := fun _ => (decode_s (fCls_wordD (by decide) (by decide)) (fOp_wordD (by decide) (by decide))).trans
  (rowD_word (by decide) (by decide) (x := sx) (by cases sx <;> rfl))
theorem Encoding.constd (t0 t1 : Cons) :
    Encoding.Statement (.constd t0 t1) := fun _ => (decode_s (fCls_wordD (by decide) (by decide)) (fOp_wordD (by decide) (by decide))).trans (rowD0_word (by decide) (by decide))
theorem Encoding.read (r : RegSel) (t0 : Cons) :
    Encoding.Statement (.read r t0) := fun _ => (decode_s (fCls_wordG (by decide) (by decide)) (fOp_wordG (by decide) (by decide))).trans (by
  show (do let t0 ← Cons.dec (fT0 _); return Instr.read (← orMod (RegSel.dec (fGreg _) (fMod8 _))) t0 : Except DecodeFault Instr) = _
  simp only [fGreg_wordG (c := 0) (o := 36) (by decide) (by decide), fMod8_wordG (c := 0) (o := 36) (by decide) (by decide), fT0_wordG (c := 0) (o := 36) (by decide) (by decide), cons_dec_enc, regSel_dec_enc]; rfl)
theorem Encoding.write (r : RegSel) :
    Encoding.Statement (.write r) := fun _ => (decode_s (fCls_wordG (by decide) (by decide)) (fOp_wordG (by decide) (by decide))).trans (by
  show (do resv (fT0 _ = 0); return Instr.write (← orMod (RegSel.dec (fGreg _) (fMod8 _))) : Except DecodeFault Instr) = _
  simp only [fGreg_wordG (c := 0) (o := 37) (by decide) (by decide), fMod8_wordG (c := 0) (o := 37) (by decide) (by decide), fT0_wordG (c := 0) (o := 37) (by decide) (by decide), regSel_dec_enc]; rfl)
theorem Encoding.fan (t0 t1 : Cons) :
    Encoding.Statement (.fan t0 t1) := fun _ => (decode_s (fCls_wordD (by decide) (by decide)) (fOp_wordD (by decide) (by decide))).trans (rowD0_word (by decide) (by decide))
theorem Encoding.null (t0 t1 : Cons) :
    Encoding.Statement (.null t0 t1) := fun _ => (decode_s (fCls_wordD (by decide) (by decide)) (fOp_wordD (by decide) (by decide))).trans (rowD0_word (by decide) (by decide))
theorem Encoding.lea (s : BitVec 3) (t0 t1 : Cons) :
    Encoding.Statement (.lea s t0 t1) := fun _ => (decode_s (fCls_wordD (by decide) (by decide)) (fOp_wordD (by decide) (by decide))).trans
  (rowD_word (by decide) (by decide) (x := s) (by rename_i h; clear h; revert s; decide))
theorem Encoding.br :
    Encoding.Statement (.br) := fun _ => (decode_s (fCls_wordD (by decide) (by decide)) (fOp_wordD (by decide) (by decide))).trans (rowN0_word (by decide) (by decide))
theorem Encoding.bri (imm : BitVec 14) :
    Encoding.Statement (.bri imm) := fun _ => (decode_s (fCls_wordI (by decide) (by decide)) (fOp_wordI (by decide) (by decide))).trans (by
  show (do resv (fT0 _ = 0); return Instr.bri (fImm _) : Except DecodeFault Instr) = _
  simp only [fImm_wordI (c := 0) (o := 42) (by decide) (by decide), fT0_wordI (c := 0) (o := 42) (by decide) (by decide)]; rfl)
theorem Encoding.call (imm : BitVec 14) (t0 : Cons) :
    Encoding.Statement (.call imm t0) := fun _ => (decode_s (fCls_wordI (by decide) (by decide)) (fOp_wordI (by decide) (by decide))).trans (by
  show (do return Instr.call (fImm _) (← Cons.dec (fT0 _)) : Except DecodeFault Instr) = _
  simp only [fImm_wordI (c := 0) (o := 43) (by decide) (by decide), fT0_wordI (c := 0) (o := 43) (by decide) (by decide), cons_dec_enc]; rfl)
theorem Encoding.ret :
    Encoding.Statement (.ret) := fun _ => (decode_s (fCls_wordD (by decide) (by decide)) (fOp_wordD (by decide) (by decide))).trans (rowN0_word (by decide) (by decide))
theorem Encoding.retire :
    Encoding.Statement (.retire) := fun _ => (decode_s (fCls_wordD (by decide) (by decide)) (fOp_wordD (by decide) (by decide))).trans (rowN0_word (by decide) (by decide))
theorem Encoding.vadd (ty : VType) (vd va vb : BitVec 5) (q : BitVec 2) :
    Encoding.Statement (.vadd ty vd va vb q) := fun _ => (decode_v (fCls_wordV (by decide) (by decide)) (fOp_wordV (by decide) (by decide)) (by decide)).trans
  (rowVT_word (by decide) ty)
theorem Encoding.vsub (ty : VType) (vd va vb : BitVec 5) (q : BitVec 2) :
    Encoding.Statement (.vsub ty vd va vb q) := fun _ => (decode_v (fCls_wordV (by decide) (by decide)) (fOp_wordV (by decide) (by decide)) (by decide)).trans
  (rowVT_word (by decide) ty)
theorem Encoding.vmul (ty : VType) (vd va vb : BitVec 5) (q : BitVec 2) :
    Encoding.Statement (.vmul ty vd va vb q) := fun _ => (decode_v (fCls_wordV (by decide) (by decide)) (fOp_wordV (by decide) (by decide)) (by decide)).trans
  (rowVT_word (by decide) ty)
theorem Encoding.vfma (ty : VType) (vd va vb : BitVec 5) (q : BitVec 2) :
    Encoding.Statement (.vfma ty vd va vb q) := fun _ => (decode_v (fCls_wordV (by decide) (by decide)) (fOp_wordV (by decide) (by decide)) (by decide)).trans
  (rowVT_word (by decide) ty)
theorem Encoding.vmin (ty : VType) (vd va vb : BitVec 5) (q : BitVec 2) :
    Encoding.Statement (.vmin ty vd va vb q) := fun _ => (decode_v (fCls_wordV (by decide) (by decide)) (fOp_wordV (by decide) (by decide)) (by decide)).trans
  (rowVT_word (by decide) ty)
theorem Encoding.vmax (ty : VType) (vd va vb : BitVec 5) (q : BitVec 2) :
    Encoding.Statement (.vmax ty vd va vb q) := fun _ => (decode_v (fCls_wordV (by decide) (by decide)) (fOp_wordV (by decide) (by decide)) (by decide)).trans
  (rowVT_word (by decide) ty)
theorem Encoding.vabs (ty : VType) (vd va : BitVec 5) (q : BitVec 2) :
    Encoding.Statement (.vabs ty vd va q) := fun h => (decode_v (fCls_wordV (by decide) (by decide)) (fOp_wordV (by decide) (by decide)) (by decide)).trans
  (rowVT1_word (by decide) ty (by rintro rfl; exact nomatch h))
theorem Encoding.vneg (ty : VType) (vd va : BitVec 5) (q : BitVec 2) :
    Encoding.Statement (.vneg ty vd va q) := fun h => (decode_v (fCls_wordV (by decide) (by decide)) (fOp_wordV (by decide) (by decide)) (by decide)).trans
  (rowVT1_word (by decide) ty (by rintro rfl; exact nomatch h))
theorem Encoding.vand (vd va vb : BitVec 5) (q : BitVec 2) :
    Encoding.Statement (.vand vd va vb q) := fun _ => (decode_v (fCls_wordV (by decide) (by decide)) (fOp_wordV (by decide) (by decide)) (by decide)).trans
  (rowV3_word (by decide))
theorem Encoding.vor (vd va vb : BitVec 5) (q : BitVec 2) :
    Encoding.Statement (.vor vd va vb q) := fun _ => (decode_v (fCls_wordV (by decide) (by decide)) (fOp_wordV (by decide) (by decide)) (by decide)).trans
  (rowV3_word (by decide))
theorem Encoding.vxor (vd va vb : BitVec 5) (q : BitVec 2) :
    Encoding.Statement (.vxor vd va vb q) := fun _ => (decode_v (fCls_wordV (by decide) (by decide)) (fOp_wordV (by decide) (by decide)) (by decide)).trans
  (rowV3_word (by decide))
theorem Encoding.vshl (c : VCount) (vd va : BitVec 5) (q : BitVec 2) :
    Encoding.Statement (.vshl c vd va q) := fun _ => (decode_v (fCls_eSh (by decide)) (fOp_eSh (by decide)) (by decide)).trans
  (rowVSh_word (by decide) c)
theorem Encoding.vshr (c : VCount) (vd va : BitVec 5) (q : BitVec 2) :
    Encoding.Statement (.vshr c vd va q) := fun _ => (decode_v (fCls_eSh (by decide)) (fOp_eSh (by decide)) (by decide)).trans
  (rowVSh_word (by decide) c)
theorem Encoding.vsar (c : VCount) (vd va : BitVec 5) (q : BitVec 2) :
    Encoding.Statement (.vsar c vd va q) := fun _ => (decode_v (fCls_eSh (by decide)) (fOp_eSh (by decide)) (by decide)).trans
  (rowVSh_word (by decide) c)
theorem Encoding.vcmp (ty : VType) (rel : VRel) (vd va vb : BitVec 5) (q : BitVec 2) :
    Encoding.Statement (.vcmp ty rel vd va vb q) := fun h => (decode_v (fCls_wordV (by decide) (by decide)) (fOp_wordV (by decide) (by decide)) (by decide)).trans (by
  show (do resv ((fVmod _).toNat / 8 % 2 = 0); let rel ← orMod (VRel.dec ((fVmod _).toNat % 8)); let ty ← orMod (VType.dec ((fVmod _).toNat / 16)); if vcmpOk ty rel then return Instr.vcmp ty rel (fVD _) (fVA _) (fVB _) (fPipe _) else .error .modifier : Except DecodeFault Instr) = _
  simp only [fVmod_wordV (c := 1) (o := 14) (by decide) (by decide), fVD_wordV (c := 1) (o := 14) (by decide) (by decide), fVA_wordV (c := 1) (o := 14) (by decide) (by decide), fVB_wordV (c := 1) (o := 14) (by decide) (by decide), fPipe_wordV (c := 1) (o := 14) (by decide) (by decide)]
  revert h; cases ty <;> cases rel <;> intro h <;> first | rfl | exact nomatch h)
theorem Encoding.vsel (vd va vb : BitVec 5) (q : BitVec 2) :
    Encoding.Statement (.vsel vd va vb q) := fun _ => (decode_v (fCls_wordV (by decide) (by decide)) (fOp_wordV (by decide) (by decide)) (by decide)).trans
  (rowV3_word (by decide))
theorem Encoding.vcvt (pr : CvtPair) (md : CvtMode) (vd va : BitVec 5) (q : BitVec 2) :
    Encoding.Statement (.vcvt pr md vd va q) := fun _ => (decode_v (fCls_wordV (by decide) (by decide)) (fOp_wordV (by decide) (by decide)) (by decide)).trans
  (rowVm_word (o := 16) (n := (4 * pr.enc + md.enc)) (f := fun x vd va q => .vcvt x.1 x.2 vd va q) (md := fun m => some (CvtPair.dec (m / 4), CvtMode.dec (m % 4))) (res := fun _ => true) (by decide) (by cases pr <;> cases md <;> decide) (by cases pr <;> cases md <;> rfl) (x := (pr, md)) (by cases pr <;> cases md <;> rfl))
theorem Encoding.vqnt (f : QFmt) (scales : Bool) (vd va : BitVec 5) (q : BitVec 2) :
    Encoding.Statement (.vqnt f scales vd va q) := fun _ => (decode_v (fCls_wordV (by decide) (by decide)) (fOp_wordV (by decide) (by decide)) (by decide)).trans
  (rowVm_word (o := 17) (n := (16 * f.enc + 8 * scales.toNat)) (f := fun x vd va q => .vqnt x.1 x.2 vd va q) (md := fun m => some (QFmt.dec (m / 16), m / 8 % 2 == 1)) (res := fun m => m % 8 = 0) (by decide) (by cases f <;> cases scales <;> decide) (by cases f <;> cases scales <;> rfl) (x := (f, scales)) (by cases f <;> cases scales <;> rfl))
theorem Encoding.vdqnt (f : QFmt) (vd va vb : BitVec 5) (q : BitVec 2) :
    Encoding.Statement (.vdqnt f vd va vb q) := fun _ => (decode_v (fCls_wordV (by decide) (by decide)) (fOp_wordV (by decide) (by decide)) (by decide)).trans (by
  show (do resv ((fVmod _).toNat % 16 = 0); return Instr.vdqnt (QFmt.dec ((fVmod _).toNat / 16)) (fVD _) (fVA _) (fVB _) (fPipe _) : Except DecodeFault Instr) = _
  simp only [fVmod_wordV (c := 1) (o := 18) (by decide) (by decide), fVD_wordV (c := 1) (o := 18) (by decide) (by decide), fVA_wordV (c := 1) (o := 18) (by decide) (by decide), fVB_wordV (c := 1) (o := 18) (by decide) (by decide), fPipe_wordV (c := 1) (o := 18) (by decide) (by decide)]
  cases f <;> rfl)
theorem Encoding.vrcp (vd va : BitVec 5) (q : BitVec 2) :
    Encoding.Statement (.vrcp vd va q) := fun _ => (decode_v (fCls_wordV (by decide) (by decide)) (fOp_wordV (by decide) (by decide)) (by decide)).trans
  (rowV2_word (by decide))
theorem Encoding.vrsq (vd va : BitVec 5) (q : BitVec 2) :
    Encoding.Statement (.vrsq vd va q) := fun _ => (decode_v (fCls_wordV (by decide) (by decide)) (fOp_wordV (by decide) (by decide)) (by decide)).trans
  (rowV2_word (by decide))
theorem Encoding.vexp2 (vd va : BitVec 5) (q : BitVec 2) :
    Encoding.Statement (.vexp2 vd va q) := fun _ => (decode_v (fCls_wordV (by decide) (by decide)) (fOp_wordV (by decide) (by decide)) (by decide)).trans
  (rowV2_word (by decide))
theorem Encoding.vlog2 (vd va : BitVec 5) (q : BitVec 2) :
    Encoding.Statement (.vlog2 vd va q) := fun _ => (decode_v (fCls_wordV (by decide) (by decide)) (fOp_wordV (by decide) (by decide)) (by decide)).trans
  (rowV2_word (by decide))
theorem Encoding.vperm (src : PermSrc) (vd va : BitVec 5) (q : BitVec 2) :
    Encoding.Statement (.vperm src vd va q) := by
  intro _
  cases src with
  | index vb =>
    refine (decode_v (fCls_wordV (by decide) (by decide)) (fOp_wordV (by decide) (by decide)) (by decide)).trans ?_
    show (if (fVmod _).toNat = 0 then .ok (.vperm (.index (fVB _)) (fVD _) (fVA _) (fPipe _)) else _ : Except DecodeFault Instr) = _
    simp only [fVmod_wordV (c := 1) (o := 23) (by decide) (by decide), fVD_wordV (c := 1) (o := 23) (by decide) (by decide), fVA_wordV (c := 1) (o := 23) (by decide) (by decide), fVB_wordV (c := 1) (o := 23) (by decide) (by decide), fPipe_wordV (c := 1) (o := 23) (by decide) (by decide)]; rfl
  | rot k =>
    refine (decode_v (fCls_wordV (by decide) (by decide)) (fOp_wordV (by decide) (by decide)) (by decide)).trans ?_
    have hk := k.isLt
    have h1 : (BitVec.ofNat 6 (32 + k.toNat)).toNat = 32 + k.toNat := ofNat6 (by omega)
    have h2 : BitVec.ofNat 5 (32 + k.toNat) = k := by apply BitVec.eq_of_toNat_eq; rw [BitVec.toNat_ofNat]; omega
    show (if (fVmod _).toNat = 0 then _ else do
        resv ((fVmod _).toNat < 32 || fVB _ = 0)
        if (fVmod _).toNat < 32 then .error .modifier else
        return .vperm (.rot (BitVec.ofNat 5 (fVmod _).toNat)) (fVD _) (fVA _) (fPipe _) : Except DecodeFault Instr) = _
    simp only [fVmod_wordV (c := 1) (o := 23) (by decide) (by decide), fVD_wordV (c := 1) (o := 23) (by decide) (by decide), fVA_wordV (c := 1) (o := 23) (by decide) (by decide), fVB_wordV (c := 1) (o := 23) (by decide) (by decide), fPipe_wordV (c := 1) (o := 23) (by decide) (by decide), h1, h2]
    rw [if_neg (by omega)]
    have h3 : ¬ (32 + k.toNat < 32) := by omega
    simp only [h3, if_false, decide_true, Bool.or_true]; rfl
theorem Encoding.vbfly (op : BflyOp) (k : BitVec 3) (vd va : BitVec 5) (q : BitVec 2) :
    Encoding.Statement (.vbfly op k vd va q) := fun h => (decode_v (fCls_wordV (by decide) (by decide)) (fOp_wordV (by decide) (by decide)) (by decide)).trans
  (rowVm_word (o := 24) (n := 8 * op.enc + k.toNat) (f := fun x vd va q => .vbfly x.1 x.2 vd va q)
    (md := fun m => if m % 8 ≤ 4 then (BflyOp.dec (m / 8)).map (·, BitVec.ofNat 3 m) else none) (res := fun _ => true)
    (by decide) (by cases op <;> (clear h; revert k; decide)) rfl (x := (op, k))
    (by simp only [Instr.wf] at h; revert h; cases op <;> (revert k; decide)))
theorem Encoding.vred (op : RedOp) (vd va : BitVec 5) (q : BitVec 2) :
    Encoding.Statement (.vred op vd va q) := fun _ => (decode_v (fCls_wordV (by decide) (by decide)) (fOp_wordV (by decide) (by decide)) (by decide)).trans
  (rowVm_word (o := 25) (n := (8 * op.enc)) (f := .vred) (md := fun m => RedOp.dec (m / 8)) (res := fun m => m % 8 = 0) (by decide) (by cases op <;> decide) (by cases op <;> rfl) (x := op) (by cases op <;> rfl))
theorem Encoding.vscan (op : RedOp) (excl : Bool) (vd va : BitVec 5) (q : BitVec 2) :
    Encoding.Statement (.vscan op excl vd va q) := fun _ => (decode_v (fCls_wordV (by decide) (by decide)) (fOp_wordV (by decide) (by decide)) (by decide)).trans
  (rowVm_word (o := 26) (n := (8 * op.enc + excl.toNat)) (f := fun x vd va q => .vscan x.1 x.2 vd va q) (md := fun m => (RedOp.dec (m / 8)).map (·, m % 2 == 1)) (res := fun m => m / 2 % 4 = 0) (by decide) (by cases op <;> cases excl <;> decide) (by cases op <;> cases excl <;> rfl) (x := (op, excl)) (by cases op <;> cases excl <;> rfl))
theorem Encoding.vsmxa (start : Bool) (vd va : BitVec 5) (q : BitVec 2) :
    Encoding.Statement (.vsmxa start vd va q) := fun _ => (decode_v (fCls_wordV (by decide) (by decide)) (fOp_wordV (by decide) (by decide)) (by decide)).trans
  (rowVm_word (o := 27) (n := start.toNat) (f := .vsmxa) (md := fun m => some (m == 1)) (res := fun m => m < 2) (by decide) (by cases start <;> decide) (by cases start <;> rfl) (x := start) (by cases start <;> rfl))
theorem Encoding.vsmxn (vd va vb : BitVec 5) (q : BitVec 2) :
    Encoding.Statement (.vsmxn vd va vb q) := fun _ => (decode_v (fCls_wordV (by decide) (by decide)) (fOp_wordV (by decide) (by decide)) (by decide)).trans
  (rowV3_word (by decide))
theorem Encoding.vstat (ph : StatPhase) (vd va : BitVec 5) (q : BitVec 2) :
    Encoding.Statement (.vstat ph vd va q) := fun _ => (decode_v (fCls_wordV (by decide) (by decide)) (fOp_wordV (by decide) (by decide)) (by decide)).trans
  (rowVm_word (o := 29) (n := ph.enc) (f := .vstat) (md := StatPhase.dec) (res := fun m => m < 8) (by decide) (by cases ph <;> decide) (by cases ph <;> rfl) (x := ph) (by cases ph <;> rfl))
theorem Encoding.vsplat (src : SplatSrc) (vd : BitVec 5) (q : BitVec 2) :
    Encoding.Statement (.vsplat src vd q) := by
  intro _
  cases src with
  | a =>
    refine (decode_v (fCls_wordV (by decide) (by decide)) (fOp_wordV (by decide) (by decide)) (by decide)).trans ?_
    show (if (fVmod _).toNat = 0 then do
        resv (fVA _ = 0 && fVB _ = 0)
        return .vsplat .a (fVD _) (fPipe _)
      else _ : Except DecodeFault Instr) = _
    simp only [fVmod_wordV (c := 1) (o := 30) (by decide) (by decide), fVD_wordV (c := 1) (o := 30) (by decide) (by decide), fVA_wordV (c := 1) (o := 30) (by decide) (by decide), fVB_wordV (c := 1) (o := 30) (by decide) (by decide), fPipe_wordV (c := 1) (o := 30) (by decide) (by decide)]; rfl
  | lane va n =>
    refine (decode_v (fCls_wordV (by decide) (by decide)) (fOp_wordV (by decide) (by decide)) (by decide)).trans ?_
    show (if (fVmod _).toNat = 0 then _
      else if (fVmod _).toNat = 1 then .ok (.vsplat (.lane (fVA _) (fVB _)) (fVD _) (fPipe _)) else _ : Except DecodeFault Instr) = _
    simp only [fVmod_wordV (c := 1) (o := 30) (by decide) (by decide), fVD_wordV (c := 1) (o := 30) (by decide) (by decide), fVA_wordV (c := 1) (o := 30) (by decide) (by decide), fVB_wordV (c := 1) (o := 30) (by decide) (by decide), fPipe_wordV (c := 1) (o := 30) (by decide) (by decide)]; rfl
theorem Encoding.vmovs (src : MovsSrc) (q : BitVec 2) (t0 : Cons) :
    Encoding.Statement (.vmovs src q t0) := by
  intro _
  cases src with
  | lane sx va n =>
    refine (decode_v (fCls_wordVS (by decide) (by decide)) (fOp_wordVS (by decide) (by decide)) (by decide)).trans ?_
    show (do
      let t0 ← Cons.dec (fT0 _)
      match (fVmod2 _).toNat with
      | 0 => return .vmovs (.lane false (fVD _) (fLane _)) (fSPipe _) t0
      | 1 => return .vmovs (.lane true (fVD _) (fLane _)) (fSPipe _) t0
      | 2 => do resv (fVD _ = 0 && fLane _ = 0); return .vmovs .psts (fSPipe _) t0
      | _ => do resv (fVD _ = 0 && fLane _ = 0); return .vmovs .len (fSPipe _) t0 : Except DecodeFault Instr) = _
    simp only [fT0_wordVS (c := 1) (o := 31) (by decide) (by decide), fVD_wordVS (c := 1) (o := 31) (by decide) (by decide), fSPipe_wordVS (c := 1) (o := 31) (by decide) (by decide), fVmod2_wordVS (c := 1) (o := 31) (by decide) (by decide), fLane_wordVS (c := 1) (o := 31) (by decide) (by decide), cons_dec_enc]; cases sx <;> rfl
  | psts | len =>
    refine (decode_v (fCls_wordVS (by decide) (by decide)) (fOp_wordVS (by decide) (by decide)) (by decide)).trans ?_
    show (do
      let t0 ← Cons.dec (fT0 _)
      match (fVmod2 _).toNat with
      | 0 => return .vmovs (.lane false (fVD _) (fLane _)) (fSPipe _) t0
      | 1 => return .vmovs (.lane true (fVD _) (fLane _)) (fSPipe _) t0
      | 2 => do resv (fVD _ = 0 && fLane _ = 0); return .vmovs .psts (fSPipe _) t0
      | _ => do resv (fVD _ = 0 && fLane _ = 0); return .vmovs .len (fSPipe _) t0 : Except DecodeFault Instr) = _
    simp only [fT0_wordVS (c := 1) (o := 31) (by decide) (by decide), fVD_wordVS (c := 1) (o := 31) (by decide) (by decide), fSPipe_wordVS (c := 1) (o := 31) (by decide) (by decide), fVmod2_wordVS (c := 1) (o := 31) (by decide) (by decide), fLane_wordVS (c := 1) (o := 31) (by decide) (by decide), cons_dec_enc]; rfl
theorem Encoding.vins (va n : BitVec 5) (q : BitVec 2) (t0 : Cons) :
    Encoding.Statement (.vins va n q t0) := by
  intro _
  refine (decode_v (fCls_wordVS (by decide) (by decide)) (fOp_wordVS (by decide) (by decide)) (by decide)).trans ?_
  show (do
      let t0 ← Cons.dec (fT0 _)
      if fVmod2 _ = 0 then return .vins (fVD _) (fLane _) (fSPipe _) t0 else .error .modifier : Except DecodeFault Instr) = _
  simp only [fT0_wordVS (c := 1) (o := 32) (by decide) (by decide), fVD_wordVS (c := 1) (o := 32) (by decide) (by decide), fSPipe_wordVS (c := 1) (o := 32) (by decide) (by decide), fVmod2_wordVS (c := 1) (o := 32) (by decide) (by decide), fLane_wordVS (c := 1) (o := 32) (by decide) (by decide), cons_dec_enc]; rfl
theorem Encoding.vlane (src : LaneSrc) (q : BitVec 2) :
    Encoding.Statement (.vlane src q) := by
  intro _
  cases src with
  | a | v va | all =>
    refine (decode_v (fCls_wordV (by decide) (by decide)) (fOp_wordV (by decide) (by decide)) (by decide)).trans ?_
    show (do
      resv (fVD _ = 0 && fVB _ = 0 && ((fVmod _).toNat = 1 || fVA _ = 0))
      match (fVmod _).toNat with
      | 0 => return .vlane .a (fPipe _)
      | 1 => return .vlane (.v (fVA _)) (fPipe _)
      | 2 => return .vlane .all (fPipe _)
      | _ => .error .modifier : Except DecodeFault Instr) = _
    simp only [fVmod_wordV (c := 1) (o := 33) (by decide) (by decide), fVD_wordV (c := 1) (o := 33) (by decide) (by decide), fVA_wordV (c := 1) (o := 33) (by decide) (by decide), fVB_wordV (c := 1) (o := 33) (by decide) (by decide), fPipe_wordV (c := 1) (o := 33) (by decide) (by decide)]; rfl
theorem Encoding.vmov (vd va : BitVec 5) (q : BitVec 2) :
    Encoding.Statement (.vmov vd va q) := fun _ => (decode_v (fCls_wordV (by decide) (by decide)) (fOp_wordV (by decide) (by decide)) (by decide)).trans
  (rowV2_word (by decide))
theorem Encoding.sett (n : BitVec 4) (vd va vb : BitVec 5) (q : BitVec 2) :
    Encoding.Statement (.sett n vd va vb q) := by
  intro _
  have hn := n.isLt
  have ho : 48 + n.toNat < 64 := by omega
  have h2 : BitVec.ofNat 4 (48 + n.toNat) = n := by apply BitVec.eq_of_toNat_eq; rw [BitVec.toNat_ofNat]; omega
  show decode (eV (48 + n.toNat) vd va vb q 0) = _
  have hc : fCls (eV (48 + n.toNat) vd va vb q 0) = 1 := fCls_wordV (by decide) ho
  have hp : fOp (eV (48 + n.toNat) vd va vb q 0) = 48 + n.toNat := fOp_wordV (by decide) ho
  simp only [decode, hc, hp]
  rw [if_pos (by omega), h2]
  exact rowV3_word ho
theorem Encoding.mregion (r : BitVec 3) :
    Encoding.Statement (.mregion r) := fun _ => (decode_m (fCls_wordD (by decide) (by decide)) (fOp_wordD (by decide) (by decide))).trans (rowR_word (by decide) (by decide) r)
theorem Encoding.mfmt (r : BitVec 3) :
    Encoding.Statement (.mfmt r) := fun _ => (decode_m (fCls_wordD (by decide) (by decide)) (fOp_wordD (by decide) (by decide))).trans (rowR_word (by decide) (by decide) r)
theorem Encoding.mwld (r : BitVec 3) :
    Encoding.Statement (.mwld r) := fun _ => (decode_m (fCls_wordD (by decide) (by decide)) (fOp_wordD (by decide) (by decide))).trans (rowR_word (by decide) (by decide) r)
theorem Encoding.mswap (r : BitVec 3) :
    Encoding.Statement (.mswap r) := fun _ => (decode_m (fCls_wordD (by decide) (by decide)) (fOp_wordD (by decide) (by decide))).trans (rowR_word (by decide) (by decide) r)
theorem Encoding.mstep (r : BitVec 3) :
    Encoding.Statement (.mstep r) := fun _ => (decode_m (fCls_wordD (by decide) (by decide)) (fOp_wordD (by decide) (by decide))).trans (rowR_word (by decide) (by decide) r)
theorem Encoding.macc (r : BitVec 3) :
    Encoding.Statement (.macc r) := fun _ => (decode_m (fCls_wordD (by decide) (by decide)) (fOp_wordD (by decide) (by decide))).trans (rowR_word (by decide) (by decide) r)
theorem Encoding.mdrain (r : BitVec 3) :
    Encoding.Statement (.mdrain r) := fun _ => (decode_m (fCls_wordD (by decide) (by decide)) (fOp_wordD (by decide) (by decide))).trans (rowR_word (by decide) (by decide) r)
theorem Encoding.mzero (r : BitVec 3) :
    Encoding.Statement (.mzero r) := fun _ => (decode_m (fCls_wordD (by decide) (by decide)) (fOp_wordD (by decide) (by decide))).trans (rowR_word (by decide) (by decide) r)
theorem Encoding.mstat (r : BitVec 3) (t0 t1 : Cons) :
    Encoding.Statement (.mstat r t0 t1) := fun h => (decode_m (fCls_wordD (by decide) (by decide)) (fOp_wordD (by decide) (by decide))).trans
  (rowDk_word (k := 3) (md := fun m => some (BitVec.ofNat 3 m)) (f := .mstat) (m := (m5 r.toNat)) (x := r) (by decide) (by decide)
    (by clear h; revert r; decide) (by clear h; revert r; decide))
theorem Encoding.mfree (r : BitVec 3) :
    Encoding.Statement (.mfree r) := fun _ => (decode_m (fCls_wordD (by decide) (by decide)) (fOp_wordD (by decide) (by decide))).trans (rowR_word (by decide) (by decide) r)
theorem Encoding.cload (h : BitVec 5) :
    Encoding.Statement (.cload h) := fun _ => (decode_c (fCls_wordD (by decide) (by decide)) (fOp_wordD (by decide) (by decide))).trans (rowH_word (by decide) (by decide))
theorem Encoding.cfire (h : BitVec 5) :
    Encoding.Statement (.cfire h) := fun _ => (decode_c (fCls_wordD (by decide) (by decide)) (fOp_wordD (by decide) (by decide))).trans (rowH_word (by decide) (by decide))
theorem Encoding.cpatch (h : BitVec 5) :
    Encoding.Statement (.cpatch h) := fun _ => (decode_c (fCls_wordD (by decide) (by decide)) (fOp_wordD (by decide) (by decide))).trans (rowH_word (by decide) (by decide))
theorem Encoding.cmcast (h : BitVec 5) :
    Encoding.Statement (.cmcast h) := fun _ => (decode_c (fCls_wordD (by decide) (by decide)) (fOp_wordD (by decide) (by decide))).trans (rowH_word (by decide) (by decide))
theorem Encoding.cevict (m : BitVec 5) :
    Encoding.Statement (.cevict m) := fun _ => (decode_c (fCls_wordD (by decide) (by decide)) (fOp_wordD (by decide) (by decide))).trans (rowH_word (by decide) (by decide))
theorem Encoding.cstat (h : BitVec 5) (t0 t1 : Cons) :
    Encoding.Statement (.cstat h t0 t1) := fun _ => (decode_c (fCls_wordD (by decide) (by decide)) (fOp_wordD (by decide) (by decide))).trans
  (rowD_word (by decide) (by decide) (x := h) rfl)
theorem Encoding.cweight (h : BitVec 5) :
    Encoding.Statement (.cweight h) := fun _ => (decode_c (fCls_wordD (by decide) (by decide)) (fOp_wordD (by decide) (by decide))).trans (rowH_word (by decide) (by decide))
theorem Encoding.chang (h : BitVec 5) :
    Encoding.Statement (.chang h) := fun _ => (decode_c (fCls_wordD (by decide) (by decide)) (fOp_wordD (by decide) (by decide))).trans (rowH_word (by decide) (by decide))
theorem Encoding.cfreeze (h : BitVec 5) :
    Encoding.Statement (.cfreeze h) := fun _ => (decode_c (fCls_wordD (by decide) (by decide)) (fOp_wordD (by decide) (by decide))).trans (rowH_word (by decide) (by decide))
theorem Encoding.cthaw (h : BitVec 5) :
    Encoding.Statement (.cthaw h) := fun _ => (decode_c (fCls_wordD (by decide) (by decide)) (fOp_wordD (by decide) (by decide))).trans (rowH_word (by decide) (by decide))
theorem Encoding.sbind (n : BitVec 4) :
    Encoding.Statement (.sbind n) := fun h => (decode_c (fCls_wordD (by decide) (by decide)) (fOp_wordD (by decide) (by decide))).trans
  (rowNk_word (k := 4) (md := fun m => some (BitVec.ofNat 4 m)) (f := .sbind) (m := (m5 n.toNat)) (x := n) (by decide) (by decide)
    (by clear h; revert n; decide) (by clear h; revert n; decide))
theorem Encoding.sfree (n : BitVec 4) :
    Encoding.Statement (.sfree n) := fun h => (decode_c (fCls_wordD (by decide) (by decide)) (fOp_wordD (by decide) (by decide))).trans
  (rowNk_word (k := 4) (md := fun m => some (BitVec.ofNat 4 m)) (f := .sfree) (m := (m5 n.toNat)) (x := n) (by decide) (by decide)
    (by clear h; revert n; decide) (by clear h; revert n; decide))
theorem Encoding.squery (img : Bool) (n : BitVec 4) (t0 t1 : Cons) :
    Encoding.Statement (.squery img n t0 t1) := fun h => (decode_c (fCls_wordD (by decide) (by decide)) (fOp_wordD (by decide) (by decide))).trans
  (rowD_word (f := fun x => .squery x.1 x.2) (md := fun m => some (m.toNat / 16 == 1, BitVec.ofNat 4 m.toNat)) (m := (m5 (img.toNat * 16 + n.toNat))) (x := (img, n)) (by decide) (by decide)
    (by cases img <;> (clear h; revert n; decide)))
theorem Encoding.ld (sp : Space) (sx : Bool) (sz : Size) (t0 t1 : Cons) :
    Encoding.Statement (.ld sp sx sz t0 t1) := fun h => (decode_l (fCls_wordD (by decide) (by decide)) (fOp_wordD (by decide) (by decide))).trans
  (rowD_word (by decide) (by decide) (x := (sp, sx, sz))
    (by revert h; simp only [Instr.wf]; cases sp <;> cases sx <;> cases sz <;> decide))
theorem Encoding.st (sp : Space) (sz : Size) (t0 t1 : Cons) :
    Encoding.Statement (.st sp sz t0 t1) := fun h => (decode_l (fCls_wordD (by decide) (by decide)) (fOp_wordD (by decide) (by decide))).trans
  (rowD_word (by decide) (by decide) (x := (sp, sz))
    (by revert h; simp only [Instr.wf]; cases sp <;> cases sz <;> decide))
theorem Encoding.ldv (sp : VSpace) (va : BitVec 5) (q : BitVec 2) (t0 : Cons) :
    Encoding.Statement (.ldv sp va q t0) := fun _ => (decode_l (fCls_wordVS (by decide) (by decide)) (fOp_wordVS (by decide) (by decide))).trans
  (rowVS_word (md := VSpace.dec) (f := .ldv) (vm := sp.enc) (by decide) (by decide) (x := sp) (by cases sp <;> rfl))
theorem Encoding.stv (sp : VSpace) (va : BitVec 5) (q : BitVec 2) (t0 : Cons) :
    Encoding.Statement (.stv sp va q t0) := fun _ => (decode_l (fCls_wordVS (by decide) (by decide)) (fOp_wordVS (by decide) (by decide))).trans
  (rowVS_word (md := VSpace.dec) (f := .stv) (vm := sp.enc) (by decide) (by decide) (x := sp) (by cases sp <;> rfl))
theorem Encoding.ldg (s : BitVec 5) (t0 t1 : Cons) :
    Encoding.Statement (.ldg s t0 t1) := fun _ => (decode_l (fCls_wordD (by decide) (by decide)) (fOp_wordD (by decide) (by decide))).trans
  (rowD_word (by decide) (by decide) (x := s) rfl)
theorem Encoding.sts (s : BitVec 5) (t0 t1 : Cons) :
    Encoding.Statement (.sts s t0 t1) := fun _ => (decode_l (fCls_wordD (by decide) (by decide)) (fOp_wordD (by decide) (by decide))).trans
  (rowD_word (by decide) (by decide) (x := s) rfl)
theorem Encoding.agen (s : BitVec 5) :
    Encoding.Statement (.agen s) := fun _ => (decode_l (fCls_wordD (by decide) (by decide)) (fOp_wordD (by decide) (by decide))).trans (rowH_word (by decide) (by decide))
theorem Encoding.astart (s : BitVec 5) :
    Encoding.Statement (.astart s) := fun _ => (decode_l (fCls_wordD (by decide) (by decide)) (fOp_wordD (by decide) (by decide))).trans (rowH_word (by decide) (by decide))
theorem Encoding.astop (s : BitVec 5) :
    Encoding.Statement (.astop s) := fun _ => (decode_l (fCls_wordD (by decide) (by decide)) (fOp_wordD (by decide) (by decide))).trans (rowH_word (by decide) (by decide))
theorem Encoding.abar :
    Encoding.Statement (.abar) := fun _ => (decode_l (fCls_wordD (by decide) (by decide)) (fOp_wordD (by decide) (by decide))).trans (rowN0_word (by decide) (by decide))
theorem Encoding.ldw (s : BitVec 5) :
    Encoding.Statement (.ldw s) := fun _ => (decode_l (fCls_wordD (by decide) (by decide)) (fOp_wordD (by decide) (by decide))).trans (rowH_word (by decide) (by decide))
theorem Encoding.tlook (t0 t1 : Cons) :
    Encoding.Statement (.tlook t0 t1) := fun _ => (decode_l (fCls_wordD (by decide) (by decide)) (fOp_wordD (by decide) (by decide))).trans (rowD0_word (by decide) (by decide))
theorem Encoding.tset :
    Encoding.Statement (.tset) := fun _ => (decode_l (fCls_wordD (by decide) (by decide)) (fOp_wordD (by decide) (by decide))).trans (rowN0_word (by decide) (by decide))
theorem Encoding.tclr :
    Encoding.Statement (.tclr) := fun _ => (decode_l (fCls_wordD (by decide) (by decide)) (fOp_wordD (by decide) (by decide))).trans (rowN0_word (by decide) (by decide))
theorem Encoding.amo (op : AmoOp) (ty : AmoTy) (t0 t1 : Cons) :
    Encoding.Statement (.amo op ty t0 t1) := fun h => (decode_l (fCls_wordD (by decide) (by decide)) (fOp_wordD (by decide) (by decide))).trans
  (rowD_word (by decide) (by decide) (x := (op, ty))
    (by revert h; simp only [Instr.wf]; cases op <;> cases ty <;> decide))
theorem Encoding.amov (op : AmovOp) (va : BitVec 5) (q : BitVec 2) (t0 : Cons) :
    Encoding.Statement (.amov op va q t0) := fun _ => (decode_l (fCls_wordVS (by decide) (by decide)) (fOp_wordVS (by decide) (by decide))).trans
  (rowVS_word (md := fun m => some (AmovOp.dec m)) (f := .amov) (vm := op.enc) (by decide) (by decide) (x := op) (by cases op <;> rfl))
theorem Encoding.cas (wide : Bool) (t0 t1 : Cons) :
    Encoding.Statement (.cas wide t0 t1) := fun _ => (decode_l (fCls_wordD (by decide) (by decide)) (fOp_wordD (by decide) (by decide))).trans
  (rowD_word (by decide) (by decide) (x := wide) (by cases wide <;> rfl))
theorem Encoding.pxform (p : BitVec 4) :
    Encoding.Statement (.pxform p) := fun _ => (decode_l (fCls_wordD (by decide) (by decide)) (fOp_wordD (by decide) (by decide))).trans
  (rowN_word (by decide) (by decide) (x := p) (by rename_i h; clear h; revert p; decide))
theorem Encoding.pmerge (p : BitVec 4) :
    Encoding.Statement (.pmerge p) := fun _ => (decode_l (fCls_wordD (by decide) (by decide)) (fOp_wordD (by decide) (by decide))).trans
  (rowN_word (by decide) (by decide) (x := p) (by rename_i h; clear h; revert p; decide))
theorem Encoding.ringdef (n : BitVec 4) :
    Encoding.Statement (.ringdef n) := fun _ => (decode_l (fCls_wordD (by decide) (by decide)) (fOp_wordD (by decide) (by decide))).trans
  (rowN_word (by decide) (by decide) (x := n) (by rename_i h; clear h; revert n; decide))
theorem Encoding.ringstat (n : BitVec 4) (t0 t1 : Cons) :
    Encoding.Statement (.ringstat n t0 t1) := fun _ => (decode_l (fCls_wordD (by decide) (by decide)) (fOp_wordD (by decide) (by decide))).trans
  (rowD_word (by decide) (by decide) (x := n) (by rename_i h; clear h; revert n; decide))
theorem Encoding.resume :
    Encoding.Statement (.resume) := fun _ => (decode_l (fCls_wordD (by decide) (by decide)) (fOp_wordD (by decide) (by decide))).trans (rowN0_word (by decide) (by decide))
theorem Encoding.kcopy (t0 t1 : Cons) :
    Encoding.Statement (.kcopy t0 t1) := fun _ => (decode_k (fCls_wordD (by decide) (by decide)) (fOp_wordD (by decide) (by decide))).trans (rowD0_word (by decide) (by decide))
theorem Encoding.kgath (t0 t1 : Cons) :
    Encoding.Statement (.kgath t0 t1) := fun _ => (decode_k (fCls_wordD (by decide) (by decide)) (fOp_wordD (by decide) (by decide))).trans (rowD0_word (by decide) (by decide))
theorem Encoding.kscat (t0 t1 : Cons) :
    Encoding.Statement (.kscat t0 t1) := fun _ => (decode_k (fCls_wordD (by decide) (by decide)) (fOp_wordD (by decide) (by decide))).trans (rowD0_word (by decide) (by decide))
theorem Encoding.kred (op : MergeOp) (t0 t1 : Cons) :
    Encoding.Statement (.kred op t0 t1) := fun h => (decode_k (fCls_wordD (by decide) (by decide)) (fOp_wordD (by decide) (by decide))).trans
  (rowD_word (f := .kred) (md := fun m => MergeOp.dec m.toNat) (m := (m5 op.enc)) (x := op) (by decide) (by decide)
    (by cases op <;> rfl))
theorem Encoding.kport (p : BitVec 2) :
    Encoding.Statement (.kport p) := fun h => (decode_k (fCls_wordD (by decide) (by decide)) (fOp_wordD (by decide) (by decide))).trans
  (rowNk_word (k := 5) (md := fun m => if m < 4 then some (BitVec.ofNat 2 m) else none) (f := .kport) (m := (m5 p.toNat)) (x := p) (by decide) (by decide)
    (by clear h; revert p; decide) (by clear h; revert p; decide))
theorem Encoding.ksend (rec : Bool) (tag : BitVec 4) (t0 t1 : Cons) :
    Encoding.Statement (.ksend rec tag t0 t1) := fun h => (decode_k (fCls_wordD (by decide) (by decide)) (fOp_wordD (by decide) (by decide))).trans
  (rowD_word (f := fun x => .ksend x.1 x.2) (md := fun m => some (m.toNat / 16 == 1, BitVec.ofNat 4 m.toNat)) (m := (m5 (16 * rec.toNat + tag.toNat))) (x := (rec, tag)) (by decide) (by decide)
    (by cases rec <;> (clear h; revert tag; decide)))
theorem Encoding.krecv (n : BitVec 4) (t0 t1 : Cons) :
    Encoding.Statement (.krecv n t0 t1) := fun _ => (decode_k (fCls_wordD (by decide) (by decide)) (fOp_wordD (by decide) (by decide))).trans
  (rowD_word (by decide) (by decide) (x := n) (by rename_i h; clear h; revert n; decide))
theorem Encoding.kpoll (n : BitVec 4) (t0 t1 : Cons) :
    Encoding.Statement (.kpoll n t0 t1) := fun _ => (decode_k (fCls_wordD (by decide) (by decide)) (fOp_wordD (by decide) (by decide))).trans
  (rowD_word (by decide) (by decide) (x := n) (by rename_i h; clear h; revert n; decide))
theorem Encoding.kcoll (k : CollKind) (t0 t1 : Cons) :
    Encoding.Statement (.kcoll k t0 t1) := fun h => (decode_k (fCls_wordD (by decide) (by decide)) (fOp_wordD (by decide) (by decide))).trans
  (rowD_word (f := .kcoll) (md := fun m => CollKind.dec m.toNat) (m := (m5 k.enc)) (x := k) (by decide) (by decide)
    (by cases k <;> rfl))
theorem Encoding.kwait (t0 t1 : Cons) :
    Encoding.Statement (.kwait t0 t1) := fun _ => (decode_k (fCls_wordD (by decide) (by decide)) (fOp_wordD (by decide) (by decide))).trans (rowD0_word (by decide) (by decide))
theorem Encoding.kevq (t0 t1 : Cons) :
    Encoding.Statement (.kevq t0 t1) := fun _ => (decode_k (fCls_wordD (by decide) (by decide)) (fOp_wordD (by decide) (by decide))).trans (rowD0_word (by decide) (by decide))
theorem Encoding.kcancel :
    Encoding.Statement (.kcancel) := fun _ => (decode_k (fCls_wordD (by decide) (by decide)) (fOp_wordD (by decide) (by decide))).trans (rowN0_word (by decide) (by decide))
theorem Encoding.kstat (t0 t1 : Cons) :
    Encoding.Statement (.kstat t0 t1) := fun _ => (decode_k (fCls_wordD (by decide) (by decide)) (fOp_wordD (by decide) (by decide))).trans (rowD0_word (by decide) (by decide))
theorem Encoding.bari (s : Scope) :
    Encoding.Statement (.bari s) := fun _ => (decode_y (fCls_wordD (by decide) (by decide)) (fOp_wordD (by decide) (by decide))).trans (by
  show (do resv (fT1 _ = 0 && fT0 _ = 0); resv ((fMod _).toNat < 16); return Instr.bari (← decScope (fMod _).toNat) : Except DecodeFault Instr) = _
  simp only [fT1_wordD (c := 6) (o := 0) (by decide) (by decide), fT0_wordD (c := 6) (o := 0) (by decide) (by decide), fMod_wordD (c := 6) (o := 0) (by decide) (by decide)]
  cases s <;> rfl)
theorem Encoding.bara (t0 t1 : Cons) :
    Encoding.Statement (.bara t0 t1) := fun _ => (decode_y (fCls_wordD (by decide) (by decide)) (fOp_wordD (by decide) (by decide))).trans (rowD0_word (by decide) (by decide))
theorem Encoding.barw (t0 t1 : Cons) :
    Encoding.Statement (.barw t0 t1) := fun _ => (decode_y (fCls_wordD (by decide) (by decide)) (fOp_wordD (by decide) (by decide))).trans (rowD0_word (by decide) (by decide))
theorem Encoding.baraw (t0 t1 : Cons) :
    Encoding.Statement (.baraw t0 t1) := fun _ => (decode_y (fCls_wordD (by decide) (by decide)) (fOp_wordD (by decide) (by decide))).trans (rowD0_word (by decide) (by decide))
theorem Encoding.bard (t0 t1 : Cons) :
    Encoding.Statement (.bard t0 t1) := fun _ => (decode_y (fCls_wordD (by decide) (by decide)) (fOp_wordD (by decide) (by decide))).trans (rowD0_word (by decide) (by decide))
theorem Encoding.bart (t0 t1 : Cons) :
    Encoding.Statement (.bart t0 t1) := fun _ => (decode_y (fCls_wordD (by decide) (by decide)) (fOp_wordD (by decide) (by decide))).trans (rowD0_word (by decide) (by decide))
theorem Encoding.fence (s : Scope) (t0 t1 : Cons) :
    Encoding.Statement (.fence s t0 t1) := fun _ => (decode_y (fCls_wordD (by decide) (by decide)) (fOp_wordD (by decide) (by decide))).trans (by
  show (do let t1 ← Cons.dec (fT1 _); let t0 ← Cons.dec (fT0 _); resv ((fMod _).toNat < 16); return Instr.fence (← decScope (fMod _).toNat) t0 t1 : Except DecodeFault Instr) = _
  simp only [fT1_wordD (c := 6) (o := 6) (by decide) (by decide), fT0_wordD (c := 6) (o := 6) (by decide) (by decide), fMod_wordD (c := 6) (o := 6) (by decide) (by decide), cons_dec_enc]
  cases s <;> rfl)
theorem Encoding.dput (q : BitVec 3) :
    Encoding.Statement (.dput q) := fun h => (decode_y (fCls_wordD (by decide) (by decide)) (fOp_wordD (by decide) (by decide))).trans
  (rowNk_word (k := 3) (md := fun m => some (BitVec.ofNat 3 m)) (f := .dput) (m := (m5 q.toNat)) (x := q) (by decide) (by decide)
    (by clear h; revert q; decide) (by clear h; revert q; decide))
theorem Encoding.dget (q : BitVec 3) :
    Encoding.Statement (.dget q) := fun h => (decode_y (fCls_wordD (by decide) (by decide)) (fOp_wordD (by decide) (by decide))).trans
  (rowNk_word (k := 3) (md := fun m => some (BitVec.ofNat 3 m)) (f := .dget) (m := (m5 q.toNat)) (x := q) (by decide) (by decide)
    (by clear h; revert q; decide) (by clear h; revert q; decide))
theorem Encoding.waitf (c : FlagCond) (t0 t1 : Cons) :
    Encoding.Statement (.waitf c t0 t1) := fun h => (decode_y (fCls_wordD (by decide) (by decide)) (fOp_wordD (by decide) (by decide))).trans
  (rowDk_word (k := 2) (md := fun m => some (FlagCond.dec m)) (f := .waitf) (m := (m5 c.enc)) (x := c) (by decide) (by decide)
    (by cases c <;> decide) (by cases c <;> decide))
theorem Encoding.setf (all : Bool) :
    Encoding.Statement (.setf all) := fun h => (decode_y (fCls_wordD (by decide) (by decide)) (fOp_wordD (by decide) (by decide))).trans
  (rowNk_word (k := 1) (md := fun m => some (m == 1)) (f := .setf) (m := (m5 all.toNat)) (x := all) (by decide) (by decide)
    (by cases all <;> decide) (by cases all <;> decide))
theorem Encoding.clrf (all : Bool) :
    Encoding.Statement (.clrf all) := fun h => (decode_y (fCls_wordD (by decide) (by decide)) (fOp_wordD (by decide) (by decide))).trans
  (rowNk_word (k := 1) (md := fun m => some (m == 1)) (f := .clrf) (m := (m5 all.toNat)) (x := all) (by decide) (by decide)
    (by cases all <;> decide) (by cases all <;> decide))
theorem Encoding.qwait (t0 t1 : Cons) :
    Encoding.Statement (.qwait t0 t1) := fun _ => (decode_y (fCls_wordD (by decide) (by decide)) (fOp_wordD (by decide) (by decide))).trans (rowD0_word (by decide) (by decide))
theorem Encoding.qstat (i : QIface) (w : QWord) (t0 t1 : Cons) :
    Encoding.Statement (.qstat i w t0 t1) := fun h => (decode_y (fCls_wordD (by decide) (by decide)) (fOp_wordD (by decide) (by decide))).trans
  (rowD_word (f := fun x => .qstat x.1 x.2) (md := fun m => do return (← QIface.dec (m.toNat / 4), ← QWord.dec (m.toNat % 4))) (m := (m5 (4 * i.enc + w.enc))) (x := (i, w)) (by decide) (by decide)
    (by cases i <;> cases w <;> rfl))
theorem Encoding.spawn (set : Bool) (t0 t1 : Cons) :
    Encoding.Statement (.spawn set t0 t1) := fun h => (decode_y (fCls_wordD (by decide) (by decide)) (fOp_wordD (by decide) (by decide))).trans
  (rowDk_word (k := 1) (md := fun m => some (m == 1)) (f := .spawn) (m := (m5 set.toNat)) (x := set) (by decide) (by decide)
    (by cases set <;> decide) (by cases set <;> decide))
theorem Encoding.join (t0 t1 : Cons) :
    Encoding.Statement (.join t0 t1) := fun _ => (decode_y (fCls_wordD (by decide) (by decide)) (fOp_wordD (by decide) (by decide))).trans (rowD0_word (by decide) (by decide))
theorem Encoding.kill (job : Bool) :
    Encoding.Statement (.kill job) := fun h => (decode_y (fCls_wordD (by decide) (by decide)) (fOp_wordD (by decide) (by decide))).trans
  (rowNk_word (k := 1) (md := fun m => some (m == 1)) (f := .kill) (m := (m5 job.toNat)) (x := job) (by decide) (by decide)
    (by cases job <;> decide) (by cases job <;> decide))
theorem Encoding.yield :
    Encoding.Statement (.yield) := fun _ => (decode_y (fCls_wordD (by decide) (by decide)) (fOp_wordD (by decide) (by decide))).trans (rowN0_word (by decide) (by decide))
theorem Encoding.trap (c : BitVec 5) :
    Encoding.Statement (.trap c) := fun _ => (decode_z (fCls_wordD (by decide) (by decide)) (fOp_wordD (by decide) (by decide))).trans (rowH_word (by decide) (by decide))
theorem Encoding.tret :
    Encoding.Statement (.tret) := fun _ => (decode_z (fCls_wordD (by decide) (by decide)) (fOp_wordD (by decide) (by decide))).trans (rowN0_word (by decide) (by decide))
theorem Encoding.csrr (r : Csr) (t0 : Cons) :
    Encoding.Statement (.csrr r t0) := fun _ => (decode_z (fCls_wordI (by decide) (by decide)) (fOp_wordI (by decide) (by decide))).trans (by
  show (do let t0 ← Cons.dec (fT0 _); return Instr.csrr (← orMod (Csr.ofNum (fImm _).toNat)) t0 : Except DecodeFault Instr) = _
  simp only [fImm_wordI (c := 7) (o := 2) (by decide) (by decide), fT0_wordI (c := 7) (o := 2) (by decide) (by decide), cons_dec_enc, csr_ofNum_num]; rfl)
theorem Encoding.csrw (r : Csr) :
    Encoding.Statement (.csrw r) := fun _ => (decode_z (fCls_wordI (by decide) (by decide)) (fOp_wordI (by decide) (by decide))).trans (by
  show (do resv (fT0 _ = 0); return Instr.csrw (← orMod (Csr.ofNum (fImm _).toNat)) : Except DecodeFault Instr) = _
  simp only [fImm_wordI (c := 7) (o := 3) (by decide) (by decide), fT0_wordI (c := 7) (o := 3) (by decide) (by decide), csr_ofNum_num]; rfl)
theorem Encoding.csrx (r : Csr) (t0 : Cons) :
    Encoding.Statement (.csrx r t0) := fun _ => (decode_z (fCls_wordI (by decide) (by decide)) (fOp_wordI (by decide) (by decide))).trans (by
  show (do let t0 ← Cons.dec (fT0 _); return Instr.csrx (← orMod (Csr.ofNum (fImm _).toNat)) t0 : Except DecodeFault Instr) = _
  simp only [fImm_wordI (c := 7) (o := 4) (by decide) (by decide), fT0_wordI (c := 7) (o := 4) (by decide) (by decide), cons_dec_enc, csr_ofNum_num]; rfl)
theorem Encoding.logm (code : BitVec 14) :
    Encoding.Statement (.logm code) := fun _ => (decode_z (fCls_wordI (by decide) (by decide)) (fOp_wordI (by decide) (by decide))).trans (by
  show (do resv (fT0 _ = 0); return Instr.logm (fImm _) : Except DecodeFault Instr) = _
  simp only [fImm_wordI (c := 7) (o := 5) (by decide) (by decide), fT0_wordI (c := 7) (o := 5) (by decide) (by decide)]; rfl)
theorem Encoding.ctxsave :
    Encoding.Statement (.ctxsave) := fun _ => (decode_z (fCls_wordD (by decide) (by decide)) (fOp_wordD (by decide) (by decide))).trans (rowN0_word (by decide) (by decide))
theorem Encoding.ctxload :
    Encoding.Statement (.ctxload) := fun _ => (decode_z (fCls_wordD (by decide) (by decide)) (fOp_wordD (by decide) (by decide))).trans (rowN0_word (by decide) (by decide))
theorem Encoding.spinv :
    Encoding.Statement (.spinv) := fun _ => (decode_z (fCls_wordD (by decide) (by decide)) (fOp_wordD (by decide) (by decide))).trans (rowN0_word (by decide) (by decide))
theorem Encoding.tlbinv :
    Encoding.Statement (.tlbinv) := fun _ => (decode_z (fCls_wordD (by decide) (by decide)) (fOp_wordD (by decide) (by decide))).trans (rowN0_word (by decide) (by decide))
theorem Encoding.keysel :
    Encoding.Statement (.keysel) := fun _ => (decode_z (fCls_wordD (by decide) (by decide)) (fOp_wordD (by decide) (by decide))).trans (rowN0_word (by decide) (by decide))
theorem Encoding.escal (c : BitVec 5) :
    Encoding.Statement (.escal c) := fun _ => (decode_z (fCls_wordD (by decide) (by decide)) (fOp_wordD (by decide) (by decide))).trans (rowH_word (by decide) (by decide))
theorem Encoding.brk :
    Encoding.Statement (.brk) := fun _ => (decode_z (fCls_wordD (by decide) (by decide)) (fOp_wordD (by decide) (by decide))).trans (rowN0_word (by decide) (by decide))
theorem Encoding.perf (k : BitVec 3) (t0 t1 : Cons) :
    Encoding.Statement (.perf k t0 t1) := fun h => (decode_z (fCls_wordD (by decide) (by decide)) (fOp_wordD (by decide) (by decide))).trans
  (rowDk_word (k := 5) (md := fun m => if m < 8 then some (BitVec.ofNat 3 m) else none) (f := .perf) (m := (m5 k.toNat)) (x := k) (by decide) (by decide)
    (by clear h; revert k; decide) (by clear h; revert k; decide))
theorem Encoding.launchTokenConsume (c : BitVec 6) :
    Encoding.Statement (.launchTokenConsume c) := fun h => nomatch h
theorem Encoding.placement (n : Nat) :
    Encoding.Statement (.placement n) := fun h => nomatch h
theorem Encoding.endOfSegment (actor : Nat) :
    Encoding.Statement (.endOfSegment actor) := fun h => nomatch h
theorem Encoding.updateTokenApply (u n : Nat) (merge : Bool) :
    Encoding.Statement (.updateTokenApply u n merge) := fun h => nomatch h
theorem Encoding.roundClose (u : Nat) :
    Encoding.Statement (.roundClose u) := fun h => nomatch h
theorem Encoding.streamElement (s : BitVec 5) :
    Encoding.Statement (.streamElement s) := fun h => nomatch h
theorem Encoding.copyRequestStart (ch : BitVec 3) :
    Encoding.Statement (.copyRequestStart ch) := fun h => nomatch h
theorem Encoding.copyCompletion (ch : BitVec 3) :
    Encoding.Statement (.copyCompletion ch) := fun h => nomatch h
theorem Encoding.copyPortPacket (p : BitVec 2) :
    Encoding.Statement (.copyPortPacket p) := fun h => nomatch h
theorem Encoding.dependenceFifoPush (q : BitVec 3) :
    Encoding.Statement (.dependenceFifoPush q) := fun h => nomatch h
theorem Encoding.commandPopTimeout (col : Bool) :
    Encoding.Statement (.commandPopTimeout col) := fun h => nomatch h
theorem Encoding.accumulatorRelease (n : Nat) :
    Encoding.Statement (.accumulatorRelease n) := fun h => nomatch h
theorem Encoding.operatorFiring (h : BitVec 5) (port : Bool) (n : Nat) :
    Encoding.Statement (.operatorFiring h port n) := fun h => nomatch h
theorem Encoding.arbiterReweight (node : BitVec 9) :
    Encoding.Statement (.arbiterReweight node) := fun h => nomatch h
theorem Encoding.actorReweight (prio : BitVec 2) :
    Encoding.Statement (.actorReweight prio) := fun h => nomatch h
theorem Encoding.hangMonitorExpiry (h : BitVec 5) :
    Encoding.Statement (.hangMonitorExpiry h) := fun h => nomatch h
theorem Encoding.messageArrival (n : Nat) :
    Encoding.Statement (.messageArrival n) := fun h => nomatch h
theorem Encoding.nackArrival (n : Nat) :
    Encoding.Statement (.nackArrival n) := fun h => nomatch h
theorem Encoding.ksendRetry (n : Nat) :
    Encoding.Statement (.ksendRetry n) := fun h => nomatch h
theorem Encoding.lostNotice (n : Nat) :
    Encoding.Statement (.lostNotice n) := fun h => nomatch h
theorem Encoding.clearingWave (slot : BitVec 4) :
    Encoding.Statement (.clearingWave slot) := fun h => nomatch h
theorem Encoding.packetForward (n : Nat) :
    Encoding.Statement (.packetForward n) := fun h => nomatch h
theorem Encoding.flitReceive (port : Nat) (payload : List Byte) (low crc : BitVec 32) (again : Bool) (pkt : Option NetMsg) :
    Encoding.Statement (.flitReceive port payload low crc again pkt) := fun h => nomatch h
theorem Encoding.retransmissionExhausted (port : Nat) :
    Encoding.Statement (.retransmissionExhausted port) := fun h => nomatch h
theorem Encoding.keepaliveSend (port : Nat) :
    Encoding.Statement (.keepaliveSend port) := fun h => nomatch h
theorem Encoding.linkDown (port : Nat) :
    Encoding.Statement (.linkDown port) := fun h => nomatch h
theorem Encoding.freezeFloodReceive (port : Nat) (id : BitVec 16) (thaw : Bool) :
    Encoding.Statement (.freezeFloodReceive port id thaw) := fun h => nomatch h
theorem Encoding.clockReevaluation (die : BitVec 2) (tj thbm : BitVec 8) (pwr : BitVec 16) :
    Encoding.Statement (.clockReevaluation die tj thbm pwr) := fun h => nomatch h
theorem Encoding.uncontainedError (owner : BitVec 2) (tile : BitVec 8) (n : BitVec 8) (code : BitVec 12) (endpt : BitVec 13) :
    Encoding.Statement (.uncontainedError owner tile n code endpt) := fun h => nomatch h
theorem Encoding.hctailWrite (c : BitVec 6) (n : BitVec 32) :
    Encoding.Statement (.hctailWrite c n) := fun h => nomatch h
theorem Encoding.hcheadWrite (c : BitVec 6) (n : BitVec 32) :
    Encoding.Statement (.hcheadWrite c n) := fun h => nomatch h
theorem Encoding.hcctlEnable (c : BitVec 6) (v : Word) :
    Encoding.Statement (.hcctlEnable c v) := fun h => nomatch h
theorem Encoding.hcctlDisable (c : BitVec 6) (v : Word) :
    Encoding.Statement (.hcctlDisable c v) := fun h => nomatch h
theorem Encoding.ingressSlotConsume (c : BitVec 6) :
    Encoding.Statement (.ingressSlotConsume c) := fun h => nomatch h
theorem Encoding.egressSlotWrite (c : BitVec 6) :
    Encoding.Statement (.egressSlotWrite c) := fun h => nomatch h
theorem Encoding.hostHdmWrite (pa : Nat) (data : List Byte) (poison : Bool) (key : BitVec 9) :
    Encoding.Statement (.hostHdmWrite pa data poison key) := fun h => nomatch h
theorem Encoding.hostHdmRead (pa : Nat) (key : BitVec 9) :
    Encoding.Statement (.hostHdmRead pa key) := fun h => nomatch h
theorem Encoding.bootGo (agree : Bool) :
    Encoding.Statement (.bootGo agree) := fun h => nomatch h
theorem Encoding.attcmdWrite (v : Word) :
    Encoding.Statement (.attcmdWrite v) := fun h => nomatch h
theorem Encoding.i3cDynamicAddress (a : BitVec 7) :
    Encoding.Statement (.i3cDynamicAddress a) := fun h => nomatch h
theorem Encoding.i3cPrivateWrite (idx : BitVec 8) (data : Option Word) :
    Encoding.Statement (.i3cPrivateWrite idx data) := fun h => nomatch h
theorem Encoding.keyLoad (slot : BitVec 9) :
    Encoding.Statement (.keyLoad slot) := fun h => nomatch h
theorem Encoding.keyClear (slot : BitVec 9) :
    Encoding.Statement (.keyClear slot) := fun h => nomatch h
theorem Encoding.partitionEnable (v : Word) :
    Encoding.Statement (.partitionEnable v) := fun h => nomatch h
theorem Encoding.partitionDisable (v : Word) :
    Encoding.Statement (.partitionDisable v) := fun h => nomatch h
theorem Encoding.freezeFloodStart (id : BitVec 16) :
    Encoding.Statement (.freezeFloodStart id) := fun h => nomatch h
theorem Encoding.thawFloodStart (id : BitVec 16) :
    Encoding.Statement (.thawFloodStart id) := fun h => nomatch h
theorem Encoding.linkRetrain (port : Nat) :
    Encoding.Statement (.linkRetrain port) := fun h => nomatch h
theorem Encoding.ctxctlHold (tile : BitVec 8) (ctx : BitVec 2) :
    Encoding.Statement (.ctxctlHold tile ctx) := fun h => nomatch h
theorem Encoding.ctxctlRelease (tile : BitVec 8) (ctx : BitVec 2) :
    Encoding.Statement (.ctxctlRelease tile ctx) := fun h => nomatch h
theorem Encoding.contextImageStore (tile : BitVec 8) (ctx : BitVec 2) (csr : Csr) (v : Word) :
    Encoding.Statement (.contextImageStore tile ctx csr v) := fun h => nomatch h
theorem Encoding.tlbisoWrite (die : BitVec 2) (slice : BitVec 4) (word : BitVec 3) (v : Word) :
    Encoding.Statement (.tlbisoWrite die slice word v) := fun h => nomatch h
theorem Encoding.logposWrite (tile : BitVec 8) (ctx : BitVec 2) (v : Word) :
    Encoding.Statement (.logposWrite tile ctx v) := fun h => nomatch h
theorem Encoding.loglimWrite (tile : BitVec 8) (ctx : BitVec 2) (v : Word) :
    Encoding.Statement (.loglimWrite tile ctx v) := fun h => nomatch h
theorem Encoding.registerWrite (off : BitVec 20) (v : Word) :
    Encoding.Statement (.registerWrite off v) := fun h => nomatch h
theorem Encoding.linkTrained (port : Nat) :
    Encoding.Statement (.linkTrained port) := fun h => nomatch h
theorem Encoding.engineCommandCompletion (col : Bool) :
    Encoding.Statement (.engineCommandCompletion col) := fun h => nomatch h
theorem Encoding.dputCeilingTimeout (q : BitVec 3) :
    Encoding.Statement (.dputCeilingTimeout q) := fun h => nomatch h
theorem Encoding.copyPortFullTimeout (p : BitVec 2) :
    Encoding.Statement (.copyPortFullTimeout p) := fun h => nomatch h
theorem Encoding.firmwareReady (module : BitVec 24) :
    Encoding.Statement (.firmwareReady module) := fun h => nomatch h
theorem Encoding.stagingWindowWrite (off : BitVec 23) (v : Word) :
    Encoding.Statement (.stagingWindowWrite off v) := fun h => nomatch h
theorem Encoding.deviceReset :
    Encoding.Statement (.deviceReset) := fun h => nomatch h
theorem Encoding.actorSelection :
    Encoding.Statement (.actorSelection) := fun h => nomatch h
theorem Encoding.blockFetch :
    Encoding.Statement (.blockFetch) := fun h => nomatch h
theorem Encoding.blockDispatch :
    Encoding.Statement (.blockDispatch) := fun h => nomatch h
theorem Encoding.blockCommit :
    Encoding.Statement (.blockCommit) := fun h => nomatch h
theorem Encoding.firingResumption :
    Encoding.Statement (.firingResumption) := fun h => nomatch h
theorem Encoding.firingOverrun :
    Encoding.Statement (.firingOverrun) := fun h => nomatch h
theorem Encoding.segmentBoundary :
    Encoding.Statement (.segmentBoundary) := fun h => nomatch h
theorem Encoding.segmentStart :
    Encoding.Statement (.segmentStart) := fun h => nomatch h
theorem Encoding.segmaxExpiry :
    Encoding.Statement (.segmaxExpiry) := fun h => nomatch h
theorem Encoding.waitEvaluation :
    Encoding.Statement (.waitEvaluation) := fun h => nomatch h
theorem Encoding.deadlineExpiry :
    Encoding.Statement (.deadlineExpiry) := fun h => nomatch h
theorem Encoding.barrierArrival :
    Encoding.Statement (.barrierArrival) := fun h => nomatch h
theorem Encoding.barrierWithdrawal :
    Encoding.Statement (.barrierWithdrawal) := fun h => nomatch h
theorem Encoding.evqRecordDelivery :
    Encoding.Statement (.evqRecordDelivery) := fun h => nomatch h
theorem Encoding.quietRequest :
    Encoding.Statement (.quietRequest) := fun h => nomatch h
theorem Encoding.waveStart :
    Encoding.Statement (.waveStart) := fun h => nomatch h
theorem Encoding.quietDecision :
    Encoding.Statement (.quietDecision) := fun h => nomatch h
theorem Encoding.boundarySwitch :
    Encoding.Statement (.boundarySwitch) := fun h => nomatch h
theorem Encoding.eventDelivery :
    Encoding.Statement (.eventDelivery) := fun h => nomatch h
theorem Encoding.reportCompletion :
    Encoding.Statement (.reportCompletion) := fun h => nomatch h
theorem Encoding.i3cPrivateRead :
    Encoding.Statement (.i3cPrivateRead) := fun h => nomatch h
theorem Encoding.restoreWaitTimeout :
    Encoding.Statement (.restoreWaitTimeout) := fun h => nomatch h

end Sys2Proof.Laws
end

