-- ==== Sys2Proof/Laws/Tables.lean ====
section
/-! SUPPORT. Tables and lists by index or key: what a change changes, and that it changes nothing else. -/

namespace Sys2Proof

variable {α β : Type} {n : Nat}

theorem getV_setV (v : Vector α n) (i j : Nat) (x d : α) :
    (setV v i x).getD j d = if j = i ∧ i < n then x else v.getD j d := by
  simp only [setV, Vector.getD]
  split <;> rename_i h <;> by_cases hij : i = j <;> simp_all [eq_comm]

theorem getV_modV (v : Vector α n) (i j : Nat) (f : α → α) (d : α) :
    (modV v i f).getD j d = if j = i ∧ i < n then f (v.getD j d) else v.getD j d := by
  simp only [modV]
  split <;> rename_i h
  · simp only [Vector.getD]
    by_cases hij : i = j
    · subst hij; simp [h]
    · simp [hij, Ne.symm hij]
  · simp [h]

/-- A change of element `i` depends on that element alone. -/
theorem modV_congr (v : Vector α n) (i : Nat) (f g : α → α) (d : α) (h : f (v.getD i d) = g (v.getD i d)) :
    modV v i f = modV v i g := by
  simp only [modV]
  split <;> rename_i hi
  · have e : v.getD i d = v[i] := by simp [Vector.getD, hi]
    rw [e] at h; rw [h]
  · rfl

theorem modV_modV (v : Vector α n) (i : Nat) (f g : α → α) : modV (modV v i f) i g = modV v i fun x => g (f x) := by
  simp only [modV]; split <;> simp

theorem modV_const (v : Vector α n) (i : Nat) (x : α) : modV v i (fun _ => x) = setV v i x := by
  simp only [modV, setV, Vector.setIfInBounds]; split <;> rename_i h
  · simp [Vector.set, Array.setIfInBounds, h]
  · simp [Array.setIfInBounds, h]

theorem modV_self (v : Vector α n) (i : Nat) (f : α → α) (d : α) (h : f (v.getD i d) = v.getD i d) : modV v i f = v := by
  rw [modV_congr v i f id d h]; simp only [modV, id]; split <;> simp

theorem getV_mapV (f : α → β) (v : Vector α n) (i : Nat) (d : β) (e : α) (h : i < n) :
    (mapV f v).getD i d = f (v.getD i e) := by
  simp [mapV, Vector.getD, h]

theorem getElem?_modAt (l : List α) (i j : Nat) (f : α → α) :
    (modAt l i f)[j]? = if j = i then l[j]?.map f else l[j]? := by
  induction l generalizing i j with
  | nil => simp [modAt]
  | cons a l ih => cases i <;> cases j <;> simp [modAt, ih]

theorem length_modAt (l : List α) (i : Nat) (f : α → α) : (modAt l i f).length = l.length := by
  induction l generalizing i with
  | nil => rfl
  | cons a l ih => cases i <;> simp [modAt, ih]

namespace Machine

theorem getKey_setKey (k j : Nat) (v : α) (l : List (Nat × α)) :
    getKey j (setKey k v l) = if j = k then some v else getKey j l := by
  induction l with
  | nil => simp [setKey, getKey]
  | cons a t ih =>
    obtain ⟨x, y⟩ := a
    by_cases h1 : k < x
    · simp [setKey, h1, getKey]
    · by_cases h2 : k = x
      · subst h2; by_cases h3 : j = k <;> simp [setKey, getKey, h3]
      · by_cases h4 : j = x
        · subst h4; simp [setKey, getKey, h1, h2, Ne.symm h2]
        · simp [setKey, getKey, h1, h2, h4, ih]

end Machine

end Sys2Proof
end

