-- ==== Sys2Proof/Tests/Slice0.lean ====
section
/-! SUPPORT. Tests of one step each, with results computed by hand from the rules cited, decoding tests from the spec's
listings, and a witness for the hypotheses of every obligation. -/

namespace Sys2Proof.Tests
set_option Elab.async false
open Sys2Proof Sys2Proof.Machine

/-! ### States of the tests -/

/-- Slot 0 issues with operands `a` and `b`; slot 1 waits for A and B. -/
def issue (a b : Token) : State :=
  (State.reset.withFetchWord 32 0).onFir fun f => { f with
    phase := .run
    blk := { slots := [{ word := 0, expA := true, a := some a, expB := true, b := some b },
                       { word := 0, expA := true, expB := true }] } }
def toA : Cons := some ⟨1, .a⟩
/-- What slot 1 has received at A after `i`. -/
def got (i : Instr) (s : State) : Option Token :=
  match exec i s with
  | .next t => (t.fir.blk.slots[1]?).bind (·.a)
  | _ => none
def runs (i : Instr) (a b : Word) : Option Token := got i (issue ⟨a, false⟩ ⟨b, false⟩)
/-- The faults of the block after `i`: cause, detail, INFO0. -/
def faultsOf (i : Instr) (s : State) : List (BitVec 8 × BitVec 12 × Word) :=
  match exec i s with
  | .next t => t.fir.blk.faults.map fun f => (f.cause, f.detail, f.info0)
  | _ => []
/-- Pipe 0 with V1 and V2 holding `x` and `y` in lanes 0 and 1, LEN 3. -/
def vreg (l : List Half) : VReg := ⟨Vector.ofFn fun i : Fin 32 => l.getD i.val 0, 0⟩
def lanes (x y : List Half) : State :=
  (issue {} {}).setPipe 0 (({ Pipe.reset with len := 3 }.setReg 1 (vreg x)).setReg 2 (vreg y))
/-- Lanes 0 to `n - 1` of register `v` of pipe 0 after `i`. -/
def lanesOf (n : Nat) (v : BitVec 5) (i : Instr) (s : State) : List Half :=
  match exec i s with
  | .next t => (List.range n).map (t.lane 0 v)
  | _ => []


/-! ### Class S (08 R168 to R180) -/

theorem test_add : runs (.add .w32 toA none) 0xFFFFFFFF 0x80000000 = some ⟨0x7FFFFFFF, false⟩ := by decide
theorem test_add_poison : got (.add .w64 toA none) (issue ⟨5, true⟩ ⟨7, false⟩) = some ⟨12, true⟩ := by decide
theorem test_sub : runs (.sub .w32 toA none) 0 1 = some ⟨0xFFFFFFFFFFFFFFFF, false⟩ := by decide
theorem test_addi : runs (.addi (-2) toA) 1 0 = some ⟨0xFFFFFFFFFFFFFFFF, false⟩ := by decide
theorem test_mul : runs (.mul .w64 toA none) 0x100000001 0x100000001 = some ⟨0x200000001, false⟩ := by decide
theorem test_mulh : runs (.mulh .w64 toA none) (-1) 2 = some ⟨-1, false⟩ := by decide
theorem test_mulhn : runs (.mulhn .w32 toA none) 0xFFFFFFFF 0xFFFFFFFF = some ⟨0xFFFFFFFE, false⟩ := by decide
theorem test_div : runs (.div .w64 toA none) 7 (-2) = some ⟨-3, false⟩ := by decide
theorem test_div_w : runs (.div .w32 toA none) 0x180000000 0xFFFFFFFF = some ⟨0xFFFFFFFF80000000, false⟩ := by decide
theorem test_divn : runs (.divn .w32 toA none) 5 0 = some ⟨0x00000000FFFFFFFF, false⟩ := by decide
theorem test_rem : runs (.rem .w64 toA none) (-7) 2 = some ⟨-1, false⟩ := by decide
theorem test_rem_zero : runs (.rem .w64 toA none) 5 0 = some ⟨5, false⟩ := by decide
theorem test_remn : runs (.remn .w64 toA none) (-1) 10 = some ⟨5, false⟩ := by decide
theorem test_and : runs (.and toA none) 12 10 = some ⟨8, false⟩ := by decide
theorem test_or : runs (.or toA none) 12 10 = some ⟨14, false⟩ := by decide
theorem test_xor : runs (.xor toA none) 12 10 = some ⟨6, false⟩ := by decide
theorem test_andn : runs (.andn toA none) 12 10 = some ⟨4, false⟩ := by decide
theorem test_shl : runs (.shl .w32 toA none) 1 63 = some ⟨0xFFFFFFFF80000000, false⟩ := by decide
theorem test_shr : runs (.shr .w32 toA none) 0xFFFFFFFF80000000 4 = some ⟨0x08000000, false⟩ := by decide
theorem test_sar : runs (.sar .w64 toA none) 0x8000000000000000 68 = some ⟨0xF800000000000000, false⟩ := by decide
theorem test_min : runs (.min .w64 toA none) (-1) 1 = some ⟨-1, false⟩ := by decide
theorem test_max : runs (.max .w64 toA none) (-1) 1 = some ⟨1, false⟩ := by decide
theorem test_minn : runs (.minn .w64 toA none) (-1) 1 = some ⟨1, false⟩ := by decide
theorem test_maxn : runs (.maxn .w32 toA none) 0xFFFFFFFF 1 = some ⟨0xFFFFFFFF, false⟩ := by decide
theorem test_clz : runs (.clz .w32 toA none) 0x1FFFFFFFF 0 = some ⟨0, false⟩ := by decide
theorem test_clz_zero : runs (.clz .w64 toA none) 0 0 = some ⟨64, false⟩ := by decide
theorem test_popc : runs (.popc .w64 toA none) 0xF00000000000000F 0 = some ⟨8, false⟩ := by decide
theorem test_sext : runs (.sext .b8 toA none) 0x180 0 = some ⟨0xFFFFFFFFFFFFFF80, false⟩ := by decide
theorem test_zext : runs (.zext .b16 toA none) 0x18765 0 = some ⟨0x8765, false⟩ := by decide
theorem test_ceq : runs (.ceq .w32 toA none) 0x100000003 3 = some ⟨1, false⟩ := by decide
theorem test_cne : runs (.cne .w64 toA none) 0x100000003 3 = some ⟨1, false⟩ := by decide
theorem test_clt : runs (.clt .w64 toA none) (-1) 0 = some ⟨1, false⟩ := by decide
theorem test_cltn : runs (.cltn .w64 toA none) (-1) 0 = some ⟨0, false⟩ := by decide
theorem test_cle : runs (.cle .w64 toA none) 3 3 = some ⟨1, false⟩ := by decide
theorem test_clen : runs (.clen .w32 toA none) 0xFFFFFFFF 0x10000000 = some ⟨0, false⟩ := by decide
theorem test_sel : got (.sel 3 toA none) ((issue ⟨1, false⟩ ⟨2, false⟩).onFir fun f => { f with flags := 8 }) = some ⟨1, false⟩ := by decide
theorem test_sel_zero : runs (.sel 3 toA none) 1 2 = some ⟨2, false⟩ := by decide
theorem test_movi : runs (.movi 0x2000 toA) 0 0 = some ⟨0xFFFFFFFFFFFFE000, false⟩ := by decide
/-- Slot 1 is the literal; slot 2 takes the token. -/
def literal (w : Half) : State := (issue {} {}).onBlk fun b => { b with
  slots := [{ word := 0 }, { word := w, st := .lit }, { word := w + 1, st := .lit }, { word := 0, expA := true }] }
def got3 (i : Instr) (s : State) : Option Token :=
  match exec i s with | .next t => (t.fir.blk.slots[3]?).bind (·.a) | _ => none
theorem test_constw : got3 (.constw true (some ⟨3, .a⟩) none) (literal 0x80000000) = some ⟨0xFFFFFFFF80000000, false⟩ := by decide
theorem test_constd : got3 (.constd (some ⟨3, .a⟩) none) (literal 7) = some ⟨0x0000000800000007, false⟩ := by decide
theorem test_read : got (.read (.g 5) toA) ((issue {} {}).onFir fun f => { f with regs := setV f.regs 5 9, gpois := 32 }) = some ⟨9, true⟩ := by decide
theorem test_read_g0 : got (.read (.g 0) toA) (issue {} {}) = some ⟨0, false⟩ := by decide
theorem test_write : (match exec (.write (.flag 3)) (issue ⟨1, false⟩ {}) with | .next t => t.fir.blk.fw | _ => [])
    = [(0, .bit 3 true)] := by decide
theorem test_write_poison : faultsOf (.write .f) (issue ⟨1, true⟩ {}) = [(4, 0, 6)] := by decide
theorem test_fan : got (.fan none toA) (issue ⟨4, true⟩ {}) = some ⟨4, true⟩ := by decide
theorem test_null : (match exec (.null toA none) (issue {} {}) with | .next t => t.fir.blk.slots.map (·.st) | _ => [])
    = [.done, .nul] := by decide
theorem test_lea : runs (.lea 7 toA none) 1 3 = some ⟨385, false⟩ := by decide
def exitsOf (i : Instr) (s : State) : List (Nat × Exit) := match exec i s with | .next t => t.fir.blk.exits | _ => []
theorem test_br : exitsOf .br (issue ⟨0x1000, false⟩ {}) = [(0, .to 0x1000)] := by decide
theorem test_br_align : faultsOf .br (issue ⟨0x1002, false⟩ {}) = [(3, 0x0C5, 0x1002)] := by decide
theorem test_bri : exitsOf (.bri (-1)) ((issue {} {}).onBlk fun b => { b with addr := 0x100 }) = [(0, .to 0xFC)] := by decide
/-- The block has two slots: the next header stands 12 bytes after its own. -/
theorem test_call : got (.call 0 toA) ((issue {} {}).onBlk fun b => { b with addr := 0x100 }) = some ⟨0x10C, false⟩ := by decide
theorem test_ret : faultsOf .ret (issue ⟨0, true⟩ {}) = [(4, 0, 1)] := by decide
theorem test_retire : exitsOf .retire (issue {} {}) = [(0, .retire)] := by decide
theorem test_ill_word : decode 0x00000001 = .error .opcode := by decide

/-! ### Class V (09 R185 to R202) -/

theorem test_vadd : lanesOf 3 3 (.vadd .i32 3 1 2 0) (lanes [0xFFFFFFFF, 2, 5] [2, 3, 7]) = [1, 5, 0] := by decide
theorem test_vadd_fp : lanesOf 2 3 (.vadd .fp32 3 1 2 0) (lanes [0x3F800000, 0x7F800000] [0x40000000, 0xFF800000])
    = [0x40400000, 0x7FC00000] := by decide
theorem test_vsub : lanesOf 2 3 (.vsub .n32 3 1 2 0) (lanes [0, 5] [1, 3]) = [0xFFFFFFFF, 2] := by decide
theorem test_vmul : lanesOf 2 3 (.vmul .fp32 3 1 2 0) (lanes [0x40000000, 0] [0x40400000, 0x7F800000])
    = [0x40C00000, 0x7FC00000] := by decide
theorem test_vfma : lanesOf 2 2 (.vfma .i32 2 1 2 0) (lanes [3, 4] [5, 6]) = [20, 30] := by decide
theorem test_vmin : lanesOf 2 3 (.vmin .i32 3 1 2 0) (lanes [0xFFFFFFFF, 4] [1, 6]) = [0xFFFFFFFF, 4] := by decide
theorem test_vmax : lanesOf 2 3 (.vmax .fp32 3 1 2 0) (lanes [0x80000000, 0x7FC00001] [0, 0x3F800000])
    = [0, 0x7FC00000] := by decide
theorem test_vabs : lanesOf 2 3 (.vabs .i32 3 1 0) (lanes [0x80000000, 0xFFFFFFFE] []) = [0x80000000, 2] := by decide
theorem test_vneg : lanesOf 2 3 (.vneg .fp32 3 1 0) (lanes [0x3F800000, 0xFFC00000] []) = [0xBF800000, 0x7FC00000] := by decide
theorem test_vand : lanesOf 1 3 (.vand 3 1 2 0) (lanes [12] [10]) = [8] := by decide
theorem test_vor : lanesOf 1 3 (.vor 3 1 2 0) (lanes [12] [10]) = [14] := by decide
theorem test_vxor : lanesOf 1 3 (.vxor 3 1 2 0) (lanes [12] [10]) = [6] := by decide
theorem test_vshl : lanesOf 2 3 (.vshl (.reg 2) 3 1 0) (lanes [1, 1] [33, 31]) = [2, 0x80000000] := by decide
theorem test_vshr : lanesOf 1 3 (.vshr (.imm 31) 3 1 0) (lanes [0x80000000] []) = [1] := by decide
theorem test_vsar : lanesOf 1 3 (.vsar (.imm 31) 3 1 0) (lanes [0x80000000] []) = [0xFFFFFFFF] := by decide
theorem test_vcmp : lanesOf 2 3 (.vcmp .fp32 .eq 3 1 2 0) (lanes [0x80000000, 0x7FC00000] [0, 0x7FC00000])
    = [0xFFFFFFFF, 0] := by decide
theorem test_vcmp_un : lanesOf 2 3 (.vcmp .fp32 .un 3 1 2 0) (lanes [0x80000000, 0x7FC00000] [0, 0]) = [0, 0xFFFFFFFF] := by decide
theorem test_vsel : lanesOf 2 3 (.vsel 3 1 2 0) ((lanes [7, 7] [9, 9]).setPipe 0
    (((lanes [7, 7] [9, 9]).pipe 0).setReg 3 (vreg [1, 2]))) = [7, 9] := by decide
theorem test_vcvt : lanesOf 2 3 (.vcvt .i32Fp32 .rne 3 1 0) (lanes [0x3FC00000, 0xC0200000] []) = [2, 0xFFFFFFFE] := by decide
theorem test_vrcp : lanesOf 2 3 (.vrcp 3 1 0) (lanes [0, 0x7F800000] []) = [0x7F800000, 0] := by decide
theorem test_vrsq : lanesOf 1 3 (.vrsq 3 1 0) (lanes [0xBF800000] []) = [0x7FC00000] := by decide
theorem test_vperm : lanesOf 2 3 (.vperm (.index 2) 3 1 0) (lanes [4, 5] [1, 32]) = [5, 0] := by decide
theorem test_vperm_rot : lanesOf 2 3 (.vperm (.rot 1) 3 1 0) (lanes [4, 5] []) = [5, 0] := by decide
theorem test_vbfly : lanesOf 2 3 (.vbfly .iadd 0 3 1 0) (lanes [4, 5] []) = [9, 9] := by decide
theorem test_vred : lanesOf 3 3 (.vred .iadd 3 1 0) (lanes [4, 5, 6] []) = [9, 9, 0] := by decide
theorem test_vscan : lanesOf 2 3 (.vscan .iadd true 3 1 0) (lanes [4, 5] []) = [0, 4] := by decide
theorem test_vsplat : lanesOf 3 3 (.vsplat (.lane 1 1) 3 0) (lanes [4, 5] []) = [5, 5, 0] := by decide
theorem test_vmovs : got (.vmovs (.lane true 1 1) 0 toA) (lanes [4, 0x80000000] []) = some ⟨0xFFFFFFFF80000000, false⟩ := by decide
theorem test_vins : lanesOf 6 1 (.vins 1 5 0 none) ((lanes [] []).onBlk fun b => { b with
    slots := [{ word := 0, expA := true, a := some ⟨7, false⟩ }] }) = [0, 0, 0, 0, 0, 7] := by decide
theorem test_vlane : (match exec (.vlane (.v 1) 0) (lanes [1, 2, 3] []) with | .next t => (t.pipe 0).len | _ => 0) = 5 := by decide
theorem test_vmov : lanesOf 3 3 (.vmov 3 1 0) (lanes [4, 5, 6] []) = [4, 5, 0] := by decide
theorem test_vsmxa : lanesOf 4 3 (.vsmxa true 3 1 0) (lanes [0x3F800000, 0x3F800000] [])
    = [0x3F800000, 0x40000000, 0, 0] := by decide
theorem test_vstat : lanesOf 3 3 (.vstat .p1s 3 1 0) (lanes [0x3F800000, 0x40000000] []) = [0, 0x02000080, 2] := by decide
theorem test_vqnt : lanesOf 2 3 (.vqnt .qsi8 true 3 1 0) (lanes [0x7F800000, 0] []) = [0xFF000, 0] := by decide
theorem test_vdqnt : lanesOf 2 3 (.vdqnt .qsi8 3 1 2 0) (lanes [0x0000FE03] [0x7F000]) = [0x40400000, 0xC0000000] := by decide
theorem test_sett_miss : faultsOf (.sett 5 3 1 2 0) (lanes [] []) = [(10, 0, 5)] := by decide


/-! ### Class M (10 R205 to R220) -/

/-- A command with its operands. -/
def eff (i : Instr) (a b : Word) : Eff := { slot := 0, ins := i, a := ⟨a, false⟩, b := ⟨b, false⟩ }
def base : State := issue {} {}
/-- The matrix engine applies a command at the head of its queue. -/
def matrix (e : Eff) (s : State) : State := { s with who := .cmd e, ctx := { s.ctx with mq := [e] } }
/-- The state after a row, itself when it stops. -/
def after (i : Instr) (s : State) : State := match exec i s with | .next t => t | _ => s
/-- Status words of the done matrix commands. -/
def mDone (i : Instr) (s : State) : List Word := (after i s).ctx.mdone.map (·.2.1)
def held (i : Instr) (s : State) : List (Instr × Word × Word) := (after i s).fir.blk.effs.map fun e => (e.ins, e.a.val, e.b.val)
/-- Two by two elements at row 8 and column 16, for I8, owned by the context. -/
def reg2 : Region :=
  { owner := 0, row := 8, col := 16, h := 2, w := 2, afmt := some 4, wfmt := some 4
    active := [⟨0x0201, 0, false⟩, ⟨0x0003, 0, false⟩, ⟨0xFFFF, 0, false⟩, ⟨0, 0, false⟩], loading := List.replicate 4 {} }
def withReg (x : Region) (s : State) : State := s.onTile fun t => { t with regions := setV t.regions 3 (some x) }
def acc (node entry : Nat) (v : Half) : AccEnt :=
  { node := node, entry := entry, owner := 0, region := 3, val := v, count := 1, int := true }
def withAcc (l : List AccEnt) (s : State) : State := s.onTile fun t => { t with acc := l }
def withStream (n : Nat) (t : Machine.Stream) (s : State) : State :=
  s.onCtx fun c => { c with streams := setV c.streams n t }
/-- A live one-dimensional stream of `n` elements of 2 to the power `esz` bytes in the window. -/
def str (write : Bool) (esz n : Nat) (buf : List Elem) : Machine.Stream :=
  { st := .run, buf := buf, k := buf.length
    desc := [0, BitVec.ofNat 64 (2 ^ 8 + esz * 16 + (if write then 8 else 0)), BitVec.ofNat 64 (2 ^ 48 + 2 ^ 32 + 2 ^ 16 + n),
             BitVec.ofNat 64 (2 ^ esz), 0, 0, 0, 0] }

theorem test_mregion_range : faultsOf (.mregion 3) (issue ⟨0x0204 + 94 * 65536 + 94 * 2 ^ 24, false⟩ {})
    = [(6, 0x030, 0x0204 + 94 * 65536 + 94 * 2 ^ 24)] := by decide
theorem test_mregion : ((after (.mregion 3) (matrix (eff (.mregion 3) 0x05040302 0) base)).tile.region 3).map
    (fun x => [x.row, x.col, x.h, x.w, x.npass, x.first, x.nent, x.active.length]) = some [2, 3, 4, 5, 1, 0, 64, 20] := by decide
theorem test_mregion_used : mDone (.mregion 3) (matrix (eff (.mregion 3) 0x05040302 0) (withReg reg2 base)) = [0x345] := by decide
theorem test_mfmt_pair : faultsOf (.mfmt 3) (issue ⟨0x42, false⟩ {}) = [(6, 0x031, 0x42)] := by decide
theorem test_mfmt : ((after (.mfmt 3) (matrix (eff (.mfmt 3) 0x65 0) (withReg reg2 base))).tile.region 3).map
    (fun x => (x.afmt, x.wfmt)) = some (some 5, some 6) := by decide
theorem test_mwld_starts : (after (.mwld 3) (matrix (eff (.mwld 3) 7 0) (withStream 7 (str false 2 4 []) (withReg reg2 base)))).ctx.mq.map
    (·.started) = [true] := by decide
/-- Element 1 of the loading bank takes the next word. -/
theorem test_mwld_word : ((after (.mwld 3) (matrix { eff (.mwld 3) 7 0 with started := true, ws := [1] }
    (withStream 7 (str false 2 4 [{ val := 0x55 }]) (withReg reg2 base)))).tile.region 3).map
    (fun x => (x.loading.map (·.w), x.active.map (·.w))) = some ([0, 0x55, 0, 0], [0x0201, 0x0003, 0xFFFF, 0]) := by decide
theorem test_mswap : ((after (.mswap 3) (matrix (eff (.mswap 3) 0 0) (withReg reg2 base))).tile.region 3).map
    (fun x => x.loading.map (·.w)) = some [0x0201, 0x0003, 0xFFFF, 0] := by decide
theorem test_mswap_noregion : mDone (.mswap 2) (matrix (eff (.mswap 2) 0 0) (withReg reg2 base)) = [0x335] := by decide
/-- One row of activations (1, 2) and (−1, 3): 1·1 + 2·2 + (−1)(−1) + 3(−1) = 3 and 3·1 = 3. -/
theorem test_mstep_row : (after (.mstep 3) (matrix { eff (.mstep 3) (7 + 2 ^ 16) 0 with started := true, ws := [0, 0] }
    (withStream 7 (str false 3 1 [{ val := 0x03FF0201 }]) (withReg reg2 base)))).tile.acc.map
    (fun a => (a.node, a.entry, a.val)) = [(16, 0, 3), (17, 0, 3)] := by decide
theorem test_mstep_nofmt : mDone (.mstep 3) (matrix (eff (.mstep 3) (7 + 2 ^ 16) 0)
    (withStream 7 (str false 3 1 []) (withReg { reg2 with afmt := none } base))) = [0x365] := by decide
theorem test_macc : ((after (.macc 3) (matrix (eff (.macc 3) 0x00080205 0) (withReg reg2 base))).tile.region 3).map
    (fun x => [x.npass, x.first, x.nent]) = some [5, 2, 8] := by decide
theorem test_macc_stream : mDone (.macc 3) (matrix (eff (.macc 3) 0x03080205 0) (withReg reg2 base)) = [0x325] := by decide
theorem test_mdrain : let t := after (.mdrain 3) (matrix (eff (.mdrain 3) 0x00020000 0)
      (withAcc [acc 17 1 5, acc 16 1 4, acc 16 2 9] (withReg reg2 base)))
    t.ctx.releases.map (fun q => (q.node, q.tok.val)) = [(16, 4), (17, 5)] ∧ t.tile.acc.map (·.val) = [9]
      ∧ t.ctx.mdone.map (·.2.1) = [0x20000] := by decide
theorem test_mdrain_empty : mDone (.mdrain 3) (matrix (eff (.mdrain 3) 0x00020000 0) (withReg reg2 base)) = [11] := by decide
theorem test_mzero : (after (.mzero 3) (matrix (eff (.mzero 3) 0x00020100 0)
    (withAcc [acc 16 0 5, acc 16 1 4, acc 17 2 9] (withReg reg2 base)))).tile.acc.map (·.val) = [5] := by decide
theorem test_mfree : let t := after (.mfree 3) (matrix (eff (.mfree 3) 0 0) (withAcc [acc 16 0 5] (withReg reg2 base)))
    (t.tile.region 3, t.tile.acc, t.ctx.mdone.map (·.2.1)) = (none, [], [0x10000]) := by decide
theorem test_mstat : got (.mstat 3 toA none) (withReg reg2 base) = some ⟨0xC880200002021008, false⟩ := by decide
theorem test_mstat_free : got (.mstat 2 toA none) (withReg reg2 base) = some ⟨0, false⟩ := by decide
/-- A command that waits for Q2 times out after DCEIL of 16 cycles. -/
theorem test_pop_timeout : let e := { eff (.mswap 3) 0 0x0500000000000000 with since := some 4 }
    (mDone (.commandPopTimeout false) ((matrix e base).onCsr fun c => { c with budget := 20 }),
     mDone (.commandPopTimeout false) ((matrix e base).onCsr fun c => { c with budget := 19 })) = ([1], []) := by decide
/-- REC, PUSH to Q3 and TAG 5: the push goes with the record. -/
theorem test_completion : let t := after (.engineCommandCompletion false) (base.onCtx fun c => { c with
      mdone := [(eff (.mfree 1) 0 0xD805000000000000, 0x20000, false)] })
    t.ctx.sync.evqHeld.map (fun r => (r.status, r.push)) = [(0x20000, some 3)] ∧ t.ctx.sync.pushes = [] ∧ t.ctx.mdone = [] := by decide


/-! ### Class C and the collar (10 R221 to R227, 14) -/

/-- Words stored at an address of HBM. -/
def wordsAt (k : Nat) (ws : List Word) (s : State) : State :=
  { s with mem := (ws.zipIdx).foldl (fun m w => m.setRaw (k + 8 * w.2) w.1.toNat 8) s.mem }
/-- Space 0 translates the 2 MiB page of 0x200000 to itself; key slot 0 holds a key. -/
def mapped (s : State) : State :=
  (wordsAt 0 [1] s).onDev fun d => { d with
    keys := [(0, 5)]
    tlb := [⟨BitVec.ofNat 6 (sliceOf 0 0x200000), none, 0, 0, 3, 1, 0x20001F, false, 0, 0⟩] }
/-- The collar engine applies a command at the head of its queue. -/
def collar (e : Eff) (s : State) : State := { s with who := .cmd e, ctx := { s.ctx with cq := [e] } }
def cDone (i : Instr) (s : State) : List Word := (after i s).ctx.cdone.map (·.2.1)
/-- One slab, one operator ADD of integers with K 5, from SPAD port 0 of stream 7 to SPAD port 1 of stream 8. -/
def image : List Word :=
  [0x0000200200110001, 0, 0, 0, 0, 0, 0, 0, 0x0000000500102000, 0, 0x10001000, 0, 0x12002000, 0, 0x7000, 0x8010]
/-- The same operator as a sett with one source, latency 4. -/
def settImage : List Word :=
  [0x0000200200110101, 0x84, 0, 0, 0, 0, 0, 0, 0x0000000500102000, 0, 0x10001000, 0, 0x12002000, 0, 0x6, 0x18]
def cfgA : CollarCfg := newCfg (parseImage image) 0x200000 0 0
def withCfg (h : Nat) (g : CollarCfg) (s : State) : State :=
  s.onCtx fun c => { c with handles := setV c.handles h (some g) }
def cfgIn (h : Nat) (i : Instr) (s : State) : Option CollarCfg := (after i s).ctx.handles.getD h none

theorem test_cload : let t := after (.cload 2) (collar (eff (.cload 2) 0x200000 0) (wordsAt 0x200000 image (mapped base)))
    (t.ctx.cdone.map (·.2.1), (t.ctx.handles.getD 2 none).map (·.img)) = ([0x10000], some (parseImage image)) := by decide +kernel
theorem test_cload_used : cDone (.cload 2) (collar (eff (.cload 2) 0x200000 0) (withCfg 2 cfgA base)) = [0x3B5] := by decide
theorem test_cfire : (cfgIn 2 (.cfire 2) (collar (eff (.cfire 2) 0 0) (withCfg 2 cfgA base))).map (·.fired) = some true := by decide
theorem test_cfire_none : cDone (.cfire 3) (collar (eff (.cfire 3) 0 0) (withCfg 2 cfgA base)) = [0x3A5] := by decide
/-- The operator takes slot 1 of its unit with K 9. -/
theorem test_cpatch : (cfgIn 2 (.cpatch 2) (collar (eff (.cpatch 2) 0x200000 0)
    (wordsAt 0x200000 [1, 0x0000000900102000, 0] (mapped (withCfg 2 cfgA base))))).map
      (fun g => (g.img.nodes.map (·.k), g.nodes.map (·.slot))) = some ([9], [1]) := by decide
/-- MASK 63 and VALUE 0: the context's own tile. -/
theorem test_cmcast : let t := after (.cmcast 2) (collar (eff (.cmcast 2) 0x200000 0x3F00) (wordsAt 0x200000 image
      ((mapped base).onCtx fun c => { c with id := { c.id with launch := 1 } })))
    (t.ctx.cdone.map (·.2.1), (t.ctx.handles.getD 2 none).isSome) = ([0x10000], true) := by decide +kernel
theorem test_cevict : (cfgIn 2 (.cevict 2) (collar (eff (.cevict 2) 0 0) (withCfg 2 cfgA base))) = none := by decide
theorem test_cevict_fired : (cfgIn 2 (.cevict 2) (collar (eff (.cevict 2) 0 0) (withCfg 2 { cfgA with fired := true } base))).map
    (·.evict) = some true := by decide
theorem test_cweight : (cfgIn 2 (.cweight 2) (collar (eff (.cweight 2) 0x1B000 0) (withCfg 2 cfgA base))).map
    (fun g => g.nodes.map fun n => (n.level, n.pin)) = some [(11, true)] := by decide
theorem test_cweight_none : cDone (.cweight 2) (collar (eff (.cweight 2) 0x1B001 0) (withCfg 2 cfgA base)) = [0x3C5] := by decide
theorem test_chang : (cfgIn 2 (.chang 2) (collar (eff (.chang 2) 0x400 0) (withCfg 2 cfgA base))).map (·.hang)
    = some (some (65536, 0x400)) := by decide
theorem test_cfreeze : (cfgIn 2 (.cfreeze 2) (collar (eff (.cfreeze 2) 0 0) (withCfg 2 cfgA base))).map (·.frozen) = some true := by
  decide
theorem test_cthaw : (cfgIn 2 (.cthaw 2) (collar (eff (.cthaw 2) 0 0) (withCfg 2 { cfgA with frozen := true } base))).map (·.frozen)
    = some false := by decide
theorem test_cthaw_faulted : cDone (.cthaw 2) (collar (eff (.cthaw 2) 0 0) (withCfg 2 { cfgA with fault := some (0, 0x0B0) } base))
    = [0x415] := by decide
theorem test_cstat : got (.cstat 2 toA none) (withCfg 2 { cfgA with fired := true, side := 1, first := 13 } base)
    = some ⟨0xC268800000000000, false⟩ := by decide
theorem test_sbind : let t := after (.sbind 3) (collar (eff (.sbind 3) 0x200000 1) (wordsAt 0x200000 settImage (mapped base)))
    (t.ctx.cdone.map (·.2.1), (t.ctx.setts.getD 19 {}).bound, (t.ctx.setts.getD 19 {}).first) = ([0xC0000], true, 12) := by decide +kernel
theorem test_sbind_latency : cDone (.sbind 3) (collar (eff (.sbind 3) 0x200000 1)
    (wordsAt 0x200000 (settImage.set 1 0x85) (mapped base))) = [0x405] := by decide +kernel
def bound : Binding := { bound := true, resident := true, addr := 0x200000, img := parseImage settImage, first := 12 }
def withSett (s : State) : State := s.onCtx fun c => { c with setts := setV c.setts 3 bound }
theorem test_sfree : let t := after (.sfree 3) (collar (eff (.sfree 3) 0 0) (withSett base))
    (t.ctx.cdone.map (·.2.1), t.ctx.setts.getD 3 {}) = ([0], {}) := by decide
theorem test_sfree_empty : cDone (.sfree 3) (collar (eff (.sfree 3) 0 0) base) = [11] := by decide
theorem test_squery : got (.squery true 3 toA none) (withSett base) = some ⟨0x200000, false⟩ := by decide
theorem test_squery_state : got (.squery false 3 toA none) (withSett base) = some ⟨0xD041800000000000, false⟩ := by decide
/-- Every active lane plus 5. -/
theorem test_sett : lanesOf 3 4 (.sett 3 4 1 2 0) ((withSett (lanes [7, 0xFFFFFFFF, 1] [])).onBlk fun b => { b with
    slots := [{ word := 0 }] }) = [12, 4, 0] := by decide
theorem test_sett_operand : faultsOf (.sett 3 4 1 2 0) (withSett base) = [(9, 0, 3)] := by decide
/-- The operator takes the 3 of its feed and sends 3 + 5. -/
theorem test_operator : (cfgIn 2 (.operatorFiring 2 false 0) (withCfg 2 { cfgA with fired := true, chans := [[{ val := 3 }], []] } base)).map
    (·.chans) = some [[], [{ val := 8 }]] := by decide
/-- The SPAD port takes the oldest element of stream 7. -/
theorem test_port : (cfgIn 2 (.operatorFiring 2 true 0) (withStream 7 (str false 2 4 [{ val := 9 }])
    (withCfg 2 { cfgA with fired := true } base))).map (·.chans) = some [[{ val := 9 }], []] := by decide
theorem test_hang : (cfgIn 2 (.hangMonitorExpiry 2) ((withCfg 2 { cfgA with
      fired := true, hang := some (16, 0x400), idleAt := 4, chans := [[{ val := 3 }], []] } base).onCsr fun c => { c with budget := 20 })).map
    (fun g => (g.frozen, g.hung)) = some (true, true) := by decide
theorem test_release : (after (.accumulatorRelease 0) ((withStream 9 (str true 2 4 []) base).onCtx fun c => { c with
      releases := [{ region := 3, node := 16, entry := 0, tok := { val := 77 }, stream := some 9 }] })).ctx.streams.toList.map
    (fun t => t.buf.map (·.val)) = (List.replicate 32 []).set 9 [77] := by decide
theorem test_reweight : (cfgIn 2 (.arbiterReweight 0) ((withCfg 2 { cfgA with
      fired := true, nodes := [{ held := 96 }] } base).onTile fun t => { t with units := [(0, some 0, 256)] })).map
    (fun g => g.nodes.map fun n => (n.level, n.held)) = some [(3, 0)] := by decide


/-! ### Witnesses: the hypotheses of the obligations are met -/

def isNext (o : Out) : Bool := match o with | .next _ => true | _ => false

theorem witness_EncodedInstructionsDecodeBack :
    (Instr.vbfly .x 4 31 31 3).wf = true ∧ (Instr.addi (-8192) (some ⟨63, .o⟩)).wf = true ∧ Instr.tlbinv.wf = true := by decide
theorem witness_DecodedWordsEncodeBack : decode 0xE4800000 = .ok .tlbinv
    ∧ [(0x00000001 : Half), 0x17000000, 0x31800000, 0x37FFFFFF, 0x45000000, 0x66800000, 0x8B000000, 0xAF800000, 0xB6800000,
        0xC9000000, 0xE7000000, 0xFFFFFFFF].all (fun w => decode w == .error .opcode) = true := by decide
/-- The state of `withFetchWord` with RETIRE. -/
def placed : State := State.reset.withFetchWord 32 (encode .retire).toNat
theorem witness_StepRunsTheDecodedSlot : placed.agenda = [] ∧ placed.turn = false ∧ placed.ctx.id.present = true
    ∧ placed.dev.halted (tDie placed.ctx.id.tile) = false ∧ placed.ctx.stopped = false ∧ placed.tablesOn = false
    ∧ placed.firOrder.head? = some placed.fir.id ∧ placed.fir.phase = .run ∧ (placed.fir.blk.slots[0]?).isSome = true
    ∧ (placed.fir.blk.slots.getD 0 { word := 0 }).st = .wait
    ∧ decode (placed.fir.blk.slots.getD 0 { word := 0 }).word = .ok .retire
    ∧ placed.fir.blk.mayFire 0 (placed.fir.blk.slots.getD 0 { word := 0 }) = true ∧ placed.mayIssue .retire = true
    ∧ isNext (exec .retire placed) = true := by decide +kernel
theorem witness_IssueChangesNoMemoryRegisterOrFlag : decode 0xE4800000 = .ok .tlbinv ∧ base.who = .core ∧ base.dev.upsets = []
    ∧ isNext (exec .tlbinv base) = true := by decide
theorem witness_StepKeepsTheMemoryForm : placed.mem.wf = true ∧ isNext (step placed) = true := by decide +kernel

theorem witness_DivisionNeverTraps :
    let op (a b : Word) : Word × Word := ((issue ⟨a, false⟩ ⟨b, false⟩).a, (issue ⟨a, false⟩ ⟨b, false⟩).b)
    (op 7 0).2 = 0 ∧ op (BitVec.intMin 64) (BitVec.allOnes 64) = (BitVec.intMin 64, BitVec.allOnes 64)
      ∧ (op 7 2).2 ≠ 0 ∧ ¬((op 7 2).1 = BitVec.intMin 64 ∧ (op 7 2).2 = BitVec.allOnes 64)
      ∧ (issue ⟨BitVec.intMin 64 >>> 32, false⟩ ⟨0xFFFFFFFF, false⟩).aw = BitVec.intMin 32
      ∧ (issue ⟨0, false⟩ ⟨0xFFFFFFFF, false⟩).bw = BitVec.allOnes 32 := by decide
theorem witness_OneOperandResults : ((literal 7).fir.blk.slots[1]?).isSome = true ∧ ((literal 7).fir.blk.slots[2]?).isSome = true := by
  decide
theorem witness_SelectReadsTheFlagOfTheFiring : isNext (exec (.write .f) base) = true ∧ isNext (exec (.write (.flag 31)) base) = true
    ∧ (base.onFir fun f => { f with flags := 0x80000000 }).fir.flags.getLsbD 31 = true := by decide
/-- Targets at the ends of the range: 0, 2^56 − 4, 2, 2^56. -/
theorem witness_RegistersExitsAndPlumbing :
    (issue ⟨0, true⟩ {}).opA.poison = true ∧ (issue ⟨0, false⟩ {}).opA.poison = false
      ∧ ([(0 : Word), 0xFFFFFFFFFFFFFC].all fun a => decide ((issue ⟨a, false⟩ {}).a.toNat % 4 = 0 ∧ (issue ⟨a, false⟩ {}).a.toNat < 2 ^ 56)) = true
      ∧ ([(2 : Word), 0x100000000000000].all fun a => decide (¬((issue ⟨a, false⟩ {}).a.toNat % 4 = 0 ∧ (issue ⟨a, false⟩ {}).a.toNat < 2 ^ 56))) = true
      ∧ (let t : Word := (base.onBlk fun b => { b with addr := 0x8000 }).fir.blk.addr + (-8192 : BitVec 14).signExtend 64 * 4
         t.toNat % 4 = 0 ∧ t.toNat < 2 ^ 56)
      ∧ (let t : Word := base.fir.blk.addr + (-1 : BitVec 14).signExtend 64 * 4; ¬(t.toNat % 4 = 0 ∧ t.toNat < 2 ^ 56)) := by
  decide +kernel
theorem witness_ScalarFrame : isNext (exec .retire base) = true ∧ Instr.retire.isScalar = true
    ∧ isNext (exec (.null none none) base) = true ∧ (Instr.null none none).isScalarPlain = true := by decide
/-- Slot 1 waits with nothing, with its predicate open, and with A taken. -/
theorem witness_TokenDelivery :
    let y : Slot := base.fir.blk.slots.getD 1 { word := 0 }
    (⟨1, .a⟩ : Dest).slot.toNat ≠ 0 ∧ base.fir.blk.slots[1]? = some y ∧ y.st = .wait ∧ y.holds .a = false ∧ y.p = none
      ∧ ({ y with a := some {} } : Slot).holds .a = true ∧ ({ y with p := some {} } : Slot).holds .p = true
      ∧ y.holds .o = false := by decide

/-! Class V -/

theorem witness_LanePermutationsAndTransfers : (4 : BitVec 3).toNat < 5 ∧ (issue ⟨7, true⟩ {}).opA.poison = true
    ∧ (lanes [1] []).vp 0 1 0 = false
    ∧ ((base.setPipe 0 (Pipe.reset.setReg 1 ⟨Vector.replicate 32 0, 0x80000000⟩)).vp 0 1 31) = true
    ∧ (List.range 32).all (fun l => !(lanes [1] []).vp 0 1 l) = true := by decide
def noLanes : State := base.setPipe 0 { Pipe.reset with len := 0 }
theorem witness_ReductionsRowsAndBlocks :
    (List.range 32).filter (base.active 0) ≠ [] ∧ (List.range 32).filter (noLanes.active 0) = []
      ∧ (lanes [0x7FC00000] []).active 0 0 = true ∧ fp32Nan ((lanes [0x7FC00000] []).vl 0 1 0) = true
      ∧ (lanes [0, 0, 0, 1] []).vl 0 1 3 ≠ 0
      ∧ ((lanes [0xFF800000] []).vl 0 1 3 = 0 ∧ (lanes [0xFF800000] []).vl 0 1 2 = 0 ∧ (lanes [0xFF800000] []).vl 0 1 0 = 0xFF800000)
      ∧ ((lanes [] []).vl 0 1 2 = 0 ∧ ((lanes [] []).vl 0 1 3).getLsbD 6 = false)
      ∧ bitsN ((lanes [0x7F800000] []).vl 0 1 0) 30 23 = 255 := by decide
theorem witness_VectorFloatLanesAndSpecialValues : ((lanes [] [0xFFFFF]).vl 0 2 (0 / 4)).toNat < 2 ^ 20
    ∧ fp32Nan 0x7FC00000 = true ∧ fp32Nan 0xFF800001 = true := by decide
theorem witness_VectorIntegerAndCompareLanes : (fp32Nan 0xFF800001 || fp32Nan 0) = true := by decide

/-! Classes M and C -/

def engine (e : Eff) (s : State) : State × Eff := (s.cStart e).getD (s, e)
def op2 (a b : Word) : State := issue ⟨a, false⟩ ⟨b, false⟩
theorem witness_EngineCommandsAreHeldAtIssue :
    base.who = .core ∧ ((issue ⟨0, true⟩ {}).opA.poison || (issue ⟨0, true⟩ {}).opB.poison) = true
      ∧ ((op2 0 0).opA.poison || (op2 0 0).opB.poison) = false ∧ bitsN (op2 0 0xFFFF000000000000).b 47 0 = 0
      ∧ ([(0x01010000 : Word), 0x60600000, 0x0101_5F5F].all fun a => decide (bitsN a 7 7 = 0 ∧ bitsN a 15 15 = 0 ∧ bitsN a 23 23 = 0
          ∧ bitsN a 63 31 = 0 ∧ 1 ≤ bitsN a 22 16 ∧ 1 ≤ bitsN a 30 24 ∧ bitsN a 6 0 + bitsN a 22 16 ≤ 96
          ∧ bitsN a 14 8 + bitsN a 30 24 ≤ 96)) = true
      ∧ (bitsN (0x88 : Word) 63 8 = 0 ∧ bitsN (0x88 : Word) 3 0 ≤ 8 ∧ bitsN (0x88 : Word) 7 4 ≤ 8 ∧ fmtPairOk 8 8 = true ∧ fmtPairOk 8 6 = false)
      ∧ bitsN (0x3FF : Word) 63 10 = 0
      := by decide +kernel
theorem witness_EngineCommandsAreHeldAtIssue_matrix :
      ([(0x00010000 : Word), 0xFFFFFFFF].all fun a => decide (bitsN a 63 32 = 0 ∧ 1 ≤ bitsN a 31 16 ∧ (bitsN a 15 15 = 0 → bitsN a 9 5 = 0))) = true
      ∧ ([(0x00400001 : Word), 0x3F013FFF].all fun a => decide (1 ≤ bitsN a 7 0 ∧ bitsN a 15 14 = 0 ∧ bitsN a 23 23 = 0 ∧ bitsN a 63 30 = 0
          ∧ 1 ≤ bitsN a 22 16 ∧ bitsN a 13 8 + bitsN a 22 16 ≤ 64 ∧ (bitsN a 24 24 = 0 → bitsN a 29 25 = 0))) = true
      ∧ ([(0x00400000 : Word), 0x00013F00].all fun a => decide (bitsN a 7 0 = 0 ∧ bitsN a 15 14 = 0 ∧ bitsN a 63 23 = 0 ∧ 1 ≤ bitsN a 22 16
          ∧ bitsN a 13 8 + bitsN a 22 16 ≤ 64)) = true
      := by decide +kernel
theorem witness_EngineCommandsAreHeldAtIssue_collar : bitsN (op2 0 1).b 47 0 ≠ 0
      ∧ ((op2 0xFFFFFFFFFFFFC0 4).a.toNat < 2 ^ 56 ∧ (op2 0xFFFFFFFFFFFFC0 4).a.toNat % 64 = 0 ∧ bitsN (op2 0 4).b 47 0 ≤ 4)
      ∧ ¬((op2 32 0).a.toNat < 2 ^ 56 ∧ (op2 32 0).a.toNat % 64 = 0)
      ∧ (let b : Word := 0x3F3F; bitsN b 7 6 = 0 ∧ bitsN b 47 14 = 0 ∧ bitsN b 5 0 &&& bitsN b 13 8 = bitsN b 5 0)
      ∧ (bitsN (0x1FDFF : Word) 9 9 = 0 ∧ bitsN (0x1FDFF : Word) 63 17 = 0)
      ∧ (bitsN (7 : Word) 47 0 < 8 ∧ bitsN (7 : Word) 0 0 = 1 ∧ (15 : BitVec 5).toNat < 16 ∧ (op2 255 7).a.toNat < 256) := by decide
def popE : Eff := eff (.mswap 3) 0 0x0500000000000000
theorem witness_EngineCommandsStartAndReport :
    cwPop (eff (.mswap 3) 0 0).cw = false ∧ cwPop popE.cw = true ∧ base.ctx.sync.q.getD (cwQpop popE.cw) 0 = 0
      ∧ (base.onSync fun y => { y with q := setV y.q 2 1 }).ctx.sync.q.getD (cwQpop popE.cw) 0 = 0 + 1
      ∧ ((matrix popE base).popBefore popE = none ∧ popE.started = false)
      ∧ base.tile.regions.getD 2 none = none ∧ (withReg reg2 base).tile.regions.getD 3 none = some reg2
      ∧ reg2.owner = base.ctx.id.uid ∧ ({ reg2 with owner := 1 } : Region).owner ≠ base.ctx.id.uid
      ∧ ({ popE with since := some 0 }).since = some 0
      ∧ ((matrix { popE with since := some 0 } base).ctx.mq.find? fun x => !x.started) = some { popE with since := some 0 }
      ∧ (collar { popE with since := some 0 } base).ctx.cq.head? = some { popE with since := some 0 }
      ∧ base.ctx.cq = [] ∧ base.ctx.mq = [] ∧ base.ctx.cdone = [] := by decide
theorem witness_RegionCommandsApply :
    let e := eff (.mregion 3) 0x02020808 0
    let s := matrix e base
    s.who = .cmd e ∧ s.ctx.mayStart e = true ∧ s.mBlocked e = false ∧ s.popBefore e = some s
      ∧ s.tile.regions.getD (3 : BitVec 3).toNat none = none ∧ s.regionOf 3 = none ∧ (withReg reg2 s).regionOf 3 = some reg2
      ∧ e.a.val.getLsbD 24 = false
      ∧ entriesOf s.tile reg2 3 0 64 (fun _ => true) = []
      ∧ entriesOf (withAcc [acc 16 0 5] s).tile reg2 3 0 64 (fun _ => true) ≠ [] ∧ reg2.dest = false := by decide
def wLoad : State := matrix (eff (.mwld 3) 7 0) (withStream 7 (str false 2 4 [{ val := 0x55 }]) (withReg reg2 base))
def aLoad : State := matrix (eff (.mstep 3) (7 + 2 ^ 16) 0) (withStream 7 (str false 3 1 [{ val := 1 }]) (withReg reg2 base))
theorem witness_WeightLoadsAndPasses :
    (wLoad.who = .cmd (eff (.mwld 3) 7 0) ∧ wLoad.regionOf 3 = some reg2 ∧ wLoad.ctx.mayStart (eff (.mwld 3) 7 0) = true
      ∧ wLoad.mBlocked (eff (.mwld 3) 7 0) = false ∧ reg2.wfmt.isSome = true ∧ quadFmt reg2.wf = false
      ∧ wLoad.ctx.streamFit 7 false 2 = true ∧ (wLoad.ctx.claimAll [7]).isSome = true)
      ∧ (reg2.h * reg2.w ≤ 4 ∧ 3 < reg2.h * reg2.w ∧ wLoad.ctx.supply 7 1 = .ready ∧ wLoad.ctx.head 7 1 = [{ val := 0x55 }]
        ∧ (withStream 7 (str false 2 4 []) wLoad).ctx.supply 7 1 = .later)
      ∧ (aLoad.ctx.mayStart (eff (.mstep 3) (7 + 2 ^ 16) 0) = true ∧ aLoad.mBlocked (eff (.mstep 3) (7 + 2 ^ 16) 0) = false
        ∧ aLoad.ctx.streamFit 7 false 3 = true ∧ aLoad.tile.acc = [] ∧ (aLoad.ctx.claimAll [7]).isSome = true
        ∧ aLoad.ctx.supply 7 ((reg2.h + 3) / 4) = .ready
        ∧ (withStream 7 (str false 3 1 []) aLoad).ctx.supply 7 ((reg2.h + 3) / 4) = .later
        ∧ (List.range 2).all (fun c => !aLoad.entryWaits (16 + c) 0) = true ∧ reg2.afmt = some 4
        ∧ quadFmt reg2.af = false ∧ (7 + 2 ^ 16 : Word).getLsbD 15 = false ∧ bitsN (7 + 2 ^ 16 : Word) 14 10 = 0
        ∧ bitsN (7 + 2 ^ 16 : Word) 31 16 = 1 ∧ (withAcc [acc 16 0 5] base).tile.entry 16 0 = some (acc 16 0 5)) := by decide

def ceff (i : Instr) (a b : Word) : State × Eff := engine (eff i a b) (collar (eff i a b) (withCfg 2 cfgA base))
theorem witness_HandleCommandsApply :
    let s := collar (eff (.cweight 2) 0x1B000 0) (withCfg 2 cfgA base)
    let u := (ceff (.cweight 2) 0x1B000 0).1
    let e' := (ceff (.cweight 2) 0x1B000 0).2
    s.who = .cmd (eff (.cweight 2) 0x1B000 0) ∧ s.cStart (eff (.cweight 2) 0x1B000 0) = some (u, e')
      ∧ u.ctx.handles.getD 3 none = none ∧ u.ctx.handles.getD 2 none = some cfgA ∧ cfgA.fired = false ∧ cfgA.fault = none
      ∧ cfgA.img.nodeAt (BitVec.ofNat 9 (bitsN e'.a.val 8 0)) (BitVec.ofNat 2 (bitsN e'.a.val 11 10)) = some 0
      ∧ cfgA.img.nodeAt 1 0 = none ∧ bitsN e'.a.val 7 0 = (0 : BitVec 2).toNat ∧ bitsN e'.b.val 0 0 = 0
      ∧ (0 : BitVec 2) = u.ctx.id.num ∧ u.ctx.id.present = true ∧ u.ctx.csr.loglim.getLsbD 63 = false := by decide
/-- What a read of an image gives. -/
def readIs (sett : Bool) (ws : List Word) (f : Got Image → Bool) : Bool :=
  f (readImage base.who4 sett 0x200000 (wordsAt 0x200000 ws (mapped base))).1
def gotImage : Got Image → Option Image | .ok im => some im | _ => none
def gotBad : Got Image → Bool | .bad => true | _ => false
theorem witness_CollarLoadsPlaceImages :
    ((collar (eff (.cload 2) 0x200000 0) base).cStart (eff (.cload 2) 0x200000 0)).isSome = true
      ∧ ((ceff (.cload 2) 0x200000 0).1.ctx.handles.getD 2 none ≠ none)
      ∧ (base.whoEff (eff (.cload 2) 0x200000 0) = base.who4 ∧ (eff (.cload 2) 0x200000 0).wp = [])
      ∧ readIs false [0] gotBad = true ∧ readIs false image (fun g => gotImage g == some (parseImage image)) = true
      ∧ (parseImage image).cyclic = false
      ∧ readIs true settImage (fun g => gotImage g == some (parseImage settImage)) = true
      ∧ (parseImage settImage).depth = some (parseImage settImage).lat := by decide +kernel
theorem witness_CollarLoadsPlaceImages_slabs :
    (match base.allocate base.ctx (parseImage image) ((parseImage image).sides 0) with | .at 0 0 [] => true | _ => false) = true
      ∧ (match (base.onTile fun t => { t with slabm := Vector.replicate 4 0 }).allocate base.ctx (parseImage image)
            ((parseImage image).sides 0) with | .noslab [] => true | _ => false) = true
      ∧ base.castTargets 1 0 = [] ∧ (base.ctx.setts.getD 3 {}).bound = false ∧ ((withSett base).ctx.setts.getD 3 {}).bound = true
      ∧ (freeSlot (withCfg 2 cfgA base).usedSlots 0).isSome = true := by decide +kernel
theorem witness_CollarLoadsPlaceImages_cycle : (let e : EdgeEnt := { src := 0, dst := 0, pos := 0, depth := 2, init := 0, initv := 0, track := 0 }
    ({ parseImage image with edges := [e] } : Image).cyclic) = true
    ∧ (parseImage (settImage.set 1 0x85)).depth ≠ some (parseImage (settImage.set 1 0x85)).lat := by decide +kernel
theorem witness_CollarStatusAndSettCall :
    base.ctx.handles.getD 2 none = none ∧ (withCfg 2 cfgA base).ctx.handles.getD 2 none = some cfgA
      ∧ (issue {} ⟨0, true⟩).opB.poison = true ∧ 4 ≤ (op2 0 4).b.toNat ∧ (op2 0 3).b.toNat < 4
      ∧ (bound.bound && bound.resident) = true ∧ (({} : Binding).bound && ({} : Binding).resident) = false
      ∧ bound.img.param ≠ base.cur.expA ∧ bound.img.param = (base.onBlk fun b => { b with slots := [{ word := 0 }] }).cur.expA := by
  decide

/-! Collar operators -/

def firedA : CollarCfg := { cfgA with fired := true, chans := [[{ val := 3 }], []] }
def collarRuns : State := withCfg 2 firedA base
theorem witness_CollarOperatorsPortsAndMonitors :
    let n := (parseImage image).nodes.getD 0 (parseNode 0 0)
    collarRuns.ctx.cfg 2 = some firedA ∧ firedA.img.nodes[0]? = some n ∧ isStat n = false ∧ unitNo n.node ≠ 7
      ∧ firedA.ready 0 = true ∧ firedA.fault = none ∧ (collarRuns.hangFirst 2).isNone = true
      ∧ ((grant ((collarRuns.onUnit (physUnit firedA n)).filter fun x => x.g.ready x.i && collarRuns.goes x.ctx)).map fun w => (w.ctx, w.h, w.i)) = some (0, 2, 0)
      ∧ (collarRuns.tile.unit (physUnit firedA n)).2 < 256
      ∧ n.type = 1 ∧ n.opc = 0x02 := by decide
theorem witness_CollarOperatorsPortsAndMonitors_rest :
    let p := (parseImage image).ports.getD 0 (parsePort 0)
    let s := withStream 7 (str false 2 4 [{ val := 9 }]) collarRuns
    firedA.img.ports[0]? = some p ∧ firedA.ports[0]? = some ({} : PortSt) ∧ p.kind = 0 ∧ p.out = false ∧ firedA.runs = true
      ∧ (firedA.img.outs (portEp 0 0)).all firedA.room = true ∧ (s.ctx.streams.getD 7 {}).st.live = true
      ∧ streamWrite ((withStream 7 (str true 2 4 []) collarRuns).ctx.streams.getD 7 {}) = true
      ∧ (match s.portStream firedA 2 7 false with | .ok _ => true | _ => false) = true
      ∧ (s.ctx.streams.getD 7 {}).buf = [{ val := 9 }] ∧ 1 ≤ (s.ctx.streams.getD 7 {}).size ∧ (s.ctx.streams.getD 7 {}).size ≤ 4 := by decide
theorem witness_CollarOperatorsPortsAndMonitors_open (es : List Nat) : collarRuns.openOuts firedA es := by
  have h : collarRuns.tile.ckerf = 0 := by decide
  simp [State.openOuts, h]


/-! ### Class L (11 R229 to R256; 04 R91 to R107) -/

/-- A word of the window, with the key of its first byte. -/
def winWords (o : Nat) (ws : List Word) (s : State) : State := wordsAt (s.ctx.winKey o) ws s
def poisonAt (o : Nat) (s : State) : State := s.onMem fun m => m.setPoison (s.ctx.winKey o) true
/-- A held stream, port or store command is applied. -/
def lcmd (e : Eff) (s : State) : State := { s with who := .cmd e, ctx := { s.ctx with lq := [e] } }
/-- Slot 0 holds the word of the instruction. -/
def issueW (i : Instr) (a b : Token) : State := (issue a b).onBlk fun x => { x with
  slots := modAt x.slots 0 fun y => { y with word := encode i } }
def toB : Cons := some ⟨1, .b⟩
/-- What slot 1 has received at A and B. -/
def gots (i : Instr) (s : State) : Option Word × Option Word :=
  let y := (after i s).fir.blk.slots.getD 1 { word := 0 }
  (y.a.map (·.val), y.b.map (·.val))
def addr (a : Word) : State := issue ⟨a, false⟩ {}
def refusals (i : Instr) (s : State) : List Word := (after i s).ctx.sync.evqHeld.map (·.status)
def streamAt (n : Nat) (i : Instr) (s : State) : Machine.Stream := (after i s).ctx.streams.getD n {}

theorem test_ld_signed : got (.ld .global true .s1 toA none) (wordsAt 0x200008 [0x8000] (mapped (addr 0x200009)))
    = some ⟨0xFFFFFFFFFFFFFF80, false⟩ := by decide +kernel
theorem test_ld_window : faultsOf (.ld .window false .s8 toA none) (addr 0x100000) = [(5, 0x064, 0x100000)] := by decide
/-- The bytes of an earlier store of the block, with the poison of their word. -/
theorem test_ld_poison : gots (.ld .window false .s4 toA toB) (poisonAt 8 (winWords 8 [0x11223344AABBCCDD] (addr 12)))
    = (some 0x11223344, some 8) := by decide
theorem test_st_held : (after (.st .window .s4 none none) (op2 12 7)).fir.blk.effs.map (fun e => (e.locs, e.b.val))
    = [([.mem ((addr 0).ctx.winKey 12)], 7)] := by decide
theorem test_st_stores : let s := winWords 8 [0xFFFFFFFFFFFFFFFF] base
    (after (.st .window .s2 none none) (lcmd { eff (.st .window .s2 none none) 12 0x12345 with locs := [.mem (s.ctx.winKey 12)] } s)).winWord 8
      = 0xFFFF2345FFFFFFFF := by decide
theorem test_ldv : (let t := after (.ldv .window 4 0 none) (winWords 64 [0x0000000200000001, 3] ((lanes [] []).onBlk fun b => { b with
      slots := [{ word := 0, expA := true, a := some ⟨64, false⟩ }] }))
    (List.range 3).map (t.lane 0 4)) = [1, 2, 0] := by decide
theorem test_stv : (after (.stv .window 1 0 none) ((lanes [7, 9] []).onBlk fun b => { b with
      slots := [{ word := 0, expA := true, a := some ⟨64, false⟩ }] })).fir.blk.effs.map (fun e => (e.locs.length, e.ws)) = [(2, [7, 9])] := by
  decide
/-- Set 1 holds tag 3 in way 2. -/
def tagged : Ctx → Ctx := fun c => c.putTags 1 [{ rank := 0 }, { rank := 1 }, { rank := 2, valid := true, tag := 3 }, { rank := 3 }]
theorem test_tlook : gots (.tlook toA none) ((addr 0xC0100).onCtx tagged) = (some 6, none) := by decide
theorem test_tlook_miss : gots (.tlook toA none) (addr 0xC0100) = (some 0x8004, none) := by decide
theorem test_tset : hitWay ((after .tset (lcmd (eff .tset 0xC0100 6) base)).ctx.tagSet 1) 3 = some 2 := by decide
theorem test_tset_range : faultsOf .tset (op2 0xC0100 9) = [(6, 0x030, 9)] := by decide
theorem test_tclr : hitWay ((after .tclr (lcmd (eff .tclr 6 0) (base.onCtx tagged))).ctx.tagSet 1) 3 = none := by decide
/-- A 4-byte read stream of the window, 4 by 2 elements with strides 8 and 0x100, base 0x40. -/
def rows42 : List Word := [0x40, 0x120, 0x0001000100020004, 8, 0x100, 0, 0, 0]
theorem test_agen : (streamAt 9 (.agen 9) (lcmd { eff (.agen 9) 0 0 with ws := rows42 } base)).st = .idle := by decide
theorem test_agen_bad : refusals (.agen 9) (lcmd { eff (.agen 9) 0 0 with ws := rows42.set 2 0x0001000100020000 } base) = [0x505] := by decide
theorem test_astart : (streamAt 9 (.astart 9) (lcmd (eff (.astart 9) 0 0) (withStream 9 { st := .idle, desc := rows42, k := 3 } base))).k = 0 := by
  decide
theorem test_astart_undef : refusals (.astart 9) (lcmd (eff (.astart 9) 0 0) base) = [0x525] := by decide
theorem test_astop : (streamAt 9 (.astop 9) (lcmd (eff (.astop 9) 0 0) (withStream 9 { st := .run, desc := rows42 } base))).st = .idle := by
  decide
theorem test_ldg : gots (.ldg 9 toA toB) (withStream 9 { st := .run, desc := rows42, k := 3, used := 2, buf := [{ val := 0x55 }] }
    (issueW (.ldg 9 toA toB) {} {})) = (some 0x55, some 0x20000) := by decide
theorem test_ldg_empty : gots (.ldg 9 toA toB) (withStream 9 { st := .idle, desc := rows42 } (issueW (.ldg 9 toA toB) {} {}))
    = (some 0, some 11) := by decide
theorem test_sts : ((streamAt 7 (.sts 7 none none) (lcmd (eff (.sts 7 none none) 0x123456789 0) (withStream 7 (str true 2 4 []) base))).buf).map
    (·.val) = [0x23456789] := by decide
theorem test_sts_read : refusals (.sts 7 none none) (lcmd (eff (.sts 7 none none) 1 0) (withStream 7 (str false 2 4 []) base)) = [0x515] := by
  decide
theorem test_abar : (after .abar (lcmd (eff .abar 0xFFFFFFFF 0) base)).ctx.lq = [] := by decide
theorem test_abar_range : faultsOf .abar (addr 0x100000000) = [(6, 0x030, 0x100000000)] := by decide
theorem test_ldw : (streamAt 7 (.ldw 7) (lcmd (eff (.ldw 7) 0x14 0) (withStream 7 { str false 2 4 [] with st := .idle } base))).bed
    = some (4, true, false) := by decide
theorem test_ldw_range : faultsOf (.ldw 7) (addr 0x25) = [(6, 0x030, 0x25)] := by decide
theorem test_pxform : (fun p : PortCfg => (p.kind, p.esz, p.rows, p.cols)) (((after (.pxform 2) (lcmd (eff (.pxform 2) 0x70E3 0) base)).ctx.ports.getD 2 {}).rd)
    = (1, 2, 4, 8) := by decide
theorem test_pmerge : ((after (.pmerge 2) (lcmd (eff (.pmerge 2) 1 0) base)).ctx.ports.getD 2 {}).merge = some .addF := by decide
theorem test_ringdef : (fun r : Ring => (r.defd, r.base, r.size, r.free)) ((after (.ringdef 3) (lcmd (eff (.ringdef 3) 0x10004000040 0) base)).ctx.rings.getD 3 {})
    = (true, 0x40, 4, 4) := by decide
theorem test_ringdef_range : faultsOf (.ringdef 3) (addr 0x10003000040) = [(6, 0x030, 0x10003000040)] := by decide
theorem test_ringstat : got (.ringstat 3 toA none) (base.onCtx fun c => { c with
    rings := setV c.rings 3 { defd := true, base := 64, size := 8, head := 5, free := 6 } }) = some ⟨0x8000000500060000, false⟩ := by decide
theorem test_resume : (streamAt 9 .resume (lcmd (eff .resume (9 * 1024) 0) (withStream 9
    { st := .held, desc := rows42, hold := some ⟨0x64, 0, 0⟩ } base))).st = .run := by decide
theorem test_resume_none : refusals .resume (lcmd (eff .resume (9 * 1024) 0) base) = [0x515] := by decide
theorem test_amo : (after (.amo .add .w none none) (op2 (2 ^ 62 + 16) 3)).fir.blk.effs.map (fun e => (e.locs, e.ws))
    = [([.mem (base.ctx.winKey 16)], [3])] := by decide +kernel
theorem test_amo_addr : faultsOf (.amo .add .w none none) (addr 0x8000000000000000) = [(5, 0x060, 0x8000000000000000)] := by decide
theorem test_cas_record : faultsOf (.cas true none none) (op2 0x4000000000000010 0x30) = [(6, 0x030, 0x30)] := by decide
theorem test_cas_handover : (((after (.cas true none none) (lcmd { eff (.cas true none none) 0x4000000000000010 0x40 with
      locs := [.mem (base.ctx.winKey 16), .mem (base.ctx.winKey 0x40)], ws := [0x40], wp := [false] } base)).usu (unitOf (base.ctx.winKey 16))).window.map
    (fun x => (x.cas, x.ret))) = [(true, some (base.ctx.winKey 0x40))] := by decide +kernel
theorem test_amov : (after (.amov .maxW 1 0 none) (((lanes [2, 5] []).onBlk fun b => { b with
      slots := [{ word := 0, expA := true, a := some ⟨0x4000000000000100, false⟩ }] }))).fir.blk.effs.map (·.locs)
    = [[.mem (base.ctx.winKey 0x108), .mem (base.ctx.winKey 0x114)]] := by decide +kernel
/-- Element 5 of 4 by 2: row 1, column 1. -/
theorem test_stream_element : let s := winWords 0x148 [0x77] (withStream 9 { st := .run, desc := rows42, k := 5 } base)
    let t := streamAt 9 (.streamElement 9) s
    (t.k, t.buf.map (·.val)) = (6, [0x77]) := by decide +kernel
theorem test_stream_hold : let t := streamAt 9 (.streamElement 9) (withStream 9 { st := .run, desc := rows42.set 0 0x100000 } base)
    (t.st, t.hold) = (.held, some ⟨0x064, 0x100000, 0⟩) := by decide
def upd (op : AmoOp) (ty : AmoTy) (v : Word) : Update :=
  { id := 1, ctx := 0, key := base.ctx.winKey 16, wide := false, op := op, ty := ty, v := v }
def atUnit (l : List Update) (s : State) : State := s.onUsu (unitOf (s.ctx.winKey 16)) fun u => { u with window := l }
theorem test_update : (after (.updateTokenApply (unitOf (base.ctx.winKey 16)) 0 false)
    (atUnit [upd .add .w 5] (winWords 16 [0x1FFFFFFFE] base))).winWord 16 = 0x100000003 := by decide +kernel
theorem test_update_merged : ((after (.updateTokenApply (unitOf (base.ctx.winKey 16)) 1 true)
    (atUnit [upd .max .wn 5, upd .max .wn 0xFFFFFFFF] base)).usu (unitOf (base.ctx.winKey 16))).window.map (·.v) = [0xFFFFFFFF] := by
  decide +kernel
/-- The one context of a job has closed: its update of the round is applied. -/
theorem test_round_close : (after (.roundClose (unitOf (base.ctx.winKey 16))) ((winWords 16 [4] base).onUsu (unitOf (base.ctx.winKey 16)) fun u =>
    { u with order := [{ upd .add .d 3 with fixed := true }], closes := [(0, [0], 1)] })).winWord 16 = 7 := by decide +kernel


/-! ### Class K (12; 05 R128 to R131; 23 R400) -/

/-- A held copy or message command is applied. -/
def kcmd (e : Eff) (s : State) : State := { s with who := .cmd e, ctx := { s.ctx with kq := [e] } }
/-- A plain copy of one block from window offset 0x100 to 0x200. -/
def oneBlock : CopyReq :=
  { cls := 5, op := 32, mod := 0, off := none, w0 := 0x0100000000000100, w1 := 0x3000000000000200, cw := 0x8005
    space := 0, kind := 0 }
def runs1 (x : CopyRun) (s : State) : State := s.onCtx fun c => { c with chans := setV c.chans 2 { run := some x } }
def copied (i : Instr) (s : State) : Option CopyRun := ((after i s).ctx.chan 2).run

theorem test_kcopy_held : (after (.kcopy none none) (op2 0x40 2)).fir.blk.effs.map (·.ins) = [.kcopy none none] := by decide
theorem test_kcopy_count : faultsOf (.kcopy none none) (op2 0x40 0x10002) = [(6, 0x030, 0x10002)] := by decide
theorem test_kcopy : ((after (.kcopy none none) (kcmd (eff (.kcopy none none) 0x40 2) base)).ctx.chan 2).queue.map (fun r => (r.off, r.kind))
    = [(some 0x40, 0)] := by decide
theorem test_kgath : faultsOf (.kgath none none) (op2 0x40 2) = [(6, 0x030, 2)] := by decide
theorem test_kgath_queue : ((after (.kgath none none) (kcmd (eff (.kgath none none) 0x40 0x30002) base)).ctx.chan 2).queue.map
    (fun r => (r.count, r.kind)) = [(3, 1)] := by decide
theorem test_kscat : ((after (.kscat none none) (kcmd (eff (.kscat none none) 0x40 0x30002) base)).ctx.chan 2).queue.map (·.kind) = [2] := by
  decide
theorem test_kred : ((after (.kred .maxW none none) (kcmd (eff (.kred .maxW none none) 0x40 2) base)).ctx.chan 2).queue.map
    (fun r => (r.merge, r.kind)) = [(some .maxW, 3)] := by decide
theorem test_kcoll_align : faultsOf (.kcoll .allreduce none none) (op2 0x50 2) = [(6, 0x030, 0x50)] := by decide
theorem test_kcoll : ((after (.kcoll .allgath none none) (kcmd (eff (.kcoll .allgath none none) 0x40 2) base)).ctx.chan 2).queue.map (·.coll)
    = [some .allgath] := by decide
theorem test_kport : (fun k : CopyPort => (k.chan, k.en, k.red)) ((after (.kport 1) (kcmd (eff (.kport 1) 0x3D 0) base)).ctx.kports.getD 1 {})
    = (5, true, some .addF) := by decide
theorem test_kport_range : faultsOf (.kport 1) (addr 0x21) = [(6, 0x030, 0x21)] := by decide
theorem test_copy_start : (copied (.copyRequestStart 2) ((winWords 0x40 [oneBlock.w0, oneBlock.w1] base).onCtx fun c => { c with
    chans := setV c.chans 2 { queue := [{ oneBlock with off := some 0x40 }] } })).map (fun x => (x.req.w0, x.req.w1, x.status))
    = some (0x0100000000000100, 0x3000000000000200, none) := by decide +kernel
theorem test_copy_block : (let t := after (.copyCompletion 2) (poisonAt 0x108 (winWords 0x100 [1, 2, 3, 4, 5, 6, 7, 8] (runs1 { req := oneBlock } base)))
    ((List.range 8).map fun i => t.winWord (0x200 + 8 * i), (List.range 8).map fun i => t.winPois (0x200 + 8 * i),
      (t.ctx.chan 2).run.map fun x => (x.blk, x.poisoned)))
    = ([1, 2, 3, 4, 5, 6, 7, 8], [false, true, false, false, false, false, false, false], some (1, 1)) := by decide +kernel
theorem test_copy_done : refusals (.copyCompletion 2) (runs1 { req := oneBlock, blk := 1, poisoned := 1 } base) = [0x10008] := by decide
theorem test_copy_hold : (copied (.copyCompletion 2) (runs1 { req := { oneBlock with w1 := 0x3000000000100000 } } base)).map (·.hold)
    = some (some ⟨0x064, 0x100000, 1⟩) := by decide +kernel
theorem test_kcancel : let t := after .kcancel (kcmd (eff .kcancel 4 0) (runs1 { req := oneBlock, blk := 7 } base))
    ((t.ctx.chan 2).run, t.ctx.sync.evqHeld.map (·.status)) = (none, [0x70805]) := by decide
theorem test_kstat : got (.kstat toA none) (runs1 { req := oneBlock, blk := 7, hold := some ⟨0x64, 0, 0⟩ } (addr 2))
    = some ⟨0xC000000000070000, false⟩ := by decide
/-- A header: 4 bytes to ring 3 of instance 0. -/
def header : Word := 0x0000004300000000
/-- Job slot 0 is of job 0; instance 0 is placed on the own tile. -/
def jobbed (s : State) : State := (wordsAt 0 [0x8000000000000000] s).onDev fun d => { d with
  jobs := setV d.jobs 0 { d.jobs.getD 0 {} with active := true, job := 0 } }
theorem test_ksend_held : (after (.ksend true 5 none none) (winWords 0x40 [header, 0x44332211] (addr 0x40))).fir.blk.effs.map (·.ws) = [[header]] := by
  decide
theorem test_ksend_length : faultsOf (.ksend true 5 none none) (winWords 0x40 [0x300000000] (addr 0x40)) = [(6, 0x030, 0x300000000)] := by decide
theorem test_ksend : (after (.ksend true 5 none none) (kcmd { eff (.ksend true 5 none none) 0x40 9 with ws := [header, 1, 20], ser := 1 }
    (winWords 0x40 [header, 0x44332211] (jobbed base)))).dev.packets.map (fun p => (p.body, p.ring, p.send)) = [([0x11, 0x22, 0x33, 0x44], 3, 1)] := by
  decide +kernel
theorem test_ksend_nodest : refusals (.ksend true 5 none none) (kcmd { eff (.ksend true 5 none none) 0x40 9 with ws := [header + 1, 1, 20], ser := 1 }
    (winWords 0x40 [header + 1, 0] (jobbed base))) = [0x825] := by decide +kernel
def ring3 (r : Ring) (s : State) : State := s.onCtx fun c => { c with rings := setV c.rings 3 r }
/-- One message of 4 bytes at line 2 of 8. -/
def ringOne : Ring := { defd := true, base := 0x400, size := 8, head := 2, tail := 3, free := 7, msgs := [{ line := 2, lines := 1, len := 4 }] }
theorem test_krecv : gots (.krecv 3 toA toB) (winWords 0x480 [0x77] (ring3 ringOne (issueW (.krecv 3 toA toB) {} {})))
    = (some 0x40004800000, some 0x77) := by decide
theorem test_krecv_undef : gots (.krecv 3 toA toB) (issueW (.krecv 3 toA toB) {} {}) = (some 0x525, some 0) := by decide
theorem test_kpoll : gots (.kpoll 3 toA toB) (winWords 0x480 [0x77] (ring3 ringOne base)) = (some 0x40004800000, some 0x77) := by decide
theorem test_kpoll_empty : gots (.kpoll 3 toA toB) (ring3 { ringOne with msgs := [] } base) = (some 11, some 0) := by decide
def packet : Packet :=
  { kind := .msg, ctx := 0, src := 0, send := 1, job := 0, side := 0, dst := 0, dinst := 0, sinst := 0, ring := 3, sseq := 2
    body := [0x11, 0x22, 0x33], launch := 0, pos := 0 }
def sendOne : Send := { id := 1, tag := 5, wantRec := false, dinst := 0, ring := 3, sseq := 2, len := 3, body := [0x11, 0x22, 0x33]
                        expiry := some 100, flying := true }
def flying (p : Packet) (s : State) : State := (s.onDev fun d => { d with packets := [p] }).onCtx fun c => { c with sends := [sendOne] }
theorem test_forward : (after (.packetForward 0) (flying { packet with dst := 0x09 } base)).dev.packets.map (·.pos) = [1] := by decide
theorem test_forward_kerf : (after (.packetForward 0) ((flying { packet with dst := 0x09 } base).onTile fun t => { t with
    kerf := setV t.kerf 1 0x200 })).dev.packets = [] := by decide
theorem test_arrival : (let t := after (.messageArrival 0) (flying packet (jobbed (ring3 { ringOne with msgs := [] } base)))
    (t.winWord 0x4C0, t.winWord 0x4C8, t.ctx.sends, (t.ctx.rings.getD 3 {}).tail)) = (0x20003, 0x332211, [], 4) := by decide +kernel
theorem test_arrival_full : (after (.messageArrival 0) (flying packet (jobbed (ring3 { ringOne with free := 0 } base)))).dev.packets.map (·.kind)
    = [.nack] := by decide +kernel
theorem test_nack : (after (.nackArrival 0) (flying { packet with kind := .nack } base)).ctx.sends.map (fun x => (x.interval, x.flying))
    = [(32, false)] := by decide
theorem test_retry : (after (.ksendRetry 0) ((jobbed base).onCtx fun c => { c with
    sends := [{ sendOne with flying := false, retryAt := some 0 }] })).dev.packets.map (·.body) = [[0x11, 0x22, 0x33]] := by decide +kernel
theorem test_lost : refusals (.lostNotice 0) (flying { packet with kind := .lost } base) = [0x845] := by decide

def copyCfg : CollarCfg :=
  { img := { nodes := [parseNode 0x3000 0], ports := [{ kind := 4, out := true, lane := 0, stream := 0 }], edges := [{ parseEdge 0 0 with dst := portEp 0 0 }] }
    fired := true, nodes := [{}], chans := [[]]
    ports := [{ part := [{ val := 0x100 }, { val := 0x01000000 }, { val := 0x200 }, { val := 0x30000000 }] }] }
/-- Its packet waits for a place in channel 2 since cycle 0. -/
def copyFull : CollarCfg := copyCfg.onPort 0 fun p => { p with bound := some { en := true, chan := 2, full := some 0 } }
def bound0 (s : State) : State := s.onCtx fun c => { c with kports := setV c.kports 0 { c.kports.getD 0 {} with chan := 2, en := true } }
/-- The port has one token of its packet, and the next stands on its channel. -/
def copyNext : CollarCfg :=
  { img := { ports := [{ kind := 4, out := true, lane := 0, stream := 0 }], edges := [{ parseEdge 0 0 with dst := portEp 0 0 }] }, fired := true
    ports := [{ part := [{ val := 0x100 }] }], chans := [[{ val := 7 }]] }
theorem test_copy_port_gathers : (cfgIn 2 (.copyPortPacket 0) (withCfg 2 copyNext base)).map (fun g => (g.part 0).map (·.val)) = some [0x100, 7] := by
  decide +kernel
theorem witness_CopyChannelsRunRequests_gathers :
    (withCfg 2 copyNext base).ctx.copySource 0 = some (2, 0) ∧ (copyNext.part 0).length < 4 ∧ copyNext.portIn 0 0 = some 0 := by decide +kernel
theorem test_copy_port : ((after (.copyPortPacket 0) (bound0 (withCfg 2 copyCfg base))).ctx.chan 2).queue.map (fun r => (r.w0, r.w1))
    = [(0x0100000000000100, 0x3000000000000200)] := by decide
theorem test_copy_port_disabled : (cfgIn 2 (.copyPortPacket 0) (withCfg 2 copyCfg base)).map (fun g => (g.fault, g.ports.map (·.faulted))) = some (some (0, 0x0B3), [true]) := by
  decide

theorem witness_CopyCommandsQueueAndAnswer :
    base.who = .core ∧ (issue ⟨0, true⟩ {}).pAB = true ∧ base.pAB = false
      ∧ (let a := (op2 0xFFFF0 0).a; a.toNat % 16 = 0 ∧ a.toNat + 16 ≤ base.ctx.winSize)
      ∧ (let a := (op2 0xFFFE0 0).a; a.toNat % 32 = 0 ∧ a.toNat + 32 ≤ base.ctx.winSize)
      ∧ ¬((op2 0xFFFF8 0).a.toNat % 16 = 0 ∧ (op2 0xFFFF8 0).a.toNat + 16 ≤ base.ctx.winSize)
      ∧ (let b : Word := 0xFFFF0007; bitsN b 47 32 = 0 ∧ bitsN b 15 3 = 0 ∧ 1 ≤ bitsN b 31 16 ∧ bitsN b 31 16 ≤ 65535)
      ∧ (let b : Word := 7; bitsN b 47 32 = 0 ∧ bitsN b 15 3 = 0 ∧ 0 ≤ bitsN b 31 16 ∧ bitsN b 31 16 ≤ 0)
      ∧ (base.ctx.chan 2).queue.length < 16
      ∧ 16 ≤ (({ queue := List.replicate 16 oneBlock } : Channel)).queue.length := by decide
theorem witness_CopyCommandsQueueAndAnswer_ports :
    (let a : Word := 0xFF; bitsN a 63 8 = 0 ∧ (a.getLsbD 4 = true ↔ bitsN a 7 5 ≠ 0))
      ∧ (let a : Word := 0x0F; bitsN a 63 8 = 0 ∧ (a.getLsbD 4 = true ↔ bitsN a 7 5 ≠ 0))
      ∧ bitsN (0x100 : Word) 63 8 ≠ 0 ∧ (0x80 : Word) = BitVec.ofNat 64 (2 ^ 7) ∧ base.ctx.kq = []
      ∧ (runs1 { req := oneBlock } base).ctx.chan 2 = { queue := [], run := some { req := oneBlock } }
      ∧ cwPush oneBlock.cw = false ∧ (addr 8).a.toNat = 8 ∧ (addr 7).a.toNat < 8 := by decide
theorem witness_CopyChannelsRunRequests :
    (base.ctx.chan 2).run = none ∧ (base.ctx.chan 2).queue = [] ∧ (runs1 { req := oneBlock } base).ctx.chan 2 = { run := some { req := oneBlock } }
      ∧ cwPop (0x0500 : BitVec 16) = true ∧ base.ctx.sync.q.getD (cwQpop 0x0500) 0 = 0
      ∧ (19 : Nat) < 4 + base.ctx.csr.dceil.toNat ∧ 4 + base.ctx.csr.dceil.toNat ≤ 20
      ∧ base.dev.upsets = [] ∧ oneBlock.kind ≠ 4 ∧ oneBlock.merge = none ∧ oneBlock.coll = none
      ∧ (let x : CopyRun := { req := oneBlock }
         x.rd = [] ∧ x.wr = 0 ∧ x.blk < x.req.total ∧ x.srcOf x.blk = (0x100, true) ∧ x.dstOf x.blk = (0x200, true) ∧ x.hold = none
          ∧ x.status = none ∧ x.req.total ≤ 1)
      ∧ (0x200 : Word).toNat + 64 ≤ base.ctx.winSize ∧ base.mem.wf = true
      ∧ base.ctx.id.row + 2 ^ (9 + base.ctx.id.wlog.toNat) ≤ 4096 := by decide
/-- A gather of one block from the address that window offset 0x100 holds. -/
def oneGather : CopyReq := { oneBlock with op := 33, kind := 1, count := 1 }
theorem witness_CopyChannelsRunRequests_start :
    cwPop oneBlock.cw = false ∧ oneBlock.wordsOk = true ∧ oneBlock.off = none ∧ (19 : Nat) < 4 + base.ctx.csr.dceil.toNat
      ∧ (base.onSync fun y => { y with q := setV y.q 2 1 }).ctx.sync.q.getD (cwQpop 0x0500) 0 ≠ 0
      ∧ ({ oneBlock with off := some 0x40 } : CopyReq).kind ≠ 4 ∧ ({ oneBlock with off := some 0x40, kind := 4 } : CopyReq).kind = 4
      ∧ (0 < (0x081 : Nat) ∧ 0x081 < 4096) := by decide +kernel
theorem witness_CopyChannelsRunRequests_lists :
    let s := winWords 0x100 [0x200000] base
    let x : CopyRun := { req := oneGather }
    x.req.coll = none ∧ x.req.listAt = some 0x100 ∧ x.list.length < x.req.count ∧ x.hold = none ∧ x.status = none
      ∧ (0x100 : Word).toNat % 8 = 0 ∧ (0x100 : Word).toNat + 8 * x.req.count ≤ s.ctx.winSize
      ∧ (s.winPois 0x100 = false ∧ (s.winWord 0x100).toNat % 8 = 0)
      ∧ x.req.count ≤ ({ x with list := [0x200000] } : CopyRun).list.length ∧ x.blk < x.req.total
      ∧ x.req.total ≤ ({ x with blk := 1 } : CopyRun).blk ∧ s.copyPerformed 2 x.req = true
      ∧ (atUnit [{ upd .add .w 5 with stream := 36 }] base).copyPerformed 2 { oneBlock with merge := some .maxW } = false := by decide +kernel
/-- Instance 0 of two reduces four elements of type F from 0x100 to 0x200. -/
def collRun : CopyRun := { req := { oneBlock with op := 36, kind := 4, coll := some .allreduce }, desc := [0x200000100, 0x200000000, 4, 0] }
def collPart : CollPart := { ctx := 0, chan := 2, index := 0, home := 0, tree := false, differs := false, data := [], pois := [] }
def collBoth : Coll := { launch := 0, firsti := 0, npart := 2, cid := 0, nth := 0, kind := .allreduce, desc := [], parts := [collPart, collPart] }
theorem witness_CopyChannelsRunRequests_collectives :
    let s := base.onDev fun d => { d with colls := [collBoth], launches := [{ num := 0, queue := none, job := 0, egress := 0, instances := 2 }] }
    collRun.coll = none ∧ collRun.descOk .allreduce = true ∧ collRun.descRange = true
      ∧ ({ collRun with desc := [0x200000101, 0x200000000, 4, 0] } : CopyRun).descOk .allreduce = false
      ∧ ({ collRun with desc := [0x200000100, 0x200000000, 0xC000000004, 0] } : CopyRun).descRange = false
      ∧ base.instances < collRun.cFirst + collRun.cNpart ∧ collRun.cFirst + collRun.cNpart ≤ s.instances
      ∧ collRun.cFirst ≤ s.ctx.id.index ∧ s.ctx.id.index < collRun.cFirst + collRun.cNpart
      ∧ s.ctx.id.index < ({ collRun with desc := [0x200000100, 0x200000001, 4, 0] } : CopyRun).cFirst
      ∧ collRun.rd.length < collRun.cCount ∧ collRun.cSrc + collRun.cSize * collRun.cCount ≤ s.ctx.winSize
      ∧ collRun.cCount ≤ (List.replicate 4 ((0 : Word), false)).length
      ∧ s.collOf (0, 2, 0, 0) = some collBoth ∧ collBoth.npart ≤ collBoth.parts.length ∧ [collPart].length < collBoth.npart
      ∧ collBoth.parts.any (·.differs) = false ∧ [{ collPart with differs := true }].any (·.differs) = true
      ∧ collBoth.parts.any (·.lost) = false ∧ s.tablesOn = false ∧ collRun.cDst % 8 = 0
      ∧ collRun.cDst + collRun.cSize * ((collRun.cCount + 2) * (2 + 1)) ≤ s.ctx.winSize := by decide +kernel
theorem witness_CopyChannelsRunRequests_ports :
    base.ctx.copySource 0 = none ∧ (bound0 (withCfg 2 copyCfg base)).ctx.copySource 0 = some (2, 0)
      ∧ (withCfg 2 copyCfg base).ctx.cfg 2 = some copyCfg ∧ 4 ≤ (copyCfg.part 0).length
      ∧ ((bound0 base).ctx.kports.getD 0 {}).en = true ∧ (copyCfg.part 0).any (·.pois) = false
      ∧ ((bound0 base).ctx.chan ((bound0 base).ctx.kports.getD 0 {}).chan.toNat).queue.length < 16
      ∧ ((copyFull.ports[0]?).bind (·.bound)).bind (·.full) = some 0 ∧ (copyFull.boundTo 0 {}).chan = 2
      ∧ (copyCfg.boundTo 0 ((bound0 base).ctx.kports.getD 0 {})).en = true ∧ (copyCfg.boundTo 0 {}).en = false
      ∧ 0 + base.ctx.csr.dceil.toNat < 17 ∧ 16 ≤ ({ queue := List.replicate 16 oneBlock } : Channel).queue.length := by decide
theorem witness_MessageFormsAnswer :
    (issue ⟨0, true⟩ {}).opA.poison = true ∧ (issue {} ⟨0, true⟩).opB.poison = true ∧ base.deadline 0x8000000000000002 = .illegal
      ∧ base.deadline 0x8000000000000000 ≠ .illegal ∧ base.deadline 0xFFFF = .at 16
      ∧ ¬((addr 0x3C).a.toNat % 8 = 0 ∧ (addr 0x3C).a.toNat + 8 ≤ base.ctx.winSize)
      ∧ (addr 0xFFFF8).a.toNat % 8 = 0 ∧ (addr 0xFFFF8).a.toNat + 8 ≤ base.ctx.winSize
      ∧ (poisonAt 0x40 base).seen.poisoned (base.ctx.winKey 0x40) = true ∧ base.seen.poisoned (base.ctx.winKey 0x40) = false
      ∧ (let h : Word := 0x0000100F00000000
         bitsN h 63 45 = 0 ∧ 1 ≤ bitsN h 44 36 ∧ bitsN h 44 36 ≤ 256 ∧ 0x40 + 8 + bitsN h 44 36 ≤ base.ctx.winSize)
      ∧ base.ctx.id.present = true ∧ base.ctx.sends = [] ∧ bitsN header 31 0 < base.instances ∧ base.instances ≤ bitsN (header + 1) 31 0
      ∧ ((jobbed base).placementEntry base.ctx.id.job (bitsN header 31 0)).getLsbD 63 = true := by decide +kernel
theorem witness_MessageFormsAnswer_rings :
    let s := issueW (.krecv 3 toA toB) {} {}
    (base.ctx.graph.chans.any fun c => c.kind == 4 && c.loc.toNat == 3) = false
      ∧ (([{ kind := 4, loc := 3 }] : List GChan).any fun c => c.kind == 4 && c.loc.toNat == 3) = true
      ∧ (base.ctx.rings.getD 3 {}).defd = false ∧ ((ring3 ringOne base).ctx.rings.getD 3 {}).defd = true
      ∧ ({ ringOne with msgs := [] } : Ring).msgs.all (·.pad) = true
      ∧ ringOne.msgs.filter (!·.pad) = { line := 2, lines := 1, len := 4 } :: []
      ∧ s.ctx.logOn = false ∧ (s.fir.blk.slots[s.fir.blk.cur]?).isSome = true
      ∧ decode (s.fir.blk.slots.getD 0 { word := 0 }).word = .ok (.krecv 3 toA toB) ∧ s.fir.blk.slots.take s.fir.blk.cur = [] := by decide
theorem witness_PacketsMoveAndArrive :
    let s := flying packet (jobbed (ring3 { ringOne with msgs := [] } base))
    s.dev.packets[0]? = some packet ∧ ({ packet with dst := 0x09 } : Packet).dst ≠ (base.tileOf packet.pos).module ++ packet.pos
      ∧ packet.dst = (s.tileOf packet.pos).module ++ packet.pos ∧ (0x09 : BitVec 32).toNat / 2 ^ 8 = (base.tileOf packet.pos).module.toNat
      ∧ meshStep 0 0x09 = some (1, 1) ∧ (base.tileOf 0).slotPass 1 0 = true ∧ (base.tileOf 0).kerfPass 1 0 = true
      ∧ (base.tileOf 1).kerfPass (oppositePort 1) 0 = true ∧ tX (0 : BitVec 8) < tX 0x09
      ∧ (tX (1 : BitVec 8) = tX 0x09 ∧ tY (1 : BitVec 8) < tY 0x09)
      ∧ (s.dev.slotOf packet.job).isSome = true ∧ s.receiver { packet with dinst := 1 } = none ∧ s.receiver packet = some s.ctx
      ∧ s.ctx.id.present = true ∧ packet.ctx = s.ctx.id.uid ∧ s.ctx.logOn = false ∧ s.mem.wf = true := by decide +kernel
theorem witness_PacketsMoveAndArrive_send :
    let r : Ring := { ringOne with msgs := [] }
    (match r.accept (msgLines packet.body.length) packet.sinst packet.body.length with | some (3, none, _) => true | _ => false) = true
      ∧ r.base % 64 = 0 ∧ r.base + 64 * r.size ≤ base.ctx.winSize
      ∧ sendOne.id = packet.send ∧ sendOne.expired base.ctx = false ∧ sendOne.flying = true
      ∧ sendOne.dinst.toNat < base.instances ∧ sendOne.lost = none := by decide


/-! Class L -/

/-- The key of a place, or the fault detail. -/
def placeKey : Except Refused Loc × State → Option Nat | (.ok (.mem k), _) => some k | _ => none
def placeFault : Except Refused Loc × State → Option (BitVec 12) | (.error (.fault d _), _) => some d | _ => none
def locKey : Except (BitVec 12) Loc × State → Option Nat | (.ok (.mem k), _) => some k | _ => none
def locErr : Except (BitVec 12) Loc × State → Option (BitVec 12) | (.error d, _) => some d | _ => none
theorem witness_LoadReadsItsPlace :
    (issue ⟨0, true⟩ {}).opA.poison = true ∧ (addr 9).opA.poison = false ∧ base.dev.upsets = []
      ∧ (placeKey ((mapped (addr 0x200009)).place .global .rd 0x200009 1)).isSome = true
      ∧ (mapped (addr 0x200009)).updateWaits ((placeKey ((mapped (addr 0x200009)).place .global .rd 0x200009 1)).getD 0) = false
      ∧ placeFault (base.place .global .rd 0xFFFFFFFFFFFFFFF8 8) = some 0x060
      ∧ base.ctx.winSize = 0x100000
      ∧ placeKey (base.place .window .rd 0xFFFF8 8) = some (base.ctx.winKey 0xFFFF8)
      ∧ placeFault (base.place .window .rd 0x100000 8) = some dWINDOW
      ∧ placeFault (base.place .window .rd 0x100001 8) = some dALIGN := by decide +kernel
def hostCtx (s : State) : State := s.onDev fun d => { d with hch := setV d.hch 5 { d.hch.getD 5 {} with ctl := 4 } }
theorem witness_StoreIsHeldThenStoresItsBytes :
    base.who = .core ∧ placeKey ((addr 12).place .window .wr 12 4) = some (base.ctx.winKey 12)
      ∧ (poisonAt 8 base).seen.poisoned (base.ctx.winKey 12) = true ∧ base.seen.poisoned (base.ctx.winKey 12) = false
      ∧ placeFault ((addr 13).place .window .wr 13 4) = some dALIGN ∧ (addr 63).a.toNat < 64 ∧ (hostCtx (addr 5)).hostGiven 5 2 = true ∧ 64 ≤ (addr 64).a.toNat
      ∧ base.ctx.winKey 12 % 4 = 0 ∧ base.ctx.winKey 16 % 8 = 0 ∧ base.mem.wf = true
      ∧ base.mem.poisoned (base.ctx.winKey 12) = false ∧ (poisonAt 8 base).mem.poisoned (base.ctx.winKey 12) = true
      ∧ (lcmd { eff (.st .window .s4 none none) 12 7 with locs := [.mem (base.ctx.winKey 12)] } base).who
        = .cmd { eff (.st .window .s4 none none) 12 7 with locs := [.mem (base.ctx.winKey 12)] } := by decide +kernel
/-- LDV and STV at the last 128 bytes of the window. -/
def lastLanes : State := (lanes [7, 9] []).onBlk fun b => { b with slots := [{ word := 0, expA := true, a := some ⟨0xFFF80, false⟩ }] }
theorem witness_VectorAccessesAndTagTable :
    lastLanes.opA.poison = false ∧ lastLanes.a.toNat % 4 = 0 ∧ lastLanes.a.toNat + 128 = lastLanes.ctx.winSize
      ∧ lastLanes.dev.upsets = [] ∧ (List.range 32).all (fun l => !lastLanes.active 0 l || !lastLanes.updateWaits (lastLanes.ctx.winKey (lastLanes.a.toNat + 4 * l))) = true
      ∧ (List.range 32).all (fun l => !lastLanes.active 0 l || !lastLanes.seen.poisoned (lastLanes.ctx.winKey (lastLanes.a.toNat + 4 * l))) = true
      ∧ (addr 0xFFF81).a.toNat % 4 ≠ 0 ∧ base.ctx.winKey 0xFFF80 % 4 = 0 ∧ base.mem.poisoned (base.ctx.winKey 0xFFF80) = false := by
  decide +kernel
theorem witness_VectorAccessesAndTagTable_tags :
    (addr 0xFFFFFFFFFFFFFF).a.toNat < 2 ^ 56 ∧ 2 ^ 56 ≤ (addr 0x100000000000000).a.toNat
      ∧ hitWay ((base.onCtx tagged).ctx.tagSet (bitsN (0xC0100 : Word) 17 8)) (tagOf 0xC0100) = some 2
      ∧ hitWay (base.ctx.tagSet (bitsN (0xC0100 : Word) 17 8)) (tagOf 0xC0100) = none
      ∧ bitsN (6 : Word) 11 2 = bitsN (0xC0100 : Word) 17 8 ∧ bitsN (9 : Word) 11 2 ≠ bitsN (0xC0100 : Word) 17 8
      ∧ bitsN (0xFFF : Word) 11 2 = bitsN (0x3FF00 : Word) 17 8
      ∧ (0xFFF : Word).toNat < 4096 ∧ 4096 ≤ (0x1000 : Word).toNat
      ∧ (base.ctx.tagSet 0).length = 4 ∧ (base.ctx.tagSet 1023).length = 4
      ∧ (((base.onCtx tagged).ctx.tagSet 1).mapIdx fun i w => i == 2 || !(w.valid && w.tag == 3)).all id = true := by decide +kernel
theorem witness_LoadCommandIsHeldAtIssue :
    base.who = .core
      ∧ ((addr 0xFFFC0).a.toNat % 64 = 0 ∧ (addr 0xFFFC0).a.toNat + 64 ≤ base.ctx.winSize)
      ∧ ¬((addr 0x100000).a.toNat % 64 = 0 ∧ (addr 0x100000).a.toNat + 64 ≤ base.ctx.winSize)
      ∧ ([(0x18 : Word), 0x34, 1].all fun a => decide (a.toNat < 64 ∧ 1 ≤ a.toNat % 16 ∧ a.toNat % 16 ≤ (if 32 ≤ a.toNat then 4 else 8))) = true
      ∧ ([(0x19 : Word), 0x35, 0x40, 0].all fun a => decide (¬(a.toNat < 64 ∧ 1 ≤ a.toNat % 16 ∧ a.toNat % 16 ≤ (if 32 ≤ a.toNat then 4 else 8)))) = true
      ∧ ([(0x7FFF7 : Word), 0].all fun a => decide (a.toNat < 2 ^ 19 ∧ a.toNat / 2 % 8 < 4 ∧ ¬(a.toNat / 2 % 8 = 3 ∧ a.toNat % 2 = 0))) = true
      ∧ ([(0x80000 : Word), 8, 6].all fun a => decide (¬(a.toNat < 2 ^ 19 ∧ a.toNat / 2 % 8 < 4 ∧ ¬(a.toNat / 2 % 8 = 3 ∧ a.toNat % 2 = 0)))) = true
      ∧ (7 : Word).toNat < 8 ∧ ¬(8 : Word).toNat < 8 ∧ (0xFFFFFFFF : Word).toNat < 2 ^ 32 := by decide +kernel
theorem witness_LoadCommandIsHeldAtIssue_rings :
    (let ok (a : Word) : Bool := a.toNat < 2 ^ 41 && (!a.getLsbD 40 || (bitsN a 5 0 == 0 && decide (4 ≤ bitsN a 38 24)
        && decide (bitsN a 38 24 ≤ 16384) && decide (bitsN a 23 0 + 64 * bitsN a 38 24 ≤ base.ctx.winSize)))
     ok 0x140000FFF00 = false ∧ ok 0x100040FFF00 = true ∧ ok 0x14000000000 = true ∧ ok 0x10003000040 = false ∧ ok 0 = true)
      ∧ (let ok (a : Word) : Bool := a.toNat < 2 ^ 17 && decide (bitsN a 16 15 ≤ 1) && decide (bitsN a 14 10 <
            (if bitsN a 9 8 = 0 then 32 else if bitsN a 9 8 = 1 then 8 else if bitsN a 9 8 = 2 then 1 else 2))
         ok 0x7C00 = true ∧ ok 0x1D00 = true ∧ ok 0x2100 = false ∧ ok 0x200 = true ∧ ok 0x600 = false ∧ ok 0x700 = true
          ∧ ok 0xB00 = false ∧ ok 0x10000 = false) := by decide +kernel
theorem witness_StreamCommandsApply :
    let t : Machine.Stream := { st := .idle, desc := rows42 }
    (str false 2 4 []).st.live = true ∧ ({} : Machine.Stream).st = .undef ∧ ({} : Machine.Stream).st.live = false
      ∧ Stream.fieldsOk t = true ∧ Stream.fieldsOk { t with desc := rows42.set 2 0x0001000100020000 } = false ∧ t.mode = 0
      ∧ [true].any (· == true) = true
      ∧ streamWrite (str false 2 4 []) = false ∧ (str false 2 4 []).mode = 0 ∧ streamEsz (str false 2 4 []) = 2
      ∧ (str false 2 4 []).n 1 = 1 ∧ (str false 2 4 []).n 2 = 1 ∧ (str false 2 4 []).n 3 = 1
      ∧ streamWrite (str true 2 4 []) = true ∧ (str true 2 4 []).used < streamCount (str true 2 4 [])
      ∧ streamCount (str true 2 4 []) ≤ ({ str true 2 4 [] with used := 4 } : Machine.Stream).used
      ∧ (str true 2 4 []).claim = none
      ∧ (issueW (.ldg 9 toA toB) {} {}).ctx.logOn = false
      ∧ decode ((issueW (.ldg 9 toA toB) {} {}).fir.blk.slots.getD 0 { word := 0 }).word = .ok (.ldg 9 toA toB)
      ∧ (issueW (.ldg 9 toA toB) {} {}).fir.blk.slots.take (issueW (.ldg 9 toA toB) {} {}).fir.blk.cur = [] := by decide +kernel
theorem witness_StreamElementMoves :
    let t : Machine.Stream := { st := .run, desc := rows42, k := 5 }
    t.accesses = 8 ∧ ({ t with k := 8 } : Machine.Stream).accesses ≤ 8 ∧ t.buf.length < 128 ∧ t.mode = 0 ∧ t.win = true ∧ t.gv = false
      ∧ t.bed = none ∧ ((withStream 9 t base).ctx.portSet t).rd.kind = 0 ∧ (withStream 9 t base).ctx.engineOnly 9 = false
      ∧ locKey ((withStream 9 t base).window 0x148 t.size, base) = some (base.ctx.winKey 0x148)
      ∧ (match base.window 0x100000 4 with | .error d => some d | _ => none) = some dWINDOW
      ∧ (match base.window 0x149 4 with | .error d => some d | _ => none) = some dALIGN
      ∧ (base.ctx.portSet (str true 2 4 [])).wr.kind = 0 ∧ (base.ctx.portSet (str true 2 4 [])).merge = none
      ∧ (str true 2 4 []).size ≤ 8 ∧ (str true 3 4 []).size = 8 ∧ (str true 2 4 []).mode = 0 ∧ (str true 2 4 []).win = true
      ∧ (str true 2 4 []).gv = false := by decide +kernel
theorem witness_PortAndRingCommandsApply :
    base.ctx.liveOn 2 true = [] ∧ base.ctx.liveOn 2 false = []
      ∧ (withStream 9 { st := .run, desc := rows42 } base).ctx.liveOn 0 false ≠ []
      ∧ (withStream 9 (str true 2 4 []) base).ctx.liveOn 0 true ≠ []
      ∧ ((ring3 ringOne base).ctx.rings.getD 3 {}).msgs.any (!·.pad) = true
      ∧ (base.ctx.rings.getD 3 {}).msgs.any (!·.pad) = false
      ∧ base.ctx.id.present = true ∧ (0x7C00 : Word).toNat < 2 ^ 17 ∧ bitsN (0x7C00 : Word) 1 0 = base.ctx.id.num.toNat
      ∧ bitsN (0x7C00 : Word) 7 2 = 0 ∧ base.ctx.portHeld 0 31 = false ∧ bitsN (0x7C00 : Word) 9 8 = 0 ∧ bitsN (0x7C00 : Word) 14 10 = 31
      ∧ (let s := withStream 31 { st := .held, desc := rows42, hold := some ⟨0x64, 0, 0⟩ } base
         (s.ctx.streams.getD 31 {}).st = .held ∧ s.ctx.portHeld 0 31 = true) ∧ (0x7C00 : Word).getLsbD 15 = false
      ∧ (base.ctx.rings.getD 3 {}).defd = false ∧ ((ring3 ringOne base).ctx.rings.getD 3 {}).defd = true := by decide +kernel
def handed : State := lcmd { eff (.amo .add .d none none) 0 3 with locs := [.mem (base.ctx.winKey 16)], ws := [3], wp := [false] } base
theorem witness_AtomicsAreHeldAndHandedOver :
    locKey (base.amoPlace 0x4000000000000010 0 8) = some (base.ctx.winKey 16) ∧ locErr (base.amoPlace 0x8000000000000000 0 8) = some 0x060
      ∧ amoReturns .add = false
      ∧ ([AmoOp.add, .min, .max, .and, .or, .xor, .swap].any amoReturns) = true
      ∧ ((0xFFFE0 : Word).toNat % 32 = 0 ∧ (0xFFFE0 : Word).toNat + 32 ≤ base.ctx.winSize)
      ∧ ¬((0xFFFF0 : Word).toNat % 32 = 0 ∧ (0xFFFF0 : Word).toNat + 32 ≤ base.ctx.winSize)
      ∧ (let a : Word := 0x4000000000000100
         a.toNat % 4 = 0 ∧ a.getLsbD 63 = false ∧ bitsN a 61 56 = 0 ∧ a.getLsbD 62 = true
          ∧ (List.range 32).all (fun l => !(lanes [2, 5] []).active 0 l || (!(lanes [2, 5] []).vp 0 1 l
              && decide (bitsN a 55 0 + 4 * ((lanes [2, 5] []).vl 0 1 l).toNat < base.ctx.winSize))) = true)
      ∧ noLanes.activeLanes 0 = [] ∧ (lanes [2, 5] []).activeLanes 0 ≠ []
      ∧ (base.usu (unitOf (base.ctx.winKey 16))).window.length < 32
      ∧ 32 ≤ ((atUnit (List.replicate 32 (upd .add .d 1)) base).usu (unitOf (base.ctx.winKey 16))).window.length
      ∧ (match handed.who with | .cmd e => e.fix == false && e.locs == [.mem (base.ctx.winKey 16)] | _ => false) = true := by
  decide +kernel
theorem witness_UpdatesApplyToTheirWord :
    let s := atUnit [upd .add .w 5, upd .add .w 9] base
    let n := unitOf (base.ctx.winKey 16)
    (s.usu n).window = [upd .add .w 5, upd .add .w 9] ∧ (s.usu n).num = n ∧ (upd .add .w 9).overtaken < 32
      ∧ (upd .add .w 5).ret = none ∧ (upd .add .w 5).cas = false ∧ (upd .add .w 5).subs = [] ∧ (s.ctxOf 0).any (·.logOn) = false
      ∧ s.dev.upsets = [] ∧ s.mem.wf = true ∧ (upd .add .w 5).key % amoSize .w = 0
      ∧ s.mem.poisoned (upd .add .w 5).key = false ∧ (poisonAt 16 s).mem.poisoned (upd .add .w 5).key = true
      ∧ (upd .add .w 5).like (upd .add .w 9) = true ∧ (upd .add .w 9).like (upd .add .w 5) = true ∧ (upd .add .w 5).ord = false
      ∧ (let x : Update := { upd .swap .d 7 with cas := true }
         x.ty = .d ∧ x.key % 8 = 0 ∧ s.mem.poisoned x.key = false ∧ BitVec.ofNat 64 (s.mem.read (s.dev.keyAt x.keyslot.toNat x.key) x.key 8) = 0)
      ∧ s.closing (s.usu n) = []
      ∧ (let c := base.onUsu n fun u => { u with order := [{ upd .add .d 3 with fixed := true }], closes := [(0, [0], 1)] }
         c.closing (c.usu n) = [0] ∧ ((c.usu n).closes.flatMap (·.2.1)).all (fun x => !(c.ctxOf x).any (·.logOn)) = true
          ∧ (c.usu n).num = n) := by decide +kernel


/-! ### Waits, barriers, class Y (05 R111 to R134; 13 R270 to R284; 12 R261, R262) -/

/-- Slot 0 holds the instruction, its operands and a pending wait. -/
def pending (i : Instr) (a b : Word) (on : Await) (e : Nat) : State := (issueW i ⟨a, false⟩ ⟨b, false⟩).onBlk fun x => { x with
  slots := modAt x.slots 0 fun y => { y with st := .pend, wait := some { on := on, expiry := some e } } }
def slotWait (i : Instr) (s : State) : Option Wait := ((after i s).fir.blk.slots[0]?).bind (·.wait)
def both (i : Instr) (a b : Word) : State := issueW i ⟨a, false⟩ ⟨b, false⟩
def atBudget (n : Word) (s : State) : State := s.onCsr fun c => { c with budget := n }
def withFlags (f : Half) (s : State) : State := s.onFir fun r => { r with flags := f }
def waitAny : Instr := .waitf .any toA toB
/-- What slot 1 holds at A and B. -/
def sent (s : State) : Option Word × Option Word :=
  let y := s.fir.blk.slots.getD 1 { word := 0 }
  (y.a.map (·.val), y.b.map (·.val))
theorem test_waitf_now : gots waitAny (withFlags 0x30 (both waitAny 0x10 5)) = (some 0x300000, some 0x300000) := by decide
theorem test_waitf_pends : slotWait (.waitf .all toA toB) (withFlags 0x10 (both (.waitf .all toA toB) 0x30 5))
    = some { on := .flag .all 0x30, expiry := some 5 } := by decide
theorem test_wait_evaluation : gots .waitEvaluation (withFlags 2 (pending waitAny 2 5 (.flag .any 2) 5)) = (some 0x20000, some 0x20000) := by
  decide
/-- At its expiry the wait returns TIMEOUT with F, and TOCNT counts it; DEADLINE_EXPIRY acts from 0 to 16 cycles after it. -/
theorem test_deadline_expiry : let s := atBudget 21 (withFlags 1 (pending waitAny 2 5 (.flag .any 2) 5))
    (sent (s.expireWait 0), (s.expireWait 0).ctx.csr.tocnt) = ((some 0x10001, some 0x10001), 1) := by decide
theorem test_deadline_escalates : let s := (atBudget 21 (pending waitAny 2 5 (.flag .any 2) 5)).onCsr fun c => { c with escn := 3, tocnt := 2 }
    (sent (s.expireWait 0), (s.expireWait 0).ctx.csr.tocnt) = ((some 0x1A, some 0x1A), 0) := by decide
def kw : Instr := .kwait toA toB
def record (tag : Nat) : Rec := { status := 0x55, info := BitVec.ofNat 64 (tag * 2 ^ 43) }
theorem test_kwait : gots kw ((both kw 5 9).onSync fun y => { y with evq := [record 8, record 9] }) = (some 0x55, some 0x480000000000) := by
  decide
theorem test_kwait_tag : faultsOf kw (both kw 5 128) = [(6, 0x030, 128)] := by decide
def kq : Instr := .kevq toA toB
theorem test_kevq : gots kq ((both kq 5 0).onSync fun y => { y with evq := [record 8, record 9] }) = (some 0x55, some 0x400000000000) := by decide
theorem test_evq_delivery : (after .evqRecordDelivery (base.onSync fun y => { y with seq := 7, evqHeld := [record 1] })).ctx.sync.evq.map
    (·.info) = [0x80000000007] := by decide
theorem test_fifo_push : (after (.dependenceFifoPush 2) (base.onSync fun y => { y with pushes := [⟨2, {}⟩], q := setV y.q 2 15 })).ctx.sync.q.getD 2 0 = 16 := by
  decide
theorem test_fifo_push_full : (after (.dependenceFifoPush 2) (base.onSync fun y => { y with pushes := [⟨2, {}⟩], q := setV y.q 2 16 })).ctx.sync.pushes = [⟨2, {}⟩] := by
  decide

/-! Barriers: the object of the window at 0x40, members 0 to 2, scope 4, phase 7 -/

def barrier (arr drops : Word) (s : State) : State := winWords 0x40 [7, arr, drops, 0x0000000700000040] s
def ref (m : Nat) : Word := BitVec.ofNat 64 (2 ^ 62 + m * 2 ^ 56 + 0x40)
def obj (s : State) : BarObj := s.mem.bar none (base.ctx.winKey 0x40)
def asked (op : BarOp) (m : Nat) (s : State) : State := s.onDev fun d => { d with barQ :=
  [{ op := op, ref := ref m, key := base.ctx.winKey 0x40, m := BitVec.ofNat 6 m, ctx := s.ctx.id.uid, fir := s.fir.id, slot := 0, keyslot := 0 }] }
def replies (i : Instr) (s : State) : List Word := (after i s).ctx.sync.replies.map (·.2.2)
def baraI : Instr := .bara toA toB
theorem test_bara : (after baraI (both baraI (ref 1) 0)).dev.barQ.map (fun r => (r.op, r.m, r.key))
    = [(.arrive false, 1, base.ctx.winKey 0x40)] := by decide
theorem test_bara_reserved : faultsOf baraI (addr 0x8000000000000040) = [(6, 0x030, 0x8000000000000040)] := by decide
theorem test_bard : (after (.bard toA toB) (both (.bard toA toB) (ref 1) 0)).dev.barQ.map (·.op) = [.arrive true] := by decide
theorem test_baraw : slotWait (.baraw toA toB) (both (.baraw toA toB) (ref 1) 5)
    = some { on := .reply (base.ctx.winKey 0x40), expiry := some 5 } := by decide
theorem test_barw : (after (.barw toA toB) (both (.barw toA toB) (ref 1) 5)).dev.barQ.map (·.op) = [.sample] := by decide
theorem test_barw_deadline : faultsOf (.barw toA toB) (both (.barw toA toB) (ref 1) 0x8000000000000002) = [(6, 0x0C6, 0x8000000000000002)] := by
  decide
theorem test_bart : (after (.bart toA toB) (both (.bart toA toB) (ref 0) 0)).dev.barQ.map (·.op) = [.read] := by decide
theorem test_bart_member : faultsOf (.bart toA toB) (addr (ref 1)) = [(6, 0x030, 0x4100000000000040)] := by decide
theorem test_bari : (after (.bari .s4) (lcmd { eff (.bari .s4) (ref 0) 7 with locs := [.mem (base.ctx.winKey 0x40)] } base)).dev.barQ.map (·.op)
    = [.init 7 4 true] := by decide
theorem test_bari_held : (after (.bari .s4) (op2 (ref 0) 7)).fir.blk.effs.map (·.locs) = [[.mem (base.ctx.winKey 0x40)]] := by decide
theorem test_arrival_noted : let s := asked (.arrive true) 1 (barrier 1 0 base)
    let t := after .barrierArrival s
    ((obj t).arr, (obj t).drops, replies .barrierArrival s) = (3, 2, [0x70000]) := by decide +kernel
/-- The last arrival completes the phase; the leaver is gone. -/
theorem test_arrival_completes : let t := after .barrierArrival (asked (.arrive false) 2 (barrier 3 2 base))
    ((obj t).live, (obj t).arr, (obj t).drops, (obj t).w3) = (5, 0, 0, 0x0000000800000040) := by decide +kernel
theorem test_arrival_over : replies .barrierArrival (asked (.arrive false) 0 (barrier 1 0 base)) = [15] := by decide +kernel
theorem test_init_busy : refusals .barrierArrival (asked (.init 1 4 true) 0 (barrier 1 0 base)) = [0x105] := by decide +kernel
theorem test_withdraw : let s := asked (.withdraw 7) 1 (barrier 3 2 base)
    ((obj (after .barrierWithdrawal s)).arr, replies .barrierWithdrawal s) = (1, [0x70002]) := by decide +kernel
theorem test_withdraw_late : replies .barrierWithdrawal (asked (.withdraw 6) 1 (barrier 3 2 base)) = [0x70003] := by decide +kernel
theorem test_bara_returns : let s := ((pending baraI (ref 1) 0 (.reply (base.ctx.winKey 0x40)) 5).onBlk fun b => { b with hdr := 0xB0000400 }).onSync fun y => { y with
      replies := [(base.fir.id, 0, 0x70000)] }
    (gots .waitEvaluation s, (after .waitEvaluation s).ctx.sync.arr.map (·.p)) = ((some 0x70000, some 0x70000), [7]) := by decide

/-! Fences, FIFOs, flags, quiet, children -/

def fenceI : Instr := .fence .s4 toA toB
theorem test_fence : gots fenceI (both fenceI 0x3F 5) = (some 0x3F0000, some 0x3F0000) := by decide +kernel
/-- A store not yet applied belongs to class 1: the fence of classes 1 and 8 returns PARTIAL with 8 at its expiry. -/
theorem test_fence_partial : let s := (pending fenceI 9 5 (.fence 9 4 1 {}) 5).onCtx fun c => { c with
      lq := [{ eff (.st .window .s8 none none) 0 0 with ser := 3 }] }
    (slotWait fenceI ((both fenceI 9 5).onCtx fun _ => { s.ctx with ser := 4 }), sent ((atBudget 21 s).expireWait 0))
      = (some { on := .fence 9 4 1 {}, expiry := some 5 }, (some 0x80004, some 0x80004)) := by decide +kernel
theorem test_fence_mask : faultsOf fenceI (both fenceI 0x40 5) = [(6, 0x030, 0x40)] := by decide
def fifo (n : Nat) (e : Eff) : State := let s := base.onSync fun y => { y with fifo := [e], q := setV y.q 3 n }
  { s with who := .cmd e }
theorem test_dput : (after (.dput 3) (fifo 4 { eff (.dput 3) 0 0 with started := true })).ctx.sync.q.getD 3 0 = 5 := by decide
theorem test_dput_range : faultsOf (.dput 3) (op2 0 1) = [(6, 0x030, 1)] := by decide
theorem test_dput_full : refusals (.dputCeilingTimeout 3) (atBudget 16 (fifo 16 { eff (.dput 3) 0 0 with started := true, since := some 0 })) = [7] := by
  decide
theorem test_dget : (after (.dget 3) (fifo 4 { eff (.dget 3) 0 0 with started := true })).ctx.sync.q.getD 3 0 = 3 := by decide
theorem test_dget_timeout : refusals (.dget 3) (atBudget 9 (fifo 0 { eff (.dget 3) 0 0 with started := true, ws := [9] })) = [1] := by decide
theorem test_setf : (after (.setf false) (lcmd (eff (.setf false) 0x80000001 0) (withFlags 2 base))).fir.flags = 0x80000003 := by decide
theorem test_clrf_all : ((after (.clrf true) (lcmd (eff (.clrf true) 1 0) (base.onCtx fun c => { c with
    firs := [{ id := 9, flags := 7 }] }))).ctx.firs.map (·.flags)) = [6] := by decide
theorem test_setf_range : faultsOf (.setf true) (addr 0x100000000) = [(6, 0x030, 0x100000000)] := by decide
/-- Job 0 in job slot 3, with counters at the network interface of tile 0. -/
def counted (c : Counters) (s : State) : State := (s.onDev fun d => { d with jobs := setV d.jobs 3 { active := true } }).onTile fun t => { t with
  net := setV t.net 3 c }
def qwaitI : Instr := .qwait toA toB
theorem test_qwait : (after qwaitI (counted {} (both qwaitI 0x10000 5))).dev.quietReqs.map (·.job) = [0] := by decide
theorem test_qwait_nojob : gots qwaitI (both qwaitI 0x10000 5) = (some 0x925, some 0x925) := by decide
theorem test_qwait_perm : gots qwaitI (both qwaitI 1 5) = (some 0x935, some 0x935) := by decide
theorem test_qstat : got (.qstat .net .woff toA none) (counted { inj := 5, con := 3, woff := 2, act := true } (addr 0x10000))
    = some ⟨0x0000C00000000002, false⟩ := by decide
def quietAsk : QReq := { ctx := base.ctx.id.uid, fir := base.fir.id, slot := 0, job := 0 }
theorem test_quiet_request : (after .quietRequest (base.onDev fun d => { d with quietReqs := [quietAsk] })).dev.quietWait = [quietAsk] := by decide
theorem test_wave_start : let t := after .waveStart (counted { inj := 5, con := 5, act := true } (base.onDev fun d => { d with quietWait := [quietAsk] }))
    ((t.dev.wave.map fun p => (p.getD 3 {}).inj), (t.tile.net.getD 3 {}).act) = (some 5, false) := by decide +kernel
/-- Pass 1 with the given sums; the interface now has INJ 5, CON 3, WOFF 2. -/
def wave (c : Counters) : State := counted { inj := 5, con := 3, woff := 2 } (base.onDev fun d => { d with
  quietWait := [{ quietAsk with counts := true }], wave := some (setV (Vector.replicate 16 {}) 3 c) })
theorem test_quiet_loss : replies .quietDecision (wave { inj := 5, con := 3, woff := 2, act := true }) = [0x20009] := by decide +kernel
theorem test_quiet_busy : replies .quietDecision (wave { inj := 4, con := 3, woff := 2 }) = [] := by decide +kernel
/-- Slot 3 of a job that has ended, the other slots in use, and a restore in progress. -/
def slotsUsed (c : Counters) : State := (counted c base).onDev (fun d => { d with
  jobs := setV (Vector.replicate 16 { active := true, job := 9 }) 3 { dirty := true } }) |>.onCtx fun c => { c with
  zq := [{ eff .ctxload 0 0 with started := true }] }
theorem test_clearing_wave : (after (.clearingWave 3) (slotsUsed { inj := 5 })).tile.net.getD 3 {} = {} := by decide +kernel
theorem test_clearing_wave_early : (after (.clearingWave 3) ((slotsUsed { inj := 5 }).onCtx fun c => { c with zq := [] })).tile.net.getD 3 {}
    = { inj := 5 } := by decide +kernel
theorem test_spawn : let s := issueW (.spawn false toA toB) ⟨0x200040, false⟩ {}
    (gots (.spawn false toA toB) (s.onSync fun y => { y with children := setV y.children 0 { isOpen := true } })) = (some 0x10000, some 0x10000) := by
  decide
theorem test_spawn_align : faultsOf (.spawn false toA toB) (addr 0x200008) = [(6, 0x030, 0x200008)] := by decide
theorem test_kill_handle : refusals (.kill false) (let e := { eff (.kill false) 5 0 with started := true }
    { base.onCtx fun c => { c with zq := [e] } with who := .cmd e }) = [0x905] := by decide
theorem test_kill_range : faultsOf (.kill false) (op2 64 0) = [(6, 0x030, 64)] := by decide
def joinI : Instr := .join toA toB
def child (c : Child) (s : State) : State := s.onSync fun y => { y with children := setV y.children 5 c }
theorem test_join : gots joinI (child { isOpen := true, set := some 2, ended := true } (both joinI 5 9)) = (some 0, some 0) := by decide
theorem test_join_rejected : gots joinI (child { isOpen := true, rejected := some 0x925 } (both joinI 5 9)) = (some 0x925, some 0x925) := by decide
theorem test_join_nohandle : gots joinI (both joinI 5 9) = (some 0x50905, some 0x50905) := by decide
theorem test_yield : (after .yield (lcmd (eff .yield 0 0) base)).fir.yielded = true := by decide
theorem test_copy_port_timeout : ((after (.copyPortFullTimeout 0) (atBudget 17 ((withCfg 2 copyFull base).onCtx fun c => { c with
    chans := setV c.chans 2 { queue := List.replicate 16 oneBlock } }))).ctx.cfg 2).map
    (fun g => (g.fault, g.ports.map (·.faulted))) = some (some (0, 0x0B3), [true]) := by decide +kernel


/-! Waits, barriers and class Y -/

theorem witness_WaitsReturnOrPend :
    let s := withFlags 2 (both waitAny 2 5)
    s.ctx.logOn = false ∧ (s.fir.blk.slots[s.fir.blk.cur]?).isSome = true
      ∧ decode (s.fir.blk.slots.getD s.fir.blk.cur { word := 0 }).word = .ok waitAny ∧ s.pAB = false
      ∧ s.deadline s.b = .at 5 ∧ base.deadline 0x8000000000000002 = .illegal ∧ base.deadline 0x8000000000000000 = .poll
      ∧ base.deadline 0x8000000000000001 = .at 16 ∧ s.a.toNat < 2 ^ 32 ∧ 2 ^ 32 ≤ (addr 0x100000000).a.toNat
      ∧ flagHolds .any s.fir.flags s.aw = true ∧ flagHolds .any (both waitAny 1 5).fir.flags (both waitAny 1 5).aw = false
      ∧ decode ((both kw 5 127).fir.blk.slots.getD 0 { word := 0 }).word = .ok kw ∧ (both kw 5 127).b.toNat < 128 ∧ 128 ≤ (both kw 5 128).b.toNat
      ∧ [record 8, record 9].find? (fun r => bitsN r.info 49 43 == 9) = some (record 9)
      ∧ [record 8].all (fun r => bitsN r.info 49 43 != 9) = true
      ∧ decode ((both kq 5 0).fir.blk.slots.getD 0 { word := 0 }).word = .ok kq ∧ base.ctx.sync.evq = []
      ∧ (both kq 5 0).fir.blk.slots.take (both kq 5 0).fir.blk.cur = [] := by decide +kernel
def ldh : Instr := .ld .host false .s8 toA toB
theorem witness_WaitsReturnOrPend_host :
    let s := (both ldh 63 5).onDev fun d => { d with hch := setV d.hch 63 { d.hch.getD 63 {} with ctl := 2 } }
    decode (s.fir.blk.slots.getD 0 { word := 0 }).word = .ok ldh ∧ s.pAB = false ∧ s.deadline s.b = .at 5
      ∧ s.a.toNat < 64 ∧ s.hostGiven (s.a.setWidth 6) 1 = true ∧ (both ldh 63 5).hostGiven 63 1 = false ∧ 64 ≤ (both ldh 64 5).a.toNat
      ∧ (s.dev.hch.getD s.a.toNat {}).ready = [] ∧ bitsN (0 : Word) 2 0 = 0
      ∧ decode ((both joinI 63 5).fir.blk.slots.getD 0 { word := 0 }).word = .ok joinI ∧ (both joinI 63 5).a.toNat < 64
      ∧ (base.ctx.sync.children.getD 63 {}).isOpen = false ∧ base.childStatus { isOpen := true } = none
      ∧ base.childStatus { isOpen := true, set := some 2, ended := true } = some 0 ∧ codeOf 0 = 0
      ∧ base.childStatus { isOpen := true, rejected := some 0x925 } = some 0x925 ∧ codeOf 0x925 = 5
      ∧ decode ((both fenceI 0x3F 5).fir.blk.slots.getD 0 { word := 0 }).word = .ok fenceI
      ∧ fenceOk .s4 0x3F = true ∧ fenceOk .s4 0x40 = false ∧ fenceOk .s0 0x1F3F = true ∧ fenceOk .s0 0x203F = false := by decide +kernel
theorem witness_WaitsReturnOrPend_fence :
    let w (s : State) : Nat := (s.setWait 0 { on := .fence 9 4 1 {}, expiry := some 5 }).drainedMask 9 4 1 {}
    w (both fenceI 9 5) = 9 ∧ w ((both fenceI 9 5).onCtx fun c => { c with
      lq := [{ eff (.st .window .s8 none none) 0 0 with ser := 4 }] }) = 8
      ∧ w ((both fenceI 9 5).onCtx fun c => { c with lq := [{ eff (.st .window .s8 none none) 0 0 with ser := 5 }] }) = 9 := by
  decide +kernel
theorem witness_WaitsEndByConditionOrDeadline :
    let s := atBudget 21 (withFlags 2 (pending waitAny 2 5 (.flag .any 2) 5))
    s.fir.phase = .run ∧ s.runs = true ∧ s.fir.blk.faulted = false ∧ s.ctx.logOn = false
      ∧ (s.fir.blk.slots[0]?).bind (·.wait) = some { on := .flag .any 2, expiry := some 5 }
      ∧ (s.fir.blk.slots.drop 1).all (·.wait.isNone) = true
      ∧ decode (s.fir.blk.slots.getD 0 { word := 0 }).word = .ok waitAny
      ∧ flagHolds .any s.fir.flags 2 = true ∧ flagHolds .any (withFlags 1 s).fir.flags 2 = false
      ∧ 5 + 16 ≤ s.ctx.csr.budget.toNat ∧ (atBudget 4 s).ctx.csr.budget.toNat < 5
      ∧ bitsN s.ctx.csr.escn 15 0 = 0 ∧ (let c : Csrs := { s.ctx.csr with escn := 3, tocnt := 2 }
          bitsN c.escn 15 0 ≠ 0 ∧ bitsN c.escn 15 0 ≤ bitsN c.tocnt 15 0 + 1)
      ∧ phaseAt (barrier 1 0 base).mem ((barrier 1 0 base).kvOf (barrier 1 0 base).who4 (base.ctx.winKey 0x40)) (base.ctx.winKey 0x40) = 7 := by decide +kernel
theorem witness_WaitsEndByConditionOrDeadline_fence :
    let s := (pending fenceI 9 5 (.fence 9 4 1 {}) 5).onCtx fun c => { c with lq := [{ eff (.st .window .s8 none none) 0 0 with ser := 3 }] }
    s.drainedMask 9 4 1 {} ≠ (9 : BitVec 6).toNat ∧ s.drainedMask 9 4 1 {} ≠ 0
      ∧ decode (s.fir.blk.slots.getD 0 { word := 0 }).word = .ok fenceI := by decide +kernel
/-- Sixteen arrivals stand in the table. -/
def tableFull (s : State) : State := s.onSync fun y => { y with
  arr := (List.range 16).map fun i => ⟨BitVec.ofNat 64 (i * 64), 0, 0⟩ }
theorem witness_BarrierFormsAndHome :
    let s := barrier 1 0 (both baraI (ref 1) 5)
    s.opA.poison = false ∧ s.a.getLsbD 63 = false ∧ (addr 0x8000000000000000).a.getLsbD 63 = true
      ∧ (match s.barPlace s.a .wr with | (.ok key, _) => key == base.ctx.winKey 0x40 | _ => false) = true
      ∧ (match s.barPlace s.a .rd with | (.ok key, _) => key == base.ctx.winKey 0x40 | _ => false) = true
      ∧ (match s.barPlace 0x4000000000100000 .wr with | (.error d, _) => d == dWINDOW | _ => false) = true
      ∧ s.arrRoom s.a = true ∧ (tableFull s).arrRoom s.a = false
      ∧ decode (s.fir.blk.slots.getD 0 { word := 0 }).word = .ok baraI ∧ s.deadline s.b = .at 5 ∧ refM (ref 0) = 0
      ∧ s.dev.barQ = [] ∧ s.ctx.id.present = true ∧ s.fir.id = (asked .read 0 s).fir.id
      ∧ (obj s).bad (refWin (ref 1)) = false ∧ (obj (barrier 8 0 base)).bad (refWin (ref 1)) = true
      ∧ (obj s).live.getLsbD 2 = true ∧ (obj s).arr.getLsbD 2 = false ∧ (obj s).arr.getLsbD 0 = true ∧ (obj s).live.getLsbD 63 = false
      ∧ (obj s).arr ≠ 0 ∧ (obj (barrier 0 0 base)).arr = 0 ∧ (obj s).phase = 7 ∧ (obj s).phase ≠ 6
      ∧ s.mem.wf = true ∧ base.ctx.winKey 0x40 % 32 = 0 := by decide +kernel
theorem witness_BarrierFormsAndHome_return :
    let s := ((pending baraI (ref 1) 0 (.reply (base.ctx.winKey 0x40)) 5).onBlk fun b => { b with hdr := 0xB0000400 }).onSync fun y => { y with replies := [(base.fir.id, 0, status 0 0 7)] }
    s.fir.phase = .run ∧ s.runs = true ∧ s.fir.blk.faulted = false ∧ s.ctx.logOn = false
      ∧ (s.fir.blk.slots.drop 1).all (·.wait.isNone) = true ∧ s.ctx.sync.replies = [(s.fir.id, 0, status 0 0 7)] ∧ (7 : Nat) < 2 ^ 32
      ∧ decode (s.fir.blk.slots.getD 0 { word := 0 }).word = .ok baraI := by decide +kernel
theorem witness_FifosFlagsAndEventQueue :
    let e := { eff (.dput 3) 0 0 with started := true, since := some 0 }
    let g := { eff (.dget 3) 0 0 with started := true, ws := [9] }
    base.who = .core ∧ (issue {} ⟨0, true⟩).opB.poison = true ∧ bitsN (op2 5 0xFFFF000000000000).b 47 0 = 0 ∧ bitsN (op2 5 1).b 47 0 ≠ 0
      ∧ (op2 5 0).deadline (op2 5 0).a = .at 5 ∧ (op2 5 0).pAB = false
      ∧ (fifo 15 e).who = .cmd e ∧ (fifo 15 e).ctx.sync.fifo = [e] ∧ (fifo 15 e).ctx.sync.q.getD 3 0 < 16 ∧ 16 ≤ (fifo 16 e).ctx.sync.q.getD 3 0
      ∧ 0 + e.since.getD 0 + (fifo 16 e).ctx.csr.dceil.toNat ≤ (atBudget 16 (fifo 16 e)).ctx.csr.budget.toNat
      ∧ (eff (.dput 3) 0 0).started = false ∧ cwPop (eff (.dput 3) 0 0).cw = false
      ∧ (fifo 1 g).ctx.sync.q.getD 3 0 ≠ 0 ∧ (fifo 0 g).ctx.sync.q.getD 3 0 = 0
      ∧ (atBudget 8 (fifo 0 g)).ctx.csr.budget.toNat < (9 : Word).toNat ∧ (9 : Word).toNat ≤ (atBudget 9 (fifo 0 g)).ctx.csr.budget.toNat
      ∧ effFifo (eff (.dget 3) 5 0) = (3 : BitVec 3).toNat ∧ eff (.dget 3) 5 0 ≠ e
      ∧ base.ctx.logOn = false ∧ base.ctx.sync.evq.length < 256 ∧ base.ctx.sync.evqHeld = []
      ∧ 256 ≤ (List.replicate 256 (record 0)).length
      ∧ (addr 0xFFFFFFFF).a.toNat < 2 ^ 32 ∧ 2 ^ 32 ≤ (addr 0x100000000).a.toNat := by decide +kernel
theorem witness_QuietWavesCountMessages :
    let s := counted {} (both qwaitI 0x10000 5)
    s.pAB = false ∧ s.deadline s.b = .at 5 ∧ bitsN s.a 63 17 = 0 ∧ s.a.getLsbD 16 = true ∧ bitsN s.a 15 0 = 0
      ∧ ¬(bitsN (0x20000 : Word) 63 17 = 0) ∧ ((0x10001 : Word).getLsbD 16 = true ∧ bitsN (0x10001 : Word) 15 0 ≠ 0)
      ∧ s.ctx.logOn = false ∧ decode (s.fir.blk.slots.getD 0 { word := 0 }).word = .ok qwaitI ∧ s.ctx.id.sup = false
      ∧ (1 : BitVec 16) ≠ s.ctx.id.job ∧ s.dev.slotOf s.ctx.id.job = some 3 ∧ base.dev.slotOf base.ctx.id.job = none
      ∧ s.ctx.sync.replies = [] ∧ s.dev.quietReqs = [] ∧ s.dev.wave = none ∧ s.waveRipe = true
      ∧ (s.onDev fun d => { d with waveAge := some 4095 }).waveRipe = false
      ∧ (s.dev.jobs.getD 3 {}).active = true ∧ (s.dev.jobs.getD 4 {}).dirty = false := by decide +kernel
theorem witness_QuietWavesCountMessages_decision :
    let s := wave { inj := 5, con := 3, woff := 2 }
    let a := (s.dev.wave.getD (Vector.replicate 16 {})).getD 3 {}
    let b := s.sums 3
    s.dev.quietWait = [{ quietAsk with counts := true }] ∧ s.dev.slotOf quietAsk.job = some 3 ∧ s.ctx.id.present = true
      ∧ quietAsk.ctx = s.ctx.id.uid ∧ a.inj = b.inj ∧ a.con = b.con ∧ a.woff = b.woff ∧ b.inj = b.con + b.woff ∧ b.act = false
      ∧ ((wave { inj := 4 }).dev.wave.getD (Vector.replicate 16 {})).getD 3 {} ≠ b := by decide +kernel
/-- A record of one level: one tile of the die, policy PACK, for job 0. -/
def oneTile (s : State) : State := wordsAt 0x200000 ([0x0000000001000101, 0x200000, 0, 0x100000000, 0x00010041] ++ List.replicate 27 0) s
theorem witness_ChildrenSpawnAndKill :
    (addr 0xFFFFFFFFFFFFC0).a.toNat < 2 ^ 56 ∧ (addr 0xFFFFFFFFFFFFC0).a.toNat % 64 = 0
      ∧ ¬((addr 0x200008).a.toNat < 2 ^ 56 ∧ (addr 0x200008).a.toNat % (if false then 8 else 64) = 0)
      ∧ ¬((addr 0x200004).a.toNat % (if true then 8 else 64) = 0)
      ∧ (base.ctx.sync.children.getD 0 {}).isOpen = false
      ∧ (let s := base.onSync fun y => { y with children := Vector.replicate 64 { isOpen := true } }
         (List.range 64).all (fun h => (s.ctx.sync.children.getD h {}).isOpen) = true)
      ∧ bitsN (63 : Word) 63 6 = 0 ∧ bitsN (0xFFFF : Word) 63 16 = 0 ∧ bitsN (0x7FFF000000000000 : Word) 47 0 = 0
      ∧ (op2 0 0).pAB = false ∧ (issue {} ⟨0, true⟩).pAB = true ∧ cwPop (eff (.kill true) 0 0).cw = false := by decide +kernel
theorem witness_ChildrenSpawnAndKill_kill :
    let s := child { isOpen := true, set := some 2, placed := true } (base.onCtx fun c => { c with firs := [] })
    let c := s.ctx.sync.children.getD 5 {}
    c.isOpen = true ∧ c.rejected = none ∧ c.set = some 2 ∧ c.placed = true ∧ c.ended = false ∧ ({ s with fir := {} } : State).fir.id = 0
      ∧ s.ctx.firs = [] ∧ s.ctx.id.present = true ∧ (base.ctx.sync.children.getD 5 {}).isOpen = false ∧ codeOf 0x925 ≠ 6 := by decide +kernel
theorem witness_ChildrenSpawnAndKill_set :
    let s := wordsAt 0x200008 [0x0000000000000002] (mapped (addr 0x200008))
    (placeKey (s.place .global .rd 0x200008 8)).isSome = true ∧ s.dev.upsets = []
      ∧ s.updateWaits ((placeKey (s.place .global .rd 0x200008 8)).getD 0) = false
      ∧ (s.place .global .rd 0x200008 8).2.seen.poisoned ((placeKey (s.place .global .rd 0x200008 8)).getD 0) = false
      ∧ tabActs 2 ≤ (s.place .global .rd 0x200008 8).2.freeDescs s.ctx.id.tile.toNat := by decide +kernel
theorem witness_ChildrenSpawnAndKill_record :
    let e : Eff := { eff (.spawn false none none) 0x200000 0 with ws := [0] }
    let s : State := lcmd e (oneTile (mapped (base.onSync fun y => { y with children := setV y.children 0 { isOpen := true } })))
    e.ws.getD 0 0 = BitVec.ofNat 64 0 ∧ s.ctx.sync.children.getD 0 {} = { isOpen := true } ∧ s.ctx.id.present = true
      ∧ (match readGot (s.whoOf e.space e.keyslot) 32 0 e.a.val (s.unqueue e) with
          | (.ok r, u) => (leastFault (recordFaults u.dev.modules true false r)).isNone
              && u.recordFits r (u.childZone s.ctx (levelAt r 0).domain)
          | _ => false) = true
      ∧ (readGot (s.whoOf e.space e.keyslot) 32 0 e.a.val (s.unqueue e)).2.ctx.id = s.ctx.id
      ∧ (match readGot (s.whoOf e.space e.keyslot) 32 0 0x400000 (s.unqueue e) with | (.hold .., _) => true | _ => false) = true
      ∧ (match readGot (s.whoOf e.space e.keyslot) 32 0 0x200000 (mapped base) with
          | (.ok r, u) => (leastFault (recordFaults u.dev.modules true false r)).isSome
          | _ => false) = true := by decide +kernel


/-! ### Class Z (13 R285 to R294; 22 R383 to R396) and the control core (02 R40 to R60; 06 R139 to R153) -/

/-- Slot 0 has fired and ended in a fault; the handler is at `vec`. -/
def faulted (f : BFault) (vec : Word) (s : State) : State :=
  (s.onCsr fun c => { c with trapvec := vec }).onBlk fun b => { b with
    addr := 0x8000, slots := [{ word := 0, st := .done }], faults := [f] }
def frameAt (s : State) (o : Nat) : Word := s.winWord (s.ctx.winSize - 8192 + o)
def divFault : BFault := ⟨0, 6, 0x030, 0x77, 0⟩
theorem test_trap_enters : let t := after .blockCommit (faulted divFault 0x9000 (withFlags 5 base))
    (t.fir.trap, t.ctx.susp.map (·.id), [t.fir.pc, t.fir.regs.get 1, frameAt t 0, frameAt t 8, frameAt t 16, frameAt t 40])
      = (true, [base.fir.id], [0x9000, 0xFE000, 0x8000060300000000, 0x8000, 0x77, 5]) := by decide +kernel
theorem test_trap_no_handler : let t := after .blockCommit (faulted divFault 0 base)
    (t.ctx.csr.faultHold, t.fir.id, t.dev.events.map (·.body)) = (true, 0, [[0x8000060300000000, 0x8000, 0x77, 0, 0]]) := by decide +kernel
theorem test_trap_c : faultsOf (.trap 9) (addr 0x1234) = [(8, 9, 0x1234)] := by decide
theorem test_trap_poison : faultsOf (.trap 9) (issue ⟨1, true⟩ {}) = [(4, 0, 7)] := by decide
/-- 06 R152: a word that no form has, as the core meets it. -/
theorem test_ill : frameAt (after .ill (base.onCsr fun c => { c with trapvec := 0x9000 })) 0 = 0x8000010070000000 := by decide +kernel
/-- Firing 7 of actor 2 is suspended in slot 1; its frame holds `w0`. -/
def susp7 : Susp := { id := 7, slotNo := 1, actor := 2, frame := 0xFE400, retired := true }
def suspended (w0 : Word) (s : State) : State :=
  winWords 0xFE440 [0, 0x11] <| winWords 0xFE400 [w0, 0x8000, 0x77, 0, 0x9000, 3, 4, 0] ({ s with fir := {} }.onCtx fun c => { c with susp := [susp7] })
theorem test_tret : (after .tret (lcmd (eff .tret 0xFE400 0) (suspended 0x8000000000000000 base))).winWord 0xFE400 = 0xC000000000000000 := by
  decide +kernel
theorem test_tret_none : refusals .tret (lcmd (eff .tret 0xFE000 0) (suspended 0 base)) = [0x945] := by decide +kernel
theorem test_tret_align : faultsOf .tret (addr 0xFE408) = [(6, 0x030, 0xFE408)] := by decide
/-- ACT 0: the block again; ACT 1: on at TARGET. -/
theorem test_resumption : let t := after .firingResumption (suspended 0xC000000000000000 base)
    (t.fir.id, t.fir.flags, t.ctx.susp, [t.fir.pc, t.fir.gpois, t.fir.regs.get 1, t.winWord 0xFE400])
      = (7, 3, [], [0x8000, 4, 0x11, 0x4000000000000000]) := by decide +kernel
theorem test_resumption_on : (after .firingResumption (suspended 0xD000000000000000 base)).fir.pc = 0x9000 := by decide +kernel
theorem test_resumption_freezes : (after .firingResumption (suspended 0xF000000000000000 base)).ctx.csr.faultHold = true := by decide +kernel
theorem test_escal : let t := after (.escal 5) (lcmd (eff (.escal 5) 0x33 0) base)
    (t.ctx.csr.holdEsc, t.dev.events.map (·.body)) = (true, [[0x1650, 0, 0x33]]) := by decide
theorem test_escal_poison : faultsOf (.escal 5) (issue ⟨0, true⟩ {}) = [(4, 0, 7)] := by decide
theorem test_brk : faultsOf .brk base = [(0, 0, 0)] := by decide
theorem test_brk_off : faultsOf .brk (base.onCsr fun c => { c with debug := 1 }) = [] := by decide
theorem test_brk_stops : let t := after .blockCommit (faulted ⟨0, 0, 0, 0, 0⟩ 0x9000 base)
    (t.fir.phase, t.fir.pc, t.ctx.csr.holdBrk) = (.fetch, 0x8000, true) := by decide +kernel
theorem test_csrr : got (.csrr .tileid toA) (base.onTile fun t => { t with module := 0x123456 }) = some ⟨0x12345600, false⟩ := by decide
theorem test_csrw_fpmode : (after (.csrw .fpmode) (lcmd (eff (.csrw .fpmode) 0x1_0000_FF01 0) (base.onCsr fun c => { c with
    fpmode := 0x3000 }))).ctx.csr.fpmode = 0x100000001 := by decide
theorem test_csrw_dceil : (after (.csrw .dceil) (lcmd (eff (.csrw .dceil) 3 0) base)).ctx.csr.dceil = 16 := by decide
theorem test_csrx : got (.csrx .escn toA) ((addr 9).onCsr fun c => { c with escn := 4 }) = some ⟨4, false⟩ := by decide
theorem test_csrx_applies : (after (.csrx .escn none) (lcmd (eff (.csrx .escn none) 0x10009 0) base)).ctx.csr.escn = 9 := by decide
theorem test_logm : (after (.logm 0x15) ((addr 0x99).onCsr fun c => { c with loglim := 0x8000000000000040 })).fir.blk.logs.map
    (fun x => (x.2.type, x.2.w1, x.2.w2)) = [(11, 0x15, 0x99)] := by decide
theorem test_logm_poison : faultsOf (.logm 0x15) (issue ⟨0, true⟩ {}) = [(4, 0, 7)] := by decide
theorem test_perf : got (.perf 3 toA none) (base.onCsr fun c => { c with perf := setV c.perf 3 6 }) = some ⟨6, false⟩ := by decide
/-- A command of class Z that has started. -/
def zcmd (e : Eff) (s : State) : State := let e := { e with started := true }
  { s with who := .cmd e, ctx := { s.ctx with zq := [e] } }
theorem test_spinv : let t := after .spinv (zcmd (eff .spinv 2 0) (wordsAt 32 [0x123456789ABCDEF7] base))
    t.mem.word 32 = 0x123456789ABCDE07 := by decide
theorem test_spinv_range : faultsOf .spinv (op2 0x10000 0) = [(6, 0x030, 0x10000)] := by decide
theorem test_tlbinv : (after .tlbinv (zcmd (eff .tlbinv 0x200000 0) (mapped base))).dev.tlb = [] := by decide
theorem test_tlbinv_other : (after .tlbinv (zcmd (eff .tlbinv 0x400000 0) (mapped base))).dev.tlb.length = 1 := by decide
theorem test_keysel : (after .keysel (zcmd (eff .keysel 0x1AB00 0) base)).ctx.csr.keyslot = 0x1AB := by decide
theorem test_keysel_none : refusals .keysel (zcmd (eff .keysel 0x1AB01 0) base) = [0xA05] := by decide
theorem test_ctxsave : (after .ctxsave (zcmd (eff .ctxsave 0x100 0x200000) base)).ctx.csr.saving = true := by decide +kernel
theorem test_ctxsave_none : refusals .ctxsave (zcmd (eff .ctxsave 3 0x200000) base) = [0xA05] := by decide +kernel
theorem test_ctxload_bad : refusals .ctxload (zcmd (eff .ctxload 1 0x200000) (mapped base)) = [0xA25] := by decide +kernel
theorem test_ctxload_range : faultsOf .ctxload (op2 0 0x800) = [(6, 0x030, 0x800)] := by decide
theorem test_restore_timeout : refusals .restoreWaitTimeout (atBudget 16 (zcmd { eff .ctxload 1 0x200000 with since := some 0 } base)) = [1] := by
  decide

/-! The control core -/

/-- The firing fetches at 0x200000: a header of one slot (RETIRE) and its word. -/
def fetching : State := (wordsAt 0x200000 [0x0080000000000000 + 0xB0000200] (mapped base)).onFir fun f => { f with
  phase := .fetch, pc := 0x200000, blk := {} }
theorem test_fetch_target : (after .blockFetch ((fetching.onFir fun f => { f with pc := 0x200002 }).onCsr fun c => { c with trapvec := 0x9000 })).fir.pc
    = 0x9000 := by decide +kernel
theorem test_fetch : let t := after .blockFetch (fetching.onDev fun d => { d with tlb := d.tlb.map fun x => { x with pte := 0x20003F } })
    (t.fir.phase, t.fir.blk.hdr, t.fir.blk.slots.map (·.word)) = (.dispatch, 0xB0000200, [0x00800000]) := by decide +kernel
theorem test_fetch_access : frameAt (after .blockFetch ((fetching.onFir fun f => { f with pc := 0x400000 }).onCsr fun c => { c with trapvec := 0x9000 })) 0
    = 0x8000050610000000 := by decide +kernel
/-- A fetched block of the words, with RET, WCNT 0 and OCNT 0. -/
def dispatching (ws : List Half) : State := base.onFir fun f => { f with
  phase := .dispatch, blk := { hdr := BitVec.ofNat 32 (11 * 2 ^ 28 + 2 ^ 9 + (ws.length - 1) * 2 ^ 22), addr := 0x8000, slots := ws.map fun w => { word := w } } }
theorem test_dispatch : let t := after .blockDispatch (dispatching [encode .retire])
    (t.fir.phase, t.fir.blk.slots.map (fun x => (x.expA, x.expO))) = (.run, [(false, 0)]) := by decide +kernel
theorem test_dispatch_illegal : frameAt (after .blockDispatch ((dispatching [0xFFFFFFFF]).onCsr fun c => { c with trapvec := 0x9000 })) 0 / 2 ^ 40 % 256 = 1 := by
  decide +kernel
/-- Every slot of the block is decided, and one exit has fired. -/
def ended (x : Exit) (b : Block) (s : State) : State := s.onBlk fun _ => { b with
  addr := 0x8000, slots := [{ word := encode .retire, st := .done }], exits := [(0, x)] }
theorem test_commit_exit : let t := after .blockCommit (ended (.to 0xA000) {} base)
    (t.fir.phase, t.fir.pc, t.ctx.csr.perf.getD 0 0) = (.fetch, 0xA000, 1) := by decide +kernel
theorem test_commit_retires : let t := after .blockCommit (ended .retire {} base)
    (t.fir.id, t.ctx.csr.perf.getD 3 0) = (0, 1) := by decide +kernel
/-- An actor without ports, of PRIO 1 and weight 3. -/
def actorA : Actor := { entry := 0x8000, fmax := 100, weight := 3, prio := 1 }
def graphed (g : Graph) (s : State) : State := s.onCtx fun c => { c with graph := g }
def idle (g : Graph) : State := graphed g { base with fir := {} }
theorem test_actor_selection : let t := after .actorSelection (idle { actors := [actorA], isOpen := true })
    (t.ctx.firs.map (fun f => (f.pc, f.actor, f.phase)), t.ctx.graph.actors.map (·.active), t.tile.sels.getD 1 0)
      = ([(0x8000, 0, .fetch)], [true], 1) := by decide +kernel
/-- Half full over 256 selections: level 8. -/
theorem test_actor_reweight : let t := after (.actorReweight 1) ((idle { actors := [{ actorA with ins := [⟨0, 1⟩], occSum := [128, 1] }] }).onTile fun t => { t with
      sels := setV t.sels 1 256 })
    (t.ctx.graph.actors.map (·.occ), t.tile.sels.getD 1 0) = ([8], 0) := by decide +kernel
theorem test_firing_overrun : refusals .firingOverrun (atBudget 101 (graphed { actors := [actorA] } base)) = [0xC8000705] := by decide +kernel
theorem test_firing_in_time : refusals .firingOverrun (atBudget 100 (graphed { actors := [actorA] } base)) = [] := by decide +kernel
theorem test_end_of_segment : (after (.endOfSegment 0) (idle { actors := [{ actorA with fired := true }], isOpen := true })).ctx.graph.actors.map
    (fun a => (a.ended, a.final)) = [(true, true)] := by decide +kernel
theorem test_boundary : let t := after .segmentBoundary (idle { actors := [{ actorA with ended := true }], isOpen := true, ordinal := 4 })
    (t.ctx.graph.isOpen, t.ctx.graph.ordinal) = (false, 5) := by decide +kernel
theorem test_boundary_final : (after .segmentBoundary (idle { actors := [{ actorA with ended := true, final := true }], isOpen := true })).ctx.id.present
    = false := by decide +kernel
theorem test_segment_start : let t := after .segmentStart (atBudget 9 (idle { actors := [{ actorA with fired := true }] }))
    (t.ctx.graph.isOpen, t.ctx.graph.began, t.ctx.graph.actors.map (·.fired)) = (true, 9, [false]) := by decide +kernel
def saveE : Eff := { eff .ctxsave 0 0x200000 with started := true, ws := [0, 0] }
def saveWaits (g : Graph) : State := (idle { g with pending := some (0, saveE) }).onCtx fun c => { c with zq := [saveE] }
theorem test_boundary_switch : let t := after .boundarySwitch (saveWaits {})
    (t.ctx.csr.saving, t.ctx.zq.map (·.ws)) = (true, [[0, 2]]) := by decide +kernel
theorem test_segmax : (after .segmaxExpiry (atBudget 11 (saveWaits { isOpen := true, segmax := 10 }))).ctx.zq.map (·.ws) = [[0, 1]] := by decide +kernel
/-- Channel 9 is a launch queue with profile 0 and holds one token; profile 0 names space 0 and side 0. -/
def queued (v : Word) (s : State) : State := (wordsAt 0x4000 [0, 100, 0, 1] s).onDev fun d => { d with
  profbase := 0x4000, hch := setV (setV d.hch 9 { ctl := 7, ready := [(v, 0)] }) 0 { ctl := 5 } }
theorem test_launch_token : let t := after (.launchTokenConsume 9) (queued 0x200000 (oneTile (mapped base)))
    (t.dev.pending.map (fun p => (p.launch, p.queue, p.job)), t.dev.nextLaunch) = ([(1, some 9, 0)], 2) := by decide +kernel
theorem test_launch_unread : (after (.launchTokenConsume 9) (queued 0x200008 base)).dev.hch.toList.map (fun h => h.out.map (·.val)) =
    [[0x0B5]] ++ List.replicate 63 [] := by decide +kernel
def launchP : Pending := { launch := 1, queue := some 9, job := 0, barr := false, prof := [0, 0, 0, 100, 0, 0, 0, 1]
                           record := [0x0000000001000101, 0x201000, 0, 0x100000000, 0x00010041] ++ List.replicate 27 0 }
/-- A table of one actor without ports at 0x201000. -/
def tabled (s : State) : State := (wordsAt 0x201000 ([1, 0x8000, 0x0000006400000100, 0] ++ List.replicate 13 0) (mapped s)).onDev fun d => { d with
  pending := [launchP] }
theorem test_placement : let t := after (.placement 0) (tabled base)
    (t.ctxs.map (fun c => (c.id.launch, c.id.tile, c.id.num, c.graph.actors.map (·.entry))), t.dev.pending.length)
      = ([(1, 0, 1, [0x8000])], 0) := by decide +kernel


/-! Class Z and the control core -/

theorem witness_TrapSavesFiringAndEntersVector :
    let s := faulted divFault 0x9000 base
    let load (w : Word) : Word := BitVec.ofNat 64 (w.toNat / 4 % 2 ^ 54 * 4)
    s.fir.id ≠ 0 ∧ s.fir.phase = .run ∧ s.fir.blk.decided = true ∧ s.ctx.stopped = false ∧ s.ctx.id.present = true
      ∧ (let u := s.onCsr fun c => { c with holdSup := true }
         u.blockEnd = some divFault ∧ u.ctx.stopped = true)
      ∧ s.blockEnd = some divFault ∧ divFault.cause ≠ 0 ∧ s.fir.blk.arrived = [] ∧ s.fir.blk.spawned = [] ∧ s.fir.blk.esc = []
      ∧ s.fir.trap = false ∧ load s.ctx.csr.trapvec ≠ 0 ∧ load base.ctx.csr.trapvec = 0 ∧ s.fir.slotNo < 8 ∧ s.mem.wf = true
      ∧ s.ctx.id.row + 2 ^ (9 + s.ctx.id.wlog.toNat) ≤ 4096
      ∧ ((faulted divFault 0x9000 (base.onFir fun f => { f with trap := true })).blockEnd = some divFault) := by decide +kernel
theorem witness_TrapSavesFiringAndEntersVector_load :
    let f : BFault := ⟨0, 10, 0, 0, 0⟩
    let s := (faulted f 0x9000 base).onCsr fun c => { c with loadvec := 0xA000 }
    s.blockEnd = some f ∧ f.cause = 10 ∧ BitVec.ofNat 64 (s.ctx.csr.loadvec.toNat / 4 % 2 ^ 54 * 4) = 0xA000 ∧ s.fir.blk.decided = true := by
  decide +kernel
theorem witness_TrapReturnsAndBreakpoints :
    let s := suspended 0xC000000000000000 base
    ((addr 0xFFFC0).a.toNat % 64 = 0 ∧ (addr 0xFFFC0).a.toNat < base.ctx.winSize)
      ∧ ¬((addr 0x100000).a.toNat % 64 = 0 ∧ (addr 0x100000).a.toNat < base.ctx.winSize)
      ∧ s.ctx.susp = [susp7] ∧ susp7.frame = (0xFE400 : Word).toNat ∧ susp7.frame % 64 = 0 ∧ s.mem.wf = true
      ∧ s.ctx.susp.all (fun v => v.frame != (0xFE000 : Word).toNat) = true
      ∧ s.runs = true ∧ s.fir.id = 0 ∧ susp7.retired = true ∧ (s.winWord susp7.frame).getLsbD 62 = true
      ∧ susp7.freed = false ∧ s.usable.head?.isSome = true ∧ (s.onCsr fun c => { c with holdSup := true }).runs = false
      ∧ ((suspended 0x8000000000000000 base).winWord susp7.frame).getLsbD 62 = false
      ∧ ([(0xC000000000000000 : Word), 0xD000000000000000, 0xE000000000000000, 0xF000000000000000].map fun w => bitsN w 61 60) = [0, 1, 2, 3]
      ∧ (let b := faulted ⟨0, 0, 0, 0, 0⟩ 0x9000 base
         b.blockEnd = some ⟨0, 0, 0, 0, 0⟩ ∧ b.fir.blk.decided = true ∧ b.ctx.stopped = false) := by decide +kernel
theorem witness_SpecialRegistersReadAndWritten :
    base.who = .core ∧ (lcmd (eff (.csrw .dceil) 3 0) base).who = .cmd (eff (.csrw .dceil) 3 0)
      ∧ base.ctx.logOn = false ∧ (base.onCsr fun c => { c with loglim := 0x8000000000000000 }).ctx.logOn = true
      ∧ (3 : BitVec 3) ≠ 4 ∧ base.oldCsr .space = none := by decide
theorem witness_SystemCommandsApply :
    let ok (f : State → Bool) (a b : Word) : Bool := f (op2 a b)
    let spinv (s : State) : Bool := decide (bitsN s.a 63 16 = 0 ∧ bitsN s.b 47 0 = 0)
    let tlbinv (s : State) : Bool := decide (bitsN s.a 63 56 = 0 ∧ bitsN s.a 15 0 = 0 ∧ bitsN s.b 47 17 = 0)
    let keysel (s : State) : Bool := decide (bitsN s.a 63 17 = 0 ∧ bitsN s.b 47 0 = 0)
    let ctxsave (s : State) : Bool := decide (bitsN s.a 47 9 = 0 ∧ bitsN s.b 63 56 = 0 ∧ bitsN s.b 11 0 = 0)
    let ctxload (s : State) : Bool := decide (bitsN s.a 47 8 = 0 ∧ bitsN s.b 63 56 = 0 ∧ bitsN s.b 11 0 = 0)
    ok spinv 0xFFFF 0xFFFF000000000000 = true ∧ ok spinv 0x10000 0 = false
      ∧ ok tlbinv 0xFFFFFFFFFF0000 0x1FFFF = true ∧ ok tlbinv 0x8000 0 = false ∧ ok tlbinv 0 0x20000 = false
      ∧ ok keysel 0x1FFFF 0 = true ∧ ok keysel 0x20000 0 = false
      ∧ ok ctxsave 0xFFFF0000000001FF 0xFFFFFFFFFFF000 = true ∧ ok ctxsave 0x200 0 = false ∧ ok ctxsave 0 0x800 = false
      ∧ ok ctxload 0xFFFF0000000000FF 0xFFFFFFFFFFF000 = true ∧ ok ctxload 0x100 0 = false := by decide +kernel
theorem witness_SystemCommandsApply_start :
    let e := { eff .spinv 2 0x0400000000000000 with since := some 0 }
    let s : State := { base.onCtx fun c => { c with zq := [e] } with who := .cmd e }
    s.ctx.zq = [e] ∧ e.started = false ∧ cwPop e.cw = true ∧ s.ctx.sync.q.getD (cwQpop e.cw) 0 = 0 ∧ cwPop (eff .spinv 2 0).cw = false
      ∧ (atBudget 15 s).ctx.csr.budget.toNat < 0 + s.ctx.csr.dceil.toNat ∧ 0 + s.ctx.csr.dceil.toNat ≤ (atBudget 16 s).ctx.csr.budget.toNat
      ∧ s.mem.wf = true ∧ s.dev.sptbase.toNat < 2 ^ 48 ∧ s.ctx.id.present = true
      ∧ bitsN (0x1AB00 : Word) 7 2 = 0 ∧ bitsN (0x1AB00 : Word) 1 0 = s.ctx.id.num.toNat ∧ bitsN (0x1AB04 : Word) 7 2 ≠ 0
      ∧ s.ctx.csr.saving = false ∧ s.ctx.graph.pending = none ∧ s.ctx.mapq = [] ∧ s.ctx.holdEngine = none ∧ s.ctx.id.uid < 2 ^ 64
      ∧ (readArea (s.whoEff e) 0x200000 (mapped s)).1 = none ∧ (readArea (s.whoEff e) 0x200000 (mapped s)).2.ctx.zq = s.ctx.zq := by
  decide +kernel

theorem witness_BlocksAreFetchedCheckedAndCommitted :
    let s := fetching.onDev fun d => { d with tlb := d.tlb.map fun x => { x with pte := 0x20003F } }
    s.fir.id ≠ 0 ∧ s.fir.phase = .fetch ∧ s.runs = true ∧ badTarget s.fir.pc = false ∧ badTarget 0x200002 = true
      ∧ (match fetchWords 1 s.fir.pc s with
          | (.ok [h], u) => h == 0xB0000200 && (match fetchWords (bitsN h 27 22 + 1) (s.fir.pc + 4) u with | (.ok ws, _) => ws == [0x00800000] | _ => false)
          | _ => false) = true
      ∧ (match fetchWords 1 0x400000 s with | (.error (d, a), _) => d == 0x061 && a == 0x400000 | _ => false) = true
      ∧ (match s.global s.who4 .fetch s.fir.pc 4 with | (.ok (.mem _), _) => true | _ => false) = true ∧ s.dev.upsets = [] := by decide +kernel
theorem witness_BlocksAreFetchedCheckedAndCommitted_dispatch :
    let s := dispatching [encode .retire]
    s.fir.id ≠ 0 ∧ s.fir.phase = .dispatch ∧ s.runs = true ∧ blockFault s.ctx.id.sup s.fir.blk.hdr (s.fir.blk.slots.map (·.word)) = none
      ∧ blockFault false 0xB0000200 [0xFFFFFFFF] ≠ none ∧ s.ctx.dq = []
      ∧ (List.range 12).all (fun q => decide ((s.onFir fun f => { f with blk := {} }).entries q + 1 ≤ (if q < 8 then 64 else 16))) = true
      ∧ (let f := eff (.setf false) 1 0
         isFlagEff f.ins = true ∧ f.fir = ({} : Firing).id) := by decide +kernel
/-- Slot 0 has fired an exit and slot 1 has written G5; the header counts one write. -/
def wrote (b : Block) : State := base.onBlk fun _ => { b with
  addr := 0x8000, hdr := 0xB0410000
  slots := [{ word := encode .retire, st := .done }, { word := encode (.write (.g 5)), st := .done }]
  gw := [(1, 5, ⟨0x77, true⟩)], exits := [(0, .to 0xA000)] }
theorem witness_BlocksAreFetchedCheckedAndCommitted_commit :
    let s := wrote {}
    s.fir.phase = .run ∧ s.fir.blk.decided = true ∧ s.ctx.csr.saving = false ∧ s.ctx.id.present = true ∧ s.blockEnd = none
      ∧ s.spaceWaits = false ∧ s.ctx.dq = []
      ∧ s.ctx.logOn = false ∧ s.fir.blk.esc = [] ∧ (s.fir.blk.gw.map (·.1)).Nodup ∧ s.fir.blk.effs = [] ∧ s.fir.blk.exits = [(0, .to 0xA000)]
      ∧ ((5 : BitVec 6) ≠ 0 ∧ (1, (5 : BitVec 6), (⟨0x77, true⟩ : Token)) ∈ s.fir.blk.gw)
      ∧ s.fir.blk.gw.all (fun y => y.2.1 != 63) = true := by decide +kernel
/-- An effect that passes from the block to its engine or to memory. -/
def handing (e : Eff) : State := base.onBlk fun _ =>
  { addr := 0x8000, hdr := 0xB0000400, slots := [{ word := encode e.ins, st := .done }], effs := [e], exits := [(0, .to 0xA000)] }
theorem witness_BlocksAreFetchedCheckedAndCommitted_effects :
    let st := { eff (.st .window .s4 none none) 12 7 with locs := [.mem (base.ctx.winKey 12)] }
    (handing (eff (.kport 1) 0x3D 0)).blockEnd = none ∧ instrRoute (.kport 1) = .kq ∧ (handing (eff (.kport 1) 0x3D 0)).fir.blk.decided = true
      ∧ (handing st).blockEnd = none ∧ (handing st).ctx.lq = [] ∧ (handing st).ctx.holdScalar = none ∧ (handing st).ctx.unread = [] ∧ base.ctx.winKey 12 % 4 = 0
      ∧ base.mem.wf = true ∧ base.mem.poisoned (base.ctx.winKey 12) = false
      ∧ (ended .retire {} base).blockEnd = none ∧ (ended .retire {} base).actorNow.ins = [] ∧ (ended .retire {} base).actorNow.outs = []
      ∧ (ended .retire {} (base.onFir fun f => { f with trap := true })).blockEnd = none := by decide +kernel
theorem witness_ActorsFireAndSegmentsTurn :
    let s := idle { actors := [actorA], isOpen := true }
    (mostCredit (fun r => r.credit + ((r.weff : Nat) : Int)) s.level).map (fun r => (r.uid, r.idx, r.prio)) = some (s.ctx.id.uid, 0, 1)
      ∧ (idle {}).level = [] ∧ s.tile.selsAt 1 < 256 ∧ s.ctx.id.present = true ∧ s.ctx.logOn = false ∧ s.ctx.graph.actors[0]? = some actorA
      ∧ actorA.outs = [] ∧ s.ctx.id.tile = s.tile.num ∧ 256 ≤ (s.onTile fun t => { t with sels := setV t.sels 1 256 }).tile.selsAt 1
      ∧ s.ctxs = [] ∧ actorA.free = false ∧ actorA.prio = 1
      ∧ (let o := atBudget 101 (graphed { actors := [actorA] } base)
         o.fir.id ≠ 0 ∧ o.fir.overrun = false ∧ o.actorNow.fmax < o.ctx.csr.budget.toNat - o.fir.started)
      ∧ actorA.set = 0 ∧ actorA.fired = false ∧ s.ctx.graph.isOpen = true ∧ s.ctx.stopped = false ∧ actorA.ended = false ∧ actorA.active = false := by
  decide +kernel
theorem witness_ActorsFireAndSegmentsTurn_segments :
    let s := idle { actors := [{ actorA with ended := true }], isOpen := true }
    s.allDone = true ∧ s.ctx.evictee = none ∧ s.handedDone = true
      ∧ (idle { actors := [actorA] }).startPick.map (·.2) = some (idle { actors := [actorA] }).ctx ∧ (idle {}).startPick.isNone = true
      ∧ s.ctx.graph.pending = none ∧ (saveWaits {}).ctx.graph.pending = some ((saveWaits {}).ctx.id.uid, saveE) ∧ (saveWaits {}).ctx.zq = [saveE]
      ∧ (saveWaits {}).ctx.csr.saving = false
      ∧ (let o := atBudget 11 (saveWaits { isOpen := true, segmax := 10 })
         o.ctx.graph.segmax < o.ctx.csr.budget.toNat - o.ctx.graph.began)
      ∧ (let o := atBudget 10 (saveWaits { isOpen := true, segmax := 10 })
         o.ctx.csr.budget.toNat - o.ctx.graph.began ≤ o.ctx.graph.segmax ∧ o.ctx.stuck = false)
      ∧ (atBudget 16 base).ctx.csr.budget.toNat = 0 + base.ctx.csr.dceil.toNat := by decide +kernel
theorem witness_LaunchesAreTakenAndPlaced :
    let s := queued 0x200000 (oneTile (mapped base))
    let h := s.dev.hch.getD 9 {}
    let took := s.onDev fun d => { d with hch := modV d.hch 9 fun h => { h with
      ready := [], head := h.head + 1, irqs := if h.ctl.getLsbD 3 then h.irqs + 1 else h.irqs } }
    let pw := took.profile (bitsN h.ctl 55 48)
    h.ready = [(0x200000, 0)] ∧ s.dev.upsets = [] ∧ bitsN h.ctl 2 1 = 3 ∧ s.dev.pending = [] ∧ (s.dev.hch.getD 8 {}).ready = [] ∧ bitsN (s.dev.hch.getD 0 {}).ctl 2 1 ≠ 3
      ∧ (0x200008 : Word).toNat % 64 ≠ 0 ∧ 2 ^ 56 ≤ (0x100000000000000 : Word).toNat
      ∧ pw.2 = false ∧ took.profileOk (h.ctl.getLsbD 26) pw.1 = true
      ∧ (match readGot (took.whoAt (BitVec.ofNat 2 (bitsN h.ctl 28 27)) (profSide pw.1) (profSpace pw.1) (profKey pw.1)) 32 0 0x200000 took with
          | (.ok r, u) => (recordFaults u.dev.modules false (h.ctl.getLsbD 26) r).isEmpty && u.egressOk r
              && u.recordFits r u.dev.zone
          | _ => false) = true := by decide +kernel
theorem witness_LaunchesAreTakenAndPlaced_placement :
    let s := tabled base
    let u := readTable (s.whoPending launchP) (winSize ((wAt launchP.prof 7).setWidth 2)) (recEntry launchP.record) s
    s.dev.pending[0]? = some launchP ∧ s.dev.pending.length ≤ 1 ∧ s.turnOf 0 launchP = true ∧ launchP.parent = none
      ∧ (s.onDev fun d => { d with pending := [launchP, launchP] }).turnOf 1 launchP = false ∧ launchP.queue = some 9
      ∧ (match u with
          | (some (hd, _), v) => (match v.spots launchP (tabActs hd) s.dev.zone with
              | some [sp] => decide (sp.tile / 256 = v.zoneHome) && (v.freeNum (sp.tile % 256)).isSome
                  && (v.freeRow (sp.tile % 256) ((wAt launchP.prof 7).setWidth 2)).isSome && (v.spots launchP 257 s.dev.zone).isNone
              | _ => false) && (v.ctx :: v.ctxs).all (fun y => decide (y.id.uid < v.dev.nextUid)) && v.dev.launches.isEmpty
          | _ => false) = true
      ∧ (readTable (s.whoPending launchP) (winSize 0) 0x201008 s).1 = none := by decide +kernel


/-! ### The host, links, boot, errors (20, 25 to 27) -/

/-- Channel 9 as given. -/
def chan9 (h : HostChan) (s : State) : State := s.onDev fun d => { d with hch := setV d.hch 9 h }
def chanOf (i : Instr) (s : State) : HostChan := (after i s).chan 9
/-- ROLE 1, 16 slots at host address 0x1000, HEAD 2, TAIL 5. -/
def ingress : HostChan := { base := 0x1000, ctl := 0x40003, head := 2, tail := 5, readTo := 3 }
def egress : HostChan := { base := 0x1000, ctl := 0x40005, head := 2, tail := 5, readTo := 2 }
theorem test_hctail : (chanOf (.hctailWrite 9 18) (chan9 ingress base)).tail = 18 := by decide
theorem test_hctail_beyond : (fun h : HostChan => (h.tail, h.stat)) (chanOf (.hctailWrite 9 19) (chan9 ingress base)) = (5, 2) := by decide
theorem test_hchead : (chanOf (.hcheadWrite 9 5) (chan9 egress base)).head = 5 := by decide
theorem test_hchead_beyond : (chanOf (.hcheadWrite 9 6) (chan9 egress base)).stat = 2 := by decide
/-- LOGSZ 3 acts as 4; bits 15 to 4 do not stay. -/
theorem test_hcctl_enable : (fun h : HostChan => (h.ctl, h.head, h.tail)) (chanOf (.hcctlEnable 9 0x000100020003FFF2)
    (chan9 { ingress with ctl := 0 } base)) = (0x0001000200040003, 0, 0) := by decide
theorem test_hcctl_irq : (chanOf (.hcctlEnable 9 0xF) (chan9 ingress base)).ctl = 0x4000B := by decide
theorem test_hcctl_disable : (chanOf (.hcctlDisable 9 0) (chan9 ingress base)).en = false := by decide
/-- Slot 3 of the ring: VALUE 0x77, SEQ 3. -/
theorem test_ingress_slot : (chanOf (.ingressSlotConsume 9) (chan9 ingress (wordsAt (hostKey 0x1030) [0x77, 0x300000000] base))).ready
    = [(0x77, 0x300000000)] := by decide
theorem test_ingress_bad : let t := after (.ingressSlotConsume 9) (chan9 ingress (wordsAt (hostKey 0x1030) [0x77, 0x400000000] base))
    ((t.chan 9).stat, t.dev.events.map (·.body)) = (5, [[9, 2, 4]]) := by decide
theorem test_egress_slot : let t := after (.egressSlotWrite 9) (chan9 { egress with out := [{ val := 0x77, ctrl := 2 }] } base)
    (t.mem.word (hostKey 0x1050), t.mem.word (hostKey 0x1058), (t.chan 9).tail) = (0x77, 0x500000002, 6) := by decide +kernel
theorem test_event : let t := after .eventDelivery (chan9 egress (base.onDev fun d => { d with
      events := [⟨0x1B, 7, [0x33]⟩], hevch := 0x2020, hevch2 := 9 }))
    [t.mem.word (hostKey 0x2140), t.mem.word (hostKey 0x2148), t.mem.word (hostKey 0x2150), t.mem.word (hostKey 0x1050), t.mem.word (hostKey 0x1058)]
      = [0x1B, 7, 0x33, 0x1B00000000002140, 0x500000004] := by decide +kernel
theorem test_hdm_write : (after (.hostHdmWrite 0x102 [0xAA, 0xBB] false 0) (wordsAt 0x100 [0xFFFFFFFFFFFFFFFF] base)).mem.word 0x100
    = 0xFFFFFFFFBBAAFFFF := by decide +kernel
theorem test_hdm_read : let t := after (.hostHdmRead 0x108 0) (wordsAt 0x108 [0x1122] (base.onMem fun m => m.setPoison 0x130 true))
    (t.dev.hdmOut.length, t.dev.hdmPois) = (64, true) := by decide +kernel
/-- A half-word of a poisoned word is not written; the host is told. -/
theorem test_hdm_part : (after (.hostHdmWrite 0x102 [1] false 0) (base.onMem fun m => m.setPoison 0x100 true)).dev.events.map (·.body)
    = [[2, 0x100, 0]] := by decide +kernel
theorem test_key_load : (after (.keyLoad 3) (base.onDev fun d => { d with keydata := setV d.keydata 1 7 })).dev.keyOf 3 = some 0x70000000000000000 := by
  decide +kernel
theorem test_key_clear : (after (.keyClear 0) (mapped base)).dev.keyOf 0 = none := by decide
theorem test_hold : (after (.ctxctlHold 0 0) base).ctx.csr.holdSup = true := by decide
theorem test_ctx_release : (after (.ctxctlRelease 0 0) (base.onCsr fun c => { c with holdEsc := true, holdFlood := [3] })).ctx.why = 1 := by decide
theorem test_image_store : (after (.contextImageStore 0 0 .escn 0x10009) base).ctx.csr.escn = 9 := by decide
/-- RECORD: RD moves up to WR. -/
def logged (s : State) : State := s.onCsr fun c => { c with loglim := 0x8000000000000040, logpos := 0x5000002 }
theorem test_logpos : (after (.logposWrite 0 0 5) (logged base)).ctx.csr.logpos = 0x5000005 := by decide
theorem test_logpos_beyond : (after (.logposWrite 0 0 6) (logged base)).ctx.csr.logpos = 0x5000002 := by decide
theorem test_loglim : (after (.loglimWrite 0 0 0xFFFFFFFFFFFFFFFF) base).ctx.csr.loglim = 0x8000000000800000 := by decide
theorem test_tlbiso : let t := after (.tlbisoWrite 0 0 1 0xFFF) (mapped base)
    (t.tile.tlbiso.getD 1 0, t.dev.tlb.length) = (0x1FF, if sliceOf 0 0x200000 = 0 then 0 else 1) := by decide +kernel
theorem test_attcmd : (after (.attcmdWrite 0x1040) (base.onDev fun d => { d with bootstat := 4 })).dev.attcmd = 0x8000000000001040 := by decide
theorem test_attcmd_refused : (after (.attcmdWrite 0x1040) base).dev.attcmd = 0x2000000000000000 := by decide
theorem test_register : (after (.registerWrite 0x600 0x1388_0001) base).dev.pwrcap = 0xFA00001 := by decide

/-! Links: port 2 of die 0 is an external port -/

def link2 (l : Link) (s : State) : State := s.onDev fun d => { d with links := setV d.links 2 l, ptctl := 0x70001, ptsize := 0x030604 }
def linkOf2 (i : Instr) (s : State) : Link := (after i s).linkOf 2
def upLink : Link := { lnk := 2, rx := 8, tx := 20, retry := [{}, { pkt := some packet }, {}] }
def netMsg : NetMsg := { ptid := 7, hdr := 0x99, kind := 0, src := 0x109, dst := 0, job := 0, side := 0, cnum := 0, dinst := 0, sinst := 0
                         ring := 3, sseq := 2, body := [1, 2] }
def zeros64 : List Byte := List.replicate 64 0
/-- A whole flit of zeros: SEQ, class B, and its ACKSEQ. -/
def trailer (seq : Nat) (ack : Option Nat) (typ : Nat := 0) : Word :=
  flitTrailer zeros64 (BitVec.ofNat 32 (seq * 2 ^ 20 + (match ack with | some a => 2 ^ 16 + a * 16 | none => 0) + typ))
def flit2 (tr : Word) (pkt : Option NetMsg) : Instr := .flitReceive 2 zeros64 (tr.setWidth 32) (tr.extractLsb' 32 32) false pkt
/-- CRC-32C of the nine digits '1' to '9', its check value outside this spec. -/
theorem test_crc : crc32c ((List.range 9).map fun i => BitVec.ofNat 8 (0x31 + i)) = 0xE3069283 := by decide +kernel
theorem test_flit : let s := link2 upLink (counted {} base)
    let t := after (flit2 (trailer 8 (some 18)) (some netMsg)) s
    ((t.linkOf 2).rx, (t.linkOf 2).retry.length, t.dev.packets.map (·.body)) = (9, 1, [[1, 2]]) := by decide +kernel
theorem test_flit_crc : (fun l : Link => (l.rx, l.asked, (l.retry.getLast?).map fun f => (f.seq, f.ack, f.again)))
    (linkOf2 (flit2 1 none) (link2 upLink base)) = (8, true, some (20, some 7, true)) := by decide +kernel
theorem test_flit_foreign : (after (flit2 (trailer 8 none) (some { netMsg with ptid := 8 })) (link2 upLink (counted {} base))).dev.events.map
    (·.body) = [[1, 0x99]] := by decide +kernel
theorem test_exhausted : (linkOf2 (.retransmissionExhausted 2) (link2 { upLink with retry := [{ replays := 16 }] } base)).lnk = 4 := by decide
theorem test_keepalive : (linkOf2 (.keepaliveSend 2) (link2 { upLink with idleTx := 0x33E140 / 4 } base)).sent = 1 := by decide
theorem test_link_down : let t := after (.linkDown 2) (link2 { upLink with idleRx := 3 * 0x33E140 } base)
    ((t.linkOf 2).lnk, t.dev.events.map (·.body)) = (0x100000004, [[2], [2, 1, 0]]) := by decide +kernel
theorem test_link_silent : (linkOf2 (.linkDown 2) (link2 { upLink with idleRx := 3 * 0x33E140 - 1 } base)).lnk = 2 := by decide
theorem test_retrain : (linkOf2 (.linkRetrain 2) (link2 { lnk := 4 } base)).training = true := by decide
theorem test_trained : (linkOf2 (.linkTrained 2) (link2 { lnk := 4, training := true } base)).lnk = 2 := by decide
theorem test_trained_untrained : (linkOf2 (.linkTrained 2) (link2 { lnk := 4 } base)).lnk = 4 := by decide
/-- 4 by 6 by 3 dies, this module at (1, 2, 2): number 1 + 2 · (2 + 3 · 2). -/
def partition (n : Word) (s : State) : State := s.onDev fun d => { d with ptsize := n, ptpos := 0x020201 }
theorem test_partition : let t := after (.partitionEnable 0x50000) (partition 0x030604 base)
    (t.dev.ptctl, t.tile.module) = (0x50001, 17) := by decide +kernel
theorem test_partition_bad : (after (.partitionEnable 0x50000) (partition 0x030605 base)).dev.ptctl = 0x50002 := by decide +kernel
theorem test_partition_off : let t := after (.partitionDisable 0) (link2 upLink base)
    (t.dev.ptctl, (t.linkOf 2).retry) = (0, []) := by decide +kernel
theorem test_flood : let t := after (.freezeFloodStart 0x33) base
    (t.ctx.csr.holdFlood, t.dev.ptfrz) = ([0x33], 0x3300000000) := by decide
theorem test_thaw : (after (.thawFloodStart 0x33) (base.onCsr fun c => { c with holdFlood := [0x33, 4] })).ctx.csr.holdFlood = [4] := by decide
theorem test_flood_received : (after (.freezeFloodReceive 2 0x33 false) (link2 upLink base)).ctx.csr.holdFlood = [0x33] := by decide

/-! Boot, errors, clocks, reset -/

theorem test_boot_go : (after (.registerWrite 0x008 1) base).dev.bootstat = 2 := by decide +kernel
def checking (s : State) : State := s.onDev fun d => { d with bootstat := 2, bootAgree := true }
/-- An image with a bad magic number: check 1. -/
theorem test_boot_magic : (after (.bootGo true) (checking base)).dev.bootstat = 0x10F := by decide +kernel
/-- A good head and length 4: check 2. -/
theorem test_boot_length : (after (.bootGo true) (checking (wordsAt (spadKey 0 0) [0x000000014D574644, 0, 4] base))).dev.bootstat = 0x20F := by decide +kernel
theorem test_firmware : let t := after (.firmwareReady 9) (base.onDev fun d => { d with bootstat := 0x700000003 })
    (t.dev.bootstat, t.tile.module, (t.chan 0).en) = (0x700000004, 9, true) := by decide +kernel
theorem test_staging : (after (.stagingWindowWrite 8 0x77) base).mem.word (spadKey 0 0 + 8) = 0x77 := by decide +kernel
theorem test_report : (fun d : Dev => d.attcmd) (after .reportCompletion base).dev = 0 := by decide
theorem test_i3c_address : (after (.i3cDynamicAddress 0x11) base).dev.i3cAddr = 0x11 := by decide
theorem test_i3c_write : (fun d : Dev => (d.pwrcap, d.i3cIdx)) (after (.i3cPrivateWrite 0x10 (some 0x00010001)) base).dev = (0x01F40001, 0x10) := by decide
theorem test_i3c_read : (fun d : Dev => (d.i3cOut, d.i3cIdx)) (after .i3cPrivateRead (base.onDev fun d => { d with i3cIdx := 0x10 })).dev = (0x0D480001, 0x11) := by
  decide
theorem test_uncontained : let t := after (.uncontainedError 1 0 0 0x0B6 0) base
    (t.ctx.csr.faultHold, t.dev.uecnt, t.dev.events.map (·.body)) = (true, 0x100000000, [[0x2D801]]) := by decide +kernel
theorem test_uncontained_node : (cfgIn 2 (.uncontainedError 0 0 2 0x0B6 0) (withCfg 2 firedA base)).map (fun g => g.fault.map (·.2)) = some (some 0x0B6) := by
  decide +kernel
def cycles20 (w : Word) (s : State) : State := s.onDev fun d => { d with clk := setV d.clk 1 1048576, diestat := setV d.diestat 1 w }
theorem test_clock_hot : (after (.clockReevaluation 1 100 50 400) (cycles20 0x30 base)).dev.diestat.getD 1 0 = 0x643201900040 := by decide +kernel
theorem test_clock_halt : let t := after (.clockReevaluation 1 110 50 400) (cycles20 0x30 base)
    (t.dev.diestat.getD 1 0, t.dev.events.map (·.body)) = (0x6E3201900031, [[1465]]) := by decide +kernel
theorem test_clock_cool : (after (.clockReevaluation 1 94 50 400) (cycles20 0x30 base)).dev.diestat.getD 1 0 = 0x5E3201900020 := by decide +kernel
theorem test_reset : let t := after .deviceReset (wordsAt 0x100 [7] base)
    (t.ctx.id.present, t.mem.word 0x100, t.dev.bootstat) = (false, 7, 1) := by decide +kernel


/-! Witnesses for the host, links, boot and errors -/

theorem witness_HostChannelsMoveInOrder :
    (chan9 ingress base).chan 9 = ingress ∧ ingress.role = 1 ∧ egress.role = 2 ∧ ingress.en = true ∧ ({ ingress with ctl := 0 } : HostChan).en = false
      ∧ ((18 : BitVec 32) - ingress.tail).toNat = ingress.size - (ingress.tail - ingress.head).toNat
      ∧ ingress.size - (ingress.tail - ingress.head).toNat < ((19 : BitVec 32) - ingress.tail).toNat
      ∧ ((5 : BitVec 32) - egress.head).toNat = (egress.tail - egress.head).toNat
      ∧ (egress.tail - egress.head).toNat < ((6 : BitVec 32) - egress.head).toNat
      ∧ (0x10240 : BitVec 20).toNat = 0x10000 + 0x40 * (9 : BitVec 6).toNat := by decide
theorem witness_HostChannelsMoveInOrder_slots :
    let k := hostKey (bitsN ingress.base 51 6 * 64 + 16 * (ingress.readTo.toNat % ingress.size))
    let s := chan9 ingress (wordsAt (hostKey 0x1030) [0x77, 0x300000002] base)
    let w := s.mem.word (k + 8)
    s.chan 9 = ingress ∧ ingress.stat.getLsbD 0 = false ∧ ingress.readTo ≠ ingress.tail ∧ k = hostKey 0x1030
      ∧ bitsN w 63 32 = ingress.readTo.toNat ∧ bitsN w 15 4 = 0 ∧ bitsN w 2 0 = 2 ∧ s.mem.poisoned k = false ∧ s.mem.poisoned (k + 8) = false
      ∧ bitsN (0x400000000 : Word) 63 32 ≠ ingress.readTo.toNat ∧ bitsN (0x300000010 : Word) 15 4 ≠ 0 ∧ 2 < bitsN (0x300000003 : Word) 2 0
      ∧ (s.onMem fun m => m.setPoison (k + 8) true).mem.poisoned (k + 8) = true
      ∧ ({ ingress with readTo := 5 } : HostChan).readTo = ingress.tail ∧ (5 : Word).getLsbD 0 = true := by decide
theorem witness_HostChannelsMoveInOrder_tokens :
    let o : OutTok := { val := 0x77, ctrl := 2 }
    let s := chan9 { egress with out := [o] } base
    s.chan 9 = { egress with out := [o] } ∧ egress.open = true ∧ ({ egress with tail := 18 } : HostChan).open = false
      ∧ ({ egress with tail := 17 } : HostChan).open = true ∧ s.tokenReady o = true ∧ s.mem.wf = true ∧ (s.chan 8).out = [] := by decide
theorem witness_HostChannelsMoveInOrder_events :
    let s := chan9 egress (base.onDev fun d => { d with events := [⟨0x1B, 7, [0x33]⟩], hevch := 0x2020, hevch2 := 9 })
    let a := bitsN s.dev.hevch 57 6 * 64 + 64 * (egress.tail.toNat % egress.size)
    let k := hostKey (bitsN egress.base 51 6 * 64 + 16 * (egress.tail.toNat % egress.size))
    s.dev.events = [⟨0x1B, 7, [0x33]⟩] ∧ s.dev.hevch.getLsbD 5 = true ∧ s.chan (s.dev.hevch2.setWidth 6) = egress ∧ egress.open = true
      ∧ egress.out = [] ∧ a = 0x2140 ∧ k + 16 ≤ hostKey a ∧ s.mem.wf = true ∧ base.dev.events = [] ∧ base.dev.hevch.getLsbD 5 = false := by
  decide
theorem witness_HostReachesHdmWithPoison :
    let s := base.onMem fun m => m.setPoison 0x100 true
    s.mem.wf = true ∧ s.mem.poisoned 0x100 = true ∧ s.mem.poisoned 0x108 = false ∧ s.dev.upsets = []
      ∧ hbmSize - 8 + 8 ≤ hbmSize ∧ hbmSize < (hbmSize - 7) + 8 ∧ (hbmSize - 8) % 8 = 0 ∧ hbmSize - 1 < hbmSize
      ∧ ([0xAA, 0xBB] : List Byte)[1]? = some 0xBB ∧ 0x106 % 8 + 2 ≤ 8 ∧ (mapped base).dev.keyOf (0 : BitVec 9).toNat = some 5 := by
  decide +kernel

theorem witness_LinksCarryFlitsInOrderAndFail :
    let s := link2 upLink (counted {} base)
    s.linkOf 2 = upLink ∧ isExternal 2 = true ∧ isExternal 1 = false ∧ upLink.up = true ∧ ({} : Link).up = false ∧ upLink.rx = 8
      ∧ s.portRuns 2 = true ∧ s.dev.portOn 2 = true ∧ (s.onDev fun d => { d with ptsize := 0x030602 }).dev.portOn 2 = false
      ∧ s.dev.halted (2 / 6) = false ∧ (s.onDev fun d => { d with diestat := setV d.diestat 0 1 }).dev.halted (2 / 6) = true
      ∧ flitGood zeros64 (trailer 8 (some 18)) = true ∧ flitGood zeros64 1 = false ∧ bitsN (trailer 8 (some 18)) 31 20 = upLink.rx.toNat
      ∧ bitsN (trailer 9 none) 31 20 ≠ upLink.rx.toNat ∧ (trailer 8 (some 18)).getLsbD 16 = true ∧ (trailer 8 none).getLsbD 16 = false
      ∧ (18 : BitVec 12).toNat = bitsN (trailer 8 (some 18)) 15 4 ∧ bitsN (trailer 8 none) 3 0 = 0 ∧ bitsN (trailer 8 none 1) 3 0 = 1
      ∧ flitGood zeros64 (trailer 8 none 1) = true ∧ upLink.wait = [] ∧ ({ upLink with asked := true } : Link).asked = true
      ∧ (upLink.tx - 1 - 16).toNat = upLink.retry.length ∧ upLink.retry.length < (upLink.tx - 1 - 15).toNat
      ∧ s.dev.ptctl.getLsbD 0 = true ∧ netMsg.ptid.toNat = bitsN s.dev.ptctl 31 16 ∧ ({ netMsg with ptid := 8 }).ptid.toNat ≠ bitsN s.dev.ptctl 31 16
      ∧ netMsg.kind = 0 ∧ s.dev.slotOf netMsg.job ≠ none ∧ base.dev.slotOf netMsg.job = none := by decide +kernel
/-- The package port 1 and its peer 13, which keeps one packet, are up. -/
def package1 (p : Packet) : State := ((counted {} base).onLink 1 fun l => { l with lnk := 2 }).onLink 13 fun l => { l with lnk := 2, retry := [{ pkt := some p }] }
theorem witness_LinksCarryFlitsInOrderAndFail_package :
    let u := package1 packet
    packagePeer 1 = 13 ∧ u.portRuns 1 = true ∧ (u.linkOf 13).retry = [{ pkt := some packet }] ∧ (u.linkOf 13).wait = []
      ∧ u.dev.halted (13 / 6) = false ∧ packet.guarded = true ∧ ({ packet with kind := .nack } : Packet).guarded = false
      ∧ u.dev.slotOf packet.job ≠ none ∧ base.dev.slotOf packet.job = none ∧ (base.linkOf 13).retry = []
      ∧ (u.onDev fun d => { d with diestat := setV d.diestat 2 1 }).dev.halted (13 / 6) = true := by decide +kernel
theorem witness_LinksCarryFlitsInOrderAndFail_down :
    let p := bitsN base.dev.kaper 31 0
    (link2 { upLink with idleTx := p / 4 } base).portRuns 2 = true ∧ p / 4 - 1 < p / 4 ∧ upLink.retry.length < 512
      ∧ 512 ≤ (List.replicate 512 ({} : Flit)).length ∧ ({ upLink with wait := [{}] } : Link).wait ≠ []
      ∧ ({ upLink with idleRx := 3 * p }).idleRx = 3 * p ∧ 3 * p - 1 < 3 * p ∧ base.portRuns 2 = false
      ∧ (∃ f ∈ ([{ replays := 16 }] : List Flit), 16 ≤ f.replays) ∧ (∀ f ∈ ([{ replays := 15 }] : List Flit), f.replays < 16)
      ∧ ([({ pkt := some packet } : Flit), {}]).filterMap (·.pkt) = [packet] ∧ packet.kind ≠ .lost
      ∧ ([({} : Flit)]).filterMap (·.pkt) = [] ∧ (link2 upLink (counted {} base)).dev.slotOf packet.job ≠ none
      ∧ ({ lnk := 4 } : Link).down = true ∧ ({ lnk := 4 } : Link).up = false ∧ ({ lnk := 4, training := true } : Link).training = true
      ∧ ({} : Link).down = false ∧ (link2 { lnk := 4 } base).dev.portOn 2 = true := by decide +kernel
theorem witness_FloodsAndPartitions :
    (base.dev.floods.any fun f => f.die == 0 && f.id == 0x33 && f.thaw == false) = false ∧ base.ctx.id.sup = false
      ∧ base.ctx.id.present = true ∧ tDie base.ctx.id.tile = 0 ∧ (link2 upLink base).dev.ptctl.getLsbD 0 = true
      ∧ (link2 upLink base).portRuns 2 = true ∧ isExternal 2 = true ∧ 2 / 6 = 0 ∧ base.portRuns 2 = false ∧ isExternal 1 = false
      ∧ (base.dev.floods.filter fun f => f.id == 0x33 && f.thaw == false).length = 0
      ∧ base.dev.floodOut = []
      ∧ (∀ f ∈ (link2 upLink base).dev.floods, f.die.toNat ≠ 2 / 6 ∨ f.id ≠ 0x33 ∨ f.thaw ≠ false)
      ∧ (let t := after (.freezeFloodReceive 2 0x33 false) (link2 upLink base)
         t.dev.floods.any fun f => f.die.toNat == 0 && f.id == 0x33 && f.thaw == false) = true := by decide
theorem witness_FloodsAndPartitions_ports :
    base.dev.ptctl.getLsbD 0 = false ∧ partitionOk 0x180202 0x170000 = true ∧ partitionOk 0x180202 0x180000 = false
      ∧ partitionOk 0x014040 0x001F1F = true ∧ partitionOk 0x014042 0 = false ∧ partitionOk 0x010202 0 = true ∧ partitionOk 0x000202 0 = false
      ∧ partitionOk 0x010203 0 = false := by decide

/-- Head words 0 and 1 of an image of length 0 with key index 0 and SVN 2^32 − 1. -/
def staged : State := wordsAt (spadKey 0 0) [0x000000014D574644, 0xFFFFFFFF] base
theorem witness_BootChecksTheImageAndReports :
    bitsN base.dev.bootstat 3 0 = 1 ∧ bitsN (checking base).dev.bootstat 3 0 = 2 ∧ (checking base).dev.bootAgree = true
      ∧ (1 : Word).getLsbD 0 = true ∧ (2 : Word).getLsbD 0 = false ∧ bitsN (0x10F : Word) 3 0 = 15 ∧ bitsN (0x700000003 : Word) 3 0 = 3 ∧ bitsN (0x700000004 : Word) 3 0 = 4
      ∧ bitsN (base.stageWord 0) 31 0 ≠ 0x4D574644 ∧ base.imageErr true = 1
      ∧ bitsN ((wordsAt (spadKey 0 0) [0x000000024D574644] base).stageWord 0) 39 32 ≠ 1
      ∧ (let s := wordsAt (spadKey 0 0) [0x000000014D574644, 0, 8385472] base
         s.imageErr true = 2 ∧ s.imageErr true ≠ 1 ∧ 8385408 < (s.stageWord 2).toNat ∧ (s.stageWord 2).toNat % 64 = 0)
      ∧ (8385408 : Nat) % 64 = 0 ∧ (0x7FFFF8 : BitVec 23).toNat % 8 = 0 ∧ base.mem.wf = true
      ∧ base.dev.attcmd.getLsbD 63 = false ∧ (0x8000000000001040 : Word).getLsbD 63 = true := by decide +kernel
/-- Where the open constants accept an image, no check fails; where they revoke its key, check 3 does. -/
theorem witness_BootChecksTheImageAndReports_accepted (hr : Config.revoke[0] = false)
    (hp : shake (staged.stageBytes 64 1793) 64 = (Config.rootd 0).toList)
    (hv : falconVerify (staged.stageBytes 64 1793) (shake (staged.stageBytes 0 1857) 64) (staged.stageBytes 1857 1280) = true) :
    staged.imageErr true = 0 := by
  have h0 : staged.stageWord 0 = 0x000000014D574644 := by decide +kernel
  have h1 : staged.stageWord 1 = 0xFFFFFFFF := by decide +kernel
  have h2 : staged.stageWord 2 = 0 := by decide +kernel
  have h3 : ((List.range 5).any fun i => staged.stageWord (3 + i) != 0) = false := by decide +kernel
  have hm : ¬ (4294967295 < Config.minsvn.toNat) := by have := Config.minsvn.isLt; omega
  simp only [State.imageErr, h0, h1, h2, h3, show bitsN (0x000000014D574644 : Word) 63 48 = 0 from by decide,
    show bitsN (0x000000014D574644 : Word) 39 32 = 1 from by decide, show bitsN (0x000000014D574644 : Word) 31 0 = 0x4D574644 from by decide,
    show bitsN (0xFFFFFFFF : Word) 63 32 = 0 from by decide, show bitsN (0x000000014D574644 : Word) 47 40 = 0 from by decide,
    show bitsN (0xFFFFFFFF : Word) 31 0 = 4294967295 from by decide, show (0 : Word).toNat = 0 from rfl]
  simp [hr, hp, hv, hm]
theorem witness_BootChecksTheImageAndReports_revoked (hr : Config.revoke[0] = true) : staged.imageErr true = 3 := by
  have h0 : staged.stageWord 0 = 0x000000014D574644 := by decide +kernel
  have h1 : staged.stageWord 1 = 0xFFFFFFFF := by decide +kernel
  have h2 : staged.stageWord 2 = 0 := by decide +kernel
  have h3 : ((List.range 5).any fun i => staged.stageWord (3 + i) != 0) = false := by decide +kernel
  simp only [State.imageErr, h0, h1, h2, h3, show bitsN (0x000000014D574644 : Word) 63 48 = 0 from by decide,
    show bitsN (0x000000014D574644 : Word) 39 32 = 1 from by decide, show bitsN (0x000000014D574644 : Word) 31 0 = 0x4D574644 from by decide,
    show bitsN (0xFFFFFFFF : Word) 63 32 = 0 from by decide, show bitsN (0x000000014D574644 : Word) 47 40 = 0 from by decide,
    show (0 : Word).toNat = 0 from rfl]
  simp [hr]

theorem witness_HostRegistersKeysAndImages :
    base.ctxAt 1 0 = none ∧ base.ctx.id.present = true ∧ base.ctx.id.tile = 0 ∧ base.ctx.id.num = 0
      ∧ (logged base).ctx.logSteer = false ∧ (5 : Nat) + 2 ^ 24 - (logged base).ctx.logRD ≤ 2 ^ 24 + (logged base).ctx.logUsed
      ∧ (logged base).ctx.logUsed < 6
      ∧ ((logged base).onCsr fun c => { c with loglim := 0xA000000000000040 }).ctx.logSteer = true
      ∧ (6 : BitVec 3).toNat = 6 ∧ (5 : BitVec 3).toNat < 6 ∧ (8 : Nat) ≠ (7 : BitVec 20).toNat
      ∧ base.dev.ptctl.getLsbD 0 = false ∧ (partition 0 base).dev.ptctl.getLsbD 0 = false
      ∧ ((0x5E3201900031 : Word).getLsbD 0 && decide (bitsN (0x5E3201900031 : Word) 47 40 < 95)) = true
      ∧ bitsN (0x5F3201900031 : Word) 47 40 = 95 ∧ (base.onCsr fun c => { c with holdFlood := [3] }).ctx.csr.holdFlood ≠ [] := by decide
theorem witness_ErrorsClocksAndReset :
    base.ctxAt 1 0 = none ∧ base.ctx.id.present = true ∧ base.ctx.id.tile = 0 ∧ base.ctx.id.num = (0 : BitVec 8).setWidth 2
      ∧ base.ctx.id.num = BitVec.ofNat 2 (bitsN (2 : BitVec 8) 6 5) ∧ base.ctx.cfg (bitsN (2 : BitVec 8) 4 0) = none
      ∧ (let s := withCfg 2 firedA base
         (s.ctx.cfg (bitsN (2 : BitVec 8) 4 0)).any fun g => g.fault.isNone && (g.partAt 0).isSome && (g.partAt 1).isNone && (g.partAt 0x1000).isSome && (g.partAt 0x1002).isNone) = true := by
  decide +kernel
theorem witness_ErrorsClocksAndReset_clock :
    let s := cycles20 0x30 base
    let sum (p : Nat) : Nat := p + (((List.range 4).filter (· != 1)).map fun j => bitsN (s.dev.diestat.getD j 0) 31 16).sum
    let capOn := 0x01F40001
    s.dev.clk.getD 1 0 = 2 ^ 20 ∧ s.dev.diestat.getD 1 0 = 0x30 ∧ (0x30 : Word).getLsbD 0 = false ∧ (0x31 : Word).getLsbD 0 = true
      ∧ base.dev.clk.getD 1 0 < 2 ^ 20 ∧ bitsN (0x30 : Word) 7 4 = 3 ∧ bitsN (0x30 : Word) 7 4 < 12 ∧ bitsN (0xC0 : Word) 7 4 = 12
      ∧ bitsN (capOn : Word) 31 16 = 500 ∧ (capOn : Word).getLsbD 0 = true ∧ 500 < sum 501 ∧ ¬500 < sum 500 ∧ sum 399 + 100 < 500
      ∧ ¬sum 400 + 100 < 500 ∧ s.dev.capped.getD 1 false = false := by decide


/-! Witnesses of single clauses -/

theorem witness_StepRunsTheDecodedSlot_gates : placed.gating = false ∧ placed.dev.damage = []
    ∧ (match exec .retire placed with | .next t => t.dev.gated == false | _ => false) = true := by decide +kernel
theorem witness_ScalarFrame_forms : Instr.retire.isBranch = false ∧ (Instr.bri 0).isBranch = true ∧ (Instr.call 0 none).isBranch = true
    ∧ isNext (exec (.bri 0) (base.onBlk fun b => { b with addr := 0x8000 })) = true ∧ Instr.tlbinv ≠ .ill := by decide
theorem witness_RegionCommandsApply_release :
    let s := withStream 9 (str true 2 4 []) base
    let a : Word := 0x13400001
    a.getLsbD 24 = true ∧ bitsN a 29 25 = 9 ∧ s.ctx.streamFit 9 true 2 = true ∧ base.ctx.streamFit 9 true 2 = false
      ∧ (s.ctx.claimAll [9]).isSome = true ∧ (withStream 9 { str true 2 4 [] with claim := some (.collar 2) } base).ctx.streamFit 9 true 2 = true
      ∧ (withStream 9 { str true 2 4 [] with claim := some (.collar 2) } base).ctx.claimAll [9] = none
      ∧ ({ reg2 with dest := true, ostr := 9 } : Region).dest = true := by decide +kernel
/-- A region of I4 with scales, and streams for elements, scales and partials. -/
def regQ : Region := { reg2 with afmt := some 8, wfmt := some 8 }
def quadState (sc : List Elem) : State :=
  withStream 7 (str false 2 4 [{ val := 0x55 }]) (withStream 8 (str false 3 4 sc) (withStream 6 (str false 2 4 [{ val := 1 }, { val := 2 }])
    (withStream 5 (str false 3 1 [{ val := 1 }]) (withReg regQ base))))
theorem witness_WeightLoadsAndPasses_quad :
    let s := quadState [{ val := 0x2000000000000077 }]
    regQ.wfmt.isSome = true ∧ quadFmt regQ.wf = true ∧ quadFmt regQ.af = true ∧ bitsN (7 + 8 * 32 : Word) 4 0 = 7 ∧ bitsN (7 + 8 * 32 : Word) 9 5 = 8
      ∧ s.ctx.streamFit 7 false 2 = true ∧ s.ctx.streamFit 8 false 3 = true ∧ (s.ctx.claimAll [7, 8]).isSome = true
      ∧ (matrix (eff (.mwld 3) (7 + 8 * 32) 0) s).ctx.mayStart (eff (.mwld 3) (7 + 8 * 32) 0) = true
      ∧ (matrix (eff (.mwld 3) (7 + 8 * 32) 0) s).mBlocked (eff (.mwld 3) (7 + 8 * 32) 0) = false
      ∧ ((regQ.h * Machine.lanesOf regQ.wf + 3) / 4 + 2) / 3 = 1 ∧ ([] : List Word).length < 1 * (0 % regQ.w + 1) ∧ 1 * (0 % regQ.w + 1) ≤ [(0 : Word)].length
      ∧ s.ctx.supply 8 1 = .ready ∧ s.ctx.head 8 1 = [{ val := 0x2000000000000077 }] ∧ bitsN (0x2000000000000077 : Word) 63 60 ≠ 0
      ∧ (quadState []).ctx.supply 8 1 = .later ∧ s.ctx.supply 7 1 = .ready ∧ s.ctx.head 7 1 = [{ val := 0x55 }] := by decide +kernel
/-- A = stream 5, partials from 6, scales from 8, one row. -/
def quadStep : Word := 5 + 6 * 32 + 8 * 1024 + 2 ^ 15 + 2 ^ 16
theorem witness_WeightLoadsAndPasses_partials :
    let s := quadState [{ val := 0x77 }]
    let e := eff (.mstep 3) quadStep 0
    bitsN quadStep 4 0 = 5 ∧ bitsN quadStep 9 5 = 6 ∧ bitsN quadStep 14 10 = 8 ∧ quadStep.getLsbD 15 = true ∧ bitsN quadStep 31 16 = 1
      ∧ (matrix e s).ctx.mayStart e = true ∧ (matrix e s).mBlocked e = false ∧ regQ.afmt.isSome = true ∧ s.tile.acc = [] ∧ regQ.dest = false
      ∧ s.ctx.streamFit 5 false 3 = true ∧ s.ctx.streamFit 8 false 3 = true ∧ s.ctx.streamFit 6 false 2 = true
      ∧ (s.ctx.claimAll ([5] ++ [6] ++ [8] ++ [])).isSome = true
      ∧ s.ctx.supply 5 ((regQ.h + 3) / 4) = .ready ∧ s.ctx.supply 8 1 = .ready ∧ s.ctx.supply 6 regQ.w = .ready
      ∧ (quadState []).ctx.supply 8 1 = .later ∧ (withStream 6 (str false 2 1 [{ val := 1 }]) s).ctx.supply 6 regQ.w = .ended := by decide +kernel
/-- Handle 2 with a monitor of 16 cycles, 20 of them counted. -/
def hangs : State := (withCfg 2 { cfgA with fired := true, hang := some (16, 0x400), idleAt := 0, chans := [[{ val := 3 }], []] } base).onCsr fun c =>
  { c with budget := 20 }
theorem witness_HandleCommandsApply_freeze :
    let u := (engine (eff (.cfreeze 2) 0 0) (collar (eff (.cfreeze 2) 0 0) hangs)).1
    (withCfg 2 cfgA base).hangFirst 2 = none ∧ (withCfg 2 { cfgA with frozen := true } base).hangFirst 2 = none
      ∧ (match u.ctx.handles.getD 2 none with
          | some g => !g.frozen && g.fault.isNone && g.hang == some (16, 0x400) && g.fired && decide (16 ≤ (g.accrue 20).idle)
          | none => false) = true
      ∧ ({ cfgA with fault := some (0, 0x0B0) } : CollarCfg).frozen = false := by decide +kernel
def globalCtl : Except Refused Loc × State → Option (Nat × Nat) | (.ok (.ctl p o), _) => some (p, o) | _ => none
theorem witness_StoreIsHeldThenStoresItsBytes_privileged :
    let s := (mapped (addr 0x208000)).onDev fun d => { d with tlb := d.tlb.map fun x => { x with pte := 0xDF } }
    s.opA.poison = false ∧ globalCtl (s.place .global .wr s.a 8) = some (0, 0x8000) ∧ s.ctx.id.sup = false ∧ ctlWs 0 0x8000 = true := by
  decide +kernel
theorem witness_VectorAccessesAndTagTable_places :
    let ks := [base.ctx.winKey 0x40, base.ctx.winKey 0x80]
    let e : Eff := { eff (.stv .window 1 0 none) 0 0 with locs := ks.map .mem, ws := [7, 9], wp := [false, false] }
    e.locs = ks.map .mem ∧ e.ws.length = ks.length ∧ e.wp = ks.map (fun _ => false) ∧ ks.Nodup
      ∧ ks.all (fun k => k % 4 == 0 && !base.mem.poisoned k && base.dev.keyAt e.keyslot.toNat k == none) = true ∧ base.mem.wf = true
      ∧ (lcmd e base).who = .cmd e := by decide +kernel
theorem witness_AtomicsAreHeldAndHandedOver_reserved :
    let s := noLanes.onBlk fun b => { b with slots := [{ word := 0, expA := true, a := some ⟨0x0100000000000000, false⟩ }] }
    s.who = .core ∧ s.opA.poison = false ∧ s.activeLanes 0 = [] ∧ bitsN s.a 61 56 ≠ 0 := by decide +kernel
theorem witness_CopyCommandsQueueAndAnswer_cancel :
    let s := runs1 { req := oneBlock } base
    (s.ctx.chan 2).run = some { req := oneBlock } ∧ s.copyPerformed 2 oneBlock = true ∧ (4 : Word).getLsbD 2 = true ∧ (base.ctx.chan 2).run = none
      ∧ (4 : Word) = BitVec.ofNat 64 (2 ^ 2) ∧ s.ctx.chan 2 = { queue := [], run := some { req := oneBlock } }
      ∧ (atUnit [{ upd .add .w 5 with stream := 36 }] base).copyPerformed 2 { oneBlock with merge := some .maxW } = false := by decide +kernel
theorem witness_CopyChannelsRunRequests_owed :
    let s := base.onSync fun y => { y with pushes := [⟨1, { unit := 2 }⟩] }
    (s.ctx.sync.pushes.any (·.origin.unit == 2)) = true ∧ (base.ctx.sync.pushes.any (·.origin.unit == 2)) = false := by decide
/-- The first of two participants, with exchanges still to send. -/
def collWith (a b : CollPart) : State := base.onDev fun d => { d with
  colls := [{ collBoth with parts := [a, b] }], jobs := setV d.jobs 0 { active := true, job := 0 } }
theorem witness_CopyChannelsRunRequests_exchanges :
    let a := { collPart with left := some 1 }
    let b := { collPart with ctx := 5, chan := 3, index := 1, left := some 0 }
    let s := collWith a b
    s.collOf (0, 2, 0, 0) = some { collBoth with parts := [a, b] } ∧ ({ collBoth with parts := [a, b] } : Coll).ranked = [a, b]
      ∧ (firstIdx (s.ctx.isPart 2) [a, b] 0).getD 0 = 0 ∧ a.kerf = false ∧ a.out = none ∧ a.left = some (0 + 1)
      ∧ [a, b][(0 + 1) % 2]? = some b ∧ (s.dev.slotOf s.ctx.id.job).isSome = true
      ∧ ({ a with kerf := true }).kerf = true ∧ ({ a with out := some 4 }).out.isSome = true ∧ ({ a with left := some 0 }).left = some 0
      ∧ b.lost = false ∧ b.kerf = false ∧ b.out = none ∧ b.left = some 0 := by decide +kernel
theorem witness_CopyChannelsRunRequests_sender :
    let d := { parseEdge 0 0 with dst := portEp 0 0 }
    copyCfg.portIn 0 0 = some 0 ∧ copyNext.portIn 0 0 = some 0 ∧ copyCfg.img.edges[0]? = some d ∧ copyNext.img.edges[0]? = some d ∧ epPort d.src = false
      ∧ copyCfg.img.nodeAt (epNode d.src) (epSlot d.src) = some 0 ∧ copyCfg.img.nodes[0]? = some (parseNode 0x3000 0) ∧ copyCfg.fault = none
      ∧ (bound0 (withCfg 2 copyCfg base)).hangFirst 2 = none := by decide +kernel
theorem witness_MessageFormsAnswer_counts :
    let e := { eff (.ksend true 5 none none) 0x40 9 with ws := [header, 1, 20], ser := 1 }
    let s := kcmd e (winWords 0x40 [header, 0x44332211] (jobbed base))
    let v := kcmd e (base.onDev fun d => { d with jobs := setV d.jobs 0 { active := true, job := 0 } })
    s.readWaits e (s.ctx.bodyKeys e) = false ∧ (v.placementEntry v.ctx.id.job (bitsN header 31 0)).getLsbD 63 = false
      ∧ v.ctx.csr.budget.toNat < (20 : Word).toNat ∧ (v.dev.slotOf v.ctx.id.job).isSome = true ∧ s.ctx.kq ≠ [] ∧ s.dev.upsets = []
      ∧ (atUnit [upd .add .w 5] base).readWaits { e with upd := 9 } [base.ctx.winKey 16] = true
      ∧ (issueW (.krecv 3 toA toB) ⟨0x8000000000000000, false⟩ {}).deadline (issueW (.krecv 3 toA toB) ⟨0x8000000000000000, false⟩ {}).a = .poll := by
  decide +kernel
theorem witness_PacketsMoveAndArrive_counts :
    let s := (flying { packet with dst := 0x09 } (jobbed base)).onTile fun t => { t with kerf := setV t.kerf 1 0x200 }
    ({ packet with kind := .coll } : Packet).kind = .coll ∧ packet.srcMod = (s.tileOf packet.pos).module ∧ (s.tileOf 0).slotPass 1 0 = true
      ∧ (s.tileOf 0).kerfPass 1 0 = false ∧ s.ctx.sends = [sendOne] ∧ sendOne.id = packet.send ∧ (s.dev.slotOf packet.job).isSome = true
      ∧ (s.dev.slotOf s.ctx.id.job).isSome = true := by decide +kernel
theorem witness_WaitsReturnOrPend_poison :
    let p (i : Instr) : State := issueW i ⟨0, true⟩ ⟨0, false⟩
    let q (i : Instr) (a : Word) : State := issueW i ⟨a, false⟩ ⟨0, true⟩
    let go (i : Instr) (s : State) : Bool := decode (s.fir.blk.slots.getD 0 { word := 0 }).word == .ok i
    go kw (q kw 0) = true ∧ (q kw 0).opB.poison = true ∧ (p kw).opB.poison = false ∧ (p kw).opA.poison = true ∧ (p kw).b.toNat < 128
      ∧ go kq (p kq) = true ∧ (p kq).opA.poison = true ∧ go ldh (p ldh) = true ∧ (p ldh).opA.poison = true
      ∧ (let s := (q ldh 63).onDev fun d => { d with hch := setV d.hch 63 { d.hch.getD 63 {} with ctl := 2 } }
         s.opA.poison = false ∧ s.opB.poison = true ∧ s.a.toNat < 64 ∧ s.hostGiven (s.a.setWidth 6) 1 = true)
      ∧ go joinI (p joinI) = true ∧ (p joinI).opA.poison = true ∧ (q joinI 5).opA.poison = false ∧ (q joinI 5).opB.poison = true
      ∧ go fenceI (p fenceI) = true ∧ (p fenceI).opA.poison = true ∧ (q fenceI 1).opA.poison = false ∧ (q fenceI 1).opB.poison = true := by
  decide +kernel
/-- POLL as the deadline. -/
def polls (i : Instr) (a : Word) (first : Bool := false) : State :=
  if first then both i 0x8000000000000000 a else both i a 0x8000000000000000
theorem witness_WaitsReturnOrPend_poll :
    (polls kw 5 true).deadline (polls kw 5 true).a = .poll ∧ (polls kw 5 true).pAB = false ∧ (polls kw 5 true).ctx.sync.evq = []
      ∧ (polls kq 0 true).deadline (polls kq 0 true).a = .poll
      ∧ (let s := (polls ldh 63).onDev fun d => { d with hch := setV d.hch 63 { d.hch.getD 63 {} with ctl := 2 } }
         s.deadline s.b = .poll ∧ (s.dev.hch.getD s.a.toNat {}).ready = [] ∧ s.hostGiven (s.a.setWidth 6) 1 = true)
      ∧ (let s := child { isOpen := true } (polls joinI 5)
         s.deadline s.b = .poll ∧ (s.ctx.sync.children.getD 5 {}).isOpen = true ∧ s.childStatus (s.ctx.sync.children.getD 5 {}) = none)
      ∧ (polls fenceI 9).deadline (polls fenceI 9).b = .poll
      ∧ (let w (s : State) : Nat := (s.setWait 0 { on := .fence 9 4 1 {}, expiry := none, poll := true }).drainedMask 9 4 1 {}
         let waits (s : State) := s.onCtx fun c => { c with lq := [{ eff (.st .window .s8 none none) 0 0 with ser := 4 }] }
         w (polls fenceI 9) = 9 ∧ w (waits (polls fenceI 9)) = 8)
      ∧ (0x10 : BitVec 6).getLsbD 4 = true ∧ (base.onCsr fun c => { c with fixord := 1 }).fixedSeen = true ∧ base.fixedSeen = false := by
  decide +kernel
theorem witness_FifosFlagsAndEventQueue_pushes :
    let s := base.onSync fun y => { y with pushes := [⟨1, {}⟩, ⟨2, {}⟩, ⟨2, {}⟩] }
    s.ctx.sync.pushes = [⟨1, {}⟩] ++ ⟨2, {}⟩ :: [⟨2, {}⟩] ∧ ([⟨1, {}⟩] : List Push).all (fun y => y.q != 2) = true
      ∧ s.ctx.sync.pushes.all (fun y => y.q != 3) = true ∧ base.ctx.susp = [] ∧ ([(base.fir.id : Word)]).map (·.toNat) = [base.fir.id] := by decide
theorem witness_QuietWavesCountMessages_slots :
    (slotsUsed {}).slotWanted = true ∧ base.slotWanted = false ∧ ((slotsUsed {}).dev.jobs.getD 3 {}).active = false
      ∧ ((slotsUsed {}).dev.jobs.getD 3 {}).dirty = true ∧ base.dev.quietWait = [] ∧ base.dev.modules ≤ 1
      ∧ (let s := (partition 0x030604 base).onDev fun d => { d with ptctl := 0x50001 }
         1 < s.dev.modules ∧ s.dev.wave = none) := by decide +kernel
theorem witness_TrapReturnsAndBreakpoints_debug :
    let b (w : Word) : State := base.onCsr fun c => { c with debug := w }
    ((b 1).seenReg .debug (b 1).ctx.csr.debug).getLsbD 0 = true ∧ ((b 2).seenReg .debug (b 2).ctx.csr.debug).getLsbD 1 = true
      ∧ ((b 2).seenReg .debug (b 2).ctx.csr.debug).getLsbD 0 = false ∧ (base.seenReg .debug base.ctx.csr.debug).getLsbD 1 = false
      ∧ (suspended 0xC000000000000000 base).dev.upsets = [] ∧ (faulted divFault 0x9000 base).dev.upsets = [] := by decide +kernel
/-- A CTXSAVE whose area is written but for its last words. -/
def saveMid (ws : List Word) : State × Eff :=
  let e := { eff .ctxsave 0 0x200000 with started := true, ws := ws }
  ({ base.onCtx fun c => { c with zq := [e] } with who := .cmd e }, e)
theorem witness_SystemCommandsApply_save :
    let (s, e) := saveMid [0, 1, 7, 0x100]
    let (v, f) := saveMid [0, 1, 7, 0x100, 1]
    e.ws = [BitVec.ofNat 64 s.ctx.id.uid, 1, 7, 0x100] ∧ f.ws = [BitVec.ofNat 64 v.ctx.id.uid, 1, 7, 0x100, 1] ∧ s.ctx.mapq = []
      ∧ s.ctx.holdEngine = none ∧ s.ctx.id.present = true ∧ s.dev.upsets = [] ∧ v.ctx.mapq = [] := by decide +kernel
/-- A context saved with tag 7, and a CTXLOAD of CTXID 2 that has read its area. -/
def loadMid (ws : List Word) : State × Eff :=
  let e := { eff .ctxload 2 0x200000 with started := true, ws := ws }
  ((base.onCtx fun c => { c with zq := [e] }).onDev fun d => { d with
    saved := [{ ctx := { base.ctx with id := { base.ctx.id with uid := 5 } }, tag := 7, regions := [], acc := [], bytes := 0x100, frozen := false }] }, e)
theorem witness_SystemCommandsApply_load :
    let (s, e) := loadMid ([1024, 1, 7] ++ List.replicate 256 0)
    e.ws = 1024 :: 1 :: 7 :: 0 :: List.replicate 255 0 ∧ ((s.dev.saved ++ s.dev.spent).find? (·.tag == 7)).isSome = true
      ∧ base.claims 0 = [] ∧ base.ctxAt 0 2 = none ∧ (base.freeRow 0 1).isSome = true := by decide +kernel
theorem witness_BlocksAreFetchedCheckedAndCommitted_overrun :
    let s := ended .retire {} base
    s.ctx.csr.budget.toNat - s.fir.started ≤ s.actorNow.fmax ∧ s.dev.upsets = [] := by decide +kernel
theorem witness_ActorsFireAndSegmentsTurn_log : base.ctx.log.done = []
    ∧ ({ eff .ctxload 0 0 with started := true, since := some 0 } : Eff).ws.length ≠ 1 := by decide
theorem witness_LaunchesAreTakenAndPlaced_partition :
    let s := (partition 0x030604 (tabled base)).onDev fun d => { d with ptctl := 0x50001 }
    1 < s.dev.modules ∧ base.dev.modules ≤ 1 ∧ base.zoneHome = 0 := by decide +kernel
theorem witness_HostChannelsMoveInOrder_owner :
    let o : OutTok := { val := 0x77, ctrl := 2, job := some 3 }
    let s := chan9 { egress with out := [o] } base
    s.ownerOk 9 o = false ∧ s.ownerOk 9 { o with job := none } = true ∧ s.ownerOk 9 { o with job := some 0 } = true
      ∧ ({ o with keep := 0xF0 } : OutTok).keep.getLsbD 7 = true ∧ ({ o with keep := 0xF0 } : OutTok).keep.getLsbD 3 = false := by decide +kernel
/-! ### Blocks ahead of commit (06 R147, R150) -/

/-- A block runs whose exit is predicted to lead to the block at 0x200000, which stands fetched when `f` is given. -/
def aheadOf (f : Option Block) : State := (fetching.onDev fun d => { d with tlb := d.tlb.map fun x => { x with pte := 0x20003F } }).onFir fun r =>
  { r with phase := .run, fetched := f, blk := { addr := 0x8000, hdr := 0xB0000000, slots := [{ word := encode (.bri 9) }], next := some 0x200000 } }
def retireBlock : Block := { addr := 0x200000, hdr := 0xB0000200, slots := [{ word := encode .retire }] }
theorem test_fetch_ahead : let t := after .blockFetch (aheadOf none)
    (t.fir.phase, t.fir.blk.addr, t.fir.fetched.map (·.addr), t.fir.fetched.map (·.hdr)) = (.run, 0x8000, some 0x200000, some 0xB0000200) := by
  decide +kernel
theorem test_dispatch_ahead : let t := after .blockDispatch (aheadOf (some retireBlock))
    (t.fir.ahead.map (·.addr), t.fir.fetched, t.fir.blk.addr) = ([0x200000], none, 0x8000) := by decide +kernel
/-- RET of the youngest block is 1. -/
theorem test_ahead_ret : (aheadOf none |>.onBlk fun b => { b with hdr := 0xB0000200 }).fir.aheadAt = none := by decide +kernel
def twoAhead (t : Word) : State := (ended (.to t) {} base).onFir fun f => { f with ahead := [{ addr := 0xA000 }, { addr := 0xB000 }] }
theorem test_commit_ahead : let t := after .blockCommit (twoAhead 0xA000)
    (t.fir.phase, t.fir.blk.addr, t.fir.ahead.length, t.ctx.csr.perf.getD 1 0) = (.run, 0xA000, 1, 0) := by decide +kernel
theorem test_commit_abandons : let t := after .blockCommit (twoAhead 0xC000)
    (t.fir.phase, t.fir.pc, t.fir.ahead.length, t.ctx.csr.perf.getD 1 0) = (.fetch, 0xC000, 0, 2) := by decide +kernel
/-- A READ ahead of commit waits for the WRITE of the block before it, and reads what that holds. -/
def readsAhead (b : Block) : State := base.onFir fun f => { f with
  phase := .run, blk := { b with slots := b.slots ++ [{ word := encode (.write (.g 5)), st := if b.gw.isEmpty then .wait else .done }] }
  ahead := [{ slots := [{ word := encode (.read (.g 5) none) }] }] }
theorem test_read_ahead : (readsAhead {}).aheadPicks.length = 0
    ∧ (readsAhead { gw := [(0, 5, ⟨0x77, false⟩)] }).aheadPicks.map (fun p => (p.st.fir.regs.getD 5 0, p.slot)) = [(0x77, some 0)] := by
  decide +kernel
theorem witness_BlocksAreFetchedCheckedAndCommitted_ahead :
    let s := aheadOf none
    let u := s.onFir fun f => { f with blk := {} }
    s.fir.aheadAt = some 0x200000 ∧ s.fir.id ≠ 0 ∧ s.runs = true
      ∧ (match fetchWords 1 0x200000 u with
          | (.ok [h], v) => h == 0xB0000200 && (match fetchWords (bitsN h 27 22 + 1) 0x200004 v with | (.ok ws, _) => ws == [0x00800000] | _ => false)
          | _ => false) = true
      ∧ (match fetchWords 1 0x400000 u with | (.error _, _) => true | _ => false) = true
      ∧ (match fetchWords 1 0x20FFFC u with
          | (.ok [h], v) => (match fetchWords (bitsN h 27 22 + 1) (0x20FFFC + 4) v with | (.error _, _) => true | _ => false)
          | _ => false) = true
      ∧ (aheadOf (some retireBlock)).fir.fetched = some retireBlock ∧ s.fir.blk.rest = 0
      ∧ blockFault s.ctx.id.sup retireBlock.hdr (retireBlock.slots.map (·.word)) = none ∧ blockFault s.ctx.id.sup 0xB0000200 [0xFFFFFFFF] ≠ none
      ∧ (List.range 12).all (fun q => decide (s.entries q + 1 ≤ (if q < 8 then 64 else 16))) = true
      ∧ (twoAhead 0xA000).blockEnd = none ∧ (twoAhead 0xA000).fir.blk.effs = [] ∧ (twoAhead 0xA000).fir.blk.decided = true
      ∧ (twoAhead 0xA000).spaceWaits = false ∧ (twoAhead 0xA000).fir.blk.esc = [] := by decide +kernel


/-! ### Words and blocks of the spec's own examples, and refused terms -/

def decodes (l : List (Half × Instr)) : Bool := l.all fun x => decode x.1 == .ok x.2
/-- The block of 06, written out there to the bit. -/
theorem test_words_example : decodes [(0x120A010C, .read (.g 5) (some ⟨3, .a⟩)), (0x1100010D, .constw false (some ⟨3, .b⟩) none),
    (0x00822910, .add .w64 (some ⟨4, .a⟩) (some ⟨5, .a⟩)), (0x128A0000, .write (.g 5)), (0x01FFFB18, .addi (-3) (some ⟨6, .a⟩)),
    (0x15001200, .bri 9)] = true := by decide
/-- The loop of 08. -/
theorem test_words_scalar : decodes [(0x1302290D, .fan (some ⟨3, .b⟩) (some ⟨5, .a⟩)), (0x0D800136, .cne .w64 (some ⟨13, .p⟩) none),
    (0x0D00013A, .ceq .w64 (some ⟨14, .p⟩) none), (0x1080012D, .movi 0 (some ⟨11, .b⟩)), (0x01000000, .sub .w64 none none),
    (0x02800000, .mulh .w64 none none), (0x03000000, .mulhn .w64 none none), (0x07000000, .andn none none), (0x08800000, .sar .w64 none none),
    (0x0B800000, .popc .w64 none none), (0x0C800000, .zext .b8 none none), (0x11800000, .constd none none), (0x15800000, .call 0 none)] = true := by
  decide
/-- The block of 09. -/
theorem test_words_vector : decodes [(0x288820C0, .vqnt .qsi8 false 2 1 3), (0x288C20C8, .vqnt .qsi8 true 3 1 3), (0x291043C0, .vdqnt .qsi8 4 2 3 3),
    (0x2F930110, .vmovs (.lane false 4 0) 3 (some ⟨4, .a⟩)), (0x22800000, .vmax .fp32 0 0 0 0), (0x3C000000, .sett 8 0 0 0 0)] = true := by
  decide +kernel
/-- The block of 10. -/
theorem test_words_matrix : decodes [(0x40000000, .mregion 0), (0x40800000, .mfmt 0), (0x41000000, .mwld 0), (0x41800000, .mswap 0),
    (0x42000000, .mstep 0), (0x42800000, .macc 0)] = true := by decide
theorem test_words_collar : decodes [(0x60000000, .cload 0), (0x65000000, .sbind 0)] = true := by decide
/-- The tables of 11 and 13. -/
theorem test_words_memory : decodes [(0x802C0114, .ld .window false .s8 (some ⟨5, .a⟩) none), (0x83140000, .agen 5), (0x83940000, .astart 5),
    (0x82000000, .ldg 0 none none), (0x82800000, .sts 0 none none), (0x84800000, .abar), (0x85000000, .ldw 0), (0x85800000, .tlook none none),
    (0x86000000, .tset), (0x86800000, .tclr), (0x89800000, .ringdef 0), (0x8A000000, .ringstat 0 none none), (0x8A800000, .resume)] = true := by
  decide
theorem test_words_copy : decodes [(0xB0000000, .kcopy none none), (0xB0800000, .kgath none none), (0xB1000000, .kscat none none),
    (0xB2000000, .kport 0), (0xB2800000, .ksend false 0 none none), (0xB3000000, .krecv 0 none none), (0xB3800000, .kpoll 0 none none),
    (0xB4000000, .kcoll .allreduce none none), (0xB4800000, .kwait none none), (0xB5800000, .kcancel), (0xB6000000, .kstat none none)] = true := by
  decide
theorem test_words_sync : decodes [(0xC0000000, .bari .s0), (0xC0800000, .bara none none), (0xC1000000, .barw none none),
    (0xC1800000, .baraw none none), (0xC2000000, .bard none none), (0xC2800000, .bart none none), (0xC4800113, .waitf .all (some ⟨4, .o⟩) none),
    (0xC5040000, .setf true), (0xC5800000, .clrf false), (0xC6000000, .qwait none none), (0xC7800000, .join none none), (0xC8800000, .yield)] = true := by
  decide
theorem test_words_system : decodes [(0xE0000000, .trap 0), (0xE0800000, .tret), (0xE4000000, .spinv), (0xE5000000, .keysel), (0xE6000000, .brk)] = true := by
  decide
/-- The decoding examples of 07. -/
theorem test_words_refused : (decode 0, decode 0x104, decode 0x45000000, decode 0xA0000000)
    = (.ok .ill, .error .opcode, .error .opcode, .error .opcode) := by decide
theorem test_block_example : blockFault false 0xB1C20000 [0x120A010C, 0x1100010D, 0x12345678, 0x00822910, 0x128A0000, 0x01FFFB18, 0x128C0000, 0x15001200]
    = none := by decide +kernel
theorem test_block_scalar : blockFault false 0xB3820000 [0x12020104, 0x1302290D, 0x1204010C, 0x00800110, 0x12840000, 0x01FFFF18, 0x1302411C, 0x12820000,
    0x1302612C, 0x1080012D, 0x10800131, 0x0D800136, 0x0D00013A, 0x15000000, 0x15002000] = none := by decide +kernel
theorem test_block_vector : blockFault false 0xB1410000 [0x288820C0, 0x288C20C8, 0x291043C0, 0x2F930110, 0x12920000, 0x15000E00] = none := by
  decide +kernel
theorem test_block_matrix : blockFault false 0xB3801800 [0x11000120, 0x02020000, 0x10800124, 0x1080012C, 0x11000134, 0x00030001, 0x11000128,
    0x05400001, 0x40000000, 0x40800000, 0x42800000, 0x41000000, 0x41800000, 0x42000000, 0x15002000] = none := by decide +kernel
theorem test_block_stream : blockFault false 0xB0C00800 [0x10820104, 0x83140000, 0x83940000, 0x15000A00] = none := by decide +kernel
theorem test_block_wait : blockFault false 0xB1810000 [0x10801108, 0x10A00109, 0xC4800113, 0x10840110, 0x802C0114, 0x12880000, 0x15001000] = none := by
  decide +kernel
/-- KEYSEL in a tenant's block is the trap PRIV, in a supervisor's it is not (07 R164). -/
theorem test_block_priv : blockFault false 0xB0800000 [0x10800104, 0xE5000000, 0x15000000] = some (some 1, .priv) := by decide +kernel
theorem test_block_sup : blockFault true 0xB0800000 [0x10800104, 0xE5000000, 0x15000000] = none := by decide +kernel

theorem test_wf_vabs : ((Instr.vabs .n32 1 2 0).wf, (Instr.vabs .i32 1 2 0).wf) = (false, true) := by decide
theorem test_wf_vneg : ((Instr.vneg .n32 1 2 0).wf, (Instr.vneg .fp32 1 2 0).wf) = (false, true) := by decide
theorem test_wf_vcmp : ((Instr.vcmp .i32 .un 1 2 3 0).wf, (Instr.vcmp .fp32 .un 1 2 3 0).wf) = (false, true) := by decide
theorem test_wf_vbfly : ((Instr.vbfly .iadd 5 1 2 0).wf, (Instr.vbfly .iadd 4 1 2 0).wf) = (false, true) := by decide
theorem test_wf_ld : ((Instr.ld .global true .s8 none none).wf, (Instr.ld .host false .s4 none none).wf, (Instr.ld .host false .s8 none none).wf)
    = (false, false, true) := by decide
theorem test_wf_st : ((Instr.st .host .s4 none none).wf, (Instr.st .host .s8 none none).wf) = (false, true) := by decide
theorem test_wf_amo : ((Instr.amo .xor .f none none).wf, (Instr.amo .xor .d none none).wf) = (false, true) := by decide
theorem test_wf_event : (Instr.blockFetch.wf, Instr.retire.wf) = (false, true) := by decide

end Sys2Proof.Tests
end

-- ==== Proofs of the scope family: the reset state ====
section
/-! Where `State.reset` stands (00 R6): the tables that it lists by their default alone read the same at every index. -/

namespace Sys2Proof.Machine

/-- A table that holds one value reads it at every index, beyond its end too when that is the default. -/
theorem getD_replicate_default {α : Type} (n i : Nat) (a : α) : (Vector.replicate n a).getD i a = a := by
  simp only [Vector.getD, Array.getD_eq_getD_getElem?, Vector.toArray_replicate, Array.getElem?_replicate]
  split <;> rfl

theorem State.reset_linkOf (p : Nat) : State.reset.linkOf p = {} := getD_replicate_default 24 p ({} : Link)
theorem State.reset_chan (c : BitVec 6) : State.reset.chan c = {} := getD_replicate_default 64 c.toNat ({} : HostChan)
theorem State.reset_diestat (d : Nat) : State.reset.dev.diestat.getD d 0 = 0 := getD_replicate_default 4 d (0 : Word)

/-- No tile is listed at reset, so each reads as a fresh one of its number. -/
theorem State.reset_tileOf (x : BitVec 8) : State.reset.tileOf x = { num := x } := by
  unfold State.tileOf
  split
  · next h => rw [← h]; rfl
  · rfl

/-- Settles O5: the scalar fields by evaluation, the tables by the reads above. -/
theorem resetState : Obligations.ResetState := by
  refine ⟨by decide, rfl, by decide, by decide, rfl, rfl, rfl, rfl, by decide, rfl, rfl, by decide, by decide, by decide, rfl, rfl,
    rfl, rfl, rfl, rfl, rfl, fun c => ?_, fun p => ?_, State.reset_diestat, fun x => ?_⟩
  · rw [State.reset_chan]; decide
  · rw [State.reset_linkOf]; decide
  · rw [State.reset_tileOf]; exact ⟨rfl, rfl, rfl, rfl, rfl⟩

end Sys2Proof.Machine
end

-- ==== Proofs of the scope family: the canonical form of memory ====
section
/-! Every step keeps memory in its canonical form (04 R108, R109). For each operation of the model, in the order of its files, either
`f_mem`, it leaves memory as it is, or `f_wf`, it keeps memory in its form; an operation with a continuation keeps what the
continuation keeps. The operations on memory itself come first: all of them are made of `Memory.setByte`, `Memory.setPoison`,
`Memory.zero` and `Memory.rekey`, whose laws stand in Laws/Memory.lean. -/

namespace Sys2Proof.Machine
set_option Elab.async false

/-- Memory stands in its canonical form. -/
abbrev State.MemWf (s : State) : Prop := s.mem.wf = true
/-- A change of the state that leaves memory as it is. -/
abbrev KeepsMem (f : State → State) : Prop := ∀ s : State, (f s).mem = s.mem
/-- A change of the state that leaves memory in its form. -/
abbrev KeepsWf (f : State → State) : Prop := ∀ s : State, s.MemWf → (f s).MemWf
/-- Memory is in its form in the next state, when the outcome is one. -/
def OutWf : Out → Prop
  | .next t => t.MemWf
  | _ => True

theorem foldl_mem {α : Type} {f : State → α → State} (hf : ∀ s a, (f s a).mem = s.mem) (l : List α) (s : State) :
    (l.foldl f s).mem = s.mem := by
  induction l generalizing s with
  | nil => rfl
  | cons a l ih => exact (ih _).trans (hf s a)
theorem foldl_wf {α : Type} {f : State → α → State} (hf : ∀ s a, s.MemWf → (f s a).MemWf) {s : State} (h : s.MemWf) (l : List α) :
    (l.foldl f s).MemWf := by
  induction l generalizing s with
  | nil => exact h
  | cons a l ih => exact ih (hf s a h)

/-! ### The operations on memory alone -/

theorem Memory.wf_foldl {α : Type} {f : Memory → α → Memory} (hf : ∀ m a, m.wf = true → (f m a).wf = true) {m : Memory}
    (h : m.wf = true) (l : List α) : (l.foldl f m).wf = true := by
  induction l generalizing m with
  | nil => exact h
  | cons a l ih => exact ih (hf m a h)
theorem storeMem_wf {m : Memory} (h : m.wf = true) (kv k n v p) : (storeMem m kv k n v p).wf = true := by
  grind [storeMem, Memory.wf_setPoison, Memory.wf_write]
theorem putBar_wf {m : Memory} (h : m.wf = true) (kv k b) : (m.putBar kv k b).wf = true := by
  grind [Memory.putBar, Memory.wf_setPoison, Memory.wf_write]
theorem withdrawAt_wf {m : Memory} (h : m.wf = true) (kv k r p) : (withdrawAt m kv k r p).1.wf = true := by
  grind [withdrawAt, putBar_wf]
theorem Update.act_wf {m : Memory} (h : m.wf = true) (x : Update) (d v c p) : (x.act d m v c p).1.wf = true := by
  grind [Update.act, storeMem_wf]
theorem putWords_wf {m : Memory} (h : m.wf = true) (k l) : (putWords k l m).wf = true := by
  induction l generalizing k m with
  | nil => exact h
  | cons w l ih => exact ih (storeMem_wf h ..) _
theorem putBytes_wf {m : Memory} (h : m.wf = true) (n k l) : (putBytes n k l m).wf = true := by
  induction n generalizing k l m with
  | zero => exact h
  | succ n ih => exact ih (storeMem_wf h ..) _ _
theorem hostPut_wf {m : Memory} (h : m.wf = true) (k l) : (hostPut k l m).wf = true := by
  induction l generalizing k m with
  | nil => exact h
  | cons b l ih => exact ih (Memory.wf_setByte h ..) _
theorem zeroWindow_wf {m : Memory} (h : m.wf = true) (tile row wlog) : (zeroWindow tile row wlog m).wf = true :=
  Memory.wf_foldl (fun _ _ h => Memory.wf_zero h ..) h _

theorem getD_mem {s : State} {x : Option State} (hx : ∀ t, x = some t → t.mem = s.mem) : (x.getD s).mem = s.mem := by
  cases x with
  | none => rfl
  | some t => exact hx t rfl
theorem getD_wf {s : State} (h : s.MemWf) {x : Option State} (hx : ∀ t, x = some t → t.MemWf) : (x.getD s).MemWf := by
  cases x with
  | none => exact h
  | some t => exact hx t rfl

/-! ### Lifts, focus, records and traps (Machine/Ops.lean) -/

@[simp] theorem State.park_mem (s : State) : s.park.mem = s.mem := by
  unfold State.park; split <;> rfl
@[simp] theorem State.focusFir_mem (id) (s : State) : (State.focusFir id s).mem = s.mem := by
  grind [State.focusFir, State.park_mem]
@[simp] theorem State.focusTile_mem (n) (s : State) : (State.focusTile n s).mem = s.mem := by
  unfold State.focusTile; split <;> rfl
@[simp] theorem State.focusCtx_mem (uid) (s : State) : (State.focusCtx uid s).mem = s.mem := by
  grind [State.focusCtx, State.park_mem, State.focusTile_mem]
theorem State.within_mem {f : State → State} (hf : KeepsMem f) (uid) (s : State) : (s.within uid f).mem = s.mem := by
  grind [State.within, State.focusCtx_mem, State.focusFir_mem, State.park_mem]
theorem State.within_wf {f : State → State} (hf : KeepsWf f) {s : State} (h : s.MemWf) (uid) : (s.within uid f).MemWf := by
  grind [State.within, State.focusCtx_mem, State.focusFir_mem, State.park_mem]
@[simp] theorem State.onTileOf_mem (n f) (s : State) : (s.onTileOf n f).mem = s.mem := by
  unfold State.onTileOf; repeat' split
  all_goals rfl
@[simp] theorem State.emitAt_mem (k outs) (s : State) : (s.emitAt k outs).mem = s.mem := rfl
@[simp] theorem State.emit_mem (outs) (s : State) : (s.emit outs).mem = s.mem := rfl
@[simp] theorem State.quiet_mem (s : State) : s.quiet.mem = s.mem := rfl
@[simp] theorem State.slotFault_mem (cause detail i0 i1) (s : State) : (s.slotFault cause detail i0 i1).mem = s.mem := rfl
@[simp] theorem State.poisonFault_mem (use) (s : State) : (s.poisonFault use).mem = s.mem := rfl
@[simp] theorem State.rangeFault_mem (v) (s : State) : (s.rangeFault v).mem = s.mem := rfl
@[simp] theorem State.accessFault_mem (detail addr acc) (s : State) : (s.accessFault detail addr acc).mem = s.mem := rfl
@[simp] theorem State.hold_mem (e) (s : State) : (s.hold e).mem = s.mem := rfl
@[simp] theorem State.unqueue_mem (e) (s : State) : (s.unqueue e).mem = s.mem := rfl
@[simp] theorem State.flagFp_mem (f) (s : State) : (s.flagFp f).mem = s.mem := rfl
@[simp] theorem State.raiseTile_mem (tile job cnum kind body) (s : State) : (s.raiseTile tile job cnum kind body).mem = s.mem :=
  State.onTileOf_mem ..
@[simp] theorem State.raiseModule_mem (kind body) (s : State) : (s.raiseModule kind body).mem = s.mem := State.raiseTile_mem ..
theorem State.meetUpset_wf {s : State} (h : s.MemWf) (va w hard) : (s.meetUpset va w hard).MemWf := by
  grind [State.meetUpset, State.onDev_mem, State.onMem_mem, State.raiseModule_mem, Memory.wf_setPoison]
theorem touchGo_wf {s : State} (h : s.MemWf) (va l) : (touchGo va l s).MemWf := by
  fun_induction touchGo va l s <;> grind [State.meetUpset_wf]
theorem State.touch_wf {s : State} (h : s.MemWf) (va k n) : (s.touch va k n).MemWf := by
  grind [State.touch, touchGo_wf]
@[simp] theorem State.gate_mem (free) (s : State) : (s.gate free).mem = s.mem := by
  unfold State.gate; split <;> rfl
theorem State.touchWalk_wf {s : State} (h : s.MemWf) (w va) : (s.touchWalk w va).MemWf := by
  grind [State.touchWalk, State.touch_wf, foldl_wf]
theorem State.global_wf {s : State} (h : s.MemWf) (w acc va n) : (s.global w acc va n).2.MemWf := by
  grind [State.global, State.onDev_mem, State.gate_mem, State.touchWalk_wf]
theorem State.globalMem_wf {s : State} (h : s.MemWf) (w acc va n) : (s.globalMem w acc va n).2.MemWf := by
  grind [State.globalMem, State.global_wf]
theorem State.winPut_wf {s : State} (h : s.MemWf) (o v p) : (s.winPut o v p).MemWf := by
  grind [State.winPut, State.onMem_mem, Memory.wf_setPoison, Memory.wf_setRaw]
theorem State.touchWin_wf {s : State} (h : s.MemWf) (o n) : (s.touchWin o n).MemWf := by
  grind [State.touchWin, State.touch_wf, foldl_wf]
@[simp] theorem State.raise_mem (kind body) (s : State) : (s.raise kind body).mem = s.mem := rfl
theorem State.putGlobal_wf {s : State} (h : s.MemWf) (va l) : (s.putGlobal va l).1.MemWf := by
  fun_induction s.putGlobal va l <;> grind [State.onMem_mem, State.global_wf, Memory.wf_setPoison, Memory.wf_write]
theorem State.logPut_wf {s : State} (h : s.MemWf) (r) : (s.logPut r).MemWf := by
  grind [State.logPut, State.onCtx_mem, State.raise_mem, State.putGlobal_wf]
@[simp] theorem State.consume_mem (i r) (s : State) : (s.consume i r).mem = s.mem := by
  grind [State.consume, State.onCtx_mem]
@[simp] theorem State.logHold_mem (detail r) (s : State) : (s.logHold detail r).mem = s.mem := by
  unfold State.logHold; split <;> rfl
theorem State.settle_wf {s : State} (h : s.MemWf) (r steered m1) : (s.settle r steered m1).MemWf := by
  grind [State.settle, State.onCtx_mem, State.touch_wf, State.logPut_wf, State.consume_mem, State.logHold_mem]
theorem State.logged_wf {k : State → State} (hk : KeepsWf k) {s : State} (h : s.MemWf) (r steered m1) :
    (s.logged r steered m1 k).MemWf := by
  grind [State.logged, State.settle_wf, State.onCtx_mem]
theorem State.settleEach_wf {s : State} (h : s.MemWf) (l) : (State.settleEach l s).1.MemWf := by
  fun_induction State.settleEach l s <;> grind [State.within_wf, State.settle_wf]
theorem State.settleAll_wf {s : State} (h : s.MemWf) (l) : (s.settleAll l).1.MemWf := by
  grind [State.settleAll, State.onCtx_mem, State.within_wf, State.settleEach_wf, foldl_wf]
theorem State.loggedAll_wf {k : State → State} (hk : KeepsWf k) {s : State} (h : s.MemWf) (l) : (s.loggedAll l k).MemWf := by
  grind [State.loggedAll, State.settleAll_wf]
@[simp] theorem State.tie_mem (k r) (s : State) : (s.tie k r).mem = s.mem := by
  unfold State.tie; split <;> rfl
@[simp] theorem State.returnWait_mem (k st poll op mk) (s : State) : (s.returnWait k st poll op mk).mem = s.mem := by
  unfold State.returnWait; repeat' split
  all_goals rfl
theorem State.winPutAll_wf {s : State} (h : s.MemWf) (o l) : (s.winPutAll o l).MemWf := by
  fun_induction s.winPutAll o l <;> grind [State.winPut_wf]
theorem State.withdrawAll_wf {s : State} (h : s.MemWf) (l b) : (s.withdrawAll l b).1.MemWf := by
  fun_induction s.withdrawAll l b <;> grind [State.onSync_mem, State.touch_wf, withdrawAt_wf]
@[simp] theorem State.escalateOne_mem (blk x) (s : State) : (State.escalateOne blk s x).mem = s.mem := rfl
@[simp] theorem State.escalate_mem (b) (s : State) : (s.escalate b).mem = s.mem :=
  foldl_mem (fun _ _ => State.escalateOne_mem ..) ..
theorem State.abandon_wf {s : State} (h : s.MemWf) : s.abandon.1.MemWf := by
  grind [State.abandon, State.onCsr_mem, State.onSync_mem, State.onDev_mem, State.withdrawAll_wf, State.escalate_mem,
    State.dropAhead_mem]
theorem State.takeTrap_wf {s : State} (h : s.MemWf) (cause detail fslot i0 i1) : (s.takeTrap cause detail fslot i0 i1).MemWf := by
  grind [State.takeTrap, State.onFir_mem, State.onCtx_mem, State.onCsr_mem, State.raise_mem, State.winPutAll_wf, State.abandon_wf]
theorem State.resume_wf {s : State} (h : s.MemWf) (u slot) : (s.resume u slot).MemWf := by
  grind [State.resume, State.onCtx_mem, State.park_mem, State.winPut_wf, State.touchWin_wf, State.raise_mem]

/-! ### Counters, write-offs and the completion of messages (Machine/NetOps.lean) -/

@[simp] theorem State.onNet_mem (tile job f) (s : State) : (s.onNet tile job f).mem = s.mem := by
  grind [State.onNet, State.onTileOf_mem]
@[simp] theorem State.onCop_mem (tile job f) (s : State) : (s.onCop tile job f).mem = s.mem := by
  grind [State.onCop, State.onTileOf_mem]
@[simp] theorem State.onLink_mem (port f) (s : State) : (s.onLink port f).mem = s.mem := rfl
@[simp] theorem State.onPort_mem (port job f) (s : State) : (s.onPort port job f).mem = s.mem := by
  unfold State.onPort; split <;> rfl
@[simp] theorem State.fabric_mem (cause hdr) (s : State) : (s.fabric cause hdr).mem = s.mem := State.raiseModule_mem ..
@[simp] theorem State.dropNotice_mem (port p) (s : State) : (s.dropNotice port p).mem = s.mem := by
  grind [State.dropNotice, State.onCtx_mem, State.within_mem]
@[simp] theorem State.notify_mem (port p) (s : State) : (s.notify port p).mem = s.mem := by
  grind [State.notify, State.onDev_mem, State.dropNotice_mem]
@[simp] theorem State.writeOff_mem (port l) (s : State) : (s.writeOff port l).mem = s.mem := by
  fun_induction s.writeOff port l <;> grind [State.onLink_mem, State.onPort_mem, State.notify_mem]
@[simp] theorem State.linkLoss_mem (port n job) (s : State) : (s.linkLoss port n job).mem = s.mem := State.raiseModule_mem ..
@[simp] theorem State.flushRetry_mem (port) (s : State) : (s.flushRetry port).mem = s.mem := by
  grind [State.flushRetry, State.onLink_mem, State.writeOff_mem, State.linkLoss_mem]
@[simp] theorem State.lossAtDown_mem (port p) (s : State) : (s.lossAtDown port p).mem = s.mem := by
  grind [State.lossAtDown, State.onLink_mem, State.writeOff_mem, State.linkLoss_mem]
theorem State.sendDone_wf {pre : State → State} (hp : KeepsWf pre) {s : State} (h : s.MemWf) (uid id st) :
    (s.sendDone uid id st pre).MemWf := by
  refine State.within_wf (fun s h => ?_) h uid
  grind [State.logged_wf, State.onCtx_mem]
@[simp] theorem State.recordDrop_mem (tile job cnum w0 w1) (s : State) : (s.recordDrop tile job cnum w0 w1).mem = s.mem := by
  grind [State.recordDrop, State.onTileOf_mem, State.raiseTile_mem]
@[simp] theorem State.onPart_mem (id f) (s : State) : (s.onPart id f).mem = s.mem := rfl
theorem State.kerfDrop_wf {s : State} (h : s.MemWf) (tile d p) : (s.kerfDrop tile d p).MemWf := by
  grind [State.kerfDrop, State.onDev_mem, State.onTileOf_mem, State.onNet_mem, State.sendDone_wf, State.recordDrop_mem,
    State.onPart_mem]

/-! ### Registers and control pages (Machine/Regs.lean) -/

@[simp] theorem State.csrWrite_mem (k v) (s : State) : (s.csrWrite k v).mem = s.mem := by
  fun_cases s.csrWrite k v <;> grind [State.onCtx_mem, State.onCsr_mem, State.onTile_mem]
@[simp] theorem State.ctxHold_mem (tile num) (s : State) : (s.ctxHold tile num).mem = s.mem := by
  grind [State.ctxHold, State.onCtx_mem, State.within_mem]
@[simp] theorem State.ctxRelease_mem (tile num) (s : State) : (s.ctxRelease tile num).mem = s.mem := by
  grind [State.ctxRelease, State.onCtx_mem, State.within_mem]
@[simp] theorem State.keepOld_mem (k) (s : State) : (s.keepOld k).mem = s.mem := rfl
@[simp] theorem State.imageStore_mem (tile num k v) (s : State) : (s.imageStore tile num k v).mem = s.mem := by
  grind [State.imageStore, State.within_mem, State.csrWrite_mem, State.keepOld_mem]
@[simp] theorem State.keyLoadOp_mem (slot) (s : State) : (s.keyLoadOp slot).mem = s.mem := rfl
@[simp] theorem State.keyClearOp_mem (slot) (s : State) : (s.keyClearOp slot).mem = s.mem := rfl
@[simp] theorem State.setModule_mem (m) (s : State) : (s.setModule m).mem = s.mem :=
  foldl_mem (fun _ _ => State.onTileOf_mem ..) ..
theorem State.endLost_wf {s : State} (h : s.MemWf) (p far) : (s.endLost p far).MemWf := by
  grind [State.endLost, State.sendDone_wf, foldl_wf]
theorem State.ptctlWrite_wf {s : State} (h : s.MemWf) (v) : (s.ptctlWrite v).MemWf := by
  fun_cases s.ptctlWrite v <;> grind [State.onDev_mem, State.flushRetry_mem, State.setModule_mem, State.endLost_wf, foldl_wf]
@[simp] theorem State.floodAt_mem (die id thaw by_) (s : State) : (s.floodAt die id thaw by_).mem = s.mem := by
  grind [State.floodAt, State.onDev_mem, State.raiseModule_mem, State.onLink_mem, foldl_mem]
@[simp] theorem State.floodStart_mem (die id thaw) (s : State) : (s.floodStart die id thaw).mem = s.mem := by
  grind [State.floodStart, State.onDev_mem, State.floodAt_mem]
@[simp] theorem State.ptfrzWrite_mem (die v) (s : State) : (s.ptfrzWrite die v).mem = s.mem := by
  grind [State.ptfrzWrite, State.onDev_mem, State.floodStart_mem]
@[simp] theorem State.retrainOp_mem (port) (s : State) : (s.retrainOp port).mem = s.mem := by
  unfold State.retrainOp; split <;> rfl
theorem State.moduleWrite_wf {s : State} (h : s.MemWf) (die o v) : (s.moduleWrite die o v).MemWf := by
  fun_cases s.moduleWrite die o v <;> grind [State.onDev_mem, State.keyLoadOp_mem, State.keyClearOp_mem, State.ptctlWrite_wf,
    State.ptfrzWrite_mem, State.retrainOp_mem]
@[simp] theorem State.tlbisoOp_mem (t w v) (s : State) : (s.tlbisoOp t w v).mem = s.mem := by
  grind [State.tlbisoOp, State.onDev_mem, State.onTileOf_mem]
@[simp] theorem State.tileWrite_mem (p o v) (s : State) : (s.tileWrite p o v).mem = s.mem := by
  fun_cases s.tileWrite p o v <;> grind [State.onTileOf_mem, State.ctxHold_mem, State.ctxRelease_mem, State.imageStore_mem,
    State.tlbisoOp_mem]
theorem State.ctlWrite_wf {s : State} (h : s.MemWf) (page o v) : (s.ctlWrite page o v).MemWf := by
  grind [State.ctlWrite, State.moduleWrite_wf, State.tileWrite_mem]

/-! ### Class S (Machine/Scalar.lean) -/

theorem execIll_wf {s : State} (h : s.MemWf) : OutWf (execIll s) := State.takeTrap_wf h ..
theorem execWrite_wf {s : State} (h : s.MemWf) (r) : OutWf (execWrite r s) := by
  unfold execWrite; repeat' split
  all_goals exact h
@[simp] theorem State.exitTo_mem (t) (s : State) : (s.exitTo t).mem = s.mem := rfl
theorem branch_wf {s : State} (h : s.MemWf) : OutWf (branch s) := by
  unfold branch; repeat' split
  all_goals exact h
theorem execBri_wf {s : State} (h : s.MemWf) (imm) : OutWf (execBri imm s) := by
  grind [execBri, State.quiet_mem, State.slotFault_mem, State.exitTo_mem, OutWf]
theorem execCall_wf {s : State} (h : s.MemWf) (imm t0) : OutWf (execCall imm t0 s) := by
  grind [execCall, State.onFir_mem, State.emit_mem, State.slotFault_mem, State.exitTo_mem, OutWf]

/-! ### Class V (Machine/Vector.lean) -/

@[simp] theorem State.vput_mem (q vd act f) (s : State) : (s.vput q vd act f).mem = s.mem := rfl
theorem vbin_wf {s : State} (h : s.MemWf) (f vd va vb q) : OutWf (vbin f vd va vb q s) := by
  grind [vbin, State.quiet_mem, State.vput_mem, OutWf]
theorem vun_wf {s : State} (h : s.MemWf) (f vd va q) : OutWf (vun f vd va q s) := by
  grind [vun, State.quiet_mem, State.vput_mem, OutWf]
theorem execVfma_wf {s : State} (h : s.MemWf) (ty vd va vb q) : OutWf (execVfma ty vd va vb q s) := by
  grind [execVfma, State.quiet_mem, State.vput_mem, OutWf]
theorem execVand_wf {s : State} (h : s.MemWf) (vd va vb q) : OutWf (execVand vd va vb q s) := vbin_wf h ..
theorem execVor_wf {s : State} (h : s.MemWf) (vd va vb q) : OutWf (execVor vd va vb q s) := vbin_wf h ..
theorem execVxor_wf {s : State} (h : s.MemWf) (vd va vb q) : OutWf (execVxor vd va vb q s) := vbin_wf h ..
theorem vshift_wf {s : State} (h : s.MemWf) (f c vd va q) : OutWf (vshift f c vd va q s) := by
  fun_cases vshift f c vd va q s <;> grind [vbin_wf, vun_wf]
theorem execVcmp_wf {s : State} (h : s.MemWf) (ty rel vd va vb q) : OutWf (execVcmp ty rel vd va vb q s) := vbin_wf h ..
theorem execVsel_wf {s : State} (h : s.MemWf) (vd va vb q) : OutWf (execVsel vd va vb q s) := by
  grind [execVsel, State.quiet_mem, State.vput_mem, OutWf]
theorem execVcvt_wf {s : State} (h : s.MemWf) (pr md vd va q) : OutWf (execVcvt pr md vd va q s) := by
  grind [execVcvt, State.onBlk_mem, State.quiet_mem, State.vput_mem, OutWf]
theorem execVqnt_wf {s : State} (h : s.MemWf) (f scales vd va q) : OutWf (execVqnt f scales vd va q s) := by
  grind [execVqnt, State.quiet_mem, State.vput_mem, OutWf]
theorem execVdqnt_wf {s : State} (h : s.MemWf) (f vd va vb q) : OutWf (execVdqnt f vd va vb q s) := by
  grind [execVdqnt, State.quiet_mem, State.vput_mem, OutWf]
@[simp] theorem State.setLstat_mem (q x) (s : State) : (s.setLstat q x).mem = s.mem := rfl
@[simp] theorem State.setPsts_mem (q x) (s : State) : (s.setPsts q x).mem = s.mem := rfl
theorem execVperm_wf {s : State} (h : s.MemWf) (src vd va q) : OutWf (execVperm src vd va q s) := by
  grind [execVperm, State.quiet_mem, State.vput_mem, State.setLstat_mem, OutWf]
theorem execVbfly_wf {s : State} (h : s.MemWf) (op k vd va q) : OutWf (execVbfly op k vd va q s) := by
  grind [execVbfly, State.quiet_mem, State.vput_mem, State.setLstat_mem, OutWf]
theorem execVred_wf {s : State} (h : s.MemWf) (op vd va q) : OutWf (execVred op vd va q s) := by
  grind [execVred, State.quiet_mem, State.flagFp_mem, State.vput_mem, State.setPsts_mem, OutWf]
theorem execVscan_wf {s : State} (h : s.MemWf) (op excl vd va q) : OutWf (execVscan op excl vd va q s) := by
  grind [execVscan, State.quiet_mem, State.flagFp_mem, State.vput_mem, OutWf]
theorem execVsmxa_wf {s : State} (h : s.MemWf) (start vd va q) : OutWf (execVsmxa start vd va q s) := by
  grind [execVsmxa, State.quiet_mem, State.flagFp_mem, State.vput_mem, OutWf]
theorem execVsmxn_wf {s : State} (h : s.MemWf) (vd va vb q) : OutWf (execVsmxn vd va vb q s) := by
  grind [execVsmxn, State.quiet_mem, State.vput_mem, State.setPsts_mem, OutWf]
theorem execVstat_wf {s : State} (h : s.MemWf) (ph vd va q) : OutWf (execVstat ph vd va q s) := by
  fun_cases execVstat ph vd va q s <;> grind [State.quiet_mem, State.vput_mem, State.setPsts_mem, OutWf]
theorem execVsplat_wf {s : State} (h : s.MemWf) (src vd q) : OutWf (execVsplat src vd q s) := by
  fun_cases execVsplat src vd q s
  grind [State.quiet_mem, State.vput_mem, OutWf]
theorem execVmov_wf {s : State} (h : s.MemWf) (vd va q) : OutWf (execVmov vd va q s) := vun_wf h ..
theorem execVins_wf {s : State} (h : s.MemWf) (va n q t0) : OutWf (execVins va n q t0 s) := by
  grind [execVins, State.emit_mem, State.vput_mem, OutWf]
theorem execVlane_wf {s : State} (h : s.MemWf) (src q) : OutWf (execVlane src q s) := by
  unfold execVlane; repeat' split
  all_goals exact h

/-! ### Waits (Machine/Waits.lean) -/

@[simp] theorem State.finish_mem (k st poll expired mk) (s : State) : (s.finish k st poll expired mk).mem = s.mem := by
  grind [State.finish, State.tie_mem, State.returnWait_mem]
@[simp] theorem State.answer_mem (k st) (s : State) : (s.answer k st).mem = s.mem := State.tie_mem ..
theorem State.touchRing_wf {s : State} (h : s.MemWf) (n j) : (s.touchRing n j).MemWf := by
  grind [State.touchRing, State.touch_wf]
@[simp] theorem State.dropArr_mem (ref) (s : State) : (s.dropArr ref).mem = s.mem := rfl
@[simp] theorem State.putArr_mem (ref m p) (s : State) : (s.putArr ref m p).mem = s.mem := rfl
@[simp] theorem State.take_mem (k i ws) (s : State) : (s.take k i ws).mem = s.mem := rfl
@[simp] theorem State.setWait_mem (k w) (s : State) : (s.setWait k w).mem = s.mem := rfl
theorem State.takeReply_mem (k) (s : State) {w t} (ht : s.takeReply k = some (w, t)) : t.mem = s.mem := by
  grind [State.takeReply, State.onSync_mem]
@[simp] theorem State.diverge_mem (k) (s : State) : (s.diverge k).mem = s.mem := rfl
@[simp] theorem State.expired_mem (k st poll) (s : State) : (s.expired k st poll).mem = s.mem := by
  grind [State.expired, State.finish_mem, State.diverge_mem]
@[simp] theorem State.onReply_mem (k w st) (s : State) : (s.onReply k w st).mem = s.mem := by
  grind [State.onReply, State.onBlk_mem, State.finish_mem, State.answer_mem, State.dropArr_mem, State.putArr_mem,
    State.setWait_mem, State.expired_mem]
theorem State.evalWait_wf {s : State} (h : s.MemWf) (k) {t} (ht : s.evalWait k = some t) : t.MemWf := by
  have hreply (w : Wait) (ht : ((s.takeReply k).map fun x => x.2.onReply k w x.1) = some t) : t.MemWf := by
    obtain ⟨x, hx, rfl⟩ := Option.map_eq_some_iff.mp ht
    rwa [State.MemWf, State.onReply_mem, s.takeReply_mem k hx]
  unfold State.evalWait at ht
  split at ht
  · cases ht
  · next w hw =>
    obtain ⟨on, e, poll, ext⟩ := w
    dsimp only at ht
    cases on <;> dsimp only at ht
    case reply => exact hreply _ ht
    case quiet =>
      split at ht
      · cases ht
      · exact hreply _ ht
    all_goals grind [State.onCtx_mem, State.emitAt_mem, State.touch_wf, State.finish_mem, State.touchRing_wf,
     State.dropArr_mem, State.take_mem]
theorem State.takeReply_getD_mem (k) (s : State) : (((s.takeReply k).map (·.2)).getD s).mem = s.mem := by
  refine getD_mem fun t ht => ?_
  obtain ⟨x, hx, rfl⟩ := Option.map_eq_some_iff.mp ht
  exact s.takeReply_mem k hx
@[simp] theorem State.expireNow_mem (k w) (s : State) : (s.expireNow k w).mem = s.mem := by
  obtain ⟨on, e, poll, ext⟩ := w
  cases on with
  | barrier ref key m p entry =>
    cases entry with
    | true => exact State.setWait_mem ..
    | false => exact State.finish_mem ..
  | quiet job => exact (State.finish_mem ..).trans (s.takeReply_getD_mem k)
  | _ => exact State.finish_mem ..
theorem State.expireWait_wf {s : State} (h : s.MemWf) (k) : (s.expireWait k).MemWf := by
  grind [State.expireWait, State.setWait_mem, State.diverge_mem, State.evalWait_wf, State.expireNow_mem]
theorem State.begin_wf {s : State} (h : s.MemWf) (on d) : (s.begin on d).MemWf := by
  fun_cases s.begin on d <;> grind [State.setWait_mem, State.evalWait_wf, State.expireWait_wf]
theorem State.withDeadline_mem {f : Deadline → State} {s : State} (hf : ∀ d, (f d).mem = s.mem) (d) :
    (s.withDeadline d f).mem = s.mem := by
  grind [State.withDeadline, State.poisonFault_mem, State.slotFault_mem]
theorem State.withDeadline_wf {f : Deadline → State} {s : State} (hf : ∀ d, (f d).MemWf) (h : s.MemWf) (d) :
    (s.withDeadline d f).MemWf := by
  grind [State.withDeadline, State.poisonFault_mem, State.slotFault_mem]
theorem State.firstReturn_wf {s : State} (h : s.MemWf) (l) {t} (ht : s.firstReturn l = some t) : t.MemWf := by
  fun_induction s.firstReturn l <;> grind [State.evalWait_wf]

/-! ### Class L at issue (Machine/Memory.lean) -/

@[simp] theorem State.refuse_mem (r acc) (s : State) : (s.refuse r acc).mem = s.mem := by
  unfold State.refuse; split <;> rfl
theorem State.place_wf {s : State} (h : s.MemWf) (sp acc x n) : (s.place sp acc x n).2.MemWf := by
  fun_cases s.place sp acc x n <;> grind [State.global_wf]
theorem State.touchMsg_wf {s : State} (h : s.MemWf) (g i o n) : (s.touchMsg g i o n).MemWf := by
  grind [State.touchMsg, State.touch_wf]
theorem loadFrom_wf {s : State} (h : s.MemWf) (sp sx sz t0 t1) : OutWf (loadFrom sp sx sz t0 t1 s) := by
  grind [loadFrom, State.emit_mem, State.poisonFault_mem, State.touch_wf, State.refuse_mem, State.place_wf, State.touchMsg_wf,
    OutWf]
theorem loadHost_wf {s : State} (h : s.MemWf) : OutWf (loadHost s) := by
  grind [loadHost, State.poisonFault_mem, State.rangeFault_mem, State.accessFault_mem, State.begin_wf, State.withDeadline_wf, OutWf]
theorem execLd_wf {s : State} (h : s.MemWf) (sp sx sz t0 t1) : OutWf (execLd sp sx sz t0 t1 s) := by
  fun_cases execLd sp sx sz t0 t1 s <;> grind [loadFrom_wf, loadHost_wf]
@[simp] theorem State.poisonEvent_mem (l va) (s : State) : (s.poisonEvent l va).mem = s.mem := by
  fun_cases s.poisonEvent l va <;> grind [State.raiseModule_mem]
theorem State.devStore_wf {s : State} (h : s.MemWf) (k n v p) : (s.devStore k n v p).MemWf := by
  grind [State.devStore, State.onMem_mem, State.poisonEvent_mem, storeMem_wf]
theorem storeTo_wf {s : State} (h : s.MemWf) (sp vs sz t0 t1) : OutWf (storeTo sp vs sz t0 t1 s) := by
  grind [storeTo, State.emit_mem, State.slotFault_mem, State.poisonFault_mem, State.hold_mem, State.refuse_mem, State.place_wf,
    State.poisonEvent_mem, OutWf]
theorem storeHost_wf {s : State} (h : s.MemWf) (sz t0 t1) : OutWf (storeHost sz t0 t1 s) := by
  grind [storeHost, State.emit_mem, State.poisonFault_mem, State.rangeFault_mem, State.accessFault_mem, State.hold_mem, OutWf]
theorem issueSt_wf {s : State} (h : s.MemWf) (sp sz t0 t1) : OutWf (issueSt sp sz t0 t1 s) := by
  fun_cases issueSt sp sz t0 t1 s <;> grind [storeTo_wf, storeHost_wf]
theorem State.lanePlaces_wf {s : State} (h : s.MemWf) (sp acc x l) : (s.lanePlaces sp acc x l).2.MemWf := by
  fun_induction s.lanePlaces sp acc x l <;> grind [State.place_wf]
theorem touchAll_wf {s : State} (h : s.MemWf) (va l) : (touchAll va l s).MemWf := by
  fun_induction touchAll va l s <;> grind [State.touch_wf]
theorem execLdv_wf {s : State} (h : s.MemWf) (sp va q t0) : OutWf (execLdv sp va q t0 s) := by
  grind [execLdv, State.emit_mem, State.poisonFault_mem, State.accessFault_mem, State.vput_mem, State.refuse_mem,
    State.lanePlaces_wf, touchAll_wf, OutWf]
theorem issueStv_wf {s : State} (h : s.MemWf) (sp va q t0) : OutWf (issueStv sp va q t0 s) := by
  grind [issueStv, State.emit_mem, State.poisonFault_mem, State.accessFault_mem, State.hold_mem, State.refuse_mem,
    State.poisonEvent_mem, State.lanePlaces_wf, foldl_wf, OutWf]
@[simp] theorem State.stagePut_mem (ch o n v p) (s : State) : (s.stagePut ch o n v p).mem = s.mem := rfl
@[simp] theorem State.putOut_mem (c t) (s : State) : (s.putOut c t).mem = s.mem := rfl
theorem State.applyStore_wf {s : State} (h : s.MemWf) (keyslot va l n v p) : (s.applyStore keyslot va l n v p).MemWf := by
  fun_cases s.applyStore keyslot va l n v p <;> grind [State.ctlWrite_wf, State.poisonEvent_mem, State.stagePut_mem,
    State.putOut_mem, storeMem_wf]
theorem State.commitStore_wf {s : State} (h : s.MemWf) (e) : (s.commitStore e).MemWf := by
  grind [State.commitStore, State.applyStore_wf, foldl_wf]
theorem execSt_wf {s : State} (h : s.MemWf) (sp sz t0 t1) : OutWf (execSt sp sz t0 t1 s) := by
  grind [execSt, State.unqueue_mem, issueSt_wf, State.commitStore_wf, OutWf]
theorem execStv_wf {s : State} (h : s.MemWf) (sp va q t0) : OutWf (execStv sp va q t0 s) := by
  grind [execStv, State.unqueue_mem, issueStv_wf, State.commitStore_wf, OutWf]
theorem execTlook_wf {s : State} (h : s.MemWf) (t0 t1) : OutWf (execTlook t0 t1 s) := by
  grind [execTlook, State.onCtx_mem, State.emit_mem, State.poisonFault_mem, State.accessFault_mem, OutWf]
theorem issueTset_wf {s : State} (h : s.MemWf) : OutWf (issueTset s) := by
  grind [issueTset, State.quiet_mem, State.poisonFault_mem, State.rangeFault_mem, State.accessFault_mem, State.hold_mem, OutWf]
theorem issueTclr_wf {s : State} (h : s.MemWf) : OutWf (issueTclr s) := by
  grind [issueTclr, State.quiet_mem, State.poisonFault_mem, State.rangeFault_mem, State.hold_mem, OutWf]
theorem execTset_wf {s : State} (h : s.MemWf) : OutWf (execTset s) := by
  grind [execTset, State.onCtx_mem, State.unqueue_mem, issueTset_wf, OutWf]
theorem execTclr_wf {s : State} (h : s.MemWf) : OutWf (execTclr s) := by
  grind [execTclr, State.onCtx_mem, State.unqueue_mem, issueTclr_wf, OutWf]

/-! ### Sparse-update units (Machine/Units.lean) -/

@[simp] theorem State.onUsu_mem (n f) (s : State) : (s.onUsu n f).mem = s.mem := rfl
theorem State.offer_mem (x) (s : State) {t} (ht : s.offer x = some t) : t.mem = s.mem := by
  obtain ⟨u, -, rfl⟩ := Option.map_eq_some_iff.mp ht
  rfl
theorem State.memPut_wf {s : State} (h : s.MemWf) (k v p) : (s.memPut k v p).MemWf := by
  grind [State.memPut, State.onMem_mem, Memory.wf_setPoison, Memory.wf_setRaw]
theorem State.actUpdate_wf {s : State} (h : s.MemWf) (x) : (s.actUpdate x).1.MemWf := by
  grind [State.actUpdate, State.touch_wf, Update.act_wf]
/-- What delivers the returned values of an update keeps memory in its form too. -/
theorem State.actUpdate_deliver_wf (s : State) (x) : KeepsWf (s.actUpdate x).2 := by
  intro t h
  unfold State.actUpdate
  cases x.ret with
  | none => exact h
  | some r => grind [State.memPut_wf, State.within_mem, State.onCtx_mem]
theorem State.applyUpdate_wf {s : State} (h : s.MemWf) (x) : (s.applyUpdate x).MemWf :=
  s.actUpdate_deliver_wf x _ (State.actUpdate_wf h x)
theorem actAll_wf {s : State} (h : s.MemWf) (l) : (actAll l s).1.MemWf := by
  induction l generalizing s with
  | nil => exact h
  | cons x l ih => exact ih (State.actUpdate_wf h x)
theorem actAll_deliver_wf (s : State) (l) : ∀ f ∈ (actAll l s).2, KeepsWf f := by
  induction l generalizing s with
  | nil => exact fun f hf => absurd hf List.not_mem_nil
  | cons x l ih =>
    intro f hf
    rcases List.mem_cons.mp hf with rfl | hf
    · exact s.actUpdate_deliver_wf x
    · exact ih _ f hf
theorem foldl_apply_wf {fs : List (State → State)} (hfs : ∀ f ∈ fs, KeepsWf f) {s : State} (h : s.MemWf) :
    (fs.foldl (fun s f => f s) s).MemWf := by
  induction fs generalizing s with
  | nil => exact h
  | cons f fs ih => exact ih (fun g hg => hfs g (List.mem_cons_of_mem _ hg)) (hfs f List.mem_cons_self s h)
theorem applyAll_wf {s : State} (h : s.MemWf) (l) : (applyAll l s).MemWf :=
  foldl_apply_wf (actAll_deliver_wf s l) (actAll_wf h l)
theorem State.closeRound_wf {s : State} (h : s.MemWf) (n job) : (s.closeRound n job).MemWf := by
  grind [State.closeRound, State.loggedAll_wf, State.onUsu_mem, applyAll_wf]
theorem execUpdateTokenApply_wf {s : State} (h : s.MemWf) (u n merge) : OutWf (execUpdateTokenApply u n merge s) := by
  grind [execUpdateTokenApply, State.loggedAll_wf, State.onUsu_mem, State.applyUpdate_wf, OutWf]
theorem execRoundClose_wf {s : State} (h : s.MemWf) (u) : OutWf (execRoundClose u s) := by
  grind [execRoundClose, State.closeRound_wf, OutWf]

/-! ### Streams (Machine/Streams.lean) -/

@[simp] theorem State.streamEvent_mem (path num hd k) (s : State) : (s.streamEvent path num hd k).mem = s.mem := rfl
@[simp] theorem State.holdStream_mem (n hd) (s : State) : (s.holdStream n hd).mem = s.mem := rfl
theorem State.streamPlace_wf {s : State} (h : s.MemWf) (t acc x n) : (s.streamPlace t acc x n).2.MemWf := by
  grind [State.streamPlace, State.globalMem_wf]
theorem State.aim_wf {s : State} (h : s.MemWf) (n acc code) : (s.aim n acc code).2.MemWf := by
  grind [State.aim, State.streamPlace_wf]
theorem State.readElem_wf {s : State} (h : s.MemWf) (x l n) : (s.readElem x l n).2.MemWf := by
  fun_cases s.readElem x l n
  grind [State.touch_wf]
@[simp] theorem State.deliverElem_mem (n e) (s : State) : (s.deliverElem n e).mem = s.mem := rfl
@[simp] theorem State.passElem_mem (n) (s : State) : (s.passElem n).mem = s.mem := rfl
theorem State.mergeAt_wf {s : State} (h : s.MemWf) (op keyslot x l v p) : (s.mergeAt op keyslot x l v p).MemWf := by
  grind [State.mergeAt, State.touch_wf, State.ctlWrite_wf, storeMem_wf]
theorem State.writeElem_wf {s : State} (h : s.MemWf) (n x l e) : (s.writeElem n x l e).MemWf := by
  fun_cases s.writeElem n x l e <;> grind [State.onCtx_mem, State.onDev_mem, State.applyStore_wf, State.offer_mem,
    State.holdStream_mem, State.passElem_mem, State.mergeAt_wf]
@[simp] theorem State.refuseCmd_mem (i detail) (s : State) : (s.refuseCmd i detail).mem = s.mem := rfl
theorem execStreamElement_wf {s : State} (h : s.MemWf) (n) : OutWf (execStreamElement n s) := by
  fun_cases execStreamElement n s <;> grind [State.onCtx_mem, State.holdStream_mem, State.aim_wf, State.readElem_wf,
    State.deliverElem_mem, State.passElem_mem, State.writeElem_wf, State.refuseCmd_mem, OutWf]
@[simp] theorem State.popLq_mem (e) (s : State) : (s.popLq e).mem = s.mem := rfl
@[simp] theorem State.issue_mem (i) (s : State) : (s.issue i).mem = s.mem := rfl
theorem State.readDesc_wf {s : State} (h : s.MemWf) (e) : (s.readDesc e).2.MemWf :=
  foldl_wf (fun _ _ h => State.touch_wf h ..) h _
@[simp] theorem applyAgen_mem (n e) (s : State) : (applyAgen n e s).mem = s.mem := by
  grind [applyAgen, State.onCtx_mem, State.refuseCmd_mem]
theorem execAgen_wf {s : State} (h : s.MemWf) (n) : OutWf (execAgen n s) := by
  grind [execAgen, State.poisonFault_mem, State.rangeFault_mem, State.popLq_mem, State.issue_mem, State.readDesc_wf, applyAgen_mem,
    OutWf]
@[simp] theorem applyAstart_mem (n e) (s : State) : (applyAstart n e s).mem = s.mem := by
  grind [applyAstart, State.onCtx_mem, State.refuseCmd_mem]
theorem execAstart_wf {s : State} (h : s.MemWf) (n) : OutWf (execAstart n s) := by
  grind [execAstart, State.popLq_mem, State.issue_mem, applyAstart_mem, OutWf]
@[simp] theorem applyAstop_mem (n) (s : State) : (applyAstop n s).mem = s.mem := by
  unfold applyAstop; split <;> rfl
theorem execAstop_wf {s : State} (h : s.MemWf) (n) : OutWf (execAstop n s) := by
  grind [execAstop, State.popLq_mem, State.issue_mem, applyAstop_mem, OutWf]
theorem execAbar_wf {s : State} (h : s.MemWf) : OutWf (execAbar s) := by
  unfold execAbar; repeat' split
  all_goals exact h
@[simp] theorem applyLdw_mem (n e) (s : State) : (applyLdw n e s).mem = s.mem := by
  grind [applyLdw, State.onCtx_mem, State.refuseCmd_mem]
theorem execLdw_wf {s : State} (h : s.MemWf) (n) : OutWf (execLdw n s) := by
  grind [execLdw, State.poisonFault_mem, State.rangeFault_mem, State.popLq_mem, State.issue_mem, applyLdw_mem, OutWf]
theorem execLdg_wf {s : State} (h : s.MemWf) (n _t0 _t1) : OutWf (execLdg n _t0 _t1 s) := by
  grind [execLdg, State.onCtx_mem, State.setWait_mem, State.evalWait_wf, OutWf]
@[simp] theorem applySts_mem (n e) (s : State) : (applySts n e s).mem = s.mem := by
  grind [applySts, State.refuseCmd_mem]
theorem execSts_wf {s : State} (h : s.MemWf) (n t0 t1) : OutWf (execSts n t0 t1 s) := by
  grind [execSts, State.emit_mem, State.hold_mem, State.popLq_mem, applySts_mem, OutWf]
@[simp] theorem applyPxform_mem (p e) (s : State) : (applyPxform p e s).mem = s.mem := rfl
theorem execPxform_wf {s : State} (h : s.MemWf) (p) : OutWf (execPxform p s) := by
  grind [execPxform, State.poisonFault_mem, State.rangeFault_mem, State.popLq_mem, State.issue_mem, applyPxform_mem, OutWf]
theorem execPmerge_wf {s : State} (h : s.MemWf) (p) : OutWf (execPmerge p s) := by
  unfold execPmerge; repeat' split
  all_goals exact h
@[simp] theorem applyRingdef_mem (n e) (s : State) : (applyRingdef n e s).mem = s.mem := by
  grind [applyRingdef, State.onCtx_mem, State.refuseCmd_mem]
theorem execRingdef_wf {s : State} (h : s.MemWf) (n) : OutWf (execRingdef n s) := by
  grind [execRingdef, State.poisonFault_mem, State.rangeFault_mem, State.popLq_mem, State.issue_mem, applyRingdef_mem, OutWf]
@[simp] theorem State.resumeStream_mem (n skip) (s : State) : (s.resumeStream n skip).mem = s.mem := by
  grind [State.resumeStream, State.onCtx_mem, State.passElem_mem]

/-! ### Atomics (Machine/Atomics.lean) -/

theorem State.amoPlace_wf {s : State} (h : s.MemWf) (x off n) : (s.amoPlace x off n).2.MemWf := by
  grind [State.amoPlace, State.global_wf]
theorem issueAtomic_wf {s : State} (h : s.MemWf) (i ret n) : OutWf (issueAtomic i ret n s) := by
  grind [issueAtomic, State.emit_mem, State.poisonFault_mem, State.rangeFault_mem, State.accessFault_mem, State.hold_mem,
    State.amoPlace_wf, OutWf]
theorem State.amovPlaces_wf {s : State} (h : s.MemWf) (x f l) : (s.amovPlaces x f l).2.MemWf := by
  fun_induction s.amovPlaces x f l <;> grind [State.amoPlace_wf]
@[simp] theorem State.putLq_mem (e r) (s : State) : (s.putLq e r).mem = s.mem := rfl
@[simp] theorem applyAtomic_mem (e) (s : State) : (applyAtomic e s).mem = s.mem := by
  grind [applyAtomic, State.onCtx_mem, State.offer_mem, State.streamEvent_mem, State.putLq_mem]
theorem execAmo_wf {s : State} (h : s.MemWf) (op ty t0 t1) : OutWf (execAmo op ty t0 t1 s) := by
  grind [execAmo, issueAtomic_wf, applyAtomic_mem, OutWf]
theorem execCas_wf {s : State} (h : s.MemWf) (wide t0 t1) : OutWf (execCas wide t0 t1 s) := by
  grind [execCas, issueAtomic_wf, applyAtomic_mem, OutWf]
theorem execAmov_wf {s : State} (h : s.MemWf) (op va q t0) : OutWf (execAmov op va q t0 s) := by
  grind [execAmov, State.emit_mem, State.poisonFault_mem, State.accessFault_mem, State.hold_mem, State.amovPlaces_wf,
    applyAtomic_mem, OutWf]
@[simp] theorem State.resumeScalar_mem (skip) (s : State) : (s.resumeScalar skip).mem = s.mem := by
  unfold State.resumeScalar; split <;> rfl

/-! ### The host (Machine/Host.lean) -/

@[simp] theorem State.onChan_mem (c f) (s : State) : (s.onChan c f).mem = s.mem := rfl
theorem execIngressSlotConsume_wf {s : State} (h : s.MemWf) (c) : OutWf (execIngressSlotConsume c s) := by
  grind [execIngressSlotConsume, State.raiseModule_mem, State.onChan_mem, OutWf]
theorem State.writeSlot_wf {s : State} (h : s.MemWf) (c v ctrl pois keep) : (s.writeSlot c v ctrl pois keep).MemWf := by
  grind [State.writeSlot, State.onChan_mem, storeMem_wf]
theorem execEgressSlotWrite_wf {s : State} (h : s.MemWf) (c) : OutWf (execEgressSlotWrite c s) := by
  grind [execEgressSlotWrite, State.onChan_mem, State.writeSlot_wf, OutWf]
theorem execEventDelivery_wf {s : State} (h : s.MemWf) : OutWf (execEventDelivery s) := by
  grind [execEventDelivery, State.onDev_mem, State.writeSlot_wf, putWords_wf, OutWf]
theorem State.hdmPut_wf {s : State} (h : s.MemWf) (kv poison n n' l) : (s.hdmPut kv poison n n' l).MemWf := by
  fun_induction s.hdmPut kv poison n n' l <;> grind [State.onMem_mem, State.raiseModule_mem, storeMem_wf]
theorem execHostHdmWrite_wf {s : State} (h : s.MemWf) (pa data poison key) : OutWf (execHostHdmWrite pa data poison key s) := by
  grind [execHostHdmWrite, State.hdmPut_wf, OutWf]
theorem execHostHdmRead_wf {s : State} (h : s.MemWf) (pa key) : OutWf (execHostHdmRead pa key s) := by
  grind [execHostHdmRead, State.onDev_mem, State.touch_wf, OutWf]
theorem execKeyLoad_wf {s : State} (h : s.MemWf) (slot) : OutWf (execKeyLoad slot s) := State.moduleWrite_wf h ..
theorem execKeyClear_wf {s : State} (h : s.MemWf) (slot) : OutWf (execKeyClear slot s) := State.moduleWrite_wf h ..
theorem execCtxctlHold_wf {s : State} (h : s.MemWf) (tile ctx) : OutWf (execCtxctlHold tile ctx s) := by
  grind [execCtxctlHold, State.ctxHold_mem, OutWf]
theorem execCtxctlRelease_wf {s : State} (h : s.MemWf) (tile ctx) : OutWf (execCtxctlRelease tile ctx s) := by
  grind [execCtxctlRelease, State.ctxRelease_mem, OutWf]
theorem execContextImageStore_wf {s : State} (h : s.MemWf) (tile ctx csr v) : OutWf (execContextImageStore tile ctx csr v s) := by
  grind [execContextImageStore, State.imageStore_mem, OutWf]
theorem execLogposWrite_wf {s : State} (h : s.MemWf) (tile ctx v) : OutWf (execLogposWrite tile ctx v s) := by
  grind [execLogposWrite, State.imageStore_mem, OutWf]
theorem execLoglimWrite_wf {s : State} (h : s.MemWf) (tile ctx v) : OutWf (execLoglimWrite tile ctx v s) := by
  grind [execLoglimWrite, State.imageStore_mem, OutWf]
theorem execTlbisoWrite_wf {s : State} (h : s.MemWf) (die slice word v) : OutWf (execTlbisoWrite die slice word v s) := by
  grind [execTlbisoWrite, State.tlbisoOp_mem, OutWf]
@[simp] theorem State.bootStart_mem (agree) (s : State) : (s.bootStart agree).mem = s.mem := by
  unfold State.bootStart; split <;> rfl
theorem State.barWrite_wf {s : State} (h : s.MemWf) (off v) : (s.barWrite off v).MemWf := by
  grind [State.barWrite, State.onDev_mem, State.drawn_mem, State.moduleWrite_wf, State.onChan_mem, State.bootStart_mem]
theorem execRegisterWrite_wf {s : State} (h : s.MemWf) (off v) : OutWf (execRegisterWrite off v s) := State.barWrite_wf h ..

/-! ### Boot (Machine/Boot.lean) -/

@[simp] theorem State.bootCheck_mem (s : State) : s.bootCheck.mem = s.mem := by
  grind [State.bootCheck, State.onDev_mem]
theorem execBootGo_wf {s : State} (h : s.MemWf) (agree) : OutWf (execBootGo agree s) := by
  grind [execBootGo, State.bootStart_mem, State.bootCheck_mem, OutWf]
theorem execFirmwareReady_wf {s : State} (h : s.MemWf) (module) : OutWf (execFirmwareReady module s) := by
  grind [execFirmwareReady, State.onDev_mem, State.setModule_mem, OutWf]
theorem execStagingWindowWrite_wf {s : State} (h : s.MemWf) (off v) : OutWf (execStagingWindowWrite off v s) := by
  grind [execStagingWindowWrite, State.onMem_mem, storeMem_wf, OutWf]
theorem execReportCompletion_wf {s : State} (h : s.MemWf) : OutWf (execReportCompletion s) := by
  grind [execReportCompletion, State.onDev_mem, putBytes_wf, OutWf]
theorem execI3cPrivateWrite_wf {s : State} (h : s.MemWf) (idx data) : OutWf (execI3cPrivateWrite idx data s) := by
  unfold execI3cPrivateWrite; repeat' split
  all_goals exact h

/-! ### Collar images (Machine/Image.lean) -/

@[simp] theorem State.applyMoves_mem (l) (s : State) : (s.applyMoves l).mem = s.mem := rfl

/-! ### Class M (Machine/Matrix.lean) -/

@[simp] theorem State.cmdDone_mem (col e st) (s : State) : (s.cmdDone col e st).mem = s.mem := rfl
@[simp] theorem State.cmdPut_mem (col e e') (s : State) : (s.cmdPut col e e').mem = s.mem := rfl
theorem State.popBefore_mem (e) (s : State) {t} (ht : s.popBefore e = some t) : t.mem = s.mem := by
  unfold State.popBefore at ht
  split at ht
  · obtain ⟨c, -, rfl⟩ := Option.map_eq_some_iff.mp ht
    rfl
  · cases ht; rfl
theorem issueCmd_wf {s : State} (h : s.MemWf) (i useA bad lowOk ws) : OutWf (issueCmd i useA bad lowOk ws s) := by
  grind [issueCmd, State.quiet_mem, State.poisonFault_mem, State.rangeFault_mem, State.hold_mem, OutWf]
@[simp] theorem State.setRegion_mem (r x) (s : State) : (s.setRegion r x).mem = s.mem := rfl
theorem execMregion_wf {s : State} (h : s.MemWf) (r) : OutWf (execMregion r s) := by
  grind [execMregion, State.cmdDone_mem, State.popBefore_mem, issueCmd_wf, State.setRegion_mem, OutWf]
theorem regionCmd_wf {f : Region → State → Word × State} (hf : ∀ x, KeepsWf fun s => (f x s).2) {s : State} (h : s.MemWf) (r e) :
    OutWf (regionCmd r e f s) := by
  grind [regionCmd, OutWf, State.popBefore_mem, State.cmdDone_mem]
theorem execMfmt_wf {s : State} (h : s.MemWf) (r) : OutWf (execMfmt r s) := by
  grind [execMfmt, State.slotFault_mem, issueCmd_wf, State.setRegion_mem, regionCmd_wf, OutWf]
theorem execMacc_wf {s : State} (h : s.MemWf) (r) : OutWf (execMacc r s) := by
  grind [execMacc, issueCmd_wf, State.setRegion_mem, regionCmd_wf]
theorem execMswap_wf {s : State} (h : s.MemWf) (r) : OutWf (execMswap r s) := by
  grind [execMswap, issueCmd_wf, State.setRegion_mem, regionCmd_wf]
theorem execMfree_wf {s : State} (h : s.MemWf) (r) : OutWf (execMfree r s) := by
  grind [execMfree, State.onTile_mem, issueCmd_wf, regionCmd_wf]
@[simp] theorem State.releaseAll_mem (x r ser part es) (s : State) : (s.releaseAll x r ser part es).mem = s.mem := rfl
theorem execMdrain_wf {s : State} (h : s.MemWf) (r) : OutWf (execMdrain r s) := by
  grind [execMdrain, issueCmd_wf, regionCmd_wf, State.releaseAll_mem]
theorem execMzero_wf {s : State} (h : s.MemWf) (r) : OutWf (execMzero r s) := by
  grind [execMzero, State.onTile_mem, issueCmd_wf, regionCmd_wf]
@[simp] theorem State.coreFlags_mem (f) (s : State) : (s.coreFlags f).mem = s.mem := rfl
@[simp] theorem startMwld_mem (r e) (s : State) : (startMwld r e s).mem = s.mem := by
  grind [startMwld, State.cmdDone_mem, State.cmdPut_mem, State.setRegion_mem]
@[simp] theorem State.endBusy_mem (r e st) (s : State) : (s.endBusy r e st).mem = s.mem := by
  unfold State.endBusy; split <;> rfl
@[simp] theorem stepMwld_mem (r e) (s : State) : (stepMwld r e s).mem = s.mem := by
  grind [stepMwld, State.onCtx_mem, State.cmdPut_mem, State.setRegion_mem, State.coreFlags_mem, State.endBusy_mem]
theorem execMwld_wf {s : State} (h : s.MemWf) (r) : OutWf (execMwld r s) := by
  grind [execMwld, State.popBefore_mem, issueCmd_wf, startMwld_mem, stepMwld_mem, OutWf]
@[simp] theorem startMstep_mem (r e) (s : State) : (startMstep r e s).mem = s.mem := by
  grind [startMstep, State.cmdDone_mem, State.cmdPut_mem, State.setRegion_mem]
@[simp] theorem State.addRow_mem (x r i fl l) (s : State) : (s.addRow x r i fl l).mem = s.mem := by
  fun_induction s.addRow x r i fl l <;> grind [State.coreFlags_mem]
@[simp] theorem endPass_mem (r x rows ser) (s : State) : (endPass r x rows ser s).mem = s.mem := rfl
@[simp] theorem stepMstep_mem (r e) (s : State) : (stepMstep r e s).mem = s.mem := by
  grind [stepMstep, State.onCtx_mem, State.cmdPut_mem, State.coreFlags_mem, State.endBusy_mem, State.addRow_mem, endPass_mem]
theorem execMstep_wf {s : State} (h : s.MemWf) (r) : OutWf (execMstep r s) := by
  grind [execMstep, State.drawn_mem, State.accessFault_mem, State.popBefore_mem, issueCmd_wf, startMstep_mem, stepMstep_mem, OutWf]
theorem execEngineCommandCompletion_wf {s : State} (h : s.MemWf) (col) : OutWf (execEngineCommandCompletion col s) := by
  unfold execEngineCommandCompletion; repeat' split
  all_goals exact h
theorem execCommandPopTimeout_wf {s : State} (h : s.MemWf) (col) : OutWf (execCommandPopTimeout col s) := by
  unfold execCommandPopTimeout; repeat' split
  all_goals exact h

/-! ### Class C (Machine/Collar.lean) -/

@[simp] theorem State.holdEng_mem (hd k) (s : State) : (s.holdEng hd k).mem = s.mem := rfl
theorem readWords_wf {s : State} (h : s.MemWf) (w n n' x) : (readWords w n n' x s).2.MemWf := by
  fun_induction readWords w n n' x s <;> grind [State.touch_wf, State.globalMem_wf]
theorem readGot_wf {s : State} (h : s.MemWf) (w n i va) : (readGot w n i va s).2.MemWf := by
  grind [readGot, readWords_wf]
theorem readDelta_wf {s : State} (h : s.MemWf) (w im i va) : (readDelta w im i va s).2.MemWf := by
  grind [readDelta, readGot_wf]
theorem readDeltas_wf {s : State} (h : s.MemWf) (w im base l) : (readDeltas w im base l s).2.MemWf := by
  fun_induction readDeltas w im base l s <;> grind [readDelta_wf]
theorem readImage_wf {s : State} (h : s.MemWf) (w sett base) : (readImage w sett base s).2.MemWf := by
  fun_cases readImage w sett base s <;> grind [readGot_wf, readDeltas_wf]
theorem State.cStart_mem (e) (s : State) {t e'} (ht : s.cStart e = some (t, e')) : t.mem = s.mem := by
  unfold State.cStart at ht
  cases hp : s.popBefore e <;> grind [State.popBefore_mem, State.cmdPut_mem]
theorem cCmd_wf {f : Eff → State → State} (hf : ∀ e, KeepsWf (f e)) {s : State} (h : s.MemWf) (e) : OutWf (cCmd e f s) := by
  grind [cCmd, OutWf, State.cStart_mem]
@[simp] theorem State.cDone_mem (e st) (s : State) : (s.cDone e st).mem = s.mem := rfl
theorem State.loadedAs_wf {go : State → State} (hg : KeepsWf go) {s : State} (h : s.MemWf) (l st) :
    (s.loadedAs l st go).2.MemWf := by
  grind [State.loadedAs, State.settleAll_wf]
theorem State.placeImage_wf {s : State} (h : s.MemWf) (hd im addr side) : (s.placeImage hd im addr side).2.MemWf := by
  grind [State.placeImage, State.onCtx_mem, State.applyMoves_mem, State.loadedAs_wf]
theorem State.loadInto_wf {s : State} (h : s.MemWf) (hd im addr side) : (s.loadInto hd im addr side).2.MemWf := by
  grind [State.loadInto, State.placeImage_wf]
@[simp] theorem State.finishLoad_mem (e x) (s : State) : (s.finishLoad e x).mem = s.mem := by
  unfold State.finishLoad; split <;> rfl
theorem applyCload_wf {s : State} (h : s.MemWf) (hd e) : (applyCload hd e s).MemWf := by
  grind [applyCload, State.holdEng_mem, readImage_wf, State.cDone_mem, State.loadInto_wf, State.finishLoad_mem]
theorem execCload_wf {s : State} (h : s.MemWf) (hd) : OutWf (execCload hd s) := by
  grind [execCload, issueCmd_wf, cCmd_wf, applyCload_wf]
@[simp] theorem applyCfire_mem (hd e) (s : State) : (applyCfire hd e s).mem = s.mem := by
  unfold applyCfire; repeat' split
  all_goals rfl
theorem execCfire_wf {s : State} (h : s.MemWf) (hd) : OutWf (execCfire hd s) := by
  grind [execCfire, issueCmd_wf, cCmd_wf, applyCfire_mem]
theorem applyCpatch_wf {s : State} (h : s.MemWf) (hd e) : (applyCpatch hd e s).MemWf := by
  grind [applyCpatch, State.onCtx_mem, State.holdEng_mem, readDelta_wf, State.cDone_mem]
theorem execCpatch_wf {s : State} (h : s.MemWf) (hd) : OutWf (execCpatch hd s) := by
  grind [execCpatch, issueCmd_wf, cCmd_wf, applyCpatch_wf]
theorem castImage_wf {s : State} (h : s.MemWf) (w im base t) : (castImage w im base t s).2.MemWf := by
  grind [castImage, readDelta_wf]
theorem castAll_wf {s : State} (h : s.MemWf) (w hd im base l) : (castAll w hd im base l s).2.2.MemWf := by
  fun_induction castAll w hd im base l s <;> grind [State.focusFir_mem, State.focusCtx_mem, State.loadInto_wf, castImage_wf]
theorem applyCmcast_wf {s : State} (h : s.MemWf) (hd e) : (applyCmcast hd e s).MemWf := by
  grind [applyCmcast, State.cmdPut_mem, State.holdEng_mem, readImage_wf, State.cDone_mem, castAll_wf]
theorem execCmcast_wf {s : State} (h : s.MemWf) (hd) : OutWf (execCmcast hd s) := by
  grind [execCmcast, issueCmd_wf, cCmd_wf, applyCmcast_wf]
theorem State.evictHandle_wf {s : State} (h : s.MemWf) (hd) : (s.evictHandle hd).MemWf := by
  grind [State.evictHandle, State.onCtx_mem, State.logged_wf]
theorem applyCevict_wf {s : State} (h : s.MemWf) (m e) : (applyCevict m e s).MemWf := by
  grind [applyCevict, State.onCtx_mem, State.within_wf, State.loggedAll_wf, State.cDone_mem]
theorem execCevict_wf {s : State} (h : s.MemWf) (m) : OutWf (execCevict m s) := by
  grind [execCevict, issueCmd_wf, cCmd_wf, applyCevict_wf]
theorem State.putMap_wf {s : State} (h : s.MemWf) (va v) : (s.putMap va v).1.MemWf := by
  grind [State.putMap, State.onMem_mem, State.global_wf, Memory.wf_setPoison, Memory.wf_write]
theorem flushMaps_wf {s : State} (h : s.MemWf) (n) : (flushMaps n s).MemWf := by
  fun_induction flushMaps n s <;> grind [State.onCtx_mem, State.holdEng_mem, State.putMap_wf]
theorem State.writeMap_wf {s : State} (h : s.MemWf) (va ws) : (s.writeMap va ws).MemWf := by
  grind [State.writeMap, State.onCtx_mem, flushMaps_wf]
theorem State.freezeCfg_wf {s : State} (h : s.MemWf) (hd cause st) : (s.freezeCfg hd cause st).MemWf := by
  grind [State.freezeCfg, State.onCtx_mem, State.writeMap_wf]
@[simp] theorem State.reportFault_mem (hd) (s : State) : (s.reportFault hd).mem = s.mem := by
  unfold State.reportFault; split <;> rfl
theorem State.hangFirst_wf {s : State} (h : s.MemWf) (hd) {t} (ht : s.hangFirst hd = some t) : t.MemWf := by
  grind [State.hangFirst, State.raise_mem, State.freezeCfg_wf]
@[simp] theorem tend_mem (hd e f) (s : State) : (tend hd e f s).mem = s.mem := by
  unfold tend; split <;> rfl
@[simp] theorem applyCweight_mem (hd e) (s : State) : (applyCweight hd e s).mem = s.mem := tend_mem ..
theorem execCweight_wf {s : State} (h : s.MemWf) (hd) : OutWf (execCweight hd s) := by
  grind [execCweight, issueCmd_wf, cCmd_wf, applyCweight_mem]
@[simp] theorem applyChang_mem (hd e) (s : State) : (applyChang hd e s).mem = s.mem := tend_mem ..
theorem execChang_wf {s : State} (h : s.MemWf) (hd) : OutWf (execChang hd s) := by
  grind [execChang, issueCmd_wf, cCmd_wf, applyChang_mem]
theorem applyCfreeze_wf {s : State} (h : s.MemWf) (hd e) : (applyCfreeze hd e s).MemWf := by
  grind [applyCfreeze, State.cDone_mem, State.freezeCfg_wf, State.hangFirst_wf, tend_mem]
theorem execCfreeze_wf {s : State} (h : s.MemWf) (hd) : OutWf (execCfreeze hd s) := by
  grind [execCfreeze, issueCmd_wf, cCmd_wf, applyCfreeze_wf]
@[simp] theorem applyCthaw_mem (hd e) (s : State) : (applyCthaw hd e s).mem = s.mem := tend_mem ..
theorem execCthaw_wf {s : State} (h : s.MemWf) (hd) : OutWf (execCthaw hd s) := by
  grind [execCthaw, issueCmd_wf, cCmd_wf, applyCthaw_mem]
theorem execCstat_wf {s : State} (h : s.MemWf) (hd t0 t1) : OutWf (execCstat hd t0 t1 s) := by
  unfold execCstat; exact h
theorem applySbind_wf {s : State} (h : s.MemWf) (n e) : (applySbind n e s).MemWf := by
  grind [applySbind, State.onCtx_mem, State.loggedAll_wf, State.applyMoves_mem, State.holdEng_mem, readImage_wf, State.cDone_mem]
theorem execSbind_wf {s : State} (h : s.MemWf) (n) : OutWf (execSbind n s) := by
  grind [execSbind, issueCmd_wf, cCmd_wf, applySbind_wf]
theorem applySfree_wf {s : State} (h : s.MemWf) (n e) : (applySfree n e s).MemWf := by
  grind [applySfree, State.onCtx_mem, State.loggedAll_wf, State.cDone_mem]
theorem execSfree_wf {s : State} (h : s.MemWf) (n) : OutWf (execSfree n s) := by
  grind [execSfree, issueCmd_wf, cCmd_wf, applySfree_wf]
theorem execSquery_wf {s : State} (h : s.MemWf) (img n t0 t1) : OutWf (execSquery img n t0 t1 s) := by
  grind [execSquery, State.emit_mem, State.poisonFault_mem, State.rangeFault_mem, OutWf]

/-! ### What runs in a collar (Machine/Firing.lean) -/

@[simp] theorem State.putEdge_mem (hd e t) (s : State) : (s.putEdge hd e t).mem = s.mem := by
  grind [State.putEdge, State.onCtx_mem, State.onTile_mem, State.recordDrop_mem]
@[simp] theorem State.putEdges_mem (hd es t) (s : State) : (s.putEdges hd es t).mem = s.mem :=
  foldl_mem (fun _ _ => State.putEdge_mem ..) ..
@[simp] theorem State.onCfg_mem (hd f) (s : State) : (s.onCfg hd f).mem = s.mem := rfl
@[simp] theorem State.collarFault_mem (hd port i code) (s : State) : (s.collarFault hd port i code).mem = s.mem := rfl
theorem State.releaseStep_mem (n) (s : State) {t} (ht : s.releaseStep n = some t) : t.mem = s.mem := by
  unfold State.releaseStep at ht
  grind [State.onCtx_mem, State.putEdges_mem, State.onCfg_mem, Option.map_eq_some_iff, Option.bind_eq_some_iff]
theorem State.hangOr_wf {f : State → State} (hf : KeepsWf f) {s : State} (h : s.MemWf) (n) : (s.hangOr n f).MemWf := by
  unfold State.hangOr
  cases ht : s.hangFirst (BitVec.ofNat 5 n) with
  | none => exact hf s h
  | some t => exact State.hangFirst_wf h _ ht
theorem execAccumulatorRelease_wf {s : State} (h : s.MemWf) (n) : OutWf (execAccumulatorRelease n s) := by
  have hgo : KeepsWf fun s => (s.releaseStep n).getD s := fun s h =>
    getD_wf h fun t ht => by rwa [State.MemWf, s.releaseStep_mem n ht]
  unfold execAccumulatorRelease
  grind [State.hangOr_wf, OutWf]
@[simp] theorem State.onOp_mem (x f) (s : State) : (s.onOp x f).mem = s.mem := rfl
@[simp] theorem State.charge_mem (u ready all win) (s : State) : (s.charge u ready all win).mem = s.mem := by
  grind [State.charge, State.onTile_mem, State.onOp_mem, foldl_mem]
@[simp] theorem State.fireNow_mem (hd i) (s : State) : (s.fireNow hd i).mem = s.mem := by
  grind [State.fireNow, State.onCtx_mem, State.onCsr_mem, State.putEdges_mem]
theorem State.settleFault_wf {s : State} (h : s.MemWf) (hd) : (s.settleFault hd).MemWf := by
  grind [State.settleFault, State.freezeCfg_wf]
theorem State.faultFrom_wf {f : State → State} (hf : KeepsWf f) {s : State} (h : s.MemWf) (n) : (s.faultFrom n f).MemWf := by
  grind [State.faultFrom, State.reportFault_mem, State.settleFault_wf]
@[simp] theorem State.opStep_mem (hd i) (s : State) : (s.opStep hd i).mem = s.mem := by
  grind [State.opStep, State.putEdges_mem, State.onCfg_mem, State.charge_mem, State.fireNow_mem]
theorem State.spadRead_mem (g hd i n p) (s : State) {t} (ht : s.spadRead g hd i n p = .moved t) : t.mem = s.mem := by
  grind [State.spadRead, State.putEdges_mem, State.onCfg_mem]
theorem State.spadWrite_mem (g hd i n p) (s : State) {t} (ht : s.spadWrite g hd i n p = .moved t) : t.mem = s.mem := by
  grind [State.spadWrite, State.onCfg_mem]
theorem State.enginePort_mem (g hd i n p) (s : State) {t} (ht : s.enginePort g hd i n p = .moved t) : t.mem = s.mem := by
  grind [State.enginePort, State.onCfg_mem]
theorem State.isectPort_mem (g hd i p) (s : State) {t} (ht : s.isectPort g hd i p = .moved t) : t.mem = s.mem := by
  grind [State.isectPort, State.putEdges_mem, State.onCfg_mem]
theorem State.portStep_mem (hd i) (s : State) {t} (ht : s.portStep hd i = .moved t) : t.mem = s.mem := by
  grind [State.portStep, State.spadRead_mem, State.spadWrite_mem, State.enginePort_mem, State.isectPort_mem]
theorem execOperatorFiring_wf {s : State} (h : s.MemWf) (hd port n) : OutWf (execOperatorFiring hd port n s) := by
  refine State.settleFault_wf (State.hangOr_wf (fun s h => ?_) h _) _
  grind [State.portStep_mem, State.onCfg_mem, State.collarFault_mem, State.opStep_mem]
theorem execArbiterReweight_wf {s : State} (h : s.MemWf) (u) : OutWf (execArbiterReweight u s) := by
  grind [execArbiterReweight, State.onTile_mem, State.loggedAll_wf, State.onOp_mem, foldl_wf, OutWf]
theorem execHangMonitorExpiry_wf {s : State} (h : s.MemWf) (hd) : OutWf (execHangMonitorExpiry hd s) :=
  getD_wf h fun _ => State.hangFirst_wf h hd
theorem execSett_wf {s : State} (h : s.MemWf) (n vd va vb q) : OutWf (execSett n vd va vb q s) := by
  grind [execSett, State.onCsr_mem, State.quiet_mem, State.slotFault_mem, State.flagFp_mem, State.vput_mem, OutWf]

/-! ### Messages (Machine/Network.lean) -/

theorem State.nacked_wf {s : State} (h : s.MemWf) (uid id own) : (s.nacked uid id own).MemWf := by
  grind [State.nacked, State.onCtx_mem, State.within_wf, State.logHold_mem, State.onNet_mem, State.sendDone_wf]
theorem State.touchEntry_wf {s : State} (h : s.MemWf) (job i) : (s.touchEntry job i).MemWf := by
  grind [State.touchEntry, State.touch_wf]
theorem State.attempt_wf {s : State} (h : s.MemWf) (id) : (s.attempt id).MemWf := by
  grind [State.attempt, State.onCtx_mem, State.onDev_mem, State.onNet_mem, State.sendDone_wf, State.nacked_wf, State.touchEntry_wf]
theorem State.createSend_wf {s : State} (h : s.MemWf) (e) : (s.createSend e).MemWf := by
  grind [State.createSend, State.attempt_wf]
theorem execKsend_wf {s : State} (h : s.MemWf) (rec tag t0 t1) : OutWf (execKsend rec tag t0 t1 s) := by
  grind [execKsend, State.onCtx_mem, State.emit_mem, State.poisonFault_mem, State.rangeFault_mem, State.hold_mem, State.touch_wf,
    State.withDeadline_wf, State.createSend_wf, foldl_wf, OutWf]
theorem execKsendRetry_wf {s : State} (h : s.MemWf) (n) : OutWf (execKsendRetry n s) := by
  grind [execKsendRetry, State.attempt_wf, OutWf]
theorem State.putBody_wf {s : State} (h : s.MemWf) (r line n l l') : (s.putBody r line n l l').MemWf := by
  fun_induction s.putBody r line n l l' <;> grind [State.devStore_wf]
theorem State.putRecord_wf {s : State} (h : s.MemWf) (n line pad p) : (s.putRecord n line pad p).MemWf := by
  fun_cases s.putRecord n line pad p
  grind [State.winPut_wf, State.putBody_wf]
@[simp] theorem State.commitRecv_mem (n) (s : State) : (s.commitRecv n).mem = s.mem := State.onNet_mem ..
theorem execKrecv_wf {s : State} (h : s.MemWf) (n t0 t1) : OutWf (execKrecv n t0 t1 s) := by
  grind [execKrecv, State.finish_mem, State.begin_wf, State.withDeadline_wf, OutWf]
theorem execKpoll_wf {s : State} (h : s.MemWf) (n t0 t1) : OutWf (execKpoll n t0 t1 s) := by
  grind [execKpoll, State.emit_mem, State.touchRing_wf, OutWf]
@[simp] theorem State.dropPacket_mem (n) (s : State) : (s.dropPacket n).mem = s.mem := rfl
@[simp] theorem State.reply_mem (p k) (s : State) : (s.reply p k).mem = s.mem := rfl
@[simp] theorem State.refuseMsg_mem (n p) (s : State) : (s.refuseMsg n p).mem = s.mem := State.onNet_mem ..
theorem State.settleArrive_wf {s : State} (h : s.MemWf) (r) : (s.settleArrive r).1.MemWf := by
  grind [State.settleArrive, State.onCtx_mem, State.consume_mem, State.logHold_mem, State.settle_wf]
theorem State.messageAt_wf {s : State} (h : s.MemWf) (n p) : (s.messageAt n p).MemWf := by
  grind [State.messageAt, State.onCtx_mem, State.drawn_mem, State.focusFir_mem, State.focusCtx_mem, State.fabric_mem,
    State.sendDone_wf, State.putRecord_wf, State.dropPacket_mem, State.reply_mem, State.refuseMsg_mem, State.settleArrive_wf]
@[simp] theorem State.exchangeAt_mem (n p) (s : State) : (s.exchangeAt n p).mem = s.mem := by
  grind [State.exchangeAt, State.drawn_mem, State.onCop_mem, State.fabric_mem, State.onPart_mem, State.dropPacket_mem]
@[simp] theorem State.reportLaunch_mem (num) (s : State) : (s.reportLaunch num).mem = s.mem := by
  unfold State.reportLaunch; repeat' split
  all_goals rfl
@[simp] theorem State.farEnd_mem (p) (s : State) : (s.farEnd p).mem = s.mem := State.reportLaunch_mem ..
theorem execMessageArrival_wf {s : State} (h : s.MemWf) (n) : OutWf (execMessageArrival n s) := by
  grind [execMessageArrival, State.onNet_mem, State.sendDone_wf, State.dropPacket_mem, State.messageAt_wf, State.exchangeAt_mem,
    State.farEnd_mem, OutWf]
theorem execNackArrival_wf {s : State} (h : s.MemWf) (n) : OutWf (execNackArrival n s) := by
  grind [execNackArrival, State.nacked_wf, State.dropPacket_mem, OutWf]
theorem execLostNotice_wf {s : State} (h : s.MemWf) (n) : OutWf (execLostNotice n s) := by
  grind [execLostNotice, State.sendDone_wf, State.dropPacket_mem, OutWf]
@[simp] theorem State.putPacket_mem (n p) (s : State) : (s.putPacket n p).mem = s.mem := rfl
theorem State.meshHop_wf {s : State} (h : s.MemWf) (n p goal) : (s.meshHop n p goal).MemWf := by
  grind [State.meshHop, State.kerfDrop_wf, State.dropPacket_mem, State.putPacket_mem]
@[simp] theorem State.countPort_mem (port p) (s : State) : (s.countPort port p).mem = s.mem := by
  grind [State.countPort, State.onPort_mem]
@[simp] theorem State.leave_mem (n port p) (s : State) : (s.leave n port p).mem = s.mem := by
  grind [State.leave, State.drawn_mem, State.onLink_mem, State.fabric_mem, State.dropNotice_mem, State.lossAtDown_mem,
    State.dropPacket_mem, State.countPort_mem]
theorem execPacketForward_wf {s : State} (h : s.MemWf) (n) : OutWf (execPacketForward n s) := by
  grind [execPacketForward, State.meshHop_wf, State.leave_mem, OutWf]

/-! ### The copy engine (Machine/Copy.lean) -/

theorem issueCopy_wf {s : State} (h : s.MemWf) (i n lo hi t0 t1) : OutWf (issueCopy i n lo hi t0 t1 s) := by
  grind [issueCopy, State.emit_mem, State.poisonFault_mem, State.rangeFault_mem, State.hold_mem, OutWf]
theorem applyCopy_wf {s : State} (h : s.MemWf) (e r) : OutWf (applyCopy e r s) := by
  unfold applyCopy; split <;> exact h
theorem execKcopy_wf {s : State} (h : s.MemWf) (t0 t1) : OutWf (execKcopy t0 t1 s) := by
  grind [execKcopy, issueCopy_wf, applyCopy_wf]
theorem execKgath_wf {s : State} (h : s.MemWf) (t0 t1) : OutWf (execKgath t0 t1 s) := by
  grind [execKgath, issueCopy_wf, applyCopy_wf]
theorem execKscat_wf {s : State} (h : s.MemWf) (t0 t1) : OutWf (execKscat t0 t1 s) := by
  grind [execKscat, issueCopy_wf, applyCopy_wf]
theorem execKred_wf {s : State} (h : s.MemWf) (op t0 t1) : OutWf (execKred op t0 t1 s) := by
  grind [execKred, issueCopy_wf, applyCopy_wf]
theorem execKcoll_wf {s : State} (h : s.MemWf) (k t0 t1) : OutWf (execKcoll k t0 t1 s) := by
  grind [execKcoll, issueCopy_wf, applyCopy_wf]
@[simp] theorem applyKport_mem (p e) (s : State) : (applyKport p e s).mem = s.mem := rfl
theorem execKport_wf {s : State} (h : s.MemWf) (p) : OutWf (execKport p s) := by
  grind [execKport, issueCmd_wf, applyKport_mem, OutWf]
@[simp] theorem State.onRun_mem (ch f) (s : State) : (s.onRun ch f).mem = s.mem := rfl
@[simp] theorem State.holdChan_mem (ch hd) (s : State) : (s.holdChan ch hd).mem = s.mem := rfl
theorem State.copyPlace_wf {s : State} (h : s.MemWf) (r x win acc n) : (s.copyPlace r x win acc n).2.MemWf := by
  grind [State.copyPlace, State.globalMem_wf]
theorem State.copyRead_wf {s : State} (h : s.MemWf) (x l) : (s.copyRead x l).2.MemWf := by
  fun_cases s.copyRead x l <;> grind [State.touch_wf]
theorem copyReadOne_wf {s : State} (h : s.MemWf) (ch r x win i) : (copyReadOne ch r x win i s).1.MemWf := by
  grind [copyReadOne, State.onRun_mem, State.holdChan_mem, State.copyPlace_wf, State.copyRead_wf]
theorem State.copyWrite_wf {s : State} (h : s.MemWf) (ch r blk i va l w) {t} (ht : s.copyWrite ch r blk i va l w = some t) :
    t.MemWf := by
  unfold State.copyWrite at ht
  split at ht
  · cases ht; exact State.applyStore_wf h ..
  · dsimp only at ht
    split at ht
    · cases l <;> grind [State.onCtx_mem, State.onDev_mem, State.offer_mem, Option.map_eq_some_iff]
    · cases ht; exact State.mergeAt_wf h ..
theorem copyWriteGo_wf {s : State} (h : s.MemWf) (ch x x' win hi n) : (copyWriteGo ch x x' win hi n s).1.MemWf := by
  fun_induction copyWriteGo ch x x' win hi n s <;> grind [State.onRun_mem, State.holdChan_mem, State.copyPlace_wf,
    State.copyWrite_wf]
theorem copyWordGo_wf {s : State} (h : s.MemWf) (ch n) : (copyWordGo ch n s).1.MemWf := by
  fun_induction copyWordGo ch n s <;> grind [copyReadOne_wf, copyWriteGo_wf]
theorem State.copyBlock_wf {s : State} (h : s.MemWf) (ch) : (s.copyBlock ch).MemWf := by
  grind [State.copyBlock, State.onRun_mem, copyWordGo_wf]
theorem copyListGo_wf {s : State} (h : s.MemWf) (ch o count n) : (copyListGo ch o count n s).MemWf := by
  fun_induction copyListGo ch o count n s <;> grind [State.touch_wf, State.onRun_mem, State.holdChan_mem]
@[simp] theorem State.copyDone_mem (ch r st) (s : State) : (s.copyDone ch r st).mem = s.mem := rfl
theorem State.copyStart_wf {s : State} (h : s.MemWf) (ch r) : (s.copyStart ch r).MemWf := by
  grind [State.copyStart, State.onCtx_mem, State.touch_wf]
theorem execCopyRequestStart_wf {s : State} (h : s.MemWf) (ch) : OutWf (execCopyRequestStart ch s) := by
  grind [execCopyRequestStart, State.onCtx_mem, State.copyDone_mem, State.copyStart_wf, OutWf]
@[simp] theorem State.onColl_mem (k f) (s : State) : (s.onColl k f).mem = s.mem := rfl
theorem collRead_wf {s : State} (h : s.MemWf) (ch n size src n') : (collRead ch n size src n' s).MemWf := by
  fun_induction collRead ch n size src n' s <;> grind [State.touch_wf, State.onRun_mem, State.holdChan_mem]
@[simp] theorem State.collJoin_mem (ch x k) (s : State) : (s.collJoin ch x k).mem = s.mem := by
  grind [State.collJoin, State.onCtx_mem, State.onDev_mem, State.onRun_mem, State.onColl_mem]
theorem collWrite_wf {s : State} (h : s.MemWf) (ch size dst n l) : (collWrite ch size dst n l s).1.MemWf := by
  fun_induction collWrite ch size dst n l s <;> grind [State.devStore_wf, State.onRun_mem, State.holdChan_mem]
@[simp] theorem State.onMine_mem (ch key f) (s : State) : (s.onMine ch key f).mem = s.mem := rfl
@[simp] theorem State.sendExchange_mem (ch key next n) (s : State) : (s.sendExchange ch key next n).mem = s.mem :=
  State.onCop_mem ..
theorem State.collStep_wf {s : State} (h : s.MemWf) (ch x k) : (s.collStep ch x k).MemWf := by
  fun_cases s.collStep ch x k <;> grind [State.drawn_mem, State.copyDone_mem, State.onColl_mem, collRead_wf, State.collJoin_mem,
    collWrite_wf, State.onMine_mem, State.sendExchange_mem]
@[simp] theorem State.copyEnd_mem (ch x) (s : State) : (s.copyEnd ch x).mem = s.mem := by
  unfold State.copyEnd; split <;> rfl
theorem execCopyCompletion_wf {s : State} (h : s.MemWf) (ch) : OutWf (execCopyCompletion ch s) := by
  grind [execCopyCompletion, State.copyBlock_wf, copyListGo_wf, State.copyDone_mem, State.collStep_wf, State.copyEnd_mem, OutWf]
@[simp] theorem State.resumeChan_mem (ch skip) (s : State) : (s.resumeChan ch skip).mem = s.mem := by
  unfold State.resumeChan; repeat' split
  all_goals rfl
@[simp] theorem State.cancelChan_mem (ser ch) (s : State) : (s.cancelChan ser ch).mem = s.mem := by
  grind [State.cancelChan, State.onCtx_mem, State.onRun_mem, State.copyDone_mem, State.onColl_mem, foldl_mem]
@[simp] theorem State.cancelMask_mem (ser m) (s : State) : (s.cancelMask ser m).mem = s.mem := by
  grind [State.cancelMask, State.cancelChan_mem, foldl_mem]
theorem execKcancel_wf {s : State} (h : s.MemWf) : OutWf (execKcancel s) := by
  grind [execKcancel, State.onCtx_mem, State.poisonFault_mem, State.rangeFault_mem, State.issue_mem, State.cancelMask_mem, OutWf]
theorem execKstat_wf {s : State} (h : s.MemWf) (t0 t1) : OutWf (execKstat t0 t1 s) := by
  unfold execKstat; repeat' split
  all_goals exact h
theorem State.stopPacket_wf {s : State} (h : s.MemWf) (hd i) : (s.stopPacket hd i).MemWf := by
  grind [State.stopPacket, State.onCfg_mem, State.collarFault_mem, State.settleFault_wf]
theorem execCopyPortPacket_wf {s : State} (h : s.MemWf) (p) : OutWf (execCopyPortPacket p s) := by
  fun_cases execCopyPortPacket p s <;> grind [State.hangFirst_wf, State.onCfg_mem, State.collarFault_mem, State.settleFault_wf,
    State.stopPacket_wf, OutWf]
theorem execCopyPortFullTimeout_wf {s : State} (h : s.MemWf) (p) : OutWf (execCopyPortFullTimeout p s) := by
  grind [execCopyPortFullTimeout, State.stopPacket_wf, OutWf]
theorem execKwait_wf {s : State} (h : s.MemWf) (t0 t1) : OutWf (execKwait t0 t1 s) := by
  grind [execKwait, State.poisonFault_mem, State.rangeFault_mem, State.begin_wf, State.withDeadline_wf, OutWf]
theorem execKevq_wf {s : State} (h : s.MemWf) (t0 t1) : OutWf (execKevq t0 t1 s) := by
  grind [execKevq, State.begin_wf, State.withDeadline_wf, OutWf]
theorem State.deliverRec_wf {s : State} (h : s.MemWf) (i r) : (s.deliverRec i r).MemWf := by
  grind [State.deliverRec, State.onSync_mem, State.logged_wf]
theorem execEvqRecordDelivery_wf {s : State} (h : s.MemWf) : OutWf (execEvqRecordDelivery s) := by
  fun_cases execEvqRecordDelivery s <;> grind [State.logHold_mem, State.deliverRec_wf, OutWf]
theorem execDependenceFifoPush_wf {s : State} (h : s.MemWf) (q) : OutWf (execDependenceFifoPush q s) := by
  unfold execDependenceFifoPush; split <;> exact h

/-! ### RESUME and class Y (Machine/Sync.lean) -/

theorem State.resumeEngine_wf {s : State} (h : s.MemWf) (skip) : (s.resumeEngine skip).MemWf := by
  grind [State.resumeEngine, State.onCtx_mem, flushMaps_wf]
theorem logAgain_wf {s : State} (h : s.MemWf) (l) : (logAgain l s).MemWf := by
  fun_induction logAgain l s <;> grind [State.onCtx_mem, State.logPut_wf]
theorem State.resumeLog_wf {s : State} (h : s.MemWf) (skip) : (s.resumeLog skip).MemWf := by
  unfold State.resumeLog
  dsimp only
  split <;> exact logAgain_wf (by exact h) _
theorem State.resumePath_wf {s : State} (h : s.MemWf) (path num skip) : (State.resumePath path num skip s).MemWf := by
  fun_cases State.resumePath path num skip s <;> grind [State.resumeStream_mem, State.resumeScalar_mem, State.resumeChan_mem,
    State.resumeEngine_wf, State.resumeLog_wf]
theorem applyResume_wf {s : State} (h : s.MemWf) (e) : (applyResume e s).MemWf := by
  grind [applyResume, State.within_wf, State.refuseCmd_mem, State.resumePath_wf]
theorem execResume_wf {s : State} (h : s.MemWf) : OutWf (execResume s) := by
  grind [execResume, State.poisonFault_mem, State.rangeFault_mem, State.popLq_mem, State.issue_mem, applyResume_wf, OutWf]
theorem State.barPlace_wf {s : State} (h : s.MemWf) (ref acc) : (s.barPlace ref acc).2.MemWf := by
  grind [State.barPlace, State.global_wf]
theorem State.withBarrier_wf {k : Nat → State → State} (hk : ∀ n, KeepsWf (k n)) {s : State} (h : s.MemWf) (acc noM) :
    (s.withBarrier acc noM k).MemWf := by
  grind [State.withBarrier, State.barPlace_wf, State.accessFault_mem, State.poisonFault_mem, State.rangeFault_mem]
@[simp] theorem State.sendBar_mem (op key) (s : State) : (s.sendBar op key).mem = s.mem := rfl
@[simp] theorem State.await_mem (key d) (s : State) : (s.await key d).mem = s.mem := rfl
theorem State.arrive_wf {s : State} (h : s.MemWf) (drop d) : (s.arrive drop d).MemWf := by
  grind [State.arrive, State.finish_mem, State.answer_mem, State.withBarrier_wf, State.sendBar_mem, State.await_mem]
theorem execBara_wf {s : State} (h : s.MemWf) (_t0 _t1) : OutWf (execBara _t0 _t1 s) := State.arrive_wf h ..
theorem execBard_wf {s : State} (h : s.MemWf) (_t0 _t1) : OutWf (execBard _t0 _t1 s) := State.arrive_wf h ..
theorem execBaraw_wf {s : State} (h : s.MemWf) (_t0 _t1) : OutWf (execBaraw _t0 _t1 s) := by
  grind [execBaraw, State.withDeadline_wf, State.arrive_wf, OutWf]
theorem execBarw_wf {s : State} (h : s.MemWf) (_t0 _t1) : OutWf (execBarw _t0 _t1 s) := by
  grind [execBarw, State.withDeadline_wf, State.withBarrier_wf, State.sendBar_mem, State.await_mem, OutWf]
theorem execBart_wf {s : State} (h : s.MemWf) (_t0 _t1) : OutWf (execBart _t0 _t1 s) := by
  grind [execBart, State.withBarrier_wf, State.sendBar_mem, State.await_mem, OutWf]
@[simp] theorem State.commitBari_mem (e) (s : State) : (s.commitBari e).mem = s.mem := by
  unfold State.commitBari; split <;> rfl
theorem execBari_wf {s : State} (h : s.MemWf) (sc) : OutWf (execBari sc s) := by
  grind [execBari, State.quiet_mem, State.poisonFault_mem, State.hold_mem, State.unqueue_mem, State.withBarrier_wf,
    State.commitBari_mem, OutWf]
theorem State.homeHead_wf {s : State} (h : s.MemWf) {r t} (ht : s.homeHead = some (r, t)) : t.MemWf := by
  grind [State.homeHead, State.touch_wf, State.onDev_mem]
theorem State.inFir_mem {f : State → State} (hf : KeepsMem f) (uid fir) (s : State) : (s.inFir uid fir f).mem = s.mem := by
  grind [State.inFir, State.within_mem, State.focusFir_mem]
@[simp] theorem State.answerBar_mem (r st) (s : State) : (s.answerBar r st).mem = s.mem := by
  grind [State.answerBar, State.onSync_mem, State.within_mem]
@[simp] theorem State.refuseBari_mem (r sc detail) (s : State) : (s.refuseBari r sc detail).mem = s.mem := by
  grind [State.refuseBari, State.onCtx_mem, State.within_mem]
theorem execBarrierArrival_wf {s : State} (h : s.MemWf) : OutWf (execBarrierArrival s) := by
  grind [execBarrierArrival, State.onBlk_mem, State.onMem_mem, State.homeHead_wf, State.inFir_mem, State.answerBar_mem,
    State.refuseBari_mem, putBar_wf, OutWf]
theorem execBarrierWithdrawal_wf {s : State} (h : s.MemWf) : OutWf (execBarrierWithdrawal s) := by
  grind [execBarrierWithdrawal, State.onBlk_mem, State.onMem_mem, State.homeHead_wf, State.inFir_mem, State.answerBar_mem,
    putBar_wf, OutWf]
@[simp] theorem State.sendClose_mem (sc) (s : State) : (s.sendClose sc).mem = s.mem := by
  grind [State.sendClose, State.onUsu_mem, foldl_mem]
theorem execFence_wf {s : State} (h : s.MemWf) (sc _t0 _t1) : OutWf (execFence sc _t0 _t1 s) := by
  grind [execFence, State.onCtx_mem, State.poisonFault_mem, State.rangeFault_mem, State.begin_wf, State.withDeadline_wf,
    State.popLq_mem, State.sendClose_mem, OutWf]
@[simp] theorem State.fifoPut_mem (e r) (s : State) : (s.fifoPut e r).mem = s.mem := rfl
@[simp] theorem State.fifoDone_mem (e st) (s : State) : (s.fifoDone e st).mem = s.mem := rfl
theorem State.popStart_mem (e) (s : State) {t} (ht : s.popStart e = some (.ok t)) : t.mem = s.mem := by
  grind [State.popStart, State.popBefore_mem]
theorem fifoStep_mem {run : State → State} (hr : KeepsMem run) (e) (s : State) : (fifoStep e run s).mem = s.mem := by
  grind [fifoStep, State.popStart_mem, State.fifoPut_mem, State.fifoDone_mem]
theorem fifoStep_wf {run : State → State} (hr : KeepsWf run) {s : State} (h : s.MemWf) (e) : (fifoStep e run s).MemWf := by
  grind [fifoStep, State.popStart_mem, State.fifoPut_mem, State.fifoDone_mem]
@[simp] theorem applyDput_mem (q e) (s : State) : (applyDput q e s).mem = s.mem := by
  grind [applyDput, State.onSync_mem, State.fifoDone_mem, fifoStep_mem]
theorem State.dgetExpires_wf {s : State} (h : s.MemWf) (e) : (s.dgetExpires e).MemWf := by
  grind [State.dgetExpires, State.logged_wf, State.fifoDone_mem]
theorem applyDget_wf {s : State} (h : s.MemWf) (q e) : (applyDget q e s).MemWf := by
  grind [applyDget, State.onSync_mem, State.logHold_mem, State.fifoPut_mem, State.fifoDone_mem, fifoStep_wf, fifoStep_mem,
    State.dgetExpires_wf]
theorem execDput_wf {s : State} (h : s.MemWf) (q) : OutWf (execDput q s) := by
  grind [execDput, State.poisonFault_mem, State.rangeFault_mem, State.issue_mem, applyDput_mem, OutWf]
theorem execDget_wf {s : State} (h : s.MemWf) (q) : OutWf (execDget q s) := by
  grind [execDget, State.poisonFault_mem, State.rangeFault_mem, State.withDeadline_wf, State.issue_mem, applyDget_wf, OutWf]
@[simp] theorem State.commitFifo_mem (e) (s : State) : (s.commitFifo e).mem = s.mem := rfl
theorem execDputCeilingTimeout_wf {s : State} (h : s.MemWf) (q) : OutWf (execDputCeilingTimeout q s) := by
  unfold execDputCeilingTimeout; repeat' split
  all_goals exact h
theorem execWaitf_wf {s : State} (h : s.MemWf) (c _t0 _t1) : OutWf (execWaitf c _t0 _t1 s) := by
  grind [execWaitf, State.poisonFault_mem, State.rangeFault_mem, State.begin_wf, State.withDeadline_wf, OutWf]
theorem issueFlags_wf {s : State} (h : s.MemWf) (i) : OutWf (issueFlags i s) := by
  unfold issueFlags; repeat' split
  all_goals exact h
theorem State.changeFlags_wf {s : State} (h : s.MemWf) (ids f) : (s.changeFlags ids f).MemWf := by
  grind [State.changeFlags, State.onFir_mem, State.onCtx_mem, State.winPut_wf, foldl_wf]
theorem State.commitFlags_wf {s : State} (h : s.MemWf) (e) : (s.commitFlags e).MemWf := by
  grind [State.commitFlags, State.changeFlags_wf]
theorem execSetf_wf {s : State} (h : s.MemWf) (all) : OutWf (execSetf all s) := by
  grind [execSetf, State.unqueue_mem, issueFlags_wf, State.commitFlags_wf, OutWf]
theorem execClrf_wf {s : State} (h : s.MemWf) (all) : OutWf (execClrf all s) := by
  grind [execClrf, State.unqueue_mem, issueFlags_wf, State.commitFlags_wf, OutWf]
theorem execQwait_wf {s : State} (h : s.MemWf) (_t0 _t1) : OutWf (execQwait _t0 _t1 s) := by
  grind [execQwait, State.onDev_mem, State.poisonFault_mem, State.rangeFault_mem, State.finish_mem, State.begin_wf,
    State.withDeadline_wf, OutWf]
theorem execQstat_wf {s : State} (h : s.MemWf) (i w t0 t1) : OutWf (execQstat i w t0 t1 s) := by
  unfold execQstat; repeat' split
  all_goals exact h
theorem execQuietRequest_wf {s : State} (h : s.MemWf) : OutWf (execQuietRequest s) := by
  unfold execQuietRequest; split <;> exact h
@[simp] theorem State.atInterfaces_mem (f) (s : State) : (s.atInterfaces f).mem = s.mem := rfl
theorem execWaveStart_wf {s : State} (h : s.MemWf) : OutWf (execWaveStart s) := by
  unfold execWaveStart; split <;> exact h
@[simp] theorem State.quietStep_mem (p1 q) (s : State) : (State.quietStep p1 s q).mem = s.mem := by
  grind [State.quietStep, State.onSync_mem, State.onDev_mem, State.within_mem]
theorem execQuietDecision_wf {s : State} (h : s.MemWf) : OutWf (execQuietDecision s) := by
  grind [execQuietDecision, State.onDev_mem, State.drawn_mem, State.quietStep_mem, foldl_mem, OutWf]
theorem execClearingWave_wf {s : State} (h : s.MemWf) (slot) : OutWf (execClearingWave slot s) := by
  grind [execClearingWave, State.onDev_mem, State.atInterfaces_mem, OutWf]
theorem execJoin_wf {s : State} (h : s.MemWf) (_t0 _t1) : OutWf (execJoin _t0 _t1 s) := by
  grind [execJoin, State.poisonFault_mem, State.rangeFault_mem, State.finish_mem, State.begin_wf, State.withDeadline_wf, OutWf]
@[simp] theorem State.commitJoin_mem (hd) (s : State) : (s.commitJoin hd).mem = s.mem := rfl
@[simp] theorem State.commitYield_mem (s : State) : s.commitYield.mem = s.mem := rfl
theorem execYield_wf {s : State} (h : s.MemWf) : OutWf (execYield s) := by
  unfold execYield; split <;> exact h

/-! ### Class Z (Machine/System.lean) -/

theorem execTrap_wf {s : State} (h : s.MemWf) (c) : OutWf (execTrap c s) := by
  unfold execTrap; split <;> exact h
theorem State.commitTret_wf {s : State} (h : s.MemWf) (x) : (s.commitTret x).MemWf := by
  grind [State.commitTret, State.onCtx_mem, State.winPut_wf, State.touchWin_wf]
theorem execTret_wf {s : State} (h : s.MemWf) : OutWf (execTret s) := by
  grind [execTret, State.poisonFault_mem, State.rangeFault_mem, State.unqueue_mem, State.issue_mem, State.commitTret_wf, OutWf]
@[simp] theorem State.commitEscal_mem (e) (s : State) : (s.commitEscal e).mem = s.mem := by
  unfold State.commitEscal; split <;> rfl
theorem execEscal_wf {s : State} (h : s.MemWf) (c) : OutWf (execEscal c s) := by
  grind [execEscal, State.poisonFault_mem, State.unqueue_mem, State.issue_mem, State.commitEscal_mem, OutWf]
theorem execBrk_wf {s : State} (h : s.MemWf) : OutWf (execBrk s) := by
  unfold execBrk; repeat' split
  all_goals exact h
theorem execCsrw_wf {s : State} (h : s.MemWf) (r) : OutWf (execCsrw r s) := by
  grind [execCsrw, State.poisonFault_mem, State.unqueue_mem, State.csrWrite_mem, State.issue_mem, OutWf]
theorem execCsrx_wf {s : State} (h : s.MemWf) (r t0) : OutWf (execCsrx r t0 s) := by
  grind [execCsrx, State.emit_mem, State.poisonFault_mem, State.hold_mem, State.unqueue_mem, State.csrWrite_mem, OutWf]
theorem execLogm_wf {s : State} (h : s.MemWf) (code) : OutWf (execLogm code s) := by
  grind [execLogm, State.quiet_mem, State.poisonFault_mem, State.tie_mem, OutWf]
theorem execPerf_wf {s : State} (h : s.MemWf) (k t0 t1) : OutWf (execPerf k t0 t1 s) := by
  unfold execPerf; split <;> exact h
theorem issueSys_wf {s : State} (h : s.MemWf) (i bad) : OutWf (issueSys i bad s) := by
  unfold issueSys; repeat' split
  all_goals exact h
@[simp] theorem zqPut_mem (e r) (s : State) : (zqPut s e r).mem = s.mem := rfl
@[simp] theorem zqDone_mem (e st) (s : State) : (zqDone s e st).mem = s.mem := rfl
theorem sysStep_mem {run : State → State} (hr : KeepsMem run) (e) (s : State) : (sysStep e run s).mem = s.mem := by
  grind [sysStep, State.popStart_mem, zqPut_mem, zqDone_mem]
theorem sysStep_wf {run : State → State} (hr : KeepsWf run) {s : State} (h : s.MemWf) (e) : (sysStep e run s).MemWf := by
  grind [sysStep, State.popStart_mem, zqPut_mem, zqDone_mem]
theorem applySpinv_wf {s : State} (h : s.MemWf) (e) : (applySpinv e s).MemWf := by
  grind [applySpinv, State.onDev_mem, State.onMem_mem, State.touch_wf, zqDone_mem, Memory.wf_setRaw]
theorem execSpinv_wf {s : State} (h : s.MemWf) : OutWf (execSpinv s) := by
  grind [execSpinv, issueSys_wf, sysStep_wf, applySpinv_wf, OutWf]
@[simp] theorem applyTlbinv_mem (e) (s : State) : (applyTlbinv e s).mem = s.mem := rfl
theorem execTlbinv_wf {s : State} (h : s.MemWf) : OutWf (execTlbinv s) := by
  grind [execTlbinv, issueSys_wf, sysStep_mem, applyTlbinv_mem, OutWf]
@[simp] theorem applyKeysel_mem (e) (s : State) : (applyKeysel e s).mem = s.mem := by
  grind [applyKeysel, State.onCsr_mem, State.within_mem, zqDone_mem]
theorem execKeysel_wf {s : State} (h : s.MemWf) : OutWf (execKeysel s) := by
  grind [execKeysel, issueSys_wf, sysStep_mem, applyKeysel_mem, OutWf]

/-! ### Launches (Machine/Graph.lean) -/

theorem readTable_wf {s : State} (h : s.MemWf) (w n va) : (readTable w n va s).2.MemWf := by
  grind [readTable, readGot_wf]
theorem State.putEntry_wf {s : State} (h : s.MemWf) (job i w) : (s.putEntry job i w).MemWf := by
  grind [State.putEntry, State.memPut_wf]
theorem State.create_wf {s : State} (h : s.MemWf) (p chans acts sp) : (State.create p chans acts s sp).MemWf := by
  grind [State.create, State.onDev_mem, State.onMem_mem, State.putEntry_wf, zeroWindow_wf]
theorem State.logPlacement_wf {s : State} (h : s.MemWf) : s.logPlacement.MemWf := by
  grind [State.logPlacement, State.onCtx_mem, State.logged_wf]
@[simp] theorem State.rejectChild_mem (uid hd st) (s : State) : (s.rejectChild uid hd st).mem = s.mem := by
  grind [State.rejectChild, State.onSync_mem, State.within_mem]
@[simp] theorem State.rejectPending_mem (p st) (s : State) : (s.rejectPending p st).mem = s.mem := by
  grind [State.rejectPending, State.putOut_mem, State.rejectChild_mem]
theorem State.launchToken_wf {s : State} (h : s.MemWf) (c val) : (s.launchToken c val).MemWf := by
  grind [State.launchToken, State.onDev_mem, State.touch_wf, State.putOut_mem, readGot_wf]
theorem execLaunchTokenConsume_wf {s : State} (h : s.MemWf) (c) : OutWf (execLaunchTokenConsume c s) := by
  grind [execLaunchTokenConsume, State.onDev_mem, State.launchToken_wf, OutWf]
@[simp] theorem State.takeJob_mem (job) (s : State) : (s.takeJob job).mem = s.mem := by
  unfold State.takeJob; split <;> rfl
theorem State.startLaunch_wf {s : State} (h : s.MemWf) (n p chans acts sps) : (s.startLaunch n p chans acts sps).MemWf := by
  grind [State.startLaunch, State.onDev_mem, State.within_wf, State.create_wf, State.logPlacement_wf, State.takeJob_mem, foldl_wf]
theorem execPlacement_wf {s : State} (h : s.MemWf) (n) : OutWf (execPlacement n s) := by
  grind [execPlacement, State.onDev_mem, State.drawn_mem, readTable_wf, State.rejectPending_mem, State.startLaunch_wf, OutWf]
theorem State.spawnGraph_wf {s : State} (h : s.MemWf) (hd va w) : (s.spawnGraph hd va w).MemWf := by
  grind [State.spawnGraph, State.onSync_mem, State.onDev_mem, readGot_wf, State.rejectChild_mem]
theorem State.spawnSet_wf {s : State} (h : s.MemWf) (hd va head w) : (s.spawnSet hd va head w).MemWf := by
  grind [State.spawnSet, State.onCtx_mem, readGot_wf, State.rejectChild_mem]
theorem State.commitSpawn_wf {s : State} (h : s.MemWf) (e) : (s.commitSpawn e).MemWf := by
  grind [State.commitSpawn, State.spawnGraph_wf, State.spawnSet_wf]
@[simp] theorem State.spawnIssue_mem (set head t0 t1) (s : State) : (s.spawnIssue set head t0 t1).mem = s.mem := by
  unfold State.spawnIssue; repeat' split
  all_goals rfl
theorem execSpawn_wf {s : State} (h : s.MemWf) (set t0 t1) : OutWf (execSpawn set t0 t1 s) := by
  grind [execSpawn, State.poisonFault_mem, State.rangeFault_mem, State.accessFault_mem, State.unqueue_mem, State.touch_wf,
    State.refuse_mem, State.place_wf, State.commitSpawn_wf, State.spawnIssue_mem, OutWf]

/-! ### Segments (Machine/Segments.lean) -/

@[simp] theorem State.onGraph_mem (f) (s : State) : (s.onGraph f).mem = s.mem := rfl
@[simp] theorem State.mapCtxs_mem (f) (s : State) : (s.mapCtxs f).mem = s.mem := rfl
@[simp] theorem State.hostDrop_mem (c n) (s : State) : (s.hostDrop c n).mem = s.mem := by
  unfold State.hostDrop; split <;> rfl
@[simp] theorem State.takeEos_mem (i) (s : State) : (s.takeEos i).mem = s.mem := by
  grind [State.takeEos, State.onGraph_mem, State.hostDrop_mem]
@[simp] theorem State.putEos_mem (i fin) (s : State) : (s.putEos i fin).mem = s.mem := by
  grind [State.putEos, State.drawn_mem, State.putOut_mem, State.onGraph_mem]
theorem execEndOfSegment_wf {s : State} (h : s.MemWf) (i) : OutWf (execEndOfSegment i s) := by
  grind [execEndOfSegment, State.onCtx_mem, State.onGraph_mem, State.takeEos_mem, State.putEos_mem, foldl_mem, OutWf]
@[simp] theorem State.dropUpdates_mem (c) (s : State) : (s.dropUpdates c).mem = s.mem := rfl
@[simp] theorem State.dropInits_mem (c) (s : State) : (s.dropInits c).mem = s.mem := rfl
@[simp] theorem State.dropCtx_mem (uid) (s : State) : (s.dropCtx uid).mem = s.mem := by
  unfold State.dropCtx; split <;> rfl
@[simp] theorem State.tallyEnd_mem (id killed) (s : State) : (s.tallyEnd id killed).mem = s.mem := by
  grind [State.tallyEnd, State.onDev_mem, State.reportLaunch_mem, foldl_mem]
@[simp] theorem State.endInstance_mem (uid killed) (s : State) : (s.endInstance uid killed).mem = s.mem := by
  grind [State.endInstance, State.onTileOf_mem, State.dropUpdates_mem, State.dropInits_mem, State.dropCtx_mem, State.tallyEnd_mem]
theorem execSegmentBoundary_wf {s : State} (h : s.MemWf) : OutWf (execSegmentBoundary s) := by
  grind [execSegmentBoundary, State.onCtx_mem, State.logged_wf, State.evictHandle_wf, State.endInstance_mem, OutWf]
@[simp] theorem State.openSegment_mem (s : State) : s.openSegment.mem = s.mem := foldl_mem (fun _ _ => State.hostDrop_mem ..) ..
theorem execSegmentStart_wf {s : State} (h : s.MemWf) : OutWf (execSegmentStart s) := by
  grind [execSegmentStart, State.within_wf, State.logged_wf, State.logPlacement_wf, State.mapCtxs_mem, State.openSegment_mem, OutWf]

/-! ### Ending, saving and restoring (Machine/Save.lean) -/

theorem State.dropFiring_wf {s : State} (h : s.MemWf) (saved id) : (State.dropFiring saved s id).MemWf := by
  grind [State.dropFiring, State.onBlk_mem, State.focusFir_mem, State.abandon_wf]
theorem State.dropFirings_wf {s : State} (h : s.MemWf) (saved l) : (s.dropFirings saved l).MemWf :=
  foldl_wf (fun _ _ h => State.dropFiring_wf h ..) h _
@[simp] theorem State.leaveColls_mem (s : State) : s.leaveColls.mem = s.mem := by
  grind [State.leaveColls, State.onColl_mem, foldl_mem]
@[simp] theorem State.endSave_mem (issuer e st) (s : State) : (State.endSave issuer e st s).mem = s.mem := by
  grind [State.endSave, State.within_mem, zqDone_mem]
theorem State.returnUpdate_wf {s : State} (h : s.MemWf) (x) : (s.returnUpdate x).MemWf := by
  grind [State.returnUpdate, State.onUsu_mem, State.applyUpdate_wf]
theorem State.giveUp_wf {s : State} (h : s.MemWf) : s.giveUp.MemWf := by
  grind [State.giveUp, State.onCtx_mem, State.onDev_mem, State.putEntry_wf, State.returnUpdate_wf, foldl_wf]
@[simp] theorem State.dropAllAhead_mem (s : State) : s.dropAllAhead.mem = s.mem := by
  grind [State.dropAllAhead, State.onCtx_mem, State.onCsr_mem, State.dropAhead_mem, foldl_mem]
theorem State.beginSave_wf {s : State} (h : s.MemWf) (bound) : (s.beginSave bound).MemWf := by
  grind [State.beginSave, State.onCsr_mem, State.onDev_mem, State.putEntry_wf, State.dropAllAhead_mem]
theorem State.writeArea_wf {s : State} (h : s.MemWf) (frozen va tag who) : (s.writeArea frozen va tag who).MemWf :=
  State.touchWin_wf h ..
@[simp] theorem State.releaseCore_mem (s : State) : s.releaseCore.mem = s.mem := rfl
@[simp] theorem State.takeAway_mem (v) (s : State) : (s.takeAway v).mem = s.mem := by
  grind [State.takeAway, State.onTile_mem, State.onDev_mem, State.dropUpdates_mem]
theorem State.unsave_wf {s : State} (h : s.MemWf) : s.unsave.MemWf := by
  unfold State.unsave
  split <;> grind [State.onDev_mem, State.giveUp_wf, State.takeAway_mem]
theorem State.unsaveOthers_wf {s : State} (h : s.MemWf) : s.unsaveOthers.MemWf := by
  grind [State.unsaveOthers, State.within_wf, State.unsave_wf, foldl_wf]
theorem State.killPrep_wf {s : State} (h : s.MemWf) (bySup saved) : (State.killPrep bySup saved s).MemWf := by
  fun_cases State.killPrep bySup saved s
  grind [State.raiseTile_mem, State.onNet_mem, State.dropFirings_wf,
    State.leaveColls_mem, State.endSave_mem, State.unsaveOthers_wf]
theorem State.killCtx_wf {s : State} (h : s.MemWf) (bySup uid) : (State.killCtx bySup s uid).MemWf := by
  grind [State.killCtx, State.onDev_mem, State.within_wf, State.tallyEnd_mem, State.endInstance_mem, State.killPrep_wf]
@[simp] theorem State.killPending_mem (p) (s : State) : (s.killPending p).mem = s.mem := by
  grind [State.killPending, State.onSync_mem, State.onDev_mem, State.within_mem, State.rejectPending_mem]
theorem State.killLaunches_wf {s : State} (h : s.MemWf) (bySup ns) : (State.killLaunches bySup s ns).MemWf := by
  grind [State.killLaunches, State.killCtx_wf, State.killPending_mem, foldl_wf]
theorem State.killSet_wf {s : State} (h : s.MemWf) (hd) : (s.killSet hd).MemWf := State.dropFirings_wf h ..
theorem State.killHandle_wf {s : State} (h : s.MemWf) (hd) : (s.killHandle hd).MemWf := by
  grind [State.killHandle, State.onSync_mem, State.within_wf, State.killLaunches_wf, State.killSet_wf]
@[simp] theorem State.doneIf_mem (uid e st) (s : State) : (s.doneIf uid e st).mem = s.mem := by
  unfold State.doneIf; split <;> rfl
theorem applyKill_wf {s : State} (h : s.MemWf) (job e) : (applyKill job e s).MemWf := by
  grind [applyKill, zqDone_mem, State.killLaunches_wf, State.killHandle_wf, State.doneIf_mem]
theorem execKill_wf {s : State} (h : s.MemWf) (job) : OutWf (execKill job s) := by
  grind [execKill, issueSys_wf, sysStep_wf, applyKill_wf, OutWf]
@[simp] theorem State.finishSave_mem (e uid tag b frozen) (s : State) : (s.finishSave e uid tag b frozen).mem = s.mem := by
  grind [State.finishSave, State.within_mem, zqDone_mem, State.takeAway_mem]
theorem State.saveStep_wf {s : State} (h : s.MemWf) (e uid frozen) : (s.saveStep e uid frozen).MemWf := by
  grind [State.saveStep, State.onCtx_mem, State.onDev_mem, State.focusFir_mem, State.focusCtx_mem, State.within_wf,
    State.settle_wf, flushMaps_wf, zqPut_mem, zqDone_mem, State.writeArea_wf, State.releaseCore_mem, State.finishSave_mem]
theorem applyCtxsave_wf {s : State} (h : s.MemWf) (e) : (applyCtxsave e s).MemWf := by
  grind [applyCtxsave, State.within_wf, zqPut_mem, zqDone_mem, State.onGraph_mem, State.beginSave_wf, State.saveStep_wf]
theorem execCtxsave_wf {s : State} (h : s.MemWf) : OutWf (execCtxsave s) := by
  grind [execCtxsave, issueSys_wf, sysStep_wf, applyCtxsave_wf, OutWf]
theorem State.startPending_wf {s : State} (h : s.MemWf) (k) : (s.startPending k).MemWf := by
  grind [State.startPending, State.onCtx_mem, State.within_wf, State.beginSave_wf]
theorem execBoundarySwitch_wf {s : State} (h : s.MemWf) : OutWf (execBoundarySwitch s) := by
  grind [execBoundarySwitch, State.startPending_wf, OutWf]
theorem execSegmaxExpiry_wf {s : State} (h : s.MemWf) : OutWf (execSegmaxExpiry s) := by
  grind [execSegmaxExpiry, State.startPending_wf, OutWf]
theorem readArea_wf {s : State} (h : s.MemWf) (w va) : (readArea w va s).2.MemWf := by
  grind [readArea, readGot_wf]
theorem State.replaceCfg_wf {s : State} (h : s.MemWf) (hd g) : (s.replaceCfg hd g).1.MemWf := by
  grind [State.replaceCfg, State.onCtx_mem, State.settleAll_wf, State.applyMoves_mem]
theorem State.replaceCfgs_wf {s : State} (h : s.MemWf) (l) : (State.replaceCfgs l s).1.MemWf := by
  fun_induction State.replaceCfgs l s <;> grind [State.replaceCfg_wf]
theorem State.restored_wf {s : State} (h : s.MemWf) (v) : (s.restored v).MemWf := by
  grind [State.restored, State.onDev_mem, flushMaps_wf, State.resumeLog_wf, State.putEntry_wf, State.returnUpdate_wf, foldl_wf]
theorem State.again_mem (x) (s : State) : (s.again x).1.mem = s.mem := by
  grind [State.again, State.onDev_mem, State.takeJob_mem]
theorem State.writeWindow_wf {s : State} (h : s.MemWf) (a num row) : (s.writeWindow a num row).MemWf := by
  refine Memory.wf_foldl (fun _ _ h => Memory.wf_setPoison h ..) (State.winPutAll_wf ?_ ..) _
  exact zeroWindow_wf h ..
theorem State.restore_wf {s : State} (h : s.MemWf) (x num row) : (s.restore x num row).2.MemWf := by
  grind [State.restore, State.onCtx_mem, State.onTile_mem, State.onDev_mem, State.focusFir_mem, State.focusCtx_mem,
    State.dropCtx_mem, State.replaceCfgs_wf, State.restored_wf, State.again_mem]
theorem payLog_wf {s : State} (h : s.MemWf) (n) : (payLog n s).MemWf := by
  fun_induction payLog n s <;> grind [State.onCtx_mem, State.settle_wf]
theorem State.payLogs_wf {s : State} (h : s.MemWf) : s.payLogs.MemWf := by
  grind [State.payLogs, State.onCsr_mem, payLog_wf]
theorem applyCtxload_wf {s : State} (h : s.MemWf) (e) : (applyCtxload e s).MemWf := by
  have hpay (uid) : (s.within uid State.payLogs).MemWf := State.within_wf (fun _ => State.payLogs_wf) h uid
  unfold applyCtxload
  generalize e.ws = ws
  match ws with
  | [] => grind [readArea_wf, State.writeWindow_wf, zqPut_mem, zqDone_mem]
  | [uid] => grind [zqDone_mem]
  | [_, _] => exact h
  | row :: wlog :: tag :: ws => grind [State.restore_wf, zqPut_mem, zqDone_mem]
theorem execCtxload_wf {s : State} (h : s.MemWf) : OutWf (execCtxload s) := by
  grind [execCtxload, issueSys_wf, sysStep_wf, applyCtxload_wf, OutWf]
theorem execRestoreWaitTimeout_wf {s : State} (h : s.MemWf) : OutWf (execRestoreWaitTimeout s) := by
  unfold execRestoreWaitTimeout; split <;> exact h

/-! ### The clock (Machine/Sched.lean) -/

@[simp] theorem State.tick_mem (s : State) : s.tick.mem = s.mem := rfl

/-! ### The control core (Machine/Control.lean) -/

theorem fetchWords_wf {s : State} (h : s.MemWf) (n x) : (fetchWords n x s).2.MemWf := by
  fun_induction fetchWords n x s <;> grind [State.touch_wf, State.global_wf]
theorem State.readBlock_wf {s : State} (h : s.MemWf) (pc) : (s.readBlock pc).2.MemWf := by
  grind [State.readBlock, fetchWords_wf]
theorem State.fetchBlock_wf {s : State} (h : s.MemWf) : s.fetchBlock.MemWf := by
  grind [State.fetchBlock, State.onFir_mem, State.takeTrap_wf, State.readBlock_wf]
theorem State.fetchAhead_wf {s : State} (h : s.MemWf) (pc) : (s.fetchAhead pc).MemWf := by
  grind [State.fetchAhead, State.onFir_mem, State.readBlock_wf]
theorem execBlockFetch_wf {s : State} (h : s.MemWf) : OutWf (execBlockFetch s) := by
  grind [execBlockFetch, State.fetchBlock_wf, State.fetchAhead_wf, OutWf]
@[simp] theorem State.dispatchMore_mem (s : State) : s.dispatchMore.mem = s.mem := rfl
@[simp] theorem State.popReturn_mem (s : State) : s.popReturn.mem = s.mem := by
  unfold State.popReturn; split <;> rfl
@[simp] theorem State.notePrediction_mem (s : State) : s.notePrediction.mem = s.mem := rfl
theorem State.dispatchBlock_wf {s : State} (h : s.MemWf) : s.dispatchBlock.MemWf := by
  grind [State.dispatchBlock, State.onFir_mem, State.onTile_mem, State.takeTrap_wf, State.dispatchMore_mem, State.popReturn_mem,
    State.notePrediction_mem]
theorem State.dispatchAhead_mem (s : State) {t} (ht : s.dispatchAhead = some t) : t.mem = s.mem := by
  obtain ⟨b, -, hb⟩ := Option.bind_eq_some_iff.mp ht
  grind [State.onFir_mem, State.onTile_mem, State.popReturn_mem, State.notePrediction_mem]
theorem execBlockDispatch_wf {s : State} (h : s.MemWf) : OutWf (execBlockDispatch s) := by
  grind [execBlockDispatch, State.dispatchMore_mem, State.dispatchBlock_wf, getD_mem, State.dispatchAhead_mem, OutWf]
theorem State.breakAt_wf {s : State} (h : s.MemWf) (k) : (s.breakAt k).MemWf := State.abandon_wf h ..
theorem State.endFault_wf {s : State} (h : s.MemWf) (f) : (s.endFault f).MemWf := by
  grind [State.endFault, State.takeTrap_wf, State.breakAt_wf]
@[simp] theorem State.commitHostTake_mem (e) (s : State) : (s.commitHostTake e).mem = s.mem := by
  unfold State.commitHostTake; repeat' split
  all_goals rfl
@[simp] theorem State.closeHandle_mem (hd) (s : State) : (s.closeHandle hd).mem = s.mem := by
  grind [State.closeHandle, State.reportLaunch_mem, State.commitJoin_mem]
theorem State.applyNow_wf {s : State} (h : s.MemWf) (e) : (s.applyNow e).MemWf := by
  grind [State.applyNow, State.onCtx_mem, State.csrWrite_mem, State.commitStore_wf, State.createSend_wf, State.commitRecv_mem,
    State.cancelMask_mem, State.commitBari_mem, State.commitFifo_mem, State.commitFlags_wf, State.commitYield_mem,
    State.commitTret_wf, State.commitEscal_mem, State.commitSpawn_wf, State.commitHostTake_mem, State.closeHandle_mem]
theorem State.handOver_wf {s : State} (h : s.MemWf) (e) : (s.handOver e).MemWf := by
  grind [State.handOver, State.onCtx_mem, State.onDev_mem, State.touch_wf, State.onNet_mem, State.readDesc_wf, State.createSend_wf,
    State.commitFifo_mem, State.applyNow_wf, foldl_wf]
theorem State.commitLogs_wf {s : State} (h : s.MemWf) : s.commitLogs.MemWf := by
  grind [State.commitLogs, State.logPut_wf, State.consume_mem, State.logHold_mem, foldl_wf]
@[simp] theorem State.releaseIn_mem (p) (s : State) : (s.releaseIn p).mem = s.mem := by
  grind [State.releaseIn, State.onCtx_mem, State.onNet_mem, State.onCfg_mem, State.onGraph_mem, State.hostDrop_mem, foldl_mem]
theorem State.publishOut_wf {s : State} (h : s.MemWf) (p) : (s.publishOut p).MemWf := by
  unfold State.publishOut
  simp only []
  rw [State.MemWf, State.onGraph_mem]
  split
  · exact h
  · grind [State.onCtx_mem, State.onCfg_mem, State.putEdges_mem, foldl_mem, getD_wf, State.hangFirst_wf]
  · grind [State.putOut_mem, foldl_mem]
  · exact h
@[simp] theorem State.noteOverrun_mem (s : State) : s.noteOverrun.mem = s.mem := by
  grind [State.noteOverrun, State.onFir_mem, State.onCtx_mem]
theorem State.retire_wf {s : State} (h : s.MemWf) : s.retire.MemWf := by
  grind [State.retire, State.onCtx_mem, State.onCsr_mem, State.touch_wf, State.onGraph_mem, State.releaseIn_mem,
    State.publishOut_wf, foldl_wf]
@[simp] theorem State.goOn_mem (t) (s : State) : (s.goOn t).mem = s.mem := by
  unfold State.goOn; repeat' split
  all_goals rfl
theorem State.takeExit_wf {s : State} (h : s.MemWf) (x) : (s.takeExit x).MemWf := by
  fun_cases s.takeExit x <;> grind [State.retire_wf, State.goOn_mem]
@[simp] theorem State.forgetOld_mem (k) (s : State) : (s.forgetOld k).mem = s.mem := rfl
theorem State.commitBlock_wf {s : State} (h : s.MemWf) : s.commitBlock.MemWf := by
  grind [State.commitBlock, State.onFir_mem, State.onCtx_mem, State.onCsr_mem, State.onSync_mem, State.escalate_mem,
    State.handOver_wf, State.commitLogs_wf, State.noteOverrun_mem, State.takeExit_wf, State.forgetOld_mem, foldl_wf]
theorem execBlockCommit_wf {s : State} (h : s.MemWf) : OutWf (execBlockCommit s) := by
  grind [execBlockCommit, State.logHold_mem, State.endFault_wf, State.commitBlock_wf, OutWf]
theorem execWaitEvaluation_wf {s : State} (h : s.MemWf) : OutWf (execWaitEvaluation s) := by
  grind [execWaitEvaluation, State.firstReturn_wf, getD_wf, OutWf]
theorem execDeadlineExpiry_wf {s : State} (h : s.MemWf) : OutWf (execDeadlineExpiry s) := by
  grind [execDeadlineExpiry, State.onCtx_mem, State.expireWait_wf, OutWf]
@[simp] theorem State.clearStage_mem (n) (s : State) : (s.clearStage n).mem = s.mem :=
  foldl_mem (fun _ _ => State.onGraph_mem ..) ..
theorem execFiringResumption_wf {s : State} (h : s.MemWf) : OutWf (execFiringResumption s) := by
  grind [execFiringResumption, State.resume_wf, State.clearStage_mem, OutWf]
theorem execFiringOverrun_wf {s : State} (h : s.MemWf) : OutWf (execFiringOverrun s) := by
  grind [execFiringOverrun, State.noteOverrun_mem, OutWf]
@[simp] theorem State.stageOut_mem (p) (s : State) : (s.stageOut p).mem = s.mem := by
  grind [State.stageOut, State.onGraph_mem]
@[simp] theorem State.startFiring_mem (r) (s : State) : (s.startFiring r).mem = s.mem := by
  grind [State.startFiring, State.onCtx_mem, State.onGraph_mem, State.stageOut_mem, foldl_mem]
theorem execActorSelection_wf {s : State} (h : s.MemWf) : OutWf (execActorSelection s) := by
  grind [execActorSelection, State.onTile_mem, State.within_wf, State.logged_wf, State.mapCtxs_mem, State.startFiring_mem, OutWf]
theorem execActorReweight_wf {s : State} (h : s.MemWf) (p) : OutWf (execActorReweight p s) := by
  grind [execActorReweight, State.onTile_mem, State.loggedAll_wf, State.mapCtxs_mem, OutWf]

/-! ### Errors and clocks of the dies (Machine/Errors.lean) -/

@[simp] theorem State.countUncont_mem (s : State) : s.countUncont.mem = s.mem := by
  grind [State.countUncont, State.onDev_mem]
theorem State.uncontCfg_wf {s : State} (h : s.MemWf) (hd ep) : (s.uncontCfg hd ep).MemWf := by
  grind [State.uncontCfg, State.onCfg_mem, State.collarFault_mem, State.faultFrom_wf]
@[simp] theorem State.damaged_mem (x) (s : State) : (s.damaged x).mem = s.mem := rfl
@[simp] theorem State.uncontCtx_mem (uid) (s : State) : (s.uncontCtx uid).mem = s.mem := by
  grind [State.uncontCtx, State.onCsr_mem, State.within_mem]
theorem execUncontainedError_wf {s : State} (h : s.MemWf) (owner tile n code endpt) : OutWf (execUncontainedError owner tile n
    code endpt s) := by
  grind [execUncontainedError, State.within_wf, State.raiseTile_mem, State.raise_mem, State.countUncont_mem, State.uncontCfg_wf,
    State.damaged_mem, State.uncontCtx_mem, foldl_wf, OutWf]
theorem execClockReevaluation_wf {s : State} (h : s.MemWf) (die tj thbm pwr) : OutWf (execClockReevaluation die tj thbm pwr s) := by
  grind [execClockReevaluation, State.onDev_mem, State.raiseModule_mem, OutWf]

/-! ### Ports between dies (Machine/Links.lean) -/

@[simp] theorem State.netPacket_mem (port classB m) (s : State) : (s.netPacket port classB m).mem = s.mem := by
  grind [State.netPacket, State.onDev_mem, State.fabric_mem, State.countPort_mem]
@[simp] theorem State.linkCorrected_mem (port) (s : State) : (s.linkCorrected port).mem = s.mem := by
  grind [State.linkCorrected, State.onDev_mem, State.raiseModule_mem]
@[simp] theorem State.packageFlit_mem (port good) (s : State) : (s.packageFlit port good).mem = s.mem := by
  grind [State.packageFlit, State.onDev_mem, State.drawn_mem, State.onLink_mem, State.fabric_mem, State.countPort_mem,
    State.linkCorrected_mem]
theorem execFlitReceive_wf {s : State} (h : s.MemWf) (port payload low crc again pkt) : OutWf (execFlitReceive port payload low
    crc again pkt s) := by
  grind [execFlitReceive, State.onLink_mem, State.netPacket_mem, State.linkCorrected_mem, State.packageFlit_mem, OutWf]
@[simp] theorem State.declareDown_mem (port cause) (s : State) : (s.declareDown port cause).mem = s.mem := by
  grind [State.declareDown, State.raiseModule_mem, State.onLink_mem, State.writeOff_mem, State.linkLoss_mem]
theorem execRetransmissionExhausted_wf {s : State} (h : s.MemWf) (port) : OutWf (execRetransmissionExhausted port s) := by
  grind [execRetransmissionExhausted, State.declareDown_mem, OutWf]
theorem execKeepaliveSend_wf {s : State} (h : s.MemWf) (port) : OutWf (execKeepaliveSend port s) := by
  unfold execKeepaliveSend; split <;> exact h
theorem execLinkDown_wf {s : State} (h : s.MemWf) (port) : OutWf (execLinkDown port s) := by
  grind [execLinkDown, State.declareDown_mem, OutWf]
theorem execLinkRetrain_wf {s : State} (h : s.MemWf) (port) : OutWf (execLinkRetrain port s) := by
  grind [execLinkRetrain, State.retrainOp_mem, OutWf]
theorem execLinkTrained_wf {s : State} (h : s.MemWf) (port) : OutWf (execLinkTrained port s) := by
  grind [execLinkTrained, State.onLink_mem, State.endLost_wf, OutWf]
theorem execPartitionEnable_wf {s : State} (h : s.MemWf) (v) : OutWf (execPartitionEnable v s) := State.ptctlWrite_wf h ..
theorem execPartitionDisable_wf {s : State} (h : s.MemWf) (v) : OutWf (execPartitionDisable v s) := State.ptctlWrite_wf h ..
theorem execFreezeFloodStart_wf {s : State} (h : s.MemWf) (id) : OutWf (execFreezeFloodStart id s) := by
  grind [execFreezeFloodStart, State.floodStart_mem, OutWf]
theorem execThawFloodStart_wf {s : State} (h : s.MemWf) (id) : OutWf (execThawFloodStart id s) := by
  grind [execThawFloodStart, State.floodStart_mem, OutWf]
theorem execFreezeFloodReceive_wf {s : State} (h : s.MemWf) (port id thaw) : OutWf (execFreezeFloodReceive port id thaw s) := by
  grind [execFreezeFloodReceive, State.onDev_mem, State.onLink_mem, State.floodAt_mem, OutWf]

/-! ### Every row (Machine/Dispatch.lean) -/

/-- Rows of one `.next` that leaves memory alone hold by definition; rows that share an operation by its lemma; the others by their
own. -/
theorem exec_wf {s : State} (h : s.MemWf) (i : Instr) : OutWf (exec i s) := by
  cases i with
  | add | sub | addi | mul | mulh | mulhn | div | divn | rem | remn | and | or | xor | andn | shl | shr | sar | min | max
  | minn | maxn | clz | popc | sext | zext | ceq | cne | clt | cltn | cle | clen | sel | movi | constw | constd | read | fan
  | null | lea | retire | vmovs | mstat | ringstat | csrr | hctailWrite | hcheadWrite | hcctlEnable | hcctlDisable
  | attcmdWrite | i3cDynamicAddress | deviceReset | i3cPrivateRead => exact h
  | br | ret => exact branch_wf h ..
  | vadd | vsub | vmul | vmin | vmax => exact vbin_wf h ..
  | vabs | vneg | vrcp | vrsq | vexp2 | vlog2 => exact vun_wf h ..
  | vshl | vshr | vsar => exact vshift_wf h ..
  | ill => exact execIll_wf h
  | write r => exact execWrite_wf h r
  | bri imm => exact execBri_wf h imm
  | call imm t0 => exact execCall_wf h imm t0
  | vfma ty vd va vb q => exact execVfma_wf h ty vd va vb q
  | vand vd va vb q => exact execVand_wf h vd va vb q
  | vor vd va vb q => exact execVor_wf h vd va vb q
  | vxor vd va vb q => exact execVxor_wf h vd va vb q
  | vcmp ty rel vd va vb q => exact execVcmp_wf h ty rel vd va vb q
  | vsel vd va vb q => exact execVsel_wf h vd va vb q
  | vcvt pr md vd va q => exact execVcvt_wf h pr md vd va q
  | vqnt f scales vd va q => exact execVqnt_wf h f scales vd va q
  | vdqnt f vd va vb q => exact execVdqnt_wf h f vd va vb q
  | vperm src vd va q => exact execVperm_wf h src vd va q
  | vbfly op k vd va q => exact execVbfly_wf h op k vd va q
  | vred op vd va q => exact execVred_wf h op vd va q
  | vscan op excl vd va q => exact execVscan_wf h op excl vd va q
  | vsmxa start vd va q => exact execVsmxa_wf h start vd va q
  | vsmxn vd va vb q => exact execVsmxn_wf h vd va vb q
  | vstat ph vd va q => exact execVstat_wf h ph vd va q
  | vsplat src vd q => exact execVsplat_wf h src vd q
  | vins va n q t0 => exact execVins_wf h va n q t0
  | vlane src q => exact execVlane_wf h src q
  | vmov vd va q => exact execVmov_wf h vd va q
  | sett n vd va vb q => exact execSett_wf h n vd va vb q
  | mregion r => exact execMregion_wf h r
  | mfmt r => exact execMfmt_wf h r
  | mwld r => exact execMwld_wf h r
  | mswap r => exact execMswap_wf h r
  | mstep r => exact execMstep_wf h r
  | macc r => exact execMacc_wf h r
  | mdrain r => exact execMdrain_wf h r
  | mzero r => exact execMzero_wf h r
  | mfree r => exact execMfree_wf h r
  | cload hd => exact execCload_wf h hd
  | cfire hd => exact execCfire_wf h hd
  | cpatch hd => exact execCpatch_wf h hd
  | cmcast hd => exact execCmcast_wf h hd
  | cevict m => exact execCevict_wf h m
  | cstat hd t0 t1 => exact execCstat_wf h hd t0 t1
  | cweight hd => exact execCweight_wf h hd
  | chang hd => exact execChang_wf h hd
  | cfreeze hd => exact execCfreeze_wf h hd
  | cthaw hd => exact execCthaw_wf h hd
  | sbind n => exact execSbind_wf h n
  | sfree n => exact execSfree_wf h n
  | squery img n t0 t1 => exact execSquery_wf h img n t0 t1
  | ld sp sx sz t0 t1 => exact execLd_wf h sp sx sz t0 t1
  | st sp sz t0 t1 => exact execSt_wf h sp sz t0 t1
  | ldv sp va q t0 => exact execLdv_wf h sp va q t0
  | stv sp va q t0 => exact execStv_wf h sp va q t0
  | ldg str t0 t1 => exact execLdg_wf h str t0 t1
  | sts str t0 t1 => exact execSts_wf h str t0 t1
  | agen str => exact execAgen_wf h str
  | astart str => exact execAstart_wf h str
  | astop str => exact execAstop_wf h str
  | abar => exact execAbar_wf h
  | ldw str => exact execLdw_wf h str
  | tlook t0 t1 => exact execTlook_wf h t0 t1
  | tset => exact execTset_wf h
  | tclr => exact execTclr_wf h
  | amo op ty t0 t1 => exact execAmo_wf h op ty t0 t1
  | amov op va q t0 => exact execAmov_wf h op va q t0
  | cas wide t0 t1 => exact execCas_wf h wide t0 t1
  | pxform p => exact execPxform_wf h p
  | pmerge p => exact execPmerge_wf h p
  | ringdef n => exact execRingdef_wf h n
  | resume => exact execResume_wf h
  | kcopy t0 t1 => exact execKcopy_wf h t0 t1
  | kgath t0 t1 => exact execKgath_wf h t0 t1
  | kscat t0 t1 => exact execKscat_wf h t0 t1
  | kred op t0 t1 => exact execKred_wf h op t0 t1
  | kport p => exact execKport_wf h p
  | ksend rec tag t0 t1 => exact execKsend_wf h rec tag t0 t1
  | krecv n t0 t1 => exact execKrecv_wf h n t0 t1
  | kpoll n t0 t1 => exact execKpoll_wf h n t0 t1
  | kcoll k t0 t1 => exact execKcoll_wf h k t0 t1
  | kwait t0 t1 => exact execKwait_wf h t0 t1
  | kevq t0 t1 => exact execKevq_wf h t0 t1
  | kcancel => exact execKcancel_wf h
  | kstat t0 t1 => exact execKstat_wf h t0 t1
  | bari str => exact execBari_wf h str
  | bara t0 t1 => exact execBara_wf h t0 t1
  | barw t0 t1 => exact execBarw_wf h t0 t1
  | baraw t0 t1 => exact execBaraw_wf h t0 t1
  | bard t0 t1 => exact execBard_wf h t0 t1
  | bart t0 t1 => exact execBart_wf h t0 t1
  | fence str t0 t1 => exact execFence_wf h str t0 t1
  | dput q => exact execDput_wf h q
  | dget q => exact execDget_wf h q
  | waitf c t0 t1 => exact execWaitf_wf h c t0 t1
  | setf all => exact execSetf_wf h all
  | clrf all => exact execClrf_wf h all
  | qwait t0 t1 => exact execQwait_wf h t0 t1
  | qstat iface w t0 t1 => exact execQstat_wf h iface w t0 t1
  | spawn set t0 t1 => exact execSpawn_wf h set t0 t1
  | join t0 t1 => exact execJoin_wf h t0 t1
  | kill job => exact execKill_wf h job
  | yield => exact execYield_wf h
  | trap c => exact execTrap_wf h c
  | tret => exact execTret_wf h
  | csrw r => exact execCsrw_wf h r
  | csrx r t0 => exact execCsrx_wf h r t0
  | logm code => exact execLogm_wf h code
  | ctxsave => exact execCtxsave_wf h
  | ctxload => exact execCtxload_wf h
  | spinv => exact execSpinv_wf h
  | tlbinv => exact execTlbinv_wf h
  | keysel => exact execKeysel_wf h
  | escal c => exact execEscal_wf h c
  | brk => exact execBrk_wf h
  | perf k t0 t1 => exact execPerf_wf h k t0 t1
  | launchTokenConsume c => exact execLaunchTokenConsume_wf h c
  | placement n => exact execPlacement_wf h n
  | endOfSegment actor => exact execEndOfSegment_wf h actor
  | updateTokenApply u n merge => exact execUpdateTokenApply_wf h u n merge
  | roundClose u => exact execRoundClose_wf h u
  | streamElement str => exact execStreamElement_wf h str
  | copyRequestStart ch => exact execCopyRequestStart_wf h ch
  | copyCompletion ch => exact execCopyCompletion_wf h ch
  | copyPortPacket p => exact execCopyPortPacket_wf h p
  | dependenceFifoPush q => exact execDependenceFifoPush_wf h q
  | commandPopTimeout col => exact execCommandPopTimeout_wf h col
  | accumulatorRelease n => exact execAccumulatorRelease_wf h n
  | operatorFiring hd port n => exact execOperatorFiring_wf h hd port n
  | arbiterReweight node => exact execArbiterReweight_wf h node
  | actorReweight prio => exact execActorReweight_wf h prio
  | hangMonitorExpiry hd => exact execHangMonitorExpiry_wf h hd
  | messageArrival n => exact execMessageArrival_wf h n
  | nackArrival n => exact execNackArrival_wf h n
  | ksendRetry n => exact execKsendRetry_wf h n
  | lostNotice n => exact execLostNotice_wf h n
  | clearingWave slot => exact execClearingWave_wf h slot
  | packetForward n => exact execPacketForward_wf h n
  | flitReceive port payload low crc again pkt => exact execFlitReceive_wf h port payload low crc again pkt
  | retransmissionExhausted port => exact execRetransmissionExhausted_wf h port
  | keepaliveSend port => exact execKeepaliveSend_wf h port
  | linkDown port => exact execLinkDown_wf h port
  | freezeFloodReceive port id thaw => exact execFreezeFloodReceive_wf h port id thaw
  | clockReevaluation die tj thbm pwr => exact execClockReevaluation_wf h die tj thbm pwr
  | uncontainedError owner tile n code endpt => exact execUncontainedError_wf h owner tile n code endpt
  | ingressSlotConsume c => exact execIngressSlotConsume_wf h c
  | egressSlotWrite c => exact execEgressSlotWrite_wf h c
  | hostHdmWrite pa data poison key => exact execHostHdmWrite_wf h pa data poison key
  | hostHdmRead pa key => exact execHostHdmRead_wf h pa key
  | bootGo agree => exact execBootGo_wf h agree
  | i3cPrivateWrite idx data => exact execI3cPrivateWrite_wf h idx data
  | keyLoad slot => exact execKeyLoad_wf h slot
  | keyClear slot => exact execKeyClear_wf h slot
  | partitionEnable v => exact execPartitionEnable_wf h v
  | partitionDisable v => exact execPartitionDisable_wf h v
  | freezeFloodStart id => exact execFreezeFloodStart_wf h id
  | thawFloodStart id => exact execThawFloodStart_wf h id
  | linkRetrain port => exact execLinkRetrain_wf h port
  | ctxctlHold tile ctx => exact execCtxctlHold_wf h tile ctx
  | ctxctlRelease tile ctx => exact execCtxctlRelease_wf h tile ctx
  | contextImageStore tile ctx csr v => exact execContextImageStore_wf h tile ctx csr v
  | tlbisoWrite die slice word v => exact execTlbisoWrite_wf h die slice word v
  | logposWrite tile ctx v => exact execLogposWrite_wf h tile ctx v
  | loglimWrite tile ctx v => exact execLoglimWrite_wf h tile ctx v
  | registerWrite off v => exact execRegisterWrite_wf h off v
  | linkTrained port => exact execLinkTrained_wf h port
  | engineCommandCompletion col => exact execEngineCommandCompletion_wf h col
  | dputCeilingTimeout q => exact execDputCeilingTimeout_wf h q
  | copyPortFullTimeout p => exact execCopyPortFullTimeout_wf h p
  | firmwareReady module => exact execFirmwareReady_wf h module
  | stagingWindowWrite off v => exact execStagingWindowWrite_wf h off v
  | actorSelection => exact execActorSelection_wf h
  | blockFetch => exact execBlockFetch_wf h
  | blockDispatch => exact execBlockDispatch_wf h
  | blockCommit => exact execBlockCommit_wf h
  | firingResumption => exact execFiringResumption_wf h
  | firingOverrun => exact execFiringOverrun_wf h
  | segmentBoundary => exact execSegmentBoundary_wf h
  | segmentStart => exact execSegmentStart_wf h
  | segmaxExpiry => exact execSegmaxExpiry_wf h
  | waitEvaluation => exact execWaitEvaluation_wf h
  | deadlineExpiry => exact execDeadlineExpiry_wf h
  | barrierArrival => exact execBarrierArrival_wf h
  | barrierWithdrawal => exact execBarrierWithdrawal_wf h
  | evqRecordDelivery => exact execEvqRecordDelivery_wf h
  | quietRequest => exact execQuietRequest_wf h
  | waveStart => exact execWaveStart_wf h
  | quietDecision => exact execQuietDecision_wf h
  | boundarySwitch => exact execBoundarySwitch_wf h
  | eventDelivery => exact execEventDelivery_wf h
  | reportCompletion => exact execReportCompletion_wf h
  | restoreWaitTimeout => exact execRestoreWaitTimeout_wf h

/-! ### The choice of a row (Machine/Agents.lean) -/

@[simp] theorem State.nextFocus_mem (s : State) : s.nextFocus.mem = s.mem := by
  grind [State.nextFocus, State.focusCtx_mem]
theorem State.issueMove_mem (s : State) {p} (hp : s.issueMove = some p) : p.st.mem = s.mem := by
  obtain ⟨id, -, hp⟩ := List.exists_of_findSome?_eq_some hp
  dsimp only at hp
  split at hp
  · obtain ⟨⟨k, i⟩, -, hp⟩ := List.exists_of_findSome?_eq_some hp
    grind [State.onBlk_mem, State.focusFir_mem]
  · cases hp
theorem State.aheadPicks_mem (s : State) {p} (hp : p ∈ s.aheadPicks) : p.st.mem = s.mem := by
  unfold State.aheadPicks at hp
  split at hp
  · cases hp
  · obtain ⟨⟨b, j⟩, -, hp⟩ := List.mem_flatMap.mp hp
    obtain ⟨⟨k, i⟩, -, hp⟩ := List.mem_filterMap.mp hp
    grind [State.onBlk_mem]
theorem mem_of_pickRound {α : Type} {n : Nat} {l : List α} {x : α} (hx : pickRound n l = some x) : x ∈ l := by
  unfold pickRound at hx
  split at hx
  · cases hx
  · exact List.mem_of_getElem? hx
theorem State.coreTurn_mem (s : State) {p} (hp : s.coreTurn = some p) : p.st.mem = s.mem := by
  have hpick (l : List (Nat × Instr)) (more : List Pick) (hm : ∀ p ∈ more, p.st.mem = s.mem)
      (hp : pickRound s.round ((l.map fun x => { st := s.focusFir x.1, row := some x.2 : Pick }) ++ more
        |>.filter fun p => p.row.all p.st.slotted) = some p) : p.st.mem = s.mem := by
    rcases List.mem_append.mp (List.mem_filter.mp (mem_of_pickRound hp)).1 with hl | hl
    · obtain ⟨x, -, rfl⟩ := List.mem_map.mp hl
      exact s.focusFir_mem x.1
    · exact hm p hl
  unfold State.coreTurn at hp
  dsimp only at hp
  split at hp
  · cases hp
  · split at hp
    · exact hpick _ [] (fun _ hq => absurd hq List.not_mem_nil) hp
    · split at hp
      · next q hq => cases hp; exact s.issueMove_mem hq
      · refine hpick _ _ (fun q hq => ?_) hp
        obtain ⟨id, -, hq⟩ := List.mem_flatMap.mp hq
        exact ((s.focusFir id).aheadPicks_mem hq).trans (s.focusFir_mem id)
@[simp] theorem State.asAgent_mem (a) (s : State) : (s.asAgent a).mem = s.mem := by
  cases a with
  | core => rfl
  | cmd e => exact s.focusFir_mem e.fir
theorem State.engineTurn_mem (s : State) {p} (hp : s.engineTurn = some p) : p.st.mem = s.mem := by
  unfold State.engineTurn at hp
  split at hp
  · cases hp; exact (State.focusFir_mem ..).trans (s.focusCtx_mem _)
  · obtain ⟨⟨a, i⟩, -, rfl⟩ := Option.map_eq_some_iff.mp hp
    exact (State.asAgent_mem ..).trans s.nextFocus_mem
theorem State.promptTurn_mem (s : State) {p} (hp : s.promptTurn = some p) : p.st.mem = s.mem := by
  unfold State.promptTurn at hp
  split at hp
  · cases hp
  · obtain ⟨e, -, rfl⟩ := Option.map_eq_some_iff.mp hp
    exact s.asAgent_mem _
theorem State.input_wf {s : State} (h : s.MemWf) (x) : (s.input x).st.MemWf := by
  fun_cases s.input x <;> grind [State.onDev_mem, State.onMem_mem, hostPut_wf]
/-- Memory is in its form where the pick, when there is one, executes its row. -/
abbrev PickWf (x : Option Pick) : Prop := ∀ p, x = some p → p.st.MemWf
theorem PickWf.orElse {x y : Option Pick} (hx : PickWf x) (hy : PickWf y) : PickWf (x.orElse fun _ => y) := by
  cases x with
  | none => exact hy
  | some p => exact hx
theorem PickWf.getD {x : Option Pick} (hx : PickWf x) {p : Pick} (hp : p.st.MemWf) : (x.getD p).st.MemWf := by
  cases x with
  | none => exact hp
  | some q => exact hx q rfl
theorem State.coreTurn_wf {s : State} (h : s.MemWf) : PickWf s.coreTurn := fun _ hp => by
  rwa [State.MemWf, s.coreTurn_mem hp]
theorem State.engineTurn_wf {s : State} (h : s.MemWf) : PickWf s.engineTurn := fun _ hp => by
  rwa [State.MemWf, s.engineTurn_mem hp]
theorem State.promptTurn_wf {s : State} (h : s.MemWf) : PickWf s.promptTurn := fun _ hp => by
  rwa [State.MemWf, s.promptTurn_mem hp]
theorem State.nextFocus_wf {s : State} (h : s.MemWf) : s.nextFocus.MemWf := by rwa [State.MemWf, s.nextFocus_mem]
theorem State.choose_wf {s : State} (h : s.MemWf) : s.choose.st.MemWf := by
  unfold State.choose
  extract_lets _ u t own
  have hu : u.MemWf := h
  have ht : t.MemWf := h
  have hown : own.st.MemWf := by
    dsimp only [own]
    split
    · exact ((State.promptTurn_wf hu).orElse ((State.engineTurn_wf ht).orElse (State.coreTurn_wf (State.nextFocus_wf ht)))).getD
        (p := { st := t.nextFocus }) (State.nextFocus_wf ht)
    · exact ((State.coreTurn_wf ht).orElse (State.engineTurn_wf (s := { t with turn := false }) ht)).getD
        (p := { st := t.nextFocus }) (State.nextFocus_wf ht)
  split
  · dsimp only
    split
    · exact State.input_wf (by exact h) _
    · exact hown
  · exact hown
@[simp] theorem State.countIssue_mem (k) (s : State) : (s.countIssue k).mem = s.mem := by
  unfold State.countIssue; split <;> rfl
@[simp] theorem State.unview_mem (x) (s : State) : (s.unview x).mem = s.mem := by
  fun_cases s.unview x <;> grind [State.onFir_mem]
@[simp] theorem State.afterRow_mem (p) (s : State) : (s.afterRow p).mem = s.mem := by
  grind [State.afterRow, State.tick_mem, State.countIssue_mem, State.unview_mem]
@[simp] theorem State.turnedBack_mem (p s t : State) : (p.turnedBack s t).mem = p.mem := State.tick_mem _

/-- One step: the row that is chosen runs where memory is in its form, and what follows a row leaves memory as it is. -/
theorem step_wf {s t : State} (h : s.MemWf) (e : step s = .next t) : t.MemWf := by
  have hp : s.choose.st.MemWf := State.choose_wf h
  unfold step at e
  dsimp only at e
  split at e
  · cases e; rwa [State.MemWf, State.tick_mem]
  · next i _ =>
    have hx : OutWf (exec i s.choose.st) := exec_wf hp i
    split at e
    · next u hu =>
      rw [hu] at hx
      cases e
      split
      · rwa [State.MemWf, State.turnedBack_mem, State.unview_mem]
      · rwa [State.MemWf, State.afterRow_mem]
    · cases e
    · cases e

/-- Settles O7: no operation of the model writes memory but through those of Machine/Mem.lean, each of which keeps the form
(`Memory.wf_setByte` to `Memory.wf_write`), so every row and every choice of a row does. -/
theorem stepKeepsTheMemoryForm : Obligations.StepKeepsTheMemoryForm := fun _ _ => step_wf

end Sys2Proof.Machine
end

-- ==== Proofs of the tile family: dependence FIFOs, event queue and flags ====
section
/-! DPUT, DGET, engine pushes, records and F (01 R27, R28; 13 R276 to R278). What `fifoStep` does at each place in a FIFO and what a
completion leaves are said once; DPUT, DGET and the ceiling timeout follow from them. -/

namespace Sys2Proof

theorem setV_getD_self {α : Type} {n : Nat} (v : Vector α n) (i : Nat) (d : α) : setV v i (v.getD i d) = v := by
  rw [← modV_const]; exact modV_self v i _ d rfl
/-- A change of one element stores what it makes of the old one. -/
theorem modV_eq_setV {α : Type} {n : Nat} (v : Vector α n) (i : Nat) (f : α → α) (d : α) : modV v i f = setV v i (f (v.getD i d)) := by
  rw [← modV_const]; exact modV_congr v i _ _ d rfl
theorem bitsN_high_half_eq_zero (x : Word) : bitsN x 63 32 = 0 ↔ x.toNat < 2 ^ 32 := by
  have := x.isLt
  simp only [bitsN, BitVec.extractLsb_toNat, Nat.shiftRight_eq_div_pow]
  omega

end Sys2Proof

namespace Sys2Proof.Machine

section Rules
variable {s : State} {e d : Eff} {l : List Eff} {q : BitVec 3} {i : Instr}

/-! ### The place of a command in its FIFO -/

theorem Ctx.fifoFirst_head {c : Ctx} (hf : c.sync.fifo = e :: l) : c.fifoFirst e = true := by
  simp [Ctx.fifoFirst, hf]
theorem Ctx.fifoFirst_behind {c : Ctx} (hf : c.sync.fifo = d :: e :: l) (hd : d ≠ e) (hq : effFifo d = effFifo e) :
    c.fifoFirst e = false := by
  simp [Ctx.fifoFirst, hf, hq, hd]
theorem State.popStart_of_no_pop (hp : cwPop e.cw = false) : s.popStart e = some (.ok s) := by
  simp [State.popStart, State.popBefore, hp]
theorem fifoStep_behind (run : State → State) (hf : s.ctx.sync.fifo = d :: e :: l) (hd : d ≠ e) (hq : effFifo d = effFifo e) :
    fifoStep e run s = s := by
  simp [fifoStep, Ctx.fifoFirst_behind hf hd hq]
theorem fifoStep_starts (run : State → State) (hf : s.ctx.sync.fifo = e :: l) (hs : e.started = false) (hp : cwPop e.cw = false) :
    fifoStep e run s = s.onSync fun y => { y with
      fifo := { e with started := true, since := some s.ctx.csr.budget.toNat } :: l } := by
  simp [fifoStep, Ctx.fifoFirst_head hf, hs, State.popStart_of_no_pop hp, State.fifoPut, State.onSync, State.onCtx, hf, replaceEff, Ctx.now]
theorem fifoStep_started (run : State → State) (hf : s.ctx.sync.fifo = e :: l) (hs : e.started = true) : fifoStep e run s = run s := by
  simp [fifoStep, Ctx.fifoFirst_head hf, hs]

/-! ### Completion -/

/-- The command `e` at the head has ended as `i`: Qn holds `m`, `l` is left, and its record, or its push without one, is on its way. -/
def State.fifoEnded (s : State) (e : Eff) (l : List Eff) (q : BitVec 3) (i : Instr) (m : Nat) (st : Word) (always : Bool) : State :=
  s.onSync fun y => { y with
    q := setV y.q q.toNat m, fifo := l
    evqHeld := y.evqHeld ++ (if cwRec e.cw || always then
        [⟨st, recInfo (fCls (encode i)) (fOp (encode i)) (fMod (encode i)).toNat (cwTag e.cw) 0,
          if cwPush e.cw then some (BitVec.ofNat 3 (cwQpush e.cw)) else none, {}⟩] else [])
    pushes := y.pushes ++ (if !(cwRec e.cw || always) && cwPush e.cw then [⟨BitVec.ofNat 3 (cwQpush e.cw), {}⟩] else []) }

/-- A completion leaves a record when it is not OK or when its word asks for one. -/
theorem State.fifoDone_addQ (hf : s.ctx.sync.fifo = e :: l) (hi : e.ins = i) (m : Nat) (st : Word) :
    (s.onSync fun y => addQ y q.toNat m).fifoDone e st = s.fifoEnded e l q i m st (codeOf st ≠ 0) := by
  subst hi
  simp only [State.fifoDone, State.sysDone, State.fifoPut, State.fifoEnded, State.onSync, State.onCtx, Ctx.complete, addQ, hf, replaceEff]
  cases cwRec e.cw || decide (codeOf st ≠ 0) <;> cases cwPush e.cw <;> simp [Ctx.postRec, Ctx.postPush]
/-- A completion that moves no token. -/
theorem State.fifoDone_eq (hf : s.ctx.sync.fifo = e :: l) (hi : e.ins = i) (st : Word) :
    s.fifoDone e st = s.fifoEnded e l q i (s.ctx.sync.q.getD q.toNat 0) st (codeOf st ≠ 0) := by
  rw [← State.fifoDone_addQ hf hi]
  simp only [State.onSync, State.onCtx, addQ, setV_getD_self]

/-! ### Issue of DPUT and DGET -/

theorem State.withDeadline_at {f : Deadline → State} {t : Token} {x : Nat} (hp : t.poison = false) (hd : s.deadline t.val = .at x) :
    s.withDeadline t f = f (.at x) := by
  simp [State.withDeadline, hp, hd]
theorem exec_dput_core (hw : s.who = .core) : exec (.dput q) s =
    if s.opB.poison then .next (s.slotFault 4 0 7 0) else if bitsN s.b 47 0 ≠ 0 then .next (s.slotFault 6 0x030 s.b 0)
    else .next (s.heldFor (.dput q) []) := by
  show execDput q s = _
  rw [execDput, hw]; rfl
theorem exec_dget_core_poison (hw : s.who = .core) (hb : s.opB.poison = true) : exec (.dget q) s = .next (s.slotFault 4 0 7 0) := by
  show execDget q s = _
  simp only [execDget, hw, hb]; rfl
theorem exec_dget_core_held {x : Nat} (hw : s.who = .core) (hp : s.pAB = false) (hd : s.deadline s.a = .at x) (hb : bitsN s.b 47 0 = 0) :
    exec (.dget q) s = .next (s.heldFor (.dget q) []) := by
  obtain ⟨hpa, hpb⟩ : s.opA.poison = false ∧ s.opB.poison = false := by simpa [State.pAB] using hp
  have hlow : lowB s.opB.val = 0 := hb
  show execDget q s = _
  simp only [execDget, hw, hpb, State.withDeadline_at hpa hd, hlow]; rfl

/-! ### DPUT and DGET in their FIFO -/

theorem exec_dput_cmd (hw : s.who = .cmd e) : exec (.dput q) s = .next (applyDput q.toNat e s) := by
  show execDput q s = _
  rw [execDput, hw]
theorem exec_dget_cmd (hw : s.who = .cmd e) : exec (.dget q) s = .next (applyDget q.toNat e s) := by
  show execDget q s = _
  rw [execDget, hw]
/-- Both forms step their FIFO in one way, and differ in what they do once started. -/
theorem exec_fifo_cmd (hi : i = .dput q ∨ i = .dget q) (hw : s.who = .cmd e) : ∃ run, exec i s = .next (fifoStep e run s) := by
  rcases hi with rfl | rfl
  · exact ⟨_, exec_dput_cmd hw⟩
  · exact ⟨_, exec_dget_cmd hw⟩
theorem effFifo_of_ins (hi : i = .dput q ∨ i = .dget q) (he : e.ins = i) : effFifo e = q.toNat := by
  rcases hi with rfl | rfl <;> simp [effFifo, he]
theorem exec_fifo_starts (hi : i = .dput q ∨ i = .dget q) (hw : s.who = .cmd e) (hf : s.ctx.sync.fifo = e :: l)
    (hs : e.started = false) (hp : cwPop e.cw = false) : exec i s = .next (s.onSync fun y => { y with
      fifo := { e with started := true, since := some s.ctx.csr.budget.toNat } :: l }) := by
  obtain ⟨run, hrun⟩ := exec_fifo_cmd hi hw
  rw [hrun, fifoStep_starts run hf hs hp]
theorem exec_fifo_waits_behind (hi : i = .dput q ∨ i = .dget q) (hw : s.who = .cmd e) (he : e.ins = i)
    (hf : s.ctx.sync.fifo = d :: e :: l) (hd : d ≠ e) (hq : effFifo d = q.toNat) : exec i s = .next s := by
  obtain ⟨run, hrun⟩ := exec_fifo_cmd hi hw
  rw [hrun, fifoStep_behind run hf hd (hq.trans (effFifo_of_ins hi he).symm)]

section Dput
variable (hw : s.who = .cmd e) (he : e.ins = .dput q) (hf : s.ctx.sync.fifo = e :: l) (hs : e.started = true)
include hf hs

include hw in
theorem exec_dput_started : exec (.dput q) s = .next (if s.ctx.sync.q.getD q.toNat 0 < fifoRoom then
    (s.onSync fun y => addQ y q.toNat (s.ctx.sync.q.getD q.toNat 0 + 1)).fifoDone e stOK else s) := by
  rw [exec_dput_cmd hw, applyDput, fifoStep_started _ hf hs]
include hw he in
theorem exec_dput_adds (hn : s.ctx.sync.q.getD q.toNat 0 < 16) :
    exec (.dput q) s = .next (s.fifoEnded e l q (.dput q) (s.ctx.sync.q.getD q.toNat 0 + 1) 0 false) := by
  rw [exec_dput_started hw hf hs, if_pos (show _ < fifoRoom from hn), State.fifoDone_addQ hf he]; rfl
include hw in
theorem exec_dput_waits_full (hn : 16 ≤ s.ctx.sync.q.getD q.toNat 0) : exec (.dput q) s = .next s := by
  rw [exec_dput_started hw hf hs, if_neg (show ¬_ < fifoRoom from Nat.not_lt.mpr hn)]
include he in
theorem exec_dputCeilingTimeout_full {c : Nat} (hn : 16 ≤ s.ctx.sync.q.getD q.toNat 0) (hc : e.since = some c)
    (hx : c + s.ctx.csr.dceil.toNat ≤ s.ctx.csr.budget.toNat) : exec (.dputCeilingTimeout q) s
      = .next (s.fifoEnded e l q (.dput q) (s.ctx.sync.q.getD q.toNat 0) 7 true) := by
  have hx' : c + s.ctx.csr.dceil.toNat ≤ s.ctx.now := hx
  have hn' : fifoRoom ≤ s.ctx.sync.q.getD q.toNat 0 := hn
  have hq : (effFifo e == q.toNat) = true := beq_iff_eq.mpr (effFifo_of_ins (.inl rfl) he)
  show execDputCeilingTimeout q s = _
  simp only [execDputCeilingTimeout, hf, List.find?_cons, hq, he, hc, hs, hn', hx', decide_true, Bool.and_true, if_true]
  rw [State.fifoDone_eq (q := q) hf he]; rfl
end Dput

section Dget
variable (hw : s.who = .cmd e) (he : e.ins = .dget q) (hlog : s.ctx.logOn = false) (hf : s.ctx.sync.fifo = e :: l)
  (hs : e.started = true)
include hw hlog hf hs

include he in
/-- Outside a bore log no outcome is recorded. -/
theorem exec_dget_takes (hn : s.ctx.sync.q.getD q.toNat 0 ≠ 0) :
    exec (.dget q) s = .next (s.fifoEnded e l q (.dget q) (s.ctx.sync.q.getD q.toNat 0 - 1) 0 false) := by
  rw [exec_dget_cmd hw, applyDget, fifoStep_started _ hf hs]
  simp only [State.steeredCmd, hlog, Bool.not_false, Bool.true_or, if_true]
  rw [if_pos hn, State.fifoDone_addQ hf he]; rfl
theorem exec_dget_waits_empty {w : Word} {r : List Word} (hn : s.ctx.sync.q.getD q.toNat 0 = 0) (hws : e.ws = w :: r)
    (hx : s.ctx.csr.budget.toNat < w.toNat) : exec (.dget q) s = .next s := by
  have hdue : ¬w.toNat ≤ s.ctx.now := Nat.not_le.mpr hx
  rw [exec_dget_cmd hw, applyDget, fifoStep_started _ hf hs]
  simp [State.steeredCmd, hlog, hn, Eff.expiry, hws, hdue]
include he in
theorem exec_dget_expires {w : Word} {r : List Word} (hn : s.ctx.sync.q.getD q.toNat 0 = 0) (hws : e.ws = w :: r)
    (hx : w.toNat ≤ s.ctx.csr.budget.toNat) :
    exec (.dget q) s = .next (s.fifoEnded e l q (.dget q) (s.ctx.sync.q.getD q.toNat 0) 1 true) := by
  have hdue : ¬s.ctx.now < w.toNat := Nat.not_lt.mpr hx
  have hdone : s.dgetExpires e = s.fifoEnded e l q (.dget q) (s.ctx.sync.q.getD q.toNat 0) 1 true := by
    simp only [State.dgetExpires, State.logged, hlog, Bool.not_false, if_true]
    rw [State.fifoDone_eq (q := q) hf he]; rfl
  rw [exec_dget_cmd hw, applyDget, fifoStep_started _ hf hs, ← hdone]
  simp [State.steeredCmd, hlog, hn, Eff.expiry, hws, hdue]
end Dget

/-! ### Deliveries to a FIFO and to EVQ -/

theorem exec_dependenceFifoPush_delivers {o : Origin} {b a : List Push} (hp : s.ctx.sync.pushes = b ++ ⟨q, o⟩ :: a)
    (hb : ∀ y ∈ b, y.q ≠ q) (hn : s.ctx.sync.q.getD q.toNat 0 < 16) : exec (.dependenceFifoPush q) s
      = .next (s.onSync fun y => { y with pushes := b ++ a, q := setV y.q q.toNat (s.ctx.sync.q.getD q.toNat 0 + 1) }) := by
  have hany : (s.ctx.sync.pushes.any (·.q == q)) = true := by simp [hp]
  have hrest : s.ctx.sync.pushes.eraseP (·.q == q) = b ++ a := by
    rw [hp, List.eraseP_append_right _ (by simpa using hb), List.eraseP_cons_of_pos (by simp)]
  have hroom : s.ctx.sync.q.getD q.toNat 0 < fifoRoom := hn
  show execDependenceFifoPush q s = _
  simp only [execDependenceFifoPush, hany, hroom, decide_true, Bool.and_self, if_true, State.onSync, State.onCtx, hrest,
    modV_eq_setV _ q.toNat (· + 1) 0]
theorem exec_dependenceFifoPush_holds (h : (∀ y ∈ s.ctx.sync.pushes, y.q ≠ q) ∨ 16 ≤ s.ctx.sync.q.getD q.toNat 0) :
    exec (.dependenceFifoPush q) s = .next s := by
  show execDependenceFifoPush q s = _
  refine if_neg fun hgo => ?_
  simp only [Bool.and_eq_true, List.any_eq_true, beq_iff_eq, decide_eq_true_eq] at hgo
  obtain ⟨⟨y, hy, hyq⟩, hroom⟩ := hgo
  exact h.elim (fun hnone => hnone y hy hyq) (Nat.not_le.mpr hroom)
theorem exec_evqRecordDelivery_delivers {r : Rec} {k : List Rec} (hlog : s.ctx.logOn = false) (hh : s.ctx.sync.evqHeld = r :: k)
    (hn : s.ctx.sync.evq.length < 256) : exec .evqRecordDelivery s = .next (s.onSync fun y => { y with
      evqHeld := k, seq := y.seq + 1, pushes := y.pushes ++ r.push.toList.map fun q => ⟨q, r.origin⟩
      evq := y.evq ++ [{ r with info := BitVec.ofNat 64 (r.info.toNat + s.ctx.sync.seq % 2 ^ 32), push := none }] }) := by
  have hroom : ¬evqRoom ≤ s.ctx.sync.evq.length := Nat.not_le.mpr hn
  show execEvqRecordDelivery s = _
  simp [execEvqRecordDelivery, hroom, hh, hlog, State.deliverRec, State.logged, State.onSync, State.onCtx]
theorem exec_evqRecordDelivery_holds (h : 256 ≤ s.ctx.sync.evq.length ∨ s.ctx.sync.evqHeld = []) :
    exec .evqRecordDelivery s = .next s := by
  show execEvqRecordDelivery s = _
  rcases h with hfull | hnone
  · exact if_pos hfull
  · simp [execEvqRecordDelivery, hnone]

/-! ### SETF and CLRF -/

theorem exec_flags_core {all : Bool} (hi : i = .setf all ∨ i = .clrf all) (hw : s.who = .core) : exec i s =
    if s.opA.poison then .next (s.slotFault 4 0 6 0) else if bitsN s.a 63 32 ≠ 0 then .next (s.slotFault 6 0x030 s.a 0)
    else .next (s.heldFor i []) := by
  rcases hi with rfl | rfl
  · show execSetf all s = _
    rw [execSetf, hw]; rfl
  · show execClrf all s = _
    rw [execClrf, hw]; rfl

/-- The firings of the context in focus that `ids` names have F changed. -/
def State.setFlags (s : State) (ids : List Nat) (f : Half → Half) : State :=
  let one (r : Firing) : Firing := { r with flags := if r.id ∈ ids then f r.flags else r.flags }
  { s with fir := one s.fir, ctx := { s.ctx with firs := s.ctx.firs.map one } }

/-- No frame is written when none of the firings is suspended. -/
theorem State.changeFlags_eq_setFlags {ids : List Nat} (f : Half → Half) (h : ∀ y ∈ s.ctx.susp, y.id ∈ ids → y.retired = true) :
    s.changeFlags ids f = s.setFlags ids f := by
  have hone (r : Firing) : (if ids.contains r.id then { r with flags := f r.flags } else r)
      = { r with flags := if r.id ∈ ids then f r.flags else r.flags } := by
    by_cases hr : r.id ∈ ids <;> simp [hr]
  have hsusp : (s.ctx.susp.filter fun u => ids.contains u.id && !u.retired) = [] := by
    simpa [List.filter_eq_nil_iff] using h
  simp only [State.changeFlags, State.onFir, State.onCtx, hone, hsusp, List.foldl_nil, State.setFlags]

/-- The firings that a SETF or CLRF acts on at commit: those handed over with it, or those of its form. -/
def State.flagIds (s : State) (e : Eff) (all : Bool) : List Nat :=
  if e.ws = [] then s.flagFirings all else e.ws.map (·.toNat)

section Flags
variable {all : Bool} (hw : s.who = .cmd e) (h : ∀ y ∈ s.ctx.susp, y.id ∈ s.flagIds e all → y.retired = true)
include hw h

theorem exec_setf_cmd (he : e.ins = .setf all) :
    exec (.setf all) s = .next ((s.unqueue e).setFlags (s.flagIds e all) fun f => f ||| e.a.val.setWidth 32) := by
  rw [← State.changeFlags_eq_setFlags (s := s.unqueue e) _ h]
  show execSetf all s = _
  simp only [execSetf, hw, State.commitFlags, he, List.isEmpty_iff]; rfl
theorem exec_clrf_cmd (he : e.ins = .clrf all) :
    exec (.clrf all) s = .next ((s.unqueue e).setFlags (s.flagIds e all) fun f => f &&& ~~~(e.a.val.setWidth 32)) := by
  rw [← State.changeFlags_eq_setFlags (s := s.unqueue e) _ h]
  show execClrf all s = _
  simp only [execClrf, hw, State.commitFlags, he, List.isEmpty_iff]; rfl
end Flags

end Rules

/-- Settles O43: issue, the place in the FIFO, the started command, the deliveries and the flags, each by the rule above. -/
theorem fifosFlagsAndEventQueue : Obligations.FifosFlagsAndEventQueue := by
  intro s q all e l x
  refine ⟨fun hw hp hb => ?_, exec_dget_core_held, fun hw hp hb => ?_, fun hw hp => ⟨?_, exec_dget_core_poison hw hp⟩,
    fun i hi hw _ => exec_fifo_starts hi hw,
    fun hw he hf hs => ⟨exec_dput_adds hw he hf hs, exec_dput_waits_full hw hf hs, fun _ => exec_dputCeilingTimeout_full he hf hs⟩,
    fun hw he hlog hf hs => ⟨exec_dget_takes hw he hlog hf hs, fun w r hn hws =>
      ⟨exec_dget_waits_empty hw hlog hf hs hn hws, exec_dget_expires hw he hlog hf hs hn hws⟩⟩,
    fun d i hi hw he => exec_fifo_waits_behind hi hw he, fun _ _ _ => exec_dependenceFifoPush_delivers,
    exec_dependenceFifoPush_holds, fun _ _ => exec_evqRecordDelivery_delivers, exec_evqRecordDelivery_holds,
    fun hw i hi => ⟨fun hp => ?_, fun hp ha => ?_, fun hp ha => ?_⟩, fun hw h => ⟨exec_setf_cmd hw h, exec_clrf_cmd hw h⟩⟩
  · simp [exec_dput_core hw, hp, hb]
  · simp [exec_dput_core hw, hp, hb]
  · simp [exec_dput_core hw, hp]
  · simp [exec_flags_core hi hw, hp]
  · rw [exec_flags_core hi hw, hp, if_neg Bool.false_ne_true, if_pos (mt (bitsN_high_half_eq_zero _).mp (Nat.not_lt.mpr ha))]
  · rw [exec_flags_core hi hw, hp, if_neg Bool.false_ne_true, if_neg (not_not.mpr ((bitsN_high_half_eq_zero _).mpr ha))]

end Sys2Proof.Machine
end

-- ==== Proofs of the actor family: a save that SEGMAX forces ====
section
/-! A save that begins abandons what the firings have fetched and dispatched ahead of commit (06 R150; 22 R392), the firing in focus
included: SEGMAX_EXPIRY does not leave it as it was. -/

namespace Sys2Proof.Machine

/-- What every change of a list of changes keeps, the whole list keeps. -/
theorem foldl_keeps {α β : Type} (part : State → β) {f : State → α → State} (hf : ∀ s a, part (f s a) = part s) (l : List α)
    (s : State) : part (l.foldl f s) = part s := by
  induction l generalizing s with
  | nil => rfl
  | cons a l ih => exact (ih _).trans (hf s a)

/-- A firing without what it has fetched and dispatched ahead of commit. -/
def Firing.withoutAhead (f : Firing) : Firing := { f with ahead := [], fetched := none }

theorem State.within_focus {s : State} {uid : Nat} (f : State → State) (hu : s.ctx.id.uid = uid) (hp : s.ctx.id.present = true) :
    s.within uid f = f s := if_pos ⟨hu, hp⟩
theorem State.putEntry_fir (s : State) (job i w) : (s.putEntry job i w).fir = s.fir := by
  unfold State.putEntry; split <;> rfl
theorem State.putEntry_ctx (s : State) (job i w) : (s.putEntry job i w).ctx = s.ctx := by
  unfold State.putEntry; split <;> rfl
theorem State.dropAllAhead_fir (s : State) : s.dropAllAhead.fir = s.fir.withoutAhead :=
  congrArg Firing.withoutAhead (foldl_keeps State.fir (fun _ _ => by rfl) s.ctx.firs s)
theorem State.dropAllAhead_ident (s : State) : s.dropAllAhead.ctx.id = s.ctx.id :=
  foldl_keeps (·.ctx.id) (fun _ _ => by rfl) s.ctx.firs s
theorem State.beginSave_fir (s : State) (bound : Bool) : (s.beginSave bound).fir = s.fir.withoutAhead := by
  simp [State.beginSave, State.dropAllAhead_fir, State.putEntry_fir]
theorem State.beginSave_ident (s : State) (bound : Bool) : (s.beginSave bound).ctx.id = s.ctx.id := by
  simp [State.beginSave, State.dropAllAhead_ident, State.putEntry_ctx]
/-- The save may be one that the context in focus has issued for itself. -/
theorem State.startPending_fir {s : State} {e : Eff} (hs : s.ctx.graph.pending = some (s.ctx.id.uid, e))
    (hp : s.ctx.id.present = true) (k : Word) : (s.startPending k).fir = s.fir.withoutAhead := by
  have hid := State.beginSave_ident s (k == 2)
  simp only [State.startPending, hs]
  rw [State.within_focus _ (by rw [hid]) (by rw [hid]; exact hp)]
  exact State.beginSave_fir s (k == 2)

/-- The CTXSAVE that a context has issued for itself, as it waits for the boundary. -/
def waitingSave : Eff := { slot := 0, ins := .ctxsave }
/-- SEGMAX is over while that save waits, and the firing in focus has fetched a block ahead. -/
def segmaxOver : State where
  fir := { id := 1, phase := .run, fetched := some {} }
  ctx := { id := { present := true }, csr := { budget := 1 }, zq := [waitingSave]
           graph := { isOpen := true, pending := some (0, waitingSave) } }

/-- Refutes O51: the SEGMAX_EXPIRY that begins the save drops the block that the firing in focus has fetched ahead, where the
statement leaves the firing as it was. -/
theorem not_actorsFireAndSegmentsTurn : ¬ Obligations.ActorsFireAndSegmentsTurn := by
  intro h
  obtain ⟨-, -, -, -, -, -, -, -, -, -, -, -, hsave, -⟩ := h segmaxOver 0 0
  obtain ⟨-, hopen⟩ := hsave waitingSave rfl rfl rfl rfl rfl
  obtain ⟨-, hover, -⟩ := hopen rfl
  obtain ⟨t, hexec, -, -, -, hfir⟩ := hover (by decide)
  have hrow : exec .segmaxExpiry segmaxOver = .next (segmaxOver.startPending 1) := rfl
  obtain rfl : segmaxOver.startPending 1 = t := Host.Outcome.next.inj (hrow.symm.trans hexec)
  have hdrop : segmaxOver.fir.withoutAhead = segmaxOver.fir := (State.startPending_fir rfl rfl 1).symm.trans hfir
  exact absurd hdrop (by decide)

end Sys2Proof.Machine
end

-- ==== Proofs of the actor family: what a placement keeps ====
section
/-! The operations that a placement runs for the records of its contexts (24 R407, R412) leave the records that wait and the launches that
have started as they are, and the context in focus its identity: for each of them, in the order of the model's files, `f_roster`. Then
what an operation on a context out of focus leaves (log 3). -/

namespace Sys2Proof.Machine

/-! ### Records that wait, launches that have started, and who is in focus -/

/-- A launch but for the names of its contexts. -/
def Launch.unnamed (l : Launch) : Launch := { l with uids := [] }
/-- The records that wait and the launches that have started. -/
def Dev.queues (d : Dev) : List Pending × List Launch := (d.pending, d.launches.map Launch.unnamed)
/-- Those, and the identity of the context in focus. -/
def State.roster (s : State) : (List Pending × List Launch) × Ident := (s.dev.queues, s.ctx.id)
/-- A change of the state that leaves them as they are. -/
abbrev KeepsRoster (f : State → State) : Prop := ∀ s : State, (f s).roster = s.roster

theorem State.roster_onDev {f : Dev → Dev} (hf : ∀ d, (f d).queues = d.queues) (s : State) : (s.onDev f).roster = s.roster :=
  congrArg (·, s.ctx.id) (hf s.dev)
theorem State.roster_onMem (f : Memory → Memory) (s : State) : (s.onMem f).roster = s.roster := rfl
theorem State.roster_onCtx {f : Ctx → Ctx} (hf : ∀ c, (f c).id = c.id) (s : State) : (s.onCtx f).roster = s.roster :=
  congrArg (s.dev.queues, ·) (hf s.ctx)
theorem State.onTileOf_roster (n f) (s : State) : (s.onTileOf n f).roster = s.roster := by
  unfold State.onTileOf; repeat' split
  all_goals rfl
theorem State.raiseTile_roster (tile job cnum kind body) (s : State) : (s.raiseTile tile job cnum kind body).roster = s.roster := by
  unfold State.raiseTile
  exact (State.onTileOf_roster ..).trans (State.roster_onDev (fun _ => by rfl) s)
theorem State.raiseModule_roster (kind body) (s : State) : (s.raiseModule kind body).roster = s.roster := State.raiseTile_roster ..
theorem State.meetUpset_roster (va w hard) (s : State) : (s.meetUpset va w hard).roster = s.roster := by
  grind [State.meetUpset, State.raiseModule_roster, State.roster_onMem, State.roster_onDev, Dev.queues]
theorem touchGo_roster (va l) (s : State) : (touchGo va l s).roster = s.roster := by
  fun_induction touchGo va l s <;> grind [State.meetUpset_roster]
theorem State.touch_roster (va k n) (s : State) : (s.touch va k n).roster = s.roster := by
  grind [State.touch, touchGo_roster]
theorem State.gate_roster (free) (s : State) : (s.gate free).roster = s.roster := by
  unfold State.gate; split <;> rfl
theorem State.touchWalk_roster (w va) (s : State) : (s.touchWalk w va).roster = s.roster := by
  unfold State.touchWalk; split
  · rfl
  · exact foldl_keeps State.roster (fun _ _ => State.touch_roster ..) ..
theorem State.global_roster (w acc va n) (s : State) : (s.global w acc va n).2.roster = s.roster := by
  grind [State.global, State.gate_roster, State.touchWalk_roster, State.roster_onDev, Dev.queues]
theorem State.putGlobal_roster (va l) (s : State) : (s.putGlobal va l).1.roster = s.roster := by
  fun_induction s.putGlobal va l <;> grind [State.global_roster, State.roster_onMem]
theorem State.raise_roster (kind body) (s : State) : (s.raise kind body).roster = s.roster := rfl
theorem State.logPut_roster (r) (s : State) : (s.logPut r).roster = s.roster := by
  grind [State.logPut, State.putGlobal_roster, State.raise_roster, State.roster_onCtx, Ctx.setWR, Ctx.logNext]
theorem State.consume_roster (i r) (s : State) : (s.consume i r).roster = s.roster := by
  grind [State.consume, State.roster_onCtx, Ctx.setRD]
theorem State.logHold_roster (detail r) (s : State) : (s.logHold detail r).roster = s.roster := by
  grind [State.logHold, State.raise_roster, State.roster_onCtx]
theorem State.settle_roster (r steered m1) (s : State) : (s.settle r steered m1).roster = s.roster := by
  grind [State.settle, State.touch_roster, State.logPut_roster, State.logHold_roster, State.consume_roster, State.roster_onCtx, Ctx.settled]
theorem State.logged_roster {k : State → State} (hk : KeepsRoster k) (r steered m1) (s : State) :
    (s.logged r steered m1 k).roster = s.roster := by
  grind [State.logged, State.settle_roster, State.roster_onCtx, Ctx.unsettle]
theorem State.logPlacement_roster (s : State) : s.logPlacement.roster = s.roster := by
  unfold State.logPlacement; split
  · exact State.logged_roster (fun _ => by rfl) ..
  · rfl

/-! ### Focus (log 3) -/

theorem State.park_dev (s : State) : s.park.dev = s.dev := by
  unfold State.park; split <;> rfl
theorem State.park_ident (s : State) : s.park.ctx.id = s.ctx.id := by
  unfold State.park; split <;> rfl
theorem State.park_ctxs (s : State) : s.park.ctxs = s.ctxs := by
  unfold State.park; split <;> rfl
theorem State.focusTile_dev (n) (s : State) : (State.focusTile n s).dev = s.dev := by
  unfold State.focusTile; split <;> rfl
theorem State.focusTile_ctx (n) (s : State) : (State.focusTile n s).ctx = s.ctx := by
  unfold State.focusTile; split <;> rfl
theorem State.focusTile_ctxs (n) (s : State) : (State.focusTile n s).ctxs = s.ctxs := by
  unfold State.focusTile; split <;> rfl
theorem State.focusFir_dev (id) (s : State) : (State.focusFir id s).dev = s.dev := by
  grind [State.focusFir, State.park_dev]
theorem State.focusFir_ident (id) (s : State) : (State.focusFir id s).ctx.id = s.ctx.id := by
  grind [State.focusFir, State.park_ident]
theorem State.focusFir_ctxs (id) (s : State) : (State.focusFir id s).ctxs = s.ctxs := by
  grind [State.focusFir, State.park_ctxs]
theorem State.focusCtx_dev (uid) (s : State) : (State.focusCtx uid s).dev = s.dev := by
  grind [State.focusCtx, State.park_dev, State.focusTile_dev]
theorem State.within_queues {f : State → State} (hf : KeepsRoster f) (uid) (s : State) : (s.within uid f).dev.queues = s.dev.queues := by
  have hqueues (t : State) : (f t).dev.queues = t.dev.queues := congrArg Prod.fst (hf t)
  grind [State.within, State.focusCtx_dev, State.focusFir_dev, State.park_dev, Dev.queues]

/-- The identities of the resident contexts. -/
def State.idents (s : State) : List Ident := s.allCtxs.map (·.id)
theorem State.mem_idents {s : State} {i : Ident} :
    i ∈ s.idents ↔ i.present = true ∧ (i = s.ctx.id ∨ ∃ c ∈ s.ctxs, c.id = i) := by
  simp only [State.idents, State.allCtxs, List.mem_map, List.mem_filter, List.mem_cons]
  constructor
  · rintro ⟨c, ⟨rfl | hc, hp⟩, rfl⟩
    · exact ⟨hp, .inl rfl⟩
    · exact ⟨hp, .inr ⟨c, hc, rfl⟩⟩
  · rintro ⟨hp, rfl | ⟨c, hc, rfl⟩⟩
    · exact ⟨s.ctx, ⟨.inl rfl, hp⟩, rfl⟩
    · exact ⟨c, ⟨.inr hc, hp⟩, rfl⟩
/-- A context that leaves the focus stays resident. -/
theorem State.focusCtx_keeps_focus {s : State} (hp : s.ctx.id.present = true) (uid : Nat) : s.ctx.id ∈ (s.focusCtx uid).idents := by
  rw [State.mem_idents]
  refine ⟨hp, ?_⟩
  unfold State.focusCtx
  split
  · exact .inl rfl
  · split
    · exact .inl rfl
    · refine .inr ⟨s.park.ctx, ?_, s.park_ident⟩
      simp [State.focusTile_ctxs, State.park_ident, hp]
theorem State.focusCtx_ctx {s : State} {uid : Nat} {c : Ctx} (hu : s.ctx.id.uid ≠ uid)
    (hc : s.ctxs.find? (fun c => c.id.uid == uid && c.id.present) = some c) : (s.focusCtx uid).ctx = c := by
  rw [State.focusCtx, if_neg fun h => hu h.1, hc]
  exact State.focusTile_ctx ..
/-- A context that an operation brings into focus stays resident. -/
theorem State.within_keeps_target {f : State → State} (hf : KeepsRoster f) {s : State} {uid : Nat} {c : Ctx} (hu : s.ctx.id.uid ≠ uid)
    (hc : s.ctxs.find? (fun c => c.id.uid == uid && c.id.present) = some c) : c.id ∈ (s.within uid f).idents := by
  obtain ⟨huid, hp⟩ : (c.id.uid == uid) = true ∧ c.id.present = true := by simpa using List.find?_some hc
  have hin : (s.ctxOf uid).isSome = true := by
    rw [State.ctxOf, List.find?_isSome]
    exact ⟨c, by simp [State.allCtxs, List.mem_of_find?_eq_some hc, hp], huid⟩
  have hid : (f (s.focusCtx uid)).ctx.id = c.id :=
    (congrArg Prod.snd (hf _)).trans (congrArg Ctx.id (State.focusCtx_ctx hu hc))
  rw [State.within, if_neg fun h => hu h.1, if_pos hin, State.mem_idents, State.focusFir_ident, State.focusFir_ctxs, ← State.mem_idents,
    ← hid]
  exact State.focusCtx_keeps_focus (hid ▸ hp) _

end Sys2Proof.Machine
end

-- ==== Proofs of the actor family: launches are taken and placed ====
section
/-! LAUNCH_TOKEN_CONSUME and PLACEMENT (02 R54 to R56; 20 R359): what each makes of the state, by its outcome. A launch that starts changes
the queues as its record says; its only context, when it has one alone, joins the resident ones and stays among them. -/

namespace Sys2Proof.Machine

/-! ### Creating the contexts of a launch -/

theorem State.putEntry_dev (s : State) (job i w) : (s.putEntry job i w).dev = s.dev := by
  unfold State.putEntry; split <;> rfl
theorem State.putEntry_ctxs (s : State) (job i w) : (s.putEntry job i w).ctxs = s.ctxs := by
  unfold State.putEntry; split <;> rfl
theorem State.create_queues (p chans acts) (s : State) (sp) : (State.create p chans acts s sp).dev.queues = s.dev.queues := by
  have hnamed (ls : List Launch) (n u : Nat) :
      (ls.map fun l => if l.num = n then { l with uids := l.uids ++ [u] } else l).map Launch.unnamed = ls.map Launch.unnamed := by
    rw [List.map_map]
    refine List.map_congr_left fun l _ => ?_
    simp only [Function.comp]
    split <;> rfl
  unfold State.create
  split
  · rw [State.putEntry_dev]
  · dsimp only
    split
    · rw [State.putEntry_dev]
      exact congrArg (s.dev.pending, ·) (hnamed ..)
    · rfl
theorem State.takeJob_eq (s : State) (job : BitVec 16) : ∃ js, s.takeJob job = s.onDev fun d => { d with jobs := js } := by
  unfold State.takeJob; split
  · exact ⟨_, rfl⟩
  · exact ⟨s.dev.jobs, rfl⟩
/-- On this module a context joins the resident ones, under the next name. -/
theorem State.create_here {p : Pending} {s : State} {sp : Spot} {num row : Nat} (chans acts) (htile : sp.tile / 256 = s.zoneHome)
    (hnum : s.freeNum (sp.tile % 256) = some num) (hrow : s.freeRow (sp.tile % 256) ((wAt p.prof 7).setWidth 2) = some row) :
    (State.create p chans acts s sp).ctx = s.ctx ∧ (State.create p chans acts s sp).dev.nextUid = s.dev.nextUid + 1
      ∧ ∃ slots m, (State.create p chans acts s sp).ctxs = s.ctxs ++ [newCtx p s.dev.nextUid num row slots m chans acts sp] := by
  unfold State.create
  rw [if_neg (not_not.mpr htile), hnum, hrow]
  simp only [State.putEntry_ctx, State.putEntry_dev, State.putEntry_ctxs, State.onDev_ctx, State.onDev_ctxs, State.onDev_dev,
    State.onMem_ctx, State.onMem_ctxs, State.onMem_dev]
  exact ⟨trivial, trivial, _, _, rfl⟩
theorem State.freeNum_lt {s : State} {t num : Nat} (h : s.freeNum t = some num) : num < 4 :=
  List.mem_range.mp (List.mem_of_find?_eq_some h)

/-- The launch as it starts. -/
def Pending.launched (p : Pending) (instances : Nat) : Launch :=
  { num := p.launch, queue := p.queue, job := p.job, egress := recEgress p.record, instances := instances, parent := p.parent }
/-- A launch creates its contexts here: its record is taken, it has started, and `js` are the job slots with its own. -/
def launchBegun (n : Nat) (p : Pending) (instances : Nat) (js : Vector JobSlot 16) (s : State) : State :=
  s.onDev fun d => { d with jobs := js, pending := d.pending.eraseIdx n, launches := d.launches ++ [p.launched instances] }
theorem State.startLaunch_eq (s : State) (n p chans acts sps) : ∃ js,
    let t := sps.foldl (State.create p chans acts) (launchBegun n p sps.length js s)
    s.startLaunch n p chans acts sps
      = (List.range (t.dev.nextUid - s.dev.nextUid)).foldl (fun u k => u.within (s.dev.nextUid + k) State.logPlacement) t := by
  obtain ⟨js, hjob⟩ := s.takeJob_eq p.job
  unfold State.startLaunch
  rw [hjob]
  exact ⟨js, rfl⟩
theorem State.startLaunch_queues (s : State) (n p chans acts sps) : (s.startLaunch n p chans acts sps).dev.queues
    = (s.dev.pending.eraseIdx n, s.dev.launches.map Launch.unnamed ++ [p.launched sps.length]) := by
  obtain ⟨js, hstart⟩ := s.startLaunch_eq n p chans acts sps
  rw [hstart]
  calc
    _ = (sps.foldl (State.create p chans acts) (launchBegun n p sps.length js s)).dev.queues :=
      foldl_keeps (·.dev.queues) (fun s _ => State.within_queues State.logPlacement_roster _ s) _ _
    _ = (launchBegun n p sps.length js s).dev.queues := foldl_keeps (·.dev.queues) (State.create_queues p chans acts) sps _
    _ = _ := by simp [Dev.queues, launchBegun, Pending.launched, Launch.unnamed]
/-- The context that was created last stays resident while its records are written. -/
theorem State.within_keeps_last {f : State → State} (hf : KeepsRoster f) {s : State} {l : List Ctx} {c : Ctx} (hl : s.ctxs = l ++ [c])
    (hp : c.id.present = true) (huid : ∀ y ∈ s.ctx :: l, y.id.uid < c.id.uid) : c.id ∈ (s.within c.id.uid f).idents := by
  have hold : l.find? (fun y => y.id.uid == c.id.uid && y.id.present) = none :=
    List.find?_eq_none.mpr fun y hy => by simp [(huid y (List.mem_cons_of_mem _ hy)).ne]
  refine State.within_keeps_target hf (huid _ List.mem_cons_self).ne ?_
  rw [hl, List.find?_append, hold]
  simp [hp]
/-- The only context of a launch, on this module, is resident once the launch has started. -/
theorem State.startLaunch_resident {s : State} {p : Pending} {sp : Spot} {num row : Nat} (n chans acts)
    (htile : sp.tile / 256 = s.zoneHome) (hnum : s.freeNum (sp.tile % 256) = some num)
    (hrow : s.freeRow (sp.tile % 256) ((wAt p.prof 7).setWidth 2) = some row)
    (huid : ∀ y ∈ s.ctx :: s.ctxs, y.id.uid < s.dev.nextUid) :
    ∃ slots m, (newCtx p s.dev.nextUid num row slots m chans acts sp).id ∈ (s.startLaunch n p chans acts [sp]).idents := by
  obtain ⟨js, hstart⟩ := s.startLaunch_eq n p chans acts [sp]
  obtain ⟨hctx, hnext, slots, m, hctxs⟩ := State.create_here (s := launchBegun n p 1 js s) (p := p) chans acts htile hnum hrow
  have hone : s.startLaunch n p chans acts [sp]
      = (State.create p chans acts (launchBegun n p 1 js s) sp).within s.dev.nextUid State.logPlacement := by
    rw [hstart]
    simp only [List.foldl_cons, List.foldl_nil, List.length_singleton, hnext]
    rw [show (launchBegun n p 1 js s).dev.nextUid = s.dev.nextUid from rfl, Nat.add_sub_cancel_left]
    rfl
  refine ⟨slots, m, ?_⟩
  rw [hone]
  exact State.within_keeps_last State.logPlacement_roster hctxs rfl (by rw [hctx]; exact huid)

/-! ### LAUNCH_TOKEN_CONSUME (20 R359) -/

theorem bitsN_top_byte_eq_zero (x : Word) : bitsN x 63 56 = 0 ↔ x.toNat < 2 ^ 56 := by
  have := x.isLt
  simp only [bitsN, BitVec.extractLsb_toNat, Nat.shiftRight_eq_div_pow]
  omega

section Token
variable {s : State} {c : BitVec 6} {v w : Word} {l : List (Word × Word)}

theorem State.touch_of_no_upsets (hu : s.dev.upsets = []) (va k n) : s.touch va k n = s := by
  rw [State.touch, hu]; rfl
theorem exec_launchTokenConsume_idle (h : (s.dev.hch.getD c.toNat {}).ready = [] ∨ bitsN (s.dev.hch.getD c.toNat {}).ctl 2 1 ≠ 3
    ∨ ∃ p ∈ s.dev.pending, p.queue = some c) : exec (.launchTokenConsume c) s = .next s := by
  show execLaunchTokenConsume c s = _
  simp only [execLaunchTokenConsume]
  split
  · rfl
  · next v w l hr =>
    refine if_pos (h.elim (fun hn => ?_) (Or.imp_right fun hp => ?_))
    · rw [hr] at hn; exact nomatch hn
    · simpa [List.any_eq_true] using hp

/-- The queue has taken its first token: `l` is left. -/
def State.tokenTaken (s : State) (c : BitVec 6) (l : List (Word × Word)) : State :=
  s.onDev fun d => { d with hch := modV d.hch c.toNat fun h => { h with
    ready := l, head := h.head + 1, irqs := if h.ctl.getLsbD 3 then h.irqs + 1 else h.irqs } }
theorem State.tokenTaken_ctl (s : State) (c : BitVec 6) (l) :
    ((s.tokenTaken c l).dev.hch.getD c.toNat {}).ctl = (s.dev.hch.getD c.toNat {}).ctl := by
  simp only [State.tokenTaken, State.onDev_dev, getV_modV]
  split <;> rfl
theorem State.tokenTaken_out (s : State) (c d : BitVec 6) (l) : ((s.tokenTaken c l).chan d).out = (s.chan d).out := by
  simp only [State.tokenTaken, State.chan, State.onDev_dev, getV_modV]
  split <;> rfl
theorem State.putOut_out (s : State) (c : BitVec 6) (t : OutTok) :
    ((s.putOut c t).chan c).out = (s.chan c).out ++ [{ t with n := s.dev.nextOut, upd := s.dev.nextUpd, ser := s.ctx.ser }] := by
  have hc : c.toNat < 64 := c.isLt
  simp [State.putOut, State.chan, getV_modV, hc]

variable (hr : (s.dev.hch.getD c.toNat {}).ready = (v, w) :: l) (hrole : bitsN (s.dev.hch.getD c.toNat {}).ctl 2 1 = 3)
  (hnone : ∀ p ∈ s.dev.pending, p.queue ≠ some c)
include hr hrole hnone

theorem exec_launchTokenConsume_takes : exec (.launchTokenConsume c) s = .next ((s.tokenTaken c l).launchToken c v) := by
  have hgo : ¬(bitsN (s.dev.hch.getD c.toNat {}).ctl 2 1 ≠ 3 ∨ s.dev.pending.any (fun p => p.queue == some c) = true) :=
    not_or.mpr ⟨not_not.mpr hrole, by simpa using hnone⟩
  show execLaunchTokenConsume c s = _
  simp only [execLaunchTokenConsume, hr]
  exact if_neg hgo
/-- An address that no record can have. -/
theorem exec_launchTokenConsume_unread (hu : s.dev.upsets = []) (hv : v.toNat % 64 ≠ 0 ∨ 2 ^ 56 ≤ v.toNat) :
    exec (.launchTokenConsume c) s = .next ((s.tokenTaken c l).putOut 0 (statusTok (fault 0x00B 0) 0 [])) := by
  have hbad : v.toNat % 64 ≠ 0 ∨ bitsN v 63 56 ≠ 0 := hv.imp_right fun h => mt (bitsN_top_byte_eq_zero v).mp h.not_gt
  have hu' : (s.tokenTaken c l).dev.upsets = [] := hu
  rw [exec_launchTokenConsume_takes hr hrole hnone]
  simp only [State.launchToken, State.touch_of_no_upsets hu', hbad, if_true]
/-- A record that nothing is wrong with waits under a new number. -/
theorem exec_launchTokenConsume_waits {pw r : Words} {u : State} (hu : s.dev.upsets = []) (hal : v.toNat % 64 = 0) (hv : v.toNat < 2 ^ 56)
    (hpw : (s.tokenTaken c l).profile (bitsN (s.dev.hch.getD c.toNat {}).ctl 55 48) = (pw, false))
    (hprof : (s.tokenTaken c l).profileOk ((s.dev.hch.getD c.toNat {}).ctl.getLsbD 26) pw = true)
    (hread : readGot ((s.tokenTaken c l).whoAt (BitVec.ofNat 2 (bitsN (s.dev.hch.getD c.toNat {}).ctl 28 27)) (profSide pw) (profSpace pw)
      (profKey pw)) 32 0 v (s.tokenTaken c l) = (.ok r, u))
    (hrec : recordFaults u.dev.modules false ((s.dev.hch.getD c.toNat {}).ctl.getLsbD 26) r = [])
    (hegr : u.egressOk r = true) (hfits : u.recordFits r u.dev.zone = true) :
    exec (.launchTokenConsume c) s = .next (u.onDev fun d => { d with
      nextLaunch := d.nextLaunch + 1
      pending := d.pending ++ [{
        launch := d.nextLaunch, queue := some c, record := r, job := recJob r, barr := (wAt r 3).getLsbD 0
        prof := profValues pw, fixo := (wAt r 3).getLsbD 1, loge := (wAt r 3).getLsbD 2 }] }) := by
  have hgood : ¬(v.toNat % 64 ≠ 0 ∨ bitsN v 63 56 ≠ 0) := by simp [hal, (bitsN_top_byte_eq_zero v).mpr hv]
  have hu' : (s.tokenTaken c l).dev.upsets = [] := hu
  rw [exec_launchTokenConsume_takes hr hrole hnone]
  simp only [State.launchToken, State.touch_of_no_upsets hu', State.tokenTaken_ctl, hpw, if_neg hgood, hread, hprof, hrec, hegr, hfits]
  rfl

end Token

/-! ### PLACEMENT (02 R54, R56) -/

/-- Each try of a placement in a partition draws a free value (log 77). -/
def State.drawnInPartition (s : State) : State := if 1 < s.dev.modules then s.drawn else s
theorem State.drawnInPartition_dev (s : State) : s.drawnInPartition.dev = s.dev := by
  unfold State.drawnInPartition; split <;> rfl
theorem State.drawnInPartition_allCtxs (s : State) : s.drawnInPartition.allCtxs = s.allCtxs := by
  unfold State.drawnInPartition; split <;> rfl

section Placement
variable {s : State} {n : Nat} {p : Pending}

theorem exec_placement_none (h : s.dev.pending.length ≤ n) : exec (.placement n) s = .next s := by
  show execPlacement n s = _
  rw [execPlacement, List.getElem?_eq_none h]
theorem exec_placement_waits (hp : s.dev.pending[n]? = some p) (ht : s.turnOf n p = false) : exec (.placement n) s = .next s := by
  show execPlacement n s = _
  simp [execPlacement, hp, ht]
/-- Behind another record of its queue no record has its turn. -/
theorem State.turnOf_behind {q : BitVec 6} (hq : p.queue = some q) (h : ∃ y ∈ s.dev.pending.take n, y.queue = some q) :
    s.turnOf n p = false := by
  have hany : (s.dev.pending.take n).any (fun x => x.queue == some q) = true := by simpa [List.any_eq_true] using h
  simp [State.turnOf, hq, hany]

variable (hp : s.dev.pending[n]? = some p) (ht : s.turnOf n p = true) (hroot : p.parent = none)
include hp ht hroot

theorem exec_placement_rejects {u : State}
    (hread : readTable (s.whoPending p) (winSize ((wAt p.prof 7).setWidth 2)) (recEntry p.record) s = (none, u)) :
    exec (.placement n) s = .next ((u.onDev fun d => { d with pending := d.pending.eraseIdx n }).putOut (recEgress p.record)
      (statusTok (fault 9 1) p.job [])) := by
  show execPlacement n s = _
  simp [execPlacement, hp, ht, hread, State.rejectPending, hroot]

variable {u : State} {hd : Word} {ws : Words}
  (hread : readTable (s.whoPending p) (winSize ((wAt p.prof 7).setWidth 2)) (recEntry p.record) s = (some (hd, ws), u))
include hread

theorem exec_placement_no_room (hsp : u.spots p (tabActs hd) s.dev.zone = none) : exec (.placement n) s = .next s.drawnInPartition := by
  show execPlacement n s = _
  simp [execPlacement, hp, ht, hread, hroot, hsp, State.drawnInPartition]
theorem exec_placement_starts {sps : List Spot} (hsp : u.spots p (tabActs hd) s.dev.zone = some sps) :
    ∃ chans acts, exec (.placement n) s = .next (u.startLaunch n p chans acts sps).drawnInPartition := by
  refine ⟨(tableParts 0 0 hd ws).1, (tableParts 0 0 hd ws).2, ?_⟩
  show execPlacement n s = _
  simp [execPlacement, hp, ht, hread, hroot, hsp, State.drawnInPartition]

end Placement

/-- In the list of launches the one that started last is found by its number, when no launch before it has that number. -/
theorem launches_last {old new : List Launch} {x : Launch} (h : new.map Launch.unnamed = old.map Launch.unnamed ++ [x])
    (hnew : ∀ y ∈ old, y.num ≠ x.num) :
    new.map (·.num) = old.map (·.num) ++ [x.num] ∧ ∃ l, new.find? (·.num == x.num) = some l ∧ l.unnamed = x := by
  obtain ⟨front, back, rfl, hfront, hback⟩ := List.map_eq_append_iff.mp h
  obtain ⟨l, rfl, hl⟩ := List.map_eq_singleton_iff.mp hback
  have hnum (y : Launch) : y.num = y.unnamed.num := rfl
  have hnums : front.map (·.num) = old.map (·.num) := by
    simpa [Function.comp_def, Launch.unnamed] using congrArg (List.map (·.num)) hfront
  have hnone : front.find? (·.num == x.num) = none := List.find?_eq_none.mpr fun y hy => by
    obtain ⟨z, hz, hzy⟩ := List.mem_map.mp (hnums ▸ List.mem_map_of_mem hy)
    simpa [← hzy] using hnew z hz
  refine ⟨by simp [hnums, hnum l, hl], l, ?_, hl⟩
  rw [List.find?_append, hnone]
  simp [hnum l, hl]

/-- Settles O52: the token path and the outcomes of PLACEMENT by the rules above; a launch that starts changes the queues as its
record says, and its only context stands among the resident ones. -/
theorem launchesAreTakenAndPlaced : Obligations.LaunchesAreTakenAndPlaced := by
  intro s c n h
  refine ⟨exec_launchTokenConsume_idle,
    fun v w l hr hrole hnone => ⟨fun hv hu => ?_, fun hu hal hv r u hread hpois hprof hrec hegr hfits => ?_⟩,
    exec_placement_none, fun p => exec_placement_waits, fun p q hp hq hy => exec_placement_waits hp (State.turnOf_behind hq hy),
    fun p u hp ht hroot hread => ⟨fun hnone => ?_, fun hd ws hsome => ⟨fun hsp => ?_, fun sps hsp hnew => ?_⟩⟩⟩
  · exact ⟨_, _, exec_launchTokenConsume_unread hr hrole hnone hu hv, rfl, rfl, rfl, rfl,
      (State.putOut_out ..).trans (congrArg (· ++ _) (State.tokenTaken_out ..)), rfl⟩
  · exact ⟨_, exec_launchTokenConsume_waits hr hrole hnone hu hal hv (Prod.ext rfl hpois) hprof hread hrec hegr hfits,
      rfl, rfl, rfl, rfl, rfl, rfl⟩
  · exact ⟨_, exec_placement_rejects hp ht hroot (hread.trans (Prod.ext hnone rfl)), rfl, rfl, rfl, rfl⟩
  · exact exec_placement_no_room hp ht hroot (hread.trans (Prod.ext hsome rfl)) hsp
  · obtain ⟨chans, acts, hexec⟩ := exec_placement_starts hp ht hroot (hread.trans (Prod.ext hsome rfl)) hsp
    have hq := State.startLaunch_queues u.2 n p chans acts sps
    obtain ⟨hnums, l, hfind, hl⟩ := launches_last (congrArg Prod.snd hq) hnew
    refine ⟨_, l, hexec, ?_⟩
    rw [State.drawnInPartition_dev, State.drawnInPartition_allCtxs]
    refine ⟨congrArg Prod.fst hq, hnums, hfind, congrArg Launch.instances hl, congrArg Launch.completed hl, congrArg Launch.job hl,
      (congrArg Launch.parent hl).trans hroot, fun sp num row hsps htile hnum hrow huid => ?_⟩
    subst hsps
    obtain ⟨slots, m, hmem⟩ := State.startLaunch_resident n chans acts htile hnum hrow huid
    obtain ⟨y, hy, hid⟩ := List.mem_map.mp hmem
    refine ⟨y, hy, ?_⟩
    rw [hid]
    exact ⟨rfl, by simp [newCtx, State.freeNum_lt hnum], rfl, rfl, rfl, rfl⟩

end Sys2Proof.Machine
end

-- ==== Proofs of the memory family: loads ====
section
/-! LD of the global, window and port space (11 R229, R232, R235). A place leaves the state but for the translations held and the note
of a missing slot; the word of a place in memory is read as earlier stores leave it, and extended. -/

namespace Sys2Proof.Machine

/-! ### Places (11 R235) -/

/-- `t` is `s` but for the translations held and the note that an access found no slot. -/
def State.SameButPlace (s t : State) : Prop := ∃ tlb gated, t = s.onDev fun d => { d with tlb := tlb, gated := gated }

theorem State.SameButPlace.rfl' (s : State) : s.SameButPlace s := ⟨s.dev.tlb, s.dev.gated, rfl⟩
theorem State.SameButPlace.setTlb {s t : State} (h : s.SameButPlace t) (tlb) : s.SameButPlace (t.onDev fun d => { d with tlb := tlb }) := by
  obtain ⟨_, gated, rfl⟩ := h
  exact ⟨tlb, gated, rfl⟩
theorem State.SameButPlace.gate {s t : State} (h : s.SameButPlace t) (free) : s.SameButPlace (t.gate free) := by
  obtain ⟨tlb, gated, rfl⟩ := h
  unfold State.gate
  split
  · exact ⟨tlb, gated, rfl⟩
  · exact ⟨tlb, true, rfl⟩
theorem State.SameButPlace.eq_onDev {s t : State} (h : s.SameButPlace t) :
    t = s.onDev fun d => { d with tlb := t.dev.tlb, gated := t.dev.gated } := by
  obtain ⟨tlb, gated, rfl⟩ := h
  rfl
theorem State.SameButPlace.upsets {s t : State} (h : s.SameButPlace t) : t.dev.upsets = s.dev.upsets := by
  obtain ⟨tlb, gated, rfl⟩ := h
  rfl

theorem State.touchWalk_of_no_upsets {s : State} (hu : s.dev.upsets = []) (w va) : s.touchWalk w va = s := by
  rw [State.touchWalk, hu]; rfl
theorem State.sameButPlace_global {s : State} (hu : s.dev.upsets = []) (w acc va n) : s.SameButPlace (s.global w acc va n).2 := by
  unfold State.global
  split
  · exact .rfl' s
  split
  · exact .rfl' s
  · rw [State.touchWalk_of_no_upsets hu]
    dsimp only
    split
    · exact (((State.SameButPlace.rfl' s).gate _).gate _).setTlb _
    · exact ((State.SameButPlace.rfl' s).gate _).setTlb _
theorem State.sameButPlace_place {s : State} (hu : s.dev.upsets = []) (vs acc a n) : s.SameButPlace (s.place vs acc a n).2 := by
  cases vs with
  | global => exact State.sameButPlace_global hu ..
  | window => exact .rfl' s
  | port => exact .rfl' s
theorem State.place_window (s : State) (acc a n) : s.place .window acc a n = (
    if a.toNat % n ≠ 0 then .error (.fault dALIGN a)
    else if s.ctx.winSize ≤ a.toNat then .error (.fault dWINDOW a)
    else .ok (.mem (s.ctx.winKey a.toNat)), s) := by
  simp only [State.place, State.window]
  split_ifs <;> rfl

/-! ### Values (11 R232) -/

/-- What a read returns is the number that its bytes hold. -/
theorem Memory.holds_read (m : Memory) (kv k n) : m.Holds kv k n (m.read kv k n) :=
  ⟨Memory.read_lt .., Memory.read_byte m kv k n⟩
theorem extLoad_unsigned_toNat {sz : Size} {v : Nat} (hv : v < 256 ^ accSize sz) : (extLoad false sz v).toNat = v := by
  cases sz <;> simp [extLoad, accSize] at hv ⊢ <;> omega
theorem extLoad_signed_toInt (sz : Size) (v : Nat) : (extLoad true sz v).toInt = Int.bmod v (256 ^ accSize sz) := by
  cases sz with
  | s8 => exact BitVec.toInt_ofNat ..
  | _ => exact (BitVec.toInt_signExtend_of_le (by decide)).trans (BitVec.toInt_ofNat ..)

/-! ### LD -/

section Load
variable {s u : State} {vs : VSpace} {sx : Bool} {sz : Size} {t0 t1 : Cons}

theorem exec_ld : exec (.ld vs.space sx sz t0 t1) s = loadFrom vs sx sz t0 t1 s := by
  cases vs <;> rfl
theorem loadFrom_poisoned (hp : s.opA.poison = true) : loadFrom vs sx sz t0 t1 s = .next (s.slotFault 4 0 0 0) := by
  rw [loadFrom, if_pos hp]; rfl
theorem loadFrom_fault {d w} (hp : s.opA.poison = false) (h : s.place vs .rd s.a (accSize sz) = (.error (.fault d w), u)) :
    loadFrom vs sx sz t0 t1 s = .next (u.slotFault 5 d w 0) := by
  rw [State.a] at h
  simp only [loadFrom, hp, h]
  rfl
theorem loadFrom_mem {k : Nat} (hp : s.opA.poison = false) (h : s.place vs .rd s.a (accSize sz) = (.ok (.mem k), u))
    (hw : s.updateWaits k = false) (hu : u.dev.upsets = []) :
    loadFrom vs sx sz t0 t1 s = .next (u.emit [(t0, ⟨extLoad sx sz (u.seen.read (u.kvOf u.who4 k) k (accSize sz)), u.seen.poisoned k⟩),
      (t1, ⟨if u.seen.poisoned k then 8 else 0, false⟩)]) := by
  rw [State.a] at h
  simp only [loadFrom, hp, h, State.locKey, Option.any_some, hw, Bool.false_eq_true, if_false, State.touch_of_no_upsets hu]
  rfl

end Load

/-- Settles O27: what a read returns is the number of its bytes; a place leaves the state but for the translations and the note. -/
theorem loadReadsItsPlace : Obligations.LoadReadsItsPlace := by
  intro s vs sx sz t0 t1
  rw [exec_ld]
  have hplaced (vs : VSpace) (r u) (hu : s.dev.upsets = []) (h : s.place vs .rd s.a (accSize sz) = (r, u)) : s.SameButPlace u := by
    simpa [h] using State.sameButPlace_place hu vs .rd s.a (accSize sz)
  refine ⟨loadFrom_poisoned, fun hp => ⟨fun k u h hw hu => ?_, fun d w u => loadFrom_fault hp⟩,
    fun k u hu h => (hplaced _ _ _ hu h).eq_onDev, s.place_window ..⟩
  refine ⟨_, _, Memory.holds_read .., ?_, ?_, loadFrom_mem hp h hw ((hplaced _ _ _ hu h).upsets.trans hu)⟩
  · rintro rfl; exact extLoad_unsigned_toNat (Memory.read_lt ..)
  · rintro rfl; exact extLoad_signed_toInt ..

end Sys2Proof.Machine
end

-- ==== Proofs of the memory family: updates that merge ====
section
/-! UPDATE_TOKEN_APPLY that merges the second update of a window into the first (04 R103, R104). `putUsu` changes every unit of a number,
each by its own window: the window of the first one tells what becomes of the list of units only where no two have one number. -/

namespace Sys2Proof.Machine

section Merge
variable {s : State} {n : Nat} {x y : Update} {l : List Update}

/-- The second update of a window may merge into the first when they are of one word, alike and not ordered. -/
theorem mergeInto_second (hk : x.key / 8 = y.key / 8) (hl : x.like y = true) (hx : x.ord = false) (hy : y.ord = false) :
    mergeInto (x :: y :: l) 1 = some 0 := by
  simp [mergeInto, hk, hl, hx, hy]
/-- The row merges the update at place 1 of every unit of the number into the one at place 0. -/
theorem exec_updateTokenApply_merge (hw : (s.usu n).window = x :: y :: l) (hk : x.key / 8 = y.key / 8) (hl : x.like y = true)
    (hx : x.ord = false) (hy : y.ord = false) :
    exec (.updateTokenApply n 1 true) s = .next (s.onUsu n fun v => { v with window := (modAt v.window 0 (·.join y)).eraseIdx 1 }) := by
  show execUpdateTokenApply n 1 true s = _
  simp only [execUpdateTokenApply, hw, mergeInto_second hk hl hx hy, if_true]
  rfl

/-- Where no two units have one number, a change of a unit is told by what it makes of that unit. -/
theorem putUsu_congr {us : List USU} {u : USU} {f g : USU → USU} (hnum : (us.map (·.num)).Nodup)
    (hu : us.find? (·.num == n) = some u) (hfg : f u = g u) : putUsu us n f = putUsu us n g := by
  have hmem := List.mem_of_find?_eq_some hu
  have hn : u.num = n := by simpa using List.find?_some hu
  have hany : us.any (·.num == n) = true := List.any_eq_true.mpr ⟨u, hmem, by simpa using hn⟩
  rw [putUsu, putUsu, if_pos hany, if_pos hany]
  refine List.map_congr_left fun v hv => ?_
  split
  · next hvn => rw [List.inj_on_of_nodup_map hnum hv hmem (hvn.trans hn.symm), hfg]
  · rfl
/-- The clause on merging, in a state in which no two units have one number. -/
theorem exec_updateTokenApply_merge_of_nodup (hnum : (s.dev.units.map (·.num)).Nodup) (hw : (s.usu n).window = x :: y :: l)
    (hk : x.key / 8 = y.key / 8) (hl : x.like y = true) (hx : x.ord = false) (hy : y.ord = false) :
    exec (.updateTokenApply n 1 true) s = .next (s.onUsu n fun v => { v with window := x.join y :: l }) := by
  rw [exec_updateTokenApply_merge hw hk hl hx hy]
  unfold State.usu at hw
  cases hu : s.dev.units.find? (·.num == n) with
  | none => rw [hu] at hw; cases hw
  | some u =>
    rw [hu] at hw
    have hwin : u.window = x :: y :: l := hw
    exact congrArg (fun us => Host.Outcome.next (s.onDev fun d => { d with units := us }))
      (putUsu_congr hnum hu (by rw [hwin]; rfl))

end Merge

/-- An addition to the word at key 0. -/
def addOf (v : Word) : Update := { id := 0, ctx := 0, key := 0, wide := true, op := .add, ty := .d, v := v }
/-- Two additions to one word wait at unit 0, and a second unit of that number holds none. -/
def unitTwice : State := ({} : State).onDev fun d => { d with units := [{ num := 0, window := [addOf 1, addOf 2] }, { num := 0 }] }

/-- How many updates wait in each unit's window. -/
def State.windowSizes (s : State) : List Nat := s.dev.units.map fun u => u.window.length

/-- Refutes O35: the clause on merging quantifies over every state, and so over one that lists two units of one number
(`unitTwice`); the row leaves the second, empty window as it is, where the clause writes the merged update into it. The clause
holds where the numbers differ (`exec_updateTokenApply_merge_of_nodup`). -/
theorem not_updatesApplyToTheirWord : ¬ Obligations.UpdatesApplyToTheirWord := by
  intro ⟨_, hmerge, _⟩
  have hstated := hmerge unitTwice 0 (addOf 1) (addOf 2) [] rfl rfl rfl rfl rfl rfl rfl
  rw [exec_updateTokenApply_merge (x := addOf 1) (y := addOf 2) (l := []) rfl rfl rfl rfl rfl] at hstated
  have hsizes : [1, 0] = [1, 1] := congrArg State.windowSizes (Host.Outcome.next.inj hstated)
  exact absurd hsizes (by decide)

end Sys2Proof.Machine
end

-- ==== Proofs of the deadline family: waits at issue and their ends ====
section
/-! Waits that return at issue or stay pending, and their ends by condition or by deadline (05 R111 to R119; 04 R101; 12 R262; 13 R275,
R277, R282). Said once: what a return does to TOCNT and what it sends, by the code of its status; when the wait of a slot returns, by what
it awaits; what a form does as its wait begins. -/

namespace Sys2Proof

theorem modAt_modAt {α : Type} (l : List α) (k : Nat) (f g : α → α) : modAt (modAt l k f) k g = modAt l k fun x => g (f x) := by
  induction l generalizing k with
  | nil => rfl
  | cons a l ih => cases k <;> simp [modAt, ih]
/-- A change of element `k` leaves those before it. -/
theorem take_modAt {α : Type} (l : List α) (k : Nat) (f : α → α) : (modAt l k f).take k = l.take k := by
  induction l generalizing k with
  | nil => rfl
  | cons a l ih => cases k <;> simp [modAt, ih]
/-- The one element that satisfies a test is the first. -/
theorem firstIdx_eq_of_unique {α : Type} {p : α → Bool} {l : List α} {k : Nat} {x : α} (hk : l[k]? = some x) (hp : p x = true)
    (hne : ∀ i y, l[i]? = some y → i ≠ k → p y = false) (n : Nat) : firstIdx p l n = some (n + k) := by
  induction l generalizing k n with
  | nil => cases hk
  | cons a l ih =>
    cases k with
    | zero => cases hk; simp [firstIdx, hp]
    | succ k =>
      rw [firstIdx, hne 0 a rfl (by omega), if_neg Bool.false_ne_true,
        ih hk (fun i y hi hik => hne (i + 1) y hi (by omega)), Nat.add_right_comm, Nat.add_assoc]
theorem firstIdx_eq_none {α : Type} {p : α → Bool} {l : List α} (h : ∀ y ∈ l, p y = false) (n : Nat) : firstIdx p l n = none := by
  induction l generalizing n with
  | nil => rfl
  | cons a l ih =>
    rw [firstIdx, h a List.mem_cons_self, if_neg Bool.false_ne_true]
    exact ih (fun y hy => h y (List.mem_cons_of_mem a hy)) _
/-- The one number below `n` that satisfies a test. -/
theorem filter_range_eq_singleton {p : Nat → Bool} {n k : Nat} (hk : k < n) (hp : ∀ i, i < n → (p i = true ↔ i = k)) :
    (List.range n).filter p = [k] := by
  have hmem (i : Nat) : i ∈ (List.range n).filter p ↔ i ∈ [k] := by
    simp only [List.mem_filter, List.mem_range, List.mem_singleton]
    exact ⟨fun h => (hp i h.1).mp h.2, fun h => h ▸ ⟨hk, (hp k hk).mpr rfl⟩⟩
  exact List.perm_singleton.mp
    ((List.perm_ext_iff_of_nodup (List.nodup_range.filter p) (List.nodup_singleton k)).mpr hmem)

/-- A word with a bit from `lo` on is out of the range below it. -/
theorem bitsN_ne_zero_iff (x : Word) {lo : Nat} (hlo : lo < 64) : bitsN x 63 lo ≠ 0 ↔ 2 ^ lo ≤ x.toNat := by
  have hx : x.toNat / 2 ^ lo < 2 ^ (63 - lo + 1) := by
    rw [Nat.div_lt_iff_lt_mul (by positivity), ← pow_add, show 63 - lo + 1 + lo = 64 by omega]
    exact x.isLt
  rw [bitsN, BitVec.extractLsb_toNat, Nat.shiftRight_eq_div_pow, Nat.mod_eq_of_lt hx, ne_eq, Nat.div_eq_zero_iff]
  simp
theorem toNat_setWidth_of_lt {x : Word} {n : Nat} (h : x.toNat < 2 ^ n) : (x.setWidth n).toNat = x.toNat := by
  rw [BitVec.toNat_setWidth, Nat.mod_eq_of_lt h]
theorem setWidth_setWidth_of_lt {x : Word} {n : Nat} (h : x.toNat < 2 ^ n) : (x.setWidth n).setWidth 64 = x :=
  BitVec.eq_of_toNat_eq (by rw [BitVec.toNat_setWidth, toNat_setWidth_of_lt h, Nat.mod_eq_of_lt x.isLt])

end Sys2Proof

namespace Sys2Proof.Machine

/-! ### Status tokens (05 R117) -/

theorem codeOf_status {c : Nat} (hc : c < 16) (d p : Nat) : codeOf (status c d p) = c := by
  simp only [codeOf, bitsN, status, BitVec.extractLsb_toNat, BitVec.toNat_ofNat, Nat.shiftRight_zero]
  omega
theorem status_payload {c d p : Nat} (hcd : d * 16 + c < 2 ^ 16) (hp : p < 2 ^ 48) : bitsN (status c d p) 63 16 = p := by
  simp only [bitsN, status, BitVec.extractLsb_toNat, BitVec.toNat_ofNat, Nat.shiftRight_eq_div_pow]
  omega

section Count
variable (c : Ctx) {st : Word} (thr : Nat)

theorem Ctx.count_ok (hst : codeOf st = 0) (poll : Bool) :
    c.count st poll thr = ({ c with csr := { c.csr with tocnt := 0 } }, st, false) := by
  simp [Ctx.count, hst, sTIMEOUT, sWITHDRAWN]
theorem Ctx.count_kept (hst : codeOf st = 4 ∨ codeOf st = 5) (poll : Bool) : c.count st poll thr = (c, st, false) := by
  rcases hst with hst | hst <;> simp [Ctx.count, hst, sTIMEOUT, sWITHDRAWN, sLATE, sLOSS]
/-- The expiry of a POLL is counted in PERF alone. -/
theorem Ctx.count_poll_timeout (hst : codeOf st = 1) :
    c.count st true thr = ({ c with csr := { c.csr with perf := modV c.csr.perf 7 (· + 1) } }, st, false) := by
  simp [Ctx.count, hst, sTIMEOUT, sLATE, sLOSS]
theorem Ctx.count_timeout (hst : codeOf st = 1) (hthr : thr = 0 ∨ bitsN c.csr.tocnt 15 0 + 1 < thr) :
    c.count st false thr = ({ c with csr := { c.csr with
      tocnt := BitVec.ofNat 64 (Nat.min (bitsN c.csr.tocnt 15 0 + 1) 65535), perf := modV c.csr.perf 7 (· + 1) } }, st, false) := by
  have hless : ¬(thr ≠ 0 ∧ thr ≤ bitsN c.csr.tocnt 15 0 + 1) := by omega
  simp only [Ctx.count, hst, sTIMEOUT, decide_true, Bool.true_or, Bool.not_false, Bool.and_self, if_true, if_neg hless]
theorem Ctx.count_escalated (hst : codeOf st = 1) (hne : thr ≠ 0) (hle : thr ≤ bitsN c.csr.tocnt 15 0 + 1) :
    c.count st false thr = ({ c with csr := { c.csr with tocnt := 0 } }, status 10 1 (bitsN st 63 16), true) := by
  have hreached : thr ≠ 0 ∧ thr ≤ bitsN c.csr.tocnt 15 0 + 1 := ⟨hne, hle⟩
  simp only [Ctx.count, hst, sTIMEOUT, decide_true, Bool.true_or, Bool.not_false, Bool.and_self, if_true, if_pos hreached]
  rfl

end Count

/-! ### Slots that wait -/

/-- The slot that a wait was set on, done, shows nothing of it. -/
theorem State.emitAt_setWait (s : State) (k : Nat) (w : Wait) (outs : List (Cons × Option Token)) :
    (s.setWait k w).emitAt k outs = s.emitAt k outs := by
  simp only [State.emitAt, State.setWait, State.onBlk, State.onFir, Block.emit, Block.onSlot, modAt_modAt]

theorem State.onCsr_setWait (s : State) (k : Nat) (w : Wait) (f : Csrs → Csrs) :
    (s.setWait k w).onCsr f = (s.onCsr f).setWait k w := rfl

/-- Slot `k` of a state whose bore log is off holds `sl`, which waits with `w`. -/
structure State.Waits (s : State) (k : Nat) (w : Wait) (sl : Slot) : Prop where
  slot : s.fir.blk.slots[k]? = some sl
  wait : sl.wait = some w
  log : s.ctx.logOn = false

/-- The slot `sl` with a pending wait. -/
def Slot.waiting (sl : Slot) (w : Wait) : Slot := { sl with st := .pend, wait := some w }

section Waits
variable {s : State} {k : Nat} {w : Wait} {sl : Slot}

theorem State.waits_setWait (hsl : s.fir.blk.slots[k]? = some sl) (hlog : s.ctx.logOn = false) (w : Wait) :
    (s.setWait k w).Waits k w (sl.waiting w) where
  slot := by simp [State.setWait, Block.onSlot, getElem?_modAt, hsl, Slot.waiting]
  wait := rfl
  log := hlog

/-- A form with two consumers sends them two tokens. -/
theorem twoTokens_eq {i : Instr} {t0 t1 : Cons} (hdec : decode sl.word = .ok i) (hcons : instrCons i = [t0, t1]) (a b : Token) :
    twoTokens sl a b = [(t0, a), (t1, b)] := by
  simp [twoTokens, slotCons, decodeOpt, hdec, hcons]

/-! ### Returns (05 R117 to R119) -/

section Finish
variable {st : Word} {poll expired : Bool} {mk : Slot → Word → List (Cons × Token)}

/-- Outside a bore log a return leaves no record. -/
theorem State.finish_eq (hsl : s.fir.blk.slots[k]? = some sl) (hlog : s.ctx.logOn = false) :
    s.finish k st poll expired mk = s.returnWait k st poll (BitVec.ofNat 6 (fOp sl.word)) (mk sl) := by
  have htie (r : LogRec) : s.tie k r = s := by simp [State.tie, hlog]
  simp only [State.finish, List.getD_eq_getElem?_getD, hsl, Option.getD_some, htie]
  split <;> rfl
/-- A return whose status is not escalated. -/
theorem State.finish_of_count {c : Ctx} (hsl : s.fir.blk.slots[k]? = some sl) (hlog : s.ctx.logOn = false)
    (hc : s.ctx.count st poll s.escn = (c, st, false)) :
    s.finish k st poll expired mk = { s with ctx := c }.emitAt k ((mk sl st).map fun (c, t) => (c, some t)) := by
  rw [State.finish_eq hsl hlog, State.returnWait, hc]
  rfl

section
variable (hsl : s.fir.blk.slots[k]? = some sl) (hlog : s.ctx.logOn = false)
include hsl hlog

theorem State.finish_ok (hst : codeOf st = 0) : s.finish k st poll expired mk
    = (s.onCsr fun r => { r with tocnt := 0 }).emitAt k ((mk sl st).map fun (c, t) => (c, some t)) :=
  State.finish_of_count hsl hlog (Ctx.count_ok _ _ hst _)
theorem State.finish_kept (hst : codeOf st = 4 ∨ codeOf st = 5) :
    s.finish k st poll expired mk = s.emitAt k ((mk sl st).map fun (c, t) => (c, some t)) :=
  State.finish_of_count hsl hlog (Ctx.count_kept _ _ hst _)
theorem State.finish_poll_timeout (hst : codeOf st = 1) : s.finish k st true expired mk
    = (s.onCsr fun r => { r with perf := modV r.perf 7 (· + 1) }).emitAt k ((mk sl st).map fun (c, t) => (c, some t)) :=
  State.finish_of_count hsl hlog (Ctx.count_poll_timeout _ _ hst)
theorem State.finish_timeout (hst : codeOf st = 1) (hthr : s.escn = 0 ∨ bitsN s.ctx.csr.tocnt 15 0 + 1 < s.escn) :
    s.finish k st false expired mk
    = (s.onCsr fun r => { r with tocnt := BitVec.ofNat 64 (Nat.min (bitsN s.ctx.csr.tocnt 15 0 + 1) 65535)
                                 perf := modV r.perf 7 (· + 1) }).emitAt k ((mk sl st).map fun (c, t) => (c, some t)) :=
  State.finish_of_count hsl hlog (Ctx.count_timeout _ _ hst hthr)
/-- At ESCN the freeze is noted for the end of the block. -/
theorem State.finish_escalated (hst : codeOf st = 1) (hne : s.escn ≠ 0) (hle : s.escn ≤ bitsN s.ctx.csr.tocnt 15 0 + 1) :
    s.finish k st false expired mk = ((s.onCsr fun r => { r with tocnt := 0 }).onBlk fun b => { b with
        esc := b.esc ++ [(1, BitVec.ofNat 64 (bitsN st 63 16), 0, BitVec.ofNat 6 (fOp sl.word))] }).emitAt k
        ((mk sl (status 10 1 (bitsN st 63 16))).map fun (c, t) => (c, some t)) := by
  rw [State.finish_eq hsl hlog, State.returnWait, Ctx.count_escalated _ _ hst hne hle]
  simp only [hst]
  rfl

end

end Finish

/-! ### When a wait returns (05 R111) -/

theorem State.steered_of_log_off (hlog : s.ctx.logOn = false) (k : Nat) : s.steered k = none := by
  simp [State.steered, hlog]

namespace State.Waits
variable (h : s.Waits k w sl)
include h

theorem bind_wait : (s.fir.blk.slots[k]?).bind (·.wait) = some w := by simp [h.slot, h.wait]
theorem not_willExpire : s.willExpire k = false := by simp [State.willExpire, State.steered_of_log_off h.log]
theorem not_goesOn : s.goesOn k w = false := by
  simp only [State.goesOn, State.willHold, State.steered_of_log_off h.log]
  split <;> simp_all

theorem evalWait_flag {c m} (hon : w.on = .flag c m) : s.evalWait k =
    if flagHolds c s.fir.flags m then some (s.finish k (status 0 0 s.fir.flags.toNat) w.poll false mkStatus) else none := by
  simp only [State.evalWait, h.bind_wait, h.not_willExpire, hon, Bool.false_eq_true, if_false]
theorem evalWait_barrier {ref key m p e} (hon : w.on = .barrier ref key m p e) (hp : phaseAt s.mem (s.kvOf s.who4 key) key = p) :
    s.evalWait k = none := by
  simp only [State.evalWait, h.bind_wait, h.not_willExpire, hon, Bool.false_eq_true, if_false, hp, if_true]
theorem evalWait_fence {m ser upd f} (hon : w.on = .fence m ser upd f) : s.evalWait k =
    if s.drainedMask m ser upd f = m.toNat then some (s.finish k (status 0 0 m.toNat) w.poll false mkStatus) else none := by
  simp only [State.evalWait, h.bind_wait, h.not_willExpire, hon, Bool.false_eq_true, if_false]
/-- A JOIN takes its handle when the child has ended, and when it was killed. -/
theorem evalWait_join {n : BitVec 6} (hon : w.on = .join n) : s.evalWait k =
    (s.childStatus (s.ctx.sync.children.getD n.toNat {})).map fun st =>
      (if codeOf st = 0 || (codeOf st = sKILLED && (s.ctx.sync.children.getD n.toNat {}).killed.isSome)
        then s.take k (.join none none) [n.setWidth 64] else s).finish k st w.poll false mkStatus := by
  simp only [State.evalWait, h.bind_wait, h.not_willExpire, hon, Bool.false_eq_true, if_false]
  split <;> simp [*]
theorem evalWait_kwait {tag : BitVec 7} (hon : w.on = .kwait tag) : s.evalWait k =
    (s.ctx.sync.evq.find? fun r => bitsN r.info 49 43 = tag.toNat).map fun r =>
      s.finish k stOK w.poll false fun sl _ => twoTokens sl (tok r.status) (tok r.info) := by
  simp only [State.evalWait, h.bind_wait, h.not_willExpire, hon, Bool.false_eq_true, if_false]
  split <;> simp [*]
theorem evalWait_kevq (hon : w.on = .kevq) : s.evalWait k =
    ((s.fir.blk.rank k true isKevq none).bind fun j => s.freeRecs[j]?).map fun r =>
      (s.take k (.kevq none none) [r.info]).finish k stOK w.poll false fun sl _ => twoTokens sl (tok r.status) (tok r.info) := by
  simp only [State.evalWait, h.bind_wait, h.not_willExpire, hon, Bool.false_eq_true, if_false]
  split <;> simp [*]

end State.Waits

/-! ### What no other has taken (12 R262; 11 R231) -/

/-- No slot below `k`, nothing that the block holds and no block of another firing has a form that takes what slot `k` takes. -/
structure State.Unclaimed (s : State) (k : Nat) (p : Instr → Bool) : Prop where
  below : ∀ y ∈ s.fir.blk.slots.take k, ∀ i, wordInstr y = some i → p i = false
  held : ∀ z ∈ s.fir.blk.effs, p z.ins = false
  others : ∀ z ∈ s.ctx.firs.flatMap (·.blk.effs), p z.ins = false

/-- LD of the host space. -/
def isHostLoad : Instr → Bool | .ld .host .. => true | _ => false

theorem State.Unclaimed.setWait {p : Instr → Bool} (h : s.Unclaimed k p) (w : Wait) : (s.setWait k w).Unclaimed k p where
  below := by simpa only [State.setWait, State.onBlk_fir, Block.onSlot, take_modAt] using h.below
  held := h.held
  others := h.others
theorem State.unclaimed_kevq (hbelow : ∀ y ∈ s.fir.blk.slots.take k, ∀ a b, wordInstr y ≠ some (.kevq a b))
    (heffs : ∀ z ∈ s.fir.blk.effs ++ s.ctx.firs.flatMap (·.blk.effs), ∀ a b, z.ins ≠ .kevq a b) : s.Unclaimed k isKevq := by
  have hform {i : Instr} (h : ∀ a b, i ≠ .kevq a b) : isKevq i = false := by
    unfold isKevq
    split
    · exact absurd rfl (h _ _)
    · rfl
  exact ⟨fun y hy i hi => hform fun a b hab => hbelow y hy a b (hab ▸ hi),
    fun z hz => hform (heffs z (List.mem_append_left _ hz)), fun z hz => hform (heffs z (List.mem_append_right _ hz))⟩
theorem State.unclaimed_hostLoad (hbelow : ∀ y ∈ s.fir.blk.slots.take k, ∀ a b d f, wordInstr y ≠ some (.ld .host a b d f))
    (heffs : ∀ z ∈ s.fir.blk.effs ++ s.ctx.firs.flatMap (·.blk.effs), ∀ a b d f, z.ins ≠ .ld .host a b d f) :
    s.Unclaimed k isHostLoad := by
  have hform {i : Instr} (h : ∀ a b d f, i ≠ .ld .host a b d f) : isHostLoad i = false := by
    unfold isHostLoad
    split
    · exact absurd rfl (h _ _ _ _)
    · rfl
  exact ⟨fun y hy i hi => hform fun a b d f hab => hbelow y hy a b d f (hab ▸ hi),
    fun z hz => hform (heffs z (List.mem_append_left _ hz)), fun z hz => hform (heffs z (List.mem_append_right _ hz))⟩

theorem State.Unclaimed.rank {p : Instr → Bool} (h : s.Unclaimed k p) (every : Bool) (a : Option Word) :
    s.fir.blk.rank k every p a = some 0 := by
  unfold Block.rank
  extract_lets l
  have hl : l = [] := List.filter_eq_nil_iff.mpr fun ⟨y, n⟩ hy hform => by
    have hnot := h.below y (List.fst_mem_of_mem_zipIdx hy)
    unfold wordInstr at hnot
    cases hdec : decodeOpt y.word <;> simp_all
  rw [hl]
  rfl
theorem State.Unclaimed.othersTook {p : Instr → Bool} (h : s.Unclaimed k p) : s.othersTook p = [] := by
  simp only [State.othersTook, List.flatMap_eq_nil_iff, List.filter_eq_nil_iff]
  exact fun f hf e he => by simp [h.others e (List.mem_flatMap.mpr ⟨f, hf, he⟩)]
theorem State.Unclaimed.headPlace {p : Instr → Bool} (h : s.Unclaimed k p) (a : Option Word) : s.headPlace k p a = some 0 := by
  simp [State.headPlace, h.othersTook, h.rank]
theorem State.Unclaimed.freeRecs (h : s.Unclaimed k isKevq) : s.freeRecs = s.ctx.sync.evq := by
  have hheld : (s.fir.blk.effs.filter fun e => isKevq e.ins) = [] := List.filter_eq_nil_iff.mpr fun e he => by simp [h.held e he]
  simp [State.freeRecs, h.othersTook, hheld]

/-- A KEVQ takes the first record. -/
theorem State.Waits.evalWait_kevq_first (h : s.Waits k w sl) (hon : w.on = .kevq) (hu : s.Unclaimed k isKevq) : s.evalWait k =
    s.ctx.sync.evq[0]?.map fun r =>
      (s.take k (.kevq none none) [r.info]).finish k stOK w.poll false fun sl _ => twoTokens sl (tok r.status) (tok r.info) := by
  rw [h.evalWait_kevq hon, hu.rank, hu.freeRecs]
  rfl
theorem State.Waits.evalWait_kevq_empty (h : s.Waits k w sl) (hon : w.on = .kevq) (hq : s.ctx.sync.evq = []) : s.evalWait k = none := by
  simp [h.evalWait_kevq hon, State.freeRecs, hq]
/-- LD of a host channel takes the first ready slot of it. -/
theorem State.Waits.evalWait_host_first {c : BitVec 6} (h : s.Waits k w sl) (hon : w.on = .host c) (hu : s.Unclaimed k isHostLoad) :
    s.evalWait k = (s.hostResult c 0).map fun (v, st) =>
      (s.take k (.ld .host false .s8 none none) [c.setWidth 64, BitVec.ofNat 64 (s.dev.hch.getD c.toNat {}).gen]).finish k st w.poll
        false (mkValue v) := by
  simp only [State.evalWait, h.bind_wait, h.not_willExpire, hon, Bool.false_eq_true, if_false]
  rw [State.Unclaimed.headPlace]
  · simp only [Option.bind_some, Nat.zero_sub]
    split <;> simp [*]
  · exact hu
theorem State.Waits.evalWait_host_empty {c : BitVec 6} (h : s.Waits k w sl) (hon : w.on = .host c)
    (hready : (s.dev.hch.getD c.toNat {}).ready = []) : s.evalWait k = none := by
  have hnone (j : Nat) : s.hostResult c j = none := by simp only [State.hostResult, hready, List.getElem?_nil]
  simp only [State.evalWait, h.bind_wait, h.not_willExpire, hon, Bool.false_eq_true, if_false, hnone, Option.bind_fun_none]

/-! ### Expiry (05 R115, R117) -/

namespace State.Waits
variable (h : s.Waits k w sl)
include h

theorem expireWait_eq (hev : s.evalWait k = none) : s.expireWait k = s.expireNow k w := by
  simp [State.expireWait, h.bind_wait, hev, h.not_goesOn]
theorem expireNow_fence {m ser upd f} (hon : w.on = .fence m ser upd f) : s.expireNow k w =
    s.finish k (if s.drainedMask m ser upd f = 0 then status 1 0 0 else status 4 0 (s.drainedMask m ser upd f)) w.poll true mkStatus := by
  simp only [State.expireNow, hon, State.steered_of_log_off h.log]
  rfl

end State.Waits

end Waits

/-! ### Forms that wait, at issue (05 R111, R112, R115) -/

/-- Returns at once with OK: TOCNT is cleared, the issuing slot sends its tokens. -/
def State.answersOk (s : State) (t0 t1 : Cons) (a b : Token) : State :=
  (s.onCsr fun r => { r with tocnt := 0 }).emit [(t0, a), (t1, b)]
/-- Returns at once as a POLL whose condition does not hold: PERF alone counts it. -/
def State.answersLate (s : State) (t0 t1 : Cons) (a b : Token) : State :=
  (s.onCsr fun r => { r with perf := modV r.perf 7 (· + 1) }).emit [(t0, a), (t1, b)]
/-- The wait that begins with a deadline. -/
def Deadline.wait (on : Await) : Deadline → Wait
  | .at x => { on := on, expiry := some x }
  | _ => { on := on, expiry := none, poll := true }
@[simp] theorem Deadline.wait_on (on : Await) (d : Deadline) : (d.wait on).on = on := by cases d <;> rfl

/-- The slot `sl` that issues, in a state whose bore log is off, holds the word of `i`, which has the consumers `t0` and `t1`. -/
structure State.Issues (s : State) (sl : Slot) (i : Instr) (t0 t1 : Cons) : Prop where
  slot : s.fir.blk.slots[s.fir.blk.cur]? = some sl
  log : s.ctx.logOn = false
  dec : decode sl.word = .ok i
  cons : instrCons i = [t0, t1]

section Begin
variable {s u : State} {sl : Slot} {i : Instr} {t0 t1 : Cons} {on : Await} {d : Deadline}

theorem State.begin_of_holds (h : (s.setWait s.fir.blk.cur (d.wait on)).evalWait s.fir.blk.cur = some u) : s.begin on d = u := by
  cases d <;> simp only [Deadline.wait] at h <;> simp only [State.begin, h]
theorem State.begin_at_of_not {x : Nat} (h : (s.setWait s.fir.blk.cur (Deadline.wait on (.at x))).evalWait s.fir.blk.cur = none) :
    s.begin on (.at x) = s.setWait s.fir.blk.cur { on := on, expiry := some x } := by
  simp only [Deadline.wait] at h
  simp [State.begin, h]

namespace State.Issues
variable (h : s.Issues sl i t0 t1)
include h

theorem waits (w : Wait) : (s.setWait s.fir.blk.cur w).Waits s.fir.blk.cur w (sl.waiting w) := State.waits_setWait h.slot h.log w
theorem take (j : Instr) (ws : List Word) : (s.take s.fir.blk.cur j ws).Issues sl i t0 t1 := ⟨h.slot, h.log, h.dec, h.cons⟩
theorem begin_poll_of_not (hon : on.isReply = false)
    (hev : (s.setWait s.fir.blk.cur (Deadline.poll.wait on)).evalWait s.fir.blk.cur = none) :
    s.begin on .poll = (s.setWait s.fir.blk.cur (Deadline.poll.wait on)).expireNow s.fir.blk.cur (Deadline.poll.wait on) := by
  rw [← (h.waits _).expireWait_eq hev]
  simp only [Deadline.wait] at hev
  simp [State.begin, hev, hon, Deadline.wait]

/-- A form that returns without having waited. -/
theorem finish_raw {st : Word} {poll expired : Bool} {mk : Slot → Word → List (Cons × Token)} {a b : Token}
    (hmk : mk sl st = twoTokens sl a b) (hst : codeOf st = 4 ∨ codeOf st = 5) :
    s.finish s.fir.blk.cur st poll expired mk = s.emit [(t0, a), (t1, b)] := by
  rw [State.finish_kept h.slot h.log hst, hmk, twoTokens_eq h.dec h.cons]
  rfl

section Finish
variable {st : Word} {poll expired : Bool} {mk : Slot → Word → List (Cons × Token)} {a b : Token} {w : Wait}
  (hmk : mk (sl.waiting w) st = twoTokens (sl.waiting w) a b)
include hmk

theorem finish_ok (hst : codeOf st = 0) :
    (s.setWait s.fir.blk.cur w).finish s.fir.blk.cur st poll expired mk = s.answersOk t0 t1 a b := by
  rw [State.finish_ok (h.waits w).slot (h.waits w).log hst, hmk, twoTokens_eq (sl := sl.waiting w) h.dec h.cons, State.onCsr_setWait]
  exact State.emitAt_setWait ..
theorem finish_late (hst : codeOf st = 1) :
    (s.setWait s.fir.blk.cur w).finish s.fir.blk.cur st true expired mk = s.answersLate t0 t1 a b := by
  rw [State.finish_poll_timeout (h.waits w).slot (h.waits w).log hst, hmk, twoTokens_eq (sl := sl.waiting w) h.dec h.cons,
    State.onCsr_setWait]
  exact State.emitAt_setWait ..
theorem finish_kept (hst : codeOf st = 4 ∨ codeOf st = 5) :
    (s.setWait s.fir.blk.cur w).finish s.fir.blk.cur st poll expired mk = s.emit [(t0, a), (t1, b)] := by
  rw [State.finish_kept (h.waits w).slot (h.waits w).log hst, hmk, twoTokens_eq (sl := sl.waiting w) h.dec h.cons]
  exact State.emitAt_setWait ..

end Finish

/-! #### Each await as its wait begins -/

theorem begin_flag_holds {c m} (hf : flagHolds c s.fir.flags m = true) :
    s.begin (.flag c m) d = s.answersOk t0 t1 ⟨status 0 0 s.fir.flags.toNat, false⟩ ⟨status 0 0 s.fir.flags.toNat, false⟩ := by
  refine State.begin_of_holds (((h.waits _).evalWait_flag (Deadline.wait_on ..)).trans ((if_pos hf).trans (congrArg some ?_)))
  exact h.finish_ok rfl (codeOf_status (by decide) ..)
theorem evalWait_flag_not {c m} (hf : flagHolds c s.fir.flags m = false) (d : Deadline) :
    (s.setWait s.fir.blk.cur (d.wait (.flag c m))).evalWait s.fir.blk.cur = none :=
  ((h.waits _).evalWait_flag (Deadline.wait_on ..)).trans (if_neg (Bool.eq_false_iff.mp hf))
theorem begin_flag_late {c m} (hf : flagHolds c s.fir.flags m = false) :
    s.begin (.flag c m) .poll
      = s.answersLate t0 t1 ⟨status 1 0 s.fir.flags.toNat, false⟩ ⟨status 1 0 s.fir.flags.toNat, false⟩ := by
  rw [h.begin_poll_of_not rfl (h.evalWait_flag_not hf _)]
  exact h.finish_late rfl (codeOf_status (by decide) ..)

theorem begin_kwait_holds {tag : BitVec 7} {r : Rec} (hr : s.ctx.sync.evq.find? (fun r => bitsN r.info 49 43 == tag.toNat) = some r) :
    s.begin (.kwait tag) d = s.answersOk t0 t1 ⟨r.status, false⟩ ⟨r.info, false⟩ := by
  refine State.begin_of_holds (((h.waits _).evalWait_kwait (Deadline.wait_on ..)).trans
    ((congrArg (Option.map _) hr).trans (congrArg some ?_)))
  exact h.finish_ok rfl rfl
theorem evalWait_kwait_not {tag : BitVec 7} (hr : ∀ r ∈ s.ctx.sync.evq, bitsN r.info 49 43 ≠ tag.toNat) (d : Deadline) :
    (s.setWait s.fir.blk.cur (d.wait (.kwait tag))).evalWait s.fir.blk.cur = none := by
  rw [(h.waits _).evalWait_kwait (Deadline.wait_on ..), Option.map_eq_none_iff, List.find?_eq_none]
  exact fun r hmem => by simpa using hr r hmem
theorem begin_kwait_late {tag : BitVec 7} (hr : ∀ r ∈ s.ctx.sync.evq, bitsN r.info 49 43 ≠ tag.toNat) :
    s.begin (.kwait tag) .poll = s.answersLate t0 t1 ⟨1, false⟩ {} := by
  rw [h.begin_poll_of_not rfl (h.evalWait_kwait_not hr _)]
  exact h.finish_late (st := status 1 0 0) rfl (codeOf_status (by decide) ..)

theorem begin_kevq_holds {r : Rec} {l : List Rec} (hu : s.Unclaimed s.fir.blk.cur isKevq) (hq : s.ctx.sync.evq = r :: l) :
    s.begin .kevq d = (s.take s.fir.blk.cur (.kevq none none) [r.info]).answersOk t0 t1 ⟨r.status, false⟩ ⟨r.info, false⟩ := by
  refine State.begin_of_holds (((h.waits _).evalWait_kevq_first (Deadline.wait_on ..) (hu.setWait _)).trans
    ((congrArg (fun q : List Rec => q[0]?.map _) hq).trans (congrArg some ?_)))
  exact (h.take _ _).finish_ok rfl rfl
theorem evalWait_kevq_not (hq : s.ctx.sync.evq = []) (d : Deadline) :
    (s.setWait s.fir.blk.cur (d.wait .kevq)).evalWait s.fir.blk.cur = none :=
  (h.waits _).evalWait_kevq_empty (Deadline.wait_on ..) hq
theorem begin_kevq_late (hq : s.ctx.sync.evq = []) : s.begin .kevq .poll = s.answersLate t0 t1 ⟨1, false⟩ {} := by
  rw [h.begin_poll_of_not rfl (h.evalWait_kevq_not hq _)]
  exact h.finish_late (st := status 1 0 0) rfl (codeOf_status (by decide) ..)

theorem begin_host_holds {c : BitVec 6} {v ctrl : Word} {l : List (Word × Word)} (hu : s.Unclaimed s.fir.blk.cur isHostLoad)
    (hready : (s.dev.hch.getD c.toNat {}).ready = (v, ctrl) :: l) (hctrl : bitsN ctrl 2 0 = 0) : s.begin (.host c) d =
    (s.take s.fir.blk.cur (.ld .host false .s8 none none) [c.setWidth 64, BitVec.ofNat 64 (s.dev.hch.getD c.toNat {}).gen]).answersOk
      t0 t1 ⟨v, false⟩ ⟨0, false⟩ := by
  have hres : s.hostResult c 0 = some (tok v, stOK) := by simp only [State.hostResult, hready, List.getElem?_cons_zero, hctrl]
  refine State.begin_of_holds (((h.waits _).evalWait_host_first (Deadline.wait_on ..) (hu.setWait _)).trans
    ((congrArg (Option.map _) hres).trans (congrArg some ?_)))
  exact (h.take _ _).finish_ok rfl rfl
theorem evalWait_host_not {c : BitVec 6} (hready : (s.dev.hch.getD c.toNat {}).ready = []) (d : Deadline) :
    (s.setWait s.fir.blk.cur (d.wait (.host c))).evalWait s.fir.blk.cur = none :=
  (h.waits _).evalWait_host_empty (Deadline.wait_on ..) hready
theorem begin_host_late {c : BitVec 6} (hready : (s.dev.hch.getD c.toNat {}).ready = []) :
    s.begin (.host c) .poll = s.answersLate t0 t1 {} ⟨1, false⟩ := by
  rw [h.begin_poll_of_not rfl (h.evalWait_host_not hready _)]
  exact h.finish_late (st := status 1 0 0) rfl (codeOf_status (by decide) ..)

/-- What a JOIN that finds a status does: it takes the handle when the child has ended. -/
theorem begin_join_holds {n : BitVec 6} {st : Word} (hst : s.childStatus (s.ctx.sync.children.getD n.toNat {}) = some st)
    (hc : codeOf st = 0) :
    s.begin (.join n) d = (s.take s.fir.blk.cur (.join none none) [n.setWidth 64]).answersOk t0 t1 ⟨st, false⟩ ⟨st, false⟩ := by
  refine State.begin_of_holds (((h.waits _).evalWait_join (Deadline.wait_on ..)).trans
    ((congrArg (Option.map _) hst).trans (congrArg some ?_)))
  simp only [hc, decide_true, Bool.true_or, if_true]
  exact (h.take _ _).finish_ok rfl hc
theorem begin_join_fault {n : BitVec 6} {st : Word} (hst : s.childStatus (s.ctx.sync.children.getD n.toNat {}) = some st)
    (hc : codeOf st = 5) : s.begin (.join n) d = s.emit [(t0, ⟨st, false⟩), (t1, ⟨st, false⟩)] := by
  refine State.begin_of_holds (((h.waits _).evalWait_join (Deadline.wait_on ..)).trans
    ((congrArg (Option.map _) hst).trans (congrArg some ?_)))
  simp only [hc, sKILLED, OfNat.ofNat_ne_zero, Nat.reduceEqDiff, decide_false, Bool.false_and, Bool.or_self, Bool.false_eq_true, if_false]
  exact h.finish_kept rfl (.inr hc)
theorem evalWait_join_not {n : BitVec 6} (hst : s.childStatus (s.ctx.sync.children.getD n.toNat {}) = none) (d : Deadline) :
    (s.setWait s.fir.blk.cur (d.wait (.join n))).evalWait s.fir.blk.cur = none :=
  ((h.waits _).evalWait_join (Deadline.wait_on ..)).trans (congrArg (Option.map _) hst)
theorem begin_join_late {n : BitVec 6} (hst : s.childStatus (s.ctx.sync.children.getD n.toNat {}) = none) :
    s.begin (.join n) .poll = s.answersLate t0 t1 ⟨1, false⟩ ⟨1, false⟩ := by
  rw [h.begin_poll_of_not rfl (h.evalWait_join_not hst _)]
  exact h.finish_late (st := status 1 0 0) rfl (codeOf_status (by decide) ..)

section Fence
variable {m : BitVec 6} {ser upd : Nat} {f : FenceAt}

theorem begin_fence_holds (hm : s.drainedMask m ser upd f = m.toNat) :
    s.begin (.fence m ser upd f) d = s.answersOk t0 t1 ⟨status 0 0 m.toNat, false⟩ ⟨status 0 0 m.toNat, false⟩ := by
  refine State.begin_of_holds (((h.waits _).evalWait_fence (Deadline.wait_on ..)).trans ((if_pos hm).trans (congrArg some ?_)))
  exact h.finish_ok rfl (codeOf_status (by decide) ..)
theorem evalWait_fence_not (hm : s.drainedMask m ser upd f ≠ m.toNat) (d : Deadline) :
    (s.setWait s.fir.blk.cur (d.wait (.fence m ser upd f))).evalWait s.fir.blk.cur = none :=
  ((h.waits _).evalWait_fence (Deadline.wait_on ..)).trans (if_neg hm)
/-- A FENCE as POLL that has drained some of its classes returns those and is not counted. -/
theorem begin_fence_poll (hm : s.drainedMask m ser upd f ≠ m.toNat) : s.begin (.fence m ser upd f) .poll =
    if s.drainedMask m ser upd f = 0 then s.answersLate t0 t1 ⟨1, false⟩ ⟨1, false⟩
    else s.emit [(t0, ⟨status 4 0 (s.drainedMask m ser upd f), false⟩), (t1, ⟨status 4 0 (s.drainedMask m ser upd f), false⟩)] := by
  have hsame (w : Wait) : (s.setWait s.fir.blk.cur w).drainedMask m ser upd f = s.drainedMask m ser upd f := rfl
  rw [h.begin_poll_of_not rfl (h.evalWait_fence_not hm _), (h.waits _).expireNow_fence (Deadline.wait_on ..), hsame]
  split
  · exact h.finish_late (st := status 1 0 0) rfl (codeOf_status (by decide) ..)
  · exact h.finish_kept rfl (.inl (codeOf_status (by decide) ..))

end Fence

end State.Issues
end Begin

/-! ### Operands and deadlines at issue (05 R112) -/

section Exec
variable {s : State} {sl : Slot} {t0 t1 : Cons} {c : FlagCond} {sc : Scope} {sx : Bool} {sz : Size} {x : Nat}

theorem State.pAB_eq_false : s.pAB = false ↔ s.opA.poison = false ∧ s.opB.poison = false := by simp [State.pAB]
theorem State.withDeadline_poison {f : Deadline → State} {t : Token} (hp : t.poison = true) :
    s.withDeadline t f = s.slotFault 4 0 3 0 := by
  rw [State.withDeadline, if_pos hp, State.poisonFault, useDeadline]
theorem State.withDeadline_illegal {f : Deadline → State} {t : Token} (hp : t.poison = false) (hd : s.deadline t.val = .illegal) :
    s.withDeadline t f = s.slotFault 6 0x0C6 t.val 0 := by
  simp [State.withDeadline, hp, hd]
theorem State.withDeadline_legal {f : Deadline → State} {t : Token} (hp : t.poison = false) (hd : s.deadline t.val ≠ .illegal) :
    s.withDeadline t f = f (s.deadline t.val) := by
  simp only [State.withDeadline, hp, Bool.false_eq_true, if_false]
theorem Deadline.ne_illegal_of_at {d : Deadline} (h : d = .at x) : d ≠ .illegal := by simp [h]
theorem Deadline.ne_illegal_of_poll {d : Deadline} (h : d = .poll) : d ≠ .illegal := by simp [h]

/-! Each form in full, and what it begins with legal operands. -/

theorem exec_waitf : exec (.waitf c t0 t1) s = if s.opA.poison then .next (s.slotFault 4 0 7 0)
    else .next (s.withDeadline s.opB fun d =>
      if 2 ^ 32 ≤ s.a.toNat then s.slotFault 6 0x030 s.a 0 else s.begin (.flag c s.aw) d) := by
  show execWaitf c t0 t1 s = _
  simp only [← bitsN_ne_zero_iff s.a (lo := 32) (by decide)]
  rfl
theorem exec_kwait : exec (.kwait t0 t1) s = if s.opB.poison then .next (s.slotFault 4 0 7 0)
    else if 128 ≤ s.b.toNat then .next (s.slotFault 6 0x030 s.b 0)
    else .next (s.withDeadline s.opA fun d => s.begin (.kwait (s.b.setWidth 7)) d) := by
  show execKwait t0 t1 s = _
  have hrange : bitsN s.b 63 7 ≠ 0 ↔ 128 ≤ s.b.toNat := bitsN_ne_zero_iff s.b (by decide)
  simp only [← hrange, ← BitVec.ofNat_toNat]
  rfl
theorem exec_kevq : exec (.kevq t0 t1) s = .next (s.withDeadline s.opA fun d => s.begin .kevq d) := rfl
theorem exec_ld_host : exec (.ld .host sx sz t0 t1) s = if s.opA.poison then .next (s.slotFault 4 0 0 0)
    else if 64 ≤ s.a.toNat then .next (s.slotFault 6 0x030 s.a 0)
    else if !s.hostGiven (s.a.setWidth 6) 1 then .next (s.slotFault 5 dCHAN s.a 0)
    else .next (s.withDeadline s.opB fun d => s.begin (.host (s.a.setWidth 6)) d) := by
  show loadHost s = _
  have hrange : bitsN s.a 63 6 ≠ 0 ↔ 64 ≤ s.a.toNat := bitsN_ne_zero_iff s.a (by decide)
  simp only [← hrange, ← BitVec.ofNat_toNat]
  rfl
theorem exec_join : exec (.join t0 t1) s = if s.opA.poison then .next (s.slotFault 4 0 7 0)
    else .next (s.withDeadline s.opB fun d =>
      if 64 ≤ s.a.toNat then s.slotFault 6 0x030 s.a 0
      else if !(s.ctx.sync.children.getD s.a.toNat {}).isOpen then s.finish s.fir.blk.cur (fault 0x090 s.a.toNat) false false mkStatus
      else s.begin (.join (s.a.setWidth 6)) d) := by
  show execJoin t0 t1 s = _
  have hrange : bitsN s.a 63 6 ≠ 0 ↔ 64 ≤ s.a.toNat := bitsN_ne_zero_iff s.a (by decide)
  simp only [← hrange, ← BitVec.ofNat_toNat]
  rfl

section Legal
variable (hp : s.pAB = false)
include hp

theorem exec_waitf_of_legal (hd : s.deadline s.b ≠ .illegal) : exec (.waitf c t0 t1) s =
    .next (if 2 ^ 32 ≤ s.a.toNat then s.slotFault 6 0x030 s.a 0 else s.begin (.flag c s.aw) (s.deadline s.b)) := by
  obtain ⟨hpa, hpb⟩ := State.pAB_eq_false.mp hp
  rw [exec_waitf, hpa, if_neg Bool.false_ne_true, State.withDeadline_legal hpb hd]
  rfl
theorem exec_waitf_begins (hd : s.deadline s.b ≠ .illegal) (ha : s.a.toNat < 2 ^ 32) :
    exec (.waitf c t0 t1) s = .next (s.begin (.flag c s.aw) (s.deadline s.b)) := by
  rw [exec_waitf_of_legal hp hd, if_neg (Nat.not_le.mpr ha)]
theorem exec_kwait_begins (hd : s.deadline s.a ≠ .illegal) (hb : s.b.toNat < 128) :
    exec (.kwait t0 t1) s = .next (s.begin (.kwait (s.b.setWidth 7)) (s.deadline s.a)) := by
  obtain ⟨hpa, hpb⟩ := State.pAB_eq_false.mp hp
  rw [exec_kwait, hpb, if_neg Bool.false_ne_true, if_neg (Nat.not_le.mpr hb),
    State.withDeadline_legal hpa hd]
  rfl
theorem exec_ld_host_begins (hd : s.deadline s.b ≠ .illegal) (ha : s.a.toNat < 64) (hg : s.hostGiven (s.a.setWidth 6) 1 = true) :
    exec (.ld .host sx sz t0 t1) s = .next (s.begin (.host (s.a.setWidth 6)) (s.deadline s.b)) := by
  obtain ⟨hpa, hpb⟩ := State.pAB_eq_false.mp hp
  rw [exec_ld_host, hpa, if_neg Bool.false_ne_true, if_neg (Nat.not_le.mpr ha), hg,
    Bool.not_true, if_neg Bool.false_ne_true, State.withDeadline_legal hpb hd]
  rfl
theorem exec_join_of_legal (hd : s.deadline s.b ≠ .illegal) : exec (.join t0 t1) s = .next (
    if 64 ≤ s.a.toNat then s.slotFault 6 0x030 s.a 0
    else if !(s.ctx.sync.children.getD s.a.toNat {}).isOpen then s.finish s.fir.blk.cur (fault 0x090 s.a.toNat) false false mkStatus
    else s.begin (.join (s.a.setWidth 6)) (s.deadline s.b)) := by
  obtain ⟨hpa, hpb⟩ := State.pAB_eq_false.mp hp
  rw [exec_join, hpa, if_neg Bool.false_ne_true, State.withDeadline_legal hpb hd]
  rfl
theorem exec_join_begins (hd : s.deadline s.b ≠ .illegal) (ha : s.a.toNat < 64)
    (ho : (s.ctx.sync.children.getD s.a.toNat {}).isOpen = true) :
    exec (.join t0 t1) s = .next (s.begin (.join (s.a.setWidth 6)) (s.deadline s.b)) := by
  rw [exec_join_of_legal hp hd, if_neg (Nat.not_le.mpr ha), ho, Bool.not_true,
    if_neg Bool.false_ne_true]

end Legal

theorem exec_kevq_begins (hp : s.opA.poison = false) (hd : s.deadline s.a ≠ .illegal) :
    exec (.kevq t0 t1) s = .next (s.begin .kevq (s.deadline s.a)) := by
  rw [exec_kevq, State.withDeadline_legal hp hd]; rfl

/-! FENCE: what it hands over and the before-set that it waits for (04 R100, R107). -/

/-- The FENCE is a close of its scope. -/
def State.fenceCloses (s : State) : Bool := (s.a.setWidth 6).getLsbD 4 && (s.fixedSeen || hdrFix s.fir.blk.hdr)
/-- The state in which its close, if it is one, has been handed over. -/
def State.closeHandedOver (s : State) (sc : Scope) : State :=
  if s.fenceCloses then s.onCtx fun c => { c with
    lq := c.lq ++ [{ slot := s.fir.blk.cur, ins := .fence sc none none, a := s.opA, ser := s.ctx.ser, fir := s.fir.id
                     blk := s.fir.blk.addr }] } else s
/-- Where in its scope it acts, and the stream accesses that are held as it issues. -/
def State.fenceAt (s : State) (sc : Scope) : FenceAt :=
  ⟨BitVec.ofNat 4 sc.enc, bitsN s.a 16 8,
    (s.ctx.streams.toList.zip (List.range 32)).filterMap fun y => y.1.hold.map fun _ => (y.2, y.1.k), s.fenceCloses⟩

theorem State.closeHandedOver_fir (s : State) (sc : Scope) : (s.closeHandedOver sc).fir = s.fir := by
  unfold State.closeHandedOver
  split <;> rfl
theorem State.Issues.closeHandedOver {i : Instr} (h : s.Issues sl i t0 t1) (sc : Scope) : (s.closeHandedOver sc).Issues sl i t0 t1 := by
  unfold State.closeHandedOver
  split
  · exact ⟨h.slot, h.log, h.dec, h.cons⟩
  · exact h
theorem exec_fence (hw : s.who = .core) : exec (.fence sc t0 t1) s = if s.opA.poison then .next (s.slotFault 4 0 7 0)
    else .next (s.withDeadline s.opB fun d => if !fenceOk sc s.a then s.slotFault 6 0x030 s.a 0
      else (s.closeHandedOver sc).begin (.fence (s.a.setWidth 6) s.ctx.ser s.dev.nextUpd (s.fenceAt sc)) d) := by
  have hcloses : ((s.opA.val.setWidth 6).getLsbD 4 && (s.fixedSeen || hdrFix s.fir.blk.hdr)) = s.fenceCloses := rfl
  show execFence sc t0 t1 s = _
  simp only [execFence, hw, hcloses, State.closeHandedOver, State.fenceAt]
  cases s.fenceCloses <;> rfl
theorem exec_fence_of_legal (hw : s.who = .core) (hp : s.pAB = false) (hd : s.deadline s.b ≠ .illegal) :
    exec (.fence sc t0 t1) s = .next (
    if !fenceOk sc s.a then s.slotFault 6 0x030 s.a 0
    else (s.closeHandedOver sc).begin (.fence (s.a.setWidth 6) s.ctx.ser s.dev.nextUpd (s.fenceAt sc)) (s.deadline s.b)) := by
  obtain ⟨hpa, hpb⟩ := State.pAB_eq_false.mp hp
  rw [exec_fence hw, hpa, if_neg Bool.false_ne_true, State.withDeadline_legal hpb hd]
  rfl

end Exec

/-- Settles O40: a form with legal operands begins its wait (`exec_waitf_begins` and its like), and what it awaits tells whether it
returns or pends (`State.Issues.begin_flag_holds` and its like). -/
theorem waitsReturnOrPend : Obligations.WaitsReturnOrPend := by
  intro s c sc x sl t0 t1 k pend ret late stop hlog hsl
  have hissues {i : Instr} (hdec : decode sl.word = .ok i) (hcons : instrCons i = [t0, t1]) : s.Issues sl i t0 t1 :=
    ⟨hsl, hlog, hdec, hcons⟩
  refine ⟨fun hdec => ?waitf, fun hdec => ?kwaitStops, fun hdec hp hd => ?kwait, fun hdec => ?kevqStops,
    fun hdec hp hd hbelow heffs => ?kevq, fun sx sz hdec => ?hostStops, fun sx sz hdec hp hd => ?host,
    fun hdec => ?joinStops, fun hdec hp hd => ?join, fun hdec hw => ?fenceStops, fun hdec hw hp hd => ?fence⟩
  case waitf =>
    have hi := hissues hdec rfl
    refine ⟨fun hpa => by rw [exec_waitf, if_pos hpa], fun hpa hpb => ?_, fun hp hd => ?_, fun hp hd ha => ?_, fun hp ha =>
      ⟨fun hf hd => ?_, fun hf => ⟨fun hd => ?_, fun hd => ?_⟩⟩⟩
    · rw [exec_waitf, hpa, if_neg Bool.false_ne_true, State.withDeadline_poison hpb]
    · obtain ⟨hpa, hpb⟩ := State.pAB_eq_false.mp hp
      rw [exec_waitf, hpa, if_neg Bool.false_ne_true, State.withDeadline_illegal hpb hd]
      rfl
    · rw [exec_waitf_of_legal hp (Deadline.ne_illegal_of_at hd), if_pos ha]
    · rw [exec_waitf_begins hp hd ha, hi.begin_flag_holds hf]
      rfl
    · rw [exec_waitf_begins hp (Deadline.ne_illegal_of_at hd) ha, hd, State.begin_at_of_not (hi.evalWait_flag_not hf _)]
    · rw [exec_waitf_begins hp (Deadline.ne_illegal_of_poll hd) ha, hd, hi.begin_flag_late hf]
      rfl
  case kwaitStops =>
    refine ⟨fun hpb => by rw [exec_kwait, if_pos hpb]; rfl, fun hpb hpa hb => ?_, fun hp hd hb hr => ?_⟩
    · rw [exec_kwait, hpb, if_neg Bool.false_ne_true, if_neg (Nat.not_le.mpr hb),
        State.withDeadline_poison hpa]
      rfl
    · rw [exec_kwait_begins hp (Deadline.ne_illegal_of_poll hd) hb, hd,
        (hissues hdec rfl).begin_kwait_late (by rwa [toNat_setWidth_of_lt hb])]
      rfl
  case kwait =>
    have hi := hissues hdec rfl
    have hlegal := Deadline.ne_illegal_of_at hd
    refine ⟨fun hb => ?_, fun hb => ⟨fun r hr => ?_, fun hr => ?_⟩⟩
    · rw [exec_kwait, (State.pAB_eq_false.mp hp).2, if_neg Bool.false_ne_true, if_pos hb]
    · rw [exec_kwait_begins hp hlegal hb, hi.begin_kwait_holds (r := r) (by rwa [toNat_setWidth_of_lt hb])]
      rfl
    · rw [exec_kwait_begins hp hlegal hb, hd, State.begin_at_of_not (hi.evalWait_kwait_not (by rwa [toNat_setWidth_of_lt hb]) _)]
  case kevqStops =>
    refine ⟨fun hpa => by rw [exec_kevq, State.withDeadline_poison hpa]; rfl, fun hpa hd hq => ?_⟩
    rw [exec_kevq_begins hpa (Deadline.ne_illegal_of_poll hd), hd, (hissues hdec rfl).begin_kevq_late hq]
    rfl
  case kevq =>
    have hi := hissues hdec rfl
    rw [exec_kevq_begins hp (Deadline.ne_illegal_of_at hd)]
    refine ⟨fun hq => ?_, fun r l hq => ?_⟩
    · rw [hd, State.begin_at_of_not (hi.evalWait_kevq_not hq _)]
    · rw [hi.begin_kevq_holds (State.unclaimed_kevq hbelow heffs) hq]
      rfl
  case hostStops =>
    refine ⟨fun hpa => by rw [exec_ld_host, if_pos hpa]; rfl, fun hpa ha hg => ⟨fun hpb => ?_, fun hpb hd hr => ?_⟩⟩
    · rw [exec_ld_host, hpa, if_neg Bool.false_ne_true, if_neg (Nat.not_le.mpr ha), hg,
        Bool.not_true, if_neg Bool.false_ne_true, State.withDeadline_poison hpb]
      rfl
    · rw [exec_ld_host_begins (State.pAB_eq_false.mpr ⟨hpa, hpb⟩) (Deadline.ne_illegal_of_poll hd) ha hg, hd,
        (hissues hdec rfl).begin_host_late (by rwa [toNat_setWidth_of_lt ha])]
      rfl
  case host =>
    have hi := hissues hdec rfl
    have hpa := (State.pAB_eq_false.mp hp).1
    refine ⟨fun ha => ?_, fun ha hg => ?_, fun ha hg hbelow heffs => ?_⟩
    · rw [exec_ld_host, hpa, if_neg Bool.false_ne_true, if_pos ha]
    · rw [exec_ld_host, hpa, if_neg Bool.false_ne_true, if_neg (Nat.not_le.mpr ha), hg,
        Bool.not_false, if_pos rfl]
    · rw [exec_ld_host_begins hp (Deadline.ne_illegal_of_at hd) ha hg]
      refine ⟨fun hr => ?_, fun v w l hr hctrl => ?_⟩
      · rw [hd, State.begin_at_of_not (hi.evalWait_host_not (by rwa [toNat_setWidth_of_lt ha]) _)]
      · rw [hi.begin_host_holds (State.unclaimed_hostLoad hbelow heffs) (by rwa [toNat_setWidth_of_lt ha]) hctrl, toNat_setWidth_of_lt ha,
          setWidth_setWidth_of_lt ha]
        rfl
  case joinStops =>
    refine ⟨fun hpa => by rw [exec_join, if_pos hpa]; rfl, fun hpa hpb => ?_, fun hp hd ha ho hst => ?_⟩
    · rw [exec_join, hpa, if_neg Bool.false_ne_true, State.withDeadline_poison hpb]
      rfl
    · rw [exec_join_begins hp (Deadline.ne_illegal_of_poll hd) ha ho, hd,
        (hissues hdec rfl).begin_join_late (by rwa [toNat_setWidth_of_lt ha])]
      rfl
  case join =>
    have hi := hissues hdec rfl
    have hlegal := Deadline.ne_illegal_of_at hd
    intro h
    refine ⟨fun ha => ?_, fun ha => ⟨fun ho => ?_, fun ho hst => ?_, fun st ho hst hc => ?_, fun st ho hst hc => ?_⟩⟩
    · rw [exec_join_of_legal hp hlegal, if_pos ha]
    · have hclosed : (s.ctx.sync.children.getD s.a.toNat {}).isOpen = false := ho
      rw [exec_join_of_legal hp hlegal, if_neg (Nat.not_le.mpr ha), hclosed, Bool.not_false,
        if_pos rfl]
      exact congrArg Host.Outcome.next (hi.finish_raw (mk := mkStatus) rfl (.inr (codeOf_status (by decide) ..)))
    · rw [exec_join_begins hp hlegal ha ho, hd, State.begin_at_of_not (hi.evalWait_join_not (by rwa [toNat_setWidth_of_lt ha]) _)]
    · rw [exec_join_begins hp hlegal ha ho, hi.begin_join_holds (by rwa [toNat_setWidth_of_lt ha]) hc, setWidth_setWidth_of_lt ha]
      rfl
    · rw [exec_join_begins hp hlegal ha ho, hi.begin_join_fault (by rwa [toNat_setWidth_of_lt ha]) hc]
  case fenceStops =>
    refine ⟨fun hpa => by rw [exec_fence hw, if_pos hpa]; rfl, fun hpa hpb => ?_⟩
    rw [exec_fence hw, hpa, if_neg Bool.false_ne_true, State.withDeadline_poison hpb]
    rfl
  case fence =>
    have hi := (hissues hdec rfl).closeHandedOver sc
    refine ⟨fun hok => ?_, fun hok => ?_⟩
    · rw [exec_fence_of_legal hw hp hd, hok, Bool.not_false, if_pos rfl]
    · rw [exec_fence_of_legal hw hp hd, hok, Bool.not_true, if_neg Bool.false_ne_true]
      intro m close u f on w d
      refine ⟨fun hm hd => ?_, fun hm hd => ?_, fun hm => ?_⟩
      · rw [hd]
        refine congrArg Host.Outcome.next ((State.begin_at_of_not (hi.evalWait_fence_not hm _)).trans ?_)
        rw [State.closeHandedOver_fir]
        rfl
      · rw [hd]
        exact (congrArg Host.Outcome.next (hi.begin_fence_poll hm)).trans (apply_ite Host.Outcome.next _ _ _)
      · exact congrArg Host.Outcome.next (hi.begin_fence_holds hm)

/-! ### A block whose one wait is pending (05 R111, R115) -/

/-- A block without faults of a running context in which slot `k` alone waits. -/
structure State.WaitsAlone (s : State) (k : Nat) (w : Wait) (sl : Slot) : Prop extends s.Waits k w sl where
  run : s.fir.phase = .run
  runs : s.runs = true
  sound : s.fir.blk.faulted = false
  alone : ∀ i y, s.fir.blk.slots[i]? = some y → i ≠ k → y.wait = none

namespace State.WaitsAlone
variable {s : State} {k x : Nat} {w : Wait} {sl : Slot} (h : s.WaitsAlone k w sl)
include h

theorem waiting_eq : s.fir.blk.waiting = [k] := by
  refine filter_range_eq_singleton (List.getElem?_eq_some_iff.mp h.slot).1 fun i hi => ?_
  by_cases hik : i = k
  · subst hik
    simp [h.bind_wait, h.sound]
  · have hnone : (s.fir.blk.slots[i]?).bind (·.wait) = none := by
      rw [List.getElem?_eq_getElem hi]
      exact h.alone i _ (List.getElem?_eq_getElem hi) hik
    simp [hnone, hik]
/-- WAIT_EVALUATION evaluates that wait. -/
theorem exec_waitEvaluation : exec .waitEvaluation s = .next ((s.evalWait k).getD s) := by
  obtain ⟨hpresent, hstopped⟩ : s.ctx.id.present = true ∧ s.ctx.stopped = false := by simpa [State.runs] using h.runs
  have hsaving : s.ctx.csr.saving = false := (Bool.or_eq_false_iff.mp hstopped).2
  have hfirst : s.firstReturn [k] = s.evalWait k := by
    simp only [State.firstReturn]
    split <;> simp [*]
  show execWaitEvaluation s = _
  simp [execWaitEvaluation, h.run, hpresent, hsaving, State.evaluated, hstopped, h.waiting_eq, hfirst]

/-- 16 cycles after the expiry point its end has been detected, whatever the lag. -/
theorem exec_deadlineExpiry_due (hx : w.expiry = some x) (hr : w.on.isReply = false) (hdue : x + 16 ≤ s.ctx.csr.budget.toNat) :
    exec .deadlineExpiry s = .next (s.expireWait k) := by
  have hlag : x + Config.lag s.freeCtr % 17 ≤ s.ctx.csr.budget.toNat := by omega
  have hslot : s.fir.blk.dueSlot s.ctx (Config.lag s.freeCtr) = some k := by
    rw [Block.dueSlot, h.sound, if_neg Bool.false_ne_true, firstIdx_eq_of_unique h.slot, Nat.zero_add]
    · simp [h.wait, hx, hr, Ctx.dueAt, hlag]
    · intro i y hy hik
      simp [h.alone i y hy hik]
  show execDeadlineExpiry s = _
  simp [execDeadlineExpiry, h.runs, h.run, hslot]
/-- Before the expiry point only sends can expire. -/
theorem exec_deadlineExpiry_early (hx : w.expiry = some x) (hearly : s.ctx.csr.budget.toNat < x) :
    ∃ l, exec .deadlineExpiry s = .next (s.onCtx fun c => { c with sends := l }) := by
  have hlag : ¬x + Config.lag s.freeCtr % 17 ≤ s.ctx.csr.budget.toNat := by omega
  have hslot : s.fir.blk.dueSlot s.ctx (Config.lag s.freeCtr) = none := by
    rw [Block.dueSlot, h.sound, if_neg Bool.false_ne_true]
    refine firstIdx_eq_none (fun y hy => ?_) 0
    obtain ⟨i, hi⟩ := List.mem_iff_getElem?.mp hy
    by_cases hik : i = k
    · obtain rfl : sl = y := Option.some.inj (h.slot.symm.trans (hik ▸ hi))
      simp [h.wait, hx, Ctx.dueAt, hlag]
    · simp [h.alone i y hi hik]
  show ∃ l, execDeadlineExpiry s = _
  simp only [execDeadlineExpiry, h.runs, h.run, hslot, Bool.not_true, Bool.false_eq_true, if_false, if_true]
  exact ⟨_, rfl⟩

end State.WaitsAlone

/-- Settles O41: both rows act on the one pending wait; what it awaits tells whether it returns, and what it returns at expiry. -/
theorem waitsEndByConditionOrDeadline : Obligations.WaitsEndByConditionOrDeadline := by
  intro s k x w sl t0 t1 hrun hruns hsound hlog hsl hwait hx hpoll halone n thr op both
  have h : s.WaitsAlone k w sl := ⟨⟨hsl, hwait, hlog⟩, hrun, hruns, hsound, halone⟩
  have hF : s.fir.flags.toNat < 2 ^ 48 := s.fir.flags.isLt.trans (by decide)
  have hstatus {i : Instr} (hdec : decode sl.word = .ok i) (hcons : instrCons i = [t0, t1]) (st : Word) :
      mkStatus sl st = [(t0, ⟨st, false⟩), (t1, ⟨st, false⟩)] := twoTokens_eq hdec hcons _ _
  refine ⟨fun c m hon hdec => ⟨fun hf => ?_, fun hf => ?_, fun hdue hf => ?_⟩, fun hearly => ?_, fun ref key m p hon hdue hp => ?_,
    fun sc m ser upd f hon hdec hdue hne hsome => ?_⟩
  · rw [h.exec_waitEvaluation, h.evalWait_flag hon, hf]
    rfl
  · rw [h.exec_waitEvaluation, h.evalWait_flag hon, hf, if_pos rfl, Option.getD_some,
      State.finish_ok hsl hlog (codeOf_status (by decide) ..), hstatus hdec rfl]
    rfl
  · have hnot : s.evalWait k = none := (h.evalWait_flag hon).trans (if_neg (Bool.eq_false_iff.mp hf))
    have hexpire : s.expireNow k w = s.finish k (status 1 0 s.fir.flags.toNat) false true mkStatus := by
      simp only [State.expireNow, hon, hpoll]
      rfl
    have hcode : codeOf (status 1 0 s.fir.flags.toNat) = 1 := codeOf_status (by decide) ..
    rw [h.exec_deadlineExpiry_due hx (by rw [hon]; rfl) hdue, h.expireWait_eq hnot, hexpire]
    refine ⟨fun hless => ?_, fun hne hle => ?_⟩
    · rw [State.finish_timeout hsl hlog hcode hless, hstatus hdec rfl]
      rfl
    · rw [State.finish_escalated hsl hlog hcode hne hle, hstatus hdec rfl, status_payload (by decide) hF, BitVec.ofNat_toNat]
      rfl
  · obtain ⟨l, hl⟩ := h.exec_deadlineExpiry_early hx hearly
    exact ⟨_, hl, rfl, rfl, rfl⟩
  · rw [h.exec_deadlineExpiry_due hx (by rw [hon]; rfl) hdue, h.expireWait_eq (h.evalWait_barrier hon hp)]
    simp only [State.expireNow, hon]
  · have hnot : s.evalWait k = none := (h.evalWait_fence hon).trans (if_neg hne)
    rw [h.exec_deadlineExpiry_due hx (by rw [hon]; rfl) hdue, h.expireWait_eq hnot, h.expireNow_fence hon, if_neg hsome,
      State.finish_kept hsl hlog (.inl (codeOf_status (by decide) ..)), hstatus hdec rfl]
    rfl

end Sys2Proof.Machine
end

-- ==== Proofs of the encoding family: words and the instructions they stand for ====
section
/-! Decoding and encoding are inverse (06 R143, R144; 07 R154 to R163). That the word of an instruction decodes to it is a law of each
form (Laws/PerInstr.lean). The converse goes by the tables of the decoder: each row accepts no word but that of the instruction it
reads (`Row.ReadsBack`), first for the kinds of rows, then for the rows of one cell, then for the table of each class. -/

namespace Sys2Proof
open Laws

/-- The word of every instruction that has one decodes to it: one law a form; a step without a word is not well formed. -/
theorem decode_encode (i : Instr) : Encoding.Statement i := by
  cases i with
  | ill => exact Encoding.ill | add => exact Encoding.add _ _ _ | sub => exact Encoding.sub _ _ _
  | addi => exact Encoding.addi _ _ | mul => exact Encoding.mul _ _ _ | mulh => exact Encoding.mulh _ _ _
  | mulhn => exact Encoding.mulhn _ _ _ | div => exact Encoding.div _ _ _ | divn => exact Encoding.divn _ _ _
  | rem => exact Encoding.rem _ _ _ | remn => exact Encoding.remn _ _ _ | and => exact Encoding.and _ _
  | or => exact Encoding.or _ _ | xor => exact Encoding.xor _ _ | andn => exact Encoding.andn _ _
  | shl => exact Encoding.shl _ _ _ | shr => exact Encoding.shr _ _ _ | sar => exact Encoding.sar _ _ _
  | min => exact Encoding.min _ _ _ | max => exact Encoding.max _ _ _ | minn => exact Encoding.minn _ _ _
  | maxn => exact Encoding.maxn _ _ _ | clz => exact Encoding.clz _ _ _ | popc => exact Encoding.popc _ _ _
  | sext => exact Encoding.sext _ _ _ | zext => exact Encoding.zext _ _ _ | ceq => exact Encoding.ceq _ _ _
  | cne => exact Encoding.cne _ _ _ | clt => exact Encoding.clt _ _ _ | cltn => exact Encoding.cltn _ _ _
  | cle => exact Encoding.cle _ _ _ | clen => exact Encoding.clen _ _ _ | sel => exact Encoding.sel _ _ _
  | movi => exact Encoding.movi _ _ | constw => exact Encoding.constw _ _ _ | constd => exact Encoding.constd _ _
  | read => exact Encoding.read _ _ | write => exact Encoding.write _ | fan => exact Encoding.fan _ _
  | null => exact Encoding.null _ _ | lea => exact Encoding.lea _ _ _ | br => exact Encoding.br | bri => exact Encoding.bri _
  | call => exact Encoding.call _ _ | ret => exact Encoding.ret | retire => exact Encoding.retire
  | vadd => exact Encoding.vadd _ _ _ _ _ | vsub => exact Encoding.vsub _ _ _ _ _ | vmul => exact Encoding.vmul _ _ _ _ _
  | vfma => exact Encoding.vfma _ _ _ _ _ | vmin => exact Encoding.vmin _ _ _ _ _ | vmax => exact Encoding.vmax _ _ _ _ _
  | vabs => exact Encoding.vabs _ _ _ _ | vneg => exact Encoding.vneg _ _ _ _ | vand => exact Encoding.vand _ _ _ _
  | vor => exact Encoding.vor _ _ _ _ | vxor => exact Encoding.vxor _ _ _ _ | vshl => exact Encoding.vshl _ _ _ _
  | vshr => exact Encoding.vshr _ _ _ _ | vsar => exact Encoding.vsar _ _ _ _ | vcmp => exact Encoding.vcmp _ _ _ _ _ _
  | vsel => exact Encoding.vsel _ _ _ _ | vcvt => exact Encoding.vcvt _ _ _ _ _ | vqnt => exact Encoding.vqnt _ _ _ _ _
  | vdqnt => exact Encoding.vdqnt _ _ _ _ _ | vrcp => exact Encoding.vrcp _ _ _ | vrsq => exact Encoding.vrsq _ _ _
  | vexp2 => exact Encoding.vexp2 _ _ _ | vlog2 => exact Encoding.vlog2 _ _ _ | vperm => exact Encoding.vperm _ _ _ _
  | vbfly => exact Encoding.vbfly _ _ _ _ _ | vred => exact Encoding.vred _ _ _ _ | vscan => exact Encoding.vscan _ _ _ _ _
  | vsmxa => exact Encoding.vsmxa _ _ _ _ | vsmxn => exact Encoding.vsmxn _ _ _ _ | vstat => exact Encoding.vstat _ _ _ _
  | vsplat => exact Encoding.vsplat _ _ _ | vmovs => exact Encoding.vmovs _ _ _ | vins => exact Encoding.vins _ _ _ _
  | vlane => exact Encoding.vlane _ _ | vmov => exact Encoding.vmov _ _ _ | sett => exact Encoding.sett _ _ _ _ _
  | mregion => exact Encoding.mregion _ | mfmt => exact Encoding.mfmt _ | mwld => exact Encoding.mwld _
  | mswap => exact Encoding.mswap _ | mstep => exact Encoding.mstep _ | macc => exact Encoding.macc _
  | mdrain => exact Encoding.mdrain _ | mzero => exact Encoding.mzero _ | mstat => exact Encoding.mstat _ _ _
  | mfree => exact Encoding.mfree _ | cload => exact Encoding.cload _ | cfire => exact Encoding.cfire _
  | cpatch => exact Encoding.cpatch _ | cmcast => exact Encoding.cmcast _ | cevict => exact Encoding.cevict _
  | cstat => exact Encoding.cstat _ _ _ | cweight => exact Encoding.cweight _ | chang => exact Encoding.chang _
  | cfreeze => exact Encoding.cfreeze _ | cthaw => exact Encoding.cthaw _ | sbind => exact Encoding.sbind _
  | sfree => exact Encoding.sfree _ | squery => exact Encoding.squery _ _ _ _ | ld => exact Encoding.ld _ _ _ _ _
  | st => exact Encoding.st _ _ _ _ | ldv => exact Encoding.ldv _ _ _ _ | stv => exact Encoding.stv _ _ _ _
  | ldg => exact Encoding.ldg _ _ _ | sts => exact Encoding.sts _ _ _ | agen => exact Encoding.agen _
  | astart => exact Encoding.astart _ | astop => exact Encoding.astop _ | abar => exact Encoding.abar
  | ldw => exact Encoding.ldw _ | tlook => exact Encoding.tlook _ _ | tset => exact Encoding.tset | tclr => exact Encoding.tclr
  | amo => exact Encoding.amo _ _ _ _ | amov => exact Encoding.amov _ _ _ _ | cas => exact Encoding.cas _ _ _
  | pxform => exact Encoding.pxform _ | pmerge => exact Encoding.pmerge _ | ringdef => exact Encoding.ringdef _
  | ringstat => exact Encoding.ringstat _ _ _ | resume => exact Encoding.resume | kcopy => exact Encoding.kcopy _ _
  | kgath => exact Encoding.kgath _ _ | kscat => exact Encoding.kscat _ _ | kred => exact Encoding.kred _ _ _
  | kport => exact Encoding.kport _ | ksend => exact Encoding.ksend _ _ _ _ | krecv => exact Encoding.krecv _ _ _
  | kpoll => exact Encoding.kpoll _ _ _ | kcoll => exact Encoding.kcoll _ _ _ | kwait => exact Encoding.kwait _ _
  | kevq => exact Encoding.kevq _ _ | kcancel => exact Encoding.kcancel | kstat => exact Encoding.kstat _ _
  | bari => exact Encoding.bari _ | bara => exact Encoding.bara _ _ | barw => exact Encoding.barw _ _
  | baraw => exact Encoding.baraw _ _ | bard => exact Encoding.bard _ _ | bart => exact Encoding.bart _ _
  | fence => exact Encoding.fence _ _ _ | dput => exact Encoding.dput _ | dget => exact Encoding.dget _
  | waitf => exact Encoding.waitf _ _ _ | setf => exact Encoding.setf _ | clrf => exact Encoding.clrf _
  | qwait => exact Encoding.qwait _ _ | qstat => exact Encoding.qstat _ _ _ _ | spawn => exact Encoding.spawn _ _ _
  | join => exact Encoding.join _ _ | kill => exact Encoding.kill _ | yield => exact Encoding.yield
  | trap => exact Encoding.trap _ | tret => exact Encoding.tret | csrr => exact Encoding.csrr _ _
  | csrw => exact Encoding.csrw _ | csrx => exact Encoding.csrx _ _ | logm => exact Encoding.logm _
  | ctxsave => exact Encoding.ctxsave | ctxload => exact Encoding.ctxload | spinv => exact Encoding.spinv
  | tlbinv => exact Encoding.tlbinv | keysel => exact Encoding.keysel | escal => exact Encoding.escal _
  | brk => exact Encoding.brk | perf => exact Encoding.perf _ _ _
  | _ => exact fun h => nomatch h

/-- Settles O1: the law of each form. -/
theorem encodedInstructionsDecodeBack : Obligations.EncodedInstructionsDecodeBack := decode_encode

/-- Settles O3: each word is evaluated. -/
theorem sampleWordsDecode : Obligations.SampleWordsDecode := by
  unfold Obligations.SampleWordsDecode
  exact ⟨rfl, rfl, rfl, rfl, rfl, rfl, rfl, rfl, rfl, rfl, rfl, rfl, rfl, rfl, rfl⟩

/-! ### The fields of a word make the word again (06 R143) -/

theorem wordD_fields (w : Half) : wordD (fCls w) (fOp w) (fMod w) (fT1 w) (fT0 w) = w := by
  apply BitVec.eq_of_toNat_eq
  simp only [wordD, fixedPart, fCls, fOp, fMod, fT1, fT0, BitVec.toNat_ofNat]; omega
theorem wordI_fields (w : Half) : wordI (fCls w) (fOp w) (fImm w) (fT0 w) = w := by
  apply BitVec.eq_of_toNat_eq
  simp only [wordI, fixedPart, fCls, fOp, fImm, fT0, BitVec.toNat_ofNat]; omega
theorem wordG_fields (w : Half) : wordG (fCls w) (fOp w) (fGreg w) (fMod8 w) (fT0 w) = w := by
  apply BitVec.eq_of_toNat_eq
  simp only [wordG, fixedPart, fCls, fOp, fGreg, fMod8, fT0, BitVec.toNat_ofNat]; omega
theorem wordV_fields (w : Half) : wordV (fCls w) (fOp w) (fVD w) (fVA w) (fVB w) (fPipe w) (fVmod w) = w := by
  apply BitVec.eq_of_toNat_eq
  simp only [wordV, fixedPart, fCls, fOp, fVD, fVA, fVB, fPipe, fVmod, BitVec.toNat_ofNat]; omega
theorem wordVS_fields (w : Half) : wordVS (fCls w) (fOp w) (fVD w) (fSPipe w) (fVmod2 w) (fLane w) (fT0 w) = w := by
  apply BitVec.eq_of_toNat_eq
  simp only [wordVS, fixedPart, fCls, fOp, fVD, fSPipe, fVmod2, fLane, fT0, BitVec.toNat_ofNat]; omega

/-! ### What an accepted field was read from -/

/-- A consumer field that the decoder accepts is the field of what it reads (06 R144). -/
theorem cons_enc_dec {x : BitVec 9} {t : Cons} (h : Cons.dec x = .ok t) : t.enc = x := by
  have hpos : ∀ y : BitVec 2, (Pos.dec y).enc = y := by decide
  unfold Cons.dec at h
  split at h
  · next hv =>
    obtain rfl := Except.ok.inj h
    apply BitVec.eq_of_toNat_eq
    simp only [Cons.enc, hpos, BitVec.toNat_ofNat]; omega
  · split at h
    · next hz => obtain rfl := Except.ok.inj h; exact hz.symm
    · cases h
theorem csr_num_ofNum {n : Nat} {r : Csr} (h : Csr.ofNum n = some r) : r.num = n := by
  unfold Csr.ofNum at h
  split at h <;> cases h <;> rfl
theorem regSel_enc_dec {g : BitVec 6} {m : BitVec 8} {r : RegSel} (h : RegSel.dec g m = some r) : r.greg = g ∧ r.mod8 = m := by
  unfold RegSel.dec at h
  split at h
  · next hm => cases h; exact ⟨rfl, BitVec.eq_of_toNat_eq hm.symm⟩
  · next hm =>
    split at h
    · next hg => cases h; exact ⟨hg.symm, BitVec.eq_of_toNat_eq hm.symm⟩
    · cases h
  · next hm =>
    split at h
    · next hg =>
      cases h
      refine ⟨BitVec.eq_of_toNat_eq ?_, BitVec.eq_of_toNat_eq hm.symm⟩
      simp only [RegSel.greg, BitVec.toNat_ofNat]; omega
    · cases h
  · cases h

theorem except_bind_ok {ε α β : Type} {x : Except ε α} {f : α → Except ε β} {b : β} :
    (x >>= f) = .ok b ↔ ∃ a, x = .ok a ∧ f a = .ok b := by
  cases x with
  | error e => exact ⟨fun h => (nomatch h), fun ⟨_, h, _⟩ => nomatch h⟩
  | ok a => exact ⟨fun h => ⟨a, rfl, h⟩, fun ⟨_, h, hb⟩ => by cases h; exact hb⟩
theorem except_pure_ok {ε α : Type} {a b : α} : (pure a : Except ε α) = .ok b ↔ a = b :=
  ⟨Except.ok.inj, congrArg _⟩
theorem orMod_ok {α : Type} {o : Option α} {x : α} : orMod o = .ok x ↔ o = some x := by
  cases o <;> simp [orMod]
theorem resv_ok {b : Bool} {u : Unit} : resv b = .ok u ↔ b = true := by
  cases b <;> simp [resv]
theorem decScope_ok {n : Nat} {x : Scope} : decScope n = .ok x ↔ Scope.dec n = some x := by
  unfold decScope; cases Scope.dec n <;> simp

/-! ### Rows whose every accepted word is the word of what it reads -/

/-- Every word of cell `o` of class `c` that the row accepts is the word of a well-formed instruction, the one it reads. -/
def Row.ReadsBack (c o : Nat) (r : Row) : Prop :=
  ∀ w i, fCls w = c → fOp w = o → r w = .ok i → i.wf = true ∧ encode i = w

section
variable {α : Type} {c o : Nat}

theorem rowD_readsBack {md : BitVec 5 → Option α} {f : α → Cons → Cons → Instr} {e : α → BitVec 5}
    (he : ∀ m, ∀ x ∈ md m, e x = m)
    (hf : ∀ x t0 t1, md (e x) = some x → (f x t0 t1).wf = true ∧ encode (f x t0 t1) = eD c o (e x) t0 t1 := by
      exact fun _ _ _ _ => ⟨rfl, rfl⟩) :
    (rowD md f).ReadsBack c o := by
  rintro w i rfl rfl h
  simp only [rowD, except_bind_ok, except_pure_ok, orMod_ok] at h
  obtain ⟨t1, h1, t0, h0, x, hx, rfl⟩ := h
  have hm := he _ x hx
  obtain ⟨hwf, henc⟩ := hf x t0 t1 (hm ▸ hx)
  exact ⟨hwf, by rw [henc, eD, hm, cons_enc_dec h1, cons_enc_dec h0, wordD_fields]⟩
theorem rowDk_readsBack {k : Nat} {md : Nat → Option α} {f : α → Cons → Cons → Instr} {e : α → BitVec 5}
    (he : ∀ m : BitVec 5, m.toNat < 2 ^ k → ∀ x ∈ md m.toNat, e x = m)
    (hf : ∀ x t0 t1, (f x t0 t1).wf = true ∧ encode (f x t0 t1) = eD c o (e x) t0 t1 := by
      exact fun _ _ _ => ⟨rfl, rfl⟩) :
    (rowDk k md f).ReadsBack c o := by
  rintro w i rfl rfl h
  simp only [rowDk, except_bind_ok, except_pure_ok, orMod_ok, resv_ok, decide_eq_true_eq] at h
  obtain ⟨t1, h1, t0, h0, _, hk, x, hx, rfl⟩ := h
  obtain ⟨hwf, henc⟩ := hf x t0 t1
  exact ⟨hwf, by rw [henc, eD, he _ hk x hx, cons_enc_dec h1, cons_enc_dec h0, wordD_fields]⟩
theorem rowN_readsBack {md : BitVec 5 → Option α} {f : α → Instr} {e : α → BitVec 5} (he : ∀ m, ∀ x ∈ md m, e x = m)
    (hf : ∀ x, (f x).wf = true ∧ encode (f x) = eN c o (e x) := by
      exact fun _ => ⟨rfl, rfl⟩) : (rowN md f).ReadsBack c o := by
  rintro w i rfl rfl h
  simp only [rowN, except_bind_ok, except_pure_ok, orMod_ok, resv_ok, Bool.and_eq_true, decide_eq_true_eq] at h
  obtain ⟨_, ⟨h1, h0⟩, x, hx, rfl⟩ := h
  obtain ⟨hwf, henc⟩ := hf x
  have hw := wordD_fields w
  rw [h1, h0] at hw
  exact ⟨hwf, by rw [henc, eN, he _ x hx, hw]⟩
theorem rowNk_readsBack {k : Nat} {md : Nat → Option α} {f : α → Instr} {e : α → BitVec 5}
    (he : ∀ m : BitVec 5, m.toNat < 2 ^ k → ∀ x ∈ md m.toNat, e x = m)
    (hf : ∀ x, (f x).wf = true ∧ encode (f x) = eN c o (e x) := by
      exact fun _ => ⟨rfl, rfl⟩) : (rowNk k md f).ReadsBack c o := by
  rintro w i rfl rfl h
  simp only [rowNk, except_bind_ok, except_pure_ok, orMod_ok, resv_ok, Bool.and_eq_true, decide_eq_true_eq] at h
  obtain ⟨_, ⟨h1, h0⟩, _, hk, x, hx, rfl⟩ := h
  obtain ⟨hwf, henc⟩ := hf x
  have hw := wordD_fields w
  rw [h1, h0] at hw
  exact ⟨hwf, by rw [henc, eN, he _ hk x hx, hw]⟩
/-- A modifier that must be 0. -/
theorem zero_of_mod0 (m : BitVec 5) : ∀ x ∈ (if m = 0 then some () else none), (0 : BitVec 5) = m := by
  revert m; decide
theorem rowD0_readsBack {f : Cons → Cons → Instr} (hf : ∀ t0 t1, (f t0 t1).wf = true ∧ encode (f t0 t1) = eD c o 0 t0 t1 := by
      exact fun _ _ => ⟨rfl, rfl⟩) :
    (rowD0 f).ReadsBack c o := rowD_readsBack (e := fun _ => 0) zero_of_mod0 fun _ t0 t1 _ => hf t0 t1
theorem rowN0_readsBack {i : Instr} (hi : i.wf = true ∧ encode i = eN c o 0 := by exact ⟨rfl, rfl⟩) : (rowN0 i).ReadsBack c o :=
  rowN_readsBack (e := fun _ => 0) zero_of_mod0 fun _ => hi
theorem rowH_readsBack {f : BitVec 5 → Instr} (hf : ∀ x, (f x).wf = true ∧ encode (f x) = eN c o x := by
      exact fun _ => ⟨rfl, rfl⟩) : (rowH f).ReadsBack c o :=
  rowN_readsBack (e := id) (fun _ _ h => (Option.some.inj h).symm) hf
theorem rowR_readsBack {f : BitVec 3 → Instr} (hf : ∀ x, (f x).wf = true ∧ encode (f x) = eN c o (m5 x.toNat) := by
      exact fun _ => ⟨rfl, rfl⟩) :
    (rowR f).ReadsBack c o := rowNk_readsBack (e := fun x => m5 x.toNat) (by decide) hf
theorem rowVS_readsBack {md : BitVec 2 → Option α} {f : α → BitVec 5 → BitVec 2 → Cons → Instr} {e : α → BitVec 2}
    (he : ∀ m, ∀ x ∈ md m, e x = m)
    (hf : ∀ x va q t0, (f x va q t0).wf = true ∧ encode (f x va q t0) = wordVS c o va q (e x) 0 t0.enc := by
      exact fun _ _ _ _ => ⟨rfl, rfl⟩) :
    (rowVS md f).ReadsBack c o := by
  rintro w i rfl rfl h
  simp only [rowVS, except_bind_ok, except_pure_ok, orMod_ok, resv_ok, decide_eq_true_eq] at h
  obtain ⟨t0, h0, _, hl, x, hx, rfl⟩ := h
  obtain ⟨hwf, henc⟩ := hf x (fVD w) (fSPipe w) t0
  have hw := wordVS_fields w
  rw [hl] at hw
  exact ⟨hwf, by rw [henc, he _ x hx, cons_enc_dec h0, hw]⟩

/-! Format I with a consumer and without -/

theorem rowI_readsBack {f : BitVec 14 → Cons → Instr}
    (hf : ∀ imm t0, (f imm t0).wf = true ∧ encode (f imm t0) = wordI c o imm t0.enc := by
      exact fun _ _ => ⟨rfl, rfl⟩) :
    Row.ReadsBack c o fun w => do return f (fImm w) (← Cons.dec (fT0 w)) := by
  rintro w i rfl rfl h
  simp only [except_bind_ok, except_pure_ok] at h
  obtain ⟨t0, h0, rfl⟩ := h
  obtain ⟨hwf, henc⟩ := hf (fImm w) t0
  exact ⟨hwf, by rw [henc, cons_enc_dec h0, wordI_fields]⟩
theorem rowI0_readsBack {f : BitVec 14 → Instr} (hf : ∀ imm, (f imm).wf = true ∧ encode (f imm) = wordI c o imm 0 := by
      exact fun _ => ⟨rfl, rfl⟩) :
    Row.ReadsBack c o fun w => do resv (fT0 w = 0); return f (fImm w) := by
  rintro w i rfl rfl h
  simp only [except_bind_ok, except_pure_ok, resv_ok, decide_eq_true_eq] at h
  obtain ⟨_, h0, rfl⟩ := h
  obtain ⟨hwf, henc⟩ := hf (fImm w)
  have hw := wordI_fields w
  rw [h0] at hw
  exact ⟨hwf, henc.trans hw⟩
theorem ofNat_csr_num {imm : BitVec 14} {r : Csr} (h : Csr.ofNum imm.toNat = some r) : BitVec.ofNat 14 r.num = imm := by
  rw [csr_num_ofNum h, BitVec.ofNat_toNat, BitVec.setWidth_eq]
theorem rowCsr_readsBack {f : Csr → Cons → Instr}
    (hf : ∀ r t0, (f r t0).wf = true ∧ encode (f r t0) = wordI c o (BitVec.ofNat 14 r.num) t0.enc := by
      exact fun _ _ => ⟨rfl, rfl⟩) :
    Row.ReadsBack c o fun w => do let t0 ← Cons.dec (fT0 w); return f (← orMod (Csr.ofNum (fImm w).toNat)) t0 := by
  rintro w i rfl rfl h
  simp only [except_bind_ok, except_pure_ok, orMod_ok] at h
  obtain ⟨t0, h0, r, hr, rfl⟩ := h
  obtain ⟨hwf, henc⟩ := hf r t0
  exact ⟨hwf, by rw [henc, cons_enc_dec h0, ofNat_csr_num hr, wordI_fields]⟩

/-! Format V -/

theorem ofNat6_toNat (m : BitVec 6) : BitVec.ofNat 6 m.toNat = m := by rw [BitVec.ofNat_toNat, BitVec.setWidth_eq]

theorem vtype_enc_dec {m : BitVec 6} (hm : m.toNat % 16 = 0) : ∀ x ∈ VType.dec (m.toNat / 16), BitVec.ofNat 6 (16 * x.enc) = m := by
  revert m; decide

theorem rowVT_readsBack {f : VType → BitVec 5 → BitVec 5 → BitVec 5 → BitVec 2 → Instr}
    (hf : ∀ ty vd va vb q, (f ty vd va vb q).wf = true ∧ encode (f ty vd va vb q) = eV o vd va vb q (16 * ty.enc) := by
      exact fun _ _ _ _ _ => ⟨rfl, rfl⟩) :
    (rowVT f).ReadsBack 1 o := by
  rintro w i hc rfl h
  simp only [rowVT, except_bind_ok, except_pure_ok, orMod_ok, resv_ok, decide_eq_true_eq] at h
  obtain ⟨_, hm, ty, hty, rfl⟩ := h
  obtain ⟨hwf, henc⟩ := hf ty (fVD w) (fVA w) (fVB w) (fPipe w)
  exact ⟨hwf, by rw [henc, eV, vtype_enc_dec hm ty hty, ← hc, wordV_fields]⟩
theorem rowVT1_readsBack {f : VType → BitVec 5 → BitVec 5 → BitVec 2 → Instr}
    (hf : ∀ ty vd va q, ty ≠ .n32 → (f ty vd va q).wf = true ∧ encode (f ty vd va q) = eV o vd va 0 q (16 * ty.enc)) :
    (rowVT1 f).ReadsBack 1 o := by
  rintro w i hc rfl h
  simp only [rowVT1, except_bind_ok, orMod_ok, resv_ok, Bool.and_eq_true, decide_eq_true_eq] at h
  obtain ⟨_, ⟨hm, hb⟩, ty, hty, h⟩ := h
  split at h
  · cases h
  · next hn =>
    obtain rfl := except_pure_ok.mp h
    obtain ⟨hwf, henc⟩ := hf ty (fVD w) (fVA w) (fPipe w) hn
    exact ⟨hwf, by rw [henc, eV, vtype_enc_dec hm ty hty, ← hc, ← hb, wordV_fields]⟩
theorem rowV3_readsBack {f : BitVec 5 → BitVec 5 → BitVec 5 → BitVec 2 → Instr}
    (hf : ∀ vd va vb q, (f vd va vb q).wf = true ∧ encode (f vd va vb q) = eV o vd va vb q 0 := by
      exact fun _ _ _ _ => ⟨rfl, rfl⟩) : (rowV3 f).ReadsBack 1 o := by
  rintro w i hc rfl h
  simp only [rowV3, except_bind_ok, except_pure_ok, resv_ok, decide_eq_true_eq] at h
  obtain ⟨_, hm, rfl⟩ := h
  obtain ⟨hwf, henc⟩ := hf (fVD w) (fVA w) (fVB w) (fPipe w)
  have hw := wordV_fields w
  rw [hm, hc] at hw
  exact ⟨hwf, henc.trans hw⟩
theorem rowV2_readsBack {f : BitVec 5 → BitVec 5 → BitVec 2 → Instr}
    (hf : ∀ vd va q, (f vd va q).wf = true ∧ encode (f vd va q) = eV o vd va 0 q 0 := by
      exact fun _ _ _ => ⟨rfl, rfl⟩) : (rowV2 f).ReadsBack 1 o := by
  rintro w i hc rfl h
  simp only [rowV2, except_bind_ok, except_pure_ok, resv_ok, Bool.and_eq_true, decide_eq_true_eq] at h
  obtain ⟨_, ⟨hm, hb⟩, rfl⟩ := h
  obtain ⟨hwf, henc⟩ := hf (fVD w) (fVA w) (fPipe w)
  have hw := wordV_fields w
  rw [hb, hm, hc] at hw
  exact ⟨hwf, henc.trans hw⟩
theorem rowVSh_readsBack {f : VCount → BitVec 5 → BitVec 5 → BitVec 2 → Instr}
    (hf : ∀ k vd va q, (f k vd va q).wf = true ∧ encode (f k vd va q) = eSh o k vd va q := by
      exact fun _ _ _ _ => ⟨rfl, rfl⟩) : (rowVSh f).ReadsBack 1 o := by
  rintro w i hc rfl h
  have hw := wordV_fields w
  unfold rowVSh at h
  split at h
  · simp only [except_bind_ok, except_pure_ok, resv_ok, decide_eq_true_eq] at h
    obtain ⟨_, hm, rfl⟩ := h
    obtain ⟨hwf, henc⟩ := hf (.reg (fVB w)) (fVD w) (fVA w) (fPipe w)
    rw [BitVec.eq_of_toNat_eq (y := 0) hm, hc] at hw
    exact ⟨hwf, henc.trans hw⟩
  · next hs =>
    simp only [except_bind_ok, except_pure_ok, resv_ok, decide_eq_true_eq] at h
    obtain ⟨_, hb, rfl⟩ := h
    obtain ⟨hwf, henc⟩ := hf (.imm (BitVec.ofNat 5 (fVmod w).toNat)) (fVD w) (fVA w) (fPipe w)
    have he : ∀ m : BitVec 6, ¬m.toNat / 32 = 0 → BitVec.ofNat 6 (32 + (BitVec.ofNat 5 m.toNat).toNat) = m := by decide
    exact ⟨hwf, by rw [henc, eSh, eV, he _ hs, ← hb, ← hc, wordV_fields]⟩
theorem rowVm_readsBack {res : Nat → Bool} {md : Nat → Option α} {f : α → BitVec 5 → BitVec 5 → BitVec 2 → Instr} {e : α → Nat}
    (he : ∀ m : BitVec 6, res m.toNat = true → ∀ x ∈ md m.toNat, e x = m.toNat)
    (hf : ∀ x vd va q, md (e x) = some x → (f x vd va q).wf = true ∧ encode (f x vd va q) = eV o vd va 0 q (e x) := by
      exact fun _ _ _ _ _ => ⟨rfl, rfl⟩) :
    (rowVm res md f).ReadsBack 1 o := by
  rintro w i hc rfl h
  simp only [rowVm, except_bind_ok, except_pure_ok, orMod_ok, resv_ok, Bool.and_eq_true, decide_eq_true_eq] at h
  obtain ⟨_, ⟨hm, hb⟩, x, hx, rfl⟩ := h
  have hex := he _ hm x hx
  obtain ⟨hwf, henc⟩ := hf x (fVD w) (fVA w) (fPipe w) (hex ▸ hx)
  exact ⟨hwf, by rw [henc, eV, hex, ofNat6_toNat, ← hb, ← hc, wordV_fields]⟩
end

/-! ### The tables, class by class (07 R155 to R162) -/

/-- Each row of a table, whose first is cell `o` of class `c`, reads back. -/
inductive RowsReadBack (c : Nat) : Nat → List Row → Prop
  | nil {o : Nat} : RowsReadBack c o []
  | cons {o : Nat} {r : Row} {rs : List Row} : r.ReadsBack c o → RowsReadBack c (o + 1) rs → RowsReadBack c o (r :: rs)

theorem RowsReadBack.append {c o : Nat} {l l' : List Row} (h : RowsReadBack c o l) (h' : RowsReadBack c (o + l.length) l') :
    RowsReadBack c o (l ++ l') := by
  induction h with
  | nil => exact h'
  | cons hr _ ih => exact .cons hr (ih (by rwa [List.length_cons, ← Nat.add_assoc, Nat.add_right_comm] at h'))
theorem RowsReadBack.get {c o k : Nat} {l : List Row} {r : Row} (h : RowsReadBack c o l) (hr : l[k]? = some r) :
    r.ReadsBack c (o + k) := by
  induction h generalizing k with
  | nil => cases hr
  | @cons o r' rs hr' _ ih =>
    cases k with
    | zero => cases hr; exact hr'
    | succ k => rw [Nat.add_comm k, ← Nat.add_assoc]; exact ih hr
theorem RowsReadBack.cell {c o k : Nat} {l : List Row} (h : RowsReadBack c o l) {w : Half} {i : Instr} (hc : fCls w = c)
    (ho : fOp w = o + k) (hd : cell l k w = .ok i) : i.wf = true ∧ encode i = w := by
  unfold Sys2Proof.cell at hd
  split at hd
  · next hr => exact h.get hr w i hc ho hd
  · cases hd

/-! ### The operand fields read back -/

theorem width_enc_dec (m : BitVec 5) : ∀ x ∈ Width.dec m, x.enc = m := by revert m; decide
theorem extFrom_enc_dec (m : BitVec 5) : ∀ x ∈ ExtFrom.dec m, x.enc = m := by revert m; decide
theorem sx_enc_dec (m : BitVec 5) : ∀ x ∈ sxDec m, sxEnc x = m := by revert m; decide
theorem lea_enc_dec (m : BitVec 5) : ∀ x ∈ leaDec m, m5 x.toNat = m := by revert m; decide
theorem some_enc_dec (m : BitVec 5) : ∀ x ∈ some m, x = m := fun _ h => (Option.some.inj h).symm
theorem mod16_enc_dec (m : BitVec 5) : ∀ x ∈ mod16 m, m5 x.toNat = m := by revert m; decide
theorem ld_enc_dec (m : BitVec 5) : ∀ x ∈ ldDec m, m5 (8 * x.1.enc + 4 * x.2.1.toNat + x.2.2.enc) = m := by revert m; decide
theorem st_enc_dec (m : BitVec 5) : ∀ x ∈ stDec m, m5 (8 * x.1.enc + x.2.enc) = m := by revert m; decide
theorem amo_enc_dec (m : BitVec 5) : ∀ x ∈ amoDec m, m5 (8 * x.2.enc + x.1.enc) = m := by revert m; decide
theorem cas_enc_dec (m : BitVec 5) : ∀ x ∈ casDec m, m5 (16 * x.toNat) = m := by revert m; decide
theorem vspace_enc_dec (m : BitVec 2) : ∀ x ∈ VSpace.dec m, x.enc = m := by revert m; decide
theorem scope_enc_dec (m : BitVec 5) : ∀ x ∈ Scope.dec m.toNat, m5 x.enc = m := by revert m; decide
theorem ldDec_ok {m : BitVec 5} {x : Space × Bool × Size} (h : ldDec m = some x) : ldOk x.1 x.2.1 x.2.2 = true := by
  unfold ldDec at h; dsimp only at h; split at h
  · next hok => cases h; exact hok
  · cases h
theorem stDec_ok {m : BitVec 5} {x : Space × Size} (h : stDec m = some x) : stOk x.1 x.2 = true := by
  unfold stDec at h; dsimp only at h; split at h
  · next hok => cases h; exact (Bool.and_eq_true_iff.mp hok).2
  · cases h
theorem amoDec_ok {m : BitVec 5} {x : AmoOp × AmoTy} (h : amoDec m = some x) : amoOk x.1 x.2 = true := by
  unfold amoDec at h; dsimp only at h; split at h
  · next hok => cases h; exact hok
  · cases h

/-! ### The tables, class by class (07 R155 to R162) -/

/-! Class S -/

theorem ill_readsBack : Row.ReadsBack 0 0 (fun w => if w = 0 then .ok .ill else .error .opcode) := by
  intro w i _ _ h
  dsimp only at h
  split at h
  · next hw => cases h; exact ⟨rfl, hw.symm⟩
  · cases h
theorem read_readsBack : Row.ReadsBack 0 36 (fun w => do
    let t0 ← Cons.dec (fT0 w)
    return .read (← orMod (RegSel.dec (fGreg w) (fMod8 w))) t0) := by
  intro w i hc ho h
  simp only [except_bind_ok, except_pure_ok, orMod_ok] at h
  obtain ⟨t0, h0, r, hr, rfl⟩ := h
  obtain ⟨hg, hm⟩ := regSel_enc_dec hr
  refine ⟨rfl, ?_⟩
  show wordG 0 36 r.greg r.mod8 t0.enc = w
  rw [hg, hm, cons_enc_dec h0, ← hc, ← ho, wordG_fields]
theorem write_readsBack : Row.ReadsBack 0 37 (fun w => do
    resv (fT0 w = 0)
    return .write (← orMod (RegSel.dec (fGreg w) (fMod8 w)))) := by
  intro w i hc ho h
  simp only [except_bind_ok, except_pure_ok, orMod_ok, resv_ok, decide_eq_true_eq] at h
  obtain ⟨_, h0, r, hr, rfl⟩ := h
  obtain ⟨hg, hm⟩ := regSel_enc_dec hr
  refine ⟨rfl, ?_⟩
  show wordG 0 37 r.greg r.mod8 0 = w
  rw [hg, hm, ← h0, ← hc, ← ho, wordG_fields]
theorem rowW_readsBack {o : Nat} {f : Width → Cons → Cons → Instr}
    (hf : ∀ x t0 t1, (f x t0 t1).wf = true ∧ encode (f x t0 t1) = eD 0 o x.enc t0 t1 := by
      exact fun _ _ _ => ⟨rfl, rfl⟩) : (rowD Width.dec f).ReadsBack 0 o :=
  rowD_readsBack width_enc_dec fun x t0 t1 _ => hf x t0 t1

theorem rowsS_readBack : RowsReadBack 0 0 rowsS :=
  .append (l := rowsS0)
    (
      .cons ill_readsBack <| .cons rowW_readsBack <| .cons rowW_readsBack <| .cons rowI_readsBack <| .cons rowW_readsBack <|
      .cons rowW_readsBack <| .cons rowW_readsBack <| .cons rowW_readsBack <| .cons rowW_readsBack <| .cons rowW_readsBack <|
      .cons rowW_readsBack <| .cons rowD0_readsBack <| .cons rowD0_readsBack <| .cons rowD0_readsBack <|
      .cons rowD0_readsBack <| .cons rowW_readsBack <| .cons rowW_readsBack <| .cons rowW_readsBack <|
      .cons rowW_readsBack <| .cons rowW_readsBack <| .cons rowW_readsBack <| .cons rowW_readsBack <| .cons rowW_readsBack <|
      .cons rowW_readsBack <| .cons (rowD_readsBack extFrom_enc_dec) <| .cons (rowD_readsBack extFrom_enc_dec) <| .nil)
    (
      .cons rowW_readsBack <| .cons rowW_readsBack <| .cons rowW_readsBack <| .cons rowW_readsBack <| .cons rowW_readsBack <|
      .cons rowW_readsBack <| .cons (rowD_readsBack some_enc_dec) <| .cons rowI_readsBack <|
      .cons (rowD_readsBack sx_enc_dec) <| .cons rowD0_readsBack <| .cons read_readsBack <| .cons write_readsBack <|
      .cons rowD0_readsBack <| .cons rowD0_readsBack <| .cons (rowD_readsBack lea_enc_dec) <| .cons rowN0_readsBack <|
      .cons rowI0_readsBack <| .cons rowI_readsBack <| .cons rowN0_readsBack <| .cons rowN0_readsBack <| .nil)

/-! Class V -/

theorem vabs_readsBack : (rowVT1 .vabs).ReadsBack 1 6 := rowVT1_readsBack fun _ _ _ _ h => ⟨bne_iff_ne.mpr h, rfl⟩
theorem vneg_readsBack : (rowVT1 .vneg).ReadsBack 1 7 := rowVT1_readsBack fun _ _ _ _ h => ⟨bne_iff_ne.mpr h, rfl⟩
theorem vcmp_readsBack : Row.ReadsBack 1 14 (fun w => do
    resv ((fVmod w).toNat / 8 % 2 = 0)
    let rel ← orMod (VRel.dec ((fVmod w).toNat % 8))
    let ty ← orMod (VType.dec ((fVmod w).toNat / 16))
    if vcmpOk ty rel then return .vcmp ty rel (fVD w) (fVA w) (fVB w) (fPipe w) else .error .modifier) := by
  intro w i hc ho h
  simp only [except_bind_ok, orMod_ok, resv_ok, decide_eq_true_eq] at h
  obtain ⟨_, hm, rel, hrel, ty, hty, h⟩ := h
  split at h
  · next hok =>
    obtain rfl := except_pure_ok.mp h
    have he : ∀ m : BitVec 6, m.toNat / 8 % 2 = 0 → ∀ r ∈ VRel.dec (m.toNat % 8), ∀ x ∈ VType.dec (m.toNat / 16),
        BitVec.ofNat 6 (16 * x.enc + r.enc) = m := by decide
    refine ⟨hok, ?_⟩
    show wordV 1 14 _ _ _ _ (BitVec.ofNat 6 (16 * ty.enc + rel.enc)) = w
    rw [he _ hm rel hrel ty hty, ← hc, ← ho, wordV_fields]
  · cases h
theorem vcvt_readsBack : Row.ReadsBack 1 16 <| rowVm (fun _ => true) (fun m => some (CvtPair.dec (m / 4), CvtMode.dec (m % 4)))
    fun x vd va q => .vcvt x.1 x.2 vd va q :=
  rowVm_readsBack (e := fun x => 4 * x.1.enc + x.2.enc) (by decide)
theorem vqnt_readsBack : Row.ReadsBack 1 17 <| rowVm (fun m => m % 8 = 0) (fun m => some (QFmt.dec (m / 16), m / 8 % 2 == 1))
    fun x vd va q => .vqnt x.1 x.2 vd va q :=
  rowVm_readsBack (e := fun x => 16 * x.1.enc + 8 * x.2.toNat) (by decide)
theorem vdqnt_readsBack : Row.ReadsBack 1 18 (fun w => do
    resv ((fVmod w).toNat % 16 = 0)
    return .vdqnt (QFmt.dec ((fVmod w).toNat / 16)) (fVD w) (fVA w) (fVB w) (fPipe w)) := by
  intro w i hc ho h
  simp only [except_bind_ok, except_pure_ok, resv_ok, decide_eq_true_eq] at h
  obtain ⟨_, hm, rfl⟩ := h
  have he : ∀ m : BitVec 6, m.toNat % 16 = 0 → BitVec.ofNat 6 (16 * (QFmt.dec (m.toNat / 16)).enc) = m := by decide
  refine ⟨rfl, ?_⟩
  show wordV 1 18 _ _ _ _ (BitVec.ofNat 6 (16 * (QFmt.dec ((fVmod w).toNat / 16)).enc)) = w
  rw [he _ hm, ← hc, ← ho, wordV_fields]
theorem vperm_readsBack : Row.ReadsBack 1 23 (fun w =>
    if (fVmod w).toNat = 0 then .ok (.vperm (.index (fVB w)) (fVD w) (fVA w) (fPipe w))
    else do
      resv ((fVmod w).toNat < 32 || fVB w = 0)
      if (fVmod w).toNat < 32 then .error .modifier else
      return .vperm (.rot (BitVec.ofNat 5 (fVmod w).toNat)) (fVD w) (fVA w) (fPipe w)) := by
  intro w i hc ho h
  dsimp only at h
  split at h
  · next hm =>
    cases h
    refine ⟨rfl, ?_⟩
    show wordV 1 23 _ _ _ _ 0 = w
    rw [← BitVec.eq_of_toNat_eq (x := fVmod w) (y := 0) hm, ← hc, ← ho, wordV_fields]
  · simp only [except_bind_ok, resv_ok, Bool.or_eq_true, decide_eq_true_eq] at h
    obtain ⟨_, hb, h⟩ := h
    split at h
    · cases h
    · next hm =>
      obtain rfl := except_pure_ok.mp h
      have he : ∀ m : BitVec 6, ¬m.toNat < 32 → BitVec.ofNat 6 (32 + (BitVec.ofNat 5 m.toNat).toNat) = m := by decide
      refine ⟨rfl, ?_⟩
      show wordV 1 23 _ _ 0 _ (BitVec.ofNat 6 (32 + (BitVec.ofNat 5 (fVmod w).toNat).toNat)) = w
      rw [he _ hm, ← hb.resolve_left hm, ← hc, ← ho, wordV_fields]
/-- A stage above 4 is refused, so what is read is well formed (09 R194). -/
theorem vbfly_readsBack : Row.ReadsBack 1 24 <| rowVm (fun _ => true)
    (fun m => if m % 8 ≤ 4 then (BflyOp.dec (m / 8)).map (·, BitVec.ofNat 3 m) else none)
    fun x vd va q => .vbfly x.1 x.2 vd va q :=
  rowVm_readsBack (e := fun x => 8 * x.1.enc + x.2.toNat) (by decide) fun x _ _ _ hx => by
    refine ⟨decide_eq_true (Nat.le_of_not_lt fun hk => ?_), rfl⟩
    have hlt := x.2.isLt
    rw [if_neg (by omega)] at hx
    cases hx
theorem vred_readsBack : Row.ReadsBack 1 25 <| rowVm (fun m => m % 8 = 0) (fun m => RedOp.dec (m / 8)) .vred :=
  rowVm_readsBack (e := fun x => 8 * x.enc) (by decide)
theorem vscan_readsBack : Row.ReadsBack 1 26 <| rowVm (fun m => m / 2 % 4 = 0) (fun m => (RedOp.dec (m / 8)).map (·, m % 2 == 1))
    fun x vd va q => .vscan x.1 x.2 vd va q :=
  rowVm_readsBack (e := fun x => 8 * x.1.enc + x.2.toNat) (by decide)
theorem vsmxa_readsBack : Row.ReadsBack 1 27 <| rowVm (fun m => m < 2) (fun m => some (m == 1)) .vsmxa :=
  rowVm_readsBack (e := fun x => x.toNat) (by decide)
theorem vstat_readsBack : Row.ReadsBack 1 29 <| rowVm (fun m => m < 8) StatPhase.dec .vstat :=
  rowVm_readsBack (e := fun x => x.enc) (by decide)
theorem vsplat_readsBack : Row.ReadsBack 1 30 (fun w =>
    if (fVmod w).toNat = 0 then do
      resv (fVA w = 0 && fVB w = 0)
      return .vsplat .a (fVD w) (fPipe w)
    else if (fVmod w).toNat = 1 then .ok (.vsplat (.lane (fVA w) (fVB w)) (fVD w) (fPipe w))
    else .error .modifier) := by
  intro w i hc ho h
  have hw := wordV_fields w
  rw [hc, ho] at hw
  dsimp only at h
  split at h
  · next hm =>
    simp only [except_bind_ok, except_pure_ok, resv_ok, Bool.and_eq_true, decide_eq_true_eq] at h
    obtain ⟨_, ⟨ha, hb⟩, rfl⟩ := h
    rw [BitVec.eq_of_toNat_eq (x := fVmod w) (y := 0) hm, ha, hb] at hw
    exact ⟨rfl, hw⟩
  · split at h
    · next hm =>
      cases h
      rw [BitVec.eq_of_toNat_eq (x := fVmod w) (y := 1) hm] at hw
      exact ⟨rfl, hw⟩
    · cases h
theorem vmovs_readsBack : Row.ReadsBack 1 31 (fun w => do
    let t0 ← Cons.dec (fT0 w)
    match (fVmod2 w).toNat with
    | 0 => return .vmovs (.lane false (fVD w) (fLane w)) (fSPipe w) t0
    | 1 => return .vmovs (.lane true (fVD w) (fLane w)) (fSPipe w) t0
    | 2 => do resv (fVD w = 0 && fLane w = 0); return .vmovs .psts (fSPipe w) t0
    | _ => do resv (fVD w = 0 && fLane w = 0); return .vmovs .len (fSPipe w) t0) := by
  intro w i hc ho h
  have hw := wordVS_fields w
  simp only [except_bind_ok] at h
  obtain ⟨t0, h0, h⟩ := h
  rw [hc, ho, ← cons_enc_dec h0] at hw
  split at h
  · next hm =>
    cases h
    rw [BitVec.eq_of_toNat_eq (x := fVmod2 w) (y := 0) hm] at hw
    exact ⟨rfl, hw⟩
  · next hm =>
    cases h
    rw [BitVec.eq_of_toNat_eq (x := fVmod2 w) (y := 1) hm] at hw
    exact ⟨rfl, hw⟩
  · next hm =>
    simp only [except_bind_ok, except_pure_ok, resv_ok, Bool.and_eq_true, decide_eq_true_eq] at h
    obtain ⟨_, ⟨hd, hl⟩, rfl⟩ := h
    rw [BitVec.eq_of_toNat_eq (x := fVmod2 w) (y := 2) hm, hd, hl] at hw
    exact ⟨rfl, hw⟩
  · next h0 h1 h2 =>
    have h3 : ∀ m : BitVec 2, ¬m.toNat = 0 → ¬m.toNat = 1 → ¬m.toNat = 2 → m = 3 := by decide
    simp only [except_bind_ok, except_pure_ok, resv_ok, Bool.and_eq_true, decide_eq_true_eq] at h
    obtain ⟨_, ⟨hd, hl⟩, rfl⟩ := h
    rw [h3 _ h0 h1 h2, hd, hl] at hw
    exact ⟨rfl, hw⟩
theorem vins_readsBack : Row.ReadsBack 1 32 (fun w => do
    let t0 ← Cons.dec (fT0 w)
    if fVmod2 w = 0 then return .vins (fVD w) (fLane w) (fSPipe w) t0 else .error .modifier) := by
  intro w i hc ho h
  have hw := wordVS_fields w
  simp only [except_bind_ok] at h
  obtain ⟨t0, h0, h⟩ := h
  split at h
  · next hm =>
    cases h
    rw [hc, ho, hm, ← cons_enc_dec h0] at hw
    exact ⟨rfl, hw⟩
  · cases h
theorem vlane_readsBack : Row.ReadsBack 1 33 (fun w => do
    resv (fVD w = 0 && fVB w = 0 && ((fVmod w).toNat = 1 || fVA w = 0))
    match (fVmod w).toNat with
    | 0 => return .vlane .a (fPipe w)
    | 1 => return .vlane (.v (fVA w)) (fPipe w)
    | 2 => return .vlane .all (fPipe w)
    | _ => .error .modifier) := by
  intro w i hc ho h
  have hw := wordV_fields w
  simp only [except_bind_ok, resv_ok, Bool.and_eq_true, Bool.or_eq_true, decide_eq_true_eq] at h
  obtain ⟨_, ⟨⟨hd, hb⟩, ha⟩, h⟩ := h
  rw [hc, ho, hd, hb] at hw
  split at h
  · next hm =>
    cases h
    rw [BitVec.eq_of_toNat_eq (x := fVmod w) (y := 0) hm, ha.resolve_left (by omega)] at hw
    exact ⟨rfl, hw⟩
  · next hm =>
    cases h
    rw [BitVec.eq_of_toNat_eq (x := fVmod w) (y := 1) hm] at hw
    exact ⟨rfl, hw⟩
  · next hm =>
    cases h
    rw [BitVec.eq_of_toNat_eq (x := fVmod w) (y := 2) hm, ha.resolve_left (by omega)] at hw
    exact ⟨rfl, hw⟩
  · cases h

theorem rowsV_readBack : RowsReadBack 1 0 rowsV :=
  .append (l := rowsV0)
    (
      .cons rowVT_readsBack <| .cons rowVT_readsBack <| .cons rowVT_readsBack <| .cons rowVT_readsBack <|
      .cons rowVT_readsBack <| .cons rowVT_readsBack <| .cons vabs_readsBack <| .cons vneg_readsBack <|
      .cons rowV3_readsBack <| .cons rowV3_readsBack <| .cons rowV3_readsBack <| .cons rowVSh_readsBack <|
      .cons rowVSh_readsBack <| .cons rowVSh_readsBack <| .cons vcmp_readsBack <| .cons rowV3_readsBack <|
      .cons vcvt_readsBack <| .cons vqnt_readsBack <| .nil)
    (
      .cons vdqnt_readsBack <| .cons rowV2_readsBack <| .cons rowV2_readsBack <| .cons rowV2_readsBack <|
      .cons rowV2_readsBack <| .cons vperm_readsBack <| .cons vbfly_readsBack <| .cons vred_readsBack <|
      .cons vscan_readsBack <| .cons vsmxa_readsBack <| .cons rowV3_readsBack <| .cons vstat_readsBack <|
      .cons vsplat_readsBack <| .cons vmovs_readsBack <| .cons vins_readsBack <| .cons vlane_readsBack <|
      .cons rowV2_readsBack <| .nil)
theorem rowSett_readsBack (n : BitVec 4) : (rowSett n).ReadsBack 1 (48 + n.toNat) := rowV3_readsBack

/-! Classes M and C -/

theorem rowsM_readBack : RowsReadBack 2 0 rowsM :=
  .cons rowR_readsBack <| .cons rowR_readsBack <| .cons rowR_readsBack <| .cons rowR_readsBack <| .cons rowR_readsBack <|
  .cons rowR_readsBack <| .cons rowR_readsBack <| .cons rowR_readsBack <|
  .cons (rowDk_readsBack (e := fun x => m5 x.toNat) (by decide)) <| .cons rowR_readsBack <| .nil
/-- A bit and a number of four bits in MOD. -/
theorem rowFlagged_readsBack {c o : Nat} {f : Bool × BitVec 4 → Cons → Cons → Instr}
    (hf : ∀ x t0 t1, (f x t0 t1).wf = true ∧ encode (f x t0 t1) = eD c o (m5 (16 * x.1.toNat + x.2.toNat)) t0 t1 := by
      exact fun _ _ _ => ⟨rfl, rfl⟩) :
    (rowD (fun m => some (m.toNat / 16 == 1, BitVec.ofNat 4 m.toNat)) f).ReadsBack c o :=
  rowD_readsBack (e := fun x => m5 (16 * x.1.toNat + x.2.toNat)) (by decide) fun x t0 t1 _ => hf x t0 t1
theorem squery_readsBack : Row.ReadsBack 3 12 <| rowD (fun m => some (m.toNat / 16 == 1, BitVec.ofNat 4 m.toNat))
    fun x => .squery x.1 x.2 :=
  rowFlagged_readsBack fun _ _ _ => ⟨rfl, by rw [Nat.mul_comm 16]; rfl⟩
theorem rowsC_readBack : RowsReadBack 3 0 rowsC :=
  .cons rowH_readsBack <| .cons rowH_readsBack <| .cons rowH_readsBack <| .cons rowH_readsBack <| .cons rowH_readsBack <|
  .cons (rowD_readsBack some_enc_dec) <| .cons rowH_readsBack <| .cons rowH_readsBack <| .cons rowH_readsBack <|
  .cons rowH_readsBack <| .cons (rowNk_readsBack (e := fun x => m5 x.toNat) (by decide)) <|
  .cons (rowNk_readsBack (e := fun x => m5 x.toNat) (by decide)) <| .cons squery_readsBack <| .nil

/-! Class L: what LD, ST and AMO read is well formed because the modifier is refused otherwise -/

theorem ld_readsBack : Row.ReadsBack 4 0 <| rowD ldDec fun x => .ld x.1 x.2.1 x.2.2 :=
  rowD_readsBack (e := fun x => m5 (8 * x.1.enc + 4 * x.2.1.toNat + x.2.2.enc)) ld_enc_dec fun _ _ _ hx => ⟨ldDec_ok hx, rfl⟩
theorem st_readsBack : Row.ReadsBack 4 1 <| rowD stDec fun x => .st x.1 x.2 :=
  rowD_readsBack (e := fun x => m5 (8 * x.1.enc + x.2.enc)) st_enc_dec fun _ _ _ hx => ⟨stDec_ok hx, rfl⟩
theorem amo_readsBack : Row.ReadsBack 4 14 <| rowD amoDec fun x => .amo x.1 x.2 :=
  rowD_readsBack (e := fun x => m5 (8 * x.2.enc + x.1.enc)) amo_enc_dec fun _ _ _ hx => ⟨amoDec_ok hx, rfl⟩
theorem rowsL_readBack : RowsReadBack 4 0 rowsL :=
  .cons ld_readsBack <| .cons st_readsBack <| .cons (rowVS_readsBack vspace_enc_dec) <|
  .cons (rowVS_readsBack vspace_enc_dec) <| .cons (rowD_readsBack some_enc_dec) <| .cons (rowD_readsBack some_enc_dec) <|
  .cons rowH_readsBack <| .cons rowH_readsBack <| .cons rowH_readsBack <| .cons rowN0_readsBack <| .cons rowH_readsBack <|
  .cons rowD0_readsBack <| .cons rowN0_readsBack <| .cons rowN0_readsBack <| .cons amo_readsBack <|
  .cons (rowVS_readsBack (e := AmovOp.enc) (by decide)) <|
  .cons (rowD_readsBack (e := fun x => m5 (16 * x.toNat)) cas_enc_dec) <| .cons (rowN_readsBack mod16_enc_dec) <|
  .cons (rowN_readsBack mod16_enc_dec) <| .cons (rowN_readsBack mod16_enc_dec) <| .cons (rowD_readsBack mod16_enc_dec) <|
  .cons rowN0_readsBack <| .nil

/-! Classes K, Y and Z -/

theorem rowsK_readBack : RowsReadBack 5 32 rowsK :=
  .cons rowD0_readsBack <| .cons rowD0_readsBack <| .cons rowD0_readsBack <|
  .cons (rowD_readsBack (e := fun x => m5 x.enc) (by decide)) <|
  .cons (rowNk_readsBack (e := fun x => m5 x.toNat) (by decide)) <| .cons rowFlagged_readsBack <|
  .cons (rowD_readsBack mod16_enc_dec) <| .cons (rowD_readsBack mod16_enc_dec) <|
  .cons (rowD_readsBack (e := fun x => m5 x.enc) (by decide)) <| .cons rowD0_readsBack <| .cons rowD0_readsBack <|
  .cons rowN0_readsBack <| .cons rowD0_readsBack <| .nil
theorem bari_readsBack : Row.ReadsBack 6 0 (fun w => do
    resv (fT1 w = 0 && fT0 w = 0); resv ((fMod w).toNat < 16); return .bari (← decScope (fMod w).toNat)) := by
  intro w i hc ho h
  have hw := wordD_fields w
  simp only [except_bind_ok, except_pure_ok, resv_ok, decScope_ok, Bool.and_eq_true, decide_eq_true_eq] at h
  obtain ⟨_, ⟨h1, h0⟩, _, _, sc, hsc, rfl⟩ := h
  rw [hc, ho, h1, h0, ← scope_enc_dec _ sc hsc] at hw
  exact ⟨rfl, hw⟩
theorem fence_readsBack : Row.ReadsBack 6 6 (fun w => do
    let t1 ← Cons.dec (fT1 w)
    let t0 ← Cons.dec (fT0 w)
    resv ((fMod w).toNat < 16)
    return .fence (← decScope (fMod w).toNat) t0 t1) := by
  intro w i hc ho h
  have hw := wordD_fields w
  simp only [except_bind_ok, except_pure_ok, resv_ok, decScope_ok, decide_eq_true_eq] at h
  obtain ⟨t1, h1, t0, h0, _, _, sc, hsc, rfl⟩ := h
  rw [hc, ho, ← cons_enc_dec h1, ← cons_enc_dec h0, ← scope_enc_dec _ sc hsc] at hw
  exact ⟨rfl, hw⟩
theorem rowsY_readBack : RowsReadBack 6 0 rowsY :=
  .cons bari_readsBack <| .cons rowD0_readsBack <| .cons rowD0_readsBack <| .cons rowD0_readsBack <| .cons rowD0_readsBack <|
  .cons rowD0_readsBack <| .cons fence_readsBack <| .cons (rowNk_readsBack (e := fun x => m5 x.toNat) (by decide)) <|
  .cons (rowNk_readsBack (e := fun x => m5 x.toNat) (by decide)) <|
  .cons (rowDk_readsBack (e := fun x => m5 x.enc) (by decide)) <|
  .cons (rowNk_readsBack (e := fun x => m5 x.toNat) (by decide)) <|
  .cons (rowNk_readsBack (e := fun x => m5 x.toNat) (by decide)) <| .cons rowD0_readsBack <|
  .cons (rowD_readsBack (e := fun x => m5 (4 * x.1.enc + x.2.enc)) (by decide)) <|
  .cons (rowDk_readsBack (e := fun x => m5 x.toNat) (by decide)) <| .cons rowD0_readsBack <|
  .cons (rowNk_readsBack (e := fun x => m5 x.toNat) (by decide)) <| .cons rowN0_readsBack <| .nil
theorem csrw_readsBack : Row.ReadsBack 7 3 (fun w => do
    resv (fT0 w = 0); return .csrw (← orMod (Csr.ofNum (fImm w).toNat))) := by
  intro w i hc ho h
  have hw := wordI_fields w
  simp only [except_bind_ok, except_pure_ok, orMod_ok, resv_ok, decide_eq_true_eq] at h
  obtain ⟨_, h0, r, hr, rfl⟩ := h
  rw [hc, ho, h0, ← ofNat_csr_num hr] at hw
  exact ⟨rfl, hw⟩
theorem rowsZ_readBack : RowsReadBack 7 0 rowsZ :=
  .cons rowH_readsBack <| .cons rowN0_readsBack <| .cons rowCsr_readsBack <| .cons csrw_readsBack <|
  .cons rowCsr_readsBack <| .cons rowI0_readsBack <| .cons rowN0_readsBack <| .cons rowN0_readsBack <|
  .cons rowN0_readsBack <| .cons rowN0_readsBack <| .cons rowN0_readsBack <| .cons rowH_readsBack <| .cons rowN0_readsBack <|
  .cons (rowDk_readsBack (e := fun x => m5 x.toNat) (by decide)) <| .nil

/-! ### Every word -/

/-- A word that decodes is the word of the well-formed instruction that it decodes to. -/
theorem encode_decode {w : Half} {i : Instr} (h : decode w = .ok i) : i.wf = true ∧ encode i = w := by
  have hcls : fCls w < 8 := by have := w.isLt; unfold fCls; omega
  have hop : fOp w < 64 := Nat.mod_lt _ (by decide)
  have hz (k : Nat) : k = 0 + k := (Nat.zero_add k).symm
  unfold decode at h
  split at h
  · next hc => exact rowsS_readBack.cell hc (hz _) h
  · next hc =>
    split at h
    · next hs =>
      refine rowSett_readsBack _ w i hc ?_ h
      rw [BitVec.toNat_ofNat]; omega
    · exact rowsV_readBack.cell hc (hz _) h
  · next hc => exact rowsM_readBack.cell hc (hz _) h
  · next hc => exact rowsC_readBack.cell hc (hz _) h
  · next hc => exact rowsL_readBack.cell hc (hz _) h
  · next hc =>
    split at h
    · next hk => exact rowsK_readBack.cell hc (Nat.add_sub_cancel' hk).symm h
    · cases h
  · next hc => exact rowsY_readBack.cell hc (hz _) h
  · next h0 h1 h2 h3 h4 h5 h6 => exact rowsZ_readBack.cell (by grind) (hz _) h

theorem cell_opcode {l : List Row} {k : Nat} (hk : l.length ≤ k) (w : Half) : cell l k w = .error .opcode := by
  rw [cell, List.getElem?_eq_none hk]

/-- A cell that the tables do not fill, and ILL's cell with any bit set, refuse every word with OPCODE (07 R161, R163). -/
theorem decode_reserved {w : Half} (h : (fCls w = 0 ∧ (46 ≤ fOp w ∨ (fOp w = 0 ∧ w ≠ 0))) ∨ (fCls w = 1 ∧ 35 ≤ fOp w ∧ fOp w ≤ 47)
    ∨ (fCls w = 2 ∧ 10 ≤ fOp w) ∨ (fCls w = 3 ∧ 13 ≤ fOp w) ∨ (fCls w = 4 ∧ 22 ≤ fOp w)
    ∨ (fCls w = 5 ∧ (fOp w ≤ 31 ∨ 45 ≤ fOp w)) ∨ (fCls w = 6 ∧ 18 ≤ fOp w) ∨ (fCls w = 7 ∧ 14 ≤ fOp w)) :
    decode w = .error .opcode := by
  rcases h with ⟨hc, ho | ⟨ho, hw⟩⟩ | ⟨hc, ho, ho'⟩ | ⟨hc, ho⟩ | ⟨hc, ho⟩ | ⟨hc, ho⟩ | ⟨hc, ho | ho⟩ | ⟨hc, ho⟩ | ⟨hc, ho⟩
  · rw [decode_s hc rfl, cell_opcode (by exact ho)]
  · rw [decode_s hc ho]; exact if_neg hw
  · rw [decode_v hc rfl (by omega), cell_opcode (by exact ho)]
  · rw [decode_m hc rfl, cell_opcode (by exact ho)]
  · rw [decode_c hc rfl, cell_opcode (by exact ho)]
  · rw [decode_l hc rfl, cell_opcode (by exact ho)]
  · simp only [decode, hc]; rw [if_neg (by omega)]
  · rw [decode_k hc (o := fOp w - 32) (by omega), cell_opcode (show 13 ≤ fOp w - 32 by omega)]
  · rw [decode_y hc rfl, cell_opcode (by exact ho)]
  · rw [decode_z hc rfl, cell_opcode (by exact ho)]

/-- Settles O2: every row of the class tables reads back (`encode_decode`), and no table fills a reserved cell. -/
theorem decodedWordsEncodeBack : Obligations.DecodedWordsEncodeBack := ⟨fun _ _ => encode_decode, fun _ => decode_reserved⟩

end Sys2Proof
end

-- ==== Proofs of the encoding family: the core's turn (06 R143, R150) ====
section
/-! PROOFS. The step of the core's turn (06 R143, R145, R150; log 2, 3). -/

namespace Sys2Proof.Machine

/-! ### The lowest slot that may fire -/

/-- What may fire is listed in slot order: the first slot that may fire heads the list. -/
theorem Block.fireable_eq_cons (b : Block) {sl : Slot} : ∀ {l : List Slot} {n k : Nat}, l[k]? = some sl →
    b.mayFire (n + k) sl = true → (∀ j y, j < k → l[j]? = some y → b.mayFire (n + j) y = false) →
    ∃ r, b.fireable l n = (n + k) :: r
  | [], _, k, hk, _, _ => by simp at hk
  | x :: l, n, 0, hk, hf, _ => by
    obtain rfl : x = sl := by simpa using hk
    rw [Nat.add_zero] at hf
    exact ⟨b.fireable l (n + 1), by simp [Block.fireable, hf]⟩
  | x :: l, n, k + 1, hk, hf, hlow => by
    have hx : b.mayFire n x = false := hlow 0 x (Nat.succ_pos k) rfl
    have hstep (j : Nat) : n + 1 + j = n + (j + 1) := by omega
    obtain ⟨r, hr⟩ := b.fireable_eq_cons (l := l) (n := n + 1) (k := k) hk (by rwa [hstep])
      fun j y hj hy => by rw [hstep]; exact hlow (j + 1) y (by omega) hy
    exact ⟨r, by simp [Block.fireable, hx, hr, hstep]⟩

/-- A slot that waits and whose word decodes holds that instruction. -/
theorem wordInstr_of_decode {sl : Slot} {i : Instr} (hw : sl.st = .wait) (hd : decode sl.word = .ok i) :
    wordInstr sl = some i := by
  simp [wordInstr, hw, decodeOpt, hd]

theorem State.issuable_eq_cons {s : State} {k : Nat} {sl : Slot} {i : Instr} (hk : s.fir.blk.slots[k]? = some sl)
    (hi : wordInstr sl = some i) (hf : s.fir.blk.mayFire k sl = true)
    (hlow : ∀ j y, j < k → s.fir.blk.slots[j]? = some y → s.fir.blk.mayFire j y = false) (hm : s.mayIssue i = true) :
    ∃ r, s.issuable = (k, i) :: r := by
  obtain ⟨r, hr⟩ := s.fir.blk.fireable_eq_cons (n := 0) hk (by rwa [Nat.zero_add]) (by simpa using hlow)
  rw [Nat.zero_add] at hr
  exact ⟨_, by simp [State.issuable, hr, hk, hi, hm]; rfl⟩

/-! ### The choice of the core -/

theorem State.focusFir_self (s : State) : s.focusFir s.fir.id = s := by simp [State.focusFir]

/-- With no structure damaged and no table on, every row finds what it needs (21 R379, 27 R436). -/
theorem State.slotted_of_free {s : State} {i : Instr} (hg : s.gating = false) (hd : s.dev.damage = []) :
    s.slotted i = true := by
  simp [State.slotted, State.needsDamaged, hg, hd]

/-- The core issues the first slot that may issue of the firing dispatched first. -/
theorem State.issueMove_eq_some {s : State} {k : Nat} {i : Instr} {r : List (Nat × Instr)} (hid : s.firOrder.head? = some s.fir.id)
    (hrun : s.fir.phase = .run) (hiss : s.issuable = (k, i) :: r) (hsl : (s.onBlk fun b => { b with cur := k }).slotted i = true) :
    s.issueMove = some { st := s.onBlk fun b => { b with cur := k }, row := some i, slot := some k } := by
  obtain ⟨ids, hids⟩ := List.head?_eq_some_iff.1 hid
  simp [State.issueMove, hids, State.focusFir_self, hrun, hiss, hsl]

/-- The core of a context that is resident, on a die that runs, and not stopped has what issues first for its turn. -/
theorem State.coreTurn_eq_issueMove {s : State} {p : Pick} (hp : s.ctx.id.present = true)
    (hd : s.dev.halted (tDie s.ctx.id.tile) = false) (hs : s.ctx.stopped = false) (h : s.issueMove = some p) :
    s.coreTurn = some p := by
  obtain ⟨hfr, hsv⟩ : s.ctx.frozen = false ∧ s.ctx.csr.saving = false := by simpa [Ctx.stopped] using hs
  simp [State.coreTurn, State.alive, hp, hd, hfr, hsv, h]

/-- The state at the core's turn: a row is about to be chosen. -/
def State.atCoreTurn (s : State) : State :=
  { s with who := .core, turn := true, rot := s.rot + 1, dev := { s.dev with gated := false } }

/-- With no input to take, the core's turn comes first. -/
theorem State.choose_of_coreTurn {s : State} {p : Pick} (ha : s.agenda = []) (ht : s.turn = false)
    (h : s.atCoreTurn.coreTurn = some p) : s.choose = p := by
  have hown : ({ s with who := .core, turn := !s.turn, rot := s.rot + 1, dev := { s.dev with gated := false } } : State)
      = s.atCoreTurn := by rw [ht]; rfl
  simp only [State.choose, ha, ht, Bool.false_eq_true, if_false] at hown ⊢
  rw [hown, h]
  rfl

/-- Settles O4: the choice of the core is the lowest slot of its oldest block. -/
theorem stepRunsTheDecodedSlot : Obligations.StepRunsTheDecodedSlot := by
  rintro s k sl i u t ha ht hp hd hs hid hrun hk hw hdec hf hlow hm rfl hsl hx hg
  obtain ⟨r, hiss⟩ := State.issuable_eq_cons (s := s.atCoreTurn) hk (wordInstr_of_decode hw hdec) hf hlow hm
  have hslot : (s.atCoreTurn.onBlk fun b => { b with cur := k }).slotted i = true := by
    by_cases hc : s.gating = true ∨ s.dev.damage ≠ []
    · exact hsl hc
    · obtain ⟨hgat, hdam⟩ := not_or.1 hc
      exact State.slotted_of_free (Bool.not_eq_true _ ▸ hgat) (not_not.1 hdam)
  have hmove := State.issueMove_eq_some (s := s.atCoreTurn) hid hrun hiss hslot
  have hpick := State.choose_of_coreTurn ha ht (State.coreTurn_eq_issueMove (s := s.atCoreTurn) hp hd hs hmove)
  have hx' : exec i (s.atCoreTurn.onBlk fun b => { b with cur := k }) = .next t := hx
  simp [step, hpick, hx', hg, State.afterRow, State.unview]

end Sys2Proof.Machine
end

-- ==== Proofs of the encoding family: token delivery (06 R145, R146) ====
section
/-! PROOFS. Token delivery (06 R145, R146). -/

namespace Sys2Proof.Machine

theorem Block.getElem?_onSlot_ne {b : Block} {k j : Nat} (f : Slot → Slot) (h : j ≠ k) :
    (b.onSlot k f).slots[j]? = b.slots[j]? := by
  rw [Block.onSlot, getElem?_modAt, if_neg h]
theorem Block.onSlot_onSlot (b : Block) (k : Nat) (f g : Slot → Slot) :
    (b.onSlot k f).onSlot k g = b.onSlot k fun x => g (f x) := by
  simp only [Block.onSlot, modAt_modAt]
/-- A slot that sends one token is done, and that token is delivered. -/
theorem Block.emit_one (b : Block) (k : Nat) (d : Dest) (t : Token) :
    b.emit k [(some d, some t)] = deliver 256 [(d, some t)] (b.onSlot k fun x => { x with st := .done, wait := none }) := rfl
theorem deliver_nil (n : Nat) (b : Block) : deliver n [] b = b := by cases n <;> rfl

section
variable {b : Block} {n : Nat} {d : Dest} {k : BitVec 6} {t : Token} {y : Slot}

/-- A second token for a position is the double-delivery fault of the slot that receives it. -/
theorem deliver_twice (hy : b.slots[d.slot.toNat]? = some y) (hh : y.holds d.pos = true) :
    deliver (n + 1) [(d, some t)] b = b.addFault ⟨d.slot.toNat, 3, 0x0C0, 0, 0⟩ := by
  simp only [deliver, hy, hh, if_true, deliver_nil]
theorem deliver_put (hy : b.slots[d.slot.toNat]? = some y) (hst : y.st = .wait) (hh : y.holds d.pos = false) (hp : d.pos ≠ .p) :
    deliver (n + 1) [(d, some t)] b = b.onSlot d.slot.toNat fun x => x.put d.pos t := by
  obtain ⟨k, pos⟩ := d
  cases pos with
  | p => exact absurd rfl hp
  | _ => simp only [deliver, hy, hh, hst, deliver_nil]; rfl

section
variable (hy : b.slots[k.toNat]? = some y) (hst : y.st = .wait) (hp : y.p = none)
include hy hst hp

/-- A P token that is unpoisoned with bit 0 set lets the slot fire. -/
theorem deliver_p_true (ht : t.poison = false) (hb : t.val.getLsbD 0 = true) :
    deliver (n + 1) [(⟨k, .p⟩, some t)] b = b.onSlot k.toNat fun x => { x with p := some t } := by
  simp only [deliver, hy, hst, deliver_nil, Slot.holds, hp, ht, hb]; rfl
/-- One with bit 0 clear turns the slot off. -/
theorem deliver_p_false (ht : t.poison = false) (hb : t.val.getLsbD 0 = false) :
    deliver (n + 1) [(⟨k, .p⟩, some t)] b = b.onSlot k.toNat fun x => { x with p := some t, st := .off } := by
  simp only [deliver, hy, hst, deliver_nil, Slot.holds, hp, ht, hb]
  exact Block.onSlot_onSlot ..
/-- A poisoned one turns it off with the poison trap. -/
theorem deliver_p_poison (ht : t.poison = true) :
    deliver (n + 1) [(⟨k, .p⟩, some t)] b
      = (b.onSlot k.toNat fun x => { x with p := some t, st := .off }).addFault ⟨k.toNat, 4, 0, 2, 0⟩ := by
  simp only [deliver, hy, hst, deliver_nil, Slot.holds, hp, ht]
  exact congrArg (Block.addFault · _) (Block.onSlot_onSlot ..)
end
end

/-- Settles O15: the token of the issuing slot is the one delivery, by its position. -/
theorem tokenDelivery : Obligations.TokenDelivery := by
  intro b k d t y hk hb hst
  have hy : (b.onSlot k fun x => { x with st := .done, wait := none }).slots[d.slot.toNat]? = some y := by
    rw [Block.getElem?_onSlot_ne _ hk, hb]
  rw [Block.emit_one]
  obtain ⟨j, pos⟩ := d
  refine ⟨fun hh hp => deliver_put hy hst hh hp, ?_, ?_, ?_, fun hh => deliver_twice hy hh⟩
  · rintro hp rfl ht hv
    exact deliver_p_true hy hst hp ht hv
  · rintro hp rfl ht hv
    exact deliver_p_false hy hst hp ht hv
  · rintro hp rfl ht
    exact deliver_p_poison hy hst hp ht

end Sys2Proof.Machine
end

-- ==== Proofs of the encoding family: class S (08) ====
section
/-! PROOFS. Class S: registers, exits and frame (08 R166, R174 to R180). -/

namespace Sys2Proof.Machine

/-! ### Exits -/

/-- A target is refused unless it is a multiple of 4 below 2^56 (06 R148). -/
theorem badTarget_eq_false_iff (t : Word) : badTarget t = false ↔ t.toNat % 4 = 0 ∧ t.toNat < 2 ^ 56 := by
  have hlow : bitsN t 1 0 = t.toNat % 4 := by rw [bitsN, BitVec.extractLsb_toNat]; rfl
  simp only [badTarget, Bool.or_eq_false_iff, decide_eq_false_iff_not, not_not, hlow, bitsN_top_byte_eq_zero]
theorem badTarget_eq_true_iff (t : Word) : badTarget t = true ↔ ¬(t.toNat % 4 = 0 ∧ t.toNat < 2 ^ 56) := by
  rw [← badTarget_eq_false_iff, Bool.not_eq_false]

theorem branch_poison {s : State} (h : s.opA.poison = true) : branch s = .next (s.slotFault 4 0 1 0) := if_pos h
theorem branch_good {s : State} (h : s.opA.poison = false) (ht : s.a.toNat % 4 = 0 ∧ s.a.toNat < 2 ^ 56) :
    branch s = .next ((s.exitTo s.a).emit []) := by
  have hb : badTarget s.opA.val = false := (badTarget_eq_false_iff _).2 ht
  rw [branch, h, hb]; rfl
theorem branch_bad {s : State} (h : s.opA.poison = false) (ht : ¬(s.a.toNat % 4 = 0 ∧ s.a.toNat < 2 ^ 56)) :
    branch s = .next (s.slotFault 3 0x0C5 s.a 0) := by
  have hb : badTarget s.opA.val = true := (badTarget_eq_true_iff _).2 ht
  rw [branch, h, hb]; rfl

section
variable {s : State} {t0 : Cons} {imm : BitVec 14}

theorem execBri_good (ht : badTarget (relTarget s imm) = false) :
    execBri imm s = .next ((s.exitTo (relTarget s imm)).emit []) := by
  rw [execBri, ht]; rfl
theorem execBri_bad (ht : badTarget (relTarget s imm) = true) :
    execBri imm s = .next (s.slotFault 3 0x0C5 (relTarget s imm) 0) := by
  rw [execBri, ht]; rfl
theorem execCall_good (ht : badTarget (relTarget s imm) = false) :
    execCall imm t0 s = .next (((s.exitTo (relTarget s imm)).onFir fun f =>
      { f with rets := (s.fir.blk.follow :: f.rets).take 8 }).emit [(t0, tok s.fir.blk.follow)]) := by
  rw [execCall, ht]; rfl
theorem execCall_bad (ht : badTarget (relTarget s imm) = true) :
    execCall imm t0 s = .next (s.slotFault 3 0x0C5 (relTarget s imm) 0) := by
  rw [execCall, ht]; rfl
end

/-! ### WRITE -/

/-- WRITE of F or of one flag, by the poison of the operand (08 R174). -/
theorem execWrite_flags (s : State) (k : BitVec 5) :
    (s.opA.poison = false →
      execWrite .f s = .next ((s.onBlk fun b => { b with fw := b.fw ++ [(s.fir.blk.cur, .all s.aw)] }).emit [])
      ∧ execWrite (.flag k) s
        = .next ((s.onBlk fun b => { b with fw := b.fw ++ [(s.fir.blk.cur, .bit k (s.a.getLsbD 0))] }).emit []))
    ∧ (s.opA.poison = true →
      execWrite .f s = .next (s.slotFault 4 0 6 0) ∧ execWrite (.flag k) s = .next (s.slotFault 4 0 6 0)) := by
  constructor <;> intro h <;> simp only [execWrite, h] <;> exact ⟨rfl, rfl⟩

/-- Settles O13: each form unfolds to its result; a target is judged by `badTarget`. -/
theorem registersExitsAndPlumbing : Obligations.RegistersExitsAndPlumbing := by
  refine ⟨fun s t0 n k => ⟨rfl, rfl, rfl, rfl, execWrite_flags s k⟩, fun s t0 t1 imm => ⟨rfl, rfl, ?_, ?_, ?_, rfl⟩⟩
  · intro i hi
    have hbr : exec i s = branch s := by
      obtain rfl | rfl : i = .br ∨ i = .ret := by simpa using hi
      all_goals rfl
    rw [hbr]
    exact ⟨branch_poison, branch_good, branch_bad⟩
  · rintro t rfl ht
    have hgood := (badTarget_eq_false_iff _).2 ht
    exact ⟨execBri_good hgood, execCall_good hgood⟩
  · rintro t rfl ht
    have hbad := (badTarget_eq_true_iff _).2 ht
    exact ⟨execBri_bad hbad, execCall_bad hbad⟩

/-! ### The frame of class S -/

/-- A form that is neither WRITE nor an exit sends tokens and does nothing else. -/
theorem exec_scalarPlain {i : Instr} (h : i.isScalarPlain = true) (s : State) :
    ∃ outs, exec i s = .next (s.emitAt s.fir.blk.cur outs) := by
  cases i with
  | add | sub | addi | mul | mulh | mulhn | div | divn | rem | remn | and | or | xor | andn | shl | shr | sar | min
  | max | minn | maxn | clz | popc | sext | zext | ceq | cne | clt | cltn | cle | clen | sel | movi | constw | constd
  | read | fan | null | lea => exact ⟨_, rfl⟩
  | _ => simp [Instr.isScalarPlain] at h

theorem State.sameButTokens_emitAt (s : State) (k : Nat) (outs : List (Cons × Option Token)) :
    s.SameButTokens (s.emitAt k outs) :=
  State.sameButTokens_of_blk (Block.emit_same ..) (s.emitAt_eq k outs)
theorem State.SameButTokens.sameButBlock {s t : State} (h : s.SameButTokens t) : s.SameButBlock t := by
  unfold State.SameButTokens at h; rw [h]; rfl
theorem State.SameButBlock.sameButExit {s t : State} (h : s.SameButBlock t) : s.SameButExit t := by
  unfold State.SameButBlock at h; rw [h]; rfl

/-- WRITE and RETIRE change the block alone. -/
theorem execWrite_frame {r : RegSel} {s t : State} (h : execWrite r s = .next t) : s.SameButBlock t := by
  cases r with
  | g n => cases h; rfl
  | f => rw [execWrite] at h; split at h <;> cases h <;> rfl
  | flag n => rw [execWrite] at h; split at h <;> cases h <;> rfl

/-- BR and RET change the block and the exit table, and no return address. -/
theorem branch_frame {s t : State} (h : branch s = .next t) : s.SameButExit t ∧ t.fir.rets = s.fir.rets := by
  unfold branch at h
  split at h
  · cases h; exact ⟨rfl, rfl⟩
  · split at h <;> cases h <;> exact ⟨rfl, rfl⟩
theorem execBri_frame {imm : BitVec 14} {s t : State} (h : execBri imm s = .next t) :
    s.SameButExit t ∧ t.fir.rets = s.fir.rets := by
  rw [execBri] at h
  split at h <;> cases h <;> exact ⟨rfl, rfl⟩
/-- CALL changes the return stack too. -/
theorem execCall_frame {imm : BitVec 14} {t0 : Cons} {s t : State} (h : execCall imm t0 s = .next t) : s.SameButExit t := by
  rw [execCall] at h
  split at h <;> cases h <;> rfl

theorem exec_scalarPlain_frame {i : Instr} {s t : State} (hi : i.isScalarPlain = true) (h : exec i s = .next t) :
    s.SameButTokens t := by
  obtain ⟨outs, ho⟩ := exec_scalarPlain hi s
  cases ho.symm.trans h
  exact s.sameButTokens_emitAt ..
theorem exec_scalar_frame {i : Instr} {s t : State} (hi : i.isScalar = true) (hb : i.isBranch = false) (h : exec i s = .next t) :
    s.SameButBlock t := by
  by_cases hp : i.isScalarPlain = true
  · exact (exec_scalarPlain_frame hp h).sameButBlock
  · rw [Bool.not_eq_true] at hp
    cases i with
    | write r => exact execWrite_frame h
    | retire => cases h; rfl
    | br | bri | call | ret => cases hb
    | _ => exact Bool.noConfusion (hp.symm.trans hi)
theorem exec_branch_frame {i : Instr} {s t : State} (hb : i.isBranch = true) (h : exec i s = .next t) :
    s.SameButExit t ∧ ((∀ imm t0, i ≠ .call imm t0) → t.fir.rets = s.fir.rets) := by
  cases i with
  | br => exact (branch_frame h).imp_right fun hr _ => hr
  | ret => exact (branch_frame h).imp_right fun hr _ => hr
  | bri imm => exact (execBri_frame h).imp_right fun hr _ => hr
  | call imm t0 => exact ⟨execCall_frame h, fun hn => absurd rfl (hn imm t0)⟩
  | _ => cases hb

/-- Settles O14: one frame lemma for each of the three kinds of form. -/
theorem scalarFrame : Obligations.ScalarFrame :=
  fun _ _ _ h => ⟨fun hi hb => exec_scalar_frame hi hb h, fun hb => exec_branch_frame hb h, fun hi => exec_scalarPlain_frame hi h⟩

end Sys2Proof.Machine
end

-- ==== Proofs of the encoding family: what no issue changes (06 R147, R150) ====
section
/-! PROOFS. What no issue changes (06 R147, R150): memory, the general registers with their poison, and F. -/

namespace Sys2Proof.Machine

/-- What only a commit or an engine changes: memory, and the registers of a firing with their poison and F. -/
structure Committed where
  mem : Memory
  regs : Vector Word 64
  gpois : Word
  flags : Half

/-- What stands of it for the firing in focus. -/
def State.committed (s : State) : Committed := ⟨s.mem, s.fir.regs, s.fir.gpois, s.fir.flags⟩
/-- That is `c`, and no memory error waits to be met. -/
structure State.Still (c : Committed) (s : State) : Prop where
  committed : s.committed = c
  calm : s.dev.upsets = []
/-- It still is in the next state, when the outcome is one. -/
structure OutStill (c : Committed) (o : Out) : Prop where
  still : ∀ t, o = .next t → t.Still c
theorem OutStill.next {c : Committed} {t : State} (h : t.Still c) : OutStill c (.next t) := ⟨by rintro _ ⟨⟩; exact h⟩

section
variable {c : Committed} {s : State} (h : s.Still c)
include h

/-! ### The shared operations -/

theorem State.Still.onBlk (f) : (s.onBlk f).Still c := ⟨h.1, h.2⟩
theorem State.Still.onCtx (f) : (s.onCtx f).Still c := ⟨h.1, h.2⟩
theorem State.Still.onCsr (f) : (s.onCsr f).Still c := ⟨h.1, h.2⟩
theorem State.Still.onSync (f) : (s.onSync f).Still c := ⟨h.1, h.2⟩
theorem State.Still.onTile (f) : (s.onTile f).Still c := ⟨h.1, h.2⟩
theorem State.Still.onDev {f : Dev → Dev} (hf : (f s.dev).upsets = s.dev.upsets) : (s.onDev f).Still c := ⟨h.committed, hf.trans h.calm⟩
theorem State.Still.emitAt (k outs) : (s.emitAt k outs).Still c := ⟨h.1, h.2⟩
theorem State.Still.emit (outs) : (s.emit outs).Still c := ⟨h.1, h.2⟩
theorem State.Still.quiet : s.quiet.Still c := ⟨h.1, h.2⟩
theorem State.Still.slotFault (cause detail i0 i1) : (s.slotFault cause detail i0 i1).Still c := ⟨h.1, h.2⟩
theorem State.Still.poisonFault (use) : (s.poisonFault use).Still c := ⟨h.1, h.2⟩
theorem State.Still.rangeFault (v) : (s.rangeFault v).Still c := ⟨h.1, h.2⟩
theorem State.Still.accessFault (detail addr acc) : (s.accessFault detail addr acc).Still c := ⟨h.1, h.2⟩
theorem State.Still.hold (e) : (s.hold e).Still c := ⟨h.1, h.2⟩
theorem State.Still.issue (i) : (s.issue i).Still c := ⟨h.1, h.2⟩
theorem State.Still.vput (q vd act f) : (s.vput q vd act f).Still c := ⟨h.1, h.2⟩

theorem State.Still.flagFp (f) : (s.flagFp f).Still c := ⟨h.1, h.2⟩
theorem State.Still.setLstat (q x) : (s.setLstat q x).Still c := ⟨h.1, h.2⟩
theorem State.Still.setPsts (q x) : (s.setPsts q x).Still c := ⟨h.1, h.2⟩

theorem State.Still.onTileOf (n f) : (s.onTileOf n f).Still c := by
  unfold State.onTileOf
  repeat' split
  all_goals exact ⟨h.1, h.2⟩
theorem State.Still.raiseModule (kind body) : (s.raiseModule kind body).Still c :=
  State.Still.onTileOf (State.Still.onDev h rfl) ..

/-- No error waits to be met: a read leaves the state. -/
theorem State.Still.touch_eq (va k n) : s.touch va k n = s := by
  simp [State.touch, h.calm]
theorem State.Still.touch (va k n) : (s.touch va k n).Still c := by rwa [h.touch_eq]
theorem State.Still.sameButPlace {t : State} (ht : s.SameButPlace t) : t.Still c := by
  obtain ⟨tlb, gated, rfl⟩ := ht
  exact ⟨h.1, h.2⟩
theorem State.Still.global (w acc va n) : (s.global w acc va n).2.Still c := h.sameButPlace (State.sameButPlace_global h.calm ..)
theorem State.Still.place (sp acc x n) : (s.place sp acc x n).2.Still c := h.sameButPlace (State.sameButPlace_place h.calm ..)

/-! ### Waits (05 R111 to R119) -/

theorem State.Still.tie (k r) : (s.tie k r).Still c := by
  unfold State.tie; split <;> exact ⟨h.1, h.2⟩
theorem State.Still.returnWait (k st poll op mk) : (s.returnWait k st poll op mk).Still c := by
  unfold State.returnWait
  repeat' split
  all_goals exact ⟨h.1, h.2⟩
theorem State.Still.finish (k st poll expired mk) : (s.finish k st poll expired mk).Still c := by
  unfold State.finish
  dsimp only
  split
  · exact (h.tie ..).returnWait ..
  · exact h.returnWait ..
theorem State.Still.answer (k st) : (s.answer k st).Still c := (h.tie ..).emitAt ..
theorem State.Still.setWait (k w) : (s.setWait k w).Still c := ⟨h.1, h.2⟩
theorem State.Still.take (k i ws) : (s.take k i ws).Still c := ⟨h.1, h.2⟩
theorem State.Still.dropArr (ref) : (s.dropArr ref).Still c := ⟨h.1, h.2⟩
theorem State.Still.putArr (ref m p) : (s.putArr ref m p).Still c := ⟨h.1, h.2⟩
theorem State.Still.diverge (k) : (s.diverge k).Still c := ⟨h.1, h.2⟩
theorem State.Still.expired (k st poll) : (s.expired k st poll).Still c := by
  unfold State.expired
  split
  · split
    · exact h.finish ..
    · exact h.diverge _
  · exact h.finish ..
theorem State.Still.takeReply {k w t} (ht : s.takeReply k = some (w, t)) : t.Still c := by
  unfold State.takeReply at ht
  split at ht <;> cases ht
  exact h.onSync _
theorem State.Still.onReply (k w st) : (s.onReply k w st).Still c := by
  grind [State.onReply, State.Still.onBlk, State.Still.finish, State.Still.answer, State.Still.dropArr, State.Still.putArr,
    State.Still.setWait, State.Still.expired]
theorem State.Still.touchRing (n j) : (s.touchRing n j).Still c := by
  unfold State.touchRing
  dsimp only
  split
  · exact h.touch ..
  · exact h

theorem State.Still.evalWait {k t} (ht : s.evalWait k = some t) : t.Still c := by
  have hreply (w : Wait) (ht : ((s.takeReply k).map fun x => x.2.onReply k w x.1) = some t) : t.Still c := by
    obtain ⟨x, hx, rfl⟩ := Option.map_eq_some_iff.mp ht
    exact (h.takeReply hx).onReply ..
  unfold State.evalWait at ht
  split at ht
  · cases ht
  · next w hw =>
    obtain ⟨on, e, poll, ext⟩ := w
    dsimp only at ht
    cases on <;> dsimp only at ht
    case reply => exact hreply _ ht
    case quiet =>
      split at ht
      · cases ht
      · exact hreply _ ht
    all_goals grind [State.Still.onCtx, State.Still.emitAt, State.Still.touch, State.Still.finish, State.Still.touchRing,
      State.Still.dropArr, State.Still.take]
theorem State.Still.takeReply_getD (k) : (((s.takeReply k).map (·.2)).getD s).Still c := by
  cases hr : s.takeReply k with
  | none => exact h
  | some x => exact h.takeReply hr
theorem State.Still.expireNow (k w) : (s.expireNow k w).Still c := by
  obtain ⟨on, e, poll, ext⟩ := w
  cases on with
  | barrier ref key m p entry =>
    cases entry with
    | true => exact (State.Still.onDev h rfl).setWait ..
    | false => exact h.finish ..
  | quiet job => exact (State.Still.onDev (h.takeReply_getD k) rfl).finish ..
  | _ => exact h.finish ..
theorem State.Still.expireWait (k) : (s.expireWait k).Still c := by
  unfold State.expireWait
  split
  · exact h
  · split
    · next t ht => exact h.evalWait ht
    · split
      · split
        · exact h.diverge k
        · exact h.setWait ..
      · exact h.expireNow ..
theorem State.Still.begin (on d) : (s.begin on d).Still c := by
  have hw (w) : (s.setWait s.fir.blk.cur w).Still c := h.setWait ..
  have hnot (w : Wait) : (if w.poll && !w.on.isReply then (s.setWait s.fir.blk.cur w).expireWait s.fir.blk.cur
      else s.setWait s.fir.blk.cur w).Still c := by
    split
    · exact (hw w).expireWait _
    · exact hw w
  unfold State.begin
  dsimp only
  split
  · next t ht => exact (hw _).evalWait ht
  · exact hnot _
theorem State.Still.withDeadline {f : Deadline → State} (hf : ∀ d, (f d).Still c) (d) : (s.withDeadline d f).Still c := by
  unfold State.withDeadline
  split
  · exact h.poisonFault _
  · split
    · exact h.slotFault ..
    · exact hf _

/-! ### Class V (09) -/

theorem vbin_still (f vd va vb q) : OutStill c (vbin f vd va vb q s) := .next (h.vput ..).quiet
theorem vun_still (f vd va q) : OutStill c (vun f vd va q s) := .next (h.vput ..).quiet
theorem vshift_still (f k vd va q) : OutStill c (vshift f k vd va q s) := by
  cases k with
  | reg vb => rw [vshift]; exact vbin_still h ..
  | imm n => rw [vshift]; exact vun_still h ..
theorem execVand_still (vd va vb q) : OutStill c (execVand vd va vb q s) := vbin_still h ..
theorem execVor_still (vd va vb q) : OutStill c (execVor vd va vb q s) := vbin_still h ..
theorem execVxor_still (vd va vb q) : OutStill c (execVxor vd va vb q s) := vbin_still h ..
theorem execVcmp_still (ty rel vd va vb q) : OutStill c (execVcmp ty rel vd va vb q s) := vbin_still h ..
theorem execVmov_still (vd va q) : OutStill c (execVmov vd va q s) := vun_still h ..
theorem execVlane_still (src q) : OutStill c (execVlane src q s) := by
  unfold execVlane
  repeat' split
  all_goals exact .next ⟨h.1, h.2⟩
theorem execVcvt_still (pr md vd va q) : OutStill c (execVcvt pr md vd va q s) := by
  unfold execVcvt
  dsimp only
  split
  · exact .next ((h.vput ..).onBlk _).quiet
  · exact .next ((h.vput ..).quiet)
theorem execVqnt_still (f scales vd va q) : OutStill c (execVqnt f scales vd va q s) := by
  unfold execVqnt
  dsimp only
  split <;> exact .next ((h.vput ..).quiet)
theorem execVred_still (op vd va q) : OutStill c (execVred op vd va q s) := by
  unfold execVred
  dsimp only
  split
  · exact .next ((((h.vput ..).flagFp _).setPsts ..).quiet)
  · exact .next ((h.setPsts ..).quiet)
theorem execVstat_still (ph vd va q) : OutStill c (execVstat ph vd va q s) := by
  cases ph with
  | fin => rw [execVstat]; exact .next ((h.vput ..).setPsts ..).quiet
  | _ => rw [execVstat]; exact .next (h.vput ..).quiet
theorem execSett_still (n vd va vb q) : OutStill c (execSett n vd va vb q s) := by
  unfold execSett
  dsimp only
  split
  · exact .next ((h.onCsr _).slotFault ..)
  · split
    · exact .next (h.slotFault ..)
    · exact .next (((h.vput ..).flagFp _).quiet)

/-! ### Class L (11) -/

theorem State.Still.refuse (r acc) : (s.refuse r acc).Still c := by
  unfold State.refuse; split <;> exact ⟨h.1, h.2⟩
theorem State.Still.touchMsg (g i o n) : (s.touchMsg g i o n).Still c := by
  grind [State.touchMsg, State.Still.touch]
theorem State.Still.poisonEvent (l va) : (s.poisonEvent l va).Still c := by
  unfold State.poisonEvent
  split
  · exact h.raiseModule ..
  · exact h
theorem loadFrom_still (sp sx sz t0 t1) : OutStill c (loadFrom sp sx sz t0 t1 s) := by
  grind [loadFrom, State.Still.emit, State.Still.poisonFault, State.Still.touch, State.Still.refuse, State.Still.place,
    State.Still.touchMsg, OutStill.next]
theorem loadHost_still : OutStill c (loadHost s) := by
  grind [loadHost, State.Still.poisonFault, State.Still.rangeFault, State.Still.accessFault, State.Still.begin,
    State.Still.withDeadline, OutStill.next]
theorem execLd_still (sp sx sz t0 t1) : OutStill c (execLd sp sx sz t0 t1 s) := by
  cases sp with
  | host => exact loadHost_still h
  | _ => exact loadFrom_still h ..
theorem storeTo_still (sp vs sz t0 t1) : OutStill c (storeTo sp vs sz t0 t1 s) := by
  grind [storeTo, State.Still.emit, State.Still.slotFault, State.Still.poisonFault, State.Still.hold, State.Still.refuse,
    State.Still.place, State.Still.poisonEvent, OutStill.next]
theorem storeHost_still (sz t0 t1) : OutStill c (storeHost sz t0 t1 s) := by
  unfold storeHost
  dsimp only
  repeat' split
  all_goals exact .next ⟨h.1, h.2⟩
theorem issueSt_still (sp sz t0 t1) : OutStill c (issueSt sp sz t0 t1 s) := by
  cases sp with
  | host => exact storeHost_still h ..
  | _ => exact storeTo_still h ..
theorem State.Still.lanePlaces (sp acc x l) : (s.lanePlaces sp acc x l).2.Still c := by
  fun_induction s.lanePlaces sp acc x l <;> grind [State.Still.place]
theorem touchAll_still (va l) : (touchAll va l s).Still c := by
  fun_induction touchAll va l s <;> grind [State.Still.touch]
theorem execLdv_still (sp va q t0) : OutStill c (execLdv sp va q t0 s) := by
  grind [execLdv, State.Still.emit, State.Still.poisonFault, State.Still.accessFault, State.Still.vput, State.Still.refuse,
    State.Still.lanePlaces, touchAll_still, OutStill.next]
theorem State.Still.poisonEvents (va : Nat × Loc → Word) (l : List (Nat × Loc)) :
    (l.foldl (fun s x => s.poisonEvent x.2 (va x)) s).Still c := by
  induction l generalizing s with
  | nil => exact h
  | cons x l ih => exact ih (h.poisonEvent ..)
theorem issueStv_still (sp va q t0) : OutStill c (issueStv sp va q t0 s) := by
  have hp := h.lanePlaces sp .wr s.opA.val (s.activeLanes q)
  unfold issueStv
  dsimp only
  split
  · exact .next (h.poisonFault _)
  split
  · exact .next (h.accessFault ..)
  split
  · next hl => rw [hl] at hp; exact .next (hp.refuse ..)
  · next hl => rw [hl] at hp; exact .next (((hp.poisonEvents ..).hold _).emit _)
theorem execTlook_still (t0 t1) : OutStill c (execTlook t0 t1 s) := by
  unfold execTlook
  dsimp only
  repeat' split
  all_goals exact .next ⟨h.1, h.2⟩
theorem issueTset_still : OutStill c (issueTset s) := by
  unfold issueTset
  dsimp only
  repeat' split
  all_goals exact .next ⟨h.1, h.2⟩
theorem issueTclr_still : OutStill c (issueTclr s) := by
  unfold issueTclr
  dsimp only
  repeat' split
  all_goals exact .next ⟨h.1, h.2⟩
theorem execLdg_still (n t0 t1) : OutStill c (execLdg n t0 t1 s) := by
  have hw (f : Ctx → Ctx) (p : Prop) [Decidable p] (k w) : ((if p then s.onCtx f else s).setWait k w).Still c := by
    split
    · exact (h.onCtx f).setWait ..
    · exact h.setWait ..
  unfold execLdg
  dsimp only
  split
  · next t ht => exact .next ((hw ..).evalWait ht)
  · exact .next (hw ..)
theorem State.Still.amoPlace (x off n) : (s.amoPlace x off n).2.Still c := by
  grind [State.amoPlace, State.Still.global]
theorem issueAtomic_still (i ret n) : OutStill c (issueAtomic i ret n s) := by
  grind [issueAtomic, State.Still.emit, State.Still.poisonFault, State.Still.rangeFault, State.Still.accessFault, State.Still.hold,
    State.Still.amoPlace, OutStill.next]
theorem State.Still.amovPlaces (x f l) : (s.amovPlaces x f l).2.Still c := by
  fun_induction s.amovPlaces x f l <;> grind [State.Still.amoPlace]

/-! ### Commands that an engine takes at commit -/

theorem issueCmd_still (i useA bad lowOk ws) : OutStill c (issueCmd i useA bad lowOk ws s) := by
  unfold issueCmd
  dsimp only
  repeat' split
  all_goals exact .next ⟨h.1, h.2⟩
theorem issueCopy_still (i n lo hi t0 t1) : OutStill c (issueCopy i n lo hi t0 t1 s) := by
  unfold issueCopy
  dsimp only
  repeat' split
  all_goals exact .next ⟨h.1, h.2⟩
theorem issueFlags_still (i) : OutStill c (issueFlags i s) := by
  unfold issueFlags
  repeat' split
  all_goals exact .next ⟨h.1, h.2⟩
theorem issueSys_still (i bad) : OutStill c (issueSys i bad s) := by
  unfold issueSys
  repeat' split
  all_goals exact .next ⟨h.1, h.2⟩

/-! ### Barriers (13 R270 to R274) -/

theorem State.Still.barPlace (ref acc) : (s.barPlace ref acc).2.Still c := by
  grind [State.barPlace, State.Still.global]
theorem State.Still.withBarrier {k : Nat → State → State} (hk : ∀ n u, u.Still c → (k n u).Still c) (acc noM) :
    (s.withBarrier acc noM k).Still c := by
  grind [State.withBarrier, State.Still.barPlace, State.Still.accessFault, State.Still.poisonFault, State.Still.rangeFault]
theorem State.Still.sendBar (op key) : (s.sendBar op key).Still c := ⟨h.1, h.2⟩
theorem State.Still.await (key d) : (s.await key d).Still c := ⟨h.1, h.2⟩
theorem State.Still.arrive (drop d) : (s.arrive drop d).Still c := by
  refine h.withBarrier (fun key u hu => ?_) _ _
  split
  · dsimp only
    split
    · exact hu.finish ..
    · exact hu.answer ..
  · exact (hu.sendBar ..).await ..
theorem execBaraw_still (t0 t1) : OutStill c (execBaraw t0 t1 s) := .next (h.withDeadline (fun _ => h.arrive ..) _)
theorem execBarw_still (t0 t1) : OutStill c (execBarw t0 t1 s) :=
  .next (h.withDeadline (fun _ => h.withBarrier (fun _ _ hu => (hu.sendBar ..).await ..) ..) _)
theorem execBart_still (t0 t1) : OutStill c (execBart t0 t1 s) := .next (h.withBarrier (fun _ _ hu => (hu.sendBar ..).await ..) ..)

/-! ### Forms that wait, and what they read (12, 13) -/

theorem execKrecv_still (n t0 t1) : OutStill c (execKrecv n t0 t1 s) := by
  refine .next (h.withDeadline (fun d => ?_) _)
  split
  · exact h.finish ..
  · exact h.begin ..
theorem execKpoll_still (n t0 t1) : OutStill c (execKpoll n t0 t1 s) := by
  unfold execKpoll
  split
  · exact .next (h.emit _)
  · dsimp only
    split <;> exact .next ((h.touchRing ..).emit _)
theorem execKwait_still (t0 t1) : OutStill c (execKwait t0 t1 s) := by
  unfold execKwait
  dsimp only
  split
  · exact .next (h.poisonFault _)
  split
  · exact .next (h.rangeFault _)
  · exact .next (h.withDeadline (fun _ => h.begin ..) _)
theorem execKevq_still (t0 t1) : OutStill c (execKevq t0 t1 s) := .next (h.withDeadline (fun _ => h.begin ..) _)
theorem execKstat_still (t0 t1) : OutStill c (execKstat t0 t1 s) := by
  unfold execKstat
  repeat' split
  all_goals exact .next ⟨h.1, h.2⟩
theorem execWaitf_still (k t0 t1) : OutStill c (execWaitf k t0 t1 s) := by
  unfold execWaitf
  split
  · exact .next (h.poisonFault _)
  · refine .next (h.withDeadline (fun d => ?_) _)
    split
    · exact h.rangeFault _
    · exact h.begin ..
theorem execQwait_still (t0 t1) : OutStill c (execQwait t0 t1 s) := by
  unfold execQwait
  split
  · exact .next (h.poisonFault _)
  · refine .next (h.withDeadline (fun d => ?_) _)
    split
    · exact h.rangeFault _
    · exact h.finish ..
    · exact (State.Still.onDev h rfl).begin ..
theorem execQstat_still (i w t0 t1) : OutStill c (execQstat i w t0 t1 s) := by
  unfold execQstat
  repeat' split
  all_goals exact .next ⟨h.1, h.2⟩
theorem execJoin_still (t0 t1) : OutStill c (execJoin t0 t1 s) := by
  unfold execJoin
  split
  · exact .next (h.poisonFault _)
  · refine .next (h.withDeadline (fun d => ?_) _)
    dsimp only
    split
    · exact h.rangeFault _
    split
    · exact h.finish ..
    · exact h.begin ..
theorem execSquery_still (img n t0 t1) : OutStill c (execSquery img n t0 t1 s) := by
  unfold execSquery
  dsimp only
  repeat' split
  all_goals exact .next ⟨h.1, h.2⟩

/-! ### Class Z (13 R285 to R294) -/

theorem execTrap_still (n) : OutStill c (execTrap n s) := by
  unfold execTrap
  split <;> exact .next ⟨h.1, h.2⟩
theorem execBrk_still : OutStill c (execBrk s) := by
  unfold execBrk
  repeat' split
  all_goals exact .next ⟨h.1, h.2⟩
theorem execLogm_still (code) : OutStill c (execLogm code s) := by
  unfold execLogm
  split
  · exact .next (h.poisonFault _)
  · exact .next (h.tie ..).quiet
theorem execPerf_still (k t0 t1) : OutStill c (execPerf k t0 t1 s) := by
  have hd : s.drawn.Still c := ⟨h.1, h.2⟩
  unfold execPerf
  dsimp only
  split
  · exact .next ((hd.onCsr _).emit _)
  · exact .next (h.emit _)
theorem State.Still.spawnIssue (set head t0 t1) : (s.spawnIssue set head t0 t1).Still c := by
  unfold State.spawnIssue
  extract_lets full
  split
  · exact h.emit _
  split
  · exact h.emit _
  · exact (((h.onSync _).onBlk _).hold _).emit _

/-! ### Class S (08) -/

theorem State.Still.sameButExit {t : State} (ht : s.SameButExit t) : t.Still c := by
  unfold State.SameButExit at ht
  rw [ht]
  exact ⟨h.1, h.2⟩
theorem exec_scalar_still {i : Instr} (hi : i.isScalar = true) : OutStill c (exec i s) := by
  refine ⟨fun t ht => ?_⟩
  by_cases hb : i.isBranch = true
  · exact h.sameButExit (exec_branch_frame hb ht).1
  · exact h.sameButExit (exec_scalar_frame hi (by simpa using hb) ht).sameButExit

/-! ### Forms that the core issues and an engine carries out -/

section
variable (hw : s.who = .core)
include hw

theorem execMfmt_still (r) : OutStill c (execMfmt r s) := by
  rw [execMfmt, hw]
  dsimp only
  split
  · exact .next (h.slotFault ..)
  · exact issueCmd_still h ..
theorem execMacc_still (r) : OutStill c (execMacc r s) := by
  rw [execMacc, hw]
  exact issueCmd_still h ..
theorem execMstep_still (r) : OutStill c (execMstep r s) := by
  rw [execMstep, hw]
  dsimp only
  split
  · exact .next ⟨h.1, h.2⟩
  · exact issueCmd_still h ..
theorem execAgen_still (n) : OutStill c (execAgen n s) := by
  rw [execAgen, hw]
  dsimp only
  repeat' split
  all_goals exact .next ⟨h.1, h.2⟩
theorem execAbar_still : OutStill c (execAbar s) := by
  rw [execAbar, hw]
  dsimp only
  repeat' split
  all_goals exact .next ⟨h.1, h.2⟩
theorem execLdw_still (n) : OutStill c (execLdw n s) := by
  rw [execLdw, hw]
  dsimp only
  repeat' split
  all_goals exact .next ⟨h.1, h.2⟩
theorem execPxform_still (p) : OutStill c (execPxform p s) := by
  rw [execPxform, hw]
  dsimp only
  repeat' split
  all_goals exact .next ⟨h.1, h.2⟩
theorem execPmerge_still (p) : OutStill c (execPmerge p s) := by
  rw [execPmerge, hw]
  dsimp only
  repeat' split
  all_goals exact .next ⟨h.1, h.2⟩
theorem execRingdef_still (n) : OutStill c (execRingdef n s) := by
  rw [execRingdef, hw]
  dsimp only
  repeat' split
  all_goals exact .next ⟨h.1, h.2⟩
theorem execResume_still : OutStill c (execResume s) := by
  rw [execResume, hw]
  dsimp only
  repeat' split
  all_goals exact .next ⟨h.1, h.2⟩
theorem execKcancel_still : OutStill c (execKcancel s) := by
  rw [execKcancel, hw]
  dsimp only
  repeat' split
  all_goals exact .next ⟨h.1, h.2⟩
theorem execDput_still (q) : OutStill c (execDput q s) := by
  rw [execDput, hw]
  dsimp only
  repeat' split
  all_goals exact .next ⟨h.1, h.2⟩
theorem execTret_still : OutStill c (execTret s) := by
  rw [execTret, hw]
  dsimp only
  repeat' split
  all_goals exact .next ⟨h.1, h.2⟩
theorem execEscal_still (n) : OutStill c (execEscal n s) := by
  rw [execEscal, hw]
  dsimp only
  repeat' split
  all_goals exact .next ⟨h.1, h.2⟩
theorem execCsrw_still (r) : OutStill c (execCsrw r s) := by
  rw [execCsrw, hw]
  dsimp only
  repeat' split
  all_goals exact .next ⟨h.1, h.2⟩
theorem execCsrx_still (r t0) : OutStill c (execCsrx r t0 s) := by
  rw [execCsrx, hw]
  dsimp only
  repeat' split
  all_goals exact .next ⟨h.1, h.2⟩
theorem execAmov_still (op va q t0) : OutStill c (execAmov op va q t0 s) := by
  have hp := h.amovPlaces s.opA.val (fun l => (s.lane q va l).setWidth 64) (s.activeLanes q)
  rw [execAmov, hw]
  dsimp only
  split
  · exact .next (h.poisonFault _)
  split
  · exact .next (h.poisonFault _)
  split
  · exact .next (h.accessFault ..)
  split
  · exact .next (h.accessFault ..)
  split
  · next hl => rw [hl] at hp; exact .next (hp.accessFault ..)
  · next hl =>
    rw [hl] at hp
    split
    · exact .next (hp.emit _)
    · exact .next ((hp.hold _).emit _)
theorem execKsend_still (rec tag t0 t1) : OutStill c (execKsend rec tag t0 t1 s) := by
  rw [execKsend, hw]
  dsimp only
  split
  · exact .next (h.poisonFault _)
  · refine .next (h.withDeadline (fun d => ?_) _)
    rw [h.touch_eq]
    repeat' split
    all_goals exact ⟨h.1, h.2⟩
theorem execBari_still (sc) : OutStill c (execBari sc s) := by
  rw [execBari, hw]
  refine .next (h.withBarrier (fun key u hu => ?_) _ _)
  split
  · exact hu.poisonFault _
  · exact (hu.hold _).quiet
theorem execFence_still (sc t0 t1) : OutStill c (execFence sc t0 t1 s) := by
  rw [execFence, hw]
  dsimp only
  split
  · exact .next (h.poisonFault _)
  · refine .next (h.withDeadline (fun d => ?_) _)
    split
    · exact h.rangeFault _
    · split
      · exact (h.onCtx _).begin ..
      · exact h.begin ..
theorem execDget_still (q) : OutStill c (execDget q s) := by
  rw [execDget, hw]
  dsimp only
  split
  · exact .next (h.poisonFault _)
  · refine .next (h.withDeadline (fun d => ?_) _)
    split
    · exact h.rangeFault _
    · exact h.issue _
theorem execSpawn_still (set t0 t1) : OutStill c (execSpawn set t0 t1 s) := by
  grind [execSpawn, State.Still.poisonFault, State.Still.rangeFault, State.Still.accessFault, State.Still.touch, State.Still.refuse,
    State.Still.place, State.Still.spawnIssue, OutStill.next]
end
end

/-! ### Every word -/

/-- The core issues a word: of the forms that an engine carries out, the part at issue. -/
def State.byCore (s : State) : State := { s with who := .core }
theorem State.byCore_who (s : State) : s.byCore.who = .core := rfl
theorem State.byCore_of_who {s : State} (hw : s.who = .core) : s.byCore = s := by
  cases s; cases hw; rfl

/-- What the core issues leaves memory, the registers and F; only ILL's trap, and the rows that are no instruction, do not. -/
theorem exec_byCore_still {c : Committed} {s : State} (h : s.byCore.Still c) {i : Instr} (hwf : i.wf = true) (hill : i ≠ .ill) :
    OutStill c (exec i s.byCore) := by
  cases i with
  | ill => exact absurd rfl hill
  | add | sub | addi | mul | mulh | mulhn | div | divn | rem | remn | and | or | xor | andn | shl | shr | sar | min | max
  | minn | maxn | clz | popc | sext | zext | ceq | cne | clt | cltn | cle | clen | sel | movi | constw | constd | read | write
  | fan | null | lea | br | bri | call | ret | retire => exact exec_scalar_still h rfl
  | vadd | vsub | vmul | vmin | vmax => exact vbin_still h ..
  | vabs | vneg | vrcp | vrsq | vexp2 | vlog2 => exact vun_still h ..
  | vand vd va vb q => exact execVand_still h ..
  | vor vd va vb q => exact execVor_still h ..
  | vxor vd va vb q => exact execVxor_still h ..
  | vcmp ty rel vd va vb q => exact execVcmp_still h ..
  | vmov vd va q => exact execVmov_still h ..
  | vshl | vshr | vsar => exact vshift_still h ..
  | vfma | vsel | vdqnt | vsplat => exact .next (h.vput ..).quiet
  | vperm | vbfly => exact .next ((h.vput ..).setLstat ..).quiet
  | vscan | vsmxa => exact .next ((h.vput ..).flagFp _).quiet
  | vsmxn => exact .next ((h.vput ..).setPsts ..).quiet
  | vins => exact .next ((h.vput ..).emit _)
  | vcvt pr md vd va q => exact execVcvt_still h ..
  | vqnt f scales vd va q => exact execVqnt_still h ..
  | vred op vd va q => exact execVred_still h ..
  | vstat ph vd va q => exact execVstat_still h ..
  | vlane src q => exact execVlane_still h ..
  | sett n vd va vb q => exact execSett_still h ..
  | vmovs | mstat | cstat | ringstat | csrr => exact .next (h.emit _)
  | mregion | mwld | mswap | mdrain | mzero | mfree | cload | cfire | cpatch | cmcast | cevict | cweight | chang | cfreeze | cthaw
  | sbind | sfree | kport =>
    simp only [exec, execMregion, execMwld, execMswap, execMdrain, execMzero, execMfree, execCload, execCfire, execCpatch,
      execCmcast, execCevict, execCweight, execChang, execCfreeze, execCthaw, execSbind, execSfree, execKport, State.byCore_who]
    exact issueCmd_still h ..
  | mfmt r => exact execMfmt_still h rfl r
  | macc r => exact execMacc_still h rfl r
  | mstep r => exact execMstep_still h rfl r
  | kcopy | kgath | kscat | kred | kcoll => exact issueCopy_still h ..
  | astart | astop | yield => exact .next (h.issue _)
  | sts => exact .next ((h.hold _).emit _)
  | agen n => exact execAgen_still h rfl n
  | abar => exact execAbar_still h rfl
  | ldw n => exact execLdw_still h rfl n
  | pxform p => exact execPxform_still h rfl p
  | pmerge p => exact execPmerge_still h rfl p
  | ringdef n => exact execRingdef_still h rfl n
  | resume => exact execResume_still h rfl
  | kcancel => exact execKcancel_still h rfl
  | dput q => exact execDput_still h rfl q
  | tret => exact execTret_still h rfl
  | escal n => exact execEscal_still h rfl n
  | csrw r => exact execCsrw_still h rfl r
  | csrx r t0 => exact execCsrx_still h rfl r t0
  | amov op va q t0 => exact execAmov_still h rfl op va q t0
  | ksend rec tag t0 t1 => exact execKsend_still h rfl rec tag t0 t1
  | bari sc => exact execBari_still h rfl sc
  | fence sc t0 t1 => exact execFence_still h rfl sc t0 t1
  | dget q => exact execDget_still h rfl q
  | spawn set t0 t1 => exact execSpawn_still h rfl set t0 t1
  | setf | clrf => exact issueFlags_still h _
  | kill | ctxsave | ctxload | spinv | tlbinv | keysel => exact issueSys_still h ..
  | amo | cas => exact issueAtomic_still h ..
  | st sp sz t0 t1 => exact issueSt_still h ..
  | stv sp va q t0 => exact issueStv_still h ..
  | tset => exact issueTset_still h
  | tclr => exact issueTclr_still h
  | ld sp sx sz t0 t1 => exact execLd_still h ..
  | ldv sp va q t0 => exact execLdv_still h ..
  | ldg n t0 t1 => exact execLdg_still h n t0 t1
  | tlook t0 t1 => exact execTlook_still h ..
  | squery img n t0 t1 => exact execSquery_still h ..
  | krecv n t0 t1 => exact execKrecv_still h n t0 t1
  | kpoll n t0 t1 => exact execKpoll_still h ..
  | kwait t0 t1 => exact execKwait_still h t0 t1
  | kevq t0 t1 => exact execKevq_still h t0 t1
  | kstat t0 t1 => exact execKstat_still h ..
  | bara | bard => exact .next (h.arrive ..)
  | baraw t0 t1 => exact execBaraw_still h t0 t1
  | barw t0 t1 => exact execBarw_still h t0 t1
  | bart t0 t1 => exact execBart_still h t0 t1
  | waitf k t0 t1 => exact execWaitf_still h k t0 t1
  | qwait t0 t1 => exact execQwait_still h t0 t1
  | qstat i w t0 t1 => exact execQstat_still h ..
  | join t0 t1 => exact execJoin_still h t0 t1
  | trap n => exact execTrap_still h n
  | brk => exact execBrk_still h
  | logm code => exact execLogm_still h code
  | perf k t0 t1 => exact execPerf_still h ..
  | _ => cases hwf

/-- Settles O6: a word that decodes is well formed, so it is no row without a word. -/
theorem issueChangesNoMemoryRegisterOrFlag : Obligations.IssueChangesNoMemoryRegisterOrFlag := by
  intro w i s t hdec hill hwho hcalm hx
  have hs : s.byCore.Still s.committed := ⟨rfl, hcalm⟩
  have hout := exec_byCore_still hs (encode_decode hdec).1 hill
  rw [State.byCore_of_who hwho] at hout
  have hc : t.committed = s.committed := (hout.still t hx).committed
  exact ⟨congrArg Committed.mem hc, congrArg Committed.regs hc, congrArg Committed.gpois hc, congrArg Committed.flags hc⟩
end Sys2Proof.Machine
end

-- ==== Proofs of the encoding family: blocks are fetched and dispatched ====
section
/-! BLOCK_FETCH reads a block whole; BLOCK_DISPATCH checks it and lets its slots wait, the one as the other ahead of commit too (06 R139,
R142, R145, R150, R152; 01 R26; 18 R327). -/

namespace Sys2Proof.Machine

/-! ### BLOCK_FETCH (06 R139, R142) -/

section Fetch
variable {s u v : State} {pc : Word}

/-- A flag change of the firing in focus is held. -/
theorem flagsHeld_iff : (s.ctx.dq.any fun e => isFlagEff e.ins && e.fir == s.fir.id) = true
    ↔ ∃ e ∈ s.ctx.dq, isFlagEff e.ins = true ∧ e.fir = s.fir.id := by simp

theorem execBlockFetch_fetching (hid : s.fir.id ≠ 0) (hp : s.fir.phase = .fetch) (hr : s.runs = true)
    (hq : ∀ e ∈ s.ctx.dq, isFlagEff e.ins = true → e.fir ≠ s.fir.id) : exec .blockFetch s = .next s.fetchBlock := by
  have hheld : (s.ctx.dq.any fun e => isFlagEff e.ins && e.fir == s.fir.id) = false := by
    rw [Bool.eq_false_iff, Ne, flagsHeld_iff]
    exact fun ⟨e, hm, hf, he⟩ => hq e hm hf he
  show execBlockFetch s = _
  simp only [execBlockFetch, hid, hp, hr, hheld, ne_eq, not_false_eq_true, Bool.not_false, and_self, if_true]

/-- Where no block is fetched as the next one, the row fetches ahead or does nothing. -/
theorem execBlockFetch_else (h : ¬(s.fir.id ≠ 0 ∧ s.fir.phase = .fetch ∧ s.runs = true)
      ∨ ∃ e ∈ s.ctx.dq, isFlagEff e.ins = true ∧ e.fir = s.fir.id) :
    exec .blockFetch s = match s.fir.aheadAt with
      | some pc => .next (if s.fir.id ≠ 0 ∧ s.runs then s.fetchAhead pc else s)
      | none => .next s := by
  refine if_neg ?_
  rw [← flagsHeld_iff] at h
  rcases h with h | h
  · exact fun ⟨hid, hp, hr, _⟩ => h ⟨hid, hp, hr⟩
  · simp [h]

theorem execBlockFetch_idle (h : ¬(s.fir.id ≠ 0 ∧ s.fir.phase = .fetch ∧ s.runs = true)
      ∨ ∃ e ∈ s.ctx.dq, isFlagEff e.ins = true ∧ e.fir = s.fir.id)
    (hn : s.fir.id = 0 ∨ s.runs = false ∨ s.fir.aheadAt = none) : exec .blockFetch s = .next s := by
  rw [execBlockFetch_else h]
  split
  · next pc hpc =>
    rw [if_neg]
    rintro ⟨hid, hr⟩
    rcases hn with hn | hn | hn
    · exact hid hn
    · rw [hn] at hr; cases hr
    · rw [hn] at hpc; cases hpc
  · rfl

theorem hdrNm1_eq (h : Half) : hdrNm1 h = bitsN h 27 22 := rfl

theorem readBlock_error_hdr {e} (h : fetchWords 1 pc s = (.error e, u)) : s.readBlock pc = (.error e, u) := by
  rw [State.readBlock, h]
theorem readBlock_error_slot {h e} (hh : fetchWords 1 pc s = (.ok [h], u))
    (hs : fetchWords (bitsN h 27 22 + 1) (pc + 4) u = (.error e, v)) : s.readBlock pc = (.error e, v) := by
  rw [← hdrNm1_eq] at hs
  rw [State.readBlock, hh]
  dsimp only [List.headD_cons]
  rw [hs]
theorem readBlock_ok {h ws} (hh : fetchWords 1 pc s = (.ok [h], u))
    (hs : fetchWords (bitsN h 27 22 + 1) (pc + 4) u = (.ok ws, v)) :
    s.readBlock pc = (.ok { addr := pc, hdr := h, slots := ws.map fun w => { word := w } }, v) := by
  rw [← hdrNm1_eq] at hs
  rw [State.readBlock, hh]
  dsimp only [List.headD_cons]
  rw [hs]

/-- As many words are fetched as were asked for. -/
theorem fetchWords_length (n : Nat) (va : Word) (s : State) {ws v} (h : fetchWords n va s = (.ok ws, v)) : ws.length = n := by
  induction n generalizing va s ws v with
  | zero => rw [fetchWords] at h; cases h; rfl
  | succ n ih =>
    rw [fetchWords] at h
    split at h
    · cases h
    · dsimp only at h
      split at h
      · next hr => cases h; rw [List.length_cons, ih _ _ hr]
      · next hno => exact absurd h (hno ws v)
    · cases h

theorem fetchBlock_misaligned (h : badTarget s.fir.pc = true) : s.fetchBlock = s.takeTrap 3 0x0C5 0 s.fir.pc 0 := if_pos h
theorem fetchBlock_error {d a} (h : badTarget s.fir.pc = false) (hr : s.readBlock s.fir.pc = (.error (d, a), u)) :
    s.fetchBlock = u.takeTrap 5 d 0 a 3 := by
  simp [State.fetchBlock, h, hr]
theorem fetchBlock_ok {b} (h : badTarget s.fir.pc = false) (hr : s.readBlock s.fir.pc = (.ok b, u)) :
    s.fetchBlock = u.onFir fun f => { f with phase := .dispatch, blk := b } := by
  simp [State.fetchBlock, h, hr]

/-- Where no upset waits, the word fetched is the one its place holds. -/
theorem fetchWords_one {k} (hu : s.dev.upsets = []) (hg : s.global s.who4 .fetch pc 4 = (.ok (.mem k), u)) :
    ∃ h : Half, fetchWords 1 pc s = (.ok [h], u) ∧ s.mem.Holds (s.kvOf s.who4 k) k 4 h.toNat := by
  have hs : s.SameButPlace u := by simpa [hg] using State.sameButPlace_global hu s.who4 .fetch pc 4
  have ht : u.touch pc k 4 = u := State.touch_of_no_upsets (hs.upsets.trans hu) ..
  refine ⟨BitVec.ofNat 32 (u.mem.read (u.kvOf u.who4 k) k 4), ?_, ?_⟩
  · simp only [fetchWords, hg, ht]
  · obtain ⟨tlb, gated, rfl⟩ := hs
    have hlt : s.mem.read (s.kvOf s.who4 k) k 4 < 2 ^ 32 := Memory.read_lt ..
    have hn : (BitVec.ofNat 32 (s.mem.read (s.kvOf s.who4 k) k 4)).toNat = s.mem.read (s.kvOf s.who4 k) k 4 := by
      rw [BitVec.toNat_ofNat, Nat.mod_eq_of_lt hlt]
    show s.mem.Holds _ k 4 (BitVec.ofNat 32 (s.mem.read (s.kvOf s.who4 k) k 4)).toNat
    rw [hn]
    exact Memory.holds_read ..

/-! ### Fetch ahead of commit (06 R150, 18 R327) -/

/-- Where the core may fetch ahead. -/
theorem aheadAt_eq_some {f : Firing} (h : f.aheadAt = some pc) : f.phase = .run ∧ f.fetched = none ∧ f.ahead.length < 3
    ∧ hdrRet f.youngest.hdr = false ∧ f.youngest.next = some pc ∧ badTarget pc = false := by
  unfold Firing.aheadAt at h
  dsimp only at h
  split at h
  · next hc =>
    obtain ⟨hp, hf, hl, _, hs⟩ := hc
    obtain ⟨hn, hb⟩ := Option.filter_eq_some_iff.mp h
    refine ⟨hp, hf, hl, ?_, hn, by simpa using hb⟩
    simp only [Block.stops, Bool.not_eq_true', Bool.or_eq_false_iff] at hs
    exact hs.1
  · cases h

theorem execBlockFetch_ahead (h : s.fir.aheadAt = some pc) (hid : s.fir.id ≠ 0) (hr : s.runs = true) :
    exec .blockFetch s = .next (s.fetchAhead pc) := by
  have hp : s.fir.phase = .run := (aheadAt_eq_some h).1
  rw [execBlockFetch_else (.inl fun ⟨_, hf, _⟩ => by rw [hp] at hf; cases hf), h]
  exact congrArg _ (if_pos ⟨hid, hr⟩)
theorem fetchAhead_error {e} (h : (s.onFir fun f => { f with blk := {} }).readBlock pc = (.error e, u)) : s.fetchAhead pc = s := by
  rw [State.fetchAhead, h]
theorem fetchAhead_ok {b} (h : (s.onFir fun f => { f with blk := {} }).readBlock pc = (.ok b, u)) :
    s.fetchAhead pc = u.onFir fun f => { f with blk := s.fir.blk, fetched := some b } := by
  rw [State.fetchAhead, h]

end Fetch

/-! ### Entries of the queues (01 R26) -/

/-- Entries of queue `q`: a vector sub-queue has fewer. -/
def queueSize (q : Nat) : Nat := if q < 8 then 64 else 16

theorem fCls_lt (w : Half) : fCls w < 8 := by unfold fCls; omega
/-- The queue of a word is one of the 12, and has the size of that queue. -/
theorem wordQueue_spec (w : Half) : (wordQueue w).1 < 12 ∧ (wordQueue w).2 = queueSize (wordQueue w).1 := by
  have hc := fCls_lt w
  unfold wordQueue queueSize
  split
  · cases (decodeOpt w).bind instrPipe with
    | none => decide
    | some q => have hq := q.isLt; dsimp; exact ⟨by omega, by rw [if_neg (by omega)]⟩
  · exact ⟨hc.trans (by decide), rfl⟩

theorem modAt_succ_getD_le (l : List Nat) (i j : Nat) : (modAt l i (· + 1)).getD j 0 ≤ l.getD j 0 + 1 := by
  rw [List.getD_eq_getElem?_getD, List.getD_eq_getElem?_getD, getElem?_modAt]
  split
  · cases l[j]? <;> simp
  · omega
/-- Slots all find entries where every queue has room for as many as they are. -/
theorem fitting_eq_length (use : List Nat) (sls : List Slot) (h : ∀ q, q < 12 → use.getD q 0 + sls.length ≤ queueSize q) :
    fitting use sls = sls.length := by
  induction sls generalizing use with
  | nil => rfl
  | cons sl l ih =>
    simp only [List.length_cons] at h
    obtain ⟨hq, hn⟩ := wordQueue_spec sl.word
    have hroom := h _ hq
    rw [fitting]
    split
    · rw [ih use fun q hq => by have := h q hq; omega, List.length_cons, Nat.add_comm]
    · dsimp only
      rw [hn, if_pos (by omega), ih _ fun q hq => ?_, List.length_cons, Nat.add_comm]
      have := h q hq
      have := modAt_succ_getD_le use (wordQueue sl.word).1 q
      omega

theorem literalMap_length (ws : List Half) (n : Nat) : (literalMap ws n).length = ws.length := by
  induction ws generalizing n with
  | nil => cases n <;> rfl
  | cons w ws ih => cases n <;> simp [literalMap, ih]
theorem dispatchSlots_length (ws : List Half) : (dispatchSlots (blockRows ws)).length = ws.length := by
  simp [dispatchSlots, blockRows, literalMap_length]

theorem getD_entries (s : State) {q : Nat} (hq : q < 12) : ((List.range 12).map s.entries).getD q 0 = s.entries q := by
  simp [List.getD_eq_getElem?_getD, hq]
/-- All slots of a checked block find entries where every queue has room for as many as they are. -/
theorem fitting_dispatchSlots {s : State} {ws : List Half} (h : ∀ q, q < 12 → s.entries q + ws.length ≤ queueSize q) :
    fitting ((List.range 12).map s.entries) (dispatchSlots (blockRows ws)) = (dispatchSlots (blockRows ws)).length :=
  fitting_eq_length _ _ fun q hq => by rw [getD_entries s hq, dispatchSlots_length]; exact h q hq
/-- A block of which nothing is dispatched holds no entries. -/
theorem Block.entries_undispatched {b : Block} (h : b.rest = b.slots.length) (q : Nat) : b.entries q = 0 := by
  simp [Block.entries, h]

/-! ### BLOCK_DISPATCH (06 R145, R152) -/

section Dispatch
variable {s : State}

theorem State.popReturn_eq (s : State) : ∃ r, s.popReturn = s.onFir fun f => { f with rets := r } := by
  unfold State.popReturn
  split
  · exact ⟨s.fir.rets.drop 1, rfl⟩
  · exact ⟨s.fir.rets, rfl⟩
/-- The prediction changes the note of the block and the return stack only. -/
theorem State.predict_eq (s : State) : ∃ nx r, s.notePrediction.popReturn
    = s.onFir fun f => { f with rets := r, blk := { f.blk with next := nx } } := by
  obtain ⟨r, hr⟩ := s.notePrediction.popReturn_eq
  exact ⟨_, r, hr.trans rfl⟩

/-- The state in which the block of the firing in focus is checked and none of its slots has an entry: its exit is predicted to lead to
`nx`, and the return stack is `r`. -/
def State.checked (s : State) (nx : Option Word) (r : List Word) : State :=
  let sls := dispatchSlots (blockRows (s.fir.blk.slots.map (·.word)))
  (s.onTile fun t => { t with dseq := s.tile.dseq + 1, served := s.fir.slotNo % 8 }).onFir fun f => { f with
    phase := .run, dseq := s.tile.dseq + 1, yielded := false, rets := r
    blk := { f.blk with slots := sls, rest := sls.length, dseq := s.tile.dseq + 1, next := nx } }

theorem State.entries_checked (s : State) (nx r) (q : Nat) :
    (s.checked nx r).entries q = (s.onFir fun f => { f with blk := {} }).entries q := by
  have hnew : (s.checked nx r).fir.blk.entries q = ({} : Block).entries q :=
    (Block.entries_undispatched rfl q).trans (Block.entries_undispatched rfl q).symm
  show (((s.allCtxs.filter _).map _).sum + ((((s.checked nx r).fir.blk.entries q :: _)).sum + _)) = _
  rw [hnew]
  rfl
theorem dispatchBlock_legal (h : blockFault s.ctx.id.sup s.fir.blk.hdr (s.fir.blk.slots.map (·.word)) = none) :
    ∃ nx r, s.dispatchBlock = (s.checked nx r).dispatchMore := by
  simp only [State.dispatchBlock, h]
  obtain ⟨nx, r, hp⟩ := State.predict_eq _
  exact ⟨nx, r, congrArg State.dispatchMore hp⟩
theorem dispatchBlock_trap {k e} (h : blockFault s.ctx.id.sup s.fir.blk.hdr (s.fir.blk.slots.map (·.word)) = some (k, e)) :
    ∃ w : Half, s.dispatchBlock = s.takeTrap (if e = .priv then 2 else 1) e.num (k.getD 0) (w.setWidth 64) 0 := by
  simp only [State.dispatchBlock, h]
  exact ⟨_, rfl⟩
theorem dispatchMore_checked_rest (nx r) (h : ∀ q, q < 12 → (s.onFir fun f => { f with blk := {} }).entries q
      + (s.fir.blk.slots.map (·.word)).length ≤ queueSize q) : (s.checked nx r).dispatchMore.fir.blk.rest = 0 := by
  have hfit := fitting_dispatchSlots (s := s.checked nx r) fun q hq => by rw [State.entries_checked]; exact h q hq
  show _ - fitting _ (List.drop (_ - _) _) = 0
  rw [show (s.checked nx r).fir.blk.slots.length - (s.checked nx r).fir.blk.rest = 0 from Nat.sub_self _, List.drop_zero]
  exact (congrArg _ hfit).trans (Nat.sub_self _)

theorem execBlockDispatch_dispatching (hid : s.fir.id ≠ 0) (hp : s.fir.phase = .dispatch) (hr : s.runs = true) :
    exec .blockDispatch s = .next s.dispatchBlock := if_pos ⟨hid, hp, hr⟩
theorem execBlockDispatch_running (hid : s.fir.id ≠ 0) (hp : s.fir.phase = .run) (hr : s.runs = true) :
    exec .blockDispatch s = .next (if s.fir.blk.rest ≠ 0 then s.dispatchMore else s.dispatchAhead.getD s) :=
  (if_neg fun ⟨_, hd, _⟩ => by rw [hp] at hd; cases hd).trans (if_pos ⟨hid, hp, hr⟩)

/-! ### Dispatch ahead of commit (06 R150) -/

theorem dispatchAhead_unfetched (h : s.fir.fetched = none) : s.dispatchAhead = none := by rw [State.dispatchAhead, h]; rfl
theorem dispatchAhead_illegal {b} (hf : s.fir.fetched = some b) (h : blockFault s.ctx.id.sup b.hdr (b.slots.map (·.word)) ≠ none) :
    s.dispatchAhead = none := by
  rw [State.dispatchAhead, hf]
  exact if_pos (by simp [Option.isSome_iff_ne_none.mpr h])
theorem dispatchAhead_legal {b} (hf : s.fir.fetched = some b) (h : blockFault s.ctx.id.sup b.hdr (b.slots.map (·.word)) = none)
    (hroom : ∀ q, q < 12 → s.entries q + (b.slots.map (·.word)).length ≤ queueSize q) :
    ∃ r nx, s.dispatchAhead = some ((s.onTile fun t => { t with dseq := s.tile.dseq + 1, served := s.fir.slotNo % 8 }).onFir fun f =>
      { f with rets := r, fetched := none, ahead := f.ahead ++
        [{ b with slots := dispatchSlots (blockRows (b.slots.map (·.word))), dseq := s.tile.dseq + 1, next := nx }] }) := by
  rw [State.dispatchAhead, hf]
  dsimp only [Option.bind_some]
  rw [if_neg (by simp [h, fitting_dispatchSlots hroom])]
  obtain ⟨nx, r, hp⟩ := State.predict_eq _
  exact ⟨r, nx, by rw [hp]; rfl⟩
theorem execBlockDispatch_idle (hd : ¬(s.fir.id ≠ 0 ∧ s.fir.phase = .dispatch ∧ s.runs = true))
    (hr : ¬(s.fir.id ≠ 0 ∧ s.fir.phase = .run ∧ s.runs = true ∧ (s.fir.blk.rest ≠ 0 ∨ s.fir.fetched ≠ none))) :
    exec .blockDispatch s = .next s := by
  by_cases hrun : s.fir.id ≠ 0 ∧ s.fir.phase = .run ∧ s.runs = true
  · obtain ⟨hid, hp, hru⟩ := hrun
    have hnone : s.fir.blk.rest = 0 ∧ s.fir.fetched = none := by
      by_contra hne
      exact hr ⟨hid, hp, hru, by tauto⟩
    rw [execBlockDispatch_running hid hp hru, if_neg (by simp [hnone.1]), dispatchAhead_unfetched hnone.2]
    rfl
  · exact (if_neg hd).trans (if_neg hrun)

end Dispatch

end Sys2Proof.Machine
end

-- ==== Proofs of the encoding family: the writes of a commit ====
section
/-! BLOCK_COMMIT writes the registers that its block names, each once, and hands the effects over in the state so prepared (06 R149,
R150; 08 R175). -/

namespace Sys2Proof.Machine

/-! ### Writes of registers at commit (06 R150, 08 R175) -/

/-- What one held write makes of the registers. -/
def Firing.writeReg (f : Firing) (x : Nat × BitVec 6 × Token) : Firing :=
  if x.2.1 = 0 then f
  else { f with
    regs := f.regs.set x.2.1.toFin x.2.2.val
    gpois := if x.2.2.poison then f.gpois ||| ((1 : Word) <<< x.2.1.toNat) else f.gpois &&& ~~~((1 : Word) <<< x.2.1.toNat) }
theorem Firing.commitRegs_eq (f : Firing) : f.commitRegs = { (bySlot f.blk.gw).foldl Firing.writeReg f with
    flags := applyFlags ((bySlot f.blk.fw).map (·.2)) f.flags } := rfl

theorem getLsbD_oneAt (i j : BitVec 6) : ((1 : Word) <<< j.toNat).getLsbD i.toNat = decide (i = j) := by
  have hi := i.isLt
  have hij : i = j ↔ i.toNat = j.toNat := BitVec.toNat_inj.symm
  simp only [BitVec.getLsbD_shiftLeft, hij]
  grind

section Registers
variable {f : Firing} {x : Nat × BitVec 6 × Token} {i : BitVec 6}

/-- The register `i` holds the token. -/
def Firing.HasReg (f : Firing) (i : BitVec 6) (v : Word) (p : Bool) : Prop :=
  f.regs.get i.toFin = v ∧ f.gpois.getLsbD i.toNat = p

theorem Firing.writeReg_same (h : x.2.1 ≠ 0) : (f.writeReg x).HasReg x.2.1 x.2.2.val x.2.2.poison := by
  rw [Firing.writeReg, if_neg h]
  refine ⟨?_, ?_⟩
  · simp [Vector.get_eq_getElem]
  · dsimp only
    have h64 : x.2.1.toNat < 64 := x.2.1.isLt
    split <;> simp [*]
theorem Firing.writeReg_other (h : x.2.1 = i → x.2.1 = 0) :
    (f.writeReg x).HasReg i (f.regs.get i.toFin) (f.gpois.getLsbD i.toNat) := by
  rw [Firing.writeReg]
  split
  · exact ⟨rfl, rfl⟩
  · next h0 =>
    have hne : x.2.1 ≠ i := fun e => h0 (h e)
    have hfin : (x.2.1.toFin : Nat) ≠ i.toFin := fun e => hne (BitVec.toNat_inj.mp e)
    have hi : i.toNat < 64 := i.isLt
    refine ⟨?_, ?_⟩
    · simp only [Vector.get_eq_getElem]
      exact Vector.getElem_set_ne _ _ hfin
    · dsimp only
      split <;> simp only [BitVec.getLsbD_or, BitVec.getLsbD_and, BitVec.getLsbD_not, getLsbD_oneAt, hne.symm, hi] <;> simp

theorem Firing.writeRegs_eq (l : List (Nat × BitVec 6 × Token)) (f : Firing) :
    ∃ r p, l.foldl Firing.writeReg f = { f with regs := r, gpois := p } := by
  induction l generalizing f with
  | nil => exact ⟨f.regs, f.gpois, rfl⟩
  | cons x l ih =>
    obtain ⟨r, p, h⟩ := ih (f.writeReg x)
    refine ⟨r, p, h.trans ?_⟩
    unfold Firing.writeReg
    split <;> rfl
/-- G0 and a register that no write names stay. -/
theorem Firing.writeRegs_other (l : List (Nat × BitVec 6 × Token)) (f : Firing) (h : ∀ y ∈ l, y.2.1 = i → y.2.1 = 0) :
    (l.foldl Firing.writeReg f).HasReg i (f.regs.get i.toFin) (f.gpois.getLsbD i.toNat) := by
  induction l generalizing f with
  | nil => exact ⟨rfl, rfl⟩
  | cons x l ih =>
    obtain ⟨hv, hp⟩ := Firing.writeReg_other (f := f) (h x List.mem_cons_self)
    rw [← hv, ← hp]
    exact ih _ fun y hy => h y (List.mem_cons_of_mem _ hy)
/-- Of writes none of which names the register of another, but G0, each leaves its token. -/
theorem Firing.writeRegs_same {n t} (l : List (Nat × BitVec 6 × Token)) (f : Firing)
    (hd : l.Pairwise fun x y => y.2.1 = x.2.1 → y.2.1 = 0) (hi : i ≠ 0) (hm : (n, i, t) ∈ l) :
    (l.foldl Firing.writeReg f).HasReg i t.val t.poison := by
  induction l generalizing f with
  | nil => cases hm
  | cons x l ih =>
    obtain ⟨hx, hl⟩ := List.pairwise_cons.mp hd
    rcases List.mem_cons.mp hm with rfl | hm
    · obtain ⟨hv, hp⟩ := Firing.writeReg_same (f := f) (x := (n, i, t)) hi
      rw [← hv, ← hp]
      exact Firing.writeRegs_other l _ hx
    · exact ih _ hl hm

end Registers

/-! ### Order by slot, and conflicts -/

theorem insSlot_perm {α : Type} (x : Nat × α) (l : List (Nat × α)) : (insSlot x l).Perm (x :: l) := by
  induction l with
  | nil => exact .refl _
  | cons y l ih =>
    rw [insSlot]
    split
    · exact .refl _
    · exact (ih.cons y).trans (.swap ..)
theorem bySlot_perm {α : Type} (l : List (Nat × α)) : (bySlot l).Perm l := by
  have hfold (l m : List (Nat × α)) : (l.foldl (fun m x => insSlot x m) m).Perm (l ++ m) := by
    induction l generalizing m with
    | nil => exact .refl _
    | cons x l ih => exact (ih _).trans (((insSlot_perm x m).append_left l).trans List.perm_middle)
  exact (hfold l []).trans (by rw [List.append_nil])

theorem lowestFault_eq_none {l : List BFault} : lowestFault l = none ↔ l = [] := by
  cases l with
  | nil => simp [lowestFault]
  | cons f l =>
    simp only [lowestFault, reduceCtorEq, iff_false]
    split
    · split <;> simp
    · simp
/-- A block that does not end in a fault has none. -/
theorem allFaults_eq_nil {s : State} (h : s.blockEnd = none) : s.fir.blk.allFaults = [] := by
  unfold State.blockEnd at h
  split at h
  · cases h
  · next hl => exact lowestFault_eq_none.mp hl
theorem conflicts_eq_nil {s : State} (h : s.blockEnd = none) : s.fir.blk.conflicts = [] := by
  have hall := allFaults_eq_nil h
  simp only [Block.allFaults, List.append_eq_nil_iff, List.map_eq_nil_iff] at hall
  obtain ⟨⟨-, hc⟩, -⟩ := hall
  exact hc
/-- Without a conflict no two writes of a block name one register, but G0. -/
theorem gw_pairwise {b : Block} (hc : b.conflicts = []) (hn : (b.gw.map (·.1)).Nodup) :
    (bySlot b.gw).Pairwise fun x y => y.2.1 = x.2.1 → y.2.1 = 0 := by
  have hsym : ∀ x y : Nat × BitVec 6 × Token, (y.2.1 = x.2.1 → y.2.1 = 0) → (x.2.1 = y.2.1 → x.2.1 = 0) :=
    fun x y h e => e.trans (h e.symm)
  have hg : ∀ x ∈ b.gw, ∀ y ∈ b.gw, y.1 < x.1 → y.2.1 = x.2.1 → x.2.1 = 0 := by
    simp only [Block.conflicts, List.append_eq_nil_iff, List.filterMap_eq_nil_iff] at hc
    obtain ⟨⟨hgw, -⟩, -⟩ := hc
    intro x hx y hy hlt he
    by_contra h0
    have := hgw x hx
    rw [if_pos ⟨h0, List.any_eq_true.mpr ⟨y, hy, by simp [hlt, he]⟩⟩] at this
    cases this
  rw [(bySlot_perm b.gw).pairwise_iff (hsym _ _)]
  have hnd : b.gw.Pairwise fun x y => x.1 ≠ y.1 := List.pairwise_map.mp hn
  refine hnd.imp_of_mem fun {x y} hx hy hne he => ?_
  rcases Nat.lt_or_gt_of_ne hne with hlt | hlt
  · exact hg y hy x hx hlt he.symm
  · exact he.trans (hg x hx y hy hlt he)

/-! ### What a commit changes before it hands over effects (06 R150) -/

/-- What the commit of a block finds or makes: the firing's overrun noted, the suspended firings, the records on their way and in EVQ, and
the general registers with their poison. -/
structure CommitNote where
  overrun : Bool
  susp : Susp → Susp
  held : List Rec
  evq : List Rec
  regs : Vector Word 64
  gpois : BitVec 64
/-- The state after the writes of the committing block, its effects not yet handed over. -/
def State.prepared (s : State) (c : CommitNote) : State :=
  { s with
    fir := { s.fir with
      overrun := c.overrun, regs := c.regs, gpois := c.gpois, flags := applyFlags ((bySlot s.fir.blk.fw).map (·.2)) s.fir.flags }
    ctx := { s.ctx.commitVector s.fir.blk with
      susp := s.ctx.susp.map c.susp, sync := { s.ctx.sync with evqHeld := c.held, evq := c.evq } } }

/-- What the note of an overrun makes of a suspended firing: its name and frame stay, and all of it where none is noted. -/
def State.KeepsSusp (s : State) (g : Susp → Susp) : Prop :=
  (∀ u, (g u).id = u.id ∧ (g u).frame = u.frame)
    ∧ (s.fir.overrun = true ∨ s.ctx.csr.budget.toNat - s.fir.started ≤ s.actorNow.fmax → g = id)
/-- The registers of a firing after the writes that its block holds. -/
def Firing.RegsWritten (f : Firing) (regs : Vector Word 64) (gpois : BitVec 64) : Prop :=
  (∀ i : BitVec 6, i ≠ 0 →
      (∀ n x, (n, i, x) ∈ f.blk.gw → regs.get i.toFin = x.val ∧ gpois.getLsbD i.toNat = x.poison)
      ∧ ((∀ y ∈ f.blk.gw, y.2.1 ≠ i) → regs.get i.toFin = f.regs.get i.toFin ∧ gpois.getLsbD i.toNat = f.gpois.getLsbD i.toNat))
    ∧ regs.get 0 = f.regs.get 0 ∧ gpois.getLsbD 0 = f.gpois.getLsbD 0
/-- The note is that of the commit of the block in focus. -/
def State.Notes (s : State) (c : CommitNote) : Prop :=
  s.KeepsSusp c.susp ∧ (s.blockEnd = none → (s.fir.blk.gw.map (·.1)).Nodup → s.fir.RegsWritten c.regs c.gpois)

/-- A commit writes the registers that the block names and no other, G0 never. -/
theorem Firing.commitRegs_written (f : Firing) : ∃ regs gpois,
    f.commitRegs = { f with regs := regs, gpois := gpois, flags := applyFlags ((bySlot f.blk.fw).map (·.2)) f.flags }
      ∧ (f.blk.conflicts = [] → (f.blk.gw.map (·.1)).Nodup → f.RegsWritten regs gpois) := by
  obtain ⟨regs, gpois, h⟩ := Firing.writeRegs_eq (bySlot f.blk.gw) f
  refine ⟨regs, gpois, by rw [Firing.commitRegs_eq, h], fun hc hn => ⟨fun i hi => ⟨fun n x hm => ?_, fun hno => ?_⟩, ?_⟩⟩
  · have := Firing.writeRegs_same _ f (gw_pairwise hc hn) hi ((bySlot_perm _).mem_iff.mpr hm)
    rwa [h] at this
  · have := Firing.writeRegs_other (i := i) (bySlot f.blk.gw) f fun y hy he => absurd he (hno y ((bySlot_perm _).mem_iff.mp hy))
    rwa [h] at this
  · have := Firing.writeRegs_other (i := 0) (bySlot f.blk.gw) f fun y _ he => he
    rwa [h] at this

/-- An overrun is noted in the firing, at the suspended firings of its actor and by a record. -/
theorem State.noteOverrun_eq (s : State) : ∃ (o : Bool) (g : Susp → Susp) (h : List Rec),
    s.KeepsSusp g ∧ s.noteOverrun = (s.onFir fun f => { f with overrun := o }).onCtx fun c =>
      { c with susp := c.susp.map g, sync := { c.sync with evqHeld := h } } := by
  unfold State.noteOverrun
  dsimp only
  split
  · exact ⟨s.fir.overrun, id, s.ctx.sync.evqHeld, ⟨fun _ => ⟨rfl, rfl⟩, fun _ => rfl⟩, by simp [State.onFir, State.onCtx]⟩
  · next hno =>
    refine ⟨true, fun u => if u.actor = s.fir.actor then { u with overrun := true } else u, _, ⟨fun u => ?_, fun hn => ?_⟩, rfl⟩
    · dsimp only
      split <;> exact ⟨rfl, rfl⟩
    · exact absurd (.inr hn) hno

theorem State.commitLogs_off {s : State} (h : s.ctx.logOn = false) : s.commitLogs = s := by simp [State.commitLogs, h]
theorem State.escalate_nil {s : State} {b : Block} (h : b.esc = []) : s.escalate b = s := by rw [State.escalate, h]; rfl
/-- The state with the value `d` in DEBUG. -/
def State.passed (s : State) (d : Word) : State := s.onCsr fun c => { c with debug := d }
/-- A BRK of the block changes DEBUG only. -/
theorem State.passed_eq (s : State) (b : Bool) :
    ∃ d, (if b then s.onCsr fun c => { c with debug := c.debug &&& 1 } else s) = s.passed d := by
  cases b
  · exact ⟨s.ctx.csr.debug, rfl⟩
  · exact ⟨s.ctx.csr.debug &&& 1, rfl⟩

theorem numberEffs_congr {s t : State} (hf : s.fixedSeen = t.fixedSeen) (hs : s.spaceSeen = t.spaceSeen) (hk : s.keySeen = t.keySeen)
    (es : List Eff) (ser upd seq fseq : Nat) : numberEffs s es ser upd seq fseq = numberEffs t es ser upd seq fseq := by
  induction es generalizing ser upd seq fseq with
  | nil => rfl
  | cons e l ih => simp only [numberEffs, hf, hs, hk, ih]
/-- The note of an overrun leaves the effects of the block. -/
theorem commitEffs_noteOverrun (s : State) : s.noteOverrun.commitEffs = s.commitEffs := by
  obtain ⟨o, g, h, -, hover⟩ := s.noteOverrun_eq
  rw [State.commitEffs, numberEffs_congr (s := s.noteOverrun) (t := s) (by rw [hover]; rfl) (by rw [hover]; rfl) (by rw [hover]; rfl),
    hover]
  rfl

/-- An effect that changes neither flags nor a control register. -/
def Eff.plain (e : Eff) : Prop := isFlagEff e.ins = false ∧ isCsrWriteOf e.ins = none

/-- A commit writes the registers, hands over the effects and takes the exit. -/
theorem commitBlock_eq {s : State} {k x l} (hlog : s.ctx.logOn = false) (hesc : s.fir.blk.esc = [])
    (hplain : ∀ e ∈ s.commitEffs, e.plain) (hx : s.fir.blk.exits = (k, x) :: l) :
    ∃ c d, s.Notes c ∧ s.commitBlock = ((s.commitEffs.foldl State.handOver (s.prepared c)).passed d).takeExit x := by
  obtain ⟨o, g, h, hg, hover⟩ := s.noteOverrun_eq
  obtain ⟨regs, gpois, hcommit, hregs⟩ := Firing.commitRegs_written { s.fir with overrun := o }
  let u := (s.noteOverrun.onFir Firing.commitRegs).onCtx fun c => c.commitVector s.fir.blk
  have hflag : s.commitEffs.filter (isFlagEff ·.ins) = [] := by
    rw [List.filter_eq_nil_iff]; exact fun e he => by simp [(hplain e he).1]
  have hrest : s.commitEffs.filter (!isFlagEff ·.ins) = s.commitEffs := by
    rw [List.filter_eq_self]; exact fun e he => by simp [(hplain e he).1]
  have hcsr : s.commitEffs.filterMap (fun e => isCsrWriteOf e.ins) = [] := by
    rw [List.filterMap_eq_nil_iff]; exact fun e he => (hplain e he).2
  have hblk : s.noteOverrun.fir.blk = s.fir.blk := by rw [hover]; rfl
  have hlogs : u.commitLogs = u := State.commitLogs_off (by simp only [u, hover]; exact hlog)
  let q := u.ctx.sync.evq.filter fun r => !(takenRecs s.commitEffs).contains r.info
  have hprep : u.onSync (fun y => { y with evq := y.evq.filter fun r => !(takenRecs s.commitEffs).contains r.info })
      = s.prepared ⟨o, g, h, q, regs, gpois⟩ := by
    have hu : u = ((s.onFir fun _ => { s.fir with overrun := o }.commitRegs).onCtx fun c =>
        { c with susp := c.susp.map g, sync := { c.sync with evqHeld := h } }).onCtx fun c => c.commitVector s.fir.blk := by
      simp only [u, hover]; rfl
    simp only [q, hu, hcommit]
    rfl
  obtain ⟨d, hd⟩ := State.passed_eq (s.commitEffs.foldl State.handOver (s.prepared ⟨o, g, h, q, regs, gpois⟩)) s.fir.blk.pass
  refine ⟨⟨o, g, h, q, regs, gpois⟩, d, ⟨hg, fun hend => hregs (conflicts_eq_nil hend)⟩, ?_⟩
  simp only [u] at hlogs hprep
  simp only [State.commitBlock, hblk, commitEffs_noteOverrun, hlogs, hprep, hflag, hrest, hcsr, List.append_nil, List.foldl_nil, hd, hx,
    State.escalate_nil hesc]

end Sys2Proof.Machine
end

-- ==== Proofs of the encoding family: blocks commit ====
section
/-! Where a firing goes on after its commit, how it retires, and where the effects of its block go (06 R150; 02 R42; 11 R233; 22 R383). -/

namespace Sys2Proof.Machine

/-! ### BLOCK_COMMIT of a block without effects (06 R150, 02 R42) -/

section NoEffects
variable {s : State} {a : Word} {b : Block} {l : List Block} {k : Nat} {x : Exit}

theorem execBlockCommit_sound (hid : s.fir.id ≠ 0) (hp : s.fir.phase = .run) (hd : s.fir.blk.decided = true)
    (hs : s.ctx.csr.saving = false) (hpr : s.ctx.id.present = true) (hend : s.blockEnd = none) (hsp : s.spaceWaits = false)
    (hdq : ∀ e ∈ s.ctx.dq, isFlagEff e.ins = false) (hlog : s.ctx.logOn = false) :
    exec .blockCommit s = .next s.commitBlock := by
  have hflags : s.ctx.flagsWait = false := by simpa [Ctx.flagsWait] using hdq
  show execBlockCommit s = _
  simp [execBlockCommit, hid, hp, hd, hs, hpr, hend, State.commitWaits, hsp, hflags, State.logWaits, State.logFault, hlog]

theorem commitEffs_nil (h : s.fir.blk.effs = []) : s.commitEffs = [] := by
  rw [State.commitEffs, h]; rfl
/-- A commit of a block without effects writes the registers and takes the exit. -/
theorem commitBlock_noEffects (hlog : s.ctx.logOn = false) (hesc : s.fir.blk.esc = []) (heffs : s.fir.blk.effs = [])
    (hx : s.fir.blk.exits = [(k, x)]) :
    ∃ c d, s.Notes c ∧ s.commitBlock = ((s.prepared c).passed d).takeExit x := by
  have hnil := commitEffs_nil heffs
  obtain ⟨c, d, hc, h⟩ := commitBlock_eq hlog hesc (by simp [hnil]) hx
  rw [hnil] at h
  exact ⟨c, d, hc, h⟩

theorem goOn_next (h : s.fir.ahead = b :: l) (ha : b.addr = a) :
    s.goOn a = s.onFir fun f => { f with pc := a, blk := b, dseq := b.dseq, ahead := l } := by
  simp [State.goOn, h, ha, State.onFir]
theorem goOn_elsewhere (h : s.fir.ahead = b :: l) (ha : b.addr ≠ a) :
    s.goOn a = s.dropAhead.onFir fun f => { f with phase := .fetch, pc := a, blk := {} } := by
  simp [State.goOn, h, ha]
theorem goOn_fetched (h : s.fir.ahead = []) (hf : s.fir.fetched = some b) (ha : b.addr = a) :
    s.goOn a = s.onFir fun f => { f with phase := .dispatch, pc := a, blk := b, fetched := none } := by
  simp [State.goOn, h, hf, ha]
theorem goOn_fetched_elsewhere (h : s.fir.ahead = []) (hf : s.fir.fetched = some b) (ha : b.addr ≠ a) :
    s.goOn a = s.dropAhead.onFir fun f => { f with phase := .fetch, pc := a, blk := {} } := by
  simp [State.goOn, h, hf, ha]
theorem goOn_alone (h : s.fir.ahead = []) (hf : s.fir.fetched = none) :
    s.goOn a = s.onFir fun f => { f with phase := .fetch, pc := a, blk := {} } := by
  simp [State.goOn, h, hf]

/-- The commit counts in PERF 0 only. -/
theorem perf_prepared (s : State) (c : CommitNote) (n : Nat) :
    (s.prepared c).ctx.csr.perf.getD n 0 = if n = 0 then s.ctx.csr.perf.getD n 0 + 1 else s.ctx.csr.perf.getD n 0 := by
  refine (getV_modV ..).trans ?_
  simp

/-- The firing goes on with the block dispatched ahead, or all of them are abandoned. -/
theorem goOn_dispatched (hph : s.fir.phase = .run) (h : s.fir.ahead = b :: l) :
    (s.goOn a).fir.pc = a ∧ (s.goOn a).mem = s.mem ∧ (s.goOn a).dev = s.dev
    ∧ (b.addr = a → (s.goOn a).fir.phase = .run ∧ (s.goOn a).fir.blk = b ∧ (s.goOn a).fir.ahead = l
        ∧ (s.goOn a).fir.fetched = s.fir.fetched ∧ (s.goOn a).ctx.csr.perf.getD 1 0 = s.ctx.csr.perf.getD 1 0)
    ∧ (b.addr ≠ a → (s.goOn a).fir.phase = .fetch ∧ (s.goOn a).fir.blk = {} ∧ (s.goOn a).fir.ahead = [] ∧ (s.goOn a).fir.fetched = none
        ∧ (s.goOn a).ctx.csr.perf.getD 1 0 = s.ctx.csr.perf.getD 1 0 + BitVec.ofNat 64 (b :: l).length) := by
  obtain ⟨hpc, -, hmem, hdev, -⟩ := s.goOn_frame a
  refine ⟨hpc, hmem, hdev, fun ha => ?_, fun ha => ?_⟩
  · rw [goOn_next h ha]
    exact ⟨hph, rfl, rfl, rfl, rfl⟩
  · rw [goOn_elsewhere h ha]
    refine ⟨rfl, rfl, rfl, rfl, (getV_modV ..).trans ?_⟩
    rw [h]
    simp

/-- A trap firing that retires is noted in the suspended firing of its frame; nothing is released or published (22 R383). -/
theorem retire_trap (ht : s.fir.trap = true) (hu : s.dev.upsets = []) :
    s.retire = { (s.onCtx fun c => { c with
      csr := { c.csr with perf := modV c.csr.perf 3 (· + 1) }
      susp := c.susp.map fun u => if u.frame = s.fir.frame then
        { u with retired := true, freed := !hasBit (s.winWord u.frame) 62 } else u }) with fir := {} } := by
  simp only [State.retire, ht, if_true, State.touch_of_no_upsets hu]
  rfl
/-- A firing of an actor without ports only leaves its actor. -/
theorem retire_portless (ht : s.fir.trap = false) (hi : s.actorNow.ins = []) (ho : s.actorNow.outs = []) :
    s.retire = { (s.onGraph fun g => g.onActor s.fir.actor fun a => { a with active := false }).onCsr
      (fun c => { c with perf := modV c.perf 3 (· + 1) }) with fir := {} } := by
  simp [State.retire, ht, hi, ho, joinPorts]

section Exits
variable (hlog : s.ctx.logOn = false) (hesc : s.fir.blk.esc = []) (heffs : s.fir.blk.effs = [])
include hlog hesc heffs

theorem commitBlock_ahead (hph : s.fir.phase = .run) (hx : s.fir.blk.exits = [(k, .to a)]) (h : s.fir.ahead = b :: l) :
    s.commitBlock.fir.pc = a ∧ s.commitBlock.mem = s.mem ∧ s.commitBlock.dev = s.dev
    ∧ (b.addr = a → s.commitBlock.fir.phase = .run ∧ s.commitBlock.fir.blk = b ∧ s.commitBlock.fir.ahead = l
        ∧ s.commitBlock.fir.fetched = s.fir.fetched ∧ s.commitBlock.ctx.csr.perf.getD 1 0 = s.ctx.csr.perf.getD 1 0)
    ∧ (b.addr ≠ a → s.commitBlock.fir.phase = .fetch ∧ s.commitBlock.fir.blk = {} ∧ s.commitBlock.fir.ahead = []
        ∧ s.commitBlock.fir.fetched = none
        ∧ s.commitBlock.ctx.csr.perf.getD 1 0 = s.ctx.csr.perf.getD 1 0 + BitVec.ofNat 64 (b :: l).length) := by
  obtain ⟨c, d, -, hc⟩ := commitBlock_noEffects hlog hesc heffs hx
  have hperf : (s.prepared c).ctx.csr.perf.getD 1 0 = s.ctx.csr.perf.getD 1 0 := perf_prepared s c 1
  rw [hc, ← hperf]
  exact goOn_dispatched (s := (s.prepared c).passed d) hph h

theorem commitBlock_fetched (hx : s.fir.blk.exits = [(k, .to a)]) (h : s.fir.ahead = []) (hf : s.fir.fetched = some b) :
    s.commitBlock.fir.pc = a ∧ s.commitBlock.fir.fetched = none ∧ s.commitBlock.mem = s.mem ∧ s.commitBlock.dev = s.dev
      ∧ (b.addr = a → s.commitBlock.fir.phase = .dispatch ∧ s.commitBlock.fir.blk = b)
      ∧ (b.addr ≠ a → s.commitBlock.fir.phase = .fetch ∧ s.commitBlock.fir.blk = {}) := by
  obtain ⟨c, d, -, hc⟩ := commitBlock_noEffects hlog hesc heffs hx
  rw [hc, State.takeExit]
  by_cases ha : b.addr = a
  · rw [goOn_fetched (s := (s.prepared c).passed d) h hf ha]
    exact ⟨rfl, rfl, rfl, rfl, fun _ => ⟨rfl, rfl⟩, fun hne => absurd ha hne⟩
  · rw [goOn_fetched_elsewhere (s := (s.prepared c).passed d) h hf ha]
    exact ⟨rfl, rfl, rfl, rfl, fun he => absurd he ha, fun _ => ⟨rfl, rfl⟩⟩

theorem commitBlock_alone (hend : s.blockEnd = none) (hn : (s.fir.blk.gw.map (·.1)).Nodup) (hx : s.fir.blk.exits = [(k, .to a)])
    (h : s.fir.ahead = []) (hf : s.fir.fetched = none) :
    s.commitBlock.fir.pc = a ∧ s.commitBlock.fir.phase = .fetch ∧ s.commitBlock.fir.blk = {} ∧ s.commitBlock.fir.id = s.fir.id
      ∧ s.commitBlock.mem = s.mem ∧ s.commitBlock.dev = s.dev
      ∧ s.fir.RegsWritten s.commitBlock.fir.regs s.commitBlock.fir.gpois
      ∧ s.commitBlock.fir.flags = applyFlags ((bySlot s.fir.blk.fw).map (·.2)) s.fir.flags
      ∧ s.commitBlock.ctx.csr.perf.getD 0 0 = s.ctx.csr.perf.getD 0 0 + 1 ∧ s.commitBlock.ctx.streams = s.ctx.streams := by
  obtain ⟨c, d, ⟨-, hregs⟩, hc⟩ := commitBlock_noEffects hlog hesc heffs hx
  rw [hc, State.takeExit, goOn_alone (s := (s.prepared c).passed d) h hf]
  exact ⟨rfl, rfl, rfl, rfl, rfl, rfl, hregs hend hn, rfl, perf_prepared s c 0, rfl⟩

/-- The commit of a trap firing's last block notes its frame as retired. -/
theorem commitBlock_retire_trap (hx : s.fir.blk.exits = [(k, .retire)]) (ht : s.fir.trap = true) (hu : s.dev.upsets = []) :
    s.commitBlock.fir.id = 0 ∧ s.commitBlock.mem = s.mem
      ∧ s.commitBlock.ctx.csr.perf.getD 3 0 = s.ctx.csr.perf.getD 3 0 + 1
      ∧ ∀ u ∈ s.ctx.susp, u.frame = s.fir.frame → ∃ v ∈ s.commitBlock.ctx.susp, v.id = u.id ∧ v.retired = true := by
  obtain ⟨c, d, ⟨⟨hsusp, -⟩, -⟩, hc⟩ := commitBlock_noEffects hlog hesc heffs hx
  have hperf : (s.prepared c).ctx.csr.perf.getD 3 0 = s.ctx.csr.perf.getD 3 0 := perf_prepared s c 3
  rw [hc, State.takeExit, retire_trap (s := (s.prepared c).passed d) ht hu]
  refine ⟨rfl, rfl, (getV_modV ..).trans ((if_pos (by decide)).trans (congrArg (· + 1) hperf)), fun u hu hf => ?_⟩
  obtain ⟨hid, hframe⟩ := hsusp u
  have hfr : (c.susp u).frame = ((s.prepared c).passed d).fir.frame := hframe.trans hf
  refine ⟨_, List.mem_map_of_mem (List.mem_map_of_mem hu), ?_⟩
  rw [if_pos hfr]
  exact ⟨hid, rfl⟩

theorem commitBlock_retire_actor (hx : s.fir.blk.exits = [(k, .retire)]) (ht : s.fir.trap = false) (hi : s.actorNow.ins = [])
    (ho : s.actorNow.outs = []) (hover : s.fir.overrun = true ∨ s.ctx.csr.budget.toNat - s.fir.started ≤ s.actorNow.fmax) :
    s.commitBlock.fir.id = 0 ∧ s.commitBlock.mem = s.mem ∧ s.commitBlock.ctx.firs = s.ctx.firs ∧ s.commitBlock.ctx.susp = s.ctx.susp
      ∧ ∀ a, s.ctx.graph.actors[s.fir.actor]? = some a →
          s.commitBlock.ctx.graph.actors[s.fir.actor]? = some { a with active := false } := by
  obtain ⟨c, d, ⟨⟨-, hsame⟩, -⟩, hc⟩ := commitBlock_noEffects hlog hesc heffs hx
  rw [hc, State.takeExit, retire_portless (s := (s.prepared c).passed d) ht hi ho]
  refine ⟨rfl, rfl, rfl, ?_, fun a ha => ?_⟩
  · show s.ctx.susp.map c.susp = _
    rw [hsame hover, List.map_id]
  · show (modAt s.ctx.graph.actors s.fir.actor _)[s.fir.actor]? = _
    rw [getElem?_modAt, if_pos rfl, ha]
    rfl

end Exits
end NoEffects

/-! ### Effects handed over at commit (06 R150, 11 R233) -/

section Effects
variable {s : State} {e x : Eff} {a : Word} {k : Nat}

/-- The one effect of a block as it is handed over: the next serial, the place and operands with which it issued. -/
theorem commitEffs_single (h : s.fir.blk.effs = [e]) : ∃ x, s.commitEffs = [x] ∧ x.ins = e.ins ∧ x.a = e.a ∧ x.b = e.b ∧ x.locs = e.locs
    ∧ x.ser = s.ctx.ser + 1 ∧ x.keyslot = s.keySeen ∧ (feedsO e.ins e.slot = false → x.after = []) ∧ ∀ n ∈ x.behind, n = x.ser := by
  rw [State.commitEffs, h]
  refine ⟨_, rfl, rfl, rfl, rfl, rfl, rfl, rfl, fun hf => ?_, fun n hn => ?_⟩
  · simp [bySlot, insSlot, numberEffs, hf]
  · obtain ⟨y, hy, rfl⟩ := List.mem_map.mp hn
    have hy := (List.mem_filter.mp hy).1
    simp only [List.map_cons, List.map_nil, bySlot, insSlot, List.foldl_cons, List.foldl_nil, numberEffs, List.mem_singleton] at hy
    rw [hy]

theorem plain_of_route (h : instrRoute e.ins ≠ .now) : e.plain := by
  constructor
  · unfold isFlagEff
    split
    · next hi => exact absurd (congrArg instrRoute hi) h
    · next hi => exact absurd (congrArg instrRoute hi) h
    · rfl
  · unfold isCsrWriteOf
    split
    · next hi => exact absurd (congrArg instrRoute hi) h
    · next hi => exact absurd (congrArg instrRoute hi) h
    · rfl
theorem withFirings_plain (h : isFlagEff e.ins = false) : s.withFirings e = e := by
  unfold State.withFirings
  split
  · next hi => rw [hi] at h; cases h
  · next hi => rw [hi] at h; cases h
  · rfl

/-- The counts of effects, updates and fixed order after an effect is handed over. -/
def State.counted (s : State) (e : Eff) : State :=
  (s.onCtx fun c => { c with
    ser := Nat.max c.ser e.ser
    updSeq := Nat.max c.updSeq (e.seq + effUpds e)
    fixSeq := Nat.max c.fixSeq (e.fseq + if e.fix then effUpds e else 0) }).onDev fun d =>
      { d with nextUpd := Nat.max d.nextUpd (e.upd + effUpds e) }
/-- A command of the copy engine joins its queue. -/
theorem handOver_kq (h : instrRoute e.ins = .kq) :
    s.handOver e = (s.counted e).onCtx fun c => { c with kq := c.kq ++ [e] } := by
  have hw : s.withFirings e = e := withFirings_plain (plain_of_route (by simp [h])).1
  simp only [State.handOver, hw, h]
  rfl

/-- Nothing holds back a store behind no other command: it is performed at once. -/
theorem handOver_st {vs sz t0 t1} (hi : e.ins = .st vs sz t0 t1) (hlq : s.ctx.lq = []) (hh : s.ctx.holdScalar = none)
    (hfree : (s.counted e).effFree e = true) : s.handOver e = (s.counted e).commitStore e := by
  have hw : s.withFirings e = e := withFirings_plain (by rw [hi]; rfl)
  have hlq' : (s.counted e).ctx.lq = [] := hlq
  have hh' : (s.counted e).ctx.holdScalar = none := hh
  have hcount : (s.handOver e) = if isStore e.ins && (!(s.counted e).effFree e || (s.counted e).ctx.holdScalar.isSome
        || (s.counted e).ctx.lq.any fun x => isStore x.ins) then (s.counted e).onCtx fun c => { c with lq := c.lq ++ [e] }
      else if !(s.counted e).effFree e then (s.counted e).onCtx fun c => { c with dq := c.dq ++ [e] }
      else (s.counted e).applyNow e := by
    simp only [State.handOver, hw, hi, instrRoute, isTake]
    rfl
  rw [hcount, hfree, hlq', hh', if_neg (by simp), if_neg (by simp), State.applyNow, hi]

/-- The one store of a block waits for nothing when no access is held and no read of an earlier block is left. -/
theorem effFree_st {vs sz t0 t1} (hi : e.ins = .st vs sz t0 t1) (hafter : e.after = []) (hbehind : ∀ n ∈ e.behind, n = e.ser)
    (hlq : s.ctx.lq = []) (hun : s.ctx.unread = []) : (s.counted e).effFree e = true := by
  have hlq' : (s.counted e).ctx.lq = [] := hlq
  have hun' : (s.counted e).ctx.unread = [] := hun
  have hser : e.ser ≤ (s.counted e).ctx.ser := Nat.le_max_right ..
  have hdone : e.behind.all (s.counted e).storeDone = true := by
    rw [List.all_eq_true]
    intro n hn
    rw [hbehind n hn]
    simp [State.storeDone, hlq', hser]
  simp [State.effFree, hafter, hdone, Eff.wall, hi, Ctx.readsFirst, Ctx.behindAbar, hlq', hun']

/-- A store of aligned bytes into a word that takes them. -/
theorem storeMem_stored {m : Memory} {kv : Option (BitVec 512)} {sz : Size} {v : Nat} {p : Bool} (hwf : m.wf = true)
    (hk : k % accSize sz = 0) (hp : accSize sz = 8 ∨ m.poisoned k = false) :
    m.Stored (storeMem m kv k (accSize sz) v p) kv k (accSize sz) v := by
  have hview (kx : Option (BitVec 512)) (y : Nat) :
      (storeMem m kv k (accSize sz) v p).view kx y = (m.write kv k v (accSize sz)).view kx y := by
    unfold storeMem
    split
    · next hlt =>
      rw [if_neg (by rcases hp with h | h <;> simp_all)]
      dsimp only
      split <;> simp
    · simp
  have hblk : k / 16 = (k + accSize sz - 1) / 16 := by cases sz <;> simp only [accSize] at hk ⊢ <;> omega
  refine ⟨fun i hi => ?_, fun y hy => ?_, fun y kx hy => ?_⟩
  · rw [hview, Memory.view_write_in hwf kv k v _ i hi (by omega), BitVec.toNat_ofNat]
  · rw [hview, Memory.view_write_other hwf kv k v _ y hblk.symm hy]
  · rw [hview, Memory.view_write_line hwf kv kx k v _ y hblk.symm (by omega)]

/-- A store of the window writes its one place, where that takes it. -/
theorem commitStore_window {sz t0 t1} {m : Nat} (hi : e.ins = .st .window sz t0 t1) (hl : e.locs = [.mem m])
    (hp : accSize sz = 8 ∨ s.mem.poisoned m = false) :
    (s.commitStore e).mem = storeMem s.mem (s.dev.keyAt e.keyslot.toNat m) m (accSize sz) e.b.val.toNat e.b.poison := by
  have hroom : ¬(accSize sz < 8 ∧ s.mem.poisoned m = true) := by rcases hp with h | h <;> simp [h]
  simp [State.commitStore, hi, hl, State.applyStore, hroom]

/-- A commit of a block with one effect of a kind that changes neither flags nor a control register. -/
theorem commitBlock_single (hlog : s.ctx.logOn = false) (hesc : s.fir.blk.esc = []) (he : s.commitEffs = [x]) (hplain : x.plain)
    (hx : s.fir.blk.exits = [(k, .to a)]) :
    ∃ c d, s.Notes c ∧ s.commitBlock = (((s.prepared c).handOver x).passed d).goOn a := by
  obtain ⟨c, d, hc, h⟩ := commitBlock_eq hlog hesc (by simpa [he] using hplain) hx
  rw [he] at h
  exact ⟨c, d, hc, h⟩

/-- Where the firing goes on leaves the queue of the copy engine and the count of effects. -/
theorem goOn_kq (s : State) (a : Word) : (s.goOn a).ctx.kq = s.ctx.kq ∧ (s.goOn a).ctx.ser = s.ctx.ser := by
  unfold State.goOn
  repeat' split
  all_goals exact ⟨rfl, rfl⟩

theorem commitBlock_kq (hlog : s.ctx.logOn = false) (hesc : s.fir.blk.esc = []) (he : s.fir.blk.effs = [e])
    (hx : s.fir.blk.exits = [(k, .to a)]) (hr : instrRoute e.ins = .kq) :
    ∃ x, s.commitBlock.ctx.kq = s.ctx.kq ++ [x] ∧ x.ins = e.ins ∧ x.a = e.a ∧ x.b = e.b ∧ x.ser = s.ctx.ser + 1
      ∧ s.commitBlock.ctx.ser = s.ctx.ser + 1 ∧ s.commitBlock.mem = s.mem ∧ s.commitBlock.fir.pc = a := by
  obtain ⟨x, hes, hins, hxa, hxb, -, hser, -⟩ := commitEffs_single he
  rw [← hins] at hr
  obtain ⟨c, d, -, hc⟩ := commitBlock_single hlog hesc hes (plain_of_route (by simp [hr])) hx
  rw [handOver_kq hr] at hc
  let w := (((s.prepared c).counted x).onCtx fun c => { c with kq := c.kq ++ [x] }).passed d
  obtain ⟨hpc, -, hmem, -⟩ := w.goOn_frame a
  obtain ⟨hkq, hws⟩ := goOn_kq w a
  have hmax : Nat.max s.ctx.ser x.ser = s.ctx.ser + 1 := by rw [hser]; exact Nat.max_eq_right (Nat.le_succ _)
  rw [hc]
  exact ⟨x, hkq, hins, hxa, hxb, hser, hws.trans hmax, hmem, hpc⟩

theorem commitBlock_st {sz t0 t1} {m : Nat} (hlog : s.ctx.logOn = false) (hesc : s.fir.blk.esc = []) (he : s.fir.blk.effs = [e])
    (hx : s.fir.blk.exits = [(k, .to a)]) (hi : e.ins = .st .window sz t0 t1) (hl : e.locs = [.mem m]) (hlq : s.ctx.lq = [])
    (hh : s.ctx.holdScalar = none) (hun : s.ctx.unread = []) (hm : m % accSize sz = 0) (hwf : s.mem.wf = true)
    (hp : accSize sz = 8 ∨ s.mem.poisoned m = false) :
    s.commitBlock.fir.pc = a ∧ s.mem.Stored s.commitBlock.mem (s.dev.keyAt s.keySeen.toNat m) m (accSize sz) e.b.val.toNat := by
  obtain ⟨x, hes, hins, -, hxb, hxl, -, hkey, hafter, hbehind⟩ := commitEffs_single he
  have hxi : x.ins = .st .window sz t0 t1 := hins.trans hi
  obtain ⟨c, d, -, hc⟩ := commitBlock_single hlog hesc hes ⟨by rw [hxi]; rfl, by rw [hxi]; rfl⟩ hx
  have hfree : ((s.prepared c).counted x).effFree x = true :=
    effFree_st hxi (hafter (by rw [hi]; rfl)) hbehind hlq hun
  rw [handOver_st (s := s.prepared c) hxi hlq hh hfree] at hc
  let w := ((s.prepared c).counted x).commitStore x
  obtain ⟨hpc, -, hmem, -⟩ := (w.passed d).goOn_frame a
  have hstore : w.mem = storeMem s.mem (s.dev.keyAt x.keyslot.toNat m) m (accSize sz) x.b.val.toNat x.b.poison :=
    commitStore_window hxi (hxl.trans hl) hp
  rw [hc]
  refine ⟨hpc, ?_⟩
  rw [hmem]
  show s.mem.Stored w.mem _ _ _ _
  rw [hstore, hkey, hxb]
  exact storeMem_stored hwf hm hp

end Effects

/-- Settles O50: a fetch reads the block whole, a dispatch makes its slots wait, and a commit writes the registers that it names, hands
over its effects and takes its exit. -/
theorem blocksAreFetchedCheckedAndCommitted : Obligations.BlocksAreFetchedCheckedAndCommitted := by
  intro s
  refine ⟨execBlockFetch_idle, execBlockDispatch_idle, fun pc h => ?_, fun b hid hp hr hrest hf => ?_, fun hid hp hr hq => ?_,
    fun k u hg hu => fetchWords_one hu hg, fun hid hp hr => ?_, fun hid hp hd hs hpr hend hsp hdq hlog hesc hnd => ?_⟩
  case refine_1 =>
    obtain ⟨hp, -, hlen, hret, hnext, hbad⟩ := aheadAt_eq_some h
    refine ⟨hp, hlen, hret, hnext, hbad, fun hid hr => ?_⟩
    rw [execBlockFetch_ahead h hid hr]
    refine ⟨fun e v he => ?_, fun h v e w hh he => ?_, fun h v ws w hh hw => ?_⟩
    · rw [fetchAhead_error (readBlock_error_hdr he)]
    · rw [fetchAhead_error (readBlock_error_slot hh he)]
    · rw [fetchAhead_ok (readBlock_ok hh hw)]
  case refine_2 =>
    rw [execBlockDispatch_running hid hp hr, if_neg (not_not.mpr hrest)]
    refine ⟨fun hbad => ?_, fun hok hroom => ?_⟩
    · rw [dispatchAhead_illegal hf hbad]; rfl
    · obtain ⟨r, nx, ht⟩ := dispatchAhead_legal hf hok hroom
      rw [ht]
      exact ⟨_, _, rfl, rfl, rfl, rfl, rfl, rfl, rfl, rfl, hp, rfl, rfl, rfl⟩
  case refine_3 =>
    rw [execBlockFetch_fetching hid hp hr hq]
    refine ⟨fun hbad => ?_, fun hbad => ⟨fun d a u he => ?_, fun h u hh => ⟨fun d a v he => ?_, fun ws v hw => ⟨?_, ?_⟩⟩⟩⟩
    · rw [fetchBlock_misaligned hbad]
    · rw [fetchBlock_error hbad (readBlock_error_hdr he)]
    · rw [fetchBlock_error hbad (readBlock_error_slot hh he)]
    · exact fetchWords_length _ _ _ hw
    · rw [fetchBlock_ok hbad (readBlock_ok hh hw)]
  case refine_4 =>
    rw [execBlockDispatch_dispatching hid hp hr]
    refine ⟨fun hok => ?_, fun k e hbad => ?_⟩
    · obtain ⟨nx, r, ht⟩ := dispatchBlock_legal hok
      rw [ht]
      exact ⟨_, rfl, rfl, rfl, rfl, rfl, rfl, rfl, rfl, rfl, dispatchMore_checked_rest nx r⟩
    · obtain ⟨w, ht⟩ := dispatchBlock_trap hbad
      exact ⟨w, by rw [ht]⟩
  case refine_5 =>
    rw [execBlockCommit_sound hid hp hd hs hpr hend hsp hdq hlog]
    refine ⟨fun a k b l he hx ha => ⟨_, rfl, commitBlock_ahead hlog hesc he hp hx ha⟩,
      fun a k b he hx ha hf => ⟨_, rfl, commitBlock_fetched hlog hesc he hx ha hf⟩, fun a k he hx ha hf => ?_,
      fun a k e he hx hr => ?_, fun a k e sz m t0 t1 he hx hi hl hlq hh hun hm hwf hpo =>
        ⟨_, rfl, commitBlock_st hlog hesc he hx hi hl hlq hh hun hm hwf hpo⟩,
      fun k he hx ht hu => ⟨_, rfl, commitBlock_retire_trap hlog hesc he hx ht hu⟩,
      fun k he hx ht hin hout hover => ⟨_, rfl, commitBlock_retire_actor hlog hesc he hx ht hin hout hover⟩⟩
    · obtain ⟨hpc, hph, hblk, hfid, hmem, hdev, ⟨hregs, hg0, hp0⟩, hrest⟩ := commitBlock_alone hlog hesc he hend hnd hx ha hf
      exact ⟨_, rfl, hpc, hph, hblk, hfid, hmem, hdev, hregs, hg0, hp0, hrest⟩
    · obtain ⟨x, hx⟩ := commitBlock_kq hlog hesc he hx hr
      exact ⟨_, x, rfl, hx⟩

end Sys2Proof.Machine
end

-- ==== Proofs of the scalar family: results by width (08 R166 to R168, R171, R177) ====
section
/-! PROOFS. Arithmetic, logic, shifts, choices and comparisons (08 R166 to R168, R171, R177). Each result is first stated once
for both widths, over the low W bits of the operands (`lowOf`) and the extension of R167 (`widen`); the clauses of the statements are
its two cases. -/

namespace Sys2Proof.Machine

/-! ### The low half of an operand and the extension of a result (08 R167) -/

/-- The low W bits of an operand. -/
def lowOf : (w : Width) → Word → BitVec (bitsOf w)
  | .w64, x => x
  | .w32, x => x.setWidth 32
/-- A W-bit result in 64 bits: extended by zeros when `z`, else by its sign. -/
def widen : (w : Width) → Bool → BitVec (bitsOf w) → Word
  | .w64, _, x => x
  | .w32, true, x => BitVec.setWidth 64 x
  | .w32, false, x => BitVec.signExtend 64 x

theorem bitsOf_pos (w : Width) : 0 < bitsOf w := by cases w <;> decide
theorem extW_eq_widen (w : Width) (z : Bool) (x : Word) : extW w z x = widen w z (lowOf w x) := by
  cases w with
  | w64 => rfl
  | w32 => cases z <;> rfl
theorem toInt_lowOf (w : Width) (x : Word) : (lowOf w x).toInt = sOf w x := by cases w <;> rfl
theorem toNat_lowOf (w : Width) (x : Word) : (lowOf w x).toNat = uOf w x := by cases w <;> rfl

section Low
variable (w : Width) (a b : Word)

theorem lowOf_ofNat (n : Nat) : lowOf w (wOfNat n) = BitVec.ofNat (bitsOf w) n := by
  cases w with
  | w64 => rfl
  | w32 => exact BitVec.setWidth_ofNat_of_le (by decide) n
theorem lowOf_ofInt (i : Int) : lowOf w (wOfInt i) = BitVec.ofInt (bitsOf w) i := by
  cases w with
  | w64 => rfl
  | w32 =>
    apply BitVec.eq_of_toNat_eq
    simp only [lowOf, wOfInt, bitsOf, BitVec.toNat_setWidth, BitVec.toNat_ofInt]
    omega
theorem lowOf_add : lowOf w (a + b) = lowOf w a + lowOf w b := by
  cases w with
  | w64 => rfl
  | w32 => exact BitVec.setWidth_add _ _ (by decide)
theorem lowOf_sub : lowOf w (a - b) = lowOf w a - lowOf w b := by
  cases w with
  | w64 => rfl
  | w32 =>
    show BitVec.setWidth 32 (a - b) = BitVec.setWidth 32 a - BitVec.setWidth 32 b
    bv_omega
theorem lowOf_mul : lowOf w (a * b) = lowOf w a * lowOf w b := by
  cases w with
  | w64 => rfl
  | w32 => exact BitVec.setWidth_mul _ _ (by decide)
theorem lowOf_shl (k : Nat) : lowOf w (a <<< k) = lowOf w a <<< k := by
  cases w with
  | w64 => rfl
  | w32 => exact BitVec.setWidth_shiftLeft_of_le (by decide)
theorem lowOf_ite (p : Prop) [Decidable p] : lowOf w (if p then a else b) = if p then lowOf w a else lowOf w b :=
  apply_ite ..

end Low

/-! ### Words of every width -/

section Words
variable {n : Nat} (x y : BitVec n)

theorem ofNat_div_two_pow (k : Nat) : BitVec.ofNat n (x.toNat / 2 ^ k) = x >>> k := by
  rw [← Nat.shiftRight_eq_div_pow, ← BitVec.toNat_ushiftRight, BitVec.ofNat_toNat, BitVec.setWidth_eq]
theorem ofInt_div_two_pow (k : Nat) : BitVec.ofInt n (x.toInt / 2 ^ k) = x.sshiftRight k := by
  rw [BitVec.sshiftRight_eq, Int.shiftRight_eq_div_pow, Nat.cast_pow, Nat.cast_ofNat]

/-- The high word and the low word make up the exact signed product. -/
theorem toInt_mul_toInt_eq_high_low (hn : 0 < n) :
    x.toInt * y.toInt = (BitVec.ofInt n (x.toInt * y.toInt / 2 ^ n)).toInt * 2 ^ n + ((x * y).toNat : Int) := by
  have hlow : ((x * y).toNat : Int) = x.toInt * y.toInt % 2 ^ n := by
    have hmul : x * y = BitVec.ofInt n (x.toInt * y.toInt) := by rw [BitVec.ofInt_mul, BitVec.ofInt_toInt, BitVec.ofInt_toInt]
    rw [hmul, BitVec.toNat_ofInt, Int.toNat_of_nonneg (Int.emod_nonneg _ (by positivity)), Nat.cast_pow, Nat.cast_ofNat]
  obtain ⟨m, rfl⟩ : ∃ m, n = m + 1 := ⟨n - 1, by omega⟩
  have hpow : (2 : Int) ^ ((m + 1) * 2 - 2) * 2 = 2 ^ m * 2 ^ (m + 1) := by
    rw [show (m + 1) * 2 - 2 = m + m by omega]; ring
  have hpos : (0 : Int) < 2 ^ ((m + 1) * 2 - 2) := by positivity
  have hhigh : (BitVec.ofInt (m + 1) (x.toInt * y.toInt / 2 ^ (m + 1))).toInt = x.toInt * y.toInt / 2 ^ (m + 1) := by
    apply BitVec.toInt_ofInt_eq_self hn
    · have := BitVec.le_toInt_mul_toInt (x := x) (y := y)
      exact Int.le_ediv_of_mul_le (by positivity) (by rw [Nat.add_sub_cancel]; linarith)
    · have := BitVec.toInt_mul_toInt_le (x := x) (y := y)
      exact Int.ediv_lt_of_lt_mul (by positivity) (by rw [Nat.add_sub_cancel]; linarith)
  rw [hhigh, hlow, Int.ediv_mul_add_emod]

/-- The high word and the low word make up the exact unsigned product. -/
theorem toNat_mul_toNat_eq_high_low :
    x.toNat * y.toNat = (BitVec.ofNat n (x.toNat * y.toNat / 2 ^ n)).toNat * 2 ^ n + (x * y).toNat := by
  have hlt : x.toNat * y.toNat / 2 ^ n < 2 ^ n := Nat.div_lt_of_lt_mul (Nat.mul_lt_mul'' x.isLt y.isLt)
  rw [BitVec.toNat_ofNat, Nat.mod_eq_of_lt hlt, BitVec.toNat_mul, Nat.div_add_mod']

end Words

/-! ### Results by width (08 R168, R171) -/

section Results
variable (w : Width) (a b : Word)

theorem aluAdd_eq : aluAdd w a b = widen w false (lowOf w a + lowOf w b) := by rw [aluAdd, extW_eq_widen, lowOf_add]
theorem aluSub_eq : aluSub w a b = widen w false (lowOf w a - lowOf w b) := by rw [aluSub, extW_eq_widen, lowOf_sub]
theorem aluMul_eq : aluMul w a b = widen w false (lowOf w a * lowOf w b) := by rw [aluMul, extW_eq_widen, lowOf_mul]
theorem aluShl_eq : aluShl w a b = widen w false (lowOf w a <<< (b.toNat % bitsOf w)) := by
  rw [aluShl, extW_eq_widen, lowOf_shl, shOf]
theorem aluShr_eq : aluShr w a b = widen w true (lowOf w a >>> (b.toNat % bitsOf w)) := by
  rw [aluShr, extW_eq_widen, lowOf_ofNat, ← toNat_lowOf, ofNat_div_two_pow, shOf]
theorem aluSar_eq : aluSar w a b = widen w false ((lowOf w a).sshiftRight (b.toNat % bitsOf w)) := by
  rw [aluSar, extW_eq_widen, lowOf_ofInt, ← toInt_lowOf, ofInt_div_two_pow, shOf]

/-- A choice by "no greater" is the other one by "less", its operands exchanged (the model writes ≤, the statements `slt` and `ult`). -/
theorem ite_sOf_le {α : Type} (x y : α) :
    (if sOf w a ≤ sOf w b then x else y) = if (lowOf w b).slt (lowOf w a) then y else x := by
  simp only [BitVec.slt_iff_toInt_lt, toInt_lowOf, ← not_lt, ite_not]
theorem ite_uOf_le {α : Type} (x y : α) :
    (if uOf w a ≤ uOf w b then x else y) = if (lowOf w b).ult (lowOf w a) then y else x := by
  simp only [BitVec.ult_iff_toNat_lt, toNat_lowOf, ← not_lt, ite_not]
theorem aluMin_eq : aluMin w a b = widen w false (if (lowOf w b).slt (lowOf w a) then lowOf w b else lowOf w a) := by
  rw [aluMin, extW_eq_widen, ite_sOf_le, lowOf_ite]
theorem aluMax_eq : aluMax w a b = widen w false (if (lowOf w b).slt (lowOf w a) then lowOf w a else lowOf w b) := by
  rw [aluMax, extW_eq_widen, ite_sOf_le, lowOf_ite]
theorem aluMinn_eq : aluMinn w a b = widen w true (if (lowOf w b).ult (lowOf w a) then lowOf w b else lowOf w a) := by
  rw [aluMinn, extW_eq_widen, ite_uOf_le, lowOf_ite]
theorem aluMaxn_eq : aluMaxn w a b = widen w true (if (lowOf w b).ult (lowOf w a) then lowOf w a else lowOf w b) := by
  rw [aluMaxn, extW_eq_widen, ite_uOf_le, lowOf_ite]

theorem aluMulh_eq : aluMulh w a b
    = widen w false (BitVec.ofInt (bitsOf w) ((lowOf w a).toInt * (lowOf w b).toInt / 2 ^ bitsOf w)) := by
  rw [aluMulh, extW_eq_widen, lowOf_ofInt, toInt_lowOf, toInt_lowOf]
theorem aluMulhn_eq : aluMulhn w a b
    = widen w true (BitVec.ofNat (bitsOf w) ((lowOf w a).toNat * (lowOf w b).toNat / 2 ^ bitsOf w)) := by
  rw [aluMulhn, extW_eq_widen, lowOf_ofNat, toNat_lowOf, toNat_lowOf]

theorem cmpEq_eq : cmpEq w a b = if lowOf w a = lowOf w b then 1 else 0 := by
  simp only [cmpEq, wOfBool, ofBool, decide_eq_true_eq, BitVec.toNat_eq, toNat_lowOf]
theorem cmpNe_eq : cmpNe w a b = if lowOf w a = lowOf w b then 0 else 1 := by
  simp only [cmpNe, wOfBool, ofBool, decide_eq_true_eq, BitVec.toNat_eq, toNat_lowOf, ne_eq, ite_not]
theorem cmpLt_eq : cmpLt w a b = if (lowOf w a).slt (lowOf w b) then 1 else 0 := by
  simp only [cmpLt, wOfBool, ofBool, decide_eq_true_eq, BitVec.slt_iff_toInt_lt, toInt_lowOf]
theorem cmpLtn_eq : cmpLtn w a b = if (lowOf w a).ult (lowOf w b) then 1 else 0 := by
  simp only [cmpLtn, wOfBool, ofBool, decide_eq_true_eq, BitVec.ult_iff_toNat_lt, toNat_lowOf]
theorem cmpLe_eq : cmpLe w a b = if (lowOf w a).sle (lowOf w b) then 1 else 0 := by
  simp only [cmpLe, wOfBool, ofBool, decide_eq_true_eq, BitVec.sle_iff_toInt_le, toInt_lowOf]
theorem cmpLen_eq : cmpLen w a b = if (lowOf w a).ule (lowOf w b) then 1 else 0 := by
  simp only [cmpLen, wOfBool, ofBool, decide_eq_true_eq, BitVec.ule_iff_toNat_le, toNat_lowOf]

end Results

/-! ### The two shapes (08 R165, R166) -/

section Shapes
variable {s : State} {t0 t1 : Cons} {v : Word}

theorem binary_eq {f : Word → Word → Word} (h : f s.a s.b = v) : binary f t0 t1 s = .next (s.sends t0 t1 v s.pAB) := by
  rw [← h]; rfl
theorem unary_eq {f : Word → Word} (h : f s.a = v) : unary f t0 t1 s = .next (s.sends t0 t1 v s.opA.poison) := by
  rw [← h]; rfl

end Shapes

/-- Settles O11: each comparison at its two widths. -/
theorem comparisonResults : Obligations.ComparisonResults := fun _ _ _ =>
  ⟨binary_eq (cmpEq_eq .w64 ..), binary_eq (cmpEq_eq .w32 ..), binary_eq (cmpNe_eq .w64 ..), binary_eq (cmpNe_eq .w32 ..),
    binary_eq (cmpLt_eq .w64 ..), binary_eq (cmpLt_eq .w32 ..), binary_eq (cmpLtn_eq .w64 ..), binary_eq (cmpLtn_eq .w32 ..),
    binary_eq (cmpLe_eq .w64 ..), binary_eq (cmpLe_eq .w32 ..), binary_eq (cmpLen_eq .w64 ..), binary_eq (cmpLen_eq .w32 ..)⟩

/-- Settles O8: each result at its two widths; the high products by `toInt_mul_toInt_eq_high_low` and
`toNat_mul_toNat_eq_high_low`. -/
theorem scalarArithmeticResults : Obligations.ScalarArithmeticResults := by
  refine ⟨fun s t0 t1 n => ?_, fun s t0 t1 => ?_, fun s t0 t1 => ?_⟩
  · exact ⟨binary_eq (aluAdd_eq .w64 ..), binary_eq (aluAdd_eq .w32 ..), binary_eq (aluSub_eq .w64 ..), binary_eq (aluSub_eq .w32 ..),
      binary_eq (aluMul_eq .w64 ..), binary_eq (aluMul_eq .w32 ..), binary_eq (aluShl_eq .w64 ..), binary_eq (aluShl_eq .w32 ..),
      rfl, rfl, rfl, rfl, rfl⟩
  · exact ⟨binary_eq (aluShr_eq .w64 ..), binary_eq (aluShr_eq .w32 ..), binary_eq (aluSar_eq .w64 ..), binary_eq (aluSar_eq .w32 ..),
      binary_eq (aluMin_eq .w64 ..), binary_eq (aluMin_eq .w32 ..), binary_eq (aluMax_eq .w64 ..), binary_eq (aluMax_eq .w32 ..),
      binary_eq (aluMinn_eq .w64 ..), binary_eq (aluMinn_eq .w32 ..), binary_eq (aluMaxn_eq .w64 ..), binary_eq (aluMaxn_eq .w32 ..)⟩
  · exact ⟨⟨_, binary_eq (aluMulh_eq .w64 ..), toInt_mul_toInt_eq_high_low _ _ (bitsOf_pos .w64)⟩,
      ⟨_, binary_eq (aluMulh_eq .w32 ..), toInt_mul_toInt_eq_high_low _ _ (bitsOf_pos .w32)⟩,
      ⟨_, binary_eq (aluMulhn_eq .w64 ..), toNat_mul_toNat_eq_high_low ..⟩,
      ⟨_, binary_eq (aluMulhn_eq .w32 ..), toNat_mul_toNat_eq_high_low ..⟩⟩

end Sys2Proof.Machine
end

-- ==== Proofs of the scalar family: division (08 R169) ====
section
/-! PROOFS. DIV, DIVN, REM and REMN (08 R169): what holds of words of every width, then the results of the two widths. -/

namespace Sys2Proof.Machine

/-! ### Signed division of words of every width -/

section Words
variable {n : Nat} (x y : BitVec n)

/-- What 08 R169 asks of the signed quotient `q` and remainder `r` of `a` by `b`. -/
def SignedDivision (a b q r : BitVec n) : Prop :=
  (b = 0 → q = BitVec.allOnes n ∧ r = a)
  ∧ (a = BitVec.intMin n ∧ b = BitVec.allOnes n → q = a ∧ r = 0)
  ∧ (b ≠ 0 → ¬(a = BitVec.intMin n ∧ b = BitVec.allOnes n) →
      a.toInt = q.toInt * b.toInt + r.toInt ∧ |r.toInt| < |b.toInt| ∧ 0 ≤ r.toInt * a.toInt)

theorem abs_tmod_lt_abs (i : Int) {j : Int} (hj : j ≠ 0) : |i.tmod j| < |j| := by
  rw [Int.abs_eq_natAbs, Int.abs_eq_natAbs, Int.natAbs_tmod]
  exact_mod_cast Nat.mod_lt _ (Int.natAbs_pos.2 hj)
/-- A truncated remainder has the sign of the dividend, or is 0. -/
theorem tmod_mul_self_nonneg (i j : Int) : 0 ≤ i.tmod j * i := by
  obtain h | h := le_total 0 i
  · exact mul_nonneg (Int.tmod_nonneg j h) h
  · have := Int.tmod_nonneg j (neg_nonneg.2 h)
    rw [Int.neg_tmod] at this
    exact mul_nonneg_of_nonpos_of_nonpos (by omega) h

theorem intMin_sdiv_allOnes : (BitVec.intMin n).sdiv (BitVec.allOnes n) = BitVec.intMin n := by
  rw [← BitVec.neg_one_eq_allOnes, BitVec.intMin_sdiv_neg_one]
theorem srem_allOnes : x.srem (BitVec.allOnes n) = 0 := by
  rw [← BitVec.toInt_inj, BitVec.toInt_srem, BitVec.toInt_allOnes]
  split
  · rw [Int.tmod_neg, Int.tmod_one]; simp
  · next h =>
    obtain rfl : n = 0 := by omega
    simp [BitVec.toInt_of_zero_length]

theorem signedDivision (hn : 0 < n) : SignedDivision x y (if y = 0 then BitVec.allOnes n else x.sdiv y) (x.srem y) := by
  refine ⟨?_, ?_, fun hy hc => ?_⟩
  · rintro rfl
    exact ⟨if_pos rfl, BitVec.srem_zero⟩
  · rintro ⟨rfl, rfl⟩
    have hne : BitVec.allOnes n ≠ 0 := by simp; omega
    exact ⟨(if_neg hne).trans intMin_sdiv_allOnes, srem_allOnes _⟩
  · have hq : (x.sdiv y).toInt = x.toInt.tdiv y.toInt :=
      BitVec.toInt_sdiv_of_ne_or_ne x y (by rwa [BitVec.neg_one_eq_allOnes, ← not_and_or])
    have hyi : y.toInt ≠ 0 := fun h => hy (BitVec.toInt_inj.1 (h.trans BitVec.toInt_zero.symm))
    rw [if_neg hy, hq, BitVec.toInt_srem]
    exact ⟨(Int.tdiv_mul_add_tmod ..).symm, abs_tmod_lt_abs _ hyi, tmod_mul_self_nonneg ..⟩

theorem ofInt_tdiv : BitVec.ofInt n (x.toInt.tdiv y.toInt) = x.sdiv y := by
  rw [← BitVec.toInt_inj, BitVec.toInt_ofInt, BitVec.toInt_sdiv]
theorem ofInt_tmod : BitVec.ofInt n (x.toInt.tmod y.toInt) = x.srem y := by
  rw [← BitVec.toInt_srem, BitVec.ofInt_toInt]

end Words

/-! ### Quotients and remainders by width (08 R169) -/

section Results
variable (w : Width) (a b : Word)

theorem sOf_eq_zero_iff : sOf w b = 0 ↔ lowOf w b = 0 := by
  rw [← toInt_lowOf, ← BitVec.toInt_inj]; exact iff_of_eq (congrArg _ BitVec.toInt_zero.symm)
theorem uOf_eq_zero_iff : uOf w b = 0 ↔ lowOf w b = 0 := by
  rw [← toNat_lowOf, BitVec.toNat_eq]; rfl
theorem aluDiv_eq : aluDiv w a b
    = widen w false (if lowOf w b = 0 then BitVec.allOnes _ else (lowOf w a).sdiv (lowOf w b)) := by
  have hneg : BitVec.ofInt (bitsOf w) (-1) = BitVec.allOnes (bitsOf w) := by
    rw [BitVec.ofInt_neg, ← BitVec.neg_one_eq_allOnes]; rfl
  simp only [aluDiv, extW_eq_widen, lowOf_ofInt, sOf_eq_zero_iff]
  rw [apply_ite (BitVec.ofInt (bitsOf w)), hneg, ← ofInt_tdiv, toInt_lowOf, toInt_lowOf]
/-- Without a case of its own for 0: the truncated remainder by 0 is the dividend. -/
theorem aluRem_eq : aluRem w a b = widen w false ((lowOf w a).srem (lowOf w b)) := by
  have hrem : (if sOf w b = 0 then sOf w a else sOf w a - (sOf w a).tdiv (sOf w b) * sOf w b) = (sOf w a).tmod (sOf w b) := by
    split
    · next h => rw [h, Int.tmod_zero]
    · rw [Int.tmod_def, Int.mul_comm]
  simp only [aluRem, extW_eq_widen, lowOf_ofInt]
  rw [hrem, ← ofInt_tmod, toInt_lowOf, toInt_lowOf]
theorem aluDivn_eq : aluDivn w a b = widen w true (if lowOf w b = 0 then BitVec.allOnes _ else lowOf w a / lowOf w b) := by
  simp only [aluDivn, extW_eq_widen, lowOf_ofNat, uOf_eq_zero_iff]
  congr 1
  split
  · exact BitVec.eq_of_toNat_eq (by simp)
  · rw [← toNat_lowOf, ← toNat_lowOf, ← BitVec.toNat_udiv, BitVec.ofNat_toNat, BitVec.setWidth_eq]
theorem aluRemn_eq : aluRemn w a b = widen w true (lowOf w a % lowOf w b) := by
  have hrem : (if uOf w b = 0 then uOf w a else uOf w a % uOf w b) = uOf w a % uOf w b := by
    split
    · next h => rw [h, Nat.mod_zero]
    · rfl
  simp only [aluRemn, extW_eq_widen, lowOf_ofNat]
  rw [hrem, ← toNat_lowOf, ← toNat_lowOf, ← BitVec.toNat_umod, BitVec.ofNat_toNat, BitVec.setWidth_eq]

end Results

/-! ### The upper fields of a word -/

theorem and_highMask_toNat {n : Nat} (x : BitVec n) (k : Nat) :
    (x &&& BitVec.allOnes n <<< k).toNat = x.toNat / 2 ^ k * 2 ^ k := by
  have hlt : x.toNat / 2 ^ k * 2 ^ k < 2 ^ n := (Nat.div_mul_le_self ..).trans_lt x.isLt
  rw [← BitVec.shiftLeft_ushiftRight, BitVec.toNat_shiftLeft, BitVec.toNat_ushiftRight, Nat.shiftRight_eq_div_pow,
    Nat.shiftLeft_eq, Nat.mod_eq_of_lt hlt]

section Fixed
variable {c o : Nat} {m : BitVec 5} {t1 t0 : BitVec 9}

/-- Bits [31:23] of a word of format D are its class and its OP (06 R143). -/
theorem wordD_and_fixedMask (hc : c < 8) (ho : o < 64) : wordD c o m t1 t0 &&& 0xFF800000 = BitVec.ofNat 32 (fixedPart c o) := by
  apply BitVec.eq_of_toNat_eq
  rw [show (0xFF800000 : Half) = BitVec.allOnes 32 <<< 23 by decide, and_highMask_toNat, wordD_toNat hc ho, BitVec.toNat_ofNat, fixedPart]
  omega
/-- Bits [31:18] hold MOD too. -/
theorem wordD_and_modMask (hc : c < 8) (ho : o < 64) :
    wordD c o m t1 t0 &&& 0xFFFC0000 = BitVec.ofNat 32 (fixedPart c o) + BitVec.ofNat 32 (m.toNat * 2 ^ 18) := by
  apply BitVec.eq_of_toNat_eq
  rw [show (0xFFFC0000 : Half) = BitVec.allOnes 32 <<< 18 by decide, and_highMask_toNat, wordD_toNat hc ho, ← BitVec.ofNat_add,
    BitVec.toNat_ofNat, fixedPart]
  omega

end Fixed

/-- Settles O9: the quotient and remainder of words of every width, at the two widths. -/
theorem divisionNeverTraps : Obligations.DivisionNeverTraps := by
  refine ⟨fun s t0 t1 => ⟨?_, ?_⟩, fun s t0 t1 => ?_, fun w t0 t1 => ?_⟩
  · exact ⟨_, _, binary_eq (aluDiv_eq .w64 ..), binary_eq (aluRem_eq .w64 ..), signedDivision _ _ (bitsOf_pos .w64)⟩
  · exact ⟨_, _, binary_eq (aluDiv_eq .w32 ..), binary_eq (aluRem_eq .w32 ..), signedDivision _ _ (bitsOf_pos .w32)⟩
  · exact ⟨binary_eq (aluDivn_eq .w64 ..), binary_eq (aluRemn_eq .w64 ..), binary_eq (aluDivn_eq .w32 ..),
      binary_eq (aluRemn_eq .w32 ..)⟩
  · exact ⟨wordD_and_fixedMask (by decide) (by decide), wordD_and_fixedMask (by decide) (by decide),
      wordD_and_fixedMask (by decide) (by decide), wordD_and_fixedMask (by decide) (by decide)⟩

end Sys2Proof.Machine
end

-- ==== Proofs of the scalar family: counts, extensions, constants and SEL (08 R170, R172, R173) ====
section
/-! PROOFS. CLZ and POPC by the bits of their operand, the extensions and constants, and SEL (08 R170, R172, R173; 06 R141). -/

namespace Sys2Proof.Machine

/-! ### Counts of bits (08 R170) -/

theorem testBit_uOf (w : Width) (a : Word) (j : Nat) (hj : j < bitsOf w) : (uOf w a).testBit j = a.getLsbD j := by
  cases w with
  | w64 => exact BitVec.testBit_toNat a
  | w32 => exact (BitVec.getLsbD_setWidth ..).trans (by rw [decide_eq_true (show j < 32 from hj), Bool.true_and])
theorem uOf_lt (w : Width) (a : Word) : uOf w a < 2 ^ bitsOf w := by rw [← toNat_lowOf]; exact (lowOf w a).isLt

section Clz
variable {n x j : Nat}

theorem clzN_le : clzN n x ≤ n := by unfold clzN; split <;> omega
theorem testBit_above_clzN (hx : x < 2 ^ n) (hj : n ≤ j + clzN n x) : x.testBit j = false := by
  unfold clzN at hj
  split at hj
  · next h => rw [h, Nat.zero_testBit]
  · next h =>
    have hn := (Nat.log2_lt h).2 hx
    exact Nat.testBit_lt_two_pow ((Nat.log2_lt h).1 (by omega))
theorem testBit_at_clzN (hx : x < 2 ^ n) (hj : j + clzN n x + 1 = n) : x.testBit j = true := by
  unfold clzN at hj
  split at hj
  · omega
  · next h =>
    have hn := (Nat.log2_lt h).2 hx
    obtain rfl : j = x.log2 := by omega
    exact Nat.testBit_log2 h

end Clz

/-- Of the low `n` bits, `popN m` counts those that are ones, when no bit is above. -/
theorem popN_eq_countP : ∀ {m n x : Nat}, x < 2 ^ n → n ≤ m → popN m x = (List.range n).countP x.testBit
  | 0, n, x, _, hn => by
    obtain rfl := Nat.le_zero.1 hn
    rfl
  | m + 1, 0, x, hx, _ => by
    obtain rfl : x = 0 := by omega
    have := popN_eq_countP (m := m) (n := 0) (x := 0) (by decide) (Nat.zero_le m)
    simpa [popN] using this
  | m + 1, n + 1, x, hx, hn => by
    have ih := popN_eq_countP (m := m) (n := n) (x := x / 2) (by omega) (by omega)
    have hshift : x.testBit ∘ Nat.succ = (x / 2).testBit := funext fun j => Nat.testBit_succ x j
    rw [popN, ih, List.range_succ_eq_map, List.countP_cons, List.countP_map, hshift, Nat.testBit_zero, Nat.add_comm]
    congr 1
    obtain h | h := Nat.mod_two_eq_zero_or_one x <;> simp [h]

theorem aluPopc_eq (w : Width) (a : Word) :
    aluPopc w a = BitVec.ofNat 64 ((List.range (bitsOf w)).filter (a.getLsbD ·)).length := by
  have hle : bitsOf w ≤ 64 := by cases w <;> decide
  rw [aluPopc, wOfNat, popN_eq_countP (uOf_lt w a) hle, ← List.countP_eq_length_filter]
  congr 1
  exact List.countP_congr fun j hj => by rw [testBit_uOf w a j (List.mem_range.1 hj)]

/-! ### Extensions and constants (08 R170, R173) -/

theorem setWidth_setWidth_eq_and {n : Nat} (x : BitVec n) {k : Nat} (hk : k ≤ n) :
    (x.setWidth k).setWidth n = x &&& BitVec.ofNat n (2 ^ k - 1) := by
  have hpow : 2 ^ k ≤ 2 ^ n := Nat.pow_le_pow_right (by decide) hk
  have hpos : 0 < 2 ^ k := Nat.two_pow_pos k
  apply BitVec.eq_of_toNat_eq
  rw [BitVec.toNat_and, BitVec.toNat_ofNat, Nat.mod_eq_of_lt (a := 2 ^ k - 1) (by omega), Nat.and_two_pow_sub_one_eq_mod,
    BitVec.toNat_setWidth, BitVec.toNat_setWidth]
  exact Nat.mod_eq_of_lt ((Nat.mod_lt _ hpos).trans_le hpow)
theorem State.literal_eq {s : State} {j : Nat} {l : Slot} (h : s.fir.blk.slots[s.fir.blk.cur + j]? = some l) :
    s.literal j = l.word := by rw [State.literal, h]; rfl

/-- Settles O10: CLZ and POPC by their counts, the others by their extension or their literals. -/
theorem oneOperandResults : Obligations.OneOperandResults := by
  intro s w t0 t1 imm
  rw [show (if w = .w64 then 64 else 32) = bitsOf w by cases w <;> rfl]
  refine ⟨⟨clzN (bitsOf w) (uOf w s.a), rfl, clzN_le, fun j hj hlt => ?_, fun j hj => ?_⟩, unary_eq (aluPopc_eq w s.a), rfl, rfl, rfl,
    unary_eq (setWidth_setWidth_eq_and _ (by decide)), unary_eq (setWidth_setWidth_eq_and _ (by decide)),
    unary_eq (setWidth_setWidth_eq_and _ (by decide)), rfl, rfl, fun l1 l2 h1 h2 => ?_⟩
  · rw [← testBit_uOf w s.a j hlt]
    exact testBit_above_clzN (uOf_lt w s.a) hj
  · rw [← testBit_uOf w s.a j (by omega)]
    exact testBit_at_clzN (uOf_lt w s.a) hj
  · rw [← State.literal_eq h1, ← State.literal_eq h2]
    exact ⟨rfl, rfl, rfl⟩

/-! ### SEL (08 R172) -/

/-- Settles O12: SEL and READ test the same bit of F, and WRITE is held in the block. -/
theorem selectReadsTheFlagOfTheFiring : Obligations.SelectReadsTheFlagOfTheFiring := by
  intro n t0 t1
  refine ⟨wordD_and_modMask (by decide) (by decide), fun s => ⟨wOfBool (s.fir.flags.getLsbD n.toNat), rfl, ?_, binary_eq ?_, ?_⟩,
    fun s t k h => ?_⟩
  · cases s.fir.flags.getLsbD n.toNat <;> decide
  · cases s.fir.flags.getLsbD n.toNat <;> rfl
  · cases s.fir.flags.getLsbD n.toNat <;> decide
  · have hframe : s.SameButBlock t := h.elim (execWrite_frame (r := .f)) (execWrite_frame (r := .flag k))
    rw [hframe]; rfl

end Sys2Proof.Machine
end

-- ==== Proofs of the vector family: what a form writes (09 R182 to R185) ====
section
/-! PROOFS. Registers and pipes, unions of flags, and what the shared operations on lanes do: `State.Wrote` says what a change of
one register of a pipe leaves, and the forms of class V are chains of such changes. -/

namespace Sys2Proof.Machine

/-! ### Unions over a list, and words made of bits -/

theorem getLsbD_foldl_or {α : Type} {n : Nat} (f : α → BitVec n) (i : Nat) : ∀ (l : List α) (w : BitVec n),
    (l.foldl (fun w x => w ||| f x) w).getLsbD i = (w.getLsbD i || l.any fun x => (f x).getLsbD i)
  | [], w => by simp
  | a :: l, w => by rw [List.foldl_cons, getLsbD_foldl_or f i l, BitVec.getLsbD_or, List.any_cons, Bool.or_assoc]

theorem getLsbD_ofBool_shiftLeft {n : Nat} (b : Bool) {k l : Nat} (hl : l < n) :
    ((ofBool n b) <<< k).getLsbD l = (b && decide (k = l)) := by
  cases b with
  | false => simp [ofBool]
  | true =>
    show (1#n <<< k).getLsbD l = decide (k = l)
    rw [← BitVec.twoPow_eq, BitVec.getLsbD_twoPow, Bool.eq_iff_iff]
    simp only [Bool.and_eq_true, decide_eq_true_eq]
    omega

/-- Bit `l` of the word that a test on lanes makes is the test on `l`. -/
theorem getLsbD_bitsFn (f : Nat → Bool) {l : Nat} (hl : l < 32) : (bitsFn f).getLsbD l = f l := by
  rw [bitsFn, getLsbD_foldl_or (fun k => ofBool 32 (f k) <<< k), Bool.eq_iff_iff]
  simp only [getLsbD_ofBool_shiftLeft _ hl]
  simp [hl]

/-! ### Registers and pipes -/

theorem VReg.at_ofFn (f : Nat → Half × Bool) {l : Nat} (hl : l < 32) : (VReg.ofFn f).at l = f l := by
  have hget : ∀ k, k < 32 → ((List.range 32).map f).getD k (0, false) = f k := fun k hk => by simp [hk]
  have hpois : (VReg.ofFn f).pois1 l = (f l).2 := by
    show (bitsFn fun k => (((List.range 32).map f).getD k (0, false)).2).getLsbD l = _
    rw [getLsbD_bitsFn _ hl, hget l hl]
  have hlane : (VReg.ofFn f).lane l = (f l).1 := by
    simp [VReg.lane, VReg.ofFn, Vector.getD, hl]
  rw [VReg.at, hpois, hlane]

theorem Pipe.reg_setReg_self (p : Pipe) (v : BitVec 5) (r : VReg) : (p.setReg v r).reg v = r := by
  rw [Pipe.reg, Pipe.setReg, getV_setV, if_pos ⟨rfl, v.isLt⟩]
theorem Pipe.reg_setReg_of_ne (p : Pipe) {v w : BitVec 5} (h : w ≠ v) (r : VReg) : (p.setReg v r).reg w = p.reg w := by
  rw [Pipe.reg, Pipe.setReg, getV_setV, if_neg fun hwv => h (BitVec.eq_of_toNat_eq hwv.1)]
  rfl

theorem State.pipe_setPipe (s : State) (q : BitVec 2) (p : Pipe) : (s.setPipe q p).pipe q = p := by
  rw [State.pipe, State.setPipe]
  simp only [State.onBlk_fir]
  rw [getV_setV, if_pos ⟨rfl, q.isLt⟩, Option.getD_some]
theorem State.setPipe_setPipe (s : State) (q : BitVec 2) (p r : Pipe) : (s.setPipe q p).setPipe q r = s.setPipe q r := by
  simp only [State.setPipe, State.onBlk_onBlk, setV, Vector.setIfInBounds_setIfInBounds]
theorem State.flagFp_flagFp (s : State) (v w : Word) : (s.flagFp v).flagFp w = s.flagFp (v ||| w) := by
  simp only [State.flagFp, State.onBlk_onBlk, BitVec.or_assoc]
theorem State.flagFp_zero (s : State) : s.flagFp 0 = s := by
  simp only [State.flagFp, BitVec.ofNat_eq_ofNat, BitVec.or_zero]
  rfl

/-! ### Writes of lanes -/

/-- Pipe `p` is `p0` with lanes `act` of register `vd` holding `f` and with LSTAT and PSTS holding `ls` and `ps`. -/
structure Pipe.Wrote (p0 p : Pipe) (vd : BitVec 5) (act : Nat → Bool) (f : Nat → Half × Bool) (ls : Half) (ps : Word) : Prop where
  len : p.len = p0.len
  lstat : p.lstat = ls
  psts : p.psts = ps
  others : ∀ v, v ≠ vd → p.reg v = p0.reg v
  lanes : ∀ l, l < 32 → (p.reg vd).at l = if act l then f l else (p0.reg vd).at l

/-- State `t` is `s` with such a pipe in the place of pipe `q` and the flags `fl` to be set at commit. -/
def State.Wrote (s t : State) (q : BitVec 2) (vd : BitVec 5) (act : Nat → Bool) (f : Nat → Half × Bool) (ls : Half) (ps : Word)
    (fl : Word) : Prop :=
  ∃ p : Pipe, t = (s.setPipe q p).flagFp fl ∧ (s.pipe q).Wrote p vd act f ls ps

/-- All flags that the lanes `act` set. -/
def orFlags (act : Nat → Bool) (f : Nat → Word) : Word := (List.range 32).foldl (fun w l => w ||| if act l then f l else 0) 0

theorem orFlags_congr {act : Nat → Bool} {f g : Nat → Word} (h : ∀ l, act l = true → f l = g l) : orFlags act f = orFlags act g :=
  congrArg (fun o => (List.range 32).foldl o 0) <| funext₂ fun w l => congrArg (w ||| ·) (ite_congr rfl (h l) fun _ => rfl)
theorem orFlags_eq_zero {act : Nat → Bool} {f : Nat → Word} (h : ∀ l, act l = true → f l = 0) : orFlags act f = 0 :=
  List.foldl_fixed' (fun l => by by_cases hl : act l <;> simp [hl, h l]) _

section
variable {s t : State} {q : BitVec 2} {vd : BitVec 5} {act act' : Nat → Bool} {f g : Nat → Half × Bool} {ls : Half} {ps fl : Word}

theorem State.Wrote.vector (h : s.Wrote t q vd act f ls ps fl) : s.Vector (.next t.quiet) q vd act f ls ps fl := by
  obtain ⟨p, rfl, hp⟩ := h
  exact ⟨p, rfl, hp.len, hp.lstat, hp.psts, hp.others, hp.lanes⟩

/-- What a form gives is told by what the lanes of its register hold. -/
theorem State.Vector.congr {o : Out} (h : s.Vector o q vd act f ls ps fl)
    (hl : ∀ l, l < 32 → (if act l then f l else ((s.pipe q).reg vd).at l) = if act' l then g l else ((s.pipe q).reg vd).at l) :
    s.Vector o q vd act' g ls ps fl := by
  obtain ⟨p, ho, hlen, hls, hps, hothers, hlanes⟩ := h
  exact ⟨p, ho, hlen, hls, hps, hothers, fun l h32 => (hlanes l h32).trans (hl l h32)⟩
theorem State.Vector.congr_lanes {o : Out} (h : s.Vector o q vd act f ls ps fl) (hl : ∀ l, l < 32 → act l = true → f l = g l) :
    s.Vector o q vd act g ls ps fl :=
  h.congr fun l h32 => ite_congr rfl (hl l h32) fun _ => rfl

theorem State.Wrote.setLstat (h : s.Wrote t q vd act f ls ps fl) (x : Half) : s.Wrote (t.setLstat q x) q vd act f x ps fl := by
  obtain ⟨p, rfl, hp⟩ := h
  refine ⟨{ p with lstat := x }, ?_, hp.len, rfl, hp.psts, hp.others, hp.lanes⟩
  show ((s.setPipe q p).setPipe q { (s.setPipe q p).pipe q with lstat := x }).flagFp fl = _
  rw [State.pipe_setPipe, State.setPipe_setPipe]
theorem State.Wrote.setPsts (h : s.Wrote t q vd act f ls ps fl) (x : Word) : s.Wrote (t.setPsts q x) q vd act f ls x fl := by
  obtain ⟨p, rfl, hp⟩ := h
  refine ⟨{ p with psts := x }, ?_, hp.len, hp.lstat, rfl, hp.others, hp.lanes⟩
  show ((s.setPipe q p).setPipe q { (s.setPipe q p).pipe q with psts := x }).flagFp fl = _
  rw [State.pipe_setPipe, State.setPipe_setPipe]
theorem State.Wrote.flagFp (h : s.Wrote t q vd act f ls ps fl) (w : Word) : s.Wrote (t.flagFp w) q vd act f ls ps (fl ||| w) := by
  obtain ⟨p, rfl, hp⟩ := h
  exact ⟨p, State.flagFp_flagFp .., hp⟩

end

/-- PSTS alone is a write of no lane. -/
theorem State.wrote_setPsts (s : State) (q : BitVec 2) (vd : BitVec 5) (x : Word) :
    s.Wrote (s.setPsts q x) q vd (fun _ => false) (fun _ => (0, false)) (s.pipe q).lstat x 0 :=
  ⟨{ s.pipe q with psts := x }, (State.flagFp_zero _).symm, rfl, rfl, rfl, fun _ _ => rfl, fun _ _ => rfl⟩

/-- Lanes written by `State.vput`. -/
theorem State.wrote_vput (s : State) (q : BitVec 2) (vd : BitVec 5) (act : Nat → Bool) (f : Nat → LaneRes) :
    s.Wrote (s.vput q vd act f) q vd act (fun l => ((f l).val, (f l).pois)) (s.pipe q).lstat (s.pipe q).psts
      (orFlags act fun l => (f l).fl) := by
  refine ⟨_, congrArg (State.flagFp _) ?_, rfl, rfl, rfl, fun v hv => Pipe.reg_setReg_of_ne _ hv _, fun l hl => ?_⟩
  · rw [List.foldl_map, orFlags]
    congr 1
    funext w l
    cases act l <;> rfl
  · rw [Pipe.reg_setReg_self, VReg.at_ofFn _ hl, List.getD_eq_getElem?_getD, List.getElem?_map, List.getElem?_range hl]
    dsimp only [Option.map_some, Option.getD_some]
    cases act l <;> rfl

/-! ### Element-wise forms (09 R185) -/

theorem State.lt_of_active {s : State} {q : BitVec 2} {l : Nat} (h : s.active q l = true) : l < 32 := BitVec.lt_of_getLsbD h

section
variable {s : State} {q : BitVec 2} {vd : BitVec 5}

/-- A form that writes the active lanes, and its flags. -/
theorem State.lanes_vput (f : Nat → LaneRes) :
    s.Lanes (.next (s.vput q vd (s.active q) f).quiet) q vd (fun l => ((f l).val, (f l).pois)) (s.laneFlags q fun l => (f l).fl) :=
  (s.wrote_vput ..).vector
/-- A form that sets no flag. -/
theorem State.vector_vput_noFlags {act : Nat → Bool} {f : Nat → LaneRes} {g : Nat → Half × Bool}
    (h : ∀ l, f l = ⟨(g l).1, (g l).2, 0⟩) :
    s.Vector (.next (s.vput q vd act f).quiet) q vd act g (s.pipe q).lstat (s.pipe q).psts 0 := by
  obtain rfl : f = fun l => ⟨(g l).1, (g l).2, 0⟩ := funext h
  have hw := s.wrote_vput q vd act fun l => ⟨(g l).1, (g l).2, 0⟩
  rw [orFlags_eq_zero fun _ _ => rfl] at hw
  exact hw.vector
theorem State.lanes_vput_noFlags {f : Nat → LaneRes} {g : Nat → Half × Bool} (h : ∀ l, f l = ⟨(g l).1, (g l).2, 0⟩) :
    s.Lanes (.next (s.vput q vd (s.active q) f).quiet) q vd g 0 :=
  s.vector_vput_noFlags h

end

end Sys2Proof.Machine
end

-- ==== Proofs of the vector family: integer, logic and compare forms (09 R185 to R188, R200) ====
section
/-! PROOFS. The forms that set no flag, and the relations of VCMP. -/

namespace Sys2Proof.Machine

/-! ### Fields of a word -/

theorem bitsN_eq_div_mod {n : Nat} (x : BitVec n) (hi lo : Nat) : bitsN x hi lo = x.toNat / 2 ^ lo % 2 ^ (hi - lo + 1) := by
  rw [bitsN, BitVec.extractLsb_toNat, Nat.shiftRight_eq_div_pow]

/-! ### Results of the integer types (09 R186, R187) -/

section
variable (fl : Bool) (a b : Half)

theorem opMinMax_i32_min : opMinMax false fl .i32 a b = (if a.slt b then a else b, 0) := by
  simp only [opMinMax, Bool.bne_false, decide_eq_true_eq, BitVec.slt_iff_toInt_lt]
theorem opMinMax_i32_max : opMinMax true fl .i32 a b = (if a.slt b then b else a, 0) := by
  simp only [opMinMax, Bool.bne_true, Bool.not_eq_true', decide_eq_false_iff_not, BitVec.slt_iff_toInt_lt, ite_not]
theorem opMinMax_n32_min : opMinMax false fl .n32 a b = (if a.ult b then a else b, 0) := by
  simp only [opMinMax, Bool.bne_false, decide_eq_true_eq, BitVec.ult_iff_toNat_lt]
theorem opMinMax_n32_max : opMinMax true fl .n32 a b = (if a.ult b then b else a, 0) := by
  simp only [opMinMax, Bool.bne_true, Bool.not_eq_true', decide_eq_false_iff_not, BitVec.ult_iff_toNat_lt, ite_not]
theorem opAbs_i32 : opAbs .i32 a = (if a.msb then -a else a, 0) := by
  simp only [opAbs, BitVec.msb_eq_toInt, decide_eq_true_eq]

end

/-! ### Relations (09 R188) -/

/-- VCMP with a relation that sets no flag. -/
theorem execVcmp_lanes {s : State} {q : BitVec 2} {vd va vb : BitVec 5} {ty : VType} {r : VRel} {f : Half → Half → Bool}
    (h : ∀ a b, relHolds s.flush ty r a b = (f a b, 0)) :
    s.Lanes (exec (.vcmp ty r vd va vb q) s) q vd
      (fun l => (if f (s.vl q va l) (s.vl q vb l) then BitVec.allOnes 32 else 0, s.vp q va l || s.vp q vb l)) 0 :=
  s.lanes_vput_noFlags fun _ => congrArg (fun r : Bool × Word => res (maskOf r.1, r.2) _) (h ..)

/-! What an FP32 operand is, by its fields, flushed or not (03 R62, R75). -/

theorem FP32_dec_eq (x : Half) : FP32.dec x.toNat =
    if bitsN x 30 23 = 255 then (if bitsN x 22 0 = 0 then .inf (x.toNat / 2 ^ 31 % 2 = 1) else .nan)
    else if bitsN x 30 23 = 0 then .fin (x.toNat / 2 ^ 31 % 2 = 1) (bitsN x 22 0) (-149)
    else .fin (x.toNat / 2 ^ 31 % 2 = 1) (2 ^ 23 + bitsN x 22 0) (bitsN x 30 23 - 127 - 23) := by
  have hexp : x.toNat / 2 ^ FP32.fw % 2 ^ FP32.ew = bitsN x 30 23 := (bitsN_eq_div_mod x 30 23).symm
  have hfrac : x.toNat % 2 ^ FP32.fw = bitsN x 22 0 := by rw [bitsN_eq_div_mod, pow_zero, Nat.div_one]; rfl
  have hnan : bitsN x 30 23 ≠ 255 → FP32.nan ≠ some (x.toNat % 2 ^ (FP32.ew + FP32.fw)) := by
    intro he h
    have : 0x7FC00000 = x.toNat % 2 ^ 31 := Option.some.inj h
    rw [bitsN_eq_div_mod] at he
    omega
  by_cases he : bitsN x 30 23 = 255
  · rw [Fmt.dec, hexp, hfrac, he]; rfl
  · have hmax : (FP32.hasInf && decide (bitsN x 30 23 = 2 ^ FP32.ew - 1)) = false := decide_eq_false he
    rw [Fmt.dec, hexp, hfrac, hmax, if_neg Bool.false_ne_true, if_neg (hnan he), if_neg he]
    rfl

theorem dec32_of_special (fl : Bool) {x : Half} (he : bitsN x 30 23 = 255) :
    dec32 fl x = if bitsN x 22 0 = 0 then .inf (x.toNat / 2 ^ 31 % 2 = 1) else .nan := by
  rw [dec32, if_neg (by simp [he]), FP32_dec_eq, if_pos he]
theorem dec32_of_finite (fl : Bool) {x : Half} (he : bitsN x 30 23 ≠ 255) : ∃ n m e, dec32 fl x = .fin n m e := by
  rw [dec32, FP32_dec_eq, if_neg he]
  repeat' split
  all_goals exact ⟨_, _, _, rfl⟩
/-- An FP32 operand is a NaN by its fields, flushed or not. -/
theorem isNan_dec32 (fl : Bool) (x : Half) : (dec32 fl x).isNan = fp32Nan x := by
  by_cases he : bitsN x 30 23 = 255
  · rw [dec32_of_special fl he, fp32Nan, he]
    split <;> simp_all [Val.isNan]
  · obtain ⟨n, m, e, h⟩ := dec32_of_finite fl he
    rw [h, fp32Nan, decide_eq_false he]; rfl

theorem Val.lt_of_isNan {x y : Val} (h : (x.isNan || y.isNan) = true) : x.lt y = false := by
  cases x <;> cases y <;> simp_all [Val.isNan, Val.lt]
theorem Val.eqv_of_isNan {x y : Val} (h : (x.isNan || y.isNan) = true) : x.eqv y = false := by
  obtain hx | hy := Bool.or_eq_true_iff.1 h
  · simp [Val.eqv, hx]
  · simp [Val.eqv, hy]

/-- The relations of FP32 with a NaN among the operands: the ordered ones set NV (09 R188). -/
theorem relHolds_fp32_un (fl : Bool) (x y : Half) : relHolds fl .fp32 .un x y = (fp32Nan x || fp32Nan y, 0) := by
  simp [relHolds, anyNan, isNan_dec32]
theorem relHolds_fp32_of_nan (fl : Bool) {x y : Half} (h : (fp32Nan x || fp32Nan y) = true) :
    relHolds fl .fp32 .eq x y = (false, 0) ∧ relHolds fl .fp32 .ne x y = (true, 0)
      ∧ relHolds fl .fp32 .lt x y = (false, 0x100) ∧ relHolds fl .fp32 .le x y = (false, 0x100) := by
  rw [← isNan_dec32 fl x, ← isNan_dec32 fl y] at h
  have hany : anyNan [dec32 fl x, dec32 fl y] = true := by simpa [anyNan] using h
  simp only [relHolds, hany, Val.lt_of_isNan h, Val.eqv_of_isNan h]
  decide

/-- Settles O16: each form is a write of the active lanes by its result; VCMP by its relation. -/
theorem vectorIntegerAndCompareLanes : Obligations.VectorIntegerAndCompareLanes := by
  refine ⟨fun s vd va vb q n => ⟨fun ty hty => ?_, ?_⟩, fun s vd va vb q => ⟨⟨fun ty hty => ?_, ?_⟩, fun fl x y => ?_, fun r => ?_⟩⟩
  · obtain rfl | rfl : ty = .i32 ∨ ty = .n32 := by simpa using hty
    all_goals exact ⟨s.lanes_vput_noFlags fun _ => rfl, s.lanes_vput_noFlags fun _ => rfl, s.lanes_vput_noFlags fun _ => rfl,
      s.lanes_vput_noFlags fun _ => rfl⟩
  · refine ⟨?_, ?_, ?_, ?_, ?_, ?_, ?_, ?_, ?_, ?_, ?_, ?_, ?_, ?_, ?_, ?_, ?_, ?_, ?_⟩
    · exact s.lanes_vput_noFlags fun _ => congrArg (res · _) (opMinMax_i32_min ..)
    · exact s.lanes_vput_noFlags fun _ => congrArg (res · _) (opMinMax_i32_max ..)
    · exact s.lanes_vput_noFlags fun _ => congrArg (res · _) (opMinMax_n32_min ..)
    · exact s.lanes_vput_noFlags fun _ => congrArg (res · _) (opMinMax_n32_max ..)
    · exact s.lanes_vput_noFlags fun _ => congrArg (res · _) (opAbs_i32 _)
    all_goals exact s.lanes_vput_noFlags fun _ => rfl
  · obtain rfl | rfl : ty = .i32 ∨ ty = .n32 := by simpa using hty
    all_goals exact ⟨execVcmp_lanes fun _ _ => rfl, execVcmp_lanes fun _ _ => rfl⟩
  · exact ⟨execVcmp_lanes fun _ _ => rfl, execVcmp_lanes fun _ _ => rfl, execVcmp_lanes fun _ _ => rfl,
      execVcmp_lanes fun _ _ => rfl⟩
  · exact ⟨relHolds_fp32_un fl x y, relHolds_fp32_of_nan fl⟩
  · exact s.lanes_vput _

end Sys2Proof.Machine
end

-- ==== Proofs of the vector family: the FP32 forms (09 R186, R189, R191, R192; 03 R63, R75, R76) ====
section
/-! PROOFS. The FP32 forms are element-wise; a NaN operand makes the result the canonical NaN with no flag. -/

namespace Sys2Proof.Machine

/-! ### NaN operands (03 R63, R77) -/

theorem ne32_nan (fl : Bool) : ne32 fl .nan = (0x7FC00000, 0) := by cases fl <;> decide

section
variable {v w : Val} (h : (v.isNan || w.isNan) = true)
include h

theorem Val.add_of_isNan : v.add w = (.nan, 0) := by
  cases v <;> cases w <;> simp_all [Val.isNan, Val.add]
theorem Val.mul_of_isNan : v.mul w = (.nan, 0) := by
  cases v <;> cases w <;> simp_all [Val.isNan, Val.mul]

end

theorem Val.isNan_negate (v : Val) : v.negate.isNan = v.isNan := by cases v <;> rfl

section
variable {fl : Bool} {x y : Half} (h : (fp32Nan x || fp32Nan y) = true)
include h

theorem fadd_of_nan : fadd fl x y = (0x7FC00000, 0) := by
  rw [← isNan_dec32 fl x, ← isNan_dec32 fl y] at h
  simp only [fadd, Val.add_of_isNan h, ne32_nan]
  rfl
theorem fsub_of_nan : fsub fl x y = (0x7FC00000, 0) := by
  rw [← isNan_dec32 fl x, ← isNan_dec32 fl y, ← Val.isNan_negate (dec32 fl y)] at h
  simp only [fsub, Val.add_of_isNan h, ne32_nan]
  rfl
theorem fmul_of_nan : fmul fl x y = (0x7FC00000, 0) := by
  rw [← isNan_dec32 fl x, ← isNan_dec32 fl y] at h
  simp only [fmul, Val.mul_of_isNan h, ne32_nan]
  rfl
theorem fminmax_of_nan (max : Bool) : fminmax fl max x y = 0x7FC00000 := by
  have hany : anyNan [dec32 fl x, dec32 fl y] = true := by simpa [anyNan, isNan_dec32] using h
  rw [fminmax, hany, if_pos rfl]

end

theorem ffma_of_nan {fl : Bool} {x y w : Half} (h : (fp32Nan x || fp32Nan y || fp32Nan w) = true) :
    ffma fl x y w = (0x7FC00000, 0) := by
  have hany : anyNan [dec32 fl x, dec32 fl y, dec32 fl w] = true := by simpa [anyNan, isNan_dec32, Bool.or_assoc] using h
  rw [ffma, hany, if_pos rfl]

/-! ### VCVT and VDQNT (09 R189, R191) -/

theorem State.quiet_eq (s : State) : s.quiet = s.onBlk fun b => b.onSlot b.cur fun x => { x with st := .done, wait := none } :=
  congrArg (fun b => s.onBlk fun _ => b) (deliver_nil ..)

theorem State.vput_srinc (s : State) (q : BitVec 2) (vd : BitVec 5) (act : Nat → Bool) (f : Nat → LaneRes) :
    (s.vput q vd act f).fir.blk.srinc = s.fir.blk.srinc := rfl

/-- A counted increment of SRCTR stands apart from the end of the slot. -/
theorem quiet_countSrinc (t : State) (f : Vector Nat 4 → Vector Nat 4) :
    (t.onBlk fun b => { b with srinc := f b.srinc }).quiet.fir.blk.srinc = f t.fir.blk.srinc
      ∧ ((t.onBlk fun b => { b with srinc := f b.srinc }).quiet.onBlk fun b => { b with srinc := t.fir.blk.srinc }) = t.quiet := by
  simp only [State.quiet_eq]
  exact ⟨rfl, rfl⟩

/-- What VCVT in mode RSR makes of one lane. -/
def rsrLane (s : State) (pr : CvtPair) (va : BitVec 5) (q : BitVec 2) (l : Nat) : LaneRes :=
  res (convert s.flush pr (.sr (srRnd (bitsN (s.seenReg .fpmode s.ctx.csr.fpmode) 63 32) q.toNat l (s.srCtr q))) (s.lane q va l))
    (s.lpois q va l)
/-- VCVT in mode RSR counts in the block, apart from what it writes (09 R183). -/
theorem execVcvt_rsr (s : State) (pr : CvtPair) (vd va : BitVec 5) (q : BitVec 2) :
    ∃ t : State, exec (.vcvt pr .rsr vd va q) s = .next t ∧ t.fir.blk.srinc = modV s.fir.blk.srinc q.toNat (· + 1)
      ∧ t.onBlk (fun b => { b with srinc := s.fir.blk.srinc }) = (s.vput q vd (s.active q) (rsrLane s pr va q)).quiet := by
  obtain ⟨hinc, hrest⟩ := quiet_countSrinc (s.vput q vd (s.active q) (rsrLane s pr va q)) fun v => modV v q.toNat (· + 1)
  rw [State.vput_srinc] at hinc hrest
  exact ⟨_, rfl, hinc, hrest⟩

/-- What VDQNT makes of one lane: element, scale, and whether the scale has undefined bits set. -/
def dqntLane (s : State) (f : QFmt) (va vb : BitVec 5) (q : BitVec 2) (l : Nat) : LaneRes :=
  let n := if qWide f then 4 else 8
  let w := if qWide f then 8 else 4
  let e := elVal f ((s.lane q va (l / n)).toNat / 2 ^ (w * (l % n)))
  let x := s.lane q vb (l / 4)
  let bad := bitsN x 31 20 ≠ 0
  let sc := if bad then some Val.nan else scaleVal (bitsN x 19 0)
  let r := ne32 s.flush (scaled e sc)
  ⟨r.1, s.lpois q va (l / n) || s.lpois q vb (l / 4), r.2 ||| (if bad then IFMT else 0)⟩

theorem qWide_iff (f : QFmt) : qWide f = true ↔ f = .qsi8 ∨ f = .qse4m3 := by cases f <;> decide
theorem dqntLane_val {s : State} {f : QFmt} {va vb : BitVec 5} {q : BitVec 2} {l : Nat} (h : (s.vl q vb (l / 4)).toNat < 2 ^ 20) :
    (dqntLane s f va vb q l).val = (ne32 s.flush (scaled (elVal f ((s.vl q va (l / (if f = .qsi8 ∨ f = .qse4m3 then 4 else 8))).toNat
      / 2 ^ ((if f = .qsi8 ∨ f = .qse4m3 then 8 else 4) * (l % (if f = .qsi8 ∨ f = .qse4m3 then 4 else 8)))))
      (scaleVal (s.vl q vb (l / 4)).toNat))).1 := by
  rw [State.vl] at h
  have hhigh : bitsN (s.lane q vb (l / 4)) 31 20 = 0 := by rw [bitsN_eq_div_mod, Nat.div_eq_of_lt h, Nat.zero_mod]
  have hlow : bitsN (s.lane q vb (l / 4)) 19 0 = (s.lane q vb (l / 4)).toNat := by
    rw [bitsN_eq_div_mod, pow_zero, Nat.div_one, Nat.mod_eq_of_lt h]
  simp only [dqntLane, hhigh, hlow, qWide_iff, State.vl]
  rfl

/-- Settles O17: the forms are element-wise, and the special values are those of the operations. -/
theorem vectorFloatLanesAndSpecialValues : Obligations.VectorFloatLanesAndSpecialValues := by
  refine ⟨fun s vd va vb q z hz => ?_, fun z x y w => ⟨fun h => ?_, fun h => ?_, ?_⟩⟩
  · subst hz
    refine ⟨s.lanes_vput _, s.lanes_vput _, s.lanes_vput _, s.lanes_vput _, s.lanes_vput _, s.lanes_vput _, s.lanes_vput _,
      s.lanes_vput _, s.lanes_vput _, s.lanes_vput _, s.lanes_vput _, s.lanes_vput _, fun pr => ?_, fun f => ?_⟩
    · obtain ⟨t, ht, hinc, hrest⟩ := execVcvt_rsr s pr vd va q
      exact ⟨s.lanes_vput _, s.lanes_vput _, s.lanes_vput _, t, ht, hinc, hrest ▸ s.lanes_vput _⟩
    · exact ⟨fun l => ((dqntLane s f va vb q l).val, (dqntLane s f va vb q l).pois, (dqntLane s f va vb q l).fl), s.lanes_vput _,
        fun l _ h => dqntLane_val h⟩
  · exact ⟨fadd_of_nan h, fsub_of_nan h, fmul_of_nan h, fminmax_of_nan h false, fminmax_of_nan h true⟩
  · rw [ffma_of_nan h]
  · cases z <;> decide

end Sys2Proof.Machine
end

-- ==== Proofs of the vector family: permutations and transfers (09 R193, R194, R201, R202) ====
section
/-! PROOFS. VPERM and VBFLY write the active lanes, then LSTAT; the transfers move one lane, PSTS or the enables. -/

namespace Sys2Proof.Machine

/-! ### Forms that set LSTAT -/

section
variable {s : State} {q : BitVec 2} {vd : BitVec 5} {ls : Half}

theorem State.vector_vput_setLstat (f : Nat → LaneRes) :
    s.Vector (.next ((s.vput q vd (s.active q) f).setLstat q ls).quiet) q vd (s.active q) (fun l => ((f l).val, (f l).pois)) ls
      (s.pipe q).psts (s.laneFlags q fun l => (f l).fl) :=
  ((s.wrote_vput ..).setLstat ls).vector
/-- The same for a form that sets no flag, told by its active lanes. -/
theorem State.vector_vput_setLstat_noFlags {f : Nat → LaneRes} {g : Nat → Half × Bool}
    (h : ∀ l, s.active q l = true → f l = ⟨(g l).1, (g l).2, 0⟩) :
    s.Vector (.next ((s.vput q vd (s.active q) f).setLstat q ls).quiet) q vd (s.active q) g ls (s.pipe q).psts 0 := by
  have hfl : orFlags (s.active q) (fun l => (f l).fl) = 0 := orFlags_eq_zero fun l hl => by rw [h l hl]
  have hw := s.vector_vput_setLstat (q := q) (vd := vd) (ls := ls) f
  rw [show s.laneFlags q (fun l => (f l).fl) = 0 from hfl] at hw
  exact hw.congr_lanes fun l _ hl => by rw [h l hl]

end

/-! ### VPERM (09 R193) -/

/-- VPERM by an index register: the lane that `vb` names, 0 for its Z or for an inactive source. -/
theorem execVperm_index (s : State) (vd va vb : BitVec 5) (q : BitVec 2) :
    ∃ ls : Half, s.Vector (exec (.vperm (.index vb) vd va q) s) q vd (s.active q) (fun l =>
        if (s.vl q vb l).getLsbD 5 || !s.active q ((s.vl q vb l).toNat % 32) then (0, s.vp q vb l)
        else (s.vl q va ((s.vl q vb l).toNat % 32), s.vp q vb l || s.vp q va ((s.vl q vb l).toNat % 32))) ls (s.pipe q).psts 0
      ∧ ∀ l, l < 32 → ls.getLsbD l = (s.active q l && !(s.vl q vb l).getLsbD 5 && !s.active q ((s.vl q vb l).toNat % 32)) := by
  refine ⟨_, s.vector_vput_setLstat_noFlags fun l hl => ?_, fun l hl => getLsbD_bitsFn _ hl⟩
  have hor : ∀ z a : Bool, (z || (!z && a)) = (z || a) := by decide
  cases hz : (s.lane q vb l).getLsbD 5 || !s.active q ((s.lane q vb l).toNat % 32)
  all_goals simp only [hl, Bool.true_and, State.vl, State.vp, hor, hz, if_true, Bool.false_eq_true, if_false]
/-- VPERM by rotation. -/
theorem execVperm_rot (s : State) (vd va : BitVec 5) (q : BitVec 2) (k : BitVec 5) :
    ∃ ls : Half, s.Vector (exec (.vperm (.rot k) vd va q) s) q vd (s.active q) (fun l =>
        if s.active q ((l + k.toNat) % 32) then (s.vl q va ((l + k.toNat) % 32), s.vp q va ((l + k.toNat) % 32)) else (0, false)) ls
        (s.pipe q).psts 0
      ∧ ∀ l, l < 32 → ls.getLsbD l = (s.active q l && !s.active q ((l + k.toNat) % 32)) := by
  refine ⟨_, s.vector_vput_setLstat_noFlags fun l hl => ?_, fun l hl => (getLsbD_bitsFn _ hl).trans (by simp)⟩
  simp only [hl, Bool.not_false, Bool.true_and, Bool.false_or, State.vl, State.vp, Bool.not_eq_true', ← Bool.not_eq_true, ite_not]
  split_ifs <;> rfl

/-! ### VBFLY (09 R194) -/

/-- A lane as VBFLY reads it: an inactive one as +0. -/
def State.bflyVal (s : State) (q : BitVec 2) (va : BitVec 5) (l : Nat) : Half := if s.active q l then s.vl q va l else 0
def State.bflyPois (s : State) (q : BitVec 2) (va : BitVec 5) (l : Nat) : Bool := s.active q l && s.vp q va l

/-- What VBFLY makes of lane `l`. -/
def State.bflyLane (s : State) (op : BflyOp) (k : BitVec 3) (va : BitVec 5) (q : BitVec 2) (l : Nat) : LaneRes :=
  let u (i : Nat) : Half × Bool := if s.active q i then (s.lane q va i, s.lpois q va i) else (0, false)
  let p := l ^^^ 2 ^ k.toNat
  let (a, b) := if l < p then (u l, u p) else (u p, u l)
  let pois := a.2 || b.2
  match op with
  | .x => ⟨(u p).1, (u p).2, 0⟩
  | .fadd => res (fadd s.flush a.1 b.1) pois
  | .iadd => ⟨a.1 + b.1, pois, 0⟩
  | .fmax => ⟨fminmax s.flush true a.1 b.1, pois, 0⟩

section
variable {s : State} {q : BitVec 2} {vd va : BitVec 5} {k : BitVec 3} {l : Nat}

theorem State.bflyIn_eq :
    (if s.active q l then (s.lane q va l, s.lpois q va l) else (0, false)) = (s.bflyVal q va l, s.bflyPois q va l) := by
  unfold State.bflyVal State.bflyPois State.vp
  cases s.active q l <;> rfl

theorem State.bflyLane_x : s.bflyLane .x k va q l = ⟨s.bflyVal q va (l ^^^ 2 ^ k.toNat), s.bflyPois q va (l ^^^ 2 ^ k.toNat), 0⟩ := by
  simp only [State.bflyLane, State.bflyIn_eq]
theorem State.bflyLane_iadd : s.bflyLane .iadd k va q l = ⟨s.bflyVal q va l + s.bflyVal q va (l ^^^ 2 ^ k.toNat),
    s.bflyPois q va l || s.bflyPois q va (l ^^^ 2 ^ k.toNat), 0⟩ := by
  simp only [State.bflyLane, State.bflyIn_eq]
  split_ifs
  · rfl
  · rw [BitVec.add_comm, Bool.or_comm]
theorem State.bflyLane_fadd : s.bflyLane .fadd k va q l =
    res (if l < l ^^^ 2 ^ k.toNat then fadd s.flush (s.bflyVal q va l) (s.bflyVal q va (l ^^^ 2 ^ k.toNat))
      else fadd s.flush (s.bflyVal q va (l ^^^ 2 ^ k.toNat)) (s.bflyVal q va l))
      (s.bflyPois q va l || s.bflyPois q va (l ^^^ 2 ^ k.toNat)) := by
  simp only [State.bflyLane, State.bflyIn_eq]
  split_ifs
  · rfl
  · rw [Bool.or_comm]
theorem State.bflyLane_fmax : s.bflyLane .fmax k va q l =
    ⟨if l < l ^^^ 2 ^ k.toNat then fminmax s.flush true (s.bflyVal q va l) (s.bflyVal q va (l ^^^ 2 ^ k.toNat))
      else fminmax s.flush true (s.bflyVal q va (l ^^^ 2 ^ k.toNat)) (s.bflyVal q va l),
      s.bflyPois q va l || s.bflyPois q va (l ^^^ 2 ^ k.toNat), 0⟩ := by
  simp only [State.bflyLane, State.bflyIn_eq]
  split_ifs
  · rfl
  · rw [Bool.or_comm]

theorem execVbfly_lanes (op : BflyOp) :
    s.Vector (exec (.vbfly op k vd va q) s) q vd (s.active q) (fun l => ((s.bflyLane op k va q l).val, (s.bflyLane op k va q l).pois))
      (bitsFn fun l => s.active q l && !s.active q (l ^^^ 2 ^ k.toNat)) (s.pipe q).psts
      (s.laneFlags q fun l => (s.bflyLane op k va q l).fl) :=
  s.vector_vput_setLstat _
/-- The forms of VBFLY that set no flag. -/
theorem execVbfly_lanes_noFlags {op : BflyOp} {g : Nat → Half × Bool} (h : ∀ l, s.bflyLane op k va q l = ⟨(g l).1, (g l).2, 0⟩) :
    s.Vector (exec (.vbfly op k vd va q) s) q vd (s.active q) g
      (bitsFn fun l => s.active q l && !s.active q (l ^^^ 2 ^ k.toNat)) (s.pipe q).psts 0 :=
  s.vector_vput_setLstat_noFlags fun l _ => h l

end

/-! ### Transfers (09 R201, R202) -/

/-- VINS writes one lane, whatever LEN holds, and sends 0. -/
theorem execVins_lanes (s : State) (va n : BitVec 5) (q : BitVec 2) (t0 : Cons) :
    ∃ p : Pipe, exec (.vins va n q t0) s = .next ((s.setPipe q p).flagFp 0 |>.emit [(t0, ⟨0, false⟩)])
      ∧ (s.pipe q).Wrote p va (fun l => l = n.toNat) (fun _ => (s.aw, s.opA.poison)) (s.pipe q).lstat (s.pipe q).psts := by
  obtain ⟨p, hp, hw⟩ := s.wrote_vput q va (fun l => l = n.toNat) fun _ => ⟨s.aw, s.opA.poison, 0⟩
  rw [orFlags_eq_zero fun _ _ => rfl] at hp
  exact ⟨p, by rw [← hp]; rfl, hw⟩

section
variable {s : State} {va : BitVec 5} {q : BitVec 2}

theorem execVlane_a (h : s.opA.poison = false) :
    exec (.vlane .a q) s = .next ((s.setPipe q { s.pipe q with len := s.aw }).emit []) :=
  (if_neg (by rw [h]; decide) : execVlane .a q s = _)
theorem execVlane_a_poison (h : s.opA.poison = true) : exec (.vlane .a q) s = .next (s.slotFault 4 0 5 0) :=
  (if_pos h : execVlane .a q s = _)
theorem execVlane_v (h : ∀ l, l < 32 → s.vp q va l = false) :
    exec (.vlane (.v va) q) s = .next ((s.setPipe q { s.pipe q with len := bitsFn fun l => (s.vl q va l).getLsbD 0 }).emit []) := by
  have hany : ¬(List.range 32).any (s.lpois q va) = true := by
    simpa [State.vp] using h
  exact (if_neg hany : execVlane (.v va) q s = _)
theorem execVlane_v_poison (h : ∃ l, l < 32 ∧ s.vp q va l = true) : exec (.vlane (.v va) q) s = .next (s.slotFault 4 0 5 0) := by
  have hany : (List.range 32).any (s.lpois q va) = true := by
    simpa [State.vp] using h
  exact (if_pos hany : execVlane (.v va) q s = _)

end

/-- Settles O18: VPERM and VBFLY by the lane each lane reads; the transfers case by case. -/
theorem lanePermutationsAndTransfers : Obligations.LanePermutationsAndTransfers := by
  refine ⟨fun s vd va vb q k j => ⟨execVperm_index s vd va vb q, execVperm_rot s vd va q k, fun _ => ?_⟩, fun s va n q t0 => ?_⟩
  · intro par v p
    refine ⟨bitsFn fun l => s.active q l && !s.active q (l ^^^ 2 ^ j.toNat), fun l hl => getLsbD_bitsFn _ hl,
      execVbfly_lanes_noFlags fun _ => State.bflyLane_x, execVbfly_lanes_noFlags fun _ => State.bflyLane_iadd,
      ⟨fun l => ((s.bflyLane .fadd j va q l).val, (s.bflyLane .fadd j va q l).pois, (s.bflyLane .fadd j va q l).fl),
        execVbfly_lanes .fadd, fun l => ?_⟩,
      ⟨_, execVbfly_lanes_noFlags fun _ => State.bflyLane_fmax, fun _ => rfl⟩⟩
    show (_, _, _) = ite (l < l ^^^ 2 ^ j.toNat) _ _
    rw [State.bflyLane_fadd]
    split_ifs <;> rfl
  · obtain ⟨p, hp, hw⟩ := execVins_lanes s va n q t0
    refine ⟨rfl, rfl, rfl, rfl, ⟨p, hp, hw.len, hw.lstat, hw.psts, hw.others, fun l hl => ?_⟩, execVlane_a, execVlane_a_poison, rfl,
      execVlane_v_poison, fun h => ⟨_, execVlane_v h, fun l hl => getLsbD_bitsFn _ hl⟩⟩
    simpa using hw.lanes l hl

end Sys2Proof.Machine
end

-- ==== Proofs of the vector family: reductions and scans (09 R195, R196) ====
section
/-! PROOFS. VRED combines by a tree and VSCAN from the left; for an associative operation both are the sum over the active lanes. -/

namespace Sys2Proof.Machine

/-! ### The tree (09 R195) -/

section
variable {fl : Bool} {op : RedOp}

theorem comb_none_right (x : Option LaneRes) : comb fl op x none = x := by cases x <;> rfl

theorem comb_iadd_assoc (x y z : Option LaneRes) : comb fl .iadd (comb fl .iadd x y) z = comb fl .iadd x (comb fl .iadd y z) := by
  cases x with
  | none => rfl
  | some x =>
    cases y with
    | none => rfl
    | some y =>
      cases z with
      | none => rfl
      | some z => simp [comb, redOp, BitVec.add_assoc, Bool.or_assoc, BitVec.or_assoc]

theorem length_combPairs : ∀ l : List (Option LaneRes), (combPairs fl op l).length = (l.length + 1) / 2
  | [] => rfl
  | [_] => by simp [combPairs]
  | a :: b :: t => by
    simp only [combPairs, List.length_cons, length_combPairs t]
    omega
/-- One level of the tree keeps the combination from the left, when the operation is associative. -/
theorem foldl_combPairs_iadd : ∀ (l : List (Option LaneRes)) (r : Option LaneRes),
    (combPairs fl .iadd l).foldl (comb fl .iadd) r = l.foldl (comb fl .iadd) r
  | [], _ | [_], _ => rfl
  | a :: b :: t, r => by simp only [combPairs, List.foldl_cons, foldl_combPairs_iadd t, comb_iadd_assoc]
theorem combTree_iadd : ∀ (n : Nat) (l : List (Option LaneRes)), l.length ≤ 2 ^ n →
    (combTree fl .iadd n l).getD 0 none = l.foldl (comb fl .iadd) none
  | 0, [], _ | 0, [_], _ => rfl
  | n + 1, l, h => by
    have hlen : (combPairs fl .iadd l).length ≤ 2 ^ n := by
      rw [length_combPairs]
      omega
    rw [combTree, combTree_iadd n _ hlen, foldl_combPairs_iadd]

theorem combPairs_none : ∀ l : List (Option LaneRes), (∀ x ∈ l, x = none) → ∀ x ∈ combPairs fl op l, x = none
  | [], h | [_], h => h
  | a :: b :: t, h => by
    simp only [List.forall_mem_cons] at h
    obtain ⟨rfl, rfl, ht⟩ := h
    exact List.forall_mem_cons.2 ⟨rfl, combPairs_none t ht⟩
/-- No active lane, no result. -/
theorem combTree_none : ∀ (n : Nat) (l : List (Option LaneRes)), (∀ x ∈ l, x = none) → (combTree fl op n l).getD 0 none = none
  | 0, [], _ => rfl
  | 0, x :: _, h => h x List.mem_cons_self
  | n + 1, l, h => combTree_none n _ (combPairs_none l h)

end

/-! ### The active lanes from the left -/

section
variable {s : State} {q : BitVec 2} {vd va : BitVec 5} {op : RedOp}

/-- What the lanes of a list that are active combine to, from the left. -/
def State.redRun (s : State) (q : BitVec 2) (va : BitVec 5) (op : RedOp) (r : Option LaneRes) (ls : List Nat) : Option LaneRes :=
  ls.foldl (fun r l => if s.active q l then comb s.flush op r (some ⟨redLane s.flush op (s.lane q va l), s.lpois q va l, 0⟩) else r) r
/-- What the tree of VRED gives. -/
def State.redTree (s : State) (q : BitVec 2) (va : BitVec 5) (op : RedOp) : Option LaneRes :=
  (combTree s.flush op 5 ((List.range 32).map fun l =>
    if s.active q l then some (LaneRes.mk (redLane s.flush op (s.lane q va l)) (s.lpois q va l) 0) else none)).getD 0 none
/-- The sum and the poison of some lanes. -/
def State.laneSum (s : State) (q : BitVec 2) (va : BitVec 5) (ls : List Nat) : Half := (ls.map (s.vl q va)).foldl (· + ·) 0
def State.lanePois (s : State) (q : BitVec 2) (va : BitVec 5) (ls : List Nat) : Bool := ls.any (s.vp q va)

theorem State.redTree_iadd : s.redTree q va .iadd = s.redRun q va .iadd none (List.range 32) := by
  rw [State.redTree, combTree_iadd 5 _ (by simp), List.foldl_map, State.redRun]
  congr 1
  funext r l
  split
  · rfl
  · exact comb_none_right r
theorem State.redTree_none (h : (List.range 32).filter (s.active q) = []) : s.redTree q va op = none := by
  refine combTree_none 5 _ fun x hx => ?_
  obtain ⟨l, hl, rfl⟩ := List.mem_map.1 hx
  exact if_neg (List.filter_eq_nil_iff.1 h l hl)

theorem State.redRun_append (r : Option LaneRes) (ls ms : List Nat) :
    s.redRun q va op r (ls ++ ms) = s.redRun q va op (s.redRun q va op r ls) ms := List.foldl_append
theorem State.redRun_singleton (r : Option LaneRes) (l : Nat) : s.redRun q va op r [l] =
    if s.active q l then comb s.flush op r (some ⟨redLane s.flush op (s.lane q va l), s.lpois q va l, 0⟩) else r := rfl

/-- A run of additions is the sum over the active lanes. -/
theorem State.redRun_iadd (ls : List Nat) : s.redRun q va .iadd none ls =
    if ls.filter (s.active q) = [] then none
    else some ⟨s.laneSum q va (ls.filter (s.active q)), s.lanePois q va (ls.filter (s.active q)), 0⟩ := by
  induction ls using List.reverseRecOn with
  | nil => rfl
  | append_singleton ls l ih =>
    rw [State.redRun_append, ih]
    by_cases hl : s.active q l
    · by_cases hn : ls.filter (s.active q) = []
      · simp [State.redRun_singleton, hl, hn, comb, redLane, State.laneSum, State.lanePois, State.vl, State.vp]
      · simp [State.redRun_singleton, hl, hn, comb, redLane, redOp, State.laneSum, State.lanePois, State.vl, State.vp]
    · simp [State.redRun_singleton, hl]
theorem State.redRun_iadd_getD (ls : List Nat) : (s.redRun q va .iadd none ls).getD ⟨0, false, 0⟩ =
    ⟨s.laneSum q va (ls.filter (s.active q)), s.lanePois q va (ls.filter (s.active q)), 0⟩ := by
  rw [State.redRun_iadd]
  split
  · next h => rw [h]; rfl
  · rfl
theorem State.redRun_iadd_flags (ls : List Nat) : ((s.redRun q va .iadd none ls).map (·.fl)).getD 0 = 0 := by
  rw [State.redRun_iadd]
  split <;> rfl

/-! ### VRED (09 R195) -/

theorem State.popN_len : popN 32 (s.pipe q).len.toNat = ((List.range 32).filter (s.active q)).length := by
  rw [popN_eq_countP (s.pipe q).len.isLt (le_refl _), List.countP_eq_length_filter]
  congr 2

theorem status_ok (n : Nat) : status 0 0 n = BitVec.ofNat 64 (n * 65536) := by
  rw [status, Nat.zero_mul, Nat.add_zero]

theorem execVred_some {r : LaneRes} (h : s.redTree q va op = some r) :
    s.Vector (exec (.vred op vd va q) s) q vd (s.active q) (fun _ => (r.val, r.pois)) (s.pipe q).lstat
      (BitVec.ofNat 64 (((List.range 32).filter (s.active q)).length * 65536)) r.fl := by
  have hexec : exec (.vred op vd va q) s = .next ((((s.vput q vd (s.active q) fun _ => ⟨r.val, r.pois, 0⟩).flagFp r.fl).setPsts q
      (status 0 0 (popN 32 (s.pipe q).len.toNat))).quiet) := by
    show (match s.redTree q va op with | some r => _ | none => _) = _
    rw [h]
  have hw := (((s.wrote_vput q vd (s.active q) fun _ => ⟨r.val, r.pois, 0⟩).flagFp r.fl).setPsts
    (status 0 0 (popN 32 (s.pipe q).len.toNat))).vector
  rw [orFlags_eq_zero fun _ _ => rfl, show (0 : Word) ||| r.fl = r.fl from BitVec.zero_or, ← hexec, State.popN_len, status_ok] at hw
  exact hw
theorem execVred_none (h : s.redTree q va op = none) : exec (.vred op vd va q) s = .next (s.setPsts q 11).quiet := by
  show (match s.redTree q va op with | some r => _ | none => _) = _
  rw [h]
  rfl

/-! ### VSCAN (09 R196) -/

theorem scanGo_cons (excl : Bool) (l : Nat) (t : List Nat) (run : Option LaneRes) :
    scanGo s q va op excl (l :: t) run =
      (if s.active q l then
        if excl then run.getD ⟨scanId op, false, 0⟩ else (s.redRun q va op run [l]).getD ⟨0, false, 0⟩ else ⟨0, false, 0⟩)
      :: scanGo s q va op excl t (s.redRun q va op run [l]) := by
  rw [scanGo, State.redRun_singleton]
  split <;> rfl
/-- An active lane of a scan holds what the active lanes up to it, or below it, combine to. -/
theorem scanGo_getD (excl : Bool) (d : LaneRes) : ∀ (ls : List Nat) (run : Option LaneRes) (i : Nat) (hi : i < ls.length),
    s.active q ls[i] = true → (scanGo s q va op excl ls run).getD i d =
      if excl then (s.redRun q va op run (ls.take i)).getD ⟨scanId op, false, 0⟩
      else (s.redRun q va op run (ls.take (i + 1))).getD ⟨0, false, 0⟩
  | l :: t, run, 0, _, ha => by
    rw [scanGo_cons, List.getD_cons_zero]
    exact if_pos ha
  | l :: t, run, i + 1, hi, ha => by
    rw [scanGo_cons, List.getD_cons_succ, scanGo_getD excl d t _ i (Nat.lt_of_succ_lt_succ hi) ha]
    rfl

theorem execVscan_lanes (excl : Bool) : s.Lanes (exec (.vscan op excl vd va q) s) q vd
    (fun l => (((scanGo s q va op excl (List.range 32) none).getD l ⟨0, false, 0⟩).val,
      ((scanGo s q va op excl (List.range 32) none).getD l ⟨0, false, 0⟩).pois))
    (orFlags (s.active q) (fun l => ((scanGo s q va op excl (List.range 32) none).getD l ⟨0, false, 0⟩).fl)
      ||| ((s.redRun q va op none (List.range 32)).map (·.fl)).getD 0) :=
  ((s.wrote_vput ..).flagFp _).vector

end

/-! ### Additions (09 R195, R196) -/

section
variable {s : State} {q : BitVec 2} {vd va : BitVec 5}

theorem execVred_iadd (h : (List.range 32).filter (s.active q) ≠ []) :
    s.Vector (exec (.vred .iadd vd va q) s) q vd (s.active q)
      (fun _ => (s.laneSum q va ((List.range 32).filter (s.active q)), s.lanePois q va ((List.range 32).filter (s.active q))))
      (s.pipe q).lstat (BitVec.ofNat 64 (((List.range 32).filter (s.active q)).length * 65536)) 0 := by
  have hred := State.redTree_iadd (s := s) (q := q) (va := va)
  rw [State.redRun_iadd, if_neg h] at hred
  exact execVred_some hred

theorem filter_range_32_le : ∀ l < 32, (List.range 32).filter (· ≤ l) = List.range (l + 1) := by decide
theorem filter_range_32_lt : ∀ l < 32, (List.range 32).filter (· < l) = List.range l := by decide

/-- A lane of VSCAN.iadd: the sum of the active lanes among the first `n`, up to it or below it. -/
theorem scanGo_iadd {excl : Bool} {l n : Nat} (ha : s.active q l = true) (hn : n = if excl then l else l + 1) :
    (scanGo s q va .iadd excl (List.range 32) none).getD l ⟨0, false, 0⟩ =
      ⟨s.laneSum q va ((List.range n).filter (s.active q)), s.lanePois q va ((List.range n).filter (s.active q)), 0⟩ := by
  have hl := State.lt_of_active ha
  rw [scanGo_getD excl _ _ _ l (by simpa using hl) (by simpa using ha), List.take_range, List.take_range,
    Nat.min_eq_left hl.le, Nat.min_eq_left hl, hn]
  cases excl <;> exact State.redRun_iadd_getD _
/-- VSCAN.iadd, told by lists of the active lanes up to or below each lane. -/
theorem execVscan_iadd {excl : Bool} {f : Nat → List Nat}
    (hf : ∀ l, l < 32 → f l = (List.range (if excl then l else l + 1)).filter (s.active q)) :
    s.Lanes (exec (.vscan .iadd excl vd va q) s) q vd (fun l => (s.laneSum q va (f l), s.lanePois q va (f l))) 0 := by
  have hw := execVscan_lanes (s := s) (q := q) (vd := vd) (va := va) (op := .iadd) excl
  rw [orFlags_eq_zero fun l ha => by rw [scanGo_iadd ha rfl], State.redRun_iadd_flags] at hw
  exact hw.congr_lanes fun l hl ha => by rw [scanGo_iadd ha rfl, hf l hl]

end

/-! ### Every operation -/

/-- VRED without an active lane writes no lane and leaves EMPTY. -/
theorem execVred_empty {s : State} {q : BitVec 2} {vd va : BitVec 5} {op : RedOp} (h : s.redTree q va op = none) :
    s.Vector (exec (.vred op vd va q) s) q vd (fun _ => false) (fun _ => (0, false)) (s.pipe q).lstat 11 0 := by
  rw [execVred_none h]
  exact (s.wrote_setPsts ..).vector
theorem execVred_vector (s : State) (op : RedOp) (vd va : BitVec 5) (q : BitVec 2) :
    ∃ f ls ps fl, s.Vector (exec (.vred op vd va q) s) q vd (s.active q) f ls ps fl := by
  cases h : s.redTree q va op with
  | none => exact ⟨((s.pipe q).reg vd).at, _, _, _, (execVred_empty h).congr fun l _ => by simp⟩
  | some r => exact ⟨_, _, _, _, execVred_some h⟩

end Sys2Proof.Machine
end

-- ==== Proofs of the vector family: rows and blocks (09 R190, R197 to R199; 03 R82, R83) ====
section
/-! PROOFS. The forms that write every lane of their register: the states and results of a row, and quantised blocks. -/

namespace Sys2Proof.Machine

/-! ### Flags of the lanes -/

theorem getLsbD_orFlags (act : Nat → Bool) (f : Nat → Word) (i : Nat) :
    (orFlags act f).getLsbD i = (List.range 32).any fun l => (if act l then f l else 0).getLsbD i := by
  rw [orFlags, getLsbD_foldl_or (fun l => if act l then f l else 0)]
  simp

/-! ### Soft maximum (03 R83, 09 R197, R198) -/

/-- The first pass over the active lanes. -/
def State.smxRun (s : State) (q : BitVec 2) (va : BitVec 5) (t : Smx) (ls : List Nat) : Smx :=
  ls.foldl (fun t l => if s.active q l then smxStep s.flush t (s.lane q va l) else t) t

theorem smxStep_nan (f : Bool) (t : Smx) (x : Half) : (smxStep f t x).nan = (t.nan || fp32Nan x) := by
  unfold smxStep
  split_ifs <;> simp_all

section
variable {s : State} {q : BitVec 2} {vd va vb : BitVec 5}

theorem State.smxRun_of_inactive {t : Smx} : ∀ {ls : List Nat}, (∀ l ∈ ls, s.active q l = false) → s.smxRun q va t ls = t
  | [], _ => rfl
  | l :: ls, h => by
    obtain ⟨hl, hls⟩ := List.forall_mem_cons.1 h
    show s.smxRun q va (if s.active q l then _ else t) ls = t
    rw [hl]
    exact State.smxRun_of_inactive hls
/-- A NaN among the active lanes stays in the state. -/
theorem State.smxRun_nan (t : Smx) (ls : List Nat) : (s.smxRun q va t ls).nan =
    (t.nan || ls.any fun l => s.active q l && fp32Nan (s.lane q va l)) := by
  induction ls generalizing t with
  | nil => simp [State.smxRun]
  | cons l ls ih =>
    rw [State.smxRun, List.foldl_cons, ← State.smxRun, ih]
    cases h : s.active q l <;> simp [h, smxStep_nan, Bool.or_assoc]

/-- The row state that VSMXA leaves. -/
def smxLane (t : Smx) (p : Bool) : Nat → LaneRes
  | 0 => ⟨t.m, p, 0⟩
  | 1 => ⟨t.s, p, 0⟩
  | 2 => ⟨BitVec.ofNat 32 t.k, p, 0⟩
  | 3 => ⟨ofBool 32 t.nan, p, 0⟩
  | _ => ⟨0, false, 0⟩
theorem smxLane_fl (t : Smx) (p : Bool) (l : Nat) : (smxLane t p l).fl = 0 := by
  unfold smxLane
  split <;> rfl

/-- The row state that VSMXA begins with, and the poison of the one it leaves. -/
def State.smxStart (s : State) (x : Bool) (vd : BitVec 5) (q : BitVec 2) : Smx :=
  if x then {} else { m := s.lane q vd 0, s := s.lane q vd 1, k := (s.lane q vd 2).toNat, nan := s.lane q vd 3 != 0 }
def State.smxPois (s : State) (x : Bool) (vd va : BitVec 5) (q : BitVec 2) : Bool :=
  (!x && (List.range 4).any (s.lpois q vd)) || (List.range 32).any fun l => s.active q l && s.lpois q va l

theorem execVsmxa_vector (x : Bool) : s.Vector (exec (.vsmxa x vd va q) s) q vd (fun _ => true)
    (fun l => ((smxLane (s.smxRun q va (s.smxStart x vd q) (List.range 32)) (s.smxPois x vd va q) l).val,
      (smxLane (s.smxRun q va (s.smxStart x vd q) (List.range 32)) (s.smxPois x vd va q) l).pois))
    (s.pipe q).lstat (s.pipe q).psts (s.smxRun q va (s.smxStart x vd q) (List.range 32)).fl := by
  have h := ((s.wrote_vput q vd (fun _ => true) (smxLane (s.smxRun q va (s.smxStart x vd q) (List.range 32)) (s.smxPois x vd va q))).flagFp
    (s.smxRun q va (s.smxStart x vd q) (List.range 32)).fl).vector
  rw [orFlags_eq_zero fun l _ => smxLane_fl .., show ∀ w : Word, 0 ||| w = w from fun _ => BitVec.zero_or] at h
  exact h

/-- Begun on a row without active lanes, the state is that of an empty row. -/
theorem execVsmxa_start_empty (h : ∀ l, l < 32 → s.active q l = false) :
    s.Vector (exec (.vsmxa true vd va q) s) q vd (fun _ => true) (fun l => (if l = 0 then 0xFF800000 else 0, false))
      (s.pipe q).lstat (s.pipe q).psts 0 := by
  have hrun : s.smxRun q va (s.smxStart true vd q) (List.range 32) = {} :=
    State.smxRun_of_inactive fun l hl => h l (List.mem_range.1 hl)
  have hpois : s.smxPois true vd va q = false := by
    simp only [State.smxPois, Bool.not_true, Bool.false_and, Bool.false_or, List.any_eq_false, List.mem_range]
    intro l hl
    simp [h l hl]
  have hw := execVsmxa_vector (s := s) (q := q) (vd := vd) (va := va) true
  rw [hrun, hpois] at hw
  refine hw.congr_lanes fun l _ _ => ?_
  match l with
  | 0 | 1 | 2 | 3 => rfl
  | l + 4 => rfl
/-- A NaN in an active lane is in lane 3. -/
theorem smxLane_nan {t : Smx} {p : Bool} (h : ∃ l, l < 32 ∧ s.active q l = true ∧ fp32Nan (s.vl q va l) = true) :
    (smxLane (s.smxRun q va t (List.range 32)) p 3).val = 1 := by
  obtain ⟨l, hl, ha, hn⟩ := h
  have hany : (s.smxRun q va t (List.range 32)).nan = true := by
    rw [State.smxRun_nan, List.any_eq_true.2 ⟨l, List.mem_range.2 hl, ?_⟩, Bool.or_true]
    rw [ha, Bool.true_and]
    exact hn
  rw [smxLane, hany]
  rfl

/-- What VSMXN makes of lane `l`. -/
def State.smxnLane (s : State) (va vb : BitVec 5) (q : BitVec 2) (l : Nat) : LaneRes :=
  let f := s.flush
  let x := s.lane q va l
  let on := s.active q l
  let p := (List.range 4).any (s.lpois q vb) || (on && s.lpois q va l)
  if s.lane q vb 3 != 0 then ⟨0x7FC00000, p, 0⟩
  else if (s.lane q vb 2).toNat ≠ 0 then
    if on && x = 0x7F800000 then res (flush32 f (FP32.div (Val.ofInt 1) (Val.ofInt (s.lane q vb 2).toNat))) p else ⟨0, p, 0⟩
  else if s.lane q vb 0 = 0xFF800000 || !on || x = 0xFF800000 then ⟨0, p, 0⟩
  else
    let d := fsub f x (s.lane q vb 0); let e := expE f d.1; let r := fdiv f e.1 (s.lane q vb 1)
    ⟨r.1, p, d.2 ||| e.2 ||| r.2⟩
def State.smxnStatus (s : State) (vb : BitVec 5) (q : BitVec 2) : Word :=
  if !(s.lane q vb 3 != 0) && (s.lane q vb 2).toNat = 0 && s.lane q vb 0 = 0xFF800000 then status sEMPTY 0 0 else stOK

theorem execVsmxn_vector : s.Vector (exec (.vsmxn vd va vb q) s) q vd (fun _ => true)
    (fun l => ((s.smxnLane va vb q l).val, (s.smxnLane va vb q l).pois)) (s.pipe q).lstat (s.smxnStatus vb q)
    (orFlags (fun _ => true) fun l => (s.smxnLane va vb q l).fl) :=
  ((s.wrote_vput ..).setPsts _).vector

theorem smxn_of_nan (h : s.vl q vb 3 ≠ 0) : s.smxnStatus vb q = 0 ∧ ∀ l, (s.smxnLane va vb q l).val = 0x7FC00000 := by
  have h3 : s.lane q vb 3 ≠ 0 := h
  refine ⟨by rw [State.smxnStatus, bne_iff_ne.2 h3]; rfl, fun l => ?_⟩
  rw [State.smxnLane, if_pos (bne_iff_ne.2 h3)]
theorem smxn_of_empty (h3 : s.vl q vb 3 = 0) (h2 : s.vl q vb 2 = 0) (h0 : s.vl q vb 0 = 0xFF800000) :
    s.smxnStatus vb q = 11 ∧ ∀ l, (s.smxnLane va vb q l).val = 0 := by
  rw [State.vl] at h3 h2 h0
  refine ⟨by rw [State.smxnStatus, h3, h2, h0]; rfl, fun l => ?_⟩
  rw [State.smxnLane, h3, h2, h0]
  rfl

/-! ### Row statistics (03 R82, 09 R199) -/

theorem Stat.p1_n (fl : Bool) (t : Stat) (x : Half) : (Stat.p1 fl t x).n = if t.n = 2 ^ 24 then t.n else t.n + 1 := by
  simp only [Stat.p1, apply_ite Stat.n, ite_self]
theorem Stat.foldl_p1_n (fl : Bool) : ∀ (xs : List Half) (t : Stat), t.n + xs.length ≤ 2 ^ 24 →
    (xs.foldl (Stat.p1 fl) t).n = t.n + xs.length
  | [], _, _ => rfl
  | x :: xs, t, h => by
    rw [List.length_cons] at h
    have hn : (Stat.p1 fl t x).n = t.n + 1 := by rw [Stat.p1_n, if_neg (by omega)]
    rw [List.foldl_cons, Stat.foldl_p1_n fl xs _ (by omega), hn, List.length_cons]
    omega
/-- The first pass from a new row counts the active lanes. -/
theorem Stat.foldl_p1_n_active (fl : Bool) (f : Nat → Half) :
    ((((List.range 32).filter (s.active q)).map f).foldl (Stat.p1 fl) {}).n = ((List.range 32).filter (s.active q)).length := by
  have hle : ((List.range 32).filter (s.active q)).length ≤ 32 := (List.length_filter_le ..).trans_eq List.length_range
  rw [Stat.foldl_p1_n _ _ _ (by rw [List.length_map]; show 0 + _ ≤ _; omega), List.length_map]
  exact Nat.zero_add _
/-- A row that has counted no element has no mean. -/
theorem Stat.fin_of_empty (fl : Bool) {t : Stat} (hn : t.n = 0) (ho : t.ovr = false) : t.fin fl = (0, 0, 0) := by
  simp [Stat.fin, hn, ho]

/-- The passes of VSTAT leave a row state. -/
theorem execVstat_pass {ph : StatPhase} (h : ph ∈ [StatPhase.p1s, .p1, .p2]) :
    ∃ f, s.Vector (exec (.vstat ph vd va q) s) q vd (fun _ => true) f (s.pipe q).lstat (s.pipe q).psts 0
      ∧ (ph = .p1s → (f 2).1 = BitVec.ofNat 32 ((List.range 32).filter (s.active q)).length) := by
  obtain rfl | rfl | rfl : ph = .p1s ∨ ph = .p1 ∨ ph = .p2 := by simpa using h
  · exact ⟨fun l => (_, _), s.vector_vput_noFlags fun _ => rfl, fun _ => congrArg (BitVec.ofNat 32) (Stat.foldl_p1_n_active ..)⟩
  · exact ⟨fun l => (_, _), s.vector_vput_noFlags fun _ => rfl, nofun⟩
  · exact ⟨fun l => (_, _), s.vector_vput_noFlags fun _ => rfl, nofun⟩

/-- The results of a row: mean with the flags, then variance. -/
def statFinLane (r : Half × Half × Word) (p : Bool) : Nat → LaneRes
  | 0 => ⟨r.1, p, r.2.2⟩
  | 1 => ⟨r.2.1, p, 0⟩
  | _ => ⟨0, false, 0⟩
def Stat.finStatus (t : Stat) : Word :=
  if t.ovr then fault 0x020 t.n else if t.n = 0 then status sEMPTY 0 0 else status 0 0 t.n

theorem execVstat_fin_vector : ∃ p : Bool, s.Vector (exec (.vstat .fin vd va q) s) q vd (fun _ => true)
    (fun l => ((statFinLane ((Stat.ofLanes (s.lane q va)).fin s.flush) p l).val,
      (statFinLane ((Stat.ofLanes (s.lane q va)).fin s.flush) p l).pois))
    (s.pipe q).lstat (Stat.ofLanes (s.lane q va)).finStatus
    (orFlags (fun _ => true) fun l => (statFinLane ((Stat.ofLanes (s.lane q va)).fin s.flush) p l).fl) :=
  ⟨(List.range 9).any (s.lpois q va), ((s.wrote_vput ..).setPsts _).vector⟩
theorem execVstat_fin : ∃ f ps fl, s.Vector (exec (.vstat .fin vd va q) s) q vd (fun _ => true) f (s.pipe q).lstat ps fl
    ∧ (s.vl q va 2 = 0 → (s.vl q va 3).getLsbD 6 = false → ps = 11 ∧ (f 0).1 = 0 ∧ (f 1).1 = 0) := by
  obtain ⟨p, hw⟩ := execVstat_fin_vector (s := s) (q := q) (vd := vd) (va := va)
  refine ⟨_, _, _, hw, fun h2 h6 => ?_⟩
  have hn : (Stat.ofLanes (s.lane q va)).n = 0 := congrArg BitVec.toNat h2
  have ho : (Stat.ofLanes (s.lane q va)).ovr = false := h6
  rw [Stat.fin_of_empty _ hn ho, Stat.finStatus, hn, ho]
  exact ⟨rfl, rfl, rfl⟩

end

/-! ### Quantised blocks (09 R190) -/

theorem Val.isZero_iff {v : Val} : v.isZero = true ↔ ∃ n e, v = .fin n 0 e := by
  refine ⟨fun h => ?_, fun ⟨_, _, h⟩ => h ▸ rfl⟩
  match v with
  | .fin n 0 e => exact ⟨n, e, rfl⟩
/-- NaNs and infinities. -/
def Val.isSpecial : Val → Bool
  | .fin .. => false
  | _ => true

section
variable {d : Nat} {xs : List Val}

/-- A block with a NaN or an infinity has the NaN scale. -/
theorem blockScale_of_special {v : Val} (hv : v ∈ xs) (h : v.isSpecial = true) : blockScale d xs = (0xFF000, NV) := by
  refine if_pos (List.any_eq_true.2 ⟨v, hv, ?_⟩)
  cases v with
  | nan | inf => rfl
  | fin => cases h
/-- A block of zeros has the zero scale: the larger of two zeros is one. -/
theorem blockScale_of_zero (h : ∀ v ∈ xs, v.isZero = true) : blockScale d xs = (0, 0) := by
  rw [blockScale, if_neg]
  · generalize hb : xs.foldl _ Val.zero = big
    obtain ⟨n, e, rfl⟩ : ∃ n e, big = .fin n 0 e := by
      rw [← Val.isZero_iff, ← hb]
      refine List.foldlRecOn (motive := fun a : Val => a.isZero = true) xs _ rfl fun a ha v hv => ?_
      obtain ⟨n, e, rfl⟩ := Val.isZero_iff.1 ha
      obtain ⟨n', e', rfl⟩ := Val.isZero_iff.1 (h v hv)
      dsimp only
      split <;> rfl
    rfl
  · rw [Bool.not_eq_true, List.any_eq_false]
    intro v hv
    obtain ⟨n, e, rfl⟩ := Val.isZero_iff.1 (h v hv)
    exact Bool.false_ne_true

end

section
variable {s : State} {q : BitVec 2} {vd va : BitVec 5} {f : QFmt}

/-- A lane as VQNT reads it, and the scale of a block of four. -/
def State.qntVal (s : State) (q : BitVec 2) (va : BitVec 5) (l : Nat) : Val :=
  if s.active q l then dec32 s.flush (s.lane q va l) else Val.zero
def State.qntScale (s : State) (f : QFmt) (q : BitVec 2) (va : BitVec 5) (b : Nat) : Nat × Word :=
  blockScale (qMax f) ((List.range 4).map fun i => s.qntVal q va (4 * b + i))

theorem dec32_zero (fl : Bool) : (dec32 fl 0).isZero = true := by cases fl <;> decide
theorem qntScale_of_zero {b : Nat} (h : ∀ i, i < 4 → s.active q (4 * b + i) = false ∨ s.vl q va (4 * b + i) = 0) :
    s.qntScale f q va b = (0, 0) := by
  refine blockScale_of_zero fun v hv => ?_
  obtain ⟨i, hi, rfl⟩ := List.mem_map.1 hv
  rw [State.qntVal]
  split
  · next ha =>
    have hl : s.lane q va (4 * b + i) = 0 := (h i (List.mem_range.1 hi)).resolve_left (by simp [ha])
    rw [hl]
    exact dec32_zero _
  · rfl
theorem qntScale_of_special {b i : Nat} (hi : i < 4) (ha : s.active q (4 * b + i) = true)
    (he : bitsN (s.vl q va (4 * b + i)) 30 23 = 255) : s.qntScale f q va b = (0xFF000, NV) := by
  refine blockScale_of_special (List.mem_map.2 ⟨i, List.mem_range.2 hi, rfl⟩) ?_
  rw [State.qntVal, if_pos ha, dec32_of_special _ (x := s.lane q va (4 * b + i)) he]
  split <;> rfl

/-- VQNT for scales: the scale of each of the 8 blocks, with its flags. -/
theorem execVqnt_scales : ∃ g fl, s.Vector (exec (.vqnt f true vd va q) s) q vd (fun _ => true) g (s.pipe q).lstat (s.pipe q).psts fl
    ∧ (∀ l, 8 ≤ l → l < 32 → g l = (0, false)) ∧ (∀ b, b < 8 → (g b).1 = BitVec.ofNat 32 (s.qntScale f q va b).1)
    ∧ ∀ b, b < 8 → (s.qntScale f q va b).2.getLsbD 8 = true → fl.getLsbD 8 = true := by
  refine ⟨_, _, (s.wrote_vput ..).vector, fun l hl _ => ?_, fun b hb => ?_, fun b hb h => ?_⟩
  · simp only [if_neg (Nat.not_lt.2 hl)]
  · simp only [if_pos hb]
    rfl
  · rw [getLsbD_orFlags]
    refine List.any_eq_true.2 ⟨b, List.mem_range.2 (by omega), ?_⟩
    simp only [if_pos hb, if_true]
    rw [getLsbD_foldl_or, Bool.or_eq_true]
    exact .inl h

/-- VQNT for elements: the lanes that hold them, 8 or 4. -/
theorem execVqnt_elements : ∃ g fl, s.Vector (exec (.vqnt f false vd va q) s) q vd (fun _ => true) g (s.pipe q).lstat (s.pipe q).psts fl
    ∧ ∀ l, (if f = .qsi8 ∨ f = .qse4m3 then 8 else 4) ≤ l → l < 32 → g l = (0, false) := by
  refine ⟨_, _, (s.wrote_vput ..).vector, fun l hl _ => ?_⟩
  have hn : ¬l * (if qWide f then 4 else 8) < 32 := by
    simp only [qWide_iff]
    split_ifs at hl ⊢ <;> omega
  simp only [if_neg hn]

end

/-- Settles O19: reductions and scans by the runs of their active lanes, rows and blocks by what each lane holds. -/
theorem reductionsRowsAndBlocks : Obligations.ReductionsRowsAndBlocks := by
  refine ⟨fun s vd va q => ⟨⟨fun h => execVred_iadd h, fun h op => execVred_empty (State.redTree_none h), ?_, ?_⟩, fun op x =>
    ⟨⟨_, execVscan_lanes x⟩, execVred_vector s op vd va q⟩⟩, fun s vd va vb q => ⟨execVsmxa_start_empty, fun x => ?_, ?_,
      fun ph h => execVstat_pass h, execVstat_fin⟩, fun s f vd va q => ⟨?_, execVqnt_elements⟩⟩
  · exact execVscan_iadd fun l hl => by rw [List.filter_comm, filter_range_32_le l hl]; rfl
  · exact execVscan_iadd fun l hl => by rw [List.filter_comm, filter_range_32_lt l hl]; rfl
  · exact ⟨_, _, execVsmxa_vector x, smxLane_nan (p := s.smxPois x vd va q)⟩
  · exact ⟨_, _, _, execVsmxn_vector, fun h => (smxn_of_nan h).imp_right fun hl l _ => hl l,
      fun h3 h2 h0 => (smxn_of_empty h3 h2 h0).imp_right fun hl l _ => hl l⟩
  · obtain ⟨g, fl, hw, hrest, hscale, hflag⟩ := execVqnt_scales (s := s) (q := q) (vd := vd) (va := va) (f := f)
    refine ⟨g, fl, hw, hrest, fun b hb h => ?_, fun b i hb hi ha he => ?_⟩
    · rw [hscale b hb, qntScale_of_zero h]
      rfl
    · have hs := qntScale_of_special (f := f) hi ha he
      exact ⟨by rw [hscale b hb, hs]; rfl, hflag b hb (by rw [hs]; decide)⟩

end Sys2Proof.Machine
end

-- ==== Proofs of the vector family: collar status and SETT (09 R203; 10 R225, R227) ====
section
/-! PROOFS. The status words by their fields, and SETT by the state of its binding. -/

namespace Sys2Proof.Machine

/-! ### Words made of fields -/

theorem ite_eq_toNat_mul (b : Bool) (k : Nat) : (if b then k else 0) = b.toNat * k := by cases b <;> simp
/-- A bit of a word made of fields. -/
theorem getLsbD_ofNat_of_field {n i : Nat} {b : Bool} (hi : i < 64) (h : n / 2 ^ i % 2 = b.toNat) : (BitVec.ofNat 64 n).getLsbD i = b := by
  rw [BitVec.getLsbD_ofNat, decide_eq_true hi, Bool.true_and, Nat.testBit_eq_decide_div_mod_eq, h]
  cases b <;> rfl
/-- A field of several bits. -/
theorem bitsN_ofNat_of_field {n hi lo v : Nat} (hn : n < 2 ^ 64) (h : n / 2 ^ lo % 2 ^ (hi - lo + 1) = v) :
    bitsN (BitVec.ofNat 64 n) hi lo = v := by
  rw [bitsN_eq_div_mod, BitVec.toNat_ofNat, Nat.mod_eq_of_lt hn, h]

/-! ### CSTAT (10 R225) -/

theorem cstatWord_fields (g : CollarCfg) : (cstatWord (some g)).getLsbD 63 = true ∧ (cstatWord (some g)).getLsbD 62 = g.fired
    ∧ (cstatWord (some g)).getLsbD 61 = g.frozen ∧ (cstatWord (some g)).getLsbD 60 = g.fault.isSome
    ∧ (cstatWord (some g)).getLsbD 59 = g.hang.isSome ∧ bitsN (cstatWord (some g)) 58 57 = g.side.toNat
    ∧ bitsN (cstatWord (some g)) 56 51 = g.first % 64 ∧ bitsN (cstatWord (some g)) 50 47 = g.img.nslab % 16
    ∧ bitsN (cstatWord (some g)) 46 0 = 0 := by
  have htrue := Bool.toNat_true
  have hfired := g.fired.toNat_le
  have hfrozen := g.frozen.toNat_le
  have hfault := g.fault.isSome.toNat_le
  have hhang := g.hang.isSome.toNat_le
  have hside := g.side.isLt
  have hfirst := Nat.mod_lt g.first (show 64 > 0 by decide)
  have hslab := Nat.mod_lt g.img.nslab (show 16 > 0 by decide)
  simp only [cstatWord, ite_eq_toNat_mul]
  refine ⟨getLsbD_ofNat_of_field (by decide) ?_, getLsbD_ofNat_of_field (by decide) ?_, getLsbD_ofNat_of_field (by decide) ?_,
    getLsbD_ofNat_of_field (by decide) ?_, getLsbD_ofNat_of_field (by decide) ?_, bitsN_ofNat_of_field ?_ ?_, bitsN_ofNat_of_field ?_ ?_,
    bitsN_ofNat_of_field ?_ ?_, bitsN_ofNat_of_field ?_ ?_⟩
  all_goals omega

/-! ### SQUERY (10 R227) -/

/-- The state of a bound sett. -/
theorem squeryWord_fields {b : Binding} (h : b.bound = true) : (squeryWord false b).getLsbD 63 = true
    ∧ (squeryWord false b).getLsbD 62 = b.resident ∧ bitsN (squeryWord false b) 61 60 = b.img.nsrc % 4
    ∧ (squeryWord false b).getLsbD 59 = b.img.param ∧ bitsN (squeryWord false b) 58 52 = b.img.lat % 128
    ∧ bitsN (squeryWord false b) 50 45 = b.first % 64 := by
  have htrue := Bool.toNat_true
  have hres := b.resident.toNat_le
  have hparam := b.img.param.toNat_le
  have hsrc := Nat.mod_lt b.img.nsrc (show 4 > 0 by decide)
  have hlat := Nat.mod_lt b.img.lat (show 128 > 0 by decide)
  have hfirst := Nat.mod_lt b.first (show 64 > 0 by decide)
  obtain ⟨two, htwo, hle⟩ : ∃ two, (if b.img.nslab = 2 then 2 ^ 51 else 0) = two * 2 ^ 51 ∧ two ≤ 1 := by
    by_cases h2 : b.img.nslab = 2
    · exact ⟨1, by simp [h2], le_refl _⟩
    · exact ⟨0, by simp [h2], by decide⟩
  simp only [squeryWord, h, Bool.not_true, Bool.false_eq_true, if_false, ite_eq_toNat_mul, htwo]
  refine ⟨getLsbD_ofNat_of_field (by decide) ?_, getLsbD_ofNat_of_field (by decide) ?_, bitsN_ofNat_of_field ?_ ?_,
    getLsbD_ofNat_of_field (by decide) ?_, bitsN_ofNat_of_field ?_ ?_, bitsN_ofNat_of_field ?_ ?_⟩
  all_goals omega

section
variable {s : State} {n : BitVec 4} {q : BitVec 2} {t0 t1 : Cons} {x : Bool}

theorem execSquery_poison (h : s.opB.poison = true) : exec (.squery x n t0 t1) s = .next (s.slotFault 4 0 7 0) :=
  (if_pos h : execSquery x n t0 t1 s = _)
theorem execSquery_range (h : s.opB.poison = false) (hb : 4 ≤ s.b.toNat) :
    exec (.squery x n t0 t1) s = .next (s.slotFault 6 0x030 s.b 0) :=
  ((if_neg (by rw [h]; decide)).trans (if_pos hb) : execSquery x n t0 t1 s = _)
/-- With a pipe that exists, SQUERY sends what it knows of the binding. -/
theorem execSquery_sends (h : s.opB.poison = false) (hb : s.b.toNat < 4) :
    exec (.squery x n t0 t1) s
      = .next (s.sends t0 t1 (squeryWord x (s.ctx.setts.getD (16 * s.b.toNat + n.toNat) {})) false) :=
  ((if_neg (by rw [h]; decide)).trans (if_neg (Nat.not_le.2 hb)) : execSquery x n t0 t1 s = _)

end

/-! ### SETT (09 R203) -/

/-- What the sett bound by `b` makes of lane `l`. -/
def State.settRes (s : State) (b : Binding) (vd va vb : BitVec 5) (q : BitVec 2) (l : Nat) : LaneRes :=
  settLane b.img s.flush (([va, vb, vd].take b.img.nsrc).map fun v => { val := s.vl q v l, pois := s.vp q v l })
    { val := s.aw, pois := s.opA.poison }

/-- The flags of some lanes are among those of all. -/
theorem orFlags_or_all (act : Nat → Bool) (f : Nat → Word) :
    orFlags act f ||| (List.range 32).foldl (fun w l => w ||| f l) 0 = (List.range 32).foldl (fun w l => w ||| f l) 0 := by
  refine BitVec.eq_of_getLsbD_eq fun i _ => ?_
  rw [BitVec.getLsbD_or, getLsbD_orFlags, getLsbD_foldl_or f]
  simp only [BitVec.ofNat_eq_ofNat, BitVec.getLsbD_zero, Bool.false_or, Bool.or_eq_right_iff_imp, List.any_eq_true]
  rintro ⟨l, hl, h⟩
  refine ⟨l, hl, ?_⟩
  split at h
  · exact h
  · exact absurd h (by simp)

section
variable {s : State} {n : BitVec 4} {vd va vb : BitVec 5} {q : BitVec 2} {b : Binding}
  (hb : s.ctx.setts.getD (16 * q.toNat + n.toNat) {} = b)
include hb

/-- SETT by the state of its binding: sett-miss, sett-operand, or the graph. -/
theorem execSett_eq : exec (.sett n vd va vb q) s =
    if (b.bound && b.resident) = false then
      .next ((s.onCsr fun c => { c with perf := modV c.perf 6 (· + 1) }).slotFault 10 0 (BitVec.ofNat 64 (q.toNat * 16 + n.toNat))
        (if b.bound then b.addr else 0))
    else if b.img.param ≠ s.cur.expA then .next (s.slotFault 9 0 (BitVec.ofNat 64 (q.toNat * 16 + n.toNat)) 0)
    else .next (((s.vput q vd (s.active q) fun l => ((List.range 32).map (s.settRes b vd va vb q)).getD l ⟨0, false, 0⟩).flagFp
      (((List.range 32).map (s.settRes b vd va vb q)).foldl (fun w r => w ||| r.fl) 0)).quiet) := by
  have hmiss : ∀ x y : Bool, (!x || !y) = true ↔ (x && y) = false := by decide
  subst hb
  exact if_congr (hmiss ..) rfl (if_congr bne_iff_ne rfl rfl)

/-- SETT of a resident binding whose parameter matches: the active lanes take the graph's output, and all lanes set flags. -/
theorem execSett_lanes (h : (b.bound && b.resident) = true) (hp : b.img.param = s.cur.expA) :
    s.Lanes (exec (.sett n vd va vb q) s) q vd (fun l => ((s.settRes b vd va vb q l).val, (s.settRes b vd va vb q l).pois))
      ((List.range 32).foldl (fun w l => w ||| (s.settRes b vd va vb q l).fl) 0) := by
  have hget : ∀ l, l < 32 → ((List.range 32).map (s.settRes b vd va vb q)).getD l ⟨0, false, 0⟩ = s.settRes b vd va vb q l :=
    fun l hl => by simp [hl]
  have hw := ((s.wrote_vput q vd (s.active q) fun l => ((List.range 32).map (s.settRes b vd va vb q)).getD l ⟨0, false, 0⟩).flagFp
    (((List.range 32).map (s.settRes b vd va vb q)).foldl (fun w r => w ||| r.fl) 0)).vector
  rw [orFlags_congr fun l ha => by rw [hget l (State.lt_of_active ha)], List.foldl_map, orFlags_or_all] at hw
  rw [execSett_eq hb, if_neg (ne_false_of_eq_true h), if_neg (not_not.2 hp), List.foldl_map]
  exact hw.congr_lanes fun l hl _ => by rw [hget l hl]

end

/-- Settles O26: the status words field by field, and SETT by the state of its binding. -/
theorem collarStatusAndSettCall : Obligations.CollarStatusAndSettCall := by
  intro s h n vd va vb q t0 t1
  refine ⟨⟨cstatWord (s.ctx.cfg h.toNat), rfl, fun hg => congrArg cstatWord hg, fun g hg => ?_⟩, fun x hp => execSquery_poison hp,
    fun x hp hr => execSquery_range hp hr, fun hp hr b hb => ⟨fun hu => ?_, fun hu => ?_⟩, fun b hb => ⟨fun hm => ?_, fun hh hp => ?_,
      fun hh hp => execSett_lanes hb hh hp⟩⟩
  · rw [show s.ctx.cfg h.toNat = some g from hg]
    exact cstatWord_fields g
  · have hword : ∀ x, squeryWord x b = 0 := fun x => if_pos (by rw [hu]; rfl)
    rw [execSquery_sends hp hr, execSquery_sends hp hr, hb, hword, hword]
    exact ⟨rfl, rfl⟩
  · rw [execSquery_sends hp hr, execSquery_sends hp hr, hb]
    refine ⟨?_, _, rfl, squeryWord_fields hu⟩
    rw [squeryWord, hu]
    rfl
  · exact ⟨_, (execSett_eq hb).trans (if_pos hm), rfl⟩
  · exact (execSett_eq hb).trans ((if_neg (ne_false_of_eq_true hh)).trans (if_pos hp))

end Sys2Proof.Machine
end

-- ==== Proofs of the matrix family: engine commands at issue (10 R205 to R209, R221 to R226) ====
section
/-! PROOFS. The forms of classes M and C at the core: poison, then the operands, then the effect held for commit. `issueCmd` is told by
its outcomes once; each form is its check of A and of the low bits of B. -/

namespace Sys2Proof.Machine

/-! ### Fields -/

/-- A field of one bit. -/
theorem bitsN_bit {n : Nat} (x : BitVec n) (i : Nat) : bitsN x i i = (x.getLsbD i).toNat := by
  rw [bitsN_eq_div_mod, Nat.sub_self, zero_add, pow_one, BitVec.getLsbD, Nat.testBit_eq_decide_div_mod_eq]
  rcases Nat.mod_two_eq_zero_or_one (x.toNat / 2 ^ i) with h | h <;> simp [h]
theorem bitsN_top_eq_zero {x : Word} {lo : Nat} (hlo : lo < 64) : bitsN x 63 lo = 0 ↔ x.toNat < 2 ^ lo := by
  rw [← not_iff_not, not_lt]
  exact bitsN_ne_zero_iff x hlo
/-- A field of a field from bit 0. -/
theorem bitsN_low_div_mod {n : Nat} (x : BitVec n) {hi m lo : Nat} (hm : m ≤ hi) (hlo : lo ≤ m) :
    bitsN x hi 0 / 2 ^ lo % 2 ^ (m - lo + 1) = bitsN x m lo := by
  rw [bitsN_eq_div_mod, bitsN_eq_div_mod, pow_zero, Nat.div_one, Nat.sub_zero,
    show hi + 1 = lo + (hi - lo + 1) by omega, pow_add, Nat.mod_mul_right_div_self,
    Nat.mod_mod_of_dvd _ (pow_dvd_pow 2 (show m - lo + 1 ≤ hi - lo + 1 by omega))]

section Issue
variable {s : State} {i : Instr} {useA : Bool} {bad : Word → Bool} {lowOk : Nat → Bool} {ws : List Word}

/-! ### The outcomes of `issueCmd` -/

theorem issueCmd_poison (hp : (s.opA.poison || s.opB.poison) = true) : issueCmd i useA bad lowOk ws s = .next (s.slotFault 4 0 7 0) :=
  if_pos hp
section Unpoisoned
variable (hp : (s.opA.poison || s.opB.poison) = false)
include hp
theorem issueCmd_badA (ha : bad s.a = true) : issueCmd i true bad lowOk ws s = .next (s.slotFault 6 0x030 s.a 0) :=
  (if_neg (ne_true_of_eq_false hp)).trans (if_pos ha)
theorem issueCmd_goodA (ha : (useA && bad s.a) = false) : issueCmd i useA bad lowOk ws s =
    if lowOk (bitsN s.b 47 0) then .next (s.heldFor i ws) else .next (s.slotFault 6 0x030 s.b 0) := by
  refine (if_neg (ne_true_of_eq_false hp)).trans ((if_neg (ne_true_of_eq_false ha)).trans ?_)
  show (if (!lowOk (bitsN s.b 47 0)) = true then _ else _) = _
  cases lowOk (bitsN s.b 47 0) <;> rfl
theorem issueCmd_held (ha : (useA && bad s.a) = false) (hb : lowOk (bitsN s.b 47 0) = true) :
    issueCmd i useA bad lowOk ws s = .next (s.heldFor i ws) :=
  (issueCmd_goodA hp ha).trans (if_pos hb)
end Unpoisoned

/-! ### The check of each form -/

/-- The core issues form `i` by `issueCmd`, with a check of A and a check of the low bits of B. -/
def IssuedBy (s : State) (i : Instr) (useA : Bool) (bad : Word → Bool) (lowOk : Nat → Bool) : Prop :=
  exec i s = issueCmd i useA bad lowOk [] s

section Forms
variable {r : BitVec 3} {h : BitVec 5} {n : BitVec 4} (hw : s.who = .core)
include hw

theorem issuedBy_mregion : IssuedBy s (.mregion r) true (fun a =>
    bitsN a 7 7 ≠ 0 || bitsN a 15 15 ≠ 0 || bitsN a 23 23 ≠ 0 || bitsN a 63 31 ≠ 0
      || bitsN a 22 16 = 0 || bitsN a 30 24 = 0 || 96 < bitsN a 6 0 + bitsN a 22 16 || 96 < bitsN a 14 8 + bitsN a 30 24) noLow := by
  show execMregion r s = _
  rw [execMregion, hw]
theorem issuedBy_mwld : IssuedBy s (.mwld r) true (fun a => bitsN a 63 10 ≠ 0) noLow := by
  show execMwld r s = _
  rw [execMwld, hw]
theorem issuedBy_mswap : IssuedBy s (.mswap r) false (fun _ => false) noLow := by
  show execMswap r s = _
  rw [execMswap, hw]
theorem issuedBy_mfree : IssuedBy s (.mfree r) false (fun _ => false) noLow := by
  show execMfree r s = _
  rw [execMfree, hw]
theorem issuedBy_macc : IssuedBy s (.macc r) true (fun a =>
    bitsN a 7 0 = 0 || bitsN a 15 14 ≠ 0 || bitsN a 23 23 ≠ 0 || bitsN a 63 30 ≠ 0 || bitsN a 22 16 = 0
      || 64 < bitsN a 22 16 || 64 < bitsN a 13 8 + bitsN a 22 16 || (bitsN a 24 24 = 0 && bitsN a 29 25 ≠ 0)) noLow := by
  show execMacc r s = _
  rw [execMacc, hw]
theorem issuedBy_mdrain : IssuedBy s (.mdrain r) true rangeBad noLow := by
  show execMdrain r s = _
  rw [execMdrain, hw]
theorem issuedBy_mzero : IssuedBy s (.mzero r) true rangeBad noLow := by
  show execMzero r s = _
  rw [execMzero, hw]
theorem issuedBy_cload : IssuedBy s (.cload h) true addrBad (fun n => n ≤ 4) := by
  show execCload h s = _
  rw [execCload, hw]
theorem issuedBy_cfire : IssuedBy s (.cfire h) false (fun _ => false) noLow := by
  show execCfire h s = _
  rw [execCfire, hw]
theorem issuedBy_cpatch : IssuedBy s (.cpatch h) true addrBad noLow := by
  show execCpatch h s = _
  rw [execCpatch, hw]
theorem issuedBy_cmcast : IssuedBy s (.cmcast h) true addrBad (fun n =>
    n / 2 ^ 6 % 4 = 0 && n / 2 ^ 14 = 0 && (n % 64) &&& (n / 2 ^ 8 % 64) = n % 64) := by
  show execCmcast h s = _
  rw [execCmcast, hw]
theorem issuedBy_cevict : IssuedBy s (.cevict h) true (fun a => bitsN a 63 8 ≠ 0)
    (fun n => if n % 2 = 1 then n / 8 = 0 && h.toNat < 16 else n = 0) := by
  show execCevict h s = _
  rw [execCevict, hw]
theorem issuedBy_cweight : IssuedBy s (.cweight h) true (fun a => bitsN a 9 9 ≠ 0 || bitsN a 63 17 ≠ 0) noLow := by
  show execCweight h s = _
  rw [execCweight, hw]
theorem issuedBy_chang : IssuedBy s (.chang h) true addrBad noLow := by
  show execChang h s = _
  rw [execChang, hw]
theorem issuedBy_cfreeze : IssuedBy s (.cfreeze h) false (fun _ => false) noLow := by
  show execCfreeze h s = _
  rw [execCfreeze, hw]
theorem issuedBy_cthaw : IssuedBy s (.cthaw h) false (fun _ => false) noLow := by
  show execCthaw h s = _
  rw [execCthaw, hw]
theorem issuedBy_sbind : IssuedBy s (.sbind n) true addrBad (fun n => n < 4) := by
  show execSbind n s = _
  rw [execSbind, hw]
theorem issuedBy_sfree : IssuedBy s (.sfree n) false (fun _ => false) (fun n => n < 4) := by
  show execSfree n s = _
  rw [execSfree, hw]

/-- MFMT names a pair of codes that may not stand together before it looks at B. -/
theorem exec_mfmt_core : exec (.mfmt r) s =
    if !s.opA.poison && !s.opB.poison && bitsN s.a 63 8 = 0 && bitsN s.a 3 0 ≤ 8 && bitsN s.a 7 4 ≤ 8
        && !fmtPairOk (bitsN s.a 3 0) (bitsN s.a 7 4) then .next (s.slotFault 6 0x031 s.a 0)
    else issueCmd (.mfmt r) true (fun a => bitsN a 63 8 ≠ 0 || 8 < bitsN s.a 3 0 || 8 < bitsN s.a 7 4) noLow [] s := by
  show execMfmt r s = _
  rw [execMfmt, hw]; rfl
/-- What MSTEP finds wrong with its A. -/
def mstepBad (a : Word) : Bool := bitsN a 63 32 ≠ 0 || mstepM a = 0 || (!mstepPV a && bitsN a 9 5 ≠ 0)
omit hw in
theorem mstepBad_eq_false {a : Word} (hz : bitsN a 63 32 = 0) (hm : 1 ≤ bitsN a 31 16) (hv : bitsN a 15 15 = 0 → bitsN a 9 5 = 0) :
    mstepBad a = false := by
  have hm : bitsN a 31 16 ≠ 0 := Nat.one_le_iff_ne_zero.1 hm
  rw [bitsN_bit] at hv
  cases hpv : a.getLsbD 15 <;> simp_all [mstepBad, mstepM, mstepPV]
/-- MSTEP with good operands is checked for a clash of bank groups before it is held. -/
theorem exec_mstep_core : exec (.mstep r) s =
    if !s.opA.poison && !s.opB.poison && !mstepBad s.a && noLow (bitsN s.b 47 0) && s.groupClash r s.a then
      .next ((s.slotFault 5 dGROUP s.freeVal 0).drawn)
    else issueCmd (.mstep r) true (fun _ => mstepBad s.a) noLow [s.flushW] s := by
  show execMstep r s = _
  rw [execMstep, hw]; rfl
end Forms

/-! ### Poison, operands out of range, and the effect held -/

section Outcomes
variable (hi : IssuedBy s i useA bad lowOk)
include hi
theorem IssuedBy.poison (hp : (s.opA.poison || s.opB.poison) = true) : exec i s = .next (s.slotFault 4 0 7 0) :=
  hi.trans (issueCmd_poison hp)
theorem IssuedBy.held (hp : (s.opA.poison || s.opB.poison) = false) (ha : (useA && bad s.a) = false)
    (hb : lowOk (bitsN s.b 47 0) = true) : exec i s = .next (s.heldFor i []) := hi.trans (issueCmd_held hp ha hb)
theorem IssuedBy.low (hp : (s.opA.poison || s.opB.poison) = false) (ha : (useA && bad s.a) = false) : exec i s =
    if lowOk (bitsN s.b 47 0) then .next (s.heldFor i []) else .next (s.slotFault 6 0x030 s.b 0) := hi.trans (issueCmd_goodA hp ha)
end Outcomes
theorem IssuedBy.badA (hi : IssuedBy s i true bad lowOk) (hp : (s.opA.poison || s.opB.poison) = false) (ha : bad s.a = true) :
    exec i s = .next (s.slotFault 6 0x030 s.a 0) := hi.trans (issueCmd_badA hp ha)

variable {r : BitVec 3} {h : BitVec 5} {n : BitVec 4} (hw : s.who = .core)
include hw

theorem exec_engineForms_poison (hp : (s.opA.poison || s.opB.poison) = true) (hi : i ∈ matrixForms r ++ collarForms h n) :
    exec i s = .next (s.slotFault 4 0 7 0) := by
  have hgood : (!s.opA.poison && !s.opB.poison) = false := by rw [← Bool.not_or, hp]; rfl
  simp only [matrixForms, collarForms, List.cons_append, List.nil_append, List.mem_cons, List.not_mem_nil, or_false] at hi
  rcases hi with rfl | rfl | rfl | rfl | rfl | rfl | rfl | rfl | rfl | rfl | rfl | rfl | rfl | rfl | rfl | rfl | rfl | rfl | rfl | rfl
  · exact (issuedBy_mregion hw).poison hp
  · exact ((exec_mfmt_core hw).trans (if_neg (by simp [hgood]))).trans (issueCmd_poison hp)
  · exact (issuedBy_mwld hw).poison hp
  · exact (issuedBy_mswap hw).poison hp
  · exact ((exec_mstep_core hw).trans (if_neg (by simp [hgood]))).trans (issueCmd_poison hp)
  · exact (issuedBy_macc hw).poison hp
  · exact (issuedBy_mdrain hw).poison hp
  · exact (issuedBy_mzero hw).poison hp
  · exact (issuedBy_mfree hw).poison hp
  · exact (issuedBy_cload hw).poison hp
  · exact (issuedBy_cfire hw).poison hp
  · exact (issuedBy_cpatch hw).poison hp
  · exact (issuedBy_cmcast hw).poison hp
  · exact (issuedBy_cevict hw).poison hp
  · exact (issuedBy_cweight hw).poison hp
  · exact (issuedBy_chang hw).poison hp
  · exact (issuedBy_cfreeze hw).poison hp
  · exact (issuedBy_cthaw hw).poison hp
  · exact (issuedBy_sbind hw).poison hp
  · exact (issuedBy_sfree hw).poison hp

variable (hp : (s.opA.poison || s.opB.poison) = false)
include hp

theorem exec_mregion_held (hb : bitsN s.b 47 0 = 0) (h7 : bitsN s.a 7 7 = 0) (h15 : bitsN s.a 15 15 = 0) (h23 : bitsN s.a 23 23 = 0)
    (h31 : bitsN s.a 63 31 = 0) (hh : 1 ≤ bitsN s.a 22 16) (hc : 1 ≤ bitsN s.a 30 24) (hrow : bitsN s.a 6 0 + bitsN s.a 22 16 ≤ 96)
    (hcol : bitsN s.a 14 8 + bitsN s.a 30 24 ≤ 96) : exec (.mregion r) s = .next (s.heldFor (.mregion r) []) := by
  refine (issuedBy_mregion hw).held hp ?_ (by simp [noLow, hb])
  simp [h7, h15, h23, h31, hrow, hcol]
  omega
theorem exec_mfmt_range (hb : bitsN s.b 47 0 = 0) (h8 : bitsN s.a 63 8 = 0) (hf : bitsN s.a 3 0 ≤ 8) (hg : bitsN s.a 7 4 ≤ 8) :
    exec (.mfmt r) s = if fmtPairOk (bitsN s.a 3 0) (bitsN s.a 7 4) then .next (s.heldFor (.mfmt r) [])
      else .next (s.slotFault 6 0x031 s.a 0) := by
  have hgood : (!s.opA.poison && !s.opB.poison) = true := by rw [← Bool.not_or, hp]; rfl
  rw [exec_mfmt_core hw, hgood, issueCmd_held hp (by simp [h8, hf, hg]) (by simp [noLow, hb])]
  cases fmtPairOk (bitsN s.a 3 0) (bitsN s.a 7 4) <;> simp [h8, hf, hg]
theorem exec_mstep_range (hb : bitsN s.b 47 0 = 0) (ha : mstepBad s.a = false) : exec (.mstep r) s =
    if s.groupClash r s.a then .next ((s.slotFault 5 dGROUP s.freeVal 0).drawn)
    else .next (s.heldFor (.mstep r) [if s.flush then 1 else 0]) := by
  have hgood : (!s.opA.poison && !s.opB.poison) = true := by rw [← Bool.not_or, hp]; rfl
  rw [exec_mstep_core hw, hgood, issueCmd_held hp (by simp [ha]) (by simp [noLow, hb])]
  simp [ha, noLow, hb]; rfl
theorem exec_macc_held (hb : bitsN s.b 47 0 = 0) (hn : 1 ≤ bitsN s.a 7 0) (h14 : bitsN s.a 15 14 = 0) (h23 : bitsN s.a 23 23 = 0)
    (h30 : bitsN s.a 63 30 = 0) (he : 1 ≤ bitsN s.a 22 16) (hr : bitsN s.a 13 8 + bitsN s.a 22 16 ≤ 64)
    (hd : bitsN s.a 24 24 = 0 → bitsN s.a 29 25 = 0) : exec (.macc r) s = .next (s.heldFor (.macc r) []) := by
  refine (issuedBy_macc hw).held hp ?_ (by simp [noLow, hb])
  simp [h14, h23, h30, hr]
  omega
omit hw hp in
theorem rangeBad_eq_false {a : Word} (h7 : bitsN a 7 0 = 0) (h14 : bitsN a 15 14 = 0) (h23 : bitsN a 63 23 = 0) (he : 1 ≤ bitsN a 22 16)
    (hr : bitsN a 13 8 + bitsN a 22 16 ≤ 64) : rangeBad a = false := by
  simp [rangeBad, h7, h14, h23, hr]
  omega
theorem exec_cmcast_held (ha : addrBad s.a = false) (h6 : bitsN s.b 7 6 = 0) (h14 : bitsN s.b 47 14 = 0)
    (hm : bitsN s.b 5 0 &&& bitsN s.b 13 8 = bitsN s.b 5 0) : exec (.cmcast h) s = .next (s.heldFor (.cmcast h) []) := by
  refine (issuedBy_cmcast hw).held hp ha ?_
  have hvalue : bitsN s.b 47 0 % 64 = bitsN s.b 5 0 := by
    simpa using bitsN_low_div_mod s.b (show 5 ≤ 47 by decide) (show 0 ≤ 5 by decide)
  have hmask : bitsN s.b 47 0 / 2 ^ 8 % 64 = bitsN s.b 13 8 := bitsN_low_div_mod s.b (show 13 ≤ 47 by decide) (show 8 ≤ 13 by decide)
  have hgap : bitsN s.b 47 0 / 2 ^ 6 % 4 = bitsN s.b 7 6 := bitsN_low_div_mod s.b (show 7 ≤ 47 by decide) (show 6 ≤ 7 by decide)
  have htop : bitsN s.b 47 0 / 2 ^ 14 % 2 ^ 34 = bitsN s.b 47 14 := bitsN_low_div_mod s.b (show 47 ≤ 47 by decide) (show 14 ≤ 47 by decide)
  have hlt : bitsN s.b 47 0 < 2 ^ 48 := (s.b.extractLsb 47 0).isLt
  have hz : bitsN s.b 47 0 / 2 ^ 14 = 0 := by omega
  simp only [hvalue, hmask, hgap, h6, hz, hm, decide_true, Bool.and_self]
theorem exec_cevict_held (ha : s.a.toNat < 256) (hb : bitsN s.b 47 0 = 0 ∨ bitsN s.b 47 0 < 8 ∧ bitsN s.b 0 0 = 1 ∧ h.toNat < 16) :
    exec (.cevict h) s = .next (s.heldFor (.cevict h) []) := by
  refine (issuedBy_cevict hw).held hp (by simp [(bitsN_top_eq_zero (x := s.a) (lo := 8) (by decide)).2 ha]) ?_
  have hbit : bitsN s.b 47 0 % 2 = bitsN s.b 0 0 := by
    simpa using bitsN_low_div_mod s.b (show 0 ≤ 47 by decide) (le_refl 0)
  rcases hb with h0 | ⟨h8, h1, h16⟩
  · simp [h0]
  · simp [hbit, h1, h16, Nat.div_eq_of_lt h8]
omit hw hp in
theorem addrBad_eq_false_iff (a : Word) : addrBad a = false ↔ a.toNat < 2 ^ 56 ∧ a.toNat % 64 = 0 := by
  rw [← bitsN_top_byte_eq_zero]
  simp [addrBad]
end Issue

/-- Settles O20: each form by its check, the address forms by the one check of A. -/
theorem engineCommandsAreHeldAtIssue : Obligations.EngineCommandsAreHeldAtIssue := by
  have hlow {b : Nat} (hb : b = 0) : noLow b = true := decide_eq_true hb
  refine ⟨fun s r h n hw => ⟨fun hp i hi => exec_engineForms_poison hw hp hi, fun hp => ⟨fun hb => ?_, fun hb i hi => ?_⟩⟩,
    fun s h n hw hp => ?_⟩
  · refine ⟨?_, ?_, fun ha => ?_, ?_, ?_, ?_, ?_, ?_⟩
    · exact fun ⟨h7, h15, h23, h31, hh, hc, hrow, hcol⟩ => exec_mregion_held hw hp hb h7 h15 h23 h31 hh hc hrow hcol
    · exact fun ⟨h8, hf, hg⟩ => exec_mfmt_range hw hp hb h8 hf hg
    · exact (issuedBy_mwld hw).held hp (by simp [ha]) (hlow hb)
    · exact (issuedBy_mswap hw).held hp rfl (hlow hb)
    · exact (issuedBy_mfree hw).held hp rfl (hlow hb)
    · exact fun ⟨hz, hm, hv⟩ => exec_mstep_range hw hp hb (mstepBad_eq_false hz hm hv)
    · exact fun ⟨hn, h14, h23, h30, he, hr, hd⟩ => exec_macc_held hw hp hb hn h14 h23 h30 he hr hd
    · intro ⟨h7, h14, h23, he, hr⟩
      have ha := rangeBad_eq_false h7 h14 h23 he hr
      exact ⟨(issuedBy_mdrain hw).held hp ha (hlow hb), (issuedBy_mzero hw).held hp ha (hlow hb)⟩
  · have hbad : noLow (bitsN s.b 47 0) = false := decide_eq_false hb
    simp only [List.mem_cons, List.not_mem_nil, or_false] at hi
    rcases hi with rfl | rfl
    · exact ((issuedBy_mswap hw).low hp rfl).trans (if_neg (ne_true_of_eq_false hbad))
    · exact ((issuedBy_mfree hw).low hp rfl).trans (if_neg (ne_true_of_eq_false hbad))
  · refine ⟨fun ha => ?_, fun ha i hi => ?_, fun hb => ⟨?_, ?_, ?_, fun ha => ?_, fun ⟨h9, h17⟩ => ?_⟩, fun hb i hi => ?_,
      fun h8 h1 h16 ha => exec_cevict_held hw hp ha (.inr ⟨h8, h1, h16⟩), ?_⟩
    · have ha := (addrBad_eq_false_iff s.a).2 ha
      exact ⟨fun hb => (issuedBy_cload hw).held hp ha (decide_eq_true hb),
        fun hb => ⟨(issuedBy_cpatch hw).held hp ha (hlow hb), (issuedBy_chang hw).held hp ha (hlow hb)⟩,
        fun hb => (issuedBy_sbind hw).held hp ha (decide_eq_true hb), fun ⟨h6, h14, hm⟩ => exec_cmcast_held hw hp ha h6 h14 hm⟩
    · have ha : addrBad s.a = true := by rw [← Bool.not_eq_false, addrBad_eq_false_iff]; exact ha
      simp only [List.mem_cons, List.not_mem_nil, or_false] at hi
      rcases hi with rfl | rfl | rfl | rfl | rfl
      · exact (issuedBy_cload hw).badA hp ha
      · exact (issuedBy_cpatch hw).badA hp ha
      · exact (issuedBy_cmcast hw).badA hp ha
      · exact (issuedBy_chang hw).badA hp ha
      · exact (issuedBy_sbind hw).badA hp ha
    · exact (issuedBy_cfire hw).held hp rfl (hlow hb)
    · exact (issuedBy_cfreeze hw).held hp rfl (hlow hb)
    · exact (issuedBy_cthaw hw).held hp rfl (hlow hb)
    · exact exec_cevict_held hw hp ha (.inl hb)
    · exact (issuedBy_cweight hw).held hp (by simp [h9, h17]) (hlow hb)
    · have hbad : noLow (bitsN s.b 47 0) = false := decide_eq_false hb
      simp only [List.mem_cons, List.not_mem_nil, or_false] at hi
      rcases hi with rfl | rfl | rfl
      · exact ((issuedBy_cfire hw).low hp rfl).trans (if_neg (ne_true_of_eq_false hbad))
      · exact ((issuedBy_cfreeze hw).low hp rfl).trans (if_neg (ne_true_of_eq_false hbad))
      · exact ((issuedBy_cthaw hw).low hp rfl).trans (if_neg (ne_true_of_eq_false hbad))
    · simpa using (issuedBy_sfree (n := n) hw).low hp rfl

end Sys2Proof.Machine
end

-- ==== Proofs of the matrix family: engine commands start and report (10 R207, R209, R210, R213) ====
section
/-! PROOFS. POP before a start, MSTAT field by field, the report of a done command, and the time-out of a command that waits for its POP. -/

namespace Sys2Proof.Machine

/-! ### POP (10 R209) -/

section Pop
variable {s : State} {e : Eff}

theorem State.popBefore_of_no_pop (hp : cwPop e.cw = false) : s.popBefore e = some s := if_neg (ne_true_of_eq_false hp)
theorem State.popBefore_of_pop (hp : cwPop e.cw = true) :
    s.popBefore e = (s.ctx.popQ (cwQpop e.cw)).map fun c => { s with ctx := c } := if_pos hp
theorem State.popBefore_empty (hp : cwPop e.cw = true) (hq : s.ctx.sync.q.getD (cwQpop e.cw) 0 = 0) : s.popBefore e = none := by
  rw [State.popBefore_of_pop hp, Ctx.popQ, if_pos hq]; rfl
theorem State.popBefore_takes {k : Nat} (hp : cwPop e.cw = true) (hq : s.ctx.sync.q.getD (cwQpop e.cw) 0 = k + 1) :
    s.popBefore e = some (s.onSync fun y => { y with q := setV y.q (cwQpop e.cw) k }) := by
  rw [State.popBefore_of_pop hp, Ctx.popQ, if_neg (by rw [hq]; exact Nat.succ_ne_zero k), hq]; rfl

/-- A short command on a region waits with its start. -/
theorem regionCmd_waits {r : BitVec 3} {f : Region → State → Word × State} (hp : s.popBefore e = none) : regionCmd r e f s = .next s := by
  simp only [regionCmd, hp, ite_self]
/-- No matrix command does anything while its POP has no token. -/
theorem exec_matrixForms_waits {r : BitVec 3} {i : Instr} (hw : s.who = .cmd e) (hp : s.popBefore e = none) (hs : e.started = false)
    (hi : i ∈ matrixForms r) : exec i s = .next s := by
  simp only [matrixForms, List.mem_cons, List.not_mem_nil, or_false] at hi
  rcases hi with rfl | rfl | rfl | rfl | rfl | rfl | rfl | rfl | rfl
  · show execMregion r s = _
    simp only [execMregion, hw, hp, ite_self]
  · show execMfmt r s = _
    rw [execMfmt, hw]; exact regionCmd_waits hp
  · show execMwld r s = _
    simp [execMwld, hw, hp, hs]
  · show execMswap r s = _
    rw [execMswap, hw]; exact regionCmd_waits hp
  · show execMstep r s = _
    simp [execMstep, hw, hp, hs]
  · show execMacc r s = _
    rw [execMacc, hw]; exact regionCmd_waits hp
  · show execMdrain r s = _
    rw [execMdrain, hw]; exact regionCmd_waits hp
  · show execMzero r s = _
    rw [execMzero, hw]; exact regionCmd_waits hp
  · show execMfree r s = _
    rw [execMfree, hw]; exact regionCmd_waits hp
end Pop

/-! ### MSTAT (10 R213) -/

section Mstat
variable {s : State} {r : BitVec 3} {x : Region}

theorem State.mstatWord_free (hx : s.tile.regions.getD r.toNat none = none) : s.mstatWord r = 0 := by
  rw [State.mstatWord, Tile.region, hx]
theorem State.mstatWord_other (hx : s.tile.regions.getD r.toNat none = some x) (ho : x.owner ≠ s.ctx.id.uid) :
    s.mstatWord r = BitVec.ofNat 64 (2 ^ 63) := by
  rw [State.mstatWord, Tile.region, hx]
  exact if_pos ho
theorem fmtCode_lt (f : Option (BitVec 4)) : fmtCode f < 16 := by
  cases f with
  | none => decide
  | some f => exact f.isLt
theorem State.mstatWord_own (hx : s.tile.regions.getD r.toNat none = some x) (ho : x.owner = s.ctx.id.uid) :
    s.mstatWord r = BitVec.ofNat 64 (2 ^ 63 + 2 ^ 62 + (s.regionBusy r x).toNat * 2 ^ 61 + fmtCode x.afmt * 2 ^ 57 + fmtCode x.wfmt * 2 ^ 53
      + x.npass % 256 * 2 ^ 45 + (x.wgrp.map (·.toNat)).getD 0 * 2 ^ 43 + x.wgrp.isSome.toNat * 2 ^ 42 + x.shape) := by
  rw [State.mstatWord, Tile.region, hx]
  simp only [ne_eq, ho, not_true_eq_false, if_false, ite_eq_toNat_mul]

variable (hx : s.tile.regions.getD r.toNat none = some x) (ho : x.owner = s.ctx.id.uid)
  (hr : x.row < 128) (hc : x.col < 128) (hh : x.h < 128) (hw : x.w < 128)
include hx ho hr hc hh hw
theorem State.mstatWord_fields : (s.mstatWord r).getLsbD 63 = true ∧ (s.mstatWord r).getLsbD 62 = true
    ∧ (s.mstatWord r).getLsbD 61 = s.regionBusy r x ∧ bitsN (s.mstatWord r) 60 57 = fmtCode x.afmt
    ∧ bitsN (s.mstatWord r) 56 53 = fmtCode x.wfmt ∧ bitsN (s.mstatWord r) 52 45 = x.npass % 256
    ∧ (s.mstatWord r).getLsbD 42 = x.wgrp.isSome ∧ bitsN (s.mstatWord r) 44 43 = (x.wgrp.map (·.toNat)).getD 0
    ∧ bitsN (s.mstatWord r) 41 31 = 0 ∧ bitsN (s.mstatWord r) 6 0 = x.row ∧ bitsN (s.mstatWord r) 14 8 = x.col
    ∧ bitsN (s.mstatWord r) 22 16 = x.h ∧ bitsN (s.mstatWord r) 30 24 = x.w := by
  have htrue := Bool.toNat_true
  have hbusy := (s.regionBusy r x).toNat_le
  have hafmt := fmtCode_lt x.afmt
  have hwfmt := fmtCode_lt x.wfmt
  have hnpass := Nat.mod_lt x.npass (show 256 > 0 by decide)
  have hgv := x.wgrp.isSome.toNat_le
  have hgrp : (x.wgrp.map (·.toNat)).getD 0 < 4 := by
    cases x.wgrp with
    | none => decide
    | some g => exact g.isLt
  simp only [State.mstatWord_own hx ho, Region.shape]
  refine ⟨getLsbD_ofNat_of_field (by decide) ?_, getLsbD_ofNat_of_field (by decide) ?_, getLsbD_ofNat_of_field (by decide) ?_,
    bitsN_ofNat_of_field ?_ ?_, bitsN_ofNat_of_field ?_ ?_, bitsN_ofNat_of_field ?_ ?_, getLsbD_ofNat_of_field (by decide) ?_,
    bitsN_ofNat_of_field ?_ ?_, bitsN_ofNat_of_field ?_ ?_, bitsN_ofNat_of_field ?_ ?_, bitsN_ofNat_of_field ?_ ?_,
    bitsN_ofNat_of_field ?_ ?_, bitsN_ofNat_of_field ?_ ?_⟩
  all_goals omega
end Mstat

/-! ### Reports (10 R210, R219) -/

section Reports
variable {s : State} {e : Eff} {st : Word} {always : Bool} {l : List (Eff × Word × Bool)}

/-- The unit that a command's record or push comes from: the region of a matrix command. -/
def originOf (i : Instr) : Origin :=
  match i with
  | .mregion r | .mfmt r | .mwld r | .mswap r | .mstep r | .macc r | .mdrain r | .mzero r | .mfree r => { unit := 8 + r.toNat }
  | _ => {}
theorem Ctx.report_eq_complete (c : Ctx) : c.report (e, st, always) =
    c.complete e.cw always st (fCls (encode e.ins)) (fOp (encode e.ins)) (fMod (encode e.ins)).toNat 0 (originOf e.ins) := by
  rw [Ctx.report]
  congr 1
  cases e.ins <;> rfl
theorem exec_completion_collar (h : s.ctx.cdone = (e, st, always) :: l) :
    exec (.engineCommandCompletion true) s = .next (s.onCtx fun c => ({ c with cdone := l }).report (e, st, always)) := by
  show execEngineCommandCompletion true s = _
  simp only [execEngineCommandCompletion, if_true, h]
/-- Only MSTEP and MDRAIN wait for their releases. -/
theorem Ctx.mayReport_of_ne (c : Ctx) (hi : ∀ r, e.ins ≠ .mstep r ∧ e.ins ≠ .mdrain r) : c.mayReport e = true := by
  rw [Ctx.mayReport]
  split
  case h_1 r hr => exact absurd hr (hi r).1
  case h_2 r hr => exact absurd hr (hi r).2
  case h_3 => rfl
theorem Ctx.mayReport_not {c : Ctx} {r : BitVec 3} (hi : e.ins = .mstep r ∨ e.ins = .mdrain r)
    (hq : ∃ q ∈ c.releases, q.region = r.toNat ∧ q.ser = e.ser) : c.mayReport e = false := by
  have hany : (c.releases.any fun q => q.region == r.toNat && q.ser == e.ser) = true := by
    simpa using hq
  rcases hi with hi | hi <;> rw [Ctx.mayReport, hi] <;> exact congrArg not hany
theorem exec_completion_matrix (h : s.ctx.mdone = (e, st, always) :: l) (hm : s.ctx.mayReport e = true) :
    exec (.engineCommandCompletion false) s = .next (s.onCtx fun c => ({ c with mdone := l }).report (e, st, always)) := by
  show execEngineCommandCompletion false s = _
  have hfind : s.ctx.mdone.find? (fun x => s.ctx.mayReport x.1) = some (e, st, always) := by rw [h, List.find?_cons, hm]
  have herase : s.ctx.mdone.erase (e, st, always) = l := by rw [h, List.erase_cons_head]
  simp only [execEngineCommandCompletion, Bool.false_eq_true, if_false, hfind, State.onCtx, herase]
theorem exec_completion_matrix_waits (h : ∀ x ∈ s.ctx.mdone, s.ctx.mayReport x.1 = false) :
    exec (.engineCommandCompletion false) s = .next s := by
  show execEngineCommandCompletion false s = _
  have hfind : s.ctx.mdone.find? (fun x => s.ctx.mayReport x.1) = none := by simpa using h
  simp only [execEngineCommandCompletion, Bool.false_eq_true, if_false, hfind]

/-! ### Time-out (10 R209) -/

variable {t : Nat} (hs : e.since = some t) (hp : cwPop e.cw = true) (hq : s.ctx.sync.q.getD (cwQpop e.cw) 0 = 0)
include hs hp hq
theorem commandPopTimeout_of_head {col : Bool}
    (h : (if col then s.ctx.cq.head?.filter (fun e => !e.started) else s.ctx.mq.find? (fun e => !e.started)) = some e) :
    exec (.commandPopTimeout col) s = .next (if s.ctx.csr.dceil.toNat + t ≤ s.ctx.csr.budget.toNat
      then s.cmdDone col e (status sTIMEOUT 0 0) else s) := by
  show execCommandPopTimeout col s = _
  simp only [execCommandPopTimeout, h, hs, hp, State.popBefore_empty hp hq, Option.isNone_none, Bool.and_true, Bool.true_and,
    decide_eq_true_eq]
  split <;> rfl
end Reports

/-- Settles O21: POP, MSTAT, the reports and the time-outs by the rules above. -/
theorem engineCommandsStartAndReport : Obligations.EngineCommandsStartAndReport := by
  refine ⟨⟨fun s e r => ⟨State.popBefore_of_no_pop, State.popBefore_empty, fun k => State.popBefore_takes,
    fun hw hp hs i => exec_matrixForms_waits hw hp hs⟩, fun s r t0 t1 => ⟨s.mstatWord r, rfl, State.mstatWord_free, fun x hx =>
      ⟨State.mstatWord_other hx, fun ho hr hc hh hw => State.mstatWord_fields hx ho hr hc hh hw⟩⟩⟩,
    fun s e st always l => ⟨⟨fun h => ?_, fun h hi => ?_⟩, fun r hi h hq => exec_completion_matrix_waits ?_, fun h => ?_,
      fun h => exec_completion_matrix_waits (by simp [h])⟩,
    fun s e t hs hn hp hq => ⟨fun h => commandPopTimeout_of_head hs hp hq (by simp [h, hn]),
      fun h => commandPopTimeout_of_head hs hp hq h⟩, fun s col hc hm => ?_⟩
  · simp only [exec_completion_collar h, Ctx.report_eq_complete]; rfl
  · simp only [exec_completion_matrix h (Ctx.mayReport_of_ne _ hi), Ctx.report_eq_complete]; rfl
  · simpa [h] using Ctx.mayReport_not hi hq
  · show execEngineCommandCompletion true s = _
    simp only [execEngineCommandCompletion, if_true, h]
  · show execCommandPopTimeout col s = _
    cases col <;> simp [execCommandPopTimeout, hc, hm]

end Sys2Proof.Machine
end

-- ==== Proofs of the matrix family: commands on regions (10 R212, R214, R216, R219, R220) ====
section
/-! PROOFS. A short command on a region of the context is its effect (`regionCmd_runs`), or is refused with NOREGION; each form is its
effect. -/

namespace Sys2Proof.Machine

/-- A status without detail is its payload above its code. -/
theorem status_payload_eq (n : Nat) : status 0 0 n = BitVec.ofNat 64 (n * 65536) := by simp [status]

section Region
variable {s u : State} {e : Eff} {r : BitVec 3} {x : Region}

/-! ### Regions of the tile -/

/-- A region of the context stands in the table of the tile. -/
theorem State.region_of_regionOf (hx : s.regionOf r = some x) : s.tile.region r.toNat = some x := by
  rw [State.regionOf] at hx
  split at hx
  next y hy => rwa [← (Option.ite_none_right_eq_some.1 hx).2]
  next => exact absurd hx (by simp)

/-- The new region that MREGION's A names. -/
def newRegion (s : State) (a : Word) : Region :=
  { owner := s.ctx.id.uid, row := bitsN a 6 0, col := bitsN a 14 8, h := bitsN a 22 16, w := bitsN a 30 24
    active := List.replicate (bitsN a 22 16 * bitsN a 30 24) {}, loading := List.replicate (bitsN a 22 16 * bitsN a 30 24) {} }

/-! ### A command that starts -/

section Start
variable (hm : s.ctx.mayStart e = true) (hb : s.mBlocked e = false) (hp : s.popBefore e = some u)
include hm hb hp

theorem regionCmd_refused {f : Region → State → Word × State} (hx : u.regionOf r = none) :
    regionCmd r e f s = .next (u.cmdDone false e (fault 0x033 0)) := by
  simp only [regionCmd, hm, hb, hp, hx]; rfl
theorem regionCmd_runs {f : Region → State → Word × State} (hx : u.regionOf r = some x) :
    regionCmd r e f s = .next ((f x u).2.cmdDone false e (f x u).1) := by
  simp only [regionCmd, hm, hb, hp, hx]; rfl

variable (hw : s.who = .cmd e)
include hw

theorem exec_mregion_cmd : exec (.mregion r) s =
    if (u.tile.region r.toNat).isSome then .next (u.cmdDone false e (fault 0x034 0))
    else if u.tile.overlaps (newRegion u e.a.val) then .next (u.cmdDone false e (fault 0x035 0))
    else .next ((u.setRegion r (some (newRegion u e.a.val))).cmdDone false e 0) := by
  show execMregion r s = _
  simp only [execMregion, hw, hm, hb, hp]; rfl
theorem exec_regionForms_refused {i : Instr} (hx : u.regionOf r = none)
    (hi : i ∈ [Instr.mfmt r, .macc r, .mswap r, .mzero r, .mdrain r, .mfree r]) :
    exec i s = .next (u.cmdDone false e (fault 0x033 0)) := by
  simp only [List.mem_cons, List.not_mem_nil, or_false] at hi
  rcases hi with rfl | rfl | rfl | rfl | rfl | rfl
  · show execMfmt r s = _
    rw [execMfmt, hw]; exact regionCmd_refused hm hb hp hx
  · show execMacc r s = _
    rw [execMacc, hw]; exact regionCmd_refused hm hb hp hx
  · show execMswap r s = _
    rw [execMswap, hw]; exact regionCmd_refused hm hb hp hx
  · show execMzero r s = _
    rw [execMzero, hw]; exact regionCmd_refused hm hb hp hx
  · show execMdrain r s = _
    rw [execMdrain, hw]; exact regionCmd_refused hm hb hp hx
  · show execMfree r s = _
    rw [execMfree, hw]; exact regionCmd_refused hm hb hp hx

/-! ### Each form on a region of the context -/

variable (hx : u.regionOf r = some x)
include hx

theorem exec_mfmt_cmd : exec (.mfmt r) s = .next ((u.setRegion r (some { x with
    afmt := some (BitVec.ofNat 4 (bitsN e.a.val 3 0)), wfmt := some (BitVec.ofNat 4 (bitsN e.a.val 7 4)) })).cmdDone false e 0) := by
  show execMfmt r s = _
  rw [execMfmt, hw]; exact regionCmd_runs hm hb hp hx
theorem exec_mswap_cmd :
    exec (.mswap r) s = .next ((u.setRegion r (some { x with active := x.loading, loading := x.active })).cmdDone false e 0) := by
  show execMswap r s = _
  rw [execMswap, hw]; exact regionCmd_runs hm hb hp hx
/-- MACC refuses DEST without a write stream of 4-byte elements. -/
theorem exec_macc_cmd : exec (.macc r) s =
    if e.a.val.getLsbD 24 && !u.ctx.streamFit (bitsN e.a.val 29 25) true 2 then .next (u.cmdDone false e (fault 0x032 0))
    else .next ((u.setRegion r (some { x with
      npass := bitsN e.a.val 7 0, first := bitsN e.a.val 13 8, nent := bitsN e.a.val 22 16, dest := e.a.val.getLsbD 24
      ostr := BitVec.ofNat 5 (bitsN e.a.val 29 25) })).cmdDone false e 0) := by
  show execMacc r s = _
  rw [execMacc, hw]
  refine (regionCmd_runs hm hb hp hx).trans ?_
  dsimp only
  split <;> rfl
theorem exec_mzero_cmd : exec (.mzero r) s = .next ((u.onTile fun t => { t with acc := t.acc.filter fun a =>
    !(entriesOf u.tile x r.toNat (bitsN e.a.val 13 8) (bitsN e.a.val 22 16) fun _ => true).contains a }).cmdDone false e 0) := by
  show execMzero r s = _
  rw [execMzero, hw]; exact regionCmd_runs hm hb hp hx
theorem exec_mfree_cmd : exec (.mfree r) s = .next ((u.onTile fun t => { t with
    regions := setV t.regions r.toNat none
    acc := t.acc.filter fun a => !(a.owner == x.owner && a.region == r.toNat) }).cmdDone false e
      (BitVec.ofNat 64 ((u.tile.acc.filter fun a => a.owner == x.owner && a.region == r.toNat).length * 65536))) := by
  have hfree : u.onTile (·.freeRegion r.toNat) = u.onTile fun t => { t with
      regions := setV t.regions r.toNat none, acc := t.acc.filter fun a => !(a.owner == x.owner && a.region == r.toNat) } := by
    simp only [State.onTile, Tile.freeRegion, State.region_of_regionOf hx]
  show execMfree r s = _
  rw [execMfree, hw, ← hfree, ← status_payload_eq]; exact regionCmd_runs hm hb hp hx

/-! ### MDRAIN (10 R219, R220) -/

variable {es : List AccEnt} (hes : entriesOf u.tile x r.toNat (bitsN e.a.val 13 8) (bitsN e.a.val 22 16) (fun _ => true) = es)
include hes

/-- The outcomes of MDRAIN: EMPTY, STREAM, CLAIM, or the release of its entries. -/
theorem exec_mdrain_cmd : exec (.mdrain r) s =
    if es.isEmpty then .next (u.cmdDone false e 11)
    else if x.dest && !u.ctx.streamFit x.ostr.toNat true 2 then .next (u.cmdDone false e (fault 0x032 0))
    else ((if x.dest then u.ctx.claimAll [x.ostr.toNat] else some u.ctx).elim (.next (u.cmdDone false e (fault 0x053 0))) fun c =>
      .next ((({ u with ctx := c }).releaseAll x r.toNat e.ser (fun a => a.count < x.npass) es).cmdDone false e
        (BitVec.ofNat 64 (es.length * 65536)))) := by
  show execMdrain r s = _
  rw [execMdrain, hw, ← status_payload_eq]
  refine (regionCmd_runs hm hb hp hx).trans ?_
  simp only [hes]
  split
  · rfl
  split
  · rfl
  cases (if x.dest then u.ctx.claimAll [x.ostr.toNat] else some u.ctx) <;> rfl
end Start

/-- Each entry of a release goes to its node and stream. -/
theorem State.releaseAll_releases (s : State) (x : Region) (r ser : Nat) (part : AccEnt → Bool) (es : List AccEnt) :
    (s.releaseAll x r ser part es).ctx.releases.map (fun q => (q.node, q.entry, q.tok.val, q.stream))
      = s.ctx.releases.map (fun q => (q.node, q.entry, q.tok.val, q.stream))
        ++ es.map fun a => (a.node, a.entry, a.val, if x.dest then some x.ostr else none) := by
  simp [State.releaseAll]

end Region

/-- Settles O22: each form is its effect on the region. -/
theorem regionCommandsApply : Obligations.RegionCommandsApply := by
  intro s u e r hw hm hb hp
  have hregion := exec_mregion_cmd (r := r) hm hb hp hw
  refine ⟨⟨⟨rfl, rfl, rfl, rfl, rfl, rfl, rfl⟩, fun hn hc => ?_, fun hn hc => ?_, fun hn => ?_⟩,
    fun hx i hi => exec_regionForms_refused hm hb hp hw hx hi, fun x hx => ?_⟩
  · rw [hregion, Tile.region, hn]
    exact if_neg (ne_true_of_eq_false hc)
  · rw [hregion, Tile.region, hn]
    exact if_pos hc
  · exact hregion.trans (if_pos (Option.isSome_iff_ne_none.2 hn))
  have hmacc := exec_macc_cmd hm hb hp hw hx
  have hmdrain := exec_mdrain_cmd hm hb hp hw hx rfl
  refine ⟨exec_mfmt_cmd hm hb hp hw hx, fun hd => ?_, fun hd => ?_, exec_mswap_cmd hm hb hp hw hx, exec_mzero_cmd hm hb hp hw hx,
    fun hes => ?_, fun hes hd => ?_, fun hes hd => ⟨fun hf => ?_, fun hf hc => ?_, fun hf c hc => ?_⟩, exec_mfree_cmd hm hb hp hw hx⟩
  · rw [hmacc, hd]; rfl
  · simp only [hmacc, hd, Bool.true_and]
    cases u.ctx.streamFit (bitsN e.a.val 29 25) true 2 <;> rfl
  · simpa [hes] using hmdrain
  all_goals rw [if_neg (mt List.isEmpty_iff.1 hes), hd] at hmdrain
  · refine ⟨_, hmdrain, rfl, ?_⟩
    simpa [Function.comp_def] using congrArg (List.map fun q => (q.1, q.2.1, q.2.2.1)) (State.releaseAll_releases ..)
  · rw [hmdrain, hf]; rfl
  · rw [hmdrain, hf, if_pos rfl, hc]; rfl
  · refine ⟨_, by rw [hmdrain, hf, if_pos rfl, hc]; rfl, rfl, rfl, ?_⟩
    simp [State.releaseAll_releases, hd]

end Sys2Proof.Machine
end

-- ==== Proofs of the matrix family: columns of the integer path (03 R78, R79) ====
section
/-! PROOFS. A column of a region with AFMT I8 adds the products of its rows, and its entry adds the result. -/

namespace Sys2Proof.Machine

/-- The products of the two byte lanes of a row's activation and weight. -/
def i8Products (q : Nat × Nat × Weight) : Int :=
  (BitVec.ofNat 8 q.1).toInt * (BitVec.ofNat 8 q.2.2.w.toNat).toInt
    + (BitVec.ofNat 8 (q.1 / 256)).toInt * (BitVec.ofNat 8 (q.2.2.w.toNat / 256)).toInt
theorem elementInt_eq_add (p : Half) (q : Nat × Nat × Weight) : elementInt p q.1 q.2.2.w.toNat = p + BitVec.ofInt 32 (i8Products q) := by
  simp [elementInt, i8Products]
theorem column_int {x : Region} (hx : x.af = 4) (fl : Bool) (rows : List (Nat × Nat × Weight)) (p : Half) (f : Word) :
    column x fl rows (p, f) = (p + BitVec.ofInt 32 (rows.map i8Products).sum, f) := by
  induction rows generalizing p with
  | nil => simp [column]
  | cons q l ih =>
    rw [column, if_pos hx, ih, elementInt_eq_add p q, List.map_cons, List.sum_cons, BitVec.ofInt_add, BitVec.add_assoc]

/-- A result of the integer path joins its entry mod 2^32; the entry keeps its count. -/
theorem Tile.entry_addEntry_int {t : Tile} {x : Region} (hx : x.af = 4) {r node entry : Nat} (fl : Bool) (v : Half) {a : AccEnt}
    (ha : t.entry node entry = some a) : (t.addEntry x r node entry fl v false).1.entry node entry = some { a with val := a.val + v } := by
  have hkey : (a.node == node && a.entry == entry) = true := by simpa using List.find?_some ha
  have hrest : (t.acc.filter fun e => !(e.node == node && e.entry == entry)).find? (fun e => e.node == node && e.entry == entry) = none :=
    List.find?_eq_none.2 fun b hb => by
      obtain ⟨-, hnot⟩ := List.mem_filter.1 hb
      exact ne_true_of_eq_false ((Bool.not_eq_true' _).mp hnot)
  have hnew : (t.addEntry x r node entry fl v false).1.acc =
      (t.acc.filter fun e => !(e.node == node && e.entry == entry)) ++ [{ a with val := a.val + v }] := by
    simp [Tile.addEntry, ha, hx]
  rw [Tile.entry, hnew, List.find?_append, hrest, Option.none_or]
  exact List.find?_cons_of_pos hkey

end Sys2Proof.Machine
end

-- ==== Proofs of the matrix family: weight loads (10 R215, R216; 03 R66, R68) ====
section
/-! PROOFS. MWLD as it starts, takes a scale word, takes a word of weights, and ends. -/

namespace Sys2Proof.Machine

section Load
variable {s u : State} {e : Eff} {r : BitVec 3} {x : Region} {j : Nat} {sc : List Word}

/-- Scale block of the element `j` of the loading bank in its column. -/
def Region.blockOf (x : Region) (j : Nat) : Nat := j / x.w * lanesOf x.wf / 4
theorem lanesOf_pos (f : Nat) : 0 < lanesOf f := by
  unfold lanesOf
  split
  · decide
  split <;> decide
theorem Region.blockOf_lt (hj : j < x.h * x.w) : x.blockOf j / 3 < (x.nb x.wf + 2) / 3 := by
  have hrow : j / x.w < x.h := Nat.div_lt_of_lt_mul (by rwa [Nat.mul_comm])
  have hlanes := lanesOf_pos x.wf
  have hmul : j / x.w * lanesOf x.wf + lanesOf x.wf ≤ x.h * lanesOf x.wf := by
    rw [← Nat.succ_mul]; exact Nat.mul_le_mul_right _ hrow
  simp only [Region.blockOf, Region.nb]
  omega
theorem Region.scaleWords_of_quad {f : Nat} (hq : quadFmt f = true) : x.scaleWords f = (x.nb f + 2) / 3 := if_pos hq
theorem Region.scaleWords_of_not_quad {f : Nat} (hq : quadFmt f = false) : x.scaleWords f = 0 := if_neg (ne_true_of_eq_false hq)

/-- The scale that a word of three gives for block `b`: NaN where it has a reserved bit (03 R66). -/
def wordScale (w : Word) (b : Nat) : BitVec 20 :=
  if bitsN w 63 60 = 0 then BitVec.ofNat 20 (w.toNat / 2 ^ (20 * (b % 3))) else 0xFF000
/-- A scale read out of the words that a command carries. -/
theorem scaleOf_map (ws : List Word) (b : Nat) :
    scaleOf (ws.map fun w => ({ val := w.setWidth 128 } : Elem)) b = wordScale (ws.getD (b / 3) 0) b := by
  have hget : ((ws.map fun w => ({ val := w.setWidth 128 } : Elem)).getD (b / 3) { val := 0 })
      = { val := (ws.getD (b / 3) 0).setWidth 128 } :=
    List.getD_map (d := (0 : Word)) ws fun w => ({ val := w.setWidth 128 } : Elem)
  simp only [scaleOf, hget, BitVec.setWidth_setWidth_of_le _ (show 64 ≤ 128 by decide), BitVec.setWidth_eq, wordScale, ne_eq, ite_not]

/-- The weight that element `j` gets from an element of the weight stream and the scale words of its column. -/
def Region.weightOf (x : Region) (j : Nat) (sc : List Word) (wp : List Bool) (el : Elem) : Weight :=
  let n := x.scaleWords x.wf
  { w := el.val.setWidth 32
    scale := if n = 0 then 0 else wordScale (((sc.drop (n * (j % x.w))).take n).getD (x.blockOf j / 3) 0) (x.blockOf j)
    pois := el.poison || (decide (n ≠ 0) && wp.getD (n * (j % x.w) + x.blockOf j / 3) false) }

/-! ### The start -/

section Start
variable (hw : s.who = .cmd e) (hs : e.started = false) (hm : s.ctx.mayStart e = true) (hb : s.mBlocked e = false)
  (hp : s.popBefore e = some u)
include hw hs hm hb hp
theorem exec_mwld_starts : exec (.mwld r) s = .next (startMwld r e u) := by
  show execMwld r s = _
  simp only [execMwld, hw, hs, hm, hb, hp]; rfl
end Start
/-- MWLD claims its streams and marks the region busy; the banks stand. -/
theorem startMwld_claims {c : Ctx} (hx : s.regionOf r = some x) (hf : x.wfmt.isSome = true)
    (hstr : s.ctx.streamFit (bitsN e.a.val 4 0) false 2 = true) (hsc : quadScaleStream x.wf (bitsN e.a.val 9 5) s.ctx = true)
    (hc : s.ctx.claimAll (if quadFmt x.wf then [bitsN e.a.val 4 0, bitsN e.a.val 9 5] else [bitsN e.a.val 4 0]) = some c) :
    ∃ y : Region, startMwld r e s = (({ s with ctx := c }).setRegion r (some y)).cmdPut false e { e with started := true, ws := [0] }
      ∧ y.busy = true ∧ y.active = x.active ∧ y.loading = x.loading := by
  simp only [startMwld, hx, Option.isNone_eq_false_iff.2 hf, hstr, hsc, hc]
  exact ⟨_, rfl, rfl, rfl, rfl⟩

/-! ### A word, and the end -/

theorem exec_mwld_started (hw : s.who = .cmd e) (hs : e.started = true) : exec (.mwld r) s = .next (stepMwld r e s) := by
  show execMwld r s = _
  simp only [execMwld, hw, hs]; rfl

variable (hx : s.regionOf r = some x)
include hx
theorem State.endBusy_mwld (he : e.ins = .mwld r) (st : Word) :
    s.endBusy r e st = (s.setRegion r (some { x with busy := false })).cmdDone false e st := by
  simp only [State.endBusy, hx, he, isMwld, if_true]

variable (hws : e.ws = BitVec.ofNat 64 j :: sc) (hj : j < 2 ^ 64)
include hws hj
omit hx in
/-- The first word that a started command carries counts what it has done. -/
theorem Eff.count_of_ws : (e.ws.getD 0 0).toNat = j := by
  rw [hws, List.getD_cons_zero, BitVec.toNat_ofNat, Nat.mod_eq_of_lt hj]
theorem stepMwld_ends (h : x.h * x.w ≤ j) : stepMwld r e s = s.endBusy r e 0 := by
  simp only [stepMwld, hx, Eff.count_of_ws hws hj, if_pos h]; rfl

section Go
variable (h : j < x.h * x.w)
include h

section Scale
variable (hn : sc.length < x.scaleWords x.wf * (j % x.w + 1))
include hn
theorem stepMwld_scale_waits (hl : s.ctx.supply (bitsN e.a.val 9 5) 1 = .later) : stepMwld r e s = s := by
  have hlen : e.ws.length - 1 < x.scaleWords x.wf * (j % x.w + 1) := by simpa [hws] using hn
  simp only [stepMwld, hx, Eff.count_of_ws hws hj, if_neg (Nat.not_le.2 h), if_pos hlen, hl]
theorem stepMwld_scale_takes {el : Elem} (hl : s.ctx.supply (bitsN e.a.val 9 5) 1 = .ready)
    (hel : s.ctx.head (bitsN e.a.val 9 5) 1 = [el]) :
    stepMwld r e s = (((if bitsN el.val 63 60 = 0 then s else s.coreFlags IFMT).onCtx (·.take (bitsN e.a.val 9 5) 1)).cmdPut false e
      { e with ws := e.ws ++ [el.val.setWidth 64], wp := e.wp ++ [el.poison] }) := by
  have hlen : e.ws.length - 1 < x.scaleWords x.wf * (j % x.w + 1) := by simpa [hws] using hn
  simp only [stepMwld, hx, Eff.count_of_ws hws hj, if_neg (Nat.not_le.2 h), if_pos hlen, hl, hel, List.getD_cons_zero, badScale]
  simp
end Scale

section Word
variable (hn : x.scaleWords x.wf * (j % x.w + 1) ≤ sc.length)
include hn
theorem stepMwld_waits (hl : s.ctx.supply (bitsN e.a.val 4 0) 1 = .later) : stepMwld r e s = s := by
  have hlen : ¬e.ws.length - 1 < x.scaleWords x.wf * (j % x.w + 1) := by simpa [hws] using hn
  simp only [stepMwld, hx, Eff.count_of_ws hws hj, if_neg (Nat.not_le.2 h), if_neg hlen, hl]
theorem stepMwld_takes {el : Elem} (hl : s.ctx.supply (bitsN e.a.val 4 0) 1 = .ready) (hel : s.ctx.head (bitsN e.a.val 4 0) 1 = [el]) :
    stepMwld r e s = ((s.setRegion r (some { x with loading := setAt x.loading j (x.weightOf j sc e.wp el) })).onCtx
      (·.take (bitsN e.a.val 4 0) 1)).cmdPut false e { e with ws := BitVec.ofNat 64 (j + 1) :: sc } := by
  have hlen : ¬e.ws.length - 1 < x.scaleWords x.wf * (j % x.w + 1) := by simpa [hws] using hn
  have hsc (k : Nat) : e.ws.drop (1 + k) = sc.drop k := by rw [hws, Nat.add_comm, List.drop_succ_cons]
  have hpois (k : Nat) : (e.wp.drop k).head?.getD false = e.wp.getD k false := by rw [List.head?_drop, List.getD_eq_getElem?_getD]
  simp only [stepMwld, hx, Eff.count_of_ws hws hj, if_neg (Nat.not_le.2 h), if_neg hlen, hl, hel, List.getD_cons_zero, hsc, hpois,
    scaleOf_map, show e.ws.drop 1 = sc from hsc 0]
  rfl
end Word
end Go
end Load

/-! ### The weight that a load writes (03 R68) -/

section Weight
variable {x : Region} {j : Nat} {sc : List Word} {wp : List Bool} {el : Elem}

theorem Region.weightOf_not_quad (hq : quadFmt x.wf = false) :
    x.weightOf j sc wp el = { w := el.val.setWidth 32, scale := 0, pois := el.poison } := by
  simp [Region.weightOf, Region.scaleWords_of_not_quad hq]
/-- With scales, those of the column of the element. -/
theorem Region.weightOf_quad (hq : quadFmt x.wf = true) (h : j < x.h * x.w) {n : Nat} (hn : x.scaleWords x.wf = n) :
    (x.weightOf j sc wp el).w = el.val.setWidth 32
    ∧ (x.weightOf j sc wp el).pois = (el.poison || wp.getD (n * (j % x.w) + x.blockOf j / 3) false)
    ∧ (x.weightOf j sc wp el).scale = wordScale (sc.getD (n * (j % x.w) + x.blockOf j / 3) 0) (x.blockOf j) := by
  have hlt : x.blockOf j / 3 < n := hn ▸ Region.scaleWords_of_quad hq ▸ Region.blockOf_lt h
  have hpos : n ≠ 0 := Nat.ne_zero_of_lt hlt
  have hget : ((sc.drop (n * (j % x.w))).take n).getD (x.blockOf j / 3) 0 = sc.getD (n * (j % x.w) + x.blockOf j / 3) 0 := by
    simp [List.getD_eq_getElem?_getD, List.getElem?_take_of_lt hlt]
  refine ⟨rfl, ?_, ?_⟩ <;> simp only [Region.weightOf, hn, if_neg hpos, hget]
  simp [hpos]
end Weight

end Sys2Proof.Machine
end

-- ==== Proofs of the matrix family: passes (10 R215, R217, R219) ====
section
/-! PROOFS. MSTEP as it starts, waits for its elements, streams a row, and ends. -/

namespace Sys2Proof.Machine

section Step
variable {s u : State} {e : Eff} {r : BitVec 3} {x : Region} {i : Nat} {z : Word}

theorem exec_mstep_starts (hw : s.who = .cmd e) (hs : e.started = false) (hm : s.ctx.mayStart e = true) (hb : s.mBlocked e = false)
    (hp : s.popBefore e = some u) : exec (.mstep r) s = .next (startMstep r e u) := by
  show execMstep r s = _
  simp only [execMstep, hw, hs, hm, hb, hp]; rfl
theorem exec_mstep_started (hw : s.who = .cmd e) (hs : e.started = true) : exec (.mstep r) s = .next (stepMstep r e s) := by
  show execMstep r s = _
  simp only [execMstep, hw, hs]; rfl
/-- MSTEP claims its streams and marks the region busy. On a tile without entries nothing is in its way. -/
theorem startMstep_claims {c : Ctx} (hx : s.regionOf r = some x) (hf : x.afmt.isSome = true)
    (hacts : s.ctx.streamFit (bitsN e.a.val 4 0) false 3 = true) (hacc : s.tile.acc = [])
    (hsc : quadScaleStream x.af (bitsN e.a.val 14 10) s.ctx = true)
    (hpart : mstepPV e.a.val = true → s.ctx.streamFit (bitsN e.a.val 9 5) false 2 = true)
    (hdest : x.dest = true → s.ctx.streamFit x.ostr.toNat true 2 = true)
    (hc : s.ctx.claimAll ([bitsN e.a.val 4 0] ++ (if mstepPV e.a.val then [bitsN e.a.val 9 5] else [])
      ++ (if quadFmt x.af then [bitsN e.a.val 14 10] else []) ++ (if x.dest then [x.ostr.toNat] else [])) = some c) :
    startMstep r e s = (({ s with ctx := c }).setRegion r (some { x with stepping := true })).cmdPut false e
      { e with started := true, ws := [0, e.ws.getD 0 0] } := by
  have hpart' : (mstepPV e.a.val && !s.ctx.streamFit (bitsN e.a.val 9 5) false 2) = false := by
    cases hv : mstepPV e.a.val
    · rfl
    · rw [hpart hv]; rfl
  have hdest' : (x.dest && !s.ctx.streamFit x.ostr.toNat true 2) = false := by
    cases hd : x.dest
    · rfl
    · rw [hdest hd]; rfl
  simp only [startMstep, hx, Option.isNone_eq_false_iff.2 hf, hacts, hsc, hpart', hdest', hacc, hc]
  rfl

/-! ### The elements of a row -/

/-- Scale words and partials that a row takes. -/
def rowScales (x : Region) : Nat := x.scaleWords x.af
def rowPartials (x : Region) (a : Word) : Nat := if a.getLsbD 15 then x.w else 0
/-- What the streams of a row can supply. -/
def Ctx.rowSupply (c : Ctx) (x : Region) (a : Word) : List Supply :=
  [c.supply (bitsN a 4 0) ((x.h + 3) / 4)] ++ (if rowScales x = 0 then [] else [c.supply (bitsN a 14 10) (rowScales x)])
    ++ (if rowPartials x a = 0 then [] else [c.supply (bitsN a 9 5) (rowPartials x a)])
theorem Ctx.mem_rowSupply {c : Ctx} {a : Word} {w : Supply} : w ∈ c.rowSupply x a ↔ c.supply (bitsN a 4 0) ((x.h + 3) / 4) = w
    ∨ (rowScales x ≠ 0 ∧ c.supply (bitsN a 14 10) (rowScales x) = w)
    ∨ (rowPartials x a ≠ 0 ∧ c.supply (bitsN a 9 5) (rowPartials x a) = w) := by
  rw [Ctx.rowSupply, List.mem_append, List.mem_append, List.mem_singleton, or_assoc]
  by_cases hs : rowScales x = 0 <;> by_cases hp : rowPartials x a = 0 <;> simp [hs, hp, eq_comm]
/-- The elements of a row at the heads of its streams: activations, scale words, partials. -/
def Ctx.rowActs (c : Ctx) (x : Region) (a : Word) : List Elem := c.head (bitsN a 4 0) ((x.h + 3) / 4)
def Ctx.rowScs (c : Ctx) (x : Region) (a : Word) : List Elem := if rowScales x = 0 then [] else c.head (bitsN a 14 10) (rowScales x)
def Ctx.rowPs (c : Ctx) (x : Region) (a : Word) : List Elem := if rowPartials x a = 0 then [] else c.head (bitsN a 9 5) (rowPartials x a)
/-- What column `k` reads, top to bottom, and what comes in from above. -/
def Ctx.columnRows (c : Ctx) (x : Region) (a : Word) (k : Nat) : List (Nat × Nat × Weight) :=
  (List.range x.h).map fun m =>
    (actWord (c.rowActs x a) m, (scaleOf (c.rowScs x a) (m * lanesOf x.af / 4)).toNat, x.active.getD (m * x.w + k) {})
def Ctx.columnIn (c : Ctx) (x : Region) (a : Word) (k : Nat) : Elem := (c.rowPs x a).getD k { val := 0 }
def Ctx.columnOut (c : Ctx) (x : Region) (a : Word) (fl : Bool) (k : Nat) : Half × Word :=
  column x fl (c.columnRows x a k) ((c.columnIn x a k).val.setWidth 32, 0)
def Ctx.columnPois (c : Ctx) (x : Region) (a : Word) (k : Nat) : Bool :=
  (c.rowActs x a).any (·.poison) || (c.rowScs x a).any (·.poison) || (c.columnIn x a k).poison
    || (c.columnRows x a k).any fun q => q.2.2.pois
/-- The flags of a row: those of its columns, and IFMT for a bad scale word. -/
def Ctx.rowFlags (c : Ctx) (x : Region) (a : Word) (fl : Bool) : Word :=
  ((List.range x.w).foldl (fun w k => w ||| (c.columnOut x a fl k).2) 0) ||| (if badScale (c.rowScs x a) then IFMT else 0)
theorem Ctx.rowFlags_ifmt {c : Ctx} {a : Word} (fl : Bool) (hn : rowScales x ≠ 0)
    (h : ∃ el ∈ c.head (bitsN a 14 10) (rowScales x), bitsN el.val 63 60 ≠ 0) : c.rowFlags x a fl &&& IFMT = IFMT := by
  have hbad : badScale (c.rowScs x a) = true := by simpa [badScale, Ctx.rowScs, hn] using h
  rw [Ctx.rowFlags, if_pos hbad]
  exact BitVec.eq_of_getLsbD_eq fun k _ => by simp +contextual
/-- The streams after a row. -/
def Ctx.takeRow (c : Ctx) (x : Region) (a : Word) : Ctx :=
  let c := c.take (bitsN a 4 0) ((x.h + 3) / 4)
  let c := if rowScales x = 0 then c else c.take (bitsN a 14 10) (rowScales x)
  if rowPartials x a = 0 then c else c.take (bitsN a 9 5) (rowPartials x a)

/-! ### A row, and the end -/

variable (hx : s.regionOf r = some x) (hws : e.ws = [BitVec.ofNat 64 i, z]) (hi : i < 2 ^ 64)
include hx hws hi
theorem stepMstep_ends (h : bitsN e.a.val 31 16 ≤ i) :
    stepMstep r e s = (endPass r x i e.ser s).endBusy r e (status 0 0 (bitsN e.a.val 31 16)) := by
  simp only [stepMstep, hx, Eff.count_of_ws hws hi, mstepM, if_pos h]

section Go
variable (h : i < bitsN e.a.val 31 16)
include h
theorem stepMstep_ended (hs : .ended ∈ s.ctx.rowSupply x e.a.val) :
    stepMstep r e s = (endPass r x i e.ser s).endBusy r e (status sFAULT 0x039 i) := by
  have hc : (s.ctx.rowSupply x e.a.val).contains .ended = true := List.contains_iff_mem.2 hs
  simp only [stepMstep, hx, Eff.count_of_ws hws hi, mstepM, if_neg (Nat.not_le.2 h)]
  exact if_pos hc
theorem stepMstep_waits (hn : .ended ∉ s.ctx.rowSupply x e.a.val) (hs : .later ∈ s.ctx.rowSupply x e.a.val) : stepMstep r e s = s := by
  have hc : ¬(s.ctx.rowSupply x e.a.val).contains .ended = true := mt List.contains_iff_mem.1 hn
  have hl : (s.ctx.rowSupply x e.a.val).contains .later = true := List.contains_iff_mem.2 hs
  simp only [stepMstep, hx, Eff.count_of_ws hws hi, mstepM, if_neg (Nat.not_le.2 h)]
  exact (if_neg hc).trans (if_pos (Bool.or_eq_true_iff.2 (.inl hl)))
theorem stepMstep_row (hn : .ended ∉ s.ctx.rowSupply x e.a.val) (hl : .later ∉ s.ctx.rowSupply x e.a.val)
    (hfree : ∀ k, k < x.w → s.entryWaits (x.col + k) (i % 64) = false) : stepMstep r e s =
      (((s.coreFlags (s.ctx.rowFlags x e.a.val (z.getLsbD 0))).addRow x r.toNat i (z.getLsbD 0) ((List.range x.w).map fun k =>
        (k, (s.ctx.columnOut x e.a.val (z.getLsbD 0) k).1, s.ctx.columnPois x e.a.val k))).onCtx (·.takeRow x e.a.val)).cmdPut false e
          { e with ws := [BitVec.ofNat 64 (i + 1), z] } := by
  have hc : ¬(s.ctx.rowSupply x e.a.val).contains .ended = true := mt List.contains_iff_mem.1 hn
  have hw : ¬((s.ctx.rowSupply x e.a.val).contains .later || (List.range x.w).any fun k => s.entryWaits (x.col + k) (i % 64)) = true := by
    simpa [hl] using hfree
  have hz : e.ws.getD 1 0 = z := by rw [hws]; rfl
  simp only [stepMstep, hx, Eff.count_of_ws hws hi, mstepM, if_neg (Nat.not_le.2 h), hz]
  refine (if_neg hc).trans ((if_neg hw).trans ?_)
  simp only [List.foldl_map, List.map_map]
  rfl
end Go
end Step

/-- Settles O23: MWLD and MSTEP by the state that they are in, the integer path by its sums. -/
theorem weightLoadsAndPasses : Obligations.WeightLoadsAndPasses := by
  refine ⟨fun s e r x hw hx => ⟨fun hs hm hb hp hf hq hz hstr c hc => ?_,
      fun hs hq j hws hj => ⟨fun h he => ?_, fun h el hl hel => ?_, fun h hl => ?_⟩, fun hs hm hb hp hf hq hstr hsc c hc => ?_,
      fun hs hq j sc hws hj => ⟨fun h he => ?_, fun h => ?_⟩⟩, fun x fl rows p hx => ⟨?_, ?_⟩,
    fun s e r x hw hx => ⟨fun hs hm hb hp hf hacts hacc hsc hpart hdest c hc => ?_, fun hs i z hws hi => ?_⟩⟩
  · rw [exec_mwld_starts hw hs hm hb (State.popBefore_of_no_pop hp)]
    obtain ⟨y, hy, hrest⟩ := startMwld_claims hx hf hstr (by simp [quadScaleStream, hq, hz]) (by rw [hq]; exact hc)
    exact ⟨y, congrArg _ hy, hrest⟩
  · rw [exec_mwld_started hw hs, stepMwld_ends hx hws hj h, State.endBusy_mwld hx he]
  · rw [exec_mwld_started hw hs, stepMwld_takes hx hws hj h (by simp [Region.scaleWords_of_not_quad hq]) hl hel,
      Region.weightOf_not_quad hq]
  · rw [exec_mwld_started hw hs, stepMwld_waits hx hws hj h (by simp [Region.scaleWords_of_not_quad hq]) hl]
  · rw [exec_mwld_starts hw hs hm hb (State.popBefore_of_no_pop hp)]
    obtain ⟨y, hy, hrest⟩ := startMwld_claims hx hf hstr (by simp [quadScaleStream, hq, hsc]) (by rw [hq]; exact hc)
    exact ⟨y, congrArg _ hy, hrest⟩
  · rw [exec_mwld_started hw hs, stepMwld_ends hx hws hj h, State.endBusy_mwld hx he]
  · have hn := Region.scaleWords_of_quad (x := x) hq
    rw [exec_mwld_started hw hs]
    refine ⟨fun hlen hl => ?_, fun hlen hl el hel => ⟨_, rfl, ?_⟩, fun hlen hl el hel => ⟨x.weightOf j sc e.wp el, ?_⟩⟩
    · rw [stepMwld_scale_waits hx hws hj h (hn ▸ hlen) hl]
    · rw [stepMwld_scale_takes hx hws hj h (hn ▸ hlen) hl hel]
    · obtain ⟨hword, hpois, hscale⟩ := Region.weightOf_quad (sc := sc) (wp := e.wp) (el := el) hq h hn
      exact ⟨hword, hpois, hscale, congrArg _ (stepMwld_takes hx hws hj h (hn ▸ hlen) hl hel)⟩
  · have haf : x.af = 4 := by rw [Region.af, hx]; rfl
    rw [column_int haf, List.sum_eq_foldl]; rfl
  · intro t r node entry v a ha
    exact Tile.entry_addEntry_int (by rw [Region.af, hx]; rfl) fl v ha
  · have hsc' : quadScaleStream x.af (bitsN e.a.val 14 10) s.ctx = true := by
      rw [quadScaleStream]; split at hsc <;> simp_all
    rw [exec_mstep_starts hw hs hm hb (State.popBefore_of_no_pop hp), startMstep_claims hx hf hacts hacc hsc' hpart hdest hc]
  · rw [exec_mstep_started hw hs]
    refine ⟨fun h => ⟨_, congrArg _ (stepMstep_ends hx hws hi h), rfl⟩, fun h hg => ?_, fun h hn hl => ?_, fun h hn hl hfree => ?_⟩
    · exact ⟨_, congrArg _ (stepMstep_ended hx hws hi h (Ctx.mem_rowSupply.2 hg)), rfl⟩
    · rw [stepMstep_waits hx hws hi h (mt Ctx.mem_rowSupply.1 hn) (Ctx.mem_rowSupply.2 hl)]
    · have hrow := stepMstep_row hx hws hi h (mt Ctx.mem_rowSupply.1 hn) (mt Ctx.mem_rowSupply.1 hl) hfree
      exact ⟨s.ctx.rowFlags x e.a.val (z.getLsbD 0), _, congrArg _ hrow, Ctx.rowFlags_ifmt _, _, rfl, rfl⟩

end Sys2Proof.Machine
end

-- ==== Proofs of the collar family: commands on a loaded handle (10 R221, R223, R224; 14 R309 to R311) ====
section
/-! PROOFS. A command of class C that has started is its effect (`cCmd_runs`); one on a handle without a configuration is refused with
NOHANDLE, one on a configuration changes it. -/

namespace Sys2Proof.Machine

section Collar
variable {s u : State} {e e' : Eff} {h : BitVec 5} {n : BitVec 4}

/-! ### Commands that have started -/

section Start
variable (hw : s.who = .cmd e) (hc : s.cStart e = some (u, e'))
include hc
theorem cCmd_runs (f : Eff → State → State) : cCmd e f s = .next (f e' u) := by
  simp only [cCmd, hc]
include hw
theorem exec_cload_cmd : exec (.cload h) s = .next (applyCload h.toNat e' u) := by
  show execCload h s = _
  rw [execCload, hw]; exact cCmd_runs hc _
theorem exec_cfire_cmd : exec (.cfire h) s = .next (applyCfire h.toNat e' u) := by
  show execCfire h s = _
  rw [execCfire, hw]; exact cCmd_runs hc _
theorem exec_cpatch_cmd : exec (.cpatch h) s = .next (applyCpatch h.toNat e' u) := by
  show execCpatch h s = _
  rw [execCpatch, hw]; exact cCmd_runs hc _
theorem exec_cmcast_cmd : exec (.cmcast h) s = .next (applyCmcast h.toNat e' u) := by
  show execCmcast h s = _
  rw [execCmcast, hw]; exact cCmd_runs hc _
theorem exec_cevict_cmd : exec (.cevict h) s = .next (applyCevict h.toNat e' u) := by
  show execCevict h s = _
  rw [execCevict, hw]; exact cCmd_runs hc _
theorem exec_cweight_cmd : exec (.cweight h) s = .next (applyCweight h.toNat e' u) := by
  show execCweight h s = _
  rw [execCweight, hw]; exact cCmd_runs hc _
theorem exec_chang_cmd : exec (.chang h) s = .next (applyChang h.toNat e' u) := by
  show execChang h s = _
  rw [execChang, hw]; exact cCmd_runs hc _
theorem exec_cfreeze_cmd : exec (.cfreeze h) s = .next (applyCfreeze h.toNat e' u) := by
  show execCfreeze h s = _
  rw [execCfreeze, hw]; exact cCmd_runs hc _
theorem exec_cthaw_cmd : exec (.cthaw h) s = .next (applyCthaw h.toNat e' u) := by
  show execCthaw h s = _
  rw [execCthaw, hw]; exact cCmd_runs hc _
theorem exec_sbind_cmd : exec (.sbind n) s = .next (applySbind n.toNat e' u) := by
  show execSbind n s = _
  rw [execSbind, hw]; exact cCmd_runs hc _
theorem exec_sfree_cmd : exec (.sfree n) s = .next (applySfree n.toNat e' u) := by
  show execSfree n s = _
  rw [execSfree, hw]; exact cCmd_runs hc _
end Start

/-! ### Handles -/

/-- A handle of the context in focus takes a configuration. -/
def State.putCfg (s : State) (k : Nat) (g : CollarCfg) : State := s.onCtx fun c => { c with handles := setV c.handles k (some g) }

section Handles
variable {k : Nat} {g : CollarCfg}

theorem State.onHandle_eq_putCfg (hg : s.ctx.cfg k = some g) (f : CollarCfg → CollarCfg) :
    (s.onCtx fun c => c.onHandle k f) = s.putCfg k (f g) := by
  have hget : s.ctx.handles.getD k none = some g := hg
  simp only [State.onCtx, State.putCfg, Ctx.onHandle, modV_eq_setV _ k _ none, hget, Option.map_some]
/-- A configuration put back where it stands changes nothing. -/
theorem State.putCfg_self (hg : s.ctx.cfg k = some g) : s.putCfg k g = s := by
  have hget : some g = s.ctx.handles.getD k none := hg.symm
  simp only [State.putCfg, State.onCtx, hget, setV_getD_self]
theorem tend_none {f : CollarCfg → Word × (Ctx → CollarCfg → CollarCfg)} (hg : s.ctx.cfg k = none) :
    tend k e f s = s.cmdDone true e (fault 0x03A 0) := by
  simp only [tend, hg]; rfl
theorem tend_some {f : CollarCfg → Word × (Ctx → CollarCfg → CollarCfg)} (hg : s.ctx.cfg k = some g) :
    tend k e f s = (s.putCfg k ((f g).2 s.ctx g)).cmdDone true e (f g).1 := by
  rw [← State.onHandle_eq_putCfg hg fun x => (f g).2 s.ctx x]
  simp only [tend, hg]; rfl

/-! ### NOHANDLE -/

theorem State.hangFirst_none (hg : s.ctx.cfg h.toNat = none) : s.hangFirst h = none := by
  simp only [State.hangFirst, hg]
theorem exec_handleForms_refused {i : Instr} (hw : s.who = .cmd e) (hc : s.cStart e = some (u, e')) (hg : u.ctx.cfg h.toNat = none)
    (hi : i ∈ [Instr.cfire h, .cpatch h, .cfreeze h, .cthaw h, .cweight h, .chang h]) :
    exec i s = .next (u.cmdDone true e' (fault 0x03A 0)) := by
  simp only [List.mem_cons, List.not_mem_nil, or_false] at hi
  rcases hi with rfl | rfl | rfl | rfl | rfl | rfl
  · rw [exec_cfire_cmd hw hc, applyCfire, hg]; rfl
  · rw [exec_cpatch_cmd hw hc, applyCpatch, hg]; rfl
  · simp only [exec_cfreeze_cmd hw hc, applyCfreeze, hg, Option.bind_none, BitVec.ofNat_toNat, BitVec.setWidth_eq, State.hangFirst_none hg,
      tend_none hg]
  · exact (exec_cthaw_cmd hw hc).trans (congrArg _ (tend_none hg))
  · exact (exec_cweight_cmd hw hc).trans (congrArg _ (tend_none hg))
  · exact (exec_chang_cmd hw hc).trans (congrArg _ (tend_none hg))

/-! ### Firing and tending -/

variable (hg : s.ctx.cfg k = some g)
include hg

theorem applyCfire_first (hf : g.fired = false) : applyCfire k e s =
    (s.putCfg k { g.accrue s.ctx.now with fired := true, flush := s.ctx.flush }).cmdDone true e 0 := by
  rw [← State.onHandle_eq_putCfg hg fun x => { x.accrue s.ctx.now with fired := true, flush := s.ctx.flush }]
  simp only [applyCfire, hg, hf]; rfl
theorem applyCfire_again (hf : g.fired = true) : applyCfire k e s = s.cmdDone true e 0 := by
  simp only [applyCfire, hg, hf]; rfl
theorem applyCthaw_ok (hf : g.fault = none) :
    applyCthaw k e s = (s.putCfg k { g.accrue s.ctx.now with frozen := false, hung := false }).cmdDone true e 0 := by
  rw [applyCthaw, tend_some hg, hf]; rfl
theorem applyCthaw_faulted (hf : g.fault ≠ none) : applyCthaw k e s = s.cmdDone true e (fault 0x041 0) := by
  have hsome : g.fault.isSome = true := Option.isSome_iff_ne_none.2 hf
  simp only [applyCthaw, tend_some hg, hsome, if_true, State.putCfg_self hg]; rfl
theorem applyChang_sets : applyChang k e s = (s.putCfg k { g.accrue s.ctx.now with
    idle := 0, hang := if e.a.val = 0 then none else some (s.ctx.csr.hangiv.toNat, e.a.val) }).cmdDone true e 0 := tend_some hg
theorem applyCweight_sets {m : Nat}
    (hm : g.img.nodeAt (BitVec.ofNat 9 (bitsN e.a.val 8 0)) (BitVec.ofNat 2 (bitsN e.a.val 11 10)) = some m) :
    applyCweight k e s = (s.putCfg k { g with nodes := modAt g.nodes m fun n =>
      { n with level := BitVec.ofNat 4 (bitsN e.a.val 15 12), pin := e.a.val.getLsbD 16 } }).cmdDone true e 0 := by
  simp only [applyCweight, tend_some hg, hm]; rfl
theorem applyCweight_absent
    (hm : g.img.nodeAt (BitVec.ofNat 9 (bitsN e.a.val 8 0)) (BitVec.ofNat 2 (bitsN e.a.val 11 10)) = none) :
    applyCweight k e s = s.cmdDone true e (fault 0x03C 0) := by
  simp only [applyCweight, tend_some hg, hm, State.putCfg_self hg]; rfl
end Handles

/-! ### CFREEZE (14 R310, R311) -/

section Freeze
variable {g : CollarCfg} (hg : s.ctx.cfg h.toNat = some g)
include hg
theorem applyCfreeze_faulted (hz : g.frozen = false) {ep : BitVec 13} {code : BitVec 12} (hf : g.fault = some (ep, code)) :
    applyCfreeze h.toNat e s = (s.freezeCfg h.toNat 1 (status sFAULT code.toNat ep.toNat)).cmdDone true e 0 := by
  simp only [applyCfreeze, hg, Option.bind_some, hz, hf]; rfl
theorem applyCfreeze_of_no_outcome (hf : g.frozen = true ∨ g.fault = none) : applyCfreeze h.toNat e s =
    ((s.hangFirst h).map (·.cmdDone true e 0)).getD ((s.putCfg h.toNat { g.accrue s.ctx.now with frozen := true }).cmdDone true e 0) := by
  have hnone : (if g.frozen = true then none else g.fault) = none := by
    rcases hf with hf | hf <;> simp [hf]
  simp only [applyCfreeze, hg, Option.bind_some, hnone, BitVec.ofNat_toNat, BitVec.setWidth_eq, tend_some hg]
  cases s.hangFirst h <;> rfl
theorem State.hangFirst_reached {lim : Nat} {va : Word} (hz : g.frozen = false) (hh : g.hang = some (lim, va)) (hf : g.fired = true)
    (hn : lim ≤ (g.accrue s.ctx.now).idle) :
    s.hangFirst h = some ((s.freezeCfg h.toNat 0 (fault 0x0B5 0)).raise 22 [h.setWidth 64, va]) := by
  simp only [State.hangFirst, hg, hh, hf, hz, hn]; rfl
end Freeze

/-! ### Contexts without a bore log -/

section NoLog
variable (hp : s.ctx.id.present = true)
include hp
theorem State.ctxOf_focus : s.ctxOf s.ctx.id.uid = some s.ctx := by
  simp [State.ctxOf, State.allCtxs, hp]
theorem State.ctxAt_focus : s.ctxAt s.ctx.id.tile s.ctx.id.num = some s.ctx := by
  simp [State.ctxAt, State.allCtxs, hp]
theorem State.logsAt_focus (hl : s.ctx.csr.loglim.getLsbD 63 = false) : s.logsAt s.ctx.id.uid = false := by
  rw [State.logsAt, State.ctxOf_focus hp]; exact hl
end NoLog
/-- Records of contexts that keep no log are settled as they are. -/
theorem State.settleAll_off {l : List (Nat × LogRec)} (hl : ∀ y ∈ l, s.logsAt y.1 = false) : s.settleAll l = (s, true) := by
  have heach : s.settleEach l = (s, true) := by
    induction l with
    | nil => rfl
    | cons y l ih => rw [State.settleEach, hl y List.mem_cons_self]; exact ih fun z hz => hl z (List.mem_cons_of_mem _ hz)
  have hfold : l.foldl (fun s y => if s.logsAt y.1 then s.within y.1 (·.onCtx (·.unsettle y.2)) else s) s = s := by
    clear heach
    induction l with
    | nil => rfl
    | cons y l ih =>
      rw [List.foldl_cons, hl y List.mem_cons_self]; exact ih fun z hz => hl z (List.mem_cons_of_mem _ hz)
  rw [State.settleAll, heach, if_pos rfl, hfold]
theorem State.loggedAll_off {l : List (Nat × LogRec)} (hl : ∀ y ∈ l, s.logsAt y.1 = false) (k : State → State) :
    s.loggedAll l k = k s := by
  rw [State.loggedAll, State.settleAll_off hl]; rfl

/-! ### CEVICT (10 R223, 14 R309) -/

section Evict
variable {g : CollarCfg} {m : BitVec 2} (ha : bitsN e.a.val 7 0 = m.toNat) (hb : bitsN e.b.val 0 0 = 0) (hm : m = s.ctx.id.num)
  (hp : s.ctx.id.present = true) (hg : s.ctx.cfg h.toNat = some g)
include ha hb hm hp hg
/-- An image that runs is marked; one that does not run is freed once its record is settled. -/
theorem applyCevict_own : applyCevict h.toNat e s =
    if g.fired && !g.frozen then (s.putCfg h.toNat { g with evict := true }).cmdDone true e 0
    else s.loggedAll [(s.ctx.id.uid, freeRec s.ctx h.toNat g.first g.rot)] fun s' =>
      (s'.within s.ctx.id.uid fun s => s.onCtx (·.dropHandle h.toNat)).cmdDone true e 0 := by
  have hnum : BitVec.ofNat 2 (bitsN e.a.val 7 0) = s.ctx.id.num := by rw [ha, ← hm]; simp
  have hlt : ¬4 ≤ bitsN e.a.val 7 0 := by rw [ha]; exact Nat.not_le.2 m.isLt
  have hbit : e.b.val.getLsbD 0 = false := by simpa [bitsN_bit] using hb
  rw [← State.onHandle_eq_putCfg hg fun g => { g with evict := true }]
  simp only [applyCevict, hnum, State.ctxAt_focus hp, if_neg hlt, hbit, hg, State.within_focus _ rfl hp]; rfl
end Evict
end Collar

/-- Settles O24: each command by the configuration of its handle. -/
theorem handleCommandsApply : Obligations.HandleCommandsApply := by
  intro s u e e' h hw hc
  refine ⟨fun hg i hi => exec_handleForms_refused hw hc hg hi, fun g hg => ?_, fun g m ha hb hm hp hg => ?_⟩
  · rw [exec_cfire_cmd hw hc, exec_cfreeze_cmd hw hc, exec_cthaw_cmd hw hc, exec_chang_cmd hw hc, exec_cweight_cmd hw hc]
    refine ⟨fun hf => congrArg _ (applyCfire_first hg hf), fun hf => congrArg _ (applyCfire_again hg hf), fun hf hn => ?_,
      fun hz hf lim va hh hr hn => ⟨_, ?_, rfl⟩, fun hz ep code hf => ⟨_, congrArg _ (applyCfreeze_faulted hg hz hf), rfl⟩,
      fun hf => congrArg _ (applyCthaw_ok hg hf), fun hf => congrArg _ (applyCthaw_faulted hg hf), congrArg _ (applyChang_sets hg),
      fun k hk => congrArg _ (applyCweight_sets hg hk), fun hk => congrArg _ (applyCweight_absent hg hk)⟩
    · rw [applyCfreeze_of_no_outcome hg hf, hn]; rfl
    · rw [applyCfreeze_of_no_outcome hg (.inr hf), State.hangFirst_reached hg hz hh hr hn]; rfl
  · rw [exec_cevict_cmd hw hc, applyCevict_own ha hb hm hp hg]
    refine ⟨fun hf hz => ?_, fun hf hl => ?_⟩
    · rw [hf, hz]; rfl
    · rw [hf, State.loggedAll_off (by simpa using State.logsAt_focus hp hl), State.within_focus _ rfl hp]
      exact ⟨_, rfl, rfl⟩

end Sys2Proof.Machine
end

-- ==== Proofs of the collar family: images and bindings (10 R221, R222, R226, R227; 14 R306, R308) ====
section
/-! PROOFS. CLOAD, CPATCH, CMCAST, SBIND and SFREE by what they read and where the allocator places it, in a context without a bore log
and without a move. -/

namespace Sys2Proof.Machine

section Images
variable {s v : State} {e : Eff} {k : Nat} {im : Image}

/-! ### Placing without a move and without a log -/

@[simp] theorem State.applyMoves_nil (s : State) : s.applyMoves [] = s := by
  simp [State.applyMoves]
@[simp] theorem State.moveRecs_nil (s : State) : s.moveRecs [] = [] := rfl
theorem State.loadedAs_off {l : List (Nat × LogRec)} (hl : ∀ y ∈ l, s.logsAt y.1 = false) (st : Word) (go : State → State) :
    s.loadedAs l st go = (.done st, go s) := by
  rw [State.loadedAs, State.settleAll_off hl]

section Place
variable {addr : Word} {side : Nat}
theorem State.placeImage_at {f : Nat} {q : BitVec 2} (hp : s.ctx.id.present = true) (hl : s.ctx.csr.loglim.getLsbD 63 = false)
    (ha : s.allocate s.ctx im (im.sides side) = .at f q []) :
    s.placeImage k im addr side = (.done (status 0 0 im.nslab), s.putCfg k (newCfg im addr f q)) := by
  simp only [State.placeImage, ha, State.moveRecs_nil, List.nil_append, State.applyMoves_nil]
  exact State.loadedAs_off (by simpa using State.logsAt_focus hp hl) _ _
theorem State.placeImage_noslab (ha : s.allocate s.ctx im (im.sides side) = .noslab []) :
    s.placeImage k im addr side = (.done (fault 0x03E 0), s) := by
  simp only [State.placeImage, ha, State.moveRecs_nil, State.applyMoves_nil]
  exact State.loadedAs_off (by simp) _ _
theorem State.loadInto_cyclic (hg : s.ctx.cfg k = none) (hc : im.cyclic = true) :
    s.loadInto k im addr side = (.done (fault 0x03D 0), s) := by
  simp only [State.loadInto, hg, hc]; rfl
theorem State.loadInto_places (hg : s.ctx.cfg k = none) (hc : im.cyclic = false) :
    s.loadInto k im addr side = s.placeImage k im addr side := by
  simp only [State.loadInto, hg, hc]; rfl
end Place

/-! ### CLOAD (10 R221) -/

theorem applyCload_used (hg : s.ctx.cfg k ≠ none) : applyCload k e s = s.cmdDone true e (fault 0x03B 0) :=
  if_pos (Option.isSome_iff_ne_none.2 hg)
section Load
variable (hg : s.ctx.cfg k = none) (hwp : e.wp = [])
include hg hwp
theorem applyCload_bad (hr : readImage (s.whoEff e) false e.a.val s = (.bad, v)) :
    applyCload k e s = v.cmdDone true e (fault 0x03C 0) := by
  simp only [applyCload, hg, Eff.skipped, hwp, hr]; rfl
theorem applyCload_read (hr : readImage (s.whoEff e) false e.a.val s = (.ok im, v)) :
    applyCload k e s = (v.loadInto k im e.a.val (bitsN e.b.val 2 0)).2.finishLoad e (v.loadInto k im e.a.val (bitsN e.b.val 2 0)).1 := by
  simp only [applyCload, hg, Eff.skipped, hwp, hr]; rfl
end Load

/-! ### CPATCH (14 R308) -/

theorem applyCpatch_read {g : CollarCfg} {es : List NodeEnt} (hg : s.ctx.cfg k = some g) (hwp : e.wp = [])
    (hr : readDelta (s.whoEff e) g.img 0 e.a.val s = (.ok es, v))
    (hfree : es.all (fun y => (freeSlot v.usedSlots (y.node + BitVec.ofNat 9 (8 * g.first))).isSome) = true) :
    applyCpatch k e s = (v.onCtx fun c => c.onHandle k fun g => patchAll es (g, v.usedSlots)).cmdDone true e 0 := by
  have hnone : es.any (fun y => (freeSlot v.usedSlots (y.node + BitVec.ofNat 9 (8 * g.first))).isNone) = false := by
    rw [← Bool.not_eq_true', List.not_any_eq_all_not]
    simpa using hfree
  simp only [applyCpatch, hg, Eff.skipped, hwp, hr, hnone]; rfl

/-! ### SBIND and SFREE (10 R226, R227) -/

section Bind
variable (hwp : e.wp = []) (hr : readImage (s.whoEff e) true e.a.val s = (.ok im, v)) (hc : im.cyclic = false)
include hwp hr hc
theorem applySbind_latency (hd : im.depth ≠ some im.lat) : applySbind k e s = v.cmdDone true e (fault 0x040 0) := by
  simp only [applySbind, Eff.skipped, hwp, hr, hc, if_pos hd]; rfl
theorem applySbind_at {f : Nat} {q : BitVec 2} (hd : im.depth = some im.lat) (hp : v.ctx.id.present = true)
    (hl : v.ctx.csr.loglim.getLsbD 63 = false) (ha : v.allocate v.ctx im [bitsN e.b.val 1 0] = .at f q []) :
    applySbind k e s = (v.onCtx (·.putSett (settIdx (bitsN e.b.val 1 0) k)
      { bound := true, resident := true, addr := e.a.val, img := im, first := f, rot := q })).cmdDone true e
        (BitVec.ofNat 64 (f * 65536)) := by
  simp only [applySbind, Eff.skipped, hwp, List.isEmpty_nil, Bool.not_true, hr, hc, hd, ne_eq, not_true_eq_false,
    Bool.false_eq_true, if_false, ha, State.moveRecs_nil, List.nil_append, State.applyMoves_nil, ← status_payload_eq]
  refine State.loggedAll_off (fun y hy => ?_) _
  have huid : y.1 = v.ctx.id.uid := by
    rcases List.mem_append.1 hy with hy | hy
    · rw [List.mem_singleton.1 hy]
    · split at hy <;> simp_all
  rw [huid, State.logsAt_focus hp hl]
end Bind
theorem applySfree_free (hb : (s.ctx.setts.getD (settIdx (bitsN e.b.val 1 0) k) {}).bound = false) :
    applySfree k e s = s.cmdDone true e 11 := by
  simp only [applySfree, hb]; rfl
theorem applySfree_bound (hb : (s.ctx.setts.getD (settIdx (bitsN e.b.val 1 0) k) {}).bound = true) (hp : s.ctx.id.present = true)
    (hl : s.ctx.csr.loglim.getLsbD 63 = false) :
    applySfree k e s = (s.onCtx (·.putSett (settIdx (bitsN e.b.val 1 0) k) {})).cmdDone true e 0 := by
  simp only [applySfree, hb, Bool.not_true, Bool.false_eq_true, if_false]
  refine State.loggedAll_off (fun y hy => ?_) _
  have huid : y.1 = s.ctx.id.uid := by split at hy <;> simp_all
  rw [huid, State.logsAt_focus hp hl]

/-! ### CMCAST (10 R222) -/

theorem applyCmcast_no_target (hwp : e.wp = []) (hws : e.ws = []) (ht : s.castTargets (bitsN e.b.val 5 0) (bitsN e.b.val 13 8) = [])
    (hr : readImage (s.whoEff e) false e.a.val s = (.ok im, v)) : applyCmcast k e s = v.cmdDone true e 0 := by
  simp only [applyCmcast, Eff.skipped, hwp, hws, ht, hr]; rfl

end Images

/-- Settles O25: each command by the image that it reads and the place that it finds. -/
theorem collarLoadsPlaceImages : Obligations.CollarLoadsPlaceImages := by
  intro s u v e e' h n hw hc
  rw [exec_cload_cmd hw hc, exec_cpatch_cmd hw hc, exec_sbind_cmd hw hc, exec_cmcast_cmd hw hc, exec_sfree_cmd hw hc]
  refine ⟨fun hg => congrArg _ (applyCload_used hg), fun hwp hg => ⟨fun hr => congrArg _ (applyCload_bad hg hwp hr), fun im hr hv => ?_⟩,
    fun hwp g es hg hr hfree => congrArg _ (applyCpatch_read hg hwp hr hfree), fun hwp im hr hcyc =>
      ⟨fun hd => congrArg _ (applySbind_latency hwp hr hcyc hd),
        fun hd hp hl f q ha => ⟨_, congrArg _ (applySbind_at hwp hr hcyc hd hp hl ha), rfl⟩⟩,
    fun hwp im ht hr hws => congrArg _ (applyCmcast_no_target hwp hws ht hr), ?_⟩
  · rw [applyCload_read hg hwp hr]
    refine ⟨fun hcyc => ?_, fun hcyc hp hl => ⟨fun f q ha => ?_, fun ha => ?_⟩⟩
    · rw [State.loadInto_cyclic hv hcyc]; rfl
    · rw [State.loadInto_places hv hcyc, State.placeImage_at hp hl ha, status_payload_eq]
      exact ⟨_, rfl, rfl⟩
    · rw [State.loadInto_places hv hcyc, State.placeImage_noslab ha]
      exact ⟨_, rfl, rfl⟩
  · rintro b rfl
    exact ⟨fun hb => congrArg _ (applySfree_free hb), fun hb hp hl => ⟨_, congrArg _ (applySfree_bound hb hp hl), rfl⟩⟩

end Sys2Proof.Machine
end

-- ==== Proofs of the memory family: stores (11 R229 to R233; 04 R108, R109) ====
section
/-! PROOFS. ST at the core, by its place, and as its engine applies it: one store of aligned bytes at the place that it was held with.
What an access meets on the way to its place leaves the firing. -/

namespace Sys2Proof.Machine

/-! ### What an access leaves in focus -/

/-- The firing and the context in focus. -/
def State.inFocus (s : State) : Firing × Ctx := (s.fir, s.ctx)

theorem State.onDev_inFocus (f) (s : State) : (s.onDev f).inFocus = s.inFocus := rfl
theorem State.onMem_inFocus (f) (s : State) : (s.onMem f).inFocus = s.inFocus := rfl
theorem State.onTileOf_inFocus (n f) (s : State) : (s.onTileOf n f).inFocus = s.inFocus := by
  unfold State.onTileOf; repeat' split
  all_goals rfl
theorem State.raiseModule_inFocus (kind body) (s : State) : (s.raiseModule kind body).inFocus = s.inFocus := State.onTileOf_inFocus ..
theorem State.poisonEvent_inFocus (l va) (s : State) : (s.poisonEvent l va).inFocus = s.inFocus := by
  unfold State.poisonEvent; split
  · exact State.raiseModule_inFocus ..
  · rfl
theorem State.meetUpset_inFocus (va w hard) (s : State) : (s.meetUpset va w hard).inFocus = s.inFocus := by
  grind [State.meetUpset, State.onDev_inFocus, State.onMem_inFocus, State.raiseModule_inFocus]
theorem touchGo_inFocus (va l) (s : State) : (touchGo va l s).inFocus = s.inFocus := by
  fun_induction touchGo va l s with
  | case1 s => rfl
  | case2 s w h l ih => exact ih.trans (State.meetUpset_inFocus ..)
theorem State.touch_inFocus (va k n) (s : State) : (s.touch va k n).inFocus = s.inFocus := by
  unfold State.touch; split
  · rfl
  · exact touchGo_inFocus ..
theorem State.touchWalk_inFocus (w va) (s : State) : (s.touchWalk w va).inFocus = s.inFocus := by
  unfold State.touchWalk; split
  · rfl
  · exact foldl_keeps State.inFocus (fun _ _ => State.touch_inFocus ..) ..
theorem State.gate_inFocus (free) (s : State) : (s.gate free).inFocus = s.inFocus := by
  unfold State.gate; split <;> rfl
theorem State.global_inFocus (w acc va n) (s : State) : (s.global w acc va n).2.inFocus = s.inFocus := by
  unfold State.global
  dsimp only
  split
  · rfl
  split
  · rfl
  · rw [State.onDev_inFocus, State.gate_inFocus]
    split
    · rw [State.gate_inFocus, State.touchWalk_inFocus]
    · rw [State.touchWalk_inFocus]
theorem State.place_inFocus (vs acc x n) (s : State) : (s.place vs acc x n).2.inFocus = s.inFocus := by
  cases vs with
  | global => exact State.global_inFocus ..
  | window => rfl
  | port => rfl

/-! ### ST at the core (11 R229, R233) -/

section Issue
variable {s u : State} {vs : VSpace} {sp : Space} {sz : Size} {t0 t1 : Cons}

section Placed
variable {acc : Access} {x : Word} {n : Nat} {r : Except Refused Loc} (h : s.place vs acc x n = (r, u))
include h
theorem State.fir_of_place : u.fir = s.fir := by
  have hu := congrArg Prod.fst (State.place_inFocus vs acc x n s)
  rwa [h] at hu
theorem State.ctx_of_place : u.ctx = s.ctx := by
  have hu := congrArg Prod.snd (State.place_inFocus vs acc x n s)
  rwa [h] at hu
theorem State.opA_of_place : u.opA = s.opA := by rw [State.opA, State.opA, State.cur, State.cur, State.fir_of_place h]
end Placed

theorem storeTo_poisoned (hp : s.opA.poison = true) : storeTo sp vs sz t0 t1 s = .next (s.slotFault 4 0 0 0) := if_pos hp
theorem storeHost_poisoned (hp : s.opA.poison = true) : storeHost sz t0 t1 s = .next (s.slotFault 4 0 0 0) := if_pos hp

section Unpoisoned
variable (hp : s.opA.poison = false)
include hp
theorem storeTo_fault {d w} (h : s.place vs .wr s.a (accSize sz) = (.error (.fault d w), u)) :
    storeTo sp vs sz t0 t1 s = .next (u.slotFault 5 d w 1) := by
  rw [State.a] at h
  simp only [storeTo, hp, h]; rfl
theorem storeTo_tenant {p o : Nat} (h : s.place vs .wr s.a (accSize sz) = (.ok (.ctl p o), u)) (hs : s.ctx.id.sup = false)
    (hc : ctlWs p o = true) : storeTo sp vs sz t0 t1 s = .next (u.slotFault 2 0x00E (u.cur.word.setWidth 64) 0) := by
  have ht : u.tenantCtl (.ctl p o) = true := by rw [State.tenantCtl, State.ctx_of_place h, hs, hc]; rfl
  rw [State.a] at h
  simp only [storeTo, hp, h, ht]; rfl

section Placed
variable {k : Nat} (h : s.place vs .wr s.a (accSize sz) = (.ok (.mem k), u))
include h
theorem storeTo_held (hk : accSize sz = 8 ∨ u.seen.poisoned k = false) : storeTo sp vs sz t0 t1 s =
    .next ((u.hold { slot := 0, ins := .st sp sz t0 t1, a := u.opA, b := u.opB, locs := [.mem k], keyslot := u.keySeen }).emit
      [(t0, ⟨0, false⟩), (t1, ⟨0, false⟩)]) := by
  have hroom : (decide (accSize sz < 8) && u.placePois u.seen (.mem k)) = false := by
    rcases hk with hk | hk <;> simp [State.placePois, hk]
  rw [State.opA_of_place h]
  rw [State.a] at h
  simp only [storeTo, hp, h, State.tenantCtl, hroom]; rfl
/-- A part of a poisoned word is not to be stored. -/
theorem storeTo_part (hn : accSize sz < 8) (hk : u.seen.poisoned k = true) : ∃ w : State, w.mem = u.mem ∧ w.fir = u.fir ∧
    storeTo sp vs sz t0 t1 s = .next ((w.hold { slot := 0, ins := .st sp sz t0 t1, a := u.opA, b := u.opB }).emit
      [(t0, ⟨8, false⟩), (t1, ⟨8, false⟩)]) := by
  have hpart : (decide (accSize sz < 8) && u.placePois u.seen (.mem k)) = true := by simp [State.placePois, hk, hn]
  rw [State.opA_of_place h]
  rw [State.a] at h
  refine ⟨_, State.poisonEvent_mem (.mem k) (if vs = .global then s.opA.val else 0) u,
    congrArg Prod.fst (State.poisonEvent_inFocus ..), ?_⟩
  simp only [storeTo, hp, h, State.tenantCtl, hpart]; rfl
end Placed

theorem storeHost_range (ha : 64 ≤ s.a.toNat) : storeHost sz t0 t1 s = .next (s.slotFault 6 0x030 s.a 0) := by
  rw [State.a] at ha
  rw [storeHost, hp, if_neg Bool.false_ne_true, if_pos ((bitsN_ne_zero_iff _ (by decide)).2 ha)]; rfl
theorem storeHost_held (ha : s.a.toNat < 64) (hg : s.hostGiven (s.a.setWidth 6) 2 = true) : storeHost sz t0 t1 s =
    .next ((s.hold { slot := 0, ins := .st .host sz t0 t1, a := s.opA, b := s.opB, locs := [.host (s.a.setWidth 6)] }).emit
      [(t0, ⟨0, false⟩), (t1, ⟨0, false⟩)]) := by
  have hz : bitsN s.opA.val 63 6 = 0 := (bitsN_top_eq_zero (by decide)).2 ha
  rw [State.a, ← BitVec.ofNat_toNat] at hg
  simp only [storeHost, hp, hz, hg, State.a, ← BitVec.ofNat_toNat]; rfl
end Unpoisoned

variable (hw : s.who = .core)
include hw
theorem exec_st_core : exec (.st vs.space sz t0 t1) s = storeTo vs.space vs sz t0 t1 s := by
  show execSt vs.space sz t0 t1 s = _
  rw [execSt, hw]
  cases vs <;> rfl
theorem exec_st_host_core : exec (.st .host sz t0 t1) s = storeHost sz t0 t1 s := by
  show execSt .host sz t0 t1 s = _
  rw [execSt, hw]; rfl
theorem exec_st_poisoned (hp : s.opA.poison = true) : exec (.st sp sz t0 t1) s = .next (s.slotFault 4 0 0 0) := by
  cases sp with
  | global => exact (exec_st_core (vs := .global) hw).trans (storeTo_poisoned hp)
  | window => exact (exec_st_core (vs := .window) hw).trans (storeTo_poisoned hp)
  | port => exact (exec_st_core (vs := .port) hw).trans (storeTo_poisoned hp)
  | host => exact (exec_st_host_core hw).trans (storeHost_poisoned hp)
end Issue

/-! ### ST applied (11 R233, 04 R109) -/

/-- A store of part of a sound word poisons it when its value is poisoned; a store of a whole word sets its poison. -/
theorem storeMem_poisoned {m : Memory} {kv : Option (BitVec 512)} {sz : Size} {k v : Nat} {p : Bool} (hwf : m.wf = true)
    (hk : accSize sz = 8 ∨ m.poisoned k = false) (x : Nat) :
    (storeMem m kv k (accSize sz) v p).poisoned x = if x / 8 = k / 8 then p else m.poisoned x := by
  have hwrite (y : Nat) : (m.write kv k v (accSize sz)).poisoned y = m.poisoned y := by simp [Memory.poisoned]
  have hset (q : Bool) : ((m.write kv k v (accSize sz)).setPoison k q).poisoned x = if x / 8 = k / 8 then q else m.poisoned x := by
    rw [Memory.poisoned_setPoison (Memory.wf_write hwf kv k v _), hwrite]
  unfold storeMem
  split
  · next hn =>
    have hsound : m.poisoned k = false := hk.resolve_left (by omega)
    rw [hsound, if_neg Bool.false_ne_true]
    cases p with
    | true => exact hset true
    | false =>
      refine (hwrite x).trans ?_
      split
      · next hx => rw [← hsound, Memory.poisoned, Memory.poisoned, hx]
      · rfl
  · exact hset p

section Applied
variable {s : State} {e : Eff} {sz : Size} {t0 t1 : Cons} {k : Nat}

theorem exec_st_cmd {sp : Space} (hw : s.who = .cmd e) : exec (.st sp sz t0 t1) s = .next ((s.unqueue e).commitStore e) := by
  show execSt sp sz t0 t1 s = _
  rw [execSt, hw]

section Mem
variable {vs : VSpace} (hi : e.ins = .st vs.space sz t0 t1) (hl : e.locs = [.mem k])
include hi hl
theorem State.commitStore_mem : s.commitStore e = s.applyStore e.keyslot (if vs.space = .global then e.a.val else 0) (.mem k)
    (accSize sz) e.b.val.toNat e.b.poison := by
  cases vs <;> simp only [State.commitStore, hi, hl] <;> rfl
theorem State.commitStore_part (hn : accSize sz < 8) (hk : s.mem.poisoned k = true) :
    s.commitStore e = s.poisonEvent (.mem k) (if vs.space = .global then e.a.val else 0) :=
  (State.commitStore_mem hi hl).trans (if_pos (by simp [hn, hk]))
theorem State.commitStore_whole (hk : accSize sz = 8 ∨ s.mem.poisoned k = false) : s.commitStore e =
    { s with mem := storeMem s.mem (s.dev.keyAt e.keyslot.toNat k) k (accSize sz) e.b.val.toNat e.b.poison } :=
  (State.commitStore_mem hi hl).trans (if_neg (by rcases hk with hk | hk <;> simp [hk]))
end Mem
theorem State.commitStore_host {c : BitVec 6} (hi : e.ins = .st .host sz t0 t1) (hl : e.locs = [.host c]) : s.commitStore e = s.putOut c
    { val := e.b.val, pois := e.b.poison, ctrl := 0, ctx := s.ctx.id.uid, deps := [s.ctx.id.uid], job := s.tokJob } := by
  simp only [State.commitStore, hi, hl, List.foldl_cons, List.foldl_nil, State.applyStore, BitVec.ofNat_toNat, BitVec.setWidth_eq]
end Applied

/-- Settles O28: at issue by the place, applied by one store of memory. -/
theorem storeIsHeldThenStoresItsBytes : Obligations.StoreIsHeldThenStoresItsBytes := by
  intro s sp vs sz t0 t1
  refine ⟨exec_st_poisoned, fun hw hp => ?_, fun e k hw hi hl hk hwf => ?_, fun e c hw hi hl => ?_⟩
  · rw [exec_st_core hw, exec_st_host_core hw]
    refine ⟨fun k u h => ⟨storeTo_held hp h, storeTo_part hp h⟩, fun d w u => storeTo_fault hp, fun p o u h => storeTo_tenant hp h,
      storeHost_held hp, storeHost_range hp⟩
  · rw [exec_st_cmd hw]
    refine ⟨fun hn hpart => ⟨_, rfl, ?_⟩, fun hroom => ⟨_, rfl, ?_⟩⟩
    · rw [State.commitStore_part (s := s.unqueue e) hi hl hn hpart]
      exact ⟨State.poisonEvent_mem .., congrArg Prod.fst (State.poisonEvent_inFocus ..)⟩
    · rw [State.commitStore_whole (s := s.unqueue e) hi hl hroom]
      exact ⟨storeMem_stored hwf hk hroom, storeMem_poisoned hwf hroom, rfl⟩
  · rw [exec_st_cmd hw, State.commitStore_host hi hl]; rfl

end Sys2Proof.Machine
end

-- ==== Proofs of the memory family: a lookup in a set of more than four ways (04 R91, R92; 11 R246) ====
section
/-! PROOFS. TLOOK that misses. The model keeps a set of the tag table as a list; its answer is the number 2^15 + 4 set + way, whose bit 15
is the sign of a miss only while the way is one of the few that a set of the hardware has (04 R91). -/

namespace Sys2Proof.Machine

section Miss
variable {s : State} {t0 t1 : Cons}

/-- The way that a miss suggests holds a tag. -/
def victimValid (ws : List TagWay) : Bool := ((ws[victim ws]?).map (·.valid)).getD false
/-- The answer of a miss in a set with the ways `ws`. -/
def missWord (set : Nat) (ws : List TagWay) : Word :=
  BitVec.ofNat 64 (2 ^ 15 + (if victimValid ws then 2 ^ 14 else 0) + 4 * set + victim ws)

theorem exec_tlook_miss (hp : s.opA.poison = false) (ha : s.a.toNat < 2 ^ 56)
    (h : hitWay (s.ctx.tagSet (bitsN s.a 17 8)) (tagOf s.a) = none) : exec (.tlook t0 t1) s =
    .next (s.sends t0 t1 (missWord (bitsN s.a 17 8) (s.ctx.tagSet (bitsN s.a 17 8))) false) := by
  show execTlook t0 t1 s = _
  have hz : bitsN s.a 63 56 = 0 := (bitsN_top_byte_eq_zero _).2 ha
  rw [State.a] at h hz
  simp only [execTlook, hp, hz, h]; rfl

theorem firstIdx_lt {α : Type} {p : α → Bool} {l : List α} {i n : Nat} (h : firstIdx p l n = some i) : i < n + l.length := by
  induction l generalizing n with
  | nil => cases h
  | cons a l ih =>
    rw [firstIdx] at h
    split at h
    · obtain rfl := Option.some.inj h
      simp
    · have := ih h
      rw [List.length_cons]
      omega
/-- With four ways a set tells the miss, the suggested slot of the set and whether its way holds a tag (04 R92). -/
theorem missWord_fields {set : Nat} (hset : set < 2 ^ 10) {ws : List TagWay} (hlen : ws.length = 4) :
    (missWord set ws).getLsbD 15 = true ∧ (missWord set ws).getLsbD 14 = victimValid ws ∧ bitsN (missWord set ws) 11 2 = set
      ∧ bitsN (missWord set ws) 1 0 = victim ws := by
  have hway : victim ws < 4 := by
    unfold victim
    split
    · next i hi => simpa [hlen] using firstIdx_lt hi
    · cases hr : firstIdx (fun w : TagWay => w.rank == 3) ws 0 with
      | none => decide
      | some i => simpa [hlen] using firstIdx_lt hr
  unfold missWord
  generalize victim ws = w at *
  cases victimValid ws with
  | false =>
    simp only [Bool.false_eq_true, if_false]
    exact ⟨getLsbD_ofNat_of_field (by decide) (by simp; omega), getLsbD_ofNat_of_field (by decide) (by simp; omega),
      bitsN_ofNat_of_field (by omega) (by omega), bitsN_ofNat_of_field (by omega) (by omega)⟩
  | true =>
    simp only [if_true]
    exact ⟨getLsbD_ofNat_of_field (by decide) (by simp; omega), getLsbD_ofNat_of_field (by decide) (by simp; omega),
      bitsN_ofNat_of_field (by omega) (by omega), bitsN_ofNat_of_field (by omega) (by omega)⟩
end Miss

/-! ### A set whose one free way is its last -/

def takenWay : TagWay := { valid := true, tag := 1 }
def freeWay : TagWay := {}
/-- `n` ways that hold a tag, and a free one. -/
def longSet (n : Nat) : List TagWay := List.replicate n takenWay ++ [freeWay]

section LongSet
variable {n : Nat}

theorem longSet_last : (longSet n)[n]? = some freeWay := by simp [longSet]
theorem longSet_before {i : Nat} {w : TagWay} (hi : (longSet n)[i]? = some w) (hne : i ≠ n) : w = takenWay := by
  have hlt : i < n := by
    have hlen := (List.getElem?_eq_some_iff.1 hi).1
    simp only [longSet, List.length_append, List.length_replicate, List.length_singleton] at hlen
    omega
  rw [longSet, List.getElem?_append_left (by simpa using hlt), List.getElem?_replicate, if_pos hlt] at hi
  exact (Option.some.inj hi).symm
theorem hitWay_longSet : hitWay (longSet n) 0 = none := by
  refine firstIdx_eq_none (fun w hw => ?_) 0
  rw [longSet] at hw
  rcases List.mem_append.1 hw with hw | hw
  · rw [List.eq_of_mem_replicate hw]; rfl
  · rw [List.mem_singleton.1 hw]; rfl
theorem victim_longSet : victim (longSet n) = n := by
  have hfirst : firstIdx (fun w : TagWay => !w.valid) (longSet n) 0 = some (0 + n) :=
    firstIdx_eq_of_unique longSet_last rfl (fun i w hi hne => by rw [longSet_before hi hne]; rfl) 0
  simp only [victim, hfirst, Nat.zero_add]
theorem missWord_longSet : missWord 0 (longSet n) = BitVec.ofNat 64 (2 ^ 15 + n) := by
  rw [missWord, victimValid, victim_longSet, longSet_last]; rfl
end LongSet

/-- TLOOK of address 0 issues from slot 0 in a context whose set 0 has the ways `ws`, and slot 1 takes its answer. -/
def tlookState (ws : List TagWay) : State :=
  { fir := { blk := { slots := [{ word := 0, a := some {} }, { word := 0 }] } }, ctx := { tags := [(0, ws)] } }
theorem tlookState_a (ws : List TagWay) : (tlookState ws).a = 0 := rfl
theorem tlookState_tagSet (ws : List TagWay) : (tlookState ws).ctx.tagSet 0 = ws := rfl
/-- The token that slot 1 holds at A. -/
def State.answered (s : State) : Option Token := (s.fir.blk.slots[1]?).bind (·.a)
theorem answered_sends_tlookState (ws : List TagWay) (v : Word) :
    ((tlookState ws).sends (some ⟨1, .a⟩) none v false).answered = some ⟨v, false⟩ := rfl

/-- What the statement says of the answer of a miss. -/
theorem missWord_bit_of_stated (h : Obligations.VectorAccessesAndTagTable) {ws : List TagWay} (hws : hitWay ws 0 = none) :
    (missWord 0 ws).getLsbD 15 = true := by
  obtain ⟨_, htags⟩ := h
  obtain ⟨_, _, hlook, _⟩ := htags (tlookState ws) (some ⟨1, .a⟩) none
  have ha : (tlookState ws).a.toNat < 2 ^ 56 := by rw [tlookState_a]; decide
  have hset : bitsN (tlookState ws).a 17 8 = 0 := by rw [tlookState_a]; decide
  have htag : tagOf (tlookState ws).a = 0 := by rw [tlookState_a]; decide
  have hmiss : hitWay ((tlookState ws).ctx.tagSet (bitsN (tlookState ws).a 17 8)) (tagOf (tlookState ws).a) = none := by
    rwa [hset, htag, tlookState_tagSet]
  obtain ⟨v, hexec, hbit⟩ := (hlook rfl ha).2 hmiss
  rw [exec_tlook_miss rfl ha hmiss, hset, tlookState_tagSet] at hexec
  have hsent := congrArg State.answered (Host.Outcome.next.inj hexec)
  rw [answered_sends_tlookState, answered_sends_tlookState] at hsent
  have hv : missWord 0 ws = v := congrArg Token.val (Option.some.inj hsent)
  rwa [hv]

/-- Refutes O29: its clause on a miss quantifies over every tag table, and so over a set of more than four ways; in one of 2^15 taken
ways and a free one (`longSet`) the suggested way is number 2^15, and the sum carries out of bit 15. With four ways the answer is as
04 R92 has it (`missWord_fields`). -/
theorem not_vectorAccessesAndTagTable : ¬ Obligations.VectorAccessesAndTagTable := by
  intro h
  have hbit := missWord_bit_of_stated h (hitWay_longSet (n := 2 ^ 15))
  rw [missWord_longSet] at hbit
  exact absurd hbit (by decide)

end Sys2Proof.Machine
end

-- ==== Proofs of the stream family: class L commands at issue (11 R239 to R245, R252 to R256; 04 R97) ====
section
/-! PROOFS. The class L commands at the core: poison of A, then the check of A, then the command held for commit. `IssuedIf` says it
once; each form is its check, and each check is the range that the spec gives for A. -/

namespace Sys2Proof.Machine

/-- The core issues form `i` unless A is poisoned or fails the check `bad`. -/
def IssuedIf (s : State) (i : Instr) (bad : Prop) [Decidable bad] : Prop :=
  exec i s = if s.opA.poison then .next (s.poisonFault useOther) else if bad then .next (s.rangeFault s.a) else .next (s.issue i)

section Forms
variable {s : State} {n : BitVec 5} {p : BitVec 4} (hw : s.who = .core)
include hw

theorem issuedIf_agen : IssuedIf s (.agen n) (s.a.toNat % 64 ≠ 0 ∨ s.ctx.winSize < s.a.toNat + 64) := by
  show execAgen n s = _
  rw [execAgen, hw]; rfl
theorem issuedIf_ldw : IssuedIf s (.ldw n)
    (bitsN s.a 63 6 ≠ 0 ∨ bitsN s.a 3 0 = 0 ∨ (if s.a.getLsbD 5 then 4 else 8) < bitsN s.a 3 0) := by
  show execLdw n s = _
  rw [execLdw, hw]; rfl
theorem issuedIf_pxform : IssuedIf s (.pxform p)
    (bitsN s.a 63 19 ≠ 0 ∨ 4 ≤ bitsN s.a 3 1 ∨ (bitsN s.a 3 1 = 3 ∧ bitsN s.a 0 0 = 0)) := by
  show execPxform p s = _
  rw [execPxform, hw]; rfl
theorem issuedIf_pmerge : IssuedIf s (.pmerge p) (bitsN s.a 63 3 ≠ 0) := by
  show execPmerge p s = _
  rw [execPmerge, hw]; rfl
theorem issuedIf_ringdef : IssuedIf s (.ringdef p) (bitsN s.a 63 41 ≠ 0
    ∨ (bitsN s.a 40 40 = 1 ∧ (bitsN s.a 5 0 ≠ 0 ∨ bitsN s.a 38 24 < 4 ∨ 16384 < bitsN s.a 38 24
      ∨ s.ctx.winSize < bitsN s.a 23 0 + 64 * bitsN s.a 38 24))) := by
  show execRingdef p s = _
  rw [execRingdef, hw]; rfl
theorem issuedIf_abar : IssuedIf s .abar (bitsN s.a 63 32 ≠ 0) := by
  show execAbar s = _
  rw [execAbar, hw]; rfl
theorem issuedIf_resume : IssuedIf s .resume (!resumeOk s.a) := by
  show execResume s = _
  rw [execResume, hw]; rfl

end Forms

section Outcomes
variable {s : State} {i : Instr} {bad : Prop} [Decidable bad] (hi : IssuedIf s i bad)
include hi

theorem IssuedIf.poison (hp : s.opA.poison = true) : exec i s = .next (s.slotFault 4 0 7 0) := hi.trans (if_pos hp)
/-- With an unpoisoned A the command is held when A is in the range `ok`. -/
theorem IssuedIf.range {ok : Prop} [Decidable ok] (hp : s.opA.poison = false) (hok : bad ↔ ¬ok) :
    exec i s = if ok then .next (s.heldFor i []) else .next (s.slotFault 6 0x030 s.a 0) := by
  refine (hi.trans (if_neg (ne_true_of_eq_false hp))).trans ?_
  simp only [hok, ite_not]
  rfl

end Outcomes

/-! ### The ranges of A -/

theorem ldwBad_iff (a : Word) : (bitsN a 63 6 ≠ 0 ∨ bitsN a 3 0 = 0 ∨ (if a.getLsbD 5 then 4 else 8) < bitsN a 3 0) ↔
    ¬(a.toNat < 64 ∧ 1 ≤ a.toNat % 16 ∧ a.toNat % 16 ≤ if 32 ≤ a.toNat then 4 else 8) := by
  have hp : bitsN a 3 0 = a.toNat % 16 := by simp [bitsN_eq_div_mod]
  rw [ne_eq, bitsN_top_eq_zero (by decide), hp]
  by_cases ha : a.toNat < 64
  · have hbit : a.getLsbD 5 = true ↔ 32 ≤ a.toNat := by
      rw [BitVec.getLsbD, Nat.testBit_eq_decide_div_mod_eq, decide_eq_true_iff]
      omega
    simp only [hbit]
    split <;> omega
  · simp [ha]
theorem pxformBad_iff (a : Word) : (bitsN a 63 19 ≠ 0 ∨ 4 ≤ bitsN a 3 1 ∨ (bitsN a 3 1 = 3 ∧ bitsN a 0 0 = 0)) ↔
    ¬(a.toNat < 2 ^ 19 ∧ a.toNat / 2 % 8 < 4 ∧ ¬(a.toNat / 2 % 8 = 3 ∧ a.toNat % 2 = 0)) := by
  have hkind : bitsN a 3 1 = a.toNat / 2 % 8 := bitsN_eq_div_mod ..
  have hread : bitsN a 0 0 = a.toNat % 2 := by simp [bitsN_eq_div_mod]
  rw [ne_eq, bitsN_top_eq_zero (by decide), hkind, hread]
  omega
theorem ringdefBad_iff (a : Word) (w : Nat) : (bitsN a 63 41 ≠ 0
    ∨ (bitsN a 40 40 = 1 ∧ (bitsN a 5 0 ≠ 0 ∨ bitsN a 38 24 < 4 ∨ 16384 < bitsN a 38 24
      ∨ w < bitsN a 23 0 + 64 * bitsN a 38 24))) ↔
    ¬(a.toNat < 2 ^ 41 ∧ (a.getLsbD 40 = true → bitsN a 5 0 = 0 ∧ 4 ≤ bitsN a 38 24 ∧ bitsN a 38 24 ≤ 16384
      ∧ bitsN a 23 0 + 64 * bitsN a 38 24 ≤ w)) := by
  rw [ne_eq, bitsN_top_eq_zero (by decide), bitsN_bit]
  cases a.getLsbD 40 with
  | false => simp
  | true => simp; omega
theorem resumeBad_iff (a : Word) : (!resumeOk a) = true ↔ ¬(a.toNat < 2 ^ 17 ∧ bitsN a 16 15 ≤ 1 ∧ bitsN a 14 10 <
    if bitsN a 9 8 = 0 then 32 else if bitsN a 9 8 = 1 then 8 else if bitsN a 9 8 = 2 then 1 else 2) := by
  have hnum : bitsN a 14 10 < 32 := by rw [bitsN_eq_div_mod]; exact Nat.mod_lt _ (by decide)
  rw [Bool.not_eq_true', Bool.eq_false_iff, not_iff_not, ← bitsN_top_eq_zero (x := a) (lo := 17) (by decide), resumeOk]
  generalize bitsN a 9 8 = path
  match path with
  | 0 => simp [hnum]
  | 1 => simp [and_assoc]
  | 2 => simp [and_assoc]
  | _ + 3 => simp [and_assoc]

/-- Settles O30: each form by its check of A. -/
theorem loadCommandIsHeldAtIssue : Obligations.LoadCommandIsHeldAtIssue := by
  intro s n p t0 t1 hw
  refine ⟨fun hp i hi => ?_, fun hp => ⟨?_, ?_, ?_, ?_, ?_, ?_, ?_⟩, ?_, ?_, ?_⟩
  · simp only [List.mem_cons, List.not_mem_nil, or_false] at hi
    rcases hi with rfl | rfl | rfl | rfl | rfl | rfl | rfl
    · exact (issuedIf_agen hw).poison hp
    · exact (issuedIf_ldw hw).poison hp
    · exact (issuedIf_pxform hw).poison hp
    · exact (issuedIf_pmerge hw).poison hp
    · exact (issuedIf_ringdef hw).poison hp
    · exact (issuedIf_resume hw).poison hp
    · exact (issuedIf_abar hw).poison hp
  · exact (issuedIf_agen hw).range hp (by omega)
  · exact (issuedIf_ldw hw).range hp (ldwBad_iff _)
  · exact (issuedIf_pxform hw).range hp (pxformBad_iff _)
  · exact (issuedIf_pmerge hw).range hp (not_congr (bitsN_top_eq_zero (by decide)))
  · exact (issuedIf_ringdef hw).range hp (ringdefBad_iff _ _)
  · exact (issuedIf_abar hw).range hp (not_congr (bitsN_top_eq_zero (by decide)))
  · exact (issuedIf_resume hw).range hp (resumeBad_iff _)
  · show execAstart n s = _
    rw [execAstart, hw]; rfl
  · show execAstop n s = _
    rw [execAstop, hw]; rfl
  · show execSts n t0 t1 s = _
    rw [execSts, hw]; rfl

end Sys2Proof.Machine
end

-- ==== Proofs of the stream family: stream commands applied (11 R239 to R245; 04 R97) ====
section
/-! PROOFS. AGEN, ASTART, ASTOP, ABAR, LDW and STS as their engine applies them, by the state of the stream; LDG by what its wait for an
element finds. -/

namespace Sys2Proof.Machine

/-! ### Commands (11 R239, R240, R243, R245) -/

section Apply
variable {s : State} {e : Eff} {n : BitVec 5} {t0 t1 : Cons} (hw : s.who = .cmd e)
include hw
theorem exec_agen_cmd_read (hws : e.ws ≠ []) : exec (.agen n) s = .next (applyAgen n.toNat e (s.popLq e)) := by
  show execAgen n s = _
  rw [execAgen, hw]
  exact if_pos (by rw [List.isEmpty_eq_false_iff.2 hws]; rfl)
theorem exec_agen_cmd_waits (hws : e.ws = []) (hr : s.readWaits e (s.ctx.descKeys e) = true) : exec (.agen n) s = .next s := by
  show execAgen n s = _
  rw [execAgen, hw]
  exact (if_neg (by rw [hws]; decide)).trans (if_pos hr)
theorem exec_astart_cmd : exec (.astart n) s = .next (applyAstart n.toNat e (s.popLq e)) := by
  show execAstart n s = _
  rw [execAstart, hw]
theorem exec_astop_cmd : exec (.astop n) s = .next (applyAstop n.toNat (s.popLq e)) := by
  show execAstop n s = _
  rw [execAstop, hw]
theorem exec_abar_cmd : exec .abar s = .next (s.popLq e) := by
  show execAbar s = _
  rw [execAbar, hw]
theorem exec_ldw_cmd : exec (.ldw n) s = .next (applyLdw n.toNat e (s.popLq e)) := by
  show execLdw n s = _
  rw [execLdw, hw]
theorem exec_sts_cmd : exec (.sts n t0 t1) s = .next (applySts n.toNat e (s.popLq e)) := by
  show execSts n t0 t1 s = _
  rw [execSts, hw]
end Apply

section Commands
variable {s : State} {e : Eff} {n : Nat}

/-- A stream that is not indexed asks nothing of ISTR. -/
theorem Ctx.istrOk_of_mode {c : Ctx} {t : Stream} (h : t.mode ≠ 2) : c.istrOk n t = true := by
  simp [Ctx.istrOk, h]

theorem applyAgen_live (h : (s.ctx.streams.getD n {}).st.live = true) : applyAgen n e s = s.refuseCmd e.ins 0x051 := if_pos h
section Idle
variable (h : (s.ctx.streams.getD n {}).st.live = false)
include h
theorem applyAgen_bad (hbad : e.wp.any (· == true) = true
    ∨ Stream.fieldsOk { st := .idle, desc := e.ws, seq := (s.ctx.streams.getD n {}).seq } = false) :
    applyAgen n e s = s.refuseCmd e.ins 0x050 := by
  refine (if_neg (ne_true_of_eq_false h)).trans (if_pos ?_)
  rcases hbad with hbad | hbad <;> simp only [hbad, Bool.not_false, Bool.true_or, Bool.or_true]
theorem applyAgen_ok (hwp : e.wp.any (· == true) = false)
    (hok : Stream.fieldsOk { st := .idle, desc := e.ws, seq := (s.ctx.streams.getD n {}).seq } = true)
    (hm : Stream.mode { desc := e.ws } ≠ 2) : applyAgen n e s =
    s.onCtx fun c => c.onStream n fun _ => { st := .idle, desc := e.ws, seq := (s.ctx.streams.getD n {}).seq } := by
  refine (if_neg (ne_true_of_eq_false h)).trans (if_neg ?_)
  have histr : s.ctx.istrOk n { st := .idle, desc := e.ws, seq := (s.ctx.streams.getD n {}).seq } = true := Ctx.istrOk_of_mode hm
  simp only [hwp, hok, histr, Bool.not_true, Bool.or_self, Bool.false_eq_true, not_false_eq_true]
end Idle

/-- The stream as ASTART starts it for an effect. -/
def Stream.started (t : Stream) (e : Eff) : Stream :=
  { t with st := .run, k := 0, buf := [], used := 0, claim := none, hold := none, pat := [], idx := [], space := e.space
           eng := [], engN := 0, engOn := true }
theorem applyAstart_undef (h : (s.ctx.streams.getD n {}).st = .undef) : applyAstart n e s = s.refuseCmd e.ins 0x052 := by
  simp only [applyAstart, h]
theorem applyAstart_idle (h : (s.ctx.streams.getD n {}).st = .idle) (hm : (s.ctx.streams.getD n {}).mode ≠ 2) :
    applyAstart n e s = s.onCtx fun c => c.onStream n (·.started e) := by
  simp only [applyAstart, h, Ctx.istrOk_of_mode hm]; rfl
theorem applyAstart_live (h : (s.ctx.streams.getD n {}).st.live = true) : applyAstart n e s = s := by
  unfold applyAstart
  cases hst : (s.ctx.streams.getD n {}).st with
  | undef => rw [hst] at h; cases h
  | idle => rw [hst] at h; cases h
  | run => simp only [hst]
  | held => simp only [hst]

/-- A stream that has become IDLE keeps its descriptor and no element, whatever waited for it at its port. -/
theorem Ctx.streamIdle_stream (c : Ctx) {n : Nat} (hn : n < 32) :
    (c.streamIdle n).streams.getD n {} = (c.streams.getD n {}).toIdle := by
  have hreset (t : Stream) : t.toIdle.resetPattern = t.toIdle := by simp [Stream.resetPattern, Stream.toIdle]
  have hget : (modV c.streams n Stream.toIdle).getD n {} = (c.streams.getD n {}).toIdle := by
    rw [getV_modV, if_pos ⟨rfl, hn⟩]
  simp only [Ctx.streamIdle, Ctx.passPort, Ctx.onStream]
  rw [getV_mapV (e := {}) (h := hn), hget, hreset]
  exact ite_self _
theorem applyAstop_idle (h : (s.ctx.streams.getD n {}).st.live = false) : applyAstop n s = s := if_neg (ne_true_of_eq_false h)
theorem applyAstop_live (h : (s.ctx.streams.getD n {}).st.live = true) : applyAstop n s =
    s.onCtx fun c => (c.onStream n fun t => { t with eng := [], engOn := false }).streamIdle n := if_pos h

theorem applyLdw_notIdle (h : (s.ctx.streams.getD n {}).st ≠ .idle) : applyLdw n e s = s.refuseCmd e.ins 0x051 := if_pos h
section Use
variable {t : Stream} (ht : s.ctx.streams.getD n {} = t)
include ht
/-- An idle FP read stream of one dimension becomes a bed. -/
theorem applyLdw_bed (h : t.st = .idle) (hwr : streamWrite t = false) (hm : t.mode = 0) (hz : streamEsz t = 2) (h1 : t.n 1 = 1)
    (h2 : t.n 2 = 1) (h3 : t.n 3 = 1) : applyLdw n e s = s.onCtx fun c => c.onStream n fun t => { t with
      bed := some (bitsN e.a.val 3 0, e.a.val.getLsbD 4, e.a.val.getLsbD 5) } := by
  subst ht
  simp only [applyLdw, h, hwr, hm, hz, h1, h2, h3]; rfl
theorem applySts_refused (h : t.st.live = false ∨ streamWrite t = false ∨ streamCount t ≤ t.used) :
    applySts n e s = s.refuseCmd e.ins 0x051 := by
  subst ht
  refine if_pos ?_
  rcases h with h | h | h <;> simp only [h, decide_true, Bool.not_false, Bool.true_or, Bool.or_true]
/-- A running write stream of the core, or of nobody, takes the element. -/
theorem applySts_takes (hl : t.st.live = true) (hwr : streamWrite t = true) (hu : t.used < streamCount t) (hz : streamEsz t ≠ 4)
    (hc : t.claim = some .core ∨ t.claim = none) : applySts n e s = s.onCtx fun c => c.onStream n fun t => { t with
      claim := some .core, used := t.used + 1
      buf := t.buf ++ [{ val := BitVec.ofNat 128 (e.a.val.toNat % 2 ^ (8 * t.size)), poison := e.a.poison, ser := e.ser }] } := by
  subst ht
  have hclaim : ∃ c, s.ctx.claim n .core = some c ∧ c = s.ctx.onStream n fun t => { t with claim := some .core } := by
    rcases hc with hc | hc
    · refine ⟨s.ctx, by simp only [Ctx.claim, hc, if_true], ?_⟩
      rw [Ctx.onStream, modV_self _ _ _ {} (by rw [← hc])]
    · exact ⟨_, by simp only [Ctx.claim, hc, hl, if_true], rfl⟩
  obtain ⟨c, hc, rfl⟩ := hclaim
  simp only [applySts, hl, hwr, Nat.not_le.2 hu, hz, hc, Bool.not_true, decide_false, Bool.or_self, Bool.false_eq_true, if_false,
    Ctx.giveElem, Ctx.onStream, modV_modV, State.onCtx]
  congr 2
  exact modV_congr _ _ _ _ {} rfl
end Use
end Commands

/-! ### LDG (11 R242) -/

/-- Where no slot below has a form, its slot takes what stands first. -/
theorem Block.rank_of_none_below {b : Block} {k : Nat} {p : Instr → Bool}
    (h : ∀ y ∈ b.slots.take k, ∀ i, wordInstr y = some i → p i = false) (every : Bool) (a : Option Word) :
    b.rank k every p a = some 0 := by
  unfold Block.rank
  extract_lets l
  have hl : l = [] := List.filter_eq_nil_iff.2 fun ⟨y, _⟩ hy hform => by
    have hnot := h y (List.fst_mem_of_mem_zipIdx hy)
    unfold wordInstr at hnot
    cases hdec : decodeOpt y.word <;> simp_all
  rw [hl]; rfl
theorem State.headPlace_of_none {s : State} {k : Nat} {p : Instr → Bool}
    (hbelow : ∀ y ∈ s.fir.blk.slots.take k, ∀ i, wordInstr y = some i → p i = false)
    (hothers : ∀ f ∈ s.ctx.firs, ∀ e ∈ f.blk.effs, p e.ins = false) : s.headPlace k p = some 0 := by
  have htook : s.othersTook p = [] := List.flatMap_eq_nil_iff.2 fun f hf => List.filter_eq_nil_iff.2 fun e he =>
    ne_true_of_eq_false (hothers f hf e he)
  rw [State.headPlace, htook, Block.rank_of_none_below hbelow]; rfl

def isLdg (n : BitVec 5) : Instr → Bool | .ldg x .. => x == n | _ => false
theorem isLdg_eq_false {n : BitVec 5} {i : Instr} (h : ∀ a b, i ≠ .ldg n a b) : isLdg n i = false := by
  unfold isLdg
  split
  · next x a b => simpa using fun hx : x = n => h a b (hx ▸ rfl)
  · rfl

/-- A wait for an element returns with what the stream has for its place. -/
theorem State.Waits.evalWait_element {s : State} {k : Nat} {w : Wait} {sl : Slot} {n : BitVec 5} {t0 t1 : Cons} {v : Token} {st : Word}
    (h : s.Waits k w sl) (hon : w.on = .element n) (hdec : decode sl.word = .ok (.ldg n t0 t1)) (hp : s.headPlace k (isLdg n) = some 0)
    (hr : s.ldgResult n.toNat 0 = some (v, st)) : s.evalWait k =
    some ((if codeOf st = 0 || codeOf st = sPOISON then s.take k (.ldg n none none) else s).emitAt k
      [(t0, some v), (t1, some (tok st))]) := by
  have hplace (p : Instr → Bool) (heq : p = isLdg n) : s.headPlace k p = some 0 := heq ▸ hp
  have hslot (c : Bool) : (if c then s.take k (.ldg n none none) else s).fir.blk.slots.getD k { word := 0 } = sl := by
    have hslots : (if c then s.take k (.ldg n none none) else s).fir.blk.slots = s.fir.blk.slots := by cases c <;> rfl
    rw [hslots, List.getD_eq_getElem?_getD, h.slot]; rfl
  simp only [State.evalWait, h.bind_wait, h.not_willExpire, hon, Bool.false_eq_true, if_false]
  rw [hplace]
  · simp only [Option.bind_some, hr, hslot, twoTokens_eq hdec rfl]; rfl
  · rfl

section Ldg
variable {s : State} {n : BitVec 5}

/-- LDG as it claims the stream. -/
def State.ldgClaimed (s : State) (n : BitVec 5) : State :=
  let t := s.ctx.streams.getD n.toNat {}
  if t.st.live && !streamWrite t && streamEsz t ≠ 4 && t.claim.isNone then
    s.onCtx fun c => c.onStream n.toNat fun t => { t with claim := some .core }
  else s
/-- The issuing slot waits for an element. -/
def State.awaitsElement (s : State) (n : BitVec 5) : State := s.setWait s.fir.blk.cur { on := .element n, expiry := none }

theorem State.ldgClaimed_fir : (s.ldgClaimed n).fir = s.fir := by
  unfold State.ldgClaimed
  dsimp only
  split <;> rfl
theorem exec_ldg_returns {u : State} {sl : Slot} {t0 t1 : Cons} {v : Token} {st : Word} (hu : s.ldgClaimed n = u)
    (hi : u.Issues sl (.ldg n t0 t1) t0 t1) (hp : (u.awaitsElement n).headPlace u.fir.blk.cur (isLdg n) = some 0)
    (hr : u.ldgResult n.toNat 0 = some (v, st)) : exec (.ldg n t0 t1) s = .next
    ((if codeOf st = 0 || codeOf st = sPOISON then (u.awaitsElement n).take u.fir.blk.cur (.ldg n none none)
      else u.awaitsElement n).emit [(t0, v), (t1, tok st)]) := by
  have hcur : s.fir.blk.cur = u.fir.blk.cur := by rw [← hu, State.ldgClaimed_fir]
  have hev := (hi.waits { on := .element n, expiry := none }).evalWait_element rfl hi.dec hp hr
  show execLdg n t0 t1 s = _
  have hexec : execLdg n t0 t1 s = match (u.awaitsElement n).evalWait u.fir.blk.cur with
      | some s => .next s
      | none => .next (u.awaitsElement n) := by
    rw [State.awaitsElement, ← hcur, ← hu]; rfl
  rw [hexec, State.awaitsElement, hev]
  generalize (decide (codeOf st = 0) || decide (codeOf st = sPOISON)) = taken
  cases taken <;> rfl

section Result
variable {t : Stream} (ht : s.ctx.streams.getD n.toNat {} = t)
include ht
theorem State.ldgResult_unread (h : t.st = .undef ∨ streamWrite t = true) : s.ldgResult n.toNat 0 = some ({}, fault 0x052 0) := by
  subst ht
  refine if_pos ?_
  rcases h with h | h <;> simp only [h, decide_true, Bool.true_or, Bool.or_true]
theorem State.ldgResult_end (h : t.st = .idle) (hwr : streamWrite t = false) (hb : t.buf = []) :
    s.ldgResult n.toNat 0 = some ({}, status sEMPTY 0 0) := by
  subst ht
  simp only [State.ldgResult, h, hwr, hb]; rfl
theorem State.ldgResult_element {x : Elem} {l : List Elem} (hl : t.st.live = true) (hwr : streamWrite t = false) (hz : streamEsz t ≠ 4)
    (hc : t.claim = some .core) (hb : t.buf = x :: l) : s.ldgResult n.toNat 0 =
    some (⟨x.val.setWidth 64, x.poison⟩, status (if x.poison then 8 else 0) 0 (t.used % 2 ^ 48)) := by
  subst ht
  have hdef : (s.ctx.streams.getD n.toNat {}).st ≠ .undef := by rintro h; rw [h] at hl; cases hl
  simp only [State.ldgResult, hdef, hl, hwr, hz, hc, hb]; rfl
theorem State.ldgClaimed_of_not_read (h : t.st.live = false ∨ streamWrite t = true) : s.ldgClaimed n = s := by
  subst ht
  refine if_neg ?_
  rcases h with h | h <;> simp only [h, Bool.not_true, Bool.false_and, Bool.and_false, Bool.false_eq_true, not_false_eq_true]
/-- A running read stream that nobody else has claimed is the core's. -/
theorem State.ldgClaimed_read (hl : t.st.live = true) (hwr : streamWrite t = false) (hz : streamEsz t ≠ 4)
    (hc : t.claim = none ∨ t.claim = some .core) :
    s.ldgClaimed n = s.onCtx fun c => c.onStream n.toNat fun t => { t with claim := some .core } := by
  subst ht
  rcases hc with hc | hc
  · refine if_pos ?_
    simp only [hl, hwr, hz, hc, ne_eq, not_false_eq_true, decide_true]; rfl
  · have hself : (s.ctx.onStream n.toNat fun t => { t with claim := some .core }) = s.ctx := by
      rw [Ctx.onStream, modV_self _ _ _ {} (by rw [← hc])]
    rw [State.onCtx, hself]
    simp only [State.ldgClaimed, hc]
    exact if_neg (by simp)
end Result
end Ldg

/-- Settles O31: each command by the state of its stream, LDG by what its wait finds. -/
theorem streamCommandsApply : Obligations.StreamCommandsApply := by
  intro s e n t0 t1 t put refused
  refine ⟨fun hw => ⟨fun hws hl => ?_, exec_agen_cmd_waits hw, fun hws hl hbad => ?_, fun hws hl hwp hok hm => ?_, fun h => ?_,
    fun h hm => ?_, fun hl => ?_, fun hl => ?_, fun hl => ?_, exec_abar_cmd hw, fun h => ?_, fun h hwr hm hz h1 h2 h3 => ?_, fun h => ?_,
    fun hl hwr hu hz hc => ?_⟩, fun hlog sl hsl hdec hbelow hothers => ?ldg⟩
  · exact (exec_agen_cmd_read hw hws).trans (congrArg _ (applyAgen_live (s := s.popLq e) hl))
  · exact (exec_agen_cmd_read hw hws).trans (congrArg _ (applyAgen_bad (s := s.popLq e) hl hbad))
  · exact (exec_agen_cmd_read hw hws).trans (congrArg _ (applyAgen_ok (s := s.popLq e) hl hwp hok hm))
  · exact (exec_astart_cmd hw).trans (congrArg _ (applyAstart_undef (s := s.popLq e) h))
  · exact (exec_astart_cmd hw).trans (congrArg _ (applyAstart_idle (s := s.popLq e) h hm))
  · exact (exec_astart_cmd hw).trans (congrArg _ (applyAstart_live (s := s.popLq e) hl))
  · exact (exec_astop_cmd hw).trans (congrArg _ (applyAstop_idle (s := s.popLq e) hl))
  · have hstream := Ctx.streamIdle_stream ((s.popLq e).ctx.onStream n.toNat fun t => { t with eng := [], engOn := false }) n.isLt
    have hleft : (modV s.ctx.streams n.toNat fun t => { t with eng := [], engOn := false }).getD n.toNat {}
        = { t with eng := [], engOn := false } := by rw [getV_modV, if_pos ⟨rfl, n.isLt⟩]
    have hidle := hstream.trans (congrArg Stream.toIdle hleft)
    exact ⟨_, (exec_astop_cmd hw).trans (congrArg _ (applyAstop_live (s := s.popLq e) hl)), (congrArg Stream.st hidle :),
      (congrArg Stream.desc hidle :), (congrArg Stream.buf hidle :), rfl, rfl⟩
  · exact (exec_ldw_cmd hw).trans (congrArg _ (applyLdw_notIdle (s := s.popLq e) h))
  · exact (exec_ldw_cmd hw).trans (congrArg _ (applyLdw_bed (s := s.popLq e) rfl h hwr hm hz h1 h2 h3))
  · exact (exec_sts_cmd hw).trans (congrArg _ (applySts_refused (s := s.popLq e) rfl h))
  · exact (exec_sts_cmd hw).trans (congrArg _ (applySts_takes (s := s.popLq e) rfl hl hwr hu hz hc))
  case ldg =>
    intro waiting
    have hi : s.Issues sl (.ldg n t0 t1) t0 t1 := ⟨hsl, hlog, hdec, rfl⟩
    have hplace {u : State} (hfir : u.fir = s.fir) (hfirs : u.ctx.firs = s.ctx.firs) :
        (u.awaitsElement n).headPlace u.fir.blk.cur (isLdg n) = some 0 := by
      refine State.headPlace_of_none (fun y hy i hy' => isLdg_eq_false ?_) fun f hf x hx => isLdg_eq_false (hothers f ?_ x hx)
      · rintro a b rfl
        refine hbelow y ?_ a b hy'
        simpa only [State.awaitsElement, State.setWait, State.onBlk_fir, Block.onSlot, take_modAt, hfir] using hy
      · rw [← hfirs]; exact hf
    refine ⟨fun h => ?_, fun h hwr hb => ?_, fun hl hwr hz hc x l hb => ?_⟩
    · have hclaim : s.ldgClaimed n = s := State.ldgClaimed_of_not_read (t := t) rfl (h.imp_left fun h => by rw [h]; rfl)
      exact exec_ldg_returns hclaim hi (hplace rfl rfl) (State.ldgResult_unread (t := t) rfl h)
    · have hclaim : s.ldgClaimed n = s := State.ldgClaimed_of_not_read (t := t) rfl (.inl (by rw [h]; rfl))
      exact exec_ldg_returns hclaim hi (hplace rfl rfl) (State.ldgResult_end (t := t) rfl h hwr hb)
    · have hclaim := State.ldgClaimed_read (s := s) (t := t) rfl hl hwr hz hc
      have hstream : (modV s.ctx.streams n.toNat fun t => { t with claim := some .core }).getD n.toNat {}
          = { t with claim := some .core } := by rw [getV_modV, if_pos ⟨rfl, n.isLt⟩]
      have hexec := exec_ldg_returns hclaim (t0 := t0) (t1 := t1) ⟨hsl, hlog, hdec, rfl⟩ (hplace rfl rfl)
        (State.ldgResult_element (t := { t with claim := some .core }) hstream hl hwr hz rfl hb)
      rw [codeOf_status (by split <;> decide)] at hexec
      cases hx : x.poison <;> simp only [hx] at hexec ⊢ <;> exact hexec

end Sys2Proof.Machine
end

-- ==== Proofs of the stream family: an element of 32 bytes (11 R237, R238) ====
section
/-! PROOFS. STREAM_ELEMENT of a stream whose ESZ is 5. The field has three bits (11 R237); AGEN refuses a descriptor with more than 4
there (`Stream.fieldsOk`), a state in general holds any, and an element has 16 bytes. Up to that size the clause on reads holds
(`exec_streamElement_plainRead`). -/

namespace Sys2Proof.Machine

section Read
variable {s : State} {n : BitVec 5} {t : Stream}

/-- A running read stream of window elements in order, without transform and bank group. -/
structure Stream.PlainRead (t : Stream) : Prop where
  run : t.st = .run
  read : streamWrite t = false
  mode : t.mode = 0
  win : t.win = true
  gv : t.gv = false
  bed : t.bed = none

/-- The address of the next element of MODE 0 (11 R238). -/
def Stream.nextAddr (t : Stream) : Word :=
  t.w 0 + BitVec.ofNat 64 (t.k % t.n 0) * t.w 3 + BitVec.ofNat 64 (t.k / t.n 0 % t.n 1) * t.w 4
    + BitVec.ofNat 64 (t.k / (t.n 0 * t.n 1) % t.n 2) * t.w 5 + BitVec.ofNat 64 (t.k / (t.n 0 * t.n 1 * t.n 2)) * t.w 6

variable (ht : s.ctx.streams.getD n.toNat {} = t) (hp : t.PlainRead) (hk : (s.ctx.portSet t).rd.kind = 0)
include ht hp hk

theorem State.aim_plainRead {k : Nat} (hw : s.window t.nextAddr t.size = .ok (.mem k)) :
    s.aim n.toNat .rd 0 = (.to (.mem k) t.nextAddr, s) := by
  have hcfg : s.ctx.cfgOf t = (s.ctx.portSet t).rd := if_neg (ne_true_of_eq_false hp.read)
  have haddr (x : Word) : t.addr t.k x = some t.nextAddr := by
    simp only [Stream.addr, hp.mode]; rfl
  have hplace : s.streamPlace t .rd t.nextAddr t.size = (.ok (.mem k), s) := by
    simp only [State.streamPlace, hp.win, hw, hp.gv]; rfl
  have hkind : (s.ctx.portSet t).rd.kind ≠ 1 := by rw [hk]; decide
  have hlow : ¬2 ≤ (s.ctx.portSet t).rd.kind.toNat := by rw [hk]; decide
  have htrans : transOf (s.ctx.portSet t).rd t.k = t.k := if_neg hkind
  simp only [State.aim, ht, hcfg, htrans, hp.bed, hp.mode, hp.read, hkind, hlow, haddr, Stream.width, hplace, Option.isSome_none,
    Option.isNone_none, OfNat.zero_ne_ofNat, decide_false, Bool.and_false, Bool.false_and, Bool.or_self, Bool.false_eq_true, if_false]

theorem State.streamElement_plainRead {k : Nat} (hacc : t.k < t.accesses) (hroom : t.buf.length < 128) (hu : s.dev.upsets = [])
    (heng : s.ctx.engineOnly n.toNat = false) (hbar : s.ctx.barred n.toNat = false) (hw : s.window t.nextAddr t.size = .ok (.mem k)) :
    exec (.streamElement n) s = .next (s.deliverElem n.toNat
      { val := BitVec.ofNat 128 (s.mem.read (s.kvOf s.who4 k) k t.size)
        poison := s.mem.poisoned k || (decide (t.size = 16) && s.mem.poisoned (k + 8)) }) := by
  have hcfg : s.ctx.cfgOf t = (s.ctx.portSet t).rd := if_neg (ne_true_of_eq_false hp.read)
  have hnot : ¬(t.accesses ≤ t.k) := Nat.not_le.2 hacc
  have hless : ¬readAhead ≤ t.buf.length := Nat.not_le.2 hroom
  have hkind : (s.ctx.portSet t).rd.kind ≠ 3 := by rw [hk]; decide
  show execStreamElement n s = _
  simp only [execStreamElement, ht, hp.read, hp.run, hbar, heng, hnot, hless, hcfg, Bool.false_and, Bool.false_eq_true, if_false,
    State.aim_plainRead ht hp hk hw, hp.bed, Stream.width, State.readElem, State.touch_of_no_upsets hu, hkind, decide_false,
    Bool.and_false, ne_eq, not_true_eq_false, Bool.not_false, Bool.or_self, Option.isSome_none]
  rfl

/-- The stream with one more element read. -/
def Stream.readNext (t : Stream) (e : Elem) : Stream := { t with k := t.k + 1, buf := t.buf ++ [e] }
/-- The stream with one more element read and its index dropped. -/
def Stream.received (t : Stream) (e : Elem) : Stream := { t with k := t.k + 1, buf := t.buf ++ [e], idx := t.idx.drop 1 }

theorem State.deliverElem_plainRead (e : Elem) :
    s.deliverElem n.toNat e = s.onCtx fun c => c.onStream n.toNat (·.received e) := by
  have hcfg : s.ctx.cfgOf t = (s.ctx.portSet t).rd := if_neg (ne_true_of_eq_false hp.read)
  have hpush : t.push (s.ctx.cfgOf t) e = t.readNext e := by
    rw [hcfg]
    simp only [Stream.push, hp.bed, hk]
    split
    · next h => exact absurd h (by split <;> decide)
    · next h => exact absurd h (by split <;> decide)
    · simp only [Stream.readNext, hp.bed]
  have hget (f : Stream → Stream) : (modV s.ctx.streams n.toNat f).getD n.toNat {} = f t := by
    rw [getV_modV, if_pos ⟨rfl, n.isLt⟩, ht]
  have hread : (s.ctx.onStream n.toNat fun t' => t'.push (s.ctx.cfgOf t) e) = s.ctx.onStream n.toNat (·.readNext e) := by
    rw [Ctx.onStream, modV_congr _ _ _ (·.readNext e) {} (by rw [ht, hpush]), Ctx.onStream]
  have hkind : ((s.ctx.onStream n.toNat (·.readNext e)).cfgOf (t.readNext e)).kind ≠ 1 := by
    have hcfg' : (s.ctx.onStream n.toNat (·.readNext e)).cfgOf (t.readNext e) = (s.ctx.portSet t).rd := if_neg (ne_true_of_eq_false hp.read)
    rw [hcfg', hk]; decide
  have hdrop : (s.ctx.onStream n.toNat (·.readNext e)).dropIndex n.toNat = s.ctx.onStream n.toNat (·.received e) := by
    have hstream : (s.ctx.onStream n.toNat (·.readNext e)).streams.getD n.toNat {} = t.readNext e := hget _
    rw [Ctx.dropIndex, hstream, if_neg hkind, Ctx.onStream, Ctx.onStream, modV_modV]; rfl
  have hsettle : (s.ctx.onStream n.toNat (·.received e)).settle n.toNat = s.ctx.onStream n.toNat (·.received e) := by
    have hstream : (s.ctx.onStream n.toNat (·.received e)).streams.getD n.toNat {} = t.received e := hget _
    rw [Ctx.settle, hstream]
    exact if_neg (by simp [Stream.received])
  rw [State.deliverElem, State.onCtx, ht]
  dsimp only
  rw [hread, hdrop, hsettle]; rfl

/-- With elements of up to 16 bytes, as AGEN defines them, the read clause of O32 holds. -/
theorem exec_streamElement_plainRead {k : Nat} (hacc : t.k < t.accesses) (hroom : t.buf.length < 128) (hu : s.dev.upsets = [])
    (heng : s.ctx.engineOnly n.toNat = false) (hbar : s.ctx.barred n.toNat = false) (hw : s.window t.nextAddr t.size = .ok (.mem k))
    (hsize : t.size ≤ 16) : ∃ e : Elem, s.mem.Holds (s.kvOf s.who4 k) k t.size e.val.toNat
      ∧ e.poison = (s.mem.poisoned k || (decide (t.size = 16) && s.mem.poisoned (k + 8)))
      ∧ exec (.streamElement n) s = .next (s.onCtx fun c => c.onStream n.toNat (·.received e)) := by
  have hlt : s.mem.read (s.kvOf s.who4 k) k t.size < 2 ^ 128 :=
    (Memory.read_lt ..).trans_le (Nat.pow_le_pow_right (show 256 > 0 by decide) hsize)
  refine ⟨_, ?_, rfl, (State.streamElement_plainRead ht hp hk hacc hroom hu heng hbar hw).trans
    (congrArg _ (State.deliverElem_plainRead ht hp hk _))⟩
  rw [BitVec.toNat_ofNat, Nat.mod_eq_of_lt hlt]
  exact Memory.holds_read ..
end Read

/-- A number of 16 bytes tells nothing but 0 of the bytes behind them. -/
theorem Memory.Holds.byte_eq_zero {m : Memory} {kv : Option (BitVec 512)} {k n i : Nat} {v : BitVec 128} (h : m.Holds kv k n v.toNat)
    (hi : i < n) (h16 : 16 ≤ i) : (m.view kv (k + i)).toNat = 0 := by
  have hlt : v.toNat < 256 ^ i := v.isLt.trans_le (Nat.pow_le_pow_right (show 256 > 0 by decide) h16)
  rw [← h.2 i hi, Nat.div_eq_of_lt hlt]

/-- A running read stream of one element of 32 bytes at window offset 0. -/
def wideStream : Stream := { st := .run, desc := [0, 0x150, 0x1000100010001] }
/-- Stream 0 is that stream, and byte 16 of the window is 1. -/
def wideState : State :=
  { ctx := { streams := (Vector.replicate 32 {}).set 0 wideStream }, mem := { cells := [(({} : Ctx).winKey 0 + 16, 1)] } }

theorem wideState_window : wideState.window 0 wideStream.size = .ok (.mem (({} : Ctx).winKey 0)) := by decide
theorem wideState_byte (kv : Option (BitVec 512)) : (wideState.mem.view kv (({} : Ctx).winKey 0 + 16)).toNat = 1 := by
  cases kv <;> rfl

/-- Refutes O32: its clause on a read quantifies over every stream, and so over one of elements of 32 bytes (`wideState`), which no
element of 16 bytes holds; `exec_streamElement_plainRead` is the clause for the sizes that AGEN accepts. -/
theorem not_streamElementMoves : ¬ Obligations.StreamElementMoves := by
  intro h
  obtain ⟨_, hread, _⟩ := h wideState 0
  obtain ⟨_, hmoves⟩ := hread rfl rfl rfl
  obtain ⟨hplaced, _⟩ := hmoves (by decide) (by decide) rfl rfl rfl rfl rfl rfl rfl
  obtain ⟨e, hholds, _⟩ := hplaced _ wideState_window
  have hzero := hholds.byte_eq_zero (i := 16) (by decide) (by decide)
  rw [wideState_byte] at hzero
  exact absurd hzero (by decide)

end Sys2Proof.Machine
end

-- ==== Proofs of the stream family: ports, rings and RESUME applied (11 R252 to R256) ====
section
/-! PROOFS. The commands on ports and rings as their engine applies them: PXFORM and PMERGE by the live streams of their side, RINGDEF by
the messages of its ring, RESUME by the port that it names. -/

namespace Sys2Proof.Machine

section Apply
variable {s : State} {e : Eff} {p : BitVec 4} (hw : s.who = .cmd e)
include hw
theorem exec_pxform_cmd : exec (.pxform p) s = .next (applyPxform p.toNat e (s.popLq e)) := by
  show execPxform p s = _
  rw [execPxform, hw]
theorem exec_pmerge_cmd : exec (.pmerge p) s = .next (applyPmerge p.toNat e (s.popLq e)) := by
  show execPmerge p s = _
  rw [execPmerge, hw]
theorem exec_ringdef_cmd : exec (.ringdef p) s = .next (applyRingdef p.toNat e (s.popLq e)) := by
  show execRingdef p s = _
  rw [execRingdef, hw]
theorem exec_resume_cmd : exec .resume s = .next (applyResume e (s.popLq e)) := by
  show execResume s = _
  rw [execResume, hw]
end Apply

section Ports
variable {s : State} {e : Eff} {p : Nat} {l : List Nat}

/-- A setting of a side with no live stream takes effect at once. -/
theorem applyPxform_now (h : s.ctx.liveOn p (!e.a.val.getLsbD 0) = []) :
    applyPxform p e s = s.onCtx fun c => { c with
      ports := modV c.ports p fun x => if e.a.val.getLsbD 0 then { x with rd := pxformCfg e.a.val, nextRd := none }
      else { x with wr := pxformCfg e.a.val, nextWr := none } } := by
  simp only [applyPxform, h]
  cases e.a.val.getLsbD 0 <;> rfl
theorem applyPxform_later (hl : l ≠ []) (h : s.ctx.liveOn p (!e.a.val.getLsbD 0) = l) :
    applyPxform p e s = s.onCtx fun c => { c with
      ports := modV c.ports p fun x => if e.a.val.getLsbD 0 then { x with nextRd := some (pxformCfg e.a.val, l) }
      else { x with nextWr := some (pxformCfg e.a.val, l) } } := by
  simp only [applyPxform, h, List.isEmpty_eq_false_iff.2 hl]
  cases e.a.val.getLsbD 0 <;> rfl
theorem applyPmerge_now (h : s.ctx.liveOn p true = []) : applyPmerge p e s = s.onCtx fun c => { c with
    ports := modV c.ports p fun x => { x with merge := MergeOp.dec (bitsN e.a.val 2 0), nextMerge := none } } := by
  simp only [applyPmerge, h]; rfl
theorem applyPmerge_later (hl : l ≠ []) (h : s.ctx.liveOn p true = l) : applyPmerge p e s = s.onCtx fun c => { c with
    ports := modV c.ports p fun x => { x with nextMerge := some (MergeOp.dec (bitsN e.a.val 2 0), l) } } := by
  simp only [applyPmerge, h, List.isEmpty_eq_false_iff.2 hl]; rfl

/-! ### RESUME (11 R256) -/

section Resume
variable (hp : s.ctx.id.present = true) (hnum : bitsN e.a.val 1 0 = s.ctx.id.num.toNat) (hz : bitsN e.a.val 7 2 = 0)
include hp hnum hz
/-- RESUME of the own context acts when the port that it names is held. -/
theorem applyResume_own : applyResume e s =
    if s.ctx.portHeld (bitsN e.a.val 9 8) (bitsN e.a.val 14 10) then
      s.resumePath (bitsN e.a.val 9 8) (bitsN e.a.val 14 10) (e.a.val.getLsbD 15)
    else s.refuseCmd e.ins 0x051 := by
  have hown : BitVec.ofNat 2 (bitsN e.a.val 1 0) = s.ctx.id.num := by rw [hnum]; simp
  simp only [applyResume, hown, State.ctxAt_focus hp, hz, State.within_focus _ rfl hp, ne_eq, not_true_eq_false, false_or]
  cases s.ctx.portHeld (bitsN e.a.val 9 8) (bitsN e.a.val 14 10) <;> rfl
end Resume

/-! ### RINGSTAT (11 R255) -/

theorem ringWord_undef {r : Ring} (h : r.defd = false) : ringWord r = 0 := by
  rw [ringWord, h]; rfl
theorem ringWord_fields {r : Ring} (h : r.defd = true) : (ringWord r).getLsbD 63 = true ∧ (ringWord r).getLsbD 62 = r.whole
    ∧ bitsN (ringWord r) 61 46 = 0 ∧ bitsN (ringWord r) 45 32 = r.head % 2 ^ 14 ∧ bitsN (ringWord r) 31 16 = r.free % 2 ^ 16
    ∧ bitsN (ringWord r) 15 0 = Nat.min (r.msgs.filter (!·.pad)).length 65535 := by
  have hhead : r.head % 2 ^ 14 < 2 ^ 14 := Nat.mod_lt _ (by decide)
  have hfree : r.free % 65536 < 65536 := Nat.mod_lt _ (by decide)
  have hmsgs : Nat.min (r.msgs.filter (!·.pad)).length 65535 < 65536 := Nat.lt_succ_of_le (Nat.min_le_right ..)
  have htrue := Bool.toNat_true
  rw [ringWord, if_pos h]
  generalize r.head % 2 ^ 14 = head at *
  generalize r.free % 65536 = free at *
  generalize Nat.min (r.msgs.filter (!·.pad)).length 65535 = msgs at *
  cases r.whole with
  | false =>
    simp only [Bool.false_eq_true, if_false]
    exact ⟨getLsbD_ofNat_of_field (by decide) (by omega), getLsbD_ofNat_of_field (by decide) (by simp; omega),
      bitsN_ofNat_of_field (by omega) (by omega), bitsN_ofNat_of_field (by omega) (by omega),
      bitsN_ofNat_of_field (by omega) (by omega), bitsN_ofNat_of_field (by omega) (by omega)⟩
  | true =>
    simp only [if_true]
    exact ⟨getLsbD_ofNat_of_field (by decide) (by omega), getLsbD_ofNat_of_field (by decide) (by omega),
      bitsN_ofNat_of_field (by omega) (by omega), bitsN_ofNat_of_field (by omega) (by omega),
      bitsN_ofNat_of_field (by omega) (by omega), bitsN_ofNat_of_field (by omega) (by omega)⟩

end Ports

/-- Settles O33: each command by the part of the context that it reads; RINGSTAT by the fields of its word. -/
theorem portAndRingCommandsApply : Obligations.PortAndRingCommandsApply := by
  intro s e p t0 t1
  refine ⟨fun hw => ⟨⟨fun h => ?_, fun l hl h => ?_, fun h => ?_, fun l hl h => ?_⟩, fun h => ?_, fun h => ?_, fun hp _ hnum hz =>
    ⟨fun hheld => ?_, fun hpath hst hskip => ?_⟩⟩, ringWord (s.ctx.rings.getD p.toNat {}), rfl, ringWord_undef, ringWord_fields⟩
  · exact (exec_pxform_cmd hw).trans (congrArg _ (applyPxform_now (s := s.popLq e) h))
  · exact (exec_pxform_cmd hw).trans (congrArg _ (applyPxform_later (s := s.popLq e) hl h))
  · exact (exec_pmerge_cmd hw).trans (congrArg _ (applyPmerge_now (s := s.popLq e) h))
  · exact (exec_pmerge_cmd hw).trans (congrArg _ (applyPmerge_later (s := s.popLq e) hl h))
  · exact (exec_ringdef_cmd hw).trans (congrArg _ (if_pos h))
  · exact (exec_ringdef_cmd hw).trans (congrArg _ (if_neg (ne_true_of_eq_false h)))
  · rw [exec_resume_cmd hw, applyResume_own (s := s.popLq e) hp hnum hz]
    exact congrArg _ (if_neg (ne_true_of_eq_false hheld))
  · rw [exec_resume_cmd hw, applyResume_own (s := s.popLq e) hp hnum hz, hpath, hskip]
    exact congrArg _ (if_pos (decide_eq_true hst))

end Sys2Proof.Machine
end

-- ==== Proofs of the stream family: atomics (11 R247 to R251; 04 R102, R103) ====
section
/-! PROOFS. AMO, CAS and AMOV at the core, by the place of the target, and their updates as the units take them: outside fixed order a
unit takes one when its window has room. -/

namespace Sys2Proof.Machine

/-! ### Issue of AMO and CAS (11 R247, R248) -/

section Issue
variable {s u : State} {i : Instr} {ret : Bool} {n : Nat}

theorem Ctx.recordOk_iff {c : Ctx} {b : Word} : c.recordOk b = true ↔ b.toNat % 32 = 0 ∧ b.toNat + 32 ≤ c.winSize := by
  simp [Ctx.recordOk]
theorem issueAtomic_poison (hp : s.opA.poison = true) : issueAtomic i ret n s = .next (s.slotFault 4 0 0 0) := by
  rw [issueAtomic, if_pos (by simp [hp])]; rfl

section Unpoisoned
variable (ha : s.opA.poison = false) (hb : s.opB.poison = false)
include ha hb

theorem issueAtomic_badRecord (hr : s.ctx.recordOk s.b = false) : issueAtomic i true n s = .next (s.slotFault 6 0x030 s.b 0) := by
  rw [issueAtomic, if_neg (by simp [ha, hb]), if_pos (by simpa [State.b] using hr)]; rfl
variable (hr : (ret && !s.ctx.recordOk s.b) = false)
include hr
theorem issueAtomic_placed {l} (h : s.amoPlace s.a 0 n = (.ok l, u)) : issueAtomic i ret n s =
    .next ((u.hold { slot := 0, ins := i, a := s.opA, b := s.opB
                     locs := if ret then [l, .mem (u.ctx.winKey s.b.toNat)] else [l]
                     ws := [s.b], wp := [false], keyslot := u.keySeen }).emit ((instrCons i).map fun c => (c, ⟨0, false⟩))) := by
  rw [State.a] at h
  rw [State.b] at hr
  rw [issueAtomic, if_neg (by simp [ha, hb]), if_neg (ne_true_of_eq_false hr), h, hb]; rfl
theorem issueAtomic_fault {d} (h : s.amoPlace s.a 0 n = (.error d, u)) : issueAtomic i ret n s = .next (u.slotFault 5 d s.a 2) := by
  rw [State.a] at h
  rw [State.b] at hr
  rw [issueAtomic, if_neg (by simp [ha, hb]), if_neg (ne_true_of_eq_false hr), h]; rfl
end Unpoisoned

variable {op : AmoOp} {ty : AmoTy} {w : Bool} {t0 t1 : Cons} (hw : s.who = .core)
include hw
theorem exec_amo_core : exec (.amo op ty t0 t1) s = issueAtomic (.amo op ty t0 t1) (amoReturns op) (amoSize ty) s := by
  show execAmo op ty t0 t1 s = _
  rw [execAmo, hw]
theorem exec_cas_core : exec (.cas w t0 t1) s = issueAtomic (.cas w t0 t1) true (if w then 8 else 4) s := by
  show execCas w t0 t1 s = _
  rw [execCas, hw]
end Issue

/-! ### Issue of AMOV (11 R247, R250) -/

section Amov
variable {s : State} {a : Word}

/-- An aligned word of the window that an address token and an index name. -/
theorem State.amoPlace_window (h63 : a.getLsbD 63 = false) (h61 : bitsN a 61 56 = 0) (h62 : a.getLsbD 62 = true) (hal : a.toNat % 4 = 0)
    (x : Half) (hin : bitsN a 55 0 + 4 * x.toNat < s.ctx.winSize) :
    s.amoPlace a (4 * x.setWidth 64) 4 = (.ok (.mem (s.ctx.winKey (bitsN a 55 0 + 4 * x.toNat))), s) := by
  have hx := x.isLt
  have hbase : bitsN a 55 0 = a.toNat % 2 ^ 56 := by simp [bitsN_eq_div_mod]
  have hsum : (BitVec.ofNat 64 (bitsN a 55 0) + 4 * x.setWidth 64).toNat = bitsN a 55 0 + 4 * x.toNat := by
    rw [hbase]
    simp
    omega
  have hmod : (bitsN a 55 0 + 4 * x.toNat) % 4 = 0 := by omega
  simp only [State.amoPlace, h63, h61, h62, State.window, hsum, hmod, Nat.not_le.2 hin, ne_eq, not_true_eq_false, decide_false,
    Bool.or_self, Bool.false_eq_true, if_false, if_true]

/-- Places that leave the state are those of the lanes in turn. -/
theorem State.amovPlaces_ok {f : Nat → Word} {g : Nat → Loc} {ls : List Nat}
    (h : ∀ l ∈ ls, s.amoPlace a (4 * f l) 4 = (.ok (g l), s)) : s.amovPlaces a f ls = (.ok (ls.map g), s) := by
  induction ls with
  | nil => rfl
  | cons l ls ih =>
    rw [State.amovPlaces, h l List.mem_cons_self]
    simp only [ih fun x hx => h x (List.mem_cons_of_mem _ hx), List.map_cons]

variable {m : AmovOp} {va : BitVec 5} {q : BitVec 2} {t0 : Cons} (hw : s.who = .core) (hp : s.opA.poison = false)
include hw hp
theorem exec_amov_reserved (hls : s.activeLanes q = []) (hr : s.a.getLsbD 63 = true ∨ bitsN s.a 61 56 ≠ 0) :
    exec (.amov m va q t0) s = .next (s.slotFault 5 dADDR s.a 2) := by
  show execAmov m va q t0 s = _
  have hbad : (s.opA.val.getLsbD 63 || bitsN s.opA.val 61 56 ≠ 0) = true := by simpa [State.a] using hr
  simp only [execAmov, hw, hp, hls, hbad]; rfl
theorem exec_amov_placed {g : Nat → Loc} (hvp : ∀ l ∈ s.activeLanes q, s.vp q va l = false) (h63 : s.a.getLsbD 63 = false)
    (h61 : bitsN s.a 61 56 = 0) (hal : s.a.toNat % 4 = 0)
    (hg : ∀ l ∈ s.activeLanes q, s.amoPlace s.a (4 * (s.vl q va l).setWidth 64) 4 = (.ok (g l), s)) :
    exec (.amov m va q t0) s = .next (if s.activeLanes q = [] then s.emit [(t0, ⟨0, false⟩)] else
      (s.hold { slot := 0, ins := .amov m va q t0, a := s.opA, b := s.opB, locs := (s.activeLanes q).map g
                ws := s.b :: (s.activeLanes q).map fun l => 4 * (s.vl q va l).setWidth 64
                wp := [s.opB.poison], keyslot := s.keySeen }).emit [(t0, ⟨0, false⟩)]) := by
  show execAmov m va q t0 s = _
  have hpois : (s.activeLanes q).any (s.lpois q va) = false := List.any_eq_false.2 fun l hl => ne_true_of_eq_false (hvp l hl)
  have hplaces := State.amovPlaces_ok hg
  simp only [State.a, State.vl] at h63 h61 hal hplaces
  simp only [execAmov, hw, hp, hpois, h63, h61, hal, hplaces, ne_eq, not_true_eq_false, decide_false, Bool.or_self, Bool.and_false,
    Bool.false_eq_true, false_and, if_false, List.isEmpty_map]
  cases s.activeLanes q <;> rfl
end Amov

/-! ### Hand-over (04 R102, R103) -/

section HandOver
variable {s : State} {e : Eff} {k : Nat} {r : List Loc}

/-- What a change makes of a unit, where it keeps its number. -/
theorem State.usu_onUsu {n : Nat} {f : USU → USU} (hf : ∀ u, (f u).num = n) : (s.onUsu n f).usu n = f (s.usu n) := by
  have hfind (l : List USU) : (l.map fun u => if u.num = n then f u else u).find? (·.num == n) = (l.find? (·.num == n)).map f := by
    induction l with
    | nil => rfl
    | cons u l ih =>
      by_cases hu : u.num = n
      · simp [hu, hf]
      · simp [hu, ih]
  simp only [State.usu, State.onUsu, State.onDev_dev, putUsu]
  split
  · next hany =>
    obtain ⟨v, hv⟩ := Option.isSome_iff_exists.1 (List.find?_isSome.2 (List.any_eq_true.1 hany))
    rw [hfind, hv]; rfl
  · next hany =>
    have hnone : s.dev.units.find? (·.num == n) = none := by simpa using hany
    simp [List.find?_append, hnone, hf]
theorem State.usu_num (s : State) (n : Nat) : (s.usu n).num = n := by
  unfold State.usu
  cases h : s.dev.units.find? (·.num == n) with
  | none => rfl
  | some u => simpa using List.find?_some h

/-- A unit with the update joined to its window. -/
def USU.joined (u : USU) (x : Update) : USU := { u with window := u.window ++ [x] }
theorem State.usu_joined (n : Nat) (x : Update) : (s.onUsu n fun _ => (s.usu n).joined x).usu n = (s.usu n).joined x :=
  State.usu_onUsu fun _ => s.usu_num n

section Free
variable (hf : e.fix = false) (hl : e.locs = .mem k :: r)
include hf hl
theorem applyAtomic_full (h : 32 ≤ (s.usu (unitOf k)).window.length) : applyAtomic e s = s := by
  have hnone : s.offer (s.updateOf e k) = none := by
    have hfix : (s.updateOf e k).fixed = false := hf
    have hkey : (s.updateOf e k).key = k := rfl
    simp [State.offer, USU.offer, hfix, hkey, Nat.not_lt.2 h]
  simp only [applyAtomic, hl, hnone, hf, Bool.false_eq_true, if_false]
theorem applyAtomic_joins (h : (s.usu (unitOf k)).window.length < 32) : applyAtomic e s =
    (s.onUsu (unitOf k) fun _ => (s.usu (unitOf k)).joined (s.updateOf e k)).putLq e e.restLanes := by
  have hsome : s.offer (s.updateOf e k) = some (s.onUsu (unitOf k) fun _ => (s.usu (unitOf k)).joined (s.updateOf e k)) := by
    have hfix : (s.updateOf e k).fixed = false := hf
    have hkey : (s.updateOf e k).key = k := rfl
    simp [State.offer, USU.offer, hfix, hkey, h, USU.joined]
  simp only [applyAtomic, hl, hsome]
end Free
/-- The row of an atomic hands its next update over. -/
theorem exec_atomic_cmd {i : Instr} {op ty t0 t1} {w : Bool} (hw : s.who = .cmd e)
    (hi : (i = .amo op ty t0 t1 ∨ i = .cas w t0 t1) ∨ ∃ m va q, i = .amov m va q t0) : exec i s = .next (applyAtomic e s) := by
  rcases hi with (rfl | rfl) | ⟨m, va, q, rfl⟩
  · show execAmo op ty t0 t1 s = _
    rw [execAmo, hw]
  · show execCas w t0 t1 s = _
    rw [execCas, hw]
  · show execAmov m va q t0 s = _
    rw [execAmov, hw]
end HandOver

/-- Settles O34: AMO and CAS by the place of their target, AMOV by the window places of its lanes, and each update by the room in the
window of its unit. -/
theorem atomicsAreHeldAndHandedOver : Obligations.AtomicsAreHeldAndHandedOver := by
  intro s op ty w t0 t1
  refine ⟨fun hw => ⟨fun hp => ?_, fun ha hb => ⟨fun l u h hr => ?_,
      fun hb32 hbin => ⟨fun l u h hr => ?_, fun l u h => ?_, fun d u h => ?_⟩,
    fun hbad => ?_⟩⟩, fun m va q hw hp hal h63 h61 h62 hlanes => ?_, fun m va q hw hp hls hr => exec_amov_reserved hw hp hls hr,
    fun e i k r hw hi hf hl hform => ?_⟩
  · rw [exec_amo_core hw, exec_cas_core hw]
    exact ⟨issueAtomic_poison hp, issueAtomic_poison hp⟩
  · rw [exec_amo_core hw, issueAtomic_placed ha hb (by simp [hr]) h, hr]; rfl
  · rw [exec_amo_core hw, issueAtomic_placed ha hb (by simp [Ctx.recordOk_iff.2 ⟨hb32, hbin⟩]) h, hr]; rfl
  · rw [exec_cas_core hw, issueAtomic_placed ha hb (by simp [Ctx.recordOk_iff.2 ⟨hb32, hbin⟩]) h]; rfl
  · rw [exec_amo_core hw, issueAtomic_fault ha hb (by simp [Ctx.recordOk_iff.2 ⟨hb32, hbin⟩]) h]
  · rw [exec_cas_core hw, issueAtomic_badRecord ha hb (by rwa [← Bool.not_eq_true, Ctx.recordOk_iff])]
  · have hactive (l : Nat) (hl : l ∈ s.activeLanes q) := hlanes l (List.mem_range.1 (List.mem_filter.1 hl).1) (List.mem_filter.1 hl).2
    rw [exec_amov_placed hw hp (fun l hl => (hactive l hl).1) h63 h61 hal fun l hl =>
      State.amoPlace_window h63 h61 h62 hal _ (hactive l hl).2]
    refine ⟨fun hls => congrArg _ (if_pos hls), fun hls => ?_⟩
    have hindex (x : Half) : (4 : Word) * x.setWidth 64 = BitVec.ofNat 64 (4 * x.toNat) := by
      apply BitVec.eq_of_toNat_eq
      simp
    rw [if_neg hls]
    simp only [hindex]
  · rw [exec_atomic_cmd hw hform]
    refine ⟨fun hfull => congrArg _ (applyAtomic_full hf hl hfull),
    fun hroom => ⟨_, s.updateOf e k, congrArg _ (applyAtomic_joins hf hl hroom), ?_,
      rfl, rfl, rfl, rfl, rfl, ?_, ?_, rfl, rfl, rfl⟩⟩
    · exact congrArg USU.window (State.usu_joined ..)
    · rintro rfl
      simp only [State.updateOf, hi, atomicKind]; exact ⟨rfl, rfl, rfl⟩
    · rintro rfl
      simp only [State.updateOf, hi, atomicKind]; exact ⟨rfl, rfl⟩

end Sys2Proof.Machine
end

-- ==== Proofs of the copy family: issue, channels, cancellation and channel state (12 R257 to R260, R268, R269) ====
section
/-! PROOFS. A copy request is checked at issue by one function, whatever its form, and joins its channel by another. KCANCEL goes through
the channels one by one: what it leaves of one channel is said once, and that it touches no other; the mask is the induction over them. -/

namespace Sys2Proof.Machine

section Issue
variable {s : State} {i : Instr} {n lo hi : Nat} {t0 t1 : Cons} {e : Eff} {r : CopyReq}

/-! ### Issue of requests (12 R257, R258) -/

theorem offOk_iff {win : Nat} {a : Word} : offOk win a n = true ↔ a.toNat % n = 0 ∧ a.toNat + n ≤ win := by simp [offOk]
theorem reqB_iff {b : Word} : reqB b lo hi = true ↔ bitsN b 47 32 = 0 ∧ bitsN b 15 3 = 0 ∧ lo ≤ bitsN b 31 16 ∧ bitsN b 31 16 ≤ hi := by
  simp [reqB, and_assoc]
theorem issueCopy_poison (hp : s.pAB = true) : issueCopy i n lo hi t0 t1 s = .next (s.slotFault 4 0 7 0) := if_pos hp
section Unpoisoned
variable (hp : s.pAB = false)
include hp
theorem issueCopy_badA (ha : ¬(s.a.toNat % n = 0 ∧ s.a.toNat + n ≤ s.ctx.winSize)) :
    issueCopy i n lo hi t0 t1 s = .next (s.slotFault 6 0x030 s.a 0) := by
  have hoff : (!offOk s.ctx.winSize s.opA.val n) = true := by rw [Bool.not_eq_true', ← Bool.not_eq_true, offOk_iff]; exact ha
  exact (if_neg (ne_true_of_eq_false hp)).trans (if_pos hoff)
theorem issueCopy_goodA (ha : s.a.toNat % n = 0 ∧ s.a.toNat + n ≤ s.ctx.winSize) : issueCopy i n lo hi t0 t1 s =
    if reqB s.b lo hi then .next ((s.hold { slot := 0, ins := i, a := s.opA, b := s.opB }).emit [(t0, ⟨0, false⟩), (t1, ⟨0, false⟩)])
    else .next (s.slotFault 6 0x030 s.b 0) := by
  have hoff : ¬(!offOk s.ctx.winSize s.opA.val n) = true := by rw [show offOk s.ctx.winSize s.opA.val n = true from offOk_iff.2 ha]; decide
  refine (if_neg (ne_true_of_eq_false hp)).trans ((if_neg hoff).trans ?_)
  show (if (!reqB s.b lo hi) = true then _ else _) = _
  cases reqB s.b lo hi <;> rfl
end Unpoisoned

/-- A request joins the queue of its channel when that has room, and waits at the head of the K queue otherwise (12 R259). -/
theorem applyCopy_full (hq : 16 ≤ (s.ctx.chan (bitsN e.b.val 2 0)).queue.length) : applyCopy e r s = .next s := by
  rw [applyCopy, Ctx.enqueue, if_neg (show ¬_ < chanRoom from Nat.not_lt.2 hq)]
theorem applyCopy_joins (hq : (s.ctx.chan (bitsN e.b.val 2 0)).queue.length < 16) : applyCopy e r s = .next (s.onCtx fun x => { x with
    kq := x.kq.erase e
    chans := modV x.chans (bitsN e.b.val 2 0) fun h => { h with queue := h.queue ++ [r] } }) := by
  rw [applyCopy, Ctx.enqueue, if_pos (show _ < chanRoom from hq)]
  rfl

/-- The five forms of a request with the bytes of their structure and the bounds of COUNT (12 R257). -/
def copyForms (op : MergeOp) (k : CollKind) : List ((Cons → Cons → Instr) × Nat × Nat × Nat) :=
  [(.kcopy, 16, 0, 0), (.kgath, 16, 1, 65535), (.kscat, 16, 1, 65535), (.kred op, 16, 0, 0), (.kcoll k, 32, 0, 0)]
theorem exec_copyForm_core {op : MergeOp} {k : CollKind} (hw : s.who = .core) : ∀ f ∈ copyForms op k,
    exec (f.1 t0 t1) s = issueCopy (f.1 none none) f.2.1 f.2.2.1 f.2.2.2 t0 t1 s := by
  simp only [copyForms, List.forall_mem_cons, List.not_mem_nil, false_imp_iff, implies_true, and_true]
  refine ⟨?_, ?_, ?_, ?_, ?_⟩
  · show execKcopy t0 t1 s = _; rw [execKcopy, hw]
  · show execKgath t0 t1 s = _; rw [execKgath, hw]
  · show execKscat t0 t1 s = _; rw [execKscat, hw]
  · show execKred op t0 t1 s = _; rw [execKred, hw]
  · show execKcoll k t0 t1 s = _; rw [execKcoll, hw]
/-- At its engine a form is the request that its operands and its own fields make. -/
theorem exec_copyForm_cmd {op : MergeOp} {k : CollKind} (hw : s.who = .cmd e) : ∀ f ∈ copyForms op k,
    ∃ kind o m merge coll, exec (f.1 t0 t1) s = applyCopy e (e.request kind o m merge coll) s
      ∧ 5 = fCls (encode (f.1 none none)) ∧ (BitVec.ofNat 6 o).toNat = fOp (encode (f.1 none none))
      ∧ BitVec.ofNat 5 m = fMod (encode (f.1 none none)) := by
  simp only [copyForms, List.forall_mem_cons, List.not_mem_nil, false_imp_iff, implies_true, and_true]
  refine ⟨⟨0, 32, 0, none, none, ?_, by decide⟩, ⟨1, 33, 0, none, none, ?_, by decide⟩, ⟨2, 34, 0, none, none, ?_, by decide⟩,
    ⟨3, 35, op.enc, some op, none, ?_, by cases op <;> decide⟩,
    ⟨4, 40, (fMod (encode (.kcoll k none none))).toNat, none, some k, ?_, by cases k <;> decide⟩⟩
  · show execKcopy t0 t1 s = _; rw [execKcopy, hw]
  · show execKgath t0 t1 s = _; rw [execKgath, hw]
  · show execKscat t0 t1 s = _; rw [execKscat, hw]
  · show execKred op t0 t1 s = _; rw [execKred, hw]
  · show execKcoll k t0 t1 s = _; rw [execKcoll, hw]

/-! ### KPORT (12 R260) -/

/-- What KPORT finds wrong with its A. -/
def kportBad (a : Word) : Bool := bitsN a 63 8 ≠ 0 || (a.getLsbD 4 == (bitsN a 7 5 = 0))
theorem issuedBy_kport {p : BitVec 2} (hw : s.who = .core) : IssuedBy s (.kport p) true kportBad noLow := by
  show execKport p s = _
  rw [execKport, hw]; rfl
theorem kportBad_eq_false {a : Word} (hz : bitsN a 63 8 = 0) (hr : a.getLsbD 4 = true ↔ bitsN a 7 5 ≠ 0) : kportBad a = false := by
  cases hb : a.getLsbD 4 <;> simp_all [kportBad]

end Issue

/-! ### Channels and completions (12 R259, R261) -/

theorem Ctx.chan_onChan (c : Ctx) {n : Nat} (hn : n < 8) (f : Channel → Channel) (m : Nat) :
    (c.onChan n f).chan m = if m = n then f (c.chan m) else c.chan m := by
  simp only [Ctx.onChan, Ctx.chan, getV_modV, hn, and_true]
theorem Ctx.chan_onChan_same (c : Ctx) {n : Nat} (hn : n < 8) (f : Channel → Channel) : (c.onChan n f).chan n = f (c.chan n) :=
  (c.chan_onChan hn f n).trans (if_pos rfl)
/-- A completion changes what goes to the event queue and the FIFOs alone. -/
theorem Ctx.complete_keeps {β : Type} (part : Ctx → β) (hpart : ∀ c y, part { c with sync := y } = part c) (c : Ctx) (cw : BitVec 16)
    (always : Bool) (st : Word) (cls op mod chan : Nat) (o : Origin) : part (c.complete cw always st cls op mod chan o) = part c := by
  unfold Ctx.complete
  split
  · exact hpart c _
  · split
    · exact hpart c _
    · rfl

/-! ### KCANCEL, one channel (12 R268) -/

/-- What a cancelled channel runs: nothing, or a stopped reduction whose updates are still at a unit. -/
def State.cancelledRun (s : State) (n : Nat) : Option CopyRun := (s.ctx.chan n).run.bind fun x =>
  if s.copyPerformed n x.req then none
  else some { x with hold := none, status := x.status.orElse fun _ => some (stCANCELLED x.blk) }
/-- What cancelling commands changes outside the channels of the context: what has gone to the event queue and the FIFOs, the K queue and
the collectives. -/
structure SameButCopies (s t : State) : Prop where
  mem : t.mem = s.mem
  fir : t.fir = s.fir
  tile : t.tile = s.tile
  units : t.dev.units = s.dev.units
  ident : t.ctx.id = s.ctx.id

theorem SameButCopies.refl (s : State) : SameButCopies s s := ⟨rfl, rfl, rfl, rfl, rfl⟩
theorem SameButCopies.trans {s t u : State} (h : SameButCopies s t) (g : SameButCopies t u) : SameButCopies s u :=
  ⟨g.mem.trans h.mem, g.fir.trans h.fir, g.tile.trans h.tile, g.units.trans h.units, g.ident.trans h.ident⟩
theorem SameButCopies.onCtx (s : State) {f : Ctx → Ctx} (hf : (f s.ctx).id = s.ctx.id) : SameButCopies s (s.onCtx f) :=
  ⟨rfl, rfl, rfl, rfl, hf⟩
/-- What a channel waits for hangs on the units and the identity of the context. -/
theorem SameButCopies.performed {s t : State} (h : SameButCopies s t) (n : Nat) (r : CopyReq) : t.copyPerformed n r = s.copyPerformed n r := by
  simp only [State.copyPerformed, h.units, h.ident]
theorem SameButCopies.cancelledRun {s t : State} (h : SameButCopies s t) {n : Nat} (hn : t.ctx.chan n = s.ctx.chan n) :
    t.cancelledRun n = s.cancelledRun n := by
  simp only [State.cancelledRun, hn, h.performed]
/-- A list of completions leaves the channels and everything outside the context. -/
theorem completeAll_keeps {α : Type} (f : Ctx → α → Ctx) (hid : ∀ c a, (f c a).id = c.id) (hch : ∀ c a, (f c a).chans = c.chans)
    (l : List α) (s : State) : SameButCopies s (l.foldl (fun s a => s.onCtx fun c => f c a) s)
      ∧ (l.foldl (fun s a => s.onCtx fun c => f c a) s).ctx.chans = s.ctx.chans := by
  induction l generalizing s with
  | nil => exact ⟨.refl s, rfl⟩
  | cons a l ih =>
    obtain ⟨hk, hc⟩ := ih (s.onCtx fun c => f c a)
    exact ⟨(SameButCopies.onCtx s (hid s.ctx a)).trans hk, hc.trans (hch s.ctx a)⟩

/-- What happens to the running request of a cancelled channel. -/
def State.cancelRun (s : State) (ch : Nat) : State := match (s.ctx.chan ch).run with
  | none => s
  | some x =>
    let s := match x.coll with
      | some key => s.onColl key (·.gone s.ctx ch)
      | none => s
    if s.copyPerformed ch x.req then s.copyDone ch x.req (stCANCELLED (if x.coll.isSome then 0 else x.blk))
    else s.onRun ch fun x => { x with hold := none, status := x.status.orElse fun _ => some (stCANCELLED x.blk) }

theorem State.cancelRun_effect (s : State) {ch : Nat} (hch : ch < 8) : SameButCopies s (s.cancelRun ch)
    ∧ ∀ n, (s.cancelRun ch).ctx.chan n = if n = ch then { s.ctx.chan ch with run := s.cancelledRun ch } else s.ctx.chan n := by
  unfold State.cancelRun
  cases hrun : (s.ctx.chan ch).run with
  | none =>
    dsimp only
    refine ⟨.refl s, fun n => ?_⟩
    have hnone : s.cancelledRun ch = none := by rw [State.cancelledRun, hrun]; rfl
    split
    · next hn => rw [hnone, hn]; show s.ctx.chan ch = _; rw [← hrun]
    · rfl
  | some x =>
    have hleft : ∃ d, (match x.coll with | some key => s.onColl key (·.gone s.ctx ch) | none => s) = { s with dev := d }
        ∧ d.units = s.dev.units := by
      cases x.coll with
      | none => exact ⟨s.dev, rfl, rfl⟩
      | some key => exact ⟨_, rfl, rfl⟩
    obtain ⟨d, heq, hunits⟩ := hleft
    have hperf : State.copyPerformed { s with dev := d } ch x.req = s.copyPerformed ch x.req := by
      simp only [State.copyPerformed, hunits]
    have hrunEq : s.cancelledRun ch = if s.copyPerformed ch x.req then none
        else some { x with hold := none, status := x.status.orElse fun _ => some (stCANCELLED x.blk) } := by
      rw [State.cancelledRun, hrun]; rfl
    simp only [heq, hperf, hrunEq]
    cases s.copyPerformed ch x.req with
    | true =>
      refine ⟨⟨rfl, rfl, rfl, hunits, Ctx.complete_keeps Ctx.id (fun _ _ => rfl) ..⟩, fun n => ?_⟩
      exact (Ctx.complete_keeps (·.chan n) (fun _ _ => rfl) ..).trans (by
        rw [Ctx.chan_onChan _ hch]; split
        · next hn => rw [hn]; rfl
        · rfl)
    | false =>
      refine ⟨⟨rfl, rfl, rfl, hunits, rfl⟩, fun n => (Ctx.chan_onChan _ hch ..).trans ?_⟩
      split
      · next hn => rw [hn]; simp [hrun]
      · rfl

/-- The commands for a channel in the K queue that a cancellation meets. -/
def State.cancelHeld (s : State) (ser ch : Nat) : List Eff := s.ctx.kq.filter fun e => e.ser < ser && (match e.ins with
  | .kcopy .. | .kgath .. | .kscat .. | .kred .. | .kcoll .. => true | _ => false) && bitsN e.b.val 2 0 = ch
/-- A queued request, and a command in the K queue, completes CANCELLED. -/
def Ctx.cancelReq (ch : Nat) (c : Ctx) (r : CopyReq) : Ctx :=
  c.complete r.cw true (stCANCELLED 0) r.cls.toNat r.op.toNat r.mod.toNat ch (r.origin ch)
def Ctx.cancelCmd (ch : Nat) (c : Ctx) (e : Eff) : Ctx :=
  c.complete e.cw true (stCANCELLED 0) (fCls (encode e.ins)) (fOp (encode e.ins)) (fMod (encode e.ins)).toNat ch
theorem State.cancelChan_eq (s : State) (ser ch : Nat) : s.cancelChan ser ch =
    ((s.cancelHeld ser ch).foldl (fun s e => s.onCtx fun c => c.cancelCmd ch e)
      ((s.ctx.chan ch).queue.foldl (fun s r => s.onCtx fun c => c.cancelReq ch r) (s.cancelRun ch))).onCtx fun c =>
        { c.onChan ch fun k => { k with queue := [] } with kq := c.kq.filter fun e => !(s.cancelHeld ser ch).contains e } := rfl
/-- A cancelled channel queues nothing, and runs a stopped reduction at most; every other channel is left. -/
theorem State.cancelChan_effect (s : State) (ser : Nat) {ch : Nat} (hch : ch < 8) : SameButCopies s (s.cancelChan ser ch)
    ∧ ∀ n, (s.cancelChan ser ch).ctx.chan n = if n = ch then { queue := [], run := s.cancelledRun ch } else s.ctx.chan n := by
  obtain ⟨hrun, hchan⟩ := s.cancelRun_effect hch
  obtain ⟨hq, hqc⟩ := completeAll_keeps (Ctx.cancelReq ch) (fun _ _ => Ctx.complete_keeps Ctx.id (fun _ _ => rfl) ..)
    (fun _ _ => Ctx.complete_keeps Ctx.chans (fun _ _ => rfl) ..) (s.ctx.chan ch).queue (s.cancelRun ch)
  obtain ⟨hk, hkc⟩ := completeAll_keeps (Ctx.cancelCmd ch) (fun _ _ => Ctx.complete_keeps Ctx.id (fun _ _ => rfl) ..)
    (fun _ _ => Ctx.complete_keeps Ctx.chans (fun _ _ => rfl) ..) (s.cancelHeld ser ch)
    ((s.ctx.chan ch).queue.foldl (fun s r => s.onCtx fun c => c.cancelReq ch r) (s.cancelRun ch))
  rw [State.cancelChan_eq]
  generalize (s.cancelHeld ser ch).foldl _ _ = t at hk hkc
  refine ⟨((hrun.trans hq).trans hk).trans ⟨rfl, rfl, rfl, rfl, rfl⟩, fun n => ?_⟩
  have hsame : t.ctx.chan n = (s.cancelRun ch).ctx.chan n := by rw [Ctx.chan, hkc, hqc, Ctx.chan]
  refine (Ctx.chan_onChan _ hch (fun k => { k with queue := [] }) n).trans ?_
  rw [hsame, hchan]
  split <;> rfl

/-! ### KCANCEL, the mask -/

/-- The channels of the mask below `k`, cancelled in turn. -/
theorem State.cancelChans_effect (s : State) (ser : Nat) (m : Word) {k : Nat} (hk : k ≤ 8) :
    let t := (List.range k).foldl (fun s ch => if m.getLsbD ch then s.cancelChan ser ch else s) s
    SameButCopies s t ∧ ∀ n, t.ctx.chan n = if n < k ∧ m.getLsbD n = true then { queue := [], run := s.cancelledRun n } else s.ctx.chan n := by
  induction k with
  | zero => exact ⟨.refl s, fun n => (if_neg fun h => Nat.not_lt_zero n h.1).symm⟩
  | succ k ih =>
    obtain ⟨hsame, hchan⟩ := ih (Nat.le_of_succ_le hk)
    rw [List.range_succ, List.foldl_append]
    simp only [List.foldl_cons, List.foldl_nil]
    generalize (List.range k).foldl _ s = t at hsame hchan
    cases hm : m.getLsbD k with
    | false =>
      refine ⟨hsame, fun n => (hchan n).trans (if_congr ?_ rfl rfl)⟩
      rcases Nat.lt_or_ge n k with hn | hn
      · simp [hn, Nat.lt_succ_of_lt hn]
      · rcases Nat.eq_or_lt_of_le hn with rfl | hn
        · simp [hm]
        · simp; omega
    | true =>
      obtain ⟨hstep, hafter⟩ := t.cancelChan_effect ser (ch := k) hk
      refine ⟨hsame.trans hstep, fun n => (hafter n).trans ?_⟩
      have hself : t.ctx.chan k = s.ctx.chan k := (hchan k).trans (if_neg fun h => Nat.lt_irrefl k h.1)
      by_cases hn : n = k
      · subst hn
        rw [if_pos rfl, if_pos ⟨Nat.lt_succ_self n, hm⟩, hsame.cancelledRun hself]
      · rw [if_neg hn, hchan n]
        exact if_congr (by constructor <;> rintro ⟨h, h'⟩ <;> exact ⟨by omega, h'⟩) rfl rfl
theorem State.cancelMask_effect (s : State) (ser : Nat) (m : Word) : SameButCopies s (s.cancelMask ser m)
    ∧ ∀ n, n < 8 → (s.cancelMask ser m).ctx.chan n =
      if m.getLsbD n then { queue := [], run := s.cancelledRun n } else s.ctx.chan n := by
  obtain ⟨hsame, hchan⟩ := s.cancelChans_effect ser m (le_refl 8)
  exact ⟨hsame, fun n hn => (hchan n).trans (by simp [hn])⟩
theorem State.cancelMask_single (s : State) (ser : Nat) {n : Nat} (hn : n < 8) :
    s.cancelMask ser (BitVec.ofNat 64 (2 ^ n)) = s.cancelChan ser n := by
  interval_cases n <;> rfl
/-- A cancelled request leaves one record, CANCELLED with the blocks moved, and its push. -/
theorem State.cancelChan_record {s : State} {n : Nat} {x : CopyRun} (ser : Nat) (hkq : s.ctx.kq = [])
    (hk : s.ctx.chan n = { queue := [], run := some x }) (hc : x.coll = none) (hp : s.copyPerformed n x.req = true) :
    (s.cancelChan ser n).ctx.sync.evqHeld = s.ctx.sync.evqHeld ++ [⟨stCANCELLED x.blk,
      recInfo x.req.cls.toNat x.req.op.toNat x.req.mod.toNat (cwTag x.req.cw) n,
      if cwPush x.req.cw then some (BitVec.ofNat 3 (cwQpush x.req.cw)) else none, x.req.origin n⟩] := by
  have hcode : codeOf (stCANCELLED x.blk) = 5 := codeOf_status (by decide) _ _
  simp only [State.cancelChan, hk, hkq, hc, hp, List.filter_nil, List.foldl_nil, if_true, Option.isSome_none, Bool.false_eq_true, if_false]
  simp [State.copyDone, Ctx.complete, hcode, sPOISON, Ctx.postRec, Ctx.onChan]

theorem exec_kcancel_core {s : State} (hw : s.who = .core) : exec .kcancel s =
    if s.opA.poison then .next (s.slotFault 4 0 7 0) else if bitsN s.a 63 8 ≠ 0 then .next (s.slotFault 6 0x030 s.a 0)
    else .next (s.heldFor .kcancel []) := by
  show execKcancel s = _
  rw [execKcancel, hw]; rfl
theorem exec_kcancel_cmd {s : State} {e : Eff} (hw : s.who = .cmd e) : exec .kcancel s =
    .next ((s.onCtx fun c => { c with kq := c.kq.erase e }).cancelMask e.ser e.a.val) := by
  show execKcancel s = _
  rw [execKcancel, hw]

/-! ### KSTAT (12 R269) -/

/-- The fields of a channel's word, out of a sum of them. -/
theorem chanWord_fields (k : Channel) : (chanWord k).getLsbD 63 = k.run.isSome
    ∧ (chanWord k).getLsbD 62 = (k.run.any fun x => x.hold.isSome) ∧ bitsN (chanWord k) 61 57 = k.queue.length % 32
    ∧ bitsN (chanWord k) 42 16 = (k.run.map fun x => Nat.min x.blk (2 ^ 27 - 1)).getD 0 := by
  have hq := Nat.mod_lt k.queue.length (show 0 < 32 by decide)
  rw [chanWord]
  cases k.run with
  | none =>
    refine ⟨getLsbD_ofNat_of_field (by decide) ?_, getLsbD_ofNat_of_field (by decide) ?_, bitsN_ofNat_of_field ?_ ?_,
      bitsN_ofNat_of_field ?_ ?_⟩ <;> simp <;> omega
  | some x =>
    have hb : Nat.min x.blk (2 ^ 27 - 1) ≤ 2 ^ 27 - 1 := Nat.min_le_right _ _
    simp only [Option.isSome_some, Option.any_some, Option.map_some, Option.getD_some]
    generalize Nat.min x.blk (2 ^ 27 - 1) = b at hb
    cases x.hold.isSome <;> refine ⟨getLsbD_ofNat_of_field (by decide) ?_, getLsbD_ofNat_of_field (by decide) ?_,
      bitsN_ofNat_of_field ?_ ?_, bitsN_ofNat_of_field ?_ ?_⟩ <;> simp <;> omega
theorem exec_kstat_eq (s : State) (t0 t1 : Cons) : exec (.kstat t0 t1) s =
    if s.opA.poison then .next (s.slotFault 4 0 7 0) else if bitsN s.a 63 3 ≠ 0 then .next (s.slotFault 6 0x030 s.a 0)
    else .next (s.sends t0 t1 (chanWord (s.ctx.chan s.a.toNat)) false) := rfl

/-- Settles O36: the one check of the five forms, the one way into a channel, and the channels of a mask one by one. -/
theorem copyCommandsQueueAndAnswer : Obligations.CopyCommandsQueueAndAnswer := by
  intro s op k p t0 t1 e
  refine ⟨fun hw f hf => ?_, fun hw f hf => ?_, fun hw hp => ⟨fun hz hr hb => ?_, fun hz => ?_⟩, fun hw => ?_, fun hw => ⟨fun hp => ?_,
    fun hp hz => ?_, fun hp hz => ?_⟩, fun hw => ?_, fun n x hw hn ha hkq hk hc hp => ?_, fun hp => ?_, fun hp hr => ?_, fun hp hr => ?_⟩
  · rw [exec_copyForm_core hw f hf]
    refine ⟨issueCopy_poison, issueCopy_badA, fun hp hal hin => ?_⟩
    rw [issueCopy_goodA hp ⟨hal, hin⟩]
    exact ⟨fun hb => if_neg fun h => hb (reqB_iff.1 h), fun hb => if_pos (reqB_iff.2 hb)⟩
  · obtain ⟨kind, o, m, merge, coll, hexec, hcls, hop, hmod⟩ := exec_copyForm_cmd (t0 := t0) (t1 := t1) hw f hf
    rw [hexec]
    exact ⟨applyCopy_full, fun hq => ⟨_, applyCopy_joins hq, rfl, rfl, rfl, rfl, rfl, hcls, hop, hmod⟩⟩
  · exact (issuedBy_kport hw).trans (issueCmd_held hp (kportBad_eq_false hz hr) (by rw [hb]; rfl))
  · exact (issuedBy_kport hw).trans (issueCmd_badA hp (by simp [kportBad, hz]))
  · show execKport p s = _
    rw [execKport, hw]; rfl
  · rw [exec_kcancel_core hw, if_pos hp]
  · rw [exec_kcancel_core hw, if_neg (ne_true_of_eq_false hp), if_pos hz]
  · rw [exec_kcancel_core hw, if_neg (ne_true_of_eq_false hp), if_neg (not_not.2 hz)]
  · obtain ⟨hsame, hchan⟩ := (s.onCtx fun c => { c with kq := c.kq.erase e }).cancelMask_effect e.ser e.a.val
    refine ⟨_, exec_kcancel_cmd hw, hsame.mem, hsame.fir, hsame.tile, fun n hn => ?_⟩
    have hafter := hchan n hn
    split <;> rename_i hm
    · rw [if_pos hm] at hafter
      have hrun : (State.cancelMask _ e.ser e.a.val).ctx.chan n = { queue := [], run := s.cancelledRun n } := hafter
      rw [hrun]
      refine ⟨rfl, fun hnone => ?_, fun x hx => ⟨fun hp => ?_, fun hp => ?_⟩⟩
      · simp [State.cancelledRun, hnone]
      · simp [State.cancelledRun, hx, hp]
      · simp only [State.cancelledRun, hx, Option.bind_some, hp]
        cases x.status <;> rfl
    · exact hafter.trans (if_neg hm)
  · refine ⟨_, exec_kcancel_cmd hw, ?_⟩
    rw [ha, State.cancelMask_single _ _ hn]
    exact State.cancelChan_record e.ser (by simp [State.onCtx, hkq]) hk hc hp
  · rw [exec_kstat_eq, if_pos hp]
  · rw [exec_kstat_eq, if_neg (ne_true_of_eq_false hp), if_pos ((bitsN_ne_zero_iff s.a (by decide)).2 hr)]
  · have hz : bitsN s.a 63 3 = 0 := (bitsN_top_eq_zero (by decide)).2 hr
    refine ⟨_, ?_, chanWord_fields _⟩
    rw [exec_kstat_eq, if_neg (ne_true_of_eq_false hp), if_neg (not_not.2 hz)]

end Sys2Proof.Machine
end

-- ==== Proofs of the window family: keys of window offsets and what a store leaves (04 R87, R88, R109; 21 R365) ====
section
/-! PROOFS. A window offset is a line and a byte in it; the lines of a window whose rows end inside the scratchpad have keys of their own.
So a store through the window changes the bytes of its own offsets and the poison of its own word, and nothing else of the window. -/

namespace Sys2Proof.Machine

/-! ### Keys that are not HBM (04 R87; 21 R374) -/

theorem Memory.view_of_not_hbm {k : Nat} (hk : isHbm k = false) (m : Memory) (kv : Option (BitVec 512)) : m.view kv k = m.byte k := by
  unfold Memory.view
  split
  · rw [hk]; rfl
  · rfl
theorem Memory.rekey_of_not_hbm {k : Nat} (hk : isHbm k = false) (m : Memory) (kv : Option (BitVec 512)) : m.rekey kv k = m := by
  unfold Memory.rekey
  split
  · rfl
  · rw [hk]; rfl
theorem Memory.write_of_not_hbm {k : Nat} (hk : isHbm k = false) (m : Memory) (kv : Option (BitVec 512)) (v n : Nat) :
    m.write kv k v n = m.setRaw k v n := by rw [Memory.write, Memory.rekey_of_not_hbm hk]
theorem isHbm_add {k : Nat} (hk : isHbm k = false) (i : Nat) : isHbm (k + i) = false := by
  rw [isHbm, decide_eq_false_iff_not] at hk ⊢; omega
theorem Memory.read_of_not_hbm {k : Nat} (hk : isHbm k = false) (m : Memory) (kv : Option (BitVec 512)) (n : Nat) :
    Memory.read m kv k n = m.raw k n := by
  induction n generalizing k with
  | zero => rfl
  | succ n ih => rw [Memory.read, Memory.raw, Memory.view_of_not_hbm hk, ih (isHbm_add hk 1)]

/-! ### Lines of a window (04 R87, R88) -/

/-- The scratchpad line that holds line `n` of the window of a context. -/
def Ctx.winLine (c : Ctx) (n : Nat) : Nat :=
  let h := 2 ^ (12 + c.id.wlog.toNat)
  spadBase / 64 + c.id.tile.toNat * 2 ^ 17
    + ((n / h * 8 + bankOf (c.csr.bkey.toNat % 4096) (n % h)) * 4096 + (c.id.row + n % h / 8))

theorem Ctx.winKey_eq (c : Ctx) (o : Nat) : c.winKey o = 64 * c.winLine (o / 64) + o % 64 := by
  have hw : 2 ^ (20 + c.id.wlog.toNat - 2) = 64 * 2 ^ (12 + c.id.wlog.toNat) := by
    rw [show 20 + c.id.wlog.toNat - 2 = 6 + (12 + c.id.wlog.toNat) by omega, pow_add]; rfl
  simp only [Ctx.winKey, spadKey, winPhys, Ctx.winLine]
  rw [hw, ← Nat.div_div_eq_div_mul, Nat.mod_mul_right_div_self]
  generalize bankOf _ _ = b
  generalize o / 64 / 2 ^ (12 + c.id.wlog.toNat) = g
  have hbase : spadBase = 64 * (spadBase / 64) := by decide
  omega
theorem Ctx.not_isHbm_winKey (c : Ctx) (o : Nat) : isHbm (c.winKey o) = false := by
  rw [isHbm, decide_eq_false_iff_not, Ctx.winKey, spadKey, Nat.not_lt]
  exact le_trans (show hostBase ≤ spadBase by decide) (by omega)
/-- The bytes of a line stand side by side. -/
theorem Ctx.winKey_add (c : Ctx) {o i : Nat} (h : o % 64 + i < 64) : c.winKey (o + i) = c.winKey o + i := by
  rw [Ctx.winKey_eq, Ctx.winKey_eq, show (o + i) / 64 = o / 64 by omega]; omega

theorem bankOf_lt (key l : Nat) : bankOf key l < 8 := by
  have hlt (x : Nat) : x % 8 < 2 ^ 3 := Nat.mod_lt x (by decide)
  exact Nat.xor_lt_two_pow (Nat.xor_lt_two_pow (Nat.xor_lt_two_pow (Nat.xor_lt_two_pow (hlt _) (hlt _)) (hlt _)) (hlt _)) (hlt _)
/-- The banks of the eight lines of a row differ. -/
theorem bankOf_inj {key l m : Nat} (hrow : l / 8 = m / 8) (h : bankOf key l = bankOf key m) : l = m := by
  simp only [bankOf, hrow, Nat.xor_left_inj] at h
  omega

section Window
variable {c : Ctx} (hrow : c.id.row + 2 ^ (9 + c.id.wlog.toNat) ≤ 4096)
include hrow

theorem Ctx.winLine_inj {n m : Nat} (h : c.winLine n = c.winLine m) : n = m := by
  have hpow : 2 ^ (12 + c.id.wlog.toNat) = 8 * 2 ^ (9 + c.id.wlog.toNat) := by
    rw [show 12 + c.id.wlog.toNat = 3 + (9 + c.id.wlog.toNat) by omega, pow_add]; rfl
  have hpos : 0 < 2 ^ (9 + c.id.wlog.toNat) := Nat.two_pow_pos _
  simp only [Ctx.winLine] at h
  rw [hpow] at h
  generalize 2 ^ (9 + c.id.wlog.toNat) = p at h hrow hpos
  have hn := Nat.mod_lt n (show 0 < 8 * p by omega)
  have hm := Nat.mod_lt m (show 0 < 8 * p by omega)
  have hbn := bankOf_lt (c.csr.bkey.toNat % 4096) (n % (8 * p))
  have hbm := bankOf_lt (c.csr.bkey.toNat % 4096) (m % (8 * p))
  have hline : n % (8 * p) / 8 = m % (8 * p) / 8 := by omega
  have hbank : bankOf (c.csr.bkey.toNat % 4096) (n % (8 * p)) = bankOf (c.csr.bkey.toNat % 4096) (m % (8 * p)) := by omega
  have hdiv : n / (8 * p) = m / (8 * p) := by omega
  have hmod := bankOf_inj hline hbank
  rw [← Nat.div_add_mod n (8 * p), ← Nat.div_add_mod m (8 * p), hdiv, hmod]
theorem Ctx.winKey_inj {o x : Nat} (h : c.winKey o = c.winKey x) : o = x := by
  rw [Ctx.winKey_eq, Ctx.winKey_eq] at h
  have hl := Ctx.winLine_inj hrow (show c.winLine (o / 64) = c.winLine (x / 64) by omega)
  omega
theorem Ctx.winKey_word {o x : Nat} : c.winKey o / 8 = c.winKey x / 8 ↔ o / 8 = x / 8 := by
  rw [Ctx.winKey_eq, Ctx.winKey_eq]
  constructor <;> intro h
  · have hl := Ctx.winLine_inj hrow (show c.winLine (o / 64) = c.winLine (x / 64) by omega)
    omega
  · rw [show o / 64 = x / 64 by omega]; omega

/-! ### Stores through the window (04 R109) -/

variable {m : Memory} (hwf : m.wf = true) {kv : Option (BitVec 512)} {o n v : Nat} {p : Bool} (ho : o % 8 = 0) (hn : n ≤ 8)
include hwf ho hn

/-- The bytes of a store to a word of the window. -/
theorem storeMem_byte (hp : n = 8 ∨ m.poisoned (c.winKey o) = false) (x : Nat) : (storeMem m kv (c.winKey o) n v p).byte (c.winKey x) =
    if o ≤ x ∧ x < o + n then BitVec.ofNat 8 (v / 256 ^ (x - o)) else m.byte (c.winKey x) := by
  have hbyte : (storeMem m kv (c.winKey o) n v p).byte (c.winKey x) = (m.setRaw (c.winKey o) v n).byte (c.winKey x) := by
    rw [storeMem, Memory.write_of_not_hbm (c.not_isHbm_winKey o)]
    split
    · rw [if_neg (by rcases hp with h | h <;> simp_all)]
      dsimp only
      split <;> rfl
    · rfl
  rw [hbyte]
  split
  · next hx =>
    have hkey : c.winKey x = c.winKey o + (x - o) := by rw [← Ctx.winKey_add c (by omega), show o + (x - o) = x by omega]
    rw [hkey, Memory.byte_setRaw_in hwf _ _ _ _ (by omega)]
  · next hx =>
    refine Memory.byte_setRaw_other _ _ _ _ ?_
    by_contra hin
    have hkey : c.winKey (o + (c.winKey x - c.winKey o)) = c.winKey x := by
      rw [Ctx.winKey_add c (by omega)]; omega
    have := Ctx.winKey_inj hrow hkey
    omega
omit ho in
/-- The poison of the words of the window after a store: a whole word takes the value's, part of a word keeps a poisoned one. -/
theorem storeMem_pois (hp : n = 8 ∨ m.poisoned (c.winKey o) = false) (x : Nat) :
    (storeMem m kv (c.winKey o) n v p).poisoned (c.winKey x) = if x / 8 = o / 8 then p else m.poisoned (c.winKey x) := by
  have hset (a : Memory) (ha : a.wf = true) (q : Bool) : (a.setPoison (c.winKey o) q).poisoned (c.winKey x) =
      if x / 8 = o / 8 then q else a.poisoned (c.winKey x) := by
    rw [Memory.poisoned_setPoison ha, if_congr (Ctx.winKey_word hrow) rfl rfl]
  have hraw : (m.setRaw (c.winKey o) v n).poisoned (c.winKey x) = m.poisoned (c.winKey x) := by
    rw [Memory.poisoned, Memory.pois_setRaw]; rfl
  rw [storeMem, Memory.write_of_not_hbm (c.not_isHbm_winKey o)]
  split
  · next hlt =>
    have hclean : m.poisoned (c.winKey o) = false := hp.resolve_left (by omega)
    rw [if_neg (ne_true_of_eq_false hclean)]
    cases p with
    | true => exact (hset _ (Memory.wf_setRaw hwf _ _ _) true).trans (by rw [hraw])
    | false =>
      refine hraw.trans ?_
      split
      · next hx =>
        have : m.poisoned (c.winKey x) = m.poisoned (c.winKey o) := by
          rw [Memory.poisoned, Memory.poisoned, (Ctx.winKey_word hrow).2 hx]
        rw [this, hclean]
      · rfl
  · rw [hset _ (Memory.wf_setRaw hwf _ _ _), hraw]

end Window

end Sys2Proof.Machine
end

-- ==== Proofs of the message family: tiles, counter sets and the completion of a send (05 R128 to R130; 12 R263; 21 R377, R378) ====
section
/-! PROOFS. What a change of one tile leaves of the others, and what a count is afterwards; what the completion of a send of the context in
focus leaves of it; and what a drop at a kerf changes before it is counted. -/

namespace Sys2Proof.Machine

/-! ### Changes of one tile -/

/-- Nothing but the tiles differs. -/
def State.SameButTiles (s t : State) : Prop := t = { s with tile := t.tile, tiles := t.tiles }
theorem State.onTileOf_same (s : State) (n : BitVec 8) (f : Tile → Tile) : s.SameButTiles (s.onTileOf n f) := by
  unfold State.onTileOf; repeat' split
  all_goals rfl
theorem State.onNet_same (s : State) (n : BitVec 8) (job : BitVec 16) (f : Counters → Counters) : s.SameButTiles (s.onNet n job f) := by
  unfold State.onNet; split
  · rfl
  · exact State.onTileOf_same ..
theorem State.onCop_same (s : State) (n : BitVec 8) (job : BitVec 16) (f : Counters → Counters) : s.SameButTiles (s.onCop n job f) := by
  unfold State.onCop; split
  · rfl
  · exact State.onTileOf_same ..

section SameTiles
variable {s t : State} (h : s.SameButTiles t)
include h
theorem State.SameButTiles.ctx : t.ctx = s.ctx := by rw [h]
theorem State.SameButTiles.fir : t.fir = s.fir := by rw [h]
theorem State.SameButTiles.mem : t.mem = s.mem := by rw [h]
theorem State.SameButTiles.dev : t.dev = s.dev := by rw [h]
end SameTiles

section Tiles
variable {s : State} {n : BitVec 8} {f : Tile → Tile} (hf : ∀ x, (f x).num = x.num)
include hf

theorem State.tileOf_onTileOf (m : BitVec 8) : (s.onTileOf n f).tileOf m = if m = n then f (s.tileOf m) else s.tileOf m := by
  unfold State.onTileOf
  split
  · next hn =>
    simp only [State.tileOf, State.onTile_tile, State.onTile_tiles, hf]
    by_cases hm : m = n
    · rw [if_pos hm, if_pos (hn.trans hm.symm), if_pos (hn.trans hm.symm)]
    · rw [if_neg hm, if_neg fun h => hm (h.symm.trans hn), if_neg fun h => hm (h.symm.trans hn)]
  · next hn =>
    by_cases htile : s.tile.num = m
    · have hm : m ≠ n := fun h => hn (htile.trans h)
      rw [if_neg hm]
      split <;> simp [State.tileOf, htile]
    · have hnum : ((fun t : Tile => t.num == m) ∘ fun t => if t.num = n then f t else t) = fun t => t.num == m := by
        funext t
        simp only [Function.comp_apply]
        split <;> simp [hf]
      split
      · next hany =>
        simp only [State.tileOf, htile, if_false, List.find?_map, hnum]
        cases hfind : s.tiles.find? fun t => t.num == m with
        | none =>
          have hm : m ≠ n := by
            rintro rfl
            obtain ⟨t, ht, hnm⟩ := List.any_eq_true.1 hany
            exact List.find?_eq_none.1 hfind t ht hnm
          rw [if_neg hm]; rfl
        | some t =>
          have hnm : t.num = m := by simpa using List.find?_some hfind
          simp [hnm]
      · next hany =>
        have hnone : m = n → s.tiles.find? (fun t => t.num == m) = none := by
          rintro rfl
          rw [List.find?_eq_none]
          exact fun t ht hnm => hany (List.any_eq_true.2 ⟨t, ht, hnm⟩)
        simp only [State.tileOf, htile, if_false, List.find?_append]
        by_cases hm : m = n
        · rw [hnone hm, if_pos hm, hm]; simp [hf]
        · have hnew : [f { num := n }].find? (fun t => t.num == m) = none := by simpa [hf] using fun h => hm h.symm
          rw [hnew, if_neg hm, Option.or_none]
/-- A part that the change leaves is left at every tile. -/
theorem State.tileOf_onTileOf_keeps {β : Type} (part : Tile → β) (hpart : ∀ x, part (f x) = part x) (m : BitVec 8) :
    part ((s.onTileOf n f).tileOf m) = part (s.tileOf m) := by
  rw [State.tileOf_onTileOf hf]
  split
  · exact hpart _
  · rfl
end Tiles

/-! ### Counter sets (05 R128, R129) -/

theorem Dev.slotOf_lt {d : Dev} {job : BitVec 16} {j : Nat} (h : d.slotOf job = some j) : j < 16 := by
  simpa using firstIdx_lt h
section Counts
variable {s t : State} {n : BitVec 8} {job : BitVec 16}

theorem State.netCnt_onNet (hj : (s.dev.slotOf job).isSome = true) (f : Counters → Counters) :
    (s.onNet n job f).netCnt n job = f (s.netCnt n job) := by
  obtain ⟨j, hj⟩ := Option.isSome_iff_exists.1 hj
  rw [State.netCnt, (State.onNet_same s n job f).dev, State.netCnt, hj]
  dsimp only
  rw [State.onNet, hj]
  dsimp only
  rw [State.tileOf_onTileOf (fun _ => by rfl), if_pos rfl]
  exact (getV_modV ..).trans (if_pos ⟨rfl, Dev.slotOf_lt hj⟩)
theorem State.copCnt_onCop (hj : (s.dev.slotOf job).isSome = true) (f : Counters → Counters) :
    (s.onCop n job f).copCnt n job = f (s.copCnt n job) := by
  obtain ⟨j, hj⟩ := Option.isSome_iff_exists.1 hj
  rw [State.copCnt, (State.onCop_same s n job f).dev, State.copCnt, hj]
  dsimp only
  rw [State.onCop, hj]
  dsimp only
  rw [State.tileOf_onTileOf (fun _ => by rfl), if_pos rfl]
  exact (getV_modV ..).trans (if_pos ⟨rfl, Dev.slotOf_lt hj⟩)
/-- A count hangs on the job slots and the tile's counters. -/
theorem State.netCnt_congr (hjobs : t.dev.jobs = s.dev.jobs) (hnet : (t.tileOf n).net = (s.tileOf n).net) :
    t.netCnt n job = s.netCnt n job := by
  rw [State.netCnt, State.netCnt, Dev.slotOf, Dev.slotOf, hjobs, hnet]
end Counts

/-! ### Drops at a kerf (21 R377, R378) -/

/-- Nothing differs but the events and what the tiles keep of drops. -/
structure State.SameButReports (s t : State) : Prop where
  rest : t = { s with tile := t.tile, tiles := t.tiles, dev := { s.dev with events := t.dev.events } }
  net : ∀ n, (t.tileOf n).net = (s.tileOf n).net
  module : ∀ n, (t.tileOf n).module = (s.tileOf n).module

theorem State.SameButReports.refl (s : State) : s.SameButReports s := ⟨rfl, fun _ => rfl, fun _ => rfl⟩
theorem State.SameButReports.trans {s t u : State} (h : s.SameButReports t) (g : t.SameButReports u) : s.SameButReports u := by
  refine ⟨?_, fun n => (g.net n).trans (h.net n), fun n => (g.module n).trans (h.module n)⟩
  rw [g.rest, h.rest]
section Reports
variable {s t : State} (h : s.SameButReports t)
include h
theorem State.SameButReports.ctx : t.ctx = s.ctx := by rw [h.rest]
theorem State.SameButReports.fir : t.fir = s.fir := by rw [h.rest]
theorem State.SameButReports.mem : t.mem = s.mem := by rw [h.rest]
theorem State.SameButReports.packets : t.dev.packets = s.dev.packets := by rw [h.rest]
theorem State.SameButReports.jobs : t.dev.jobs = s.dev.jobs := by rw [h.rest]
end Reports
theorem State.onTileOf_reports {s : State} {n : BitVec 8} {f : Tile → Tile} (hnum : ∀ x, (f x).num = x.num) (hnet : ∀ x, (f x).net = x.net)
    (hmod : ∀ x, (f x).module = x.module) : s.SameButReports (s.onTileOf n f) := by
  have hsame := State.onTileOf_same s n f
  refine ⟨?_, State.tileOf_onTileOf_keeps hnum Tile.net hnet, State.tileOf_onTileOf_keeps hnum Tile.module hmod⟩
  rw [hsame]
theorem State.raiseTile_reports (s : State) (n : BitVec 8) (job : BitVec 16) (cnum kind : Nat) (body : List Word) :
    s.SameButReports (s.raiseTile n job cnum kind body) := by
  have hev : s.SameButReports (s.onDev fun d => { d with events := d.events ++ [⟨BitVec.ofNat 64 (job.toNat * 2 ^ 48
      + (s.tileOf n).module.toNat * 2 ^ 24 + n.toNat * 2 ^ 16 + cnum * 2 ^ 8 + kind), BitVec.ofNat 32 (s.tileOf n).evseq, body⟩] }) :=
    ⟨rfl, fun _ => rfl, fun _ => rfl⟩
  exact hev.trans (State.onTileOf_reports (fun _ => by rfl) (fun _ => by rfl) fun _ => by rfl)
theorem State.recordDrop_reports (s : State) (n : BitVec 8) (job : BitVec 16) (cnum : Nat) (w0 w1 : Word) :
    s.SameButReports (s.recordDrop n job cnum w0 w1) := by
  unfold State.recordDrop
  split
  · exact .refl s
  · exact (State.onTileOf_reports (fun _ => by rfl) (fun _ => by rfl) fun _ => by rfl).trans (State.raiseTile_reports ..)
/-- A dropped message of a sender of the same module is written off at its source and completes with KERF. -/
theorem State.kerfDrop_own_module {s : State} {n : BitVec 8} {d : BitVec 2} {p : Packet} (hk : p.kind = .msg)
    (hm : p.srcMod = (s.tileOf n).module) : ∃ u, s.SameButReports u ∧ s.kerfDrop n d p =
      (u.onNet p.src p.job Counters.lose).sendDone p.ctx p.send stKERF := by
  have hspoil : s.SameButReports (s.onTileOf n fun t => { t with spoil := modV t.spoil d.toNat fun w => satAdd w 0 32 1 }) :=
    State.onTileOf_reports (fun _ => by rfl) (fun _ => by rfl) fun _ => by rfl
  have hrec := hspoil.trans (State.recordDrop_reports _ n p.job p.cnum.toNat
    (BitVec.ofNat 64 (p.job.toNat * 2 ^ 32 + p.side.toNat * 2 ^ 24 + p.src.toNat * 2 ^ 16 + p.cnum.toNat * 2 ^ 14
      + (if p.kind = .coll then 2 ^ 12 else 0) + d.toNat * 2 ^ 9)) (BitVec.ofNat 64 (p.dinst.toNat * 2 ^ 32 + p.ring.toNat * 2 ^ 13)))
  refine ⟨_, hrec, ?_⟩
  simp only [State.kerfDrop]
  rw [if_neg (by rw [hk]; decide), if_pos (hm.trans (hrec.module n).symm)]

/-! ### Completion of a send (12 R261, R263) -/

/-- The context once send `x` of number `id` has completed with a status. -/
def Ctx.sendEnded (c : Ctx) (id : Nat) (x : Send) (st : Word) : Ctx :=
  let c := { (c.count st x.poll (bitsN c.csr.escn 15 0)).1 with sends := c.sends.filter (·.id != id) }
  if codeOf st ≠ 0 || x.wantRec then
    c.postRec st (recInfo 5 37 ((if x.wantRec then 16 else 0) + x.tag.toNat % 16) x.tag.toNat 0)
  else c

section Ended
variable {s : State} {uid id : Nat} {x : Send} {st : Word}

theorem State.sendDone_focus (hp : s.ctx.id.present = true) (huid : s.ctx.id.uid = uid)
    (hfind : s.ctx.sends.find? (·.id == id) = some x) (hst : codeOf st ≠ 7) :
    s.sendDone uid id st = s.onCtx fun c => c.sendEnded id x st := by
  rw [State.sendDone, State.within_focus _ huid hp]
  simp only [hfind]
  exact if_neg hst
theorem State.sendDone_unknown (hp : s.ctx.id.present = true) (huid : s.ctx.id.uid = uid)
    (hfind : s.ctx.sends.find? (·.id == id) = none) : s.sendDone uid id st = s := by
  rw [State.sendDone, State.within_focus _ huid hp]
  simp only [hfind]
/-- A refused send leaves its record. -/
theorem Ctx.sendEnded_refused {c : Ctx} (hst : codeOf st = 5) : ∃ r : Rec, r.status = st
    ∧ c.sendEnded id x st = { c with sends := c.sends.filter (·.id != id), sync := { c.sync with evqHeld := c.sync.evqHeld ++ [r] } } := by
  refine ⟨⟨st, recInfo 5 37 ((if x.wantRec then 16 else 0) + x.tag.toNat % 16) x.tag.toNat 0, none, {}⟩, rfl, ?_⟩
  simp [Ctx.sendEnded, Ctx.count_kept c _ (.inr hst), hst, Ctx.postRec]
/-- A completed one leaves TOCNT at 0, and a record when it asked for one. -/
theorem Ctx.sendEnded_ok {c : Ctx} (hst : codeOf st = 0) : ∃ l, c.sendEnded id x st =
    { c with csr := { c.csr with tocnt := 0 }, sends := c.sends.filter (·.id != id), sync := { c.sync with evqHeld := c.sync.evqHeld ++ l } } := by
  cases hrec : x.wantRec with
  | true => exact ⟨_, by simp [Ctx.sendEnded, Ctx.count_ok c _ hst, hst, Ctx.postRec, hrec]; rfl⟩
  | false => exact ⟨[], by simp [Ctx.sendEnded, Ctx.count_ok c _ hst, hst, hrec]⟩
/-- The one send of a context, refused. -/
theorem State.sendDone_only (hp : s.ctx.id.present = true) (huid : s.ctx.id.uid = uid) (hs : s.ctx.sends = [x]) (hx : x.id = id)
    (hst : codeOf st = 5) : ∃ r : Rec, r.status = st ∧ s.sendDone uid id st = s.onCtx fun c => { c with
      sends := [], sync := { c.sync with evqHeld := c.sync.evqHeld ++ [r] } } := by
  have hfind : s.ctx.sends.find? (·.id == id) = some x := by simp [hs, hx]
  obtain ⟨r, hr, heq⟩ := Ctx.sendEnded_refused (id := id) (x := x) (c := s.ctx) hst
  refine ⟨r, hr, ?_⟩
  rw [State.sendDone_focus hp huid hfind (by rw [hst]; decide), State.onCtx, heq]
  simp [State.onCtx, hs, hx]
end Ended

end Sys2Proof.Machine
end

-- ==== Proofs of the message family: hops, arrivals, retries and drops (12 R263, R264; 05 R130; 21 R378; 23 R400) ====
section
/-! PROOFS. A packet that stands where it goes is taken by its kind; one that does not moves one step, or is dropped at a kerf. The body of
a message is stored word by word: a word of the ring is stored once, and the words after it leave it, as the places of a ring are
offsets of their own. -/

namespace Sys2Proof.Machine

section Packets
variable {s : State} {n : Nat} {p : Packet} (hn : s.dev.packets[n]? = some p)
include hn

/-! ### Packets that have arrived or not -/

section Away
variable (hdst : p.dst ≠ (s.tileOf p.pos).module ++ p.pos)
include hdst
theorem exec_messageArrival_away : exec (.messageArrival n) s = .next s := by
  have harr : s.arrived p = false := beq_eq_false_iff_ne.2 hdst
  show execMessageArrival n s = _
  simp [execMessageArrival, hn, harr]
theorem exec_nackArrival_away : exec (.nackArrival n) s = .next s := by
  have harr : s.arrived p = false := beq_eq_false_iff_ne.2 hdst
  show execNackArrival n s = _
  simp [execNackArrival, hn, harr]
theorem exec_lostNotice_away : exec (.lostNotice n) s = .next s := by
  have harr : s.arrived p = false := beq_eq_false_iff_ne.2 hdst
  show execLostNotice n s = _
  simp [execLostNotice, hn, harr]
end Away

section Here
variable (hdst : p.dst = (s.tileOf p.pos).module ++ p.pos)
include hdst
theorem exec_messageArrival_msg (hk : p.kind = .msg) : exec (.messageArrival n) s = .next (s.messageAt n p) := by
  have harr : s.arrived p = true := beq_iff_eq.2 hdst
  show execMessageArrival n s = _
  simp [execMessageArrival, hn, harr, hk]
theorem exec_messageArrival_coll (hk : p.kind = .coll) : exec (.messageArrival n) s = .next (s.exchangeAt n p) := by
  have harr : s.arrived p = true := beq_iff_eq.2 hdst
  show execMessageArrival n s = _
  simp [execMessageArrival, hn, harr, hk]
theorem exec_messageArrival_kerf (hk : p.kind = .kerf) : exec (.messageArrival n) s =
    .next (((s.dropPacket n).onNet p.pos p.job Counters.lose).sendDone p.ctx p.send stKERF) := by
  have harr : s.arrived p = true := beq_iff_eq.2 hdst
  show execMessageArrival n s = _
  simp [execMessageArrival, hn, harr, hk]
theorem exec_nackArrival_here (hk : p.kind = .nack) : exec (.nackArrival n) s =
    .next (if (s.nacked p.ctx p.send).inFlight p.ctx p.send then s.nacked p.ctx p.send else (s.nacked p.ctx p.send).dropPacket n) := by
  have harr : s.arrived p = true := beq_iff_eq.2 hdst
  show execNackArrival n s = _
  simp [execNackArrival, hn, harr, hk]
theorem exec_lostNotice_here (hk : p.kind = .lost) : exec (.lostNotice n) s =
    .next ((s.dropPacket n).sendDone p.ctx p.send stLOST) := by
  have harr : s.arrived p = true := beq_iff_eq.2 hdst
  show execLostNotice n s = _
  simp [execLostNotice, hn, harr, hk]
end Here

/-! ### Hops (23 R400; 21 R377, R378) -/

section Hop
variable {d : BitVec 2} {next : BitVec 8} (hmod : p.dst.toNat / 2 ^ 8 = (s.tileOf p.pos).module.toNat)
  (hdie : bitsN p.dst 7 6 = tDie p.pos)
include hmod hdie
/-- Inside its die a packet takes the mesh toward its own tile. -/
theorem exec_packetForward_inDie : exec (.packetForward n) s = .next (s.meshHop n p (BitVec.ofNat 8 p.dst.toNat)) := by
  have hown : bitsN p.dst 31 8 = (s.tileOf p.pos).module.toNat := by
    rw [bitsN_eq_div_mod, hmod, Nat.mod_eq_of_lt (s.tileOf p.pos).module.isLt]
  show execPacketForward n s = _
  simp [execPacketForward, hn, hown, hdie]
end Hop

end Packets

section Mesh
variable {s : State} {n : Nat} {p : Packet} {d : BitVec 2} {next goal : BitVec 8} (hstep : meshStep p.pos goal = some (d, next))
  (hslot : (s.tileOf p.pos).slotPass d p.side = true)
include hstep hslot
theorem State.meshHop_moves (hkerf : (s.tileOf p.pos).kerfPass d p.side = true)
    (hfar : (s.tileOf next).kerfPass (oppositePort d) p.side = true) : s.meshHop n p goal = s.putPacket n { p with pos := next } := by
  simp [State.meshHop, hstep, hslot, hkerf, hfar]
theorem State.meshHop_dropped (hk : p.kind = .msg) (hkerf : (s.tileOf p.pos).kerfPass d p.side = false) :
    s.meshHop n p goal = (s.dropPacket n).kerfDrop p.pos d p := by
  simp [State.meshHop, hstep, hslot, hkerf, Packet.guarded, hk]
end Mesh

theorem meshStep_alongRow {a b : BitVec 8} (h : tX a < tX b) : meshStep a b = some (1, a + 1) := if_pos h
theorem meshStep_alongColumn {a b : BitVec 8} (hx : tX a = tX b) (hy : tY a < tY b) : meshStep a b = some (2, a + 8) := by
  rw [meshStep, if_neg (by omega), if_neg (by omega), if_pos hy]

/-! ### Sends that are turned back, retried or lost (12 R263; 05 R130) -/

section Sends
variable {s : State} {uid id : Nat} {x : Send}

/-- An unexpired send that is turned back becomes ready for another try after its next interval, and is counted as injected again. -/
theorem State.nacked_unexpired {s : State} (hp : s.ctx.id.present = true) (huid : s.ctx.id.uid = uid)
    (hfind : s.ctx.sends.find? (·.id == id) = some x) (hexp : x.expired s.ctx = false) (own : Bool) :
    s.nacked uid id own = ((if own then s.onNet s.ctx.id.tile s.ctx.id.job Counters.consume else s).onNet s.ctx.id.tile s.ctx.id.job
      Counters.inject).onCtx fun c => c.onSend id fun y => { y with
        flying := false, interval := if x.interval = 0 then 32 else Nat.min (2 * x.interval) 1024
        retryAt := some (c.csr.budget.toNat + if x.interval = 0 then 32 else Nat.min (2 * x.interval) 1024) } := by
  rw [State.nacked, State.within_focus _ huid hp]
  simp only [hfind, hexp, Bool.false_and, Bool.false_eq_true, if_false]
  cases own with
  | false => rfl
  | true => simp only [if_true, (State.onNet_same s s.ctx.id.tile s.ctx.id.job Counters.consume).ctx]
theorem exec_ksendRetry_flying {m : Nat} (hm : s.ctx.sends[m]? = some x) (hf : x.flying = true) : exec (.ksendRetry m) s = .next s := by
  show execKsendRetry m s = _
  simp [execKsendRetry, hm, hf]
/-- The first send of a context, when its time has come. -/
theorem exec_ksendRetry_ripe {c : Nat} (hs : s.ctx.sends = [x]) (hf : x.flying = false) (hl : x.lost = none) (hr : x.retryAt = some c)
    (hc : c ≤ s.ctx.csr.budget.toNat) : exec (.ksendRetry 0) s = .next (s.attempt x.id) := by
  show execKsendRetry 0 s = _
  simp [execKsendRetry, hs, hf, hl, hr, hc, Ctx.sendBehind]

/-- The packet of a send that goes out to the place of its destination. -/
def State.sendPacket (s : State) (x : Send) (w : Word) : Packet :=
  let i := s.ctx.id
  { kind := .msg, ctx := i.uid, src := i.tile, srcMod := s.tile.module, send := x.id, job := i.job
    side := i.side, cnum := i.num, dst := BitVec.ofNat 32 (bitsN w 31 0), dinst := x.dinst
    sinst := BitVec.ofNat 32 i.index, ring := x.ring, sseq := x.sseq, body := x.body, bpois := x.bpois
    launch := i.launch, pos := i.tile, origin := s.tile.module ++ i.tile }
section Attempt
variable (hfind : s.ctx.sends.find? (·.id == x.id) = some x) (hu : s.dev.upsets = [])
include hfind
theorem State.attempt_noInstance (hi : s.instances ≤ x.dinst.toNat) : s.attempt x.id =
    (s.onNet s.ctx.id.tile s.ctx.id.job Counters.consume).sendDone s.ctx.id.uid x.id stNODEST := by
  simp only [State.attempt, hfind]
  exact if_pos hi
variable (hi : x.dinst.toNat < s.instances)
include hu hi
theorem State.attempt_known : s.attempt x.id =
    let w := s.placementEntry s.ctx.id.job x.dinst.toNat
    if w.getLsbD 63 then (s.onDev fun d => { d with packets := d.packets ++ [s.sendPacket x w] }).onCtx fun c => c.onSend x.id fun y =>
      { y with flying := true, retryAt := none, away := bitsN w 31 8 ≠ s.tile.module.toNat }
    else s.nacked s.ctx.id.uid x.id true := by
  have htouch : s.touchEntry s.ctx.id.job x.dinst.toNat = s := by
    unfold State.touchEntry
    split
    · rfl
    · exact State.touch_of_no_upsets hu ..
  simp only [State.attempt, hfind, Nat.not_le.2 hi, if_false, htouch]
  cases (s.placementEntry s.ctx.id.job x.dinst.toNat).getLsbD 63 <;> rfl
end Attempt
end Sends

/-! ### Numbers made of bytes -/

/-- The digits of a number that is summed byte by byte. -/
theorem foldl_digits (f : Nat → Byte) (n : Nat) :
    (List.range n).foldl (fun a i => a + (f i).toNat * 2 ^ (8 * i)) 0 < 256 ^ n
      ∧ ∀ i, i < n → BitVec.ofNat 8 ((List.range n).foldl (fun a i => a + (f i).toNat * 2 ^ (8 * i)) 0 / 256 ^ i) = f i := by
  induction n with
  | zero => exact ⟨by simp, fun i hi => absurd hi (Nat.not_lt_zero i)⟩
  | succ n ih =>
    obtain ⟨hlt, hdig⟩ := ih
    rw [List.range_succ, List.foldl_append]
    simp only [List.foldl_cons, List.foldl_nil]
    generalize (List.range n).foldl (fun a i => a + (f i).toNat * 2 ^ (8 * i)) 0 = w at hlt hdig
    have hf := (f n).isLt
    rw [show 2 ^ (8 * n) = 256 ^ n by rw [pow_mul]; rfl]
    refine ⟨by rw [pow_succ]; nlinarith, fun i hi => ?_⟩
    rcases Nat.lt_or_ge i n with hin | hin
    · rw [← hdig i hin]
      refine BitVec.eq_of_toNat_eq ?_
      have hpow : (f n).toNat * 256 ^ n = 256 ^ i * (2 ^ 8 * ((f n).toNat * 256 ^ (n - i - 1))) := by
        rw [show n = i + (n - i - 1 + 1) by omega, pow_add, pow_succ, show i + (n - i - 1 + 1) - i - 1 = n - i - 1 by omega]; ring
      rw [BitVec.toNat_ofNat, BitVec.toNat_ofNat, hpow, Nat.add_mul_div_left _ _ (by positivity), Nat.add_mul_mod_self_left]
    · rw [show i = n by omega, Nat.add_mul_div_right _ _ (by positivity), Nat.div_eq_of_lt hlt, Nat.zero_add]
      exact BitVec.eq_of_toNat_eq (by rw [BitVec.toNat_ofNat, Nat.mod_eq_of_lt hf])
theorem Memory.raw_of_bytes {m : Memory} {k v n : Nat} (h : ∀ i, i < n → m.byte (k + i) = BitVec.ofNat 8 (v / 256 ^ i)) :
    m.raw k n = v % 256 ^ n := by
  induction n generalizing k v with
  | zero => simp [Memory.raw, Nat.mod_one]
  | succ n ih =>
    have htail : m.raw (k + 1) n = v / 256 % 256 ^ n := ih fun i hi => by
      rw [show k + 1 + i = k + (i + 1) by omega, h (i + 1) (by omega), Nat.div_div_eq_div_mul, pow_succ, Nat.mul_comm]
    have hhead := h 0 (by omega)
    rw [Nat.add_zero, pow_zero, Nat.div_one] at hhead
    rw [Memory.raw, htail, hhead, BitVec.toNat_ofNat, pow_succ 256 n, Nat.mul_comm (256 ^ n) 256, Nat.mod_mul]
theorem Memory.word_of_bytes {m : Memory} {k : Nat} {v : Word} (h : ∀ i, i < 8 → m.byte (k + i) = BitVec.ofNat 8 (v.toNat / 256 ^ i)) :
    m.word k = v := by
  refine BitVec.eq_of_toNat_eq ?_
  rw [Memory.word, Memory.raw_of_bytes h, BitVec.toNat_ofNat]
  have := v.isLt
  omega

/-! ### Places of a ring (12 R264) -/

section Ring
variable {r : Ring} {line o x : Nat}

theorem ringByte_mod (hb : r.base % 64 = 0) : ringByte r line o % 64 = o % 64 := by
  have h : (64 * line + o) % (64 * r.size) % 64 = (64 * line + o) % 64 := Nat.mod_mul_right_mod ..
  rw [ringByte]; omega
theorem ringByte_add {i : Nat} (hpos : 0 < r.size) (h : o % 64 + i < 64) : ringByte r line (o + i) = ringByte r line o + i := by
  have hmod : (64 * line + o) % (64 * r.size) % 64 = (64 * line + o) % 64 := Nat.mod_mul_right_mod ..
  have hlt := Nat.mod_lt (64 * line + o) (show 0 < 64 * r.size by omega)
  have hsum : (64 * line + (o + i)) % (64 * r.size) = (64 * line + o) % (64 * r.size) + i := by
    rw [← Nat.add_assoc, Nat.add_mod, Nat.mod_eq_of_lt (a := i) (by omega), Nat.mod_eq_of_lt (by omega)]
  rw [ringByte, ringByte, hsum]; omega
theorem ringByte_inj (ho : o < 64 * r.size) (hx : x < 64 * r.size) (h : ringByte r line o = ringByte r line x) : o = x := by
  have hmod : (64 * line + o) ≡ (64 * line + x) [MOD 64 * r.size] := by
    rw [ringByte, ringByte] at h; exact Nat.add_left_cancel h
  exact Nat.ModEq.eq_of_lt_of_lt (Nat.ModEq.add_left_cancel' _ hmod) ho hx
end Ring

/-- A message that takes its lines at the tail, without a pad: what becomes of the ring (12 R264). -/
theorem Ring.accept_atTail {a r : Ring} {m line len : Nat} {si : BitVec 32} (h : a.accept m si len = some (line, none, r)) :
    r.base = a.base ∧ r.size = a.size ∧ m ≤ a.size ∧ r.msgs = a.msgs ++ [{ line := line, lines := m, sinst := si, len := len }] := by
  unfold Ring.accept at h
  dsimp only at h
  split at h
  · cases h
  split at h
  · split at h
    · next hroom =>
      obtain ⟨rfl, rfl⟩ : a.tail = line ∧ _ = r := by simpa using h
      exact ⟨rfl, rfl, by simp at hroom; exact hroom.2, rfl⟩
    · cases h
  split at h
  · simp at h
  · cases h

/-! ### The record of a message in its ring (12 R264) -/

/-- Between words the body of a message is only counted. -/
theorem State.putBody_skip (s : State) (r : Ring) (line : Nat) {o k : Nat} (hk : o % 8 + (k + 1) = 8) (bs : List Byte) (ps : List Bool)
    (ho : o % 8 ≠ 0) : s.putBody r line o bs ps = s.putBody r line (o + (k + 1)) (bs.drop (k + 1)) (ps.drop 1) := by
  induction k generalizing o bs with
  | zero =>
    cases bs with
    | nil => rfl
    | cons b bs => rw [State.putBody]; dsimp only; rw [if_neg ho, if_pos (by omega)]; rfl
  | succ k ih =>
    cases bs with
    | nil => rfl
    | cons b bs =>
      rw [State.putBody]
      dsimp only
      rw [if_neg ho, if_neg (by omega), ih (by omega) bs (by omega), show o + 1 + (k + 1) = o + (k + 1 + 1) by omega]
      rfl
/-- At the start of a word the body's next bytes, eight at most, are stored at once. -/
theorem State.putBody_word (s : State) (r : Ring) (line : Nat) {o : Nat} (ho : o % 8 = 0) {bs : List Byte} (hbs : bs ≠ []) (ps : List Bool) :
    s.putBody r line o bs ps = (s.devStore (s.ctx.winKey (ringByte r line o)) (Nat.min 8 bs.length)
      ((List.range (Nat.min 8 bs.length)).foldl (fun a i => a + (bs.getD i 0).toNat * 2 ^ (8 * i)) 0) (ps.headD false)).putBody r line (o + 8)
        (bs.drop 8) (ps.drop 1) := by
  cases bs with
  | nil => exact absurd rfl hbs
  | cons b bs =>
    rw [State.putBody]
    dsimp only
    rw [if_pos ho, if_neg (by omega), State.putBody_skip _ r line (k := 6) (by omega) bs ps (by omega)]
    rfl

/-- Nothing but memory differs. -/
def State.SameButMem (s t : State) : Prop := t = { s with mem := t.mem }
theorem State.onMem_sameButMem (s : State) (f : Memory → Memory) : s.SameButMem (s.onMem f) := rfl
theorem State.SameButMem.trans {s t u : State} (h : s.SameButMem t) (g : t.SameButMem u) : s.SameButMem u := by
  unfold State.SameButMem at *; rw [g, h]
theorem State.SameButMem.ctx {s t : State} (h : s.SameButMem t) : t.ctx = s.ctx := by rw [h]
theorem State.SameButMem.fir {s t : State} (h : s.SameButMem t) : t.fir = s.fir := by rw [h]
theorem State.SameButMem.dev {s t : State} (h : s.SameButMem t) : t.dev = s.dev := by rw [h]

section Record
variable {c : Ctx} {r : Ring} {line : Nat} (hrow : c.id.row + 2 ^ (9 + c.id.wlog.toNat) ≤ 4096) (hb : r.base % 64 = 0)
include hrow hb

section Store
variable {m : Memory} (hwf : m.wf = true) {kv : Option (BitVec 512)} {o n v x : Nat} {p : Bool} (ho : o % 8 = 0) (hn : n ≤ 8)
  (hmax : o + n ≤ 64 * r.size) (hx : x < 64 * r.size) (hp : n = 8 ∨ m.poisoned (c.winKey (ringByte r line o)) = false)
include hwf ho hn hmax hx hp
/-- A store to a word of a ring, at the places of the ring. -/
theorem storeMem_ringByte : (storeMem m kv (c.winKey (ringByte r line o)) n v p).byte (c.winKey (ringByte r line x)) =
    if o ≤ x ∧ x < o + n then BitVec.ofNat 8 (v / 256 ^ (x - o)) else m.byte (c.winKey (ringByte r line x)) := by
  have hmod := ringByte_mod (line := line) (o := o) hb
  rw [storeMem_byte hrow hwf (by omega) hn hp]
  by_cases hin : o ≤ x ∧ x < o + n
  · have hxo : ringByte r line x = ringByte r line o + (x - o) := by
      rw [← ringByte_add (by omega) (by omega), show o + (x - o) = x by omega]
    rw [if_pos hin, if_pos (by omega), show ringByte r line x - ringByte r line o = x - o by omega]
  · rw [if_neg hin, if_neg]
    rintro ⟨hle, hlt⟩
    have hxo : ringByte r line x = ringByte r line (o + (ringByte r line x - ringByte r line o)) := by
      rw [ringByte_add (by omega) (by omega)]; omega
    have := ringByte_inj hx (by omega) hxo
    omega
omit hmax in
theorem storeMem_ringPois (hlt : o < 64 * r.size) (hword : x / 8 ≠ o / 8) : (storeMem m kv (c.winKey (ringByte r line o)) n v p).poisoned
    (c.winKey (ringByte r line x)) = m.poisoned (c.winKey (ringByte r line x)) := by
  have hmod := ringByte_mod (line := line) (o := o) hb
  have hmodx := ringByte_mod (line := line) (o := x) hb
  rw [storeMem_pois hrow hwf hn hp, if_neg]
  intro heq
  have hxo : ringByte r line x = ringByte r line (o + x % 8) := by
    rw [ringByte_add (by omega) (by omega)]; omega
  have := ringByte_inj hx (by omega) hxo
  omega
end Store

/-- The body of a message stands in the ring byte by byte, and what stood before it is left. -/
theorem State.putBody_bytes {s : State} (hc : s.ctx = c) {bs : List Byte} {o : Nat} (ps : List Bool) (ho : o % 8 = 0)
    (hmax : o + bs.length ≤ 64 * r.size) (hwf : s.mem.wf = true)
    (hclean : ∀ x, o ≤ x → x < 64 * r.size → s.mem.poisoned (c.winKey (ringByte r line x)) = false) :
    s.SameButMem (s.putBody r line o bs ps)
      ∧ (∀ i, i < bs.length → (s.putBody r line o bs ps).mem.byte (c.winKey (ringByte r line (o + i))) = bs.getD i 0)
      ∧ ∀ x, x < o → (s.putBody r line o bs ps).mem.byte (c.winKey (ringByte r line x)) = s.mem.byte (c.winKey (ringByte r line x)) := by
  induction hlen : bs.length using Nat.strong_induction_on generalizing s o bs ps with
  | _ len ih =>
    subst hlen
    by_cases hbs : bs = []
    · subst hbs
      exact ⟨rfl, fun i hi => absurd hi (Nat.not_lt_zero i), fun _ _ => rfl⟩
    have hpos := List.length_pos_iff.2 hbs
    have hfirst : s.mem.poisoned (c.winKey (ringByte r line o)) = false := hclean o (le_refl o) (by omega)
    have hmin : Nat.min 8 bs.length ≤ 8 ∧ Nat.min 8 bs.length ≤ bs.length := ⟨Nat.min_le_left .., Nat.min_le_right ..⟩
    have hdig := (foldl_digits (fun i => bs.getD i 0) (Nat.min 8 bs.length)).2
    rw [State.putBody_word s r line ho hbs ps, hc]
    generalize (List.range (Nat.min 8 bs.length)).foldl (fun a i => a + (bs.getD i 0).toNat * 2 ^ (8 * i)) 0 = v at hdig
    have hstore : s.devStore (c.winKey (ringByte r line o)) (Nat.min 8 bs.length) v (ps.headD false) = s.onMem fun m =>
        storeMem m none (c.winKey (ringByte r line o)) (Nat.min 8 bs.length) v (ps.headD false) := by
      rw [State.devStore, hfirst, Bool.and_false]; rfl
    rw [hstore]
    have hbyte {x : Nat} (hx : x < 64 * r.size) := storeMem_ringByte hrow hb hwf (kv := none) (v := v) (p := ps.headD false) (line := line)
      ho hmin.1 (by omega) hx (.inr hfirst)
    have hpois {x : Nat} (hx : x < 64 * r.size) := storeMem_ringPois hrow hb hwf (kv := none) (v := v) (p := ps.headD false) (line := line)
      ho hmin.1 hx (.inr hfirst) (by omega)
    by_cases hmore : bs.length ≤ 8
    · rw [List.drop_eq_nil_of_le hmore]
      refine ⟨rfl, fun i hi => ?_, fun x hx => (hbyte (by omega)).trans (if_neg (by omega))⟩
      have hall : Nat.min 8 bs.length = bs.length := Nat.min_eq_right hmore
      refine (hbyte (by omega)).trans ((if_pos ⟨by omega, by omega⟩).trans ?_)
      rw [Nat.add_sub_cancel_left]
      exact hdig i (by omega)
    · have height : Nat.min 8 bs.length = 8 := Nat.min_eq_left (by omega)
      rw [height] at hdig hbyte hpois ⊢
      obtain ⟨hsame, hnew, hold⟩ := ih (bs.drop 8).length (by rw [List.length_drop]; omega)
        (s := s.onMem fun m => storeMem m none (c.winKey (ringByte r line o)) 8 v (ps.headD false)) hc (ps.drop 1) (o := o + 8)
        (by omega) (by rw [List.length_drop]; omega) (storeMem_wf hwf ..)
        (fun x hox hx => (hpois hx (by omega)).trans (hclean x (by omega) hx)) rfl
      refine ⟨(State.onMem_sameButMem ..).trans hsame, fun i hi => ?_, fun x hx => (hold x (by omega)).trans ((hbyte (by omega)).trans
        (if_neg (by omega)))⟩
      rcases Nat.lt_or_ge i 8 with h8 | h8
      · refine (hold (o + i) (by omega)).trans ((hbyte (by omega)).trans ((if_pos (by omega)).trans ?_))
        rw [Nat.add_sub_cancel_left]
        exact hdig i h8
      · have hi' := hnew (i - 8) (by rw [List.length_drop]; omega)
        rw [show o + 8 + (i - 8) = o + i by omega] at hi'
        rw [hi', List.getD_eq_getElem?_getD, List.getD_eq_getElem?_getD, List.getElem?_drop, show 8 + (i - 8) = i by omega]

/-- The header word and the body of a message at its places of the ring. -/
theorem State.putRecord_bytes {s : State} (hc : s.ctx = c) {n : Nat} {p : Packet} (hr : c.rings.getD n {} = r)
    (hmax : 8 + p.body.length ≤ 64 * r.size) (hwf : s.mem.wf = true) (hclean : ∀ o, s.mem.poisoned (c.winKey o) = false) :
    let t := s.putRecord n line none p
    s.SameButMem t ∧ t.mem.word (c.winKey (ringByte r line 0)) = recHeader p.sinst p.sseq p.body.length
      ∧ ∀ i, i < p.body.length → t.mem.byte (c.winKey (ringByte r line (8 + i))) = p.body.getD i 0 := by
  intro t
  have hmod := ringByte_mod (line := line) (o := 0) hb
  have hput : t = (s.onMem fun m => storeMem m none (c.winKey (ringByte r line 0)) 8 (recHeader p.sinst p.sseq p.body.length).toNat
      false).putBody r line 8 p.body p.bpois := by
    show s.putRecord n line none p = _
    simp only [State.putRecord, hc, hr, State.winPut]
    rfl
  obtain ⟨hsame, hnew, hold⟩ := State.putBody_bytes hrow hb (line := line) (bs := p.body) (o := 8) (s := s.onMem fun m => storeMem m none
    (c.winKey (ringByte r line 0)) 8 (recHeader p.sinst p.sseq p.body.length).toNat false) hc p.bpois (by decide) hmax (storeMem_wf hwf ..)
    (fun x h8 hx => (storeMem_ringPois hrow hb hwf (by decide) (le_refl 8) hx (.inl rfl) (by omega) (by omega)).trans (hclean _))
  rw [← hput] at hsame hnew hold
  refine ⟨(State.onMem_sameButMem ..).trans hsame, Memory.word_of_bytes fun i hi => ?_, hnew⟩
  rw [← Ctx.winKey_add c (by omega), ← ringByte_add (by omega) (by omega), hold (0 + i) (by omega)]
  refine (storeMem_ringByte hrow hb hwf (by decide) (le_refl 8) (by omega) (by omega) (.inl rfl)).trans ((if_pos (by omega)).trans ?_)
  rw [Nat.zero_add, Nat.sub_zero]

end Record

/-! ### Arrivals (12 R264; 05 R130) -/

section Arrival
variable {s : State} {n : Nat} {p : Packet}

theorem State.messageAt_refused (hj : (s.dev.slotOf p.job).isSome = true) (hr : s.receiver p = none) : s.messageAt n p = s.refuseMsg n p := by
  have hjob : ¬(s.dev.slotOf p.job).isNone = true := by rw [Option.isNone_iff_eq_none]; intro h; simp [h] at hj
  rw [State.messageAt, if_neg hjob, hr]
/-- A message for the context in focus, with room in its ring: it is written there and answered. -/
theorem State.messageAt_enters {line : Nat} {r : Ring} (hj : (s.dev.slotOf p.job).isSome = true) (hr : s.receiver p = some s.ctx)
    (hown : (s.ctx.id.present = true ∧ p.ctx = s.ctx.id.uid) ∨ p.srcMod ≠ (s.tileOf p.pos).module) (hlog : s.ctx.logOn = false)
    (hpres : s.ctx.id.present = true)
    (hacc : (s.ctx.rings.getD p.ring.toNat {}).accept (msgLines p.body.length) p.sinst p.body.length = some (line, none, r))
    {t : State} (ht : (s.onCtx fun c => { c with rings := setV c.rings p.ring.toNat r }).putRecord p.ring.toNat line none p = t)
    (hsame : (s.onCtx fun c => { c with rings := setV c.rings p.ring.toNat r }).SameButMem t) :
    s.messageAt n p = if p.srcMod = (s.tileOf p.pos).module then (t.dropPacket n).sendDone p.ctx p.send stOK
      else (t.dropPacket n).reply p .accept := by
  have hjob : ¬(s.dev.slotOf p.job).isNone = true := by rw [Option.isNone_iff_eq_none]; intro h; simp [h] at hj
  have hfull : s.steersFull p = false := by
    rw [State.steersFull]
    rcases hown with ⟨-, huid⟩ | hmod
    · have hfocus : s.focusCtx p.ctx = s := by rw [State.focusCtx, if_pos ⟨huid.symm, hpres⟩]
      have hnone (tag : Nat) (hasRec : Bool) (blk : Word) : s.steeredCmd 5 37 tag hasRec blk = none := by simp [State.steeredCmd, hlog]
      simp [hfocus, hnone]
    · simp [hmod]
  have hself : s.focusCtx s.ctx.id.uid = s := by rw [State.focusCtx, if_pos ⟨rfl, hpres⟩]
  have hsettle (x : LogRec) : s.settleArrive x = (s, true) := by simp [State.settleArrive, hlog]
  have hctx : t.ctx.id = s.ctx.id := by rw [hsame.ctx]; rfl
  have hback : (t.focusCtx s.ctx.id.uid).focusFir s.fir.id = t := by
    have hf : t.focusCtx s.ctx.id.uid = t := by rw [State.focusCtx, if_pos ⟨by rw [hctx], by rw [hctx]; exact hpres⟩]
    have hfir : t.fir = s.fir := hsame.fir
    rw [hf, ← hfir, State.focusFir_self]
  have hmod : (t.tileOf p.pos).module = (s.tileOf p.pos).module := by rw [hsame]; rfl
  simp only [State.messageAt, if_neg hjob, hr, hacc, hfull, hself, hsettle, ht, hback, Bool.false_eq_true, if_false]
  rw [show ((t.dropPacket n).tileOf p.pos).module = (s.tileOf p.pos).module from hmod]

/-- An exchange that arrives is counted and is no longer on its way. -/
theorem State.exchangeAt_counted (hj : (s.dev.slotOf p.job).isSome = true) :
    s.exchangeAt n p = ((s.dropPacket n).onCop p.pos p.job Counters.consume).onPart p.send fun x => { x with out := none } := by
  have hjob : ¬((s.dropPacket n).dev.slotOf p.job).isNone = true := by
    show ¬(s.dev.slotOf p.job).isNone = true
    rw [Option.isNone_iff_eq_none]; intro h; simp [h] at hj
  rw [State.exchangeAt]
  exact if_neg hjob
theorem State.onPart_ended (s : State) (id : Nat) : ∀ c ∈ (s.onPart id fun x => { x with out := none }).dev.colls, ∀ y ∈ c.parts,
    y.out ≠ some id := by
  intro c hc y hy
  obtain ⟨a, -, rfl⟩ := List.mem_map.1 hc
  obtain ⟨b, -, rfl⟩ := List.mem_map.1 hy
  split
  · exact nofun
  · next h => exact h

end Arrival

/-- Settles O39: each packet by where it stands and what it is. -/
theorem packetsMoveAndArrive : Obligations.PacketsMoveAndArrive := by
  intro s n p hn here own
  refine ⟨fun hd => ⟨exec_messageArrival_away hn hd, exec_nackArrival_away hn hd, exec_lostNotice_away hn hd⟩,
    fun d next hmod hdie hstep hslot hkerf hfar => (exec_packetForward_inDie hn hmod hdie).trans
      (congrArg Host.Outcome.next (State.meshHop_moves hstep hslot hkerf hfar)),
    meshStep_alongRow, meshStep_alongColumn, fun hk hd hj hr => ?_, fun hk hd hj => ?_,
    fun d next x hk hmod hdie hsrc ho _ hstep hslot hkerf hs hx hj => ?_,
    fun line r hk hd hj hr ho hlog hpres hwf hlen hacc hb hwin hrow hclean => ?_, fun hk hd ho x hs hx hexp => ?_,
    fun m x hm hf => exec_ksendRetry_flying hm hf, fun x c hu hs hf hl hr hc hi hw => ?_, fun hk hd ho x hs hx => ?_,
    fun hk hd ho x hs hx => ?_⟩
  · have htiles := State.onNet_same (s.dropPacket n) p.pos p.job Counters.consume
    refine ⟨_, (exec_messageArrival_msg hn hd hk).trans (congrArg Host.Outcome.next (State.messageAt_refused hj hr)), htiles.mem, htiles.fir, htiles.ctx, ?_,
      State.netCnt_onNet (s := s.dropPacket n) hj _⟩
    have hmodule : (((s.dropPacket n).onNet p.pos p.job Counters.consume).tileOf p.pos).module = here := by
      rw [State.onNet]
      split
      · rfl
      · exact State.tileOf_onTileOf_keeps (fun _ => by rfl) Tile.module (fun _ => by rfl) _
    show ((s.dropPacket n).onNet p.pos p.job Counters.consume).dev.packets ++ [p.answer .nack _] = _
    rw [htiles.dev, hmodule]
    rfl
  · have htiles := State.onCop_same (s.dropPacket n) p.pos p.job Counters.consume
    refine ⟨_, (exec_messageArrival_coll hn hd hk).trans (congrArg Host.Outcome.next (State.exchangeAt_counted hj)), htiles.mem, htiles.fir, htiles.ctx,
      congrArg Dev.packets htiles.dev, State.copCnt_onCop (s := s.dropPacket n) hj _, State.onPart_ended _ _⟩
  · obtain ⟨u, hu, hdrop⟩ := State.kerfDrop_own_module (s := s.dropPacket n) (n := p.pos) (d := d) hk hsrc
    have htiles := State.onNet_same u p.src p.job Counters.lose
    have hctx : (u.onNet p.src p.job Counters.lose).ctx = s.ctx := htiles.ctx.trans hu.ctx
    have hslots : (u.dev.slotOf p.job).isSome = true := by rw [Dev.slotOf, hu.jobs]; exact hj
    obtain ⟨r, hr, hdone⟩ := State.sendDone_only (s := u.onNet p.src p.job Counters.lose) (uid := p.ctx) (st := stKERF)
      (by rw [hctx, ho.1]) (by rw [hctx, ho.2]) (by rw [hctx, hs]) hx (codeOf_status (by decide) _ _)
    refine ⟨_, (exec_packetForward_inDie hn hmod hdie).trans (congrArg Host.Outcome.next
      ((State.meshHop_dropped hstep hslot hk hkerf).trans (hdrop.trans hdone))), ?_, rfl, ?_, ?_, ?_, r, ?_, hr⟩
    · exact (congrArg Dev.packets htiles.dev).trans hu.packets
    · exact htiles.mem.trans hu.mem
    · exact htiles.fir.trans hu.fir
    · exact (State.netCnt_onNet hslots _).trans (congrArg Counters.lose (State.netCnt_congr hu.jobs (hu.net _)))
    · show (u.onNet p.src p.job Counters.lose).ctx.sync.evqHeld ++ [r] = _
      rw [hctx]
  · obtain ⟨hbase, hsize, hm, hmsgs⟩ := Ring.accept_atTail hacc
    have hring : (setV s.ctx.rings p.ring.toNat r).getD p.ring.toNat {} = r := (getV_setV ..).trans (if_pos ⟨rfl, p.ring.isLt⟩)
    have hmax : 8 + p.body.length ≤ 64 * r.size := by rw [msgLines] at hm; omega
    obtain ⟨hsame, hhead, hbytes⟩ := State.putRecord_bytes (c := { s.ctx with rings := setV s.ctx.rings p.ring.toNat r }) hrow hb (line := line)
      (s := s.onCtx fun c => { c with rings := setV c.rings p.ring.toNat r }) rfl hring hmax hwf hclean
    have henter := State.messageAt_enters (n := n) hj hr ho hlog hpres hacc rfl hsame
    generalize (s.onCtx fun c => { c with rings := setV c.rings p.ring.toNat r }).putRecord p.ring.toNat line none p = t at hsame hhead hbytes henter
    rw [exec_messageArrival_msg hn hd hk, henter]
    by_cases hsrc : p.srcMod = (s.tileOf p.pos).module
    · obtain ⟨hp, huid⟩ : own := ho.resolve_right (not_not.2 hsrc)
      rw [if_pos hsrc]
      have hctx : (t.dropPacket n).ctx = { s.ctx with rings := setV s.ctx.rings p.ring.toNat r } := hsame.ctx
      cases hfind : s.ctx.sends.find? (·.id == p.send) with
      | none =>
        rw [State.sendDone_unknown (by rw [hctx]; exact hp) (by rw [hctx]; exact huid.symm) (by rw [hctx]; exact hfind)]
        refine ⟨_, rfl, hsame.fir, ?_, ⟨_, hmsgs⟩, ?_, hbytes, fun _ _ x hs hx _ => ?_⟩
        · rw [hctx]; exact hring
        · show (t.dropPacket n).mem.word ((t.dropPacket n).ctx.winKey _) = _
          rw [hctx]; exact hhead
        · simp [hs, hx] at hfind
      | some x =>
        rw [State.sendDone_focus (by rw [hctx]; exact hp) (by rw [hctx]; exact huid.symm) (by rw [hctx]; exact hfind) (by decide)]
        obtain ⟨l, hended⟩ := Ctx.sendEnded_ok (c := (t.dropPacket n).ctx) (id := p.send) (x := x) (st := stOK) (by decide)
        refine ⟨_, rfl, hsame.fir, ?_, ⟨_, hmsgs⟩, ?_, hbytes, fun _ _ y hs hy _ => ?_⟩
        · rw [State.onCtx_ctx, hended, hctx]; exact hring
        · show (t.dropPacket n).mem.word (Ctx.winKey (Ctx.sendEnded _ _ _ _) _) = _
          rw [hended, hctx]; exact hhead
        · rw [State.onCtx_ctx, hended, hctx]; simp [hs, hy]
    · rw [if_neg hsrc]
      refine ⟨_, rfl, hsame.fir, ?_, ⟨_, hmsgs⟩, ?_, hbytes, fun _ h => absurd h hsrc⟩
      · show t.ctx.rings.getD _ _ = r
        rw [hsame.ctx]; exact hring
      · show t.mem.word (t.ctx.winKey _) = _
        rw [hsame.ctx]; exact hhead
  · have hfind : s.ctx.sends.find? (·.id == p.send) = some x := by simp [hs, hx]
    have htiles := State.onNet_same s s.ctx.id.tile s.ctx.id.job Counters.inject
    have hback := State.nacked_unexpired (id := p.send) ho.1 ho.2.symm hfind hexp false
    rw [exec_nackArrival_here hn hd hk, hback]
    simp only [Bool.false_eq_true, if_false]
    set t := (s.onNet s.ctx.id.tile s.ctx.id.job Counters.inject).onCtx fun c => c.onSend p.send fun y => { y with
      flying := false, interval := if x.interval = 0 then 32 else Nat.min (2 * x.interval) 1024
      retryAt := some (c.csr.budget.toNat + if x.interval = 0 then 32 else Nat.min (2 * x.interval) 1024) }
    have hsends : t.ctx.sends = [{ x with
        flying := false, interval := if x.interval = 0 then 32 else Nat.min (2 * x.interval) 1024
        retryAt := some (s.ctx.csr.budget.toNat + if x.interval = 0 then 32 else Nat.min (2 * x.interval) 1024) }] := by
      simp only [t, State.onCtx_ctx, Ctx.onSend, htiles.ctx, hs, List.map_cons, List.map_nil, hx, if_true]
    have hland : t.inFlight p.ctx p.send = false := by
      have hid : t.ctx.id = s.ctx.id := (congrArg Ctx.id htiles.ctx : (s.onNet s.ctx.id.tile s.ctx.id.job Counters.inject).ctx.id = _)
      have hctx : t.ctxOf p.ctx = some t.ctx := by
        rw [ho.2, ← hid]; exact State.ctxOf_focus (by rw [hid]; exact ho.1)
      simp [State.inFlight, hctx, hsends, hx]
    rw [hland]
    exact ⟨_, rfl, congrArg (List.eraseIdx · n) (congrArg Dev.packets htiles.dev), htiles.mem, htiles.fir, hsends,
      fun hj => State.netCnt_onNet hj _⟩
  · have hfind : s.ctx.sends.find? (·.id == x.id) = some x := by simp [hs]
    rw [exec_ksendRetry_ripe hs hf hl hr hc, State.attempt_known hfind hu hi]
    dsimp only
    rw [if_pos hw]
    exact ⟨_, _, rfl, rfl, rfl, rfl, rfl, rfl, rfl, by simp [State.onCtx, Ctx.onSend, hs], rfl⟩
  · obtain ⟨r, hr, hdone⟩ := State.sendDone_only (s := s.dropPacket n) (st := stLOST) ho.1 ho.2.symm hs hx (codeOf_status (by decide) _ _)
    exact ⟨_, (exec_lostNotice_here hn hd hk).trans (congrArg Host.Outcome.next hdone), rfl, rfl, rfl, r, rfl, hr⟩
  · have htiles := State.onNet_same (s.dropPacket n) p.pos p.job Counters.lose
    have hctx : ((s.dropPacket n).onNet p.pos p.job Counters.lose).ctx = s.ctx := htiles.ctx
    obtain ⟨r, hr, hdone⟩ := State.sendDone_only (s := (s.dropPacket n).onNet p.pos p.job Counters.lose) (uid := p.ctx)
      (st := stKERF) (by rw [hctx, ho.1]) (by rw [hctx, ho.2]) (by rw [hctx, hs]) hx (codeOf_status (by decide) _ _)
    refine ⟨_, (exec_messageArrival_kerf hn hd hk).trans (congrArg Host.Outcome.next hdone), rfl, htiles.mem, htiles.fir, r, ?_, hr⟩
    show ((s.dropPacket n).onNet p.pos p.job Counters.lose).ctx.sync.evqHeld ++ [r] = _
    rw [hctx]

end Sys2Proof.Machine
end

-- ==== Proofs of the message family: KSEND, KRECV and KPOLL (12 R263 to R265; 05 R112, R115, R117, R130) ====
section
/-! PROOFS. KSEND is checked in order at issue; at its engine it becomes a send with the bytes of its body, and that is attempted. KRECV and
KPOLL read the same ring: pads at HEAD are skipped, and the first message behind them is what both answer. -/

namespace Sys2Proof.Machine

section Ksend
variable {s : State} {rec : Bool} {tag : BitVec 4} {t0 t1 : Cons} {e : Eff}

/-! ### KSEND at issue (12 R263; 05 R112) -/

theorem hdrOk_iff {win a : Nat} {h : Word} : hdrOk win a h = true ↔
    bitsN h 63 45 = 0 ∧ 1 ≤ bitsN h 44 36 ∧ bitsN h 44 36 ≤ 256 ∧ a + 8 + bitsN h 44 36 ≤ win := by
  show _ ↔ bitsN h 63 45 = 0 ∧ 1 ≤ hdrLen h ∧ hdrLen h ≤ 256 ∧ a + 8 + hdrLen h ≤ win
  simp [hdrOk, and_assoc]
theorem exec_ksend_poison (hw : s.who = .core) (hp : s.opA.poison = true) : exec (.ksend rec tag t0 t1) s = .next (s.slotFault 4 0 7 0) := by
  show execKsend rec tag t0 t1 s = _
  simp only [execKsend, hw]
  exact if_pos hp
section Unpoisoned
variable (hw : s.who = .core) (hp : s.opA.poison = false)
include hw hp
theorem exec_ksend_latePoison (hb : s.opB.poison = true) : exec (.ksend rec tag t0 t1) s = .next (s.slotFault 4 0 3 0) := by
  show execKsend rec tag t0 t1 s = _
  simp only [execKsend, hw, hp, Bool.false_eq_true, if_false, State.withDeadline_poison hb]
variable (hb : s.opB.poison = false)
include hb
theorem exec_ksend_illegal (hd : s.deadline s.b = .illegal) : exec (.ksend rec tag t0 t1) s = .next (s.slotFault 6 0x0C6 s.b 0) := by
  show execKsend rec tag t0 t1 s = _
  simp only [execKsend, hw, hp, Bool.false_eq_true, if_false, State.withDeadline_illegal hb hd]
  rfl
/-- With a legal deadline the address, the header's poison and the header are checked in turn. -/
theorem exec_ksend_legal (hd : s.deadline s.b ≠ .illegal) (hu : s.dev.upsets = []) : exec (.ksend rec tag t0 t1) s = .next (
    if ¬(s.a.toNat % 8 = 0 ∧ s.a.toNat + 8 ≤ s.ctx.winSize) then s.slotFault 6 0x030 s.a 0
    else if s.seen.poisoned (s.ctx.winKey s.a.toNat) then s.slotFault 4 0 7 0
    else if hdrOk s.ctx.winSize s.a.toNat (s.seen.word (s.ctx.winKey s.a.toNat)) then
      (s.hold { slot := 0, ins := .ksend rec tag none none, a := s.opA, b := s.opB, ws := [s.seen.word (s.ctx.winKey s.a.toNat)] }).emit
        [(t0, ⟨0, false⟩), (t1, ⟨0, false⟩)]
    else s.slotFault 6 0x030 (s.seen.word (s.ctx.winKey s.a.toNat)) 0) := by
  have hplace : (s.opA.val.toNat % 8 ≠ 0 ∨ s.ctx.winSize < s.opA.val.toNat + 8) ↔ ¬(s.a.toNat % 8 = 0 ∧ s.a.toNat + 8 ≤ s.ctx.winSize) := by
    show (s.a.toNat % 8 ≠ 0 ∨ s.ctx.winSize < s.a.toNat + 8) ↔ _
    omega
  show execKsend rec tag t0 t1 s = _
  simp only [execKsend, hw, hp, Bool.false_eq_true, if_false, State.withDeadline_legal hb hd, State.touch_of_no_upsets hu, if_congr hplace rfl rfl]
  refine congrArg Host.Outcome.next (if_congr Iff.rfl rfl (if_congr Iff.rfl rfl ?_))
  show (if (!hdrOk s.ctx.winSize s.a.toNat (s.seen.word (s.ctx.winKey s.a.toNat))) = true then _ else _) = _
  cases hdrOk s.ctx.winSize s.a.toNat (s.seen.word (s.ctx.winKey s.a.toNat)) <;> rfl
end Unpoisoned

/-! ### KSEND at its engine (12 R263) -/

theorem exec_ksend_waits (hw : s.who = .cmd e) (hwp : e.wp = []) (hr : s.readWaits e (s.ctx.bodyKeys e) = true) :
    exec (.ksend rec tag t0 t1) s = .next s := by
  show execKsend rec tag t0 t1 s = _
  simp [execKsend, hw, hwp, hr]
theorem exec_ksend_reads (hw : s.who = .cmd e) (hwp : e.wp = []) (hr : s.readWaits e (s.ctx.bodyKeys e) = false) (hu : s.dev.upsets = []) :
    exec (.ksend rec tag t0 t1) s = .next ((s.onCtx fun c => { c with kq := c.kq.erase e }).createSend
      ((s.onCtx fun c => { c with kq := c.kq.erase e }).readBody e)) := by
  have htouch : (s.ctx.bodyKeys e).foldl (fun s k => s.touch 0 k 8) (s.onCtx fun c => { c with kq := c.kq.erase e }) =
      s.onCtx fun c => { c with kq := c.kq.erase e } := List.foldl_fixed' (fun k => State.touch_of_no_upsets (s := s.onCtx _) hu 0 k 8) _
  show execKsend rec tag t0 t1 s = _
  simp only [execKsend, hw, hwp, List.isEmpty_nil, Bool.not_true, Bool.false_eq_true, if_false, hr, htouch]

/-- The send that a KSEND with header word `h`, expiry words `x0` and `x1` and a body makes. -/
def State.madeSend (s : State) (e : Eff) (rec : Bool) (tag : BitVec 4) (h x0 x1 : Word) (body : List Byte) (bp : List Bool) : Send :=
  { id := e.ser, tag := BitVec.ofNat 7 tag.toNat, wantRec := rec, dinst := hdrInst h, ring := hdrRing h
    sseq := (s.ctx.nextSseq (hdrInst h) (hdrRing h)).1, len := hdrLen h, body := body, bpois := bp, blk := e.blk
    expiry := if x0 = 1 then some x1.toNat else none, poll := x0 = 2 }
/-- The state in which a send has joined those of the context. -/
def State.withSend (s : State) (x : Send) : State :=
  s.onCtx fun c => { (c.nextSseq x.dinst x.ring).2 with sends := c.sends ++ [x] }

theorem State.madeSend_unexpired {h x1 : Word} {body : List Byte} {bp : List Bool} (hb : s.ctx.csr.budget.toNat < x1.toNat) :
    (s.madeSend e rec tag h 1 x1 body bp).expired s.ctx = false := by simp [State.madeSend, Send.expired, hb]
section Made
variable {h x0 x1 : Word}

theorem hdrInst_toNat (h : Word) : (hdrInst h).toNat = bitsN h 31 0 := by
  rw [hdrInst, BitVec.toNat_ofNat, bitsN_eq_div_mod, pow_zero, Nat.div_one]
theorem hdrRing_toNat (h : Word) : (hdrRing h).toNat = bitsN h 35 32 := by
  rw [hdrRing, BitVec.toNat_ofNat, bitsN_eq_div_mod, Nat.mod_mod_of_dvd _ (by decide)]
/-- A KSEND whose number is new and whose pair has no send under way is attempted with the bytes of its body. -/
theorem State.createSend_readBody (hi : e.ins = .ksend rec tag none none) (hws : e.ws = [h, x0, x1]) (hlq : s.ctx.lq = [])
    (hnew : ∀ y ∈ s.ctx.sends, y.id ≠ e.ser ∧ ¬(y.dinst.toNat = bitsN h 31 0 ∧ y.ring.toNat = bitsN h 35 32)) :
    ∃ bp, s.createSend (s.readBody e) = (s.withSend (s.madeSend e rec tag h x0 x1
      ((List.range (bitsN h 44 36)).map fun i => s.mem.byte (s.ctx.winKey (e.a.val.toNat + 8 + i))) bp)).attempt e.ser := by
  have hmem : s.windowAt e = s.mem := by simp [State.windowAt, hlq]
  have hbytes : ((List.range (hdrLen h)).map fun i => (s.mem.byte (s.ctx.winKey (e.a.val.toNat + 8 + i))).setWidth 64).map (·.setWidth 8)
      = (List.range (bitsN h 44 36)).map fun i => s.mem.byte (s.ctx.winKey (e.a.val.toNat + 8 + i)) := by
    rw [List.map_map]
    exact List.map_congr_left fun i _ => by simp
  have htake : s.ctx.sends.takeWhile (·.id != e.ser) = s.ctx.sends := List.takeWhile_eq_self_iff.2 fun y hy => by simpa using (hnew y hy).1
  refine ⟨(s.ctx.bodyKeys e).map s.mem.poisoned, ?_⟩
  rw [← hbytes]
  set x := s.madeSend e rec tag h x0 x1 (((List.range (hdrLen h)).map fun i =>
    (s.mem.byte (s.ctx.winKey (e.a.val.toNat + 8 + i))).setWidth 64).map (·.setWidth 8)) ((s.ctx.bodyKeys e).map s.mem.poisoned) with hx
  have hbehind : (s.withSend x).ctx.sendBehind x = false := by
    have hsends : (s.withSend x).ctx.sends = s.ctx.sends ++ [x] := rfl
    rw [Ctx.sendBehind, hsends, List.takeWhile_append, show x.id = e.ser from rfl, htake, if_pos rfl]
    rw [List.takeWhile_cons_of_neg (by simp [hx, State.madeSend]), List.append_nil, List.any_eq_false]
    intro y hy hpair
    have hpair : y.dinst = hdrInst h ∧ y.ring = hdrRing h := by simpa [hx, State.madeSend] using hpair
    exact (hnew y hy).2 ⟨by rw [hpair.1, hdrInst_toNat], by rw [hpair.2, hdrRing_toNat]⟩
  have hcreate : s.createSend (s.readBody e) = if (s.withSend x).ctx.sendBehind x then s.withSend x else (s.withSend x).attempt x.id := by
    simp only [State.createSend, State.readBody, hws, hi, hmem]
    rfl
  rw [hcreate, hbehind]
  rfl

section Joined
variable {x : Send} (hnew : ∀ y ∈ s.ctx.sends, y.id ≠ x.id)
include hnew
theorem State.withSend_find : (s.withSend x).ctx.sends.find? (·.id == x.id) = some x := by
  show (s.ctx.sends ++ [x]).find? _ = _
  rw [List.find?_append, List.find?_eq_none.2 fun y hy => by simpa using hnew y hy]
  simp
theorem State.withSend_filter : (s.withSend x).ctx.sends.filter (·.id != x.id) = s.ctx.sends := by
  show (s.ctx.sends ++ [x]).filter _ = _
  rw [List.filter_append, List.filter_eq_self.2 fun y hy => by simpa using hnew y hy]
  simp
theorem State.withSend_onSend (f : Send → Send) : ((s.withSend x).ctx.onSend x.id f).sends = s.ctx.sends ++ [f x] := by
  show (s.ctx.sends ++ [x]).map _ = _
  have hold : (s.ctx.sends.map fun y => if y.id = x.id then f y else y) = s.ctx.sends :=
    (List.map_congr_left fun y hy => if_neg (hnew y hy)).trans (List.map_id _)
  rw [List.map_append, hold]
  simp

/-! What becomes of a send that has just joined: it goes out, or its interface ends it or turns it back. -/

section Attempt
variable (hpres : s.ctx.id.present = true) (hu : s.dev.upsets = [])

include hu in
theorem State.attempt_joined (hi : x.dinst.toNat < s.instances) : (s.withSend x).attempt x.id =
    if (s.placementEntry s.ctx.id.job x.dinst.toNat).getLsbD 63 then
      ((s.withSend x).onDev fun d => { d with packets := d.packets ++ [s.sendPacket x (s.placementEntry s.ctx.id.job x.dinst.toNat)] }).onCtx
        fun c => c.onSend x.id fun y => { y with
          flying := true, retryAt := none, away := bitsN (s.placementEntry s.ctx.id.job x.dinst.toNat) 31 8 ≠ s.tile.module.toNat }
    else (s.withSend x).nacked s.ctx.id.uid x.id true :=
  State.attempt_known (s := s.withSend x) (State.withSend_find hnew) hu hi
include hpres
theorem State.attempt_noInstance_joined (hi : s.instances ≤ x.dinst.toNat) : ∃ t, (s.withSend x).attempt x.id = t
    ∧ t.ctx.sends = s.ctx.sends ∧ t.dev.packets = s.dev.packets ∧ t.mem = s.mem ∧ t.fir = s.fir
    ∧ ((s.dev.slotOf s.ctx.id.job).isSome = true → t.netCnt s.ctx.id.tile s.ctx.id.job = (s.netCnt s.ctx.id.tile s.ctx.id.job).consume)
    ∧ ∃ r, t.ctx.sync.evqHeld = s.ctx.sync.evqHeld ++ [r] ∧ r.status = stNODEST := by
  have hcode : codeOf stNODEST = 5 := codeOf_status (by decide) _ _
  have htiles := State.onNet_same (s.withSend x) s.ctx.id.tile s.ctx.id.job Counters.consume
  have hcnt (hj : (s.dev.slotOf s.ctx.id.job).isSome = true) := State.netCnt_onNet (s := s.withSend x) (n := s.ctx.id.tile) hj Counters.consume
  have hout := State.attempt_noInstance (State.withSend_find hnew) hi
  obtain ⟨r, hst, hended⟩ := Ctx.sendEnded_refused (c := (s.withSend x).ctx) (id := x.id) (x := x) hcode
  have hfilter := State.withSend_filter hnew
  change (s.withSend x).attempt x.id = ((s.withSend x).onNet s.ctx.id.tile s.ctx.id.job Counters.consume).sendDone s.ctx.id.uid x.id stNODEST at hout
  generalize (s.withSend x).onNet s.ctx.id.tile s.ctx.id.job Counters.consume = v at htiles hcnt hout
  rw [State.sendDone_focus (s := v) (x := x) (by rw [htiles.ctx]; exact hpres) (by rw [htiles.ctx]; rfl)
    (by rw [htiles.ctx]; exact State.withSend_find hnew) (by rw [hcode]; decide)] at hout
  refine ⟨_, hout, ?_, congrArg Dev.packets htiles.dev, htiles.mem, htiles.fir, hcnt, r, ?_, hst⟩
  · rw [State.onCtx_ctx, htiles.ctx, hended]; exact hfilter
  · rw [State.onCtx_ctx, htiles.ctx, hended]; rfl
include hu
theorem State.attempt_noEntry_joined (hi : x.dinst.toNat < s.instances)
    (hw : (s.placementEntry s.ctx.id.job x.dinst.toNat).getLsbD 63 = false) (hexp : x.expired s.ctx = false) :
    ∃ t, (s.withSend x).attempt x.id = t ∧ t.dev.packets = s.dev.packets ∧ t.mem = s.mem ∧ t.fir = s.fir
      ∧ t.ctx.sends = s.ctx.sends ++ [{ x with
          flying := false, interval := if x.interval = 0 then 32 else Nat.min (2 * x.interval) 1024
          retryAt := some (s.ctx.csr.budget.toNat + if x.interval = 0 then 32 else Nat.min (2 * x.interval) 1024) }]
      ∧ ((s.dev.slotOf s.ctx.id.job).isSome = true →
          t.netCnt s.ctx.id.tile s.ctx.id.job = (s.netCnt s.ctx.id.tile s.ctx.id.job).consume.inject) := by
  have hout := State.attempt_joined hnew hu hi
  rw [if_neg (ne_true_of_eq_false hw), State.nacked_unexpired (s := s.withSend x) (uid := s.ctx.id.uid) hpres rfl (State.withSend_find hnew) hexp true] at hout
  simp only [if_true] at hout
  rw [show (s.withSend x).ctx.id = s.ctx.id from rfl] at hout
  have hcon := State.onNet_same (s.withSend x) s.ctx.id.tile s.ctx.id.job Counters.consume
  have hinj := State.onNet_same ((s.withSend x).onNet s.ctx.id.tile s.ctx.id.job Counters.consume) s.ctx.id.tile s.ctx.id.job Counters.inject
  refine ⟨_, hout, congrArg Dev.packets (hinj.dev.trans hcon.dev), hinj.mem.trans hcon.mem, hinj.fir.trans hcon.fir, ?_, fun hj => ?_⟩
  · show (Ctx.onSend (State.onNet _ s.ctx.id.tile s.ctx.id.job Counters.inject).ctx x.id _).sends = _
    rw [hinj.ctx, hcon.ctx]
    exact State.withSend_onSend hnew _
  · refine (State.netCnt_onNet (s := (s.withSend x).onNet s.ctx.id.tile s.ctx.id.job Counters.consume) ?_ _).trans
      (congrArg Counters.inject (State.netCnt_onNet (s := s.withSend x) hj _))
    rw [hcon.dev]; exact hj
end Attempt
end Joined
end Made

/-! ### What becomes of a KSEND without an earlier one to its pair (12 R263) -/

/-- The state in which a command has left the queue of the K class. -/
def State.unqueued (s : State) (e : Eff) : State := s.onCtx fun c => { c with kq := c.kq.erase e }
section Alone
variable {h x0 x1 : Word} (hw : s.who = .cmd e) (hi : e.ins = .ksend rec tag none none) (hws : e.ws = [h, x0, x1]) (hwp : e.wp = [])
  (hlq : s.ctx.lq = []) (hr : s.readWaits e (s.ctx.bodyKeys e) = false) (hu : s.dev.upsets = [])
  (hnew : ∀ y ∈ s.ctx.sends, y.id ≠ e.ser ∧ ¬(y.dinst.toNat = bitsN h 31 0 ∧ y.ring.toNat = bitsN h 35 32))
include hw hi hws hwp hlq hr hu hnew

/-- It joins the sends of its context, with the bytes of its body, and is attempted. -/
theorem exec_ksend_joins : ∃ x : Send, x.id = e.ser ∧ x.dinst.toNat = bitsN h 31 0 ∧ x.ring.toNat = bitsN h 35 32 ∧ x.interval = 0
    ∧ x.body = (List.range (bitsN h 44 36)).map (fun i => s.mem.byte (s.ctx.winKey (e.a.val.toNat + 8 + i)))
    ∧ x.sseq = ((s.ctx.sseq.find? fun y => y.1 == x.dinst && y.2.1 == x.ring).map (·.2.2)).getD 0 ∧ (x0 = 1 → s.ctx.csr.budget.toNat < x1.toNat → x.expired (s.unqueued e).ctx = false)
    ∧ exec (.ksend rec tag t0 t1) s = .next (((s.unqueued e).withSend x).attempt x.id) := by
  obtain ⟨bp, hcreate⟩ := State.createSend_readBody (s := s.unqueued e) hi hws hlq hnew
  refine ⟨_, rfl, hdrInst_toNat h, hdrRing_toNat h, rfl, rfl, rfl, fun hx0 hx1 => ?_,
    (exec_ksend_reads hw hwp hr hu).trans (congrArg Host.Outcome.next hcreate)⟩
  subst hx0
  exact State.madeSend_unexpired (s := s.unqueued e) hx1
theorem exec_ksend_sends (hlt : bitsN h 31 0 < s.instances) (hentry : (s.placementEntry s.ctx.id.job (bitsN h 31 0)).getLsbD 63 = true) :
    ∃ (t : State) (p : Packet), exec (.ksend rec tag t0 t1) s = .next t ∧ t.dev.packets = s.dev.packets ++ [p] ∧ p.kind = .msg
      ∧ p.body = (List.range (bitsN h 44 36)).map (fun i => s.mem.byte (s.ctx.winKey (e.a.val.toNat + 8 + i)))
      ∧ p.dst.toNat = bitsN (s.placementEntry s.ctx.id.job (bitsN h 31 0)) 31 0
      ∧ p.dinst.toNat = bitsN h 31 0 ∧ p.ring.toNat = bitsN h 35 32 ∧ p.sinst = BitVec.ofNat 32 s.ctx.id.index
      ∧ p.job = s.ctx.id.job ∧ p.side = s.ctx.id.side ∧ p.pos = s.ctx.id.tile ∧ p.send = e.ser
      ∧ p.sseq = ((s.ctx.sseq.find? fun x => x.1 == p.dinst && x.2.1 == p.ring).map (·.2.2)).getD 0
      ∧ t.mem = s.mem ∧ t.fir = s.fir ∧ t.tile = s.tile := by
  obtain ⟨x, hid, hinst, hring, -, hbody, hseq, -, hexec⟩ := exec_ksend_joins (t0 := t0) (t1 := t1) hw hi hws hwp hlq hr hu hnew
  have hids : ∀ y ∈ (s.unqueued e).ctx.sends, y.id ≠ x.id := fun y hy => by rw [hid]; exact (hnew y hy).1
  rw [← hinst] at hlt hentry ⊢
  have hdst : bitsN (s.placementEntry s.ctx.id.job x.dinst.toNat) 31 0 < 2 ^ 32 := by rw [bitsN_eq_div_mod]; exact Nat.mod_lt _ (by decide)
  exact ⟨_, (s.unqueued e).sendPacket x (s.placementEntry s.ctx.id.job x.dinst.toNat),
    hexec.trans (congrArg Host.Outcome.next ((State.attempt_joined hids hu hlt).trans (if_pos hentry))), rfl, rfl, hbody,
    (BitVec.toNat_ofNat ..).trans (Nat.mod_eq_of_lt hdst), rfl, hring, rfl, rfl, rfl, rfl, hid, hseq,
    by simp [State.withSend, State.unqueued], by simp [State.withSend, State.unqueued], by simp [State.withSend, State.unqueued]⟩
section Present
variable (hpres : s.ctx.id.present = true)
include hpres
theorem exec_ksend_noInstance (hge : s.instances ≤ bitsN h 31 0) : ∃ t, exec (.ksend rec tag t0 t1) s = .next t
    ∧ t.ctx.sends = s.ctx.sends ∧ t.dev.packets = s.dev.packets ∧ t.mem = s.mem ∧ t.fir = s.fir
    ∧ ((s.dev.slotOf s.ctx.id.job).isSome = true → t.netCnt s.ctx.id.tile s.ctx.id.job = (s.netCnt s.ctx.id.tile s.ctx.id.job).consume)
    ∧ ∃ r, t.ctx.sync.evqHeld = s.ctx.sync.evqHeld ++ [r] ∧ r.status = fault 0x082 0 := by
  obtain ⟨x, hid, hinst, -, -, -, -, -, hexec⟩ := exec_ksend_joins (t0 := t0) (t1 := t1) hw hi hws hwp hlq hr hu hnew
  obtain ⟨t, rfl, ht⟩ := State.attempt_noInstance_joined (s := s.unqueued e) (x := x) (fun y hy => by rw [hid]; exact (hnew y hy).1) hpres
    (hge.trans_eq hinst.symm)
  exact ⟨_, hexec, ht⟩
theorem exec_ksend_turnedBack (hlt : bitsN h 31 0 < s.instances)
    (hentry : (s.placementEntry s.ctx.id.job (bitsN h 31 0)).getLsbD 63 = false) (hx0 : x0 = 1) (hx1 : s.ctx.csr.budget.toNat < x1.toNat)
    (hj : (s.dev.slotOf s.ctx.id.job).isSome = true) : ∃ t, exec (.ksend rec tag t0 t1) s = .next t ∧ t.dev.packets = s.dev.packets
      ∧ t.mem = s.mem ∧ t.fir = s.fir
      ∧ (∃ y, t.ctx.sends = s.ctx.sends ++ [y] ∧ y.flying = false ∧ y.interval = 32 ∧ y.retryAt = some (s.ctx.csr.budget.toNat + 32))
      ∧ t.netCnt s.ctx.id.tile s.ctx.id.job = (s.netCnt s.ctx.id.tile s.ctx.id.job).consume.inject := by
  obtain ⟨x, hid, hinst, -, hnever, -, -, hexp, hexec⟩ := exec_ksend_joins (t0 := t0) (t1 := t1) hw hi hws hwp hlq hr hu hnew
  rw [← hinst] at hlt hentry
  obtain ⟨t, rfl, hpk, hmem, hfir, hsends, hcnt⟩ := State.attempt_noEntry_joined (s := s.unqueued e) (x := x)
    (fun y hy => by rw [hid]; exact (hnew y hy).1) hpres hu hlt hentry (hexp hx0 hx1)
  rw [hnever] at hsends
  exact ⟨_, hexec, hpk, hmem, hfir, ⟨_, hsends, rfl, rfl, rfl⟩, hcnt hj⟩
end Present
end Alone

/-! ### Handing over (05 R130) -/

/-- A KSEND of a committing block is counted as injected, and joins the commands before it. -/
theorem State.handOver_ksend {a b : Cons} (hi : e.ins = .ksend rec tag a b) (hq : s.ctx.kq ≠ []) (hu : s.dev.upsets = []) :
    ∃ y, s.handOver e = ((s.counted e).onNet s.ctx.id.tile s.ctx.id.job Counters.inject).onCtx fun c => { c with kq := c.kq ++ [y] } := by
  have hw : s.withFirings e = e := withFirings_plain (by rw [hi]; rfl)
  have htiles := State.onNet_same (s.counted e) s.ctx.id.tile s.ctx.id.job Counters.inject
  set v := (s.counted e).onNet s.ctx.id.tile s.ctx.id.job Counters.inject
  have hkq : v.ctx.kq ≠ [] := by rw [htiles.ctx]; exact hq
  have hv : v.dev.upsets = [] := by rw [htiles.dev]; exact hu
  have htouch (l : List Nat) : l.foldl (fun s k => s.touch 0 k 8) v = v := List.foldl_fixed' (fun k => State.touch_of_no_upsets hv 0 k 8) _
  have hover : s.handOver e = if !(s.counted e).effFree e || v.readWaits ((s.counted e).fixExpiry e) (v.ctx.bodyKeys ((s.counted e).fixExpiry e))
      then v.onCtx fun c => { c with kq := c.kq ++ [(s.counted e).fixExpiry e] }
      else if v.ctx.kq.isEmpty then v.createSend (v.readBody ((s.counted e).fixExpiry e))
      else v.onCtx fun c => { c with kq := c.kq ++ [v.readBody ((s.counted e).fixExpiry e)] } := by
    have hlong : s.handOver e = if !(s.counted e).effFree e || v.readWaits ((s.counted e).fixExpiry e) (v.ctx.bodyKeys ((s.counted e).fixExpiry e))
        then v.onCtx fun c => { c with kq := c.kq ++ [(s.counted e).fixExpiry e] }
        else
          let t := (v.ctx.bodyKeys ((s.counted e).fixExpiry e)).foldl (fun s k => s.touch 0 k 8) v
          if t.ctx.kq.isEmpty then t.createSend (t.readBody ((s.counted e).fixExpiry e))
          else t.onCtx fun c => { c with kq := c.kq ++ [t.readBody ((s.counted e).fixExpiry e)] } := by
      simp only [State.handOver, hw, hi, instrRoute]
      rfl
    simpa only [htouch] using hlong
  rw [hover]
  split
  · exact ⟨_, rfl⟩
  · rw [if_neg (by simpa using hkq)]
    exact ⟨_, rfl⟩
/-- A KRECV takes its message when its block commits. -/
theorem State.handOver_krecv {n : BitVec 4} {a b : Cons} (hi : e.ins = .krecv n a b) : s.handOver e = (s.counted e).commitRecv n.toNat := by
  have hw : s.withFirings e = e := withFirings_plain (by rw [hi]; rfl)
  simp only [State.handOver, hw, hi, instrRoute, isTake, if_true, State.applyNow]
  rfl

end Ksend

/-! ### Rings as KRECV and KPOLL see them (12 R264, R265) -/

/-- Pads that are skipped at HEAD leave the place of the ring and its messages. -/
theorem dropPads_keeps (n : Nat) (r : Ring) : (dropPads n r).base = r.base ∧ (dropPads n r).size = r.size
    ∧ (dropPads n r).msgs.filter (!·.pad) = r.msgs.filter (!·.pad) := by
  induction n generalizing r with
  | zero => exact ⟨rfl, rfl, rfl⟩
  | succ n ih =>
    cases hm : r.msgs with
    | nil => simp [dropPads, hm]
    | cons m ms =>
      cases hpad : m.pad with
      | false => simp [dropPads, hm, hpad]
      | true =>
        have := ih { r with msgs := ms, head := (r.head + m.lines) % r.size, free := r.free + m.lines }
        simpa [dropPads, hm, hpad] using this

section Rings
variable {s : State} {n : BitVec 4} {m : RingMsg} {l : List RingMsg}

theorem Ctx.ringRefusal_claimed {c : Ctx} (hg : (c.graph.chans.any fun g => g.kind == 4 && g.loc.toNat == n.toNat) = true) :
    c.ringRefusal n.toNat = some (fault 0x053 0) := if_pos hg
section Unclaimed
variable (hg : (s.ctx.graph.chans.any fun g => g.kind == 4 && g.loc.toNat == n.toNat) = false)
include hg
theorem Ctx.ringRefusal_undefined (hd : (s.ctx.rings.getD n.toNat {}).defd = false) : s.ctx.ringRefusal n.toNat = some (fault 0x052 0) := by
  rw [Ctx.ringRefusal, if_neg (show ¬s.ctx.ringOfGraph n.toNat = true from ne_true_of_eq_false hg), hd]; rfl
theorem Ctx.ringRefusal_none (hd : (s.ctx.rings.getD n.toNat {}).defd = true) : s.ctx.ringRefusal n.toNat = none := by
  rw [Ctx.ringRefusal, if_neg (show ¬s.ctx.ringOfGraph n.toNat = true from ne_true_of_eq_false hg), hd]; rfl
end Unclaimed

theorem filter_pads_nil {r : Ring} (h : r.msgs.all (·.pad) = true) : r.msgs.filter (!·.pad) = [] := by
  rw [List.filter_eq_nil_iff]
  intro m hm
  simp [List.all_eq_true.1 h m hm]
/-- A ring without a message answers nothing at any place, and reads nothing. -/
theorem State.ringAt_empty (h : (s.ctx.rings.getD n.toNat {}).msgs.filter (!·.pad) = []) (j : Nat) :
    s.ringAt n.toNat j = none ∧ s.touchRing n.toNat j = s := by
  simp [State.ringAt, State.touchRing, h]
theorem State.ringAt_head (h : (s.ctx.rings.getD n.toNat {}).msgs.filter (!·.pad) = m :: l) : s.ringAt n.toNat 0 =
    some (status 0 0 (ringByte (s.ctx.rings.getD n.toNat {}) m.line 0 + m.len * 2 ^ 24),
      s.winWord (ringByte (s.ctx.rings.getD n.toNat {}) m.line 0), s.winPois (ringByte (s.ctx.rings.getD n.toNat {}) m.line 0)) := by
  simp [State.ringAt, h]
theorem State.touchRing_of_no_upsets (hu : s.dev.upsets = []) (j : Nat) : s.touchRing n.toNat j = s := by
  unfold State.touchRing
  dsimp only
  split
  · exact State.touch_of_no_upsets hu ..
  · rfl

theorem exec_kpoll_refused {t0 t1 : Cons} {st : Word} (h : s.ctx.ringRefusal n.toNat = some st) :
    exec (.kpoll n t0 t1) s = .next (s.emit [(t0, ⟨st, false⟩), (t1, ⟨0, false⟩)]) := by
  show execKpoll n t0 t1 s = _
  simp only [execKpoll, h]; rfl
section Open
variable {t0 t1 : Cons} (hopen : s.ctx.ringRefusal n.toNat = none)
include hopen
theorem exec_kpoll_empty (h : (s.ctx.rings.getD n.toNat {}).msgs.filter (!·.pad) = []) :
    exec (.kpoll n t0 t1) s = .next (s.emit [(t0, ⟨11, false⟩), (t1, ⟨0, false⟩)]) := by
  obtain ⟨hat, htouch⟩ := s.ringAt_empty h 0
  show execKpoll n t0 t1 s = _
  simp only [execKpoll, hopen, htouch, hat]; rfl
theorem exec_kpoll_message {st h : Word} {p : Bool} (hu : s.dev.upsets = []) (hat : s.ringAt n.toNat 0 = some (st, h, p)) :
    exec (.kpoll n t0 t1) s = .next (s.emit [(t0, ⟨st, false⟩), (t1, ⟨h, p⟩)]) := by
  show execKpoll n t0 t1 s = _
  simp only [execKpoll, hopen, State.touchRing_of_no_upsets hu, hat]; rfl
end Open

/-! ### Waiting for a message (12 R264; 05 R115, R117) -/

def isKrecv (n : BitVec 4) : Instr → Bool | .krecv x .. => x == n | _ => false
theorem isKrecv_eq_false {i : Instr} (h : ∀ a b, i ≠ .krecv n a b) : isKrecv n i = false := by
  unfold isKrecv
  split
  · next x a b => simpa using fun hx : x = n => h a b (hx ▸ rfl)
  · rfl
/-- The ring with its pads at HEAD skipped. -/
theorem Ctx.dropPads_ring (c : Ctx) (n : BitVec 4) : (c.dropPads n.toNat).rings.getD n.toNat {} =
    Machine.dropPads (c.rings.getD n.toNat {}).msgs.length (c.rings.getD n.toNat {}) := (getV_modV ..).trans (if_pos ⟨rfl, n.isLt⟩)
theorem Ctx.dropPads_filter (c : Ctx) (n : BitVec 4) : ((c.dropPads n.toNat).rings.getD n.toNat {}).msgs.filter (!·.pad) =
    (c.rings.getD n.toNat {}).msgs.filter (!·.pad) := by rw [Ctx.dropPads_ring]; exact (dropPads_keeps _ _).2.2
/-- What the first message answers does not hang on the pads before it. -/
theorem State.ringAt_dropPads (h : (s.ctx.rings.getD n.toNat {}).msgs.filter (!·.pad) = m :: l) :
    (s.onCtx fun c => c.dropPads n.toNat).ringAt n.toNat 0 = s.ringAt n.toNat 0 := by
  rw [State.ringAt_head h, State.ringAt_head (s := s.onCtx fun c => c.dropPads n.toNat) ((s.ctx.dropPads_filter n).trans h)]
  obtain ⟨hbase, hsize, -⟩ := dropPads_keeps (s.ctx.rings.getD n.toNat {}).msgs.length (s.ctx.rings.getD n.toNat {})
  rw [State.onCtx_ctx, Ctx.dropPads_ring]
  simp only [ringByte, hbase, hsize]
  rfl

section Waits
variable {k : Nat} {w : Wait} {sl : Slot} (h : s.Waits k w sl) (hon : w.on = .recv n)
include h hon
theorem State.Waits.evalWait_recv_empty (hempty : (s.ctx.rings.getD n.toNat {}).msgs.filter (!·.pad) = []) : s.evalWait k = none := by
  have hat (j : Nat) := State.ringAt_empty (s := s.onCtx fun c => c.dropPads n.toNat) (n := n) ((s.ctx.dropPads_filter n).trans hempty) j
  simp only [State.evalWait, h.bind_wait, h.not_willExpire, hon, Bool.false_eq_true, if_false]
  split
  · next hsome =>
    exfalso
    revert hsome
    cases State.headPlace _ _ _ with
    | none => simp
    | some j => simp [(hat j).1, (hat j).2]
  · rfl
theorem State.Waits.evalWait_recv_message {st v : Word} {p : Bool} (hu : s.dev.upsets = []) (hp : s.headPlace k (isKrecv n) = some 0)
    (hat : (s.onCtx fun c => c.dropPads n.toNat).ringAt n.toNat 0 = some (st, v, p)) : s.evalWait k =
    some (((s.onCtx fun c => c.dropPads n.toNat).take k (.krecv n none none)).finish k st w.poll false (mkWith ⟨v, p⟩)) := by
  have hplace (q : Instr → Bool) (heq : q = isKrecv n) : (s.onCtx fun c => c.dropPads n.toNat).headPlace k q = some 0 := by
    rw [heq]; exact hp
  simp only [State.evalWait, h.bind_wait, h.not_willExpire, hon, Bool.false_eq_true, if_false]
  rw [hplace]
  · have htouch := State.touchRing_of_no_upsets (s := s.onCtx fun c => c.dropPads n.toNat) (n := n) hu 0
    simp only [htouch, Option.bind_some, hat]
  · rfl
end Waits

section Krecv
variable {sl : Slot} {t0 t1 : Cons}

theorem exec_krecv_poison (hp : s.opA.poison = true) : exec (.krecv n t0 t1) s = .next (s.slotFault 4 0 3 0) :=
  congrArg Host.Outcome.next (State.withDeadline_poison hp)
theorem exec_krecv_illegal (hp : s.opA.poison = false) (hd : s.deadline s.a = .illegal) :
    exec (.krecv n t0 t1) s = .next (s.slotFault 6 0x0C6 s.a 0) :=
  congrArg Host.Outcome.next (State.withDeadline_illegal hp hd)
section Legal
variable (hp : s.opA.poison = false) (hd : s.deadline s.a ≠ .illegal)
include hp hd
theorem exec_krecv_refused {st : Word} (h : s.Issues sl (.krecv n t0 t1) t0 t1) (hr : s.ctx.ringRefusal n.toNat = some st) (hst : codeOf st = 5) :
    exec (.krecv n t0 t1) s = .next (s.emit [(t0, ⟨st, false⟩), (t1, {})]) := by
  refine congrArg Host.Outcome.next ((State.withDeadline_legal hp hd).trans ?_)
  simp only [hr]
  exact h.finish_raw rfl (.inr hst)
theorem exec_krecv_open (hr : s.ctx.ringRefusal n.toNat = none) : exec (.krecv n t0 t1) s = .next (s.begin (.recv n) (s.deadline s.a)) := by
  refine congrArg Host.Outcome.next ((State.withDeadline_legal hp hd).trans ?_)
  simp only [hr]
  rfl
end Legal

section Begin
variable (h : s.Issues sl (.krecv n t0 t1) t0 t1)
include h
theorem State.Issues.begin_recv_late (hempty : (s.ctx.rings.getD n.toNat {}).msgs.filter (!·.pad) = []) :
    s.begin (.recv n) .poll = s.answersLate t0 t1 ⟨1, false⟩ {} := by
  rw [h.begin_poll_of_not rfl ((h.waits _).evalWait_recv_empty (Deadline.wait_on ..) hempty)]
  exact h.finish_late (st := status 1 0 0) rfl (codeOf_status (by decide) ..)
theorem State.Issues.begin_recv_message {d : Deadline} {pl : Nat} {v : Word} {p : Bool} (hu : s.dev.upsets = [])
    (hbelow : ∀ y ∈ s.fir.blk.slots.take s.fir.blk.cur, ∀ a b, wordInstr y ≠ some (.krecv n a b))
    (hothers : ∀ f ∈ s.ctx.firs, ∀ z ∈ f.blk.effs, ∀ a b, z.ins ≠ .krecv n a b)
    (hat : (s.onCtx fun c => c.dropPads n.toNat).ringAt n.toNat 0 = some (status 0 0 pl, v, p)) : s.begin (.recv n) d =
    ((s.onCtx fun c => c.dropPads n.toNat).take s.fir.blk.cur (.krecv n none none)).answersOk t0 t1 ⟨status 0 0 pl, false⟩ ⟨v, p⟩ := by
  have hu' : (s.onCtx fun c => c.dropPads n.toNat).Issues sl (.krecv n t0 t1) t0 t1 := ⟨h.slot, h.log, h.dec, h.cons⟩
  refine State.begin_of_holds (((h.waits _).evalWait_recv_message (Deadline.wait_on ..) hu ?_ hat).trans (congrArg some ?_))
  · refine State.headPlace_of_none (fun y hy i hy' => isKrecv_eq_false ?_) fun f hf z hz => isKrecv_eq_false (hothers f hf z hz)
    rw [State.setWait, State.onBlk_fir, Block.onSlot, take_modAt] at hy
    exact fun a b hab => hbelow y hy a b (hab ▸ hy')
  · exact (hu'.take _ _).finish_ok rfl (codeOf_status (by decide) ..)
end Begin
end Krecv
end Rings

/-- Settles O38: the checks of KSEND in order, the attempt that its engine makes, and the one ring that KRECV and KPOLL read. -/
theorem messageFormsAnswer : Obligations.MessageFormsAnswer := by
  intro s rec tag n t0 t1 e o h
  refine ⟨exec_ksend_poison, exec_ksend_latePoison, fun hw hp hb => ⟨exec_ksend_illegal hw hp hb, fun hd hu => ?_⟩, exec_ksend_waits,
    fun h x0 x1 hw hi hws hwp hlq hr hu hpres hnew => ?_, fun hj hu => ⟨fun a b hi hq => ?_, fun a b hi => ?_⟩, ?_⟩
  · rw [exec_ksend_legal hw hp hb hd hu]
    refine ⟨fun hbad => by rw [if_pos hbad], fun hal hin => ?_⟩
    rw [if_neg (not_not.2 ⟨hal, hin⟩)]
    refine ⟨fun hpois => by rw [if_pos hpois], fun hpois => ?_⟩
    rw [if_neg (ne_true_of_eq_false hpois)]
    exact ⟨fun hbad => by rw [if_neg fun hok => hbad (hdrOk_iff.1 hok)], fun hok => by rw [if_pos (hdrOk_iff.2 hok)]⟩
  · exact ⟨exec_ksend_sends hw hi hws hwp hlq hr hu hnew, fun hge _ => exec_ksend_noInstance hw hi hws hwp hlq hr hu hnew hpres hge,
      fun hlt hentry hx0 hx1 _ hj => exec_ksend_turnedBack hw hi hws hwp hlq hr hu hnew hpres hlt hentry hx0 hx1 hj⟩
  · obtain ⟨y, hy⟩ := State.handOver_ksend hi hq hu
    rw [hy]
    refine ⟨State.netCnt_onNet (s := s.counted e) hj _, y, ?_⟩
    show ((s.counted e).onNet _ _ _).ctx.kq ++ [y] = _
    rw [(State.onNet_same ..).ctx]; rfl
  · rw [State.handOver_krecv hi]
    exact State.netCnt_onNet (s := (s.counted e).onCtx fun c => { c with rings := modV c.rings n.toNat Ring.take }) hj _
  · intro g used u place
    refine ⟨fun hg => exec_kpoll_refused (Ctx.ringRefusal_claimed hg), fun hg hd => exec_kpoll_refused (Ctx.ringRefusal_undefined hg hd),
      fun hg hd => ⟨fun hall => exec_kpoll_empty (Ctx.ringRefusal_none hg hd) (filter_pads_nil hall), fun m l hu hm =>
        exec_kpoll_message (Ctx.ringRefusal_none hg hd) hu (State.ringAt_head hm)⟩, fun x sl hlog hp hd hsl hdec => ?_,
      fun hlog hp hd hg hdef hall sl hsl hdec => ?_, exec_krecv_poison, exec_krecv_illegal⟩
    · have hi : s.Issues sl (.krecv n t0 t1) t0 t1 := ⟨hsl, hlog, hdec, rfl⟩
      have hlegal := Deadline.ne_illegal_of_at hd
      refine ⟨fun hg => exec_krecv_refused hp hlegal hi (Ctx.ringRefusal_claimed hg) (codeOf_status (by decide) _ _),
        fun hg hdef => exec_krecv_refused hp hlegal hi (Ctx.ringRefusal_undefined hg hdef) (codeOf_status (by decide) _ _),
        fun hg hdef hbelow hothers => ?_⟩
      rw [exec_krecv_open hp hlegal (Ctx.ringRefusal_none hg hdef), hd]
      refine ⟨fun hall => congrArg Host.Outcome.next (State.begin_at_of_not ((hi.waits _).evalWait_recv_empty (Deadline.wait_on ..)
        (filter_pads_nil hall))), fun m l hu hm => congrArg Host.Outcome.next (hi.begin_recv_message hu hbelow hothers
          ((State.ringAt_dropPads hm).trans (State.ringAt_head hm)))⟩
    · have hi : s.Issues sl (.krecv n t0 t1) t0 t1 := ⟨hsl, hlog, hdec, rfl⟩
      rw [exec_krecv_open hp (Deadline.ne_illegal_of_poll hd) (Ctx.ringRefusal_none hg hdef), hd]
      exact congrArg Host.Outcome.next (hi.begin_recv_late (filter_pads_nil hall))

end Sys2Proof.Machine
end

-- ==== Proofs of the copy family: a channel starts and ends its requests (12 R258, R259; 10 R209) ====
section
/-! PROOFS. How a request ends is said once, by the code of its status: a refusal leaves its record whatever its completion word says, an
end leaves what the word asks for. A start is the words of the structure, or those of a packet. -/

namespace Sys2Proof.Machine

/-! ### Ends (12 R259, R261; 01 R27, R28) -/

/-- The record that a request of channel `n` leaves, and its push without one. -/
def CopyReq.record (r : CopyReq) (n : Nat) (st : Word) : Rec :=
  ⟨st, recInfo r.cls.toNat r.op.toNat r.mod.toNat (cwTag r.cw) n, if cwPush r.cw then some (BitVec.ofNat 3 (cwQpush r.cw)) else none, r.origin n⟩
def CopyReq.records (r : CopyReq) (n : Nat) (st : Word) : List Rec := if cwRec r.cw then [r.record n st] else []
def CopyReq.pushes (r : CopyReq) (n : Nat) : List Push :=
  if cwRec r.cw = false ∧ cwPush r.cw = true then [⟨BitVec.ofNat 3 (cwQpush r.cw), r.origin n⟩] else []

/-- A step that ends request `r` of channel `n` in a refusal. -/
def State.Refuses (s : State) (n : Nat) (r : CopyReq) (st : Word) (o : Out) : Prop :=
  ∃ t, o = .next t ∧ (t.ctx.chan n).run = none ∧ (t.ctx.chan n).queue = (s.ctx.chan n).queue ∧ t.mem = s.mem ∧ t.fir = s.fir
    ∧ t.ctx.sync.evqHeld = s.ctx.sync.evqHeld ++ [r.record n st]
/-- A step that ends request `r` of channel `n` as its completion word asks. -/
def State.Ends (s : State) (n : Nat) (r : CopyReq) (st : Word) (o : Out) : Prop :=
  ∃ t, o = .next t ∧ (t.ctx.chan n).run = none ∧ (t.ctx.chan n).queue = (s.ctx.chan n).queue ∧ t.fir = s.fir
    ∧ t.ctx.sync.evqHeld = s.ctx.sync.evqHeld ++ r.records n st ∧ t.ctx.sync.pushes = s.ctx.sync.pushes ++ r.pushes n

section Done
variable {s : State} {n : Nat} {r : CopyReq} {st : Word}

theorem State.copyDone_refused (hst : codeOf st = 5 ∨ codeOf st = 1) : s.copyDone n r st = s.onCtx fun c =>
    { c.onChan n fun k => { k with run := none } with sync := { c.sync with evqHeld := c.sync.evqHeld ++ [r.record n st] } } := by
  have halways : (decide (codeOf st ≠ 0) && decide (codeOf st ≠ sPOISON)) = true := by rcases hst with h | h <;> rw [h] <;> rfl
  simp only [State.copyDone, Ctx.complete, halways, Bool.or_true, if_true]
  rfl
theorem State.copyDone_ended (hst : codeOf st = 0 ∨ codeOf st = 8) : s.copyDone n r st = s.onCtx fun c =>
    { c.onChan n fun k => { k with run := none } with sync := { c.sync with
      evqHeld := c.sync.evqHeld ++ r.records n st, pushes := c.sync.pushes ++ r.pushes n } } := by
  have halways : (decide (codeOf st ≠ 0) && decide (codeOf st ≠ sPOISON)) = false := by rcases hst with h | h <;> rw [h] <;> rfl
  simp only [State.copyDone, Ctx.complete, halways, Bool.or_false, CopyReq.records, CopyReq.pushes]
  cases hrec : cwRec r.cw <;> cases hpush : cwPush r.cw <;> simp [State.onCtx, Ctx.postRec, Ctx.postPush, Ctx.onChan, CopyReq.record, hpush]

variable {o : Out} {u : State} (hn : n < 8) (hexec : o = .next (u.copyDone n r st)) (hq : (u.ctx.chan n).queue = (s.ctx.chan n).queue)
  (hsync : u.ctx.sync = s.ctx.sync) (hfir : u.fir = s.fir)
include hn hexec hq hsync hfir
theorem refuses_of_copyDone (hst : codeOf st = 5 ∨ codeOf st = 1) (hmem : u.mem = s.mem) : s.Refuses n r st o := by
  rw [State.copyDone_refused hst] at hexec
  have hchan := u.ctx.chan_onChan_same hn fun k => { k with run := none }
  refine ⟨_, hexec, (congrArg Channel.run hchan).trans rfl, (congrArg Channel.queue hchan).trans hq, hmem, hfir, ?_⟩
  show u.ctx.sync.evqHeld ++ _ = _
  rw [hsync]
theorem ends_of_copyDone (hst : codeOf st = 0 ∨ codeOf st = 8) : s.Ends n r st o := by
  rw [State.copyDone_ended hst] at hexec
  have hchan := u.ctx.chan_onChan_same hn fun k => { k with run := none }
  refine ⟨_, hexec, (congrArg Channel.run hchan).trans rfl, (congrArg Channel.queue hchan).trans hq, hfir, ?_, ?_⟩
  · show u.ctx.sync.evqHeld ++ _ = _
    rw [hsync]
  · show u.ctx.sync.pushes ++ _ = _
    rw [hsync]
end Done

/-! ### Starts (12 R258; 10 R209) -/

section Start
variable {s : State} {ch : BitVec 3} {r : CopyReq} {l : List CopyReq}

theorem exec_copyRequestStart_idle (h : (s.ctx.chan ch.toNat).run.isSome = true ∨ (s.ctx.chan ch.toNat).queue = []
    ∨ (s.ctx.sync.pushes.any (·.origin.unit == ch.toNat)) = true) : exec (.copyRequestStart ch) s = .next s := by
  show execCopyRequestStart ch s = _
  simp only [execCopyRequestStart]
  split
  · rfl
  · next hbusy =>
    rcases h with h | h | h
    · simp [h] at hbusy
    · rw [h]
    · simp [h] at hbusy

section Oldest
variable (hrun : (s.ctx.chan ch.toNat).run = none) (hq : (s.ctx.chan ch.toNat).queue = r :: l)
  (howed : (s.ctx.sync.pushes.any (·.origin.unit == ch.toNat)) = false)
include hrun hq howed

section NoToken
variable (hpop : cwPop r.cw = true) (hzero : s.ctx.sync.q.getD (cwQpop r.cw) 0 = 0)
include hpop hzero
theorem exec_copyRequestStart_noToken : exec (.copyRequestStart ch) s = match r.since with
    | none => .next (s.onCtx fun c => c.onChan ch.toNat fun k => { k with queue := { r with since := some s.ctx.csr.budget.toNat } :: l })
    | some t => if t + s.ctx.csr.dceil.toNat ≤ s.ctx.csr.budget.toNat then
        .next ((s.onCtx fun c => c.onChan ch.toNat fun k => { k with queue := l }).copyDone ch.toNat r (status 1 0 0)) else .next s := by
  have hno : s.ctx.popQ (cwQpop r.cw) = none := if_pos hzero
  show execCopyRequestStart ch s = _
  simp only [execCopyRequestStart, hrun, howed, hq, hpop, hno, Option.isSome_none, Bool.or_self, Bool.false_eq_true, if_false, if_true]
  cases r.since <;> rfl
end NoToken

/-- A request starts from the state in which it has left its queue and its token is taken. -/
theorem exec_copyRequestStart_starts (htok : cwPop r.cw = true → s.ctx.sync.q.getD (cwQpop r.cw) 0 ≠ 0) :
    exec (.copyRequestStart ch) s = .next (((s.onSync fun y => { y with
      q := if cwPop r.cw then setV y.q (cwQpop r.cw) (y.q.getD (cwQpop r.cw) 0 - 1) else y.q }).onCtx fun c =>
        c.onChan ch.toNat fun k => { k with queue := l }).copyStart ch.toNat r) := by
  show execCopyRequestStart ch s = _
  cases hpop : cwPop r.cw with
  | false =>
    simp only [execCopyRequestStart, hrun, howed, hq, hpop, Option.isSome_none, Bool.or_self, Bool.false_eq_true, if_false]
    rfl
  | true =>
    have hsome : s.ctx.popQ (cwQpop r.cw) = some { s.ctx with sync := { s.ctx.sync with
        q := setV s.ctx.sync.q (cwQpop r.cw) (s.ctx.sync.q.getD (cwQpop r.cw) 0 - 1) } } := if_neg (htok hpop)
    simp only [execCopyRequestStart, hrun, howed, hq, hpop, hsome, Option.isSome_none, Bool.or_self, Bool.false_eq_true, if_false, if_true]
    rfl
end Oldest

/-- What a started request runs with: the words given, or those of its structure. -/
structure State.Started (s : State) (r : CopyReq) (x : CopyRun) : Prop where
  kind : x.req.kind = r.kind
  cw : x.req.cw = r.cw
  merge : x.req.merge = r.merge
  blk : x.blk = 0
  hold : x.hold = none
  rd : x.rd = []
  given : r.off = none → x.req = r ∧ x.status = if r.wordsOk then none else some (fault 0x081 0)
  read : ∀ o, r.off = some o → r.kind ≠ 4 → x.req.w0 = s.winWord o ∧ x.req.w1 = s.winWord (o + 8)
    ∧ x.status = if s.winPois o || s.winPois (o + 8) || !x.req.wordsOk then some (fault 0x081 0) else none
  described : ∀ o, r.off = some o → r.kind = 4 → x.desc = (List.range 4).map (fun i => s.winWord (o + 8 * i))
    ∧ x.status = if (List.range 4).any (fun i => s.winPois (o + 8 * i)) then some (fault 0x081 0) else none

theorem State.copyStart_started (hu : s.dev.upsets = []) (n : Nat) (r : CopyReq) : ∃ x, s.Started r x
    ∧ s.copyStart n r = s.onCtx fun c => c.onChan n fun k => { k with run := some x } := by
  cases hoff : r.off with
  | none =>
    refine ⟨{ req := r, status := if r.wordsOk then none else some stBADREQ }, ⟨rfl, rfl, rfl, rfl, rfl, rfl, fun _ => ⟨rfl, rfl⟩,
      fun o ho => ?_, fun o ho => ?_⟩, by simp only [State.copyStart, hoff]⟩
    · rw [hoff] at ho; cases ho
    · rw [hoff] at ho; cases ho
  | some o =>
    by_cases hk : r.kind = 4
    · refine ⟨{ req := { r with off := none, w0 := s.winWord o, w1 := s.winWord (o + 8) }, desc := (List.range 4).map fun i => s.winWord (o + 8 * i)
                status := if (List.range 4).any (fun i => s.winPois (o + 8 * i)) then some stBADREQ else none },
        ⟨rfl, rfl, rfl, rfl, rfl, rfl, fun h => ?_, fun _ _ h => absurd hk h, fun o' ho _ => ?_⟩, ?_⟩
      · rw [hoff] at h; cases h
      · obtain rfl := Option.some.inj (hoff.symm.trans ho)
        exact ⟨rfl, rfl⟩
      · simp only [State.copyStart, hoff, hk, if_true, State.touch_of_no_upsets hu]
        rfl
    · refine ⟨{ req := { r with off := none, w0 := s.winWord o, w1 := s.winWord (o + 8) }
                status := if s.winPois o || s.winPois (o + 8)
                  || !CopyReq.wordsOk { r with off := none, w0 := s.winWord o, w1 := s.winWord (o + 8) } then some stBADREQ else none },
        ⟨rfl, rfl, rfl, rfl, rfl, rfl, fun h => ?_, fun o' ho _ => ?_, fun _ _ h => absurd h hk⟩, ?_⟩
      · rw [hoff] at h; cases h
      · obtain rfl := Option.some.inj (hoff.symm.trans ho)
        exact ⟨rfl, rfl, rfl⟩
      · have hbad : (List.range 2).any (fun i => s.winPois (o + 8 * i)) = (s.winPois o || s.winPois (o + 8)) := by
          simp [List.range_succ]
        simp only [State.copyStart, hoff, hk, if_false, State.touch_of_no_upsets hu, hbad]
        rfl
end Start

/-! ### The cases of COPY_COMPLETION (12 R259, R266) -/

section Completion
variable {s : State} {ch : BitVec 3} {x : CopyRun}

theorem exec_copyCompletion_idle (h : (s.ctx.chan ch.toNat).run = none ∨ ∃ x, (s.ctx.chan ch.toNat).run = some x ∧ x.hold.isSome = true) :
    exec (.copyCompletion ch) s = .next s := by
  show execCopyCompletion ch s = _
  rcases h with h | ⟨x, h, hh⟩
  · simp only [execCopyCompletion, h]
  · simp only [execCopyCompletion, h, hh, if_true]
section Runs
variable (hrun : (s.ctx.chan ch.toNat).run = some x) (hh : x.hold = none)
include hrun hh
theorem exec_copyCompletion_refused {st : Word} (hst : x.status = some st) : exec (.copyCompletion ch) s =
    .next (if s.copyPerformed ch.toNat x.req then s.copyDone ch.toNat x.req st else s) := by
  show execCopyCompletion ch s = _
  simp only [execCopyCompletion, hrun, hh, hst, Option.isSome_none, Bool.false_eq_true, if_false]
variable (hst : x.status = none)
include hst
theorem exec_copyCompletion_coll {k : CollKind} (hc : x.req.coll = some k) : exec (.copyCompletion ch) s = .next (s.collStep ch.toNat x k) := by
  show execCopyCompletion ch s = _
  simp only [execCopyCompletion, hrun, hh, hst, hc, Option.isSome_none, Bool.false_eq_true, if_false]
variable (hc : x.req.coll = none)
include hc
theorem exec_copyCompletion_list {o : Word} (ho : x.req.listAt = some o) (hl : x.list.length < x.req.count) :
    exec (.copyCompletion ch) s = .next (copyListGo ch.toNat o x.req.count (x.req.count - x.list.length) s) := by
  show execCopyCompletion ch s = _
  simp only [execCopyCompletion, hrun, hh, hst, hc, ho, hl, Option.isSome_none, Bool.false_eq_true, if_false, if_true]
variable (hl : x.req.listAt = none ∨ x.req.count ≤ x.list.length)
include hl
theorem exec_copyCompletion_blocks : exec (.copyCompletion ch) s =
    .next (if x.blk < x.req.total then s.copyBlock ch.toNat else s.copyEnd ch.toNat x) := by
  have hlist : ¬(x.list.length < x.req.count) ∨ x.req.listAt = none := hl.symm.imp Nat.not_lt.2 id
  show execCopyCompletion ch s = _
  simp only [execCopyCompletion, hrun, hh, hst, hc, Option.isSome_none, Bool.false_eq_true, if_false]
  cases ho : x.req.listAt with
  | none => dsimp only; split <;> rfl
  | some o =>
    have hless : ¬(x.list.length < x.req.count) := hlist.resolve_right (by simp [ho])
    simp only [hless, if_false]
    split <;> rfl
end Runs
end Completion

end Sys2Proof.Machine
end

-- ==== Proofs of the copy family: lists and blocks (12 R258, R259; 04 R109; 11 R235) ====
section
/-! PROOFS. An access of a channel changes its run and nothing else that it holds; so a block ends copied or held. Between places of the
window each word is read and stored at once, one after another: what a word is when it is read is what the stores before it have left. -/

namespace Sys2Proof.Machine

/-! ### The run of a channel -/

theorem State.run_onRun {s : State} {n : Nat} (hn : n < 8) (f : CopyRun → CopyRun) :
    ((s.onRun n f).ctx.chan n).run = (s.ctx.chan n).run.map f := congrArg Channel.run (s.ctx.chan_onChan_same hn _)
theorem State.onRun_id (s : State) (n : Nat) : (s.onRun n fun x => x) = s := by
  have hchans : modV s.ctx.chans n (fun k => { k with run := k.run.map fun x => x }) = s.ctx.chans := by
    refine modV_self _ _ _ {} ?_
    obtain ⟨q, r⟩ := s.ctx.chans.getD n {}
    cases r <;> rfl
  simp only [State.onRun, State.onCtx, Ctx.onChan, hchans]
theorem State.onRun_onRun (s : State) (n : Nat) (f g : CopyRun → CopyRun) : (s.onRun n f).onRun n g = s.onRun n fun x => g (f x) := by
  simp only [State.onRun, State.onCtx, Ctx.onChan, modV_modV, Option.map_map, Function.comp_def]

/-! ### Window accesses of an engine (11 R235) -/

theorem winSize_le (w : BitVec 2) : winSize w ≤ 2 ^ 23 := Nat.pow_le_pow_right (by decide) (by have := w.isLt; omega)
/-- An aligned access inside the window reaches the byte of its offset. -/
theorem State.window_ofNat {s : State} {o n : Nat} (hal : o % n = 0) (hin : o < s.ctx.winSize) :
    s.window (BitVec.ofNat 64 o) n = .ok (.mem (s.ctx.winKey o)) := by
  have hlt : o < 2 ^ 64 := by have : s.ctx.winSize ≤ 2 ^ 23 := winSize_le s.ctx.id.wlog; omega
  have hnat : (BitVec.ofNat 64 o).toNat = o := by rw [BitVec.toNat_ofNat, Nat.mod_eq_of_lt hlt]
  rw [State.window, hnat, if_neg (not_not.2 hal), if_neg (Nat.not_le.2 hin)]
theorem State.window_add {s : State} {a : Word} {i n : Nat} (hal : (a.toNat + i) % n = 0) (hin : a.toNat + i < s.ctx.winSize) :
    s.window (a + BitVec.ofNat 64 i) n = .ok (.mem (s.ctx.winKey (a.toNat + i))) := by
  rw [← State.window_ofNat hal hin, BitVec.ofNat_add, BitVec.ofNat_toNat, BitVec.setWidth_eq]

/-! ### Lists (12 R258) -/

/-- The words of a list are read one after another. -/
theorem copyListGo_reads {s : State} {n k count : Nat} {o : Word} (hu : s.dev.upsets = []) (hk : k ≤ count) (ho : o.toNat % 8 = 0)
    (hin : o.toNat + 8 * count ≤ s.ctx.winSize) (hok : ∀ i, count - k ≤ i → i < count →
      s.winPois (o.toNat + 8 * i) = false ∧ (s.winWord (o.toNat + 8 * i)).toNat % 8 = 0) :
    copyListGo n o count k s = s.onRun n fun x => { x with
      list := x.list ++ (List.range' (count - k) k).map fun i => s.winWord (o.toNat + 8 * i) } := by
  induction k generalizing s with
  | zero => simp only [copyListGo, List.range'_zero, List.map_nil, List.append_nil]; exact (s.onRun_id n).symm
  | succ k ih =>
    obtain ⟨hpois, hal⟩ := hok (count - (k + 1)) (le_refl _) (by omega)
    have hwin := State.window_add (s := s) (a := o) (i := 8 * (count - (k + 1))) (n := 8) (by omega) (by omega)
    have hgood : (s.mem.poisoned (s.ctx.winKey (o.toNat + 8 * (count - (k + 1))))
        || decide ((s.mem.word (s.ctx.winKey (o.toNat + 8 * (count - (k + 1))))).toNat % 8 ≠ 0)) = false := by
      rw [show s.mem.poisoned _ = false from hpois, Bool.false_or, decide_eq_false_iff_not, not_not]; exact hal
    simp only [copyListGo, hwin, State.touch_of_no_upsets hu, hgood, Bool.false_eq_true, if_false]
    rw [ih (s := s.onRun n _) hu (by omega) hin fun i hi hi' => hok i (by omega) hi', State.onRun_onRun]
    rw [List.range'_succ, show count - (k + 1) + 1 = count - k by omega]
    simp only [List.append_assoc, List.map_cons, List.singleton_append]
    rfl

/-! ### A block, in any case (12 R259) -/

/-- `t` has the request and the block of `s`'s channel `n` in progress, held or not, and the firing of `s`. -/
def State.Copies (s t : State) (n : Nat) (x : CopyRun) (held : Bool) : Prop :=
  t.fir = s.fir ∧ ∃ z, (t.ctx.chan n).run = some z ∧ z.req = x.req ∧ z.blk = x.blk ∧ z.hold.isSome = held

section Block
variable {s t u : State} {n : Nat} {x : CopyRun} {held : Bool}

theorem State.Copies.congr (h : s.Copies t n x held) (hf : u.fir = t.fir) (hc : u.ctx.chans = t.ctx.chans) : s.Copies u n x held := by
  obtain ⟨hfir, z, hz, hreq, hblk, hhold⟩ := h
  exact ⟨hf.trans hfir, z, by rw [Ctx.chan, hc]; exact hz, hreq, hblk, hhold⟩
theorem State.Copies.inFocus (h : s.Copies t n x held) (hu : u.inFocus = t.inFocus) : s.Copies u n x held :=
  h.congr (congrArg Prod.fst hu) (congrArg (·.2.chans) hu)
variable (hn : n < 8)
include hn
theorem State.Copies.onRun (h : s.Copies t n x held) {f : CopyRun → CopyRun}
    (hf : ∀ z, (f z).req = z.req ∧ (f z).blk = z.blk ∧ (f z).hold = z.hold) : s.Copies (t.onRun n f) n x held := by
  obtain ⟨hfir, z, hz, hreq, hblk, hhold⟩ := h
  obtain ⟨freq, fblk, fhold⟩ := hf z
  exact ⟨hfir, f z, by rw [State.run_onRun hn, hz]; rfl, freq.trans hreq, fblk.trans hblk, by rw [fhold]; exact hhold⟩
theorem State.Copies.holdChan (h : s.Copies t n x held) (d : Hold) : s.Copies (t.holdChan n d) n x true := by
  obtain ⟨hfir, z, hz, hreq, hblk, -⟩ := h
  refine ⟨hfir, { z with hold := some d }, ?_, hreq, hblk, rfl⟩
  show ((t.onRun n fun x => { x with hold := some d }).ctx.chan n).run = _
  rw [State.run_onRun hn, hz]; rfl
end Block

/-- An engine's access of the global space reaches memory or nothing. -/
theorem leafLoc_mem_or_ctl (w : Who) (e : Word) (lo : Nat) (va : Word) :
    (∃ k, leafLoc w e lo va = .mem k) ∨ ∃ p o, leafLoc w e lo va = .ctl p o := by
  unfold leafLoc
  dsimp only
  split
  · exact .inl ⟨_, rfl⟩
  · exact .inl ⟨_, rfl⟩
  · exact .inl ⟨_, rfl⟩
  · exact .inr ⟨_, _, rfl⟩
theorem translate_mem_or_ctl {d : Dev} {m : Memory} {w : Who} {acc : Access} {b : Bool} {va : Word} {l : Loc}
    (h : (translate d m w acc b va).1 = .ok l) : (∃ k, l = .mem k) ∨ ∃ p o, l = .ctl p o := by
  unfold translate at h
  split at h
  · cases h
  · next e lo t hleaf =>
    split at h
    · cases h
    split at h
    · cases h
    rcases leafLoc_mem_or_ctl w e lo va with ⟨k, hk⟩ | ⟨p, o, hk⟩ <;> rw [hk] at h <;> dsimp only at h <;> split at h
    · cases h
    · exact .inl ⟨k, (Except.ok.inj h).symm⟩
    · exact .inr ⟨p, o, (Except.ok.inj h).symm⟩
    · cases h
theorem State.globalMem_mem {s u : State} {w : Who} {acc : Access} {va : Word} {n : Nat} {l : Loc}
    (h : s.globalMem w acc va n = (.ok l, u)) : ∃ k, l = .mem k := by
  unfold State.globalMem at h
  split at h
  · cases h
  · next hctl =>
    have hl : (s.global w acc va n).1 = .ok l := by rw [h]
    have htr : (∃ k, l = .mem k) ∨ ∃ p o, l = .ctl p o := by
      unfold State.global at hl
      split at hl
      · cases hl
      split at hl
      · cases hl
      · exact translate_mem_or_ctl hl
    rcases htr with hmem | ⟨p, o, rfl⟩
    · exact hmem
    · exact absurd h (hctl p o u)
theorem State.globalMem_inFocus (s : State) (w : Who) (acc : Access) (va : Word) (n : Nat) : (s.globalMem w acc va n).2.inFocus = s.inFocus := by
  have hg := State.global_inFocus w acc va n s
  unfold State.globalMem
  split
  · next hs => rw [hs] at hg; exact hg
  · exact hg

section Place
variable {s u : State} {r : CopyReq} {a : Word} {win : Bool} {acc : Access} {n : Nat} {x : Except (BitVec 12) Loc} (h : s.copyPlace r a win acc n = (x, u))
include h
theorem State.copyPlace_inFocus : u.inFocus = s.inFocus := by
  have hu : u = (s.copyPlace r a win acc n).2 := by rw [h]
  rw [hu]
  cases win with
  | true => rfl
  | false => exact State.globalMem_inFocus ..
theorem State.copyPlace_mem {l : Loc} (hx : x = .ok l) : ∃ k, l = .mem k := by
  subst hx
  cases win with
  | true =>
    have hl : s.window a n = .ok l := congrArg Prod.fst h
    unfold State.window at hl
    split at hl
    · cases hl
    split at hl
    · cases hl
    · exact ⟨_, (Except.ok.inj hl).symm⟩
  | false => exact State.globalMem_mem h
end Place

theorem State.copyRead_inFocus (s : State) (a : Word) (l : Loc) : (s.copyRead a l).2.inFocus = s.inFocus := by
  unfold State.copyRead
  split
  · exact State.touch_inFocus ..
  · rfl
theorem State.applyStore_inFocus (s : State) (key : BitVec 9) (va : Word) (k n v : Nat) (p : Bool) :
    (s.applyStore key va (.mem k) n v p).inFocus = s.inFocus := by
  show (if n < 8 && s.mem.poisoned k then s.poisonEvent (.mem k) va else _).inFocus = _
  split
  · exact State.poisonEvent_inFocus ..
  · rfl
theorem State.mergeAt_inFocus (s : State) (op : MergeOp) (key : BitVec 9) (a : Word) (k : Nat) (v : Word) (p : Bool) :
    (s.mergeAt op key a (.mem k) v p).inFocus = s.inFocus := State.touch_inFocus a k (amoSize (mergeOpAmo op).2) s
/-- A write of a channel changes nothing of the context but the count of its fixed updates. -/
theorem State.copyWrite_keeps {s t : State} {n : Nat} {r : CopyReq} {blk i : Nat} {va : Word} {k : Nat} {w : Word × Bool}
    (h : s.copyWrite n r blk i va (.mem k) w = some t) : t.fir = s.fir ∧ t.ctx.chans = s.ctx.chans := by
  unfold State.copyWrite at h
  split at h
  · obtain rfl := Option.some.inj h
    have hf := State.applyStore_inFocus s s.keyNow va k 8 w.1.toNat w.2
    exact ⟨congrArg Prod.fst hf, congrArg (·.2.chans) hf⟩
  · next op _ =>
    dsimp only at h
    split at h
    · obtain ⟨v, hv, rfl⟩ := Option.map_eq_some_iff.1 h
      obtain ⟨y, -, rfl⟩ := Option.map_eq_some_iff.1 hv
      exact ⟨rfl, rfl⟩
    · obtain rfl := Option.some.inj h
      have hf := State.mergeAt_inFocus s op s.keyNow va k (if r.unit = 8 then w.1 else BitVec.ofNat 64 (w.1.toNat / 2 ^ (32 * (i % 2)) % 2 ^ 32)) w.2
      exact ⟨congrArg Prod.fst hf, congrArg (·.2.chans) hf⟩

section Go
variable {s t : State} {n : Nat} {x : CopyRun} (hn : n < 8)
include hn

theorem copyReadOne_copies (h : s.Copies t n x false) (r : CopyReq) (a : Word) (win : Bool) (i : Nat) :
    s.Copies (copyReadOne n r a win i t).1 n x !(copyReadOne n r a win i t).2 := by
  unfold copyReadOne
  dsimp only
  split
  · next hp => exact (h.inFocus (State.copyPlace_inFocus hp)).holdChan hn _
  · next hp =>
    exact ((h.inFocus (State.copyPlace_inFocus hp)).inFocus (State.copyRead_inFocus ..)).onRun hn fun _ => ⟨rfl, rfl, rfl⟩
theorem copyWriteGo_copies {y : CopyRun} {a : Word} {win : Bool} {hi k : Nat} (h : s.Copies t n x false) :
    s.Copies (copyWriteGo n y a win hi k t).1 n x !(copyWriteGo n y a win hi k t).2 := by
  induction k generalizing t with
  | zero => exact h
  | succ k ih =>
    unfold copyWriteGo
    dsimp only
    split
    · next hp => exact (h.inFocus (State.copyPlace_inFocus hp)).holdChan hn _
    · next l u hp =>
      have hu := h.inFocus (State.copyPlace_inFocus hp)
      obtain ⟨key, rfl⟩ := State.copyPlace_mem hp rfl
      split
      · exact hu.holdChan hn _
      · next v hv =>
        obtain ⟨hf, hc⟩ := State.copyWrite_keeps hv
        exact ih ((hu.congr hf hc).onRun hn fun _ => ⟨rfl, rfl, rfl⟩)
theorem copyWordGo_copies {k : Nat} (h : s.Copies t n x false) : s.Copies (copyWordGo n k t).1 n x !(copyWordGo n k t).2 := by
  induction k generalizing t with
  | zero => exact h
  | succ k ih =>
    obtain ⟨-, z, hz, -⟩ := id h
    simp only [copyWordGo, hz]
    have hread : s.Copies (if z.rd.length ≤ 8 - (k + 1) then copyReadOne n z.req (z.srcOf z.blk).1 (z.srcOf z.blk).2 (8 - (k + 1)) t
        else (t, true)).1 n x !(if z.rd.length ≤ 8 - (k + 1) then copyReadOne n z.req (z.srcOf z.blk).1 (z.srcOf z.blk).2 (8 - (k + 1)) t
        else (t, true)).2 := by
      split
      · exact copyReadOne_copies hn h ..
      · exact h
    generalize (if z.rd.length ≤ 8 - (k + 1) then copyReadOne n z.req (z.srcOf z.blk).1 (z.srcOf z.blk).2 (8 - (k + 1)) t
        else (t, true)) = p at hread
    obtain ⟨u, ok⟩ := p
    cases ok with
    | false => exact hread
    | true =>
      obtain ⟨-, y, hy, -⟩ := id hread
      have hwrite := copyWriteGo_copies hn (y := y) (a := (y.dstOf y.blk).1) (win := (y.dstOf y.blk).2)
        (hi := (8 - (k + 1) + 1) * (8 / y.req.unit)) (k := (8 - (k + 1) + 1) * (8 / y.req.unit) - y.wr) hread
      simp only [hy, Bool.not_true, Bool.false_eq_true, if_false]
      generalize copyWriteGo n y (y.dstOf y.blk).1 (y.dstOf y.blk).2 ((8 - (k + 1) + 1) * (8 / y.req.unit))
        ((8 - (k + 1) + 1) * (8 / y.req.unit) - y.wr) u = q at hwrite
      obtain ⟨v, ok⟩ := q
      cases ok with
      | false => exact hwrite
      | true => exact ih hwrite
end Go

/-- A block that is copied to its end is passed; one that meets a failing access is held. -/
theorem State.copyBlock_passes_or_holds {s : State} {n : Nat} {x : CopyRun} (hn : n < 8) (hrun : (s.ctx.chan n).run = some x)
    (hh : x.hold = none) : ∃ z, ((s.copyBlock n).ctx.chan n).run = some z ∧ z.req = x.req ∧ (s.copyBlock n).fir = s.fir
      ∧ ((z.blk = x.blk + 1 ∧ z.rd = [] ∧ z.wr = 0 ∧ z.hold = none) ∨ (z.blk = x.blk ∧ z.hold.isSome = true)) := by
  have hgo := copyWordGo_copies (k := 8) hn (⟨rfl, x, hrun, rfl, rfl, by rw [hh]; rfl⟩ : s.Copies s n x false)
  unfold State.copyBlock
  generalize copyWordGo n 8 s = p at hgo
  obtain ⟨t, ok⟩ := p
  obtain ⟨hfir, z, hz, hreq, hblk, hhold⟩ := hgo
  cases ok with
  | false => exact ⟨z, hz, hreq, hfir, .inr ⟨hblk, hhold⟩⟩
  | true =>
    refine ⟨{ z with blk := z.blk + 1, rd := [], wr := 0 }, ?_, hreq, hfir, .inl ⟨congrArg (· + 1) hblk, rfl, rfl, ?_⟩⟩
    · show ((t.onRun n _).ctx.chan n).run = _
      rw [State.run_onRun hn, hz]; rfl
    · simpa using hhold

/-! ### A block between places of the window (12 R259; 04 R109) -/

/-- A whole word stored at a key outside HBM: the word, and every other word. -/
theorem storeMem_word {m : Memory} {k : Nat} {kv : Option (BitVec 512)} {v : Word} {p : Bool} (hwf : m.wf = true) (hk : k % 8 = 0)
    (hbm : isHbm k = false) : (storeMem m kv k 8 v.toNat p).word k = v ∧ (storeMem m kv k 8 v.toNat p).poisoned k = p
      ∧ ∀ y, y / 8 ≠ k / 8 → (storeMem m kv k 8 v.toNat p).byte y = m.byte y ∧ (storeMem m kv k 8 v.toNat p).poisoned y = m.poisoned y := by
  have hst : storeMem m kv k 8 v.toNat p = (m.setRaw k v.toNat 8).setPoison k p := by
    rw [storeMem, if_neg (by decide), Memory.write_of_not_hbm hbm]
  have hraw := Memory.wf_setRaw hwf k v.toNat 8
  rw [hst]
  refine ⟨Memory.word_of_bytes fun i hi => Memory.byte_setRaw_in hwf _ _ _ _ hi, ?_, fun y hy => ⟨?_, ?_⟩⟩
  · rw [Memory.poisoned_setPoison hraw, if_pos rfl]
  · exact Memory.byte_setRaw_other _ _ _ _ (by omega)
  · rw [Memory.poisoned_setPoison hraw, if_neg hy, Memory.poisoned, Memory.pois_setRaw]; rfl
theorem Memory.word_congr {m m' : Memory} {k : Nat} (hk : k % 8 = 0) (h : ∀ y, y / 8 = k / 8 → m'.byte y = m.byte y) : m'.word k = m.word k := by
  rw [Memory.word, Memory.word, Memory.raw_congr k 8 fun i hi => h (k + i) (by omega)]

section Plain
variable {s : State} {n : Nat} {x : CopyRun} {a b : Word}

/-- `m` is the memory of `s` after the first `j` words of a block are copied from window offset `a` to `b`. -/
structure State.Moved (s : State) (a b : Word) (j : Nat) (m : Memory) : Prop where
  wf : m.wf = true
  others : ∀ y, (∀ i, i < j → y / 8 ≠ s.ctx.winKey (b.toNat + 8 * i) / 8) → m.byte y = s.mem.byte y ∧ m.poisoned y = s.mem.poisoned y
  fresh : ∀ i, i < j → (∀ l, l < i → a.toNat + 8 * i ≠ b.toNat + 8 * l) →
    m.word (s.ctx.winKey (b.toNat + 8 * i)) = s.winWord (a.toNat + 8 * i)
      ∧ m.poisoned (s.ctx.winKey (b.toNat + 8 * i)) = s.winPois (a.toNat + 8 * i)
  overlap : ∀ i, i < j → ∀ l, l < i → a.toNat + 8 * i = b.toNat + 8 * l →
    m.word (s.ctx.winKey (b.toNat + 8 * i)) = m.word (s.ctx.winKey (b.toNat + 8 * l))
      ∧ m.poisoned (s.ctx.winKey (b.toNat + 8 * i)) = m.poisoned (s.ctx.winKey (b.toNat + 8 * l))

theorem State.Moved.start (hwf : s.mem.wf = true) : s.Moved a b 0 s.mem :=
  ⟨hwf, fun _ _ => ⟨rfl, rfl⟩, fun _ hi => absurd hi (Nat.not_lt_zero _), fun _ hi => absurd hi (Nat.not_lt_zero _)⟩
/-- The next word is stored as it stands at its source. -/
theorem State.Moved.next {m : Memory} {j : Nat} (h : s.Moved a b j m) (ha : a.toNat % 8 = 0) (hb : b.toNat % 8 = 0)
    (hrow : s.ctx.id.row + 2 ^ (9 + s.ctx.id.wlog.toNat) ≤ 4096) (kv : Option (BitVec 512)) :
    s.Moved a b (j + 1) (storeMem m kv (s.ctx.winKey (b.toNat + 8 * j)) 8 (m.word (s.ctx.winKey (a.toNat + 8 * j))).toNat
      (m.poisoned (s.ctx.winKey (a.toNat + 8 * j)))) := by
  have hmod (o : Nat) (ho : o % 8 = 0) : s.ctx.winKey o % 8 = 0 := by rw [Ctx.winKey_eq]; omega
  have hne {o p : Nat} (ho : o / 8 ≠ p / 8) : s.ctx.winKey o / 8 ≠ s.ctx.winKey p / 8 := fun h => ho ((Ctx.winKey_word hrow).1 h)
  obtain ⟨hword, hpois, hother⟩ := storeMem_word (kv := kv) (v := m.word (s.ctx.winKey (a.toNat + 8 * j)))
    (p := m.poisoned (s.ctx.winKey (a.toNat + 8 * j))) h.wf (hmod (b.toNat + 8 * j) (by omega)) (s.ctx.not_isHbm_winKey _)
  have hwf := storeMem_wf h.wf kv (s.ctx.winKey (b.toNat + 8 * j)) 8 (m.word (s.ctx.winKey (a.toNat + 8 * j))).toNat
    (m.poisoned (s.ctx.winKey (a.toNat + 8 * j)))
  generalize storeMem m kv (s.ctx.winKey (b.toNat + 8 * j)) 8 (m.word (s.ctx.winKey (a.toNat + 8 * j))).toNat
    (m.poisoned (s.ctx.winKey (a.toNat + 8 * j))) = m' at *
  have hkeep {i : Nat} (hi : i < j) : m'.word (s.ctx.winKey (b.toNat + 8 * i)) = m.word (s.ctx.winKey (b.toNat + 8 * i))
      ∧ m'.poisoned (s.ctx.winKey (b.toNat + 8 * i)) = m.poisoned (s.ctx.winKey (b.toNat + 8 * i)) :=
    ⟨Memory.word_congr (hmod _ (by omega)) fun y hy => (hother y (by rw [hy]; exact hne (by omega))).1, (hother _ (hne (by omega))).2⟩
  refine ⟨hwf, fun y hy => ?_, fun i hi hfresh => ?_, fun i hi l hl hal => ?_⟩
  · obtain ⟨h1, h2⟩ := hother y (hy j (Nat.lt_succ_self j))
    obtain ⟨h3, h4⟩ := h.others y fun i hi => hy i (Nat.lt_succ_of_lt hi)
    exact ⟨h1.trans h3, h2.trans h4⟩
  · rcases Nat.lt_succ_iff_lt_or_eq.1 hi with hi | rfl
    · obtain ⟨h1, h2⟩ := h.fresh i hi hfresh
      exact ⟨(hkeep hi).1.trans h1, (hkeep hi).2.trans h2⟩
    · have hsrc (y : Nat) (hy : y / 8 = s.ctx.winKey (a.toNat + 8 * i) / 8) := h.others y fun l hl => by
        rw [hy]; exact hne (by have := hfresh l hl; omega)
      exact ⟨hword.trans (Memory.word_congr (hmod _ (by omega)) fun y hy => (hsrc y hy).1), hpois.trans (hsrc _ rfl).2⟩
  · rcases Nat.lt_succ_iff_lt_or_eq.1 hi with hi | rfl
    · obtain ⟨h1, h2⟩ := h.overlap i hi l hl hal
      exact ⟨(hkeep hi).1.trans (h1.trans (hkeep (hl.trans hi)).1.symm), (hkeep hi).2.trans (h2.trans (hkeep (hl.trans hi)).2.symm)⟩
    · exact ⟨hword.trans (by rw [hal, (hkeep hl).1]), hpois.trans (by rw [hal, (hkeep hl).2])⟩

/-- The state in which channel `n` of `s` runs `z`, with a memory. -/
def State.running (s : State) (n : Nat) (m : Memory) (z : CopyRun) : State :=
  { s with mem := m, ctx := s.ctx.onChan n fun k => { k with run := some z } }
theorem State.running_run (hn : n < 8) (m : Memory) (z : CopyRun) : ((s.running n m z).ctx.chan n).run = some z :=
  congrArg Channel.run (s.ctx.chan_onChan_same hn _)
theorem State.running_onRun (m : Memory) (z : CopyRun) (f : CopyRun → CopyRun) : (s.running n m z).onRun n f = s.running n m (f z) := by
  simp only [State.running, State.onRun, State.onCtx, Ctx.onChan, modV_modV, Option.map_some]
theorem State.running_onMem (m : Memory) (z : CopyRun) (f : Memory → Memory) : (s.running n m z).onMem f = s.running n (f m) z := rfl
theorem State.running_self (hrun : (s.ctx.chan n).run = some x) : s = s.running n s.mem x := by
  have hchans : modV s.ctx.chans n (fun k => { k with run := some x }) = s.ctx.chans := by
    refine modV_self _ _ _ {} ?_
    show ({ s.ctx.chan n with run := some x } : Channel) = s.ctx.chan n
    rw [← hrun]
  simp only [State.running, Ctx.onChan, hchans]
/-- A word of the window is read at once. -/
theorem copyReadOne_window {r : CopyReq} {j : Nat} (hu : s.dev.upsets = []) (hal : (a.toNat + 8 * j) % 8 = 0)
    (hin : a.toNat + 8 * j < s.ctx.winSize) : copyReadOne n r a true j s = (s.onRun n fun x => { x with
      rd := x.rd ++ [(s.winWord (a.toNat + 8 * j), s.winPois (a.toNat + 8 * j))]
      poisoned := x.poisoned + if s.winPois (a.toNat + 8 * j) then 1 else 0 }, true) := by
  have hplace : s.copyPlace r (a + BitVec.ofNat 64 (8 * j)) true .rd 8 = (.ok (.mem (s.ctx.winKey (a.toNat + 8 * j))), s) := by
    rw [← State.window_add hal hin]; rfl
  simp only [copyReadOne, hplace, State.copyRead, State.touch_of_no_upsets hu, Memory.read_of_not_hbm (s.ctx.not_isHbm_winKey _)]
  rfl
/-- A word of the window is stored at once. -/
theorem copyWriteGo_window {y : CopyRun} {j : Nat} (hm : y.req.merge = none) (hal : (b.toNat + 8 * j) % 8 = 0)
    (hin : b.toNat + 8 * j < s.ctx.winSize) : copyWriteGo n y b true (j + 1) 1 s = ((s.onMem fun m =>
      storeMem m (s.dev.keyAt s.keyNow.toNat (s.ctx.winKey (b.toNat + 8 * j))) (s.ctx.winKey (b.toNat + 8 * j)) 8
        (y.rd.getD j (0, false)).1.toNat (y.rd.getD j (0, false)).2).onRun n fun x => { x with wr := x.wr + 1 }, true) := by
  have hunit : y.req.unit = 8 := by rw [CopyReq.unit, hm]
  have hplace (acc : Access) : s.copyPlace y.req (b + BitVec.ofNat 64 (8 * j)) true acc 8 = (.ok (.mem (s.ctx.winKey (b.toNat + 8 * j))), s) := by
    rw [← State.window_add hal hin]; rfl
  have hwrite (va : Word) (k : Nat) (w : Word × Bool) : s.copyWrite n y.req y.blk j va (.mem k) w =
      some (s.onMem fun m => storeMem m (s.dev.keyAt s.keyNow.toNat k) k 8 w.1.toNat w.2) := by
    rw [State.copyWrite, hm]; rfl
  rw [copyWriteGo, hunit, show j + 1 - (0 + 1) = j by omega]
  simp only [hplace, hwrite, copyWriteGo, Nat.mul_div_cancel j (show 0 < 8 by decide)]

/-- The state after `j` words of a plain block between window places. -/
structure State.Midway (s t : State) (n : Nat) (x : CopyRun) (a b : Word) (j : Nat) : Prop where
  moved : s.Moved a b j t.mem
  run : ∃ l q, l.length = j ∧ t = s.running n t.mem { x with rd := l, wr := j, poisoned := q }

section Words
variable (hn : n < 8) (hmerge : x.req.merge = none) (hsrc : x.srcOf x.blk = (a, true)) (hdst : x.dstOf x.blk = (b, true))
  (ha : a.toNat % 8 = 0) (hb : b.toNat % 8 = 0) (hina : a.toNat + 64 ≤ s.ctx.winSize)
  (hinb : b.toNat + 64 ≤ s.ctx.winSize) (hu : s.dev.upsets = []) (hrow : s.ctx.id.row + 2 ^ (9 + s.ctx.id.wlog.toNat) ≤ 4096)
include hn hmerge hsrc hdst ha hb hina hinb hu hrow

/-- One word of the block: it is read, and stored at once. -/
theorem copyWordGo_word {t : State} {j k : Nat} (h : s.Midway t n x a b j) (hjk : j + (k + 1) = 8) :
    ∃ u, s.Midway u n x a b (j + 1) ∧ copyWordGo n (k + 1) t = copyWordGo n k u := by
  obtain ⟨hmoved, l, q, hlen, ht⟩ := h
  generalize t.mem = m at hmoved ht
  subst ht
  have hunit : x.req.unit = 8 := by rw [CopyReq.unit, hmerge]
  have hread := copyReadOne_window (s := s.running n m { x with rd := l, wr := j, poisoned := q }) (n := n) (r := x.req) (a := a) (j := j) hu
    (by omega) (show a.toNat + 8 * j < s.ctx.winSize by omega)
  rw [State.running_onRun] at hread
  change copyReadOne n x.req a true j _ = (s.running n m { x with
    rd := l ++ [(m.word (s.ctx.winKey (a.toNat + 8 * j)), m.poisoned (s.ctx.winKey (a.toNat + 8 * j)))], wr := j
    poisoned := q + if m.poisoned (s.ctx.winKey (a.toNat + 8 * j)) then 1 else 0 }, true) at hread
  have hlast : (l ++ [(m.word (s.ctx.winKey (a.toNat + 8 * j)), m.poisoned (s.ctx.winKey (a.toNat + 8 * j)))]).getD j (0, false)
      = (m.word (s.ctx.winKey (a.toNat + 8 * j)), m.poisoned (s.ctx.winKey (a.toNat + 8 * j))) := by
    rw [← hlen]; simp
  have hlen' : (l ++ [(m.word (s.ctx.winKey (a.toNat + 8 * j)), m.poisoned (s.ctx.winKey (a.toNat + 8 * j)))]).length = j + 1 := by
    rw [List.length_append, hlen]; rfl
  generalize l ++ [(m.word (s.ctx.winKey (a.toNat + 8 * j)), m.poisoned (s.ctx.winKey (a.toNat + 8 * j)))] = l' at hread hlast hlen'
  generalize q + (if m.poisoned (s.ctx.winKey (a.toNat + 8 * j)) then 1 else 0) = q' at hread
  have hwrite := copyWriteGo_window (s := s.running n m { x with rd := l', wr := j, poisoned := q' }) (n := n) (b := b) (j := j)
    (y := { x with rd := l', wr := j, poisoned := q' }) hmerge (by omega) (show b.toNat + 8 * j < s.ctx.winSize by omega)
  rw [hlast, State.running_onMem, State.running_onRun] at hwrite
  have hnext := hmoved.next ha hb hrow (s.dev.keyAt s.keyNow.toNat (s.ctx.winKey (b.toNat + 8 * j)))
  refine ⟨s.running n _ { x with rd := l', wr := j + 1, poisoned := q' }, ⟨hnext, l', q', hlen', rfl⟩, ?_⟩
  have hi : 8 - (k + 1) = j := by omega
  simp only [copyWordGo, State.running_run hn, hi, hlen, le_refl, if_true]
  rw [show CopyRun.srcOf { x with rd := l, wr := j, poisoned := q } x.blk = (a, true) from hsrc, hread]
  simp only [State.running_run hn, Bool.not_true, Bool.false_eq_true, if_false, hunit, show (j + 1) * (8 / 8) = j + 1 by omega, Nat.add_sub_cancel_left]
  rw [show CopyRun.dstOf { x with rd := l', wr := j, poisoned := q' } x.blk = (b, true) from hdst, hwrite]
  rfl
/-- The words that are left of the block. -/
theorem copyWordGo_block {t : State} {j k : Nat} (h : s.Midway t n x a b j) (hjk : j + k = 8) :
    ∃ u, s.Midway u n x a b 8 ∧ copyWordGo n k t = (u, true) := by
  induction k generalizing t j with
  | zero => obtain rfl : j = 8 := hjk; exact ⟨t, h, rfl⟩
  | succ k ih =>
    obtain ⟨u, hu', hgo⟩ := copyWordGo_word hn hmerge hsrc hdst ha hb hina hinb hu hrow h hjk
    obtain ⟨v, hv, hgo'⟩ := ih hu' (by omega)
    exact ⟨v, hv, hgo.trans hgo'⟩
/-- A plain block between places of the window is copied and passed. -/
theorem State.copyBlock_moves (hrun : (s.ctx.chan n).run = some x) (hrd : x.rd = []) (hwr : x.wr = 0) (hwf : s.mem.wf = true) :
    ∃ m q, s.Moved a b 8 m ∧ s.copyBlock n = s.running n m { x with blk := x.blk + 1, rd := [], wr := 0, poisoned := q } := by
  have hself : s = s.running n s.mem { x with rd := [], wr := 0, poisoned := x.poisoned } := by
    rw [← hrd, ← hwr]; exact State.running_self hrun
  obtain ⟨u, ⟨hmoved, l, q, -, hu'⟩, hgo⟩ := copyWordGo_block hn hmerge hsrc hdst ha hb hina hinb hu hrow
    ⟨State.Moved.start hwf, [], x.poisoned, rfl, hself⟩ (Nat.zero_add 8)
  refine ⟨u.mem, q, hmoved, ?_⟩
  rw [State.copyBlock, hgo, hu']
  exact State.running_onRun ..
end Words
end Plain

end Sys2Proof.Machine
end

-- ==== Proofs of the copy family: collectives (12 R266, R267; 05 R130; 21 R378) ====
section
/-! PROOFS. A channel's step of a collective, case by case: a bad descriptor, the read of its elements, the join, the exchanges, the end.
No element position of a result exceeds (count + P) · (P + 1), so its writes stay in a window that holds as many. -/

namespace Sys2Proof.Machine

abbrev CollKey := Nat × Nat × BitVec 16 × Nat

/-! ### Before the join -/

section Joins
variable {s : State} {n : Nat} {x : CopyRun} {k : CollKind} (hc : x.coll = none)
include hc

theorem State.collStep_badDescriptor (hd : x.descOk k = false) : s.collStep n x k = s.copyDone n x.req stBADREQ := by
  simp [State.collStep, hc, hd]
variable (hd : x.descOk k = true)
include hd
theorem State.collStep_badRange (hr : x.descRange = false) : s.collStep n x k = s.copyDone n x.req (fault 0x030 0) := by
  simp [State.collStep, hc, hd, hr]
variable (hr : x.descRange = true)
include hr
theorem State.collStep_noInstances (hi : s.instances < x.cFirst + x.cNpart) : s.collStep n x k = s.copyDone n x.req stNODEST := by
  simp [State.collStep, hc, hd, hr, hi]
variable (hi : x.cFirst + x.cNpart ≤ s.instances)
include hi
theorem State.collStep_notParticipant (hp : s.ctx.id.index < x.cFirst ∨ x.cFirst + x.cNpart ≤ s.ctx.id.index) :
    s.collStep n x k = s.copyDone n x.req stBADREQ := by
  simp [State.collStep, hc, hd, hr, hp, Nat.not_lt.2 hi]
variable (hlo : x.cFirst ≤ s.ctx.id.index) (hhi : s.ctx.id.index < x.cFirst + x.cNpart)
include hlo hhi
theorem State.collStep_reads (hl : x.rd.length < x.cCount) :
    s.collStep n x k = collRead n x.cCount x.cSize x.cSrc (x.cCount - x.rd.length) s := by
  simp [State.collStep, hc, hd, hr, Nat.not_lt.2 hi, Nat.not_lt.2 hlo, Nat.not_le.2 hhi, hl]
theorem State.collStep_joins (hl : x.cCount ≤ x.rd.length) : s.collStep n x k = s.collJoin n x k := by
  simp [State.collStep, hc, hd, hr, Nat.not_lt.2 hi, Nat.not_lt.2 hlo, Nat.not_le.2 hhi, Nat.not_lt.2 hl]
end Joins

theorem CopyRun.cSize_cases (x : CopyRun) : x.cSize = 4 ∨ x.cSize = 8 := by
  unfold CopyRun.cSize; split
  · exact .inr rfl
  · exact .inl rfl
theorem CopyRun.descOk_aligned {x : CopyRun} {k : CollKind} (h : x.descOk k = true) : x.cSrc % 8 = 0 := by
  simp only [CopyRun.descOk, Bool.and_eq_true, decide_eq_true_eq] at h
  omega

/-- The element of `size` bytes at a window offset, with its poison. -/
def State.winElement (s : State) (size o : Nat) : Word × Bool :=
  (BitVec.ofNat 64 (s.mem.raw (s.ctx.winKey o) size), s.mem.poisoned (s.ctx.winKey o))
/-- The elements that are left to be read of a SRC inside the window are read. -/
theorem collRead_reads {s : State} {n size src count k : Nat} (hu : s.dev.upsets = []) (hs : size = 4 ∨ size = 8) (hal : src % 8 = 0)
    (hin : src + size * count ≤ s.ctx.winSize) (hk : k ≤ count) : collRead n count size src k s = s.onRun n fun x => { x with
      rd := x.rd ++ (List.range' (count - k) k).map fun i => s.winElement size (src + size * i) } := by
  induction k generalizing s with
  | zero => simp only [collRead, List.range'_zero, List.map_nil, List.append_nil]; exact (s.onRun_id n).symm
  | succ k ih =>
    have hmod : (src + size * (count - (k + 1))) % size = 0 := by
      rcases hs with rfl | rfl <;> omega
    have hlt : src + size * (count - (k + 1)) < s.ctx.winSize := by
      rcases hs with rfl | rfl <;> omega
    simp only [collRead, State.window_ofNat hmod hlt, State.touch_of_no_upsets hu]
    rw [ih (s := s.onRun n _) hu hin (by omega), State.onRun_onRun]
    rw [List.range'_succ, show count - (k + 1) + 1 = count - k by omega]
    simp only [List.append_assoc, List.map_cons, List.singleton_append]
    rfl

theorem State.collJoin_joins {s : State} {n : Nat} {x : CopyRun} (hn : n < 8) (hrun : (s.ctx.chan n).run = some x) (k : CollKind) :
    (s.collJoin n x k).mem = s.mem ∧ (s.collJoin n x k).fir = s.fir
      ∧ ∃ key, ((s.collJoin n x k).ctx.chan n).run = some { x with coll := some key, rd := [] } := by
  let key : CollKey := (x.cFirst, x.cNpart, x.cCid, ((s.ctx.collN.find? (·.1 == (x.cFirst, x.cNpart, x.cCid))).map (·.2)).getD 0)
  have hrun' (u : State) (hu : u.ctx.chans = s.ctx.chans) :
      ((u.onRun n fun x => { x with coll := some key, rd := [] }).ctx.chan n).run = some { x with coll := some key, rd := [] } := by
    rw [State.run_onRun hn, Ctx.chan, hu]
    exact congrArg (Option.map _) hrun
  unfold State.collJoin
  dsimp only
  split
  · exact ⟨rfl, rfl, key, hrun' _ rfl⟩
  · exact ⟨rfl, rfl, key, hrun' _ rfl⟩

/-! ### After the join -/

section Joined
variable {s : State} {n : Nat} {x : CopyRun} {k : CollKind} {key : CollKey} {c : Coll} (hc : x.coll = some key) (hs : s.collOf key = some c)
include hc hs

theorem State.collStep_waits (hl : c.parts.length < c.npart) : s.collStep n x k = s := by
  simp [State.collStep, hc, hs, hl]
variable (hl : c.npart ≤ c.parts.length)
include hl
theorem State.collStep_differs (hd : c.parts.any (·.differs) = true) :
    s.collStep n x k = (s.onMine n key fun p => { p with done := true }).copyDone n x.req (fault 0x083 0) := by
  simp only [State.collStep, hc, hs, Nat.not_lt.2 hl, hd, if_true, if_false]
variable (hd : c.parts.any (·.differs) = false) {me : CollPart} (hme : c.ranked[(firstIdx (s.ctx.isPart n) c.ranked 0).getD 0]? = some me)
include hd hme
theorem State.collStep_kerf (hk : me.kerf = true) : s.collStep n x k = (s.onColl key (·.gone s.ctx n)).copyDone n x.req stKERF := by
  simp only [State.collStep, hc, hs, Nat.not_lt.2 hl, hd, hme, hk, Bool.false_eq_true, if_true, if_false]
variable (hk : me.kerf = false)
include hk
theorem State.collStep_underWay (ho : me.out.isSome = true) : s.collStep n x k = s := by
  simp only [State.collStep, hc, hs, Nat.not_lt.2 hl, hd, hme, hk, ho, Bool.false_eq_true, if_true, if_false]
variable (ho : me.out = none)
include ho
theorem State.collStep_sends {m : Nat} {next : CollPart} (hleft : me.left = some (m + 1))
    (hnext : c.ranked[((firstIdx (s.ctx.isPart n) c.ranked 0).getD 0 + 1) % c.ranked.length]? = some next) :
    s.collStep n x k = s.sendExchange n key next m := by
  simp only [State.collStep, hc, hs, Nat.not_lt.2 hl, hd, hme, hk, ho, hleft, hnext, Option.isSome_none, Bool.false_eq_true, if_false]
variable (hleft : me.left = some 0)
include hleft
theorem State.collStep_last : s.collStep n x k = if c.parts.any (fun p => p.lost || p.kerf || p.out.isSome || p.left != some 0) then s else
    let res := c.result x (x.cOrder = 1 || c.parts.any (·.tree)) ((firstIdx (s.ctx.isPart n) c.ranked 0).getD 0)
    let p := collWrite n x.cSize x.cDst res.length (res.drop x.wr) s
    if !p.2 then p.1 else (p.1.onMine n key fun p => { p with done := true }).copyDone n x.req (status 0 0 c.npart) := by
  simp only [State.collStep, hc, hs, Nat.not_lt.2 hl, hd, hme, hk, ho, hleft, Option.isSome_none, Bool.false_eq_true, if_false]
end Joined

/-- A sent exchange is a packet on its way, counted as injected, and changes no context. -/
theorem State.sendExchange_sends {s : State} (hj : (s.dev.slotOf s.ctx.id.job).isSome = true) (n : Nat) (key : CollKey) (next : CollPart) (m : Nat) :
    ∃ q, (s.sendExchange n key next m).dev.packets = s.dev.packets ++ [q] ∧ q.kind = .coll ∧ q.job = s.ctx.id.job
      ∧ q.dinst = BitVec.ofNat 32 next.index ∧ (s.sendExchange n key next m).ctx = s.ctx ∧ (s.sendExchange n key next m).mem = s.mem
      ∧ (s.sendExchange n key next m).copCnt s.ctx.id.tile s.ctx.id.job = (s.copCnt s.ctx.id.tile s.ctx.id.job).inject := by
  have hsame (u : State) := u.onCop_same s.ctx.id.tile s.ctx.id.job Counters.inject
  exact ⟨_, congrArg (·.packets) (hsame _).dev, rfl, rfl, rfl, (hsame _).ctx, (hsame _).mem,
    State.copCnt_onCop (s := s.onDev fun d => { d with packets := d.packets ++ [_], nextUpd := s.dev.nextUpd + 1 }) hj Counters.inject⟩

/-! ### The result and its writes (12 R267) -/

theorem insPart_length (le : CollPart → CollPart → Bool) (x : CollPart) (l : List CollPart) : (insPart le x l).length = l.length + 1 := by
  induction l with
  | nil => rfl
  | cons y l ih =>
    unfold insPart
    split
    · rfl
    · exact congrArg (· + 1) ih
theorem Coll.ranked_length (c : Coll) : c.ranked.length = c.parts.length := by
  have hgo (le : CollPart → CollPart → Bool) (l m : List CollPart) : (l.foldl (fun m x => insPart le x m) m).length = m.length + l.length := by
    induction l generalizing m with
    | nil => rfl
    | cons y l ih => rw [List.foldl_cons, ih, insPart_length, List.length_cons]; omega
  exact (hgo _ c.parts []).trans (Nat.zero_add _)

/-- A chunk, and all chunks of P participants, are no longer than the elements and the participants allow. -/
theorem chunk_position_lt {count p r i j : Nat} (hj : j < p)
    (hi : i < Nat.min ((count + p - 1) / p * (r + 1)) count - Nat.min ((count + p - 1) / p * r) count) :
    (count + p - 1) / p * j + i < count + p := by
  have hchunks : (count + p - 1) / p * p ≤ count + p - 1 := Nat.div_mul_le_self ..
  have hj' : (count + p - 1) / p * (j + 1) ≤ (count + p - 1) / p * p := Nat.mul_le_mul_left _ hj
  generalize (count + p - 1) / p = ck at *
  simp only [Nat.min_def, Nat.mul_add, Nat.mul_one] at hi hj'
  split at hi <;> split at hi <;> omega
theorem Coll.result_position_lt {c : Coll} {x : CopyRun} {tree : Bool} {r : Nat} {e : Nat × Word × Bool} (he : e ∈ c.result x tree r) :
    e.1 < (x.cCount + c.parts.length) * (c.parts.length + 1) := by
  have hall {i : Nat} (hi : i < x.cCount + c.parts.length) : i < (x.cCount + c.parts.length) * (c.parts.length + 1) :=
    hi.trans_le (Nat.le_mul_of_pos_right _ (Nat.succ_pos _))
  unfold Coll.result at he
  simp only [Coll.ranked_length] at he
  split at he
  · obtain ⟨i, hi, rfl⟩ := List.mem_map.1 he
    exact hall ((List.mem_range.1 hi).trans_le (Nat.le_add_right ..))
  · obtain ⟨i, hi, rfl⟩ := List.mem_map.1 he
    have hchunk : Nat.min ((x.cCount + c.parts.length - 1) / c.parts.length * (r + 1)) x.cCount ≤ x.cCount := Nat.min_le_right ..
    exact hall ((List.mem_range.1 hi).trans_le ((Nat.sub_le ..).trans (hchunk.trans (Nat.le_add_right ..))))
  · obtain ⟨j, hj, he⟩ := List.mem_flatMap.1 he
    obtain ⟨i, hi, rfl⟩ := List.mem_map.1 he
    have hpos : x.cCount * j + i < x.cCount * (j + 1) := by rw [Nat.mul_add, Nat.mul_one]; exact Nat.add_lt_add_left (List.mem_range.1 hi) _
    exact hpos.trans_le (Nat.mul_le_mul (Nat.le_add_right ..) (by have := List.mem_range.1 hj; omega))
  · obtain ⟨j, hj, he⟩ := List.mem_flatMap.1 he
    obtain ⟨i, hi, rfl⟩ := List.mem_map.1 he
    exact hall (chunk_position_lt (List.mem_range.1 hj) (List.mem_range.1 hi))

theorem State.devStore_inFocus (s : State) (k n v : Nat) (p : Bool) : (s.devStore k n v p).inFocus = s.inFocus := by
  unfold State.devStore
  split
  · exact State.poisonEvent_inFocus ..
  · rfl
theorem State.onRun_inFocus {s u : State} (h : u.inFocus = s.inFocus) (n : Nat) (f : CopyRun → CopyRun) :
    (u.onRun n f).inFocus = (s.onRun n f).inFocus :=
  congrArg (fun q : Firing × Ctx => (q.1, q.2.onChan n fun k => { k with run := k.run.map f })) h
/-- The writes of a result inside the window are all made, and count in the run of the channel alone. -/
theorem collWrite_writes {s : State} {n size dst fuel : Nat} {l : List (Nat × Word × Bool)} (hs : size = 4 ∨ size = 8) (hal : dst % 8 = 0)
    (hin : ∀ e ∈ l, dst + size * e.1 < s.ctx.winSize) : ∃ t f, collWrite n size dst fuel l s = (t, true) ∧ t.inFocus = (s.onRun n f).inFocus := by
  have hdone (s : State) : ∃ t f, (s, true) = (t, true) ∧ t.inFocus = (s.onRun n f).inFocus := ⟨s, fun x => x, rfl, by rw [State.onRun_id]⟩
  induction fuel generalizing s l with
  | zero => cases l <;> exact hdone s
  | succ fuel ih =>
    cases l with
    | nil => exact hdone s
    | cons e l =>
      obtain ⟨i, v, p⟩ := e
      have hlt := hin _ (List.mem_cons_self ..)
      simp only [collWrite]
      generalize htwo : (decide (size = 4) && decide ((dst + size * i) % 8 = 0) && l.head?.any fun y => y.1 == i + 1) = two
      have hmod : (dst + size * i) % (if two = true then 8 else size) = 0 := by
        cases two with
        | true => simp only [Bool.and_eq_true, decide_eq_true_eq] at htwo; exact htwo.1.2
        | false => rcases hs with rfl | rfl <;> simp only [Bool.false_eq_true, if_false] <;> omega
      simp only [State.window_ofNat hmod hlt]
      generalize hu : s.devStore _ _ _ _ = u
      have hstore : u.inFocus = s.inFocus := by rw [← hu]; exact State.devStore_inFocus ..
      have hsize : u.ctx.winSize = s.ctx.winSize := congrArg (·.2.winSize) hstore
      obtain ⟨t, f, hgo, ht⟩ := ih (s := u.onRun n fun x => { x with wr := x.wr + if two = true then 2 else 1 })
        (l := l.drop ((if two = true then 2 else 1) - 1))
        fun e he => (hin e (List.mem_cons_of_mem _ (List.mem_of_mem_drop he))).trans_eq hsize.symm
      refine ⟨t, fun x => f { x with wr := x.wr + if two = true then 2 else 1 }, hgo, ht.trans ?_⟩
      rw [State.onRun_onRun]
      exact State.onRun_inFocus hstore n _
/-- A collective whose exchanges have all arrived ends, its result written. -/
theorem State.collStep_ends {s : State} {n : Nat} {x : CopyRun} {k : CollKind} {key : CollKey} {c : Coll} {me : CollPart} (hn : n < 8)
    (hc : x.coll = some key) (hs : s.collOf key = some c) (hl : c.npart ≤ c.parts.length) (hd : c.parts.any (·.differs) = false)
    (hme : c.ranked[(firstIdx (s.ctx.isPart n) c.ranked 0).getD 0]? = some me) (hk : me.kerf = false) (ho : me.out = none)
    (hleft : me.left = some 0) (hall : ∀ y ∈ c.parts, y.lost = false ∧ y.kerf = false ∧ y.out = none ∧ y.left = some 0) (hal : x.cDst % 8 = 0)
    (hin : x.cDst + x.cSize * ((x.cCount + c.parts.length) * (c.parts.length + 1)) ≤ s.ctx.winSize) :
    s.Ends n x.req (status 0 0 c.npart) (.next (s.collStep n x k)) := by
  have hnone : c.parts.any (fun p => p.lost || p.kerf || p.out.isSome || p.left != some 0) = false := by
    rw [List.any_eq_false]
    intro y hy
    obtain ⟨hlost, hkerf, hout, hleft⟩ := hall y hy
    simp [hlost, hkerf, hout, hleft]
  rw [State.collStep_last hc hs hl hd hme hk ho hleft, hnone]
  have hsize : 0 < x.cSize := by rcases x.cSize_cases with h | h <;> omega
  have hplaces (e) (he : e ∈ (c.result x (x.cOrder = 1 || c.parts.any (·.tree)) ((firstIdx (s.ctx.isPart n) c.ranked 0).getD 0)).drop x.wr) :
      x.cDst + x.cSize * e.1 < s.ctx.winSize :=
    (Nat.add_lt_add_left (Nat.mul_lt_mul_of_pos_left (Coll.result_position_lt (List.mem_of_mem_drop he)) hsize) _).trans_le hin
  obtain ⟨t, f, hgo, ht⟩ := collWrite_writes (n := n) (fuel := (c.result x (x.cOrder = 1 || c.parts.any (·.tree))
    ((firstIdx (s.ctx.isPart n) c.ranked 0).getD 0)).length) x.cSize_cases hal hplaces
  have hctx : t.ctx = (s.onRun n f).ctx := congrArg Prod.snd ht
  simp only [hgo, Bool.false_eq_true, Bool.not_true, if_false]
  refine ends_of_copyDone hn rfl ?_ (show t.ctx.sync = s.ctx.sync by rw [hctx]; rfl) (congrArg Prod.fst ht) (.inl (codeOf_status (by decide) ..))
  show (t.ctx.chan n).queue = _
  rw [hctx]
  exact (congrArg Channel.queue (s.ctx.chan_onChan_same hn _)).trans rfl
end Sys2Proof.Machine
end

-- ==== Proofs of the copy family: copy ports (12 R260; 14 R310) ====
section
/-! PROOFS. What a change of a configuration, a fault of it, and its freeze leave of it and of the rest; then a port step by the packet that
stands at its port. A freeze writes memory only where the hang monitor has given it a place. -/

namespace Sys2Proof.Machine

/-! ### A configuration changed (14 R310, R311) -/

section Cfg
variable {s : State} {h : Nat} {g : CollarCfg}

@[simp] theorem CollarCfg.accrue_ports (now : Nat) : (g.accrue now).ports = g.ports := rfl
@[simp] theorem CollarCfg.accrue_chans (now : Nat) : (g.accrue now).chans = g.chans := rfl
@[simp] theorem CollarCfg.accrue_fault (now : Nat) : (g.accrue now).fault = g.fault := rfl
@[simp] theorem CollarCfg.accrue_hang (now : Nat) : (g.accrue now).hang = g.hang := rfl
@[simp] theorem CollarCfg.accrue_img (now : Nat) : (g.accrue now).img = g.img := rfl

theorem Ctx.cfg_congr {c d : Ctx} (hc : c.handles = d.handles) (h : Nat) : c.cfg h = d.cfg h := by rw [Ctx.cfg, hc]; rfl
theorem State.cfg_onCtx_onHandle (hh : h < 32) (hg : s.ctx.cfg h = some g) (f : CollarCfg → CollarCfg) :
    (s.onCtx fun c => c.onHandle h f).ctx.cfg h = some (f g) :=
  (getV_modV ..).trans ((if_pos ⟨rfl, hh⟩).trans (congrArg (Option.map f) hg))
theorem State.cfg_onCfg (hh : h < 32) (hg : s.ctx.cfg h = some g) (f : CollarCfg → CollarCfg) :
    (s.onCfg h f).ctx.cfg h = some (f (g.accrue s.ctx.now)) := State.cfg_onCtx_onHandle hh hg _

theorem State.putMap_inFocus (s : State) (va v : Word) : (s.putMap va v).1.inFocus = s.inFocus := by
  unfold State.putMap
  have hgl (w : Who) := State.global_inFocus w .wr va 8 s
  dsimp only
  split <;> exact hgl _
theorem flushMaps_handles (n : Nat) (s : State) : (flushMaps n s).ctx.handles = s.ctx.handles := by
  induction n generalizing s with
  | zero => rfl
  | succ n ih =>
    unfold flushMaps
    split
    · rfl
    split
    · rfl
    next va w k l _ =>
      have hput := congrArg (·.2.handles) (s.putMap_inFocus va w)
      split
      · next hp => rw [hp] at hput; exact (ih _).trans hput
      · next hp => rw [hp] at hput; exact hput
theorem State.writeMap_handles (s : State) (va : Word) (ws : List Word) : (s.writeMap va ws).ctx.handles = s.ctx.handles := flushMaps_handles ..

/-- `t` holds at handle `h` a configuration with the fault and the ports of `g`, and `s`'s memory if no monitor is armed. -/
def State.Faulted (s t : State) (h : Nat) (g : CollarCfg) : Prop :=
  ∃ x, t.ctx.cfg h = some x ∧ x.fault = g.fault ∧ x.ports = g.ports ∧ (g.hang = none → t.mem = s.mem)

theorem State.freezeCfg_faulted (hh : h < 32) (hg : s.ctx.cfg h = some g) (cause : Nat) (st : Word) :
    s.Faulted (s.freezeCfg h cause st) h g := by
  have hput : (s.onCtx fun c => c.onHandle h fun _ => { g.accrue s.ctx.now with frozen := true, hang := none, hung := cause = 0 }).ctx.cfg h
      = some { g.accrue s.ctx.now with frozen := true, hang := none, hung := cause = 0 } := State.cfg_onCtx_onHandle hh hg _
  simp only [State.freezeCfg, hg, CollarCfg.accrue_hang]
  cases hhang : g.hang with
  | none => exact ⟨_, hput, rfl, rfl, fun _ => rfl⟩
  | some y =>
    refine ⟨_, Eq.trans ?_ hput, rfl, rfl, fun hn => by rw [hhang] at hn; cases hn⟩
    exact Ctx.cfg_congr (State.writeMap_handles ..) h
theorem State.settleFault_faulted (hh : h < 32) (hg : s.ctx.cfg h = some g) : s.Faulted (s.settleFault h) h g := by
  have hself : s.Faulted s h g := ⟨g, hg, rfl, rfl, fun _ => rfl⟩
  simp only [State.settleFault, hg]
  split
  · split
    · exact State.freezeCfg_faulted hh hg ..
    · exact hself
  · exact hself

/-- A configuration with a fault of its operator or port `i`. -/
def CollarCfg.withFault (g : CollarCfg) (port : Bool) (i : Nat) (code : BitVec 12) : CollarCfg :=
  let ep := if port then portEp i 0 else ((g.img.nodes[i]?).map nodeEp).getD 0
  let g := { g with fault := g.fault.orElse fun _ => some (ep, code) }
  if port then g.onPort i fun p => { p with faulted := true, code := code }
  else g.onNode i fun x => { x with faulted := true, code := code }
theorem CollarCfg.withFault_fault (port : Bool) (i : Nat) (code : BitVec 12) : (g.withFault port i code).fault =
    g.fault.orElse fun _ => some (if port then portEp i 0 else ((g.img.nodes[i]?).map nodeEp).getD 0, code) := by
  cases port <;> rfl
theorem CollarCfg.withFault_hang (port : Bool) (i : Nat) (code : BitVec 12) : (g.withFault port i code).hang = g.hang := by
  cases port <;> rfl
theorem CollarCfg.withFault_ports_faulted (port : Bool) (i j : Nat) (code : BitVec 12) (hp : (g.ports[j]?).any (·.faulted) = true) :
    ((g.withFault port i code).ports[j]?).any (·.faulted) = true := by
  cases port with
  | false => exact hp
  | true =>
    show ((modAt g.ports i _)[j]?).any _ = true
    rw [getElem?_modAt]
    split
    · obtain ⟨p, hp, -⟩ := Option.any_eq_true .. |>.1 hp
      rw [hp]; rfl
    · exact hp
/-- A fault of an operator or a port, and what settles it. -/
theorem State.collarFault_settles (hh : h < 32) (hg : s.ctx.cfg h = some g) (port : Bool) (i : Nat) (code : BitVec 12) :
    s.Faulted ((s.collarFault h port i code).settleFault h) h ((g.accrue s.ctx.now).withFault port i code) :=
  State.settleFault_faulted (s := s.collarFault h port i code) hh (State.cfg_onCfg hh hg fun g => g.withFault port i code)
end Cfg

/-! ### The port whose packet goes on (12 R260) -/

/-- A handle that is there, with a port that is there. -/
def Ctx.HasPort (c : Ctx) (h i : Nat) : Prop := h < 32 ∧ ∃ g, c.cfg h = some g ∧ ∃ x, g.ports[i]? = some x
theorem Ctx.copyPortOf_hasPort {c : Ctx} {p h i : Nat} {f : CollarCfg → Nat → PortSt → Bool} (hp : c.copyPortOf p f = some (h, i)) :
    c.HasPort h i := by
  obtain ⟨k, hk, hcfg⟩ := List.exists_of_findSome?_eq_some hp
  obtain ⟨g, hg, hcfg⟩ := Option.bind_eq_some_iff.1 hcfg
  split at hcfg
  · obtain ⟨j, -, hport⟩ := List.exists_of_findSome?_eq_some hcfg
    split at hport
    · next x _ hx =>
      split at hport
      · cases hport; exact ⟨List.mem_range.1 hk, g, hg, x, hx⟩
      · cases hport
    · cases hport
  · cases hcfg
theorem Ctx.copySource_hasPort {c : Ctx} {p h i : Nat} (hp : c.copySource p = some (h, i)) : c.HasPort h i := by
  unfold Ctx.copySource at hp
  cases hwhole : c.copyPortOf p fun _ _ x => decide (4 ≤ x.part.length) with
  | some y =>
    rw [hwhole] at hp
    exact Ctx.copyPortOf_hasPort (hwhole.trans hp)
  | none =>
    rw [hwhole] at hp
    exact Ctx.copyPortOf_hasPort hp

theorem State.packetReq_words (s : State) (k : CopyPort) (ts : List CTok) :
    (s.packetReq k ts).w0.toNat = (ts.getD 0 { val := 0 }).val.toNat + (ts.getD 1 { val := 0 }).val.toNat * 2 ^ 32
      ∧ (s.packetReq k ts).w1.toNat = (ts.getD 2 { val := 0 }).val.toNat + (ts.getD 3 { val := 0 }).val.toNat * 2 ^ 32 := by
  have hval (i : Nat) : ((ts[i]?).map (·.val.toNat)).getD 0 = (ts.getD i { val := 0 }).val.toNat := by
    rw [List.getD_eq_getElem?_getD]; cases ts[i]? <;> rfl
  have hword (a b : Half) : (BitVec.ofNat 64 (a.toNat + b.toNat * 2 ^ 32)).toNat = a.toNat + b.toNat * 2 ^ 32 := by
    rw [BitVec.toNat_ofNat]; omega
  simp only [State.packetReq, hval, hword, and_self]

/-! ### Port steps (12 R260) -/

section Port
variable {s : State} {p : BitVec 2} {h i : Nat} {g : CollarCfg} (hp : s.ctx.copySource p.toNat = some (h, i)) (hg : s.ctx.cfg h = some g)
include hp hg

theorem copySource_port : h < 32 ∧ ∃ x, g.ports[i]? = some x := by
  obtain ⟨hh, g', hg', x, hx⟩ := Ctx.copySource_hasPort hp
  obtain rfl := Option.some.inj (hg.symm.trans hg')
  exact ⟨hh, x, hx⟩
/-- A packet that is stopped: its port is faulted, and so is an operator that has sent it. -/
theorem State.stopPacket_port : ∃ x, (s.stopPacket h i).ctx.cfg h = some x ∧ (x.ports[i]?).any (·.faulted) = true
    ∧ (g.hang = none → (s.stopPacket h i).mem = s.mem) := by
  obtain ⟨hh, x, hx⟩ := copySource_port hp hg
  have hfault : (((g.accrue s.ctx.now).onPort i fun p => { p with faulted := true }).ports[i]?).any (·.faulted) = true := by
    show ((modAt g.ports i _)[i]?).any _ = true
    rw [getElem?_modAt, if_pos rfl, hx]; rfl
  have hcfg := State.cfg_onCfg hh hg fun g => g.onPort i fun p => { p with faulted := true }
  simp only [State.stopPacket]
  split
  · next port n _ =>
    obtain ⟨x, hx, -, hports, hmem⟩ := State.collarFault_settles hh hcfg port n 0x0B3
    refine ⟨x, hx, ?_, fun hn => hmem ((CollarCfg.withFault_hang ..).trans hn)⟩
    rw [hports]
    exact CollarCfg.withFault_ports_faulted _ _ _ _ hfault
  · exact ⟨_, hcfg, hfault, fun _ => rfl⟩
/-- The operator that has sent a packet which is stopped is the configuration's first fault. -/
theorem State.stopPacket_sender {v k : Nat} {d : EdgeEnt} {y : NodeEnt} (hv : g.portIn i 0 = some v) (hd : g.img.edges[v]? = some d)
    (hsrc : epPort d.src = false) (hk : g.img.nodeAt (epNode d.src) (epSlot d.src) = some k) (hy : g.img.nodes[k]? = some y)
    (hf : g.fault = none) : ∃ x, (s.stopPacket h i).ctx.cfg h = some x ∧ x.fault = some (nodeEp y, 0x0B3)
      ∧ (x.ports[i]?).any (·.faulted) = true ∧ (g.hang = none → (s.stopPacket h i).mem = s.mem) := by
  obtain ⟨hh, -⟩ := copySource_port hp hg
  have hcfg := State.cfg_onCfg hh hg fun g => g.onPort i fun p => { p with faulted := true }
  have hstop : s.stopPacket h i = ((s.onCfg h fun g => g.onPort i fun p => { p with faulted := true }).collarFault h false k 0x0B3).settleFault h := by
    simp only [State.stopPacket, hg, hv, hd, hsrc, hk, Option.bind_some, Bool.false_eq_true, if_false, Option.map_some]
  obtain ⟨x, hx, hports, hmem⟩ := State.stopPacket_port hp hg
  obtain ⟨x', hx', hfault, -⟩ := State.collarFault_settles hh hcfg false k 0x0B3
  rw [← hstop] at hx'
  obtain rfl := Option.some.inj (hx.symm.trans hx')
  refine ⟨x, hx, hfault.trans ?_, hports, hmem⟩
  rw [CollarCfg.withFault_fault]
  show g.fault.orElse _ = _
  rw [hf]
  show some (((g.img.nodes[k]?).map nodeEp).getD 0, _) = _
  rw [hy]; rfl

theorem exec_copyPortFullTimeout_stops {v : CopyPort} {n : Nat} (hv : (g.ports[i]?).bind (·.bound) = some v) (hn : v.full = some n)
    (hlate : n + s.ctx.csr.dceil.toNat < s.ctx.csr.budget.toNat) (hfull : 16 ≤ (s.ctx.chan v.chan.toNat).queue.length) :
    exec (.copyPortFullTimeout p) s = .next (s.stopPacket h i) := by
  have hroom : (v.full.any (fun t => t + s.ctx.csr.dceil.toNat < s.ctx.now) && chanRoom ≤ (s.ctx.chan v.chan.toNat).queue.length) = true := by
    rw [hn]
    exact Bool.and_eq_true_iff.2 ⟨decide_eq_true hlate, decide_eq_true hfull⟩
  show execCopyPortFullTimeout p s = _
  simp only [execCopyPortFullTimeout, hp, hg, hv, Option.bind_some, hroom, if_true]

variable (hhang : s.hangFirst (BitVec.ofNat 5 h) = none)
include hhang
theorem exec_copyPortPacket_token (hl : (g.part i).length < 4) {e : Nat} (he : g.portIn i 0 = some e) :
    exec (.copyPortPacket p) s = .next (s.onCfg h fun g => (g.pop e).onPort i fun x => { x with
      part := x.part ++ [g.first1 e]
      bound := if x.part.length = 3 then some { s.ctx.kports.getD p.toNat {} with full := none } else none }) := by
  show execCopyPortPacket p s = _
  simp only [execCopyPortPacket, hp, hg, hhang, hl, he, if_true]
section Whole
variable (hl : 4 ≤ (g.part i).length)
include hl
theorem exec_copyPortPacket_disabled (hen : (g.boundTo i (s.ctx.kports.getD p.toNat {})).en = false) :
    exec (.copyPortPacket p) s = .next (s.stopPacket h i) := by
  show execCopyPortPacket p s = _
  simp only [execCopyPortPacket, hp, hg, hhang, Nat.not_lt.2 hl, hen, Bool.not_false, if_true, if_false]
variable (hen : (g.boundTo i (s.ctx.kports.getD p.toNat {})).en = true)
include hen
theorem exec_copyPortPacket_poisoned (hpois : (g.part i).any (·.pois) = true) :
    exec (.copyPortPacket p) s = .next ((s.collarFault h true i 0x0B4).settleFault h) := by
  show execCopyPortPacket p s = _
  simp only [execCopyPortPacket, hp, hg, hhang, Nat.not_lt.2 hl, hen, hpois, Bool.not_true, Bool.false_eq_true, if_true, if_false]
variable (hpois : (g.part i).any (·.pois) = false)
include hpois
theorem exec_copyPortPacket_enters (hroom : (s.ctx.chan (g.boundTo i (s.ctx.kports.getD p.toNat {})).chan.toNat).queue.length < 16) :
    exec (.copyPortPacket p) s = .next (({ s with ctx := { s.ctx.onChan (g.boundTo i (s.ctx.kports.getD p.toNat {})).chan.toNat fun k => { k with
      queue := k.queue ++ [s.packetReq (g.boundTo i (s.ctx.kports.getD p.toNat {})) (g.part i)] } with ser := s.ctx.ser + 1 } } : State).onCfg h
        fun g => g.onPort i fun x => { x with part := [], bound := none }) := by
  have henq (r : CopyReq) := show s.ctx.enqueue (g.boundTo i (s.ctx.kports.getD p.toNat {})).chan.toNat r = some _ from if_pos hroom
  show execCopyPortPacket p s = _
  simp only [execCopyPortPacket, hp, hg, hhang, Nat.not_lt.2 hl, hen, hpois, henq, Bool.not_true, Bool.false_eq_true, if_false]
  rfl
theorem exec_copyPortPacket_full (hfull : 16 ≤ (s.ctx.chan (g.boundTo i (s.ctx.kports.getD p.toNat {})).chan.toNat).queue.length) :
    ∃ f, exec (.copyPortPacket p) s = .next (s.onCfg h f) := by
  have henq (r : CopyReq) := show s.ctx.enqueue (g.boundTo i (s.ctx.kports.getD p.toNat {})).chan.toNat r = none from if_neg (Nat.not_lt.2 hfull)
  refine ⟨fun g' => g'.onPort i fun x => { x with bound := some { g.boundTo i (s.ctx.kports.getD p.toNat {}) with
    full := (g.boundTo i (s.ctx.kports.getD p.toNat {})).full.orElse fun _ => some s.ctx.now } }, ?_⟩
  show execCopyPortPacket p s = _
  simp only [execCopyPortPacket, hp, hg, hhang, Nat.not_lt.2 hl, hen, hpois, henq, Bool.not_true, Bool.false_eq_true, if_false]
end Whole
end Port

end Sys2Proof.Machine
end

-- ==== Proofs of the copy family: channels and copy ports (12 R258 to R260, R266, R267; 10 R209) ====
section
/-! PROOFS. Each clause by the case of COPY_REQUEST_START, COPY_COMPLETION, COPY_PORT_PACKET or COPY_PORT_FULL_TIMEOUT that it states. -/

namespace Sys2Proof.Machine

theorem codeOf_fault (d p : Nat) : codeOf (fault d p) = 5 := codeOf_status (by decide) d p

section Clauses
variable {s : State} {ch : BitVec 3} {x : CopyRun}

/-! ### Starts -/

section Start
variable {r : CopyReq} {l : List CopyReq} (hrun : (s.ctx.chan ch.toNat).run = none) (hq : (s.ctx.chan ch.toNat).queue = r :: l)
  (howed : (s.ctx.sync.pushes.any (·.origin.unit == ch.toNat)) = false)
include hrun hq howed

/-- A request without its token leaves the queue after DCEIL cycles, with a TIMEOUT record. -/
theorem copyRequestStart_times_out (hpop : cwPop r.cw = true) (hzero : s.ctx.sync.q.getD (cwQpop r.cw) 0 = 0) {t : Nat}
    (ht : r.since = some t) (hlate : t + s.ctx.csr.dceil.toNat ≤ s.ctx.csr.budget.toNat) : ∃ u, exec (.copyRequestStart ch) s = .next u
      ∧ (u.ctx.chan ch.toNat).queue = l ∧ (u.ctx.chan ch.toNat).run = none ∧ u.mem = s.mem
      ∧ u.ctx.sync.evqHeld = s.ctx.sync.evqHeld ++ [r.record ch.toNat 1] := by
  have hexec := exec_copyRequestStart_noToken hrun hq howed hpop hzero
  rw [ht] at hexec
  dsimp only at hexec
  rw [if_pos hlate] at hexec
  have hchan := s.ctx.chan_onChan_same ch.isLt fun k => { k with queue := l }
  obtain ⟨u, hu, hnone, hqueue, hmem, -, hev⟩ := refuses_of_copyDone (s := s.onCtx fun c => c.onChan ch.toNat fun k => { k with queue := l })
    ch.isLt hexec rfl rfl rfl (.inr (codeOf_status (by decide) ..)) rfl
  exact ⟨u, hu, hqueue.trans ((congrArg Channel.queue hchan).trans rfl), hnone, hmem, hev⟩
/-- A request with its token runs with the words of its structure or its packet. -/
theorem copyRequestStart_starts (htok : cwPop r.cw = true → s.ctx.sync.q.getD (cwQpop r.cw) 0 ≠ 0) (hu : s.dev.upsets = []) :
    ∃ u x, exec (.copyRequestStart ch) s = .next u ∧ (u.ctx.chan ch.toNat).queue = l ∧ (u.ctx.chan ch.toNat).run = some x
      ∧ s.Started r x ∧ u.mem = s.mem ∧ u.fir = s.fir
      ∧ u.ctx.sync.q = if cwPop r.cw then setV s.ctx.sync.q (cwQpop r.cw) (s.ctx.sync.q.getD (cwQpop r.cw) 0 - 1) else s.ctx.sync.q := by
  have hexec := exec_copyRequestStart_starts hrun hq howed htok
  generalize hv : (s.onSync fun y => { y with
      q := if cwPop r.cw then setV y.q (cwQpop r.cw) (y.q.getD (cwQpop r.cw) 0 - 1) else y.q }) = v at hexec
  have hw : (v.onCtx fun c => c.onChan ch.toNat fun k => { k with queue := l }).dev.upsets = [] := by rw [← hv]; exact hu
  obtain ⟨x, hx, hcopy⟩ := State.copyStart_started hw ch.toNat r
  have hchan := v.ctx.chan_onChan_same ch.isLt fun k => { k with queue := l }
  have hchan' := (v.ctx.onChan ch.toNat fun k => { k with queue := l }).chan_onChan_same ch.isLt fun k => { k with run := some x }
  refine ⟨_, x, hexec.trans (congrArg Host.Outcome.next hcopy), (congrArg Channel.queue hchan').trans ((congrArg Channel.queue hchan).trans rfl),
    (congrArg Channel.run hchan').trans rfl, ?_, ?_, ?_, ?_⟩
  · subst hv; exact ⟨hx.kind, hx.cw, hx.merge, hx.blk, hx.hold, hx.rd, hx.given, hx.read, hx.described⟩
  · rw [← hv]; rfl
  · rw [← hv]; rfl
  · rw [← hv]; rfl
end Start

/-! ### Completions -/

/-- A list of sound words is read to its end. -/
theorem copyCompletion_lists {o : Word} (hrun : (s.ctx.chan ch.toNat).run = some x) (hh : x.hold = none) (hst : x.status = none)
    (hc : x.req.coll = none) (ho : x.req.listAt = some o) (hl : x.list.length < x.req.count) (hu : s.dev.upsets = []) (hal : o.toNat % 8 = 0)
    (hin : o.toNat + 8 * x.req.count ≤ s.ctx.winSize) (hok : ∀ i, x.list.length ≤ i → i < x.req.count →
      s.winPois (o.toNat + 8 * i) = false ∧ (s.winWord (o.toNat + 8 * i)).toNat % 8 = 0) :
    ∃ t z, exec (.copyCompletion ch) s = .next t ∧ (t.ctx.chan ch.toNat).run = some z ∧ z.req = x.req ∧ z.status = none
      ∧ z.list.length = x.req.count ∧ t.mem = s.mem ∧ t.fir = s.fir
      ∧ ∀ i, x.list.length ≤ i → i < x.req.count → z.list.getD i 0 = s.winWord (o.toNat + 8 * i) := by
  have hsub : x.req.count - (x.req.count - x.list.length) = x.list.length := by omega
  have hread := copyListGo_reads (n := ch.toNat) hu (Nat.sub_le x.req.count x.list.length) hal hin fun i hi hi' => hok i (by omega) hi'
  rw [hsub] at hread
  refine ⟨_, { x with list := x.list ++ (List.range' x.list.length (x.req.count - x.list.length)).map fun i => s.winWord (o.toNat + 8 * i) },
    (exec_copyCompletion_list hrun hh hst hc ho hl).trans (congrArg Host.Outcome.next hread), ?_, rfl, hst, ?_, rfl, rfl, fun i hi hi' => ?_⟩
  · rw [State.run_onRun ch.isLt, hrun]; rfl
  · rw [List.length_append, List.length_map, List.length_range']; omega
  · have hlt : i - x.list.length < x.req.count - x.list.length := by omega
    rw [List.getD_eq_getElem?_getD, List.getElem?_append_right hi, List.getElem?_map, List.getElem?_range' hlt]
    simp only [Option.map_some, Option.getD_some, Nat.one_mul, Nat.add_sub_of_le hi]
/-- A plain block between places of the window ends with each word as it stood when it was read. -/
theorem copyCompletion_moves {a b : Word} (hrun : (s.ctx.chan ch.toNat).run = some x) (hh : x.hold = none) (hst : x.status = none)
    (hkind : x.req.kind = 0) (hmerge : x.req.merge = none) (hc : x.req.coll = none) (hrd : x.rd = []) (hwr : x.wr = 0)
    (hblk : x.blk < x.req.total) (hsrc : x.srcOf x.blk = (a, true)) (hdst : x.dstOf x.blk = (b, true)) (ha : a.toNat % 8 = 0)
    (hb : b.toNat % 8 = 0) (hina : a.toNat + 64 ≤ s.ctx.winSize) (hinb : b.toNat + 64 ≤ s.ctx.winSize) (hu : s.dev.upsets = [])
    (hwf : s.mem.wf = true) (hrow : s.ctx.id.row + 2 ^ (9 + s.ctx.id.wlog.toNat) ≤ 4096) :
    ∃ m q, s.Moved a b 8 m ∧ exec (.copyCompletion ch) s =
      .next (s.running ch.toNat m { x with blk := x.blk + 1, rd := [], wr := 0, poisoned := q }) := by
  have hlist : x.req.listAt = none := by rw [CopyReq.listAt, hkind]; rfl
  obtain ⟨m, q, hmoved, hblock⟩ := State.copyBlock_moves ch.isLt hmerge hsrc hdst ha hb hina hinb hu hrow hrun hrd hwr hwf
  exact ⟨m, q, hmoved, (exec_copyCompletion_blocks hrun hh hst hc (.inl hlist)).trans (by rw [if_pos hblk, hblock])⟩
/-- After the last block the request ends, once its writes are performed. -/
theorem copyCompletion_ends (hrun : (s.ctx.chan ch.toNat).run = some x) (hh : x.hold = none) (hst : x.status = none)
    (hc : x.req.coll = none) (hl : x.req.listAt = none ∨ x.req.count ≤ x.list.length) (hblk : x.req.total ≤ x.blk) :
    (s.copyPerformed ch.toNat x.req = true → s.Ends ch.toNat x.req
      (if x.poisoned = 0 then status 0 0 x.req.total else status 8 0 x.poisoned) (exec (.copyCompletion ch) s))
    ∧ (s.copyPerformed ch.toNat x.req = false → exec (.copyCompletion ch) s = .next s) := by
  have hexec := exec_copyCompletion_blocks hrun hh hst hc hl
  rw [if_neg (Nat.not_lt.2 hblk), State.copyEnd] at hexec
  have hcode : codeOf (if x.poisoned = 0 then status 0 0 x.req.total else status 8 0 x.poisoned) = 0
      ∨ codeOf (if x.poisoned = 0 then status 0 0 x.req.total else status 8 0 x.poisoned) = 8 := by
    split
    · exact .inl (codeOf_status (by decide) ..)
    · exact .inr (codeOf_status (by decide) ..)
  refine ⟨fun hp => ?_, fun hp => ?_⟩
  · rw [if_pos hp] at hexec
    exact ends_of_copyDone (u := s) ch.isLt hexec rfl rfl rfl hcode
  · rw [hp] at hexec; exact hexec
/-- A request with a status to refuse it ends with that, once its writes are performed. -/
theorem copyCompletion_refuses {d : Nat} (hrun : (s.ctx.chan ch.toNat).run = some x) (hh : x.hold = none) (hst : x.status = some (fault d 0)) :
    (s.copyPerformed ch.toNat x.req = true → s.Refuses ch.toNat x.req (fault d 0) (exec (.copyCompletion ch) s))
    ∧ (s.copyPerformed ch.toNat x.req = false → exec (.copyCompletion ch) s = .next s) := by
  have hexec := exec_copyCompletion_refused hrun hh hst
  refine ⟨fun hp => ?_, fun hp => ?_⟩
  · rw [if_pos hp] at hexec
    exact refuses_of_copyDone (u := s) ch.isLt hexec rfl rfl rfl (.inl (codeOf_fault ..)) rfl
  · rw [hp] at hexec; exact hexec

/-! ### Collectives -/

/-- A step of a collective that ends it in a refusal. -/
theorem refuses_of_collStep {k : CollKind} {u : State} {d : Nat} (hexec : exec (.copyCompletion ch) s = .next (s.collStep ch.toNat x k))
    (hstep : s.collStep ch.toNat x k = u.copyDone ch.toNat x.req (fault d 0)) (hctx : u.ctx = s.ctx) (hfir : u.fir = s.fir) (hmem : u.mem = s.mem) :
    s.Refuses ch.toNat x.req (fault d 0) (exec (.copyCompletion ch) s) :=
  refuses_of_copyDone (u := u) ch.isLt (hexec.trans (congrArg Host.Outcome.next hstep)) (by rw [hctx]) (by rw [hctx]) hfir (.inl (codeOf_fault ..)) hmem

section Collective
variable {kd : CollKind} (hrun : (s.ctx.chan ch.toNat).run = some x) (hh : x.hold = none) (hst : x.status = none) (hcoll : x.req.coll = some kd)
include hrun hh hst hcoll

/-- The elements of a collective's SRC are read to their end. -/
theorem copyCompletion_reads (hc : x.coll = none) (hd : x.descOk kd = true) (hr : x.descRange = true)
    (hi : x.cFirst + x.cNpart ≤ s.instances) (hlo : x.cFirst ≤ s.ctx.id.index) (hhi : s.ctx.id.index < x.cFirst + x.cNpart)
    (hl : x.rd.length < x.cCount) (hin : x.cSrc + x.cSize * x.cCount ≤ s.ctx.winSize) (hu : s.dev.upsets = []) :
    ∃ t z, exec (.copyCompletion ch) s = .next t ∧ (t.ctx.chan ch.toNat).run = some z ∧ z.req = x.req ∧ z.coll = none
      ∧ z.rd.length = x.cCount ∧ t.mem = s.mem ∧ t.fir = s.fir := by
  have hstep := (exec_copyCompletion_coll hrun hh hst hcoll).trans (congrArg Host.Outcome.next ((State.collStep_reads hc hd hr hi hlo hhi hl).trans
    (collRead_reads hu x.cSize_cases (CopyRun.descOk_aligned hd) hin (Nat.sub_le ..))))
  refine ⟨_, _, hstep, (State.run_onRun ch.isLt _).trans (congrArg (Option.map _) hrun), rfl, hc, ?_, rfl, rfl⟩
  rw [List.length_append, List.length_map, List.length_range']; omega
theorem copyCompletion_joins (hc : x.coll = none) (hd : x.descOk kd = true) (hr : x.descRange = true)
    (hi : x.cFirst + x.cNpart ≤ s.instances) (hlo : x.cFirst ≤ s.ctx.id.index) (hhi : s.ctx.id.index < x.cFirst + x.cNpart)
    (hl : x.cCount ≤ x.rd.length) : ∃ t z, exec (.copyCompletion ch) s = .next t ∧ (t.ctx.chan ch.toNat).run = some z ∧ z.req = x.req
      ∧ z.coll.isSome = true ∧ t.mem = s.mem ∧ t.fir = s.fir := by
  obtain ⟨hmem, hfir, key, hkey⟩ := State.collJoin_joins ch.isLt hrun kd
  exact ⟨_, _, (exec_copyCompletion_coll hrun hh hst hcoll).trans (congrArg Host.Outcome.next (State.collStep_joins hc hd hr hi hlo hhi hl)),
    hkey, rfl, rfl, hmem, hfir⟩
end Collective
end Clauses

/-! ### Copy ports -/

section Port
variable {s : State} {p : BitVec 2} {h i : Nat} {g : CollarCfg} (hp : s.ctx.copySource p.toNat = some (h, i)) (hg : s.ctx.cfg h = some g)
  (hhang : s.hangFirst (BitVec.ofNat 5 h) = none)
include hp hg hhang

theorem copyPortPacket_gathers {e : Nat} (hl : (g.part i).length < 4) (he : g.portIn i 0 = some e) :
    ∃ t x, exec (.copyPortPacket p) s = .next t ∧ t.ctx.cfg h = some x ∧ x.part i = g.part i ++ [g.first1 e]
      ∧ t.ctx.chans = s.ctx.chans ∧ t.mem = s.mem ∧ t.fir = s.fir := by
  obtain ⟨hh, y, hy⟩ := copySource_port hp hg
  refine ⟨_, _, exec_copyPortPacket_token hp hg hhang hl he, State.cfg_onCfg hh hg _, ?_, rfl, rfl, rfl⟩
  have hports (f : PortSt → PortSt) : (((g.accrue s.ctx.now).pop e).onPort i f).ports[i]? = some (f y) := by
    show (modAt g.ports i f)[i]? = _
    rw [getElem?_modAt, if_pos rfl, hy]; rfl
  simp only [CollarCfg.part, hports, hy, Option.map_some, Option.getD_some]
  rfl
section Whole
variable (hl : 4 ≤ (g.part i).length) (hen : (g.boundTo i (s.ctx.kports.getD p.toNat {})).en = true)
include hl hen

theorem copyPortPacket_enters (hpois : (g.part i).any (·.pois) = false)
    (hroom : (s.ctx.chan (g.boundTo i (s.ctx.kports.getD p.toNat {})).chan.toNat).queue.length < 16) :
    ∃ t, exec (.copyPortPacket p) s = .next t ∧ t.mem = s.mem ∧ t.fir = s.fir
      ∧ (t.ctx.chan (g.boundTo i (s.ctx.kports.getD p.toNat {})).chan.toNat).queue =
        (s.ctx.chan (g.boundTo i (s.ctx.kports.getD p.toNat {})).chan.toNat).queue
          ++ [s.packetReq (g.boundTo i (s.ctx.kports.getD p.toNat {})) (g.part i)] :=
  ⟨_, exec_copyPortPacket_enters hp hg hhang hl hen hpois hroom, rfl, rfl,
    (congrArg Channel.queue (s.ctx.chan_onChan_same (BitVec.isLt _) _)).trans rfl⟩
theorem copyPortPacket_poisoned (hpois : (g.part i).any (·.pois) = true) :
    ∃ t x, exec (.copyPortPacket p) s = .next t ∧ t.ctx.cfg h = some x ∧ x.fault.isSome = true ∧ (g.hang = none → t.mem = s.mem) := by
  obtain ⟨hh, -⟩ := copySource_port hp hg
  obtain ⟨x, hx, hfault, -, hmem⟩ := State.collarFault_settles hh hg true i 0x0B4
  refine ⟨_, x, exec_copyPortPacket_poisoned hp hg hhang hl hen hpois, hx, ?_, fun hn => hmem ((CollarCfg.withFault_hang ..).trans hn)⟩
  rw [hfault, CollarCfg.withFault_fault, CollarCfg.accrue_fault]
  cases g.fault <;> rfl
end Whole
end Port

/-- Settles O37: each clause by the step's own case. -/
theorem copyChannelsRunRequests : Obligations.CopyChannelsRunRequests := by
  intro s ch p
  refine ⟨exec_copyRequestStart_idle, fun r l hrun hq howed => ⟨fun hpop hzero => ?_, fun htok hu => ?_⟩, exec_copyCompletion_idle,
    fun x d hrun hh hst _ _ => copyCompletion_refuses hrun hh hst,
    fun x o ⟨hrun, hh, hst⟩ hc ho hl hu hal hin hok => copyCompletion_lists hrun hh hst hc ho hl hu hal hin hok,
    fun x ⟨hrun, hh, hst⟩ hc hl hblk _ => ?_,
    fun x a b ⟨hrun, hh, hst⟩ hkind hmerge hc hrd hwr hblk hsrc hdst ha hb hina hinb hu hwf hrow => ?_,
    fun x ⟨hrun, hh, hst⟩ hc hl hblk => copyCompletion_ends hrun hh hst hc hl hblk,
    fun x kd ⟨hrun, hh, hst⟩ hcoll => ?_, fun hp => ?_, fun h i g hp hg hhang => ?_⟩
  · have hexec := exec_copyRequestStart_noToken hrun hq howed hpop hzero
    refine ⟨fun hs => ?_, fun t ht hlt => ?_, fun t ht hlate => copyRequestStart_times_out hrun hq howed hpop hzero ht hlate⟩
    · rw [hexec, hs]; rfl
    · rw [hexec, ht]; exact if_neg (Nat.not_le.2 hlt)
  · obtain ⟨u, x, hexec, hqueue, hx, hstart, hmem, hfir, htoken⟩ := copyRequestStart_starts hrun hq howed htok hu
    exact ⟨u, x, hexec, hqueue, hx, hstart.kind, hstart.cw, hstart.merge, hstart.blk, hstart.hold, hstart.rd, hmem, hfir, htoken,
      hstart.given, hstart.read, hstart.described⟩
  · obtain ⟨z, hz, hreq, hfir, hend⟩ := State.copyBlock_passes_or_holds ch.isLt hrun hh
    exact ⟨_, z, (exec_copyCompletion_blocks hrun hh hst hc hl).trans (by rw [if_pos hblk]), hz, hreq, hfir, hend⟩
  · obtain ⟨m, q, hmoved, hexec⟩ := copyCompletion_moves hrun hh hst hkind hmerge hc hrd hwr hblk hsrc hdst ha hb hina hinb hu hwf hrow
    exact ⟨_, hexec, fun i hi => ⟨hmoved.fresh i hi, fun j hj => hmoved.overlap i hi j hj⟩, hmoved.others, rfl, rfl, _,
      State.running_run ch.isLt _ _, rfl, rfl, rfl, rfl⟩
  · have hexec := exec_copyCompletion_coll hrun hh hst hcoll
    refine ⟨fun hc => ⟨fun hd => refuses_of_collStep hexec (State.collStep_badDescriptor hc hd) rfl rfl rfl,
      fun hd hr => refuses_of_collStep hexec (State.collStep_badRange hc hd hr) rfl rfl rfl,
      fun hd hr => ⟨fun hi => refuses_of_collStep hexec (State.collStep_noInstances hc hd hr hi) rfl rfl rfl,
        fun hi hn => refuses_of_collStep hexec (State.collStep_notParticipant hc hd hr hi hn) rfl rfl rfl,
        fun hi hlo hhi => ⟨copyCompletion_reads hrun hh hst hcoll hc hd hr hi hlo hhi, copyCompletion_joins hrun hh hst hcoll hc hd hr hi hlo hhi⟩⟩⟩,
      fun key c hc hs => ⟨fun hl => ?_, fun hl => ⟨fun hd => refuses_of_collStep hexec (State.collStep_differs hc hs hl hd) rfl rfl rfl, ?_⟩⟩⟩
    · rw [hexec, State.collStep_waits hc hs hl]
    · rintro hd r me rfl hme
      refine ⟨fun hk => refuses_of_collStep hexec (State.collStep_kerf hc hs hl hd hme hk) rfl rfl rfl, fun hk ho => ?_,
        fun m next hk ho hleft hnext hj => ?_, fun hk ho hleft => ⟨fun hunfinished => ?_, fun hall hal hin => ?_⟩⟩
      · rw [hexec, State.collStep_underWay hc hs hl hd hme hk ho]
      · obtain ⟨q, hq⟩ := State.sendExchange_sends hj ch.toNat key next m
        exact ⟨_, q, hexec.trans (congrArg Host.Outcome.next (State.collStep_sends hc hs hl hd hme hk ho hleft hnext)), hq⟩
      · have hany : c.parts.any (fun p => p.lost || p.kerf || p.out.isSome || p.left != some 0) = true := by
          obtain ⟨y, hy, hy'⟩ := hunfinished
          refine List.any_eq_true.2 ⟨y, hy, ?_⟩
          simpa [or_assoc] using hy'
        rw [hexec, State.collStep_last hc hs hl hd hme hk ho hleft, if_pos hany]
      · rw [hexec]
        exact State.collStep_ends ch.isLt hc hs hl hd hme hk ho hleft hall hal hin
  · constructor
    · show execCopyPortPacket p s = _
      rw [execCopyPortPacket, hp]
    · show execCopyPortFullTimeout p s = _
      rw [execCopyPortFullTimeout, hp]
  · refine ⟨fun e hl he => copyPortPacket_gathers hp hg hhang hl he, fun hl hen hpois => ⟨fun hroom => ?_, fun hfull => ?_⟩,
      fun hl hen hpois => copyPortPacket_poisoned hp hg hhang hl hen hpois, fun v d k y hl hen hv hd hsrc hk hy hf => ?_,
      fun v n hv hn hlate hfull => ?_⟩
    · obtain ⟨t, hexec, hmem, hfir, hqueue⟩ := copyPortPacket_enters hp hg hhang hl hen hpois hroom
      exact ⟨t, _, hexec, hmem, hfir, hqueue, rfl, rfl, rfl, State.packetReq_words ..⟩
    · obtain ⟨f, hexec⟩ := exec_copyPortPacket_full hp hg hhang hl hen hpois hfull
      exact ⟨_, hexec, rfl, rfl, rfl⟩
    · exact ⟨_, (State.stopPacket_sender hp hg hv hd hsrc hk hy hf).imp fun x hx => ⟨exec_copyPortPacket_disabled hp hg hhang hl hen, hx⟩⟩
    · exact ⟨_, (State.stopPacket_port hp hg).imp fun x hx => ⟨exec_copyPortFullTimeout_stops hp hg hv hn hlate hfull, hx⟩⟩

end Sys2Proof.Machine
end
